-- ==== Sys2Proof/Word.lean ====
section
/-! DEFINITION. The words of the module and the plain data types the commands carry. -/
namespace Sys2Proof

/-- A 64-bit register or little-endian word (R10). -/
abbrev Word := BitVec 64
/-- One byte. -/
abbrev Byte := BitVec 8
/-- A byte string in address order. -/
abbrev Bytes := List Byte
/-- One 128-bit step (R67). -/
abbrev StepWord := BitVec 128

/-- The clock islands of R25. A cell is named by its physical position 40d + p. -/
inductive Island where
  | cell (pos : Nat) | rowEngine (s : Nat) | dieFabric (d : Nat) | control | host
  | copyEngine (e : Nat) | cartridge | network | horvi | steward
  deriving DecidableEq, Repr

/-- What the drain switch acts on (R33). -/
inductive Target where
  | cell (g : Nat) | partition (n : Nat) | whole
  deriving DecidableEq, Repr

/-- The service classes LC and BE. -/
inductive Cls where
  | lc | be
  deriving DecidableEq, Repr

/-- The agents of R240 and the senders of tokens (R62). -/
inductive Agent where
  | cell (g : Nat) | frontEnd (d : Nat) | rowEngine (s : Nat) | copyEngine (e : Nat)
  | network | horvi | control
  deriving DecidableEq, Repr

/-- What a DRAM read finds: nothing, one 16-bit symbol, or more (R195). -/
inductive EccErr where
  | none | corrected | uncorrectable
  deriving DecidableEq, Repr

/-- The checks of a row engine (R138). -/
inductive EngineErr where
  | none | poolResidue | addResidue | dedupUncorrectable | tagUncorrectable
  deriving DecidableEq, Repr

/-- How a read of host memory ended (R291). -/
inductive ReadOutcome where
  | ok | failed
  deriving DecidableEq, Repr

/-- Why a Caernic frame is discarded (R353, R356, R358, R361, R373). -/
inductive BadFrame where
  | unknownPeer | version | type | fcs | fecUncorrectable | macsec | checksum | oversize | bufferFull
  deriving DecidableEq, Repr

/-- The input conditions of R444 that stop the module. -/
inductive PowerCause where
  | underVoltage | overVoltage | rail
  deriving DecidableEq, Repr

/-- The sustained thermal conditions of R448. -/
inductive ThermalCond where
  | logicDie (sensor : Nat) | stack (s : Nat) | inlet | flow
  deriving DecidableEq, Repr

/-- A unit named by SRC_KIND, SRC_INDEX and SRC_SUB (R400). -/
structure UnitId where
  kind : Nat
  index : Nat
  sub : Nat
  deriving DecidableEq, Repr

/-- A report to the fault concentrator, with the fields of R399 that the reporter supplies. -/
structure Report where
  cls : Nat
  unit : UnitId
  subcode : Nat
  part : Option Nat
  info0 : Word
  info1 : Word
  handle : Nat
  step : Nat
  kind : Nat
  time : Nat
  /-- the report comes from the suspected source itself (R404) -/
  selfReport : Bool
  deriving DecidableEq, Repr

/-- The SMART / Health page as the steward reads it (R430). -/
structure Smart where
  dataUnits : Nat
  critical : BitVec 8
  fatal : Bool
  deriving DecidableEq, Repr

/-- What an inserted cartridge answers (R428, R431). -/
structure CartInfo where
  identity : Bytes
  lba4k : Bool
  blocks : Nat
  width : Nat
  smart : Smart
  deriving DecidableEq, Repr

/-- A frame of the Caernic transport (R361) or of the Horvi link (R378): four header words and a payload. -/
structure Frame where
  w0 : Word
  w1 : Word
  w2 : Word
  w3 : Word
  payload : Bytes
  deriving DecidableEq, Repr

/-- Bits [hi:lo] of a number (R10). -/
def bits (v hi lo : Nat) : Nat := (v >>> lo) % 2 ^ (hi + 1 - lo)

/-- Bit n of a number (R10). -/
def bit (v n : Nat) : Bool := v.testBit n

/-- A Bool as 0 or 1. -/
def b2n (b : Bool) : Nat := if b then 1 else 0

end Sys2Proof
end

