-- ==== Sys2Proof/Syntax.lean ====
section
/-! DEFINITION. The commands of the module: one constructor per row of spec/opcode_table.json, with the row's operands.
A step row carries the logical cell g that issues it and the 128-bit step word (R67); an array step also carries the
outcome of its residue check (R52). -/
namespace Sys2Proof

/-- The commands, operations and events of the module. -/
inductive Instr where
  /-- REGISTER_WRITE (R12) -/
  | registerWrite (fn : Nat) (off : Nat) (size : Nat) (val : BitVec 64)
  /-- GLB_MTIME_LOW_READ (R31) -/
  | glbMtimeLowRead (fn : Nat)
  /-- GLB_MTIME_HIGH_READ (R31) -/
  | glbMtimeHighRead (fn : Nat)
  /-- SHADOW_SET_COPY (R36) -/
  | shadowSetCopy (island : Island)
  /-- LINK_RETRY (R23) -/
  | linkRetry (edge : Nat) (ucie : Nat)
  /-- LANE_REPAIR (R23) -/
  | laneRepair (edge : Nat) (ucie : Nat) (lane : Nat)
  /-- ISLAND_CLOCK_SET (R34) -/
  | islandClockSet (island : Island) (mhz : Nat) (mv : Nat)
  /-- DRAIN_COMMAND (R33) -/
  | drainCommand (target : Target)
  /-- NOP (R69) -/
  | nop (g : Nat) (w : StepWord)
  /-- LOOP (R61) -/
  | loop (g : Nat) (w : StepWord)
  /-- ENDLOOP (R61) -/
  | endloop (g : Nat) (w : StepWord)
  /-- WAIT (R64) -/
  | wait (g : Nat) (w : StepWord)
  /-- WAITANY (R64) -/
  | waitany (g : Nat) (w : StepWord)
  /-- POSTC (R63) -/
  | postc (g : Nat) (w : StepWord)
  /-- POSTT (R63) -/
  | postt (g : Nat) (w : StepWord)
  /-- EBIND (R307) -/
  | ebind (g : Nat) (w : StepWord)
  /-- LAYER (R65) -/
  | layer (g : Nat) (w : StepWord)
  /-- SEL (R69) -/
  | sel (g : Nat) (w : StepWord)
  /-- TSEL (R69) -/
  | tsel (g : Nat) (w : StepWord)
  /-- REL (R244) -/
  | rel (g : Nat) (w : StepWord)
  /-- ACQ (R246) -/
  | acq (g : Nat) (w : StepWord)
  /-- FENCE (R69) -/
  | fence (g : Nat) (w : StepWord)
  /-- MARK (R69) -/
  | mark (g : Nat) (w : StepWord)
  /-- END (R69) -/
  | endStep (g : Nat) (w : StepWord)
  /-- SMOV (R69) -/
  | smov (g : Nat) (w : StepWord)
  /-- SADD (R60) -/
  | sadd (g : Nat) (w : StepWord)
  /-- SSUB (R60) -/
  | ssub (g : Nat) (w : StepWord)
  /-- SMUL (R60) -/
  | smul (g : Nat) (w : StepWord)
  /-- SAND (R69) -/
  | sand (g : Nat) (w : StepWord)
  /-- SOR (R69) -/
  | sor (g : Nat) (w : StepWord)
  /-- SXOR (R69) -/
  | sxor (g : Nat) (w : StepWord)
  /-- SSHL (R60) -/
  | sshl (g : Nat) (w : StepWord)
  /-- SSHR (R60) -/
  | sshr (g : Nat) (w : StepWord)
  /-- SCMP (R69) -/
  | scmp (g : Nat) (w : StepWord)
  /-- SFOP (R102) -/
  | sfop (g : Nat) (w : StepWord)
  /-- SLD (R245) -/
  | sld (g : Nat) (w : StepWord)
  /-- SST (R245) -/
  | sst (g : Nat) (w : StepWord)
  /-- TLD (R264) -/
  | tld (g : Nat) (w : StepWord)
  /-- TST (R265) -/
  | tst (g : Nat) (w : StepWord)
  /-- TLDS (R264) -/
  | tlds (g : Nat) (w : StepWord)
  /-- TSTS (R265) -/
  | tsts (g : Nat) (w : StepWord)
  /-- TMOV (R69) -/
  | tmov (g : Nat) (w : StepWord)
  /-- TZERO (R69) -/
  | tzero (g : Nat) (w : StepWord)
  /-- TFILL (R90) -/
  | tfill (g : Nat) (w : StepWord)
  /-- TTRN (R69) -/
  | ttrn (g : Nat) (w : StepWord)
  /-- TROW (R69) -/
  | trow (g : Nat) (w : StepWord)
  /-- TMASK (R69) -/
  | tmask (g : Nat) (w : StepWord)
  /-- MLOAD (R48) -/
  | mload (g : Nat) (w : StepWord)
  /-- MMA (R47) -/
  | mma (g : Nat) (w : StepWord) (bad : Bool)
  /-- MMAT (R49) -/
  | mmat (g : Nat) (w : StepWord) (bad : Bool)
  /-- MDL2 (R51) -/
  | mdl2 (g : Nat) (w : StepWord) (bad : Bool)
  /-- MDNIP (R51) -/
  | mdnip (g : Nat) (w : StepWord) (bad : Bool)
  /-- MDL1 (R51) -/
  | mdl1 (g : Nat) (w : StepWord) (bad : Bool)
  /-- MDHAM (R51) -/
  | mdham (g : Nat) (w : StepWord) (bad : Bool)
  /-- MDMAX (R51) -/
  | mdmax (g : Nat) (w : StepWord) (bad : Bool)
  /-- MDMIN (R51) -/
  | mdmin (g : Nat) (w : StepWord) (bad : Bool)
  /-- MWAIT (R69) -/
  | mwait (g : Nat) (w : StepWord)
  /-- TKINIT (R53) -/
  | tkinit (g : Nat) (w : StepWord)
  /-- TKMERGE (R54) -/
  | tkmerge (g : Nat) (w : StepWord)
  /-- TKREAD (R55) -/
  | tkread (g : Nat) (w : StepWord)
  /-- TKTHR (R55) -/
  | tkthr (g : Nat) (w : StepWord)
  /-- VADD (R98) -/
  | vadd (g : Nat) (w : StepWord)
  /-- VSUB (R98) -/
  | vsub (g : Nat) (w : StepWord)
  /-- VMUL (R98) -/
  | vmul (g : Nat) (w : StepWord)
  /-- VMAX (R101) -/
  | vmax (g : Nat) (w : StepWord)
  /-- VMIN (R101) -/
  | vmin (g : Nat) (w : StepWord)
  /-- VFMA (R98) -/
  | vfma (g : Nat) (w : StepWord)
  /-- VAND (R102) -/
  | vand (g : Nat) (w : StepWord)
  /-- VOR (R102) -/
  | vor (g : Nat) (w : StepWord)
  /-- VXOR (R102) -/
  | vxor (g : Nat) (w : StepWord)
  /-- VCMP (R101) -/
  | vcmp (g : Nat) (w : StepWord)
  /-- VSELM (R69) -/
  | vselm (g : Nat) (w : StepWord)
  /-- VABS (R98) -/
  | vabs (g : Nat) (w : StepWord)
  /-- VNEG (R98) -/
  | vneg (g : Nat) (w : StepWord)
  /-- VRELU (R98) -/
  | vrelu (g : Nat) (w : StepWord)
  /-- VGELU (R99) -/
  | vgelu (g : Nat) (w : StepWord)
  /-- VSILU (R99) -/
  | vsilu (g : Nat) (w : StepWord)
  /-- VSIGM (R99) -/
  | vsigm (g : Nat) (w : StepWord)
  /-- VTANH (R99) -/
  | vtanh (g : Nat) (w : StepWord)
  /-- VEXP (R99) -/
  | vexp (g : Nat) (w : StepWord)
  /-- VLOG (R99) -/
  | vlog (g : Nat) (w : StepWord)
  /-- VRSQRT (R99) -/
  | vrsqrt (g : Nat) (w : StepWord)
  /-- VRCP (R99) -/
  | vrcp (g : Nat) (w : StepWord)
  /-- VSQRT (R99) -/
  | vsqrt (g : Nat) (w : StepWord)
  /-- VRSUM (R57) -/
  | vrsum (g : Nat) (w : StepWord)
  /-- VCSUM (R57) -/
  | vcsum (g : Nat) (w : StepWord)
  /-- VRMAX (R57) -/
  | vrmax (g : Nat) (w : StepWord)
  /-- VCMAX (R57) -/
  | vcmax (g : Nat) (w : StepWord)
  /-- VLNORM (R100) -/
  | vlnorm (g : Nat) (w : StepWord)
  /-- VRMSN (R100) -/
  | vrmsn (g : Nat) (w : StepWord)
  /-- VSMAX (R100) -/
  | vsmax (g : Nat) (w : StepWord)
  /-- VBCAST (R69) -/
  | vbcast (g : Nat) (w : StepWord)
  /-- VCVT (R57) -/
  | vcvt (g : Nat) (w : StepWord)
  /-- VQGRP (R103) -/
  | vqgrp (g : Nat) (w : StepWord)
  /-- VDQGRP (R105) -/
  | vdqgrp (g : Nat) (w : StepWord)
  /-- GATH (R107) -/
  | gath (g : Nat) (w : StepWord)
  /-- RADD (R126) -/
  | radd (g : Nat) (w : StepWord)
  /-- RWR (R126) -/
  | rwr (g : Nat) (w : StepWord)
  /-- SSTART (R173) -/
  | sstart (g : Nat) (w : StepWord)
  /-- SSTOP (R178) -/
  | sstop (g : Nat) (w : StepWord)
  /-- CHFWD (R186) -/
  | chfwd (g : Nat) (w : StepWord)
  /-- RSTORE (R179) -/
  | rstore (g : Nat) (w : StepWord)
  /-- HLD (R334) -/
  | hld (g : Nat) (w : StepWord)
  /-- HST (R334) -/
  | hst (g : Nat) (w : StepWord)
  /-- TOKEN_ARRIVAL (R62) -/
  | tokenArrival (g : Nat) (n : Nat)
  /-- CREDIT_RETURN (R63) -/
  | creditReturn (g : Nat) (n : Nat)
  /-- TIMEOUT_EDGE (R255) -/
  | timeoutEdge (g : Nat)
  /-- JOB_ENDED (R72) -/
  | jobEnded (g : Nat)
  /-- CELL_CNT_FREEZE (R79) -/
  | cellCntFreeze (pos : Nat) (b : Bool)
  /-- CELL_CNT_CLEAR (R79) -/
  | cellCntClear (pos : Nat)
  /-- CELL_FAULT_VALID_CLEAR (R79) -/
  | cellFaultValidClear (pos : Nat)
  /-- FRONT_END_REQUEST (R115) -/
  | frontEndRequest (d : Nat)
  /-- REQUEST_PART (R133) -/
  | requestPart (s : Nat)
  /-- ROW_FETCH_DONE (R131) -/
  | rowFetchDone (s : Nat) (n : Nat) (err : EngineErr)
  /-- PART_DONE (R107) -/
  | partDone (req : Nat) (s : Nat)
  /-- RE_CNT_FREEZE (R137) -/
  | reCntFreeze (s : Nat) (b : Bool)
  /-- RE_CNT_CLEAR (R137) -/
  | reCntClear (s : Nat)
  /-- RE_TAGS_READ (R137) -/
  | reTagsRead (s : Nat)
  /-- RE_FAULT_VALID_CLEAR (R138) -/
  | reFaultValidClear (s : Nat)
  /-- STAGE (R153) -/
  | stage (p : Nat) (table : Nat)
  /-- PUBLISH (R146) -/
  | publish (p : Nat) (table : Nat)
  /-- WAIT_SLOT_PUBLISH (R146) -/
  | waitSlotPublish (p : Nat)
  /-- PUBLISH_DONE (R146) -/
  | publishDone (p : Nat)
  /-- ABORT (R152) -/
  | abort (p : Nat) (table : Nat)
  /-- QUERY (R152) -/
  | query (p : Nat) (table : Nat)
  /-- BIND (R152) -/
  | bind (p : Nat) (table : Nat)
  /-- RELEASE (R152) -/
  | release (p : Nat)
  /-- PUBLISH_SET (R152) -/
  | publishSet (p : Nat)
  /-- TBL_CMD_NOP (R152) -/
  | tblCmdNop (p : Nat) (op : Nat)
  /-- ROW_CACHE_SWEEP_DONE (R149) -/
  | rowCacheSweepDone (table : Nat) (epoch : Nat)
  /-- SKETCH_HALVING (R154) -/
  | sketchHalving (s : Nat)
  /-- COUNT_MESSAGE_SEND (R154) -/
  | countMessageSend (s : Nat) (home : Nat)
  /-- COUNT_MESSAGE (R154) -/
  | countMessage (s : Nat)
  /-- REPLICA_SET_CREATED (R156) -/
  | replicaSetCreated (s : Nat)
  /-- REPLICA_WRITE (R157) -/
  | replicaWrite (s : Nat)
  /-- REPLICA_WRITE_ACK (R157) -/
  | replicaWriteAck (s : Nat)
  /-- REPLICA_LAG_EXPIRY (R157) -/
  | replicaLagExpiry (s : Nat)
  /-- CACHE_SKETCH_HALVING (R161) -/
  | cacheSketchHalving (d : Nat)
  /-- COLD_PAGE_ARRIVAL (R162) -/
  | coldPageArrival (s : Nat) (n : Nat) (data : Bytes) (marked : Bool)
  /-- COLD_DEADLINE (R163) -/
  | coldDeadline (s : Nat)
  /-- COLD_WRITE_BACK_DONE (R165) -/
  | coldWriteBackDone (s : Nat) (n : Nat)
  /-- ENTRY_FETCHED (R173) -/
  | entryFetched (g : Nat) (slot : Nat)
  /-- BLOCK_LANDED (R174) -/
  | blockLanded (g : Nat) (slot : Nat) (block : Nat)
  /-- MCAST_CREDIT (R182) -/
  | mcastCredit (g : Nat) (slot : Nat) (recv : Nat)
  /-- LAG_TIME_EXPIRY (R183) -/
  | lagTimeExpiry (g : Nat) (slot : Nat) (recv : Nat)
  /-- SKIP_MARKER (R183) -/
  | skipMarker (g : Nat) (slot : Nat)
  /-- CHUNK_ARRIVAL (R187) -/
  | chunkArrival (g : Nat) (slot : Nat)
  /-- RING_CREDIT (R188) -/
  | ringCredit (g : Nat) (slot : Nat) (succ : Nat)
  /-- STACK_READ (R206) -/
  | stackRead (s : Nat) (part : Option Nat) (granule : Nat) (err : EccErr)
  /-- STACK_WRITE (R205) -/
  | stackWrite (s : Nat) (part : Option Nat) (addr : Nat) (data : Bytes) (marked : Bool)
  /-- DRAIN_MARKER (R206) -/
  | drainMarker (s : Nat)
  /-- PATROL_SCRUB (R196) -/
  | patrolScrub (s : Nat) (granule : Nat) (err : EccErr)
  /-- SOFT_REPAIR (R213) -/
  | softRepair (s : Nat) (bank : Nat) (row : Nat)
  /-- STACK_FAILED (R214): stack s, or where s is 16 + 64k + c pseudo-channel c of stack k -/
  | stackFailed (s : Nat)
  /-- MEM_WCB_READ (R218) -/
  | memWcbRead (s : Nat)
  /-- BUILD (R223) -/
  | build (p : Nat) (c : Nat) (count : Nat)
  /-- HISTOGRAM_DONE (R222) -/
  | histogramDone (p : Nat) (c : Nat)
  /-- LOAD (R234) -/
  | load (p : Nat) (c : Nat) (gen : Nat) (count : Nat)
  /-- CMP_RELEASE (R233) -/
  | cmpRelease (p : Nat) (c : Nat) (gen : Nat) (count : Nat)
  /-- CMP_CMD_NOP (R239) -/
  | cmpCmdNop (p : Nat) (c : Nat) (op : Nat)
  /-- QUEUED_COUNT_CHANGE (R232) -/
  | queuedCountChange (p : Nat) (c : Nat)
  /-- GENERATION_FREE (R233) -/
  | generationFree (p : Nat) (c : Nat) (gen : Nat)
  /-- INSTALL_WAIT_RESUME (R234) -/
  | installWaitResume (p : Nat) (c : Nat)
  /-- INSTALL_DONE (R220) -/
  | installDone (p : Nat) (c : Nat)
  /-- RANGE_ADD (R267) -/
  | rangeAdd (p : Nat) (idx : Nat)
  /-- RANGE_REMOVE (R262) -/
  | rangeRemove (p : Nat) (idx : Nat)
  /-- RANGE_REPLACE (R267) -/
  | rangeReplace (p : Nat) (idx : Nat)
  /-- RANGE_READ (R267) -/
  | rangeRead (p : Nat) (idx : Nat)
  /-- XLT_CMD_NOP (R267) -/
  | xltCmdNop (p : Nat) (op : Nat)
  /-- RANGE_INVALIDATION (R262) -/
  | rangeInvalidation (p : Nat) (agent : Agent)
  /-- INVALIDATION_ACK (R262) -/
  | invalidationAck (p : Nat)
  /-- RANGE_FETCH (R261) -/
  | rangeFetch (agent : Agent) (p : Nat) (idx : Nat)
  /-- HOST_LINE_FILL (R332) -/
  | hostLineFill (p : Nat) (va : Nat)
  /-- ACCESS_HALVING (R263) -/
  | accessHalving
  /-- XLT_HOT_POP (R268) -/
  | xltHotPop
  /-- IMG_STAGE (R291) -/
  | imgStage
  /-- STAGE_DONE (R291) -/
  | stageDone (readOutcome : ReadOutcome)
  /-- IMG_COMMIT (R292) -/
  | imgCommit
  /-- EPOCH_BOUNDARY (R292) -/
  | epochBoundary
  /-- COMMIT_LIMIT (R292) -/
  | commitLimit
  /-- APPLY_DONE (R292) -/
  | applyDone
  /-- IMG_DISCARD (R296) -/
  | imgDiscard
  /-- IMG_CMD_NOP (R296) -/
  | imgCmdNop (op : Nat)
  /-- ADMISSION (R304) -/
  | admission (p : Nat)
  /-- JOB_START (R307) -/
  | jobStart (g : Nat)
  /-- BATCH_COMPLETE (R308) -/
  | batchComplete (handle : Nat)
  /-- COMPLETION_RECORD (R323) -/
  | completionRecord (p : Nat)
  /-- PREEMPTION_REQUEST (R311) -/
  | preemptionRequest (g : Nat)
  /-- PREEMPT (R312) -/
  | preempt (g : Nat)
  /-- SLICE_LIMIT (R314) -/
  | sliceLimit (g : Nat)
  /-- BE_RESUME (R317) -/
  | beResume (g : Nat)
  /-- JIG_MOVE (R319) -/
  | jigMove (g : Nat)
  /-- MOVE_DONE (R319) -/
  | moveDone (g : Nat)
  /-- SUBMISSION_RING_CTL_WRITE (R323) -/
  | submissionRingCtlWrite (p : Nat) (be : Bool) (val : BitVec 64)
  /-- CQ_CTL_WRITE (R323) -/
  | cqCtlWrite (p : Nat) (val : BitVec 64)
  /-- PART_LC_WAIT_MAX_READ (R321) -/
  | partLcWaitMaxRead (p : Nat)
  /-- PART_FLUSH (R347) -/
  | partFlush (fn : Nat) (p : Nat)
  /-- BAR2_READ (R331) -/
  | bar2Read (fn : Nat) (addr : Nat) (len : Nat)
  /-- BAR2_WRITE (R330): bit 63 of `addr` is the EP bit of the transfer (R215) -/
  | bar2Write (fn : Nat) (addr : Nat) (data : Bytes)
  /-- MBX_SLOT_WRITE (R340) -/
  | mbxSlotWrite (fn : Nat) (off : Nat) (data : Bytes)
  /-- MBX_DOORBELL (R341) -/
  | mbxDoorbell (fn : Nat) (off : Nat) (data : Bytes)
  /-- MBX_SUBMIT (R342) -/
  | mbxSubmit (slot : Nat)
  /-- MBX_ECHO (R343) -/
  | mbxEcho (slot : Nat)
  /-- MBX_BAD_OP (R343) -/
  | mbxBadOp (slot : Nat)
  /-- MAILBOX_REPLY (R343) -/
  | mailboxReply (slot : Nat)
  /-- HOST_TRANSFER_DONE (R334) -/
  | hostTransferDone (g : Nat) (status : Nat)
  /-- COMPLETION_TIMEOUT (R334) -/
  | completionTimeout (g : Nat)
  /-- COPY (R337) -/
  | copy (e : Nat)
  /-- CE_NOP (R336) -/
  | ceNop (e : Nat)
  /-- CE_COMPLETE (R338) -/
  | ceComplete (e : Nat) (status : Nat) (bytes : Nat)
  /-- CE_RING_CTL_WRITE (R335) -/
  | ceRingCtlWrite (e : Nat) (val : BitVec 64)
  /-- CE_RESUME (R352) -/
  | ceResume (e : Nat)
  /-- CE_ABORT (R352) -/
  | ceAbort (e : Nat)
  /-- SNOOP (R332) -/
  | snoop (addr : Nat) (data : Bytes)
  /-- LINK_RECOVERY (R349) -/
  | linkRecovery
  /-- LINK_DOWN (R349) -/
  | linkDown
  /-- LINK_UP (R350) -/
  | linkUp (rate : Nat) (width : Nat) (cxl : Bool)
  /-- HOT_RESET (R349) -/
  | hotReset
  /-- PERST_N_ASSERT (R349) -/
  | perstNAssert
  /-- FLR_PF (R326) -/
  | flrPf
  /-- FLR_VF (R326) -/
  | flrVf (n : Nat)
  /-- NET_WRITE (R365) -/
  | netWrite (port : Nat) (f : Frame)
  /-- READ_REQ (R365) -/
  | readReq (port : Nat) (f : Frame)
  /-- READ_RESP (R365) -/
  | readResp (port : Nat) (f : Frame)
  /-- NET_UPDATE (R365) -/
  | netUpdate (port : Nat) (f : Frame)
  /-- NET_GATHER (R365) -/
  | netGather (port : Nat) (f : Frame)
  /-- NET_SUBMIT (R365) -/
  | netSubmit (port : Nat) (f : Frame)
  /-- NET_DONE (R368) -/
  | netDone (port : Nat) (f : Frame)
  /-- REDUCE_UP (R370) -/
  | reduceUp (port : Nat) (f : Frame)
  /-- REDUCE_DOWN (R370) -/
  | reduceDown (port : Nat) (f : Frame)
  /-- REDO (R371) -/
  | redo (port : Nat) (f : Frame)
  /-- NET_ACK (R358) -/
  | netAck (port : Nat) (f : Frame)
  /-- NET_NAK (R358) -/
  | netNak (port : Nat) (f : Frame)
  /-- NET_BAD_FRAME (R361) -/
  | netBadFrame (port : Nat) (why : BadFrame)
  /-- ARP_REQUEST (R354) -/
  | arpRequest (port : Nat) (target : BitVec 32) (mac : BitVec 48)
  /-- NEIGHBOUR_SOLICITATION (R354) -/
  | neighbourSolicitation (port : Nat) (target : BitVec 128) (mac : BitVec 48)
  /-- PAUSE_FRAME (R353) -/
  | pauseFrame (port : Nat)
  /-- PFC_FRAME (R359) -/
  | pfcFrame (port : Nat) (prio : Nat) (pause : Bool)
  /-- OTHER_FRAME (R353) -/
  | otherFrame (port : Nat)
  /-- PTP_SYNC (R372) -/
  | ptpSync (time : Nat) (ppb : Int)
  /-- PTP_SYNC_LOSS (R372) -/
  | ptpSyncLoss
  /-- RTO_EXPIRY (R358) -/
  | rtoExpiry (k : Nat)
  /-- PURE_ACK (R358) -/
  | pureAck (k : Nat)
  /-- ROUND_TIMEOUT (R371) -/
  | roundTimeout (j : Nat) (bucket : Nat)
  /-- PORT_UP (R357) -/
  | portUp (n : Nat)
  /-- PORT_DOWN (R357) -/
  | portDown (n : Nat)
  /-- PORT_LANE_SPARE (R355) -/
  | portLaneSpare (n : Nat) (lane : Nat)
  /-- SEND_RING_TAIL (R366) -/
  | sendRingTail (i : Nat)
  /-- SEND_WRITE (R367) -/
  | sendWrite (i : Nat)
  /-- SEND_READ (R367) -/
  | sendRead (i : Nat)
  /-- SEND_UPDATE (R367) -/
  | sendUpdate (i : Nat)
  /-- SEND_GATHER (R367) -/
  | sendGather (i : Nat)
  /-- SEND_SUBMIT (R367) -/
  | sendSubmit (i : Nat)
  /-- REDUCE (R369) -/
  | reduce (i : Nat)
  /-- SEND_NOP (R367) -/
  | sendNop (i : Nat)
  /-- PEER_RESET (R358) -/
  | peerReset (k : Nat)
  /-- NET_SAK_WRITE (R373) -/
  | netSakWrite (k : Nat) (word : Nat) (val : BitVec 64)
  /-- RED_ENABLE (R375) -/
  | redEnable (j : Nat) (val : BitVec 64)
  /-- HEARTBEAT (R390) -/
  | heartbeat (lane : Nat) (f : Frame)
  /-- HEARTBEAT_SEND (R390) -/
  | heartbeatSend
  /-- HELLO (R381) -/
  | hello (f : Frame)
  /-- HELLO_SEND (R381) -/
  | helloSend
  /-- JOURNAL (R388) -/
  | journal (f : Frame)
  /-- JOURNAL_DONE (R388) -/
  | journalDone (f : Frame)
  /-- HRV_UPDATE (R384) -/
  | hrvUpdate (f : Frame)
  /-- COMMAND (R385) -/
  | command (f : Frame)
  /-- COMMAND_DONE (R385) -/
  | commandDone (f : Frame)
  /-- WINDOW (R386) -/
  | window (f : Frame)
  /-- SYNC (R383) -/
  | sync (f : Frame)
  /-- SYNC_COMPLETE (R383) -/
  | syncComplete
  /-- HRV_ACK (R379) -/
  | hrvAck (f : Frame)
  /-- HRV_NAK (R379) -/
  | hrvNak (f : Frame)
  /-- GOODBYE (R390) -/
  | goodbye (f : Frame)
  /-- HRV_BAD_FRAME (R378) -/
  | hrvBadFrame
  /-- HRV_RESEND (R379) -/
  | hrvResend (stream : Nat)
  /-- HRV_PURE_ACK (R379) -/
  | hrvPureAck (stream : Nat)
  /-- LANE_DOWN (R377) -/
  | laneDown (lane : Nat)
  /-- LANE_RETURN (R377) -/
  | laneReturn (lane : Nat)
  /-- PARTNER_LOSS (R390) -/
  | partnerLoss
  /-- PROBE_WINDOW_EXPIRY (R391) -/
  | probeWindowExpiry
  /-- REPLAY_ADMISSION (R392) -/
  | replayAdmission
  /-- HRV_LINK_EN (R396) -/
  | hrvLinkEn (b : Bool)
  /-- HRV_SAK_WRITE (R395) -/
  | hrvSakWrite (a : Nat) (word : Nat) (val : BitVec 64)
  /-- FAULT_REPORT (R403) -/
  | faultReport (rep : Report)
  /-- INCIDENT_CLOSE (R403) -/
  | incidentClose (n : Nat)
  /-- FAULT_RING_CTL_WRITE (R398) -/
  | faultRingCtlWrite (r : Nat) (val : BitVec 64)
  /-- FATAL_EVENT (R407) -/
  | fatalEvent (bit : Nat)
  /-- STEWARD_WDT (R407) -/
  | stewardWdt
  /-- REPLAY_DECISION (R408) -/
  | replayDecision (handle : Nat)
  /-- REPLAY (R409) -/
  | replay (handle : Nat)
  /-- JIG_DUE (R412) -/
  | jigDue (pos : Nat)
  /-- JIG_DONE (R413) -/
  | jigDone (pos : Nat) (pass : Bool) (repairable : Bool) (phase : Nat)
  /-- RE_JIG_DONE (R414) -/
  | reJigDone (s : Nat) (pass : Bool)
  /-- NET_JIG_DONE (R404) -/
  | netJigDone (pass : Bool)
  /-- SHADOW_COMPARE (R415) -/
  | shadowCompare (g : Nat) (spareCrc : BitVec 32)
  /-- LARK_FLUSH (R417) -/
  | larkFlush
  /-- MARGIN_SAMPLE (R416) -/
  | marginSample (unit : UnitId) (mv : Nat) (ps : Nat)
  /-- LARK_SEL_WRITE (R425) -/
  | larkSelWrite (val : BitVec 64)
  /-- LARK_COPY_DONE (R425) -/
  | larkCopyDone
  /-- FAULT_ALERT_CLEAR (R424) -/
  | faultAlertClear (val : BitVec 64)
  /-- PRSNT_ASSERT (R431) -/
  | prsntAssert (bay : Nat)
  /-- PRESENCE_SETTLED (R431) -/
  | presenceSettled (bay : Nat)
  /-- CONTROLLER_READY (R431) -/
  | controllerReady (bay : Nat) (info : CartInfo)
  /-- NOT_READY (R431) -/
  | notReady (bay : Nat)
  /-- SMART_POLL (R430) -/
  | smartPoll (bay : Nat) (smart : Smart)
  /-- NVME_COMPLETION (R427) -/
  | nvmeCompletion (bay : Nat) (n : Nat) (ok : Bool) (data : Bytes)
  /-- CART_REMOVAL (R435) -/
  | cartRemoval (bay : Nat)
  /-- EJECT (R434) -/
  | eject (bay : Nat)
  /-- EJECT_ABORT_TIMEOUT (R434) -/
  | ejectAbortTimeout (bay : Nat)
  /-- FILL (R436) -/
  | fill (bay : Nat) (count : Nat)
  /-- MIGRATE (R436) -/
  | migrate (bay : Nat) (dest : Nat) (count : Nat) (rebind : Bool)
  /-- ADOPT (R436) -/
  | adopt (bay : Nat)
  /-- DISCARD_DIRTY (R435) -/
  | discardDirty
  /-- CART_CMD_NOP (R438) -/
  | cartCmdNop (op : Nat)
  /-- INPUT_VOLTAGE_LOW (R444) -/
  | inputVoltageLow (mv100 : Nat)
  /-- POWER_FAULT (R449) -/
  | powerFault (cause : PowerCause)
  /-- INPUT_OFF (R444) -/
  | inputOff
  /-- POWER_SAMPLE (R446) -/
  | powerSample (watts : Nat) (mv100 : Nat)
  /-- CAP_STEP (R446) -/
  | capStep
  /-- FAST_LIMIT (R446) -/
  | fastLimit
  /-- FAST_LIMIT_RELEASE (R446) -/
  | fastLimitRelease
  /-- THERMAL_THROTTLE (R448) -/
  | thermalThrottle (island : Island) (on : Bool)
  /-- THERMAL (R448) -/
  | thermal (cond : ThermalCond) (celsius : Int)
  /-- THERMAL_TRIP (R449) -/
  | thermalTrip (stack : Bool) (n : Nat)
  /-- PLUGGABLE_INSERTED (R443) -/
  | pluggableInserted (cage : Nat) (powerClass : Nat)
  /-- INPUT_ON (R454) -/
  | inputOn
  /-- STANDBY_RAILS_UP (R454) -/
  | standbyRailsUp (okA : Bool) (okB : Bool) (flashOk : Bool)
  /-- FIRMWARE_RUNNING (R454) -/
  | firmwareRunning
  /-- DIE_SELF_TEST_DONE (R454) -/
  | dieSelfTestDone
  /-- PERST_N_RELEASE (R454) -/
  | perstNRelease
  /-- CONFIG_READY (R454) -/
  | configReady
  /-- MEM_READY (R454) -/
  | memReady (failed : List Nat)
  /-- IMAGE_READY (R454) -/
  | imageReady
  /-- MOD_RESET_N_RELEASE (R456) -/
  | modResetNRelease (lowNs : Nat)
  /-- GLB_RESET_WARM (R457) -/
  | glbResetWarm
  /-- GLB_RESET_PARTITION (R458) -/
  | glbResetPartition (p : Nat)
  /-- GLB_RESET_COLD (R456) -/
  | glbResetCold
  /-- GLB_RESET_NOP (R462) -/
  | glbResetNop (op : Nat)
  /-- WRITE_BACK_LIMIT (R457) -/
  | writeBackLimit
  /-- PARTITION_RESET_DONE (R458) -/
  | partitionResetDone (p : Nat)
  /-- KEY_SET (R453) -/
  | keySet (i3c : Bool) (slot : Nat) (key : Bytes)
  /-- KEY_REVOKE (R453) -/
  | keyRevoke (i3c : Bool) (slot : Nat)
  /-- HEALTH_CLEAR (R453) -/
  | healthClear (i3c : Bool) (replace : Bool)
  /-- MTIME_ADVANCE (R453) -/
  | mtimeAdvance (i3c : Bool) (ns : Nat)
  /-- OEM_RESET (R453) -/
  | oemReset (i3c : Bool) (val : BitVec 64)
  /-- LARK_READ (R453) -/
  | larkRead (i3c : Bool) (unit : UnitId)
  /-- STATUS_READ (R453) -/
  | statusRead (i3c : Bool)
  /-- SET_POWER_CAP (R451) -/
  | setPowerCap (watts : Nat)
  /-- GET_SENSOR_READING (R451) -/
  | getSensorReading (sensor : Nat)
  /-- FIRMWARE_UPDATE (R451) -/
  | firmwareUpdate (image : Bool) (data : Bytes)
  /-- PLDM_BASE (R451) -/
  | pldmBase (cmd : Nat)
  /-- GET_VERSION (R452) -/
  | getVersion
  /-- GET_CAPABILITIES (R452) -/
  | getCapabilities
  /-- NEGOTIATE_ALGORITHMS (R452) -/
  | negotiateAlgorithms
  /-- GET_DIGESTS (R452) -/
  | getDigests
  /-- GET_CERTIFICATE (R452) -/
  | getCertificate (off : Nat) (len : Nat)
  /-- CHALLENGE (R452) -/
  | challenge (nonce : Bytes)
  /-- GET_MEASUREMENTS (R452) -/
  | getMeasurements (index : Nat) (nonce : Bytes)
  /-- ENTDAA (R441) -/
  | entdaa (addr : Nat)
  /-- RETURN_TO_SERVICE (R35) -/
  | returnToService (target : Target)
  /-- REGULATOR_BUCKET_REFILL (R210) -/
  | regulatorBucketRefill (s : Nat) (p : Nat)
  /-- STREAM_BUCKET_REFILL (R180) -/
  | streamBucketRefill (g : Nat) (kind : Nat)
  /-- HORVI_LANE_TRAINED (R381) -/
  | horviLaneTrained (lane : Nat)
  /-- INPUT_VOLTAGE_RESTORED (R444) -/
  | inputVoltageRestored (mv100 : Nat)
  /-- INLET_TEMPERATURE_RESTORED (R448) -/
  | inletTemperatureRestored (celsius : Int)
  /-- REPAIR_PAUSE_END (R418) -/
  | repairPauseEnd (s : Nat)
  /-- SET_ENDPOINT_ID (R450) -/
  | setEndpointId (pcie : Bool) (eid : Nat)
  deriving DecidableEq, Repr

end Sys2Proof
end

