-- ==== Sys2Proof/Config.lean ====
section
/-! DEFINITION. What a part fixes, and the free values the spec leaves open (R14): constants without a body. -/
namespace Sys2Proof.Config

/-- The free value number n: any natural number; a use keeps its own format by a modulus (R14). -/
opaque free : Nat → Nat

/-- The skew of an island's MTIME copy, used modulo 17, since two copies differ by at most 16 ns (R29). -/
opaque mtimeSkew : Island → Nat

/-- The FP32 value of a transcendental function (R99) for an input that is not special: the same value everywhere. The
first argument is the KIND of the step. -/
opaque vecFn : Nat → BitVec 32 → BitVec 32

/-- The ECDSA P-384 signature of the device over a digest (R452). -/
opaque ecdsaSign : Bytes → Bytes

/-- Ilhaoft's cartridge key (R428). -/
opaque cartridgeKey : Bytes

/-- The certificate chain of slot 0 (R452). -/
opaque certificate : Bytes

/-- The digest and the security version of the running steward firmware (R452, indices 1 and 2). -/
opaque firmwareDigest : Bytes
opaque firmwareVersion : Bytes

/-- Whether a firmware bank image verifies (R451, R455). -/
opaque firmwareVerifies : Bytes → Bool

/-- The sketch position of (table, row, epoch) in one of the four tables (R154, R161), used modulo its size. -/
opaque sketchHash : Nat → Nat → Nat → Nat → Nat

/-- The MAC address of an Ethernet port (R354). -/
opaque portMac : Nat → BitVec 48

/-- The fixed pairwise order of a vector-engine sum (R57): where a run of n ≥ 2 elements is cut. -/
opaque pairSplit : Nat → Nat

/-- Spare rows that a row engine's tables were built with (R418 does not number them). -/
opaque engineSpares : Nat → Nat

/-- Spare rows beyond 2 that a bank of a stack was shipped with, used modulo 3 (R212). -/
opaque bankSpares : Nat → Nat → Nat

/-- The number of connection k at its peer (R356): no register of the spec gives it. Used modulo 1,024. -/
opaque remoteConn : Nat → Nat

/-- Redundant lanes of a UCIe module (R23 does not number them): edge and module. -/
opaque laneSpares : Nat → Nat → Nat

end Sys2Proof.Config
end

