-- ==== Sys2Proof/Machine/Flags.lean ====
section
/-! DEFINITION. Number formats (R81 to R90): values, decoding, rounding, encoding, the arithmetic on values and the
comparisons (R101). -/
namespace Sys2Proof.Machine

/-- A value of any element format (R81 to R83). `num q` is a nonzero finite value. -/
inductive Val where
  | nan | inf (neg : Bool) | zero (neg : Bool) | num (q : Rat)
  deriving DecidableEq, Repr

/-! ## Formats (R68, R81) -/

/-- FMTA and FMTB codes 8 to 10 are integers (R68). -/
def fmtIsInt (f : Nat) : Bool := 8 ≤ f && f ≤ 10

/-- Container width in bits (R42, R68). -/
def fmtWidth (f : Nat) : Nat :=
  match f with
  | 1 => 16 | 2 => 16 | 3 => 8 | 4 => 8 | 5 => 8 | 6 => 8 | 7 => 4 | 8 => 8 | 9 => 4 | 11 => 1 | _ => 32

/-- Width of the encoding itself: 6 for the FP6 formats (R43, R81). -/
def fmtBits (f : Nat) : Nat := if f = 5 ∨ f = 6 then 6 else fmtWidth f

/-- Elements of a row of 256 bytes (R42). -/
def fmtCols (f : Nat) : Nat := 2048 / fmtWidth f

/-- Mantissa bits M of a floating-point format (R81). -/
def fmtMan (f : Nat) : Nat :=
  match f with | 1 => 7 | 2 => 10 | 3 => 3 | 4 => 2 | 5 => 2 | 6 => 3 | 7 => 1 | _ => 23

/-- Exponent bias (R81). -/
def fmtBias (f : Nat) : Nat :=
  match f with | 1 => 127 | 2 => 15 | 3 => 7 | 4 => 15 | 5 => 3 | 6 => 1 | 7 => 1 | _ => 127

/-- Encoding of the largest finite magnitude (R81). -/
def fmtMax (f : Nat) : Nat :=
  match f with
  | 1 => 0x7F7F | 2 => 0x7BFF | 3 => 0x7E | 4 => 0x7B | 5 => 0x1F | 6 => 0x1F | 7 => 0x7 | _ => 0x7F7F_FFFF

/-- Encoding of +infinity where the format has one that conversions produce, else its largest finite value (R83, R87). -/
def fmtInf (f : Nat) : Nat :=
  match f with | 0 => 0x7F80_0000 | 1 => 0x7F80 | 2 => 0x7C00 | _ => fmtMax f

/-- Canonical NaN, or +0 where the format has none (R83, R87). -/
def fmtNan (f : Nat) : Nat :=
  match f with | 0 => 0x7FC0_0000 | 1 => 0x7FC0 | 2 => 0x7E00 | 3 => 0x7F | 4 => 0x7E | _ => 0

/-- 2 to an integer power. -/
def pow2 (e : Int) : Rat := if 0 ≤ e then ((2 ^ e.toNat : Nat) : Rat) else mkRat 1 (2 ^ (-e).toNat)

/-- Two's complement reading of w bits. -/
def toSigned (w v : Nat) : Int :=
  let u := v % 2 ^ w
  if u < 2 ^ (w - 1) then u else (u : Int) - 2 ^ w

/-- A finite rational as a value, a zero being +0. -/
def Val.ofRat (q : Rat) : Val := if q = 0 then .zero false else .num q

/-- An integer as a value. -/
def Val.ofInt (i : Int) : Val := .ofRat i

/-- What an encoding of format f means (R82, R83). -/
def decodeVal (f code : Nat) : Val :=
  if fmtIsInt f then .ofInt (toSigned (fmtWidth f) code) else
  let w := fmtBits f
  let c := code % 2 ^ w
  let neg := c.testBit (w - 1)
  let mag := c % 2 ^ (w - 1)
  let m := mag % 2 ^ fmtMan f
  let e := mag / 2 ^ fmtMan f
  if f < 3 ∨ f = 4 then
    if e = 2 ^ (w - 1 - fmtMan f) - 1 then (if m = 0 then .inf neg else .nan) else fin neg e m
  else if f = 3 ∧ mag = 0x7F then .nan else fin neg e m
where
  fin (neg : Bool) (e m : Nat) : Val :=
    if e = 0 ∧ m = 0 then .zero neg else
    let q := if e = 0 then ((m : Nat) : Rat) * pow2 (1 - (fmtBias f : Int) - fmtMan f)
      else ((2 ^ fmtMan f + m : Nat) : Rat) * pow2 ((e : Int) - fmtBias f - fmtMan f)
    .num (if neg then -q else q)

/-- floor(log2(n / d)) of a positive quotient. -/
def floorLog2 (n d : Nat) : Int :=
  let k : Int := (n.log2 : Int) - d.log2
  if d * 2 ^ k.toNat ≤ n * 2 ^ (-k).toNat then k else k - 1

/-- Round a non-negative n / d to the magnitude code of a format with `man` mantissa bits and least exponent `emin`,
nearest with ties away from zero, the exponent unbounded above (R86). -/
def roundMag (man : Nat) (emin : Int) (n d : Nat) : Nat :=
  if n = 0 then 0 else
  let e := max (floorLog2 n d) emin
  let q := e - man
  let k := (2 * n * 2 ^ (-q).toNat + d * 2 ^ q.toNat) / (2 * d * 2 ^ q.toNat)
  (e - emin).toNat * 2 ^ man + k

/-- Round a rational to the nearest integer, ties away from zero (R86). -/
def roundInt (q : Rat) : Int :=
  let k : Int := ((2 * q.num.natAbs + q.den) / (2 * q.den) : Nat)
  if q < 0 then -k else k

/-- Limit an integer to a range (R87). -/
def satInt (w : Nat) (i : Int) : Int := max (-(2 ^ (w - 1) : Int)) (min (2 ^ (w - 1) - 1) i)

/-- The encoding of a value in format f, rounded by R86 and limited by R87, keeping the sign of zero (R88). -/
def encodeVal (f : Nat) (v : Val) : Nat :=
  if fmtIsInt f then
    let w := fmtWidth f
    let i : Int := match v with
      | .nan => 0
      | .zero _ => 0
      | .inf neg => if neg then -(2 ^ (w - 1)) else 2 ^ (w - 1) - 1
      | .num q => satInt w (roundInt q)
    (i % 2 ^ w).toNat
  else
    let sign (neg : Bool) : Nat := if neg then 2 ^ (fmtBits f - 1) else 0
    match v with
    | .nan => fmtNan f
    | .zero neg => sign neg
    | .inf neg => sign neg + fmtInf f
    | .num q =>
      let mag := roundMag (fmtMan f) (1 - fmtBias f) q.num.natAbs q.den
      sign (decide (q < 0)) + (if fmtMax f < mag then fmtInf f else mag)

/-- An element converted from format fa to fb; the identity between equal formats (R89) but that a NaN becomes the canonical one
(R85). -/
def convert (fa fb code : Nat) : Nat :=
  if fa = fb ∧ decodeVal fa code ≠ .nan then code % 2 ^ fmtBits fb else encodeVal fb (decodeVal fa code)

/-- rnd32: conversion to FP32 by R86 and R87. -/
def rnd32 (v : Val) : Val := decodeVal 0 (encodeVal 0 v)

/-- FP32 bits as a value. -/
def dec32 (x : BitVec 32) : Val := decodeVal 0 x.toNat
/-- A value as FP32 bits. -/
def enc32 (v : Val) : BitVec 32 := BitVec.ofNat 32 (encodeVal 0 v)

/-- The value of an E8M0 scale byte (R82, R83). -/
def e8m0 (b : Nat) : Val := if b % 256 = 0xFF then .nan else .num (pow2 ((b % 256 : Nat) - 127))
/-- The value of an FP8-E4M3 scale byte, its sign ignored (R94). -/
def e4m3Scale (b : Nat) : Val := decodeVal 3 (b % 128)

/-! ## Exact arithmetic with the special values of IEEE 754 (R85, R88, R94) -/

namespace Val

def neg : Val → Val
  | .nan => .nan | .inf s => .inf (!s) | .zero s => .zero (!s) | .num q => .num (-q)

def abs : Val → Val
  | .nan => .nan | .inf _ => .inf false | .zero _ => .zero false | .num q => .num (if q < 0 then -q else q)

def isNeg : Val → Bool
  | .nan => false | .inf s => s | .zero s => s | .num q => decide (q < 0)

def isNan : Val → Bool
  | .nan => true | _ => false

/-- The exact sum. -/
def add : Val → Val → Val
  | .nan, _ => .nan
  | _, .nan => .nan
  | .inf s, .inf t => if s = t then .inf s else .nan
  | .inf s, _ => .inf s
  | _, .inf t => .inf t
  | .zero s, .zero t => .zero (s && t)
  | .zero _, .num q => .num q
  | .num q, .zero _ => .num q
  | .num q, .num r => .ofRat (q + r)

def sub (a b : Val) : Val := a.add b.neg

/-- The exact product. -/
def mul : Val → Val → Val
  | .nan, _ => .nan
  | _, .nan => .nan
  | .inf _, .zero _ => .nan
  | .zero _, .inf _ => .nan
  | .inf s, v => .inf (s != v.isNeg)
  | v, .inf t => .inf (v.isNeg != t)
  | .zero s, v => .zero (s != v.isNeg)
  | v, .zero t => .zero (v.isNeg != t)
  | .num q, .num r => .num (q * r)

/-- The exact quotient by a positive rational. -/
def divRat (v : Val) (d : Rat) : Val := match v with | .num q => .num (q / d) | w => w

/-- A result that is exactly zero is +0 (R88, the array and the reductions). -/
def plusZero : Val → Val
  | .zero _ => .zero false | v => v

/-- Below 0, 0 or above 0 as the first is less, equal or greater; none with a NaN; +0 and −0 are equal (R101). -/
def compare : Val → Val → Option Int
  | .nan, _ => none
  | _, .nan => none
  | a, b => some (key a b)
where
  rank : Val → Rat
    | .num q => q | _ => 0
  key (a b : Val) : Int :=
    match a, b with
    | .inf s, .inf t => if s = t then 0 else if s then -1 else 1
    | .inf s, _ => if s then -1 else 1
    | _, .inf t => if t then 1 else -1
    | x, y => if rank x < rank y then -1 else if rank y < rank x then 1 else 0

/-- Maximum and minimum of R101: a NaN gives NaN; of +0 and −0 the maximum is +0 and the minimum −0. -/
def pick (keepMax : Bool) (a b : Val) : Val :=
  match a, b with
  | .zero s, .zero t => .zero (if keepMax then s && t else s || t)
  | _, _ => match compare a b with
    | none => .nan
    | some c => if keepMax then (if c < 0 then b else a) else (if 0 < c then b else a)

/-- Selection of MDMAX and MDMIN: a NaN gives NaN, a tie keeps the earlier (R97). -/
def select (keepMax : Bool) (v c : Val) : Val :=
  match compare c v with
  | none => .nan
  | some k => if keepMax then (if 0 < k then c else v) else (if k < 0 then c else v)

end Val

/-! ## Conditions (SCMP, VCMP: EQ, NE, LTU, LEU, LTS, LES, FLT, FLE) -/

/-- A condition on two w-bit words (R69). FLT and FLE read bits [31:0] as FP32. -/
def condBits (mode w a b : Nat) : Bool :=
  let x := a % 2 ^ w
  let y := b % 2 ^ w
  match mode with
  | 0 => x = y
  | 1 => x ≠ y
  | 2 => x < y
  | 3 => x ≤ y
  | 4 => toSigned w x < toSigned w y
  | 5 => toSigned w x ≤ toSigned w y
  | 6 => match (decodeVal 0 a).compare (decodeVal 0 b) with | some c => c < 0 | none => false
  | _ => match (decodeVal 0 a).compare (decodeVal 0 b) with | some c => c ≤ 0 | none => false

/-- A condition on two elements of format f (R101): any comparison with a NaN is false, except not-equal. LTU and LEU
of integer elements compare the bits as unsigned; every other condition compares the values, so that +0 and −0 are equal. -/
def condElem (mode f a b : Nat) : Bool :=
  match (decodeVal f a).compare (decodeVal f b) with
  | none => mode = 1
  | some c => match mode with
    | 0 => c = 0
    | 1 => c ≠ 0
    | 2 => if fmtIsInt f then a % 2 ^ fmtBits f < b % 2 ^ fmtBits f else c < 0
    | 3 => if fmtIsInt f then a % 2 ^ fmtBits f ≤ b % 2 ^ fmtBits f else c ≤ 0
    | 4 => c < 0
    | 5 => c ≤ 0
    | 6 => c < 0
    | _ => c ≤ 0

/-! ## FP32 and INT32 operations of the vector engine and the scalar unit (R98, R102) -/

/-- The result of an operation as the engine holds it: FP32, or INT32 saturated (R98, R102). -/
def rndEngine (int : Bool) (v : Val) : Val := if int then decodeVal 10 (encodeVal 10 v) else rnd32 v

/-- A sum in a fixed pairwise order, each addition rounded to FP32 (R57, R100); where a run is cut is free
(Config.pairSplit). -/
def pairSum : Nat → List Val → Val
  | 0, _ => .zero false
  | _ + 1, [] => .zero false
  | _ + 1, [v] => v
  | n + 1, l =>
    let k := 1 + Config.pairSplit l.length % (l.length - 1)
    rnd32 ((pairSum n (l.take k)).add (pairSum n (l.drop k)))

/-- The pairwise sum of a list, a zero being +0 (R88). -/
def sumVals (l : List Val) : Val := (pairSum l.length l).plusZero

/-- The largest of a list, a zero being +0 (R88, R101). -/
def maxVals (l : List Val) : Val :=
  match l with | [] => .zero false | v :: l => (l.foldl (Val.pick true) v).plusZero

end Sys2Proof.Machine
end

