-- ==== Sys2Proof/Machine/State.lean ====
section
/-! DEFINITION. The state of the module: every register, buffer, queue, counter, mode and pin the spec gives it, as
plain data; the faults and refusals; and the state after reset. RW and RWC configuration registers live in `regs`, keyed
by their BAR0 offset; every RO register is a view of the structured state (Machine/Regs.lean). -/
namespace Sys2Proof.Machine

/-- Why a command stops the machine. No command does: every path of every meaning answers a next state. -/
inductive Fault where
  /-- raised by no meaning; kept so that the type is inhabited. Safe. -/
  | none
  deriving DecidableEq, Repr

/-- Why a command has no meaning. -/
inductive Refusal where
  /-- raised by Dispatch alone, for a command whose meaning is not written yet. Safe: a claim about it is unprovable. -/
  | notModelled (mnemonic : String)
  deriving DecidableEq, Repr

/-- Bytes at addresses with marks on units (R75, R195, R215): an unlisted byte reads zero and an unlisted unit is
unmarked. Canonical: both lists rise strictly and no listed byte is zero. -/
structure Store where
  bytes : List Host.Cell
  poison : List Nat
  deriving DecidableEq, Repr

/-! ## Cells (R39 to R80) and their streams (R169 to R193) -/

/-- Where a credit goes back to (R63, R182, R188): counter cr of a class of cell g, a receiver of a multicast source, or
a successor edge of a chain member. -/
inductive CreditRef where
  | counter (g : Nat) (cls : Cls) (cr : Nat)
  | mcast (g slot recv : Nat)
  | ring (g slot succ : Nat)
  deriving DecidableEq, Repr

/-- A token (R62): its value, its kind (ARRIVAL or COMPLETION, R66) and the credit it took. -/
structure Token where
  value : BitVec 32
  sender : Agent
  completion : Bool
  credit : Option CreditRef
  /-- the GATH to a tile register that it completes: its pop lands the output (R118) -/
  tile : Option Nat
  deriving DecidableEq, Repr

/-- A token queue of a context (R62, R176), its owed discards (R256) and the credits of popped tokens not yet returned
(R63). -/
structure Queue where
  toks : List Token
  depth : Nat
  owed : Nat
  popped : List (Option CreditRef)
  deriving DecidableEq, Repr

/-- An open loop (R61): index of the step after its LOOP, passes left and the iteration index. -/
structure LoopFrame where
  start : Nat
  left : Nat
  idx : Nat
  deriving DecidableEq, Repr

/-- A class context (R305). -/
structure Ctx where
  queues : List Queue
  credits : List Nat
  scalars : List Word
  step : Nat
  loops : List LoopFrame
  /-- loops open beyond depth 4 (R61) -/
  overLoops : Nat
  viewStamp : Nat
  /-- one mask for each owed discard of a WAITANY (R256) -/
  owedAny : List (BitVec 16)
  /-- queue of an overflow held for the next job of the class (R306) -/
  heldOverflow : Option Nat
  deriving DecidableEq, Repr

/-- A job of a batch on a cell (R304, R307). -/
structure Job where
  handle : Nat
  cls : Cls
  entry : Nat
  param : BitVec 32
  /-- MTIME at which it entered the start queue, and whether it found BE work running and no LC job ahead (R316) -/
  queuedAt : Nat
  behindBe : Bool
  deriving DecidableEq, Repr

/-- What the sequencer is held in (R63, R64, R69, R244): the step, and for a WAIT or WAITANY its timeout edge. -/
structure Held where
  w : StepWord
  since : Nat
  deadline : Option Nat
  deriving DecidableEq, Repr

/-- The top-k state (R53): rows of (score, id), best first. -/
structure TopK where
  k : Nat
  keepMax : Bool
  rows : List (List (BitVec 32 × BitVec 32))
  deriving DecidableEq, Repr

/-- A read-buffer entry (R245, R331, R332): block number, fill time and bytes, with bit i of `marks` for granule i; most
recently used first. -/
structure RbEntry where
  block : Nat
  fill : Nat
  data : Bytes
  marks : Nat
  deriving DecidableEq, Repr

/-- An asynchronous step still open (R66): HLD and HST carry their extent, HST its source data (R59). -/
structure AsyncOp where
  id : Nat
  kind : Nat
  q : Nat
  cls : Cls
  src : Nat
  dst : Nat
  len : Nat
  data : List (Byte × Bool)
  /-- MTIME of the host island when it was issued (R334, R352) -/
  since : Nat
  deriving DecidableEq, Repr

/-- A valid translation range (R258). -/
structure Range where
  part : Nat
  idx : Nat
  vstart : Nat
  vlen : Nat
  tstart : Nat
  kind : Nat
  write : Bool
  count : Bool
  deriving DecidableEq, Repr

/-- A block of a stream in flight (R171, R174), with the ranges that its check translated (R262). -/
structure Block where
  no : Nat
  src : Nat
  dst : Nat
  len : Nat
  flags : Nat
  credit : Nat
  value : BitVec 32
  /-- the credit of its arrival token is held (R175) -/
  paid : Bool
  landed : Bool
  rngs : List Range
  /-- stored source bytes when the block started (R174), and under PER_ENTRY the generation it codes with, 9 while its install
  waits (R223); 8 for none -/
  snap : Bytes
  gen : Nat
  /-- where its entry lies, its kind for the port (R179) and the bursts of its newest unit that have not moved (R180) -/
  at_ : Nat
  kind : Nat
  left : Nat
  /-- generation of every unit of 4 KiB that it has begun, 8 for none (R221), and those that count it in QUEUED (R232) -/
  gens : List Nat
  queued : List Nat
  deriving DecidableEq, Repr

/-- A receiver of a multicast group as its source keeps it (R181, R182). -/
structure Receiver where
  g : Nat
  queue : Nat
  depth : Nat
  slot : Nat
  base : Nat
  credits : Nat
  next : Nat
  owedSince : Option Nat
  dropped : Bool
  deriving DecidableEq, Repr

/-- A chunk in a member's ring (R187), with the chain head's cell and SRC_ADDR, which govern the payload (R186). -/
structure Chunk where
  no : Nat
  total : Nat
  head : Nat
  src : Nat
  len : Nat
  /-- its ring slot in the member's scratchpad (R185) -/
  at_ : Nat
  deriving DecidableEq, Repr

/-- A successor edge of a chain member (R188): credits, next chunk to send and chunks sent but not credited, oldest
first. -/
structure Edge where
  g : Nat
  slot : Nat
  credits : Nat
  next : Nat
  unc : List Nat
  owedSince : Option Nat
  dropped : Bool
  deriving DecidableEq, Repr

/-- One run of a chain in a member (R186 to R191). -/
structure ChainRun where
  src : Nat
  total : Nat
  keepOff : Nat
  keepLen : Nat
  fwdOff : Nat
  keepDst : Nat
  credit : Nat
  tokens : Bool
  every : Nat
  expect : Nat
  kept : Nat
  q : Nat
  head : Bool
  edges : List Edge
  uncovered : Bool
  /-- head cell and SRC_ADDR of the payload as learned from the chunks (R186) -/
  hg : Nat
  hsrc : Nat
  deriving DecidableEq, Repr

/-- A skip marker on its way or received (R183, R189). -/
structure Skip where
  /-- the receiver or member was running when it was dropped -/
  active : Bool
  first : Nat
  number : Nat
  chain : Bool
  list : Nat
  src : Nat
  srcSlot : Nat
  /-- where the entry of the first missed block lies -/
  entry : Nat
  deriving DecidableEq, Repr

/-- A stream slot (R169, R192, R193). `st`: 0 IDLE, 1 RUNNING, 2 CREDIT_WAIT, 3 STOPPING, 4 CATCHUP. -/
structure Slot where
  st : Nat
  role : Nat
  number : Nat
  cls : Cls
  q : Nat
  list : Nat
  entry : Nat
  next : Nat
  done : Nat
  blocks : List Block
  /-- status decided by the entry that ended the run (R177) -/
  ending : Option Nat
  stopQs : List Nat
  recvs : List Receiver
  chain : Option ChainRun
  ring : List Chunk
  /-- MCAST blocks read once and still owed to a receiver (R182) -/
  owed : List Block
  /-- skip markers on their way, and the one whose catch-up runs (R183, R189) -/
  skips : List Skip
  catchup : Option Skip
  /-- stacks that this run has written (R251) -/
  written : List Nat
  /-- slice tokens that wait for a credit: class, counter and value (R186) -/
  toks : List (Cls × Nat × Nat)
  /-- chunks that have landed in the ring (R185), and that the predecessor's run forwards none (R191) -/
  ringPos : Nat
  nothing : Bool
  lastStatus : Nat
  cntBytes : Word
  cntBlocks : Word
  cntReread : Word
  cntDrops : Word
  cntSkips : Word
  lastSkip : Word
  deriving DecidableEq, Repr

/-- The stream part of a cell (R179, R180, R192). -/
structure StreamPort where
  slots : List Slot
  splitLc : List Nat
  splitBe : List Nat
  /-- buckets of the LC and of the BE split, in 25ths of a byte (R180) -/
  buckets : List Int
  bucketsBe : List Int
  cntRead : Word
  cntWrite : Word
  cntRemote : Word
  cntPoison : Word
  deriving DecidableEq, Repr

/-- The fault registers of a cell (R79). -/
structure CellFault where
  cause : Nat
  valid : Bool
  step : Nat
  kind : Nat
  addr : Nat
  mask : Word
  info : Nat
  deriving DecidableEq, Repr

/-- The counters of a cell (R77). -/
structure CellCnt where
  steps : Word
  arrayBusy : Word
  mloadStall : Word
  wait : Word
  late : Word
  timeouts : Word
  deriving DecidableEq, Repr

/-- What the image gives a cell (R281): step list, slot roles, queue depths and credit bindings (none: unbound). -/
structure CellImage where
  steps : List StepWord
  roles : List Nat
  depths : List Nat
  binds : List (Option (Nat × Nat))
  deriving DecidableEq, Repr

/-- The tile register of a DEST_TILE gather until its token is popped (R118): the request, TD, what the register held and the free
bytes it holds meanwhile, and the rows that land with the pop. -/
structure TileLand where
  req : Nat
  td : Nat
  old : Bytes
  junk : Bytes
  rows : List (Bytes × Bool)
  deriving DecidableEq, Repr

/-- The compute registers of a cell: tile registers (byte 16384t + 256r + b, mark unit 64t + r), stationary buffer
(byte 256r + b, unit r), its scale bytes (16r + b), top-k state and FMT of nothing else (R42, R44, R48, R50, R53). -/
structure Compute where
  tiles : Store
  stat : Store
  scales : Store
  topk : TopK
  /-- outputs of gathers that land with the pop of their tokens (R118) -/
  lands : List TileLand
  deriving DecidableEq, Repr

/-- What is pending for a cell at a layer boundary or from the management plane (R65, R311, R318, R314, R415). -/
structure Pending where
  preempt : Bool
  move : Bool
  moveAt : Nat
  drain : Bool
  sliceStart : Nat
  sliceOver : Bool
  shadow : Bool
  shadowCrc : List (BitVec 32)
  deriving DecidableEq, Repr

/-- A physical cell d.p at position 40d + p (R39, R41). `st` is the code of R78. -/
structure Cell where
  st : Nat
  logical : Option Nat
  part : Option Nat
  lc : Ctx
  be : Ctx
  job : Option Job
  susp : Option Job
  startQ : List Job
  held : Option Held
  layer : Nat
  comp : Compute
  scratch : Store
  readBuf : List RbEntry
  open_ : List AsyncOp
  /-- stacks written since the last release of DEVICE scope (R206) and drain markers of a REL still out (R244) -/
  written : List Nat
  markers : Nat
  /-- stacks that RSTOREs of the running job have written (R251) -/
  rstored : List Nat
  img : CellImage
  port : StreamPort
  fault : CellFault
  cnt : CellCnt
  freeze : Bool
  mhz : Nat
  ceil : Nat
  mv : Nat
  pend : Pending
  deriving DecidableEq, Repr

/-! ## Row engines and stacks (R107 to R138, R194 to R218) -/

/-- Where the result of a request goes when a peer sent it (R365): connection, message, class, stream and the requester's
output address. -/
structure Reply where
  k : Nat
  msg : Nat
  cls : Cls
  stream : Nat
  dest : Nat
  deriving DecidableEq, Repr

/-- A request handed to a gather front end (R107): the step kind, where its header lies, whom to answer, the cell's view
stamp (R160) and its scratchpad as the step's own reads see it (R59); of a peer's or partner's request, the header words
and the lists that came with it (R365, R384). -/
structure Request where
  id : Nat
  g : Nat
  cls : Cls
  q : Nat
  op : Nat
  addr : Nat
  part : Nat
  reply : Option Reply
  /-- sent by the partner (R384) with the epoch it names -/
  mirror : Option Nat
  view : Nat
  snap : Store
  words : List Nat
  idx : List Nat
  bags : List Nat
  rows : List Bytes
  /-- status that a mark in lists or data which came with the request gives (R115) -/
  bad : Nat
  deriving DecidableEq, Repr

/-- One index position or update row of a part: its position in the request's list and its row. -/
structure Item where
  pos : Nat
  row : Nat
  deriving DecidableEq, Repr

/-- A row as a serving engine returns it (R122, R125): its slice, bytes, mark, and whether it stands for the default row
(0 no, 1 out of range, 2 substituted cold row). -/
structure RowVal where
  slice : Nat
  row : Nat
  data : Bytes
  marked : Bool
  dflt : Nat
  deriving DecidableEq, Repr

/-- A row access that waits for its stack read (R131), or in a cold-miss entry for its page (R162). -/
structure Fetch where
  part : Nat
  slice : Nat
  pos : Nat
  row : Nat
  table : Nat
  epoch : Nat
  update : Bool
  /-- deadline of a cold lookup (R163) -/
  deadline : Nat
  /-- it holds a tag (R131); a cold update that waits for its turn after its page has come holds none -/
  tag : Bool
  deriving DecidableEq, Repr

/-- A request part at a row engine (R133). `got` lists position, row and slice of the indices taken; `next` counts update
rows finished in list order (R128). -/
structure Part where
  id : Nat
  req : Nat
  part : Nat
  table : Nat
  epoch : Nat
  op : Nat
  fmt : Nat
  src : Nat
  seq : Nat
  /-- the request's BATCH is 0xFFFF_FFFF: never stale (R129) -/
  anyEpoch : Bool
  deadline : Nat
  items : List Item
  got : List (Nat × Nat × Nat)
  slices : Nat
  window : Nat
  distinct : List Nat
  rows : List RowVal
  entries : List Bytes
  next : Nat
  skipTo : Nat
  /-- rows applied, by position, in order (R384) -/
  applied : List Nat
  seqSkip : Bool
  stale : Nat
  range : Nat
  poisoned : Nat
  fetched : Nat
  done : Bool
  status : Nat
  deriving DecidableEq, Repr

/-- A request routed and not yet answered (R107), at its front end: the ranges that its checks translated (R262), engines
not yet returned, parts returned, rows served by the row cache, and once every part has returned the status and count of
its token while it waits for the partner's acknowledgement of the frames in `psns` (R384). -/
structure OpenReq where
  r : Request
  die : Nat
  epoch : Nat
  at_ : Nat
  rngs : List Range
  served : List Nat
  waiting : List Nat
  parts : List (Nat × Part)
  hits : List RowVal
  psns : List (BitVec 24)
  result : Option (Nat × Nat × Bytes)
  deriving DecidableEq, Repr

/-- Sequence state of one update source at an engine (R130) and its partial mark (R410). -/
structure SrcState where
  src : Nat
  high : Word
  window : Word
  mark : Option (Nat × Nat)
  deriving DecidableEq, Repr

/-- A replica set in the home's directory (R155, R156): row, stacks, whether it is in the front ends, acks awaited. -/
structure Replica where
  table : Nat
  epoch : Nat
  row : Nat
  copies : List Nat
  live : Bool
  acks : List Nat
  deriving DecidableEq, Repr

/-- A replica write on its way or unacknowledged (R157). -/
structure ReplicaWrite where
  home : Nat
  dest : Nat
  table : Nat
  epoch : Nat
  row : Nat
  data : Bytes
  appliedAt : Nat
  landed : Bool
  deriving DecidableEq, Repr

/-- The place of a replica in the pool of its partition in a stack (R156, R200): row, partition, offset and length. -/
structure ReplicaRow where
  table : Nat
  epoch : Nat
  row : Nat
  part : Nat
  off : Nat
  len : Nat
  deriving DecidableEq, Repr

/-- A count message (R154). -/
structure CountMsg where
  home : Nat
  table : Nat
  row : Nat
  count : Nat
  deriving DecidableEq, Repr

/-- A cold landing page (R162, R165) and which of the table's LANDING pages in the stack it is. -/
structure Landing where
  table : Nat
  slot : Nat
  epoch : Nat
  page : Nat
  data : Bytes
  marks : List Nat
  dirty : Bool
  pinned : Bool
  serial : Bytes
  lba : Nat
  writing : Bool
  deriving DecidableEq, Repr

/-- A cold-miss entry (R162): its page, the landing page chosen for it and the accesses that wait for it. -/
structure ColdMiss where
  table : Nat
  epoch : Nat
  page : Nat
  slot : Nat
  waiters : List Fetch
  deriving DecidableEq, Repr

/-- A write-combining entry (R205): granule, (offset, byte) pairs written, mark; oldest write first in its list. -/
structure WcbEntry where
  granule : Nat
  bytes : List (Nat × Byte)
  marked : Bool
  deriving DecidableEq, Repr

/-- A regulator bucket (R209): weight, share, burst in KiB, tokens in bytes and the MTIME of its last earning. -/
structure Regulator where
  weight : Nat
  share : Bool
  burst : Nat
  tokens : Nat
  at_ : Nat
  held : Nat
  bytes : Word
  waits : Word
  borrows : Word
  deriving DecidableEq, Repr

/-- The memory controller of a stack (R194 to R218). -/
structure Stack where
  wcb : List WcbEntry
  wcbHigh : Nat
  regs : List Regulator
  markers : List Agent
  repairs : List (Nat × Nat)
  spares : List (Nat × Nat)
  pendingHard : Bool
  scrubPasses : Nat
  scrubPos : Nat
  /-- the whole stack has failed, or pseudo-channels of it (R214) -/
  failed : Bool
  lost : List Nat
  cntRd : Word
  cntWr : Word
  cntMerge : Word
  cntEvict : Word
  cntRdDrain : Word
  cntRelDrain : Word
  cntCorr : Word
  cntUncorr : Word
  cntPpr : Word
  deriving DecidableEq, Repr

/-- The counters of a row engine (R135). -/
structure EngineCnt where
  indices : Word
  fetches : Word
  dedup : Word
  slices : Word
  adds : Word
  writes : Word
  seqSkip : Word
  stale : Word
  tagFull : Word
  range : Word
  poison : Word
  replicaWr : Word
  deriving DecidableEq, Repr

/-- A row engine RE s with its stack (R107 to R138). `st` is the code of R136. -/
structure Engine where
  st : Nat
  input : List Part
  parts : List Part
  fetches : List Fetch
  tagsHigh : Nat
  faultCause : Nat
  faultValid : Bool
  faultParts : Nat
  srcs : List SrcState
  sketch : List ((Nat × Nat) × Nat)
  occ : Nat
  replicas : List Replica
  held : List ReplicaRow
  counts : List CountMsg
  landing : List Landing
  /-- the clock hand of each table with landing pages here (R162) -/
  hands : List (Nat × Nat)
  misses : List ColdMiss
  cnt : EngineCnt
  freeze : Bool
  mhz : Nat
  ceil : Nat
  mv : Nat
  paused : Bool
  jigDue : Bool
  lastRepl : Nat
  mem : Stack
  deriving DecidableEq, Repr

/-- A row-cache line (R159): key, way count, counter, fill stamp and the row. -/
structure CacheRow where
  table : Nat
  row : Nat
  epoch : Nat
  ways : Nat
  counter : Nat
  stamp : Nat
  data : Bytes
  deriving DecidableEq, Repr

/-- The die fabric of CD d: gather front end, range cache, row cache and its sketch (R107, R159, R161, R261). -/
structure Die where
  queue : List Request
  cache : List CacheRow
  sketch : List ((Nat × Nat) × Nat)
  lookups : Nat
  ceil : Nat
  mhz : Nat
  mv : Nat
  deriving DecidableEq, Repr

/-! ## Tables, compression, translation (R139 to R168, R219 to R268) -/

/-- A catalogue entry after clamping (R140): its four words. -/
structure TableEntry where
  table : Nat
  part : Nat
  w0 : Word
  w1 : Word
  w2 : Word
  w3 : Word
  lastEpoch : Nat
  deriving DecidableEq, Repr

/-- An epoch of a table (R143, R153). `st`: 1 STAGING, 2 CURRENT, 3 RETIRING. `serials` pairs each CART_MASK bit with the
recorded serial (R432). -/
structure Epoch where
  table : Nat
  no : Nat
  st : Nat
  rows : Nat
  res : Nat
  cartMask : Nat
  lba : Nat
  dflt : Bytes
  bases : List Nat
  serials : List (Nat × Bytes)
  sweep : Bool
  deriving DecidableEq, Repr

/-- A binding (R145). `kind`: 0 batch, 1 staging handle, 2 BIND handle, 3 journal, 4 mirror hold. -/
structure Binding where
  handle : Nat
  kind : Nat
  part : Nat
  table : Nat
  epoch : Nat
  deriving DecidableEq, Repr

/-- Table-service registers of a partition (R150, R151). -/
structure TableSvc where
  busy : Bool
  lost : Bool
  result : Nat
  value : Nat
  epochs : Word
  bound : Word
  /-- tables of a publication waiting in WAIT_SLOT, and those changing over: table, epoch superseded and the dies whose front end holds the
  new epoch already (R146) -/
  waiting : List Nat
  publishing : List (Nat × Nat × List Nat)
  /-- the table and epoch of an ABORT whose sweep runs (R149, R152), and a command held by a commit (R292): its OP, TABLE
  and ARG -/
  aborting : Option (Nat × Nat)
  heldCmd : Option (Nat × Nat × Nat)
  cntColdMiss : Word
  cntSubst : Word
  cntColdDrop : Word
  cntReplMade : Word
  cntReplWithdrawn : Word
  cntHit : Word
  cntMiss : Word
  cntReject : Word
  deriving DecidableEq, Repr

/-- A generation of a compression context (R221, R232). -/
structure Gen where
  resident : Bool
  queued : Nat
  stored : Nat
  zeroSince : Nat
  deriving DecidableEq, Repr

/-- A compression context (R219 to R239). `w1` to `w3` and `policy` are the declared words. -/
structure CmpCtx where
  part : Nat
  ctx : Nat
  enabled : Bool
  policy : Nat
  tableAddr : Nat
  initAddr : Nat
  initStored : Nat
  /-- INIT_ADDR held a valid record at commit (R219) -/
  initOk : Bool
  gens : List Gen
  /-- copies of table records that codecs hold: codec, generation, record (R220) -/
  copies : List (Agent × Nat × List (Byte × Bool))
  current : Nat
  busy : Bool
  wait : Bool
  result : Nat
  hist : Option (List Nat)
  /-- code lengths of installs that wait, and the stream block of a PER_ENTRY install: cell, slot and entry (R223, R234) -/
  installs : List (List Nat × Option (Nat × Nat × Nat))
  installing : Bool
  changes : List (Nat × Int × Int)
  /-- a command held by a reset of the partition (R458): OP, GEN, COUNT and CMP_CTX_ARG -/
  heldCmd : Option (Nat × Nat × Nat × Nat)
  cntWait : Word
  cntRawIn : Word
  cntCoded : Word
  cntRaw : Word
  cntErr : Word
  cntOver : Word
  deriving DecidableEq, Repr

/-- Translation command registers of a partition (R266, R267): the range being removed, the agents whose
acknowledgement is awaited and those whose acknowledgement is on its way, and of a REPLACE the XLT_ARG it was given. -/
structure XltCmd where
  busy : Bool
  lost : Bool
  result : Nat
  removing : Option Range
  awaited : List Agent
  acks : List Agent
  replace : Option Nat
  entry : List Word
  cntMiss : Word
  cntInval : Word
  cntFault : Word
  deriving DecidableEq, Repr

/-- Host-access counting (R263, R268). -/
structure HotTable where
  entries : List ((Nat × Nat) × Nat)
  queue : List (Nat × Nat)
  untracked : Word
  lost : Word
  /-- MTIME of the last halving (R263) -/
  halved : Nat
  deriving DecidableEq, Repr

/-! ## The image (R269 to R298) -/

/-- A declared object of the image that runs take their parameters from. -/
structure Group where
  part : Nat
  number : Nat
  g : Nat
  slot : Nat
  lagBlocks : Nat
  lagUs : Nat
  recvs : List Receiver
  deriving DecidableEq, Repr

/-- A dowel chain (R185, R284). -/
structure Chain where
  part : Nat
  number : Nat
  members : List (Nat × Nat)
  ringSlots : Nat
  ringBase : Nat
  lagBlocks : Nat
  lagUs : Nat
  succ : List Nat
  deriving DecidableEq, Repr

/-- A descriptor that waits for admission outside the rings (R302, R303): path 2 mailbox with slot, 3 network with peer entry
and message; `mark` is the TAIL of its class's ring at its arrival. -/
structure Submission where
  path : Nat
  arg : Nat
  msg : Nat
  cls : Cls
  desc : Bytes
  mark : BitVec 16
  deriving DecidableEq, Repr

/-- A partition as the image and the control island hold it (R278, R280, R299, R303, R321). -/
structure Partition where
  defined : Bool
  maxBatches : Nat
  sliceUs : Nat
  lcTarget : Option Nat
  opened : Bool
  drained : Bool
  committing : Bool
  resetting : Bool
  lcWaitMax : Nat
  cntAdmitLc : Word
  cntAdmitBe : Word
  cntPreempt : Word
  cntSliceOver : Word
  cntSliceEnd : Word
  cntLate : Word
  cntMoves : Word
  cntJigDefer : Word
  cntCqWait : Word
  lcHead : BitVec 16
  lcTail : BitVec 16
  beHead : BitVec 16
  beTail : BitVec 16
  cqHead : BitVec 16
  cqTail : BitVec 16
  /-- completions that wait for the completion ring (R323), oldest first: the batch, or the record of a descriptor that was
  not admitted -/
  held : List (Nat × Bytes)
  waits : List Submission
  pubno : Nat
  deriving DecidableEq, Repr

/-- A clamp report (R276). -/
structure Clamp where
  sect : Nat
  type : Nat
  reason : Nat
  record : Nat
  item : Nat
  field : Nat
  part : Nat
  written : Nat
  applied : Nat
  deriving DecidableEq, Repr

/-- A step list, cell record, stream list or initial epoch of a staged image. -/
structure StagedCell where
  part : Nat
  g : Nat
  img : CellImage
  deriving DecidableEq, Repr

/-- The staged image after clamping (R291): what a commit puts in force. -/
structure Staged where
  whole : Bool
  part : Nat
  serial : Word
  builder : Word
  digest : Bytes
  parts : List (Nat × Nat)
  frames : List (Nat × Nat × Nat)
  regulators : List (Nat × Nat × Nat × Bool × Nat)
  sources : List (Nat × Nat)
  grants : List Nat
  pair : Option (Bool × Nat × Nat)
  ranges : List Range
  tables : List TableEntry
  epochs : List (Nat × Epoch × Bytes)
  ctxs : List CmpCtx
  cells : List StagedCell
  lists : List (Nat × Nat × Bytes)
  groups : List Group
  chains : List Chain
  classes : List (Nat × Nat × Nat × List Nat × List Nat)
  deriving DecidableEq, Repr

/-- Image registers and staging store (R291 to R298). `st`: 0 EMPTY, 1 STAGING, 2 STAGED, 3 COMMITTING. -/
structure Image where
  busy : Bool
  lost : Bool
  st : Nat
  result : Nat
  ended : Nat
  staged : Option Staged
  closedAt : Nat
  applying : Bool
  serial : Word
  pserial : List Word
  area : List Word
  frames : List (Nat × Nat × Nat)
  grants : List Nat
  sources : List (Nat × Nat)
  groups : List Group
  chains : List Chain
  /-- the ranges of the translation sections last committed (R458) -/
  committed : List Range
  /-- the frame map last committed before a warm reset (R459) -/
  lastFrames : List (Nat × Nat × Nat)
  /-- ranges that the apply phase removes (R290, R292) -/
  removing : List Range
  measure : List Bytes
  /-- SERIAL beside each measurement (R289) -/
  measureSerial : List Word
  waitPartner : Bool
  /-- the address and length that the STAGE in progress was given (R291) -/
  stageAddr : Nat
  stageLen : Nat
  deriving DecidableEq, Repr

/-- A batch in flight (R301 to R310). `path`: 0 LC ring, 1 BE ring, 2 mailbox, 3 network, with slot or (peer, msg). -/
structure Batch where
  handle : Nat
  part : Nat
  cls : Cls
  desc : Bytes
  admitAt : Nat
  /-- from when the cold deadline runs (R163, R409) -/
  coldFrom : Nat
  coldUs : Nat
  path : Nat
  pathArg : Nat
  msg : Nat
  /-- cells whose job has not ended -/
  running : List Nat
  jobs : Nat
  status : Nat
  cells : List Nat
  preempted : Nat
  moved : Nat
  replays : Nat
  dropped : Nat
  firstCell : Nat
  cause : Nat
  /-- logical cells that ended with a replayable cell class (R409) -/
  faulty : List Nat
  replayable : Bool
  decided : Bool
  replayed : Bool
  journalSlot : Option Nat
  /-- every job has ended for good, at this MTIME (R308) -/
  complete : Bool
  doneAt : Nat
  subst : List (Nat × Nat)
  substLost : Nat
  deriving DecidableEq, Repr

/-! ## Host interface (R324 to R352) -/

/-- A copy descriptor in progress (R336, R337): ring index, its bytes, bytes landed, and whether it is a replay. -/
structure CeDesc where
  index : Nat
  desc : Bytes
  done : Nat
  /-- 0 while it may still complete with OK, else the status its check gave (R339) -/
  status : Nat
  replayed : Bool
  /-- source data as it stood when the copy started, and the ranges that its checks translated (R262) -/
  snap : List (Byte × Bool)
  rngs : List Range
  deriving DecidableEq, Repr

/-- A copy engine (R335 to R339, R350 to R352). `st` is the code of R352. -/
structure CopyEngine where
  st : Nat
  active : List CeDesc
  head : BitVec 16
  tail : BitVec 16
  taken : BitVec 16
  affected : List CeDesc
  lastLost : Option Nat
  mhz : Nat
  ceil : Nat
  mv : Nat
  cntBytes : Word
  cntDesc : Word
  cntLost : Word
  cntReplay : Word
  cntPoison : Word
  deriving DecidableEq, Repr

/-- A mailbox slot (R340 to R343): host-to-device bytes, owner side, and the request in progress. -/
structure MbxSlot where
  data : Bytes
  device : Bool
  rung : Bool
  handle : Option Nat
  reply : Option Bytes
  deriving DecidableEq, Repr

/-- The host function (R324 to R352). `bufs`: BAR2 read buffer of each function, 0 the physical one and n + 1 virtual
function n; `vectors`: MSI-X vectors raised (R348); `readData`: the answer of the last register or BAR read. -/
structure HostIf where
  up : Bool
  /-- the link has been up since power-on, so that its return raises vector 19 (R348) -/
  wasUp : Bool
  rate : Nat
  width : Nat
  cxl : Bool
  sriov : Bool
  configReady : Bool
  lineCache : List RbEntry
  bufs : List (Nat × List RbEntry)
  mtimeLatch : List (Nat × BitVec 32)
  vectors : List Nat
  readData : Bytes
  readMarked : Bool
  slots : List MbxSlot
  mhz : Nat
  ceil : Nat
  mv : Nat
  cntRecovery : Word
  cntLinkdown : Word
  cntHotreset : Word
  cntUnmapped : Word
  cntCto : Word
  cntReq : Word
  cntDbLost : Word
  deriving DecidableEq, Repr

/-! ## Network and Horvi (R353 to R396) -/

/-- An Ethernet port (R353 to R359). -/
structure Port where
  up : Bool
  spared : Bool
  dead : Bool
  pausedLc : Bool
  pausedBe : Bool
  lowPower : Bool
  tx : Word
  rx : Word
  fecCorr : Word
  fecUncorr : Word
  drop : Word
  deriving DecidableEq, Repr

/-- A connection (R356 to R358). `st`: 0 IDLE, 1 UP, 2 FAILED. `unacked`: frames sent and not acknowledged, oldest
first. `got`: frames of an incoming message not yet complete. -/
structure Conn where
  k : Nat
  st : Nat
  tx : BitVec 24
  rx : BitVec 24
  unacked : List Frame
  /-- frames numbered and not yet sent -/
  waiting : List Frame
  oldest : Nat
  tries : Nat
  nextMsg : Nat
  got : List Frame
  sak : List Word
  deriving DecidableEq, Repr

/-- An open send descriptor (R367, R368); `stat` is the STAT_ADDR of a GATHER, 0 for none. -/
structure Send where
  ring : Nat
  index : Nat
  desc : Bytes
  conn : Nat
  msg : Nat
  bytes : Nat
  /-- ranges that the check of its local extents translated (R262) -/
  rngs : List Range
  stat : Nat
  deriving DecidableEq, Repr

/-- A send ring's state beside its registers (R366). -/
structure SendRing where
  i : Nat
  head : Nat
  tail : Nat
  deriving DecidableEq, Repr

/-- A bucket of a reduction group (R369): step count, M_PREV, and the payload of the last REDUCE_DOWN with its block marks,
kept for a REDO (R371). -/
structure Bucket where
  group : Nat
  no : Nat
  count : Nat
  mPrev : Int
  down : Bytes
  marks : Nat
  deriving DecidableEq, Repr

/-- A child's contribution to a round (R370, R371): the exponent it was quantised with, its sums, maximum exponent, saturation,
NaN or infinity and the marked blocks of 16 values; the groups of 64 that failed their residue check and are awaited again. -/
structure Contribution where
  child : Nat
  e : Int
  q : List Int
  m : Int
  sat : Bool
  nonfinite : Bool
  marks : Nat
  bad : List Nat
  deriving DecidableEq, Repr

/-- A reduction round (R369 to R371). `send`: the local REDUCE, none while only children have arrived. `x`, `q`, `e`, `m`: the
module's own values, their quantisation, its exponent and the maximum exponent; `down`: the result received with groups
awaited again; `retried`: sender (1,024 for the parent) and group of each residue redo. -/
structure Round where
  group : Nat
  bucket : Nat
  send : Option Send
  x : List (BitVec 32)
  q : List Int
  e : Int
  m : Int
  sat : Bool
  nonfinite : Bool
  marks : Nat
  count : Nat
  startAt : Nat
  children : List Contribution
  redone : Bool
  residueRedo : Bool
  sent : Bool
  down : Option (Bytes × List Nat)
  retried : List (Nat × Nat)
  deriving DecidableEq, Repr

/-- The network engine (R353 to R375). `out` holds frames sent and replies of R354, newest last. -/
structure Net where
  ports : List Port
  conns : List Conn
  sends : List Send
  rings : List SendRing
  buckets : List Bucket
  rounds : List Round
  out : List (Nat × Frame)
  replies : List (Nat × Nat × BitVec 128)
  jig : Bool
  mhz : Nat
  ceil : Nat
  mv : Nat
  ptpLast : Nat
  ptpLocked : Bool
  ptpPpb : Int
  ptpOffset : Int
  unknownPeer : Word
  other : Word
  resend : Word
  redRedo : Word
  redFail : Word
  deriving DecidableEq, Repr

/-- A stream of the Horvi link in both directions (R379). -/
structure HrvStream where
  tx : BitVec 24
  rx : BitVec 24
  unacked : List Frame
  waiting : List Frame
  oldest : Nat
  deriving DecidableEq, Repr

/-- A mirrored command that both modules have not yet run (R385): OP of R152 or 8 for COMMIT, with the bytes that go with it;
whether it was written here. -/
structure MirrorCmd where
  op : Nat
  part : Nat
  table : Nat
  data : Bytes
  own : Bool
  deriving DecidableEq, Repr

/-- The Horvi function (R376 to R396). `st` is the code of R380. -/
structure Horvi where
  st : Nat
  /-- HRV_CFG[LINK_EN], and the PAIR record enables pair operation (R280) -/
  enable : Bool
  policy : Bool
  rank : Nat
  mask : Nat
  source : Bool
  lanes : List Bool
  laneSeen : List Nat
  laneBack : List Nat
  streams : List HrvStream
  helloSeen : Bool
  own : List (Nat × Bytes)
  partner : List (Nat × Bytes)
  jseq : Nat
  log : List (Nat × Bytes)
  logPos : Nat
  /-- source: log position up to which SYNC frames have been sent; destination: whether the end of the copy has come (R383) -/
  syncPos : Nat
  syncEnd : Bool
  /-- rows applied while SOLO, which a resynchronisation overwrites (R382) -/
  overwritten : Nat
  cmds : List MirrorCmd
  /-- end of the probe window, and the message number of the last probe (R391) -/
  probe : Option Nat
  probeMsg : Option Nat
  /-- the partner's records that a takeover has still to replay, by slot (R392) -/
  toReplay : List (Nat × Bytes)
  /-- bytes of an UPDATE message whose frames have not all come (R378, R384) -/
  updBuf : Bytes
  /-- bytes of a SYNC message whose frames have not all come (R383) -/
  syncBuf : List (Byte × Bool)
  out : List Frame
  sak : List Word
  lastPn : List Nat
  mhz : Nat
  ceil : Nat
  mv : Nat
  hbMiss : Word
  cntLane : Word
  cntResend : Word
  rxDrop : Word
  loss : Word
  replayed : Word
  yields : Word
  winDrop : Word
  deriving DecidableEq, Repr

/-! ## Faults, health, cartridges, power (R397 to R462) -/

/-- An open incident (R403). -/
structure Incident where
  rep : Report
  first : Nat
  last : Nat
  reporters : Nat
  openedAt : Nat
  action : Nat
  verdict : Nat
  selfReport : Bool
  sev : Nat
  /-- the incident has been counted as an event at its source (R404, R418) -/
  counted : Bool
  /-- that event made the source permanent -/
  perm : Bool
  /-- SEQ of its record once written; 0 before -/
  seq : Nat
  deriving DecidableEq, Repr

/-- A larkspur slot (R416): class, lifetime count, last four event minutes. -/
structure LarkSlot where
  cls : Nat
  lifetime : Nat
  recent : List Nat
  deriving DecidableEq, Repr

/-- A larkspur record (R416), and whether flash is behind it (R417). -/
structure Lark where
  unit : UnitId
  st : Nat
  powered : Nat
  perm : Nat
  updated : Nat
  slots : List LarkSlot
  jigRuns : Nat
  jigFails : Nat
  jigLast : Nat
  history : BitVec 16
  lastCode : Nat
  interval : Nat
  margins : List (Nat × Nat)
  repairs : List (Nat × Nat × Nat × Nat)
  tempH : List Nat
  tempMax : Int
  dirty : Bool
  permanent : Bool
  deriving DecidableEq, Repr

/-- The jig of a position, a row engine or the network engine (R404, R412, R413): next time on schedule, due time and end of
the grace window of one that is due, running, failures in a row, last pass; SEQ and class of the incident it runs for and
whether that has been counted; spare array rows and columns left. -/
structure Jig where
  next : Nat
  due : Nat
  graceEnd : Nat
  pending : Bool
  running : Bool
  fails : Nat
  lastPass : Nat
  ref : Nat
  refCls : Nat
  refSelf : Bool
  arraySpares : Nat
  deriving DecidableEq, Repr

/-- A fault ring (R397, R398, R405). -/
structure FaultRing where
  head : BitVec 16
  tail : BitVec 16
  seq : Nat
  held : List Bytes
  ovf : List Nat
  lost : Nat
  firstLost : Nat
  deriving DecidableEq, Repr

/-- Faults and health (R397 to R425). `laneUsed` counts repaired lanes of each UCIe module (edge, module). -/
structure Health where
  rings : List FaultRing
  incidents : List Incident
  fatal : BitVec 5
  firstMs : Nat
  alert : BitVec 7
  suspect : Bool
  draining : Bool
  drainedAll : Bool
  replace : Bool
  cause : Nat
  larks : List Lark
  /-- the larkspur records as flash holds them, and the module's powered minutes of earlier starts, as known and in flash
  (R416, R417) -/
  flash : List Lark
  baseMin : Nat
  flashMin : Nat
  jigs : List Jig
  reJigs : List Jig
  netJig : Jig
  /-- shadow mismatches under test: position of the cell, of the spare, and the verdicts of their jigs (R415) -/
  shadowPairs : List (Nat × Nat × Option Bool × Option Bool)
  laneUsed : List ((Nat × Nat) × Nat)
  ucieLost : List (Nat × Nat)
  /-- link-level retries of an edge since its last report, and the MTIME of that report (R402) -/
  retries : List (Nat × Nat × Nat)
  /-- a drain command of the whole module whose batches still run (R33) -/
  wholeDrain : Bool
  larkData : Bytes
  larkBusy : Bool
  larkValid : Bool
  flashOk : Bool
  messages : List Bytes
  cntRecords : Word
  cntIncidents : Word
  cntReports : Word
  cntReplays : Word
  cntJigRuns : Word
  cntJigFails : Word
  cntShadow : Word
  cntShadowSkip : Word
  /-- RWC writes clamped, which only the management plane sees (R12) -/
  cntClamps : Word
  deriving DecidableEq, Repr

/-- An NVMe command outstanding (R427). `kind`: 0 cold read, 1 write-back, 2 FILL write, 3 MIGRATE read, 4 MIGRATE
write, 5 Flush and shutdown, 6 a write-back repeated to the destination of a MIGRATE, 7 a pinned page written at the end of a
MIGRATE, 8 Write Uncorrectable. `ref`: table, epoch and page of kinds 0, 1, 6 and 7. -/
structure Nvme where
  id : Nat
  kind : Nat
  lba : Nat
  stack : Nat
  ref : Nat × Nat × Nat
  data : Bytes
  /-- Write Uncorrectable in place of a write (R215) -/
  unc : Bool
  deriving DecidableEq, Repr

/-- A cartridge bay (R426 to R438). `st` is the code of R429. -/
structure Bay where
  st : Nat
  present : Bool
  since : Nat
  settled : Bool
  width : Nat
  model : Nat
  serial : Bytes
  capacity : Nat
  endurance : Nat
  mfg : Nat
  smartWritten : Nat
  cmds : List Nvme
  linkPerm : Nat
  /-- PERST_N of the bay is released (R431) -/
  released : Bool
  rdPages : Word
  wrPages : Word
  rdErr : Word
  wrRefused : Word
  droppedPages : Word
  deriving DecidableEq, Repr

/-- The cartridge function (R436 to R438). -/
structure Carts where
  bays : List Bay
  written : List (Bytes × Nat)
  busy : Bool
  lost : Bool
  result : Nat
  op : Nat
  bay : Nat
  dest : Nat
  rebind : Bool
  count : Nat
  lba : Nat
  progress : Nat
  progressErr : Nat
  nextId : Nat
  mhz : Nat
  ceil : Nat
  mv : Nat
  deriving DecidableEq, Repr

/-- Power, cooling and start-up (R439 to R462). `boot`: 0 off, 1 input on, 2 standby rails, 3 firmware running, 4 die
self-test done, 5 in recovery. -/
structure Power where
  boot : Nat
  pwrGood : Bool
  perstN : Bool
  memReady : Bool
  imageReady : Bool
  resetting : Bool
  lost : Bool
  suspectHold : Bool
  lastReset : Nat
  partReset : BitVec 16
  /-- step 3 of R457 runs: landing pages are being written back -/
  shutting : Bool
  inputW : Nat
  samples : List Nat
  input100mv : Nat
  ceil : Nat
  mgmtCap : Nat
  hottest : Int
  inlet : Int
  outlet : Int
  throttled : List Island
  flowLow : Bool
  inletHigh : Bool
  floorCap : Bool
  floorHold : Bool
  fastHold : Bool
  /-- some ceiling has been below its top in the current millisecond of MTIME (R446) -/
  capped : Bool
  cntCap : Word
  cntFast : Word
  firmware : List Bytes
  activeBank : Nat
  newFirmware : Bool
  keys : List (Option Bytes)
  eidI3c : Nat
  eidPcie : Nat
  i3cAddr : Nat
  answer : Bytes
  plugLow : List Nat
  /-- temperatures of dies and stacks by sensor number, as the last shadow set of the steward holds them (R36, R451) -/
  temps : List Nat
  deriving DecidableEq, Repr

/-- The shadow set of an island (R36): its stamp and the values of its shadowed registers by BAR0 offset. -/
structure Shadow where
  island : Island
  stamp : Nat
  regs : List (Nat × Word)
  deriving DecidableEq, Repr

/-- The whole module, and the queue of commands that wait. -/
structure State where
  pending : List Instr
  /-- the part: 0 CN9640, 1 CN9624, 2 CN9612 (R2) -/
  model : Nat
  /-- MTIME in ns (R29) -/
  mtime : Word
  /-- how many free values have been drawn: the model's own field -/
  drawn : Nat
  /-- identifiers given to requests, fetches, parts and handles: the model's own field -/
  nextId : Nat
  nextHandle : Nat
  /-- RW and RWC registers that hold other than their reset value, by BAR0 offset -/
  regs : List (Nat × Word)
  shadows : List Shadow
  /-- stacked memory by device physical address; TABLE and REPLICA shares by frame, stack and offset (R197, R200) -/
  mem : Store
  /-- host memory as the module sees it: the environment's -/
  host : Store
  cells : List Cell
  dies : List Die
  engines : List Engine
  openReqs : List OpenReq
  /-- tokens and credit returns in flight to a cell and class (R27, R306) -/
  tokens : List (Nat × Nat × Cls × Token)
  credits : List CreditRef
  replWrites : List ReplicaWrite
  countMsgs : List CountMsg
  tables : List TableEntry
  epochs : List Epoch
  bindings : List Binding
  tsvc : List TableSvc
  cmp : List CmpCtx
  ranges : List Range
  caches : List (Agent × List (Nat × Nat))
  /-- stacks that an agent other than a cell has written since its last release (R206) -/
  wrote : List (Agent × Nat)
  xlt : List XltCmd
  hot : HotTable
  image : Image
  parts : List Partition
  batches : List Batch
  ces : List CopyEngine
  hif : HostIf
  net : Net
  hrv : Horvi
  health : Health
  carts : Carts
  power : Power
  ctlMhz : Nat
  ctlCeil : Nat
  ctlMv : Nat
  stewMhz : Nat
  stewCeil : Nat
  stewMv : Nat
  deriving DecidableEq, Repr

/-! ## Reset -/

/-- Compute dies of a part (R2). -/
def diesOf (model : Nat) : Nat := match model with | 0 => 8 | 1 => 4 | _ => 2
/-- Stacks and row engines of a part (R2). -/
def stacksOf (model : Nat) : Nat := match model with | 0 => 16 | 1 => 8 | _ => 4
/-- Ethernet ports of a part (R2). -/
def portsOf (model : Nat) : Nat := match model with | 0 => 8 | 1 => 4 | _ => 0
/-- Cartridge links of a part (R2). -/
def cartsOf (model : Nat) : Nat := match model with | 0 => 4 | 1 => 2 | _ => 0
/-- Sustained limit in W (R445). -/
def tdpOf (model : Nat) : Nat := match model with | 0 => 3600 | 1 => 1900 | _ => 950
/-- Peak in W (R445). -/
def peakOf (model : Nat) : Nat := match model with | 0 => 4200 | 1 => 2200 | _ => 1100
/-- Floor in W (R445). -/
def floorOf (model : Nat) : Nat := match model with | 0 => 2600 | 1 => 1400 | _ => 700

/-- A store that reads zero everywhere, unmarked. -/
def Store.empty : Store := ⟨[], []⟩

/-- An empty queue of a given depth (R176). -/
def Queue.fresh (depth : Nat) : Queue := ⟨[], depth, 0, []⟩

/-- A context with queues of the given depths, counters at their start values (R63, R305) and scalars zero (R60). -/
def Ctx.fresh (depths credits : List Nat) : Ctx :=
  { queues := depths.map Queue.fresh, credits, scalars := List.replicate 64 0, step := 0, loops := [], overLoops := 0,
    viewStamp := 0, owedAny := [], heldOverflow := none }

/-- The empty top-k state (R53). -/
def TopK.fresh : TopK := ⟨1, false, List.replicate 64 []⟩

/-- Cleared compute registers (R76, R312). -/
def Compute.fresh : Compute := ⟨.empty, .empty, .empty, .fresh, []⟩

/-- An idle slot of a role (R169). -/
def Slot.fresh (role : Nat) : Slot :=
  { st := 0, role, number := 0, cls := .lc, q := 0, list := 0, entry := 0, next := 0, done := 0, blocks := [],
    ending := none, stopQs := [], recvs := [], chain := none, ring := [], owed := [], skips := [], catchup := none,
    written := [], toks := [], ringPos := 0, nothing := false, lastStatus := 0, cntBytes := 0,
    cntBlocks := 0, cntReread := 0, cntDrops := 0, cntSkips := 0, lastSkip := 0 }

/-- The stream port after reset: default splits 50/25/25 and 40/30/30 (R180), full buckets. -/
def StreamPort.fresh : StreamPort :=
  { slots := List.replicate 16 (Slot.fresh 0), splitLc := [50, 25, 25], splitBe := [40, 30, 30],
    buckets := [102400, 102400, 102400], bucketsBe := [102400, 102400, 102400], cntRead := 0, cntWrite := 0, cntRemote := 0, cntPoison := 0 }

/-- What an unowned cell holds of an image: nothing to run, default depths, no binding (R281). -/
def CellImage.fresh : CellImage :=
  { steps := [], roles := List.replicate 16 0, depths := List.replicate 16 64, binds := List.replicate 16 none }

/-- Nothing pending. -/
def Pending.fresh : Pending := ⟨false, false, 0, false, 0, false, false, []⟩

/-- The cell at position pos after reset: positions 0 to 35 of a die carry logical cell 36d + p (DESIGN CHOICE: the repair
map of an unrepaired part), positions 36 to 39 are SPARE (R41). -/
def Cell.fresh (pos : Nat) : Cell :=
  { st := if pos % 40 < 36 then 0 else 6
    logical := if pos % 40 < 36 then some (36 * (pos / 40) + pos % 40) else none
    part := none, lc := Ctx.fresh (List.replicate 16 64) (List.replicate 16 64),
    be := Ctx.fresh (List.replicate 16 64) (List.replicate 16 64), job := none, susp := none, startQ := [],
    held := none, layer := 0, comp := .fresh, scratch := .empty, readBuf := [], open_ := [], written := [], markers := 0,
    rstored := [], img := .fresh, port := .fresh, fault := ⟨0, false, 0, 0, 0, 0, 0⟩, cnt := ⟨0, 0, 0, 0, 0, 0⟩, freeze := false,
    mhz := 1600, ceil := 2000, mv := 0, pend := .fresh }

/-- A regulator with no image (R217). -/
def Regulator.fresh : Regulator := ⟨0, true, 256, 0, 0, 0, 0, 0, 0⟩

/-- A stack after reset (R216 to R218). -/
def Stack.fresh : Stack :=
  { wcb := [], wcbHigh := 0, regs := List.replicate 16 .fresh, markers := [], repairs := [], spares := [],
    pendingHard := false, scrubPasses := 0, scrubPos := 0, failed := false, lost := [], cntRd := 0, cntWr := 0, cntMerge := 0,
    cntEvict := 0, cntRdDrain := 0, cntRelDrain := 0, cntCorr := 0, cntUncorr := 0, cntPpr := 0 }

/-- A row engine after reset: OFFLINE (R136). -/
def Engine.fresh : Engine :=
  { st := 0, input := [], parts := [], fetches := [], tagsHigh := 0, faultCause := 0, faultValid := false,
    faultParts := 0, srcs := [], sketch := [], occ := 0, replicas := [], held := [], counts := [], landing := [],
    hands := [], misses := [], cnt := ⟨0, 0, 0, 0, 0, 0, 0, 0, 0, 0, 0, 0⟩, freeze := false, mhz := 1500, ceil := 1800,
    mv := 0, paused := false, jigDue := false, lastRepl := 0, mem := .fresh }

/-- A die fabric after reset (R25). -/
def Die.fresh : Die := ⟨[], [], [], 0, 2200, 2000, 0⟩

/-- Table-service registers after reset (R151). -/
def TableSvc.fresh : TableSvc := ⟨false, false, 0, 0, 0, 0, [], [], none, none, 0, 0, 0, 0, 0, 0, 0, 0⟩

/-- Translation registers after reset (R267). -/
def XltCmd.fresh : XltCmd := ⟨false, false, 0, none, [], [], none, [0, 0, 0, 0], 0, 0, 0⟩

/-- A partition that no image defines (R322). -/
def Partition.fresh : Partition :=
  { defined := false, maxBatches := 1, sliceUs := 20, lcTarget := none, opened := false, drained := false,
    committing := false, resetting := false, lcWaitMax := 0, cntAdmitLc := 0, cntAdmitBe := 0, cntPreempt := 0,
    cntSliceOver := 0, cntSliceEnd := 0, cntLate := 0, cntMoves := 0, cntJigDefer := 0, cntCqWait := 0, lcHead := 0,
    lcTail := 0, beHead := 0, beTail := 0, cqHead := 0, cqTail := 0, held := [], waits := [], pubno := 0 }

/-- The image registers after reset (R297): nothing staged or in force. -/
def Image.fresh : Image :=
  { busy := false, lost := false, st := 0, result := 0, ended := 0, staged := none, closedAt := 0,
    applying := false, serial := 0, pserial := List.replicate 16 0, area := [], frames := [], grants := [],
    sources := [], groups := [], chains := [], committed := [], lastFrames := [], removing := [],
    measure := List.replicate 17 (List.replicate 48 0), measureSerial := List.replicate 17 0, waitPartner := false,
    stageAddr := 0, stageLen := 0 }

/-- A copy engine after reset (R352). -/
def CopyEngine.fresh : CopyEngine := ⟨0, [], 0, 0, 0, [], none, 1200, 1400, 0, 0, 0, 0, 0, 0⟩

/-- A mailbox slot the host owns (R340). -/
def MbxSlot.fresh : MbxSlot := ⟨List.replicate 256 0, false, false, none, none⟩

/-- The host function after reset (R352). -/
def HostIf.fresh : HostIf :=
  { up := false, wasUp := false, rate := 0, width := 0, cxl := false, sriov := false, configReady := false, lineCache := [],
    bufs := [], mtimeLatch := [], vectors := [], readData := [], readMarked := false,
    slots := List.replicate 64 .fresh, mhz := 1200, ceil := 1400, mv := 0, cntRecovery := 0, cntLinkdown := 0,
    cntHotreset := 0, cntUnmapped := 0, cntCto := 0, cntReq := 0, cntDbLost := 0 }

/-- A port after reset (R375). -/
def Port.fresh : Port := ⟨false, false, false, false, false, false, 0, 0, 0, 0, 0⟩

/-- The network engine of a part after reset (R375). -/
def Net.fresh (model : Nat) : Net :=
  { ports := List.replicate (portsOf model) .fresh, conns := [], sends := [], rings := [], buckets := [], rounds := [],
    out := [], replies := [], jig := false, mhz := 1200, ceil := 1400, mv := 0, ptpLast := 0, ptpLocked := false,
    ptpPpb := 0, ptpOffset := 0, unknownPeer := 0, other := 0, resend := 0, redRedo := 0, redFail := 0 }

/-- A Horvi stream at PSN 0. -/
def HrvStream.fresh : HrvStream := ⟨0, 0, [], [], 0⟩

/-- The Horvi function after reset: OFF (R396). -/
def Horvi.fresh : Horvi :=
  { st := 0, enable := false, policy := false, rank := 0, mask := 0, source := false, lanes := [false, false], laneSeen := [0, 0],
    laneBack := [0, 0], streams := List.replicate 3 .fresh, helloSeen := false, own := [], partner := [], jseq := 0,
    log := [], logPos := 0, syncPos := 0, syncEnd := false, overwritten := 0, cmds := [],
    probe := none, probeMsg := none, toReplay := [], updBuf := [], syncBuf := [], out := [], sak := List.replicate 32 0, lastPn := [0, 0, 0, 0],
    mhz := 1200, ceil := 1400, mv := 0, hbMiss := 0, cntLane := 0, cntResend := 0, rxDrop := 0,
    loss := 0, replayed := 0, yields := 0, winDrop := 0 }

/-- A fault ring after reset (R424); record numbers start at 1 (R399). -/
def FaultRing.fresh : FaultRing := ⟨0, 0, 1, [], List.replicate 16 0, 0, 0⟩

/-- The jig of a position with none due (R412); 2 spare rows and 2 spare columns (R418). -/
def Jig.fresh : Jig := ⟨0, 0, 0, false, false, 0, 0, 0, 0, false, 4⟩

/-- Faults and health of a part with empty flash (R424, R425). -/
def Health.fresh (model : Nat) : Health :=
  { rings := List.replicate 3 .fresh, incidents := [], fatal := 0, firstMs := 0, alert := 0, suspect := false,
    draining := false, drainedAll := false, replace := false, cause := 0, larks := [], flash := [],
    baseMin := 0, flashMin := 0, jigs := List.replicate (40 * diesOf model) .fresh,
    reJigs := List.replicate (stacksOf model) .fresh, netJig := .fresh, shadowPairs := [], laneUsed := [], ucieLost := [],
    retries := [], wholeDrain := false, larkData := List.replicate 512 0, larkBusy := false, larkValid := false, flashOk := true,
    messages := [], cntRecords := 0, cntIncidents := 0, cntReports := 0, cntReplays := 0, cntJigRuns := 0,
    cntJigFails := 0, cntShadow := 0, cntShadowSkip := 0, cntClamps := 0 }

/-- An empty bay (R438); PERST_N asserted. -/
def Bay.fresh : Bay :=
  { st := 0, present := false, since := 0, settled := false, width := 0, model := 0, serial := [], capacity := 0,
    endurance := 0, mfg := 0, smartWritten := 0, cmds := [], linkPerm := 0, released := false, rdPages := 0, wrPages := 0,
    rdErr := 0, wrRefused := 0, droppedPages := 0 }

/-- The cartridge function of a part after reset (R438). -/
def Carts.fresh (model : Nat) : Carts :=
  { bays := List.replicate (cartsOf model) .fresh, written := [], busy := false, lost := false, result := 0, op := 0,
    bay := 0, dest := 0, rebind := false, count := 0, lba := 0, progress := 0, progressErr := 0, nextId := 0,
    mhz := 1200, ceil := 1400, mv := 0 }

/-- Power and start-up before input power (R454, R462). -/
def Power.fresh (model : Nat) : Power :=
  { boot := 0, pwrGood := false, perstN := true, memReady := false, imageReady := false, resetting := false,
    lost := false, suspectHold := false, lastReset := 0, partReset := 0, shutting := false, inputW := 0, samples := [],
    input100mv := 0, ceil := 2000, mgmtCap := tdpOf model, hottest := 0, inlet := 0, outlet := 0, throttled := [],
    flowLow := false, inletHigh := false, floorCap := false, floorHold := false, fastHold := false, capped := false, cntCap := 0,
    cntFast := 0, firmware := [[], []], activeBank := 0, newFirmware := false, keys := List.replicate 8 none,
    eidI3c := 0, eidPcie := 0, i3cAddr := 0, answer := [], plugLow := [], temps := [] }

/-- The module of a given part after reset, its input still off (R454). -/
def State.resetOf (model : Nat) : State :=
  { pending := [], model, mtime := 0, drawn := 0, nextId := 0, nextHandle := 1, regs := [], shadows := [], mem := .empty,
    host := .empty, cells := (List.range (40 * diesOf model)).map Cell.fresh,
    dies := List.replicate (diesOf model) .fresh, engines := List.replicate (stacksOf model) .fresh, openReqs := [],
    tokens := [], credits := [], replWrites := [], countMsgs := [], tables := [], epochs := [], bindings := [],
    tsvc := List.replicate 16 .fresh, cmp := [], ranges := [], caches := [], wrote := [], xlt := List.replicate 16 .fresh,
    hot := ⟨[], [], 0, 0, 0⟩, image := .fresh, parts := List.replicate 16 .fresh, batches := [],
    ces := List.replicate 16 .fresh, hif := .fresh, net := .fresh model, hrv := .fresh, health := .fresh model,
    carts := .fresh model, power := .fresh model, ctlMhz := 1200, ctlCeil := 1400, ctlMv := 0, stewMhz := 1000,
    stewCeil := 1000, stewMv := 0 }

/-- The machine right after reset: a CN9640 (DESIGN CHOICE among the three parts of R2) with its input off. -/
def State.reset : State := State.resetOf 0

end Sys2Proof.Machine
end

