-- ==== Sys2Proof/Machine/Ops.lean ====
section
/-! DEFINITION. The named operations over stores, units, time and the free values that every family shares. -/
namespace Sys2Proof.Machine

/-! ## Bytes and words -/

/-- Little-endian value of a byte string (R10). -/
def leNat : Bytes → Nat
  | [] => 0
  | b :: l => b.toNat + 256 * leNat l

/-- The n low bytes of a number, little-endian (R10). -/
def leBytes : Nat → Nat → Bytes
  | 0, _ => []
  | n + 1, v => BitVec.ofNat 8 v :: leBytes n (v / 256)

/-- n zero bytes. -/
def zeros (n : Nat) : Bytes := List.replicate n 0

/-- Byte i of a byte string, zero beyond its end. -/
def byteAt (b : Bytes) (i : Nat) : Nat := (b.getD i 0).toNat

/-- 64-bit word i of a byte string (R10). -/
def wordAt (b : Bytes) (i : Nat) : Nat := leNat ((b.drop (8 * i)).take 8)

/-- Words as bytes. -/
def ofWords (l : List Nat) : Bytes := l.flatMap (leBytes 8)

/-- One bit of a CRC-32C (Castagnoli, reflected). -/
def crcBit (c : Nat) : Nat := if c % 2 = 1 then c / 2 ^^^ 0x82F63B78 else c / 2

/-- CRC-32C of a byte string (R226, R291, R415, R416). -/
def crc32c (b : Bytes) : Nat :=
  b.foldl (fun c x => crcBit (crcBit (crcBit (crcBit (crcBit (crcBit (crcBit (crcBit (c ^^^ x.toNat)))))))))
    0xFFFFFFFF ^^^ 0xFFFFFFFF

/-- The integer in the low n bits, two's complement. -/
def signed (n v : Nat) : Int := if (v % 2 ^ n).testBit (n - 1) then ((v % 2 ^ n : Nat) : Int) - 2 ^ n else (v % 2 ^ n : Nat)

/-! ## Data with the foxglove bit -/

/-- Bytes that travel with their marks (R215). -/
abbrev Data := List (Byte × Bool)

/-- Unmarked data. -/
def Data.clean (b : Bytes) : Data := b.map fun x => (x, false)
/-- Data marked as a whole when m is set. -/
def Data.mark (m : Bool) (b : Bytes) : Data := b.map fun x => (x, m)
def Data.bytes (d : Data) : Bytes := d.map Prod.fst
/-- Some byte is marked. -/
def Data.marked (d : Data) : Bool := d.any Prod.snd

/-- The pieces (start, length) of the n addresses from a, cut at multiples of u. -/
def chunks (u a n : Nat) : List (Nat × Nat) :=
  if n = 0 then [] else
  (List.range ((a + n - 1) / u + 1 - a / u)).map fun i =>
    let lo := max a ((a / u + i) * u)
    (lo, min (a + n) ((a / u + i + 1) * u) - lo)

/-! ## Stores -/

/-- Number the bytes from address a, leaving out the zeros. -/
def cellsFrom : Nat → Bytes → List Host.Cell
  | _, [] => []
  | a, b :: l => if b = 0 then cellsFrom (a + 1) l else (a, b) :: cellsFrom (a + 1) l

/-- One byte of a store: zero where nothing is listed. -/
def Store.get (st : Store) (a : Nat) : Byte :=
  match st.bytes.find? (fun c => c.1 == a) with
  | some c => c.2
  | none => 0

/-- The mark of a unit. -/
def Store.isMarked (st : Store) (x : Nat) : Bool := st.poison.contains x

/-- n bytes from a, each with the mark of its unit of u bytes. -/
def Store.read (u : Nat) (st : Store) (a n : Nat) : Data :=
  let w : Store := ⟨st.bytes.filter (fun c => a ≤ c.1 && c.1 < a + n), st.poison⟩
  (List.range n).map fun i => (w.get (a + i), st.isMarked ((a + i) / u))

/-- The mark of unit x after data d has been written from a: set by a marked byte, cleared by a write of the whole unit,
else kept (R44, R215). -/
def Store.markAfter (u : Nat) (st : Store) (a : Nat) (d : Data) (x : Nat) : Bool :=
  let lo := max a (x * u)
  let hi := min (a + d.length) ((x + 1) * u)
  let part : Data := (d.drop (lo - a)).take (hi - lo)
  if part.marked then true else if hi - lo = u then false else st.isMarked x

/-- Write d from address a, in units of u bytes. -/
def Store.write (u : Nat) (st : Store) (a : Nat) (d : Data) : Store :=
  if d.isEmpty then st else
  { bytes := st.bytes.filter (fun c => c.1 < a) ++ cellsFrom a d.bytes ++ st.bytes.filter (fun c => a + d.length ≤ c.1)
    poison := st.poison.filter (fun x => x < a / u)
      ++ ((List.range ((a + d.length - 1) / u + 1 - a / u)).map (a / u + ·)).filter (st.markAfter u a d)
      ++ st.poison.filter (fun x => (a + d.length - 1) / u < x) }

/-- Set or clear the mark of one unit. -/
def Store.setMark (st : Store) (x : Nat) (m : Bool) : Store :=
  { st with poison := st.poison.filter (· < x) ++ (if m then [x] else []) ++ st.poison.filter (x < ·) }

/-- Forget the addresses and marks of [a, a + n). -/
def Store.erase (u : Nat) (st : Store) (a n : Nat) : Store :=
  { bytes := st.bytes.filter (fun c => c.1 < a || a + n ≤ c.1)
    poison := st.poison.filter (fun x => x * u < a || a + n ≤ x * u) }

/-- Addresses rise strictly. -/
def rising : List Nat → Bool
  | [] => true
  | [_] => true
  | a :: b :: l => a < b && rising (b :: l)

/-- The canonical form of a store: both lists rise and no listed byte is zero. -/
def Store.wf (st : Store) : Bool :=
  rising (st.bytes.map Prod.fst) && st.bytes.all (fun c => c.2 != 0) && rising st.poison

/-! ## Units of the state -/

def State.cell (s : State) (i : Nat) : Cell := s.cells.getD i (Cell.fresh i)
def State.modCell (s : State) (i : Nat) (f : Cell → Cell) : State := { s with cells := s.cells.modify i f }
def State.engine (s : State) (i : Nat) : Engine := s.engines.getD i .fresh
def State.modEngine (s : State) (i : Nat) (f : Engine → Engine) : State := { s with engines := s.engines.modify i f }
def State.modStack (s : State) (i : Nat) (f : Stack → Stack) : State := s.modEngine i fun e => { e with mem := f e.mem }
def State.die (s : State) (d : Nat) : Die := s.dies.getD d .fresh
def State.modDie (s : State) (d : Nat) (f : Die → Die) : State := { s with dies := s.dies.modify d f }
def State.part (s : State) (p : Nat) : Partition := s.parts.getD p .fresh
def State.modPart (s : State) (p : Nat) (f : Partition → Partition) : State := { s with parts := s.parts.modify p f }
def State.svc (s : State) (p : Nat) : TableSvc := s.tsvc.getD p .fresh
def State.modSvc (s : State) (p : Nat) (f : TableSvc → TableSvc) : State := { s with tsvc := s.tsvc.modify p f }
def State.xltOf (s : State) (p : Nat) : XltCmd := s.xlt.getD p .fresh
def State.modXlt (s : State) (p : Nat) (f : XltCmd → XltCmd) : State := { s with xlt := s.xlt.modify p f }
def State.ce (s : State) (e : Nat) : CopyEngine := s.ces.getD e .fresh
def State.modCe (s : State) (e : Nat) (f : CopyEngine → CopyEngine) : State := { s with ces := s.ces.modify e f }
def State.modHif (s : State) (f : HostIf → HostIf) : State := { s with hif := f s.hif }
def State.modNet (s : State) (f : Net → Net) : State := { s with net := f s.net }
def State.modHrv (s : State) (f : Horvi → Horvi) : State := { s with hrv := f s.hrv }
def State.modHealth (s : State) (f : Health → Health) : State := { s with health := f s.health }
def State.modCarts (s : State) (f : Carts → Carts) : State := { s with carts := f s.carts }
def State.modPower (s : State) (f : Power → Power) : State := { s with power := f s.power }
def State.modImage (s : State) (f : Image → Image) : State := { s with image := f s.image }
def State.bay (s : State) (b : Nat) : Bay := s.carts.bays.getD b .fresh
def State.modBay (s : State) (b : Nat) (f : Bay → Bay) : State :=
  s.modCarts fun c => { c with bays := c.bays.modify b f }

/-- Change every element that a test picks. -/
def modWhere {α : Type} (l : List α) (p : α → Bool) (f : α → α) : List α := l.map fun x => if p x then f x else x

/-- Stacks of the part (R2). -/
def State.stackCount (s : State) : Nat := stacksOf s.model
/-- Dies of the part (R2). -/
def State.dieCount (s : State) : Nat := diesOf s.model

/-! ## Time and free values -/

/-- MTIME as an island's copy shows it: two copies differ by at most 16 ns (R29); the skew is free. -/
def State.now (s : State) (i : Island) : Nat := s.mtime.toNat + Config.mtimeSkew i % 17

/-- The next free value below a bound. -/
def State.draw (s : State) (bound : Nat) : Nat × State :=
  (Config.free s.drawn % bound, { s with drawn := s.drawn + 1 })

/-- n free bytes. -/
def State.drawBytes (s : State) (n : Nat) : Bytes × State :=
  ((List.range n).map fun i => BitVec.ofNat 8 (Config.free (s.drawn + i)), { s with drawn := s.drawn + n })

/-- A new identifier. -/
def State.newId (s : State) : Nat × State := (s.nextId, { s with nextId := s.nextId + 1 })

/-- Lowest, nominal and highest clock of an island in MHz (R25). -/
def islandRange : Island → Nat × Nat × Nat
  | .cell _ => (1200, 1600, 2000)
  | .rowEngine _ => (1200, 1500, 1800)
  | .dieFabric _ => (1600, 2000, 2200)
  | .steward => (800, 1000, 1000)
  | _ => (1000, 1200, 1400)

/-- Some frequency ceiling is below its top (R446). -/
def State.anyCapped (s : State) : Bool :=
  s.power.fastHold || s.power.floorHold || s.cells.any (fun c => decide (c.ceil < 2000))
    || s.engines.any (fun e => decide (e.ceil < 1800)) || s.dies.any (fun d => decide (d.ceil < 2200))
    || s.ces.any (fun c => decide (c.ceil < 1400)) || decide (s.hif.ceil < 1400) || decide (s.net.ceil < 1400)
    || decide (s.hrv.ceil < 1400) || decide (s.carts.ceil < 1400) || decide (s.ctlCeil < 1400) || decide (s.stewCeil < 1000)

/-- Nothing waits: MTIME advances by 1 ns once the steward runs (R29); log entry 2. A millisecond in which a ceiling was below
its top is counted as it ends (R446). -/
def tick (s : State) : State :=
  if 3 ≤ s.power.boot ∧ s.power.boot ≤ 4 then
    let s := { s with mtime := s.mtime + 1 }
    if s.mtime.toNat % 1000000 ≠ 0 then s else
    s.modPower fun p => { p with cntCap := if p.capped then p.cntCap + 1 else p.cntCap, capped := s.anyCapped }
  else s

/-! ## Cells by logical index -/

/-- The position that carries logical cell g (R41). -/
def State.posOf (s : State) (g : Nat) : Option Nat := s.cells.findIdx? (fun c => c.logical == some g)

/-- The die of a position. -/
def dieOfPos (pos : Nat) : Nat := pos / 40

/-- A context by class (R305). -/
def Cell.ctx (c : Cell) : Cls → Ctx
  | .lc => c.lc
  | .be => c.be

def Cell.setCtx (c : Cell) (k : Cls) (x : Ctx) : Cell :=
  match k with
  | .lc => { c with lc := x }
  | .be => { c with be := x }

/-- The class whose context the cell shows: that of the running job, else LC (R77). -/
def Cell.cls (c : Cell) : Cls := match c.job with | some j => j.cls | none => .lc

def Cell.cur (c : Cell) : Ctx := c.ctx c.cls
def Cell.setCur (c : Cell) (x : Ctx) : Cell := c.setCtx c.cls x

/-- A counter of the cell, which stands still while FREEZE is set (R79). -/
def Cell.count (c : Cell) (f : CellCnt → CellCnt) : Cell := if c.freeze then c else { c with cnt := f c.cnt }

/-- A scalar register (R60). -/
def Ctx.scalar (x : Ctx) (n : Nat) : Word := x.scalars.getD n 0
def Ctx.setScalar (x : Ctx) (n : Nat) (v : Word) : Ctx := { x with scalars := x.scalars.set n v }
def Ctx.queue (x : Ctx) (q : Nat) : Queue := x.queues.getD q (Queue.fresh 64)
def Ctx.modQueue (x : Ctx) (q : Nat) (f : Queue → Queue) : Ctx := { x with queues := x.queues.modify q f }

end Sys2Proof.Machine
end

