-- ==== Sys2Proof/Machine/Cfg.lean ====
section
/-! DEFINITION. The configuration registers that software writes and the module reads: their fields, reset values and
legal sets (R12, R13 and the register tables of the chapters). They live in `State.regs` by BAR0 offset. -/
namespace Sys2Proof.Machine

/-- A stored field: its place, reset value and legal set (every `step` from `min` to `max`; for K of R425 also 0). -/
structure RegField where
  lo : Nat
  width : Nat
  reset : Nat
  min : Nat
  max : Nat
  step : Nat
  deriving DecidableEq, Repr

/-- A field that takes every value. -/
def rw (lo width reset : Nat) : RegField := ⟨lo, width, reset, 0, 2 ^ width - 1, 1⟩
/-- A clamped field. -/
def rwc (lo width reset min max : Nat) : RegField := ⟨lo, width, reset, min, max, 1⟩

/-- Fields of a ring control register that are stored: SIZE and ENABLE (R322). -/
def ringFields : List RegField := [rwc 0 4 4 4 12, rw 4 1 0]

/-- Stored fields of a cell register (R80). -/
def cellCfg (o : Nat) : List RegField := if o = 0x98 then [rwc 0 32 0x2710 1 100000] else []
/-- Stored fields of a row-engine register (R137). -/
def engineCfg (o : Nat) : List RegField := if o = 0x20 then [⟨0, 14, 0x2000, 256, 8192, 256⟩] else []
/-- Stored fields of a partition register (R321, R322). -/
def partCfg (o : Nat) : List RegField :=
  match o with
  | 0x10 => [rw 7 57 0] | 0x18 => ringFields | 0x20 => [rw 7 57 0] | 0x28 => ringFields
  | 0x30 => [rw 6 58 0] | 0x38 => ringFields | _ => []
/-- Stored fields of a copy-engine register (R351, R352). -/
def ceCfg (o : Nat) : List RegField :=
  match o with | 0 => [rw 6 58 0] | 8 => ringFields | 0x20 => [rw 0 4 0, rw 4 1 0] | _ => []
/-- Stored fields of a host-interface register (R351, R352). -/
def hifCfg (o : Nat) : List RegField :=
  if o = 8 then [rwc 0 7 10 1 100] else
  if 0x100 ≤ o ∧ o < 0x200 ∧ (o % 0x20 = 8 ∨ o % 0x20 = 0x10) then [rw 6 58 0] else []
/-- Stored fields of a mailbox register (R351, R352). -/
def mbxCfg (o : Nat) : List RegField :=
  if o = 0 then [rw 0 1 0] else if o = 8 then [rw 12 52 0] else if 0x10 ≤ o ∧ o < 0x30 ∧ o % 8 = 0 then [rw 0 64 0] else []
/-- Stored fields of a network register of a part with n ports (R374, R375). -/
def netCfg (n o : Nat) : List RegField :=
  if o = 0 then [rw 0 1 0, rw 1 1 0, rw 2 1 0, rw 4 12 0, rwc 16 16 0xD412 1024 65535] else
  if o = 0x10 ∨ o = 0x18 then [rw 0 64 0] else
  if o = 0x20 then [rwc 0 16 0x32 5 10000, rwc 16 4 8 1 15] else
  if o = 0x28 then [rw 0 3 5, rw 4 3 1, rw 8 1 1] else
  if o = 0x30 then [rw 0 1 0, rwc 1 4 0 0 (n - 1)] else
  if 0x1000 ≤ o ∧ o < 0x11000 then
    match o % 0x40 with
    | 0 => [rw 0 64 0] | 8 => [rw 0 64 0]
    | 0x10 => [rw 0 1 0, rw 2 4 0, rw 6 6 0, rw 12 8 0, rw 20 8 0, rw 28 1 0]
    | 0x20 => [rw 0 64 0] | _ => []
  else if 0x11000 ≤ o ∧ o < 0x13000 then
    match o % 0x40 with | 0 => [rw 0 64 0] | 8 => ringFields | _ => []
  else if 0x14000 ≤ o ∧ o < 0x15000 then
    match o % 0x40 with
    | 0 => [rw 0 1 0, rw 1 4 0, rw 5 1 0, rw 6 1 0, rwc 7 11 2 2 1024, rwc 18 7 1 1 64, rw 32 8 0, rwc 40 16 0x3E8 10 60000]
    | 8 => [rw 0 12 0]
    | 0x10 => [rw 0 10 0, rw 15 1 0, rw 16 10 0, rw 31 1 0, rw 32 10 0, rw 47 1 0, rw 48 10 0, rw 63 1 0]
    | 0x18 => [rw 0 10 0, rw 15 1 0, rw 16 10 0, rw 31 1 0, rw 32 10 0, rw 47 1 0, rw 48 10 0, rw 63 1 0]
    | _ => []
  else []
/-- Stored fields of a Horvi register (R396). -/
def hrvCfg (o : Nat) : List RegField :=
  if o = 0 then [rw 4 10 0, rwc 16 5 8 2 20] else if 0x100 ≤ o ∧ o < 0x200 then [rw 0 41 0] else []
/-- Stored fields of a cartridge register (R437, R438). -/
def cartCfg (o : Nat) : List RegField :=
  match o with | 8 => [rw 0 48 0] | 0x10 => [rw 0 64 0] | 0x18 => [rw 0 64 0] | 0x28 => [rwc 0 16 0xFA0 100 14000] | _ => []
/-- Stored fields of a fault and health register (R423 to R425). -/
def faultCfg (o : Nat) : List RegField :=
  if o < 0x60 ∧ o % 0x20 = 0 then [rw 12 52 0] else if o < 0x60 ∧ o % 0x20 = 8 then [rw 0 1 0] else
  match o with
  | 0x90 => [rw 2 5 0]
  | 0xA0 => [rwc 0 2 1 0 3, rw 16 16 0xFFFF]
  | 0xA8 => [rwc 0 3 3 2 4, rwc 8 8 0x18 1 168, rwc 16 3 2 1 4]
  | 0xB0 => [rwc 0 11 0x3C 5 1440, rwc 16 15 0x7D0 100 30000]
  | 0x400 => [rw 0 8 0, rw 8 16 0, rw 24 8 0]
  | _ => if 0x100 ≤ o ∧ o < 0x180 ∧ o % 8 = 0 then [rwc 0 5 0 4 20] else []

/-- The stored fields at BAR0 offset `off` of a part; none for an offset that holds no stored field or belongs to an absent
unit (R7, R16). -/
def cfgFields (model off : Nat) : List RegField :=
  if off = 0x308 then [rw 6 58 0] else if off = 0x310 then [rw 0 32 0] else
  if off = 0x320 then [rwc 0 14 0x64 1 10000] else
  if off = 0x408 then [rwc 0 16 (tdpOf model) (floorOf model) (tdpOf model)] else
  if 0x1000000 ≤ off ∧ off < 0x1000000 + 0x400000 * diesOf model then
    (if off % 0x400000 / 0x10000 < 40 then cellCfg (off % 0x10000) else []) else
  if 0x3000000 ≤ off ∧ off < 0x3000000 + 0x40000 * stacksOf model then engineCfg (off % 0x40000) else
  if 0x800000 ≤ off ∧ off < 0x900000 then partCfg (off % 0x10000) else
  if 0x400000 ≤ off ∧ off < 0x500000 then (if off % 0x10000 = 8 then [rw 0 64 0] else []) else
  if off = 0x500000 then [rwc 0 32 0x10000 256 (2 ^ 31), rwc 32 16 0x3E8 10 60000] else
  if 0xC00000 ≤ off ∧ off < 0xD00000 then (if off % 0x10000 = 8 then [rw 0 64 0] else []) else
  if 0xE00000 ≤ off ∧ off < 0xF00000 then (if off % 0x10000 < 0x1000 ∧ off % 0x100 = 8 then [rw 0 64 0] else []) else
  if 0x100000 ≤ off ∧ off < 0x101000 then hifCfg (off % 0x1000) else
  if 0x110000 ≤ off ∧ off < 0x120000 then ceCfg (off % 0x1000) else
  if 0x200000 ≤ off ∧ off < 0x200100 then mbxCfg (off % 0x100) else
  if 0x3400000 ≤ off ∧ off < 0x3440000 then
    (if portsOf model = 0 then [] else netCfg (portsOf model) (off - 0x3400000)) else
  if 0x3600000 ≤ off ∧ off < 0x3602000 then (if model = 2 then [] else hrvCfg (off - 0x3600000)) else
  if 0x3800000 ≤ off ∧ off < 0x3802000 then (if model = 2 then [] else cartCfg (off - 0x3800000)) else
  if 0x3C00000 ≤ off ∧ off < 0x3C01000 then faultCfg (off - 0x3C00000) else
  if 0x100000000 ≤ off ∧ off < 0x100000080 ∧ off % 8 = 0 then [rw 12 52 0] else []

/-- A stored field applied: nearest legal value, the lower of two equally near (R12). -/
def RegField.clamp (f : RegField) (v : Nat) : Nat :=
  let x := v % 2 ^ f.width
  if f.min = 4 ∧ f.reset = 0 ∧ x ≤ 2 then 0 else
  if x < f.min then f.min else if f.max < x then f.max else
  let k := (x - f.min) / f.step
  let r := (x - f.min) % f.step
  f.min + f.step * (if f.step < 2 * r then k + 1 else k)

/-- The reset value of a register. -/
def cfgReset (model off : Nat) : Nat := ((cfgFields model off).map fun f => f.reset * 2 ^ f.lo).sum

/-- The value a write applies: each stored field clamped, every other bit zero (R12, R13). -/
def cfgApply (model off v : Nat) : Nat :=
  ((cfgFields model off).map fun f => f.clamp (v / 2 ^ f.lo) * 2 ^ f.lo).sum

/-- RWC fields of a register that a value would have clamped (R12). -/
def clampsIn (model a v : Nat) : Nat :=
  ((cfgFields model a).filter fun f => f.clamp (v / 2 ^ f.lo) != v / 2 ^ f.lo % 2 ^ f.width).length

/-- Count the clamps of a write for the management plane (R12). -/
def State.countClamps (s : State) (a v : Nat) : State :=
  s.modHealth fun h => { h with cntClamps := h.cntClamps + BitVec.ofNat 64 (clampsIn s.model a v) }

/-- The stored fields of the register at a BAR0 offset. -/
def State.reg (s : State) (off : Nat) : Nat :=
  match s.regs.find? (fun e => e.1 == off) with
  | some e => e.2.toNat
  | none => cfgReset s.model off

/-- Count the clamp of a SIZE field of a ring that takes it: an enabled ring keeps its SIZE (R323). -/
def State.sizeClamp (s : State) (a v : Nat) : State := if (s.reg a).testBit 4 then s else s.countClamps a v

/-- Set the stored fields of a register; only values other than the reset value are listed, in rising order. -/
def State.setReg (s : State) (off v : Nat) : State :=
  { s with regs := s.regs.filter (fun e => e.1 < off) ++ (if v = cfgReset s.model off then [] else [(off, BitVec.ofNat 64 v)])
      ++ s.regs.filter (fun e => off < e.1) }

/-- Registers of [lo, hi) back to their reset values. -/
def State.resetRegs (s : State) (lo hi : Nat) : State := { s with regs := s.regs.filter fun e => e.1 < lo || hi ≤ e.1 }

/-- BAR0 bases. -/
def cellBase (pos : Nat) : Nat := 0x1000000 + 0x400000 * (pos / 40) + 0x10000 * (pos % 40)
def engineBase (s : Nat) : Nat := 0x3000000 + 0x40000 * s
def partBase (p : Nat) : Nat := 0x800000 + 0x10000 * p
def svcBase (p : Nat) : Nat := 0xC00000 + 0x10000 * p
def xltBase (p : Nat) : Nat := 0x400000 + 0x10000 * p
/-- Registers of compression context c of partition p (R238). -/
def cmpBase (p c : Nat) : Nat := 0xE00000 + 0x10000 * p + 0x100 * c
def ceBase (e : Nat) : Nat := 0x110000 + 0x1000 * e
def peerBase (k : Nat) : Nat := 0x3401000 + 0x40 * k
def sendBase (i : Nat) : Nat := 0x3411000 + 0x40 * i
def redBase (j : Nat) : Nat := 0x3414000 + 0x40 * j
def faultBase : Nat := 0x3C00000
/-- MBX_D2H_BASE of a virtual function, kept beyond BAR0. -/
def vfMbxBase (n : Nat) : Nat := 0x100000000 + 8 * n

end Sys2Proof.Machine
end

