-- ==== Sys2Proof/Machine/Memory.lean ====
section
/-! DEFINITION. Stacked memory, host memory and address ranges: interleave (R201), write-combining (R205 to R208),
regulators (R209, R210), host reads and writes, and translation (R257 to R263). -/
namespace Sys2Proof.Machine

/-! ## Frames and the interleave -/

/-- Kind, die and owner of frame f (R197); NONE for a frame the map does not list. -/
def State.frame (s : State) (f : Nat) : Nat × Nat × Nat :=
  match s.image.frames.find? (fun e => e.1 == f) with
  | some (_, k, o) => (k % 8, k / 8, o)
  | none => (0, 0, 0)

/-- fold(x, n) of R201. -/
def foldBits (n : Nat) : Nat → Nat → Nat
  | 0, _ => 0
  | k + 1, x => if x = 0 then 0 else x % 2 ^ n ^^^ foldBits n k (x >>> n)

/-- t of R201 for a scope of 2^(n-6) stacks. -/
def interleave (n pa : Nat) : Nat :=
  let g := (pa >>> 8) % 2 ^ 22
  (g % 2 ^ n) ^^^ foldBits n 32 (g >>> n) ^^^ foldBits n 32 (pa >>> 30)

/-- The stack of a device physical address in a DEVICE, NEAR or JOURNAL frame (R201). -/
def State.stackOf (s : State) (pa : Nat) : Nat :=
  let fr := s.frame (pa >>> 30)
  if fr.1 = 2 then 2 * fr.2.1 + interleave 7 pa / 64 else interleave (6 + s.stackCount.log2) pa / 64

/-- Channel and pseudo-channel of an address (R201). -/
def State.channelOf (s : State) (pa : Nat) : Nat :=
  let n := if (s.frame (pa >>> 30)).1 = 2 then 7 else 6 + s.stackCount.log2
  interleave n pa % 64

/-- Byte of an address within the frame's share of its pseudo-channel (R201). -/
def shareByte (n pa : Nat) : Nat := 256 * ((pa >>> 8) % 2 ^ 22 >>> n) + pa % 256

/-- Channel and pseudo-channel of an offset of a table area or replica pool in its stack: n = 6, fold(f, n) taken as 0 (R201). -/
def areaChannel (off : Nat) : Nat :=
  let g := (off >>> 8) % 2 ^ 22
  (g % 2 ^ 6) ^^^ foldBits 6 32 (g >>> 6)

/-- A pseudo-channel of a stack has failed (R214). -/
def Stack.dead (m : Stack) (channel : Nat) : Bool := m.failed || m.lost.contains channel

/-- End of device memory (R197). -/
def State.devEnd (s : State) : Nat := 48 * 2 ^ 30 * s.stackCount

/-! ## Regulators -/

/-- The bucket earns up to its depth since the last time; bursts held for want of tokens are paid first (R209, R210). -/
def Regulator.earn (r : Regulator) (now : Nat) : Regulator :=
  let earned := min (r.burst * 1024) (r.tokens + (now - r.at_) * (8 * r.weight))
  let paid := min r.held (earned / 64)
  { r with tokens := earned - 64 * paid, at_ := now, held := r.held - paid }

/-- Charge n bursts of 64 bytes (R209, R210): without tokens they are held, or borrowed with SHARE. -/
def Regulator.charge (r : Regulator) (now n : Nat) : Regulator :=
  let r := r.earn now
  let paid := if r.held = 0 then min n (r.tokens / 64) else 0
  { r with
    tokens := r.tokens - 64 * paid
    held := if r.share then r.held else r.held + (n - paid)
    bytes := r.bytes + BitVec.ofNat 64 (64 * n)
    waits := if r.share then r.waits else r.waits + BitVec.ofNat 64 (n - paid)
    borrows := if r.share then r.borrows + BitVec.ofNat 64 (n - paid) else r.borrows }

/-- A charge whose counters stand still while FREEZE is set (R216). -/
def Regulator.chargeCounted (r : Regulator) (frozen : Bool) (now n : Nat) : Regulator :=
  let x := r.charge now n
  if frozen then { x with bytes := r.bytes, waits := r.waits, borrows := r.borrows } else x

/-- Charge n bursts of a partition at stack k. -/
def State.charge (s : State) (k : Nat) (p : Option Nat) (n : Nat) : State :=
  match p with
  | none => s
  | some p =>
    let now := s.now (.rowEngine k)
    let frozen := (s.engine k).freeze
    s.modStack k fun m => { m with regs := m.regs.modify p (·.chargeCounted frozen now n) }

/-- Count at a stack unless FREEZE is set (R216). -/
def State.countStack (s : State) (k : Nat) (f : Stack → Stack) : State :=
  s.modEngine k fun e => if e.freeze then e else { e with mem := f e.mem }

/-- Bursts read and written at stack k, counted and charged to a partition (R209, R216). -/
def State.bursts (s : State) (k : Nat) (p : Option Nat) (rd wr : Nat) : State :=
  (s.countStack k fun m => { m with cntRd := m.cntRd + BitVec.ofNat 64 rd, cntWr := m.cntWr + BitVec.ofNat 64 wr }).charge k p (rd + wr)

/-! ## Stack reads and writes -/

/-- Write an entry's bytes over its granule: the mark is kept by a partial entry and set by a marked one (R206, R208). -/
def applyEntry (mem : Store) (e : WcbEntry) : Store :=
  if 64 ≤ e.bytes.length then
    mem.write 64 (64 * e.granule)
      ((List.range 64).map fun o => ((e.bytes.find? (fun c => c.1 == o)).elim 0 Prod.snd, e.marked))
  else e.bytes.foldl (fun m c => m.write 64 (64 * e.granule + c.1) [(c.2, e.marked)]) mem

/-- The owner of the frame of a granule pays for its drain (R209). -/
def State.ownerOf (s : State) (pa : Nat) : Option Nat :=
  let fr := s.frame (pa >>> 30)
  if fr.1 = 0 ∨ fr.1 = 5 then none else some fr.2.2

/-- Drain the entry of a granule at stack k, if there is one, and count it by f (R206); a marked one marks the granule, which
MEM_CNT_ECC_UNCORR counts (R208, R216). -/
def State.drainGranule (s : State) (k g : Nat) (f : Stack → Stack) : State :=
  match (s.engine k).mem.wcb.find? (fun e => e.granule == g) with
  | none => s
  | some e =>
    let s := { s with mem := applyEntry s.mem e }
    let s := s.modStack k fun m => { m with wcb := m.wcb.filter (fun x => x.granule != g) }
    (s.countStack k fun m => f { m with
      cntRd := m.cntRd + 1, cntWr := m.cntWr + 1, cntUncorr := m.cntUncorr + BitVec.ofNat 64 (b2n e.marked) }).charge k (s.ownerOf (64 * g)) 2

/-- Drain every entry of a stack, for a release or a reset (R206). -/
def State.drainStack (s : State) (k : Nat) : State :=
  ((s.engine k).mem.wcb.map (·.granule)).foldl
    (fun s g => s.drainGranule k g fun m => { m with cntRelDrain := m.cntRelDrain + 1 }) s

/-- A release of DEVICE scope by an agent: every stack that it has written since its last one is drained (R206). -/
def State.release (s : State) (a : Agent) : State :=
  match a with
  | .cell g => match s.posOf g with
    | some i => (s.cell i).written.foldl State.drainStack (s.modCell i fun c => { c with written := [] })
    | none => s
  | a => ((s.wrote.filter fun e => e.1 == a).map Prod.snd).foldl State.drainStack { s with wrote := s.wrote.filter fun e => e.1 != a }

/-- Stacks that an agent has written (R206); a cell's are kept with the cell. -/
def State.noteWrite (s : State) (a : Agent) (ks : List Nat) : State :=
  match a with
  | .cell _ => s
  | a => { s with wrote := (s.wrote ++ ks.map fun k => (a, k)).dedup }

/-- Drain every stack. -/
def State.drainAll (s : State) : State := (List.range s.stackCount).foldl State.drainStack s

/-- A read of n bytes of one granule at stack k for partition p (R206): a matching entry drains first; a failed stack or pseudo-channel
returns marked zeros (R214). -/
def State.readGranule (s : State) (p : Option Nat) (pa n : Nat) : Data × State :=
  let k := s.stackOf pa
  if (s.engine k).mem.dead (s.channelOf pa) then (Data.mark true (zeros n), s) else
  let s := s.drainGranule k (pa / 64) fun m => { m with cntRdDrain := m.cntRdDrain + 1 }
  let s := (s.countStack k fun m => { m with cntRd := m.cntRd + 1 }).charge k p 1
  (s.mem.read 64 pa n, s)

/-- A read of device memory (R206, R241). -/
def State.devRead (s : State) (p : Option Nat) (pa n : Nat) : Data × State :=
  (chunks 64 pa n).foldl (fun (d, s) (a, m) => let (x, s) := s.readGranule p a m; (d ++ x, s)) ([], s)

/-- Merge a partial write into the entry of its granule (R205). -/
def mergeEntry (e : WcbEntry) (o : Nat) (d : Data) : WcbEntry :=
  let new := d.mapIdx fun i x => (o + i, x.1)
  { e with bytes := e.bytes.filter (fun c => c.1 < o || o + d.length ≤ c.1) ++ new, marked := e.marked || d.marked }

/-- A write within one granule at stack k (R205): a whole granule supersedes its entry and goes to DRAM; a partial one
merges into its entry, the least recently written entry draining first when all 256 are held; a full entry is written. -/
def State.writeGranule (s : State) (p : Option Nat) (pa : Nat) (d : Data) : State :=
  let k := s.stackOf pa
  let g := pa / 64
  if (s.engine k).mem.dead (s.channelOf pa) then s else
  if d.length = 64 then
    let s := s.modStack k fun m => { m with wcb := m.wcb.filter (fun x => x.granule != g) }
    let s := (s.countStack k fun m => { m with cntWr := m.cntWr + 1 }).charge k p 1
    { s with mem := s.mem.write 64 pa d }
  else
    let held := (s.engine k).mem.wcb
    match held.find? (fun e => e.granule == g) with
    | some e =>
      let e := mergeEntry e (pa % 64) d
      let s := s.countStack k fun m => { m with cntMerge := m.cntMerge + 1 }
      if 64 ≤ e.bytes.length then
        let s := s.modStack k fun m => { m with wcb := m.wcb.filter (fun x => x.granule != g) }
        let s := (s.countStack k fun m => { m with
          cntWr := m.cntWr + 1, cntUncorr := m.cntUncorr + BitVec.ofNat 64 (b2n e.marked) }).charge k p 1
        { s with mem := applyEntry s.mem e }
      else s.modStack k fun m => { m with wcb := m.wcb.filter (fun x => x.granule != g) ++ [e] }
    | none =>
      let s := match held with
        | e :: _ => if 256 ≤ held.length
          then s.drainGranule k e.granule fun m => { m with cntEvict := m.cntEvict + 1 } else s
        | [] => s
      let s := s.countStack k fun m => { m with cntMerge := m.cntMerge + 1 }
      s.modStack k fun m =>
        let wcb := m.wcb ++ [mergeEntry ⟨g, [], false⟩ (pa % 64) d]
        { m with wcb, wcbHigh := max m.wcbHigh wcb.length }

/-- A write of device memory for partition p. -/
def State.devWrite (s : State) (p : Option Nat) (pa : Nat) (d : Data) : State :=
  (chunks 64 pa d.length).foldl (fun s (a, m) => s.writeGranule p a ((d.drop (a - pa)).take m)) s

/-- The stacks that a write of n bytes reaches. -/
def State.stacksOfWrite (s : State) (pa n : Nat) : List Nat := ((chunks 256 pa n).map fun c => s.stackOf c.1).dedup

/-! ## Scratchpads -/

/-- Bytes of a scratchpad (R73). -/
def scratchSize : Nat := 0x400000

/-- A write into the scratchpad of position i (R73, R215). -/
def State.scratchWrite (s : State) (i off : Nat) (d : Data) : State :=
  s.modCell i fun c => { c with scratch := c.scratch.write 64 off d }

/-- A read of the window of logical cell g; zero where g has no position (R419). -/
def State.windowRead (s : State) (g off n : Nat) : Data :=
  match s.posOf g with
  | some i => (s.cell i).scratch.read 64 off n
  | none => Data.clean (zeros n)

/-- A write into the window of logical cell g; discarded where g has no position. -/
def State.windowWrite (s : State) (g off : Nat) (d : Data) : State :=
  match s.posOf g with
  | some i => s.scratchWrite i off d
  | none => s

/-! ## Host memory -/

/-- Lines that the host-line cache holds (R332). -/
def State.fillLines (s : State) (a n : Nat) : State :=
  if s.hif.cxl then
    s.modHif fun h =>
      let new := (chunks 64 a n).map (fun c => c.1 / 64)
      let e := new.map fun l => (⟨l, 0, (s.host.read 64 (64 * l) 64).bytes, b2n (s.host.isMarked l)⟩ : RbEntry)
      { h with lineCache := (e.reverse ++ h.lineCache.filter (fun x => !new.contains x.block)).take 32768 }
  else s

/-- A coherent read of host memory (R332); with the link down, marked zeros at once (R349). -/
def State.hostRead (s : State) (a n : Nat) : Data × State :=
  if s.hif.up then (s.host.read 64 a n, s.fillLines a n) else (Data.mark true (zeros n), s)

/-- A store to host memory that the host or the module makes; it invalidates the lines held (R332). -/
def State.hostStore (s : State) (a : Nat) (d : Data) : State :=
  { s with host := s.host.write 64 a d }.modHif fun h =>
    { h with lineCache := h.lineCache.filter fun e => !((chunks 64 a d.length).any fun c => c.1 / 64 == e.block) }

/-- A posted write on the HOST path; one that cannot be sent while the link is down is discarded (R349). -/
def State.hostWrite (s : State) (a : Nat) (d : Data) : State := if s.hif.up then s.hostStore a d else s

/-- Raise an MSI-X vector: pending until the host takes it (R348). Vectors of the physical function are 0 to 19, those of
virtual function n are 32 (n + 1) + v. -/
def State.raise (s : State) (v : Nat) : State := s.modHif fun h => { h with vectors := h.vectors ++ [v] }

/-! ## Ranges -/

/-- First virtual address of a range and the one past its end (R258). -/
def Range.lo (r : Range) : Nat := 0x10000 * r.vstart
def Range.hi (r : Range) : Nat := 0x10000 * (r.vstart + r.vlen)
/-- Target address of v (R260). -/
def Range.target (r : Range) (v : Nat) : Nat := 0x10000 * r.tstart + (v - r.lo)

/-- The valid range of partition p that holds v (R260). -/
def State.rangeAt (s : State) (p v : Nat) : Option Range :=
  s.ranges.find? fun r => r.part == p && r.lo ≤ v && v < r.hi

/-- A part of an access that one range, or none, translates (R260). -/
structure Piece where
  va : Nat
  len : Nat
  rng : Option Range
  deriving DecidableEq, Repr

/-- Where the next range of p begins above v. -/
def State.nextRange (s : State) (p v n : Nat) : Nat :=
  (s.ranges.filter (fun r => r.part == p && v < r.lo)).foldl (fun m r => min m (r.lo - v)) n

/-- Cut an access at the boundaries of ranges. -/
def State.cut (s : State) (p : Nat) : Nat → Nat → Nat → List Piece
  | 0, _, _ => []
  | f + 1, v, n =>
    if n = 0 then [] else
    let r := s.rangeAt p v
    let m := match r with | some r => min n (r.hi - v) | none => s.nextRange p v n
    ⟨v, m, r⟩ :: s.cut p f (v + m) (n - m)

/-- The pieces of an access of n bytes at v. -/
def State.pieces (s : State) (p v n : Nat) : List Piece := s.cut p (2 * s.ranges.length + 2) v n

/-- The lowest unmapped address of an access (R260). -/
def State.unmapped (s : State) (p v n : Nat) : Option Nat := ((s.pieces p v n).find? (·.rng.isNone)).map (·.va)

/-- The lowest address of an access in a range without WRITE (R260). -/
def State.readOnly (s : State) (p v n : Nat) : Option Nat :=
  ((s.pieces p v n).find? fun c => match c.rng with | some r => !r.write | none => false).map (·.va)

/-- The lowest address that a write is refused at: unmapped or without WRITE. -/
def State.refused (s : State) (p v n : Nat) : Option Nat :=
  ((s.pieces p v n).find? fun c => match c.rng with | some r => !r.write | none => true).map (·.va)

/-- Entries that an engine caches (R261). -/
def cacheSize : Agent → Nat
  | .cell _ => 256
  | .frontEnd _ => 1024
  | .copyEngine _ => 64
  | .network => 512
  | _ => 256

/-- The ranges an engine caches, most recently used first. -/
def State.cached (s : State) (a : Agent) : List (Nat × Nat) := ((s.caches.find? (fun e => e.1 == a)).map Prod.snd).getD []

def State.setCached (s : State) (a : Agent) (l : List (Nat × Nat)) : State :=
  { s with caches := s.caches.filter (fun e => e.1 != a) ++ (if l = [] then [] else [(a, l)]) }

/-- An engine uses a range: a miss fetches the entry from the control island and replaces the least recently used (R261). -/
def State.useRange (s : State) (a : Agent) (p i : Nat) : State :=
  let l := s.cached a
  let s := if l.contains (p, i) then s else s.modXlt p fun x => { x with cntMiss := x.cntMiss + 1 }
  s.setCached a (((p, i) :: l.filter (· != (p, i))).take (cacheSize a))

/-- Count one 64-byte read of a host line made through a range with COUNT (R263). -/
def State.countHost (s : State) (p line : Nat) : State :=
  let key := (p, line / 32768)
  let h := s.hot
  match h.entries.find? (fun e => e.1 == key) with
  | none =>
    if h.entries.length < 8192 then { s with hot := { h with entries := h.entries ++ [(key, 1)] } }
    else { s with hot := { h with untracked := h.untracked + 1 } }
  | some (_, c) =>
    let hit := bits (s.reg 0x500000) 31 0 ≤ c + 1
    let entries := modWhere h.entries (fun e => e.1 == key) fun e => (e.1, if hit then 0 else c + 1)
    if hit then
      if h.queue.length < 256 then { s with hot := { h with entries, queue := h.queue ++ [key] } }
      else { s with hot := { h with entries, lost := h.lost + 1 } }
    else { s with hot := { h with entries } }

/-- A line is read with a CXL.cache read: the link is up with CXL and the host-line cache does not hold it (R332). -/
def State.cxlReads (s : State) (line : Nat) : Bool := s.hif.up && s.hif.cxl && !(s.hif.lineCache.any fun e => e.block == line)

/-- A coherent read of host memory through a HOST range (R263, R332). -/
def State.rangeHostRead (s : State) (r : Range) (a n : Nat) : Data × State :=
  let lines := (chunks 64 a n).map (fun c => c.1 / 64)
  let s := if r.count then (lines.filter s.cxlReads).foldl (fun s l => s.countHost r.part l) s else s
  s.hostRead a n

/-- A read of n bytes whose target address lies in the range (R257, R260). No kind of range targets the register alias at
0x2000_0000_0000, so that a cell reaches the register blocks by no address (R257 against R16 and R327: DESIGN CHOICE, log entry
50). -/
def State.targetRead (s : State) (r : Range) (t n : Nat) : Data × State :=
  match r.kind with
  | 1 => s.devRead (some r.part) t n
  | 2 => ((chunks scratchSize (t - 0x100000000000) n).flatMap fun c =>
      s.windowRead (c.1 / scratchSize) (c.1 % scratchSize) c.2, s)
  | _ => s.rangeHostRead r t n

/-- A write through the range; a HOST range is never written (R257). -/
def State.targetWrite (s : State) (r : Range) (t : Nat) (d : Data) : State :=
  match r.kind with
  | 1 => s.devWrite (some r.part) t d
  | 2 => (chunks scratchSize (t - 0x100000000000) d.length).foldl (fun s c =>
      s.windowWrite (c.1 / scratchSize) (c.1 % scratchSize) ((d.drop (c.1 - (t - 0x100000000000))).take c.2)) s
  | _ => s

/-- The ranges that an access of n bytes at v reaches (R262). -/
def State.rangesOf (s : State) (p v n : Nat) : List Range := ((s.pieces p v n).filterMap (·.rng)).dedup

/-- Run an operation with the ranges that an earlier check translated (R262). -/
def State.withRanges (s : State) (l : List Range) (f : State → State) : State := { f { s with ranges := l } with ranges := s.ranges }

/-- A read of n bytes at device virtual address v of partition p by an agent; unmapped bytes read zero. -/
def State.vread (s : State) (a : Agent) (p v n : Nat) : Data × State :=
  (s.pieces p v n).foldl (fun (d, s) c =>
    match c.rng with
    | some r =>
      let (x, s) := (s.useRange a p r.idx).targetRead r (r.target c.va) c.len
      (d ++ x, s)
    | none => (d ++ Data.clean (zeros c.len), s)) ([], s)

/-- A write at device virtual address v of partition p by an agent; bytes without a writable range are discarded. -/
def State.vwrite (s : State) (a : Agent) (p v : Nat) (d : Data) : State :=
  (s.pieces p v d.length).foldl (fun s c =>
    match c.rng with
    | some r => if r.write
      then ((s.useRange a p r.idx).noteWrite a (if r.kind = 1 then s.stacksOfWrite (r.target c.va) c.len else [])).targetWrite r
        (r.target c.va) ((d.drop (c.va - v)).take c.len) else s
    | none => s) s

/-- The stacks that a write at v reaches. -/
def State.vstacks (s : State) (p v n : Nat) : List Nat :=
  ((s.pieces p v n).flatMap fun c => match c.rng with
    | some r => if r.kind = 1 then s.stacksOfWrite (r.target c.va) c.len else []
    | none => []).dedup

/-- An access ended by R260. -/
def State.countXltFault (s : State) (p : Nat) : State := s.modXlt p fun x => { x with cntFault := x.cntFault + 1 }

/-- The 57 address bits of an address word (R112, R257). -/
def addr57 (w : Nat) : Nat := w % 2 ^ 57

/-- A read at an address word: an offset of the cell's scratchpad with LOCAL, else a device virtual address (R73, R112). -/
def State.wordRead (s : State) (a : Agent) (i p w n : Nat) : Data × State :=
  if w.testBit 63 then ((s.cell i).scratch.read 64 (addr57 w) n, s) else s.vread a p (addr57 w) n

/-- The lowest address of the access that cannot be read (R73, R260). -/
def State.wordUnmapped (s : State) (p w n : Nat) : Option Nat :=
  if w.testBit 63 then (if addr57 w + n ≤ scratchSize then none else some (max (addr57 w) scratchSize))
  else s.unmapped p (addr57 w) n

/-- A write at an address word. -/
def State.wordWrite (s : State) (a : Agent) (i p w : Nat) (d : Data) : State :=
  if w.testBit 63 then s.scratchWrite i (addr57 w) d else s.vwrite a p (addr57 w) d

/-- The lowest address at which a write is refused. -/
def State.wordRefused (s : State) (p w n : Nat) : Option Nat :=
  if w.testBit 63 then s.wordUnmapped p w n else s.refused p (addr57 w) n

end Sys2Proof.Machine
end

