-- ==== Sys2Proof/Machine/Epochs.lean ====
section
/-! DEFINITION. Epochs and what holds them (R143 to R149): states, bindings, freeing; the replica pools (R156, R157, R200); the end
of the parts of an engine (R119, R136); the header words of a request (R112). -/
namespace Sys2Proof.Machine

/-! ## The request header (R112) -/

namespace Request
def w (r : Request) (k : Nat) : Nat := r.words.getD k 0
def mode (r : Request) : Nat := bits (r.w 0) 11 8
def fmt (r : Request) : Nat := bits (r.w 0) 15 12
def table (r : Request) : Nat := bits (r.w 0) 27 16
def repro (r : Request) : Bool := bit (r.w 0) 28
def destTile (r : Request) : Bool := r.op == 1 && bit (r.w 0) 29
def td (r : Request) : Nat := bits (r.w 0) 34 30
def nbags (r : Request) : Nat := bits (r.w 0) 63 40
def nidx (r : Request) : Nat := bits (r.w 1) 24 0
def batch (r : Request) : Nat := bits (r.w 1) 63 32
def idxAddr (r : Request) : Nat := r.w 2
def dataAddr (r : Request) : Nat := r.w 3
def dest (r : Request) : Nat := r.w 4
def stride (r : Request) : Nat := bits (r.w 5) 31 0
def src (r : Request) : Nat := bits (r.w 5) 39 32
def mapAddr (r : Request) : Nat := r.w 6
def seq (r : Request) : Nat := r.w 6
def stat (r : Request) : Nat := r.w 7
/-- Every batch's own epoch but this one: the current epoch at arrival. -/
def anyEpoch (r : Request) : Bool := r.batch == 0xFFFFFFFF
/-- SUM or MEAN. -/
def pooled (r : Request) : Bool := r.op == 1 && r.mode ≤ 1
/-- A message of a peer or of the partner carries its lists. -/
def carried (r : Request) : Bool := r.reply.isSome || r.mirror.isSome
end Request

/-- Read n values of `size` bytes. -/
def leList (size n : Nat) (b : Bytes) : List Nat := (List.range n).map fun i => leNat ((b.drop (size * i)).take size)

/-- A read at the target address of a SCRATCH range by a request: the window of the requesting cell reads as the step saw it (R59),
every other one as it stands. -/
def State.reqWindows (s : State) (r : Request) (t n : Nat) : Data :=
  (chunks scratchSize (t - 0x100000000000) n).flatMap fun c =>
    if c.1 / scratchSize = r.g ∧ !r.carried then r.snap.read 64 (c.1 % scratchSize) c.2
    else s.windowRead (c.1 / scratchSize) (c.1 % scratchSize) c.2

/-- Read at an address word of a request: LOCAL means the scratchpad as the step saw it (R59, R112). -/
def State.reqRead (s : State) (d : Nat) (r : Request) (w n : Nat) : Data × State :=
  if w.testBit 63 then (r.snap.read 64 (addr57 w) n, s) else
  (s.pieces r.part (addr57 w) n).foldl (fun (acc, s) c =>
    match c.rng with
    | some x =>
      if x.kind = 2 then (acc ++ s.reqWindows r (x.target c.va) c.len, s.useRange (.frontEnd d) r.part x.idx) else
      let (y, s) := (s.useRange (.frontEnd d) r.part x.idx).targetRead x (x.target c.va) c.len
      (acc ++ y, s)
    | none => (acc ++ Data.clean (zeros c.len), s)) ([], s)

/-! ## Epochs -/

def State.epoch (s : State) (t n : Nat) : Option Epoch := s.epochs.find? fun e => e.table == t && e.no == n
/-- The CURRENT epoch of a table (R143). -/
def State.current (s : State) (t : Nat) : Option Epoch := s.epochs.find? fun e => e.table == t && e.st == 2
/-- The STAGING epoch of a table. -/
def State.staging (s : State) (t : Nat) : Option Epoch := s.epochs.find? fun e => e.table == t && e.st == 1
/-- The RETIRING epochs of a table, oldest first. -/
def State.retiring (s : State) (t : Nat) : List Epoch := s.epochs.filter fun e => e.table == t && e.st == 3
def State.modEpoch (s : State) (t n : Nat) (f : Epoch → Epoch) : State :=
  { s with epochs := modWhere s.epochs (fun e => e.table == t && e.no == n) f }

/-- An open request reads or updates the epoch. -/
def State.inUse (s : State) (t n : Nat) : Bool := s.openReqs.any fun o => o.r.table == t && o.epoch == n

/-- Some binding holds the epoch, or an open request that bound it with BATCH 0xFFFF_FFFF, which reads it to its end (R116). -/
def State.isHeld (s : State) (t n : Nat) : Bool :=
  s.bindings.any (fun b => b.table == t && b.epoch == n)
    || s.openReqs.any fun o => o.r.anyEpoch && o.r.table == t && o.epoch == n

/-! ## Replica pools (R156, R157, R200) -/

/-- A part routed to stack k that has not ended reads the replica: its row is among what it has taken or is still to take. -/
def State.replicaBusy (s : State) (k table epoch row : Nat) : Bool :=
  ((s.engine k).input ++ (s.engine k).parts).any fun p => !p.done && p.op == 1 && p.table == table && p.epoch == epoch
    && (p.items.any (fun i => i.row == row) || p.got.any fun g => g.2.1 == row)

/-- Storage of replicas that no directory names and no open part reads goes back (R108, R157). -/
def State.sweepHeld (s : State) (k : Nat) : State :=
  let named (r : ReplicaRow) : Bool := s.engines.any fun e => e.replicas.any fun x =>
    x.table == r.table && x.epoch == r.epoch && x.row == r.row && x.copies.contains k
  s.modEngine k fun e => { e with held := e.held.filter fun r => named r || s.replicaBusy k r.table r.epoch r.row }

/-- Withdraw the replica sets that a test picks, of every home; their storage goes back as soon as no open part reads it. -/
def State.withdrawIf (s : State) (p : Nat → Replica → Bool) : State :=
  let gone : List (Nat × Replica) := (s.engines.mapIdx fun h e => (e.replicas.filter (p h)).map fun r => (h, r)).flatten
  let lost (h : Nat) (t n row : Nat) : Bool := gone.any fun x => x.1 == h && x.2.table == t && x.2.epoch == n && x.2.row == row
  let s := { s with
    engines := s.engines.mapIdx fun h e => { e with replicas := e.replicas.filter fun r => !p h r }
    replWrites := s.replWrites.filter fun w => !lost w.home w.table w.epoch w.row }
  (gone.flatMap fun x => x.2.copies).dedup.foldl State.sweepHeld s

/-- Withdraw the single replicas whose places in the pools a test picks by stack, at once (R290). -/
def State.dropCopies (s : State) (p : Nat → ReplicaRow → Bool) : State :=
  let gone (k t n row : Nat) : Bool := (s.engine k).held.any fun r => r.table == t && r.epoch == n && r.row == row && p k r
  { s with
    engines := s.engines.mapIdx fun k e => { e with
      held := e.held.filter fun r => !p k r
      replicas := (e.replicas.map fun r => { r with
        copies := r.copies.filter fun k => !gone k r.table r.epoch r.row
        acks := r.acks.filter fun k => !gone k r.table r.epoch r.row }).filter fun r => r.copies != [] }
    replWrites := s.replWrites.filter fun w => !gone w.dest w.table w.epoch w.row }

/-! ## Freeing (R143, R149) -/

/-- An epoch becomes FREE (R149): its replicas are withdrawn and the sweep of the row caches starts; its extents and
landing pages come back at ROW_CACHE_SWEEP_DONE. -/
def State.freeEpoch (s : State) (t n : Nat) : State :=
  (s.modEpoch t n fun e => { e with st := 0, sweep := true }).withdrawIf fun _ r => r.table == t && r.epoch == n

/-- Free every RETIRING epoch that nothing holds (R143). -/
def State.freeUnheld (s : State) : State :=
  (s.epochs.filter fun e => e.st == 3 && !s.isHeld e.table e.no).foldl (fun s e => s.freeEpoch e.table e.no) s

/-- Release the bindings that a test picks. -/
def State.releaseIf (s : State) (p : Binding → Bool) : State :=
  { s with bindings := s.bindings.filter fun b => !p b }.freeUnheld

/-! ## Ending parts -/

/-- End the parts of an engine that a test picks, with a status: their fetches and waiters go. -/
def State.endParts (s : State) (k status : Nat) (sel : Part → Bool) : State :=
  let ids := ((s.engine k).parts.filter fun p => !p.done && sel p).map (·.id)
  (s.modEngine k fun e => { e with
    parts := e.parts.map fun p => if ids.contains p.id then { p with done := true, status } else p
    fetches := e.fetches.filter fun f => !ids.contains f.part
    misses := e.misses.map fun m => { m with waiters := m.waiters.filter fun f => !ids.contains f.part } }).sweepHeld k

/-- An engine that is not ACTIVE ends every part routed to it with STACK_LOST (R119, R136). -/
def State.engineLost (s : State) (k : Nat) : State :=
  let s := s.modEngine k fun e => { e with parts := e.parts ++ e.input, input := [] }
  s.endParts k 8 fun _ => true

end Sys2Proof.Machine
end

