-- ==== Sys2Proof/Machine/Jobs.lean ====
section
/-! DEFINITION. Batches and jobs: the bookkeeping of running jobs (R305 to R309), how a job ends (R65, R72, R178, R251,
R256) and how the whole work of a partition is ended. Frames sent on the Horvi link (R378, R379). -/
namespace Sys2Proof.Machine

/-! ## Frames of the Horvi link -/

/-- The POISON word: bit i set when granule i of 64 bytes of the payload is marked (R378). -/
def poisonMask (d : Data) : Nat :=
  ((chunks 64 0 d.length).map fun c => if Data.marked ((d.drop c.1).take c.2) then 2 ^ (c.1 / 64) else 0).sum

/-- Data of a frame: its payload with the marks of its POISON word. -/
def Frame.data (f : Frame) (mask : Nat) : Data := f.payload.mapIdx fun i b => (b, mask.testBit (i / 64))

/-- Frames that the window of 4,096 unacknowledged frames lets out (R379): those that leave, and the stream after. -/
def HrvStream.pump (x : HrvStream) : List Frame × HrvStream :=
  let n := 4096 - x.unacked.length
  (x.waiting.take n, { x with unacked := x.unacked ++ x.waiting.take n, waiting := x.waiting.drop n })

/-- Let the waiting frames of a stream out while a lane is up. -/
def State.hrvPump (s : State) (stream : Nat) : State :=
  let x := s.hrv.streams.getD stream .fresh
  if !s.hrv.lanes.any id then s else
  let now := s.now .horvi
  let (fs, y) := x.pump
  let y := if x.unacked = [] then { y with oldest := now } else y
  s.modHrv fun h => { h with streams := h.streams.set stream y, out := h.out ++ fs }

/-- Send a frame of a type on a stream (0 ORDERED, 1 UPDATE, 2 LINK) with ARG and payload (R378); an ORDERED or UPDATE
frame is kept until acknowledged (R379), a LINK frame is not. -/
def State.hrvSend (s : State) (type stream arg : Nat) (d : Data) : State :=
  let h := s.hrv
  let x := h.streams.getD stream .fresh
  let pn := h.lastPn.getD 0 0 + 1
  let f : Frame :=
    { w0 := BitVec.ofNat 64 (1 + 16 * type + 1024 * stream + 65536 * x.tx.toNat + 2 ^ 40 * x.rx.toNat)
      w1 := BitVec.ofNat 64 (d.length + 65536 * pn)
      w2 := BitVec.ofNat 64 (poisonMask d), w3 := BitVec.ofNat 64 arg, payload := d.bytes }
  let s := s.modHrv fun h => { h with lastPn := h.lastPn.set 0 pn }
  if stream < 2 then
    (s.modHrv fun h => { h with streams := h.streams.set stream { x with tx := x.tx + 1, waiting := x.waiting ++ [f] } }).hrvPump
      stream
  else
    s.modHrv fun h =>
      { h with streams := h.streams.set stream { x with tx := x.tx + 1 }
               out := if h.lanes.any id then h.out ++ [f] else h.out }

/-- The partition is mirrored (R280, R384). -/
def State.mirrored (s : State) (p : Nat) : Bool := s.hrv.policy && s.hrv.mask.testBit p

/-- Bytes of the update log: the journal area beyond its first 32 MiB (R387). -/
def State.logSize (s : State) : Nat :=
  2 ^ 30 * (s.image.frames.filter fun e => e.2.1 % 8 == 5).length - 2 ^ 25

/-- Keep the newest entries of the update log that fit its ring, each rounded up to 64 bytes (R389): entries and how many
were overwritten. -/
def trimLog (size : Nat) (l : List (Nat × Bytes)) : List (Nat × Bytes) :=
  (l.foldr (fun e (acc : List (Nat × Bytes) × Nat) =>
    let n := acc.2 + (e.2.length + 63) / 64 * 64
    if n ≤ size then (e :: acc.1, n) else (acc.1, size + 1)) ([], 0)).1

/-- Enter an applied update in the update log (R389). -/
def State.logUpdate (s : State) (d : Bytes) : State :=
  let size := s.logSize
  s.modHrv fun h => { h with
    log := trimLog size (h.log ++ [(h.logPos, d)]), logPos := h.logPos + (d.length + 63) / 64 * 64 }

/-- Rows applied while SOLO are counted: a resynchronisation would overwrite them (R382). -/
def State.countSolo (s : State) (n : Nat) : State :=
  if s.hrv.st = 5 then s.modHrv fun h => { h with overwritten := h.overwritten + n } else s

/-- Send a message of the UPDATE stream in frames of 4,096 bytes, ARG holding the offset of each: the PSN of the last. -/
def State.hrvUpdate (s : State) (d : Bytes) : Option (BitVec 24) × State :=
  (chunks 4096 0 d.length).foldl (fun (_, s) c =>
    (some (s.hrv.streams.getD 1 .fresh).tx, s.hrvSend 5 1 c.1 (Data.clean ((d.drop c.1).take c.2)))) (none, s)

/-- An applied part of a mirrored table (R384, R389): while PAIRED it is sent as an UPDATE, whose last PSN is answered; in
PAIRED and SOLO, and at the source of a resynchronisation (R383), it is logged. -/
def State.mirrorUpdate (s : State) (p : Nat) (d : Bytes) : Option (BitVec 24) × State :=
  if !s.mirrored p ∨ (s.hrv.st ≠ 4 ∧ s.hrv.st ≠ 5 ∧ !(s.hrv.st == 3 && s.hrv.source)) then (none, s) else
  let s := s.logUpdate d
  if s.hrv.st = 4 then s.hrvUpdate d else (none, s)

/-! ## Batches -/

def State.batch (s : State) (h : Nat) : Option Batch := s.batches.find? (fun b => b.handle == h)
def State.modBatch (s : State) (h : Nat) (f : Batch → Batch) : State :=
  { s with batches := modWhere s.batches (fun b => b.handle == h) f }

/-- Batches of a partition in flight. -/
def State.inFlight (s : State) (p : Nat) : Nat := (s.batches.filter (fun b => b.part == p)).length

/-- The lowest nonzero of two statuses (R309). -/
def lowStatus (a b : Nat) : Nat := if a = 0 then b else if b = 0 then a else min a b

/-- A job of the batch on logical cell g has ended with a status and the CAUSE of its fault (R308, R309). -/
def Batch.jobEnded (b : Batch) (g status cause : Nat) : Batch :=
  { b with
    running := b.running.erase g
    status := lowStatus b.status status
    firstCell := if status ≠ 0 ∧ b.firstCell = 0x1FF then g else b.firstCell
    cause := if status ≠ 0 ∧ b.firstCell = 0x1FF then cause else b.cause }

/-! ## Blocks of a stream and the counts of compression contexts -/

def Block.token (b : Block) : Bool := bit b.flags 0
def Block.final (b : Block) : Bool := bit b.flags 1
def Block.last (b : Block) : Bool := bit b.flags 2
def Block.link (b : Block) : Bool := bit b.flags 3
def Block.wrap (b : Block) : Bool := bit b.flags 4
def Block.mcast (b : Block) : Bool := bit b.flags 5
def Block.decomp (b : Block) : Bool := bit b.flags 6
def Block.comp (b : Block) : Bool := bit b.flags 7
def Block.ctx (b : Block) : Nat := bits b.flags 11 8
/-- Offset added to each receiver's base. -/
def Block.mcastOff (b : Block) : Nat := bits b.dst 21 0
/-- Bytes of the compressed side (R225). -/
def storedLen (len : Nat) : Nat := len + len / 256
def Block.srcLen (b : Block) : Nat := if b.decomp then storedLen b.len else b.len
def Block.dstLen (b : Block) : Nat := if b.comp then storedLen b.len else b.len

def State.cmpCtx (s : State) (p c : Nat) : Option CmpCtx := s.cmp.find? fun x => x.part == p && x.ctx == c
def State.modCmp (s : State) (p c : Nat) (f : CmpCtx → CmpCtx) : State :=
  { s with cmp := modWhere s.cmp (fun x => x.part == p && x.ctx == c) f }

/-- A count change on its way to the control island (R232): generation, QUEUED and STORED. -/
def State.countChange (s : State) (p c g : Nat) (dq ds : Int) : State :=
  if 8 ≤ g then s else s.modCmp p c fun x => { x with changes := x.changes ++ [(g, dq, ds)] }

/-- Blocks that leave without landing give back what they count in QUEUED (R232). -/
def State.unqueue (s : State) (p : Nat) (bs : List Block) : State :=
  bs.foldl (fun s b => b.queued.foldl (fun s g => s.countChange p b.ctx g (-1) 0) s) s

/-! ## The end of a job -/

/-- A context at the end of its job: scalars, position and owed discards cleared; queues and credits kept (R60, R256,
R305). -/
def Ctx.endJob (x : Ctx) : Ctx :=
  { x with
    queues := x.queues.map fun q => { q with owed := 0 }
    scalars := List.replicate 64 0, step := 0, loops := [], overLoops := 0, viewStamp := 0, owedAny := [] }

/-- A FINAL block of the slot is held back: an earlier block has not landed, or is owed to a receiver (R171). -/
def Slot.holds (x : Slot) (b : Block) : Bool :=
  b.final && !b.landed && (!x.owed.isEmpty || (x.blocks.takeWhile fun y => y.no != b.no).any fun y => !y.landed)
/-- Blocks of a slot that the end of a job discards: those that have not started, and FINAL ones held back (R178, R251). -/
def Slot.discarded (x : Slot) (b : Block) : Bool := !b.paid || x.holds b

/-- A running slot stops as by SSTOP and posts no completion (R178): what is in flight lands, also at slow receivers. -/
def Slot.stopAtEnd (x : Slot) : Slot :=
  if x.st = 0 then { x with toks := [] } else
    let bs := x.blocks.filter fun b => !x.discarded b
    let gone := bs.isEmpty && x.owed.isEmpty
    { x with st := if gone then 0 else 3, blocks := bs, stopQs := [], ending := none, chain := none, toks := []
             nothing := false, catchup := if gone then none else x.catchup }

/-- The cell without its running job: asynchronous steps forgotten, its outstanding final writes with them (R251), streams
stopped (R178), compute state cleared (R76). -/
def Cell.endJob (c : Cell) (k : Cls) : Cell :=
  { (c.setCtx k (c.ctx k).endJob) with
    job := none, held := none
    st := if 4 ≤ c.st then c.st else if c.pend.drain ∧ c.susp.isNone then 4 else 0, open_ := c.open_.filter (fun o => o.cls != k)
    markers := 0, rstored := [], comp := .fresh
    port := { c.port with slots := c.port.slots.map fun x => x.stopAtEnd }
    pend := { c.pend with sliceOver := false, shadow := false, shadowCrc := [], preempt := false
                          drain := c.pend.drain && c.susp.isSome } }

/-- A cell that a move or a test leaves without a job: it takes a drain that waits (R33). -/
def Cell.freed (c : Cell) : Cell :=
  if c.pend.drain ∧ c.job.isNone ∧ c.susp.isNone then { c with st := 4, pend := { c.pend with drain := false } } else { c with st := 0 }

/-- End the running job of position i with a batch status and CAUSE (R65, R72, R308). -/
def State.endJob (s : State) (i status cause : Nat) : State :=
  match (s.cell i).job with
  | none => s
  | some j =>
    let c := s.cell i
    let g := c.logical.getD 0x1FF
    let s := c.port.slots.foldl (fun s x => s.unqueue (c.part.getD 0) (x.blocks.filter x.discarded)) s
    (s.modCell i fun c => c.endJob j.cls).modBatch j.handle (·.jobEnded g status cause)

/-- End the suspended job of position i (R317): its stream slots were idle when it was suspended (R311). -/
def State.endSusp (s : State) (i status : Nat) : State :=
  match (s.cell i).susp with
  | none => s
  | some j =>
    let g := (s.cell i).logical.getD 0x1FF
    (s.modCell i fun c =>
      { (c.setCtx j.cls (c.ctx j.cls).endJob) with
        susp := none, open_ := c.open_.filter (fun o => o.cls != j.cls) }).modBatch j.handle (·.jobEnded g status 0)

/-- Remove the queued jobs of position i that a test picks, each ended with a status. -/
def State.dropQueued (s : State) (i status : Nat) (p : Job → Bool) : State :=
  let c := s.cell i
  let g := c.logical.getD 0x1FF
  (c.startQ.filter p).foldl (fun s j => s.modBatch j.handle (·.jobEnded g status 0))
    (s.modCell i fun c => { c with startQ := c.startQ.filter fun j => !p j })

/-- Apply an operation to every position. -/
def State.eachCell (s : State) (f : State → Nat → State) : State := (List.range s.cells.length).foldl f s

/-- End every job, running, suspended or queued, of the batches a test picks, with a status. -/
def State.endJobs (s : State) (status : Nat) (p : Job → Bool) : State :=
  s.eachCell fun s i =>
    let c := s.cell i
    let s := if c.job.any p then s.endJob i status 0 else s
    let s := if c.susp.any p then s.endSusp i status else s
    s.dropQueued i status p

/-- End the jobs of the batches of a partition and forget the batches, without completion records (R391, R407, R421). -/
def State.dropBatches (s : State) (p : Batch → Bool) : State :=
  let hs := (s.batches.filter p).map (·.handle)
  let slots := (s.batches.filter p).filterMap (·.journalSlot)
  let s := s.endJobs 4 fun j => hs.contains j.handle
  let s := s.modHrv fun h => { h with own := h.own.filter fun e => !slots.contains e.1 }
  ({ s with
    parts := s.parts.map fun u => { u with held := u.held.filter fun e => !hs.contains e.1 }
    batches := s.batches.filter fun b => !p b } : State).releaseIf fun b => b.kind == 0 && hs.contains b.handle

/-- The cell of a job that faulted waits in FAULTED for the control plane (R72). -/
def State.jobOf (s : State) (i : Nat) : Option Batch := (s.cell i).job.bind fun j => s.batch j.handle

end Sys2Proof.Machine
end

