-- ==== Sys2Proof/Machine/Concentrator.lean ====
section
/-! DEFINITION. The fault concentrator: rings and records (R397 to R406), incidents (R403), the health rule (R416 to R420),
the suspect module (R421) and fatal events (R407); moves of a logical cell (R319). -/
namespace Sys2Proof.Machine

/-! ## Classes (R402) -/

/-- The ring of a class. -/
def ringOf (c : Nat) : Nat :=
  if (0x12 ≤ c ∧ c ≤ 0x16) ∨ c = 0x21 then 1 else if (0x18 ≤ c ∧ c ≤ 0x1E) ∨ c = 0x20 then 2 else 0

/-- The severity of a class that has one; the lower of two where R402 gives two. -/
def severityOf (c : Nat) : Nat :=
  if c = 0x15 ∨ c = 0x1B ∨ c = 0x1F then 0
  else if c = 0x05 ∨ c = 0x08 ∨ c = 0x0D ∨ c = 0x0E then 1
  else if c = 0x0F ∨ (0x11 ≤ c ∧ c ≤ 0x14) ∨ (0x16 ≤ c ∧ c ≤ 0x1A) ∨ c = 0x1C ∨ c = 0x1D then 3
  else if c = 0x0A ∨ c = 0x1E then 4
  else if c = 0x20 ∨ c = 0x21 then 5 else 2

/-- Classes marked R: replayable (R402, R408). -/
def isReplayable (c : Nat) : Bool := c == 2 || c == 3 || c == 4 || c == 7
/-- Classes marked H: they count toward the health rule (R402, R418). -/
def isHealth (c : Nat) : Bool := (2 ≤ c && c ≤ 9) || (0x0C ≤ c && c ≤ 0x11) || c == 0x16 || c == 0x17
/-- Classes whose recovery names a jig (R404). -/
def isJigClass (c : Nat) : Bool := c == 2 || c == 3 || c == 4 || c == 7 || c == 0x10

/-! ## Rings -/

def State.ring (s : State) (r : Nat) : FaultRing := s.health.rings.getD r .fresh
def State.modRing (s : State) (r : Nat) (f : FaultRing → FaultRing) : State :=
  s.modHealth fun h => { h with rings := h.rings.modify r f }

/-- FAULT_RING_CTL[ENABLE]. -/
def State.ringOn (s : State) (r : Nat) : Bool := (s.reg (faultBase + 8 + 0x20 * r)).testBit 0
/-- Records in the ring (R398). -/
def FaultRing.level (f : FaultRing) : Nat := (f.tail - f.head).toNat
/-- PHASE of the entry at TAIL: 1 on the first pass, then alternating (R398). -/
def FaultRing.phase (f : FaultRing) : Nat := if f.tail.toNat / 4096 % 2 = 0 then 1 else 0

/-- Write 64 bytes at TAIL, the PHASE bit in word 7, and raise vector 18 (R397, R398). -/
def State.ringWrite (s : State) (r : Nat) (rec : Bytes) : State :=
  let f := s.ring r
  let base := 4096 * (s.reg (faultBase + 0x20 * r) / 4096)
  let rec' := rec.take 63 ++ [BitVec.ofNat 8 (byteAt rec 63 % 128 + 128 * f.phase)]
  let s := s.hostWrite (base + 64 * (f.tail.toNat % 4096)) (Data.clean rec')
  let s := s.modRing r fun f => { f with tail := f.tail + 1 }
  (s.modHealth fun h => { h with cntRecords := h.cntRecords + 1 }).raise 18

/-- A record is lost (R405). -/
def State.ringLose (s : State) (r kind : Nat) : State :=
  let now := s.now .steward
  s.modRing r fun f =>
    { f with ovf := f.ovf.modify (kind % 16) (fun n => min 0xFFFFFFFF (n + 1)), lost := min 0xFFFFFFFF (f.lost + 1)
             firstLost := if f.lost = 0 then now else f.firstLost }

/-- The RING_OVERFLOW summary, once a ring that lost records has a free entry (R406). -/
def State.ringSummary (s : State) (r : Nat) : State :=
  let f := s.ring r
  if f.lost = 0 ∨ !s.ringOn r ∨ 4096 ≤ f.level ∨ !s.hif.up then s else
  let cnt (k : Nat) : Nat := min 0xFFFF (f.ovf.getD k 0)
  let word (i : Nat) : Nat := cnt (4 * i) + 2 ^ 16 * cnt (4 * i + 1) + 2 ^ 32 * cnt (4 * i + 2) + 2 ^ 48 * cnt (4 * i + 3)
  let s := s.ringWrite r (ofWords
    [0x1F + 4096 * r + 2 ^ 32 * f.seq, 2 ^ 48, f.firstLost, word 0, word 1, word 2, word 3, f.lost])
  let s := s.modRing r fun f =>
    { f with seq := f.seq + 1, ovf := List.replicate 16 0, lost := 0, firstLost := 0 }
  s.modHealth fun h => { h with alert := h.alert ||| 0x10 }

/-- Put a record, given its SEQ, into ring r (R405, R406): its SEQ, or 0 where it is lost. While the link is down it is held,
whether or not the ring is enabled (R405, R459). -/
def State.putRecord (s : State) (r kind : Nat) (mk : Nat → Bytes) : Nat × State :=
  let s := s.ringSummary r
  let f := s.ring r
  if s.hif.up then
    if !s.ringOn r ∨ 4096 ≤ f.level then (0, s.ringLose r kind) else
    (f.seq, (s.ringWrite r (mk f.seq)).modRing r fun f => { f with seq := f.seq + 1 })
  else if 256 ≤ f.held.length then (0, s.ringLose r kind) else
  (f.seq, s.modRing r fun f => { f with seq := f.seq + 1, held := f.held ++ [mk f.seq] })

/-- Write the records held while the link was down, as far as the ring is enabled and has room (R405, R424); then the summary
of those lost (R406). -/
def State.flushRing (s : State) (r : Nat) : State :=
  if !s.hif.up ∨ !s.ringOn r then s else
  let f := s.ring r
  let n := 4096 - f.level
  let s := s.modRing r fun f => { f with held := f.held.drop n }
  ((f.held.take n).foldl (fun s rec => s.ringWrite r rec) s).ringSummary r

/-! ## Larkspur records -/

/-- A new record for a unit (R416). -/
def Lark.fresh (u : UnitId) : Lark :=
  { unit := u, st := 0, powered := 0, perm := 0, updated := 0, slots := [], jigRuns := 0, jigFails := 0, jigLast := 0,
    history := 0, lastCode := 0, interval := 256, margins := [], repairs := [], tempH := List.replicate 8 0, tempMax := 0,
    dirty := false, permanent := false }

/-- Units that have a larkspur record: every kind from CELL to CART_LINK but CONTROL (R416). -/
def hasLark (u : UnitId) : Bool := 1 ≤ u.kind && u.kind ≤ 0x0D && u.kind != 6

/-- The unit that a record is kept of: of a port, a Horvi lane or the host link, SRC_SUB only names a lane (R355, R377, R400). -/
def larkUnit (u : UnitId) : UnitId := if u.kind = 7 ∨ u.kind = 9 ∨ u.kind = 0x0C then { u with sub := 0 } else u

def State.lark (s : State) (u : UnitId) : Lark :=
  (s.health.larks.find? (fun l => l.unit == larkUnit u)).getD { Lark.fresh (larkUnit u) with powered := s.health.baseMin }

/-- A list of records with one put in the place of its unit's. -/
def putLark (l : List Lark) (x : Lark) : List Lark := l.filter (fun y => y.unit != x.unit) ++ [x]

/-- Powered minutes of a unit: those of earlier starts and those since steward boot. -/
def State.minutes (s : State) (u : UnitId) : Nat := (s.lark u).powered + s.mtime.toNat / 60000000000

/-- Change the record of a unit; one left not dirty is written to flash at once (R417). -/
def State.modLark (s : State) (u : UnitId) (f : Lark → Lark) : State :=
  if !hasLark u then s else
  let x := f (s.lark u)
  let t := s.minutes u
  s.modHealth fun h => { h with
    larks := putLark h.larks x, flash := if x.dirty then h.flash else putLark h.flash { x with powered := t } }

/-- The slot of a class takes one more event at minute t (R416, R418): the first empty of 8 slots, else the slot whose
newest event is oldest. -/
def Lark.event (l : Lark) (c t : Nat) : Lark :=
  let new : LarkSlot := ⟨c, 1, [t]⟩
  let slots :=
    if l.slots.any (fun x => x.cls == c) then
      modWhere l.slots (fun x => x.cls == c) fun x => { x with lifetime := x.lifetime + 1, recent := (t :: x.recent).take 4 }
    else if l.slots.length < 8 then l.slots ++ [new]
    else
      let oldest := (l.slots.map fun x => x.recent.headD 0).foldl min t
      match l.slots.findIdx? (fun x => x.recent.headD 0 == oldest) with
      | some i => l.slots.set i new
      | none => l.slots
  { l with slots, updated := t, dirty := true }

/-- Events of a class at a unit within the window of R418. -/
def State.eventsIn (s : State) (u : UnitId) (c : Nat) : Nat :=
  let t := s.minutes u
  let w := bits (s.reg (faultBase + 0xA8)) 15 8
  match (s.lark u).slots.find? (fun x => x.cls == c) with
  | some x => (x.recent.filter fun e => t - e < w * 60).length
  | none => 0

/-- Add to the REPAIRS list, dropping the oldest of more than 8, and write the record to flash (R416, R417). -/
def State.larkRepair (s : State) (u : UnitId) (action detail loc : Nat) : State :=
  let t := s.minutes u
  s.modLark u fun l =>
    let r := l.repairs ++ [(action, detail, loc, t)]
    { l with repairs := r.drop (r.length - 8), updated := t, dirty := false }

/-! ## Records of reports -/

/-- The fault record of an incident (R399). -/
def State.recordBytes (s : State) (n : Incident) (ref verdict seq : Nat) : Bytes :=
  let r := n.rep
  let many := 1 < n.reporters
  let ev := min 15 (s.eventsIn r.unit r.cls)
  ofWords
    [ r.cls + 2 ^ 8 * n.sev + 2 ^ 12 * ringOf r.cls + 2 ^ 14 * b2n many + 2 ^ 16 * r.subcode + 2 ^ 24 * n.action + 2 ^ 32 * seq,
      r.unit.kind + 2 ^ 8 * r.unit.index + 2 ^ 24 * r.unit.sub + 2 ^ 32 * r.part.getD 0 + 2 ^ 36 * b2n r.part.isSome
        + 2 ^ 37 * verdict + 2 ^ 48 * n.reporters,
      n.first, n.last, r.info0.toNat, r.info1.toNat,
      r.handle + 2 ^ 32 * (r.step % 4096) + 2 ^ 44 * r.kind,
      ref + 2 ^ 32 * ev + 2 ^ 36 * b2n n.perm ]

/-- Write the record of an incident (R403): its SEQ. One of severity DEGRADED or higher is also sent as a platform event
message (R451). -/
def State.writeIncident (s : State) (n : Incident) (ref : Nat) : Nat × State :=
  let s' := s.modHealth fun h => if 1 < n.reporters then { h with cntIncidents := h.cntIncidents + 1 } else h
  let (seq, s') := s'.putRecord (ringOf n.rep.cls) n.rep.unit.kind (s.recordBytes n ref n.verdict)
  (seq, if 3 ≤ n.sev then s'.modHealth fun h => { h with messages := h.messages ++ [s.recordBytes n ref n.verdict seq] } else s')

/-- An incident of one report. -/
def Incident.of (rep : Report) (sev : Nat) (now : Nat) : Incident :=
  { rep, first := rep.time, last := rep.time, reporters := 1, openedAt := now, action := 0, verdict := 0,
    selfReport := rep.selfReport, sev, counted := false, perm := false, seq := 0 }

/-- The concentrator takes a report (R403): it joins the open incident of its source and class or opens one; FATAL reports
and a 257th are records of their own. True where it opened one. -/
def State.fileReport (s : State) (rep : Report) (sev action : Nat) : Bool × State :=
  let now := s.now .steward
  let s := s.modHealth fun h => { h with cntReports := h.cntReports + 1 }
  let same (n : Incident) : Bool := n.rep.unit == rep.unit && n.rep.cls == rep.cls
  if s.health.incidents.any same then
    (false, s.modHealth fun h => { h with
      incidents := modWhere h.incidents same fun n =>
        { n with last := rep.time, reporters := min 65535 (n.reporters + 1), selfReport := n.selfReport || rep.selfReport
                 action := n.action ||| action } })
  else
    let n := { Incident.of rep sev now with action }
    if sev = 5 ∨ 256 ≤ s.health.incidents.length then (true, (s.writeIncident n 0).2)
    else (true, s.modHealth fun h => { h with incidents := h.incidents ++ [n] })

/-- A report that the steward makes itself. -/
def stewardReport (cls : Nat) (u : UnitId) (sub : Nat) (info0 info1 : Nat) (t : Nat) : Report :=
  { cls, unit := u, subcode := sub, part := none, info0 := BitVec.ofNat 64 info0, info1 := BitVec.ofNat 64 info1,
    handle := 0xFFFFFFFF, step := 0, kind := 0, time := t, selfReport := true }

/-- The island where an event of a class takes place (R29): a stack, the pair, a bay or the control island; else the steward, who
judges it. -/
def eventIsland (cls : Nat) (u : UnitId) : Island :=
  match cls with
  | 0x0A => .rowEngine u.index
  | 0x12 | 0x13 | 0x14 | 0x15 => .horvi
  | 0x17 => .cartridge
  | 0x21 => .control
  | _ => .steward

/-- File a report that the steward makes, stamped where the event took place. -/
def State.steward (s : State) (cls : Nat) (u : UnitId) (sub info0 info1 sev : Nat) : State :=
  (s.fileReport (stewardReport cls u sub info0 info1 (s.now (eventIsland cls u))) sev 0).2

/-! ## The suspect module (R420, R421) and fatal events (R407) -/

/-- Every logical cell enters DRAINED. -/
def State.drainCells (s : State) : State :=
  { s with cells := s.cells.map fun c => if c.logical.isSome then { c with st := 4 } else c }

/-- The drain switch takes an ACTIVE row engine out of service: the parts routed to it end with STACK_LOST (R119, R136). -/
def State.engineOut (s : State) (k : Nat) : State :=
  if (s.engine k).st = 1 then (s.modEngine k fun e => { e with st := 2 }).engineLost k else s

/-- With no batch in flight, a suspect module's cells enter DRAINED (step 3 of R421); a module drained on command takes its
row engines out of service too (R33, R136). -/
def State.finishDrain (s : State) : State :=
  if s.batches ≠ [] then s else
  let s := if s.health.draining ∨ s.health.wholeDrain then s.drainAll else s
  let s := if s.health.draining then
      s.drainCells.modHealth fun h => { h with draining := false, drainedAll := true } else s
  if s.health.wholeDrain then
    ((List.range s.stackCount).foldl State.engineOut s.drainCells).modHealth fun h => { h with wholeDrain := false }
  else s

/-- The drain switch closes a partition (R33, R303). -/
def State.closePart (s : State) (p : Nat) : State := s.modPart p fun x => { x with opened := false, drained := true }

/-- The module becomes suspect (R421). -/
def State.makeSuspect (s : State) (cls : Nat) : State :=
  if s.health.suspect then s else
  let s := s.modHealth fun h => { h with suspect := true, replace := true, cause := cls, draining := true }
  let s := s.steward 0x1E ⟨0, 0, 0⟩ cls 0 0 4
  let paired := s.hrv.st = 4
  let s := if paired then s.hrvSend 0xB 2 1 [] else s
  let s := if paired then s.dropBatches fun b => s.mirrored b.part else s
  ((List.range 16).foldl State.closePart s).finishDrain

/-- A fatal event (R407): admission closes, every job ends without completion records; the record goes to the ring of its
class while the steward is alive. -/
def State.setFatal (s : State) (bit : Nat) (rep : Report) : State :=
  let ms := s.mtime.toNat / 1000000
  let s := s.modHealth fun h =>
    { h with firstMs := if h.fatal = 0 then ms % 2 ^ 32 else h.firstMs, fatal := h.fatal ||| BitVec.ofNat 5 (2 ^ bit) }
  let s := (List.range 16).foldl (fun s p => s.modPart p fun x => { x with opened := false }) s
  let s := s.dropBatches fun _ => true
  if bit = 2 ∨ s.health.fatal.toNat.testBit 2 then s else (s.fileReport rep 5 0).2

/-- A fatal event that a supervisor of the module reports. -/
def State.setFatalBy (s : State) (bit cls : Nat) (unit : UnitId) : State :=
  s.setFatal bit (stewardReport cls unit 0 0 0 (s.now (eventIsland cls unit)))

/-! ## Moves of a logical cell (R318, R319, R409) -/

/-- The lowest-numbered SPARE position of a die. -/
def State.spareOf (s : State) (d : Nat) : Option Nat :=
  ((List.range 40).map (40 * d + ·)).find? fun i => (s.cell i).st == 6 && i < s.cells.length

/-- SPARE positions of a die. -/
def State.sparesOn (s : State) (d : Nat) : Nat :=
  (((List.range 40).map (40 * d + ·)).filter fun i => (s.cell i).st == 6 && decide (i < s.cells.length)).length

/-- Counters of a stream port and its slots, and their last skip markers, which stay with the physical cell (R192, R193). -/
def StreamPort.counted (x old : StreamPort) : StreamPort :=
  { x with
    cntRead := old.cntRead, cntWrite := old.cntWrite, cntRemote := old.cntRemote, cntPoison := old.cntPoison
    slots := List.zipWith (fun (n o : Slot) => { n with
      cntBytes := o.cntBytes, cntBlocks := o.cntBlocks, cntReread := o.cntReread, cntDrops := o.cntDrops, cntSkips := o.cntSkips
      lastSkip := o.lastSkip }) x.slots old.slots }

/-- What a logical cell takes with it (R319): owner, contexts, jobs, scratchpad, image copy, streams. -/
def Cell.carry (new old : Cell) : Cell :=
  { new with
    logical := old.logical, part := old.part, lc := old.lc, be := old.be, job := old.job, susp := old.susp
    startQ := old.startQ, held := old.held, layer := old.layer, comp := .fresh, scratch := old.scratch
    readBuf := old.readBuf, open_ := old.open_, written := old.written, img := old.img
    rstored := old.rstored
    port := ({ new.port with slots := old.port.slots, splitLc := old.port.splitLc, splitBe := old.port.splitBe } : StreamPort).counted
      new.port
    pend := { old.pend with move := false, shadow := false, shadowCrc := [] } }

/-- A position without its logical cell, cleared (R76). -/
def Cell.vacate (c : Cell) (st : Nat) : Cell :=
  { (Cell.fresh 39) with
    st, logical := none, port := StreamPort.fresh.counted c.port, fault := c.fault, cnt := c.cnt, freeze := c.freeze, mhz := c.mhz, ceil := c.ceil, mv := c.mv }

/-- Logical cell of position i goes to SPARE position k, which takes state st; position i enters TEST (R319). The last
SPARE position of the die writes SPARES_LOW (R402, R411). -/
def State.moveCell (s : State) (i k st : Nat) : State :=
  let old := s.cell i
  let s := s.modCell k fun c => { c.carry old with st }
  let s := s.modCell i fun c => c.vacate 5
  let s : State := match old.part with
    | some p => s.modPart p fun x => { x with cntMoves := x.cntMoves + 1 }
    | none => s
  let s : State := match old.job with
    | some j => s.modBatch j.handle fun b => { b with moved := b.moved + 1 }
    | none => s
  if s.sparesOn (i / 40) = 0 then
    (s.steward 0x1A ⟨5, i / 40, 0⟩ 0 0 0 3).modHealth fun h => { h with alert := h.alert ||| 8 }
  else s

/-! ## Events, permanence and jigs -/

/-- A jig falls due at once, with a grace window in ns, for an incident of class cls or, with 0, for none (R404, R418). -/
def State.jigNow (s : State) (pos grace cls : Nat) : State :=
  let now := s.now .steward
  s.modHealth fun h => { h with jigs := h.jigs.modify pos fun j =>
    if j.running then j else { j with due := now, graceEnd := now + grace, pending := true, ref := 0, refCls := cls } }

/-- The jig out of schedule that an incident's source runs (R404); one that the source already runs serves. -/
def State.startJig (s : State) (u : UnitId) (cls : Nat) : State :=
  if cls = 0x10 then (s.modNet fun n => { n with jig := true }).modHealth fun h => { h with netJig := { h.netJig with running := true, ref := 0, refCls := cls } }
  else if u.kind = 1 then s.jigNow u.index 0 cls
  else if u.kind = 2 then
    (s.modEngine u.index fun e => { e with jigDue := true }).modHealth fun h =>
      { h with reJigs := h.reJigs.modify u.index fun j => { j with running := true, ref := 0, refCls := cls } }
  else s

/-- Row-engine repairs made so far (R418). -/
def State.engineRepairs (s : State) (k : Nat) : Nat := ((s.lark ⟨2, k, 0⟩).repairs.filter fun r => r.1 == 8).length

/-- A stack fails (R214): its row engine enters FAILED, the parts routed to it end with STACK_LOST (R119, R136) and the module becomes
suspect (R420). -/
def State.failStack (s : State) (k : Nat) : State :=
  let s := (s.modEngine k fun e => { e with st := 3, mem := { e.mem with failed := true } }).engineLost k
  let s := s.modLark ⟨2, k, 0⟩ fun l => { l with st := 3, dirty := false }
  (s.steward 0x0A ⟨2, k, 0⟩ 0 0 0 4).makeSuspect 0x0A

/-- A pseudo-channel fails (R214): as a stack, but only its share of every frame is lost. -/
def State.failChannel (s : State) (k c : Nat) : State :=
  let s := (s.modEngine k fun e => { e with st := 3, mem := { e.mem with lost := e.mem.lost ++ [c] } }).engineLost k
  let s := s.modLark ⟨3, k, c⟩ fun l => { l with st := 3, dirty := false }
  (s.steward 0x0A ⟨3, k, c⟩ 0 0 0 4).makeSuspect 0x0A

/-- The repair around of a unit that has become permanent (R418, R420). -/
def State.repairAround (s : State) (u : UnitId) (cls : Nat) : State :=
  if u.kind = 1 then s.jigNow u.index (1000000 * bits (s.reg (faultBase + 0xB0)) 30 16) 0
  else if u.kind = 2 then
    if s.engineRepairs u.index < Config.engineSpares u.index then
      (s.larkRepair u 8 0 0).modEngine u.index fun e => { e with paused := true }
    else s.failStack u.index
  else if u.kind = 0x0A then s.makeSuspect cls
  else s

/-- A unit is judged permanent (R418): its record goes to flash and UNIT_PERMANENT is written. -/
def State.judge (s : State) (u : UnitId) (cls : Nat) : State :=
  let t := s.minutes u
  (s.modLark u fun l => { l with perm := t / 60, permanent := true, updated := t, dirty := false }).steward 0x19 u cls 0 0 3

/-- A unit that is judged permanent is repaired around (R418). -/
def State.permanent (s : State) (u : UnitId) (cls : Nat) : State := (s.judge u cls).repairAround u cls

/-- One event of a class at a unit (R418). -/
def State.countEvent (s : State) (u : UnitId) (cls : Nat) : State :=
  if !hasLark u then s else
  let t := s.minutes u
  let s := s.modLark u fun l => l.event cls t
  if bits (s.reg (faultBase + 0xA8)) 2 0 ≤ s.eventsIn u cls ∧ !(s.lark u).permanent then s.permanent u cls else s

/-- Count the open incident of a unit and class as an event, once (R404). -/
def State.countIncident (s : State) (u : UnitId) (cls : Nat) : State :=
  let mine (n : Incident) : Bool := n.rep.unit == u && n.rep.cls == cls
  match s.health.incidents.find? mine with
  | some n =>
    if n.counted ∨ (isJigClass cls ∧ !n.selfReport) then s else
    let was := (s.lark u).permanent
    let s := (s.modHealth fun h => { h with
      incidents := modWhere h.incidents mine fun n => { n with counted := true } }).countEvent u cls
    if was ∨ !(s.lark u).permanent then s else
    s.modHealth fun h => { h with incidents := modWhere h.incidents mine fun n => { n with perm := true } }
  | none => s.countEvent u cls

/-- A fault report arrives (R403, R404, R418): it is filed, an opened incident starts its jig, an H class counts at its
source and a failed stack makes the module suspect. -/
def State.report (s : State) (rep : Report) (sev : Nat) : State :=
  let action := if isJigClass rep.cls then 0x10 else 0
  let (fresh, s) := s.fileReport rep sev action
  let s := if fresh ∧ isJigClass rep.cls then
      (s.startJig rep.unit rep.cls).modHealth fun h => { h with
        incidents := modWhere h.incidents (fun n => n.rep.unit == rep.unit && n.rep.cls == rep.cls)
          fun n => { n with verdict := 1 } }
    else s
  let s := if isHealth rep.cls then s.countIncident rep.unit rep.cls else s
  if rep.cls = 0x0A ∧ fresh then s.makeSuspect 0x0A else s

end Sys2Proof.Machine
end

