-- ==== Sys2Proof/Machine/Operands.lean ====
section
/-! DEFINITION. Operands of a step (R67, R463), its issue (R58), its faults (R71, R72), tokens and credits (R62, R63, R256). -/
namespace Sys2Proof.Machine

/-! ## Fields of a step (R67) -/

def fld (w : StepWord) (hi lo : Nat) : Nat := bits w.toNat hi lo
def kindOf (w : StepWord) : Nat := fld w 7 0
def flagOf (w : StepWord) (n : Nat) : Bool := w.toNat.testBit (8 + n)
def accOf (w : StepWord) : Bool := flagOf w 2
def localOf (w : StepWord) : Bool := flagOf w 7
/-- Group size of FLAGS[4:3] (R67). -/
def groupOf (w : StepWord) : Nat := match fld w 12 11 with | 0 => 32 | 1 => 64 | _ => 128
def fmtaOf (w : StepWord) : Nat := fld w 19 16
def fmtbOf (w : StepWord) : Nat := fld w 23 20
def sdOf (w : StepWord) : Nat := fld w 53 48
def saOf (w : StepWord) : Nat := fld w 59 54
def sbOf (w : StepWord) : Nat := fld w 65 60
def scOf (w : StepWord) : Nat := fld w 71 66
def qOf (w : StepWord) : Nat := fld w 75 72
def modeOf (w : StepWord) : Nat := fld w 79 76
def imm16Of (w : StepWord) : Nat := fld w 95 80
def imm32Of (w : StepWord) : Nat := fld w 127 96
def imm64Of (w : StepWord) : Nat := fld w 127 64
/-- ROWS of array and top-k steps, 1 to 64. -/
def rowsOf (w : StepWord) : Nat := max 1 (min 64 (fld w 86 80))

/-- Iteration index of the innermost open loop (R61); 0 in a loop beyond depth 4 or outside any. -/
def Ctx.loopIdx (x : Ctx) : Nat := if x.overLoops ≠ 0 then 0 else match x.loops with | f :: _ => f.idx | [] => 0

/-- A tile register field with the loop index of IXSEL added modulo 32 (R61, R67). -/
def tileOf (x : Ctx) (w : StepWord) (lo sel : Nat) : Nat :=
  let t := fld w (lo + 4) lo
  if w.toNat.testBit (44 + sel) then (t + x.loopIdx) % 32 else t
def tdOf (x : Ctx) (w : StepWord) : Nat := tileOf x w 24 0
def taOf (x : Ctx) (w : StepWord) : Nat := tileOf x w 29 1
def tbOf (x : Ctx) (w : StepWord) : Nat := tileOf x w 34 2
def tcOf (x : Ctx) (w : StepWord) : Nat := tileOf x w 39 3

/-- Scalar operands SA, SB and SC. -/
def Ctx.sa (x : Ctx) (w : StepWord) : Nat := (x.scalar (saOf w)).toNat
def Ctx.sb (x : Ctx) (w : StepWord) : Nat := (x.scalar (sbOf w)).toNat
def Ctx.sc (x : Ctx) (w : StepWord) : Nat := (x.scalar (scOf w)).toNat
/-- The second operand of a scalar step: IMM32 with FLAGS[0], else SB (R69). -/
def Ctx.sbImm (x : Ctx) (w : StepWord) : Nat := if flagOf w 0 then imm32Of w else x.sb w

/-- The address word formed from SA + IMM32 modulo 2^64, with the LOCAL flag in bit 63 (R463). -/
def addrWord (w : StepWord) (base off : Nat) : Nat := addr57 ((base + off) % 2 ^ 64) + (if localOf w then 2 ^ 63 else 0)

/-! ## Issue (R58) -/

/-- The step word at the step index of the running context, if the cell is RUNNING a job of a partition and its KIND is k. -/
def State.canIssue (s : State) (k g : Nat) (w : StepWord) : Option (Nat × Nat) :=
  match s.posOf g with
  | none => none
  | some i =>
    let c := s.cell i
    match c.part with
    | none => none
    | some p =>
      if c.st = 1 ∧ c.job.isSome ∧ c.img.steps[c.cur.step]? = some w ∧ kindOf w = k then some (i, p) else none

/-- Issue counts the step and moves the step index on (R58, R77). -/
def State.advance (s : State) (i : Nat) : State :=
  s.modCell i fun c =>
    let x := c.cur
    (c.setCur { x with step := x.step + 1 }).count fun n => { n with steps := n.steps + 1 }

/-- Run a step of KIND k on logical cell g: its effect, or nothing where it cannot issue. -/
def State.issue (s : State) (k g : Nat) (w : StepWord) (f : Nat → Nat → State → State) : State :=
  match s.canIssue k g w with
  | some (i, p) => f i p (s.advance i)
  | none => s

/-- Change the running context of a position. -/
def State.modCtx (s : State) (i : Nat) (f : Ctx → Ctx) : State := s.modCell i fun c => c.setCur (f c.cur)

/-- Write a scalar register of the running context. -/
def State.setSd (s : State) (i : Nat) (w : StepWord) (v : Nat) : State :=
  s.modCtx i fun x => x.setScalar (sdOf w) (BitVec.ofNat 64 v)

/-- Change the compute registers of a position. -/
def State.modComp (s : State) (i : Nat) (f : Compute → Compute) : State := s.modCell i fun c => { c with comp := f c.comp }

/-! ## Step faults (R71, R72, R79) -/

/-- A step faults: the fault registers are written, the cell enters FAULTED and reports; the control plane ends the job at
JOB_ENDED. `engine` names the row engine of a REMOTE_STATUS with ENGINE_FAULT or STACK_LOST (R402). STEP and KIND are those of the
step last issued; for a QUEUE_OVERFLOW, which no step raises, too (DESIGN CHOICE, log entry 49). -/
def State.cellFault (s : State) (i cause addr : Nat) (mask : Nat) (info : Nat) (engine : Option Nat) : State :=
  let c := s.cell i
  let step := c.cur.step - 1
  let kind := match c.img.steps[step]? with | some w => kindOf w | none => 0
  let now := s.now (.cell i)
  let s := s.modCell i fun c =>
    { c with st := 3, held := none, fault := ⟨cause, true, step, kind, addr, BitVec.ofNat 64 mask, info⟩ }
  let cls := match engine with | some _ => 7 | none => if cause = 5 then 2 else 1
  let unit : UnitId := match engine with | some e => ⟨2, e, 0⟩ | none => ⟨1, i, 0⟩
  let sub := match engine with | some e => (s.engine e).faultCause | none => if cause = 5 then 0 else cause
  let handle := match c.job with | some j => j.handle | none => 0xFFFFFFFF
  let s : State := if isReplayable cls then s.modBatch handle fun b =>
      { b with replayable := true, faulty := if cls = 2 then b.faulty ++ c.logical.toList else b.faulty } else s
  s.report
    { cls, unit, subcode := sub, part := c.part, info0 := BitVec.ofNat 64 addr, info1 := BitVec.ofNat 64 mask, handle, step
      kind, time := now, selfReport := engine.isNone }
    2

/-! ## Credits and tokens -/

/-- Send a credit back towards its counter (R63). -/
def State.sendCredit (s : State) (c : Option CreditRef) : State :=
  match c with
  | some r => { s with credits := s.credits ++ [r] }
  | none => s

/-- Send a token to queue q of a class of cell g; it is in flight until TOKEN_ARRIVAL (R27, R306). -/
def State.sendToken (s : State) (g q : Nat) (k : Cls) (t : Token) : State := { s with tokens := s.tokens ++ [(g, q, k, t)] }

/-- Post the completion token of an asynchronous step (R66). -/
def State.complete (s : State) (g q : Nat) (k : Cls) (sender : Agent) (status low : Nat) : State :=
  s.sendToken g q k ⟨BitVec.ofNat 32 (2 ^ 24 * status + low % 2 ^ 24), sender, true, none, none⟩

/-- An asynchronous step of the cell is open until its completion has been posted (R66, R69). -/
def State.openAsync (s : State) (i : Nat) (o : AsyncOp) : State := s.modCell i fun c => { c with open_ := c.open_ ++ [o] }
def State.closeAsync (s : State) (i : Nat) (id : Nat) : State :=
  s.modCell i fun c => { c with open_ := c.open_.filter fun o => o.id != id }

/-- POSTC returns n credits to the counters recorded on the popped tokens, oldest first (R63): the credits returned and
the tokens left. -/
def returnCredits (n : Nat) : List (Option CreditRef) → List CreditRef × List (Option CreditRef)
  | [] => ([], [])
  | c :: l =>
    if n = 0 then ([], c :: l) else
    match c with
    | none => returnCredits n l
    | some r => let (a, b) := returnCredits (n - 1) l; (r :: a, b)

/-- Enter a token into queue q of a class of the cell at position i (R62, R256, R306): it meets an owed discard, enters,
or is discarded at a full queue. The flag is set for an overflow in the running context. -/
def State.enterToken (s : State) (i q : Nat) (k : Cls) (t : Token) : Bool × State :=
  let c := s.cell i
  let x := c.ctx k
  let late (x : Ctx) : Bool × State :=
    (false, (s.modCell i fun c => (c.setCtx k x).count fun n => { n with late := n.late + 1 }).sendCredit t.credit)
  if (x.queue q).owed ≠ 0 then late (x.modQueue q fun u => { u with owed := u.owed - 1 }) else
  match x.owedAny.findIdx? (fun m => m.toNat.testBit q) with
  | some n => late { x with owedAny := x.owedAny.eraseIdx n }
  | none =>
    if (x.queue q).depth ≤ (x.queue q).toks.length ∨ 64 ≤ (x.queue q).toks.length then
      if c.job.isSome ∧ c.cls = k then (true, s)
      else (false, s.modCell i fun c => c.setCtx k { c.ctx k with heldOverflow := some q })
    else (false, s.modCell i fun c => c.setCtx k ((c.ctx k).modQueue q fun u => { u with toks := u.toks ++ [t] }))

/-- The status that a popped token carries for the cell: only COMPLETION tokens are examined (R66). -/
def Token.status (t : Token) : Nat := if t.completion then bits t.value.toNat 31 24 else 0

/-- The row engine that a popped completion token names for ENGINE_FAULT or STACK_LOST (R119, R402). -/
def Token.engine (t : Token) : Option Nat :=
  match t.sender with
  | .frontEnd _ => if t.status = 8 ∨ t.status = 9 then some (t.value.toNat % 16) else none
  | _ => none

/-- REMOTE_STATUS for the first popped completion token with a nonzero status (R66, R71). -/
def State.remoteStatus (s : State) (i : Nat) (ts : List Token) : State :=
  match ts.find? (fun t => t.status != 0) with
  | some t => s.cellFault i 8 0 0 (256 * t.status + t.value.toNat % 16) t.engine
  | none => s

/-- Write a tile register's bytes, leaving the marks of its rows. -/
def Compute.setTile (c : Compute) (td : Nat) (b : Bytes) : Compute :=
  { c with tiles := { c.tiles.write 256 (16384 * td) (Data.clean b) with poison := c.tiles.poison } }

/-- The bytes of a tile register. -/
def Compute.tile (c : Compute) (td : Nat) : Bytes := (c.tiles.read 256 (16384 * td) 16384).bytes

/-- From now on register td holds free bytes until the token of request id is popped (R118). -/
def State.holdTile (s : State) (i id td : Nat) : State :=
  let (junk, s) := s.drawBytes 16384
  s.modComp i fun c => { c.setTile td junk with lands := c.lands ++ [⟨id, td, c.tile td, junk, []⟩] }

/-- The rows that land when the token of request id is popped (R117, R118). -/
def State.tileRows (s : State) (i id : Nat) (rows : List (Bytes × Bool)) : State :=
  s.modComp i fun c => { c with lands := modWhere c.lands (fun l => l.req == id) fun l => { l with rows } }

/-- The register that a request held has its content again, and output row k in row k (R117). -/
def Compute.land (c : Compute) (l : TileLand) : Compute :=
  (l.rows.mapIdx fun k x => (k, x)).foldl (fun (c : Compute) e =>
    let at_ := 16384 * l.td + 256 * e.1
    let old := (c.tiles.read 256 at_ 256).bytes
    { c with tiles := c.tiles.write 256 at_ (Data.mark e.2.2 (e.2.1.take 256 ++ old.drop e.2.1.length)) }) (c.setTile l.td l.old)

/-- The token of a request to a tile register is popped: its output lands, in a register that no step has written meanwhile; one that a
step has written holds free bytes (R118). -/
def State.landTile (s : State) (i id : Nat) : State :=
  match (s.cell i).comp.lands.find? fun l => l.req == id with
  | none => s
  | some l =>
    let s := s.modComp i fun c => { c with lands := c.lands.filter fun x => x.req != id }
    if (s.cell i).comp.tile l.td = l.junk then s.modComp i fun c => c.land l
    else
      let (b, s) := s.drawBytes 16384
      s.modComp i fun c => c.setTile l.td b

/-- Pop the tokens ts from the head of queue q of the running context (R63, R64); the output of a gather to a tile register lands with
its token (R118). -/
def State.popTokens (s : State) (i q : Nat) (ts : List Token) : State :=
  (ts.filterMap (·.tile)).foldl (fun s id => s.landTile i id) (s.modCtx i fun x => x.modQueue q fun u =>
    { u with toks := u.toks.drop ts.length, popped := u.popped ++ ts.map (·.credit) })

/-! ## Holding the sequencer -/

/-- The step w holds the sequencer (R64, R69, R244). -/
def State.hold (s : State) (i : Nat) (w : StepWord) (deadline : Option Nat) : State :=
  let now := s.now (.cell i)
  s.modCell i fun c => { c with st := 2, held := some ⟨w, now, deadline⟩ }

/-- The cycles of a WAIT or WAITANY up to now are counted, unless FREEZE is set (R77, R79). -/
def Cell.waited (c : Cell) (now : Nat) : Cell :=
  match c.held with
  | some h =>
    let c' := if kindOf h.w = 3 ∨ kindOf h.w = 4
      then c.count fun n => { n with wait := n.wait + BitVec.ofNat 64 ((now - h.since) * c.mhz / 1000) } else c
    { c' with held := some { h with since := now } }
  | none => c

/-- The held step completes: the cell runs on; the cycles of a WAIT or WAITANY are counted (R77). -/
def State.resume (s : State) (i : Nat) : State :=
  let now := s.now (.cell i)
  s.modCell i fun c => { c.waited now with st := if c.st = 2 then 1 else c.st, held := none }

end Sys2Proof.Machine
end

