-- ==== Sys2Proof/Machine/Chains.lean ====
section
/-! DEFINITION. Stream slots and the stream port (R169, R179, R180, R192); the dowel chain: joining, sending, dropping and
completing (R185 to R191). -/
namespace Sys2Proof.Machine

/-! ## Slots and the port -/

def State.slot (s : State) (i n : Nat) : Slot := (s.cell i).port.slots.getD n (Slot.fresh 0)
def State.modSlot (s : State) (i n : Nat) (f : Slot → Slot) : State :=
  s.modCell i fun c => { c with port := { c.port with slots := c.port.slots.modify n f } }

/-- Change counters of a slot, which stand still while FREEZE is set (R192). -/
def State.countSlot (s : State) (i n : Nat) (f : Slot → Slot) : State :=
  if (s.cell i).freeze then s else s.modSlot i n f

/-- A 25th of a byte is the unit of the buckets: a cycle of a percentage of 128 bytes is whole (R180). A burst of 64 bytes, and
the most that a bucket holds. -/
def burstCost : Int := 1600
def bucketFull : Int := 102400

def StreamPort.bucket (x : StreamPort) (k : Cls) (kind : Nat) : Int :=
  (match k with | .lc => x.buckets | .be => x.bucketsBe).getD kind 0
def StreamPort.modBucket (x : StreamPort) (k : Cls) (kind : Nat) (f : Int → Int) : StreamPort :=
  match k with
  | .lc => { x with buckets := x.buckets.modify kind f }
  | .be => { x with bucketsBe := x.bucketsBe.modify kind f }
/-- The split in force for a class (R180). -/
def StreamPort.split (x : StreamPort) (k : Cls) : List Nat := match k with | .lc => x.splitLc | .be => x.splitBe
/-- A cell cycle's earning of a kind under the split of a class: its percentage of 128 bytes (R180). -/
def StreamPort.earn (x : StreamPort) (k : Cls) (kind : Nat) : StreamPort :=
  x.modBucket k kind fun b => min bucketFull (b + 32 * (x.split k).getD kind 0)

/-- Bytes of a kind (0 READ, 1 WRITE, 2 REMOTE) have crossed the port of the cell, with the number of marked granules moved
(R174, R179). -/
def State.countPort (s : State) (i kind bytes marks : Nat) : State :=
  let v := BitVec.ofNat 64 bytes
  let m := BitVec.ofNat 64 marks
  s.modCell i fun c => if c.freeze then c else
    let p := c.port
    { c with port := match kind with
      | 0 => { p with cntRead := p.cntRead + v, cntPoison := p.cntPoison + m }
      | 1 => { p with cntWrite := p.cntWrite + v, cntPoison := p.cntPoison + m }
      | _ => { p with cntRemote := p.cntRemote + v, cntPoison := p.cntPoison + m } }

/-- Bytes spend their bursts from the bucket of a class and kind. -/
def State.spendPort (s : State) (i : Nat) (k : Cls) (kind bytes : Nat) : State :=
  s.modCell i fun c => { c with port := c.port.modBucket k kind fun b => b - burstCost * ((bytes + 63) / 64 : Nat) }
/-- Bytes moved as one piece spend their bursts from the bucket of their class and kind (R180): an RSTORE, a chunk, the first
read of a PER_ENTRY block, an owed block. The bucket may go into debt by the piece; nothing of its kind moves before the debt
is paid (DESIGN CHOICE, log entry 50). -/
def State.portBytes (s : State) (i : Nat) (k : Cls) (kind bytes marks : Nat) : State :=
  (s.spendPort i k kind bytes).countPort i kind bytes marks
/-- A piece of a class and kind may move now. -/
def State.portOpen (s : State) (i : Nat) (k : Cls) (kind : Nat) : Bool := decide (0 ≤ (s.cell i).port.bucket k kind)

/-- Marked granules of data that starts at address a (R174). -/
def markedGranules (a : Nat) (d : Data) : Nat :=
  ((chunks 64 a d.length).filter fun c => Data.marked ((d.drop (c.1 - a)).take c.2)).length

/-- The asynchronous step of a kind on a slot closes (R66). -/
def State.closeSlotOp (s : State) (i kind n : Nat) : State :=
  s.modCell i fun c => { c with open_ := c.open_.filter fun o => !(o.kind == kind && o.src == n) }

/-- The queue that a credit counter of the cell is bound to (R63, R281). -/
def Cell.bound (c : Cell) (cr : Nat) : Option (Nat × Nat) := c.img.binds.getD cr none

/-- Post an arrival token with a credit of counter cr of the slot's class; false where the counter is 0 (R175). -/
def State.arrivalToken (s : State) (i : Nat) (k : Cls) (cr : Nat) (v : BitVec 32) : Bool × State :=
  let c := s.cell i
  let n := (c.ctx k).credits.getD cr 0
  match c.bound cr with
  | none => (true, s)
  | some (g', q) =>
    if n = 0 then (false, s) else
    let g := c.logical.getD 0
    (true, (s.modCell i fun c => c.setCtx k { c.ctx k with credits := (c.ctx k).credits.set cr (n - 1) }).sendToken g' q k
      ⟨v, .cell g, false, some (.counter g k cr), none⟩)

/-! ## Chains -/

/-- The chain of a number in the partition of position i and the CHAIN slot of its cell there (R185). -/
def State.chainMember (s : State) (i number : Nat) : Option (Chain × Nat) :=
  let c := s.cell i
  match s.image.chains.find? (fun u => some u.part == c.part && u.number == number) with
  | none => none
  | some u => (u.members.find? fun m => some m.1 == c.logical).map fun m => (u, m.2)

/-- The chain a member slot belongs to. -/
def State.chainOf (s : State) (g n : Nat) : Option Chain := s.image.chains.find? fun u => u.members.contains (g, n)

/-- The slots that member (g, n) feeds: the next member, or the heads of the successor chains (R185, R187). -/
def State.chainNext (s : State) (u : Chain) (g n : Nat) : List (Nat × Nat) :=
  let k := u.members.findIdx fun m => m == (g, n)
  match u.members[k + 1]? with
  | some m => [m]
  | none => u.succ.filterMap fun x =>
      (s.image.chains.find? fun v => v.part == u.part && v.number == x).bind fun v => v.members.head?

/-- A run of a CHAIN slot. -/
def State.run (s : State) (g n : Nat) : Option ChainRun := (s.posOf g).bind fun i => (s.slot i n).chain
def State.modRun (s : State) (i n : Nat) (f : ChainRun → ChainRun) : State :=
  s.modSlot i n fun x => { x with chain := x.chain.map f }

/-- The member that feeds slot n of cell g: its position, slot and edge. -/
def State.feeder (s : State) (g n : Nat) : Option (Nat × Nat × Nat) :=
  ((List.range s.cells.length).flatMap fun i => (List.range 16).filterMap fun m =>
    (s.slot i m).chain.bind fun r =>
      (r.edges.findIdx? fun e => e.g == g && e.slot == n && !e.dropped).map fun j => (i, m, j)).head?

/-- A ring credit goes back to the predecessor of slot n of cell g (R187). -/
def State.ringReturn (s : State) (g n : Nat) : State :=
  match s.feeder g n with
  | some (pi, pn, j) => s.sendCredit (some (.ring ((s.cell pi).logical.getD 0) pn j))
  | none => s

/-- Ring credits that a new edge to slot n of cell g begins with: the successor's RING_SLOTS once it has joined its chain,
before that none (R188). -/
def State.ringCredits (s : State) (g n : Nat) : Nat :=
  match s.posOf g with
  | none => 0
  | some i =>
    let x := s.slot i n
    match x.chain, s.chainOf g n with
    | some r, some u => if r.expect = 0 ∧ x.ring = [] then u.ringSlots else 0
    | _, _ => 0

/-- The first chunk that a member forwards (R187). -/
def fwdFrom (fwdOff total : Nat) : Nat := if total ≤ fwdOff then (total + 4095) / 4096 else fwdOff / 4096

/-- New edges of member (g, n), sending from chunk `next`. -/
def State.freshEdges (s : State) (u : Chain) (g n next : Nat) : List Edge :=
  (s.chainNext u g n).map fun m => ⟨m.1, m.2, s.ringCredits m.1 m.2, next, [], none, false⟩

/-- Bytes of the payload from offset off: at the head's SRC_ADDR, in the head's scratchpad with LOCAL (R186, R188). -/
def State.payload (s : State) (a : Agent) (p hg src off n : Nat) : Data × State :=
  if src.testBit 63 then (s.windowRead hg (addr57 src + off) n, s) else s.vread a p (addr57 src + off) n

/-- Chunks that an edge owes (R188). -/
def Edge.owes (e : Edge) (expect : Nat) : Nat := expect - e.next

/-- A chunk lands in the ring of member slot n of cell g (R185, R187): its data stands in the next ring slot in turn. -/
def State.ringLand (s : State) (g n : Nat) (c : Chunk) (d : Data) : State :=
  match s.posOf g, s.chainOf g n with
  | some m, some u =>
    let at_ := u.ringBase + 4096 * ((s.slot m n).ringPos % u.ringSlots)
    (s.scratchWrite m at_ d).modSlot m n fun x =>
      { x with ring := x.ring ++ [{ c with at_ }], ringPos := x.ringPos + 1, nothing := false }
  | _, _ => s

/-- Send the next chunk on edge j of a member while the edge has credits and owes chunks; the live chunk is sent as it
came, an owed one is read again, once the REMOTE share has paid for what moved before (R180, R187, R188). -/
def State.edgeSend (i n j : Nat) (live : Option (Chunk × Data)) : Nat → State → State
  | 0, s => s
  | f + 1, s =>
    match (s.slot i n).chain with
    | none => s
    | some r =>
      match r.edges[j]? with
      | none => s
      | some e =>
        if e.dropped ∨ e.credits = 0 ∨ r.expect ≤ e.next ∨ r.total ≤ 4096 * e.next then s else
        let c := s.cell i
        let g := c.logical.getD 0
        let k := e.next
        let cls := (s.slot i n).cls
        let isLive := match live with | some x => x.1.no == k | none => false
        if !isLive && !s.portOpen i cls 2 then s else
        let ((ch, d), s) : (Chunk × Data) × State := match live, isLive with
          | some x, true => (x, s)
          | _, _ =>
            let (d, s) := s.payload (.cell g) (c.part.getD 0) r.hg r.hsrc (4096 * k) (min 4096 (r.total - 4096 * k))
            ((⟨k, r.total, r.hg, r.hsrc, d.length, 0⟩, d), s.countSlot i n fun x => { x with cntReread := x.cntReread + 1 })
        let s := s.modRun i n fun r => { r with edges := r.edges.modify j fun e =>
          { e with credits := e.credits - 1, next := k + 1, unc := e.unc ++ [k]
                   owedSince := if r.expect ≤ k + 1 then none else e.owedSince } }
        let s := s.portBytes i cls 2 d.length (markedGranules 0 d)
        let s := s.countSlot i n fun x => { x with cntBytes := x.cntBytes + BitVec.ofNat 64 d.length }
        State.edgeSend i n j live f (s.ringLand e.g e.slot ch d)

/-- Send on every edge of a member; an edge that still owes chunks notes since when (R183, R188). -/
def State.chainSend (s : State) (i n : Nat) (live : Option (Chunk × Data)) : State :=
  match (s.slot i n).chain with
  | none => s
  | some r =>
    let now := s.now (.cell i)
    let s := (List.range r.edges.length).foldl (fun s j => State.edgeSend i n j live ((r.edges.getD j ⟨0, 0, 0, 0, [], none, true⟩).credits) s) s
    s.modRun i n fun r => { r with edges := r.edges.map fun e =>
      { e with owedSince := if e.owes r.expect = 0 ∨ r.total ≤ 4096 * e.next then none
                            else match e.owedSince with | some t => some t | none => some now } }

/-- Post the slice tokens that a credit is there for (R186); they may outlast the run (R190). -/
def State.chainTokens (i n : Nat) : Nat → State → State
  | 0, s => s
  | f + 1, s =>
    match (s.slot i n).toks with
    | [] => s
    | (k, cr, v) :: l =>
      let (ok, s) := s.arrivalToken i k cr (BitVec.ofNat 32 v)
      if ok then State.chainTokens i n f (s.modSlot i n fun x => { x with toks := l }) else s

/-- Every byte of the slice has landed or can never come (R190, R191), and every chunk to forward is sent and credited or
its edge handed over. -/
def ChainRun.finished (r : ChainRun) : Bool :=
  (r.keepLen == 0 || decide (r.keepOff + r.keepLen ≤ 4096 * r.expect)) &&
    r.edges.all fun e => e.dropped || (decide (r.total ≤ 4096 * e.next) && e.unc.isEmpty)

/-- A member that has finished posts its completion token (R190, R191). -/
def State.chainTry (s : State) (i n : Nat) : State :=
  let x := s.slot i n
  match x.chain with
  | none => s
  | some r =>
    if !r.finished then s else
    let st := if r.uncovered then 5 else 0
    let g := (s.cell i).logical.getD 0
    let s := s.modSlot i n fun x => { x with st := 0, chain := none, catchup := none, lastStatus := st }
    (s.closeSlotOp i 0x85 n).complete g r.q x.cls (.cell g) st r.kept

/-- Record a skip marker (R192, R193). -/
def State.recordSkip (s : State) (i n : Nat) (k : Skip) : State :=
  let s := s.countSlot i n fun x => { x with cntSkips := x.cntSkips + 1 }
  s.modSlot i n fun x =>
    { x with lastSkip := BitVec.ofNat 64 (k.first % 2 ^ 24 + 2 ^ 24 * (k.number % 64) + 2 ^ 30 * b2n k.chain + 2 ^ 31) }

/-- Chunks from the one expected to `upto` never come: a byte of the slice lies in them (R191). -/
def ChainRun.misses (r : ChainRun) (upto : Nat) : Bool :=
  decide (r.expect < upto ∧ r.keepOff < 4096 * upto ∧ 4096 * r.expect < r.keepOff + r.keepLen)

/-- The run passes over chunks that never come: a member does not forward what it has not received (R187, R191). -/
def ChainRun.skipTo (r : ChainRun) (upto : Nat) : ChainRun :=
  if upto ≤ r.expect then r else
  { r with expect := upto, uncovered := r.uncovered || r.misses upto
           edges := r.edges.map fun e => if r.expect ≤ e.next then { e with next := max e.next upto } else e }

/-- The predecessor of member slot n of cell g forwards nothing to it (R187, R191): the member passes over every chunk, and so do
those behind it; one that has not joined yet does so when it joins. -/
def State.chainNothing : Nat → Nat → Nat → State → State
  | 0, _, _, s => s
  | f + 1, g, n, s =>
    match s.posOf g with
    | none => s
    | some i =>
      match (s.slot i n).chain with
      | none => s.modSlot i n fun x => { x with nothing := true }
      | some r =>
        if r.expect ≠ 0 ∨ (s.slot i n).ring ≠ [] then s else
        let s := s.modRun i n fun r => r.skipTo ((r.total + 4095) / 4096)
        (r.edges.foldl (fun s e => State.chainNothing f e.g e.slot s) s).chainTry i n

/-- Join a chain with a descriptor that has passed its checks (R186 to R188): the feeder's edge gains its ring credits. -/
def State.chainJoin (s : State) (i : Nat) (u : Chain) (n : Nat) (r : ChainRun) (k : Cls) : State :=
  let g := (s.cell i).logical.getD 0
  let skips := (s.slot i n).skips
  let nothing := (s.slot i n).nothing
  let s := (s.slot i n).ring.foldl (fun s _ => s.ringReturn g n) s
  let s := (skips.filter (·.active)).foldl (fun s m => s.recordSkip i n m) s
  let dropped := skips.any fun m => !m.active
  let joined := s.image.chains.any fun v => v.part == u.part && v.succ.contains u.number
  let r := { r with
    head := u.members.head? == some (g, n) && !joined && !dropped
    edges := if dropped then [] else s.freshEdges u g n (fwdFrom r.fwdOff r.total) }
  let s := s.modSlot i n fun x =>
    { x with st := 1, cls := k, q := r.q, number := u.number, next := 0, blocks := [], ending := none, chain := some r, ring := []
             skips := x.skips.filter fun m => !m.active, catchup := none, written := [], nothing := false }
  let s := s.modCell i fun c => { c with open_ := c.open_ ++ [⟨s.nextId, 0x85, r.q, k, n, 0, 0, [], 0⟩] }
  let s := { s with nextId := s.nextId + 1 }
  let s := if r.total ≤ r.fwdOff then r.edges.foldl (fun s e => State.chainNothing 64 e.g e.slot s) s else s
  let s := if nothing then State.chainNothing 65 g n s else s
  match s.feeder g n with
  | none => s.chainTry i n
  | some (pi, pn, j) =>
    let s := s.modRun pi pn fun r => { r with edges := r.edges.modify j fun e =>
      if e.unc = [] ∧ e.credits = 0 then { e with credits := u.ringSlots } else e }
    (s.chainSend pi pn none).chainTry i n

/-- CHFWD on an idle slot (R186): the descriptor's checks, each failure completing at once, and the join. -/
def State.chainStart (s : State) (i : Nat) (u : Chain) (n : Nat) (w : StepWord) : State :=
  let c := s.cell i
  let p := c.part.getD 0
  let g := c.logical.getD 0
  let aw := addrWord w (c.cur.sa w) 0
  let fail (s : State) (st : Nat) : State :=
    (s.modSlot i n fun x => { x with lastStatus := st }).complete g (qOf w) c.cls (.cell g) st 0
  if addr57 aw % 32 ≠ 0 then fail s 1 else
  if (s.wordUnmapped p aw 32).isSome then fail (if aw.testBit 63 then s else s.countXltFault p) 2 else
  let (d, s) := s.wordRead (.cell g) i p aw 32
  if d.marked then fail s 4 else
  let b := d.bytes
  let src := wordAt b 0
  let total := bits (wordAt b 1) 31 0
  let keepOff := bits (wordAt b 1) 63 32
  let keepLen := bits (wordAt b 2) 31 0
  let fwdOff := bits (wordAt b 2) 63 32
  let keepDst := bits (wordAt b 3) 21 0
  let credit := byteAt b 28 % 16
  let tokens := (byteAt b 28).testBit 4
  let ok := 16 ≤ total ∧ total ≤ 67108864 ∧ total % 16 = 0 ∧ keepOff % 16 = 0 ∧ keepLen % 16 = 0 ∧
    keepOff + keepLen ≤ total ∧ fwdOff ≤ total ∧
    (keepLen = 0 ∨ keepDst + keepLen ≤ u.ringBase ∨ u.ringBase + 4096 * u.ringSlots ≤ keepDst) ∧
    keepDst + keepLen ≤ scratchSize ∧ (s.wordUnmapped p src total).isNone ∧ (tokens → (c.bound credit).isSome)
  if !decide ok then fail s 1 else
  s.chainJoin i u n
    { src, total, keepOff, keepLen, fwdOff, keepDst, credit, tokens, every := byteAt b 29, expect := 0, kept := 0, q := qOf w
      head := false, edges := [], uncovered := false, hg := g, hsrc := src } c.cls

/-- Drop the successor on edge j of a member (R183, R189): a skip marker names the first chunk it did not receive, and the
member takes over its edges. -/
def State.chainDrop (s : State) (i n j : Nat) : State :=
  match (s.slot i n).chain with
  | none => s
  | some r =>
    match r.edges[j]? with
    | none => s
    | some e =>
      if e.dropped then s else
      let g := (s.cell i).logical.getD 0
      let dr := s.run e.g e.slot
      let from_ := e.unc.headD e.next
      let taken : List Edge := match dr, s.chainOf e.g e.slot with
        | some d, _ => d.edges.map fun x => { x with next := from_, owedSince := none }
        | none, some u => s.freshEdges u e.g e.slot from_
        | none, none => []
      let base := r.edges.length
      let s := s.modRun i n fun r => { r with edges := r.edges.modify j (fun e => { e with dropped := true, owedSince := none }) ++ taken }
      let s := { s with credits := s.credits.map fun x => match x with
        | CreditRef.ring a b k => if a = e.g ∧ b = e.slot then CreditRef.ring g n (base + k) else CreditRef.ring a b k
        | y => y }
      let s := s.countSlot i n fun x => { x with cntDrops := x.cntDrops + 1 }
      let s : State := match s.posOf e.g with
        | none => s
        | some m =>
          let s := s.modSlot m e.slot fun x =>
            { x with skips := x.skips ++ [⟨dr.isSome, e.next, ((s.chainOf e.g e.slot).map (·.number)).getD x.number, true, 0, g, n, 0⟩]
                     chain := x.chain.map fun d => { d with edges := [], head := false } }
          s.chainTry m e.slot
      (s.chainSend i n none).chainTry i n

/-- Drop every successor that owes more than LAG_BLOCKS chunks (R183, R188). -/
def State.chainLag (s : State) (i n : Nat) : State :=
  let g := (s.cell i).logical.getD 0
  match (s.slot i n).chain, s.chainOf g n with
  | some r, some u =>
    (List.range r.edges.length).foldl (fun s j =>
      match (s.slot i n).chain with
      | some r => match r.edges[j]? with
        | some e => if !e.dropped ∧ u.lagBlocks < e.owes r.expect then s.chainDrop i n j else s
        | none => s
      | none => s) s
  | _, _ => s

/-- A member handles chunk c with the bytes d (R187, R191): bytes of its slice are copied, slice tokens posted, the chunk
forwarded. -/
def State.chainChunk (s : State) (i n : Nat) (c : Chunk) (d : Data) (forward : Bool) : State :=
  match (s.slot i n).chain with
  | none => s
  | some r =>
    let r := r.skipTo c.no
    let lo := max (4096 * c.no) r.keepOff
    let hi := min (4096 * c.no + d.length) (r.keepOff + r.keepLen)
    let keeps := decide (lo < hi)
    let s := if keeps then s.scratchWrite i (r.keepDst + (lo - r.keepOff)) ((d.drop (lo - 4096 * c.no)).take (hi - lo)) else s
    let kept := if keeps then r.kept + 1 else r.kept
    let full := !r.uncovered && decide (r.keepOff + r.keepLen ≤ 4096 * (c.no + 1))
    let tok := keeps && r.tokens && (if r.every = 0 then full else kept % r.every == 0)
    let s := s.modRun i n fun _ => { r with expect := c.no + 1, kept, total := c.total, hg := c.head, hsrc := c.src }
    let s := s.modSlot i n fun x =>
      { x with next := c.no + 1, toks := if tok then x.toks ++ [(x.cls, r.credit, kept)] else x.toks }
    let s := s.countSlot i n fun x => { x with cntBlocks := x.cntBlocks + 1 }
    let s := State.chainTokens i n (s.slot i n).toks.length s
    let s := if forward then (s.chainSend i n (some (c, d))).chainLag i n else s
    s.chainTry i n

end Sys2Proof.Machine
end

