-- ==== Sys2Proof/Machine/Sequencer.lean ====
section
/-! DEFINITION. The steps that can hold the sequencer and how they complete: WAIT, WAITANY, EBIND, POSTT, REL, SSTART, END
and LAYER (R61 to R65, R69, R244, R311 to R319); the arrival of tokens and credits; control flow. -/
namespace Sys2Proof.Machine

/-! ## WAIT, WAITANY, EBIND, POSTT -/

/-- WAIT: pop COUNT tokens once they are there (R64); true where it completed. -/
def State.waitTry (s : State) (i : Nat) (w : StepWord) : Bool × State :=
  let n := max 1 (min 64 (imm16Of w))
  let q := qOf w
  let toks := ((s.cell i).cur.queue q).toks
  if n ≤ toks.length then
    let ts := toks.take n
    let v := (ts.getLast?.map (·.value.toNat)).getD 0
    (true, (((s.popTokens i q ts).setSd i w v).resume i).remoteStatus i ts)
  else (false, s)

/-- WAITANY: pop one token from the lowest-numbered ready queue of the mask (R64). -/
def State.waitAnyTry (s : State) (i : Nat) (w : StepWord) : Bool × State :=
  let x := (s.cell i).cur
  match (List.range 16).find? (fun q => (imm16Of w).testBit q && !(x.queue q).toks.isEmpty) with
  | none => (false, s)
  | some q =>
    let ts := (x.queue q).toks.take 1
    let v := (ts.head?.map (·.value.toNat)).getD 0
    (true, (((s.popTokens i q ts).setSd i w (2 ^ 48 * q + v)).resume i).remoteStatus i ts)

/-- EBIND: pop the batch token of queue Q; the handle goes to bits [31:0] of SD and PARAM to [63:32] (R307). -/
def State.ebindTry (s : State) (i : Nat) (w : StepWord) : Bool × State :=
  let c := s.cell i
  match (c.cur.queue (qOf w)).toks with
  | [] => (false, s)
  | t :: _ =>
    let param := match c.job with | some j => j.param.toNat | none => 0
    (true, ((s.popTokens i (qOf w) [t]).setSd i w (t.value.toNat + 2 ^ 32 * param)).resume i)

/-- POSTT: take one credit and send one token to the bound queue (R63). -/
def State.posttTry (s : State) (i : Nat) (w : StepWord) : Bool × State :=
  let c := s.cell i
  let x := c.cur
  let cr := qOf w
  let n := x.credits.getD cr 0
  if n = 0 then (false, s) else
  let g := c.logical.getD 0
  let s := s.modCtx i fun x => { x with credits := x.credits.set cr (n - 1) }
  let s : State := match c.img.binds.getD cr none with
    | some (g', q) =>
      s.sendToken g' q c.cls ⟨BitVec.ofNat 32 (x.sa w), .cell g, false, some (.counter g c.cls cr), none⟩
    | none => s
  (true, s.resume i)

/-! ## REL -/

/-- REL (R244): at CELL and DIE scope every covered write has landed; a wider scope sends a drain marker to every stack
written since the last release of that scope. -/
def State.relStart (s : State) (i : Nat) (w : StepWord) : State :=
  let c := s.cell i
  if modeOf w ≤ 1 ∨ c.written = [] then s else
  let g := c.logical.getD 0
  let s := c.written.foldl (fun s k => s.modStack k fun m => { m with markers := m.markers ++ [.cell g] }) s
  (s.modCell i fun c => { c with markers := c.written.length, written := [] }).hold i w none

/-- A REL completes when every drain marker has. -/
def State.relTry (s : State) (i : Nat) : Bool × State :=
  if (s.cell i).markers = 0 then (true, s.resume i) else (false, s)

/-! ## Streams: SSTART and SSTOP -/

/-- Receivers of a source slot: those of its group, kept from run to run with their credits (R181, R182); a receiver still
catching up starts the run as dropped at block 0 (R184). -/
def State.receiversFor (s : State) (i n : Nat) : List Receiver :=
  let c := s.cell i
  let x := s.slot i n
  let base := if x.recvs ≠ [] then x.recvs else
    match s.image.groups.find? (fun u => some u.g == c.logical && u.slot == n && some u.part == c.part) with
    | some u => u.recvs
    | none => []
  base.map fun r =>
    let busy := match s.posOf r.g with
      | some j => (s.slot j r.slot).st != 0 || (s.slot j r.slot).skips.any fun k => !k.chain && some k.src == c.logical && k.srcSlot == n
      | none => false
    { r with next := 0, owedSince := none, dropped := r.dropped && busy }

/-- The group that a source slot serves (R181). -/
def State.groupOfSlot (s : State) (i n : Nat) : Nat :=
  let c := s.cell i
  match s.image.groups.find? (fun u => some u.g == c.logical && u.slot == n && some u.part == c.part) with
  | some u => u.number
  | none => 0

/-- Start a stream on slot n (R169, R173); a receiver that starts as dropped is sent a skip marker naming block 0 (R184). -/
def State.startStream (s : State) (i : Nat) (w : StepWord) : State :=
  let n := imm16Of w
  let c := s.cell i
  let list := addrWord w (c.cur.sa w) 0
  let recvs := s.receiversFor i n
  let number := s.groupOfSlot i n
  let (id, s) := s.newId
  let s := s.modSlot i n fun x =>
    { x with st := 1, cls := c.cls, q := qOf w, list, entry := list, next := 0, done := 0, blocks := [], ending := none
             stopQs := [], recvs, number, chain := none, owed := [], catchup := none, written := [] }
  let s := recvs.foldl (fun s r => if r.dropped then
      match s.posOf r.g with
      | some j => s.modSlot j r.slot fun x =>
          { x with skips := x.skips ++ [⟨true, 0, number, false, list, c.logical.getD 0, n, list⟩] }
      | none => s
    else s) s
  s.openAsync i ⟨id, 0x83, qOf w, c.cls, n, 0, 0, [], 0⟩

/-- SSTART waits at issue until its slot is idle (R169). -/
def State.sstartTry (s : State) (i : Nat) (w : StepWord) : Bool × State :=
  if (s.slot i (imm16Of w)).st = 0 then (true, (s.startStream i w).resume i) else (false, s)

/-- CHFWD waits at issue until its slot is idle (R169, R186); a cell outside the chain does nothing (R169). -/
def State.chfwdTry (s : State) (i : Nat) (w : StepWord) : Bool × State :=
  match s.chainMember i (imm16Of w) with
  | none => (true, s.resume i)
  | some (u, n) => if (s.slot i n).st = 0 then (true, (s.chainStart i u n w).resume i) else (false, s)

/-! ## END and LAYER -/

/-- END: when every asynchronous step of the job has completed the job has reached END (R69, R308). -/
def State.endTry (s : State) (i : Nat) : Bool × State :=
  let c := s.cell i
  if c.open_.any (fun o => o.cls == c.cls) then (false, s) else (true, s.endJob i 0 0)

/-- No asynchronous step of the job is open and every stream slot of its class is idle (R311). -/
def State.quiet (s : State) (i : Nat) : Bool :=
  let c := s.cell i
  !(c.open_.any fun o => o.cls == c.cls) && c.port.slots.all fun x => x.st == 0 || x.cls != c.cls

/-- The jig of position i is due for a move at this boundary: its grace window has ended and the die holds a SPARE
position (R318, R320). -/
def State.moveDue (s : State) (i : Nat) : Bool :=
  let j := s.health.jigs.getD i .fresh
  j.pending && decide (j.graceEnd ≤ s.now (.cell i)) && (s.spareOf (i / 40)).isSome

/-- A preemption is pending at a BE job (R311). -/
def Cell.preemptDue (c : Cell) : Bool := c.pend.preempt && c.cls == .be && c.job.isSome

/-- A LAYER takes what waits for it: a drain ends the job and the suspended context, as R317 says, where R65 speaks of a job
drained with its work kept (DEDUCED: the rule about drains of a cell, log entry 49); a preemption, else a move,
holds the cell until the job is quiet (R311, R318, R319); a shadowed layer waits for its comparison (R415). -/
def State.layerTake (s : State) (i : Nat) (w : StepWord) : State :=
  let c := s.cell i
  if c.pend.drain then
    let s := (s.endJob i 4 0).endSusp i 4
    s.modCell i fun c => { c with st := 4, pend := { c.pend with drain := false } }
  else if c.preemptDue ∨ s.moveDue i ∨ (c.pend.shadow ∧ c.pend.shadowCrc ≠ []) then s.hold i w none
  else s

/-- A new slice begins (R314) and the die control agent chooses whether the next layer is shadowed: one in 2^K, where the
die holds a SPARE position (R415). -/
def State.sliceStart (s : State) (i : Nat) : State :=
  let c := s.cell i
  let now := s.now (.cell i)
  let s := s.modCell i fun c => { c with pend := { c.pend with sliceStart := now, sliceOver := false, shadow := false, shadowCrc := [] } }
  match c.part with
  | none => s
  | some p =>
    let k := bits (s.reg (faultBase + 0x100 + 8 * p)) 4 0
    if k = 0 then s else
    let (r, s) := s.draw (2 ^ k)
    if r ≠ 0 then s
    else if (s.spareOf (i / 40)).isSome then
      (s.modCell i fun c => { c with pend := { c.pend with shadow := true } }).modHealth fun h => { h with cntShadow := h.cntShadow + 1 }
    else s.modHealth fun h => { h with cntShadowSkip := h.cntShadowSkip + 1 }

/-- LAYER with nothing left to take completes: the slice ends and the next begins (R65, R314). -/
def State.layerDone (s : State) (i : Nat) : State := (s.sliceStart i).resume i

/-- A held LAYER goes on when nothing is left for it to take. -/
def State.layerTry (s : State) (i : Nat) : Bool × State :=
  let c := s.cell i
  if c.preemptDue ∨ s.moveDue i ∨ (c.pend.shadow ∧ c.pend.shadowCrc ≠ []) then (false, s) else (true, s.layerDone i)

/-! ## Waking a held cell -/

/-- Try the held step again after something it may wait for has come. -/
def State.wake (s : State) (i : Nat) : State :=
  let c := s.cell i
  match c.held with
  | none => s
  | some h =>
    if c.st ≠ 2 then s else
    match kindOf h.w with
    | 0x03 => (s.waitTry i h.w).2
    | 0x04 => (s.waitAnyTry i h.w).2
    | 0x06 => (s.posttTry i h.w).2
    | 0x07 => (s.ebindTry i h.w).2
    | 0x08 => (s.layerTry i).2
    | 0x0B => (s.relTry i).2
    | 0x0F => (s.endTry i).2
    | 0x83 => (s.sstartTry i h.w).2
    | 0x85 => (s.chfwdTry i h.w).2
    | _ => s

/-- Run a step that may hold: hold it where it does not complete at once. -/
def State.orHold (s : State) (i : Nat) (w : StepWord) (r : Bool × State) (deadline : Option Nat) : State :=
  if r.1 then r.2 else s.hold i w deadline

/-- A token arrives at queue q of a class of the cell at position i (R62, R256, R306): QUEUE_OVERFLOW faults a running
job. -/
def State.tokenArrive (s : State) (i q : Nat) (k : Cls) (t : Token) : State :=
  let (full, s) := s.enterToken i q k t
  if full then s.cellFault i 6 0 0 q none else s.wake i

/-- A credit comes back (R63, R306): counters never pass 64. -/
def State.creditArrive (s : State) (g : Nat) (k : Cls) (cr : Nat) : State :=
  match s.posOf g with
  | none => s
  | some i =>
    (s.modCell i fun c => c.setCtx k
      { c.ctx k with credits := (c.ctx k).credits.modify cr fun n => min 64 (n + 1) }).wake i

/-- The deadline of a WAIT or WAITANY (R64, R80). -/
def State.waitDeadline (s : State) (i : Nat) (w : StepWord) : Option Nat :=
  let t := imm32Of w
  let us := if t = 0xFFFFFFFF then bits (s.reg (cellBase i + 0x98)) 31 0 else t
  if t = 0 then none else some (s.now (.cell i) + 1000 * us)

/-! ## Loops -/

/-- Loops that are open at the end of a run of steps: LOOP opens one, ENDLOOP closes one, END closes all (R61). -/
def loopDepth (l : List StepWord) : Nat :=
  l.foldl (fun d w => if kindOf w = 1 then d + 1 else if kindOf w = 2 then d - 1 else if kindOf w = 0x0F then 0 else d) 0

/-- Index of the step after the ENDLOOP that closes a loop whose body begins at step n, or of the END that does (R61). -/
def skipBody : List StepWord → Nat → Nat → Nat
  | [], n, _ => n
  | w :: l, n, depth =>
    if kindOf w = 1 then skipBody l (n + 1) (depth + 1)
    else if kindOf w = 2 then (if depth = 0 then n + 1 else skipBody l (n + 1) (depth - 1))
    else if kindOf w = 0x0F then n
    else skipBody l (n + 1) depth

end Sys2Proof.Machine
end

