-- ==== Sys2Proof/Machine/Tiles.lean ====
section
/-! DEFINITION. Tile registers and the steps that move data between them, the scalar registers and memory (R42 to R44, R69,
R73, R215, R242, R245, R264, R265). -/
namespace Sys2Proof.Machine

/-! ## Rows and elements (R42, R43) -/

/-- Byte address of row r of tile register t, and its mark unit (R44). -/
def rowAddr (t r : Nat) : Nat := 16384 * t + 256 * r
def rowUnit (t r : Nat) : Nat := 64 * t + r

def Compute.row (c : Compute) (t r : Nat) : Bytes := (c.tiles.read 256 (rowAddr t r) 256).bytes
def Compute.rowMarked (c : Compute) (t r : Nat) : Bool := c.tiles.isMarked (rowUnit t r)
/-- Write a whole row with a mark. -/
def Compute.setRow (c : Compute) (t r : Nat) (m : Bool) (b : Bytes) : Compute :=
  { c with tiles := c.tiles.write 256 (rowAddr t r) (Data.mark m b) }

/-- The first n elements of a row in format f (R42). -/
def rowElems (f n : Nat) (row : Bytes) : List Nat :=
  let v := leNat row
  (List.range n).map fun i => v / 2 ^ (fmtWidth f * i) % 2 ^ fmtWidth f

/-- A row of elements of format f, zero beyond the last. -/
def packRow (f : Nat) (l : List Nat) : Bytes :=
  leBytes 256 (l.foldr (fun c acc => c % 2 ^ fmtWidth f + 2 ^ fmtWidth f * acc) 0)

/-- Change every row of register t: byte string and mark from the row number. -/
def Compute.setRows (c : Compute) (t : Nat) (f : Nat → Bytes × Bool) : Compute :=
  (List.range 64).foldl (fun c r => let x := f r; c.setRow t r x.2 x.1) c

/-- Some of the rows 0 to n − 1 of a register is marked. -/
def Compute.anyMarked (c : Compute) (t n : Nat) : Bool := (List.range n).any fun r => c.rowMarked t r

/-- A faulting arithmetic step leaves an unspecified value in its destination registers (R52, R72). -/
def State.scramble (s : State) (i : Nat) (ts : List Nat) : State :=
  ts.foldl (fun s t =>
    let (b, s) := s.drawBytes 16384
    s.modComp i fun c =>
      { c with tiles := { c.tiles.write 256 (rowAddr t 0) (Data.clean b) with poison := c.tiles.poison } }) s

/-! ## Addresses of a memory step (R463) -/

/-- The address word of SLD, TLD, TST, TLDS, TSTS and TKREAD, plus an offset. -/
def Ctx.addrAt (x : Ctx) (w : StepWord) (off : Nat) : Nat := addrWord w (x.sa w) (imm32Of w + off)

/-- A synchronous write of the cell at position i: its stacks count as written (R206, R244). -/
def State.cellWrite (s : State) (i p word : Nat) (d : Data) : State :=
  let g := (s.cell i).logical.getD 0
  let ks := if word.testBit 63 then [] else s.vstacks p (addr57 word) d.length
  let s := s.wordWrite (.cell g) i p word d
  s.modCell i fun c => { c with written := (c.written ++ ks).dedup }

/-- A read of the cell at position i. -/
def State.cellRead (s : State) (i p word n : Nat) : Data × State :=
  s.wordRead (.cell ((s.cell i).logical.getD 0)) i p word n

/-- The lowest of a list of addresses. -/
def lowest (l : List Nat) : Nat := l.foldl min (l.headD 0)

/-- A translation fault of a cell step: counted for the partition unless the address is LOCAL (R260, R267). -/
def State.xltFault (s : State) (i p cause addr mask : Nat) (w : StepWord) : State :=
  (if localOf w then s else s.countXltFault p).cellFault i cause addr mask 0 none

/-! ## Tile loads and stores -/

/-- Load `rows` rows of n bytes, row r at `row r` (R264): all rows translate before any is changed. -/
def State.tileLoad (s : State) (i p : Nat) (w : StepWord) (rows n : Nat) (row : Nat → Nat) : State :=
  let rs := List.range rows
  let td := tdOf (s.cell i).cur w
  match rs.find? fun r => addr57 (row r) % 16 != 0 with
  | some r => s.cellFault i 3 (addr57 (row r)) 0 0 none
  | none =>
    let bad := rs.filterMap fun r => (s.wordUnmapped p (row r) n).map fun a => (r, a)
    if bad ≠ [] then s.xltFault i p 1 (lowest (bad.map Prod.snd)) ((bad.map fun e => 2 ^ e.1).sum) w else
    rs.foldl (fun s r =>
      let (d, s) := s.cellRead i p (row r) n
      s.modComp i fun c => c.setRow td r d.marked (d.bytes ++ zeros (256 - n))) s

/-- Store `rows` rows of n bytes (R265): each row translates on its own; where one is refused, which of the others were
written before the step ended is free. The lowest address refused is the first byte of the lowest refused row. -/
def State.tileStore (s : State) (i p : Nat) (w : StepWord) (rows n : Nat) (row : Nat → Nat) : State :=
  let rs := List.range rows
  let c := s.cell i
  let ta := taOf c.cur w
  match rs.find? fun r => addr57 (row r) % 16 != 0 with
  | some r => s.cellFault i 3 (addr57 (row r)) 0 0 none
  | none =>
    let bad := rs.filterMap fun r => (s.wordRefused p (row r) n).map fun a => (r, a)
    let put (s : State) (r : Nat) : State :=
      s.cellWrite i p (row r) (Data.mark (c.comp.rowMarked ta r) ((c.comp.row ta r).take n))
    if bad = [] then rs.foldl put s else
    let (free, s) := s.draw (2 ^ 64)
    let done := rs.filter fun r => free.testBit r && !bad.any fun e => e.1 == r
    let cause := if rs.any fun r => (s.wordUnmapped p (row r) n).isSome then 1 else 2
    (done.foldl put s).xltFault i p cause (lowest (bad.map fun e => addr57 (row e.1))) ((done.map fun r => 2 ^ r).sum) w

/-- Row bytes and row count of TLDS and TSTS (R69). -/
def strideBytes (w : StepWord) : Nat := min 256 ((imm16Of w % 32 + 1) * 16)
def strideRows (w : StepWord) : Nat := min 64 (fld w 94 88 + 1)

/-- TLD (R69, R264): 64 consecutive rows. -/
def execTld (g : Nat) (w : StepWord) (s : State) : Host.Outcome State Fault Refusal :=
  .next (s.issue 0x20 g w fun i p s => s.tileLoad i p w 64 256 fun r => (s.cell i).cur.addrAt w (256 * r))

/-- TST (R69, R265). -/
def execTst (g : Nat) (w : StepWord) (s : State) : Host.Outcome State Fault Refusal :=
  .next (s.issue 0x21 g w fun i p s => s.tileStore i p w 64 256 fun r => (s.cell i).cur.addrAt w (256 * r))

/-- TLDS (R69, R264): rows at a stride of SB. -/
def execTlds (g : Nat) (w : StepWord) (s : State) : Host.Outcome State Fault Refusal :=
  .next (s.issue 0x22 g w fun i p s =>
    s.tileLoad i p w (strideRows w) (strideBytes w) fun r => (s.cell i).cur.addrAt w ((s.cell i).cur.sb w * r))

/-- TSTS (R69, R265). -/
def execTsts (g : Nat) (w : StepWord) (s : State) : Host.Outcome State Fault Refusal :=
  .next (s.issue 0x23 g w fun i p s =>
    s.tileStore i p w (strideRows w) (strideBytes w) fun r => (s.cell i).cur.addrAt w ((s.cell i).cur.sb w * r))

/-! ## Moves between tile registers -/

/-- Rows and marks of register t. -/
def Compute.rowOf (c : Compute) (t : Nat) (r : Nat) : Bytes × Bool := (c.row t r, c.rowMarked t r)

/-- TMOV: TD ← TA with its row marks (R69, R215). -/
def execTmov (g : Nat) (w : StepWord) (s : State) : Host.Outcome State Fault Refusal :=
  .next (s.issue 0x24 g w fun i _ s =>
    let c := s.cell i
    s.modComp i fun x => x.setRows (tdOf c.cur w) (c.comp.rowOf (taOf c.cur w)))

/-- TSEL: TD ← TA if SC ≠ 0, else TB, with the marks of the register selected (R69, R215). -/
def execTsel (g : Nat) (w : StepWord) (s : State) : Host.Outcome State Fault Refusal :=
  .next (s.issue 0x0A g w fun i _ s =>
    let c := s.cell i
    let t := if c.cur.sc w ≠ 0 then taOf c.cur w else tbOf c.cur w
    s.modComp i fun x => x.setRows (tdOf c.cur w) (c.comp.rowOf t))

/-- TZERO: TD ← 0, clearing its marks (R69). -/
def execTzero (g : Nat) (w : StepWord) (s : State) : Host.Outcome State Fault Refusal :=
  .next (s.issue 0x25 g w fun i _ s =>
    s.modComp i fun x => x.setRows (tdOf (s.cell i).cur w) fun _ => (zeros 256, false))

/-- The element that TFILL broadcasts (R90): SA as FP32, or as a signed 64-bit integer for an integer FMTB. -/
def fillElem (f a : Nat) : Nat := encodeVal f (if fmtIsInt f then .ofInt (toSigned 64 a) else decodeVal 0 a)

/-- TFILL: TD ← SA, broadcast in FMTB (R69, R90). -/
def execTfill (g : Nat) (w : StepWord) (s : State) : Host.Outcome State Fault Refusal :=
  .next (s.issue 0x26 g w fun i _ s =>
    let x := (s.cell i).cur
    let f := fmtbOf w
    let row := packRow f (List.replicate (fmtCols f) (fillElem f (x.sa w)))
    s.modComp i fun c => c.setRows (tdOf x w) fun _ => (row, false))

/-- TTRN: TD ← the transpose of TA at width class 32; one marked source row marks every row of TD (R69, R215). -/
def execTtrn (g : Nat) (w : StepWord) (s : State) : Host.Outcome State Fault Refusal :=
  .next (s.issue 0x27 g w fun i _ s =>
    let c := s.cell i
    let ta := taOf c.cur w
    let src := (List.range 64).map fun r => rowElems 0 64 (c.comp.row ta r)
    let m := c.comp.anyMarked ta 64
    s.modComp i fun x => x.setRows (tdOf c.cur w) fun r => (packRow 0 (src.map fun l => l.getD r 0), m))

/-- TROW: one row of TD ← one row of TA, with its mark (R69, R215). -/
def execTrow (g : Nat) (w : StepWord) (s : State) : Host.Outcome State Fault Refusal :=
  .next (s.issue 0x28 g w fun i _ s =>
    let c := s.cell i
    let x := c.comp.rowOf (taOf c.cur w) (fld w 85 80)
    s.modComp i fun y => y.setRow (tdOf c.cur w) (fld w 93 88) x.2 x.1)

/-- TMASK clears each row r of TD for which bit r of SA is set, and its mark (R69, R215). -/
def execTmask (g : Nat) (w : StepWord) (s : State) : Host.Outcome State Fault Refusal :=
  .next (s.issue 0x29 g w fun i _ s =>
    let x := (s.cell i).cur
    s.modComp i fun c => ((List.range 64).filter fun r => (x.sa w).testBit r).foldl
      (fun c r => c.setRow (tdOf x w) r false (zeros 256)) c)

/-! ## SLD and SST (R59, R69, R245) -/

/-- The address lies in the cell's own scratchpad, so the read buffer does not take part (R245). -/
def State.ownScratch (s : State) (i p word : Nat) : Bool :=
  word.testBit 63 || match s.rangeAt p (addr57 word) with
    | some r => r.kind == 2 && some ((r.target (addr57 word) - 0x100000000000) / scratchSize) == (s.cell i).logical
    | none => false

/-- A live entry of the read buffer: at most 2 µs old (R245). -/
def State.bufferHit (s : State) (i v : Nat) : Option RbEntry :=
  (s.cell i).readBuf.find? fun e => e.block == v / 256 && s.now (.cell i) ≤ e.fill + 2000

/-- Put an entry in front of the read buffer, the least recently used of more than 16 leaving it (R245). -/
def State.bufferPut (s : State) (i : Nat) (e : RbEntry) : State :=
  s.modCell i fun c => { c with readBuf := (e :: c.readBuf.filter fun x => x.block != e.block).take 16 }

/-- SLD: SD ← 8 bytes at SA + IMM32; a mark of the buffered granule is carried with it (R71, R215). -/
def State.scalarLoad (s : State) (i p : Nat) (w : StepWord) : State :=
  let word := (s.cell i).cur.addrAt w 0
  let v := addr57 word
  if v % 8 ≠ 0 then s.cellFault i 3 v 0 0 none else
  match s.wordUnmapped p word 8 with
  | some a => s.xltFault i p 1 a 0 w
  | none =>
    let fin (s : State) (d : Data) : State :=
      if d.marked then s.cellFault i 4 v 0 0 none else s.setSd i w (leNat d.bytes)
    if s.ownScratch i p word then
      let (d, s) := s.cellRead i p word 8
      fin s d
    else match s.bufferHit i v with
    | some e => fin (s.bufferPut i e) (Data.mark (e.marks.testBit (v % 256 / 64)) ((e.data.drop (v % 256)).take 8))
    | none =>
      let (b, s) := s.cellRead i p (v / 256 * 256) 256
      let now := s.now (.cell i)
      let s := s.bufferPut i ⟨v / 256, now, b.bytes, poisonMask b⟩
      fin s ((b.drop (v % 256)).take 8)

/-- SLD (R69). -/
def execSld (g : Nat) (w : StepWord) (s : State) : Host.Outcome State Fault Refusal :=
  .next (s.issue 0x1B g w fun i p s => s.scalarLoad i p w)

/-- Replace n bytes at offset o. -/
def spliceBytes (b : Bytes) (o : Nat) (d : Bytes) : Bytes := b.take o ++ d ++ b.drop (o + d.length)

/-- SST: SA stored at SB + IMM32, in the storage and in a buffered block (R245). -/
def State.scalarStore (s : State) (i p : Nat) (w : StepWord) : State :=
  let x := (s.cell i).cur
  let word := addrWord w (x.sb w) (imm32Of w)
  let v := addr57 word
  if v % 8 ≠ 0 then s.cellFault i 3 v 0 0 none else
  match s.wordRefused p word 8 with
  | some a => s.xltFault i p (if (s.wordUnmapped p word 8).isSome then 1 else 2) a 0 w
  | none =>
    let d := leBytes 8 (x.sa w)
    let s := s.cellWrite i p word (Data.clean d)
    if word.testBit 63 then s else
    s.modCell i fun c => { c with
      readBuf := modWhere c.readBuf (fun e => e.block == v / 256) fun e => { e with data := spliceBytes e.data (v % 256) d } }

/-- SST (R69). -/
def execSst (g : Nat) (w : StepWord) (s : State) : Host.Outcome State Fault Refusal :=
  .next (s.issue 0x1C g w fun i p s => s.scalarStore i p w)

end Sys2Proof.Machine
end

