-- ==== Sys2Proof/Machine/Array.lean ====
section
/-! DEFINITION. The matrix array (R45 to R52, R91 to R97): MLOAD, MMA, MMAT and the distance steps. -/
namespace Sys2Proof.Machine

/-! ## Operands (R45, R46, R50) -/

/-- BIT operands of MDHAM are counted, not multiplied. -/
def arrayInt (fa : Nat) : Bool := fmtIsInt fa || fa == 11

/-- K of the wider width class (R45, R46). -/
def arrayK (fa fb : Nat) : Nat := min (fmtCols fa) (fmtCols fb)

/-- The scale mode that applies (R50, R51, R95). -/
def scaleMode (kind fa fb mode : Nat) : Nat :=
  if kind = 0x36 ∨ arrayInt fa ∨ 3 < mode then 0
  else if 2 ≤ mode ∧ arrayK fa fb = 64 then 0 else mode

/-- The value of a group-scale byte (R94). -/
def scaleVal (mode b : Nat) : Val := if mode = 3 then e4m3Scale b else e8m0 b

/-- An array step's operands, read once. -/
structure ArrayOp where
  kind : Nat
  int : Bool
  mode : Nat
  group : Nat
  klen : Nat
  acc : Bool
  tensor : Val
  deriving DecidableEq, Repr

/-- The fields of an array step (R47, R49, R50, R91, R96). -/
def arrayOp (x : Ctx) (w : StepWord) (kind : Nat) : ArrayOp :=
  let fa := fmtaOf w
  let fb := fmtbOf w
  let mode := scaleMode kind fa fb (modeOf w)
  let g := if 2 ≤ mode then groupOf w else 32
  { kind, int := arrayInt fa, mode
    group := if kind = 0x32 then min g 64 else g
    klen := if kind = 0x32 then 64 else max 1 (min (arrayK fa fb) (imm32Of w))
    acc := accOf w, tensor := decodeVal 0 (x.sb w) }

/-! ## One output (R91, R92, R94, R97) -/

/-- Rounding of a block value or a running sum: integers stay exact (R95). -/
def ArrayOp.rnd (o : ArrayOp) (v : Val) : Val := if o.int then v else rnd32 v

/-- The exact sum of a list of values. -/
def exactSum (l : List Val) : Val := l.foldl Val.add (.zero false)

/-- The value c of one block from its scaled elements (R92, R97); a value that is exactly zero is +0, one that rounds to zero keeps
its sign (R88). -/
def ArrayOp.block (o : ArrayOp) (l : List (Val × Val)) : Val :=
  let v : Val := match o.kind with
    | 0x33 => exactSum (l.map fun e => let d := e.1.sub e.2; d.mul d)
    | 0x34 => (exactSum (l.map fun e => e.1.mul e.2)).neg
    | 0x35 => exactSum (l.map fun e => (e.1.sub e.2).abs)
    | 0x37 => best true (l.map fun e => e.1.mul e.2)
    | 0x38 => best false (l.map fun e => e.1.mul e.2)
    | _ => exactSum (l.map fun e => e.1.mul e.2)
  o.rnd v.plusZero
where
  best (keepMax : Bool) (l : List Val) : Val :=
    match l with | [] => .zero false | v :: l => l.foldl (Val.select keepMax) v

/-- Combine a running value with the next (R92, R97). -/
def ArrayOp.combine (o : ArrayOp) (v c : Val) : Val :=
  match o.kind with
  | 0x37 => Val.select true v c
  | 0x38 => Val.select false v c
  | _ => o.rnd (v.add c).plusZero

/-- One output: blocks in increasing order, the tensor scale, then the accumulation (R92, R95, R97). -/
def ArrayOp.output (o : ArrayOp) (prev : Nat) (l : List (Val × Val)) : Nat :=
  let f := if o.int then 10 else 0
  let cs := (List.range ((l.length + o.group - 1) / o.group)).map fun b =>
    o.block ((l.drop (o.group * b)).take o.group)
  let v := match cs with | [] => .zero false | c :: cs => cs.foldl o.combine c
  let v := if o.mode = 1 then rnd32 (v.mul o.tensor).plusZero else v
  let v := if o.acc then o.combine (decodeVal f prev).plusZero v else v
  encodeVal f v

/-- Number of set bits among the n low bits. -/
def popcount (n v : Nat) : Nat := ((List.range n).filter fun k => v.testBit k).length

/-- One output of MDHAM: differing bits below KLEN, with a saturating accumulation (R51, R95). -/
def hamming (klen : Nat) (acc : Bool) (prev a b : Nat) : Nat :=
  let n : Int := (popcount klen (a ^^^ b) : Nat)
  let v := if acc then satInt 32 (toSigned 32 prev + n) else n
  (v % 2 ^ 32).toNat

/-! ## Rows of operands -/

/-- n elements of a row multiplied exactly by their group scales (R92, R96, R97). -/
def ArrayOp.scaled (o : ArrayOp) (f n : Nat) (row scales : Bytes) : List Val :=
  let l := (rowElems f n row).map (decodeVal f)
  if 2 ≤ o.mode then l.mapIdx fun k v => v.mul (scaleVal o.mode (byteAt scales (k / o.group))) else l

/-- Row j of the stationary operand and its scale bytes (R48, R50). -/
def Compute.statRow (c : Compute) (j : Nat) : Bytes := (c.stat.read 256 (256 * j) 256).bytes
def Compute.statScales (c : Compute) (j : Nat) : Bytes := (c.scales.read 16 (16 * j) 16).bytes

/-- The 64 outputs of streamed row r for the steps that reduce along k (R47, R51, R97). -/
def ArrayOp.rowOut (o : ArrayOp) (c : Compute) (fa ta tb td r : Nat) (stat : List (List Val)) : List Nat :=
  let prev := rowElems 0 64 (c.row td r)
  if o.kind = 0x36 then
    (List.range 64).map fun j => hamming o.klen o.acc (prev.getD j 0) (leNat (c.row ta r)) (leNat (c.statRow j))
  else
    let a := o.scaled fa o.klen (c.row ta r) (c.row tb r)
    stat.mapIdx fun j s => o.output (prev.getD j 0) (a.zip s)

/-- Column k of a list of rows. -/
def column (l : List (List Val)) (k : Nat) : List Val := l.map fun r => r.getD k (.zero false)

/-- Output columns 64m to 64m + 63 of streamed row r of MMAT (R49, R96). -/
def ArrayOp.rowOutT (o : ArrayOp) (c : Compute) (fa ta tb td r m : Nat) (stat : List (List Val)) : List Nat :=
  let prev := rowElems 0 64 (c.row td r)
  let a := o.scaled fa 64 (c.row ta r) (c.row tb r)
  (List.range 64).map fun q => o.output (prev.getD q 0) (a.zip (column stat (64 * m + q)))

/-- Destination registers of an array step: K / 64 of them for MMAT (R49). Where IXSEL leaves a TD from which they would run past
t31, or that is no multiple of K / 64, they are (TD + m) mod 32 (DESIGN CHOICE, log entry 49). -/
def arrayDest (x : Ctx) (w : StepWord) (kind : Nat) : List Nat :=
  let n := if kind = 0x32 then arrayK (fmtaOf w) (fmtbOf w) / 64 else 1
  (List.range n).map fun m => (tdOf x w + m) % 32

/-- An array step reads a marked row (R71, R215): the streamed rows, their scales in a group mode, every stationary row,
and the destination rows with ACC. -/
def Compute.arrayMarked (c : Compute) (o : ArrayOp) (ta tb rows : Nat) (outs : List Nat) : Bool :=
  c.anyMarked ta rows || !c.stat.poison.isEmpty
    || (2 ≤ o.mode && (c.anyMarked tb rows || !c.scales.poison.isEmpty))
    || (o.acc && outs.any fun t => c.anyMarked t rows)

/-- The effect of an array step on the destination registers. -/
def Compute.arrayRun (c : Compute) (o : ArrayOp) (fa fb ta tb rows : Nat) (outs : List Nat) : Compute :=
  let n := if o.kind = 0x32 then arrayK fa fb else o.klen
  let stat := if o.kind = 0x36 then [] else
    (List.range 64).map fun j => o.scaled fb n (c.statRow j) (c.statScales j)
  (List.range rows).foldl (fun y r =>
    (outs.mapIdx fun m t => (m, t)).foldl (fun y e =>
      let l := if o.kind = 0x32 then o.rowOutT c fa ta tb e.2 r e.1 stat else o.rowOut c fa ta tb e.2 r stat
      y.setRow e.2 r false (packRow 0 l)) y) c

/-- Cycles per streamed row (R45). -/
def arrayCycles (fa fb : Nat) : Nat := if arrayK fa fb = 64 then 8 else 4

/-- An array step (R47, R49, R51, R52, R72): `bad` says that the residue check fails. In a shadowed layer the CRC of the
destination registers is formed (R415). -/
def State.arrayStep (s : State) (i : Nat) (w : StepWord) (kind : Nat) (bad : Bool) : State :=
  let c := s.cell i
  let x := c.cur
  let o := arrayOp x w kind
  let fa := fmtaOf w
  let fb := fmtbOf w
  let rows := rowsOf w
  let outs := arrayDest x w kind
  let tb := tbOf x w
  if c.comp.arrayMarked o (taOf x w) tb rows outs then
    (s.scramble i outs).cellFault i 4 0 0 0 none
  else
    let s := s.modCell i fun c => c.count fun n =>
      { n with arrayBusy := n.arrayBusy + BitVec.ofNat 64 (rows * arrayCycles fa fb) }
    if bad then (s.scramble i outs).cellFault i 5 0 0 0 none else
    let s := s.modComp i fun c => c.arrayRun o fa fb (taOf x w) tb rows outs
    if c.pend.shadow then
      let y := (s.cell i).comp
      let d := outs.flatMap fun t => (y.tiles.read 256 (rowAddr t 0) 16384).bytes
      s.modCell i fun c => { c with pend := { c.pend with shadowCrc := c.pend.shadowCrc ++ [BitVec.ofNat 32 (crc32c d)] } }
    else s

/-! ## MLOAD (R48, R50) -/

/-- MLOAD: the stationary buffer ← TA, its scales ← bytes 0 to 15 of each row of TB, with their marks (R48, R50, R215). -/
def State.arrayLoad (s : State) (i : Nat) (w : StepWord) : State :=
  let c := s.cell i
  let ta := taOf c.cur w
  let tb := tbOf c.cur w
  let stat := (List.range 64).foldl (fun st r =>
    st.write 256 (256 * r) (Data.mark (c.comp.rowMarked ta r) (c.comp.row ta r))) Store.empty
  let scales := (List.range 64).foldl (fun st r =>
    st.write 16 (16 * r) (Data.mark (c.comp.rowMarked tb r) ((c.comp.row tb r).take 16))) Store.empty
  (s.modComp i fun y => { y with stat, scales }).modCell i fun c => c.count fun n => { n with mloadStall := n.mloadStall + 64 }

/-- MLOAD (R48). -/
def execMload (g : Nat) (w : StepWord) (s : State) : Host.Outcome State Fault Refusal :=
  .next (s.issue 0x30 g w fun i _ s => s.arrayLoad i w)

/-! ## Array steps (R69) -/

/-- MMA (R47, R92). -/
def execMma (g : Nat) (w : StepWord) (bad : Bool) (s : State) : Host.Outcome State Fault Refusal :=
  .next (s.issue 0x31 g w fun i _ s => s.arrayStep i w 0x31 bad)

/-- MMAT (R49, R96). -/
def execMmat (g : Nat) (w : StepWord) (bad : Bool) (s : State) : Host.Outcome State Fault Refusal :=
  .next (s.issue 0x32 g w fun i _ s => s.arrayStep i w 0x32 bad)

/-- MDL2 (R51, R97). -/
def execMdl2 (g : Nat) (w : StepWord) (bad : Bool) (s : State) : Host.Outcome State Fault Refusal :=
  .next (s.issue 0x33 g w fun i _ s => s.arrayStep i w 0x33 bad)

/-- MDNIP (R51, R97). -/
def execMdnip (g : Nat) (w : StepWord) (bad : Bool) (s : State) : Host.Outcome State Fault Refusal :=
  .next (s.issue 0x34 g w fun i _ s => s.arrayStep i w 0x34 bad)

/-- MDL1 (R51, R97). -/
def execMdl1 (g : Nat) (w : StepWord) (bad : Bool) (s : State) : Host.Outcome State Fault Refusal :=
  .next (s.issue 0x35 g w fun i _ s => s.arrayStep i w 0x35 bad)

/-- MDHAM (R51, R95). -/
def execMdham (g : Nat) (w : StepWord) (bad : Bool) (s : State) : Host.Outcome State Fault Refusal :=
  .next (s.issue 0x36 g w fun i _ s => s.arrayStep i w 0x36 bad)

/-- MDMAX (R51, R97). -/
def execMdmax (g : Nat) (w : StepWord) (bad : Bool) (s : State) : Host.Outcome State Fault Refusal :=
  .next (s.issue 0x37 g w fun i _ s => s.arrayStep i w 0x37 bad)

/-- MDMIN (R51, R97). -/
def execMdmin (g : Nat) (w : StepWord) (bad : Bool) (s : State) : Host.Outcome State Fault Refusal :=
  .next (s.issue 0x38 g w fun i _ s => s.arrayStep i w 0x38 bad)

end Sys2Proof.Machine
end

