-- ==== Sys2Proof/Machine/Crypto.lean ====
section
/-! DEFINITION. SHA-384 (FIPS 180-4) and ECDSA P-384 verification (FIPS 186-5), which R287, R289, R428 and R452 name. -/
namespace Sys2Proof.Machine

/-! ## SHA-384 -/

/-- The initial hash value. -/
def shaInit : List Word :=
  [0xcbbb9d5dc1059ed8, 0x629a292a367cd507, 0x9159015a3070dd17, 0x152fecd8f70e5939,
   0x67332667ffc00b31, 0x8eb44a8768581511, 0xdb0c2e0d64f98fa7, 0x47b5481dbefa4fa4]

/-- The round constants, twenty at a time. -/
def shaK0 : List Word :=
  [0x428a2f98d728ae22, 0x7137449123ef65cd, 0xb5c0fbcfec4d3b2f, 0xe9b5dba58189dbbc,
   0x3956c25bf348b538, 0x59f111f1b605d019, 0x923f82a4af194f9b, 0xab1c5ed5da6d8118,
   0xd807aa98a3030242, 0x12835b0145706fbe, 0x243185be4ee4b28c, 0x550c7dc3d5ffb4e2,
   0x72be5d74f27b896f, 0x80deb1fe3b1696b1, 0x9bdc06a725c71235, 0xc19bf174cf692694,
   0xe49b69c19ef14ad2, 0xefbe4786384f25e3, 0x0fc19dc68b8cd5b5, 0x240ca1cc77ac9c65]
def shaK1 : List Word :=
  [0x2de92c6f592b0275, 0x4a7484aa6ea6e483, 0x5cb0a9dcbd41fbd4, 0x76f988da831153b5,
   0x983e5152ee66dfab, 0xa831c66d2db43210, 0xb00327c898fb213f, 0xbf597fc7beef0ee4,
   0xc6e00bf33da88fc2, 0xd5a79147930aa725, 0x06ca6351e003826f, 0x142929670a0e6e70,
   0x27b70a8546d22ffc, 0x2e1b21385c26c926, 0x4d2c6dfc5ac42aed, 0x53380d139d95b3df,
   0x650a73548baf63de, 0x766a0abb3c77b2a8, 0x81c2c92e47edaee6, 0x92722c851482353b]
def shaK2 : List Word :=
  [0xa2bfe8a14cf10364, 0xa81a664bbc423001, 0xc24b8b70d0f89791, 0xc76c51a30654be30,
   0xd192e819d6ef5218, 0xd69906245565a910, 0xf40e35855771202a, 0x106aa07032bbd1b8,
   0x19a4c116b8d2d0c8, 0x1e376c085141ab53, 0x2748774cdf8eeb99, 0x34b0bcb5e19b48a8,
   0x391c0cb3c5c95a63, 0x4ed8aa4ae3418acb, 0x5b9cca4f7763e373, 0x682e6ff3d6b2b8a3,
   0x748f82ee5defb2fc, 0x78a5636f43172f60, 0x84c87814a1f0ab72, 0x8cc702081a6439ec]
def shaK3 : List Word :=
  [0x90befffa23631e28, 0xa4506cebde82bde9, 0xbef9a3f7b2c67915, 0xc67178f2e372532b,
   0xca273eceea26619c, 0xd186b8c721c0c207, 0xeada7dd6cde0eb1e, 0xf57d4f7fee6ed178,
   0x06f067aa72176fba, 0x0a637dc5a2c898a6, 0x113f9804bef90dae, 0x1b710b35131c471b,
   0x28db77f523047d84, 0x32caab7b40c72493, 0x3c9ebe0a15c9bebc, 0x431d67c49c100d4c,
   0x4cc5d4becb3e42b6, 0x597f299cfc657e2a, 0x5fcb6fab3ad6faec, 0x6c44198c4a475817]

/-- The padded message: a one bit, zeros, and the length in bits as 128 bits. -/
def shaPad (m : Bytes) : Bytes :=
  m ++ [0x80] ++ List.replicate ((239 - m.length % 128) % 128) 0
    ++ (List.range 16).map fun k => BitVec.ofNat 8 (8 * m.length / 256 ^ (15 - k))

/-- A big-endian number. -/
def beNat (b : Bytes) : Nat := b.foldl (fun a x => 256 * a + x.toNat) 0
/-- The n-byte big-endian form of a number. -/
def beBytes (n v : Nat) : Bytes := (List.range n).map fun k => BitVec.ofNat 8 (v / 256 ^ (n - 1 - k))

/-- The 80 words of the message schedule, the latest first, from the words so far. -/
def shaExtend : Nat → List Word → List Word
  | 0, w => w
  | n + 1, w =>
    let x := w.getD 1 0
    let y := w.getD 14 0
    let s1 := x.rotateRight 19 ^^^ x.rotateRight 61 ^^^ (x >>> 6)
    let s0 := y.rotateRight 1 ^^^ y.rotateRight 8 ^^^ (y >>> 7)
    shaExtend n ((s1 + w.getD 6 0 + s0 + w.getD 15 0) :: w)

/-- The eight working variables. -/
structure Sha where
  a : Word
  b : Word
  c : Word
  d : Word
  e : Word
  f : Word
  g : Word
  h : Word
  deriving DecidableEq, Repr

/-- One round with its constant plus schedule word. -/
def Sha.round (v : Sha) (k : Word) : Sha :=
  let t1 := v.h + (v.e.rotateRight 14 ^^^ v.e.rotateRight 18 ^^^ v.e.rotateRight 41) + ((v.e &&& v.f) ^^^ (~~~v.e &&& v.g)) + k
  let t2 := (v.a.rotateRight 28 ^^^ v.a.rotateRight 34 ^^^ v.a.rotateRight 39)
    + ((v.a &&& v.b) ^^^ (v.a &&& v.c) ^^^ (v.b &&& v.c))
  ⟨t1 + t2, v.a, v.b, v.c, v.d + t1, v.e, v.f, v.g⟩

/-- The hash value after one block of 128 bytes. -/
def shaBlock (h : List Word) (blk : Bytes) : List Word :=
  let w16 := (List.range 16).map fun k => BitVec.ofNat 64 (beNat ((blk.drop (8 * k)).take 8))
  let w := (shaExtend 64 w16.reverse).reverse
  let x (k : Nat) : Word := h.getD k 0
  let v := (w.zip (shaK0 ++ shaK1 ++ shaK2 ++ shaK3)).foldl (fun (v : Sha) p => v.round (p.1 + p.2))
    ⟨x 0, x 1, x 2, x 3, x 4, x 5, x 6, x 7⟩
  [x 0 + v.a, x 1 + v.b, x 2 + v.c, x 3 + v.d, x 4 + v.e, x 5 + v.f, x 6 + v.g, x 7 + v.h]

/-- SHA-384 of a byte string. -/
def sha384 (m : Bytes) : Bytes :=
  let p := shaPad m
  let h := (List.range (p.length / 128)).foldl (fun h k => shaBlock h ((p.drop (128 * k)).take 128)) shaInit
  (h.take 6).flatMap fun w => beBytes 8 w.toNat

/-! ## P-384 -/

/-- The field prime, the coefficient b (a is −3), the base point and its order. -/
def p384 : Nat := 2 ^ 384 - 2 ^ 128 - 2 ^ 96 + 2 ^ 32 - 1
def p384B : Nat := 0xb3312fa7e23ee7e4988e056be3f82d19181d9c6efe8141120314088f5013875ac656398d8a2ed19d2a85c8edd3ec2aef
def p384X : Nat := 0xaa87ca22be8b05378eb1c71ef320ad746e1d3b628ba79b9859f741e082542a385502f25dbf55296c3a545e3872760ab7
def p384Y : Nat := 0x3617de4a96262c6f5d9e98bf9292dc29f8f41dbd289a147ce9da3113b5f0b8c00a60b1ce1d7e819d7a431d7c90ea0e5f
def p384N : Nat := 0xffffffffffffffffffffffffffffffffffffffffffffffffc7634d81f4372ddf581a0db248b0a77aecec196accc52973

/-- b to the power e modulo m, for an exponent below 2^384. -/
def powMod (m b e : Nat) : Nat :=
  (List.range 384).foldl (fun a k => let q := a * a % m; if e.testBit (383 - k) then q * b % m else q) (1 % m)
/-- The inverse modulo a prime. -/
def invMod (m a : Nat) : Nat := powMod m a (m - 2)

/-- A point of the curve in Jacobian coordinates; z = 0 at infinity. -/
structure Point where
  x : Nat
  y : Nat
  z : Nat
  deriving DecidableEq, Repr

/-- Difference in the field. -/
def fieldSub (a b : Nat) : Nat := (a + (p384 - b % p384)) % p384

/-- The double of a point. -/
def Point.double (q : Point) : Point :=
  let zz := q.z * q.z % p384
  let yy := q.y * q.y % p384
  let a := 3 * fieldSub q.x zz * ((q.x + zz) % p384) % p384
  let b := q.x * yy % p384
  let x := fieldSub (a * a) (8 * b)
  ⟨x, fieldSub (a * fieldSub (4 * b) x) (8 * yy * yy), 2 * q.y * q.z % p384⟩

/-- The sum of two points. -/
def Point.add (q r : Point) : Point :=
  if q.z = 0 then r else if r.z = 0 then q else
  let qq := q.z * q.z % p384
  let rr := r.z * r.z % p384
  let u := q.x * rr % p384
  let s := q.y * rr % p384 * r.z % p384
  let h := fieldSub (r.x * qq) u
  let d := fieldSub (r.y * qq % p384 * q.z) s
  if h = 0 then (if d = 0 then q.double else ⟨1, 1, 0⟩) else
  let hh := h * h % p384
  let hhh := h * hh % p384
  let v := u * hh % p384
  let x := fieldSub (d * d) (hhh + 2 * v)
  ⟨x, fieldSub (d * fieldSub v x) (s * hhh), h * q.z % p384 * r.z % p384⟩

/-- k times a point. -/
def Point.scale (k : Nat) (q : Point) : Point :=
  (List.range 384).foldl (fun (a : Point) n => if k.testBit (383 - n) then a.double.add q else a.double) ⟨1, 1, 0⟩

/-- ECDSA P-384 verification: the public key as an uncompressed point of 97 bytes, the digest, r and s. -/
def ecdsaVerify (key digest : Bytes) (r s : Nat) : Bool :=
  let x := beNat ((key.drop 1).take 48)
  let y := beNat ((key.drop 49).take 48)
  let w := invMod p384N s
  let q := (Point.scale (beNat digest * w % p384N) ⟨p384X, p384Y, 1⟩).add (Point.scale (r * w % p384N) ⟨x, y, 1⟩)
  key.length == 97 && key.getD 0 0 == 4 && decide (x < p384) && decide (y < p384)
    && y * y % p384 == (x * x * x + (p384 - 3) * x + p384B) % p384
    && decide (1 ≤ r ∧ r < p384N ∧ 1 ≤ s ∧ s < p384N) && q.z != 0
    && q.x * invMod p384 (q.z * q.z % p384) % p384 % p384N == r

end Sys2Proof.Machine
end

