-- ==== Sys2Proof/Machine/Bays.lean ====
section
/-! DEFINITION. Cartridge bays as the cold tier sees them (R142, R427 to R433): which bay serves a serial, reads and
write-backs, the life states and the cartridge faults. -/
namespace Sys2Proof.Machine

/-- Bay states that serve reads: GOOD, WORN and READ_ONLY (R429). -/
def Bay.reads (b : Bay) : Bool := b.st == 2 || b.st == 3 || b.st == 4
/-- Bay states that serve writes: GOOD and WORN. -/
def Bay.writes (b : Bay) : Bool := b.st == 2 || b.st == 3

/-- The bay that carries a serial (R432). -/
def State.bayOf (s : State) (serial : Bytes) : Option Nat :=
  s.carts.bays.findIdx? fun b => b.present && b.serial == serial && b.st != 0

/-- WRITTEN (R430): the larger of the steward's count for the serial and the SMART page's. -/
def State.bayWritten (s : State) (b : Nat) : Nat :=
  let x := s.bay b
  max (((s.carts.written.find? fun e => e.1 == x.serial).map Prod.snd).getD 0) x.smartWritten

/-- Add to the bytes written of a serial, kept for the last 16 serials inserted. -/
def State.addWritten (s : State) (serial : Bytes) (n : Nat) : State :=
  s.modCarts fun c => { c with written := c.written.map fun e => if e.1 = serial then (e.1, e.2 + n) else e }

/-- A CART_FAULT (R433): H subcodes count at the link's record; a cartridge judged permanent on READ_ERROR or WRITE_ERROR
becomes RETIRED, a link on LINK is retrained once at × 2 and then OFFLINE. -/
def State.cartReport (s : State) (r : Report) : State :=
  let u := r.unit
  let b := u.index
  let sub := r.subcode
  let sev := if sub = 6 ∨ sub = 10 then 0 else if sub = 9 then 1 else if sub = 4 ∨ sub = 5 then 2 else 3
  let alert (s : State) : State := s.modHealth fun h => { h with alert := h.alert ||| 0x20 }
  let s := (s.fileReport r sev 0).2
  let s := if sub = 1 ∨ sub = 2 ∨ sub = 3 ∨ sub = 6 ∨ sub = 7 ∨ sub = 8 then alert s else s
  if sub ≠ 4 ∧ sub ≠ 5 ∧ sub ≠ 9 then s else
  let was := (s.lark u).permanent
  let s := s.countIncident u 0x17
  if was ∨ !(s.lark u).permanent then s else
  if sub = 9 then
    if (s.bay b).linkPerm = 0 then
      (s.modBay b fun x => { x with linkPerm := 1, width := min x.width 2 }).modLark u fun l => { l with permanent := false }
    else alert (s.modBay b fun x => { x with linkPerm := 2, st := 8 })
  else
    let s := s.modBay b fun x => { x with st := if x.reads then 5 else x.st }
    alert (s.fileReport { r with subcode := 3 } 3 0).2

/-- A cartridge event that the module itself finds: stamped by the cartridge controller (R29). -/
def State.cartFault (s : State) (b sub : Nat) : State :=
  s.cartReport (stewardReport 0x17 ⟨0x0D, b, 0⟩ sub 0 0 (s.now .cartridge))

/-- Decide the life state of a bay (R430), reporting a change; `warn` is the SMART critical warning and `fatal` the
controller's fatal status. -/
def State.decideLife (s : State) (b : Nat) (warn : BitVec 8) (fatal : Bool) : State :=
  let x := s.bay b
  if !x.reads then s else
  let w := s.bayWritten b
  if warn.getLsbD 2 ∨ fatal then (s.modBay b fun x => { x with st := 5 }).cartFault b 3
  else if x.st ≠ 4 ∧ (x.endurance ≤ w ∨ warn.getLsbD 3) then (s.modBay b fun x => { x with st := 4 }).cartFault b 7
  else if x.st = 2 ∧ (8 * x.endurance ≤ 10 * w ∨ warn.getLsbD 0) then (s.modBay b fun x => { x with st := 3 }).cartFault b 6
  else s

/-- Issue an NVMe command to a bay (R427). -/
def State.nvme (s : State) (b kind lba stack : Nat) (ref : Nat × Nat × Nat) (data : Bytes) (unc : Bool) : State :=
  (s.modBay b fun x => { x with cmds := x.cmds ++ [⟨s.carts.nextId, kind, lba, stack, ref, data, unc⟩] }).modCarts fun c =>
    { c with nextId := c.nextId + 1 }

/-- Issue a write of one page where the life state, decided now, takes it (R430); a write refused in READ_ONLY is counted.
True where it was issued. -/
def State.nvmeWrite (s : State) (b kind lba stack : Nat) (ref : Nat × Nat × Nat) (data : Bytes) (unc : Bool) : Bool × State :=
  let s := s.decideLife b 0 false
  if (s.bay b).writes then (true, s.nvme b kind lba stack ref (if unc then [] else data) unc)
  else (false, s.modBay b fun x => if x.st = 4 then { x with wrRefused := x.wrRefused + 1 } else x)

/-- The cartridge and block of a cold page: serial, bay that serves it, and logical block (R142, R432). -/
def State.coldPlace (s : State) (ep : Epoch) (page : Nat) : Option (Bytes × Nat × Nat) :=
  match ep.serials[page % max 1 ep.serials.length]? with
  | none => none
  | some (_, serial) =>
    match s.bayOf serial with
    | none => none
    | some b => if (s.bay b).reads then some (serial, b, ep.lba + page / ep.serials.length) else none

/-- The bay with a command of a kind for a stack's page of a table's epoch still out. -/
def State.nvmeOut (s : State) (kind stack : Nat) (ref : Nat × Nat × Nat) : Option Nat :=
  s.carts.bays.findIdx? fun b => b.cmds.any fun c => c.kind == kind && c.stack == stack && c.ref == ref

/-! ## Landing pages (R162, R165) -/

/-- The partition of a table. -/
def State.tablePart (s : State) (t : Nat) : Option Nat := (s.tables.find? fun e => e.table == t).map (·.part)

/-- Start the write-back of a dirty landing page of stack k; where it is refused the page stays dirty and pinned. A page that a
MIGRATE has already copied is also written to its destination (R436). A page with a mark is written with Write Uncorrectable
(R215). -/
def State.writeBack (s : State) (k : Nat) (l : Landing) : State :=
  let set (s : State) (f : Landing → Landing) : State := s.modEngine k fun e =>
    { e with landing := modWhere e.landing (fun y => y.table == l.table && y.epoch == l.epoch && y.page == l.page) f }
  match s.bayOf l.serial with
  | none => set s fun y => { y with pinned := true }
  | some b =>
    let part := s.tablePart l.table
    let ref := (l.table, l.epoch, l.page)
    let (ok, s) := s.nvmeWrite b 1 l.lba k ref l.data (!l.marks.isEmpty)
    if ok then
      let c := s.carts
      let s := if c.busy ∧ c.op = 3 ∧ c.bay = b ∧ c.lba ≤ l.lba ∧ l.lba < c.lba + c.progress
        then (s.nvmeWrite c.dest 6 l.lba k ref l.data (!l.marks.isEmpty)).2 else s
      (set s fun y => { y with writing := true, dirty := false }).bursts k part 64 0
    else set s fun y => { y with pinned := true }

end Sys2Proof.Machine
end

