-- ==== Sys2Proof/Machine/NetSend.lean ====
section
/-! DEFINITION. Sending on a connection of the Caernic transport (R356 to R362). -/
namespace Sys2Proof.Machine

/-- A connection with nothing sent (R358). -/
def Conn.fresh (k : Nat) : Conn :=
  { k, st := 0, tx := 0, rx := 0, unacked := [], waiting := [], oldest := 0, tries := 0, nextMsg := 0, got := [], sak := List.replicate 16 0 }

def State.conn (s : State) (k : Nat) : Conn := (s.net.conns.find? (fun c => c.k == k)).getD (.fresh k)

/-- Change a connection, making it where there is none. -/
def State.modConn (s : State) (k : Nat) (f : Conn → Conn) : State :=
  s.modNet fun n =>
    if n.conns.any (fun c => c.k == k) then { n with conns := modWhere n.conns (fun c => c.k == k) f }
    else { n with conns := n.conns ++ [f (.fresh k)] }

/-- NET_PEER_CFG of entry k (R375). -/
def State.peerCfg (s : State) (k : Nat) : Nat := s.reg (peerBase k + 0x10)
def State.peerPart (s : State) (k : Nat) : Nat := bits (s.peerCfg k) 5 2
def State.peerSrc (s : State) (k : Nat) : Nat := bits (s.peerCfg k) 19 12

/-- The port that connection k sends on (R357): the (k mod u)-th up port of its mask. -/
def State.connPort (s : State) (k : Nat) : Option Nat :=
  let up := (List.range s.net.ports.length).filter fun n =>
    (bits (s.peerCfg k) 27 20).testBit n && (s.net.ports.getD n .fresh).up
  if up = [] then none else up[k % up.length]?

/-- ACK, NAK and REDO carry the LC priority (R359). -/
def frameLc (f : Frame) : Bool :=
  let t := bits f.w0.toNat 7 4
  t == 10 || t == 11 || t == 12 || !f.w0.toNat.testBit 11

/-- A PFC pause on the frame's priority is in force at the port (R359). -/
def State.paused (s : State) (port : Nat) (f : Frame) : Bool :=
  let p := s.net.ports.getD port .fresh
  if frameLc f then p.pausedLc else p.pausedBe

/-- Put a frame on a port, ACK_PSN as of now (R358). -/
def State.emit (s : State) (port k : Nat) (f : Frame) : State :=
  let w1 := f.w1.toNat / 2 ^ 24 * 2 ^ 24 + (s.conn k).rx.toNat
  s.modNet fun n => { n with
    out := n.out ++ [(port, { f with w1 := BitVec.ofNat 64 w1 })]
    ports := n.ports.modify port fun p => { p with tx := p.tx + 1 } }

/-- Send the waiting frames of a connection in PSN order, as far as the window, the port and PFC let them (R357 to R359). -/
def State.netPumpN (k : Nat) : Nat → State → State
  | 0, s => s
  | n + 1, s =>
    let c := s.conn k
    match c.waiting, s.connPort k with
    | f :: l, some port =>
      if c.st ≠ 1 ∨ 4096 ≤ c.unacked.length ∨ s.paused port f then s else
      let now := s.now .network
      let s := s.modConn k fun c => { c with
        waiting := l, unacked := c.unacked ++ [f], oldest := if c.unacked = [] then now else c.oldest }
      State.netPumpN k n (s.emit port k f)
    | _, _ => s

def State.netPump (s : State) (k : Nat) : State := State.netPumpN k (s.conn k).waiting.length s

/-- A frame of the Caernic header (R361). -/
def netFrame (k type : Nat) (final last : Bool) (cls : Cls) (psn ack stream len msg addr mask : Nat) (payload : Bytes) : Frame :=
  { w0 := BitVec.ofNat 64 (1 + 16 * type + 2 ^ 8 * b2n final + 2 ^ 9 * b2n last + 2 ^ 11 * (match cls with | .lc => 0 | .be => 1)
      + 2 ^ 12 * (Config.remoteConn k % 1024) + 2 ^ 22 * k + 2 ^ 32 * psn)
    w1 := BitVec.ofNat 64 (ack + 2 ^ 24 * stream + 2 ^ 32 * len + 2 ^ 48 * (msg % 65536))
    w2 := BitVec.ofNat 64 (addr57 addr), w3 := BitVec.ofNat 64 mask, payload }

/-- Number a frame on connection k and send it when it may leave; a connection that is not UP discards it (R358). -/
def State.netSend (s : State) (k type : Nat) (final last : Bool) (cls : Cls) (stream msg addr : Nat) (d : Data) : State :=
  let c := s.conn k
  if c.st ≠ 1 then s else
  let f := netFrame k type final last cls c.tx.toNat c.rx.toNat stream d.length msg addr (poisonMask d) d.bytes
  (s.modConn k fun c => { c with tx := c.tx + 1, waiting := c.waiting ++ [f] }).netPump k

/-- A message in consecutive frames of 4,096 bytes (R361); FINAL marks the last. -/
def State.netMessage (s : State) (k type : Nat) (final : Bool) (cls : Cls) (stream msg addr : Nat) (d : Data) : State :=
  let n := max 1 ((d.length + 4095) / 4096)
  (List.range n).foldl (fun s i =>
    s.netSend k type (final && i + 1 == n) (i + 1 == n) cls stream msg (addr + 4096 * i) ((d.drop (4096 * i)).take 4096)) s

/-- The next message number of a connection (R361). -/
def State.newMsg (s : State) (k : Nat) : Nat × State :=
  ((s.conn k).nextMsg, s.modConn k fun c => { c with nextMsg := (c.nextMsg + 1) % 65536 })

/-- DONE of message msg (R362, R365): status, bytes, the remote status and count of R119, and a record. -/
def State.netDone (s : State) (k msg : Nat) (cls : Cls) (stream status bytes tok : Nat) (rec : Bytes) : State :=
  s.netMessage k 7 false cls stream msg 0 (Data.clean (ofWords [status + 2 ^ 32 * bytes, tok] ++ rec))

/-- A frame outside the sequence: ACK or NAK, header only (R358, R362). -/
def State.netHeader (s : State) (k type : Nat) : State :=
  let c := s.conn k
  match s.connPort k with
  | some port =>
    if c.st ≠ 1 then s else s.emit port k (netFrame k type false true .lc c.tx.toNat c.rx.toNat 0 0 0 0 0 [])
  | none => s

end Sys2Proof.Machine
end

