-- ==== Sys2Proof/Machine/Tables.lean ====
section
/-! DEFINITION. Tables: catalogue fields (R140), homes and storage (R141, R142, R200), epochs and bindings (R143 to R149),
sketches (R154, R161) and rows in the row formats (R110, R111, R127). -/
namespace Sys2Proof.Machine

/-! ## Catalogue (R140) -/

namespace TableEntry
def fmt (e : TableEntry) : Nat := bits e.w0.toNat 15 12
/-- L in bytes. -/
def len (e : TableEntry) : Nat := 16 * (bits e.w0.toNat 21 16 + 1)
/-- D, elements per row. -/
def elems (e : TableEntry) : Nat := bits e.w0.toNat 42 32
def mask (e : TableEntry) : Nat := bits e.w0.toNat 63 48
def maxRows (e : TableEntry) : Nat := bits e.w1.toNat 31 0
def cache (e : TableEntry) : Bool := e.w1.toNat.testBit 32
def cold (e : TableEntry) : Bool := e.w1.toNat.testBit 33
def marq (e : TableEntry) : Bool := e.w1.toNat.testBit 34
def storedDefault (e : TableEntry) : Bool := e.w1.toNat.testBit 35
def replMax (e : TableEntry) : Nat := bits e.w1.toNat 39 36
def maxAge (e : TableEntry) : Nat := bits e.w1.toNat 63 48
def hot (e : TableEntry) : Nat := bits e.w2.toNat 15 0
def coldDeadline (e : TableEntry) : Nat := bits e.w2.toNat 31 16
def replLag (e : TableEntry) : Nat := bits e.w2.toNat 47 32
def landing (e : TableEntry) : Nat := bits e.w3.toNat 31 0
/-- The stacks of STACK_MASK in increasing order. -/
def stacks' (e : TableEntry) : List Nat := (List.range 16).filter fun s => e.mask.testBit s
/-- Cold rows of a page (R142). -/
def pageRows (e : TableEntry) : Nat := 4096 / e.len
end TableEntry

/-- The entry of a table in the catalogue of partition p (R139). -/
def State.table (s : State) (p t : Nat) : Option TableEntry := s.tables.find? fun e => e.table == t && e.part == p
/-- The entry of a table of any partition. -/
def State.anyTable (s : State) (t : Nat) : Option TableEntry := s.tables.find? fun e => e.table == t

/-! ## Homes -/

/-- The stack of a row: its home (R141, R142); a row at or above ROWS, or of epoch 0, as a resident row (R116). -/
def TableEntry.home (e : TableEntry) (ep : Option Epoch) (row : Nat) : Nat :=
  let st := e.stacks'
  let k := match ep with
    | some x => if x.res ≤ row ∧ row < x.rows then (row - x.res) / e.pageRows else row
    | none => row
  st.getD (k % max 1 st.length) 0

/-- Cold page of a row and the row's byte offset in it (R142). -/
def TableEntry.page (e : TableEntry) (ep : Epoch) (row : Nat) : Nat × Nat :=
  ((row - ep.res) / e.pageRows, (row - ep.res) % e.pageRows * e.len)

/-- The row is cold: at or above the resident count (R142). -/
def Epoch.isCold (ep : Epoch) (row : Nat) : Bool := ep.res ≤ row && row < ep.rows

/-! ## Table areas (R200) -/

/-- Frames of a kind of partition p in increasing number. -/
def State.framesOf (s : State) (kind p : Nat) : List Nat :=
  ((s.image.frames.filter fun e => e.2.1 % 8 == kind && e.2.2 == p).map Prod.fst).mergeSort (· ≤ ·)

/-- A stack's share of a frame (R197). -/
def State.share (s : State) : Nat := 2 ^ 30 / s.stackCount

/-- Size of the area that the frames of a kind of p form in one stack (R200). Frames: 3 TABLE, 4 REPLICA. -/
def State.areaSize (s : State) (kind p : Nat) : Nat := s.share * (s.framesOf kind p).length

/-- Where an offset of the area of a kind in stack k is kept: frame, stack and offset in the share. -/
def State.areaAddr (s : State) (kind p k off : Nat) : Nat :=
  2 ^ 30 * (s.framesOf kind p).getD (off / s.share) 0 + s.share * k + off % s.share

/-- Read n bytes of an area; what a failed stack or pseudo-channel holds reads as marked zeros (R201, R214). The row engine does not
use the write-combining buffer (R205). -/
def State.areaRead (s : State) (kind p k off n : Nat) : Data × State :=
  if (s.engine k).mem.failed then (Data.mark true (zeros n), s) else
  let d := (chunks 256 off n).flatMap fun c =>
    if (s.engine k).mem.lost.contains (areaChannel c.1) then Data.mark true (zeros c.2) else s.mem.read 64 (s.areaAddr kind p k c.1) c.2
  let bursts := (chunks 64 off n).length
  (d, (s.countStack k fun m => { m with cntRd := m.cntRd + BitVec.ofNat 64 bursts }).charge k (some p) bursts)

/-- Write into an area; what a failed stack or pseudo-channel would hold is discarded (R214). -/
def State.areaWrite (s : State) (kind p k off : Nat) (d : Data) : State :=
  if (s.engine k).mem.failed then s else
  let mem := (chunks 256 off d.length).foldl (fun (m : Store) c =>
    if (s.engine k).mem.lost.contains (areaChannel c.1) then m else
    m.write 64 (s.areaAddr kind p k c.1) ((d.drop (c.1 - off)).take c.2)) s.mem
  let bursts := (chunks 64 off d.length).length
  ({ s with mem }.countStack k fun m => { m with cntWr := m.cntWr + BitVec.ofNat 64 bursts }).charge k (some p) bursts

/-- Clear the marks of an extent of an area before a row write (R127). -/
def State.areaUnmark (s : State) (kind p k off n : Nat) : State :=
  { s with mem := (chunks s.share off n).foldl (fun (m : Store) c =>
      (chunks 64 (s.areaAddr kind p k c.1) c.2).foldl (fun m u => m.setMark (u.1 / 64) false) m) s.mem }

/-- Offset of a resident row in its home's table area (R141). -/
def TableEntry.rowOff (e : TableEntry) (ep : Epoch) (row : Nat) : Nat :=
  4096 * ep.bases.getD (e.home (some ep) row) 0 + row / max 1 e.stacks'.length * e.len

/-! ## Handles (R145) -/

/-- A handle no live binding or batch has (R145): never 0xFFFF_FFFF; the search starts above the last one given. -/
def State.freshHandle (s : State) : Nat × State :=
  let used (h : Nat) : Bool := s.bindings.any (fun b => b.handle == h) || s.batches.any fun b => b.handle == h
  let cand := (List.range (s.bindings.length + s.batches.length + 1)).map fun i => (s.nextHandle + i) % 0xFFFFFFFF
  let h := (cand.find? fun h => !used h).getD 0
  (h, { s with nextHandle := (h + 1) % 0xFFFFFFFF })

/-! ## Sketches (R154, R161) -/

/-- The counter at a place of a sketch. -/
def sketchGet (l : List ((Nat × Nat) × Nat)) (k : Nat × Nat) : Nat :=
  match l.find? (fun e => e.1 == k) with | some e => e.2 | none => 0

def sketchSet (l : List ((Nat × Nat) × Nat)) (k : Nat × Nat) (v : Nat) : List ((Nat × Nat) × Nat) :=
  l.filter (fun e => e.1 != k) ++ (if v = 0 then [] else [(k, v)])

/-- The four places of a key: one in each of the four rows of a row engine's sketch. -/
def sketchPlaces (table row epoch : Nat) : List (Nat × Nat) :=
  (List.range 4).map fun i => (i, Config.sketchHash i table row epoch % 16384)

/-- The four places of a key in the one row of a die's sketch (R161). -/
def diePlaces (table row epoch : Nat) : List (Nat × Nat) :=
  ((List.range 4).map fun i => (0, Config.sketchHash i table row epoch % 16384)).dedup

/-- The estimate of a key: its smallest counter. -/
def sketchEst (l : List ((Nat × Nat) × Nat)) (ps : List (Nat × Nat)) : Nat :=
  match ps.map (sketchGet l) with | [] => 0 | v :: vs => vs.foldl min v

/-- One occurrence: the smallest of the counters are incremented, saturating. -/
def sketchInc (max : Nat) (l : List ((Nat × Nat) × Nat)) (ps : List (Nat × Nat)) : List ((Nat × Nat) × Nat) :=
  let e := sketchEst l ps
  (ps.filter fun k => sketchGet l k == e).foldl (fun l k => sketchSet l k (min max (e + 1))) l

/-- n occurrences of one key. -/
def sketchAdd (max : Nat) (l : List ((Nat × Nat) × Nat)) (ps : List (Nat × Nat)) (n : Nat) : List ((Nat × Nat) × Nat) :=
  (List.range n).foldl (fun l _ => sketchInc max l ps) l

/-- Every counter halved. -/
def sketchHalve (l : List ((Nat × Nat) × Nat)) : List ((Nat × Nat) × Nat) :=
  (l.map fun e => (e.1, e.2 / 2)).filter fun e => e.2 != 0

/-! ## Rows (R110, R111) -/

/-- Codes of the elements of a stored row. -/
def TableEntry.codes (e : TableEntry) (row : Bytes) : List Nat :=
  let body := if fmtIsInt e.fmt then row.drop 4 else row
  let v := leNat body
  let w := fmtWidth e.fmt
  (List.range e.elems).map fun i => v / 2 ^ (w * i) % 2 ^ w

/-- Scale and offset of an INT8 or INT4 row, FP16 values (R110). -/
def scaleOffset (row : Bytes) : Val × Val :=
  (decodeVal 2 (leNat (row.take 2)), decodeVal 2 (leNat ((row.drop 2).take 2)))

/-- A value that is neither infinite nor NaN. -/
def Val.rational : Val → Option Rat
  | .num q => some q
  | .zero _ => some 0
  | _ => none

/-- The element values of a stored row as a gather takes them (R82, R111): scale × q + offset, rounded once; NaN where one of the two is
not finite. -/
def TableEntry.values (e : TableEntry) (row : Bytes) : List Val :=
  let cs := e.codes row
  if fmtIsInt e.fmt then
    let (a, b) := scaleOffset row
    if a.rational.isNone ∨ b.rational.isNone then cs.map fun _ => .nan
    else cs.map fun c => rnd32 ((a.mul (.ofInt (toSigned (fmtWidth e.fmt) c))).add b)
  else cs.map (decodeVal e.fmt)

/-- Element codes back into a stored row: the bytes before and after the elements stay. -/
def TableEntry.putCodes (e : TableEntry) (row : Bytes) (cs : List Nat) : Bytes :=
  let w := fmtWidth e.fmt
  let start := if fmtIsInt e.fmt then 4 else 0
  let n := (w * e.elems + 7) / 8
  row.take start ++ leBytes n (cs.foldr (fun c acc => c % 2 ^ w + 2 ^ w * acc) 0) ++ row.drop (start + n)

/-- One element of an add (R127). -/
def addElem (f : Nat) (so : Option (Rat × Rat)) (ufmt q u : Nat) : Nat :=
  let w := fmtWidth f
  if fmtIsInt f then
    if ufmt = 10 then encodeVal f (.ofInt (toSigned w q + toSigned 32 u))
    else match so with
      | none => q
      | some (a, b) =>
        if a = 0 then q else
        match decodeVal ufmt u with
        | .num x => encodeVal f (.ofRat ((a * (toSigned w q : Int) + b + x - b) / a))
        | .zero _ => encodeVal f (.ofRat ((a * (toSigned w q : Int) + b - b) / a))
        | .inf neg => encodeVal f (.inf (neg != decide (a < 0)))
        | .nan => 0
  else encodeVal f ((decodeVal f q).add (decodeVal ufmt u))

/-- A row after an add of an update entry in format ufmt (R114, R127). -/
def TableEntry.addRow (e : TableEntry) (ufmt : Nat) (row upd : Bytes) : Bytes :=
  let so := match (scaleOffset row).1.rational, (scaleOffset row).2.rational with
    | some a, some b => some (a, b)
    | _, _ => none
  let v := leNat upd
  let w := fmtWidth ufmt
  e.putCodes row ((e.codes row).mapIdx fun i q => addElem e.fmt so ufmt q (v / 2 ^ (w * i) % 2 ^ w))

/-- Bytes of one update entry of an add (R114). -/
def TableEntry.updBytes (e : TableEntry) (ufmt : Nat) : Nat := (e.elems * fmtWidth ufmt + 7) / 8

/-- The update format is accepted for the row format (R126). -/
def TableEntry.accepts (e : TableEntry) (ufmt : Nat) : Bool :=
  if fmtIsInt e.fmt then ufmt == 0 || ufmt == 1 || ufmt == 10 else ufmt == 0 || ufmt == 1

end Sys2Proof.Machine
end

