-- ==== Sys2Proof/Machine/FrontEnd.lean ====
section
/-! DEFINITION. The gather front end of a die: requests and their checks (R107 to R116), the row cache (R159 to R161), pooling
(R123 to R125), output, summary record and token (R117 to R120). -/
namespace Sys2Proof.Machine

/-! ## Requests (R112) -/

/-- Bytes of one output row padded to 16, or of one update entry (R113, R114, R117). -/
def Request.unit (r : Request) (e : TableEntry) : Nat :=
  if r.op = 3 ∨ r.fmt = 15 then e.len
  else if r.op = 2 then e.updBytes r.fmt
  else ((e.elems * fmtWidth r.fmt + 7) / 8 + 15) / 16 * 16
/-! ## Homes and replicas (R108) -/

/-- Mesh edges between two dies (R20, R21). -/
def State.hops (s : State) (a b : Nat) : Nat :=
  let cols := match s.model with | 0 => 4 | _ => 2
  ((a % cols : Int) - b % cols).natAbs + ((a / cols : Int) - b / cols).natAbs

/-- The copy that die d reads of a row (R108, R156): of the home and its live replicas the one on the die itself, else the
fewest edges away, the lower stack number on a tie. -/
def State.serving (s : State) (d : Nat) (e : TableEntry) (ep : Option Epoch) (row : Nat) : Nat :=
  let home := e.home ep row
  match ep with
  | none => home
  | some x =>
    match (s.engine home).replicas.find? (fun r => r.table == e.table && r.epoch == x.no && r.row == row && r.live) with
    | none => home
    | some r =>
      let key (k : Nat) : Nat := 16 * s.hops d (k / 2) + k
      (r.copies.foldl (fun b k => if key k < key b then k else b) home)

/-! ## The row cache (R159 to R161) -/

/-- The set of a key. -/
def cacheSet (table row epoch : Nat) : Nat := (row * 0x9E3779B1 + table * 0x85EBCA77 + epoch * 0xC2B2AE3D) % 2 ^ 32 / 65536

/-- A line of expired age. -/
def CacheRow.expired (s : State) (now : Nat) (c : CacheRow) : Bool :=
  match s.anyTable c.table with
  | some e => e.maxAge != 0 && decide (c.stamp + 1000 * e.maxAge < now)
  | none => false

/-- Look up a row (R160, R161): the sketch counts the lookup, and a hit the line. -/
def State.cacheLookup (s : State) (d view : Nat) (e : TableEntry) (epoch row : Nat) : Option RowVal × State :=
  let now := s.now (.dieFabric d)
  let x := s.die d
  let hit := x.cache.find? fun c =>
    c.table == e.table && c.row == row && c.epoch == epoch && decide (view < c.stamp) && !c.expired s now
  let s := s.modDie d fun x => { x with
    sketch := sketchInc 15 x.sketch (diePlaces e.table row epoch), lookups := x.lookups + 1
    cache := if hit.isSome then
        modWhere x.cache (fun c => c.table == e.table && c.row == row && c.epoch == epoch) fun c =>
          { c with counter := min 15 (c.counter + 1) }
      else x.cache }
  match hit with
  | some c => (some ⟨0, row, c.data, false, 0⟩, s.modSvc e.part fun t => { t with cntHit := t.cntHit + 1 })
  | none => (none, s.modSvc e.part fun t => { t with cntMiss := t.cntMiss + 1 })

/-- Place a fetched row (R161): into free ways, or over the lines of smallest counter where its estimate is larger. -/
def State.cacheAdmit (s : State) (d stamp : Nat) (e : TableEntry) (epoch : Nat) (v : RowVal) : State :=
  if v.marked ∨ v.dflt ≠ 0 then s else
  let now := s.now (.dieFabric d)
  let x := s.die d
  let need := (e.len + 63) / 64
  let set := cacheSet e.table v.row epoch
  let est := min 15 (sketchEst x.sketch (diePlaces e.table v.row epoch))
  let isKey (c : CacheRow) : Bool := c.table == e.table && c.row == v.row && c.epoch == epoch
  let others := x.cache.filter fun c => cacheSet c.table c.row c.epoch != set
  let mine := x.cache.filter fun c => cacheSet c.table c.row c.epoch == set && !isKey c && !c.expired s now
  let new : CacheRow := ⟨e.table, v.row, epoch, need, est, stamp, v.data⟩
  let used (l : List CacheRow) : Nat := (l.map (·.ways)).sum
  let put (l : List CacheRow) : State := s.modDie d fun x => { x with cache := others ++ l ++ [new] }
  if used mine + need ≤ 16 then put mine else
  let sorted := mine.mergeSort fun a b => a.counter < b.counter || (a.counter == b.counter && a.stamp ≤ b.stamp)
  let n := ((List.range (sorted.length + 1)).find? fun k => decide (used (sorted.drop k) + need ≤ 16)).getD sorted.length
  if ((sorted.take n).map (·.counter)).all (· < est) then put (sorted.drop n)
  else s.modSvc e.part fun t => { t with cntReject := t.cntReject + 1 }

/-! ## Answering (R119, R120) -/

/-- Post the result of a request: the completion token to the cell, or the DONE to a peer (R107, R365); a request of the
partner has no answer but its frame's acknowledgement. -/
def State.answer (s : State) (d : Nat) (r : Request) (status low : Nat) (rec : Bytes) : State :=
  match r.mirror, r.reply with
  | some _, _ => s
  | none, some y => s.netDone y.k y.msg y.cls y.stream (if status = 0 then 0 else 6) 0 (status * 2 ^ 24 + min low 0xFFFFFF) rec
  | none, none =>
    let s := s.sendToken r.g r.q r.cls
      ⟨BitVec.ofNat 32 (2 ^ 24 * status + min low 0xFFFFFF), .frontEnd d, true, none, if r.destTile then some r.id else none⟩
    match s.posOf r.g with
    | some i => (s.closeAsync i r.id).wake i
    | none => s

/-- Position of the requesting cell. -/
def State.reqPos (s : State) (r : Request) : Nat := (s.posOf r.g).getD 0

/-- Write the summary record where STAT_ADDR names a place that takes it (R120). -/
def State.putSummary (s : State) (d : Nat) (r : Request) (rec : Bytes) : State :=
  if r.stat = 0 ∨ r.carried ∨ (s.wordRefused r.part r.stat 32).isSome then s
  else s.wordWrite (.frontEnd d) (s.reqPos r) r.part r.stat (Data.clean rec)

/-- A summary record (R120). -/
def summary (counts : List Nat) (status engines : Nat) : Bytes :=
  (counts.flatMap (leBytes 4)) ++ [BitVec.ofNat 8 status, BitVec.ofNat 8 engines, 0, 0]

/-- A request that fails a check of R115: nothing is written but the record, whose counts are zero. `xlt`: a translated extent failed,
which ends an access by R260 (R266). -/
def State.refuse (s : State) (d : Nat) (r : Request) (status : Nat) (trusted xlt : Bool) : State :=
  let sumRec := summary (List.replicate 7 0) status 0
  let s := if trusted then s.putSummary d r sumRec else s
  let s := if (status = 3 ∨ status = 4) ∧ xlt then s.countXltFault r.part else s
  s.answer d r status 0 sumRec

/-! ## Checks (R115) -/

/-- Index positions grouped as R121 slices them: (engine, slice, row) of each position in order, for windows known now. -/
def State.plan (s : State) (d : Nat) (e : TableEntry) (ep : Option Epoch) (idx : List Nat) : List (Nat × Nat × Nat) :=
  (idx.foldl (fun (acc : List (Nat × Nat × Nat) × List (Nat × Nat × List Nat)) row =>
    let k := s.serving d e ep row
    let win := bits (s.reg (engineBase k + 0x20)) 13 0
    let cur := (acc.2.find? fun t => t.1 == k).getD (k, 0, [])
    let cur := if cur.2.2.contains row then cur else
      if win ≤ cur.2.2.length then (k, cur.2.1 + 1, [row]) else (k, cur.2.1, row :: cur.2.2)
    (acc.1 ++ [(k, cur.2.1, row)], cur :: acc.2.filter fun t => t.1 != k)) ([], [])).1

/-- Output rows of a gather: bags, positions, or distinct entries (R117). -/
def State.outRows (s : State) (d : Nat) (r : Request) (e : TableEntry) (ep : Option Epoch) : Nat :=
  if r.pooled then r.nbags else if r.mode = 2 then r.nidx else (s.plan d e ep r.idx).dedup.length

/-- Extents of a request: address word, length, written (R115 checks 10 and 11). -/
def Request.extents (r : Request) (e : TableEntry) (rows : Nat) : List (Nat × Nat × Bool) :=
  let u := r.unit e
  [(r.idxAddr, 4 * r.nidx, false)]
  ++ (if r.pooled then [(r.dataAddr, 2 * r.nbags, false)] else [])
  ++ (if r.op ≠ 1 then (List.range r.nidx).map fun k => (wordPlusN r.dataAddr (k * r.stride), u, false) else
      if r.destTile then [] else (List.range rows).map fun k => (wordPlusN r.dest (k * r.stride), u, true))
  ++ (if r.op = 1 ∧ r.mode = 3 then [(r.mapAddr, 4 * r.nidx + 4 * rows, true)] else [])
  ++ (if r.stat ≠ 0 then [(r.stat, 32, true)] else [])
where
  wordPlusN (w off : Nat) : Nat := (if w.testBit 63 then 2 ^ 63 else 0) + (addr57 w + off)

/-- The epoch that a request at die d binds: its batch's or handle's, the partner's, or the one its front end holds (R116, R146). While a
publication reaches the front ends it is free whether d's holds the new epoch yet; once it does, it keeps it. -/
def State.bindEpoch (s : State) (d : Nat) (r : Request) : Nat × State :=
  match r.mirror with
  | some n => (n, s)
  | none =>
    if !r.anyEpoch then
      (((s.bindings.find? fun b => b.handle == r.batch && b.part == r.part && b.table == r.table).map (·.epoch)).getD 0, s)
    else
      let cur := ((s.current r.table).map (·.no)).getD 0
      match (s.svc r.part).publishing.find? fun e => e.1 == r.table with
      | some (_, prev, dies) =>
        if dies.contains d then (cur, s) else
        let (k, s) := s.draw 2
        if k = 0 then (cur, s.modSvc r.part fun t => { t with
          publishing := modWhere t.publishing (fun e => e.1 == r.table) fun e => (e.1, e.2.1, e.2.2 ++ [d]) })
        else (prev, s)
      | none => (cur, s)

/-- Checks 4 to 14 in order: the status of the first that fails, with the lists read (R115). -/
def State.checkRequest (s : State) (d : Nat) (r : Request) : Nat × Request × Nat × State :=
  let legal := if r.op = 1 then r.mode ≤ 3 ∧ (r.fmt ≤ 4 ∨ (r.fmt = 15 ∧ 2 ≤ r.mode)) else
    r.mode = 0 ∧ (r.op = 3 ∨ r.fmt = 0 ∨ r.fmt = 1 ∨ r.fmt = 10)
  if bits (r.w 0) 7 0 ≠ r.op ∨ !decide legal ∨ (r.carried ∧ r.destTile) then (2, r, 0, s) else
  let lim := if r.op = 1 then 2 ^ 24 else 4096
  let tab := s.table r.part r.table
  if r.nidx = 0 ∨ lim < r.nidx ∨ (r.pooled ∧ r.nbags = 0) ∨ r.stride % 16 ≠ 0
    ∨ tab.any fun e => decide (r.stride < r.unit e) then (2, r, 0, s) else
  let idxOk := r.carried || (s.wordUnmapped r.part r.idxAddr (4 * r.nidx)).isNone
  let ((ib, s) : Data × State) := if r.carried ∨ !idxOk then ([], s) else s.reqRead d r r.idxAddr (4 * r.nidx)
  let r := if r.carried then r else { r with idx := leList 4 r.nidx ib.bytes }
  let (epn, s) := s.bindEpoch d r
  let rows := match tab with
    | some e => if r.op = 1 then s.outRows d r e (s.epoch r.table epn) else 0
    | none => 0
  if r.destTile ∧ tab.any fun e => decide (256 < r.unit e ∨ 64 < rows) then (2, r, epn, s) else
  match tab with
  | none => (1, r, epn, s)
  | some e =>
    if r.mirror.isNone ∧ !r.anyEpoch ∧ !(s.bindings.any fun b => b.handle == r.batch && b.part == r.part) then (6, r, epn, s) else
    if r.mirror.isNone ∧ !r.anyEpoch
      ∧ !(s.bindings.any fun b => b.handle == r.batch && b.part == r.part && b.table == r.table) then (1, r, epn, s) else
    if r.op = 2 ∧ !e.accepts r.fmt then (5, r, epn, s) else
    if r.carried then (if r.bad ≠ 0 then r.bad else if r.pooled ∧ r.bags.sum ≠ r.nidx then 2 else 0, r, epn, s) else
    let ext := r.extents e rows
    if ext.any fun x => (s.wordUnmapped r.part x.1 x.2.1).isSome then (3, r, epn, s) else
    if ext.any fun x => x.2.2 && (s.wordRefused r.part x.1 x.2.1).isSome then (4, r, epn, s) else
    let ((bb, s) : Data × State) := if r.pooled then s.reqRead d r r.dataAddr (2 * r.nbags) else ([], s)
    if Data.marked ib ∨ Data.marked bb then (2, r, epn, s) else
    let ((rows, s) : List Data × State) := if r.op = 1 then ([], s) else
      (List.range r.nidx).foldl (fun (l, s) k =>
        let (x, s) := s.reqRead d r (Request.extents.wordPlusN r.dataAddr (k * r.stride)) (r.unit e)
        (l ++ [x], s)) ([], s)
    if rows.any Data.marked then (7, r, epn, s) else
    let r := { r with bags := leList 2 r.nbags bb.bytes, rows := rows.map Data.bytes }
    if r.pooled ∧ r.bags.sum ≠ r.nidx then (2, r, epn, s) else (0, r, epn, s)

/-! ## Routing (R107, R109, R116) -/

/-- The deadline of a request's cold lookups (R163). -/
def State.coldDue (s : State) (d : Nat) (r : Request) (e : TableEntry) : Nat :=
  match s.bindings.find? fun b => b.handle == r.batch && b.part == r.part && b.kind == 0 with
  | some b => match s.batch b.handle with
    | some x => x.coldFrom + 1000 * (if x.coldUs = 0 then e.coldDeadline else x.coldUs)
    | none => s.now (.dieFabric d) + 1000 * e.coldDeadline
  | none => s.now (.dieFabric d) + 1000 * e.coldDeadline

/-- Look up each distinct index of a gather in the row cache: the rows it serves (R109). -/
def State.lookupAll (s : State) (d : Nat) (r : Request) (e : TableEntry) (epoch : Nat) : List RowVal × State :=
  if r.op ≠ 1 ∨ !e.cache then ([], s) else
  r.idx.dedup.foldl (fun (l, s) row =>
    let (h, s) := s.cacheLookup d r.view e epoch row
    (l ++ h.toList, s)) ([], s)

/-- The ranges that the extents of a request reach (R262). -/
def State.reqRanges (s : State) (d : Nat) (r : Request) (e : TableEntry) (ep : Option Epoch) : List Range :=
  if r.carried then [] else
  ((r.extents e (if r.op = 1 then s.outRows d r e ep else 0)).flatMap fun x =>
    if x.1.testBit 63 then [] else (s.pieces r.part (addr57 x.1) x.2.1).filterMap (·.rng)).dedup

/-- The tile register named by the header as the front end has read it is the one held (R118): a header that changed after the step holds
the register it names from now on. -/
def State.fixTile (s : State) (r : Request) : State :=
  let i := s.reqPos r
  if r.carried ∨ !(s.cell i).open_.any (fun a => a.id == r.id) then s else
  let held := ((s.cell i).comp.lands.find? fun l => l.req == r.id).map (·.td)
  if held = (if r.destTile then some r.td else none) then s else
  let s := s.landTile i r.id
  if r.destTile then s.holdTile i r.id r.td else s

/-- Split a checked request to its serving engines: the open request and its parts. -/
def State.route (s : State) (d : Nat) (r : Request) (e : TableEntry) (epoch : Nat) : State :=
  let now := s.now (.dieFabric d)
  let ep := s.epoch r.table epoch
  let (hits, s) := s.lookupAll d r e epoch
  let items := (r.idx.mapIdx fun pos row => ((if r.op = 1 then s.serving d e ep row else e.home ep row), (⟨pos, row⟩ : Item))).filter
    fun x => !hits.any fun h => h.row == x.2.row
  let engines := (items.map Prod.fst).dedup.mergeSort (· ≤ ·)
  let due := s.coldDue d r e
  let s := s.fixTile r
  let s := { s with openReqs := s.openReqs ++
    [{ r, die := d, epoch, at_ := now, rngs := s.reqRanges d r e ep, served := engines, waiting := engines
       parts := [], hits, psns := [], result := none }] }
  engines.foldl (fun s k =>
    let mine := (items.filter fun x => x.1 == k).map Prod.snd
    let (id, s) := s.newId
    s.modEngine k fun x => { x with input := x.input ++
      [{ id, req := r.id, part := r.part, table := r.table, epoch, op := r.op, fmt := r.fmt, src := r.src, seq := r.seq, anyEpoch := r.anyEpoch
         deadline := due, items := mine, got := [], slices := 0, window := 0, distinct := [], rows := []
         entries := mine.map fun t => r.rows.getD t.pos [], next := 0, skipTo := 0, applied := [], seqSkip := false
         stale := 0, range := 0, poisoned := 0, fetched := 0, done := false, status := 0 }] }) s

/-! ## Pooling (R123 to R125) -/

/-- A key of an entry: engine (16 for the row cache), slice and row. -/
abbrev EntryKey := Nat × Nat × Nat

/-- Row values returned for a request, by key. -/
def OpenReq.value (o : OpenReq) (k : EntryKey) : RowVal :=
  let rows := if k.1 = 16 then o.hits else ((o.parts.find? fun p => p.1 == k.1).map (·.2.rows)).getD []
  (rows.find? fun v => v.slice == k.2.1 && v.row == k.2.2).getD ⟨0, k.2.2, [], false, 0⟩

/-- The key of every index position taken, with the position, in list order. -/
def OpenReq.posKeys (o : OpenReq) : List (Nat × EntryKey) :=
  let got := o.parts.flatMap fun p => p.2.got.map fun g => (g.1, ((p.1, g.2.2, g.2.1) : EntryKey))
  let hit := (o.r.idx.mapIdx fun pos row => (pos, row)).filterMap fun x =>
    if o.hits.any fun h => h.row == x.2 then some (x.1, ((16, 0, x.2) : EntryKey)) else none
  (got ++ hit).mergeSort fun a b => a.1 ≤ b.1

/-- The key of every index position taken, in list order. -/
def OpenReq.keys (o : OpenReq) : List EntryKey := o.posKeys.map Prod.snd

/-- A term of c occurrences (R123). -/
def term (c : Nat) (x : List Val) : List Val := if c = 1 then x else x.map fun v => rnd32 ((Val.ofInt c).mul v)

/-- The sum of terms in order, each addition rounded by rnd32 (R123); none for no terms. -/
def sumTerms : List (List Val) → Option (List Val)
  | [] => none
  | x :: l => some (l.foldl (fun a b => List.zipWith (fun p q => rnd32 (p.add q)) a b) x)

/-- The pooled vector of a bag whose positions have these keys (R123, R124). -/
def OpenReq.pool (o : OpenReq) (e : TableEntry) (ks : List EntryKey) : List Val :=
  let zero := List.replicate e.elems (Val.zero false)
  if ks = [] then zero else
  let vals (k : EntryKey) : List Val := e.values (o.value k).data
  let sum : List Val :=
    if o.r.repro || e.cache then
      let rows := (ks.map fun k => k.2.2).eraseDups
      (sumTerms (rows.map fun row =>
        term (ks.filter fun k => k.2.2 == row).length (vals ((ks.find? fun k => k.2.2 == row).getD (0, 0, row))))).getD zero
    else
      let engines := (ks.map Prod.fst).dedup.mergeSort (· ≤ ·)
      (sumTerms (engines.filterMap fun s =>
        sumTerms (((ks.filter fun k => k.1 == s).eraseDups).map fun k => term (ks.filter (· == k)).length (vals k)))).getD zero
  if o.r.mode = 1 then sum.map fun v => rnd32 (v.divRat ks.length) else sum

/-- Codes of a format, packed and padded with zero to n bytes (R117). -/
def packElems (fmt n : Nat) (cs : List Nat) : Bytes := leBytes n (cs.foldr (fun c acc => c + 2 ^ fmtWidth fmt * acc) 0)

/-- Elements in a format, packed and padded with zero to n bytes (R89, R117). -/
def packOut (fmt n : Nat) (vs : List Val) : Bytes := packElems fmt n (vs.map (encodeVal fmt))

/-- Cut a list into bags. -/
def cutBags {α : Type} : List Nat → List α → List (List α)
  | [], _ => []
  | n :: l, ks => ks.take n :: cutBags l (ks.drop n)

/-- The output rows of a gather with their marks (R117, R125). -/
def OpenReq.output (o : OpenReq) (e : TableEntry) (keys : List EntryKey) : List (Bytes × Bool) :=
  let r := o.r
  let u := r.unit e
  let raw (k : EntryKey) : Bytes × Bool :=
    let v := o.value k
    (if r.fmt = 15 then v.data
     else if r.fmt = e.fmt then packElems r.fmt u ((e.codes v.data).map (convert r.fmt r.fmt))
     else packOut r.fmt u (e.values v.data), v.marked)
  if r.pooled then (cutBags r.bags keys).map fun ks => (packOut r.fmt u (o.pool e ks), ks.any fun k => (o.value k).marked)
  else if r.mode = 2 then keys.map raw else keys.eraseDups.map raw

/-- Output rows or bags that a poisoned row has reached (R120, R125). -/
def OpenReq.poisonedOut (o : OpenReq) : Nat :=
  let bad := o.posKeys.filter fun x => (o.value x.2).marked
  if o.r.pooled then (cutBags o.r.bags (List.range o.r.nidx)).countP fun ps => ps.any fun p => bad.any fun x => x.1 == p
  else if o.r.mode = 2 then bad.length else (bad.map Prod.snd).eraseDups.length

/-- The inverse map and the occurrence counts of RAW_DISTINCT (R117). -/
def inverseMap (keys : List EntryKey) : Bytes :=
  let es := keys.eraseDups
  (keys.flatMap fun k => leBytes 4 (es.findIdx (· == k))) ++ es.flatMap fun k => leBytes 4 (keys.filter (· == k)).length

/-! ## Completion (R107, R117 to R120) -/

/-- Write output bytes: to the cell's memory through the ranges checked (R262), or to the peer as READ_RESP (R365). -/
def State.outWrite (s : State) (o : OpenReq) (w : Nat) (d : Data) : State :=
  match o.r.reply with
  | some y => s.netMessage y.k 3 false y.cls y.stream y.msg w d
  | none =>
    let f := s.ranges
    { { s with ranges := o.rngs }.wordWrite (.frontEnd o.die) (s.reqPos o.r) o.r.part w d with ranges := f }

/-- Add to the substitutions of a batch (R164, R310): a pair is taken while one of 65,536 is free. -/
def State.addSubst (s : State) (r : Request) (n : Nat) : State :=
  if n = 0 then s else
  let s := s.modSvc r.part fun t => { t with cntSubst := t.cntSubst + BitVec.ofNat 64 n }
  if r.anyEpoch then s else
  let pairs : Nat := ((s.batches.filter fun b => b.part == r.part).map fun b => b.subst.length).sum
  s.modBatch r.batch fun b =>
    if b.subst.any fun e => e.1 == r.table then
      { b with subst := b.subst.map fun e => if e.1 = r.table then (e.1, e.2 + n) else e }
    else if pairs < 65536 then { b with subst := b.subst ++ [(r.table, n)] }
    else { b with substLost := b.substLost + n }

/-- Status and engine of the token (R119): the lowest status, and the lowest engine whose part ended with it. -/
def OpenReq.worst (o : OpenReq) : Nat × Nat :=
  let bad := o.parts.filter fun p => p.2.status != 0
  let st := bad.foldl (fun m p => lowStatus m p.2.status) 0
  (st, (bad.filter fun p => p.2.status == st).foldl (fun m p => min m p.1) 15)

/-- Close an open request: its record and its token; an epoch that only it held is freed (R116, R143). -/
def State.closeReq (s : State) (o : OpenReq) (status low : Nat) (rec : Bytes) : State :=
  let s := { s with openReqs := s.openReqs.filter fun x => x.r.id != o.r.id }
  let f := s.ranges
  let s := { { s with ranges := o.rngs }.putSummary o.die o.r rec with ranges := f }
  (s.answer o.die o.r status low rec).freeUnheld

/-- Free rows of output, for a gather that ended with STACK_LOST or ENGINE_FAULT (R119). -/
def State.drawRows (s : State) (unit : Nat) : Nat → List (Bytes × Bool) × State
  | 0 => ([], s)
  | n + 1 =>
    let (b, s) := s.drawBytes unit
    let (l, s) := s.drawRows unit n
    ((b, false) :: l, s)

/-- Write the output rows of a gather: they land in the tile register with the token's pop, or at DEST_ADDR (R117, R118). -/
def State.putRows (s : State) (o : OpenReq) (rows : List (Bytes × Bool)) : State :=
  if o.r.destTile then s.tileRows (s.reqPos o.r) o.r.id rows else
  (rows.mapIdx fun k x => (k, x)).foldl (fun s x =>
    s.outWrite o (Request.extents.wordPlusN o.r.dest (x.1 * o.r.stride)) (Data.mark x.2.2 x.2.1)) s

/-- The rows and the inverse map of a gather whose status is nonzero are unspecified (R119). -/
def State.freeOutput (s : State) (o : OpenReq) (e : TableEntry) : State :=
  let r := o.r
  if r.reply.isSome then s else
  let n := s.outRows o.die r e (s.epoch r.table o.epoch)
  let (rows, s) := s.drawRows (r.unit e) n
  let s := s.putRows o rows
  if r.mode = 3 then let (b, s) := s.drawBytes (4 * r.nidx + 4 * n); s.outWrite o r.mapAddr (Data.clean b) else s

/-- The rows and the inverse map of a gather that succeeds (R117, R118). -/
def State.gatherOutput (s : State) (o : OpenReq) (e : TableEntry) : State :=
  let s := s.putRows o (o.output e o.keys)
  if o.r.mode = 3 then s.outWrite o o.r.mapAddr (Data.clean (inverseMap o.keys)) else s

/-- A gather with every part returned (R117 to R120). -/
def State.finishGather (s : State) (o : OpenReq) (e : TableEntry) : State :=
  let (st, eng) := o.worst
  let r := o.r
  let keys := o.keys
  let s := if st ≠ 0 then s.freeOutput o e else s.gatherOutput o e
  let s := if e.cache ∧ st = 0 then
      o.parts.foldl (fun s p => p.2.rows.foldl (fun s v => s.cacheAdmit o.die o.at_ e o.epoch v) s) s else s
  let fetched := (o.parts.map fun p => p.2.fetched).sum
  let count (k : Nat) : Nat := (keys.filter fun x => (o.value x).dflt == k).length
  let s := s.addSubst r (count 2)
  let sumRec := summary [r.nidx, fetched, o.hits.length, (o.parts.map fun p => p.2.slices).sum, count 2, count 1, o.poisonedOut] st
    o.served.length
  s.closeReq o st (if st = 0 then fetched + o.hits.length else eng) sumRec

/-- An add or write with every part returned: it waits for the partner's acknowledgement of its frames while PAIRED
(R384). -/
def State.finishUpdate (s : State) (o : OpenReq) : State :=
  let (st, eng) := o.worst
  let sum (f : Part → Nat) : Nat := (o.parts.map fun p => f p.2).sum
  let applied := sum fun p => p.applied.length
  let sumRec := summary [o.r.nidx, applied, b2n (o.parts.any fun p => p.2.seqSkip), sum (·.stale), sum (·.poisoned),
    sum (·.range), 0] st o.served.length
  let low := if st = 0 then applied else eng
  if o.psns = [] then s.closeReq o st low sumRec
  else { s with openReqs := modWhere s.openReqs (fun x => x.r.id == o.r.id) fun x => { x with result := some (st, low, sumRec) } }

/-- Finish an open request that waits for no engine. -/
def State.finishReq (s : State) (id : Nat) : State :=
  match s.openReqs.find? (fun o => o.r.id == id) with
  | none => s
  | some o =>
    if o.waiting ≠ [] ∨ o.result.isSome then s else
    if o.r.op = 1 then
      match s.table o.r.part o.r.table with
      | some e => s.finishGather o e
      | none => s.closeReq o 1 0 (summary (List.replicate 7 0) 1 0)
    else s.finishUpdate o

/-- A translated extent of a request is unmapped or refused (R115, R260). -/
def State.extentsXlt (s : State) (d : Nat) (r : Request) (epn : Nat) : Bool :=
  match s.table r.part r.table with
  | none => false
  | some e =>
    let rows := if r.op = 1 then s.outRows d r e (s.epoch r.table epn) else 0
    let lists := if r.carried then [] else [(r.idxAddr, 4 * r.nidx, false)]
    (lists ++ r.extents e rows).any fun x => !Nat.testBit x.1 63 &&
      ((s.wordUnmapped r.part x.1 x.2.1).isSome || (x.2.2 && (s.wordRefused r.part x.1 x.2.1).isSome))

/-! ## Commands -/

/-- The front end takes its oldest request (R107, R115). -/
def State.frontEnd (s : State) (d : Nat) : State :=
  match (s.die d).queue with
  | [] => s
  | r :: l =>
    let s := s.modDie d fun x => { x with queue := l }
    let run (s : State) (r : Request) : State :=
      let (st, r, epn, s) := s.checkRequest d r
      if st ≠ 0 then s.refuse d r st true (s.extentsXlt d r epn) else
      match s.table r.part r.table with
      | none => s.refuse d r 1 true false
      | some e => (s.route d r e epn).finishReq r.id
    if r.carried then run s r else
    if addr57 r.addr % 64 ≠ 0 then s.refuse d r 2 false false else
    if (s.wordUnmapped r.part r.addr 64).isSome then s.refuse d r 3 false (!r.addr.testBit 63) else
    let (h, s) := s.reqRead d r r.addr 64
    if h.marked then s.refuse d r 2 false false else run s { r with words := leList 8 8 h.bytes }

/-- FRONT_END_REQUEST (R115). -/
def execFrontEndRequest (d : Nat) (s : State) : Host.Outcome State Fault Refusal := .next (s.frontEnd d)

/-- A part's result reaches the front end (R107). -/
def State.partDone (s : State) (req k : Nat) : State :=
  match (s.engine k).parts.find? (fun p => p.req == req && p.done) with
  | none => s
  | some p =>
    let s := s.modEngine k fun x => { x with parts := x.parts.filter fun q => q.id != p.id }
    let s := { s with openReqs := modWhere s.openReqs (fun o => o.r.id == req) fun o =>
      { o with parts := (o.parts ++ [(k, p)]).mergeSort fun a b => a.1 ≤ b.1, waiting := o.waiting.erase k } }
    s.finishReq req

/-- PART_DONE (R107). -/
def execPartDone (req k : Nat) (s : State) : Host.Outcome State Fault Refusal := .next (s.partDone req k)

/-- CACHE_SKETCH_HALVING: after each 2^20 lookups the sketch and every line counter are halved (R161). -/
def execCacheSketchHalving (d : Nat) (s : State) : Host.Outcome State Fault Refusal :=
  .next (if (s.die d).lookups < 2 ^ 20 then s else s.modDie d fun x =>
    { x with lookups := x.lookups - 2 ^ 20, sketch := sketchHalve x.sketch
             cache := x.cache.map fun c => { c with counter := c.counter / 2 } })

end Sys2Proof.Machine
end

