-- ==== Sys2Proof/Machine/Engine.lean ====
section
/-! DEFINITION. Row engines (R107, R121 to R138): parts, slices, fetches, updates, sequence numbers and faults; marquetry
(R154 to R158) and the cold tier (R162 to R165). -/
namespace Sys2Proof.Machine

/-- Change the counters of an engine, which stand still while FREEZE is set (R137). -/
def State.countEngine (s : State) (k : Nat) (f : EngineCnt → EngineCnt) : State :=
  s.modEngine k fun e => if e.freeze then e else { e with cnt := f e.cnt }

def State.modHeld (s : State) (k id : Nat) (f : Part → Part) : State :=
  s.modEngine k fun e => { e with parts := modWhere e.parts (fun p => p.id == id) f }
def State.heldPart (s : State) (k id : Nat) : Option Part := (s.engine k).parts.find? fun p => p.id == id

/-- The table of a part. -/
def State.partTable (s : State) (p : Part) : Option TableEntry := s.table p.part p.table

/-- Item k of an update part as taken: the entry of index position pos. -/
def Part.entryAt (p : Part) (pos : Nat) : Bytes := p.entries.getD ((p.got.findIdx fun g => g.1 == pos)) []

/-! ## Sequence numbers (R130, R410) -/

def State.srcState (s : State) (k src : Nat) : SrcState := ((s.engine k).srcs.find? fun x => x.src == src).getD ⟨src, 0, 0, none⟩
def State.setSrc (s : State) (k : Nat) (x : SrcState) : State :=
  s.modEngine k fun e => { e with srcs := e.srcs.filter (fun y => y.src != x.src) ++ [x] }

/-- The part carries a sequence number that the engine checks: a nonzero SRC and SEQ, the source assigned to the partition
(R130, R279). -/
def State.checked (s : State) (p : Part) : Bool :=
  p.op != 1 && p.src != 0 && p.seq != 0 && s.image.sources.contains (p.src, p.part)

/-- The number is applied already or below the window (R130). -/
def SrcState.applied (x : SrcState) (n : Nat) : Bool :=
  let h := x.high.toNat
  if h < n then false else if n + 63 < h then true else x.window.getLsbD (h - n)

/-- Record a number as applied; a partial mark of it, or below the window, is dropped (R130, R410). -/
def SrcState.record (x : SrcState) (n : Nat) : SrcState :=
  let h := x.high.toNat
  let (high, window) : Nat × Word := if h < n then (n, (if n - h < 64 then x.window <<< (n - h) else 0) ||| 1)
    else (h, x.window ||| (1 <<< (h - n)))
  let mark := match x.mark with
    | some (m, k) => if m = n ∨ m + 63 < high then none else some (m, k)
    | none => none
  { x with high := BitVec.ofNat 64 high, window, mark }

/-! ## Ending parts -/

/-- The rows of an add or write part that have been finished in list order: taken and no longer waiting. -/
def State.prefixDone (s : State) (k : Nat) (p : Part) : Nat :=
  let e := s.engine k
  let open_ := (e.fetches ++ e.misses.flatMap (·.waiters)).filterMap fun f =>
    if f.part = p.id then some (p.got.findIdx fun g => g.1 == f.pos) else none
  open_.foldl min p.got.length

/-- A fault of the engine (R138): every part held ends with ENGINE_FAULT; update parts keep a partial mark, never below the one they
resumed from (R130, R410). -/
def State.engineFault (s : State) (k cause : Nat) : State :=
  let held := (s.engine k).parts.filter fun p => !p.done
  let s := held.foldl (fun s p =>
    if s.checked p then s.setSrc k { s.srcState k p.src with mark := some (p.seq, max p.skipTo (s.prefixDone k p)) } else s) s
  let s := s.endParts k 9 fun _ => true
  let s := s.modEngine k fun e => { e with faultCause := cause, faultValid := true, faultParts := held.length }
  let now := s.now (.rowEngine k)
  s.report { cls := 7, unit := ⟨2, k, 0⟩, subcode := cause, part := held.head?.map (·.part), info0 := 0, info1 := 0
             handle := 0xFFFFFFFF, step := 0, kind := 0, time := now, selfReport := true } 2

/-- The UPDATE message of an applied part (R384; its layout is the model's): table, operation, source, format, rows; epoch
and entry length; SEQ; total length; the index list; the entries. -/
def updateMessage (p : Part) (entry : Nat) (rows : List (Nat × Bytes)) : Bytes :=
  let idx := rows.flatMap fun r => leBytes 4 r.1
  let pad := zeros ((8 - idx.length % 8) % 8)
  let body := idx ++ pad ++ rows.flatMap fun r => r.2.take entry ++ zeros (entry - r.2.length)
  let n := 32 + body.length
  let tail := zeros ((16 - n % 16) % 16)
  ofWords [p.table + 2 ^ 12 * p.op + 2 ^ 16 * p.src + 2 ^ 24 * p.fmt + 2 ^ 32 * rows.length, p.epoch + 2 ^ 32 * entry, p.seq,
    n + tail.length] ++ body ++ tail

/-- A part with nothing left to do is done (R107); an update part records its number (R119, R130) and is mirrored (R384). -/
def State.partTry (s : State) (k id : Nat) : State :=
  match s.heldPart k id with
  | none => s
  | some p =>
    let e := s.engine k
    if p.done ∨ p.items ≠ [] ∨ e.fetches.any (fun f => f.part == id) ∨
      e.misses.any (fun m => m.waiters.any fun f => f.part == id) then s else
    let s := (s.modHeld k id fun p => { p with done := true }).sweepHeld k
    if p.op = 1 ∨ p.seqSkip then s else
    let s := if s.checked p then s.setSrc k ((s.srcState k p.src).record p.seq) else s
    let o := s.openReqs.find? fun o => o.r.id == p.req
    let rows := ((p.got.take p.skipTo).map fun g => (g.2.1, p.entryAt g.1))
      ++ p.applied.map fun pos => (((p.got.find? fun g => g.1 == pos).map fun g => g.2.1).getD 0, p.entryAt pos)
    if rows = [] then s else
    let entry := match s.partTable p with | some t => if p.op = 3 then t.len else t.updBytes p.fmt | none => 0
    let msg := updateMessage p entry rows
    if (o.any fun o => o.r.mirror.isSome) then s.logUpdate msg else
    let (psn, s) := (s.countSolo (if s.mirrored p.part then rows.length else 0)).mirrorUpdate p.part msg
    match psn with
    | none => s
    | some n => { s with openReqs := modWhere s.openReqs (fun o => o.r.id == p.req) fun o => { o with psns := o.psns ++ [n] } }

/-! ## Marquetry (R154 to R157) -/

/-- Bytes of a partition's replica pool in a stack that no replica has (R156, R200). -/
def State.poolFree (s : State) (p k : Nat) : Nat :=
  s.areaSize 4 p - (((s.engine k).held.filter fun r => r.part == p).map (·.len)).sum

/-- The lowest place for len bytes in a partition's replica pool of a stack; none in a full one. -/
def State.poolPlace (s : State) (p k len : Nat) : Option Nat :=
  let mine := (s.engine k).held.filter fun r => r.part == p
  (((0 :: mine.map fun r => r.off + r.len).filter fun o =>
    o + len ≤ s.areaSize 4 p && mine.all fun r => o + len ≤ r.off || r.off + r.len ≤ o).mergeSort (· ≤ ·)).head?

/-- The stacks that take replicas of a row, in order (R156). -/
def State.replicaStacks (s : State) (home : Nat) (e : TableEntry) : List Nat :=
  let hd := home / 2
  let dies := ((List.range s.dieCount).filter (· != hd)).mergeSort fun a b =>
    s.hops hd a < s.hops hd b || (s.hops hd a == s.hops hd b && a ≤ b)
  let best (d : Nat) : Nat := if s.poolFree e.part (2 * d) < s.poolFree e.part (2 * d + 1) then 2 * d + 1 else 2 * d
  let order := dies.map best ++ [if home % 2 = 0 then home + 1 else home - 1] ++ dies.map fun d => 4 * d + 1 - best d
  (order.filter fun k => k < s.stackCount && (s.poolPlace e.part k e.len).isSome).take e.replMax

/-- Take the place of a replica in a stack's pool. -/
def State.poolTake (s : State) (k : Nat) (e : TableEntry) (epoch row : Nat) : State :=
  match s.poolPlace e.part k e.len with
  | some off => s.modEngine k fun x => { x with held := x.held ++ [⟨e.table, epoch, row, e.part, off, e.len⟩] }
  | none => s

/-- The estimate of a row at an engine (R154). -/
def State.estimate (s : State) (k table row : Nat) : Nat := sketchEst (s.engine k).sketch (sketchPlaces table row 0)

/-- Withdraw the replica set of a row at its home. -/
def State.withdraw (s : State) (home : Nat) (r : Replica) : State :=
  s.withdrawIf fun h x => h == home && x.table == r.table && x.epoch == r.epoch && x.row == r.row

/-- Withdraw the replicated rows of home k whose home row is poisoned (R155). -/
def State.withdrawPoisoned (s : State) (k : Nat) : State :=
  s.withdrawIf fun h r => h == k && match s.anyTable r.table, s.epoch r.table r.epoch with
    | some e, some ep => (s.areaRead 3 e.part k (e.rowOff ep r.row) e.len).1.marked
    | _, _ => true

/-- Replicate a row at its home when the rule of R155 holds: at most one set per microsecond. -/
def State.tryReplicate (s : State) (k table row : Nat) : State :=
  match s.anyTable table, s.current table with
  | some e, some ep =>
    let x := s.engine k
    let now := s.now (.rowEngine k)
    if !e.marq ∨ ep.res ≤ row ∨ e.home (some ep) row ≠ k ∨ s.estimate k table row < e.hot ∨ now < x.lastRepl + 1000
      ∨ x.replicas.any (fun r => r.table == table && r.epoch == ep.no && r.row == row) then s else
    let (d, _) := s.areaRead 3 e.part k (e.rowOff ep row) e.len
    let ks' := s.replicaStacks k e
    if d.marked ∨ ks' = [] then s else
    let est (r : Replica) : Nat := s.estimate k r.table r.row
    let victim : Option Replica := x.replicas.foldl (fun b r => match b with
      | none => some r
      | some c => if est r < est c then some r else some c) none
    let room := x.replicas.length < 16384
    if !room ∧ !(victim.any fun v => est v < s.estimate k table row) then s else
    let s := if room then s else match victim with | some v => s.withdraw k v | none => s
    let (d, s) := s.areaRead 3 e.part k (e.rowOff ep row) e.len
    let s := s.modEngine k fun x =>
      { x with replicas := x.replicas ++ [⟨table, ep.no, row, ks', false, ks'⟩], lastRepl := now }
    let s := ks'.foldl (fun s t => s.poolTake t e ep.no row) s
    { s with replWrites := s.replWrites ++ ks'.map fun t => ⟨k, t, table, ep.no, row, d.bytes, now, false⟩ }
  | _, _ => s

/-- Count occurrences of a row at an engine; the home may replicate it, a replica engine owes the home a count (R154). -/
def State.countRow (s : State) (k : Nat) (e : TableEntry) (ep : Option Epoch) (row : Nat) : State :=
  let s := s.modEngine k fun x => { x with sketch := sketchInc 65535 x.sketch (sketchPlaces e.table row 0), occ := x.occ + 1 }
  let home := e.home ep row
  if home = k then s.tryReplicate k e.table row else
  let cs := (s.engine k).counts
  let same (c : CountMsg) : Bool := c.home == home && c.table == e.table && c.row == row
  let cs := if cs.any same then modWhere cs same fun c => { c with count := c.count + 1 } else cs ++ [⟨home, e.table, row, 1⟩]
  s.modEngine k fun x => { x with counts := cs }

/-- Send the whole resulting row to every replica (R157). -/
def State.propagate (s : State) (k table epoch row : Nat) (d : Bytes) : State :=
  match (s.engine k).replicas.find? fun r => r.table == table && r.epoch == epoch && r.row == row with
  | none => s
  | some r =>
    let now := s.now (.rowEngine k)
    { s with replWrites := s.replWrites ++ r.copies.map fun t => ⟨k, t, table, epoch, row, d, now, false⟩ }

/-! ## Rows -/

/-- A row that stands for another (R116, R125, R147): the default row of the epoch, ZERO without one. -/
def defaultRow (e : TableEntry) (ep : Option Epoch) : Bytes :=
  match ep with | some x => x.dflt.take e.len ++ zeros (e.len - x.dflt.length) | none => zeros e.len

/-- A fetched row reaches its part (R122). -/
def State.giveRow (s : State) (k id : Nat) (v : RowVal) : State :=
  let s := s.modHeld k id fun p => { p with rows := p.rows ++ [v] }
  if v.marked then s.countEngine k fun c => { c with poison := c.poison + 1 } else s

/-- Apply an update entry to a stored row (R127): the new row and whether it is poisoned and left unchanged. -/
def applyUpdate (e : TableEntry) (p : Part) (old : Data) (entry : Bytes) : Option Data :=
  if p.op = 3 then some (Data.clean (entry.take e.len ++ zeros (e.len - entry.length)))
  else if old.marked then none else some (Data.clean (e.addRow p.fmt old.bytes entry))

/-- An update row is finished: applied or left as poisoned (R127, R128). -/
def State.updated (s : State) (k : Nat) (p : Part) (pos : Nat) (ok : Bool) : State :=
  if ok then
    (s.modHeld k p.id fun p => { p with applied := p.applied ++ [pos] }).countEngine k fun c =>
      if p.op = 2 then { c with adds := c.adds + 1 } else { c with writes := c.writes + 1 }
  else
    (s.modHeld k p.id fun p => { p with poisoned := p.poisoned + 1 }).countEngine k fun c => { c with poison := c.poison + 1 }

/-! ## The cold tier (R162 to R165) -/

def State.landingOf (s : State) (k table epoch page : Nat) : Option Landing :=
  (s.engine k).landing.find? fun l => l.table == table && l.epoch == epoch && l.page == page
def State.modLanding (s : State) (k table epoch page : Nat) (f : Landing → Landing) : State :=
  s.modEngine k fun x => { x with landing := modWhere x.landing (fun l => l.table == table && l.epoch == epoch && l.page == page) f }

/-- A row of a landing page with the marks of its granules. -/
def Landing.row (l : Landing) (off n : Nat) : Data :=
  (List.range n).map fun i => (l.data.getD (off + i) 0, l.marks.contains ((off + i) / 64))

/-- Write a row into a landing page, which becomes dirty; a write clears the marks of its granules (R127, R165). -/
def Landing.put (l : Landing) (off : Nat) (d : Data) (clear : Bool) : Landing :=
  { l with
    data := l.data.take off ++ d.bytes ++ l.data.drop (off + d.length), dirty := true
    marks := if clear then l.marks.filter fun m => !(decide (off / 64 ≤ m) && decide (m ≤ (off + d.length - 1) / 64)) else l.marks }

/-- A row access waits to read or change the landing page. -/
def State.awaited (s : State) (k : Nat) (l : Landing) : Bool :=
  match s.anyTable l.table, s.epoch l.table l.epoch with
  | some e, some ep => (s.engine k).fetches.any fun f =>
      f.table == l.table && f.epoch == l.epoch && ep.isCold f.row && (e.page ep f.row).1 == l.page
  | _, _ => false

/-- A dirty page whose cartridge takes no write (R165). -/
def State.stuck (s : State) (l : Landing) : Bool :=
  l.dirty && !(match s.bayOf l.serial with | some b => (s.bay b).writes | none => false)

/-- The place of a landing page that has left the table's own and is still being written to its cartridge. -/
def evictedSlot : Nat := 2 ^ 20

/-- Landing page n of a table in stack k can be taken (R162): it is neither pinned nor awaited, nor kept for a page on its way. -/
def State.slotOpen (s : State) (k t n : Nat) : Bool :=
  let x := s.engine k
  !(x.misses.any fun m => m.table == t && m.slot == n) &&
    !(x.landing.any fun l => l.table == t && l.slot == n && (l.pinned || l.writing || s.stuck l || s.awaited k l))

/-- The next landing page that the clock sweep takes (R162). -/
def State.clockSlot (s : State) (k : Nat) (e : TableEntry) : Option Nat :=
  let hand := (((s.engine k).hands.find? fun h => h.1 == e.table).map Prod.snd).getD 0
  ((List.range e.landing).map fun j => (hand + j) % e.landing).find? fun n => s.slotOpen k e.table n

/-- Take a landing page of the table for a page to be read (R162, R164): its content goes, a dirty one to its cartridge first (R165); none
where no page can be taken. The landing page is taken as the miss is found (DESIGN CHOICE, log entry 50). -/
def State.takeSlot (k : Nat) (e : TableEntry) : Nat → State → Option Nat × State
  | 0, s => (none, s)
  | f + 1, s =>
    match s.clockSlot k e with
    | none => (none, s)
    | some n =>
      let s := s.modEngine k fun x => { x with hands := x.hands.filter (fun h => h.1 != e.table) ++ [(e.table, (n + 1) % e.landing)] }
      match (s.engine k).landing.find? fun l => l.table == e.table && l.slot == n with
      | none => (some n, s)
      | some l =>
        let isL (y : Landing) : Bool := y.table == l.table && y.epoch == l.epoch && y.page == l.page
        if !l.dirty then (some n, s.modEngine k fun x => { x with landing := x.landing.filter fun y => !isL y }) else
        let s := s.writeBack k l
        if ((s.landingOf k l.table l.epoch l.page).any fun y => y.pinned) then State.takeSlot k e f s
        else (some n, s.modLanding k l.table l.epoch l.page fun y => { y with slot := evictedSlot })

/-- A cold miss joins the entry of its page, or takes one and starts the cartridge read (R162); false where it cannot
(R164, R165). -/
def State.coldMiss (s : State) (k : Nat) (e : TableEntry) (ep : Epoch) (page : Nat) (f : Fetch) : Bool × State :=
  let x := s.engine k
  let isPage (m : ColdMiss) : Bool := m.table == e.table && m.epoch == ep.no && m.page == page
  match s.coldPlace ep page with
  | none => (false, s)
  | some (_, b, lba) =>
    let ref := (e.table, ep.no, page)
    if x.misses.any isPage then
      let s := s.modEngine k fun x => { x with misses := modWhere x.misses isPage fun m => { m with waiters := m.waiters ++ [f] } }
      (true, if (s.nvmeOut 0 k ref).isSome then s else s.nvme b 0 lba k ref [] false)
    else if 4096 ≤ x.misses.length then (false, s)
    else match State.takeSlot k e (e.landing + 1) s with
      | (none, s) => (false, s)
      | (some n, s) =>
        (true, (s.modEngine k fun x => { x with misses := x.misses ++ [⟨e.table, ep.no, page, n, [f]⟩] }).nvme b 0 lba k ref [] false)

/-- A cold update row that can never be applied (R165). -/
def State.coldDrop (s : State) (p : Nat) : State := s.modSvc p fun t => { t with cntColdDrop := t.cntColdDrop + 1 }

/-- Bursts of 64 bytes of a row at an offset. -/
def rowBursts (off n : Nat) : Nat := (chunks 64 off n).length

/-- A row of a gather from its landing page (R162). -/
def State.coldRow (s : State) (k : Nat) (e : TableEntry) (ep : Epoch) (row : Nat) : Data × State :=
  let (page, off) := e.page ep row
  match s.landingOf k e.table ep.no page with
  | none => (Data.clean (zeros e.len), s)
  | some l => (l.row off e.len, s.bursts k (some e.part) (rowBursts off e.len) 0)

/-- Apply a cold update to its landing page (R165). -/
def State.coldApply (s : State) (k : Nat) (e : TableEntry) (ep : Epoch) (p : Part) (pos row : Nat) : State :=
  let (page, off) := e.page ep row
  match s.landingOf k e.table ep.no page with
  | none => s.coldDrop p.part
  | some l =>
    let n := rowBursts off e.len
    match applyUpdate e p (l.row off e.len) (p.entryAt pos) with
    | none => (s.bursts k (some e.part) n 0).updated k p pos false
    | some d => ((s.bursts k (some e.part) n n).modLanding k e.table ep.no page fun l => l.put off d (p.op == 3)).updated k p pos true

/-! ## Taking items (R121, R129 to R133) -/

/-- Tags held (R131). -/
def Engine.tags (x : Engine) : Nat := (x.fetches.filter (·.tag)).length

/-- A row access takes a tag (R131). -/
def State.issueFetch (s : State) (k : Nat) (f : Fetch) : State :=
  s.modEngine k fun y => { y with fetches := y.fetches ++ [f], tagsHigh := max y.tagsHigh (y.tags + 1) }

/-- Take one index of a gather (R121, R154): it joins the copy of its slice or is fetched. -/
def State.takeIndex (s : State) (k id : Nat) (it : Item) : State :=
  match s.heldPart k id with
  | none => s
  | some p =>
    match s.partTable p with
    | none => s
    | some e =>
      let ep := s.epoch p.table p.epoch
      let oor := match ep with | some x => decide (x.rows ≤ it.row) | none => true
      let s := s.countEngine k fun c => { c with indices := c.indices + 1, range := if oor then c.range + 1 else c.range }
      let s := s.countRow k e ep it.row
      let open_ := p.slices == 0 || (!p.distinct.contains it.row && decide (p.window ≤ p.distinct.length))
      let slices := if open_ then p.slices + 1 else p.slices
      let fresh := open_ || !p.distinct.contains it.row
      let sl := slices - 1
      let win := bits (s.reg (engineBase k + 0x20)) 13 0
      let s := s.modHeld k id fun p => { p with
        slices, got := p.got ++ [(it.pos, it.row, sl)]
        window := if open_ then win else p.window
        distinct := if open_ then [it.row] else if fresh then it.row :: p.distinct else p.distinct
        fetched := if fresh then p.fetched + 1 else p.fetched }
      let s := s.countEngine k fun c => { c with
        slices := if open_ then c.slices + 1 else c.slices
        fetches := if fresh then c.fetches + 1 else c.fetches
        dedup := if fresh then c.dedup else c.dedup + 1 }
      if !fresh then s else
      let dflt (n : Nat) (s : State) : State := s.giveRow k id ⟨sl, it.row, defaultRow e ep, false, n⟩
      let f : Fetch := ⟨id, sl, it.pos, it.row, p.table, p.epoch, false, p.deadline, true⟩
      match ep with
      | none => dflt 1 s
      | some x =>
        if oor then dflt 1 s
        else if x.isCold it.row then
          let (page, _) := e.page x it.row
          if (s.landingOf k e.table x.no page).isSome then s.issueFetch k f
          else if p.deadline < s.now (.rowEngine k) then dflt 2 s else
            let (ok, s) := s.coldMiss k e x page f
            if ok then s else dflt 2 s
        else s.issueFetch k f

/-- An update row bound to an epoch that is neither CURRENT nor STAGING is stale (R129, R148); one of a request with BATCH 0xFFFF_FFFF
never is, and changes the epoch it has bound (R129, where R148 would discard it: DESIGN CHOICE, log entry 50). -/
def Part.refuses (p : Part) (x : Epoch) : Bool := x.st != 1 && x.st != 2 && !p.anyEpoch

/-- Take one row of an add or write (R128, R129, R165). -/
def State.takeRow (s : State) (k id : Nat) (it : Item) : State :=
  match s.heldPart k id with
  | none => s
  | some p =>
    let n := p.got.length
    let s := s.modHeld k id fun p => { p with got := p.got ++ [(it.pos, it.row, 0)] }
    let p := { p with got := p.got ++ [(it.pos, it.row, 0)] }
    if n < p.skipTo then s else
    let range (s : State) : State := (s.modHeld k id fun p => { p with range := p.range + 1 }).countEngine k fun c => { c with range := c.range + 1 }
    let stale (s : State) : State := (s.modHeld k id fun p => { p with stale := p.stale + 1 }).countEngine k fun c => { c with stale := c.stale + 1 }
    match s.partTable p, s.epoch p.table p.epoch with
    | some e, some x =>
      if p.refuses x then stale s else
      if x.rows ≤ it.row then range s else
      let f : Fetch := ⟨id, 0, it.pos, it.row, p.table, p.epoch, true, 0, true⟩
      if x.isCold it.row then
        let (page, _) := e.page x it.row
        if (s.landingOf k e.table x.no page).isSome then s.issueFetch k f
        else
          let (ok, s) := s.coldMiss k e x page f
          if ok then s else s.coldDrop p.part
      else s.issueFetch k f
    | _, none => if p.epoch = 0 then range s else stale s
    | none, some _ => stale s

/-- Move the first waiting part that may be held into the engine (R133); an update part of a source and number that a held
part already carries waits for it. A number already applied is skipped (R130); a partial mark gives where to go on (R410). -/
def State.admitPart (s : State) (k : Nat) : State :=
  let x := s.engine k
  if 64 ≤ (x.parts.filter fun p => !p.done).length then s else
  match x.input.find? fun p => !(s.checked p && x.parts.any fun q => !q.done && q.src == p.src && q.seq == p.seq && q.op != 1) with
  | none => s
  | some p =>
    let s := s.modEngine k fun x => { x with input := x.input.filter fun q => q.id != p.id }
    let y := s.srcState k p.src
    let (p, skip) : Part × Bool :=
      if !s.checked p then (p, false) else
      match y.mark with
      | some (n, m) => if n = p.seq then ({ p with skipTo := m }, false)
                       else if y.applied p.seq then ({ p with seqSkip := true, items := [], done := true }, true) else (p, false)
      | none => if y.applied p.seq then ({ p with seqSkip := true, items := [], done := true }, true) else (p, false)
    let s := s.modEngine k fun x => { x with parts := x.parts ++ [p] }
    if skip then s.countEngine k fun c => { c with seqSkip := c.seqSkip + 1 } else s

/-- The next turn of the engine (R133): 256 items of the first of the 16 oldest parts that has some, which then goes behind
the other fifteen; nothing while every tag is held (R132). -/
def State.takeTurn (s : State) (k : Nat) : State :=
  let ready := (((s.engine k).parts.filter fun p => !p.done && !p.items.isEmpty).take 16)
  match ready with
  | [] => s
  | p :: rest =>
    if 8192 ≤ (s.engine k).tags then
      let (n, s) := s.draw (2 ^ 32)
      s.countEngine k fun c => { c with tagFull := c.tagFull + BitVec.ofNat 64 n }
    else
    let n := min 256 (8192 - (s.engine k).tags)
    let items := p.items.take n
    let s := s.modHeld k p.id fun p => { p with items := p.items.drop n }
    let s := items.foldl (fun s it => if p.op = 1 then s.takeIndex k p.id it else s.takeRow k p.id it) s
    let s := s.modEngine k fun x =>
      let ids := (p :: rest).map (·.id)
      { x with parts := (x.parts.filter fun q => (rest.map (·.id)).contains q.id) ++ (x.parts.filter fun q => q.id == p.id)
          ++ x.parts.filter fun q => !ids.contains q.id }
    s.partTry k p.id

/-- REQUEST_PART (R133, R136). -/
def execRequestPart (k : Nat) (s : State) : Host.Outcome State Fault Refusal :=
  .next (if (s.engine k).st ≠ 1 then s.engineLost k else if (s.engine k).paused then s else (s.admitPart k).takeTurn k)

/-! ## Fetches (R122, R127, R128, R131) -/

/-- Fetch n may complete: no earlier one on its row conflicts with it, and an update is the next of its part in list order
(R128). -/
def State.fetchReady (s : State) (k n : Nat) (f : Fetch) : Bool :=
  let x := s.engine k
  !((x.fetches.take n).any fun g => g.table == f.table && g.epoch == f.epoch && g.row == f.row && (g.update || f.update)) &&
    !(f.update && (x.fetches ++ x.misses.flatMap (·.waiters)).any fun g => g.part == f.part && decide (g.pos < f.pos))

/-- A row of a gather: from the home's storage, or from the replica held here (R108). -/
def State.gatherRow (s : State) (k : Nat) (e : TableEntry) (ep : Epoch) (f : Fetch) : Data × State :=
  let home := e.home (some ep) f.row
  match (s.engine k).held.find? fun r => r.table == f.table && r.epoch == f.epoch && r.row == f.row with
  | some r => if home = k then s.areaRead 3 e.part k (e.rowOff ep f.row) e.len else s.areaRead 4 r.part k r.off r.len
  | none => s.areaRead 3 e.part home (e.rowOff ep f.row) e.len

/-- The read of a row access has returned: a gather's row goes to its part, an update is applied (R127, R128). -/
def State.runFetch (s : State) (k : Nat) (e : TableEntry) (ep : Epoch) (p : Part) (f : Fetch) : State :=
  if !f.update then
    let (d, s) := if ep.isCold f.row then s.coldRow k e ep f.row else s.gatherRow k e ep f
    s.giveRow k p.id ⟨f.slice, f.row, d.bytes, d.marked, 0⟩
  else if p.refuses ep then
    (s.modHeld k p.id fun p => { p with stale := p.stale + 1 }).countEngine k fun c => { c with stale := c.stale + 1 }
  else if ep.isCold f.row then s.coldApply k e ep p f.pos f.row
  else
    let off := e.rowOff ep f.row
    let (d, s) := s.areaRead 3 e.part k off e.len
    match applyUpdate e p d (p.entryAt f.pos) with
    | none => s.updated k p f.pos false
    | some v =>
      let s := if p.op = 3 then s.areaUnmark 3 e.part k off e.len else s
      ((s.areaWrite 3 e.part k off v).updated k p f.pos true).propagate k f.table f.epoch f.row v.bytes

/-- The n-th row access returns (R131); one that waited for its page in a cold-miss entry needs a tag for it. -/
def State.fetchDone (s : State) (k n : Nat) (err : EngineErr) : State :=
  let cause := match err with
    | .none => 0 | .poolResidue => 1 | .addResidue => 2 | .dedupUncorrectable => 3 | .tagUncorrectable => 4
  match (s.engine k).fetches[n]? with
  | none => s
  | some f =>
    if !s.fetchReady k n f ∨ (!f.tag ∧ 8192 ≤ (s.engine k).tags) then s else
    if cause ≠ 0 then s.engineFault k cause else
    let s := s.modEngine k fun x => { x with
      fetches := x.fetches.eraseIdx n, tagsHigh := if f.tag then x.tagsHigh else max x.tagsHigh (x.tags + 1) }
    match s.heldPart k f.part with
    | none => s
    | some p =>
      match s.partTable p, s.epoch f.table f.epoch with
      | some e, some ep => (s.runFetch k e ep p f).partTry k p.id
      | some e, none => (if f.update then s else s.giveRow k p.id ⟨f.slice, f.row, defaultRow e none, false, 1⟩).partTry k p.id
      | _, _ => s.partTry k p.id

/-- ROW_FETCH_DONE (R131). -/
def execRowFetchDone (k n : Nat) (err : EngineErr) (s : State) : Host.Outcome State Fault Refusal := .next (s.fetchDone k n err)

/-! ## Cold pages -/

/-- Serve a gather occurrence as the default row of its table (R163, R164). -/
def State.serveDefault (s : State) (k : Nat) (f : Fetch) : State :=
  match s.heldPart k f.part with
  | none => s
  | some p => match s.partTable p with
    | none => s
    | some e => (s.giveRow k p.id ⟨f.slice, f.row, defaultRow e (s.epoch f.table f.epoch), false, 2⟩).partTry k p.id

/-- An update row whose page can no longer be read is discarded and counted (R165). -/
def State.serveDropped (s : State) (k : Nat) (f : Fetch) : State :=
  match s.heldPart k f.part with
  | none => s
  | some p => (s.coldDrop p.part).partTry k p.id

/-- A cold-miss entry whose page cannot come ends: its gather occurrences take the default row and its update rows are discarded (R164,
R165). -/
def State.endMiss (s : State) (k : Nat) (m : ColdMiss) : State :=
  let s := s.modEngine k fun x => { x with misses := x.misses.erase m }
  m.waiters.foldl (fun s f => if f.update then s.serveDropped k f else s.serveDefault k f) s

/-- A cold read that will not complete installs nothing: the gather occurrences of its entry go on to their deadlines, and its update rows
are discarded (R165, R434, R435). -/
def State.readAborted (s : State) (c : Nvme) : State :=
  let k := c.stack
  let mine (m : ColdMiss) : Bool := (m.table, m.epoch, m.page) == c.ref
  if c.kind ≠ 0 then s else
  let gone := ((s.engine k).misses.filter mine).flatMap fun m => m.waiters.filter (·.update)
  let s := s.modEngine k fun x => { x with
    misses := (modWhere x.misses mine fun m => { m with waiters := m.waiters.filter fun f => !f.update }).filter fun m =>
      !(mine m && m.waiters.isEmpty) }
  gone.foldl (fun s f => s.serveDropped k f) s

/-- The page of the n-th cold-miss entry arrives (R162): it is installed and its waiters go on to read or change it, one whose deadline
has passed being served as the default row (R163); a read error installs it marked (R433). -/
def State.pageArrival (s : State) (k n : Nat) (data : Bytes) (marked : Bool) : State :=
  match (s.engine k).misses[n]? with
  | none => s
  | some m =>
    match s.anyTable m.table, s.epoch m.table m.epoch with
    | some e, some ep =>
      match s.nvmeOut 0 k (m.table, m.epoch, m.page) with
      | none => s
      | some b =>
        match (s.bay b).cmds.find? fun c => c.kind == 0 && c.stack == k && c.ref == (m.table, m.epoch, m.page) with
        | none => s
        | some c =>
          let serial := match ep.serials[m.page % max 1 ep.serials.length]? with | some x => x.2 | none => (s.bay b).serial
          let s := s.modBay b fun x => { x with
            cmds := x.cmds.filter fun y => y.id != c.id
            rdPages := if marked then x.rdPages else x.rdPages + 1, rdErr := if marked then x.rdErr + 1 else x.rdErr }
          let s := if marked then s.cartFault b 4 else s
          let now := s.now (.rowEngine k)
          let late (f : Fetch) : Bool := !f.update && decide (f.deadline < now)
          let l : Landing := { table := e.table, slot := m.slot, epoch := ep.no, page := m.page
                               data := data.take 4096 ++ zeros (4096 - data.length), marks := if marked then List.range 64 else []
                               dirty := false, pinned := false, serial, lba := c.lba, writing := false }
          let s := s.modEngine k fun x => { x with
            misses := x.misses.eraseIdx n, landing := x.landing ++ [l]
            fetches := x.fetches ++ (m.waiters.filter fun f => !late f).map fun f => { f with tag := false } }
          let s := (s.bursts k (some e.part) 0 64).modSvc e.part fun t => { t with cntColdMiss := t.cntColdMiss + 1 }
          (m.waiters.filter late).foldl (fun s f => s.serveDefault k f) s
    | _, _ => s.endMiss k m

/-- Every occurrence whose deadline has come is served as the default row (R163). -/
def State.coldDeadline (s : State) (k : Nat) : State :=
  let now := s.now (.rowEngine k)
  let due := (s.engine k).misses.flatMap fun m => m.waiters.filter fun f => !f.update && decide (f.deadline ≤ now)
  let later (m : ColdMiss) : ColdMiss := { m with waiters := m.waiters.filter fun f => f.update || decide (now < f.deadline) }
  let s := s.modEngine k fun x => { x with misses := x.misses.map later }
  let s := due.foldl (fun s f => s.serveDefault k f) s
  let coming (m : ColdMiss) : Bool := (s.nvmeOut 0 k (m.table, m.epoch, m.page)).isSome
  s.modEngine k fun x => { x with misses := x.misses.filter fun m => !m.waiters.isEmpty || coming m }

/-- COLD_DEADLINE (R163). -/
def execColdDeadline (k : Nat) (s : State) : Host.Outcome State Fault Refusal := .next (s.coldDeadline k)

/-- The write-back of the n-th landing page being written completes (R165, R434): the page is unpinned; one evicted goes, unless a row
changed it meanwhile: then it is written again. -/
def State.writeBackDone (s : State) (k n : Nat) : State :=
  match ((s.engine k).landing.filter (·.writing))[n]? with
  | none => s
  | some l =>
    if (s.nvmeOut 1 k (l.table, l.epoch, l.page)).isSome then s else
    let serial := match (s.epoch l.table l.epoch).bind fun ep => ep.serials[l.page % max 1 ep.serials.length]? with
      | some x => x.2
      | none => l.serial
    if l.slot = evictedSlot ∧ !l.dirty ∧ !s.awaited k l then
      s.modEngine k fun x => { x with landing := x.landing.filter fun y =>
        !(y.table == l.table && y.epoch == l.epoch && y.page == l.page) }
    else
      let l' := { l with writing := false, pinned := false, serial }
      let s := s.modLanding k l.table l.epoch l.page fun _ => l'
      if l.slot = evictedSlot then s.writeBack k l' else s

/-! ## Marquetry commands -/

/-- SKETCH_HALVING (R154, R155): after each 2^24 occurrences; rows left below half the threshold are withdrawn. -/
def execSketchHalving (k : Nat) (s : State) : Host.Outcome State Fault Refusal :=
  .next (if (s.engine k).occ < 2 ^ 24 then s else
    let s := s.modEngine k fun x => { x with sketch := sketchHalve x.sketch, occ := x.occ - 2 ^ 24 }
    (s.engine k).replicas.foldl (fun s r => match s.anyTable r.table with
      | some e => if 2 * s.estimate k r.table r.row < e.hot then s.withdraw k r else s
      | none => s) s)

/-- COUNT_MESSAGE_SEND (R154). -/
def execCountMessageSend (k home : Nat) (s : State) : Host.Outcome State Fault Refusal :=
  let mine := (s.engine k).counts.filter fun c => c.home == home
  .next { (s.modEngine k fun x => { x with counts := x.counts.filter fun c => c.home != home }) with
    countMsgs := s.countMsgs ++ mine }

/-- COUNT_MESSAGE (R154): the oldest count on its way to home k. -/
def execCountMessage (k : Nat) (s : State) : Host.Outcome State Fault Refusal :=
  .next (match s.countMsgs.find? fun c => c.home == k with
    | none => s
    | some c =>
      let s := { s with countMsgs := s.countMsgs.erase c }
      (s.modEngine k fun x => { x with sketch := sketchAdd 65535 x.sketch (sketchPlaces c.table c.row 0) c.count }).tryReplicate
        k c.table c.row)

/-- REPLICA_WRITE (R157): the oldest replica write that has not landed at stack k. -/
def State.replicaWrite (s : State) (k : Nat) : State :=
  match s.replWrites.findIdx? fun w => w.dest == k && !w.landed with
  | none => s
  | some i =>
    match s.replWrites[i]? with
    | none => s
    | some w =>
      let s := { s with replWrites := s.replWrites.modify i fun w => { w with landed := true } }
      let s := match (s.engine k).held.find? fun r => r.table == w.table && r.epoch == w.epoch && r.row == w.row with
        | some r => (s.areaUnmark 4 r.part k r.off r.len).areaWrite 4 r.part k r.off (Data.clean w.data)
        | none => s
      s.countEngine k fun c => { c with replicaWr := c.replicaWr + 1 }

/-- REPLICA_WRITE (R157). -/
def execReplicaWrite (k : Nat) (s : State) : Host.Outcome State Fault Refusal := .next (s.replicaWrite k)

/-- The acknowledgement of the oldest landed replica write of home k (R156, R157). -/
def State.replicaAck (s : State) (k : Nat) : State :=
  match s.replWrites.findIdx? fun w => w.home == k && w.landed with
  | none => s
  | some i =>
    match s.replWrites[i]? with
    | none => s
    | some w =>
      let left := s.replWrites.eraseIdx i
      let more := left.any fun v => v.home == k && v.dest == w.dest && v.table == w.table && v.epoch == w.epoch && v.row == w.row
      let s := s.modEngine k fun x => { x with replicas := x.replicas.map fun r =>
        if r.table = w.table ∧ r.epoch = w.epoch ∧ r.row = w.row ∧ !more then { r with acks := r.acks.erase w.dest } else r }
      { s with replWrites := left }

/-- REPLICA_WRITE_ACK (R157). -/
def execReplicaWriteAck (k : Nat) (s : State) : Host.Outcome State Fault Refusal := .next (s.replicaAck k)

/-- Replica sets with every acknowledgement enter the directories (R156). -/
def State.replicaLive (s : State) (k : Nat) : State :=
  let now := (s.engine k).replicas.filter fun r => !r.live && r.acks.isEmpty
  let s := s.modEngine k fun x => { x with replicas := x.replicas.map fun r => if r.acks.isEmpty then { r with live := true } else r }
  now.foldl (fun s r => match s.tablePart r.table with
    | some p => s.modSvc p fun t => { t with cntReplMade := t.cntReplMade + BitVec.ofNat 64 r.copies.length }
    | none => s) s

/-- REPLICA_SET_CREATED (R156). -/
def execReplicaSetCreated (k : Nat) (s : State) : Host.Outcome State Fault Refusal := .next (s.replicaLive k)

/-- Withdraw every replica of home k whose write is unacknowledged at REPL_LAG − 2 µs (R157). -/
def State.replicaLag (s : State) (k : Nat) : State :=
  let now := s.now (.rowEngine k)
  let late := s.replWrites.filter fun w => w.home == k && match s.anyTable w.table with
    | some e => decide (w.appliedAt + 1000 * (e.replLag - 2) ≤ now)
    | none => true
  late.foldl (fun s w =>
    let hit := (s.engine k).replicas.any fun r => r.table == w.table && r.epoch == w.epoch && r.row == w.row && r.copies.contains w.dest
    let s := s.modEngine k fun x => { x with replicas := (x.replicas.map fun r =>
      if r.table = w.table ∧ r.epoch = w.epoch ∧ r.row = w.row then
        { r with copies := r.copies.erase w.dest, acks := r.acks.erase w.dest } else r).filter fun r => r.copies ≠ [] }
    let s := { s with replWrites := s.replWrites.filter fun v =>
      !(v.home == k && v.dest == w.dest && v.table == w.table && v.epoch == w.epoch && v.row == w.row) }
    let s := s.sweepHeld w.dest
    match hit, s.tablePart w.table with
    | true, some p => s.modSvc p fun t => { t with cntReplWithdrawn := t.cntReplWithdrawn + 1 }
    | _, _ => s) s

/-- REPLICA_LAG_EXPIRY (R157). -/
def execReplicaLagExpiry (k : Nat) (s : State) : Host.Outcome State Fault Refusal := .next (s.replicaLag k)

/-! ## Registers (R137, R138) -/

/-- RE_CNT_CTRL[FREEZE] (R137). -/
def execReCntFreeze (k : Nat) (b : Bool) (s : State) : Host.Outcome State Fault Refusal :=
  .next (s.modEngine k fun e => { e with freeze := b })

/-- RE_CNT_CTRL[CLEAR] (R137, R216): the counters of the engine and of its memory controller. -/
def execReCntClear (k : Nat) (s : State) : Host.Outcome State Fault Refusal :=
  .next (s.modEngine k fun e => { e with
    cnt := Engine.fresh.cnt
    mem := { e.mem with
      cntRd := 0, cntWr := 0, cntMerge := 0, cntEvict := 0, cntRdDrain := 0, cntRelDrain := 0, cntCorr := 0, cntUncorr := 0, cntPpr := 0
      regs := e.mem.regs.map fun r => { r with bytes := 0, waits := 0, borrows := 0 } } })

/-- RE_FAULT_STATUS[VALID] is cleared (R138). -/
def execReFaultValidClear (k : Nat) (s : State) : Host.Outcome State Fault Refusal :=
  .next (s.modEngine k fun e => { e with faultValid := false })

end Sys2Proof.Machine
end

