-- ==== Sys2Proof/Machine/Carts.lean ====
section
/-! DEFINITION. Slab cartridges (R426 to R438): insertion, life states, removal, and the commands of CART_CMD. -/
namespace Sys2Proof.Machine

/-- The bay exists (R6). -/
def State.hasBay (s : State) (b : Nat) : Bool := decide (b < s.carts.bays.length)

/-- Report a cartridge event of a bay (R433). -/
def State.cartEvent (s : State) (b sub : Nat) : State := s.cartFault b sub

/-! ## Landing pages of a serial -/

/-- Change the landing pages of every engine that a test picks. -/
def State.modPages (s : State) (p : Landing → Bool) (f : Landing → Landing) : State :=
  { s with engines := s.engines.map fun e => { e with landing := modWhere e.landing p f } }

/-- Dirty pages with the engine that holds them. -/
def State.dirtyPages (s : State) (p : Landing → Bool) : List (Nat × Landing) :=
  (List.range s.engines.length).flatMap fun k =>
    ((s.engine k).landing.filter fun l => l.dirty && !l.writing && p l).map fun l => (k, l)

/-- Write back every dirty page of a serial. -/
def State.writeBackAll (s : State) (serial : Bytes) : State :=
  (s.dirtyPages fun l => l.serial == serial).foldl (fun s x => s.writeBack x.1 x.2) s

/-- A write-back that did not happen leaves its page dirty and pinned (R433, R435). -/
def State.unwritten (s : State) (c : Nvme) : State :=
  if c.kind ≠ 1 ∧ c.kind ≠ 7 then s else
  s.modPages (fun l => (l.table, l.epoch, l.page) == c.ref && l.writing) fun l =>
    { l with writing := false, dirty := true, pinned := true }

/-! ## The end of a command -/

/-- The command in progress ends with a RESULT (R438). -/
def State.cartEnd (s : State) (result : Nat) : State := s.modCarts fun c => { c with busy := false, result }

/-- A FILL or MIGRATE that uses the bay ends with ABORTED and rebinds nothing (R434). -/
def State.abortCopy (s : State) (b : Nat) : State :=
  let c := s.carts
  if !c.busy ∨ (c.op ≠ 2 ∧ c.op ≠ 3) ∨ (c.bay ≠ b ∧ !(c.op == 3 && c.dest == b)) then s else
  let s := (s.carts.bays.flatMap (·.cmds)).foldl (fun s x => if x.kind = 7 then s.unwritten x else s) s
  let s := s.modCarts fun c => { c with bays := c.bays.map fun x => { x with cmds := x.cmds.filter fun n =>
    n.kind != 2 && n.kind != 3 && n.kind != 4 && n.kind != 7 && n.kind != 8 } }
  s.cartEnd 4

/-! ## Ejection (R434) -/

/-- Steps 4 and 5: with nothing outstanding the steward sends Flush and the shutdown. -/
def State.ejectTry (s : State) (b : Nat) : State :=
  if (s.bay b).st = 6 ∧ (s.bay b).cmds = [] then s.nvme b 5 0 0 (0, 0, 0) [] false else s

/-- Every bay in turn. -/
def State.ejectAll (s : State) : State := (List.range s.carts.bays.length).foldl State.ejectTry s

/-! ## FILL and MIGRATE (R436) -/

/-- Send the next page of a FILL; a host page that cannot be read ends it with HOST_ERROR, a cartridge that no longer takes
writes with BAY_STATE. -/
def State.fillNext (s : State) : State :=
  let c := s.carts
  if c.count ≤ c.progress then s.cartEnd 0 else
  let (d, s) := s.hostRead (s.reg 0x3800010 + 4096 * c.progress) 4096
  if d.marked then s.cartEnd 5 else
  let (ok, s) := s.nvmeWrite c.bay 2 (c.lba + c.progress) 0 (0, 0, 0) d.bytes false
  if ok then s else s.cartEnd 2

/-- Every epoch that records a serial records another (R432, R436); pages not being written follow. -/
def State.rebindSerial (s : State) (old new : Bytes) : State :=
  ({ s with epochs := s.epochs.map fun e => { e with
      serials := e.serials.map fun (x : Nat × Bytes) => if x.2 = old then (x.1, new) else x } } : State).modPages
    (fun l => l.serial == old && !l.writing) fun l => { l with serial := new }

/-- The end of a MIGRATE once nothing of its last writes is out: the rebind and the RESULT. -/
def State.migrateEnd (s : State) : State :=
  let c := s.carts
  if (s.bay c.dest).cmds.any fun n => n.kind == 7 then s else
  let s := if c.rebind then s.rebindSerial (s.bay c.bay).serial (s.bay c.dest).serial else s
  s.cartEnd (if c.progressErr = 0 then 0 else 3)

/-- Read the next page of a MIGRATE; after the last, the pinned pages of a READ_ONLY source are written to the destination. -/
def State.migrateNext (s : State) : State :=
  let c := s.carts
  if c.progress < c.count then s.nvme c.bay 3 (c.lba + c.progress) 0 (0, 0, 0) [] false else
  let s := if (s.bay c.bay).st ≠ 4 then s else
    (s.dirtyPages fun l => l.pinned && l.serial == (s.bay c.bay).serial).foldl (fun s (k, l) =>
      let (ok, s) := s.nvmeWrite c.dest 7 l.lba k (l.table, l.epoch, l.page) l.data (!l.marks.isEmpty)
      if ok then s.modLanding k l.table l.epoch l.page fun l => { l with writing := true, dirty := false } else s) s
  s.migrateEnd

/-! ## NVMe completions (R427) -/

/-- A page has been written to a bay: counted, and its bytes enter WRITTEN (R430). -/
def State.pageWritten (s : State) (b : Nat) : State :=
  (s.modBay b fun x => { x with wrPages := x.wrPages + 1 }).addWritten (s.bay b).serial 4096

/-- What the completion of a command does. -/
def State.nvmeDone (s : State) (b : Nat) (c : Nvme) (ok : Bool) (data : Bytes) : State :=
  match c.kind with
  | 1 => if ok then s.pageWritten b else (s.unwritten c).cartFault b 5
  | 2 =>
    if ok then ((s.pageWritten b).modCarts fun c => { c with progress := c.progress + 1 }).fillNext
    else
      let (r, s) := (s.cartFault b 5).draw 16
      s.cartEnd r
  | 3 =>
    let s := s.modBay b fun x => if ok then { x with rdPages := x.rdPages + 1 } else { x with rdErr := x.rdErr + 1 }
    let s := if ok then s else (s.cartFault b 4).modCarts fun c => { c with progressErr := c.progressErr + 1 }
    let dest := s.carts.dest
    let (sent, s) := if ok then s.nvmeWrite dest 4 c.lba 0 (0, 0, 0) (data.take 4096 ++ zeros (4096 - data.length)) false
      else s.nvmeWrite dest 8 c.lba 0 (0, 0, 0) [] true
    if sent then s else s.cartEnd 2
  | 4 =>
    if ok then ((s.pageWritten b).modCarts fun c => { c with progress := c.progress + 1 }).migrateNext
    else
      let (r, s) := (s.cartFault b 5).draw 16
      s.cartEnd r
  | 5 =>
    let s := s.modBay b fun x => { x with st := 7, released := false }
    if s.carts.busy ∧ s.carts.op = 1 ∧ s.carts.bay = b then s.cartEnd 0 else s
  | 6 => if ok then s.pageWritten b else s.cartFault b 5
  | 7 =>
    let s := if ok then (s.pageWritten b).modPages (fun l => (l.table, l.epoch, l.page) == c.ref) fun l =>
        { l with writing := false, pinned := false }
      else (s.unwritten c).cartFault b 5
    if s.carts.busy ∧ s.carts.op = 3 then s.migrateEnd else s
  | 8 => (s.modCarts fun c => { c with progress := c.progress + 1 }).migrateNext
  | _ => s

/-- The n-th command outstanding at a bay completes; a cold read completes by COLD_PAGE_ARRIVAL. -/
def State.nvmeCompletion (s : State) (b n : Nat) (ok : Bool) (data : Bytes) : State :=
  match (s.bay b).cmds[n]? with
  | none => s
  | some c =>
    if c.kind = 0 then s else
    ((s.modBay b fun x => { x with cmds := x.cmds.eraseIdx n }).nvmeDone b c ok data).ejectAll

/-- NVME_COMPLETION (R427). -/
def execNvmeCompletion (bay n : Nat) (ok : Bool) (data : Bytes) (s : State) : Host.Outcome State Fault Refusal :=
  .next (s.nvmeCompletion bay n ok data)

/-- COLD_PAGE_ARRIVAL (R162): a bay that is being ejected may have waited for it (R434). -/
def execColdPageArrival (k n : Nat) (data : Bytes) (marked : Bool) (s : State) : Host.Outcome State Fault Refusal :=
  .next (s.pageArrival k n data marked).ejectAll

/-! ## Insertion (R431) -/

/-- A cartridge that is present is taken from MEM_READY onwards (R454). -/
def State.startBay (s : State) (b : Nat) : State :=
  let now := s.now .cartridge
  s.modBay b fun x => if x.present ∧ x.st = 0 then { x with st := 1, since := now, settled := false } else x

/-- PRSNT_ASSERT (R431). -/
def State.prsntAssert (s : State) (b : Nat) : State :=
  if !s.hasBay b ∨ (s.bay b).present then s else
  let now := s.now .cartridge
  let s := s.modBay b fun x => { x with present := true, since := now }
  if s.power.memReady then s.startBay b else s

/-- PRSNT_ASSERT (R431). -/
def execPrsntAssert (bay : Nat) (s : State) : Host.Outcome State Fault Refusal := .next (s.prsntAssert bay)

/-- PRESENCE_SETTLED (R431): after 100 ms PERST_N is released and the link trains. -/
def execPresenceSettled (bay : Nat) (s : State) : Host.Outcome State Fault Refusal :=
  let x := s.bay bay
  .next (if x.st = 1 ∧ !x.settled ∧ x.since + 100000000 ≤ s.now .cartridge then
      s.modBay bay fun x => { x with settled := true, released := true }
    else s)

/-- The identity check of R428. -/
def CartInfo.genuine (c : CartInfo) : Bool :=
  let d := c.identity
  let be (l : Bytes) : Nat := leNat l.reverse
  bits (wordAt d 0) 31 0 == 0x42414C53 && byteAt d 4 == 1 && byteAt d 5 == 1 && d.length == 256 && c.lba4k
    && decide (wordAt d 3 / 4096 ≤ c.blocks)
    && ecdsaVerify Config.cartridgeKey (sha384 (d.take 160)) (be ((d.drop 160).take 48)) (be ((d.drop 208).take 48))

/-- The bay holds a cartridge in RETIRED with PERST_N asserted until it is removed. -/
def State.holdRetired (s : State) (b sub : Nat) : State :=
  (s.modBay b fun x => { x with st := 5, released := false }).cartFault b sub

/-- The serial is among those inserted last, of which 16 are kept (R430). -/
def Carts.remember (c : Carts) (serial : Bytes) : Carts :=
  let old := ((c.written.find? fun e => e.1 == serial).map Prod.snd).getD 0
  let l := c.written.filter (fun e => e.1 != serial) ++ [(serial, old)]
  { c with written := l.drop (l.length - 16) }

/-- CONTROLLER_READY (R428 to R431): identity, SMART page, life state; dirty pages of a serial that returns are written back. -/
def State.controllerReady (s : State) (b : Nat) (i : CartInfo) : State :=
  if (s.bay b).st ≠ 1 ∨ !(s.bay b).settled then s else
  if !(CartInfo.genuine i) then s.holdRetired b 1 else
  let d := i.identity
  let serial := (d.drop 8).take 16
  let width := if (s.bay b).linkPerm = 0 then i.width else min 2 i.width
  let s := (s.modBay b fun x => { x with
      st := 2, width, model := byteAt d 5, serial, capacity := wordAt d 3, endurance := wordAt d 4
      mfg := bits (wordAt d 5) 31 0, smartWritten := i.smart.dataUnits * 512000 }).modCarts fun c => c.remember serial
  let s := if width < 4 ∧ (s.bay b).linkPerm = 0 then s.cartFault b 9 else s
  let s := s.decideLife b i.smart.critical i.smart.fatal
  let s := if (s.bay b).reads then s.cartFault b 10 else s
  if (s.bay b).writes then s.writeBackAll serial else s

/-- CONTROLLER_READY (R431). -/
def execControllerReady (bay : Nat) (info : CartInfo) (s : State) : Host.Outcome State Fault Refusal :=
  .next (s.controllerReady bay info)

/-- NOT_READY (R431). -/
def execNotReady (bay : Nat) (s : State) : Host.Outcome State Fault Refusal :=
  .next (if (s.bay bay).st = 1 ∧ (s.bay bay).settled then s.holdRetired bay 2 else s)

/-- SMART_POLL (R430). -/
def execSmartPoll (bay : Nat) (smart : Smart) (s : State) : Host.Outcome State Fault Refusal :=
  .next (if (s.bay bay).reads then
      (s.modBay bay fun x => { x with smartWritten := max x.smartWritten (smart.dataUnits * 512000) }).decideLife bay smart.critical
        smart.fatal
    else s)

/-! ## Removal (R434, R435) -/

/-- CART_REMOVAL: after an ejection, or of a cartridge that was held, the bay is EMPTY; else it is a surprise: what has not
completed does not happen, dirty pages stay pinned. An OFFLINE bay stays so (R433). -/
def State.cartRemoval (s : State) (b : Nat) : State :=
  let x := s.bay b
  if !s.hasBay b ∨ !x.present then s else
  let surprise := x.st != 7 && x.st != 5 && x.st != 0 && x.st != 8
  let s := s.abortCopy b
  let out := (s.bay b).cmds
  let s := out.foldl State.unwritten s
  let s := s.modBay b fun x => { x with
    st := if x.st = 8 then 8 else 0, present := false, settled := false, width := 0, cmds := [], released := false }
  let s := out.foldl State.readAborted s
  let s := s.modPages (fun l => l.serial == x.serial && l.dirty) fun l => { l with pinned := true }
  let s := if s.carts.busy ∧ s.carts.op = 1 ∧ s.carts.bay = b then s.cartEnd 4 else s
  if surprise then s.cartFault b 8 else s

/-- CART_REMOVAL (R435). -/
def execCartRemoval (bay : Nat) (s : State) : Host.Outcome State Fault Refusal := .next (s.cartRemoval bay)

/-! ## Commands (R436, R438) -/

/-- Take a command: discarded and LOST while one is in progress; the block is absent without cartridge links (R7). -/
def State.cartCommand (s : State) (op bay dest count : Nat) (rebind : Bool) (f : State → State) : State :=
  if s.carts.bays = [] then s else
  if s.carts.busy then s.modCarts fun c => { c with lost := true } else
  f (s.modCarts fun c => { c with
    busy := true, lost := false, result := 0, op, bay, dest, rebind, count, lba := s.reg 0x3800008 % 2 ^ 48, progress := 0
    progressErr := 0 })

/-- EJECT (R434). An EJECT of a bay that a FILL or MIGRATE uses is taken, and ends it. -/
def State.eject (s : State) (b : Nat) : State :=
  (s.abortCopy b).cartCommand 1 b 0 0 false fun s =>
    if !s.hasBay b then s.cartEnd 1 else
    if !(s.bay b).reads then s.cartEnd 2 else
    let s := if (s.bay b).st = 4 then s else s.writeBackAll (s.bay b).serial
    (s.modBay b fun x => { x with st := 6 }).ejectTry b

/-- EJECT (R434). -/
def execEject (bay : Nat) (s : State) : Host.Outcome State Fault Refusal := .next (s.eject bay)

/-- EJECT_ABORT_TIMEOUT (R434): what is outstanding is aborted, and the shutdown follows. -/
def State.ejectAbort (s : State) (b : Nat) : State :=
  if (s.bay b).st ≠ 6 ∨ (s.bay b).cmds.any (fun c => c.kind == 5) then s else
  let out := (s.bay b).cmds
  let s := out.foldl State.unwritten s
  (out.foldl State.readAborted (s.modBay b fun x => { x with cmds := [] })).ejectTry b

/-- EJECT_ABORT_TIMEOUT (R434). -/
def execEjectAbortTimeout (bay : Nat) (s : State) : Host.Outcome State Fault Refusal := .next (s.ejectAbort bay)

/-- The range of a copy lies within a cartridge (R438). -/
def State.inCart (s : State) (b count : Nat) : Bool :=
  decide (4096 * (s.carts.lba + count) ≤ (s.bay b).capacity)

/-- FILL (R436). -/
def State.fill (s : State) (b count : Nat) : State :=
  s.cartCommand 2 b 0 count false fun s =>
    if !s.hasBay b ∨ count = 0 then s.cartEnd 1
    else if !(s.bay b).writes then s.cartEnd 2
    else if !s.inCart b count then s.cartEnd 1
    else s.fillNext

/-- FILL (R436). -/
def execFill (bay count : Nat) (s : State) : Host.Outcome State Fault Refusal := .next (s.fill bay count)

/-- MIGRATE (R436). -/
def State.migrate (s : State) (b dest count : Nat) (rebind : Bool) : State :=
  s.cartCommand 3 b dest count rebind fun s =>
    if !s.hasBay b ∨ !s.hasBay dest ∨ count = 0 then s.cartEnd 1
    else if !(s.bay b).reads ∨ !(s.bay dest).writes then s.cartEnd 2
    else if !s.inCart b count ∨ !s.inCart dest count then s.cartEnd 1
    else s.migrateNext

/-- MIGRATE (R436). -/
def execMigrate (bay dest count : Nat) (rebind : Bool) (s : State) : Host.Outcome State Fault Refusal :=
  .next (s.migrate bay dest count rebind)

/-- The serial in CART_ARG1 and CART_ARG2. -/
def State.argSerial (s : State) : Bytes := leBytes 8 (s.reg 0x3800010) ++ leBytes 8 (s.reg 0x3800018)

/-- ADOPT (R436). -/
def execAdopt (bay : Nat) (s : State) : Host.Outcome State Fault Refusal :=
  .next (s.cartCommand 4 bay 0 0 false fun s =>
    if !s.hasBay bay then s.cartEnd 1
    else if !(s.bay bay).reads then s.cartEnd 2
    else
      let s := (s.rebindSerial s.argSerial (s.bay bay).serial).cartEnd 0
      if (s.bay bay).writes then s.writeBackAll (s.bay bay).serial else s)

/-- The bay whose counter takes the dropped pages of a serial: the one that last held it, else bay 0 (log entry 42). -/
def State.dropBay (s : State) (serial : Bytes) : Nat := (s.carts.bays.findIdx? fun b => b.serial == serial).getD 0

/-- Drop landing pages: counted in CART_CNT_DROPPED of their bay. -/
def State.dropPages (s : State) (p : Landing → Bool) : State :=
  let gone := s.engines.flatMap fun e => e.landing.filter p
  let s : State := { s with engines := s.engines.map fun e => { e with landing := e.landing.filter fun l => !p l } }
  gone.foldl (fun s l => s.modBay (s.dropBay l.serial) fun x => { x with droppedPages := x.droppedPages + 1 }) s

/-- DISCARD_DIRTY (R435). -/
def execDiscardDirty (s : State) : Host.Outcome State Fault Refusal :=
  .next (s.cartCommand 5 0 0 0 false fun s =>
    (s.dropPages fun l => l.serial == s.argSerial && l.dirty && l.pinned && !l.writing).cartEnd 0)

/-- CART_CMD_NOP (R438). -/
def execCartCmdNop (op : Nat) (s : State) : Host.Outcome State Fault Refusal :=
  .next (s.cartCommand op 0 0 0 false fun s => s.cartEnd 0)

end Sys2Proof.Machine
end

