-- ==== Sys2Proof/Machine/Compression.lean ====
section
/-! DEFINITION. Lossless compression (R219 to R239): Huffman code lengths, canonical codes, the stored form, decoding,
generations, and the commands of a context. -/
namespace Sys2Proof.Machine

/-! ## Codes (R222, R224) -/

/-- A node of the join: weight, number and the leaves under it. -/
structure HNode where
  weight : Nat
  num : Nat
  leaves : List Nat
  deriving DecidableEq, Repr

/-- The node is taken before the other: less weight, of equal weights the lower number (R222). -/
def HNode.before (a b : HNode) : Bool := a.weight < b.weight || (a.weight == b.weight && a.num < b.num)

/-- The node taken first, and the rest. -/
def takeLeast : List HNode → Option (HNode × List HNode)
  | [] => none
  | a :: l => match takeLeast l with
    | none => some (a, [])
    | some (b, r) => if a.before b then some (a, l) else some (b, a :: r)

/-- Join until one node remains; each join makes its leaves one deeper. -/
def joinAll : Nat → Nat → List HNode → List Nat → List Nat
  | 0, _, _, depth => depth
  | f + 1, next, nodes, depth =>
    match takeLeast nodes with
    | none => depth
    | some (a, r) => match takeLeast r with
      | none => depth
      | some (b, r) =>
        let ls := a.leaves ++ b.leaves
        joinAll f (next + 1) (r ++ [⟨a.weight + b.weight, next, ls⟩]) (ls.foldl (fun d s => d.modify s (· + 1)) depth)

/-- Code lengths of a histogram of 256 counts, each at least 1: halved until no code exceeds 15 bits (R222). -/
def codeLengths : Nat → List Nat → List Nat
  | 0, _ => List.replicate 256 8
  | f + 1, count =>
    let ls := joinAll 256 256 (count.mapIdx fun s w => ⟨w, s, [s]⟩) (List.replicate 256 0)
    if ls.all (· ≤ 15) then ls else codeLengths f (count.map fun n => (n + 1) / 2)

/-- Occurrences of every byte value plus 1 (R222). -/
def histogram (b : Bytes) : List Nat := b.foldl (fun h x => h.modify x.toNat (· + 1)) (List.replicate 256 1)

/-- Values of length n. -/
def lenCount (ls : List Nat) (n : Nat) : Nat := (ls.filter (· == n)).length

/-- first(n) of R224. -/
def firstCode (ls : List Nat) : Nat → Nat
  | 0 => 0
  | 1 => 0
  | n + 1 => (firstCode ls n + lenCount ls n) * 2

/-- The code of a byte value; length 0 for none (R224). -/
def codeOf (ls : List Nat) (v : Nat) : Nat := firstCode ls (ls.getD v 0) + lenCount (ls.take v) (ls.getD v 0)

/-- The byte value whose code of n bits is c. -/
def valueOf (ls : List Nat) (n c : Nat) : Option Nat :=
  if n = 0 ∨ 15 < n ∨ c < firstCode ls n ∨ firstCode ls n + lenCount ls n ≤ c then none
  else (((List.range 256).filter fun v => ls.getD v 0 == n))[c - firstCode ls n]?

/-! ## Table records (R228) -/

/-- The 128 bytes of LENGTHS. -/
def packLengths (ls : List Nat) : Bytes :=
  (List.range 128).map fun j => BitVec.ofNat 8 (ls.getD (2 * j) 0 + 16 * ls.getD (2 * j + 1) 0)

def unpackLengths (b : Bytes) : List Nat := (b.take 128).flatMap fun x => [x.toNat % 16, x.toNat / 16]

/-- A table record. -/
def tableRecord (ctx gen stamp : Nat) (ls : List Nat) : Bytes :=
  let l := packLengths ls
  leBytes 2 0x4C9F ++ [BitVec.ofNat 8 (gen + 16 * ctx), 1] ++ leBytes 4 (crc32c l) ++ leBytes 8 stamp ++ l ++ zeros 112

/-- Kraft sum of the lengths 1 to 15, in units of 2^-15. -/
def kraft (ls : List Nat) : Nat := (ls.map fun n => if n = 0 ∨ 15 < n then 0 else 2 ^ (15 - n)).sum

/-- A valid record (R228). -/
def recordValid (b : Bytes) : Bool :=
  leNat (b.take 2) == 0x4C9F && byteAt b 3 == 1 && leNat ((b.drop 4).take 4) == crc32c ((b.drop 16).take 128) &&
    kraft (unpackLengths (b.drop 16)) ≤ 2 ^ 15

/-! ## Blocks (R225 to R230) -/

/-- Bits of a payload, most significant first, as a number with its length (R227). -/
def packCodes (ls : List Nat) (b : Bytes) : Nat × Nat :=
  b.foldl (fun (v, n) x => let l := ls.getD x.toNat 0; (v * 2 ^ l + codeOf ls x.toNat, n + l)) (0, 0)

/-- The payload of a block (R227); none where it would take 4,096 bytes or more, or a value has no code. -/
def payloadOf (ls : List Nat) (b : Bytes) : Option Bytes :=
  if b.any fun x => ls.getD x.toNat 0 == 0 then none else
  let (v, n) := packCodes ls b
  let m := (n + 7) / 8
  if 4096 ≤ m then none else some (leBytes m (v * 2 ^ (8 * m - n))).reverse

/-- A block header (R226). -/
def blockHeader (ctx gen : Nat) (raw : Bool) (clen crc : Nat) : Bytes :=
  ofWords [0x4C9E + 2 ^ 16 * ctx + 2 ^ 20 * gen + 2 ^ 23 * b2n raw + 2 ^ 24 + 2 ^ 32 * clen, crc]

/-- Bits of bytes, most significant first. -/
def bitsOf (b : Bytes) : List Bool := b.flatMap fun x => (List.range 8).map fun k => x.getLsbD (7 - k)

/-- Decode bits (R229): values in reverse order and the bits left. A code still open holds c and n. -/
def decodeBits (ls : List Nat) : List Bool → Nat → Nat → Nat → Bytes → Bytes × List Bool
  | [], _, _, _, out => (out, [])
  | x :: l, c, n, k, out =>
    let c := 2 * c + b2n x
    match valueOf ls (n + 1) c with
    | some v => if k + 1 = 4096 then (BitVec.ofNat 8 v :: out, l)
      else decodeBits ls l 0 0 (k + 1) (BitVec.ofNat 8 v :: out)
    | none => if n + 1 = 15 then (out, l) else decodeBits ls l c (n + 1) k out

/-- The outcome of a decode: bytes and subcode of R230, 0 for none. -/
def decodePayload (ls : List Nat) (payload : Bytes) (crc : Nat) : Bytes × Nat :=
  let (rev, left) := decodeBits ls (bitsOf payload) 0 0 0 []
  let out := rev.reverse
  if out.length < 4096 then (out ++ zeros (4096 - out.length), 4)
  else if 7 < left.length ∨ left.any id then (out, 3)
  else if crc32c out ≠ crc then (out, 5) else (out, 0)

/-! ## Contexts -/

/-- A FREE generation. -/
def Gen.free : Gen := ⟨false, 0, 0, 0⟩
/-- A context that no image declares (R239). -/
def CmpCtx.absent (p c : Nat) : CmpCtx :=
  { part := p, ctx := c, enabled := false, policy := 0, tableAddr := 0, initAddr := 0, initStored := 0, initOk := false, copies := []
    gens := List.replicate 8 .free, current := 0, busy := false, wait := false, result := 0, hist := none, installs := []
    installing := false, changes := [], heldCmd := none, cntWait := 0, cntRawIn := 0, cntCoded := 0, cntRaw := 0, cntErr := 0, cntOver := 0 }
def CmpCtx.gen (x : CmpCtx) (g : Nat) : Gen := x.gens.getD g .free
/-- The lowest FREE slot (R221). -/
def CmpCtx.freeSlot (x : CmpCtx) : Option Nat := (List.range 8).find? fun g => !(x.gen g).resident
/-- The generation that codes a block: CURRENT, or 8 where none is RESIDENT (R221). -/
def CmpCtx.codeGen (x : CmpCtx) : Nat := if x.gens.any (·.resident) then x.current else 8

/-- Read the record of a generation as a codec does (R220, R228): its copy where it has read the record before, which it then
keeps. -/
def State.readRecord (s : State) (a : Agent) (x : CmpCtx) (g : Nat) : Data × State :=
  match (s.cmpCtx x.part x.ctx).bind fun y => y.copies.find? fun e => e.1 == a && e.2.1 == g with
  | some e => (e.2.2, s)
  | none =>
    let (d, s) := s.vread a x.part (addr57 x.tableAddr + 256 * g) 256
    (d, s.modCmp x.part x.ctx fun y => { y with copies := y.copies ++ [(a, g, d)] })

/-- Install code lengths in a FREE slot: the record is written and the slot becomes CURRENT (R221); with the report of the install
the codecs discard their copies, of which INSTALL_DONE tells the control island (R220). -/
def State.install (s : State) (p c g : Nat) (ls : List Nat) (stored : Nat) : State :=
  match s.cmpCtx p c with
  | none => s
  | some x =>
    let now := s.now .control
    let s := s.vwrite .control p (addr57 x.tableAddr + 256 * g) (Data.clean (tableRecord c g now ls))
    s.modCmp p c fun x => { x with gens := x.gens.set g ⟨true, 0, stored, now⟩, current := g, installing := true, copies := [] }

/-- A wanted install takes a FREE slot, or waits behind those that wait (R234): the slot it took. -/
def State.wantInstall (s : State) (p c : Nat) (ls : List Nat) (who : Option (Nat × Nat × Nat)) : Option Nat × State :=
  match s.cmpCtx p c with
  | none => (none, s)
  | some x =>
    match x.freeSlot, x.installs with
    | some g, [] => (some g, s.install p c g ls 0)
    | _, _ => (none, s.modCmp p c fun x => { x with installs := x.installs ++ [(ls, who)], wait := true, cntWait := x.cntWait + 1 })

/-! ## Coding an entry (R225, R227, R232) -/

/-- Code one block with a generation's lengths (none: store raw): payload padded to bursts, header, whether coded. A block
with a marked source granule is stored raw (R215). -/
def codeBlock (ctx gen : Nat) (ls : Option (List Nat)) (d : Data) : Data × Bytes × Bool :=
  let b := d.bytes
  let raw : Data × Bytes × Bool := (d, blockHeader ctx 0 true 4096 (crc32c b), false)
  if d.marked then raw else
  match ls.bind fun l => payloadOf l b with
  | none => raw
  | some y => (Data.clean (y ++ zeros ((64 - y.length % 64) % 64)), blockHeader ctx gen false y.length (crc32c b), true)

/-- Lengths that a codec codes with: the RESIDENT generation's valid record (R221, R228). -/
def State.codeTable (s : State) (a : Agent) (x : CmpCtx) (g : Nat) : Option (List Nat) × State :=
  if 8 ≤ g ∨ !(x.gen g).resident then (none, s) else
  let (d, s) := s.readRecord a x g
  (if recordValid d.bytes then some (unpackLengths (d.bytes.drop 16)) else none, s)

/-- A decoded block (R229 to R231): 4,096 bytes with marks, subcode, the generation read, and bytes over the port. `rd`
reads from the compressed extent. -/
def State.decodeBlock (s : State) (a : Agent) (x : CmpCtx) (len i : Nat) (rd : State → Nat → Nat → Data × State) :
    (Data × Nat × Nat × Nat) × State :=
  let (h, s) := rd s (len + 16 * i) 16
  let w := wordAt h.bytes 0
  let crc := bits (wordAt h.bytes 1) 31 0
  let raw := w.testBit 23
  let g := bits w 22 20
  let clen := bits w 44 32
  let bad := bits w 15 0 ≠ 0x4C9E ∨ bits w 31 24 ≠ 1 ∨ bits w 19 16 ≠ x.ctx ∨ clen = 0 ∨ (raw ∧ clen ≠ 4096) ∨
    (!raw ∧ 4096 ≤ clen)
  if decide bad then ((Data.mark true (zeros 4096), if Data.marked h then 0 else 1, 8, 64), s) else
  let n := (clen + 63) / 64 * 64
  let (y, s) := rd s (4096 * i) n
  let dirty := Data.marked h || Data.marked y
  let sub (k : Nat) : Nat := if dirty then 0 else k
  if raw then
    let k := if crc32c y.bytes = crc then 0 else 5
    ((Data.mark (dirty || k != 0) y.bytes, sub k, 8, n + 64), s)
  else
    if !(x.gen g).resident then ((Data.mark true (zeros 4096), sub 2, 8, n + 64), s) else
    let (r, s) := s.readRecord a x g
    let m := r.marked
    if !recordValid r.bytes then ((Data.mark true (zeros 4096), if m then 0 else sub 2, g, n + 64), s) else
    let (out, k) := decodePayload (unpackLengths (r.bytes.drop 16)) (y.bytes.take clen) crc
    ((Data.mark (dirty || m || k != 0) out, if m then 0 else sub k, g, n + 64), s)

/-- The report of a decode outcome (R230). -/
def State.decodeFault (s : State) (pos p c sub src : Nat) : State :=
  if sub = 0 then s else
  let now := s.now (.cell pos)
  let handle := match (s.cell pos).job with | some j => j.handle | none => 0xFFFFFFFF
  (s.modCmp p c fun x => { x with cntErr := x.cntErr + 1 }).report
    { cls := 0x0B, unit := ⟨1, pos, 0⟩, subcode := sub, part := some p, info0 := BitVec.ofNat 64 src, info1 := 0, handle
      step := 0, kind := 0, time := now, selfReport := true } 2

/-! ## Commands (R223, R233, R234, R239) -/

/-- Begin a command: only where the context is not BUSY; a context that is not declared or is disabled gives DISABLED. -/
def State.cmpCommand (s : State) (p c : Nat) (f : CmpCtx → State → State) : State :=
  match s.cmpCtx p c with
  | none => { s with cmp := s.cmp ++ [{ CmpCtx.absent p c with result := 4 }] }
  | some x =>
    if x.busy then s
    else if !x.enabled then s.modCmp p c fun x => { x with result := 4 }
    else f x (s.modCmp p c fun x => { x with result := 0 })

def State.cmpResult (s : State) (p c r : Nat) : State := s.modCmp p c fun x => { x with result := r }
/-- CMP_CTX_ARG. -/
def State.cmpArg (s : State) (p c : Nat) : Nat := s.reg (cmpBase p c + 8)

/-- A command that comes while the partition is being reset is held with BUSY set (R458). -/
def State.cmpGate (s : State) (p c op gen count : Nat) (f : State → State) : State :=
  match s.cmpCtx p c with
  | some x =>
    if (s.part p).resetting ∧ x.enabled ∧ !x.busy then
      let a := s.cmpArg p c
      s.modCmp p c fun x => { x with busy := true, heldCmd := some (op, gen, count, a) }
    else f s
  | none => f s

/-- BUILD histograms the tensor at CMP_CTX_ARG (R223); COUNT out of range or an unmapped extent gives BAD_ARG. -/
def State.cmpBuild (s : State) (p c count : Nat) : State :=
  s.cmpCommand p c fun _ s =>
    let a := s.cmpArg p c
    if count = 0 ∨ 16384 < count ∨ a.testBit 63 ∨ (s.unmapped p (addr57 a) (4096 * count)).isSome then s.cmpResult p c 1 else
    let (d, s) := s.vread .control p (addr57 a) (4096 * count)
    s.modCmp p c fun x => { x with busy := true, hist := some (histogram d.bytes) }

/-- BUILD (R223). -/
def execBuild (p c count : Nat) (s : State) : Host.Outcome State Fault Refusal := .next (s.cmpGate p c 1 0 count fun s => s.cmpBuild p c count)

/-- The histogram is done: its lengths are installed or wait for a slot (R222, R234). -/
def State.histogramDone (s : State) (p c : Nat) : State :=
  match (s.cmpCtx p c).bind (·.hist) with
  | none => s
  | some h =>
    let s := s.modCmp p c fun x => { x with hist := none }
    (s.wantInstall p c (codeLengths 64 h) none).2

/-- HISTOGRAM_DONE (R222). -/
def execHistogramDone (p c : Nat) (s : State) : Host.Outcome State Fault Refusal := .next (s.histogramDone p c)

/-- LOAD (R234): a valid, unmarked record of its own slot and context becomes a CURRENT generation in a FREE slot. -/
def State.cmpLoad (s : State) (p c g count : Nat) : State :=
  s.cmpCommand p c fun x s =>
    let a := s.cmpArg p c
    let g := g % 8
    if a.testBit 63 ∨ (s.unmapped p (addr57 a) 256).isSome then s.cmpResult p c 1 else
    let (d, s) := s.vread .control p (addr57 a) 256
    if d.marked ∨ !recordValid d.bytes ∨ byteAt d.bytes 2 % 8 ≠ g ∨ byteAt d.bytes 2 / 16 ≠ c then s.cmpResult p c 2
    else if (x.gen g).resident then s.cmpResult p c 3 else
    let now := s.now .control
    let s := s.vwrite .control p (addr57 x.tableAddr + 256 * g) d
    s.modCmp p c fun x =>
      { x with gens := x.gens.set g ⟨true, 0, count % 2 ^ 32, now⟩, current := g, installing := true, copies := [], busy := true }

/-- LOAD (R234). -/
def execLoad (p c gen count : Nat) (s : State) : Host.Outcome State Fault Refusal := .next (s.cmpGate p c 2 gen count fun s => s.cmpLoad p c gen count)

/-- A change of counts that leaves both zero starts the quiet time (R233). -/
def Gen.change (x : Gen) (dq ds : Int) (now : Nat) : Gen :=
  let q := ((x.queued : Int) + dq).toNat
  let st := ((x.stored : Int) + ds).toNat
  { x with queued := q, stored := st, zeroSince := if q = 0 ∧ st = 0 ∧ ¬(x.queued = 0 ∧ x.stored = 0) then now else x.zeroSince }

/-- RELEASE returns STORED counts; an excess is counted (R233). -/
def State.cmpRelease (s : State) (p c g count : Nat) : State :=
  s.cmpCommand p c fun x s =>
    let g := g % 8
    let now := s.now .control
    let n := min count (x.gen g).stored
    s.modCmp p c fun x =>
      { x with gens := x.gens.modify g fun y => y.change 0 (-n) now, cntOver := x.cntOver + BitVec.ofNat 64 (count - n) }

/-- RELEASE of a compression context (R233). -/
def execCmpRelease (p c gen count : Nat) (s : State) : Host.Outcome State Fault Refusal := .next (s.cmpGate p c 3 gen count fun s => s.cmpRelease p c gen count)

/-- Other command codes (R239): no effect, RESULT OK. -/
def execCmpCmdNop (p c op : Nat) (s : State) : Host.Outcome State Fault Refusal :=
  .next (if 1 ≤ op % 16 ∧ op % 16 ≤ 3 then s else s.modCmp p c fun x => if x.busy then x else { x with result := 0 })

/-- QUEUED_COUNT_CHANGE: the oldest change on its way is applied (R232). -/
def State.applyChange (s : State) (p c : Nat) : State :=
  let now := s.now .control
  s.modCmp p c fun x => match x.changes with
    | [] => x
    | (g, dq, ds) :: l => { x with changes := l, gens := x.gens.modify g fun y => y.change dq ds now }

/-- QUEUED_COUNT_CHANGE (R232). -/
def execQueuedCountChange (p c : Nat) (s : State) : Host.Outcome State Fault Refusal := .next (s.applyChange p c)

/-- GENERATION_FREE (R233): RESIDENT, not CURRENT and both counts zero for 2 µs. -/
def execGenerationFree (p c gen : Nat) (s : State) : Host.Outcome State Fault Refusal :=
  let now := s.now .control
  .next (s.modCmp p c fun x =>
    let y := x.gen gen
    if y.resident ∧ x.current ≠ gen ∧ y.queued = 0 ∧ y.stored = 0 ∧ y.zeroSince + 2000 ≤ now then
      { x with gens := x.gens.set gen .free } else x)

/-- INSTALL_DONE (R220, R236): every codec has discarded its copy; WAIT clears where no install waits, BUSY unless its BUILD still
runs or waits. -/
def execInstallDone (p c : Nat) (s : State) : Host.Outcome State Fault Refusal :=
  .next (s.modCmp p c fun x =>
    if !x.installing then x else
    { x with installing := false, wait := !x.installs.isEmpty, busy := x.busy && (x.hist.isSome || x.installs.any fun e => e.2.isNone) })

/-- The commands that a reset of partition p held run, each with the argument it was written with (R458). -/
def State.releaseCmp (s : State) (p : Nat) : State :=
  (s.cmp.filter fun x => x.part == p).foldl (fun (s : State) x =>
    match x.heldCmd with
    | none => s
    | some (op, gen, count, a) =>
      let r := cmpBase p x.ctx + 8
      let now := s.reg r
      let s := (s.modCmp p x.ctx fun x => { x with busy := false, heldCmd := none }).setReg r a
      let s := match op with
        | 1 => s.cmpBuild p x.ctx count
        | 2 => s.cmpLoad p x.ctx gen count
        | _ => s.cmpRelease p x.ctx gen count
      s.setReg r now) s

end Sys2Proof.Machine
end

