-- ==== Sys2Proof/Machine/Streams.lean ====
section
/-! DEFINITION. Streams (R169 to R184): entries and their checks, blocks in flight, arrival tokens, completion, multicast
with drops and catch-up; the events of chains (R187 to R190); installs that a stream waits for (R223). -/
namespace Sys2Proof.Machine

/-! ## Entries (R171) -/

/-- An entry of 32 bytes as the block that it asks for. -/
def parseEntry (no : Nat) (b : Bytes) : Block :=
  { no, src := wordAt b 0, dst := wordAt b 1, len := bits (wordAt b 2) 31 0, flags := bits (wordAt b 2) 47 32
    credit := byteAt b 22 % 16, value := BitVec.ofNat 32 (bits (wordAt b 3) 31 0), paid := false, landed := false, rngs := []
    snap := [], gen := 8, at_ := 0, kind := 0, left := 0, gens := [], queued := [] }

/-- An address word moved on by an offset. -/
def wordPlus (w off : Nat) : Nat := (if w.testBit 63 then 2 ^ 63 else 0) + (addr57 w + off)

/-- The position whose scratchpad LOCAL addresses of the slot's list mean: the source's for a catch-up (R183). -/
def State.listPos (s : State) (i n : Nat) : Nat :=
  match (s.slot i n).catchup with
  | some k => (s.posOf k.src).getD i
  | none => i

/-- Run with the ranges that a block's checks translated before any other (R262). -/
def State.under (s : State) (rs : List Range) (f : State → State) : State := { f { s with ranges := rs ++ s.ranges } with ranges := s.ranges }
/-- Ranges that the bytes at an address word are translated by. -/
def State.rangesAt (s : State) (p w n : Nat) : List Range :=
  if w.testBit 63 then [] else (s.pieces p (addr57 w) n).filterMap (·.rng)

/-- Whether the bytes at a word lie in the cell's own scratchpad (0), another cell's (1) or elsewhere (2). -/
def State.placeOf (s : State) (i p w n : Nat) : Nat :=
  if w.testBit 63 then 0 else
  let gs := (s.pieces p (addr57 w) n).map fun c => match c.rng with
    | some r => if r.kind = 2 then some ((r.target c.va - 0x100000000000) / scratchSize) else none
    | none => none
  let own := (s.cell i).logical
  if gs.all fun g => g.isSome && g == own then 0 else if gs.any (·.isSome) then 1 else 2

/-- The kind of a block for the port (R179): 0 READ, 1 WRITE, 2 REMOTE. `sp` is the position that LOCAL addresses mean; a block of a
catch-up lands in the cell's own scratchpad. -/
def State.blockKind (s : State) (i sp p : Nat) (catching : Bool) (b : Block) : Nat :=
  let a := if b.src.testBit 63 ∧ sp ≠ i then 1 else s.placeOf i p b.src b.srcLen
  if catching then (if a = 1 then 2 else 0) else if b.mcast then 2 else
  let d := s.placeOf i p b.dst b.dstLen
  if d = 0 ∧ a ≠ 1 then 0 else if a = 0 ∧ d ≠ 1 then 1 else 2

/-! ## Checks (R173) -/

def Block.packed (b : Block) : Bool := b.decomp || b.comp

/-- The status of the first of checks 4 to 9 that an entry fails; 0 where it passes. `sp` is the position that LOCAL
addresses mean, a catch-up's source, whose credit bindings count, and `recvs` the receivers of an MCAST block. -/
def State.checkEntry (s : State) (i p sp : Nat) (recvs : List Receiver) (b : Block) : Nat :=
  let c := s.cell (if sp < s.cells.length then sp else i)
  let move := b.link || b.wrap
  if 4096 ≤ b.flags ∨ (b.link ∧ b.wrap) ∨ (move ∧ (b.token ∨ b.final ∨ b.last ∨ b.mcast ∨ b.decomp ∨ b.comp)) then 1 else
  if move then 0 else
  if b.len < 16 ∨ 67108864 < b.len ∨ b.len % 16 ≠ 0 ∨ (b.packed ∧ b.len % 4096 ≠ 0) ∨ addr57 b.src % 16 ≠ 0 ∨
    addr57 b.dst % 16 ≠ 0 then 1 else
  if b.packed ∧ !((s.cmpCtx p b.ctx).any (·.enabled)) then 1 else
  if b.token ∧ (c.bound b.credit).isNone then 1 else
  let badDst := if b.mcast then recvs.any fun r => decide (scratchSize < r.base + b.mcastOff + b.dstLen)
    else (s.wordUnmapped p b.dst b.dstLen).isSome
  if (s.wordUnmapped p b.src b.srcLen).isSome ∨ badDst then 2 else
  if !b.mcast ∧ (s.wordRefused p b.dst b.dstLen).isSome then 3 else
  if sp < s.cells.length then 0 else 2

/-- A check ends an access of the entry by R260: a source or destination that is translated is unmapped or refused (R266). -/
def State.entryXlt (s : State) (p : Nat) (b : Block) : Bool :=
  (!b.src.testBit 63 && (s.wordUnmapped p b.src b.srcLen).isSome) ||
    (!b.mcast && !b.dst.testBit 63 && (s.wordRefused p b.dst b.dstLen).isSome)

/-! ## Moving a block

A packed block (DECOMP or COMP) is moved in units of 4 KiB of raw bytes (R225), any other as one unit. A unit begins when the bursts
of the one before have moved. -/

def Block.units (b : Block) : Nat := if b.packed then b.len / 4096 else 1

/-- Read the raw bytes of unit k of a block (R174, R229): data, bytes over the port, decode outcome and the generation it is decoded
with, 8 for none. -/
def State.readUnit (s : State) (i p sp : Nat) (b : Block) (k : Nat) : (Data × Nat × Nat × Nat) × State :=
  let g := (s.cell i).logical.getD 0
  let rd (s : State) (off n : Nat) : Data × State := s.wordRead (.cell g) sp p (wordPlus b.src off) n
  match b.decomp, s.cmpCtx p b.ctx with
  | true, some x =>
    let ((d, sub, gen, n), s) := s.decodeBlock (.cell g) x b.len k rd
    ((d, n, sub, gen), s)
  | _, _ =>
    let (d, s) := if b.packed then rd s (4096 * k) 4096 else rd s 0 b.len
    ((d, d.length, 0, 8), s)

/-- The stored bytes of a block's source as they stand now. -/
def State.sourceHeld (s : State) (i p sp : Nat) (b : Block) : Bytes :=
  Data.bytes (s.wordRead (.cell ((s.cell i).logical.getD 0)) sp p b.src b.srcLen).1

/-- The generation that the next unit of a COMP block codes with (R221, R223). -/
def State.unitGen (s : State) (p : Nat) (b : Block) : Nat :=
  if b.gen < 8 then b.gen else match s.cmpCtx p b.ctx with | some x => x.codeGen | none => 8

/-- Code unit k of a COMP block with generation gen (R225): payload, header, and whether it is coded. -/
def State.codeUnit (s : State) (i p : Nat) (b : Block) (gen : Nat) (d : Data) : (Data × Bytes × Bool) × State :=
  let g := (s.cell i).logical.getD 0
  match s.cmpCtx p b.ctx with
  | none => (codeBlock b.ctx 8 none d, s)
  | some x => let (t, s) := s.codeTable (.cell g) x gen; (codeBlock b.ctx gen t d, s)

/-- Change the block of a number in a slot. -/
def Slot.modBlock (x : Slot) (no : Nat) (f : Block → Block) : Slot :=
  { x with blocks := modWhere x.blocks (fun y => y.no == no) f }

/-- Block b of a slot begins its next unit: its generation (R221), what it queues (R232) and the bursts that cross the port (R180);
of four headers one granule is written (R205). -/
def State.startUnit (s : State) (i n p : Nat) (b : Block) : State :=
  s.under b.rngs fun s =>
    let sp := s.listPos i n
    let k := b.gens.length
    let ((d, cost, _, dg), s) := s.readUnit i p sp b k
    let (gen, q, bursts, s) : Nat × Nat × Nat × State :=
      if b.comp then
        let gen := s.unitGen p b
        let ((y, _, coded), s) := s.codeUnit i p b gen d
        (gen, if coded then gen else 8, y.length / 64 + (if k % 4 = 0 then 1 else 0), s)
      else (8, dg, (cost + 63) / 64, s)
    let s := if q < 8 then s.countChange p b.ctx q 1 0 else s
    s.modSlot i n fun x => x.modBlock b.no fun b =>
      { b with gens := b.gens ++ [gen], queued := if q < 8 then b.queued ++ [q] else b.queued, left := bursts }

/-- Bursts of block no move as the bucket of its class and kind pays for them (R180). -/
def State.pump (i n p no : Nat) : Nat → State → State
  | 0, s => s
  | f + 1, s =>
    let x := s.slot i n
    match x.blocks.find? fun b => b.no == no with
    | none => s
    | some b =>
      if !b.paid || b.landed then s else
      if b.left = 0 then
        if b.units ≤ b.gens.length then s else State.pump i n p no f (s.startUnit i n p b)
      else
        let m := min b.left ((s.cell i).port.bucket x.cls b.kind / burstCost).toNat
        if m = 0 then s else
        let s := s.modCell i fun c => { c with port := c.port.modBucket x.cls b.kind fun v => v - burstCost * (m : Int) }
        State.pump i n p no f (s.modSlot i n fun x => x.modBlock no fun b => { b with left := b.left - m })

/-- All bursts of the block have moved. -/
def Block.moved (b : Block) : Bool := b.left == 0 && decide (b.units ≤ b.gens.length)

/-- What a block writes: pieces at offsets of its destination, the bytes that cross the port and the generations of the blocks coded
(R225). Where the source no longer holds what it held when the block started, the bytes are free (R174). -/
def State.blockPieces (s : State) (i n p : Nat) (b : Block) : (List (Nat × Data) × Nat × List Nat) × State :=
  let sp := s.listPos i n
  let held := s.sourceHeld i p sp b == b.snap
  let (out, s) := (List.range b.units).foldl (fun ((ps, cost, gens), s) k =>
    let ((d, m, sub, _), s) := s.readUnit i p sp b k
    let s := s.decodeFault i p b.ctx sub (addr57 b.src + 4096 * k)
    let (d, s) : Data × State := if held then (d, s) else
      let (x, s) := s.drawBytes d.length
      (d.mapIdx (fun k y => (x.getD k 0, y.2)), s)
    if !b.comp then ((ps ++ [(4096 * k, d)], cost + m, gens), s) else
    let ((y, h, coded), s) := s.codeUnit i p b (b.gens.getD k 8) d
    let s := s.modCmp p b.ctx fun x => { x with
      cntCoded := x.cntCoded + BitVec.ofNat 64 (bits (wordAt h 0) 44 32), cntRaw := x.cntRaw + BitVec.ofNat 64 (b2n (!coded)) }
    ((ps ++ [(4096 * k, y), (b.len + 16 * k, Data.clean h)], cost + y.length + 16,
      if coded then gens ++ [b.gens.getD k 8] else gens), s)) ((([], 0, []) : List (Nat × Data) × Nat × List Nat), s)
  (out, if b.comp then s.modCmp p b.ctx fun x => { x with cntRawIn := x.cntRawIn + BitVec.ofNat 64 b.len } else s)

/-- The pieces of a block, read under the ranges that its check translated (R262). -/
def State.takePieces (s : State) (i n p : Nat) (b : Block) : (List (Nat × Data) × Nat × List Nat) × State :=
  let (x, s') := { s with ranges := b.rngs ++ s.ranges }.blockPieces i n p b
  (x, { s' with ranges := s.ranges })

/-- A block has landed m times: what it queued leaves QUEUED and what was coded enters STORED (R232). -/
def State.settle (s : State) (p : Nat) (b : Block) (coded : List Nat) (m : Nat) : State :=
  (b.queued ++ coded).dedup.foldl (fun s g => s.countChange p b.ctx g (-(b.queued.count g : Nat)) (m * coded.count g : Nat)) s

/-- Count a moved block at its slot and port (R174, R179, R192). -/
def State.countBlock (s : State) (i n kind bytes at_ : Nat) (ps : List (Nat × Data)) : State :=
  (s.countPort i kind bytes ((ps.map fun e => markedGranules (at_ + e.1) e.2).sum)).countSlot i n fun x =>
    { x with cntBytes := x.cntBytes + BitVec.ofNat 64 bytes }
/-- The address that a block's marked granules are counted by: the source's where it is moved as it stands. -/
def Block.markAt (b : Block) : Nat := if b.packed then addr57 b.dst else addr57 b.src

/-- Write the pieces of a block at its destination: its stacks count as written by the cell (R206, R244). -/
def State.writePieces (s : State) (i p dst : Nat) (ps : List (Nat × Data)) : State :=
  let g := (s.cell i).logical.getD 0
  ps.foldl (fun s e =>
    let w := wordPlus dst e.1
    let ks := if w.testBit 63 then [] else s.vstacks p (addr57 w) e.2.length
    ((s.wordWrite (.cell g) i p w e.2).modCell i fun c => { c with written := (c.written ++ ks).dedup })) s

/-- Stacks that pieces written at a destination word reach. -/
def State.reached (s : State) (p dst : Nat) (ps : List (Nat × Data)) : List Nat :=
  ps.flatMap fun e => let w := wordPlus dst e.1; if w.testBit 63 then [] else s.vstacks p (addr57 w) e.2.length

/-! ## Multicast (R182 to R184) -/

/-- Send an MCAST block's pieces to receiver k of a source slot: data into its scratchpad, its token, one credit. -/
def State.sendTo (s : State) (i n k : Nat) (r : Receiver) (b : Block) (ps : List (Nat × Data)) : State :=
  let g := (s.cell i).logical.getD 0
  let x := s.slot i n
  let s := ps.foldl (fun s e => s.windowWrite r.g (r.base + b.mcastOff + e.1) e.2) s
  let s := s.modSlot i n fun x => { x with recvs := x.recvs.modify k fun r =>
    { r with credits := r.credits - 1, next := b.no + 1 } }
  if b.token then s.sendToken r.g r.queue x.cls ⟨b.value, .cell g, false, some (.mcast g n k), none⟩ else s

/-- MCAST blocks that a receiver is owed. -/
def Slot.owes (x : Slot) (r : Receiver) : List Block := x.owed.filter fun b => r.next ≤ b.no

/-- Forget owed blocks that no receiver still in the group waits for. -/
def Slot.prune (x : Slot) : Slot :=
  { x with owed := x.owed.filter fun b => x.recvs.any fun r => !r.dropped && r.next ≤ b.no }

/-- Drop receiver k (R183): it is sent a skip marker naming the first block it did not receive. -/
def State.dropReceiver (s : State) (i n k : Nat) : State :=
  let x := s.slot i n
  match x.recvs[k]? with
  | none => s
  | some r =>
    let g := (s.cell i).logical.getD 0
    let (first, entry) := match x.owes r with | b :: _ => (b.no, b.at_) | [] => (r.next, x.entry)
    let s := s.modSlot i n fun x =>
      ({ x with recvs := x.recvs.modify k fun r => { r with dropped := true, owedSince := none } } : Slot).prune
    let s := s.countSlot i n fun x => { x with cntDrops := x.cntDrops + 1 }
    match s.posOf r.g with
    | some j => s.modSlot j r.slot fun y => { y with skips := y.skips ++ [⟨true, first, x.number, false, x.list, g, n, entry⟩] }
    | none => s

/-- The lag limits of the group that a source slot serves (R181). -/
def State.groupLag (s : State) (i n : Nat) : Nat × Nat :=
  let c := s.cell i
  match s.image.groups.find? (fun u => some u.g == c.logical && u.slot == n) with
  | some u => (u.lagBlocks, u.lagUs)
  | none => (64, 200)

/-- Note since when each receiver has owed a block, and drop those that owe more than LAG_BLOCKS (R183). -/
def State.groupCheck (s : State) (i n : Nat) : State :=
  let now := s.now (.cell i)
  let s := s.modSlot i n fun x => { x with recvs := x.recvs.map fun r =>
    { r with owedSince := if r.dropped ∨ x.owes r = [] then none else match r.owedSince with | some t => some t | none => some now } }
  (List.range (s.slot i n).recvs.length).foldl (fun s k =>
    let x := s.slot i n
    match x.recvs[k]? with
    | some r => if !r.dropped ∧ (s.groupLag i n).1 < (x.owes r).length then s.dropReceiver i n k else s
    | none => s) s

/-- Send the owed blocks of receiver k while it holds credits, each read and coded again, as the REMOTE share pays (R180, R182). -/
def State.sendOwed (i n k p : Nat) : Nat → State → State
  | 0, s => s
  | f + 1, s =>
    let x := s.slot i n
    match x.recvs[k]? with
    | none => s
    | some r =>
      match x.owes r with
      | [] => s
      | b :: _ =>
        if r.dropped ∨ r.credits = 0 ∨ !s.portOpen i x.cls 2 then s else
        let gen := s.unitGen p b
        let b := { b with gens := List.replicate b.units gen, queued := [] }
        let ((ps, cost, coded), s) := s.takePieces i n p b
        let s := (coded.foldl (fun s g => s.countChange p b.ctx g 1 0) s).settle p { b with queued := coded } coded 1
        let s := ((s.countBlock i n 2 cost b.markAt ps).spendPort i x.cls 2 cost).countSlot i n fun x => { x with cntReread := x.cntReread + 1 }
        State.sendOwed i n k p f ((s.sendTo i n k r b ps).modSlot i n Slot.prune)

/-! ## The life of a stream -/

/-- A stream with nothing in flight ends (R177, R178, R183, R184). -/
def State.streamTry (s : State) (i n : Nat) : State :=
  let x := s.slot i n
  let g := (s.cell i).logical.getD 0
  if x.blocks ≠ [] then s else
  let idle (s : State) (st : Nat) : State :=
    s.modSlot i n fun x => { x with st := 0, ending := none, stopQs := [], catchup := none, owed := [], lastStatus := st }
  match x.st, x.ending with
  | 3, _ =>
    if x.owed ≠ [] then s else
    let s := x.stopQs.foldl (fun s q => s.complete g q x.cls (.cell g) 0 x.next) s
    (((idle s (if x.stopQs = [] then x.lastStatus else 0)).closeSlotOp i 0x84 n).closeSlotOp i 0x83 n).wake i
  | 1, some k =>
    if x.owed ≠ [] then s else
    (((idle s k).closeSlotOp i 0x83 n).complete g x.q x.cls (.cell g) k x.next).wake i
  | 4, some k =>
    let s := idle s (if k = 0 then x.lastStatus else k)
    if k = 0 then s else s.complete g x.q x.cls (.cell g) k x.next
  | _, _ => s

/-- Change the newest block of a slot. -/
def Slot.modLast (x : Slot) (f : Block → Block) : Slot := { x with blocks := x.blocks.modify (x.blocks.length - 1) f }

/-- The receiver record at the source of a catch-up: the source's position and slot, and the receiver's number. -/
def State.catchupRecv (s : State) (i n : Nat) : Option (Nat × Nat × Nat × Receiver) :=
  (s.slot i n).catchup.bind fun k => (s.posOf k.src).bind fun j =>
    let rs := (s.slot j k.srcSlot).recvs
    (rs.findIdx? fun r => some r.g == (s.cell i).logical && r.slot == n).bind fun m =>
      rs[m]?.map fun r => (j, k.srcSlot, m, r)

/-- Post the arrival tokens of the landed blocks at the front, in block order (R175): those of a catch-up on the receiver's bound
queue (R183). An MCAST block's own token goes where its CREDIT is bound, beside those of the receivers (DESIGN CHOICE, log entry 50). -/
def State.streamPost (i n : Nat) : Nat → State → State
  | 0, s => s
  | f + 1, s =>
    let x := s.slot i n
    match x.blocks with
    | [] => s
    | b :: l =>
      if !b.landed then s else
      let c := s.cell i
      let g := c.logical.getD 0
      let s := s.modSlot i n fun x => { x with blocks := l, done := x.done + 1 }
      let s := s.countSlot i n fun x => { x with cntBlocks := x.cntBlocks + 1 }
      let s : State := if !b.token then s else match s.catchupRecv i n, c.bound b.credit with
        | some (j, m, k, r), _ =>
          let src := (s.cell j).logical.getD 0
          s.sendToken r.g r.queue x.cls ⟨b.value, .cell src, false, some (.mcast src m k), none⟩
        | none, some (g', q) => s.sendToken g' q x.cls ⟨b.value, .cell g, false, some (.counter g x.cls b.credit), none⟩
        | none, none => s
      State.streamPost i n f s

/-- The newest block starts: what its source holds is noted (R174), and its first bursts move. -/
def State.blockGo (s : State) (i n p gen : Nat) : State :=
  match (s.slot i n).blocks.getLast? with
  | none => s
  | some b =>
    let sp := s.listPos i n
    let kind := s.blockKind i sp p (s.slot i n).catchup.isSome b
    let snap := s.sourceHeld i p sp b
    let s := s.modSlot i n fun x =>
      { x.modLast fun b => { b with paid := true, gen, snap, kind } with st := if x.st = 2 then 1 else x.st }
    State.pump i n p b.no 256 s

/-- The newest block takes what it needs to start: its credit (R175), for a catch-up the receiver's (R183), and under
PER_ENTRY an install of its own code, for which the source is read once before (R223); without them the stream is in CREDIT_WAIT. -/
def State.blockStart (s : State) (i n p : Nat) : State :=
  let x := s.slot i n
  match x.blocks.getLast? with
  | none => s
  | some b =>
    if b.paid ∨ b.gen = 9 then s else
    let c := s.cell i
    let go (s : State) : State :=
      match b.comp, s.cmpCtx p b.ctx with
      | true, some y =>
        if y.policy = 1 then
          let (d, s) := s.wordRead (.cell (c.logical.getD 0)) (s.listPos i n) p b.src b.len
          let s := s.portBytes i x.cls (s.blockKind i (s.listPos i n) p x.catchup.isSome b) b.len 0
          let s := s.countSlot i n fun x => { x with cntBytes := x.cntBytes + BitVec.ofNat 64 b.len }
          let (g, s) := s.wantInstall p b.ctx (codeLengths 64 (histogram d.bytes)) (some (c.logical.getD 0, n, b.no))
          match g with
          | some g => s.blockGo i n p g
          | none => s.modSlot i n fun x => { x.modLast fun b => { b with gen := 9 } with st := if x.st = 1 then 2 else x.st }
        else s.blockGo i n p 8
      | _, _ => s.blockGo i n p 8
    if x.catchup.isSome then
      match s.catchupRecv i n with
      | none => s
      | some (j, m, k, r) =>
        if r.credits = 0 then s else
        go (s.modSlot j m fun y => { y with recvs := y.recvs.modify k fun r => { r with credits := r.credits - 1 } })
    else if b.token then
      let k := (c.ctx x.cls).credits.getD b.credit 0
      if k = 0 then s.modSlot i n fun x => { x with st := 2 } else
      go (s.modCell i fun c => c.setCtx x.cls { c.ctx x.cls with credits := (c.ctx x.cls).credits.set b.credit (k - 1) })
    else go s

/-- A stream takes its next entry (R172, R173): only while RUNNING or catching up with fewer than 8 blocks in flight, and at most 16
entries ahead of the oldest of them. The words of the entry are read in one piece (log entry 50). -/
def State.takeEntry (s : State) (i n : Nat) : State :=
  let x := s.slot i n
  match (s.cell i).part with
  | none => s
  | some p =>
    if !(x.st = 1 ∨ x.st = 4) ∨ x.ending.isSome ∨ 8 ≤ x.blocks.length ∨ x.blocks.any (fun b => !b.paid) ∨ x.chain.isSome
      ∨ (x.st = 4 ∧ x.catchup.isNone) ∨ (x.blocks.head?.any fun b => decide (16 < (x.next + 2 ^ 24 - b.no) % 2 ^ 24)) then s else
    let g := (s.cell i).logical.getD 0
    let sp := s.listPos i n
    let fail (s : State) (st : Nat) : State := (s.modSlot i n fun x => { x with ending := some st }).streamTry i n
    if addr57 x.entry % 32 ≠ 0 then fail s 1 else
    if (s.wordUnmapped p x.entry 32).isSome then fail (if x.entry.testBit 63 then s else s.countXltFault p) 2 else
    let (d, s) := s.wordRead (.cell g) sp p x.entry 32
    if d.marked then fail s 4 else
    let b := { parseEntry (x.next % 2 ^ 24) d.bytes with at_ := x.entry }
    let catching := x.st = 4
    let skip := decide catching && !b.mcast && !b.link && !b.wrap
    let recvs := if catching then ((s.catchupRecv i n).map fun e => e.2.2.2).toList else x.recvs
    let st := if skip then 0 else s.checkEntry i p sp recvs b
    if st ≠ 0 then fail (if (st = 2 ∨ st = 3) ∧ s.entryXlt p b then s.countXltFault p else s) st else
    let s := s.modSlot i n fun x => { x with
      next := (x.next + 1) % 2 ^ 24
      entry := if b.link then b.src else if b.wrap then x.list else wordPlus x.entry 32
      ending := if b.last then some 0 else none }
    if b.link ∨ b.wrap ∨ skip then s.streamTry i n else
    (s.modSlot i n fun x => { x with blocks := x.blocks ++ [{ b with rngs := (s.rangesAt p b.src b.srcLen ++ if b.mcast then [] else s.rangesAt p b.dst b.dstLen).dedup }] }).blockStart i n p

/-- ENTRY_FETCHED (R173). -/
def execEntryFetched (g slot : Nat) (s : State) : Host.Outcome State Fault Refusal :=
  .next (match s.posOf g with | some i => s.takeEntry i slot | none => s)

/-- A receiver can take the block now: nothing owed before it and a credit (R182). -/
def Slot.ready (x : Slot) (r : Receiver) : Bool := !r.dropped && (x.owes r).isEmpty && decide (0 < r.credits)

/-- The block may land now: its bursts have moved; a FINAL or MCAST block behind every earlier one, a FINAL one also behind what is
owed to receivers (R171); an MCAST block once the fastest receiver can take it (R182). -/
def Slot.mayLand (x : Slot) (b : Block) : Bool :=
  b.paid && !b.landed && b.moved && !x.holds b &&
    (!b.mcast || (x.blocks.takeWhile fun y => y.no != b.no).all (·.landed)) &&
    (!b.mcast || x.catchup.isSome || x.recvs.all (·.dropped) || x.recvs.any x.ready)

/-- A block lands (R174, R175, R182): its bytes are moved, its tokens posted in block order, and the stream may end. A FINAL block
first drains the stacks that its stream has written (R251). -/
def State.landBlock (s : State) (i n no : Nat) : State :=
  let x := s.slot i n
  match (s.cell i).part, x.blocks.find? (fun b => b.no == no) with
  | some p, some b =>
    if !x.mayLand b then s else
    let s := if b.final then (x.written.foldl State.drainStack s).modSlot i n fun x => { x with written := [] } else s
    let fin (s : State) : State :=
      (State.streamPost i n 9 (s.modSlot i n fun x => x.modBlock no fun y => { y with landed := true, queued := [] })).streamTry i n
    if x.catchup.isSome then
      match s.catchupRecv i n with
      | none => fin (s.settle p b [] 0)
      | some (_, _, _, r) =>
        let ((ps, cost, coded), s) := s.takePieces i n p b
        let s := (s.countBlock i n b.kind cost b.markAt ps).settle p b coded 1
        fin (ps.foldl (fun s e => s.scratchWrite i (r.base + b.mcastOff + e.1) e.2) s)
    else if b.mcast then
      if x.recvs.all (·.dropped) then fin (s.settle p b [] 0) else
      let ((ps, cost, coded), s) := s.takePieces i n p b
      let s := s.countBlock i n b.kind cost b.markAt ps
      let ready := (List.range x.recvs.length).filter fun k => match x.recvs[k]? with | some r => x.ready r | none => false
      let s := s.settle p b coded ready.length
      let s := ready.foldl (fun s k => match x.recvs[k]? with | some r => s.sendTo i n k r b ps | none => s) s
      let s := s.modSlot i n fun x => ({ x with owed := x.owed ++ [{ b with queued := [] }] } : Slot).prune
      fin (s.groupCheck i n)
    else
      fin (s.under b.rngs fun s =>
        let ((ps, cost, coded), s) := s.blockPieces i n p b
        let s := ((s.countBlock i n b.kind cost b.markAt ps).settle p b coded 1).writePieces i p b.dst ps
        s.modSlot i n fun x => { x with written := (x.written ++ s.reached p b.dst ps).dedup })
  | _, _ => s

/-- BLOCK_LANDED (R174). -/
def execBlockLanded (g slot block : Nat) (s : State) : Host.Outcome State Fault Refusal :=
  .next (match s.posOf g with | some i => s.landBlock i slot block | none => s)

/-- Take one credit return out of flight; none where it is not there. -/
def State.takeCredit (s : State) (r : CreditRef) : Option State :=
  if s.credits.contains r then some { s with credits := s.credits.erase r } else none

/-- The depth that a receiver's credits never pass (R181, R182). -/
def State.mcastCredit (s : State) (g n k : Nat) : State :=
  match s.posOf g, s.takeCredit (.mcast g n k) with
  | some i, some s =>
    let now := s.now (.cell i)
    let s := s.modSlot i n fun x => { x with recvs := x.recvs.modify k fun r =>
      { r with credits := min r.depth (r.credits + 1), owedSince := r.owedSince.map fun _ => now } }
    match (s.slot i n).recvs[k]?, (s.cell i).part with
    | some r, some p =>
      if r.dropped then
        match s.posOf r.g with
        | some j => if (s.slot j r.slot).st = 4 then s.blockStart j r.slot p else s
        | none => s
      else (((State.sendOwed i n k p 64 s).groupCheck i n).streamTry i n)
    | _, _ => s
  | _, _ => s

/-- MCAST_CREDIT (R182). -/
def execMcastCredit (g slot recv : Nat) (s : State) : Host.Outcome State Fault Refusal := .next (s.mcastCredit g slot recv)

/-- LAG_TIME has passed since a receiver or successor began to owe without returning a credit (R183, R188). -/
def State.lagExpiry (s : State) (g n k : Nat) : State :=
  match s.posOf g with
  | none => s
  | some i =>
    let now := s.now (.cell i)
    let x := s.slot i n
    match x.chain with
    | some r =>
      match (r.edges[k]?).bind (·.owedSince), s.chainOf g n with
      | some t, some u => if t + 1000 * u.lagUs ≤ now then s.chainDrop i n k else s
      | _, _ => s
    | none =>
      match (x.recvs[k]?).bind (·.owedSince) with
      | some t => if t + 1000 * (s.groupLag i n).2 ≤ now ∧ x.st ≠ 0 then (s.dropReceiver i n k).streamTry i n else s
      | none => s

/-- LAG_TIME_EXPIRY (R183). -/
def execLagTimeExpiry (g slot recv : Nat) (s : State) : Host.Outcome State Fault Refusal := .next (s.lagExpiry g slot recv)

/-- A skip marker arrives (R183, R184, R189): an idle receiver slot starts its catch-up; a chain member, once the chunks on
their way to its ring are handled, fetches its slice itself. -/
def State.skipMarker (s : State) (g n : Nat) : State :=
  match s.posOf g with
  | none => s
  | some i =>
    let x := s.slot i n
    match x.skips with
    | [] => s
    | k :: l =>
      if k.chain then
        if x.chain.isNone then
          if k.active then (s.modSlot i n fun x => { x with skips := l }).recordSkip i n k else s
        else if x.ring ≠ [] ∨ x.st ≠ 1 then s else
        let s := (s.modSlot i n fun x => { x with skips := l, st := 4, catchup := some k
                                                  chain := x.chain.map fun r => r.skipTo k.first }).recordSkip i n k
        (s.chainTry i n).wake i
      else if x.st ≠ 0 then s else
      let src := s.posOf k.src
      let y := match src with | some j => s.slot j k.srcSlot | none => x
      let q := ((y.recvs.find? fun r => r.g == g && r.slot == n).map (·.queue)).getD 0
      (s.modSlot i n fun x => { x with
        skips := l, catchup := some k, st := 4, cls := y.cls, q, number := k.number, list := k.list, entry := k.entry, next := k.first
        done := 0, blocks := [], ending := none, written := [] }).recordSkip i n k

/-- SKIP_MARKER (R183, R189). -/
def execSkipMarker (g slot : Nat) (s : State) : Host.Outcome State Fault Refusal := .next (s.skipMarker g slot)

/-! ## Chains (R187 to R190) -/

/-- A chunk arrives at a member (R187): from its ring, read from memory by the head of an unjoined chain into its own ring, or
fetched by a member that catches up (R189). A chunk below the one expected, or for a member whose run is over, is discarded; the
ring credit goes back either way. A chunk to be read or forwarded waits while its share is in debt (R180). -/
def State.chunkArrival (s : State) (g n : Nat) : State :=
  match s.posOf g with
  | none => s
  | some i =>
    let x := s.slot i n
    let p := (s.cell i).part.getD 0
    let fetch (r : ChainRun) (hg src k : Nat) (s : State) : (Chunk × Data) × State :=
      let (d, s) := s.payload (.cell g) p hg src (4096 * k) (min 4096 (r.total - 4096 * k))
      let s := s.portBytes i x.cls 0 d.length (markedGranules 0 d)
      let s := s.countSlot i n fun x => { x with cntBytes := x.cntBytes + BitVec.ofNat 64 d.length }
      ((⟨k, r.total, hg, src, d.length, 0⟩, d), s)
    let drop1 (s : State) : State := s.modSlot i n fun x => { x with ring := x.ring.drop 1 }
    let waits (r : ChainRun) (k : Nat) : Bool := !s.portOpen i x.cls 2 && r.edges.any fun e => !e.dropped && decide (e.next ≤ k)
    match x.ring, x.chain with
    | _ :: _, none => (drop1 s).ringReturn g n
    | c :: _, some r =>
      if c.no < r.expect then (drop1 s).ringReturn g n else
      if waits r c.no then s else
      let d := (s.cell i).scratch.read 64 c.at_ c.len
      (((drop1 s).chainChunk i n c d true).ringReturn g n).wake i
    | [], some r =>
      if !s.portOpen i x.cls 0 then s else
      if x.st = 4 then
        let k := max r.expect (r.keepOff / 4096)
        if r.keepLen = 0 ∨ r.keepOff + r.keepLen ≤ 4096 * k ∨ r.total ≤ 4096 * k then s else
        let s := s.modRun i n fun r => { r with expect := k }
        let ((c, d), s) := fetch r g r.src k s
        (s.chainChunk i n { c with head := r.hg, src := r.hsrc } d false).wake i
      else if r.head ∧ 4096 * r.expect < r.total then
        if waits r r.expect then s else
        let ((c, d), s) := fetch r g r.src r.expect s
        let s := drop1 (s.ringLand g n c d)
        (s.chainChunk i n c d true).wake i
      else s
    | [], none => s

/-- CHUNK_ARRIVAL (R187). -/
def execChunkArrival (g slot : Nat) (s : State) : Host.Outcome State Fault Refusal := .next (s.chunkArrival g slot)

/-- A ring credit reaches a predecessor, which sends owed chunks in order (R188). -/
def State.ringCredit (s : State) (g n k : Nat) : State :=
  match s.posOf g, s.takeCredit (.ring g n k) with
  | some i, some s =>
    let now := s.now (.cell i)
    let s := s.modRun i n fun r => { r with edges := r.edges.modify k fun e =>
      { e with credits := min 16 (e.credits + 1), unc := e.unc.drop 1, owedSince := e.owedSince.map fun _ => now } }
    ((s.chainSend i n none).chainTry i n).wake i
  | _, _ => s

/-- RING_CREDIT (R188). -/
def execRingCredit (g slot succ : Nat) (s : State) : Host.Outcome State Fault Refusal := .next (s.ringCredit g slot succ)

/-! ## Steps -/

/-- SSTART (R169, R173). -/
def execSstart (g : Nat) (w : StepWord) (s : State) : Host.Outcome State Fault Refusal :=
  .next (s.issue 0x83 g w fun i _ s => s.orHold i w (s.sstartTry i w) none)

/-- SSTOP (R178): the stream starts nothing more; its own completion is posted once the blocks in flight have landed. -/
def State.streamStop (s : State) (i : Nat) (w : StepWord) : State :=
  let n := imm16Of w
  let c := s.cell i
  let g := c.logical.getD 0
  let q := qOf w
  let x := s.slot i n
  if x.st = 0 then s.complete g q c.cls (.cell g) 0 0 else
  let (id, s) := s.newId
  let s := s.openAsync i ⟨id, 0x84, q, c.cls, n, 0, 0, [], 0⟩
  let s := s.modSlot i n fun x =>
    { x with st := 3, stopQs := x.stopQs ++ [q], blocks := x.blocks.filter (·.paid), ending := none
             next := if x.blocks.all (·.paid) then x.next else x.next - 1 }
  s.streamTry i n

/-- SSTOP (R178). -/
def execSstop (g : Nat) (w : StepWord) (s : State) : Host.Outcome State Fault Refusal :=
  .next (s.issue 0x84 g w fun i _ s => s.streamStop i w)

/-- CHFWD (R186). -/
def execChfwd (g : Nat) (w : StepWord) (s : State) : Host.Outcome State Fault Refusal :=
  .next (s.issue 0x85 g w fun i _ s => s.orHold i w (s.chfwdTry i w) none)

/-! ## Credits and installs that streams wait for -/

/-- Streams in CREDIT_WAIT and slice tokens that wait for a credit try again. -/
def State.resumeStreams (s : State) (i : Nat) : State :=
  let p := (s.cell i).part.getD 0
  (List.range 16).foldl (fun s n =>
    let x := s.slot i n
    let s := if x.st = 2 then s.blockStart i n p else s
    State.chainTokens i n x.toks.length s) s

/-- CREDIT_RETURN: the n-th credit on its way to cell g enters its counter (R63): a held POSTT first, then streams. -/
def execCreditReturn (g n : Nat) (s : State) : Host.Outcome State Fault Refusal :=
  let mine := s.credits.filter fun r => match r with | .counter g' _ _ => g' == g | _ => false
  .next (match mine[n]?, s.posOf g with
    | some (.counter g k cr), some i =>
      if (s.cell i).st = 8 then s else
      ({ s with credits := s.credits.erase (.counter g k cr) }.creditArrive g k cr).resumeStreams i
    | _, _ => s)

/-- INSTALL_WAIT_RESUME: the oldest waiting install takes a FREE slot (R234); the stream entry that waited for it starts
(R223). -/
def State.installResume (s : State) (p c : Nat) : State :=
  match s.cmpCtx p c with
  | none => s
  | some x =>
    match x.freeSlot, x.installs with
    | some g, (ls, who) :: rest =>
      let s := (s.modCmp p c fun x => { x with installs := rest }).install p c g ls 0
      match who with
      | none => s
      | some (lg, n, no) =>
        match s.posOf lg with
        | none => s
        | some i =>
          match (s.slot i n).blocks.getLast? with
          | some b => if b.no = no ∧ b.gen = 9 then s.blockGo i n p g else s
          | none => s
    | _, _ => s

/-- INSTALL_WAIT_RESUME (R234). -/
def execInstallWaitResume (p c : Nat) (s : State) : Host.Outcome State Fault Refusal := .next (s.installResume p c)

/-- A cell cycle of a kind (R180): the bucket of each class earns its percentage of 128 bytes; then blocks in flight, in slot and
block order, move the bursts it pays for, and owed blocks and chunks are sent (DESIGN CHOICE, log entry 50: the order). -/
def State.refill (s : State) (i kind : Nat) : State :=
  let p := (s.cell i).part.getD 0
  let s := s.modCell i fun c => { c with port := (c.port.earn .lc kind).earn .be kind }
  (List.range 16).foldl (fun s n =>
    let x := s.slot i n
    let s := (x.blocks.filter fun b => b.kind == kind).foldl (fun s b => State.pump i n p b.no 256 s) s
    if kind ≠ 2 then s else
    let s := (List.range x.recvs.length).foldl (fun s k => State.sendOwed i n k p 64 s) s
    let s := if x.owed = [] then s else (s.groupCheck i n).streamTry i n
    if x.chain.isNone then s else ((s.chainSend i n none).chainTry i n).wake i) s

/-- STREAM_BUCKET_REFILL (R180). -/
def execStreamBucketRefill (g kind : Nat) (s : State) : Host.Outcome State Fault Refusal :=
  .next (match s.posOf g with | none => s | some i => s.refill i kind)

end Sys2Proof.Machine
end

