-- ==== Sys2Proof/Machine/CellEvents.lean ====
section
/-! DEFINITION. What happens to a cell from outside its step list: token arrivals (R62), the timeout edge (R255, R256), the
end of a faulted job (R72) and writes of its control registers (R79). -/
namespace Sys2Proof.Machine

/-- The n-th token on its way to cell g, unless an earlier one of the same sender is still on its way (R27) or the cell is
being moved, which holds it (R319). -/
def State.arriving (s : State) (g n : Nat) : Option (Nat × Nat × Cls × Token) :=
  let mine := s.tokens.filter fun t => t.1 == g
  match mine[n]?, s.posOf g with
  | some t, some i =>
    if (s.cell i).st = 8 ∨ (mine.take n).any (fun u => u.2.2.2.sender == t.2.2.2.sender) then none else some t
  | _, _ => none

/-- A token arrives (R62, R256, R306). -/
def State.tokenArrival (s : State) (g n : Nat) : State :=
  match s.arriving g n, s.posOf g with
  | some t, some i => ({ s with tokens := s.tokens.erase t } : State).tokenArrive i t.2.1 t.2.2.1 t.2.2.2
  | _, _ => s

/-- TOKEN_ARRIVAL (R62). -/
def execTokenArrival (g n : Nat) (s : State) : Host.Outcome State Fault Refusal := .next (s.tokenArrival g n)

/-- A timeout is declared (R64, R256): the tokens received are popped, SD and the owed discards are written, and with
FLAGS[0] the step faults; where a token popped has a nonzero status the cause is REMOTE_STATUS (DESIGN CHOICE, log entry 49). -/
def State.declareTimeout (s : State) (i : Nat) (w : StepWord) : State :=
  let q := qOf w
  let any := kindOf w = 4
  let ts := if any then [] else ((s.cell i).cur.queue q).toks
  let n := max 1 (min 64 (imm16Of w))
  let s := (s.popTokens i q ts).setSd i w (2 ^ 63 + ts.length)
  let s := s.modCtx i fun x =>
    if any then { x with owedAny := x.owedAny ++ [BitVec.ofNat 16 (imm16Of w)] }
    else x.modQueue q fun u => { u with owed := u.owed + (n - ts.length) }
  let s := (s.modCell i fun c => c.count fun k => { k with timeouts := k.timeouts + 1 }).resume i
  if ts.any (fun t => t.status != 0) then s.remoteStatus i ts
  else if flagOf w 0 then s.cellFault i 7 0 0 0 none else s

/-- The timeout edge of the WAIT or WAITANY that holds cell g (R255). -/
def State.timeoutEdge (s : State) (g : Nat) : State :=
  match s.posOf g with
  | none => s
  | some i =>
    match (s.cell i).held with
    | some h => match h.deadline with
      | some d => if (s.cell i).st = 2 ∧ d ≤ s.now (.cell i) then s.declareTimeout i h.w else s
      | none => s
    | none => s

/-- TIMEOUT_EDGE (R255). -/
def execTimeoutEdge (g : Nat) (s : State) : Host.Outcome State Fault Refusal := .next (s.timeoutEdge g)

/-- JOB_ENDED: the control plane ends the job of a faulted cell (R72). -/
def State.jobEndedAt (s : State) (g : Nat) : State :=
  match s.posOf g with
  | none => s
  | some i =>
    let c := s.cell i
    if c.st ≠ 3 then s else
    if c.job.isNone then s.modCell i fun c => { c with st := 0 } else
    (s.modCell i fun c => { c with st := 1 }).endJob i 1 c.fault.cause

/-- JOB_ENDED (R72). -/
def execJobEnded (g : Nat) (s : State) : Host.Outcome State Fault Refusal := .next (s.jobEndedAt g)

/-- CELL_CNT_CTRL[FREEZE] (R79, R192): the cycles waited so far are counted first. -/
def execCellCntFreeze (pos : Nat) (b : Bool) (s : State) : Host.Outcome State Fault Refusal :=
  .next (s.modCell pos fun c => { c.waited (s.now (.cell pos)) with freeze := b })

/-- The stream counters of a slot at zero (R192). -/
def Slot.clearCounts (x : Slot) : Slot :=
  { x with cntBytes := 0, cntBlocks := 0, cntReread := 0, cntDrops := 0, cntSkips := 0 }

/-- CELL_CNT_CTRL[CLEAR] zeroes the counters of the cell and of its streams (R79, R192). -/
def execCellCntClear (pos : Nat) (s : State) : Host.Outcome State Fault Refusal :=
  .next (s.modCell pos fun c => { c.waited (s.now (.cell pos)) with
    cnt := ⟨0, 0, 0, 0, 0, 0⟩
    port := { c.port with slots := c.port.slots.map Slot.clearCounts, cntRead := 0, cntWrite := 0, cntRemote := 0, cntPoison := 0 } })

/-- CELL_FAULT_STATUS[VALID] cleared (R79). -/
def execCellFaultValidClear (pos : Nat) (s : State) : Host.Outcome State Fault Refusal :=
  .next (s.modCell pos fun c => { c with fault := { c.fault with valid := false } })

end Sys2Proof.Machine
end

