-- ==== Sys2Proof/Machine/Control.lean ====
section
/-! DEFINITION. Control-flow, token and ordering steps (R61 to R65, R69, R244 to R246, R307). -/
namespace Sys2Proof.Machine

/-- KIND 0x00 (R69). -/
def execNop (g : Nat) (w : StepWord) (s : State) : Host.Outcome State Fault Refusal :=
  .next (s.issue 0x00 g w fun _ _ s => s)

/-- LOOP (R61): a count of 0 skips the body; at depth 5 or deeper of the step list, by which the commit judges malformed nesting, the
body runs once with index 0. With FLAGS[1] SD is 0 also where the count of 0 lets no pass run (DESIGN CHOICE, log entry 49). -/
def State.loopOpen (s : State) (i : Nat) (w : StepWord) : State :=
  let c := s.cell i
  let x := c.cur
  let n := if flagOf w 0 then x.sa w % 2 ^ 32 else imm32Of w
  let s := if flagOf w 1 then s.setSd i w 0 else s
  if 4 ≤ loopDepth (c.img.steps.take (x.step - 1)) then s.modCtx i fun x => { x with overLoops := x.overLoops + 1 }
  else if n = 0 then s.modCtx i fun x => { x with step := skipBody (c.img.steps.drop x.step) x.step 0 }
  else s.modCtx i fun x => { x with loops := ⟨x.step, n, 0⟩ :: x.loops }

/-- LOOP (R61). -/
def execLoop (g : Nat) (w : StepWord) (s : State) : Host.Outcome State Fault Refusal :=
  .next (s.issue 0x01 g w fun i _ s => s.loopOpen i w)

/-- ENDLOOP closes or repeats the innermost open loop; with no open loop, and where it closes one of depth 5 or deeper, it has no
effect (R61). The SD of a LOOP with
FLAGS[1] receives the index of each pass. -/
def State.loopClose (s : State) (i : Nat) : State :=
  let c := s.cell i
  let x := c.cur
  if 4 < loopDepth (c.img.steps.take (x.step - 1)) then s.modCtx i fun x => { x with overLoops := x.overLoops - 1 } else
  match x.loops with
  | [] => s
  | f :: l =>
    if 1 < f.left then
      let s := s.modCtx i fun x => { x with step := f.start, loops := ⟨f.start, f.left - 1, f.idx + 1⟩ :: l }
      match c.img.steps[f.start - 1]? with
      | some w => if flagOf w 1 then s.setSd i w (f.idx + 1) else s
      | none => s
    else s.modCtx i fun x => { x with loops := l }

/-- ENDLOOP (R61). -/
def execEndloop (g : Nat) (w : StepWord) (s : State) : Host.Outcome State Fault Refusal :=
  .next (s.issue 0x02 g w fun i _ s => s.loopClose i)

/-- WAIT (R64). -/
def execWait (g : Nat) (w : StepWord) (s : State) : Host.Outcome State Fault Refusal :=
  .next (s.issue 0x03 g w fun i _ s => s.orHold i w (s.waitTry i w) (s.waitDeadline i w))

/-- WAITANY (R64). -/
def execWaitany (g : Nat) (w : StepWord) (s : State) : Host.Outcome State Fault Refusal :=
  .next (s.issue 0x04 g w fun i _ s => s.orHold i w (s.waitAnyTry i w) (s.waitDeadline i w))

/-- POSTC returns COUNT credits of the tokens popped from queue Q (R63, R176). -/
def State.postCredits (s : State) (i : Nat) (w : StepWord) : State :=
  let (cs, left) := returnCredits (max 1 (min 64 (imm16Of w))) ((s.cell i).cur.queue (qOf w)).popped
  let s := s.modCtx i fun x => x.modQueue (qOf w) fun u => { u with popped := left }
  { s with credits := s.credits ++ cs }

/-- POSTC (R63). -/
def execPostc (g : Nat) (w : StepWord) (s : State) : Host.Outcome State Fault Refusal :=
  .next (s.issue 0x05 g w fun i _ s => s.postCredits i w)

/-- POSTT (R63): it waits while its counter is 0. -/
def execPostt (g : Nat) (w : StepWord) (s : State) : Host.Outcome State Fault Refusal :=
  .next (s.issue 0x06 g w fun i _ s => s.orHold i w (s.posttTry i w) none)

/-- EBIND (R307). -/
def execEbind (g : Nat) (w : StepWord) (s : State) : Host.Outcome State Fault Refusal :=
  .next (s.issue 0x07 g w fun i _ s => s.orHold i w (s.ebindTry i w) none)

/-- LAYER at issue (R65): the layer number is recorded and whatever waits for the boundary is taken. -/
def State.layerIssue (s : State) (i : Nat) (w : StepWord) : State :=
  let s := s.modCell i fun c => { c with layer := imm16Of w }
  let s := s.layerTake i w
  if (s.cell i).st = 1 ∧ (s.cell i).job.isSome then s.layerDone i else s

/-- LAYER (R65, R311, R317, R318). -/
def execLayer (g : Nat) (w : StepWord) (s : State) : Host.Outcome State Fault Refusal :=
  .next (s.issue 0x08 g w fun i _ s => s.layerIssue i w)

/-- SEL: SD ← SA if SC ≠ 0, else SB (R69). -/
def State.selScalar (s : State) (i : Nat) (w : StepWord) : State :=
  let x := (s.cell i).cur
  s.setSd i w (if x.sc w ≠ 0 then x.sa w else x.sb w)

/-- SEL (R69). -/
def execSel (g : Nat) (w : StepWord) (s : State) : Host.Outcome State Fault Refusal :=
  .next (s.issue 0x09 g w fun i _ s => s.selScalar i w)

/-- REL (R244). -/
def execRel (g : Nat) (w : StepWord) (s : State) : Host.Outcome State Fault Refusal :=
  .next (s.issue 0x0B g w fun i _ s => s.relStart i w)

/-- ACQ (R246): DIE scope and wider empty the read buffer, DEVICE and PAIR also set the view stamp of R160. -/
def State.acquire (s : State) (i : Nat) (w : StepWord) : State :=
  let now := s.now (.cell i)
  let s := if 1 ≤ modeOf w then s.modCell i fun c => { c with readBuf := [] } else s
  if 2 ≤ modeOf w then s.modCtx i fun x => { x with viewStamp := now + 16 } else s

/-- ACQ (R246). -/
def execAcq (g : Nat) (w : StepWord) (s : State) : Host.Outcome State Fault Refusal :=
  .next (s.issue 0x0C g w fun i _ s => s.acquire i w)

/-- FENCE (R69): steps complete in order here, so every earlier step of R58's units has completed. -/
def execFence (g : Nat) (w : StepWord) (s : State) : Host.Outcome State Fault Refusal :=
  .next (s.issue 0x0D g w fun _ _ s => s)

/-- MARK: SD ← the cell's MTIME copy (R69). -/
def execMark (g : Nat) (w : StepWord) (s : State) : Host.Outcome State Fault Refusal :=
  .next (s.issue 0x0E g w fun i _ s => s.setSd i w (s.now (.cell i)))

/-- END (R69, R308): it waits for every asynchronous step of the job. -/
def execEndStep (g : Nat) (w : StepWord) (s : State) : Host.Outcome State Fault Refusal :=
  .next (s.issue 0x0F g w fun i _ s => s.orHold i w (s.endTry i) none)

/-- MWAIT (R69): the array is idle once the earlier steps have completed. -/
def execMwait (g : Nat) (w : StepWord) (s : State) : Host.Outcome State Fault Refusal :=
  .next (s.issue 0x39 g w fun _ _ s => s)

end Sys2Proof.Machine
end

