-- ==== Sys2Proof/Machine/Batches.lean ====
section
/-! DEFINITION. Batches: the rings (R322, R323), admission (R303, R304), the journal's own records (R388), how a batch
completes (R308 to R310, R345, R346) and what a descriptor that is not admitted gets. -/
namespace Sys2Proof.Machine

/-! ## Rings (R322, R323) -/

/-- SIZE and ENABLE of a ring control register. -/
def ringSize (ctl : Nat) : Nat := 2 ^ bits ctl 3 0
def ctlOn (ctl : Nat) : Bool := ctl.testBit 4

def State.ringCtl (s : State) (p : Nat) (be : Bool) : Nat := s.reg (partBase p + if be then 0x28 else 0x18)
def State.ringHead (s : State) (p : Nat) (be : Bool) : BitVec 16 := if be then (s.part p).beHead else (s.part p).lcHead
def State.ringTail (s : State) (p : Nat) (be : Bool) : BitVec 16 := if be then (s.part p).beTail else (s.part p).lcTail

/-- A descriptor waits in a submission ring that can be read. -/
def State.ringReady (s : State) (p : Nat) (be : Bool) : Bool :=
  s.hif.up && ctlOn (s.ringCtl p be) && s.ringHead p be != s.ringTail p be

/-- Read the descriptor at HEAD and pass it (R323). -/
def State.ringTake (s : State) (p : Nat) (be : Bool) : Data × State :=
  let base := 128 * (s.reg (partBase p + if be then 0x20 else 0x10) / 128)
  let (d, s) := s.hostRead (base + 128 * ((s.ringHead p be).toNat % ringSize (s.ringCtl p be))) 128
  (d, s.modPart p fun u => if be then { u with beHead := u.beHead + 1 } else { u with lcHead := u.lcHead + 1 })

/-- The new stored fields, HEAD and TAIL of a write to a ring control register: SIZE is kept while ENABLE was set, and a
count that would leave more than 2^SIZE entries is discarded. -/
def ringCtlWrite (old val : Nat) (head tail : BitVec 16) (submission : Bool) : Nat × BitVec 16 × BitVec 16 :=
  let size := if ctlOn old then bits old 3 0 else (rwc 0 4 4 4 12).clamp val
  let ctl := size + 2 ^ 4 * b2n (val.testBit 4)
  let h := if submission then head else BitVec.ofNat 16 (bits val 31 16)
  let t := if submission then BitVec.ofNat 16 (bits val 63 48) else tail
  if (t - h).toNat ≤ 2 ^ size then (ctl, h, t) else (ctl, head, tail)

/-- The completion ring of a partition takes n more records. -/
def State.cqRoom (s : State) (p n : Nat) : Bool :=
  let u := s.part p
  let ctl := s.reg (partBase p + 0x38)
  s.hif.up && ctlOn ctl && (u.cqTail - u.cqHead).toNat + n ≤ ringSize ctl

/-! ## Records (R309) -/

/-- A completion record. -/
def completionRecord (tag handle part : Nat) (cls : Cls) (late : Bool) (status jobs admitAt done total tables : Nat) (trunc : Bool)
    (preempted moved replays dropped first cause : Nat) : Bytes :=
  ofWords
    [ tag,
      handle % 2 ^ 32 + 2 ^ 32 * part + 2 ^ 36 * (match cls with | .lc => 0 | .be => 1) + 2 ^ 37 * b2n late + 2 ^ 40 * status
        + 2 ^ 48 * jobs,
      admitAt, done, total % 2 ^ 32 + 2 ^ 32 * tables + 2 ^ 48 * b2n trunc,
      preempted % 2 ^ 16 + 2 ^ 16 * (moved % 2 ^ 16) + 2 ^ 32 * (replays % 2 ^ 16) + 2 ^ 48 * (dropped % 2 ^ 9),
      first + 2 ^ 16 * cause, 0 ]

/-- The record of a descriptor that was not admitted. -/
def State.refusal (s : State) (p : Nat) (cls : Cls) (desc : Bytes) (status dropped : Nat) : Bytes :=
  completionRecord (if status = 6 then 0 else wordAt desc 1) 0xFFFFFFFF p cls false status 0 0 (s.now .control) 0 0 false 0 0 0
    dropped 0x1FF 0

/-- A completion enters the queue of the completion ring; one that finds no room is counted (R323). -/
def State.cqPut (s : State) (p handle : Nat) (rec : Bytes) : State :=
  let room := s.cqRoom p ((s.part p).held.length + 1)
  s.modPart p fun u => { u with
    held := u.held ++ [(handle, rec)], cntCqWait := if room then u.cntCqWait else u.cntCqWait + 1 }

/-- A descriptor that is not admitted completes on its path (R303, R304). -/
def State.refuseSub (s : State) (p path arg msg : Nat) (cls : Cls) (rec : Bytes) : State :=
  match path with
  | 2 => s.modHif fun h => { h with slots := h.slots.modify arg fun x => { x with reply := some rec } }
  | 3 => s.netDone arg msg cls (match cls with | .lc => 0 | .be => 1) 0 0 0 rec
  | _ => s.cqPut p 0xFFFFFFFF rec

/-! ## The journal (R388) -/

/-- The lowest free own slot. -/
def Horvi.freeSlot (h : Horvi) : Option Nat := (List.range 65536).find? fun n => !(h.own.any fun e => e.1 == n)

/-- The journal record of a batch. -/
def journalRecord (b : Batch) (jseq pubno : Nat) : Bytes :=
  ofWords
    ([ b.handle + 2 ^ 32 * b.part + 2 ^ 36 * (match b.cls with | .lc => 0 | .be => 1) + 2 ^ 37 * b.path
        + 2 ^ 39 * (if b.path = 3 then b.pathArg else 0) + 2 ^ 50 * (if b.path = 2 then b.pathArg else 0) + 2 ^ 63,
      jseq, b.admitAt, pubno % 2 ^ 32 + 2 ^ 32 * (b.msg % 2 ^ 16) ] ++ List.replicate 12 0) ++ b.desc

/-- The four bursts of own record n are charged to the partition of its batch, at the stack that holds it (R209, R387). -/
def State.journalCharge (s : State) (p n : Nat) : State :=
  let fs := ((s.image.frames.filter fun e => e.2.1 % 8 == 5).map Prod.fst).mergeSort (· ≤ ·)
  match fs.head? with
  | some f => s.bursts (s.stackOf (2 ^ 30 * f + 256 * n)) (some p) 0 4
  | none => s

/-- A batch of a mirrored partition gets an own record, which goes to the partner while PAIRED. -/
def State.journalWrite (s : State) (b : Batch) : Batch × State :=
  if !s.mirrored b.part then (b, s) else
  match s.hrv.freeSlot with
  | none => (b, s)
  | some n =>
    let d := journalRecord b s.hrv.jseq (s.part b.part).pubno
    let s := s.modHrv fun h => { h with own := h.own ++ [(n, d)], jseq := h.jseq + 1 }
    let s := s.journalCharge b.part n
    let s := if s.hrv.st = 4 then s.hrvSend 3 0 n (Data.clean d) else s
    ({ b with journalSlot := some n }, s)

/-- The partner has not acknowledged the JOURNAL frame of a batch (R388). -/
def State.journalOut (s : State) (b : Batch) : Bool :=
  let x := s.hrv.streams.getD 0 .fresh
  s.hrv.st == 4 && b.journalSlot.isSome && (x.unacked ++ x.waiting).any fun f =>
    bits f.w0.toNat 7 4 == 3 && bits (wordAt f.payload 0) 31 0 == b.handle

/-- The own record of a batch is freed, and the partner told (R388). -/
def State.journalDone (s : State) (b : Batch) : State :=
  match b.journalSlot with
  | none => s
  | some n =>
    let s := s.modHrv fun h => { h with own := h.own.filter fun e => e.1 != n }
    if s.hrv.st = 4 then s.hrvSend 4 0 (n + 2 ^ 32 * b.handle) [] else s

/-! ## Admission (R303, R304) -/

/-- Logical cells that CELLS of a descriptor names. -/
def descCells (d : Bytes) : List Nat := (List.range 320).filter fun g => bit (wordAt d (4 + g / 64)) (g % 64)

/-- Word 2 of a descriptor clamped: COLD_US and SUBST_MAX (R301). -/
def clampWord2 (w : Nat) : Nat :=
  let c := bits w 14 0
  (if c = 0 then 0 else max 50 (min 20000 c)) + 2 ^ 32 * min 4096 (bits w 44 32)

/-- A descriptor after the clamping of R301. -/
def clampDescriptor (d : Bytes) (cells : List Nat) : Bytes :=
  let w (i : Nat) : Nat :=
    if i = 2 then clampWord2 (wordAt d 2)
    else if 4 ≤ i ∧ i ≤ 8 then ((List.range 64).map fun k => if cells.contains (64 * (i - 4) + k) then 2 ^ k else 0).sum
    else wordAt d i
  ofWords ((List.range 16).map w)

/-- Logical cell g belongs to partition p. -/
def State.owns (s : State) (p g : Nat) : Bool := s.cells.any fun c => c.logical == some g && c.part == some p

/-- The jobs of a batch enter the start queues of its cells (R304), or their heads for a replay (R392, R409). -/
def State.enqueue (s : State) (b : Batch) (head : Bool) : State :=
  let entry := bits (wordAt b.desc 0) 27 16
  let param := bits (wordAt b.desc 0) 63 32
  let now := s.now .control
  b.running.foldl (fun (s : State) g =>
    match s.posOf g with
    | none => s
    | some i => s.modCell i fun c =>
      let behind := c.job.any (fun j => j.cls == .be) && !c.startQ.any fun j => j.cls == .lc
      let j : Job := ⟨b.handle, b.cls, entry, BitVec.ofNat 32 param, now, behind⟩
      { c with startQ := if head then j :: c.startQ else c.startQ ++ [j] }) s

/-- A batch of a descriptor, before its handle. -/
def State.newBatch (s : State) (p : Nat) (cls : Cls) (desc : Bytes) (own : List Nat) (dropped path arg msg : Nat) : Batch :=
  let now := s.now .control
  { handle := 0, part := p, cls, desc := clampDescriptor desc own, admitAt := now, coldFrom := now
    coldUs := bits (clampWord2 (wordAt desc 2)) 14 0, path, pathArg := arg, msg, running := own, jobs := own.length
    status := 0, cells := own, preempted := 0, moved := 0, replays := 0, dropped, firstCell := 0x1FF, cause := 0, faulty := []
    replayable := false, decided := false, replayed := false, journalSlot := none, complete := false, doneAt := 0
    subst := [], substLost := 0 }

/-- Bind the CURRENT epoch of every table of the partition's catalogue to a handle (R145). -/
def State.bindAll (s : State) (p h : Nat) : State :=
  let new := s.tables.filterMap fun e =>
    if e.part ≠ p then none else some (⟨h, 0, p, e.table, ((s.current e.table).map (·.no)).getD 0⟩ : Binding)
  { s with bindings := s.bindings ++ new }

/-- A readable descriptor is admitted, or completes at once without a cell (R301, R304). -/
def State.admitDesc (s : State) (p path arg msg : Nat) (cls : Cls) (d : Data) : State :=
  if d.marked then s.refuseSub p path arg msg cls (s.refusal p cls d.bytes 6 0) else
  let named := descCells d.bytes
  let own := named.filter (s.owns p)
  let dropped := named.length - own.length
  if own = [] then s.refuseSub p path arg msg cls (s.refusal p cls d.bytes 5 dropped) else
  let (h, s) := s.freshHandle
  let s := s.bindAll p h
  let b := { s.newBatch p cls d.bytes own dropped path arg msg with handle := h }
  let (b, s) := s.journalWrite b
  let s := s.modPart p fun u => match cls with
    | .lc => { u with cntAdmitLc := u.cntAdmitLc + 1 }
    | .be => { u with cntAdmitBe := u.cntAdmitBe + 1 }
  let s : State := { s with batches := s.batches ++ [b] }
  let s := if path = 2 then s.modHif fun x => { x with slots := x.slots.modify arg fun y => { y with handle := some h } } else s
  s.enqueue b false

/-- Room in flight for a batch of a class (R303). -/
def State.room (s : State) (p : Nat) (cls : Cls) : Bool :=
  let m := (s.part p).maxBatches
  let be := (s.batches.filter fun b => b.part == p && b.cls == .be).length
  decide (s.inFlight p < m) && (cls == .lc || m == 1 || decide (be + 1 < m))

/-- Where the next submission of a class comes from: none, the head of its ring, or a waiting one that arrived before it. -/
def State.nextSub (s : State) (p : Nat) (cls : Cls) : Option (Option Submission) :=
  let be := cls == .be
  let ring := s.ringReady p be
  match (s.part p).waits.find? fun w => w.cls == cls with
  | some w => if ring && w.mark != s.ringHead p be then some none else some (some w)
  | none => if ring then some none else none

/-- Admit or refuse the next submission of a class. -/
def State.admitClass (s : State) (p : Nat) (cls : Cls) (from_ : Option Submission) : State :=
  let u := s.part p
  let closed := if !u.defined then some 7 else if u.drained ∨ s.power.suspectHold then some 4 else none
  if closed.isNone ∧ (!u.opened ∨ !s.room p cls) then s else
  match from_ with
  | some w =>
    let s := s.modPart p fun u => { u with waits := u.waits.erase w }
    match closed with
    | some st => s.refuseSub p w.path w.arg w.msg cls (s.refusal p cls w.desc st 0)
    | none => s.admitDesc p w.path w.arg w.msg cls (Data.clean w.desc)
  | none =>
    let be := cls == .be
    let (d, s) := s.ringTake p be
    let path := b2n be
    match closed with
    | some st => s.refuseSub p path 0 0 cls (s.refusal p cls d.bytes (if d.marked then 6 else st) 0)
    | none => s.admitDesc p path 0 0 cls d

/-- One edge of admission (R303): LC first; BE only where no LC submission waits. -/
def State.admission (s : State) (p : Nat) : State :=
  match s.nextSub p .lc with
  | some x => s.admitClass p .lc x
  | none => match s.nextSub p .be with
    | some x => s.admitClass p .be x
    | none => s

/-! ## Completion (R308 to R310) -/

/-- The substitution list of a batch (R310), a final write: entries written, TRUNC. -/
def State.writeSubst (s : State) (b : Batch) : Bool × State :=
  let addr := wordAt b.desc 3
  let l := (b.subst.filter fun e => e.2 != 0).mergeSort fun x y => x.1 ≤ y.1
  let out := l.take (bits (wordAt b.desc 2) 44 32)
  if addr = 0 then (decide (0 < b.substLost), s) else
  let d := ofWords (out.map fun e => e.1 % 4096 + 2 ^ 32 * (e.2 % 2 ^ 32))
  if addr.testBit 63 ∨ (s.refused b.part (addr57 addr) d.length).isSome
  then (decide (0 < b.substLost) || l != [], s)
  else (decide (0 < b.substLost) || out.length < l.length, s.vwrite .control b.part (addr57 addr) (Data.clean d))

/-- An LC batch that completed later than the partition's target (R309). -/
def State.late (s : State) (b : Batch) : Bool :=
  b.cls == .lc && match (s.part b.part).lcTarget with
    | some t => decide (1000 * t < b.doneAt - b.admitAt)
    | none => false

/-- Write a batch's substitution list and give its completion record; LATE is counted. -/
def State.finishBatch (s : State) (b : Batch) : Bytes × State :=
  let (trunc, s) := s.writeSubst b
  let l := b.subst.filter fun e => e.2 != 0
  let late := s.late b
  let s := if late then s.modPart b.part fun u => { u with cntLate := u.cntLate + 1 } else s
  (completionRecord (wordAt b.desc 1) b.handle b.part b.cls late b.status b.jobs b.admitAt b.doneAt
    ((l.map Prod.snd).sum + b.substLost) (min 4096 l.length) trunc b.preempted b.moved b.replays b.dropped b.firstCell b.cause, s)

/-- Release the bindings of a batch (R145). -/
def State.unbind (s : State) (h : Nat) : State := s.releaseIf fun x => x.kind == 0 && x.handle == h

/-- Step 3 of R421: with no batch in flight every cell enters DRAINED. A batch leaves flight when its record is written. -/
def State.leave (s : State) (b : Batch) : State :=
  let s := (s.unbind b.handle).journalDone b
  ({ s with batches := s.batches.filter fun x => x.handle != b.handle } : State).finishDrain

/-- MBX_CTL[ENABLE] (R352). -/
def State.mbxOn (s : State) : Bool := (s.reg 0x200000).testBit 0

/-- Every job of the batch has ended and no decision or acknowledgement is awaited (R308, R388, R408). -/
def State.batchReady (s : State) (b : Batch) : Bool :=
  b.running == [] && !b.complete && !(b.replayable && !b.decided) && !b.replayed && !s.journalOut b

/-- BATCH_COMPLETE (R308): a release of DEVICE scope covers the batch's writes (R346), the bindings are released where the
record can be written at once (R145, R323), and the record is prepared for the batch's path. -/
def State.batchComplete (s : State) (h : Nat) : State :=
  match s.batch h with
  | none => s
  | some b =>
    if !s.batchReady b then s else
    let s := (b.cells.map Agent.cell ++ (List.range s.dieCount).map Agent.frontEnd).foldl State.release s
    let now := s.now .control
    let s := s.modBatch h fun b => { b with complete := true, doneAt := now }
    let b := { b with complete := true, doneAt := now }
    match b.path with
    | 3 =>
      let (rec, s) := s.finishBatch b
      (s.netDone b.pathArg b.msg b.cls (match b.cls with | .lc => 0 | .be => 1) 0 0 0 rec).leave b
    | 2 =>
      let s := if s.hif.up ∧ s.mbxOn then s.unbind h else s
      let (rec, s) := s.finishBatch b
      s.modHif fun x => { x with slots := x.slots.modify b.pathArg fun y => { y with reply := some rec } }
    | _ =>
      let s := if s.cqRoom b.part ((s.part b.part).held.length + 1) then s.unbind h else s
      s.cqPut b.part h []

/-- COMPLETION_RECORD (R323): the oldest completion held is written at TAIL and the partition's vector raised. -/
def State.completionWrite (s : State) (p : Nat) : State :=
  match (s.part p).held with
  | [] => s
  | (h, rec) :: l =>
    if !s.cqRoom p 1 then s else
    let (rec, s) := match s.batch h with
      | some b => if rec = [] then s.finishBatch b else (rec, s)
      | none => (rec, s)
    let size := ringSize (s.reg (partBase p + 0x38))
    let base := 64 * (s.reg (partBase p + 0x30) / 64)
    let s := s.hostWrite (base + 64 * ((s.part p).cqTail.toNat % size)) (Data.clean rec)
    let s := s.modPart p fun u => { u with cqTail := u.cqTail + 1, held := l }
    let s := s.raise p
    let s := if s.hif.sriov then s.raise (32 * (p + 1)) else s
    match s.batch h with
    | some b => s.leave b
    | none => s

end Sys2Proof.Machine
end

