-- ==== Sys2Proof/Machine/Windows.lean ====
section
/-! DEFINITION. Writes from outside the module: BAR2, copy engines and the network land through these (R329, R386). -/
namespace Sys2Proof.Machine

/-- A partition's mirror window (R386, R396): first device virtual address and the one past its end. -/
def State.window (s : State) (p : Nat) : Nat × Nat :=
  let lo := 0x10000 * bits (s.reg (0x3600100 + 0x10 * p)) 40 0
  (lo, lo + 0x10000 * bits (s.reg (0x3600108 + 0x10 * p)) 40 0)

/-- Send [va, va + n) of a partition to its partner in WINDOW frames, widened to 16-byte units; ARG holds the partition in
[60:57] beside the address (R378, R386; log entry 31). -/
def State.sendWindow (s : State) (p va n : Nat) : State :=
  let lo := va / 16 * 16
  let hi := (va + n + 15) / 16 * 16
  (chunks 4096 lo (hi - lo)).foldl (fun s c =>
    let (d, s) := s.vread .horvi p c.1 c.2
    s.hrvSend 7 0 (c.1 + 2 ^ 57 * p) d) s

/-- The pair mirrors windows: PAIRED, or the source of a resynchronisation. -/
def State.mirrors (s : State) : Bool := s.hrv.st == 4 || (s.hrv.st == 3 && s.hrv.source)

/-- A write of n bytes at target t of a kind (1 device memory, 2 scratchpad windows) has landed: what lies in a mirror window
goes to the partner (R386). -/
def State.mirrorWrite (s : State) (kind t n : Nat) : State :=
  if !s.mirrors then s else
  (List.range 16).foldl (fun s p =>
    if !s.mirrored p then s else
    let (wlo, whi) := s.window p
    (s.ranges.filter fun r => r.part == p && r.kind == kind).foldl (fun s r =>
      let a := max t (0x10000 * r.tstart)
      let b := min (t + n) (0x10000 * (r.tstart + r.vlen))
      let lo := max wlo (r.lo + (a - 0x10000 * r.tstart))
      let hi := min whi (r.lo + (b - 0x10000 * r.tstart))
      if a < b ∧ lo < hi then s.sendWindow p lo (hi - lo) else s) s) s

/-- A write from outside at a device virtual address of partition p: it lands, and is mirrored where its targets lie in a
window. -/
def State.outsideWrite (s : State) (a : Agent) (p va : Nat) (d : Data) : State :=
  let ps := (s.pieces p va d.length).filterMap fun c => match c.rng with
    | some r => if r.write then some (r.kind, r.target c.va, c.len) else none
    | none => none
  ps.foldl (fun s x => s.mirrorWrite x.1 x.2.1 x.2.2) (s.vwrite a p va d)

end Sys2Proof.Machine
end

