-- ==== Sys2Proof/Machine/CopyEngine.lean ====
section
/-! DEFINITION. The copy engines (R335 to R339, R349, R350): engines 0 to 7 move into the device, 8 to 15 out of it. -/
namespace Sys2Proof.Machine

/-! ## Descriptors (R336) -/

def CeDesc.word (d : CeDesc) (i : Nat) : Nat := wordAt d.desc i
def CeDesc.op (d : CeDesc) : Nat := bits (d.word 0) 7 0
def CeDesc.has (d : CeDesc) (n : Nat) : Bool := (d.word 0).testBit n
def CeDesc.len (d : CeDesc) : Nat := bits (d.word 3) 31 0

/-- Engine e moves data from host memory into the device (R335). -/
def ceH2D (e : Nat) : Bool := e < 8

def State.ceOwner (s : State) (e : Nat) : Nat := s.reg (ceBase e + 0x20)
/-- The engine is submitted to by a virtual function. -/
def State.ceVf (s : State) (e : Nat) : Bool := (s.ceOwner e).testBit 4
/-- The partition that a descriptor acts for (R335). -/
def State.cePart (s : State) (e : Nat) (d : CeDesc) : Nat :=
  if s.ceVf e then bits (s.ceOwner e) 3 0 else bits (d.word 0) 19 16

def State.ceCtl (s : State) (e : Nat) : Nat := s.reg (ceBase e + 8)
/-- Host address of the entry that count n names (R323). -/
def State.ceEntry (s : State) (e n : Nat) : Nat := 64 * (s.reg (ceBase e) / 64) + 64 * (n % ringSize (s.ceCtl e))

/-- Status of the device-side bytes [v, v + n) of partition p (R337, R339): a HOST range is no target of an engine. -/
def State.ceMapped (s : State) (p v n : Nat) (write : Bool) : Nat :=
  let ps := s.pieces p v n
  if ps.any fun c => c.rng.all (·.kind == 3) then 2
  else if write && ps.any (fun c => c.rng.any (!·.write)) then 3 else 0

/-- A device FLAG_ADDR can be written. -/
def State.ceFlagOk (s : State) (p : Nat) (d : CeDesc) : Nat := s.ceMapped p (addr57 (d.word 4)) 8 true

/-- The fields that no translation decides are legal (R336, R337). -/
def State.ceLegal (s : State) (p : Nat) (d : CeDesc) : Bool :=
  d.op ≤ 1 && (d.op == 0 || (decide (16 ≤ d.len) && d.len % 16 == 0)) && (!d.has 9 || d.word 4 % 8 == 0)
    && (!d.has 11 || s.owns p (bits (d.word 6) 8 0))

/-- The status that the checks of a descriptor give (R337, R339). -/
def State.ceCheck (s : State) (e : Nat) (d : CeDesc) : Nat :=
  let p := s.cePart e d
  if !s.ceLegal p d then 1 else
  let data := if d.op = 0 then 0
    else if ceH2D e then s.ceMapped p (addr57 (d.word 2)) d.len true
    else s.ceMapped p (addr57 (d.word 1)) d.len false
  let flag := if d.has 9 && d.has 10 then s.ceFlagOk p d else 0
  if data = 2 ∨ flag = 2 then 2 else if data = 3 ∨ flag = 3 then 3 else 0

/-- Read the source of a descriptor. -/
def State.ceSource (s : State) (e : Nat) (d : CeDesc) : Data × State :=
  if ceH2D e then (s.host.read 64 (d.word 1) d.len, s) else s.vread (.copyEngine e) (s.cePart e d) (addr57 (d.word 1)) d.len

/-- A descriptor starts: its checks, and its source as it stands. -/
def State.ceStart (s : State) (e : Nat) (d : CeDesc) : CeDesc × State :=
  let st := s.ceCheck e d
  let s := if st = 2 ∨ st = 3 then s.countXltFault (s.cePart e d) else s
  if st ≠ 0 ∨ d.op = 0 then ({ d with status := st, snap := [], rngs := [] }, s) else
  let p := s.cePart e d
  let v := addr57 (d.word (if ceH2D e then 2 else 1))
  let rngs := (s.rangesOf p v d.len ++ (if d.has 9 && d.has 10 then s.rangesOf p (addr57 (d.word 4)) 8 else [])).dedup
  let (x, s) := s.ceSource e d
  ({ d with status := 0, snap := x, rngs }, s)

/-- Take the descriptor that count n names from the ring; one that was read marked, or cannot be read, is illegal. -/
def State.ceFetch (s : State) (e n : Nat) : CeDesc :=
  let x := s.host.read 64 (s.ceEntry e n) 64
  ⟨n % ringSize (s.ceCtl e), if x.marked ∨ !s.hif.up then leBytes 64 0xFF else x.bytes, 0, 0, false, [], []⟩

/-- The engine may start the next descriptor of its ring. -/
def State.ceNext (s : State) (e : Nat) : Option CeDesc :=
  let c := s.ce e
  if 16 ≤ e ∨ !s.hif.up ∨ !ctlOn (s.ceCtl e) ∨ c.taken = c.tail ∨ (1 < c.st ∧ c.st ≠ 3) ∨ 4 ≤ c.active.length then none else
  let d := s.ceFetch e c.taken.toNat
  if d.has 13 ∧ c.active ≠ [] then none else some d

/-- COPY (R337). -/
def State.ceCopy (s : State) (e : Nat) : State :=
  match s.ceNext e with
  | some d =>
    if d.op = 0 then s else
    let (d, s) := s.ceStart e d
    s.modCe e fun c => { c with active := c.active ++ [d], taken := c.taken + 1, st := if c.st = 3 then 3 else 1 }
  | none => s

/-- COPY (R337). -/
def execCopy (e : Nat) (s : State) : Host.Outcome State Fault Refusal := .next (s.ceCopy e)

/-! ## Completion (R338, R339) -/

/-- Bytes read at the start as they land: a byte whose source changed while the copy ran is free. -/
def State.ceBlend (s : State) (d now : Data) : Data × State :=
  let (r, s) := (d.zip now).foldl (fun (acc : Data × State) x =>
    if x.1 = x.2 then (x.1 :: acc.1, acc.2) else
    let (v, t) := acc.2.draw 512
    ((BitVec.ofNat 8 v, v.testBit 8) :: acc.1, t)) ([], s)
  (r.reverse, s)

/-- Land the first n bytes of a copy, the rest of its destination left free; the stacks written are drained (R244, R338).
Answers the marked granules moved. -/
def State.ceLand (s : State) (e : Nat) (d : CeDesc) (n : Nat) : Nat × State :=
  if d.op = 0 ∨ d.status ≠ 0 ∨ d.snap = [] then (0, s) else
  let f := s.ranges
  let (now, s) := ({ s with ranges := d.rngs } : State).ceSource e d
  let (x, s) := s.ceBlend (d.snap.take n) now
  let (r, s) := s.drawBytes (d.len - n)
  let x' := x ++ Data.clean r
  let p := s.cePart e d
  let s := if ceH2D e then
      (s.vstacks p (addr57 (d.word 2)) d.len).foldl State.drainStack
        (s.outsideWrite (.copyEngine e) p (addr57 (d.word 2)) x')
    else s.hostStore (d.word 2) x'
  (markedGranules (addr57 (if ceH2D e then d.word 2 else d.word 1)) x, { s with ranges := f })

/-- Write the write-back of a descriptor, STATUS to BYTES with DONE (R336). -/
def State.ceWriteBack (s : State) (e : Nat) (d : CeDesc) (status n marks : Nat) : State :=
  s.hostWrite (64 * (s.reg (ceBase e) / 64) + 64 * d.index + 56) (Data.clean (leBytes 8
    (status + 256 * b2n (ceH2D e) + 2 ^ 10 + 2 ^ 11 * b2n d.replayed + 2 ^ 12 * b2n (decide (0 < marks)) + 2 ^ 32 * n)))

/-- Flag, token and vector of a completion, in this order (R338). An address or cell that failed its check is left alone. -/
def State.ceAnnounce (s : State) (e : Nat) (d : CeDesc) (status : Nat) : State :=
  let p := s.cePart e d
  let v := Data.clean (leBytes 8 (d.word 5))
  let s := if !d.has 9 ∨ d.word 4 % 8 ≠ 0 then s
    else if d.has 10 then (s.withRanges (if d.status = 0 then d.rngs else s.ranges) fun s =>
        if s.ceFlagOk p d = 0 then s.outsideWrite (.copyEngine e) p (addr57 (d.word 4)) v else s)
    else s.hostWrite (d.word 4) v
  let s := if d.has 11 ∧ s.owns p (bits (d.word 6) 8 0) then
      let (k, s) := s.draw 2
      s.complete (bits (d.word 6) 8 0) (bits (d.word 6) 12 9) (if k = 0 then .lc else .be) (.copyEngine e) status
        (bits (d.word 6) 55 32)
    else s
  if !d.has 12 then s else if s.ceVf e then s.raise (32 * (bits (s.ceOwner e) 3 0 + 1) + 2) else s.raise 17

/-- Write-back, flag, token and vector of a descriptor that ends for good; HEAD passes it. -/
def State.ceFinish (s : State) (e : Nat) (d : CeDesc) (status n marks : Nat) : State :=
  ((s.ceWriteBack e d status n marks).ceAnnounce e d status).modCe e fun c => { c with
    head := c.head + 1
    cntBytes := c.cntBytes + BitVec.ofNat 64 n
    cntDesc := c.cntDesc + 1
    cntPoison := c.cntPoison + BitVec.ofNat 64 marks }

/-- The state of an engine that runs, by what is left to do. -/
def CopyEngine.settle (c : CopyEngine) : CopyEngine :=
  if c.st = 2 ∨ c.st = 4 then c else
  { c with st := if c.active = [] then 0 else if c.st = 3 ∧ c.active.any (·.replayed) then 3 else 1 }

/-- CE_NOP (R336). -/
def State.ceNop (s : State) (e : Nat) : State :=
  match s.ceNext e with
  | some d =>
    if d.op ≠ 0 ∨ (s.ce e).active ≠ [] then s else
    let (d, s) := s.ceStart e d
    (s.modCe e fun c => { c with taken := c.taken + 1 }).ceFinish e d d.status 0 0
  | none => s

/-- CE_NOP (R336). -/
def execCeNop (e : Nat) (s : State) : Host.Outcome State Fault Refusal := .next (s.ceNop e)

/-- CE_COMPLETE: the oldest descriptor completes with OK and LENGTH, with HOST_ERROR and what had landed, or with the status
of its checks (R338, R339). -/
def State.ceComplete (s : State) (e status n : Nat) : State :=
  match (s.ce e).active with
  | [] => s
  | d :: l =>
    let ok := if d.status ≠ 0 then status == d.status && n == 0
      else (status == 0 && n == d.len) || (status == 4 && decide (n ≤ d.len))
    if !ok ∨ !s.hif.up ∨ 16 ≤ e then s else
    let s := s.modCe e fun c => { c with active := l }
    let (m, s) := s.ceLand e d n
    (s.ceFinish e d status n m).modCe e CopyEngine.settle

/-- CE_COMPLETE (R338). -/
def execCeComplete (e status bytes : Nat) (s : State) : Host.Outcome State Fault Refusal := .next (s.ceComplete e status bytes)

/-! ## Ring control, HALTED and abort (R335, R350, R352) -/

/-- A write of CE_RING_CTL: the protocol of the submission rings. -/
def State.ceCtlWrite (s : State) (e : Nat) (val : Nat) : State :=
  if 16 ≤ e then s else
  let (ctl, _, tail) := ringCtlWrite (s.ceCtl e) val (s.ce e).head (s.ce e).tail true
  ((s.sizeClamp (ceBase e + 8) val).setReg (ceBase e + 8) ctl).modCe e fun c => { c with tail := tail }

/-- CE_RING_CTL_WRITE (R335). -/
def execCeRingCtlWrite (e : Nat) (val : BitVec 64) (s : State) : Host.Outcome State Fault Refusal := .next (s.ceCtlWrite e val.toNat)

/-- CE_RESUME (R352). -/
def execCeResume (e : Nat) (s : State) : Host.Outcome State Fault Refusal :=
  .next (s.modCe e fun c => if c.st = 4 then { c with st := 0 } else c)

/-- End a started descriptor early: a free part of its bytes has landed. -/
def State.ceCut (s : State) (e : Nat) (d : CeDesc) : Nat × Nat × State :=
  if d.op = 0 ∨ d.status ≠ 0 then (0, 0, s) else
  let (n, s) := s.draw (d.len / 16 + 1)
  let (m, s) := s.ceLand e d (16 * n)
  (16 * n, m, s)

/-- Complete every descriptor from HEAD to TAIL with ABORTED, then IDLE. -/
def State.ceAbort (s : State) (e : Nat) : State :=
  let c := s.ce e
  let rest := (List.range (c.tail - c.taken).toNat).map fun i => { s.ceFetch e (c.taken.toNat + i) with status := 6 }
  let s := (c.active ++ c.affected ++ rest).foldl (fun (s : State) d =>
    let (n, m, s) := if c.active.contains d then s.ceCut e d else (d.done, 0, s)
    s.ceFinish e d 6 n m) s
  s.modCe e fun c => { c with st := 0, active := [], affected := [], taken := c.tail, head := c.tail }

/-- CE_ABORT (R352). -/
def execCeAbort (e : Nat) (s : State) : Host.Outcome State Fault Refusal := .next (if 16 ≤ e then s else s.ceAbort e)

/-- The descriptors of a partition that engine e has started complete with ABORTED (R339, R458). -/
def State.ceAbortPart (s : State) (e p : Nat) : State :=
  (s.ce e).active.foldl (fun (s : State) d =>
    if s.cePart e d ≠ p then s else
    let (n, m, s) := s.ceCut e d
    let s := s.modCe e fun c => { c with active := c.active.erase d }
    (s.ceFinish e d 6 n m).modCe e CopyEngine.settle) s

/-! ## The link (R349, R350) -/

/-- Link-down: the started descriptors are affected. -/
def State.ceLinkDown (s : State) (e : Nat) : State :=
  let ds := (s.ce e).active
  if ds = [] then s else
  let (l, s) := ds.foldl (fun (acc : List CeDesc × State) d =>
    let (n, _, s) := acc.2.ceCut e d
    (acc.1 ++ [{ d with done := n, snap := [], rngs := [] }], s)) ([], s)
  s.modCe e fun c => { c with st := 2, active := [], affected := c.affected ++ l }

/-- The link is up again (R350): write-backs with HOST_LOST, then the replay of all affected descriptors, or HALTED. -/
def State.ceLinkUp (s : State) (e : Nat) : State :=
  let ds := (s.ce e).affected
  if (s.ce e).st ≠ 2 then s else
  let all := ds.all fun d => d.has 8
  let s := ds.foldl (fun (s : State) d =>
    let s := s.modCe e fun c => { c with cntLost := c.cntLost + 1 }
    if all then s.ceWriteBack e d 5 d.done 0 else s.ceFinish e d 5 d.done 0) s
  if !all then s.modCe e fun c => { c with st := 4, affected := [], taken := c.head } else
  let (l, s) := ds.foldl (fun (acc : List CeDesc × State) d =>
    let (d, s) := acc.2.ceStart e { d with replayed := true, done := 0 }
    (acc.1 ++ [d], s)) ([], s)
  s.modCe e fun c => { c with
    st := if l = [] then 0 else 3, active := l, affected := []
    cntReplay := c.cntReplay + BitVec.ofNat 64 l.length }

/-- A reset of the host function (R349): nothing is written back or replayed; CE_LAST_LOST holds the first index lost. The
ring registers return to their reset values. -/
def State.ceHotReset (s : State) (e : Nat) : State :=
  let s := (s.ceLinkDown e).resetRegs (ceBase e) (ceBase e + 0x28)
  s.modCe e fun c => { c with
    lastLost := c.affected.head?.map (·.index)
    st := 0, active := [], affected := [], head := 0, tail := 0, taken := 0 }

end Sys2Proof.Machine
end

