-- ==== Sys2Proof/Machine/Ranges.lean ====
section
/-! DEFINITION. The clamping of a range entry (R258, R259), shared by the translation commands and the image. -/
namespace Sys2Proof.Machine

/-- A clamp of one field (R276): reason, FIELD_ID, value written and value applied (none: 0xFFFF_FFFF_FFFF_FFFF). -/
structure FieldClamp where
  reason : Nat
  field : Nat
  written : Nat
  applied : Option Nat
  deriving DecidableEq, Repr

/-- What ranges may reach (R259): the frame map as frame to (kind, owner), the frames of the part, and for logical cell g its
partition, none where it is absent. -/
structure Targets where
  frames : List (Nat × Nat × Nat)
  devFrames : Nat
  owners : List (Nat × Option Nat)
  deriving DecidableEq, Repr

/-- Units from the first one on that pass, and the reason of the first that fails: blocks of b units are judged whole. -/
def goodUnits (b : Nat) (why : Nat → Nat) : Nat → Nat → Nat → Nat × Nat
  | 0, _, _ => (0, 0)
  | f + 1, t, n =>
    if n = 0 then (0, 0) else
    if why (t / b) ≠ 0 then (0, why (t / b)) else
    let m := min n (b - t % b)
    let (k, r) := goodUnits b why f (t + m) (n - m)
    (m + k, r)

/-- The reason a DEVICE unit in frame f fails (R259); 0 where it passes. -/
def Targets.frameWhy (x : Targets) (p f : Nat) : Nat :=
  if x.devFrames ≤ f then 2 else
  match x.frames.find? fun e => e.1 == f with
  | some (_, k, o) => if k % 8 ≠ 1 ∧ k % 8 ≠ 2 then 3 else if o ≠ p then 8 else 0
  | none => 3

/-- The reason a SCRATCH unit in window g fails (R259). -/
def Targets.windowWhy (x : Targets) (p g : Nat) : Nat :=
  match x.owners.find? fun e => e.1 == g with
  | some (_, o) => if o = some p then 0 else 8
  | none => 2

/-- Good units of a target extent and the reason of the first bad one. -/
def Targets.good (x : Targets) (p kind t n : Nat) : Nat × Nat :=
  if kind = 3 then (min n (2 ^ 36 - t), 1)
  else if kind = 1 then goodUnits 16384 (x.frameWhy p) (x.devFrames + 2) t n
  else if t < 0x10000000 then (0, 2)
  else goodUnits 64 (x.windowWhy p) (x.owners.length + 2) (t - 0x10000000) n

/-- Clamp a range entry (R258, R259) given the ranges of the partition already valid: the range, none where disabled, and the
clamps in field order. -/
def clampRange (x : Targets) (p idx : Nat) (valid : List Range) (w : Nat → Nat) : Option Range × List FieldClamp :=
  let vstart := bits (w 0) 40 0
  let vlen := bits (w 1) 40 0
  let tstart := bits (w 2) 40 0
  let kind := bits (w 3) 2 0
  let write := (w 3).testBit 3
  let count := (w 3).testBit 4
  if vlen = 0 then (none, if kind = 0 then [] else [⟨1, 64, 0, none⟩]) else
  if 4 ≤ kind then (none, [⟨7, 192, kind, none⟩]) else
  if kind = 0 then (none, []) else
  let top := 2 ^ 41 - vstart
  let c1 : List FieldClamp := if top < vlen then [⟨1, 64, vlen, some top⟩] else []
  let vlen := min vlen top
  let (n, why) := x.good p kind tstart vlen
  if n = 0 then (none, [⟨why, 128, tstart, none⟩]) else
  let c2 : List FieldClamp := if n < vlen then [⟨why, 64, vlen, some n⟩] else []
  let c3 : List FieldClamp := if kind = 3 ∧ write then [⟨9, 195, 1, some 0⟩] else []
  let c4 : List FieldClamp := if kind ≠ 3 ∧ count then [⟨9, 196, 1, some 0⟩] else []
  let r : Range := { part := p, idx, vstart, vlen := n, tstart, kind, write := write && kind != 3, count := count && kind == 3 }
  if valid.any fun v => v.vstart < r.vstart + r.vlen && r.vstart < v.vstart + v.vlen then (none, [⟨5, 0, vstart, none⟩])
  else (some r, c1 ++ c2 ++ c3 ++ c4)

/-- What ranges may reach in the configuration in force. -/
def State.targets (s : State) : Targets :=
  { frames := s.image.frames, devFrames := 48 * s.stackCount
    owners := s.cells.filterMap fun c => c.logical.map fun g => (g, c.part) }

end Sys2Proof.Machine
end

