-- ==== Sys2Proof/Machine/Translation.lean ====
section
/-! DEFINITION. The translation commands (R262, R266, R267), the invalidation handshake (R262), range fetches (R261), host
line fills (R332) and the access table (R263, R268). -/
namespace Sys2Proof.Machine

def State.findRange (s : State) (p idx : Nat) : Option Range := s.ranges.find? fun r => r.part == p && r.idx == idx

/-- The engines that may hold a range of partition p (R262): its cells, the present front ends, the copy engines, the network
engine and the Horvi function. -/
def State.rangeAgents (s : State) (p : Nat) : List Agent :=
  (s.cells.filterMap fun c => if c.part = some p then c.logical.map Agent.cell else none)
    ++ (List.range s.dieCount).map Agent.frontEnd ++ (List.range 16).map Agent.copyEngine
    ++ (if s.model = 2 then [] else [.network, .horvi])

/-- An access that the agent translated with the range has not completed (R262): a stream block that passed its check, or a
request checked at the front end, a copy in progress, or a send descriptor that is open (R364). -/
def State.rangeInUse (s : State) (a : Agent) (r : Range) : Bool :=
  match a with
  | .cell g => match s.posOf g with
    | some i => (s.cell i).port.slots.any fun x => (x.blocks ++ x.owed).any fun b => !b.landed && b.rngs.contains r
    | none => false
  | .frontEnd d => s.openReqs.any fun o => o.die == d && o.rngs.contains r
  | .copyEngine e => (s.ce e).active.any fun d => d.rngs.contains r
  | .network => s.net.sends.any fun x => x.rngs.contains r
  | _ => false

/-- Take a command: discarded and LOST while BUSY; else LOST clears and RESULT is OK (R267). -/
def State.xltCommand (s : State) (p : Nat) (f : State → State) : State :=
  if (s.xltOf p).busy then s.modXlt p fun x => { x with lost := true }
  else f (s.modXlt p fun x => { x with lost := false, result := 0 })

def State.xltResult (s : State) (p r : Nat) : State := s.modXlt p fun x => { x with result := r }

/-- Add the entry at an address under a number that is not valid (R258, R259, R267). -/
def State.addRange (s : State) (p idx a : Nat) : State :=
  if a.testBit 63 ∨ (s.unmapped p (addr57 a) 32).isSome then s.xltResult p 5 else
  let (d, s) := s.vread .control p (addr57 a) 32
  if d.marked then s.xltResult p 5 else
  match clampRange s.targets p idx (s.ranges.filter (·.part == p)) (wordAt d.bytes) with
  | (none, _) => s.xltResult p 2
  | (some r, cs) => { s with ranges := s.ranges ++ [r] }.xltResult p (if cs = [] then 0 else 1)

/-- XLT_ARG. -/
def State.xltArg (s : State) (p : Nat) : Nat := s.reg (xltBase p + 8)

/-- RANGE_ADD (R267). -/
def execRangeAdd (p idx : Nat) (s : State) : Host.Outcome State Fault Refusal :=
  .next (s.xltCommand p fun s =>
    if (s.findRange p idx).isSome then s.xltResult p 3 else s.addRange p idx (s.xltArg p))

/-- Steps 1 and 2 of R262: the range is marked invalid and the invalidations go out. From that edge no engine translates with it: that
an engine may still hit its cached entry before the invalidation reaches it is timing, which the model takes as none (DESIGN CHOICE,
log entry 50); the drop and the acknowledgement are events of their own. -/
def State.removeRange (s : State) (p : Nat) (r : Range) (arg : Option Nat) : State :=
  { s with ranges := s.ranges.filter fun x => !(x.part == p && x.idx == r.idx) }.modXlt p fun x =>
    { x with busy := true, removing := some r, awaited := s.rangeAgents p, acks := [], replace := arg }

/-- RANGE_REMOVE (R262, R267). -/
def execRangeRemove (p idx : Nat) (s : State) : Host.Outcome State Fault Refusal :=
  .next (s.xltCommand p fun s => match s.findRange p idx with
    | none => s.xltResult p 4
    | some r => s.removeRange p r none)

/-- RANGE_REPLACE (R267): REMOVE then ADD at the same number; with nothing valid there it acts as ADD. -/
def execRangeReplace (p idx : Nat) (s : State) : Host.Outcome State Fault Refusal :=
  .next (s.xltCommand p fun s => match s.findRange p idx with
    | none => s.addRange p idx (s.xltArg p)
    | some r => s.removeRange p r (some (s.xltArg p)))

/-- Words of a range entry (R258). -/
def Range.words (r : Range) : List Nat := [r.vstart, r.vlen, r.tstart, r.kind + 8 * b2n r.write + 16 * b2n r.count]

/-- RANGE_READ (R267). -/
def execRangeRead (p idx : Nat) (s : State) : Host.Outcome State Fault Refusal :=
  .next (s.xltCommand p fun s => match s.findRange p idx with
    | none => s.xltResult p 4
    | some r => s.modXlt p fun x => { x with entry := r.words.map (BitVec.ofNat 64) })

/-- XLT_CMD_NOP (R267): other codes have no effect and give OK. -/
def execXltCmdNop (p _op : Nat) (s : State) : Host.Outcome State Fault Refusal := .next (s.xltCommand p id)

/-- Step 3 of R262 at one engine: it drops the entry, and acknowledges once no access that it translated with it is in
flight; until then the command leaves the acknowledgement awaited. -/
def State.invalidate (s : State) (p : Nat) (a : Agent) : State :=
  let x := s.xltOf p
  match x.removing with
  | none => s
  | some r =>
    if !x.awaited.contains a then s else
    let use := s.rangeInUse a r
    let s := s.setCached a ((s.cached a).filter (· != (p, r.idx)))
    if use then s else s.modXlt p fun x => { x with awaited := x.awaited.erase a, acks := x.acks ++ [a] }

/-- RANGE_INVALIDATION (R262). -/
def execRangeInvalidation (p : Nat) (agent : Agent) (s : State) : Host.Outcome State Fault Refusal :=
  .next (s.invalidate p agent)

/-- Step 4 of R262: the control island counts one acknowledgement; the last completes the removal, and a REPLACE then
adds. -/
def State.invalidationAck (s : State) (p : Nat) : State :=
  let x := s.xltOf p
  match x.removing, x.acks with
  | some r, _ :: acks =>
    if acks = [] ∧ x.awaited = [] then
      let s := s.modXlt p fun x =>
        { x with busy := false, removing := none, acks := [], replace := none, cntInval := x.cntInval + 1 }
      match x.replace with
      | some a => s.addRange p r.idx a
      | none => s
    else s.modXlt p fun x => { x with acks }
  | _, _ => s

/-- INVALIDATION_ACK (R262). -/
def execInvalidationAck (p : Nat) (s : State) : Host.Outcome State Fault Refusal := .next (s.invalidationAck p)

/-- RANGE_FETCH (R261): an engine that may hold the range and does not fetches it. -/
def execRangeFetch (agent : Agent) (p idx : Nat) (s : State) : Host.Outcome State Fault Refusal :=
  .next (if (s.rangeAgents p).contains agent ∧ (s.findRange p idx).isSome then s.useRange agent p idx else s)

/-- A 64-byte line of host memory read through a HOST range (R263, R332). -/
def State.hostLineFill (s : State) (p va : Nat) : State :=
  match s.rangeAt p (addr57 va) with
  | some r => if r.kind = 3 then (s.rangeHostRead r (r.target (addr57 va) / 64 * 64) 64).2 else s
  | none => s

/-- HOST_LINE_FILL (R332). -/
def execHostLineFill (p va : Nat) (s : State) : Host.Outcome State Fault Refusal := .next (s.hostLineFill p va)

/-- Every INTERVAL_MS milliseconds each count is halved, and entries that reach 0 become free; earlier the halving is not due
(R263). -/
def State.halveCounts (s : State) : State :=
  let now := s.now .host
  if now < s.hot.halved + 1000000 * bits (s.reg 0x500000) 47 32 then s else
  { s with hot := { s.hot with entries := (s.hot.entries.map fun e => (e.1, e.2 / 2)).filter fun e => e.2 != 0, halved := now } }

/-- ACCESS_HALVING (R263). -/
def execAccessHalving (s : State) : Host.Outcome State Fault Refusal := .next s.halveCounts

/-- The answer of a register read that a command makes. -/
def State.answerRead (s : State) (v : Nat) : State := s.modHif fun h => { h with readData := leBytes 8 v, readMarked := false }

/-- XLT_HOT_POP (R268). -/
def execXltHotPop (s : State) : Host.Outcome State Fault Refusal :=
  .next (match s.hot.queue with
    | [] => s.answerRead 0
    | (p, r) :: l => { s with hot := { s.hot with queue := l } }.answerRead (r % 2 ^ 36 + 2 ^ 36 * p + 2 ^ 63))

end Sys2Proof.Machine
end

