-- ==== Sys2Proof/Machine/Partitions.lean ====
section
/-! DEFINITION. The commands of partitions: admission, jobs, preemption, the slice rule, moves and the rings (R303 to R323). -/
namespace Sys2Proof.Machine

/-- ADMISSION (R304). -/
def execAdmission (p : Nat) (s : State) : Host.Outcome State Fault Refusal := .next (s.admission p)

/-! ## Starting a job (R307) -/

/-- The next job of a start queue: LC before BE, each class in its order (R307). -/
def nextJob (l : List Job) : Option Job :=
  match l.find? fun j => j.cls == .lc with
  | some j => some j
  | none => l.head?

/-- An overflow held for a class faults its next job (R306). -/
def State.raiseHeld (s : State) (i : Nat) (k : Cls) : State :=
  match ((s.cell i).ctx k).heldOverflow with
  | none => s
  | some q =>
    let s := s.modCell i fun c => c.setCtx k { c.ctx k with heldOverflow := none }
    if (s.cell i).st = 3 then s else s.cellFault i 6 0 0 q none

/-- Job j of the start queue of position i starts (R307): an empty read buffer (R245), a fresh view stamp (R160), cleared
registers (R76), a new slice (R314), and its batch token. -/
def State.startJob (s : State) (i : Nat) (j : Job) : State :=
  let ctl := s.now .control
  let s := s.modCell i fun c =>
    let x := c.ctx j.cls
    { (c.setCtx j.cls { x with step := min j.entry (c.img.steps.length - 1), loops := [], overLoops := 0, viewStamp := 0 }) with
      job := some j, startQ := c.startQ.erase j, st := 1, held := none, comp := .fresh, readBuf := []
      pend := { c.pend with preempt := false } }
  let s : State := match (s.cell i).part with
    | some p => if j.cls = .lc ∧ j.behindBe
        then s.modPart p fun u => { u with lcWaitMax := max u.lcWaitMax (min 0xFFFFFFFF (ctl - j.queuedAt)) } else s
    | none => s
  let s := s.sliceStart i
  let s := s.tokenArrive i 15 j.cls ⟨BitVec.ofNat 32 j.handle, .control, false, none, none⟩
  s.raiseHeld i j.cls

/-- JOB_START on an idle cell (R307): a BE job does not start before a suspended one. -/
def State.jobStart (s : State) (g : Nat) : State :=
  match s.posOf g with
  | none => s
  | some i =>
    let c := s.cell i
    if c.st ≠ 0 ∨ c.job.isSome then s else
    match nextJob c.startQ with
    | none => s
    | some j => if j.cls = .be ∧ c.susp.isSome then s else s.startJob i j

/-- JOB_START (R307). -/
def execJobStart (g : Nat) (s : State) : Host.Outcome State Fault Refusal := .next (s.jobStart g)

/-! ## Completion -/

/-- BATCH_COMPLETE (R308). -/
def execBatchComplete (handle : Nat) (s : State) : Host.Outcome State Fault Refusal := .next (s.batchComplete handle)

/-- COMPLETION_RECORD (R309, R323). -/
def execCompletionRecord (p : Nat) (s : State) : Host.Outcome State Fault Refusal := .next (s.completionWrite p)

/-! ## Preemption and slices (R311 to R317) -/

/-- PREEMPTION_REQUEST (R311): its handshake completes at a cell that runs BE work and has an LC job waiting. -/
def State.preemptionRequest (s : State) (g : Nat) : State :=
  match s.posOf g with
  | none => s
  | some i =>
    let c := s.cell i
    if c.job.any (fun j => j.cls == .be) && c.startQ.any (fun j => j.cls == .lc)
    then s.modCell i fun c => { c with pend := { c.pend with preempt := true } } else s

/-- PREEMPTION_REQUEST (R311). -/
def execPreemptionRequest (g : Nat) (s : State) : Host.Outcome State Fault Refusal := .next (s.preemptionRequest g)

/-- The LAYER that holds position i has quiesced for what is pending (R311). -/
def State.heldAtLayer (s : State) (i : Nat) : Bool :=
  let c := s.cell i
  c.st == 2 && c.held.any (fun h => kindOf h.w == 0x08) && s.quiet i && !(c.pend.shadow && c.pend.shadowCrc != [])

/-- PREEMPT (R312): the BE job is suspended, the registers are cleared and the LC job starts. -/
def State.preempt (s : State) (g : Nat) : State :=
  match s.posOf g with
  | none => s
  | some i =>
    let c := s.cell i
    match c.job, c.startQ.find? fun j => j.cls == .lc with
    | some b, some j =>
      if !s.heldAtLayer i ∨ !c.preemptDue then s else
      let s := s.modCell i fun c => { c with job := none, susp := some b, held := none }
      let s := s.modBatch b.handle fun x => { x with preempted := x.preempted + 1 }
      let s : State := match c.part with
        | some p => s.modPart p fun u => { u with cntPreempt := u.cntPreempt + 1 }
        | none => s
      s.startJob i j
    | _, _ => s

/-- PREEMPT (R312). -/
def execPreempt (g : Nat) (s : State) : Host.Outcome State Fault Refusal := .next (s.preempt g)

/-- SLICE_LIMIT (R314): a slice beyond the limit is counted; with a preemption pending the BE job is ended. -/
def State.sliceLimit (s : State) (g : Nat) : State :=
  match s.posOf g with
  | none => s
  | some i =>
    let c := s.cell i
    match c.part with
    | none => s
    | some p =>
      let t := s.now (.cell i) - c.pend.sliceStart
      let limit := 1000 * (s.part p).sliceUs
      if !c.job.any (fun j => j.cls == .be) ∨ (c.st ≠ 1 ∧ c.st ≠ 2) ∨ t < limit then s
      else if c.pend.preempt then
        (s.endJob i 2 0).modPart p fun u => { u with cntSliceEnd := u.cntSliceEnd + 1 }
      else if limit < t ∧ !c.pend.sliceOver then
        (s.modCell i fun c => { c with pend := { c.pend with sliceOver := true } }).modPart p fun u =>
          { u with cntSliceOver := u.cntSliceOver + 1 }
      else s

/-- SLICE_LIMIT (R314). -/
def execSliceLimit (g : Nat) (s : State) : Host.Outcome State Fault Refusal := .next (s.sliceLimit g)

/-- BE_RESUME (R317): the suspended context continues after its LAYER. -/
def State.beResume (s : State) (g : Nat) : State :=
  match s.posOf g with
  | none => s
  | some i =>
    let c := s.cell i
    match c.susp with
    | none => s
    | some j =>
      if c.st ≠ 0 ∨ c.job.isSome ∨ c.startQ.any (fun x => x.cls == .lc) then s else
      let s := s.modCell i fun c => { c with job := some j, susp := none, st := 1, comp := .fresh }
      (s.sliceStart i).raiseHeld i .be

/-- BE_RESUME (R317). -/
def execBeResume (g : Nat) (s : State) : Host.Outcome State Fault Refusal := .next (s.beResume g)

/-! ## Moves for a jig (R318, R319) -/

/-- A position of the die of i is in TEST. -/
def State.dieTesting (s : State) (i : Nat) : Bool :=
  (List.range 40).any fun k => (s.cell (40 * (i / 40) + k)).st == 5

/-- JIG_MOVE (R318): the due jig of the cell's position vacates it, at once while the cell has no job, else at the LAYER that
holds it; a preemption goes first. -/
def State.jigMove (s : State) (g : Nat) : State :=
  match s.posOf g with
  | none => s
  | some i =>
    let c := s.cell i
    let j := s.health.jigs.getD i .fresh
    let idle := j.pending && c.st == 0 && c.job.isNone && c.susp.isNone && decide (j.due ≤ s.now (.cell i))
    let held := s.moveDue i && s.heldAtLayer i && !c.preemptDue
    match s.spareOf (i / 40) with
    | none => s
    | some k =>
      if s.dieTesting i ∨ (!idle ∧ !held) then s else
      (s.moveCell i k 8).modHealth fun h => { h with jigs := h.jigs.modify i fun j => { j with pending := false, running := true } }

/-- JIG_MOVE (R319). -/
def execJigMove (g : Nat) (s : State) : Host.Outcome State Fault Refusal := .next (s.jigMove g)

/-- MOVE_DONE (R319): the job goes on after its LAYER with cleared registers. -/
def State.moveDone (s : State) (g : Nat) : State :=
  match s.posOf g with
  | none => s
  | some i =>
    if (s.cell i).st ≠ 8 then s else
    if (s.cell i).job.isNone then s.modCell i Cell.freed
    else (s.modCell i fun c => { c with st := 2 }).layerDone i

/-- MOVE_DONE (R319). -/
def execMoveDone (g : Nat) (s : State) : Host.Outcome State Fault Refusal := .next (s.moveDone g)

/-! ## Ring registers (R322, R323) -/

/-- A write of PART_LC_RING_CTL or PART_BE_RING_CTL. -/
def State.subCtlWrite (s : State) (p : Nat) (be : Bool) (val : Nat) : State :=
  if 16 ≤ p then s else
  let (ctl, _, tail) := ringCtlWrite (s.ringCtl p be) val (s.ringHead p be) (s.ringTail p be) true
  let a := partBase p + if be then 0x28 else 0x18
  ((s.sizeClamp a val).setReg a ctl).modPart p fun u =>
    if be then { u with beTail := tail } else { u with lcTail := tail }

/-- SUBMISSION_RING_CTL_WRITE (R322, R323). -/
def execSubmissionRingCtlWrite (p : Nat) (be : Bool) (val : BitVec 64) (s : State) : Host.Outcome State Fault Refusal :=
  .next (s.subCtlWrite p be val.toNat)

/-- A write of PART_CQ_CTL. -/
def State.cqCtlWrite (s : State) (p : Nat) (val : Nat) : State :=
  if 16 ≤ p then s else
  let u := s.part p
  let (ctl, head, _) := ringCtlWrite (s.reg (partBase p + 0x38)) val u.cqHead u.cqTail false
  ((s.sizeClamp (partBase p + 0x38) val).setReg (partBase p + 0x38) ctl).modPart p fun u => { u with cqHead := head }

/-- CQ_CTL_WRITE (R322, R323). -/
def execCqCtlWrite (p : Nat) (val : BitVec 64) (s : State) : Host.Outcome State Fault Refusal := .next (s.cqCtlWrite p val.toNat)

/-- PART_LC_WAIT_MAX: read and clear (R321). -/
def execPartLcWaitMaxRead (p : Nat) (s : State) : Host.Outcome State Fault Refusal :=
  let v := (s.part p).lcWaitMax
  .next ((s.modPart p fun u => { u with lcWaitMax := 0 }).answerRead v)

end Sys2Proof.Machine
end

