-- ==== Sys2Proof/Machine/Faults.lean ====
section
/-! DEFINITION. Faults and jigs: reports and incidents (R403, R404), the fault rings (R398, R405), replay (R408, R409), jigs
(R412 to R414) and shadow execution (R415). -/
namespace Sys2Proof.Machine

/-! ## Reports (R402, R403) -/

/-- The job of position i ends with CELL_INTERNAL or SHADOW_MISMATCH (R402), as at the commit limit; its batch may be replayed. -/
def State.endFaulty (s : State) (i : Nat) : State :=
  let c := s.cell i
  match c.job with
  | none => s
  | some j =>
    (s.modBatch j.handle fun b => { b with replayable := true, faulty := b.faulty ++ c.logical.toList }).endJob i 1 0

/-- An uncorrectable SRAM error marks its scratchpad granule, or its tile row where the offset lies beyond the scratchpad (R75;
the coding of the offset is log entry 40). -/
def State.markSram (s : State) (i off : Nat) : State :=
  s.modCell i fun c =>
    if off < scratchSize then { c with scratch := c.scratch.setMark (off / 64) true }
    else if off < scratchSize + 0x80000 then
      { c with comp := { c.comp with tiles := c.comp.tiles.setMark ((off - scratchSize) / 256) true } }
    else c

/-- FAULT_REPORT (R402, R403): the report is filed; what its class does to the unit happens with it. -/
def State.faultReport (s : State) (r : Report) : State :=
  let sev := severityOf r.cls
  match r.cls, r.unit.kind with
  | 0x04, 1 => (s.report r sev).endFaulty r.unit.index
  | 0x06, 1 => (s.report r sev).markSram r.unit.index r.info0.toNat
  | 0x0C, 8 =>
    (s.report r sev).modCe r.unit.index fun c => { c with active := match c.active with
      | d :: l => { d with snap := d.snap.map fun x => (x.1, true) } :: l
      | [] => [] }
  | 0x17, 0x0D => s.cartReport r
  | 0x20, _ => s.setFatal 2 r
  | 0x21, _ => s.setFatal 3 r
  | _, _ => s.report r sev

/-- FAULT_REPORT (R403). -/
def execFaultReport (rep : Report) (s : State) : Host.Outcome State Fault Refusal := .next (s.faultReport rep)

/-- The jig that an incident started learns the SEQ of its record (R404). -/
def Health.tellJig (h : Health) (n : Incident) (seq : Nat) : Health :=
  let set (j : Jig) : Jig := if j.refCls = n.rep.cls ∧ j.ref = 0 then { j with ref := seq, refSelf := n.counted } else j
  if n.rep.cls = 0x10 then { h with netJig := set h.netJig }
  else if n.rep.unit.kind = 2 then { h with reJigs := h.reJigs.modify n.rep.unit.index set }
  else if n.rep.cls = 3 then
    let ps := h.shadowPairs.flatMap fun p => if p.1 = n.rep.unit.index then [p.1, p.2.1] else []
    { h with jigs := (n.rep.unit.index :: ps).foldl (fun l i => l.modify i set) h.jigs }
  else { h with jigs := h.jigs.modify n.rep.unit.index set }

/-- The window of the n-th open incident closes (R403): 20 µs after it opened its record is written. -/
def State.incidentClose (s : State) (k : Nat) : State :=
  match s.health.incidents[k]? with
  | none => s
  | some n =>
    if s.now .steward < n.openedAt + 20000 then s else
    let (seq, s) := s.writeIncident n 0
    s.modHealth fun h => ({ h with incidents := h.incidents.eraseIdx k } : Health).tellJig n seq

/-- INCIDENT_CLOSE (R403). -/
def execIncidentClose (n : Nat) (s : State) : Host.Outcome State Fault Refusal := .next (s.incidentClose n)

/-- A write of FAULT_RING_CTL (R398, R405, R406, R424): records held, then the summary of those lost, are written. -/
def State.faultCtlWrite (s : State) (r val : Nat) : State :=
  if 3 ≤ r then s else
  ((s.setReg (faultBase + 8 + 0x20 * r) (b2n (val.testBit 0))).modRing r fun f =>
    { f with head := BitVec.ofNat 16 (bits val 31 16) }).flushRing r

/-- FAULT_RING_CTL_WRITE (R398). -/
def execFaultRingCtlWrite (r : Nat) (val : BitVec 64) (s : State) : Host.Outcome State Fault Refusal :=
  .next (s.faultCtlWrite r val.toNat)

/-- FAULT_ALERT is W1C; FATAL and SUSPECT are copies (R424). -/
def State.alertClear (s : State) (val : Nat) : State :=
  s.modHealth fun h => { h with alert := h.alert &&& ~~~ BitVec.ofNat 7 val }

/-- FAULT_ALERT_CLEAR (R424). -/
def execFaultAlertClear (val : BitVec 64) (s : State) : Host.Outcome State Fault Refusal := .next (s.alertClear val.toNat)

/-- The bits of FAULT_ALERT (R424). -/
def Health.alerts (h : Health) : Nat := 4 * (h.alert.toNat / 4) + b2n (h.fatal != 0) + 2 * b2n h.suspect

/-- ALERT_N is asserted (R424). -/
def State.alertN (s : State) : Bool :=
  s.health.fatal != 0 || s.health.suspect || (s.health.alerts / 4 &&& (31 - bits (s.reg (faultBase + 0x90)) 6 2)) != 0

/-! ## Replay (R408, R409) -/

/-- The cell that a shadow mismatch named is not moved where only the spare has failed its jig (R415). -/
def Health.spareOnly (h : Health) (i : Nat) : Bool :=
  h.shadowPairs.any fun p => p.1 == i && p.2.2.2 == some false && p.2.2.1 != some false

/-- Step 2 of R409: a faulty logical cell goes to the lowest SPARE position and the vacated one enters TEST; without a SPARE
the position is cleared and tested in place (R76). -/
def State.moveFaulty (s : State) (g : Nat) : State :=
  match s.posOf g with
  | none => s
  | some i =>
    if 4 ≤ (s.cell i).st ∨ s.health.spareOnly i then s else
    let run (s : State) : State := s.modHealth fun h => { h with
      jigs := h.jigs.modify i fun j => { j with pending := false, running := true } }
    match s.spareOf (i / 40) with
    | some k => run (s.moveCell i k 8)
    | none => run (s.modCell i fun c => { c with st := 5, comp := .fresh, scratch := .empty, readBuf := [] })

/-- The steward's decision on a batch with a job ended by a replayable class (R408); a replay ends its jobs at once and moves
the faulty cells. -/
def State.replayDecision (s : State) (h : Nat) : State :=
  match s.batch h with
  | none => s
  | some b =>
    if !b.replayable ∨ b.decided ∨ b.complete then s else
    let cfg := s.reg (faultBase + 0xA0)
    let yes := (bits cfg 31 16).testBit b.part && decide (b.replays < bits cfg 1 0) && !(s.hrv.st == 6 && s.mirrored b.part)
    let s := s.modBatch h fun b => { b with decided := true, replayed := yes }
    if !yes then s else b.faulty.foldl State.moveFaulty (s.endJobs 3 fun j => j.handle == h)

/-- REPLAY_DECISION (R408). -/
def execReplayDecision (handle : Nat) (s : State) : Host.Outcome State Fault Refusal := .next (s.replayDecision handle)

/-- REPLAY (R409): once every job has ended and no cell of the batch is in TEST it is admitted again at the head of its cells'
queues; a batch with a cell that has no position left completes with FAULTED. -/
def State.replay (s : State) (h : Nat) : State :=
  match s.batch h with
  | none => s
  | some b =>
    if !b.decided ∨ !b.replayed ∨ b.running ≠ [] then s else
    if b.cells.any (fun g => (s.posOf g).isNone) then s.modBatch h fun b => { b with replayed := false } else
    if b.cells.any (fun g => (s.posOf g).any fun i => (s.cell i).st == 5) then s else
    let now := s.now .control
    let b : Batch := { b with
      running := b.cells, status := 0, firstCell := 0x1FF, cause := 0, faulty := [], replayable := false, decided := false
      replayed := false, replays := b.replays + 1, coldFrom := now, subst := [], substLost := 0 }
    ((s.modBatch h fun _ => b).enqueue b true).modHealth fun x => { x with cntReplays := x.cntReplays + 1 }

/-- REPLAY (R409). -/
def execReplay (handle : Nat) (s : State) : Host.Outcome State Fault Refusal := .next (s.replay handle)

/-! ## Jigs of cell positions (R412, R413) -/

def State.jig (s : State) (i : Nat) : Jig := s.health.jigs.getD i .fresh
def State.modJig (s : State) (i : Nat) (f : Jig → Jig) : State := s.modHealth fun h => { h with jigs := h.jigs.modify i f }

/-- PERIOD_MIN of FAULT_JIG_CFG in ns (R412). -/
def State.jigPeriod (s : State) : Nat := 60000000000 * bits (s.reg (faultBase + 0xB0)) 10 0
/-- GRACE_MS in ns. -/
def State.jigGrace (s : State) : Nat := 1000000 * bits (s.reg (faultBase + 0xB0)) 30 16
/-- JIG_FAILS of FAULT_THRESH (R413). -/
def State.jigLimit (s : State) : Nat := bits (s.reg (faultBase + 0xA8)) 18 16

/-- A jig of a position falls due, on schedule or out of it (R404, R412): a SPARE position is tested in place while no other of
its die is in TEST and none fell due before it; a position with a logical cell waits to be vacated, counted where the die has
no SPARE (R320). -/
def State.jigDue (s : State) (i : Nat) : State :=
  let c := s.cell i
  let j := s.jig i
  let now := s.now .steward
  let onTime := s.power.imageReady && decide (j.next ≤ now) && !j.pending
  if s.cells.length ≤ i ∨ j.running ∨ c.st = 7 ∨ c.st = 5 ∨ (!onTime ∧ !j.pending) then s else
  let s := if onTime then s.modJig i fun j => { j with
      due := j.next, next := j.next + s.jigPeriod, graceEnd := now + s.jigGrace, pending := true, ref := 0, refCls := 0 } else s
  if c.st = 6 then
    let due := (s.jig i).due
    let earlier := (List.range 40).any fun p =>
      let k := 40 * (i / 40) + p
      (s.cell k).st == 6 && (s.jig k).pending && decide ((s.jig k).due < due)
    if s.dieTesting i ∨ earlier then s else
    (s.modCell i fun c => c.vacate 5).modJig i fun j => { j with pending := false, running := true }
  else if onTime ∧ (s.spareOf (i / 40)).isNone then
    match c.part with
    | some p => s.modPart p fun u => { u with cntJigDefer := u.cntJigDefer + 1 }
    | none => s
  else s

/-- JIG_DUE (R412). -/
def execJigDue (pos : Nat) (s : State) : Host.Outcome State Fault Refusal := .next (s.jigDue pos)

/-- A run of a jig enters the unit's record (R416) and is counted (R423). -/
def State.jigRan (s : State) (u : UnitId) (pass : Bool) (phase : Nat) : State :=
  let t := s.minutes u
  (s.modLark u fun l => { l with
      jigRuns := l.jigRuns + 1, jigFails := if pass then l.jigFails else l.jigFails + 1, jigLast := t, updated := t
      history := (l.history <<< 1) ||| (if pass then 0 else 1), lastCode := if pass then l.lastCode else phase
      dirty := true }).modHealth fun h => { h with
    cntJigRuns := h.cntJigRuns + 1, cntJigFails := if pass then h.cntJigFails else h.cntJigFails + 1 }

/-- Write a JIG_RESULT record (R404, R413): of a failure, with the MTIME of the last pass and of the failure, or of a verdict. -/
def State.jigRecord (s : State) (u : UnitId) (j : Jig) (fail : Bool) (verdict action : Nat) : State :=
  let now := s.now .steward
  let n := Incident.of (stewardReport 0x18 u 0 (if fail then j.lastPass else 0) (if fail then now else 0) now) (if fail then 3 else 0) now
  (s.writeIncident { n with verdict, action } j.ref).2

/-- An incident that its jig has confirmed counts as an event, if it has not (R404); one of a shadow mismatch is counted by its
own rule (R415). -/
def State.confirm (s : State) (u : UnitId) (j : Jig) : State :=
  if j.refCls = 0 ∨ j.refCls = 3 then s else
  let mine (n : Incident) : Bool := n.rep.unit == u && n.rep.cls == j.refCls
  match s.health.incidents.find? mine with
  | some n => if n.counted then s else
    (s.modHealth fun h => { h with incidents := modWhere h.incidents mine fun n => { n with counted := true } }).countEvent u j.refCls
  | none => if j.refSelf then s else s.countEvent u j.refCls

/-- The jigs of a shadow mismatch (R415): once both have a verdict the event counts at the spare where it alone failed, else at
the cell. -/
def State.shadowVerdict (s : State) (i : Nat) (pass : Bool) : State :=
  let new := s.health.shadowPairs.map fun p =>
    (p.1, p.2.1, if p.1 = i then some pass else p.2.2.1, if p.2.1 = i then some pass else p.2.2.2)
  let ended (p : Nat × Nat × Option Bool × Option Bool) : Bool := p.2.2.1.isSome && p.2.2.2.isSome
  let s := s.modHealth fun h => { h with shadowPairs := new.filter fun p => !ended p }
  (new.filter ended).foldl (fun (s : State) p =>
    s.countEvent ⟨1, if p.2.2.2 = some false ∧ p.2.2.1 = some true then p.2.1 else p.1, 0⟩ 3) s

/-- A jig that has ended. -/
def Jig.ended (j : Jig) : Jig := { j with running := false, pending := false, fails := 0, ref := 0, refCls := 0, refSelf := false }

/-- The jig of position i has passed (R404, R413): a position without a logical cell becomes SPARE, one tested in place serves
on; failures before a passing repeat are one event. -/
def State.jigPassed (s : State) (i : Nat) : State :=
  let j := s.jig i
  let u : UnitId := ⟨1, i, 0⟩
  let now := s.now .steward
  let s := if j.refCls = 0 then s else s.jigRecord u j false 3 0
  let s := (s.modJig i fun j => { j.ended with lastPass := now }).modCell i fun c =>
    if c.logical.isNone then { c with st := 6 } else c.freed
  let s := s.modLark u fun l => { l with st := if (s.cell i).logical.isNone then 1 else 0, dirty := true }
  let s := if j.fails = 0 then s else s.countEvent u 0x18
  s.shadowVerdict i true

/-- A position is RETIRED (R413, R418): its logical cell, if it still has one, goes to a SPARE position; without one the
module becomes suspect (R420). -/
def State.retire (s : State) (i : Nat) : State :=
  let u : UnitId := ⟨1, i, 0⟩
  let s := s.modJig i Jig.ended
  let s := if (s.lark u).permanent then s else s.judge u 0x18
  let t := s.minutes u
  let s := s.modLark u fun l => { l with st := 2, updated := t, dirty := false }
  let s := s.larkRepair u 4 0 i
  let s := s.shadowVerdict i false
  match (s.cell i).logical, s.spareOf (i / 40) with
  | none, _ => s.modCell i fun c => { c with st := 7 }
  | some _, some k => (s.moveCell i k 8).modCell i fun c => { c with st := 7 }
  | some _, none => (s.modCell i fun c => c.vacate 7).makeSuspect 0x18

/-- A run of the jig of position i ends (R413, R418): what it can repair with a spare row or column it repairs in the same pass;
a failure is run again until JIG_FAILS in a row retire the position. -/
def State.jigDone (s : State) (i : Nat) (pass repairable : Bool) (phase : Nat) : State :=
  let j := s.jig i
  let u : UnitId := ⟨1, i, 0⟩
  if s.cells.length ≤ i ∨ (s.cell i).st ≠ 5 ∨ !j.running then s else
  let s := s.jigRan u pass phase
  let perm := (s.lark u).permanent
  let canRepair := repairable && (phase != 3 || decide (0 < j.arraySpares))
  let verdict := if j.refCls = 0 then 0 else 2
  if canRepair ∧ (!pass ∨ perm) then
    let s := (s.larkRepair u 8 phase i).modLark u fun l => { l with permanent := false }
    let s := if phase = 3 then s.modJig i fun j => { j with arraySpares := j.arraySpares - 1 } else s
    let s := if pass then s else s.jigRecord u j true 0 8
    s.jigPassed i
  else if pass then (if perm then s.retire i else s.jigPassed i)
  else if s.jigLimit ≤ j.fails + 1 then
    (((s.jigRecord u j true verdict 4).confirm u j).modLark u fun l => l.event 0x18 (s.minutes u)).retire i
  else (s.jigRecord u j true 0 0x10).modJig i fun j => { j with fails := j.fails + 1 }

/-- JIG_DONE (R413). -/
def execJigDone (pos : Nat) (pass repairable : Bool) (phase : Nat) (s : State) : Host.Outcome State Fault Refusal :=
  .next (s.jigDone pos pass repairable phase)

/-! ## Jigs of row engines and of the network engine (R404, R414) -/

/-- A run of the jig of row engine k ends (R404, R413, R414, R418). -/
def State.reJigDone (s : State) (k : Nat) (pass : Bool) : State :=
  if s.stackCount ≤ k ∨ (s.engine k).st ≠ 1 then s else
  let u : UnitId := ⟨2, k, 0⟩
  let j := s.health.reJigs.getD k .fresh
  let now := s.now .steward
  let set (s : State) (f : Jig → Jig) : State := s.modHealth fun h => { h with reJigs := h.reJigs.modify k f }
  let done (s : State) : State := (set s Jig.ended).modEngine k fun e => { e with jigDue := false }
  let s := s.jigRan u pass 0
  if pass then
    let s := if j.refCls = 0 then s else s.jigRecord u j false 3 0
    let s := set (done s) fun j => { j with lastPass := now }
    if j.fails = 0 then s else s.countEvent u 0x18
  else if s.jigLimit ≤ j.fails + 1 then
    let s := ((s.jigRecord u j true (if j.refCls = 0 then 0 else 2) 0).confirm u j).modLark u fun l => l.event 0x18 (s.minutes u)
    let s := done s
    if (s.lark u).permanent then s else s.permanent u 0x18
  else set (s.jigRecord u j true 0 0x10) fun j => { j with fails := j.fails + 1 }

/-- RE_JIG_DONE (R414). -/
def execReJigDone (k : Nat) (pass : Bool) (s : State) : Host.Outcome State Fault Refusal := .next (s.reJigDone k pass)

/-- A run of the network engine's jig ends (R404, R413): it runs only for an incident; one that fails JIG_FAILS times in a row
leaves a unit that produced a wrong answer without repair (R420). -/
def State.netJigDone (s : State) (pass : Bool) : State :=
  if !s.net.jig then s else
  let u : UnitId := ⟨0x0A, 0, 0⟩
  let j := s.health.netJig
  let set (s : State) (f : Jig → Jig) : State := s.modHealth fun h => { h with netJig := f h.netJig }
  let done (s : State) : State := (set s Jig.ended).modNet fun n => { n with jig := false }
  let now := s.now .steward
  let s := s.jigRan u pass 0
  if pass then
    let s := set (done (s.jigRecord u j false 3 0)) fun j => { j with lastPass := now }
    if j.fails = 0 then s else s.countEvent u 0x18
  else if s.jigLimit ≤ j.fails + 1 then
    let s := ((s.jigRecord u j true 2 0).confirm u j).modLark u fun l => l.event 0x18 (s.minutes u)
    let s := done s
    if (s.lark u).permanent then s else s.permanent u 0x10
  else set (s.jigRecord u j true 0 0x10) fun j => { j with fails := j.fails + 1 }

/-- NET_JIG_DONE (R404). -/
def execNetJigDone (pass : Bool) (s : State) : Host.Outcome State Fault Refusal := .next (s.netJigDone pass)

/-- REPAIR_PAUSE_END (R418): the spare rows are in place and the engine takes its input again. -/
def State.repairPauseEnd (s : State) (k : Nat) : State :=
  if !(s.engine k).paused then s else
  (s.modEngine k fun e => { e with paused := false }).modLark ⟨2, k, 0⟩ fun l => { l with permanent := false, dirty := true }

/-- REPAIR_PAUSE_END (R418). -/
def execRepairPauseEnd (k : Nat) (s : State) : Host.Outcome State Fault Refusal := .next (s.repairPauseEnd k)

/-! ## Shadow execution (R415) -/

/-- A mismatch (R415): SHADOW_MISMATCH is reported, the job ends, and the jigs of both positions start, the spare's in place. -/
def State.shadowMismatch (s : State) (i : Nat) : State :=
  let c := s.cell i
  let now := s.now (.cell i)
  let s := match s.spareOf (i / 40) with
    | none => s
    | some k =>
      ((s.modCell k fun c => c.vacate 5).modJig k fun j => { j with pending := false, running := true, ref := 0, refCls := 3 }).modHealth
        fun h => { h with shadowPairs := h.shadowPairs ++ [(i, k, none, none)] }
  let s := s.report
    { cls := 3, unit := ⟨1, i, 0⟩, subcode := 0, part := c.part, info0 := 0, info1 := 0
      handle := (c.job.map (·.handle)).getD 0xFFFFFFFF, step := c.cur.step, kind := 0, time := now, selfReport := false } 2
  s.endFaulty i

/-- SHADOW_COMPARE (R415): the oldest CRC of the shadowed layer against the spare's. -/
def State.shadowCompare (s : State) (g : Nat) (crc : BitVec 32) : State :=
  match s.posOf g with
  | none => s
  | some i => match (s.cell i).pend.shadowCrc with
    | [] => s
    | x :: l =>
      if x = crc then (s.modCell i fun c => { c with pend := { c.pend with shadowCrc := l } }).wake i else s.shadowMismatch i

/-- SHADOW_COMPARE (R415). -/
def execShadowCompare (g : Nat) (spareCrc : BitVec 32) (s : State) : Host.Outcome State Fault Refusal :=
  .next (s.shadowCompare g spareCrc)

end Sys2Proof.Machine
end

