-- ==== Sys2Proof/Machine/StepClamp.lean ====
section
/-! DEFINITION. The clamping of steps (R61, R70, R283): the clamps that depend on the step list alone, and those made in the
copy that a cell loads. -/
namespace Sys2Proof.Machine

/-- Put x into bits [hi:lo] of v. -/
def setBits (v hi lo x : Nat) : Nat := v - bits v hi lo * 2 ^ lo + x % 2 ^ (hi + 1 - lo) * 2 ^ lo

/-- A value under clamping with the clamps made so far. -/
abbrev Clamping := Nat × List FieldClamp

/-- A value with no clamp made yet. -/
def Clamping.of (v : Nat) : Clamping := (v, [])

/-- Set a field; reported where that changes it, with the value that the image holds (R276). -/
def Clamping.set (a : Clamping) (hi lo reason x : Nat) : Clamping :=
  if bits a.1 hi lo = x then a else
  let written := ((a.2.find? fun f => f.field == lo).map (·.written)).getD (bits a.1 hi lo)
  (setBits a.1 hi lo x, a.2 ++ [⟨reason, lo, written, some x⟩])

/-- Keep a field within [min, max]. -/
def Clamping.within (a : Clamping) (hi lo reason min max : Nat) : Clamping :=
  a.set hi lo reason (Nat.max min (Nat.min max (bits a.1 hi lo)))

/-- Make the step a NOP. -/
def Clamping.nop (a : Clamping) (reason : Nat) : Clamping := a.set 7 0 reason 0

/-- Make a clamp where a condition holds. -/
def Clamping.when (a : Clamping) (c : Bool) (f : Clamping → Clamping) : Clamping := if c then f a else a

/-- The kinds of R69. -/
def isKind (k : Nat) : Bool :=
  k ≤ 0x1C || (0x20 ≤ k && k ≤ 0x29) || (0x30 ≤ k && k ≤ 0x39) || (0x40 ≤ k && k ≤ 0x43) || (0x50 ≤ k && k ≤ 0x5A)
    || (0x60 ≤ k && k ≤ 0x6B) || (0x70 ≤ k && k ≤ 0x7A) || (0x80 ≤ k && k ≤ 0x86) || k == 0x90 || k == 0x91

/-- MMA, MMAT and the distance steps. -/
def isArrayKind (k : Nat) : Bool := 0x31 ≤ k && k ≤ 0x38
/-- Vector steps, which read a source and a result format. -/
def isVectorKind (k : Nat) : Bool := 0x50 ≤ k && k ≤ 0x7A
/-- Kinds that read FMTA. -/
def readsFmta (k : Nat) : Bool := k == 0x30 || isArrayKind k || k == 0x41 || k == 0x42 || k == 0x43 || isVectorKind k
/-- Kinds that read FMTB. -/
def readsFmtb (k : Nat) : Bool := k == 0x26 || isArrayKind k || isVectorKind k

/-- The largest MODE of a kind with an enumeration other than a scope (R69). -/
def modeMax (k : Nat) : Option Nat :=
  if k = 0x19 ∨ k = 0x59 then some 7 else if k = 0x1A then some 6
  else if k = 0x30 ∨ isArrayKind k ∨ k = 0x77 ∨ k = 0x79 ∨ k = 0x7A then some 3 else none

/-- Elements per row of the wider width class of two formats (R45, R46). -/
def kOf (fa fb : Nat) : Nat := min (fmtCols fa) (fmtCols fb)

/-- Formats 0xC to 0xF become the other operand's where that is read and legal, else FP32. -/
def clampFormats (a : Clamping) : Clamping :=
  let k := bits a.1 7 0
  let fa := bits a.1 19 16
  let fb := bits a.1 23 20
  let other (f : Nat) (r : Bool) : Nat := if r && decide (f ≤ 0xB) then f else 0
  (a.when (readsFmta k && decide (0xB < fa)) fun a => a.set 19 16 7 (other fb (readsFmtb k))).when
    (readsFmtb k && decide (0xB < fb)) fun a => a.set 23 20 7 (other fa (readsFmta k))

/-- The clamps of R283 that depend on the step alone, in the order of its table. -/
def clampStep (w : Nat) : Clamping :=
  let a := Clamping.of w
  let k := bits w 7 0
  if !isKind k then a.nop 7 else
  if (k = 0x83 ∨ k = 0x84) ∧ 15 < bits w 95 80 then a.nop 1 else
  let a := clampFormats a
  let arr := isArrayKind k
  let isInt (f : Nat) : Bool := fmtIsInt f || f == 0xB
  let a := a.when (arr && isInt (bits a.1 19 16) != isInt (bits a.1 23 20)
    && bits a.1 19 16 != 0xB && bits a.1 23 20 != 0xB) fun a => a.set 23 20 9 (bits a.1 19 16)
  let fa := bits a.1 19 16
  let fb := bits a.1 23 20
  if k ≠ 0x36 ∧ ((readsFmta k ∧ fa = 0xB) ∨ (readsFmtb k ∧ fb = 0xB)) then a.nop 9 else
  let a := a.when (k == 0x36) fun a => (a.set 19 16 9 0xB).set 23 20 9 0xB
  let fa := bits a.1 19 16
  let fb := if k = 0x30 then fa else bits a.1 23 20
  let kk := kOf fa fb
  let a := a.when (arr || k == 0x30) fun a =>
    let m := bits a.1 79 76
    a.when (1 ≤ m && m ≤ 3 && (isInt fa || isInt fb || (2 ≤ m && kk == 64))) fun a => a.set 79 76 9 0
  let a := a.when (arr || k == 0x30 || k == 0x79 || k == 0x7A) fun a => a.when (bits a.1 12 11 == 3) fun a => a.set 12 11 7 2
  let a := a.when (k == 0x32) fun a => a.when (bits a.1 12 11 == 2) fun a => a.set 12 11 9 1
  let a := a.when (k == 0x32) fun a => a.set 28 24 9 (bits a.1 28 24 / (kk / 64) * (kk / 64))
  let a := a.when (arr || k == 0x41) fun a => a.within 86 80 1 1 64
  let a := a.when (arr && k != 0x32) fun a => a.within 127 96 1 1 kk
  let a := a.when (k == 0x0B || k == 0x0C) fun a => a.within 79 76 1 0 3
  let a := match modeMax k with
    | some m => a.when (decide (m < bits a.1 79 76)) fun a => a.set 79 76 1 0
    | none => a
  let a := a.when (k == 0x03 || k == 0x05) fun a => a.within 95 80 1 1 64
  let a := a.when (k == 0x40) fun a => a.within 95 80 1 1 256
  let a := a.when (k == 0x78 || k == 0x79 || k == 0x7A) fun a =>
    a.within 95 80 1 0 (max (fmtCols fa) (fmtCols fb) / kk - 1)
  let a := a.when (k == 0x79 && (fb == 0 || fmtIsInt fb)) fun a => a.set 7 0 9 0x78
  let a := a.when (k == 0x86) fun a => a.set 127 96 1 (max 16 (min 65536 (bits a.1 127 96)) / 16 * 16)
  let a := a.when (k == 0x90 || k == 0x91) fun a => a.set 127 96 1 (max 64 (min 4096 (bits a.1 127 96)) / 64 * 64)
  a.when (k == 0x22 || k == 0x23) fun a => (a.within 94 88 1 0 63).within 84 80 1 0 15

/-- The clamps of malformed nesting (R61): step index and clamp, given the number of open loops. The words stay: an open
loop beyond depth 4 runs once. -/
def loopClamps : List Nat → Nat → Nat → List (Nat × FieldClamp)
  | [], _, _ => []
  | w :: l, i, depth =>
    let k := bits w 7 0
    if k = 1 then (if 4 ≤ depth then [(i, ⟨10, 96, bits w 127 96, some 1⟩)] else []) ++ loopClamps l (i + 1) (depth + 1)
    else if k = 2 then (if depth = 0 then [(i, ⟨10, 0, 2, some 0⟩)] else []) ++ loopClamps l (i + 1) (depth - 1)
    else if k = 0x0F then (List.replicate depth (i, ⟨10, 0, 0x0F, some 0x0F⟩)) ++ loopClamps l (i + 1) 0
    else loopClamps l (i + 1) depth

/-- A step list after clamping (R282, R283): its steps, and the clamps with their step index. -/
def clampSteps (ws : List Nat) : List Nat × List (Nat × FieldClamp) :=
  let each := ws.map clampStep
  let steps := each.map Prod.fst
  let cs := (each.mapIdx fun i a => a.2.map fun c => (i, c)).flatten
  let kept := steps.take 4096
  let cut := decide (4096 < steps.length)
  let noEnd := !kept.any fun w => bits w 7 0 == 0x0F
  let steps' := if noEnd then (if kept.length = 4096 then kept.take 4095 ++ [0x0F] else kept ++ [0x0F]) else kept
  let structs : List (Nat × FieldClamp) := (if cut then [(0xFFFF, ⟨10, 64, steps.length, some 4096⟩)] else [])
    ++ (if noEnd then [(steps'.length - 1, ⟨10, 0, bits (kept.getD 4095 0) 7 0, some 0x0F⟩)] else [])
  (steps', cs.filter (fun c => c.1 < 4096) ++ structs ++ loopClamps steps' 0 0)

/-- A clamp made in the copy that a cell loads (R283): grants, roles, chains and an unbound credit counter. -/
def clampCopy (granted unbound : Bool) (roles : List Nat) (inChain : Nat → Bool) (w : Nat) : Clamping :=
  let a := Clamping.of w
  let k := bits w 7 0
  let imm := bits w 95 80
  if (k = 0x90 ∨ k = 0x91) ∧ !granted then a.nop 3
  else if (k = 0x83 ∨ k = 0x84) ∧ 1 < roles.getD imm 0 then a.nop 3
  else if k = 0x85 ∧ !inChain imm then a.nop 3
  else if k = 6 ∧ bits w 75 72 = 15 ∧ unbound then a.nop 3
  else a

end Sys2Proof.Machine
end

