-- ==== Sys2Proof/Machine/TableCmd.lean ====
section
/-! DEFINITION. The table-service commands (R143 to R153) and their order in a pair (R385). -/
namespace Sys2Proof.Machine

/-! ## Epoch descriptors (R153, R432) -/

/-- Resident rows of an epoch whose home is the i-th stack of n (R141). -/
def rowsOnStack (n i res : Nat) : Nat := (res + n - 1 - i) / max 1 n

/-- The extents of an epoch in the table area of its partition: stack, start and end in bytes (R141). -/
def Epoch.extents (ep : Epoch) (e : TableEntry) : List (Nat × Nat × Nat) :=
  (e.stacks'.mapIdx fun i k =>
    let lo := 4096 * ep.bases.getD k 0
    (k, lo, lo + rowsOnStack e.stacks'.length i ep.res * e.len)).filter fun x => x.2.1 < x.2.2

/-- A descriptor after clamping (R153): the epoch it stages, none where no resident row fits, and the clamps of its fields. -/
structure Staging where
  epoch : Option Epoch
  clamps : List FieldClamp
  deriving DecidableEq, Repr

/-- Clamp a descriptor of table e given the size of its partition's table area in each stack, the usable bays and the stored
default row, none where it could not be read. -/
def clampDesc (e : TableEntry) (no area links : Nat) (bays : Nat → Option Bytes) (d : Bytes) (dflt : Option Bytes) : Staging :=
  let rows0 := bits (wordAt d 0) 31 0
  let rows := max 1 (min e.maxRows rows0)
  let c1 : List FieldClamp := if rows ≠ rows0 then [⟨1, 0, rows0, some rows⟩] else []
  let res0 := if e.cold then bits (wordAt d 0) 63 32 else rows
  let res := min rows res0
  let c2 : List FieldClamp := if res ≠ res0 then [⟨1, 32, res0, some res⟩] else []
  let mask0 := bits (wordAt d 1) 3 0
  let absent := (List.range 4).filter fun j => mask0.testBit j && decide (links ≤ j)
  let empty := (List.range 4).filter fun j => mask0.testBit j && decide (j < links) && (bays j).isNone
  let serials := (List.range 4).filterMap fun j => if mask0.testBit j ∧ j < links then (bays j).map fun x => (j, x) else none
  let mask := (serials.map fun x => 2 ^ x.1).sum
  let c3 : List FieldClamp := (if absent ≠ [] then [⟨2, 64, mask0, some mask⟩] else [])
    ++ (if empty ≠ [] then [⟨3, 64, mask0, some mask⟩] else [])
  let c4 : List FieldClamp := if e.storedDefault ∧ dflt.isNone then [⟨11, 128, wordAt d 2, some 0⟩] else []
  let base (k : Nat) : Nat := bits (wordAt d (4 + k / 2)) (32 * (k % 2) + 31) (32 * (k % 2))
  let n := e.stacks'.length
  let fit := (e.stacks'.mapIdx fun i k => (area - 4096 * base k) / e.len * n + i).foldl min res
  let rows' := if e.cold then rows else fit
  let c5 : List FieldClamp := if fit = res then [] else if e.cold then [⟨6, 32, res, some fit⟩] else [⟨6, 0, rows, some fit⟩]
  if area = 0 ∨ rows' = 0 then ⟨none, [⟨6, 0, rows0, none⟩]⟩ else
  { epoch := some
      { table := e.table, no, st := 1, rows := rows', res := fit, cartMask := mask, lba := bits (wordAt d 1) 63 16
        dflt := if e.storedDefault then dflt.getD [] else [], bases := (List.range 16).map base, serials, sweep := false }
    clamps := c1 ++ c2 ++ c3 ++ c4 ++ c5 }

/-- The serial of a bay whose cartridge is GOOD, WORN or READ_ONLY (R432). -/
def State.bayUsable (s : State) (j : Nat) : Option Bytes :=
  if (s.bay j).present ∧ (s.bay j).reads then some (s.bay j).serial else none

/-- The extents of an epoch overlap those of one of these epochs of the partition (R149). -/
def State.overlaps (s : State) (e : TableEntry) (ep : Epoch) (others : List Epoch) : Bool :=
  others.any fun x => match s.anyTable x.table with
    | some t => t.part == e.part && (x.extents t).any fun a => (ep.extents e).any fun b =>
        a.1 == b.1 && a.2.1 < b.2.2 && b.2.1 < a.2.2
    | none => false

/-- One above the last number given to the table, passing over numbers still in use (R144). -/
def State.nextEpoch (s : State) (e : TableEntry) : Nat :=
  let after (n i : Nat) : Nat := (n + i) % 0xFFFFFFFF + 1
  let used (n : Nat) : Bool := (s.epoch e.table n).isSome || s.isHeld e.table n
    || s.dies.any (fun d => d.cache.any fun r => r.table == e.table && r.epoch == n)
    || s.engines.any fun x => x.held.any fun r => r.table == e.table && r.epoch == n
  (((List.range (s.epochs.length + s.bindings.length + 65536)).map (after e.lastEpoch)).find? fun n => !used n).getD 1

/-! ## Running a command -/

def State.tblResult (s : State) (p r : Nat) : State := s.modSvc p fun x => { x with result := r }
def State.tblValue (s : State) (p v : Nat) : State := s.modSvc p fun x => { x with value := v }

/-- A partition's command written here is still to be run by both modules (R385). -/
def State.ownMirror (s : State) (p : Nat) : Bool := s.hrv.cmds.any fun c => c.own && c.part == p

/-- BUSY clears once nothing of the command is left. -/
def State.tblIdle (s : State) (p : Nat) : State :=
  let x := s.svc p
  if x.waiting = [] ∧ x.publishing = [] ∧ x.aborting = none ∧ x.heldCmd = none ∧ !s.ownMirror p
  then s.modSvc p fun x => { x with busy := false } else s

/-- STAGE of a table with its descriptor and default row (R152, R153); `own`: the command was written at this module, which
gives its handle. -/
def State.stageRun (s : State) (p table : Nat) (data : Bytes) (own : Bool) : State :=
  let result (s : State) (r : Nat) : State := if own then s.tblResult p r else s
  match s.table p table with
  | none => result s 1
  | some e =>
    if (s.staging table).isSome then result s 2 else
    let no := s.nextEpoch e
    let dflt := if data.length < 128 + e.len then none else some ((data.drop 128).take e.len)
    let st := clampDesc e no (s.areaSize 3 p) s.carts.bays.length s.bayUsable (data.take 128) dflt
    match st.epoch with
    | none => result s 0xA
    | some ep =>
      if s.overlaps e ep (s.epochs.filter fun x => x.st != 0) then result s 5 else
      let s := { s with
        epochs := s.epochs ++ [ep]
        tables := modWhere s.tables (fun x => x.table == table) fun x => { x with lastEpoch := no } }
      let s := result s (if st.clamps = [] then 0 else 6)
      if own then
        let (h, s) := s.freshHandle
        ({ s with bindings := s.bindings ++ [⟨h, 1, p, table, no⟩] } : State).tblValue p h
      else s

/-- Rank 1 of a pair keeps a hold on each epoch that a publication of p supersedes (R385). -/
def State.keepsOld (s : State) (p : Nat) : Bool := s.mirrored p && s.hrv.st == 4 && s.hrv.rank == 1

/-- RETIRING epochs that a publication of the table would leave (R144). -/
def State.wouldRetire (s : State) (p table : Nat) : Nat :=
  (s.retiring table).length + match s.current table with | some c => b2n (s.keepsOld p || s.isHeld table c.no) | none => 0

/-- The commit gate publishes the STAGING epochs of tables on one edge (R146); rank 1 of a pair keeps a hold on each
superseded epoch (R385). -/
def State.publishNow (s : State) (p : Nat) (tables : List Nat) (own : Bool) : State :=
  let s := s.modPart p fun x => { x with pubno := x.pubno + 1 }
  let hold := 2 ^ 33 + (s.part p).pubno
  let keep := s.keepsOld p
  let s := tables.foldl (fun (s : State) t =>
    let old := ((s.current t).map (·.no)).getD 0
    let new := ((s.staging t).map (·.no)).getD 0
    let s := s.modSvc p fun x => { x with publishing := x.publishing.filter (·.1 != t) ++ [(t, old, [])] }
    let s : State := if keep && old != 0 then { s with bindings := s.bindings ++ [⟨hold, 4, p, t, old⟩] } else s
    let s := { s with epochs := s.epochs.map fun x =>
      if x.table = t ∧ x.st = 2 then { x with st := 3 } else if x.table = t ∧ x.st = 1 then { x with st := 2 } else x }
    if own then s.tblValue p new else s) s
  let s := if own then s.tblResult p 0 else s
  s.freeUnheld

/-- PUBLISH or PUBLISH_SET (R144, R146): true where it has run or failed, false where it waits in WAIT_SLOT. -/
def State.publishRun (s : State) (p : Nat) (tables : List Nat) (own : Bool) : Bool × State :=
  let result (s : State) (r : Nat) : State := if own then s.tblResult p r else s
  if tables.any fun t => (s.table p t).isNone then (true, result s 1) else
  if tables = [] ∨ tables.any fun t => (s.staging t).isNone then (true, result s (if tables = [] then 0 else 3)) else
  if tables.any fun t => decide (2 < s.wouldRetire p t) then
    (false, (result s 4).modSvc p fun x => { x with waiting := tables })
  else (true, s.publishNow p tables own)

/-- ABORT (R149, R152): the STAGING epoch is freed and its staging handle released. -/
def State.abortRun (s : State) (p table : Nat) (own : Bool) : State :=
  let result (s : State) (r : Nat) : State := if own then s.tblResult p r else s
  if (s.table p table).isNone then result s 1 else
  match s.staging table with
  | none => result s 3
  | some ep =>
    let s := { s with bindings := s.bindings.filter fun b => !(b.table == table && b.epoch == ep.no) }
    (s.freeEpoch table ep.no).modSvc p fun x => { x with aborting := some (table, ep.no) }

/-- Run a mirrored kind of command: true unless it waits in WAIT_SLOT. -/
def State.tblRun (s : State) (op p table : Nat) (data : Bytes) (own : Bool) : Bool × State :=
  match op with
  | 1 => (true, s.stageRun p table data own)
  | 2 => s.publishRun p [table] own
  | 3 => (true, s.abortRun p table own)
  | 7 => s.publishRun p ((List.range (data.length / 2)).map fun i => leNat ((data.drop (2 * i)).take 2)).dedup own
  | _ => (true, s)

/-! ## Reading the argument -/

/-- Read n bytes at a device virtual address of p for the control island; none where unmapped or marked. -/
def State.argRead (s : State) (p a n : Nat) : Option Bytes × State :=
  if a.testBit 63 ∨ (s.unmapped p (addr57 a) n).isSome then (none, s) else
  let (d, s) := s.vread .control p (addr57 a) n
  (if d.marked then none else some d.bytes, s)

/-- A PUBLISH_SET list: up to 64 table numbers, ended by 0xFFFF (R152). -/
def State.listRead (p : Nat) : Nat → Nat → State → Option Bytes × State
  | 0, _, s => (some [], s)
  | n + 1, a, s =>
    match s.argRead p a 2 with
    | (none, s) => (none, s)
    | (some b, s) => if leNat b = 0xFFFF then (some [], s) else
      match State.listRead p n (a + 2) s with
      | (some l, s) => (some (b ++ l), s)
      | (none, s) => (none, s)

/-- What a command needs from memory: the descriptor and stored default row of STAGE, the list of PUBLISH_SET; none where it
is unmapped or poisoned. -/
def State.tblData (s : State) (op p table arg : Nat) : Option Bytes × State :=
  match op with
  | 1 => match s.argRead p arg 128 with
    | (none, s) => (none, s)
    | (some d, s) => match s.table p table with
      | some e => if e.storedDefault then
            let (r, s) := s.argRead p (wordAt d 2) e.len
            (some (d ++ r.getD []), s)
          else (some d, s)
      | none => (some d, s)
  | 7 => State.listRead p 64 arg s
  | _ => (some [], s)

/-! ## The command registers (R151, R152) -/

/-- PART_TBL_ARG. -/
def State.tblArg (s : State) (p : Nat) : Nat := s.reg (svcBase p + 8)

/-- Send a mirrored command to the partner (R385): ARG holds its OP, partition and table, with bit 62 set when it was written
at the receiver. -/
def State.sendCommand (s : State) (c : MirrorCmd) : State :=
  s.hrvSend 6 0 (c.op + 2 ^ 8 * c.part + 2 ^ 16 * c.table + (if c.own then 0 else 2 ^ 62))
    (Data.clean (c.data ++ zeros ((16 - c.data.length % 16) % 16)))

/-- A command in a mirrored partition of a pair (R385): rank 0 forwards it; rank 1 runs it, and sends it when it has run. -/
def State.tblMirror (s : State) (op p table : Nat) (data : Bytes) : State :=
  let c : MirrorCmd := ⟨op, p, table, data, true⟩
  let s := s.modHrv fun h => { h with cmds := h.cmds ++ [c] }
  if s.hrv.rank = 0 then s.sendCommand c else
  let (done, s) := s.tblRun op p table data true
  if done then s.sendCommand c else s

/-- Begin an accepted command. -/
def State.tblBegin (s : State) (op p table arg : Nat) : State :=
  if op ≠ 7 ∧ (s.table p table).isNone then s.tblResult p 1 else
  if op = 1 ∧ (s.staging table).isSome then s.tblResult p 2 else
  match s.tblData op p table arg with
  | (none, s) => s.tblResult p 9
  | (some data, s) =>
    if s.mirrored p ∧ s.hrv.st = 4 then s.tblMirror op p table data else (s.tblRun op p table data true).2

/-- Take a command: discarded and LOST while BUSY; held while a commit or a reset of the partition runs (R292, R458). -/
def State.tblCommand (s : State) (op p table : Nat) : State :=
  if (s.svc p).busy then s.modSvc p fun x => { x with lost := true } else
  let s := s.modSvc p fun x => { x with lost := false, result := 0, busy := true }
  if (s.part p).committing ∨ (s.part p).resetting then s.modSvc p fun x => { x with heldCmd := some (op, table, s.tblArg p) }
  else (s.tblBegin op p table (s.tblArg p)).tblIdle p

/-- STAGE (R153). -/
def execStage (p table : Nat) (s : State) : Host.Outcome State Fault Refusal := .next (s.tblCommand 1 p table)
/-- PUBLISH (R146). -/
def execPublish (p table : Nat) (s : State) : Host.Outcome State Fault Refusal := .next (s.tblCommand 2 p table)
/-- ABORT (R152). -/
def execAbort (p table : Nat) (s : State) : Host.Outcome State Fault Refusal := .next (s.tblCommand 3 p table)
/-- PUBLISH_SET (R152). -/
def execPublishSet (p : Nat) (s : State) : Host.Outcome State Fault Refusal := .next (s.tblCommand 7 p 0)

/-- The publication that waits in WAIT_SLOT takes effect on the edge on which a RETIRING epoch frees (R146); in a pair it is
then sent on (R385). -/
def State.waitSlot (s : State) (p : Nat) : State :=
  let ts := (s.svc p).waiting
  if ts = [] ∨ ts.any fun t => decide (2 < s.wouldRetire p t) then s else
  let s := s.modSvc p fun x => { x with waiting := [] }
  let pair := s.mirrored p && s.hrv.st == 4
  match s.hrv.cmds.find? fun c => c.part == p && (c.op == 2 || c.op == 7) with
  | some c =>
    if !pair then
      ((s.publishNow p ts c.own).modHrv fun h => { h with cmds := h.cmds.erase c }).tblIdle p
    else
    let s := s.publishNow p ts c.own
    if s.hrv.rank = 1 then s.sendCommand c else
    let s := s.modHrv fun h => { h with cmds := h.cmds.erase c }
    (s.hrvSend 6 0 (2 ^ 63 + c.op + 2 ^ 8 * p + 2 ^ 16 * c.table) []).tblIdle p
  | none => s.publishNow p ts true

/-- WAIT_SLOT_PUBLISH (R146). -/
def execWaitSlotPublish (p : Nat) (s : State) : Host.Outcome State Fault Refusal := .next (s.waitSlot p)

/-- PUBLISH_DONE (R146): every front end holds the new epochs. -/
def execPublishDone (p : Nat) (s : State) : Host.Outcome State Fault Refusal :=
  .next (if (s.svc p).publishing = [] then s else (s.modSvc p fun x => { x with publishing := [] }).tblIdle p)

/-- Take a command that is not mirrored and needs nothing of the commit gate. -/
def State.tblSimple (s : State) (op p table : Nat) (f : State → State) : State :=
  if (s.svc p).busy then s.modSvc p fun x => { x with lost := true } else
  let s := s.modSvc p fun x => { x with lost := false, result := 0 }
  if (s.part p).committing ∨ (s.part p).resetting then s.modSvc p fun x => { x with busy := true, heldCmd := some (op, table, s.tblArg p) } else f s

/-- QUERY (R151, R152). -/
def State.queryRun (s : State) (p table : Nat) : State :=
  if (s.table p table).isNone then s.tblResult p 1 else
  let cur := ((s.current table).map (·.no)).getD 0
  let stg := ((s.staging table).map (·.no)).getD 0
  let old := s.retiring table
  let n := (s.bindings.filter fun b => b.table == table && b.epoch == cur && cur != 0).length
  s.modSvc p fun x => { x with
    epochs := BitVec.ofNat 64 (cur + 2 ^ 32 * stg)
    bound := BitVec.ofNat 64 (min 0xFFFF n + 2 ^ 16 * old.length + 2 ^ 32 * ((old.head?.map (·.no)).getD 0)) }

/-- BIND (R152). -/
def State.bindRun (s : State) (p table : Nat) : State :=
  if (s.table p table).isNone then s.tblResult p 1 else
  match s.current table with
  | none => s.tblResult p 8
  | some ep =>
    let (h, s) := s.freshHandle
    ({ s with bindings := s.bindings ++ [⟨h, 2, p, table, ep.no⟩] } : State).tblValue p h

/-- RELEASE (R152) of a staging handle or a BIND handle. -/
def State.releaseRun (s : State) (p arg : Nat) : State :=
  let h := arg % 2 ^ 32
  if s.bindings.any fun b => b.handle == h && (b.kind == 1 || b.kind == 2) && b.part == p then
    s.releaseIf fun b => b.handle == h && (b.kind == 1 || b.kind == 2) && b.part == p
  else s.tblResult p 7

/-- QUERY (R152). -/
def execQuery (p table : Nat) (s : State) : Host.Outcome State Fault Refusal :=
  .next (s.tblSimple 4 p table fun s => s.queryRun p table)
/-- BIND (R152). -/
def execBind (p table : Nat) (s : State) : Host.Outcome State Fault Refusal :=
  .next (s.tblSimple 5 p table fun s => s.bindRun p table)
/-- RELEASE (R152). -/
def execRelease (p : Nat) (s : State) : Host.Outcome State Fault Refusal :=
  .next (s.tblSimple 6 p 0 fun s => s.releaseRun p (s.tblArg p))
/-- TBL_CMD_NOP (R152). -/
def execTblCmdNop (p op : Nat) (s : State) : Host.Outcome State Fault Refusal := .next (s.tblSimple op p 0 id)

/-- The command a commit held runs when the commit completes (R292). -/
def State.releaseHeld (s : State) (p : Nat) : State :=
  match (s.svc p).heldCmd with
  | none => s
  | some (op, table, arg) =>
    let s := s.modSvc p fun x => { x with heldCmd := none }
    let s := match op with
      | 4 => s.queryRun p table
      | 5 => s.bindRun p table
      | 6 => s.releaseRun p arg
      | _ => if op = 1 ∨ op = 2 ∨ op = 3 ∨ op = 7 then s.tblBegin op p table arg else s
    s.tblIdle p

/-- The accesses that still wait for a cold page of an epoch that goes: gathers take the default row, updates are discarded as stale
(R129, R164). -/
def State.endWaiters (s : State) (k table epoch : Nat) : State :=
  let gone := ((s.engine k).misses.filter fun m => m.table == table && m.epoch == epoch).flatMap (·.waiters)
  let s := s.modEngine k fun x => { x with misses := x.misses.filter fun m => !(m.table == table && m.epoch == epoch) }
  gone.foldl (fun s f =>
    if f.update then ((s.modHeld k f.part fun p => { p with stale := p.stale + 1 }).countEngine k fun c =>
        { c with stale := c.stale + 1 }).partTry k f.part
    else s.serveDefault k f) s

/-- Steps 2 and 3 of R149: the lines of a freed epoch leave the row caches, and its extents and landing pages come back, a
dirty page being written first. -/
def State.sweepNow (s : State) (table epoch : Nat) : State :=
  match s.epoch table epoch with
  | none => s
  | some ep =>
    if !ep.sweep then s else
    let mine (l : Landing) : Bool := l.table == table && l.epoch == epoch
    let s := (List.range s.stackCount).foldl (fun (s : State) k =>
      let s := ((s.engine k).landing.filter fun l => mine l && l.dirty && !l.writing).foldl (fun s l => s.writeBack k l) s
      (s.endWaiters k table epoch).modEngine k fun e => { e with landing := e.landing.filter fun l => !mine l }) s
    let s : State := { s with
      dies := s.dies.map fun d => { d with cache := d.cache.filter fun r => !(r.table == table && r.epoch == epoch) }
      epochs := s.epochs.filter fun e => !(e.table == table && e.no == epoch) }
    match s.tablePart table with
    | some p =>
      if (s.svc p).aborting = some (table, epoch) then (s.modSvc p fun x => { x with aborting := none }).tblIdle p else s
    | none => s

/-- The sweep of a freed epoch completes once no open request reads it and no front end still holds it (R107, R146, R149). -/
def State.sweepDone (s : State) (table epoch : Nat) : State :=
  if s.inUse table epoch ∨ s.tsvc.any fun t => t.publishing.any fun e => e.1 == table && e.2.1 == epoch then s else
  s.sweepNow table epoch

/-- ROW_CACHE_SWEEP_DONE (R149). -/
def execRowCacheSweepDone (table epoch : Nat) (s : State) : Host.Outcome State Fault Refusal := .next (s.sweepDone table epoch)

end Sys2Proof.Machine
end

