-- ==== Sys2Proof/Machine/Clamp.lean ====
section
/-! DEFINITION. The Pyrmet image: framing (R269 to R274), and the clamping of its records into the staging store (R275 to
R286, R293). -/
namespace Sys2Proof.Machine

/-! ## Framing -/

/-- A section that a directory entry names (R271, R273), with its records and the framing check it failed, if any. -/
structure Sect where
  id : Nat
  type : Nat
  part : Nat
  recs : List Bytes
  failed : Option Nat
  deriving DecidableEq, Repr

/-- Record size of a type; 0 for variable records (R274). -/
def recSize : Nat → Nat
  | 1 => 64 | 2 => 8 | 3 => 8 | 4 => 8 | 5 => 8 | 6 => 64 | 7 => 64 | 8 => 64 | 0xA => 32 | 0xC => 128 | 0xE => 320
  | 0xF => 128 | 0x10 => 64 | _ => 0
def isSectType (t : Nat) : Bool := 1 ≤ t && t ≤ 0x10

/-- n variable records at the start of a body; none where one does not fit (R274). -/
def varRecs : Nat → Bytes → Option (List Bytes)
  | 0, _ => some []
  | n + 1, b =>
    let len := bits (wordAt b 0) 31 0
    if len < 16 ∨ len % 16 ≠ 0 ∨ b.length < len then none else
    (varRecs n (b.drop len)).map fun l => b.take len :: l

/-- The records of a section body; none where they do not fit. -/
def sectRecs (size count : Nat) (b : Bytes) : Option (List Bytes) :=
  if size = 0 then varRecs count b
  else if b.length < size * count then none
  else some ((List.range count).map fun i => (b.drop (size * i)).take size)

/-- A legal length of an image (R269, R291). -/
def lengthOk (n : Nat) : Bool := n % 64 == 0 && 512 ≤ n && n ≤ 2 ^ 28

/-- The header checks of R272. -/
def headerOk (h : Bytes) (length : Nat) : Bool :=
  let total := bits (wordAt h 1) 31 0
  let count := bits (wordAt h 1) 44 32
  let dir := bits (wordAt h 2) 31 0
  bits (wordAt h 0) 31 0 == 0x544D5950 && bits (wordAt h 0) 47 32 == 0x0100 && bits (wordAt h 0) 49 48 ≤ 1
    && bits (wordAt h 15) 31 0 == crc32c (h.take 120) && lengthOk total && total == length && 1 ≤ count && count ≤ 4096 && 128 ≤ dir
    && dir + 16 * count ≤ total - 128

/-- The first framing check that a section fails (R273), given the earlier entries: their extents that passed check 1 and
their identifiers. -/
def framing (img : Bytes) (dirEnd : Nat) (exts : List (Nat × Nat)) (ids : List Nat) (off len type id : Nat) : Option Nat :=
  let sec := (img.drop off).take len
  let w0 := wordAt sec 0
  let size := bits (wordAt sec 2) 15 0
  if off % 64 ≠ 0 ∨ len < 64 ∨ len % 64 ≠ 0 ∨ off < dirEnd ∨ img.length - 128 < off + len
    ∨ exts.any (fun x => x.1 < off + len && off < x.2) then some 1
  else if bits w0 15 0 ≠ 0x5E11 ∨ bits w0 31 24 ≠ 1 then some 2
  else if bits w0 23 16 ≠ type ∨ bits w0 43 32 ≠ id ∨ bits (wordAt sec 1) 31 0 ≠ len then some 3
  else if ids.contains id then some 4
  else if isSectType type ∧ size ≠ recSize type then some 5
  else if (sectRecs size (bits (wordAt sec 1) 63 32) (sec.drop 64)).isNone then some 6
  else if bits (wordAt sec 2) 63 32 ≠ crc32c (sec.drop 64) then some 7
  else none

/-- The sections in directory order (R271, R273). -/
def sections (img : Bytes) : List Sect :=
  let count := bits (wordAt img 1) 44 32
  let dir := bits (wordAt img 2) 31 0
  ((List.range count).foldl (fun (acc : List Sect × List (Nat × Nat) × List Nat) i =>
    let d := img.drop (dir + 16 * i)
    let off := bits (wordAt d 0) 31 0
    let len := bits (wordAt d 0) 63 32
    let type := bits (wordAt d 1) 7 0
    let id := bits (wordAt d 1) 27 16
    let fail := framing img (dir + 16 * count) acc.2.1 acc.2.2 off len type id
    let sec := (img.drop off).take len
    let recs := if fail.isSome then [] else
      (sectRecs (bits (wordAt sec 2) 15 0) (bits (wordAt sec 1) 63 32) (sec.drop 64)).getD []
    (acc.1 ++ [⟨id, type, bits (wordAt sec 0) 51 48, recs, fail⟩],
      if fail = some 1 then acc.2.1 else acc.2.1 ++ [(off, off + len)], acc.2.2 ++ [id])) ([], [], [])).1

/-! ## Clamp reports -/

/-- The all-ones value of "none". -/
def noneApplied : Nat := 2 ^ 64 - 1

/-- A clamp report of a record of a section (R276). -/
def Sect.clamp (c : Sect) (rec item : Nat) (f : FieldClamp) : Clamp :=
  ⟨c.id, c.type, f.reason, rec, item, f.field, if c.type ≤ 6 then 0xFF else c.part, f.written, f.applied.getD noneApplied⟩

/-- Clamp reports of a record as a whole. -/
def Sect.clamps (c : Sect) (rec : Nat) (fs : List FieldClamp) : List Clamp := fs.map (c.clamp rec 0xFFFF)

/-- The 32 bytes of a report, as four words (R276). -/
def Clamp.words (c : Clamp) : List Nat :=
  [c.sect + 2 ^ 16 * c.type + 2 ^ 24 * c.reason + 2 ^ 32 * c.record, c.item + 2 ^ 16 * c.field + 2 ^ 32 * c.part, c.written,
    c.applied]

/-- What the records of one image are clamped against: the staged image so far, the step lists kept, and the reports. -/
structure Building where
  st : Staged
  lists : List (Nat × Nat × List Nat)
  out : List Clamp
  deriving DecidableEq, Repr

/-- The reports of one type in the order of its sections, records and fields (R274, R275); items of a record follow its own fields. -/
def inOrder (cs : List Sect) (l : List Clamp) : List Clamp :=
  cs.flatMap fun c =>
    let mine := l.filter fun x => x.sect == c.id
    (mine.filter fun x => x.record == 0xFFFFFFFF) ++ (List.range c.recs.length).flatMap fun i =>
      let r := mine.filter fun x => x.record == i
      ((r.filter fun x => x.item == 0xFFFF).mergeSort fun x y => x.field ≤ y.field) ++ r.filter fun x => x.item != 0xFFFF

namespace Building
def report (b : Building) (l : List Clamp) : Building := { b with out := b.out ++ l }
def stage (b : Building) (f : Staged → Staged) : Building := { b with st := f b.st }
/-- The partition is defined (R278). -/
def defined (b : Building) (p : Nat) : Bool := b.st.parts.any fun x => x.1 == p
/-- Clamp the sections of one type: `pre` are the reports of those that the image may not carry. -/
def pass (b : Building) (cs : List Sect) (pre : List Clamp) (f : Building → Building) : Building :=
  let c := f { b with out := pre }
  { c with out := b.out ++ inOrder cs c.out }
end Building

/-- A disabled record: one report for the field that disables it. -/
def Building.disable (b : Building) (c : Sect) (rec reason field written : Nat) : Building :=
  b.report [c.clamp rec 0xFFFF ⟨reason, field, written, none⟩]

/-- Fold the records of sections in order with their index. -/
def eachRec (cs : List Sect) (f : Sect → Nat → Bytes → Building → Building) (b : Building) : Building :=
  cs.foldl (fun b c => (c.recs.mapIdx fun i r => (i, r)).foldl (fun b x => f c x.1 x.2 b) b) b

/-- As eachRec for a partition-scoped type: a record of a partition that is not defined is disabled (R278). -/
def eachPartRec (cs : List Sect) (f : Sect → Nat → Bytes → Building → Building) (b : Building) : Building :=
  eachRec cs (fun c i r b => if b.defined c.part then f c i r b else b.disable c i 3 48 c.part) b

/-! ## Device-scoped records (R278 to R280) -/

/-- PARTITION (R278). -/
def partRec (c : Sect) (i : Nat) (r : Bytes) (b : Building) : Building :=
  let w := wordAt r 0
  let p := bits w 3 0
  if b.defined p then b.disable c i 4 0 p else
  if !w.testBit 8 then b else
  let n := bits w 31 16
  let m := max 1 (min 4096 n)
  (b.report (if m = n then [] else c.clamps i [⟨1, 16, n, some m⟩])).stage fun s => { s with parts := s.parts ++ [(p, m)] }

/-- MEMORY_FRAMES (R198 steps 1 to 3, R279). The kind keeps its die in bits [5:3]. -/
def frameRec (model : Nat) (c : Sect) (i : Nat) (r : Bytes) (b : Building) : Building :=
  let w := wordAt r 0
  let f := bits w 9 0
  let k := bits w 12 10
  let d := bits w 15 13
  let o := bits w 19 16
  if 48 * stacksOf model ≤ f then b.disable c i 2 0 f else
  if b.st.frames.any fun e => e.1 == f then b.disable c i 4 0 f else
  let add (b : Building) (kind own : Nat) : Building := b.stage fun s => { s with frames := s.frames ++ [(f, kind, own)] }
  if 6 ≤ k then add (b.report (c.clamps i [⟨7, 10, k, some 0⟩])) 0 0 else
  let near := k = 2
  let b := if near ∧ model ≠ 0 then b.report (c.clamps i [⟨2, 10, 2, some 1⟩]) else b
  let k := if near ∧ model ≠ 0 then 1 else k
  if k = 2 ∧ diesOf model ≤ d then add (b.disable c i 2 13 d) 0 0 else
  if 1 ≤ k ∧ k ≤ 4 ∧ !b.defined o then add (b.disable c i 3 16 o) 0 0 else
  add b (if k = 2 then 2 + 8 * d else k) (if k = 0 ∨ k = 5 then 0 else o)

/-- Bytes that a frame of a kind takes in stack k (R197). -/
def frameShare (model kind k : Nat) : Nat :=
  match kind % 8 with
  | 0 => 0
  | 2 => if k / 2 = kind / 8 then 2 ^ 29 else 0
  | _ => 2 ^ 30 / stacksOf model

/-- Step 4 of R198: in increasing number, a frame that would take a stack beyond 48 GiB becomes NONE. -/
def frameFit (model : Nat) (cs : List Sect) (b : Building) : Building :=
  let place (f : Nat) : Option (Sect × Nat) := (cs.findSome? fun c =>
    (c.recs.findIdx? fun r => bits (wordAt r 0) 9 0 == f).map fun i => (c, i))
  let sorted := b.st.frames.mergeSort fun x y => x.1 ≤ y.1
  let (frames, _, out) := sorted.foldl (fun (acc : List (Nat × Nat × Nat) × List Nat × List Clamp) e =>
    let used := (List.range (stacksOf model)).map fun k => acc.2.1.getD k 0 + frameShare model e.2.1 k
    if used.any fun u => decide (48 * 2 ^ 30 < u) then
      (acc.1 ++ [(e.1, 0, 0)], acc.2.1, acc.2.2 ++ match place e.1 with
        | some (c, i) => c.clamps i [⟨6, 10, bits (wordAt (c.recs.getD i []) 0) 12 10, some 0⟩]
        | none => [])
    else (acc.1 ++ [e], used, acc.2.2)) ([], [], [])
  { b with st := { b.st with frames := frames.filter fun e => e.2.1 != 0 }, out := b.out ++ out }

/-- REGULATOR (R211, R279): a record accepted with its burst. -/
def regRec (model : Nat) (c : Sect) (i : Nat) (r : Bytes) (b : Building) : Building :=
  let w := wordAt r 0
  let k := bits w 3 0
  let p := bits w 7 4
  if stacksOf model ≤ k then b.disable c i 2 0 k else
  if !b.defined p then b.disable c i 3 4 p else
  if b.st.regulators.any fun x => x.1 == k && x.2.1 == p then b.disable c i 4 0 k else
  let burst := bits w 27 17
  let burst' := max 4 (min 1024 burst)
  (b.report (if burst' = burst then [] else c.clamps i [⟨1, 17, burst, some burst'⟩])).stage fun s =>
    { s with regulators := s.regulators ++ [(k, p, bits w 15 8, w.testBit 16, burst')] }

/-- The weights of R211: of each stack in increasing partition number, and SHARE for a weight of 0; the defaults. -/
def regFit (model : Nat) (cs : List Sect) (b : Building) : Building :=
  let place (k p : Nat) : Option (Sect × Nat) := (cs.findSome? fun c =>
    (c.recs.findIdx? fun r => bits (wordAt r 0) 3 0 == k && bits (wordAt r 0) 7 4 == p).map fun i => (c, i))
  let raw := b.st.regulators
  let none := cs.all fun c => c.recs.isEmpty
  let owners (k : Nat) : List Nat := (List.range 16).filter fun p =>
    b.st.frames.any fun e => e.2.2 == p && (1 ≤ e.2.1 % 8 && e.2.1 % 8 ≤ 4) && frameShare model e.2.1 k != 0
  let (regs, out) := (List.range (stacksOf model)).foldl (fun (acc : List (Nat × Nat × Nat × Bool × Nat) × List Clamp) k =>
    let (l, out, _) := (List.range 16).foldl (fun (a : List (Nat × Nat × Nat × Bool × Nat) × List Clamp × Nat) p =>
      match raw.find? fun x => x.1 == k && x.2.1 == p with
      | some (_, _, w, share, burst) =>
        let w' := min w (256 - a.2.2)
        let fs := (if w' = w then [] else [(⟨6, 8, w, some w'⟩ : FieldClamp)])
          ++ (if w' = 0 ∧ !share then [⟨9, 16, 0, some 1⟩] else [])
        (a.1 ++ [(k, p, w', share || w' == 0, burst)],
          a.2.1 ++ (match place k p with | some (c, i) => c.clamps i fs | _ => []), a.2.2 + w')
      | _ =>
        let os := owners k
        (a.1 ++ [(k, p, if none && os.contains p then 256 / os.length else 0, true, 256)], a.2.1, a.2.2))
      (([], [], 0) : List (Nat × Nat × Nat × Bool × Nat) × List Clamp × Nat)
    (acc.1 ++ l, acc.2 ++ out)) ([], [])
  { b with st := { b.st with regulators := regs }, out := b.out ++ out }

/-- UPDATE_SOURCE (R279). -/
def sourceRec (c : Sect) (i : Nat) (r : Bytes) (b : Building) : Building :=
  let src := bits (wordAt r 0) 7 0
  let p := bits (wordAt r 0) 11 8
  if src = 0 then b.disable c i 1 0 0 else
  if b.st.sources.any fun x => x.1 == src then b.disable c i 4 0 src else
  if !b.defined p then b.disable c i 3 8 p else b.stage fun s => { s with sources := s.sources ++ [(src, p)] }

/-- HOST_DIRECT (R279): a cell in a defined partition; at most eight. A cell without a position is absent (R281, R419). -/
def grantRec (placed : Nat → Bool) (owner : Nat → Option Nat) (c : Sect) (i : Nat) (r : Bytes) (b : Building) : Building :=
  let g := bits (wordAt r 0) 8 0
  if !placed g then b.disable c i 2 0 g else
  if b.st.grants.contains g then b.disable c i 4 0 g else
  if (owner g).isNone then b.disable c i 8 0 g else
  if 8 ≤ b.st.grants.length then b.disable c i 6 0 g else b.stage fun s => { s with grants := s.grants ++ [g] }

/-- PAIR (R280): the first record of the image; RANK and MIRROR_MASK are kept where ENABLE is clear or cleared. -/
def pairRec (model : Nat) (first : Bool) (c : Sect) (i : Nat) (r : Bytes) (b : Building) : Building :=
  if !first then b.disable c i 4 0 (bits (wordAt r 0) 0 0) else
  let w := wordAt r 0
  let journal := (b.st.frames.filter fun e => e.2.1 % 8 == 5).length
  let on := w.testBit 0
  let c1 : List FieldClamp := if on ∧ model = 2 then [⟨2, 0, 1, some 0⟩] else if on ∧ journal < 16 then [⟨6, 0, 1, some 0⟩] else []
  let m := bits w 47 32
  let m' := ((List.range 16).filter fun p => m.testBit p && b.defined p).foldl (fun a p => a + 2 ^ p) 0
  let c2 : List FieldClamp := if m = m' then [] else [⟨3, 32, m, some m'⟩]
  (b.report (c.clamps i (c1 ++ c2))).stage fun s => { s with pair := some (on && c1 == [], bits w 1 1, m') }

/-! ## Ranges, catalogue, epochs and contexts (R285, R286) -/

/-- TRANSLATION (R286): the ranges of a partition in increasing number. -/
def rangeRecs (tg : Targets) (cs : List Sect) (b : Building) : Building :=
  let all := cs.flatMap fun c => c.recs.mapIdx fun i r => (c, i, r)
  (all.mergeSort fun x y => bits (wordAt x.2.2 4) 11 0 ≤ bits (wordAt y.2.2 4) 11 0).foldl (fun b x =>
    let c : Sect := x.1
    let idx := bits (wordAt x.2.2 4) 11 0
    if !b.defined c.part then b.disable c x.2.1 3 48 c.part else
    let mine := b.st.ranges.filter fun r => r.part == c.part
    if mine.any fun r => r.idx == idx then b.disable c x.2.1 4 256 idx else
    let (r, fs) := clampRange tg c.part idx mine (wordAt x.2.2)
    (b.report (c.clamps x.2.1 fs)).stage fun s => { s with ranges := s.ranges ++ r.toList }) b

/-- Largest D that fits L bytes (R110, R140). -/
def maxElems (fmt len : Nat) : Nat := if fmt = 8 then len - 4 else if fmt = 9 then 2 * (len - 4) else 8 * len / fmtWidth fmt

/-- CATALOGUE (R139, R140); `taken`: the number is another partition's. -/
def tableRec (model : Nat) (taken : Nat → Bool) (c : Sect) (i : Nat) (r : Bytes) (b : Building) : Building :=
  let t := bits (wordAt r 0) 11 0
  let f := bits (wordAt r 0) 15 12
  if taken t ∨ b.st.tables.any fun e => e.table == t then b.disable c i 4 0 t else
  if !(f ≤ 4 || f == 8 || f == 9) then b.disable c i (if f ≤ 0xB then 1 else 7) 12 f else
  let len := 16 * (bits (wordAt r 0) 21 16 + 1)
  let d := bits (wordAt r 0) 42 32
  let top := maxElems f len
  let d' := if d = 0 then (if f = 9 then 2 else 1) else if f = 9 then min top d / 2 * 2 else min top d
  let d' := if f = 9 ∧ d' = 0 then 2 else d'
  let m := bits (wordAt r 0) 63 48
  let m' := m % 2 ^ stacksOf model
  if m' = 0 then
    b.disable c i (if m = 0 then 1 else 2) 48 m
  else
  let a0 : Clamping := (((Clamping.of (wordAt r 0)).set 42 32 1 d').set 63 48 2 m')
  let a1 : Clamping := (Clamping.of (wordAt r 1)).within 31 0 1 1 (2 ^ 32 - 1)
  let a1 := a1.when (decide (model = 2)) fun a => a.set 33 33 2 0
  let a1 := a1.within 39 36 1 1 (min 15 (stacksOf model - 1))
  let a2 : Clamping := (((Clamping.of (wordAt r 2)).within 15 0 1 64 65535).within 31 16 1 50 20000).within 47 32 1 5 500
  let share := 2 ^ 30 / stacksOf model
  let area := share * (b.st.frames.filter fun e => e.2.1 % 8 == 3 && e.2.2 == c.part).length
  let a3 : Clamping := ((Clamping.of (wordAt r 3)).within 31 0 1 0 1048576).within 31 0 6 0 (area / 4096)
  let shift (k : Nat) (l : List FieldClamp) : List FieldClamp := l.map fun f => { f with field := f.field + 64 * k }
  (b.report (c.clamps i (a0.2 ++ shift 1 a1.2 ++ shift 2 a2.2 ++ shift 3 a3.2))).stage fun s => { s with
    tables := s.tables ++ [{ table := t, part := c.part, w0 := BitVec.ofNat 64 a0.1, w1 := BitVec.ofNat 64 a1.1
                             w2 := BitVec.ofNat 64 a2.1, w3 := BitVec.ofNat 64 a3.1, lastEpoch := 0 }] }

/-- INITIAL_EPOCH (R285); `kept`: the table keeps an epoch through the commit; `live`: the epochs that keep their storage. -/
def epochRec (area links : Nat → Nat) (bays : Nat → Option Bytes) (kept : Nat → Bool) (clash : TableEntry → Epoch → Bool)
    (c : Sect) (i : Nat) (r : Bytes) (b : Building) : Building :=
  let t := bits (wordAt r 0) 43 32
  match b.st.tables.find? fun e => e.table == t && e.part == c.part with
  | none => b.disable c i 3 32 t
  | some e =>
    if b.st.epochs.any fun x => x.2.1.table == t then b.disable c i 4 32 t else
    if kept t then b.disable c i 12 32 t else
    let dataLen := wordAt r 1
    let body := r.drop 16
    let dflt := if e.storedDefault then some ((body.drop 128).take e.len ++ zeros (e.len - (body.drop 128).length)) else none
    let sd := clampDesc e 1 (area c.part) (links 0) bays (body.take 128) dflt
    let fs := sd.clamps.map fun f => { f with field := f.field + 128 }
    match sd.epoch with
    | none => b.disable c i 6 128 (bits (wordAt body 0) 31 0)
    | some ep =>
      if clash e ep ∨ b.st.epochs.any (fun x => match b.st.tables.find? fun y => y.table == x.2.1.table with
          | some y => x.1 == c.part && (x.2.1.extents y).any fun u => (ep.extents e).any fun v =>
              u.1 == v.1 && u.2.1 < v.2.2 && v.2.1 < u.2.2
          | none => false) then b.disable c i 5 128 (bits (wordAt body 0) 31 0) else
      let want := ep.res * e.len
      let rows := ((body.drop (128 + if e.storedDefault then e.len else 0)).take dataLen).take want
      let short : List FieldClamp := if dataLen < want then [⟨1, 64, dataLen, some want⟩] else []
      (b.report (c.clamps i (short ++ fs))).stage fun s =>
        { s with epochs := s.epochs ++ [(c.part, { ep with st := 2 }, rows ++ zeros (want - rows.length))] }

/-- COMPRESSION (R219, R286); `place` says whether the table area may lie at an address and `record` whether a valid record
can be read. -/
def ctxRec (place record : List Range → Nat → Nat → Bool) (c : Sect) (i : Nat) (r : Bytes) (b : Building) : Building :=
  let n := bits (wordAt r 0) 3 0
  let policy := bits (wordAt r 0) 5 4
  let ta := wordAt r 1
  let ia := wordAt r 2
  if b.st.ctxs.any fun x => x.part == c.part && x.ctx == n then b.disable c i 4 0 n else
  if !place b.st.ranges c.part ta then b.disable c i 11 64 ta else
  let c1 : List FieldClamp := if 2 ≤ policy then [⟨7, 4, policy, some 0⟩] else []
  let bad := ia != 0 && !record b.st.ranges c.part ia
  let c2 : List FieldClamp := if bad then [⟨11, 128, ia, none⟩] else []
  (b.report (c.clamps i (c1 ++ c2))).stage fun s => { s with ctxs := s.ctxs ++
    [{ CmpCtx.absent c.part n with
       enabled := true, policy := if 2 ≤ policy then 0 else policy, tableAddr := ta, initAddr := ia, initOk := !bad
       initStored := bits (wordAt r 3) 31 0 }] }

/-! ## Step lists, cells, lists, groups, chains and classes (R280 to R284) -/

/-- 128-bit words of a byte string. -/
def steps128 (n : Nat) (b : Bytes) : List Nat := (List.range n).map fun i => leNat ((b.drop (16 * i)).take 16)

/-- STEP_LIST (R282). -/
def listRec (c : Sect) (i : Nat) (r : Bytes) (b : Building) : Building :=
  let n := bits (wordAt r 0) 43 32
  let steps := bits (wordAt r 1) 15 0
  let room := (r.length - 16) / 16
  if b.lists.any fun x => x.1 == c.part && x.2.1 == n then b.disable c i 4 32 n else
  let c1 : List FieldClamp := if room < steps then [⟨1, 64, steps, some room⟩] else []
  let (ws, cs) := clampSteps (steps128 (min steps room) (r.drop 16))
  let b := b.report (c.clamps i c1 ++ cs.map fun x => c.clamp i x.1 x.2)
  { b with lists := b.lists ++ [(c.part, n, ws)] }

/-- Why a cell cannot be named by a partition (R275): 2 where it is absent or has no position, 8 where it is another's. -/
def Targets.cellWhy (x : Targets) (p g : Nat) : Nat := x.windowWhy p g

/-- CELL (R281), but for the copy of its step list: bindings, roles and depths. A cell without a position is absent (R419). -/
def cellRec (tg : Targets) (whole : Nat) (c : Sect) (i : Nat) (r : Bytes) (b : Building) : Building :=
  let w := wordAt r 0
  let g := bits w 8 0
  let list := bits w 27 16
  if !tg.owners.any (fun e => e.1 == g) then b.disable c i 2 0 g else
  if b.st.cells.any fun x => x.g == g then b.disable c i 4 0 g else
  if whole = 0 ∧ tg.cellWhy c.part g ≠ 0 then b.disable c i 8 0 g else
  let steps := (b.lists.find? fun x => x.1 == c.part && x.2.1 == list).map (·.2.2)
  let c1 : List FieldClamp := if steps.isNone then [⟨3, 16, list, none⟩] else []
  let depth (n : Nat) : Nat := byteAt r (8 + n)
  let c2 : List FieldClamp := (List.range 16).flatMap fun n =>
    if 64 < depth n then [⟨1, 64 * (1 + n / 8) + 8 * (n % 8), depth n, some 64⟩] else []
  let cred (n : Nat) : Nat := bits (wordAt r (3 + n / 2)) (32 * (n % 2) + 31) (32 * (n % 2))
  let why (n : Nat) : Nat := if (cred n).testBit 31 then tg.cellWhy c.part (bits (cred n) 8 0) else 1
  let c3 : List FieldClamp := (List.range 16).flatMap fun n =>
    if why n = 2 ∨ why n = 8 then [⟨why n, 64 * (3 + n / 2) + 32 * (n % 2), bits (cred n) 8 0, none⟩] else []
  let img : CellImage :=
    { steps := (steps.getD [0x0F]).map (BitVec.ofNat 128), roles := (List.range 16).map fun n => bits w (2 * n + 33) (2 * n + 32)
      depths := (List.range 16).map fun n => if depth n = 0 then 64 else min 64 (depth n)
      binds := (List.range 16).map fun n =>
        if why n = 0 then some (bits (cred n) 8 0, bits (cred n) 12 9) else if n = 15 then none else some (g, n) }
  (b.report (c.clamps i (c1 ++ c2 ++ c3))).stage fun s => { s with cells := s.cells ++ [⟨c.part, g, img⟩] }

/-- The copy of its step list that a cell loads (R283). -/
def Staged.copySteps (s : Staged) (x : StagedCell) : List Clamping :=
  let member (n : Nat) : Bool := s.chains.any fun u => u.part == x.part && u.number == n && u.members.any fun m => m.1 == x.g
  x.img.steps.map fun w => clampCopy (s.grants.contains x.g) (x.img.binds.getD 15 none).isNone x.img.roles member w.toNat

/-- Replace every cell's steps by its copy, and report the clamps of that for its CELL record. -/
def copyCells (cs : List Sect) (b : Building) : List Clamp × Staged :=
  let recs := cs.flatMap fun c => c.recs.mapIdx fun i r => (c, i, bits (wordAt r 0) 8 0)
  let out := b.st.cells.flatMap fun x =>
    match recs.find? fun y => y.2.2 == x.g && y.1.part == x.part with
    | some (c, i, _) => ((b.st.copySteps x).mapIdx fun k a => a.2.map fun f => c.clamp i k f).flatten
    | none => []
  (out, { b.st with cells := b.st.cells.map fun x =>
    { x with img := { x.img with steps := (b.st.copySteps x).map fun a => BitVec.ofNat 128 a.1 } } })

/-- STREAM_LIST (R284): `ok` says whether an extent is wholly mapped with WRITE by the ranges in force after the commit. -/
def streamRec (ok : List Range → Nat → Nat → Nat → Bool) (c : Sect) (i : Nat) (r : Bytes) (b : Building) : Building :=
  let n := bits (wordAt r 0) 63 32
  let room := (r.length - 16) / 32
  let target := wordAt r 1
  let m := min n room
  if target.testBit 63 ∨ !ok b.st.ranges c.part (addr57 target) (32 * m) then b.disable c i 11 64 target else
  (b.report (if m = n then [] else c.clamps i [⟨1, 32, n, some m⟩])).stage fun s =>
    { s with lists := s.lists ++ [(c.part, target, (r.drop 16).take (32 * m))] }

/-- The role of a slot of a cell of the partition; PLAIN where no record names the cell. -/
def Staged.role (s : Staged) (p g slot : Nat) : Nat :=
  match s.cells.find? fun x => x.part == p && x.g == g with | some x => x.img.roles.getD slot 0 | none => 0

/-- LAG_BLOCKS and LAG_TIME (R181, R284): values and clamps, the fields at given places. -/
def clampLag (n t fn ft : Nat) : Nat × Nat × List FieldClamp :=
  let n' := if n = 0 then 64 else min 1024 n
  let t' := if t = 0 then 200 else max 10 (min 10000 t)
  (n', t', (if n = 0 ∨ n = n' then [] else [⟨1, fn, n, some n'⟩]) ++ (if t = 0 ∨ t = t' then [] else [⟨1, ft, t, some t'⟩]))

/-- A receiver of a group (R181, R284): none where it is removed. -/
def clampReceiver (tg : Targets) (s : Staged) (p w : Nat) : Option Receiver × List FieldClamp :=
  let g := bits w 8 0
  let depth := bits w 19 13
  let slot := bits w 23 20
  let base := bits w 45 24
  let why := tg.cellWhy p g
  if why ≠ 0 then (none, [⟨why, 0, g, none⟩]) else
  if s.role p g slot ≠ 2 then (none, [⟨3, 20, slot, none⟩]) else
  let depth' := if depth = 0 then 64 else min 64 depth
  let base' := base / 16 * 16
  (some { g, queue := bits w 12 9, depth := depth', slot, base := base', credits := depth', next := 0, owedSince := none, dropped := false },
    (if depth' = depth then [] else [⟨1, 13, depth, some depth'⟩]) ++ (if base' = base then [] else [⟨1, 24, base, some base'⟩]))

/-- GROUP (R181, R284). -/
def groupRec (tg : Targets) (c : Sect) (i : Nat) (r : Bytes) (b : Building) : Building :=
  let w := wordAt r 0
  let n := bits w 5 0
  let g := bits w 14 6
  let slot := bits w 19 16
  let count := bits w 37 32
  if b.st.groups.any fun u => u.part == c.part && u.number == n then b.disable c i 4 0 n else
  if tg.cellWhy c.part g ≠ 0 then b.disable c i (tg.cellWhy c.part g) 6 g else
  if b.st.role c.part g slot ≠ 1 then b.disable c i 3 16 slot else
  let (lb, lt, fs) := clampLag (bits w 30 20) (bits (wordAt r 1) 13 0) 20 64
  let m := min 36 count
  let rs := (List.range m).map fun k => (k, clampReceiver tg b.st c.part (wordAt r (2 + k)))
  let recvs := rs.filterMap fun x => x.2.1
  if recvs = [] then
    (b.report (rs.flatMap fun x => x.2.2.map (c.clamp i x.1))).disable c i (if count = 0 then 1 else 3) 32 count
  else
  let c1 : List FieldClamp := if m = count then [] else [⟨1, 32, count, some m⟩]
  (b.report (c.clamps i (fs.filter (·.field == 20) ++ c1 ++ fs.filter (·.field == 64))
      ++ rs.flatMap fun x => x.2.2.map (c.clamp i x.1))).stage fun s =>
    { s with groups := s.groups ++ [⟨c.part, n, g, slot, lb, lt, recvs⟩] }

/-- The members of a chain (R185, R284): cells of the partition on the die of the first, on CHAIN slots. -/
def clampMembers (tg : Targets) (s : Staged) (p : Nat) (ws : List (Nat × Nat)) : List (Nat × Nat) × List (Nat × FieldClamp) :=
  ws.foldl (fun (acc : List (Nat × Nat) × List (Nat × FieldClamp)) x =>
    let g := bits x.2 8 0
    let slot := bits x.2 12 9
    let bad (reason field v : Nat) := (acc.1, acc.2 ++ [(x.1, (⟨reason, field, v, none⟩ : FieldClamp))])
    if tg.cellWhy p g ≠ 0 then bad (tg.cellWhy p g) 0 g
    else if s.role p g slot ≠ 3 then bad 3 9 slot
    else if acc.1.any fun m => decide (m.1 / 36 ≠ g / 36) then bad 9 0 g
    else (acc.1 ++ [(g, slot)], acc.2)) ([], [])

/-- CHAIN (R185, R284), but for its successor links. -/
def chainRec (tg : Targets) (c : Sect) (i : Nat) (r : Bytes) (b : Building) : Building :=
  let w := wordAt r 0
  let n := bits w 5 0
  let count := bits w 11 6
  let slots := bits w 16 12
  let base := bits w 38 17
  if b.st.chains.any fun u => u.part == c.part && u.number == n then b.disable c i 4 0 n else
  let m := min 36 count
  let (members, ms) := clampMembers tg b.st c.part
    ((List.range m).map fun k => (k, bits (wordAt r (2 + k / 4)) (16 * (k % 4) + 15) (16 * (k % 4))))
  let base' := base / 4096 * 4096
  let slots' := if slots = 0 then 4 else max 2 (min 16 slots)
  let fit := min slots' ((2 ^ 22 - base') / 4096)
  let mem := ms.map fun x => c.clamp i x.1 x.2
  if members = [] then (b.report mem).disable c i (if count = 0 then 1 else 3) 6 count
  else if fit < 2 then b.disable c i 1 12 slots else
  let (lb, lt, fs) := clampLag (bits w 49 39) (bits (wordAt r 1) 13 0) 39 64
  let c1 : List FieldClamp := (if m = count then [] else [⟨1, 6, count, some m⟩])
    ++ (if fit = slots then [] else [⟨1, 12, slots, some fit⟩]) ++ (if base' = base then [] else [⟨1, 17, base, some base'⟩])
  let succ := (List.range 4).map fun k => bits (wordAt r 1) (32 + 8 * k + 7) (32 + 8 * k)
  (b.report (c.clamps i (c1 ++ fs) ++ mem)).stage fun s =>
    { s with chains := s.chains ++ [⟨c.part, n, members, fit, base', lb, lt, succ⟩] }

/-- Chains that a chain reaches through its successors. -/
def reaches (cs : List Chain) (p target : Nat) : Nat → Nat → Bool
  | 0, _ => false
  | f + 1, n => n == target || match cs.find? fun u => u.part == p && u.number == n with
    | some u => u.succ.any fun m => reaches cs p target f m
    | none => false

/-- The successor links of the chains in order (R185): a link to a chain that is not there, and one that would close a cycle,
are removed. -/
def chainLinks (cs : List Sect) (b : Building) : Building :=
  let recs := cs.flatMap fun c => c.recs.mapIdx fun i r => (c, i, bits (wordAt r 0) 5 0)
  let start := b.st.chains.map fun u => { u with succ := [] }
  let (done, out) := b.st.chains.foldl (fun (acc : List Chain × List Clamp) u =>
    (u.succ.mapIdx fun k n => (k, n)).foldl (fun (acc : List Chain × List Clamp) x =>
      if x.2 = 0xFF then acc else
      let there := b.st.chains.any fun v => v.part == u.part && v.number == x.2
      let cycle := reaches acc.1 u.part u.number 65 x.2
      if there ∧ !cycle then
        (modWhere acc.1 (fun v => v.part == u.part && v.number == u.number) fun v => { v with succ := v.succ ++ [x.2] }, acc.2)
      else (acc.1, acc.2 ++ match recs.find? fun y => y.1.part == u.part && y.2.2 == u.number with
        | some (c, i, _) => c.clamps i [⟨if there then 9 else 3, 64 + 32 + 8 * x.1, x.2, none⟩]
        | none => [])) acc) (start, [])
  { b with st := { b.st with chains := done }, out := b.out ++ out }

/-- A stream split (R180): READ, WRITE and REMOTE, and its clamps in word k. -/
def clampSplit (k w : Nat) (dflt : List Nat) : List Nat × List FieldClamp :=
  let rd := bits w 6 0
  let wr := bits w 14 8
  let rm := bits w 22 16
  if rd = 0 ∧ wr = 0 then (dflt, []) else
  let rd' := max 1 (min 98 rd)
  let wr' := max 1 (min 98 wr)
  let wr'' := min wr' (99 - rd')
  let rm' := 100 - rd' - wr''
  let f (lo v a : Nat) : List FieldClamp := if v = a then [] else [⟨1, 64 * k + lo, v, some a⟩]
  ([rd', wr'', rm'], f 0 rd rd' ++ f 8 wr wr' ++ (if wr'' = wr' then [] else f 8 wr wr'') ++ f 16 rm rm')

/-- CLASS (R280). -/
def classRec (c : Sect) (i : Nat) (r : Bytes) (b : Building) : Building :=
  if b.st.classes.any fun x => x.1 == c.part then b.disable c i 4 0 (bits (wordAt r 0) 4 0) else
  let s0 := bits (wordAt r 0) 4 0
  let s1 := if s0 = 0 then 20 else min 20 s0
  let t0 := bits (wordAt r 1) 31 0
  let t1 := max 10 (min 1000000 t0)
  let (lc, f2) := clampSplit 2 (wordAt r 2) [50, 25, 25]
  let (be, f3) := clampSplit 3 (wordAt r 3) [40, 30, 30]
  let c0 : List FieldClamp := if s0 = 0 ∨ s0 = s1 then [] else [⟨1, 0, s0, some s1⟩]
  let c1 : List FieldClamp := if t0 = t1 then [] else [⟨1, 64, t0, some t1⟩]
  (b.report (c.clamps i (c0 ++ c1 ++ f2 ++ f3))).stage fun s => { s with classes := s.classes ++ [(c.part, s1, t1, lc, be)] }

/-! ## The whole image -/

/-- An empty staged image. -/
def Staged.empty (whole : Bool) (part : Nat) (serial builder : Word) (digest : Bytes) : Staged :=
  { whole, part, serial, builder, digest, parts := [], frames := [], regulators := [], sources := [], grants := [], pair := none,
    ranges := [], tables := [], epochs := [], ctxs := [], cells := [], lists := [], groups := [], chains := [], classes := [] }

/-- Identity in the fields of R290 that keep a table's epochs. -/
def TableEntry.sameTable (a b : TableEntry) : Bool :=
  a.table == b.table && a.part == b.part && a.fmt == b.fmt && a.len == b.len && a.elems == b.elems && a.mask == b.mask
    && a.cold == b.cold

/-- The frame keeps its content (R290). -/
def frameKeeps (old new : List (Nat × Nat × Nat)) (f : Nat) : Bool :=
  let k (l : List (Nat × Nat × Nat)) : Nat × Nat := ((l.find? fun e => e.1 == f).map Prod.snd).getD (0, 0)
  (k old).1 % 8 == (k new).1 % 8 && ((k old).2 == (k new).2 || (k old).1 % 8 == 0 || (k old).1 % 8 == 5)

/-- Frames of a kind of p in increasing number. -/
def framesIn (l : List (Nat × Nat × Nat)) (kind p : Nat) : List Nat :=
  ((l.filter fun e => e.2.1 % 8 == kind && e.2.2 == p).map Prod.fst).mergeSort (· ≤ ·)

/-- The TABLE or REPLICA frames of p whose content or place changes with the frame map (R290). -/
def movedFrames (old new : List (Nat × Nat × Nat)) (kind p : Nat) : List Nat :=
  let a := framesIn old kind p
  let b := framesIn new kind p
  let changed := (a ++ b).filter fun f => !(a.contains f && b.contains f && frameKeeps old new f)
  let lost := a.filter fun f => !(b.contains f && frameKeeps old new f)
  let shifts := changed.filter fun f => !(a.contains f && b.contains f)
  a.filter fun f => lost.contains f || shifts.any fun g => decide (g < f)

/-- The epoch has an extent in a frame of the list (R290). -/
def State.epochIn (s : State) (e : TableEntry) (ep : Epoch) (fs : List Nat) : Bool :=
  let all := s.framesOf 3 e.part
  (ep.extents e).any fun x => (chunks s.share x.2.1 (x.2.2 - x.2.1)).any fun c => fs.contains (all.getD (c.1 / s.share) 0)

/-- The epoch stays through a commit (R290). -/
def State.epochKept (s : State) (new : Staged) (e : TableEntry) (ep : Epoch) : Bool :=
  new.tables.any (fun t => t.sameTable e && (s.epochs.all fun x => x.table != e.table || x.st == 0 || decide (x.rows ≤ t.maxRows)))
    && ep.st != 0 && (!new.whole || !s.epochIn e ep (movedFrames s.image.frames new.frames 3 e.part))

/-- Clamp the records of an image that passed its framing (R274, R293). -/
def State.clampImage (s : State) (img : Bytes) (digest : Bytes) : Staged × List Clamp × Nat :=
  let whole := bits (wordAt img 0) 49 48 == 0
  let ip := bits (wordAt img 0) 55 52
  let all := sections img
  let rejected := all.filter fun c => c.failed.isSome
  let whole' (c : Sect) : Clamp := c.clamp 0xFFFFFFFF 0xFFFF ⟨14, 0, c.failed.getD 0, none⟩
  let good := all.filter fun c => c.failed.isNone
  let ofType (t : Nat) : List Sect := good.filter fun c => c.type == t
  let foreign (c : Sect) : Bool := !whole && isSectType c.type && (c.type ≤ 6 || c.part != ip)
  let mine (t : Nat) : List Sect := (ofType t).filter fun c => !foreign c
  let outOf (t : Nat) : List Clamp := ((ofType t).filter foreign).map fun c =>
    c.clamp 0xFFFFFFFF 0xFFFF ⟨8, if c.type ≤ 6 then 16 else 48, if c.type ≤ 6 then c.type else c.part, none⟩
  let pass (t : Nat) (f : List Sect → Building → Building) (b : Building) : Building := b.pass (ofType t) (outOf t) (f (mine t))
  let type0 : Building := { st := Staged.empty whole ip (BitVec.ofNat 64 (wordAt img 3)) (BitVec.ofNat 64 (wordAt img 4)) digest
                            lists := [], out := rejected.map whole' }
  let b : Building := if whole then type0 else
    { type0 with st := { type0.st with
        parts := (List.range 16).filterMap fun p => if (s.part p).defined then some (p, (s.part p).maxBatches) else none
        frames := s.image.frames, grants := s.image.grants, sources := s.image.sources
        pair := some (s.hrv.policy, s.hrv.rank, s.hrv.mask) } }
  let placed (g : Nat) : Bool := s.cells.any fun c => c.logical == some g
  let b := b.report ((ofType 0).map fun c => c.clamp 0xFFFFFFFF 0xFFFF ⟨13, 16, 0, none⟩)
  let b := pass 1 (fun cs => eachRec cs partRec) b
  let claimed := (mine 0xC).flatMap fun c => if b.defined c.part then c.recs.map fun r => (bits (wordAt r 0) 8 0, c.part) else []
  let owner (g : Nat) : Option Nat := if whole then (claimed.find? fun x => x.1 == g).map Prod.snd
    else (s.cells.find? fun c => c.logical == some g).bind (·.part)
  let b := if whole then frameFit s.model (mine 2) (eachRec (mine 2) (frameRec s.model) b) else b.report (outOf 2)
  let b := pass 3 (fun cs b => if whole then regFit s.model cs (eachRec cs (regRec s.model) b) else b) b
  let b := pass 4 (fun cs => eachRec cs sourceRec) b
  let b := pass 5 (fun cs => eachRec cs (grantRec placed owner)) b
  let pairs := (mine 6).flatMap fun c => c.recs.mapIdx fun i r => (c, i, r)
  let b := pass 6 (fun _ b => (pairs.mapIdx fun j x => (j, x)).foldl
    (fun b x => pairRec s.model (x.1 == 0) x.2.1 x.2.2.1 x.2.2.2 b) b) b
  let tg : Targets := { frames := b.st.frames, devFrames := 48 * s.stackCount
                        owners := s.cells.filterMap fun c => c.logical.map fun g => (g, owner g) }
  let b := rangeRecs tg (mine 7) (b.report (outOf 7))
  let taken (t : Nat) : Bool := !whole && s.tables.any fun e => e.table == t && e.part != ip
  let b := pass 8 (fun cs => eachPartRec cs (tableRec s.model taken)) b
  let area (p : Nat) : Nat := s.share * (framesIn b.st.frames 3 p).length
  let kept := s.epochs.filter fun ep => match s.anyTable ep.table with | some e => s.epochKept b.st e ep | none => false
  let clash (e : TableEntry) (ep : Epoch) : Bool := s.overlaps e ep kept
    || (!whole && s.overlaps e ep (s.epochs.filter fun x => (s.anyTable x.table).any fun t => t.part != ip))
  let b := pass 9 (fun cs => eachPartRec cs (epochRec area (fun _ => s.carts.bays.length) s.bayUsable
    (fun t => kept.any fun x => x.table == t) clash)) b
  let under (rs : List Range) : State := { s with ranges := rs }
  let place (rs : List Range) (p a : Nat) : Bool := !a.testBit 63 && addr57 a % 2048 == 0
    && ((under rs).pieces p (addr57 a) 2048).all fun x => x.rng.any fun r => r.kind == 1 && r.write
  let record (rs : List Range) (p a : Nat) : Bool := !a.testBit 63 && ((under rs).unmapped p (addr57 a) 256).isNone
    && (let d := ((under rs).vread .control p (addr57 a) 256).1; !d.marked && recordValid d.bytes)
  let b := pass 0xA (fun cs => eachPartRec cs (ctxRec place record)) b
  let b := pass 0xB (fun cs => eachPartRec cs listRec) b
  let before := b.out
  let b := eachPartRec (mine 0xC) (cellRec tg (b2n whole)) { b with out := outOf 0xC }
  let cellOut := b.out
  let b := pass 0xD (fun cs => eachPartRec cs (streamRec fun rs p a n => ((under rs).refused p a n).isNone)) { b with out := [] }
  let b := pass 0xE (fun cs => eachPartRec cs (groupRec tg)) b
  let b := pass 0xF (fun cs b => chainLinks cs (eachPartRec cs (chainRec tg) b)) b
  let (copies, st) := copyCells (mine 0xC) b
  let b := { b with st, out := before ++ inOrder (ofType 0xC) (cellOut ++ copies) ++ b.out }
  let b := pass 0x10 (fun cs => eachPartRec cs classRec) b
  let unknown := (good.filter fun c => 0x10 < c.type).mergeSort fun x y => x.type ≤ y.type
  let b := b.report (unknown.map fun c => c.clamp 0xFFFFFFFF 0xFFFF ⟨13, 16, c.type, none⟩)
  (b.st, b.out, rejected.length)

end Sys2Proof.Machine
end

