-- ==== Sys2Proof/Machine/Image.lean ====
section
/-! DEFINITION. The image commands (R291 to R298): staging, the commit gate and the apply phase (R290, R292), mirrored in a
pair (R385). -/
namespace Sys2Proof.Machine

/-! ## Staging (R291, R298) -/

/-- The image status area (R298): header and at most 4,094 reports. -/
def statusArea (header : Bytes) (result reports rejected : Nat) (out : List Clamp) : List Word :=
  ([wordAt header 3, wordAt header 4, reports + 2 ^ 32 * rejected,
    bits (wordAt header 0) 49 48 + 2 ^ 4 * bits (wordAt header 0) 55 52 + 2 ^ 8 * result, 0, 0, 0, 0]
    ++ (out.take 4094).flatMap Clamp.words).map (BitVec.ofNat 64)

/-- STAGE ends with a rejected image. -/
def State.stageReject (s : State) (header : Bytes) (result : Nat) : State :=
  s.modImage fun i => { i with
    st := 0, busy := false, result, staged := none, area := statusArea header result 0 0 [] }

/-- The signature checks of R287. -/
def State.signatureOk (s : State) (img : Bytes) : Bool :=
  let b := img.drop (img.length - 128)
  let slot := byteAt b 5
  let be (l : Bytes) : Nat := leNat l.reverse
  bits (wordAt b 0) 31 0 == 0x47495350 && byteAt b 4 == 1 && slot == bits (wordAt img 0) 58 56
    && match s.power.keys.getD slot none with
       | some key => ecdsaVerify key (sha384 (img.take (img.length - 128)))
           (be ((b.drop 16).take 48)) (be ((b.drop 64).take 48))
       | none => false

/-- An image read whole: its header, signature and framing are checked and its records clamped into the staging store. -/
def State.stageBytes (s : State) (img : Bytes) : State :=
  if !headerOk (img.take 128) img.length then s.stageReject (img.take 128) 1 else
  if !s.signatureOk img then s.stageReject (img.take 128) 2 else
  let (st, out, rejected) := s.clampImage img (sha384 (img.take (img.length - 128)))
  s.modImage fun i => { i with
    st := 2, busy := false, result := 0, staged := some st, area := statusArea (img.take 128) 0 out.length rejected out }

/-- Take a command: discarded and LOST while BUSY (R297). -/
def State.imgCommand (s : State) (f : State → State) : State :=
  if s.image.busy then s.modImage fun i => { i with lost := true }
  else f (s.modImage fun i => { i with lost := false, result := 0 })

/-- IMG_STAGE (R291). -/
def execImgStage (s : State) : Host.Outcome State Fault Refusal :=
  .next (s.imgCommand fun s =>
    if s.image.st = 2 then s.modImage fun i => { i with result := 4 }
    else if !lengthOk (s.reg 0x310) then s.stageReject [] 1
    else
      let a := 64 * (s.reg 0x308 / 64)
      let n := s.reg 0x310
      s.modImage fun i => { i with st := 1, busy := true, area := [], stageAddr := a, stageLen := n })

/-! ## Commit (R290, R292) -/

/-- The partitions of a staged image's scope. -/
def Staged.scope (x : Staged) : List Nat := if x.whole then List.range 16 else [x.part]

/-- Step 1 of R292: admission closes on one edge. -/
def State.beginCommit (s : State) : State :=
  match s.image.staged with
  | none => s
  | some x =>
    let now := s.now .control
    let s := x.scope.foldl (fun s p => s.modPart p fun u => { u with committing := true, opened := false }) s
    s.modImage fun i => { i with st := 3, busy := true, closedAt := now, ended := 0, waitPartner := false, applying := false }

/-- The scope holds a mirrored partition and the pair mirrors (R385). -/
def State.pairCommit (s : State) (x : Staged) : Bool := s.hrv.st == 4 && x.scope.any fun p => s.mirrored p

/-- A partner's COMMIT proceeds here once the same image is staged (R385): the answer is COMMAND_DONE. -/
def State.tryPartnerCommit (s : State) : State :=
  match s.hrv.cmds.find? (fun c => c.op == 8 && !c.own), s.image.staged with
  | some c, some x =>
    if s.image.st = 2 ∧ c.data.take 48 = x.digest then
      let s := s.modHrv fun h => { h with cmds := h.cmds.erase c }
      (s.hrvSend 6 0 (2 ^ 63 + 8) []).beginCommit
    else s
  | _, _ => s

/-- STAGE_DONE (R291): the bytes are read with the address and length that STAGE found; a read that fails, meets a poisoned line or link-down gives READ_ERROR. -/
def State.stageDone (s : State) (o : ReadOutcome) : State :=
  if s.image.st ≠ 1 ∨ !s.power.imageReady then s else
  let a := s.image.stageAddr
  let n := s.image.stageLen
  let (h, s) := s.hostRead a 128
  if o = .failed ∨ h.marked then s.stageReject [] 3 else
  if !headerOk h.bytes n then s.stageReject h.bytes 1 else
  let (d, s) := s.hostRead a n
  if d.marked then s.stageReject h.bytes 3 else (s.stageBytes d.bytes).tryPartnerCommit

/-- STAGE_DONE (R291). -/
def execStageDone (readOutcome : ReadOutcome) (s : State) : Host.Outcome State Fault Refusal := .next (s.stageDone readOutcome)

/-- IMG_COMMIT (R292, R385). -/
def execImgCommit (s : State) : Host.Outcome State Fault Refusal :=
  .next (s.imgCommand fun s => match s.image.staged with
    | none => s.modImage fun i => { i with result := 5 }
    | some x =>
      if s.pairCommit x then
        let now := s.now .control
        let c : MirrorCmd := ⟨8, x.part, 0, x.digest, true⟩
        let s := s.modImage fun i => { i with st := 3, busy := true, closedAt := now, waitPartner := true, applying := false }
        (s.modHrv fun h => { h with cmds := h.cmds ++ [c] }).sendCommand c
      else s.beginCommit)

/-- IMG_DISCARD (R296). -/
def execImgDiscard (s : State) : Host.Outcome State Fault Refusal :=
  .next (s.imgCommand fun s => match s.image.staged with
    | none => s.modImage fun i => { i with result := 5 }
    | some _ => s.modImage fun i => { i with st := 0, staged := none })

/-- IMG_CMD_NOP (R296). -/
def execImgCmdNop (_op : Nat) (s : State) : Host.Outcome State Fault Refusal := .next (s.imgCommand id)

/-- The batch holds the epoch boundary (R292): a job of it has not ended, or its replay decision is pending, or its replay is. -/
def Batch.holdsBoundary (b : Batch) : Bool := b.running != [] || b.replayed || (b.replayable && !b.decided && !b.complete)

/-- Ranges of the scope that are not identical in number and all fields (R290). -/
def State.staleRanges (s : State) (x : Staged) : List Range :=
  s.ranges.filter fun r => x.scope.contains r.part && !x.ranges.contains r

/-- EPOCH_BOUNDARY (R292): no earlier batch of the scope is running, and a table-service command of the scope that was in
progress has finished; the apply phase starts with range removal. -/
def State.epochBoundary (s : State) : State :=
  match s.image.staged with
  | none => s
  | some x =>
    if s.image.st ≠ 3 ∨ s.image.applying ∨ s.image.waitPartner ∨ x.scope.any (fun p => (s.part p).resetting || ((s.svc p).busy && (s.svc p).heldCmd.isNone))
      ∨ s.batches.any (fun b => x.scope.contains b.part && b.holdsBoundary) then s else
    let gone := s.staleRanges x
    let keys := gone.map fun r => (r.part, r.idx)
    let s := { s with
      ranges := s.ranges.filter fun r => !gone.contains r
      caches := (s.caches.map fun (c : Agent × List (Nat × Nat)) => (c.1, c.2.filter fun k => !keys.contains k)).filter fun (c : Agent × List (Nat × Nat)) => c.2 != [] }
    s.modImage fun i => { i with applying := true, removing := gone }

/-- EPOCH_BOUNDARY (R292). -/
def execEpochBoundary (s : State) : Host.Outcome State Fault Refusal := .next s.epochBoundary

/-- End every job of a set of partitions with a status: how many there were. -/
def State.endPartJobs (s : State) (ps : List Nat) (status : Nat) : Nat × State :=
  let hs := (s.batches.filter fun b => ps.contains b.part).map (·.handle)
  let mine (j : Job) : Bool := hs.contains j.handle
  let n := (s.cells.map fun c => b2n (c.job.any mine) + b2n (c.susp.any mine) + (c.startQ.filter mine).length).sum
  (n, s.endJobs status mine)

/-- COMMIT_LIMIT (R292): jobs still running are ended; a commit whose partner has not answered goes on alone and the pair
enters MISMATCH (R385). -/
def State.commitLimit (s : State) : State :=
  match s.image.staged with
  | none => s
  | some x =>
    let due := s.image.closedAt + 1000000 * bits (s.reg 0x320) 13 0
    if s.image.st ≠ 3 ∨ s.image.applying ∨ s.now .control < due then s else
    if s.image.waitPartner then
      let s := s.modHrv fun h => { h with st := 7, cmds := h.cmds.filter fun c => !(c.op == 8 && c.own) }
      (s.steward 0x14 ⟨0, 0, 0⟩ 0 0 0 3).beginCommit
    else
      let (n, s) := s.endPartJobs x.scope 3
      s.modImage fun i => { i with ended := min 0xFFFF (i.ended + n) }

/-- COMMIT_LIMIT (R292). -/
def execCommitLimit (s : State) : Host.Outcome State Fault Refusal := .next s.commitLimit

/-! ## The apply phase -/

/-- Forget every epoch of a table that a test picks: bindings released, replicas withdrawn, caches swept, pages written
back (R149, R290). -/
def State.dropEpochs (s : State) (p : Epoch → Bool) : State :=
  (s.epochs.filter p).foldl (fun s e =>
    let s := { s with bindings := s.bindings.filter fun b => !(b.table == e.table && b.epoch == e.no) }
    (s.freeEpoch e.table e.no).sweepNow e.table e.no) s

/-- A frame written zero and cleared of the foxglove bit (R290). -/
def State.zeroFrame (s : State) (f : Nat) : State :=
  { s with
    mem := s.mem.erase 64 (2 ^ 30 * f) (2 ^ 30)
    engines := s.engines.map fun e => { e with mem := { e.mem with wcb := e.mem.wcb.filter fun w => w.granule / 2 ^ 24 != f } } }

/-- The frame map of a WHOLE image (R290). -/
def State.applyFrames (s : State) (x : Staged) : State :=
  let old := if s.image.frames = [] then s.image.lastFrames else s.image.frames
  let fs := ((old ++ x.frames).map Prod.fst).dedup.filter fun f => !frameKeeps old x.frames f
  let s := s.dropCopies fun _ r =>
    let all := framesIn old 4 r.part
    let moved := movedFrames old x.frames 4 r.part
    (chunks s.share r.off r.len).any fun c => moved.contains (all.getD (c.1 / s.share) 0)
  let s := fs.foldl State.zeroFrame s
  s.modImage fun i => { i with frames := x.frames, lastFrames := [] }

/-- Catalogue and contexts of the scope (R236, R290). -/
def State.applyTables (s : State) (x : Staged) : State :=
  let inScope (p : Nat) : Bool := x.scope.contains p
  let s := s.dropEpochs fun ep => match s.anyTable ep.table with
    | some e => inScope e.part && !s.epochKept x e ep
    | none => true
  let new := x.tables.map fun t => match s.tables.find? fun e => t.sameTable e with
    | some e => { t with lastEpoch := e.lastEpoch }
    | none => t
  { s with tables := s.tables.filter (fun e => !inScope e.part) ++ new }

/-- A context that is no longer declared: only its counters are kept (R459). -/
def CmpCtx.forgotten (c : CmpCtx) : CmpCtx :=
  { CmpCtx.absent c.part c.ctx with
    cntWait := c.cntWait, cntRawIn := c.cntRawIn, cntCoded := c.cntCoded, cntRaw := c.cntRaw, cntErr := c.cntErr, cntOver := c.cntOver }

/-- The contexts of the scope: one whose entry is identical to that in force, its INIT_ADDR as the image has it, keeps its generations
and counts (R236). -/
def State.applyContexts (s : State) (x : Staged) : State :=
  let inScope (p : Nat) : Bool := x.scope.contains p
  let same (a b : CmpCtx) : Bool := a.part == b.part && a.ctx == b.ctx && a.enabled == b.enabled && a.policy == b.policy
    && a.tableAddr == b.tableAddr && a.initAddr == b.initAddr && a.initStored == b.initStored
  let fresh := x.ctxs.filter fun c => !s.cmp.any (same c)
  let kept := s.cmp.filter fun c => !inScope c.part || x.ctxs.any (same c)
  let counted (c : CmpCtx) : CmpCtx := match s.cmpCtx c.part c.ctx with
    | some o => { c with cntWait := o.cntWait, cntRawIn := o.cntRawIn, cntCoded := o.cntCoded, cntRaw := o.cntRaw
                         cntErr := o.cntErr, cntOver := o.cntOver }
    | none => c
  let lone := s.cmp.filter fun c => inScope c.part && !(x.ctxs.any fun y => y.part == c.part && y.ctx == c.ctx)
  let s := { s with cmp := kept ++ fresh.map counted ++ lone.map CmpCtx.forgotten }
  fresh.foldl (fun s c =>
    if c.initAddr = 0 ∨ !c.initOk ∨ (s.unmapped c.part (addr57 c.initAddr) 256).isSome then s else
    let (d, s) := s.vread .control c.part (addr57 c.initAddr) 256
    if d.marked ∨ !recordValid d.bytes then s
    else s.install c.part c.ctx 0 (unpackLengths (d.bytes.drop 16)) c.initStored) s

/-- What a cell loads where no record of the image names it: a list of one END (R281, R293). -/
def CellImage.none : CellImage := { CellImage.fresh with steps := [0x0F] }

/-- A slot loaded empty with its role; its counters stay. -/
def Slot.reload (x : Slot) (role : Nat) : Slot :=
  { Slot.fresh role with cntBytes := x.cntBytes, cntBlocks := x.cntBlocks, cntReread := x.cntReread, cntDrops := x.cntDrops
                         cntSkips := x.cntSkips, lastSkip := x.lastSkip }

/-- A cell loads its step list and bindings (R290): contexts fresh, slots and top-k state empty; one that changes partition
is cleared (R76). -/
def Cell.load (c : Cell) (part : Option Nat) (img : CellImage) (credits : List Nat) (lc be : List Nat) : Cell :=
  let ctx := Ctx.fresh img.depths credits
  let c := if c.part = part then c else { c with scratch := .empty, readBuf := [], written := [], markers := 0, rstored := [] }
  { c with
    part, img, lc := ctx, be := ctx, job := .none, susp := .none, startQ := [], held := .none, comp := .fresh, open_ := []
    pend := .fresh
    port := { c.port with slots := c.port.slots.mapIdx fun n x => x.reload (img.roles.getD n 0), splitLc := lc, splitBe := be } }

/-- Blocks in flight of cells that load anew leave QUEUED (R232). -/
def State.dropBlocks (s : State) (cs : List Cell) : State :=
  cs.foldl (fun s c => c.port.slots.foldl (fun s y => s.unqueue (c.part.getD 0) y.blocks) s) s

/-- Cells of the scope (R290). -/
def State.applyCells (s : State) (x : Staged) : State :=
  let staged (g : Nat) : Option StagedCell := x.cells.find? fun y => y.g == g
  let image (g : Nat) : CellImage := match staged g with
    | some y => y.img
    | none => if x.whole then .fresh else .none
  let depth (g q : Nat) : Nat := match staged g with
    | some y => y.img.depths.getD q 64
    | none => match s.posOf g with | some i => (s.cell i).img.depths.getD q 64 | none => 64
  let inScope (c : Cell) : Bool := c.logical.isSome && (x.whole || c.part == some x.part)
  let gs := s.cells.filterMap fun c => if inScope c then c.logical else none
  let s := s.dropBlocks (s.cells.filter inScope)
  { s with
    cells := s.cells.map fun c => if !inScope c then c else
      let g := c.logical.getD 0
      let part := if x.whole then (staged g).map (·.part) else c.part
      let img := image g
      let credits := img.binds.map fun b => match b with | some (h, q) => depth h q | none => 0
      let (lc, be) := match x.classes.find? fun u => some u.1 == part with
        | some (_, _, _, lc, be) => (lc, be)
        | none => ([50, 25, 25], [40, 30, 30])
      c.load part img credits lc be
    tokens := s.tokens.filter fun t => !gs.contains t.1
    credits := s.credits.filter fun r => match r with
      | .counter g _ _ => !gs.contains g
      | .mcast g _ _ => !gs.contains g
      | .ring g _ _ => !gs.contains g }

/-- Regulators of a WHOLE image (R209, R211): buckets are full at commit. -/
def State.applyRegulators (s : State) (x : Staged) : State :=
  x.regulators.foldl (fun s r =>
    let now := s.now (.rowEngine r.1)
    s.modStack r.1 fun m => { m with regs := m.regs.modify r.2.1 fun u =>
      { u with weight := r.2.2.1, share := r.2.2.2.1, burst := r.2.2.2.2, tokens := 1024 * r.2.2.2.2, at_ := now, held := 0 } }) s

/-- Update sources of a WHOLE image: one that is not assigned as before is released at every engine (R130, R279). -/
def State.applySources (s : State) (x : Staged) : State :=
  let old := s.image.sources
  let keeps (n : Nat) : Bool := old.any fun a => a.1 == n && x.sources.contains a
  let s : State := { s with engines := s.engines.map fun (e : Engine) => { e with srcs := e.srcs.filter (fun r => keeps r.src) } }
  s.modImage fun i => { i with sources := x.sources }

/-- The pair policy of a WHOLE image (R280, R380): a MISMATCH compares identities again (R381). -/
def State.applyPair (s : State) (pair : Option (Bool × Nat × Nat)) : State :=
  match pair with
  | none => s.modHrv fun h => { h with policy := false, rank := 0, mask := 0, st := 0 }
  | some (false, rank, mask) => s.modHrv fun h => { h with policy := false, rank, mask, st := 0 }
  | some (true, rank, mask) => s.modHrv fun h =>
    let st := if !h.enable then 0 else if !h.lanes.any id then 1 else if h.st ≤ 1 ∨ h.st = 7 then 2 else h.st
    { h with policy := true, rank, mask, st, helloSeen := if st = 2 then false else h.helloSeen }

/-- Admission of a partition as the switches leave it (R33, R303, R382, R391, R407, R422, R457). -/
def State.mayOpen (s : State) (p : Nat) : Bool :=
  let u := s.part p
  u.defined && !u.drained && !u.resetting && !u.committing && s.health.fatal == 0 && !s.power.resetting && !s.power.suspectHold
    && !(s.mirrored p && (s.hrv.st == 6 || (s.hrv.st == 3 && !s.hrv.source)))

def State.reopen (s : State) (p : Nat) : State :=
  let o := s.mayOpen p
  s.modPart p fun u => { u with opened := o }

/-- Partitions and classes of the scope (R278, R280). -/
def State.applyParts (s : State) (x : Staged) : State :=
  let s := if !x.whole then s else (List.range 16).foldl (fun s p =>
    match x.parts.find? fun u => u.1 == p with
    | some (_, n) => s.modPart p fun u => { u with defined := true, maxBatches := n }
    | none => s.modPart p fun u => { u with defined := false, maxBatches := 1, opened := false }) s
  x.scope.foldl (fun s p => s.modPart p fun u => match x.classes.find? fun c => c.1 == p with
    | some (_, slice, target, _, _) => { u with sliceUs := slice, lcTarget := some target }
    | none => { u with sliceUs := 20, lcTarget := none }) s

/-- Stream lists (R284) and initial epochs (R285). -/
def State.applyData (s : State) (x : Staged) : State :=
  let s := x.lists.foldl (fun s l => s.vwrite .control l.1 (addr57 l.2.1) (Data.clean l.2.2)) s
  x.epochs.foldl (fun (s : State) e =>
    match s.anyTable e.2.1.table with
    | none => s
    | some t =>
      if s.epochs.any fun ep => ep.table == t.table then s else
      let s := { s with
        epochs := s.epochs ++ [e.2.1]
        tables := modWhere s.tables (fun y => y.table == t.table) fun y => { y with lastEpoch := max 1 y.lastEpoch } }
      (List.range e.2.1.res).foldl (fun s row =>
        let k := t.home (some e.2.1) row
        let off := t.rowOff e.2.1 row
        (s.areaUnmark 3 t.part k off t.len).areaWrite 3 t.part k off
          (Data.clean ((e.2.2.drop (row * t.len)).take t.len))) s) s

/-- The measurements and serials of a commit (R289, R297). -/
def State.applyMeasure (s : State) (x : Staged) : State :=
  s.modImage fun i =>
    if x.whole then { i with
      serial := x.serial, pserial := List.replicate 16 0
      measure := x.digest :: List.replicate 16 (List.replicate 48 0), measureSerial := x.serial :: List.replicate 16 0 }
    else { i with
      pserial := i.pserial.set x.part x.serial, measure := i.measure.set (x.part + 1) x.digest
      measureSerial := i.measureSerial.set (x.part + 1) x.serial }

/-- The apply phase in the order of R292. -/
def State.applyImage (s : State) (x : Staged) : State :=
  let inScope (p : Nat) : Bool := x.scope.contains p
  let s := s.image.removing.foldl (fun s r => s.modXlt r.part fun u => { u with cntInval := u.cntInval + 1 }) s
  let s := s.dropEpochs fun ep => match s.anyTable ep.table with
    | some e => inScope e.part && !s.epochKept x e ep
    | none => true
  let s := if x.whole then s.applyFrames x else s
  let s := { s with ranges := s.ranges ++ x.ranges.filter fun r => !s.ranges.contains r }
  let s := (s.applyTables x).applyContexts x
  let s := (s.applyCells x).modImage fun i => { i with
    groups := i.groups.filter (fun u => !inScope u.part) ++ x.groups
    chains := i.chains.filter (fun u => !inScope u.part) ++ x.chains
    committed := i.committed.filter (fun r => !inScope r.part) ++ x.ranges }
  let s := if x.whole then ((s.applyRegulators x).applySources x).modImage fun i => { i with grants := x.grants } else s
  let s := (s.applyParts x).applyData x
  let s := if x.whole then s.applyPair x.pair
    else s.applyPair (some (s.hrv.policy, s.hrv.rank, s.hrv.mask))
  s.applyMeasure x

/-- APPLY_DONE (R292): no access through a removed range is in flight; admission reopens and the staging store is
emptied. -/
def State.applyDone (s : State) : State :=
  match s.image.staged with
  | none => s
  | some x =>
    if s.image.st ≠ 3 ∨ !s.image.applying
      ∨ s.image.removing.any (fun r => (s.rangeAgents r.part).any fun a => s.rangeInUse a r) then s else
    let s := s.applyImage x
    let s := s.modImage fun i => { i with st := 0, busy := false, applying := false, staged := none, removing := [], result := 0 }
    x.scope.foldl (fun s p => ((s.modPart p fun u => { u with committing := false }).reopen p).releaseHeld p) s

/-- APPLY_DONE (R292). -/
def execApplyDone (s : State) : Host.Outcome State Fault Refusal := .next s.applyDone

end Sys2Proof.Machine
end

