-- ==== Sys2Proof/Machine/Drain.lean ====
section
/-! DEFINITION. The drain switch (R33, R35): drain commands and the return to service. -/
namespace Sys2Proof.Machine

/-- A cell is taken out of service at its next layer boundary, at once while it has no job (R33, R65, R317); one that is being moved
or tested in place keeps the drain until then. -/
def State.drainCell (s : State) (i : Nat) : State :=
  s.modCell i fun c =>
    if c.st = 4 ∨ c.logical.isNone then c
    else if c.st = 0 ∧ c.job.isNone ∧ c.susp.isNone then { c with st := 4 }
    else { c with pend := { c.pend with drain := true } }

/-- A drain command (R33, R35, R390): a partition's or the module's admission closes at once; a module drained on command
says GOODBYE with reason DRAIN to its partner and ends the jobs of mirrored partitions without records. -/
def State.drain (s : State) (t : Target) : State :=
  match t with
  | .cell g => match s.posOf g with
    | some i => s.drainCell i
    | none => s
  | .partition n => if n < 16 then s.closePart n else s
  | .whole =>
    let paired := s.hrv.st = 4
    let s := if paired then (s.hrvSend 0xB 2 2 []).dropBatches fun b => s.mirrored b.part else s
    (((List.range 16).foldl State.closePart s).modHealth fun h => { h with wholeDrain := true }).finishDrain

/-- DRAIN_COMMAND (R33). -/
def execDrainCommand (target : Target) (s : State) : Host.Outcome State Fault Refusal := .next (s.drain target)

/-- A drained cell serves again. -/
def Cell.undrain (c : Cell) : Cell := { c with st := if c.st = 4 then 0 else c.st, pend := { c.pend with drain := false } }

/-- A drained partition reopens (R35). -/
def State.undrainPart (s : State) (p : Nat) : State := (s.modPart p fun u => { u with drained := false }).reopen p

/-- What a drain took out of service returns (R35). -/
def State.undrain (s : State) (t : Target) : State :=
  match t with
  | .cell g => match s.posOf g with
    | some i => s.modCell i Cell.undrain
    | none => s
  | .partition n => s.undrainPart n
  | .whole =>
    let s : State := { s with
      cells := s.cells.map Cell.undrain, engines := s.engines.map fun e => if e.st = 2 then { e with st := 1 } else e }
    let s := s.modHealth fun h => { h with wholeDrain := false, draining := false, drainedAll := false }
    (List.range 16).foldl State.undrainPart s

/-- RETURN_TO_SERVICE (R35). -/
def execReturnToService (target : Target) (s : State) : Host.Outcome State Fault Refusal := .next (s.undrain target)

end Sys2Proof.Machine
end

