-- ==== Sys2Proof/Machine/Host.lean ====
section
/-! DEFINITION. Host accesses: BAR2 and its read buffer (R327 to R331), PART_FLUSH (R347), the mailbox (R340 to R343) and
snoops (R332). A function is 0 for the physical one and n + 1 for virtual function n. -/
namespace Sys2Proof.Machine

/-- The host uses function fn: a virtual function exists once SR-IOV is enabled, which the table has no row for. -/
def State.useFn (s : State) (fn : Nat) : State := if fn = 0 then s else s.modHif fun h => { h with sriov := true }

/-! ## BAR2 -/

/-- A piece of a BAR2 access (R199, R329): address, length, and its target (kind, address, partition charged) where it
reaches storage. -/
structure Bar2Piece where
  a : Nat
  n : Nat
  tgt : Option (Nat × Nat × Option Nat)
  deriving DecidableEq, Repr

/-- Cut a BAR2 access of a function. -/
def State.bar2Pieces (s : State) (fn a n : Nat) : List Bar2Piece :=
  if fn = 0 then
    (chunks (2 ^ 30) a n).map fun c =>
      let k := (s.frame (c.1 / 2 ^ 30)).1
      ⟨c.1, c.2, if c.1 < s.devEnd ∧ (k = 1 ∨ k = 2) then some (1, c.1, s.ownerOf c.1) else none⟩
  else
    (s.pieces (fn - 1) a n).map fun c =>
      ⟨c.va, c.len, match c.rng with
        | some r => if r.kind ≠ 3 ∧ r.write then some (r.kind, r.target c.va, some (fn - 1)) else none
        | none => none⟩

/-- The storage behind a BAR2 extent; other bytes read zero. -/
def State.bar2Fetch (s : State) (fn a n : Nat) : Data × State :=
  (s.bar2Pieces fn a n).foldl (fun (d, s) c =>
    match c.tgt with
    | some (1, t, p) => let (x, s) := s.devRead p t c.n; (d ++ x, s)
    | some (_, t, _) => (d ++ (chunks scratchSize (t - 0x100000000000) c.n).flatMap fun x =>
        s.windowRead (x.1 / scratchSize) (x.1 % scratchSize) x.2, s)
    | none => (d ++ Data.clean (zeros c.n), s)) (([] : Data), s)

/-- An access with a part that reads zero and discards writes is counted once (R329, R351). -/
def State.bar2Count (s : State) (fn a n : Nat) : State :=
  if (s.bar2Pieces fn a n).any fun c => c.tgt.isNone then s.modHif fun h => { h with cntUnmapped := h.cntUnmapped + 1 } else s

/-- The read buffer of a function. -/
def State.bar2Buf (s : State) (fn : Nat) : List RbEntry := ((s.hif.bufs.find? fun e => e.1 == fn).map Prod.snd).getD []
def State.setBuf (s : State) (fn : Nat) (l : List RbEntry) : State :=
  s.modHif fun h => { h with bufs := h.bufs.filter (fun e => e.1 != fn) ++ (if l = [] then [] else [(fn, l)]) }

/-- Fill a block of the read buffer (R331): it goes first, and the least recently used of more than 32 leaves. -/
def State.bar2Fill (s : State) (fn b : Nat) : State :=
  let (d, s) : Data × State := s.bar2Fetch fn (256 * b) 256
  let e : RbEntry := ⟨b, s.now .host, d.bytes, poisonMask d⟩
  s.setBuf fn ((e :: (s.bar2Buf fn).filter fun x => x.block != b).take 32)

/-- Serve bytes of one block: from an entry at most 10 µs old, else after a fill and a prefetch of the next block. -/
def State.bar2Block (s : State) (fn b o n : Nat) : Data × State :=
  let now := s.now .host
  let give (e : RbEntry) : Data := ((e.data.mapIdx fun i x => (x, e.marks.testBit (i / 64))).drop o).take n
  match (s.bar2Buf fn).find? fun e => e.block == b && now ≤ e.fill + 10000 with
  | some e => (give e, s.setBuf fn (e :: (s.bar2Buf fn).filter fun x => x.block != b))
  | none =>
    let s := s.bar2Fill fn b
    let d := match (s.bar2Buf fn).head? with | some e => give e | none => []
    (d, s.bar2Fill fn (b + 1))

/-- BAR2_READ: the answer is a poisoned TLP where a granule read is marked (R215, R329, R331). -/
def State.bar2Read (s : State) (fn a n : Nat) : State :=
  let s := (s.useFn fn).bar2Count fn a n
  let (d, s) : Data × State := (chunks 256 a n).foldl (fun (d, s) c =>
    let (x, s) := s.bar2Block fn (c.1 / 256) (c.1 % 256) c.2
    (d ++ x, s)) (([] : Data), s)
  s.modHif fun h => { h with readData := d.bytes, readMarked := d.marked }

/-- BAR2_READ (R331). -/
def execBar2Read (fn addr len : Nat) (s : State) : Host.Outcome State Fault Refusal := .next (s.bar2Read fn addr len)

/-- Bytes that a BAR2 write stored enter a buffered block (R331); a granule written whole loses its mark. -/
def RbEntry.splice (e : RbEntry) (a : Nat) (d : Bytes) (poisoned : Bool) : RbEntry :=
  let lo := max a (256 * e.block)
  let hi := min (a + d.length) (256 * e.block + 256)
  if hi ≤ lo then e else
  let o := lo - 256 * e.block
  { e with
    data := e.data.take o ++ (d.drop (lo - a)).take (hi - lo) ++ e.data.drop (o + (hi - lo))
    marks := ((List.range 4).map fun g =>
      if (e.marks.testBit g && !(o ≤ 64 * g && 64 * g + 64 ≤ o + (hi - lo))) || (poisoned && o < 64 * g + 64 && 64 * g < o + (hi - lo))
      then 2 ^ g else 0).sum }

/-- BAR2_WRITE (R329 to R331, R386); a poisoned TLP marks the granules it writes (R215). -/
def State.bar2Write (s : State) (fn a : Nat) (data : Bytes) (poisoned : Bool) : State :=
  let s := (s.useFn fn).bar2Count fn a data.length
  (s.bar2Pieces fn a data.length).foldl (fun s c =>
    let d := (data.drop (c.a - a)).take c.n
    match c.tgt with
    | none => s
    | some (k, t, p) =>
      let s := if k = 1 then s.devWrite p t (Data.mark poisoned d) else
        (chunks scratchSize (t - 0x100000000000) c.n).foldl (fun s x =>
          s.windowWrite (x.1 / scratchSize) (x.1 % scratchSize)
            (Data.mark poisoned ((d.drop (x.1 - (t - 0x100000000000))).take x.2))) s
      (s.setBuf fn ((s.bar2Buf fn).map fun e => e.splice c.a d poisoned)).mirrorWrite k t c.n) s

/-- BAR2_WRITE (R330): bit 63 of the operand is the transfer's EP bit (R215). -/
def execBar2Write (fn addr : Nat) (data : Bytes) (s : State) : Host.Outcome State Fault Refusal :=
  .next (s.bar2Write fn (addr % 2 ^ 63) data (addr.testBit 63))

/-- PART_FLUSH (R347): the function's read buffer is emptied and every stack drained before the answer, the host function's
MTIME; a virtual function reaches only its own partition's. -/
def State.partFlush (s : State) (fn p : Nat) : State :=
  if 16 ≤ p ∨ (fn ≠ 0 ∧ fn ≠ p + 1) then s else
  let s := ((s.useFn fn).setBuf fn []).drainAll
  s.answerRead (s.now .host)

/-- PART_FLUSH (R347). -/
def execPartFlush (fn p : Nat) (s : State) : Host.Outcome State Fault Refusal := .next (s.partFlush fn p)

/-- SNOOP: a store of the host to its own memory invalidates the lines held (R332). -/
def execSnoop (addr : Nat) (data : Bytes) (s : State) : Host.Outcome State Fault Refusal :=
  .next (s.hostStore addr (Data.clean data))

/-! ## Mailbox -/

/-- The owner of a slot in MBX_OWNER (R351). -/
def State.mbxOwner (s : State) (k : Nat) : Nat := bits (s.reg (0x200010 + 8 * (k / 16))) (4 * (k % 16) + 3) (4 * (k % 16))
def State.mbx (s : State) (k : Nat) : MbxSlot := s.hif.slots.getD k .fresh
def State.modMbx (s : State) (k : Nat) (f : MbxSlot → MbxSlot) : State :=
  s.modHif fun h => { h with slots := h.slots.modify k f }

/-- The function reaches the slot (R328, R340). -/
def State.mbxReach (s : State) (fn k : Nat) : Bool := fn == 0 || s.mbxOwner k + 1 == fn

/-- MBX_SLOT_WRITE (R340): bytes into slots that the device owns, or that the function does not reach, are discarded. -/
def State.mbxSlotWrite (s : State) (fn off : Nat) (data : Bytes) : State :=
  (chunks 256 off data.length).foldl (fun s c =>
    let k := c.1 / 256
    if 64 ≤ k ∨ (s.mbx k).device ∨ !s.mbxReach fn k then s else
    let d := (data.drop (c.1 - off)).take c.2
    s.modMbx k fun x => { x with data := x.data.take (c.1 % 256) ++ d ++ x.data.drop (c.1 % 256 + c.2) }) (s.useFn fn)

/-- MBX_SLOT_WRITE (R340). -/
def execMbxSlotWrite (fn off : Nat) (data : Bytes) (s : State) : Host.Outcome State Fault Refusal :=
  .next (s.mbxSlotWrite fn off data)

/-- The descriptor of a SUBMIT (R342). -/
def MbxSlot.desc (x : MbxSlot) : Bytes := (x.data.drop 32).take 128

/-- A doorbell that names slot k (R340 to R342). -/
def State.doorbell (s : State) (fn k : Nat) : State :=
  if (s.mbx k).device ∨ !s.mbxReach fn k ∨ !s.mbxOn then s.modHif fun h => { h with cntDbLost := h.cntDbLost + 1 } else
  let p := s.mbxOwner k
  let s := (s.modMbx k fun x => { x with device := true, rung := true, handle := none, reply := none }).modHif fun h =>
    { h with cntReq := h.cntReq + 1 }
  if byteAt (s.mbx k).data 0 = 1 then
    s.modPart p fun u => { u with waits := u.waits ++ [⟨2, k, 0, .lc, (s.mbx k).desc, u.lcTail⟩] }
  else s

/-- MBX_DOORBELL (R341): a write that covers only part of the register is discarded and counted. -/
def State.mbxDoorbell (s : State) (fn off : Nat) (data : Bytes) : State :=
  let s := s.useFn fn
  if 0x8004 ≤ off ∨ off + data.length ≤ 0x8000 then s else
  if 0x8000 < off ∨ off + data.length < 0x8004 then s.modHif fun h => { h with cntDbLost := h.cntDbLost + 1 } else
  s.doorbell fn (byteAt data (0x8000 - off) % 64)

/-- MBX_DOORBELL (R341). -/
def execMbxDoorbell (fn off : Nat) (data : Bytes) (s : State) : Host.Outcome State Fault Refusal :=
  .next (s.mbxDoorbell fn off data)

/-- MBX_SUBMIT (R342): the slot's descriptor is admitted when it is the next LC submission of its partition. -/
def State.mbxSubmit (s : State) (k : Nat) : State :=
  match (List.range 16).find? fun p => (s.part p).waits.any fun w => w.path == 2 && w.arg == k with
  | none => s
  | some p =>
    match s.nextSub p .lc with
    | some (some w) => if w.path = 2 ∧ w.arg = k
        then (s.modMbx k fun x => { x with rung := !((s.admitClass p .lc (some w)).part p).waits.all (· != w) }).admitClass p .lc
          (some w)
        else s
    | _ => s

/-- MBX_SUBMIT (R342). -/
def execMbxSubmit (slot : Nat) (s : State) : Host.Outcome State Fault Refusal := .next (s.mbxSubmit slot)

/-- The reply of slot k (R343): 64 bytes of record, the result bytes, STATUS, DONE and SEQ. -/
def mbxReply (x : MbxSlot) (rec result : Bytes) (status : Nat) : Bytes :=
  let pad (n : Nat) (b : Bytes) : Bytes := (b ++ zeros n).take n
  pad 64 rec ++ pad 160 result ++ zeros 24 ++ leBytes 1 status ++ leBytes 1 1 ++ zeros 2 ++ (x.data.drop 4).take 4

/-- Write a reply, DONE last, raise the vectors and give the slot back to the host (R340, R343, R348). -/
def State.sendReply (s : State) (k p : Nat) (b : Bytes) : State :=
  let vf := 4096 * (s.reg (vfMbxBase p) / 4096)
  let base := if vf ≠ 0 then vf else 4096 * (s.reg 0x200008 / 4096)
  let s := ((s.hostWrite (base + 256 * k) (Data.clean b)).modMbx k fun x =>
    { x with device := false, rung := false, handle := none, reply := none }).raise 16
  if s.hif.sriov then s.raise (32 * (p + 1) + 1) else s

/-- RESULT_LEN (R342). -/
def MbxSlot.resultLen (x : MbxSlot) : Nat := min 160 (leNat ((x.data.drop 16).take 2))

/-- A request other than SUBMIT can be answered now. -/
def State.mbxAnswers (s : State) (k op : Nat) : Bool :=
  let x := s.mbx k
  s.hif.up && s.mbxOn && x.device && x.rung && byteAt x.data 0 == op

/-- MBX_ECHO (R343). -/
def State.mbxEcho (s : State) (k : Nat) : State :=
  let x := s.mbx k
  if !s.mbxAnswers k 2 then s else s.sendReply k (s.mbxOwner k) (mbxReply x [] ((x.desc).take (min 128 x.resultLen)) 0)

/-- MBX_ECHO (R343). -/
def execMbxEcho (slot : Nat) (s : State) : Host.Outcome State Fault Refusal := .next (s.mbxEcho slot)

/-- MBX_BAD_OP (R343). -/
def execMbxBadOp (slot : Nat) (s : State) : Host.Outcome State Fault Refusal :=
  let x := s.mbx slot
  let op := byteAt x.data 0
  .next (if op = 1 ∨ op = 2 ∨ !s.mbxAnswers slot op then s else s.sendReply slot (s.mbxOwner slot) (mbxReply x [] [] 1))

/-- MAILBOX_REPLY (R343): the result area is read, the reply written, and the batch leaves flight. -/
def State.mailboxReply (s : State) (k : Nat) : State :=
  let x := s.mbx k
  match x.reply with
  | none => s
  | some rec =>
    if !s.hif.up ∨ !s.mbxOn ∨ !x.device then s else
    let b := x.handle.bind s.batch
    let p := match b with | some b => b.part | none => s.mbxOwner k
    let a := addr57 (wordAt x.data 1)
    let n := x.resultLen
    let ((d, status), s) : (Bytes × Nat) × State :=
      if a = 0 ∨ n = 0 then (([], 0), s) else
      if (s.unmapped p a n).isSome then (([], 2), s) else
      let (d, s) := s.vread .control p a n
      (if d.marked then ([], 2) else (d.bytes, 0), s)
    let s := s.sendReply k p (mbxReply x rec d status)
    match b with
    | some b => s.leave b
    | none => s

/-- MAILBOX_REPLY (R343). -/
def execMailboxReply (slot : Nat) (s : State) : Host.Outcome State Fault Refusal := .next (s.mailboxReply slot)

end Sys2Proof.Machine
end

