-- ==== Sys2Proof/Machine/Remote.lean ====
section
/-! DEFINITION. Remote steps beside the streams: GATH, RADD, RWR (R107), RSTORE (R179), HLD and HST (R334) with the ends of
their transfers. -/
namespace Sys2Proof.Machine

/-- The tile register that the header of a request names as it stands now, where it can be read (R112, R115). -/
def State.tileAsked (s : State) (d : Nat) (r : Request) : Option Nat :=
  if addr57 r.addr % 64 ≠ 0 ∨ (s.wordUnmapped r.part r.addr 64).isSome then none else
  let h := (s.reqRead d r r.addr 64).1
  let r := { r with words := leList 8 8 h.bytes }
  if !h.marked ∧ r.destTile then some r.td else none

/-- Hand a request to the front end of the cell's die (R107): its lists in the scratchpad are read as they stand at this
step (R59). `op` is 1 GATHER, 2 ADD, 3 WRITE. The tile register of a DEST_TILE gather holds free bytes from this step to the pop of
its token (R118). -/
def State.request (s : State) (i p op : Nat) (w : StepWord) : State :=
  let c := s.cell i
  let g := c.logical.getD 0
  let (id, s) := s.newId
  let s := s.openAsync i ⟨id, 0x7F + op, qOf w, c.cls, 0, 0, 0, [], 0⟩
  let r : Request :=
    { id, g, cls := c.cls, q := qOf w, op, addr := addrWord w (c.cur.sa w) 0, part := p, reply := none, mirror := none
      view := c.cur.viewStamp, snap := c.scratch, words := [], idx := [], bags := [], rows := [], bad := 0 }
  let s := s.modDie (dieOfPos i) fun d => { d with queue := d.queue ++ [r] }
  match s.tileAsked (dieOfPos i) r with
  | some td => s.holdTile i id td
  | none => s

/-- GATH (R107). -/
def execGath (g : Nat) (w : StepWord) (s : State) : Host.Outcome State Fault Refusal :=
  .next (s.issue 0x80 g w fun i p s => s.request i p 1 w)
/-- RADD (R126). -/
def execRadd (g : Nat) (w : StepWord) (s : State) : Host.Outcome State Fault Refusal :=
  .next (s.issue 0x81 g w fun i p s => s.request i p 2 w)
/-- RWR (R126). -/
def execRwr (g : Nat) (w : StepWord) (s : State) : Host.Outcome State Fault Refusal :=
  .next (s.issue 0x82 g w fun i p s => s.request i p 3 w)

/-- Length of RSTORE: 16 bytes to 64 KiB in multiples of 16 (R69). -/
def rstoreLen (w : StepWord) : Nat := max 16 (min 65536 (imm32Of w / 16 * 16))

/-- RSTORE (R179, R251): checked at issue (of several refusals the first of source alignment, destination alignment, source unmapped,
destination unmapped, read-only is raised: DESIGN CHOICE, log entry 49), moved as one block; here it lands at once, behind every earlier one (DESIGN CHOICE, log entry
50), and posts its completion. A final one releases what the job's RSTOREs have written at DEVICE scope. -/
def State.rstore (s : State) (i p : Nat) (w : StepWord) : State :=
  let c := s.cell i
  let g := c.logical.getD 0
  let n := rstoreLen w
  let src := addrWord w (c.cur.sa w) 0
  let dst := addr57 (c.cur.sb w)
  if addr57 src % 16 ≠ 0 then s.cellFault i 3 (addr57 src) 0 0 none else
  if dst % 16 ≠ 0 then s.cellFault i 3 dst 0 0 none else
  match s.wordUnmapped p src n, s.unmapped p dst n, s.readOnly p dst n with
  | some a, _, _ => s.xltFault i p 1 a 0 w
  | none, some a, _ => (s.countXltFault p).cellFault i 1 a 0 0 none
  | none, none, some a => (s.countXltFault p).cellFault i 2 a 0 0 none
  | none, none, none =>
    let kind := s.blockKind i i p false { parseEntry 0 [] with src, dst, len := n }
    let (d, s) := s.wordRead (.cell g) i p src n
    let s := if flagOf w 0 then c.rstored.foldl State.drainStack s else s
    let s := (s.portBytes i c.cls kind n (markedGranules (addr57 src) d)).writePieces i p dst [(0, d)]
    let s := s.modCell i fun c => { c with rstored := (c.rstored ++ s.vstacks p dst n).dedup }
    s.complete g (qOf w) c.cls (.cell g) 0 0

/-- RSTORE (R179). -/
def execRstore (g : Nat) (w : StepWord) (s : State) : Host.Outcome State Fault Refusal :=
  .next (s.issue 0x86 g w fun i p s => s.rstore i p w)

/-! ## HLD and HST -/

/-- Length of HLD and HST: 64 to 4,096 bytes in multiples of 64 (R69). -/
def hostLen (w : StepWord) : Nat := max 64 (min 4096 (imm32Of w / 64 * 64))

/-- The extent lies in the window of a grant of the cell (R334). -/
def State.inWindow (s : State) (g a n : Nat) : Bool :=
  (List.range 8).any fun k =>
    let lo := s.reg (0x100108 + 0x20 * k) / 64
    let hi := s.reg (0x100110 + 0x20 * k) / 64
    s.image.grants[k]? == some g && !(lo == 0 && hi == 0) && decide (64 * lo ≤ a ∧ a + n ≤ 64 * (hi + 1))

/-- HLD or HST at issue (R334): an extent outside the window moves nothing; HST takes its source data now (R59). -/
def State.hostStep (s : State) (i kind : Nat) (w : StepWord) : State :=
  let c := s.cell i
  let g := c.logical.getD 0
  let off := addr57 (c.cur.sa w)
  let a := c.cur.sb w
  let n := hostLen w
  if scratchSize < off + n then s.cellFault i 1 (max off scratchSize) 0 0 none else
  if !s.inWindow g a n then s.complete g (qOf w) c.cls (.cell g) 1 0 else
  let (id, s) := s.newId
  s.openAsync i ⟨id, kind, qOf w, c.cls, if kind = 0x90 then a else off, if kind = 0x90 then off else a, n,
    if kind = 0x90 then [] else c.scratch.read 64 off n, s.now .host⟩

/-- HLD (R334). -/
def execHld (g : Nat) (w : StepWord) (s : State) : Host.Outcome State Fault Refusal :=
  .next (s.issue 0x90 g w fun i _ s => s.hostStep i 0x90 w)
/-- HST (R334). -/
def execHst (g : Nat) (w : StepWord) (s : State) : Host.Outcome State Fault Refusal :=
  .next (s.issue 0x91 g w fun i _ s => s.hostStep i 0x91 w)

/-- A transfer ends with a status (R334). After HOST_LOST or HOST_ERROR an HLD leaves free bytes, and of an HST any part
is written. -/
def State.endTransfer (s : State) (i status : Nat) (o : AsyncOp) : State :=
  let g := (s.cell i).logical.getD 0
  let s : State :=
    if o.kind = 0x90 then
      if status = 0 then let (d, s) := s.hostRead o.src o.len; s.scratchWrite i o.dst d
      else let (b, s) := s.drawBytes o.len; s.scratchWrite i o.dst (Data.clean b)
    else if status = 0 then s.hostStore o.dst o.data
    else
      let (m, s) := s.draw (2 ^ 4096)
      (List.range o.len).foldl (fun s k => if m.testBit k then s.hostStore (o.dst + k) ((o.data.drop k).take 1) else s) s
  (s.closeAsync i o.id).complete g o.q o.cls (.cell g) status 0

/-- The oldest open HLD or HST of the cell. -/
def Cell.transfer (c : Cell) : Option AsyncOp := c.open_.find? fun o => o.kind == 0x90 || o.kind == 0x91

/-- End the oldest transfer of cell g with a status that a transfer can have: OK only while the link is up. -/
def State.transferDone (s : State) (g status : Nat) : State :=
  match s.posOf g with
  | none => s
  | some i =>
    match (s.cell i).transfer with
    | none => s
    | some o =>
      if (status = 0 ∧ s.hif.up) ∨ status = 2 ∨ status = 3 then (s.endTransfer i status o).wake i else s

/-- HOST_TRANSFER_DONE (R334). -/
def execHostTransferDone (g status : Nat) (s : State) : Host.Outcome State Fault Refusal := .next (s.transferDone g status)

/-- COMPLETION_TIMEOUT: a read of host memory unanswered HIF_CTO milliseconds after its transfer was issued ends with HOST_ERROR
(R26, R334, R352); earlier the timeout is not due. -/
def execCompletionTimeout (g : Nat) (s : State) : Host.Outcome State Fault Refusal :=
  .next (match (s.posOf g).bind fun i => (s.cell i).transfer with
    | some o =>
      if s.now .host < o.since + 1000000 * bits (s.reg 0x100008) 6 0 then s
      else (s.modHif fun h => { h with cntCto := h.cntCto + 1 }).transferDone g 3
    | none => s)

end Sys2Proof.Machine
end

