-- ==== Sys2Proof/Machine/Link.lean ====
section
/-! DEFINITION. The host link (R324, R325, R349, R350) and the resets of the host function (R326, R349, R459, R460). -/
namespace Sys2Proof.Machine

/-- Every copy engine in turn. -/
def State.eachCe (s : State) (f : State → Nat → State) : State := (List.range 16).foldl f s

/-- LINK_RECOVERY: counted, and vector 19 raised (R348, R349). -/
def State.linkRecovery (s : State) : State :=
  if !s.hif.up then s else (s.modHif fun h => { h with cntRecovery := h.cntRecovery + 1 }).raise 19

/-- LINK_RECOVERY (R349). -/
def execLinkRecovery (s : State) : Host.Outcome State Fault Refusal := .next s.linkRecovery

/-- The host function's HOST_LINK report (R349, R402). -/
def State.linkReport (s : State) (sub : Nat) : State :=
  s.report (stewardReport 0x16 ⟨7, 0, 0⟩ sub 0 0 (s.now .host)) 3

/-- Open HLD and HST of the cells that a test picks complete with HOST_LOST (R334, R349). -/
def State.loseTransfers (s : State) (p : Cell → Bool) : State :=
  s.eachCell fun s i =>
    let c := s.cell i
    if !p c then s else
    (c.open_.filter fun o => o.kind == 0x90 || o.kind == 0x91).foldl (fun s o => (s.endTransfer i 2 o).wake i) s

/-- What a link-down does beside the copy engines: transfers end, caches are dropped, UP is clear. -/
def State.dropLink (s : State) : State :=
  (s.modHif fun h => { h with up := false, lineCache := [], bufs := [] }).loseTransfers fun _ => true

/-- LINK_DOWN (R349). -/
def State.linkDown (s : State) : State :=
  if !s.hif.up then s else
  (((s.eachCe State.ceLinkDown).dropLink).modHif fun h => { h with cntLinkdown := h.cntLinkdown + 1 }).linkReport 0

/-- LINK_DOWN (R349). -/
def execLinkDown (s : State) : Host.Outcome State Fault Refusal := .next s.linkDown

/-- LINK_UP (R324, R325, R348 to R350): training follows configuration readiness; CXL needs 256-byte flits. -/
def State.linkUp (s : State) (rate width : Nat) (cxl : Bool) : State :=
  if s.hif.up ∨ !s.hif.configReady ∨ 5 < rate ∨ !([1, 4, 8, 16].contains width) then s else
  let again := s.hif.wasUp
  let s := s.modHif fun h => { h with up := true, wasUp := true, rate, width, cxl }
  let s := (List.range 3).foldl State.flushRing s
  let s := s.eachCe State.ceLinkUp
  if again then s.raise 19 else s

/-- LINK_UP (R350). -/
def execLinkUp (rate width : Nat) (cxl : Bool) (s : State) : Host.Outcome State Fault Refusal := .next (s.linkUp rate width cxl)

/-! ## Resets of the host function -/

/-- The rank of the reset that runs (R456, R460): 4 cold, until the die self-test has ended; 3 module warm, 2 partition, 0 none. -/
def Power.running (p : Power) : Nat :=
  if p.resetting then 3 else if 1 ≤ p.boot ∧ p.boot ≤ 3 then 4 else if p.partReset ≠ 0 then 2 else 0

/-- The ring registers of partition p and its VF reply base return to their reset values (R349). -/
def State.resetRings (s : State) (p : Nat) : State :=
  ((s.resetRegs (partBase p + 0x10) (partBase p + 0x40)).resetRegs (vfMbxBase p) (vfMbxBase p + 1)).modPart p fun u => { u with
    lcHead := 0, lcTail := 0, beHead := 0, beTail := 0, cqHead := 0, cqTail := 0
    waits := u.waits.map fun w => { w with mark := 0 } }

/-- A hot reset of the host function (R349): as a link-down, with the registers of rings, mailbox and host-direct windows
reset, and virtual functions disabled. -/
def State.hostReset (s : State) : State :=
  let s := (s.eachCe State.ceHotReset).dropLink
  let s := (List.range 16).foldl State.resetRings s
  let s := (s.resetRegs 0x200000 0x200030).resetRegs 0x100100 0x100200
  ((s.modHif fun h => { h with sriov := false, cntHotreset := h.cntHotreset + 1 }).modPower fun x =>
    { x with lastReset := 3, lost := false }).linkReport 1

/-- A host reset is requested: a reset of equal or higher rank that runs discards it (R460). -/
def State.requestHostReset (s : State) : State :=
  if 1 ≤ s.power.running then s.modPower fun x => { x with lost := true } else s.hostReset

/-- HOT_RESET (R349). -/
def execHotReset (s : State) : Host.Outcome State Fault Refusal := .next (if s.hif.up then s.requestHostReset else s)

/-- PERST_N_ASSERT (R349, R454): configuration space must become ready again. -/
def State.perstAssert (s : State) : State :=
  if s.power.perstN then s else
  (if s.power.pwrGood then s.requestHostReset else s).modPower (fun x => { x with perstN := true })
    |>.modHif fun h => { h with configReady := false, up := false }

/-- PERST_N_ASSERT (R349). -/
def execPerstNAssert (s : State) : Host.Outcome State Fault Refusal := .next s.perstAssert

/-- FLR_PF: a hot reset (R326). -/
def execFlrPf (s : State) : Host.Outcome State Fault Refusal := .next (if s.hif.up then s.requestHostReset else s)

/-- FLR_VF (R326): what R349 says of the module, for partition Pn. -/
def State.flrVf (s : State) (n : Nat) : State :=
  if 16 ≤ n ∨ !s.hif.up ∨ !s.hif.sriov then s else
  let s := s.eachCe fun s e => if s.ceOwner e = 16 + n then s.ceHotReset e else s
  let s := (s.modHif fun h => { h with bufs := h.bufs.filter fun e => e.1 != n + 1 }).loseTransfers fun c => c.part == some n
  let s := s.resetRings n
  (List.range 8).foldl (fun (s : State) k => match s.image.grants[k]? with
    | some g => if s.owns n g then s.resetRegs (0x100108 + 0x20 * k) (0x100118 + 0x20 * k) else s
    | none => s) s

/-- FLR_VF (R326). -/
def execFlrVf (n : Nat) (s : State) : Host.Outcome State Fault Refusal := .next (s.flrVf n)

end Sys2Proof.Machine
end

