-- ==== Sys2Proof/Machine/Pair.lean ====
section
/-! DEFINITION. How a pair comes apart (R391): what waits for the partner is released, TAKEOVER and YIELD; replay of the
partner's records (R392). -/
namespace Sys2Proof.Machine

/-- Updates that wait for the partner's acknowledgement complete (R384, R391); `denied`: a network update is answered with
DENIED instead. -/
def State.releaseUpdates (s : State) (denied : Bool) : State :=
  s.openReqs.foldl (fun (s : State) o =>
    if o.psns = [] then s else
    match o.result with
    | some (st, low, rec) =>
      match o.r.reply with
      | some y => if denied then
          ({ s with openReqs := s.openReqs.filter fun x => x.r.id != o.r.id } : State).netDone y.k y.msg y.cls y.stream 4 0 0 []
        else s.closeReq o st low rec
      | none => s.closeReq o st low rec
    | none => { s with openReqs := modWhere s.openReqs (fun x => x.r.id == o.r.id) fun x => { x with psns := [] } }) s

/-- Mirrored commands that one module alone must finish (R385, R391): one not yet run here runs, a COMMIT goes on alone, and BUSY
clears; a publication in WAIT_SLOT keeps waiting. -/
def State.releaseCommands (s : State) : State :=
  let cmds := s.hrv.cmds
  let waits (c : MirrorCmd) : Bool := (s.svc c.part).waiting != [] && (c.op == 2 || c.op == 7)
  let rank0 := s.hrv.rank = 0
  let s := s.modHrv fun h => { h with cmds := h.cmds.filter waits }
  cmds.foldl (fun (s : State) c =>
    if waits c then s
    else if c.op = 8 then
      if c.own ∧ s.image.waitPartner then s.beginCommit else s
    else if c.own then ((if rank0 then (s.tblRun c.op c.part c.table c.data true).2 else s).tblIdle c.part)
    else s) s

/-- The link carries nothing more: streams start afresh when it forms again (log entry 32). -/
def State.resetStreams (s : State) : State :=
  s.modHrv fun h => { h with streams := List.replicate 3 .fresh, updBuf := [], syncBuf := [], helloSeen := false }

/-- What every end of PAIRED does: nothing waits for the partner any more. -/
def State.unpair (s : State) (st : Nat) (denied : Bool) : State :=
  let s := (s.modHrv fun h => { h with st, source := false, probe := none, syncEnd := false }).resetStreams
  (s.releaseUpdates denied).releaseCommands.releaseIf fun b => b.kind == 4

/-- JSEQ of a journal record (R388). -/
def journalSeq (b : Bytes) : Nat := wordAt b 1
/-- PART and CLASS of a journal record. -/
def journalPart (b : Bytes) : Nat := bits (wordAt b 0) 35 32
def journalCls (b : Bytes) : Cls := if (wordAt b 0).testBit 36 then .be else .lc

/-- TAKEOVER (R391, R392): SOLO, and the partner's valid records wait for their replay, LC before BE, in JSEQ order. -/
def State.takeover (s : State) : State :=
  let ps := s.hrv.partner
  let sorted (k : Cls) : List (Nat × Bytes) :=
    (ps.filter fun e => journalCls e.2 == k).mergeSort fun a b => journalSeq a.2 ≤ journalSeq b.2
  (s.unpair 5 false).modHrv fun h => { h with toReplay := sorted .lc ++ sorted .be, partner := [] }

/-- The handle of the bindings that a partner record holds (R388). -/
def journalHandle (slot : Nat) : Nat := 2 ^ 32 + slot

/-- YIELD (R391): the mirrored partitions close, their work ends without completion records, SPLIT_YIELD is written. -/
def State.yield_ (s : State) : State :=
  let s := s.unpair 6 true
  let s := (List.range 16).foldl (fun (s : State) p => if s.mirrored p then s.reopen p else s) s
  let s := s.dropBatches fun b => s.mirrored b.part
  let s := (s.modHrv fun h => { h with yields := h.yields + 1, toReplay := [], partner := [] }).releaseIf fun b => b.kind == 3
  (s.steward 0x13 ⟨0, 0, 0⟩ 0 0 0 3).modHealth fun h => { h with alert := h.alert ||| 4 }

/-- A partner's record is replayed (R302, R392): a new batch at the head of its cells' queues, on the epochs its record held;
records of a partition that a commit or a reset closes wait, and those of an undefined or drained one complete at once (R303). -/
def State.replayNext (s : State) : State :=
  match s.hrv.toReplay with
  | [] => s
  | (slot, d) :: l =>
    let p := journalPart d
    let cls := journalCls d
    if s.health.fatal ≠ 0 ∨ (s.part p).committing ∨ (s.part p).resetting then s else
    let net := bits (wordAt d 0) 38 37 = 3
    let path := if net then 3 else match cls with | .lc => 0 | .be => 1
    let conn := if net then bits (wordAt d 0) 48 39 else 0
    let msg := if net then bits (wordAt d 3) 47 32 else 0
    let desc := (d.drop 128).take 128
    let own := (descCells desc).filter (s.owns p)
    let dropped := (descCells desc).length - own.length
    let s := s.modHrv fun h => { h with toReplay := l, replayed := h.replayed + 1 }
    let closed : Option Nat := if !(s.part p).defined then some 7 else if (s.part p).drained ∨ s.power.suspectHold then some 4
      else if own = [] then some 5 else none
    if closed.isSome then
      (s.refuseSub p path conn msg cls (s.refusal p cls desc (closed.getD 5) dropped)).releaseIf fun b => b.kind == 3 && b.handle == journalHandle slot
    else
      let (h, s) := s.freshHandle
      let s : State := { s with bindings := s.bindings.map fun b =>
        if b.kind = 3 ∧ b.handle = journalHandle slot then { b with kind := 0, handle := h } else b }
      let (b, s) := s.journalWrite { s.newBatch p cls desc own dropped path conn msg with handle := h, replays := 1 }
      let s := s.modPart p fun u => match cls with
        | .lc => { u with cntAdmitLc := u.cntAdmitLc + 1 }
        | .be => { u with cntAdmitBe := u.cntAdmitBe + 1 }
      ({ s with batches := s.batches ++ [b] } : State).enqueue b true

/-- REPLAY_ADMISSION (R392). -/
def execReplayAdmission (s : State) : Host.Outcome State Fault Refusal := .next s.replayNext

end Sys2Proof.Machine
end

