-- ==== Sys2Proof/Machine/Sends.lean ====
section
/-! DEFINITION. The send rings of a partition and their descriptors (R366 to R368). Ring i = 8n + r belongs to Pn. -/
namespace Sys2Proof.Machine

/-! ## Rings (R366) -/

/-- The transport is in service. -/
def State.netOn (s : State) : Bool := s.net.ports != [] && (s.reg 0x3400000).testBit 0

def State.sendRing (s : State) (i : Nat) : SendRing := (s.net.rings.find? fun r => r.i == i).getD ⟨i, 0, 0⟩
def State.setSendRing (s : State) (r : SendRing) : State :=
  s.modNet fun n =>
    let keep := if r.head = 0 ∧ r.tail = 0 then [] else [r]
    { n with rings := n.rings.filter (fun x => x.i < r.i) ++ keep ++ n.rings.filter (fun x => r.i < x.i) }

def State.sendCtl (s : State) (i : Nat) : Nat := s.reg (sendBase i + 8)
/-- Device virtual address of the ring header. -/
def State.sendHeader (s : State) (i : Nat) : Nat := addr57 (s.reg (sendBase i))

/-- The ring can be used: enabled, aligned, and in the partition's device memory. -/
def State.sendRingOk (s : State) (i : Nat) : Bool :=
  s.netOn && i < 128 && ctlOn' (s.sendCtl i) && s.sendHeader i % 64 == 0
    && (s.pieces (i / 8) (s.sendHeader i) (64 + 64 * 2 ^ bits (s.sendCtl i) 3 0)).all fun c => c.rng.any (·.kind == 1)
where
  ctlOn' (v : Nat) : Bool := v.testBit 4

/-- The engine learns of a write on the header granule and reads TAIL, clamped to the ring size less 1. -/
def State.sendTail (s : State) (i : Nat) : State :=
  if !s.sendRingOk i then s else
  let (d, s) := s.vread .network (i / 8) (s.sendHeader i) 8
  s.setSendRing { s.sendRing i with tail := min (leNat d.bytes) (2 ^ bits (s.sendCtl i) 3 0 - 1) }

/-- SEND_RING_TAIL (R366). -/
def execSendRingTail (i : Nat) (s : State) : Host.Outcome State Fault Refusal := .next (s.sendTail i)

/-! ## Descriptors (R367) -/

namespace Send
def word (x : Send) (i : Nat) : Nat := wordAt x.desc i
def op (x : Send) : Nat := bits (x.word 0) 7 0
def peer (x : Send) : Nat := bits (x.word 0) 17 8
def final (x : Send) : Bool := (x.word 0).testBit 18
def cls (x : Send) : Cls := if (x.word 0).testBit 19 then .be else .lc
def stream (x : Send) : Nat := bits (x.word 0) 27 20
def len (x : Send) : Nat := bits (x.word 0) 63 32
def loc (x : Send) : Nat := addr57 (x.word 1)
def remote (x : Send) : Nat := addr57 (x.word 2)
def compl (x : Send) : Nat := addr57 (x.word 3)
def aux (x : Send) : Nat := addr57 (x.word 4)
def bucket (x : Send) : Nat := bits (x.word 5) 13 0
def count (x : Send) : Nat := bits (x.word 5) 31 16
/-- The partition of the ring. -/
def part (x : Send) : Nat := x.ring / 8
end Send

/-- Write the completion entry of a descriptor as the final write of the ring's write stream (R368). -/
def State.completeSend (s : State) (x : Send) (status bytes w1 : Nat) : State :=
  let s := (s.modNet fun n => { n with sends := n.sends.filter fun y => y != x }).release .network
  if x.compl % 16 ≠ 0 then s else
  s.withRanges (if x.rngs = [] then s.ranges else x.rngs) fun s =>
    s.vwrite .network x.part x.compl (Data.clean (ofWords [status + 2 ^ 8 + 2 ^ 32 * bytes, w1]))

/-- Take the descriptor at HEAD of a ring where a test accepts it: HEAD is advanced and written to the header. -/
def State.takeSend (s : State) (i : Nat) (ok : Send → Bool) (f : Send → State → State) : State :=
  let r := s.sendRing i
  if !s.sendRingOk i ∨ r.head = r.tail then s else
  let (d, s') := s.vread .network (i / 8) (s.sendHeader i + 64 + 64 * r.head) 64
  let x : Send := ⟨i, r.head, if d.marked then 0xFF :: d.bytes.drop 1 else d.bytes, 0, 0, 0, [], 0⟩
  if !ok x then s else
  let head := (r.head + 1) % 2 ^ bits (s.sendCtl i) 3 0
  let s := s'.setSendRing { r with head }
  f x (s.vwrite .network (i / 8) (s.sendHeader i + 8) (Data.clean (leBytes 8 head)))

/-- Status of the local extents (address, length, written) of a descriptor: 0, XLT_UNMAPPED or XLT_PERM (R367, R368). -/
def State.sendCheck (s : State) (p : Nat) (l : List (Nat × Nat × Bool)) : Nat :=
  if l.any fun e => (s.unmapped p e.1 e.2.1).isSome then 2
  else if l.any fun e => e.2.2 && (s.refused p e.1 e.2.1).isSome then 3 else 0

/-- Check a descriptor to a peer and open it, or complete it with its status; `f` sends its message. -/
def State.openSend (s : State) (x : Send) (legal : Bool) (ext : List (Nat × Nat × Bool)) (f : Nat → State → State) : State :=
  let k := x.peer
  if !legal ∨ x.compl % 16 ≠ 0 ∨ !(s.peerCfg k).testBit 0 then s.completeSend x 1 0 0 else
  let ext := (x.compl, 16, true) :: ext
  let st := s.sendCheck x.part ext
  if st ≠ 0 then (s.countXltFault x.part).completeSend x st 0 0 else
  if (s.conn k).st ≠ 1 then s.completeSend x 5 0 0 else
  let (m, s) := s.newMsg k
  let rngs := (ext.flatMap fun e => s.rangesOf x.part e.1 e.2.1).dedup
  f m (s.modNet fun n => { n with sends := n.sends ++ [{ x with conn := k, msg := m, rngs }] })

/-- A length of WRITE and READ. -/
def Send.lenOk (x : Send) : Bool := decide (16 ≤ x.len ∧ x.len ≤ 2 ^ 24 ∧ x.len % 16 = 0)

/-- SEND_WRITE (R367). -/
def execSendWrite (i : Nat) (s : State) : Host.Outcome State Fault Refusal :=
  .next (s.takeSend i (fun x => x.op == 1) fun x s =>
    s.openSend x x.lenOk [(x.loc, x.len, false)] fun m s =>
      let (d, s) := s.vread .network x.part x.loc x.len
      s.netMessage x.peer 1 x.final x.cls x.stream m x.remote d)

/-- SEND_READ (R367): the request carries the length and the local destination. -/
def execSendRead (i : Nat) (s : State) : Host.Outcome State Fault Refusal :=
  .next (s.takeSend i (fun x => x.op == 2) fun x s =>
    s.openSend x x.lenOk [(x.loc, x.len, true)] fun m s =>
      s.netMessage x.peer 2 false x.cls x.stream m x.remote (Data.clean (ofWords [x.len, x.loc])))

/-- n bytes rounded up to 16. -/
def pad16 (n : Nat) : Nat := (n + 15) / 16 * 16

/-- Lengths that follow the header of a request message: index list, bag list, update data at its stride. -/
def Request.carriedLens (r : Request) : Nat × Nat × Nat :=
  (4 * r.nidx, if r.op = 1 ∧ r.mode ≤ 1 then 2 * r.nbags else 0, if r.op = 1 then 0 else r.nidx * r.stride)

/-- A request made of the eight words of a header. -/
def Request.ofWords (op : Nat) (cls : Cls) (words : List Nat) (p : Nat) : Request :=
  { id := 0, g := 0, cls, q := 0, op, addr := 0, part := p, reply := none, mirror := none, view := 0, snap := .empty, words
    idx := [], bags := [], rows := [], bad := 0 }

/-- SEND_UPDATE and SEND_GATHER (R365, R367): the header, its lists and its data travel in one message. -/
def State.sendRequest (s : State) (x : Send) (gather : Bool) : State :=
  if (s.unmapped x.part x.loc 64).isSome then s.openSend x true [(x.loc, 64, false)] fun _ s => s else
  let (h, s) := s.vread .network x.part x.loc 64
  let r := Request.ofWords (if gather then 1 else bits (wordAt h.bytes 0) 7 0) x.cls (leList 8 8 h.bytes) x.part
  let (ni, nb, nd) := r.carriedLens
  let legal := decide (1 ≤ r.nidx) && r.stride % 16 == 0
    && (if gather then decide (r.nidx ≤ 65536) && !r.destTile else decide (r.nidx ≤ 4096))
  let rows := if r.mode ≤ 1 then r.nbags else r.nidx
  let ext := [(x.loc, 64, false), (addr57 r.idxAddr, ni, false)]
    ++ (if nb = 0 then [] else [(addr57 r.dataAddr, nb, false)]) ++ (if nd = 0 then [] else [(addr57 r.dataAddr, nd, false)])
    ++ (if gather then [(addr57 r.dest, rows * r.stride, true)] else [])
    ++ (if gather ∧ r.mode = 3 then [(addr57 r.mapAddr, 4 * r.nidx + 4 * rows, true)] else [])
    ++ (if gather ∧ r.stat ≠ 0 then [(addr57 r.stat, 32, true)] else [])
  s.openSend { x with stat := if gather then addr57 r.stat else 0 } legal ext fun m s =>
    let (i, s) := s.vread .network x.part (addr57 r.idxAddr) ni
    let (b, s) := s.vread .network x.part (addr57 r.dataAddr) (nb + nd)
    let pad (d : Data) : Data := d ++ Data.clean (zeros (pad16 d.length - d.length))
    s.netMessage x.peer (if gather then 5 else 4) false x.cls x.stream m 0 (h ++ pad i ++ pad b)

/-- SEND_UPDATE (R367). -/
def execSendUpdate (i : Nat) (s : State) : Host.Outcome State Fault Refusal :=
  .next (s.takeSend i (fun x => x.op == 4) fun x s => s.sendRequest x false)
/-- SEND_GATHER (R367). -/
def execSendGather (i : Nat) (s : State) : Host.Outcome State Fault Refusal :=
  .next (s.takeSend i (fun x => x.op == 5) fun x s => s.sendRequest x true)

/-- SEND_SUBMIT (R367). -/
def execSendSubmit (i : Nat) (s : State) : Host.Outcome State Fault Refusal :=
  .next (s.takeSend i (fun x => x.op == 6) fun x s =>
    s.openSend x true [(x.loc, 128, false), (x.aux, 64, true)] fun m s =>
      let (d, s) := s.vread .network x.part x.loc 128
      s.netMessage x.peer 6 false x.cls x.stream m 0 d)

/-- SEND_NOP (R367): OP 0 completes with OK; an OP that is none of the table completes with BAD_DESC. -/
def execSendNop (i : Nat) (s : State) : Host.Outcome State Fault Refusal :=
  .next (s.takeSend i (fun x => x.op == 0 || !([1, 2, 4, 5, 6, 8].contains x.op)) fun x s =>
    if x.op ≠ 0 ∨ x.compl % 16 ≠ 0 then s.completeSend x 1 0 0 else
    let st := s.sendCheck x.part [(x.compl, 16, true)]
    s.completeSend x st 0 0)

end Sys2Proof.Machine
end

