-- ==== Sys2Proof/Machine/Reduce.lean ====
section
/-! DEFINITION. Exact gradient reduction (R369 to R371). A reduction message holds a 64-byte header (maximum exponent, flags,
failure status; 0 or 1 + a group of 64), the values, and one residue of 2 bytes for each group; the spec leaves this payload open
(log entry 30). -/
namespace Sys2Proof.Machine

/-! ## Groups (R369, R375) -/

def State.redCfg (s : State) (j : Nat) : Nat := s.reg (redBase j)
def redOn (c : Nat) : Bool := c.testBit 0
def redPart (c : Nat) : Nat := bits c 4 1
def redMean (c : Nat) : Bool := c.testBit 5
def redCls (c : Nat) : Cls := if c.testBit 6 then .be else .lc
def redP (c : Nat) : Nat := bits c 17 7
def redN (c : Nat) : Nat := bits c 24 18
def redFirst (c : Nat) : Int := signed 8 (bits c 39 32)
def redTimeout (c : Nat) : Nat := 1000 * bits c 55 40
/-- H = ceil(log2 P) + 1. -/
def redH (c : Nat) : Nat := (redP c - 1).log2 + 2
/-- The limit of |q|. -/
def redLimit (c : Nat) : Int := 2 ^ (31 - redH c) - 1

def State.redTree (s : State) (j : Nat) : Nat := s.reg (redBase j + 8)
def State.redRoot (s : State) (j : Nat) : Bool := (s.redTree j).testBit 10
def State.redParent (s : State) (j : Nat) : Nat := bits (s.redTree j) 9 0
/-- Peer entries of the children. -/
def State.redKids (s : State) (j : Nat) : List Nat :=
  (List.range 8).filterMap fun i =>
    let v := bits (s.reg (redBase j + 0x10 + 8 * (i / 4))) (16 * (i % 4) + 15) (16 * (i % 4))
    if v.testBit 15 then some (bits v 9 0) else none

/-- A bucket: step count 0 and M_PREV FIRST_EXP after the group is configured. -/
def State.bucket (s : State) (j b : Nat) : Bucket :=
  (s.net.buckets.find? fun x => x.group == j && x.no == b).getD ⟨j, b, 0, redFirst (s.redCfg j), [], 0⟩
def State.setBucket (s : State) (x : Bucket) : State :=
  s.modNet fun n => { n with buckets := n.buckets.filter (fun y => !(y.group == x.group && y.no == x.no)) ++ [x] }

def State.round (s : State) (j b : Nat) : Option Round := s.net.rounds.find? fun r => r.group == j && r.bucket == b
def State.modRound (s : State) (j b : Nat) (f : Round → Round) : State :=
  s.modNet fun n => { n with rounds := modWhere n.rounds (fun r => r.group == j && r.bucket == b) f }

/-- A write of NET_RED_CFG (R374, R375): while enabled only ENABLE is taken; setting it clears the buckets of the group. -/
def State.redWrite (s : State) (j v : Nat) : State :=
  if 64 ≤ j ∨ s.net.ports = [] then s else
  let old := s.redCfg j
  let new := if redOn old then old - 1 + v % 2 else cfgApply s.model (redBase j) v
  let s := (if redOn old then s else s.countClamps (redBase j) v).setReg (redBase j) new
  if !redOn old && redOn new then s.modNet fun n => { n with
      buckets := n.buckets.filter fun x => x.group != j
      rounds := n.rounds.filter fun r => r.group != j }
  else s

/-- RED_ENABLE (R375). -/
def execRedEnable (j : Nat) (val : BitVec 64) (s : State) : Host.Outcome State Fault Refusal := .next (s.redWrite j val.toNat)

/-! ## Messages (R370, R371) -/

/-- The residue of a group of values. -/
def residue (l : List Int) : Nat := (l.sum % 4095).toNat

/-- ADDR of a reduction frame. -/
def redAddr (c j b : Nat) (e : Int) (count : Nat) : Nat :=
  b + 2 ^ 12 * (e % 1024).toNat + 2 ^ 22 * (redP c - 1) + 2 ^ 33 * (redN c - 1) + 2 ^ 39 * b2n (redMean c)
    + 2 ^ 40 * (count / 64 - 1) + 2 ^ 48 * j

/-- What a reduction message says: maximum exponent, saturation, NaN or infinity, failure status, group asked for. -/
structure RedHead where
  m : Int
  sat : Bool
  nonfinite : Bool
  fail : Nat
  sel : Nat
  deriving DecidableEq, Repr

def RedHead.bytes (h : RedHead) : Bytes :=
  ofWords [(h.m % 65536).toNat + 2 ^ 16 * b2n h.sat + 2 ^ 17 * b2n h.nonfinite + 2 ^ 24 * h.fail, h.sel, 0, 0, 0, 0, 0, 0]

def RedHead.parse (b : Bytes) : RedHead :=
  let w := wordAt b 0
  ⟨signed 16 (bits w 15 0), w.testBit 16, w.testBit 17, bits w 31 24, wordAt b 1⟩

/-- The payload of a reduction message: bit i of `marks` marks values 16i to 16i + 15. -/
def redPayload (h : RedHead) (vals : List Int) (marks : Nat) : Data :=
  let body := vals.flatMap fun v => leBytes 4 (v % 2 ^ 32).toNat
  let res := (chunks 64 0 vals.length).flatMap fun c => leBytes 2 (residue ((vals.drop c.1).take c.2))
  Data.clean h.bytes ++ body.mapIdx (fun i b => (b, marks.testBit (i / 64))) ++ Data.clean ((res ++ zeros 15).take (pad16 res.length))

/-- Values, marked blocks and groups that fail their residue check. -/
def redParse (n : Nat) (d : Data) : List Int × Nat × List Nat :=
  let body := (d.drop 64).take (4 * n)
  let vals := (List.range n).map fun i => toSigned 32 (leNat ((Data.bytes (body.drop (4 * i))).take 4))
  let res := Data.bytes (d.drop (64 + 4 * n))
  (vals, poisonMask body, (List.range (n / 64)).filter fun g =>
    residue ((vals.drop (64 * g)).take 64) != leNat ((res.drop (2 * g)).take 2))

/-- Send a reduction message on peer entry k. -/
def State.redSend (s : State) (k type j b : Nat) (e : Int) (count : Nat) (d : Data) : State :=
  let (m, s) := s.newMsg k
  s.netMessage k type false (redCls (s.redCfg j)) 0 m (redAddr (s.redCfg j) j b e count) d

/-- A REDO (R370, R371): for saturation with sel 0, else for one group. -/
def State.redAsk (s : State) (k j b : Nat) (e : Int) (count sel : Nat) : State :=
  let (m, s) := s.newMsg k
  (s.netMessage k 12 false .lc 0 m (redAddr (s.redCfg j) j b e count) (Data.clean (RedHead.bytes ⟨0, false, false, 0, sel⟩))).modNet
    fun n => { n with redRedo := n.redRedo + 1 }

/-! ## Quantisation (R370) -/

/-- Not a number, or infinite. -/
def nonfiniteVal : Val → Bool
  | .nan => true
  | .inf _ => true
  | _ => false

/-- The nearest integer to x × 2^-e, ties away from zero. -/
def quantise (e : Int) (v : Val) : Int := match v with | .num q => roundInt (q * pow2 (-e)) | _ => 0

/-- floor(log2 |x|) of a nonzero value. -/
def expOf (v : Val) : Option Int := match v with | .num q => some (floorLog2 q.num.natAbs q.den) | _ => none

/-- The greatest exponent, -127 where every value is 0. -/
def maxExp (l : List Val) : Int :=
  match l.filterMap expOf with
  | [] => -127
  | x :: xs => xs.foldl max x

/-- The q of the values at exponent e, limited, and whether one exceeded the limit. -/
def quantiseAll (c : Nat) (e : Int) (x : List (BitVec 32)) : List Int × Bool :=
  let lim := redLimit c
  let q := x.map fun v => quantise e (decodeVal 0 v.toNat)
  (q.map fun v => max (-lim) (min lim v), q.any fun v => decide (lim < v.natAbs))

/-! ## The end of a round -/

/-- The local REDUCE of a round ends (R368, R370, R371). -/
def State.redFinish (s : State) (j b status : Nat) (y : List Int) (marks : Nat) (m : Int) : State :=
  match s.round j b with
  | none => s
  | some r =>
    let s := s.modNet fun n => { n with rounds := n.rounds.filter fun x => !(x.group == j && x.bucket == b) }
    let ok := status == 0 || status == 8 || status == 9
    let s := if ok then s else s.modNet fun n => { n with redFail := n.redFail + 1 }
    match r.send with
    | none => s
    | some x =>
      let body := y.flatMap fun v => leBytes 4 (v % 2 ^ 32).toNat
      let d : Data := body.mapIdx fun i c => (c, marks.testBit (i / 64))
      let s := if ok then
          let bk := s.bucket j b
          (s.withRanges x.rngs fun s => (s.vwrite .network x.part x.aux d).vwrite .network x.part x.remote
            (Data.clean (zeros (4 * r.count)))).setBucket
            { bk with count := bk.count + 1, mPrev := m }
        else s
      s.completeSend x status (if ok then 4 * r.count else 0)
        (((s.bucket j b).mPrev % 256).toNat + 2 ^ 8 * b2n r.residueRedo + 2 ^ 9 * b2n r.redone)

/-- A round fails: the failure goes down the tree, and a residue failure also to the parent (R371). -/
def State.redFailRound (s : State) (j b status : Nat) (up : Bool) : State :=
  match s.round j b with
  | none => s
  | some r =>
    let d := redPayload ⟨0, false, false, status, 0⟩ [] 0
    let s := (s.redKids j).foldl (fun s k => s.redSend k 9 j b r.e r.count d) s
    let s := if up ∧ status = 10 ∧ !s.redRoot j then s.redSend (s.redParent j) 8 j b r.e r.count d else s
    s.redFinish j b status [] 0 0

/-- The result is known here: it goes to the children and is written (R370). -/
def State.redDeliver (s : State) (j b : Nat) (h : RedHead) (y : List Int) (marks : Nat) : State :=
  match s.round j b with
  | none => s
  | some r =>
    let d := redPayload h y marks
    let bk := s.bucket j b
    let s := s.setBucket { bk with down := d.bytes, marks := poisonMask d }
    let s := (s.redKids j).foldl (fun s k => s.redSend k 9 j b r.e r.count d) s
    s.redFinish j b (if h.nonfinite then 9 else if h.sat then 8 else 0) y marks h.m

/-! ## Up the tree (R370) -/

/-- The module's sums: its own q and its children's. -/
def Round.total (r : Round) : RedHead × List Int × Nat :=
  let q := r.children.foldl (fun q c => List.zipWith (· + ·) q c.q) r.q
  (⟨r.children.foldl (fun m c => max m c.m) r.m, r.sat || r.children.any (·.sat), r.nonfinite || r.children.any (·.nonfinite), 0, 0⟩,
    q, r.children.foldl (fun m c => m ||| c.marks) r.marks)

/-- The rounded result of a sum: the exact value, divided by P in MEAN, through rnd32. -/
def redResult (c : Nat) (e : Int) (q : Int) : Int :=
  let v : Rat := (q : Rat) * pow2 e
  toSigned 32 (encodeVal 0 (Val.ofRat (if redMean c then v / (redP c : Rat) else v)))

/-- The saturation redo reaches this module: everyone sends again from the same x, limited, at the exponent given. -/
def State.redSaturate (s : State) (j b : Nat) (e : Int) : State :=
  match s.round j b with
  | none => s
  | some r =>
    let (q, sat) := quantiseAll (s.redCfg j) e r.x
    let s := s.modRound j b fun r => { r with e, q, sat, redone := true, sent := false, children := [] }
    (s.redKids j).foldl (fun s k => s.redAsk k j b e r.count 0) s

/-- Every contribution is here: the root decides, another module sends its sums to its parent. -/
def State.redTry (s : State) (j b : Nat) : State :=
  match s.round j b with
  | none => s
  | some r =>
    let c := s.redCfg j
    if r.send.isNone ∨ r.sent ∨ !((s.redKids j).all fun k => r.children.any fun x => x.child == k && x.bad == []) then s else
    let (h, q, marks) := r.total
    if s.redRoot j then
      if h.nonfinite then s.redDeliver j b h (q.map fun _ => 0x7FC00000) marks
      else if h.sat ∧ !r.redone then s.redSaturate j b (r.e + 2)
      else s.redDeliver j b h (q.map (redResult c r.e)) marks
    else (s.modRound j b fun r => { r with sent := true }).redSend (s.redParent j) 8 j b r.e r.count (redPayload h q marks)

/-- A root without children decides a saturated first pass again in the same edge. -/
def State.redRun (s : State) (j b : Nat) : State := (s.redTry j b).redTry j b

/-! ## REDUCE (R369) -/

/-- Read n FP32 values of the partition, with the marked blocks of 16. -/
def State.redRead (s : State) (p a n : Nat) : List (BitVec 32) × Nat × State :=
  let (d, s) := s.vread .network p a (4 * n)
  ((List.range n).map fun i => BitVec.ofNat 32 (leNat ((Data.bytes (d.drop (4 * i))).take 4)), poisonMask d, s)

/-- rnd32 of a sum of two FP32 values. -/
def addFp32 (a b : BitVec 32) : BitVec 32 := BitVec.ofNat 32 (encodeVal 0 ((decodeVal 0 a.toNat).add (decodeVal 0 b.toNat)))

/-- A round of the module starts: contributions that came before it are checked against its parameters (R370). -/
def State.redStart (s : State) (j : Nat) (x : Send) (v : List (BitVec 32)) (marks : Nat) : State :=
  let c := s.redCfg j
  let b := x.bucket
  let e := (s.bucket j b).mPrev - 30 + redH c
  let vals := v.map fun a => decodeVal 0 a.toNat
  let (q, sat) := quantiseAll c e v
  let nf := vals.any nonfiniteVal
  let (m, s) : Int × State := if nf then let (k, s) := s.draw 255; ((k : Int) - 127, s) else (maxExp vals, s)
  let now := s.now .network
  let early := match s.round j b with | some r => r.children | none => []
  let r : Round :=
    { group := j, bucket := b, send := some x, x := v, q, e, m, sat, nonfinite := nf, marks, count := x.count, startAt := now
      children := early, redone := false, residueRedo := false, sent := false, down := none, retried := [] }
  let s := s.modNet fun n => { n with rounds := n.rounds.filter (fun y => !(y.group == j && y.bucket == b)) ++ [r] }
  if early.any fun k => k.e != e || k.q.length != x.count then s.redFailRound j b 10 true else s.redRun j b

/-- REDUCE: on a step that does not send, the sum is formed here; else a round runs, of at most 64 at once. -/
def State.reduce (s : State) (i : Nat) : State :=
  let busy := (s.net.rounds.filter fun r => r.send.isSome).length
  s.takeSend i (fun x =>
    let j := bits x.peer 5 0
    let sends := (s.bucket j x.bucket).count % redN (s.redCfg j) + 1 == redN (s.redCfg j)
    x.op == 8 && !(sends && (decide (64 ≤ busy) || (s.round j x.bucket).any fun r => r.send.isSome))) fun x s =>
    let j := bits x.peer 5 0
    let c := s.redCfg j
    let b := x.bucket
    let n := x.count
    let p := x.part
    if !redOn c ∨ !(s.redTree j).testBit 11 ∨ redPart c ≠ p ∨ 4096 ≤ b ∨ n < 64 ∨ 16384 < n ∨ n % 64 ≠ 0 ∨ x.compl % 16 ≠ 0 then
      s.completeSend x 1 0 0 else
    let bk := s.bucket j b
    let sends := bk.count % redN c + 1 == redN c
    let ext := [(x.compl, 16, true), (x.loc, 4 * n, false), (x.remote, 4 * n, true)]
      ++ (if sends then [(x.aux, 4 * n, true)] else [])
    let st := s.sendCheck p ext
    if st ≠ 0 then (s.countXltFault p).completeSend x st 0 0 else
    let x := { x with rngs := (ext.flatMap fun e => s.rangesOf p e.1 e.2.1).dedup }
    let (src, ms, s) := s.redRead p x.loc n
    let (acc, ma, s) := if sends ∧ redN c = 1 then ([], 0, s) else s.redRead p x.remote n
    let v := if acc = [] then src else List.zipWith addFp32 acc src
    if sends then (s.modNet fun t => { t with sends := t.sends ++ [x] }).redStart j x v (ms ||| ma) else
    let d : Data := (v.flatMap fun a => leBytes 4 a.toNat).mapIdx fun k y => (y, (ms ||| ma).testBit (k / 64))
    let s := (s.vwrite .network p x.remote d).setBucket { bk with count := bk.count + 1 }
    s.completeSend x 7 (4 * n) (bk.mPrev % 256).toNat

/-- REDUCE (R369). -/
def execReduce (i : Nat) (s : State) : Host.Outcome State Fault Refusal := .next (s.reduce i)

/-! ## Contributions and results that arrive (R370, R371) -/

/-- Fields of ADDR: bucket, e, count, and whether P, N and MODE are the group's. -/
def redFields (c a : Nat) : Nat × Int × Nat × Bool :=
  (bits a 11 0, signed 10 (bits a 21 12), 64 * (bits a 47 40 + 1),
    bits a 32 22 + 1 == redP c && bits a 38 33 + 1 == redN c && a.testBit 39 == redMean c)

/-- A group fails its residue check a second time in the round: RESIDUE_FAIL and the record of R371. -/
def State.redResidueFail (s : State) (j b k : Nat) : State :=
  let rep := { stewardReport 0x10 ⟨0x0B, k, 0⟩ 0 (j + 2 ^ 16 * b) 0 (s.now .network) with selfReport := false }
  (s.redFailRound j b 10 true).report rep 2

/-- Ask the sender of bad groups for them once; a group asked for before fails the round. -/
def State.redCheck (s : State) (j b k key : Nat) (bad : List Nat) : State :=
  match s.round j b with
  | none => s
  | some r =>
    if bad.any fun g => r.retried.contains (key, g) then s.redResidueFail j b k else
    let s := s.modRound j b fun r => { r with
      residueRedo := r.residueRedo || bad != [], retried := r.retried ++ bad.map fun g => (key, g) }
    bad.foldl (fun s g => s.redAsk k j b r.e r.count (g + 1)) s

/-- Put the values of a group in the place of those held. -/
def patch (l : List Int) (g : Nat) (v : List Int) : List Int := l.take (64 * g) ++ v ++ l.drop (64 * g + 64)

/-- A REDUCE_UP message of child k (R370, R371). -/
def State.redUp (s : State) (k a : Nat) (d : Data) : State :=
  let j := bits a 53 48
  let c := s.redCfg j
  let (b, e, n, same) := redFields c a
  if !redOn c ∨ !(s.redKids j).contains k then s else
  let h := RedHead.parse d.bytes
  let fresh : Round :=
    { group := j, bucket := b, send := none, x := [], q := [], e, m := 0, sat := false, nonfinite := false, marks := 0, count := n
      startAt := 0, children := [], redone := false, residueRedo := false, sent := false, down := none, retried := [] }
  let s := if (s.round j b).isSome then s else s.modNet fun t => { t with rounds := t.rounds ++ [fresh] }
  match s.round j b with
  | none => s
  | some r =>
    let wrong := h.fail ≠ 0 ∨ !same ∨ (r.send.isSome ∧ (e ≠ r.e ∨ n ≠ r.count))
    if wrong ∧ r.send.isSome then s.redFailRound j b (if h.fail = 5 then 5 else 10) true else
    if wrong then s.modRound j b fun r => { r with children := r.children.filter (fun x => x.child != k) ++ [⟨k, e, [], 0, false, false, 0, []⟩] }
    else if h.sel = 0 then
      let (q, marks, bad) := redParse n d
      let new : Contribution := ⟨k, e, q, h.m, h.sat, h.nonfinite, marks, bad⟩
      let s := s.modRound j b fun r => { r with children := r.children.filter (fun x => x.child != k) ++ [new] }
      (s.redCheck j b k k bad).redRun j b
    else
      let g := h.sel - 1
      let (q, marks, bad) := redParse 64 d
      let s := s.modRound j b fun r => { r with children := modWhere r.children (fun x => x.child == k) fun x =>
        { x with q := patch x.q g q, marks := x.marks ||| (marks * 2 ^ (4 * g)), bad := x.bad.filter (· != g) ++ bad.map fun _ => g } }
      (s.redCheck j b k k (bad.map fun _ => g)).redRun j b

/-- A REDUCE_DOWN message of the parent (R370, R371). -/
def State.redDown (s : State) (k a : Nat) (d : Data) : State :=
  let j := bits a 53 48
  let c := s.redCfg j
  let (b, _, n, _) := redFields c a
  if !redOn c ∨ s.redRoot j ∨ k ≠ s.redParent j then s else
  match s.round j b with
  | none => s
  | some r =>
    if r.send.isNone then s else
    let h := RedHead.parse d.bytes
    if h.fail ≠ 0 then s.redFailRound j b h.fail false else
    let (y, marks, bad) := redParse (if h.sel = 0 then n else 64) d
    let g := h.sel - 1
    let (y, marks, bad) := if h.sel = 0 then (y, marks, bad) else
      match r.down with
      | none => (y, marks, [0])
      | some (old, l) =>
        let (y0, m0, _) := redParse r.count (old.mapIdx fun _ x => (x, false))
        (patch y0 g y, m0 ||| (marks * 2 ^ (4 * g)), l.filter (· != g) ++ bad.map fun _ => g)
    let keep := (redPayload { h with sel := 0 } y marks).bytes
    let s := s.modRound j b fun r => { r with down := some (keep, bad), marks := r.marks ||| marks }
    if bad = [] then s.redDeliver j b { h with sel := 0 } y (match s.round j b with | some r => r.marks | none => marks)
    else s.redCheck j b k 1024 (if h.sel = 0 then bad else bad.filter (· == g))

/-- A REDO (R370, R371): of the parent for saturation; of the parent or a child for one group, sent again from its inputs. -/
def State.redRedo (s : State) (k a : Nat) (d : Data) : State :=
  let j := bits a 53 48
  let c := s.redCfg j
  let (b, e, n, _) := redFields c a
  let h := RedHead.parse d.bytes
  let up := !s.redRoot j && k == s.redParent j
  if !redOn c then s else
  if h.sel = 0 then
    (if up ∧ (s.round j b).any fun r => r.send.isSome then (s.redSaturate j b e).redRun j b else s)
  else
    let g := h.sel - 1
    let part (h : RedHead) (v : List Int) (marks : Nat) : Data :=
      redPayload { h with sel := g + 1 } ((v.drop (64 * g)).take 64) (marks / 2 ^ (4 * g) % 16)
    let s := s.modRound j b fun r => { r with residueRedo := true }
    if up then
      match s.round j b with
      | some r => let (h, q, marks) := r.total; s.redSend k 8 j b r.e r.count (part h q marks)
      | none => s
    else if (s.redKids j).contains k then
      let bk := s.bucket j b
      let (y, _, _) := redParse n (Data.clean bk.down)
      s.redSend k 9 j b e n (part (RedHead.parse bk.down) y (bk.marks / 2))
    else s

/-- ROUND_TIMEOUT: a child's contribution has not arrived in time (R371). -/
def State.roundTimeout (s : State) (j b : Nat) : State :=
  match s.round j b with
  | none => s
  | some r =>
    let miss := (s.redKids j).any fun k => !(r.children.any fun x => x.child == k && x.bad == [])
    if r.send.isSome ∧ !r.sent ∧ miss ∧ r.startAt + redTimeout (s.redCfg j) ≤ s.now .network then s.redFailRound j b 5 false else s

/-- ROUND_TIMEOUT (R371). -/
def execRoundTimeout (j bucket : Nat) (s : State) : Host.Outcome State Fault Refusal := .next (s.roundTimeout j bucket)

end Sys2Proof.Machine
end

