-- ==== Sys2Proof/Machine/NetServe.lean ====
section
/-! DEFINITION. Frames that arrive on a connection: acceptance and acknowledgement (R356 to R358, R361), resends, failure, and the
messages of R362 to R365, R368. -/
/-! ## Header fields (R361) -/

namespace Sys2Proof.Frame
def type (f : Frame) : Nat := bits f.w0.toNat 7 4
def version (f : Frame) : Nat := bits f.w0.toNat 3 0
def isFinal (f : Frame) : Bool := f.w0.toNat.testBit 8
def isLast (f : Frame) : Bool := f.w0.toNat.testBit 9
def cls (f : Frame) : Cls := if f.w0.toNat.testBit 11 then .be else .lc
def conn (f : Frame) : Nat := bits f.w0.toNat 21 12
def psn (f : Frame) : BitVec 24 := BitVec.ofNat 24 (bits f.w0.toNat 55 32)
def ackPsn (f : Frame) : BitVec 24 := BitVec.ofNat 24 (bits f.w1.toNat 23 0)
def stream (f : Frame) : Nat := bits f.w1.toNat 31 24
def msg (f : Frame) : Nat := bits f.w1.toNat 63 48
def addr (f : Frame) : Nat := f.w2.toNat % 2 ^ 57
/-- The payload with its marks (POISON). -/
def body (f : Frame) : Machine.Data := Machine.Frame.data f f.w3.toNat
end Sys2Proof.Frame

namespace Sys2Proof.Machine

/-- The whole payload of a message. -/
def messageBody (fs : List Frame) : Data := fs.flatMap Frame.body

/-! ## Resends and failure (R358) -/

def State.rto (s : State) : Nat := 1000 * bits (s.reg 0x3400020) 15 0
def State.retries (s : State) : Nat := bits (s.reg 0x3400020) 19 16

/-- A connection fails: its open sends complete with PEER_LOST and its rounds end (R358, R371). -/
def State.connFail (s : State) (k : Nat) : State :=
  let s := s.modConn k fun c => { c with st := 2, unacked := [], waiting := [], got := [], tries := 0 }
  let s := (s.net.sends.filter fun x => x.conn == k && x.op != 8).foldl (fun s x => s.completeSend x 5 x.bytes 0) s
  (s.net.rounds.filter fun r => (s.redKids r.group).contains k || (!s.redRoot r.group && s.redParent r.group == k)).foldl
    (fun s r => s.redFailRound r.group r.bucket 5 false) s

/-- Send again from the oldest unacknowledged frame, or fail after RETRIES resends without progress. -/
def State.netResend (s : State) (k : Nat) : State :=
  let c := s.conn k
  if c.st ≠ 1 ∨ c.unacked = [] then s else
  if s.retries ≤ c.tries then s.connFail k else
  let now := s.now .network
  let s := s.modConn k fun c => { c with tries := c.tries + 1, oldest := now }
  match s.connPort k with
  | none => s
  | some port =>
    let s := s.modNet fun n => { n with resend := n.resend + BitVec.ofNat 64 c.unacked.length }
    (c.unacked.foldl (fun s f => s.emit port k { f with w0 := f.w0 ||| 1024 }) s).netPump k

/-- A cumulative acknowledgement: PSNs below `psn` have arrived. -/
def State.netAcked (s : State) (k : Nat) (psn : BitVec 24) : State :=
  match (s.conn k).unacked with
  | [] => s
  | f :: l =>
    let n := (psn - f.psn).toNat
    if n = 0 ∨ l.length + 1 < n then s else
    let now := s.now .network
    (s.modConn k fun c => { c with unacked := c.unacked.drop n, tries := 0, oldest := now }).netPump k

/-! ## Acceptance (R356, R358) -/

/-- A frame of the Caernic transport passes its checks on a port: the connection that it names, when that is UP. -/
def State.netEnter (s : State) (port type : Nat) (f : Frame) (act : Nat → State → State) : State :=
  if !s.netOn ∨ !(s.net.ports.getD port .fresh).up ∨ f.version ≠ 1 ∨ f.type ≠ type then s else
  let s := s.modNet fun n => { n with ports := n.ports.modify port fun p => { p with rx := p.rx + 1 } }
  let k := f.conn
  if !(s.peerCfg k).testBit 0 then s.modNet fun n => { n with unknownPeer := n.unknownPeer + 1 }
  else if (s.conn k).st ≠ 1 then s
  else act k (s.netAcked k f.ackPsn)

/-- A numbered frame: only the next PSN is accepted, any other is answered with a NAK (R358). -/
def State.netOrdered (s : State) (port type : Nat) (f : Frame) (act : Nat → State → State) : State :=
  s.netEnter port type f fun k s =>
    if f.psn ≠ (s.conn k).rx then s.netHeader k 11
    else act k (s.modConn k fun c => { c with rx := c.rx + 1 })

/-- A message: its frames are collected up to LAST. -/
def State.netMessageIn (s : State) (port type : Nat) (f : Frame) (act : Nat → List Frame → State → State) : State :=
  s.netOrdered port type f fun k s =>
    let fs := (s.conn k).got ++ [f]
    if f.isLast then act k fs (s.modConn k fun c => { c with got := [] })
    else s.modConn k fun c => { c with got := fs }

/-- A DONE for the message of a frame. -/
def State.doneFor (s : State) (k : Nat) (f : Frame) (status bytes : Nat) : State :=
  s.netDone k f.msg f.cls f.stream status bytes 0 []

/-- Serve an operation whose permission is bit `perm` of NET_PEER_CFG: DENIED without it, while the partition is being reset
and once a suspect module is drained (R364, R421, R458). -/
def State.served (s : State) (k perm : Nat) (f : Frame) (act : State → State) : State :=
  if !(s.peerCfg k).testBit perm ∨ (s.part (s.peerPart k)).resetting ∨ s.health.drainedAll then s.doneFor k f 4 0 else act s

/-! ## Messages of a peer (R363 to R365) -/

/-- WRITE: every extent is checked, then the frames land in order; a FINAL one lands with a release of DEVICE scope. -/
def State.serveWrite (s : State) (k : Nat) (fs : List Frame) (f : Frame) : State :=
  let p := s.peerPart k
  let st := s.sendCheck p (fs.map fun f => (f.addr, f.payload.length, true))
  if st ≠ 0 then (s.countXltFault p).doneFor k f st 0 else
  let s := fs.foldl (fun (s : State) f =>
    let s := if f.isFinal then s.release .network else s
    let s := s.outsideWrite .network p f.addr f.body
    if f.isFinal then s.release .network else s) s
  s.doneFor k f 0 ((fs.map fun f => f.payload.length).sum)

/-- NET_WRITE (R365). -/
def execNetWrite (port : Nat) (f : Frame) (s : State) : Host.Outcome State Fault Refusal :=
  .next (s.netMessageIn port 1 f fun k fs s => s.served k 6 f fun s => s.serveWrite k fs f)

/-- READ_REQ: at most 16 MiB are read and returned. -/
def State.serveRead (s : State) (k : Nat) (f : Frame) : State :=
  let p := s.peerPart k
  let n := wordAt f.payload 0
  if n = 0 ∨ 2 ^ 24 < n ∨ f.body.marked then s.doneFor k f 1 0 else
  if (s.unmapped p f.addr n).isSome then (s.countXltFault p).doneFor k f 2 0 else
  let (d, s) := s.vread .network p f.addr n
  (s.netMessage k 3 false f.cls f.stream f.msg (addr57 (wordAt f.payload 1)) d).doneFor k f 0 n

/-- READ_REQ (R365). -/
def execReadReq (port : Nat) (f : Frame) (s : State) : Host.Outcome State Fault Refusal :=
  .next (s.netMessageIn port 2 f fun k fs s => s.served k 7 f fun s => s.serveRead k (fs.headD f))

/-- READ_RESP: the data land at the requester's address, in the write stream of the ring that asked (R363, R368). -/
def State.takeResponse (s : State) (k : Nat) (f : Frame) : State :=
  match s.net.sends.find? fun x => x.conn == k && x.msg == f.msg && (x.op == 2 || x.op == 5) with
  | none => s
  | some x =>
    let s := s.withRanges x.rngs fun s => s.outsideWrite .network x.part f.addr f.body
    s.modNet fun n => { n with sends := modWhere n.sends (· == x) fun y => { y with bytes := y.bytes + f.payload.length } }

/-- READ_RESP (R365). -/
def execReadResp (port : Nat) (f : Frame) (s : State) : Host.Outcome State Fault Refusal :=
  .next (s.netOrdered port 3 f fun k s => s.takeResponse k f)

/-- The front end that serves a peer's requests: CD3 and CD7, or CD1 and CD3, by table number (R365). -/
def State.peerDie (s : State) (table : Nat) : Nat := match s.model with | 0 => 3 + 4 * (table % 2) | _ => 1 + 2 * (table % 2)

/-- The request in the message of a peer: header words, lists and data, with SRC replaced (R365). -/
def State.peerRequest (s : State) (k op : Nat) (f : Frame) (d : Data) : Request :=
  let ws := leList 8 8 d.bytes
  let w5 := wordAt d.bytes 5
  let ws := ws.set 5 (w5 - bits w5 39 32 * 2 ^ 32 + s.peerSrc k * 2 ^ 32)
  let r := Request.ofWords op f.cls ws (s.peerPart k)
  let (ni, nb, nd) := r.carriedLens
  let lists := (d.drop 64).take (pad16 ni)
  let rest := d.drop (64 + pad16 ni)
  let src := s.peerSrc k
  let ws := if src = 0 then ws.set 6 0 else ws
  { r with
    words := ws
    reply := some ⟨k, f.msg, f.cls, f.stream, r.dest⟩
    idx := leList 4 r.nidx (Data.bytes lists)
    bags := if nb = 0 then [] else leList 2 r.nbags (Data.bytes rest)
    rows := if nd = 0 then [] else (List.range r.nidx).map fun i => Data.bytes ((rest.drop (i * r.stride)).take r.stride)
    bad := if Data.marked (lists.take ni) ∨ (nb ≠ 0 ∧ Data.marked (rest.take nb)) then 2
      else if nd ≠ 0 ∧ Data.marked (rest.take nd) then 7 else 0 }

/-- Hand a peer's request to its front end; a header that arrived marked is BAD_REQUEST (R115). -/
def State.peerHand (s : State) (r : Request) (headMarked : Bool) : State :=
  let d := s.peerDie r.table
  if headMarked then s.refuse d r 2 false false else
  let (id, s) := s.newId
  s.modDie d fun x => { x with queue := x.queue ++ [{ r with id }] }

/-- UPDATE: DENIED for a mirrored table while YIELDED (R391). -/
def State.serveUpdate (s : State) (k : Nat) (fs : List Frame) (f : Frame) : State :=
  let d := messageBody fs
  let op := bits (wordAt d.bytes 0) 7 0
  let r := s.peerRequest k (if op = 3 then 3 else 2) f d
  if s.hrv.st = 6 ∧ s.mirrored r.part then s.doneFor k f 4 0 else
  if 4096 < r.nidx then s.doneFor k f 1 0 else s.peerHand r (Data.marked (d.take 64))

/-- NET_UPDATE (R365). -/
def execNetUpdate (port : Nat) (f : Frame) (s : State) : Host.Outcome State Fault Refusal :=
  .next (s.netMessageIn port 4 f fun k fs s => s.served k 8 f fun s => s.serveUpdate k fs f)

/-- GATHER: at most 65,536 indices and 4 MiB of output. -/
def State.serveGather (s : State) (k : Nat) (fs : List Frame) (f : Frame) : State :=
  let d := messageBody fs
  let r := s.peerRequest k 1 f d
  let rows := if r.pooled then r.nbags else r.nidx
  let unit := match s.table r.part r.table with | some e => r.unit e | none => 0
  if 65536 < r.nidx ∨ 2 ^ 22 < rows * unit then s.doneFor k f 1 0 else s.peerHand r (Data.marked (d.take 64))

/-- NET_GATHER (R365). -/
def execNetGather (port : Nat) (f : Frame) (s : State) : Host.Outcome State Fault Refusal :=
  .next (s.netMessageIn port 5 f fun k fs s => s.served k 9 f fun s => s.serveGather k fs f)

/-- SUBMIT: the descriptor waits for admission with its own CLASS (R303, R365); a marked one is refused as poisoned. -/
def State.serveSubmit (s : State) (k : Nat) (fs : List Frame) (f : Frame) : State :=
  let d : Data := (messageBody fs).take 128
  let p := s.peerPart k
  let cls : Cls := if (wordAt d.bytes 0).testBit 0 then .be else .lc
  if d.marked then s.refuseSub p 3 k f.msg cls (s.refusal p cls d.bytes 6 0) else
  s.modPart p fun u => { u with
    waits := u.waits ++ [⟨3, k, f.msg, cls, d.bytes ++ zeros (128 - d.length), match cls with | .lc => u.lcTail | .be => u.beTail⟩] }

/-- NET_SUBMIT (R365): admitted at once where it may be. -/
def execNetSubmit (port : Nat) (f : Frame) (s : State) : Host.Outcome State Fault Refusal :=
  .next (s.netMessageIn port 6 f fun k fs s => s.served k 10 f fun s => (s.serveSubmit k fs f).admission (s.peerPart k))

/-! ## DONE (R368) -/

/-- The completion of a send descriptor from its DONE: status, bytes, remote status and count, record. -/
def State.takeDone (s : State) (k : Nat) (fs : List Frame) (f : Frame) : State :=
  let d := Data.bytes (messageBody fs)
  let st := bits (wordAt d 0) 7 0
  let bytes := bits (wordAt d 0) 63 32
  let tok := bits (wordAt d 1) 31 0
  let rec_ := d.drop 16
  match s.net.sends.find? fun x => x.conn == k && x.msg == f.msg && x.op != 8 with
  | none => s
  | some x =>
    let put (s : State) (a : Nat) (b : Bytes) : State := s.withRanges x.rngs fun s => s.vwrite .network x.part a (Data.clean b)
    match x.op with
    | 5 =>
      let s := if x.stat ≠ 0 ∧ 32 ≤ rec_.length then put s x.stat (rec_.take 32) else s
      s.completeSend x st x.bytes tok
    | 6 =>
      let s := if 64 ≤ rec_.length then put s x.aux (rec_.take 64) else s
      let w := wordAt rec_ 1
      let refused := 64 ≤ rec_.length ∧ bits w 31 0 = 0xFFFFFFFF
      s.completeSend x (if refused then 6 else st) 0 (if refused then 2 ^ 24 * bits w 47 40 else 0)
    | 4 => s.completeSend x st 0 tok
    | 2 => s.completeSend x st x.bytes 0
    | _ => s.completeSend x st bytes 0

/-- A DONE to the probe of rank 0 makes the module yield, in its window or after (R391). -/
def State.probeDone (s : State) (k msg : Nat) : State :=
  if k = bits (s.reg 0x3600000) 13 4 ∧ s.hrv.probeMsg = some msg then
    (s.modHrv fun h => { h with probeMsg := none }).yield_
  else s

/-- NET_DONE (R368, R391). -/
def execNetDone (port : Nat) (f : Frame) (s : State) : Host.Outcome State Fault Refusal :=
  .next (s.netMessageIn port 7 f fun k fs s => (s.takeDone k fs f).probeDone k f.msg)

/-! ## Reduction messages (R370, R371) -/

/-- REDUCE_UP (R370). -/
def execReduceUp (port : Nat) (f : Frame) (s : State) : Host.Outcome State Fault Refusal :=
  .next (s.netMessageIn port 8 f fun k fs s => s.served k 11 f fun s => s.redUp k (fs.headD f).addr (messageBody fs))

/-- REDUCE_DOWN (R370). -/
def execReduceDown (port : Nat) (f : Frame) (s : State) : Host.Outcome State Fault Refusal :=
  .next (s.netMessageIn port 9 f fun k fs s => s.served k 11 f fun s => s.redDown k (fs.headD f).addr (messageBody fs))

/-- REDO (R371). -/
def execRedo (port : Nat) (f : Frame) (s : State) : Host.Outcome State Fault Refusal :=
  .next (s.netMessageIn port 12 f fun k fs s => s.redRedo k (fs.headD f).addr (messageBody fs))

/-! ## Acknowledgements (R358) -/

/-- NET_ACK (R358). -/
def execNetAck (port : Nat) (f : Frame) (s : State) : Host.Outcome State Fault Refusal :=
  .next (s.netEnter port 10 f fun _ s => s)

/-- NET_NAK (R358): sent again from the PSN expected. -/
def execNetNak (port : Nat) (f : Frame) (s : State) : Host.Outcome State Fault Refusal :=
  .next (s.netEnter port 11 f fun k s => s.netResend k)

/-- RTO_EXPIRY (R358): the oldest unacknowledged frame has waited RTO_US. -/
def execRtoExpiry (k : Nat) (s : State) : Host.Outcome State Fault Refusal :=
  let c := s.conn k
  .next (if c.st = 1 ∧ c.unacked ≠ [] ∧ c.oldest + s.rto ≤ s.now .network then s.netResend k else s)

/-- PURE_ACK (R358). -/
def execPureAck (k : Nat) (s : State) : Host.Outcome State Fault Refusal := .next (s.netHeader k 10)

/-- PEER_RESET (R358, R375): a FAILED connection returns to UP with both PSNs 0. -/
def execPeerReset (k : Nat) (s : State) : Host.Outcome State Fault Refusal :=
  .next (if k < 1024 ∧ (s.conn k).st = 2 then
      s.modConn k fun c => { c with st := if (s.peerCfg k).testBit 0 then 1 else 0, tx := 0, rx := 0, unacked := [], waiting := []
                                    got := [], tries := 0 }
    else s)

end Sys2Proof.Machine
end

