-- ==== Sys2Proof/Machine/PartReset.lean ====
section
/-! DEFINITION. The partition reset (R458, R459), mirrored in a pair (R385). -/
namespace Sys2Proof.Machine

/-- Mailbox slots of the partition that the device owns for a SUBMIT get a reply whose record says DRAINED (R458). -/
def State.drainSlots (s : State) (p : Nat) : State :=
  (List.range 64).foldl (fun (s : State) k =>
    let x := s.mbx k
    if s.mbxOwner k ≠ p ∨ !x.device ∨ byteAt x.data 0 ≠ 1 then s else
    let record := match x.handle.bind s.batch with
      | some b => completionRecord (wordAt x.desc 1) b.handle p b.cls false 4 b.jobs b.admitAt (s.now .control) 0 0 false b.preempted
          b.moved b.replays b.dropped b.firstCell b.cause
      | none => s.refusal p .lc x.desc 4 0
    s.modMbx k fun x => { x with rung := false, handle := none, reply := some record }) s

/-- Requests of the partition in flight at front ends are forgotten; a peer's is answered with DENIED. -/
def State.dropRequests (s : State) (p : Nat) : State :=
  let mine (r : Request) : Bool := r.part == p && r.mirror.isNone
  let gone := (s.dies.flatMap fun d => d.queue.filter mine) ++ ((s.openReqs.filter fun o => mine o.r).map (·.r))
  let s := { s with
    dies := s.dies.map fun d => { d with queue := d.queue.filter fun r => !mine r }
    openReqs := s.openReqs.filter fun o => !mine o.r }
  gone.foldl (fun s r => match r.reply with
    | some y => s.netDone y.k y.msg y.cls y.stream 4 0 0 []
    | none => s) s

/-- Contexts of the partition as R236 leaves them: every slot FREE with zero counts. -/
def CmpCtx.cleared (x : CmpCtx) : CmpCtx :=
  { x with gens := (CmpCtx.absent x.part x.ctx).gens, current := 0, busy := x.heldCmd.isSome, wait := false, hist := none
           installs := [], installing := false, copies := [], changes := [] }

/-- Step 6 of R458: cells cleared, scratchpads included; queues and counters at their image depths. -/
def State.resetCells (s : State) (p : Nat) : State :=
  let gs := s.cells.filterMap fun c => if c.part = some p then c.logical else none
  let depth (g q : Nat) : Nat := match s.posOf g with | some i => (s.cell i).img.depths.getD q 64 | none => 64
  { s with
    cells := s.cells.map fun c => if c.part ≠ some p ∨ c.logical.isNone then c else
      let credits := c.img.binds.map fun b => match b with | some (h, q) => depth h q | none => 0
      let c := { c with scratch := .empty, readBuf := [], written := [], markers := 0, rstored := [], st := if c.st ≤ 3 then 0 else c.st }
      c.load (some p) c.img credits c.port.splitLc c.port.splitBe
    tokens := s.tokens.filter fun t => !gs.contains t.1
    credits := s.credits.filter fun r => match r with
      | .counter g _ _ => !gs.contains g
      | .mcast g _ _ => !gs.contains g
      | .ring g _ _ => !gs.contains g }

/-- Step 7 of R458: copy engines and rings of the partition. -/
def State.resetRingsOf (s : State) (p : Nat) : State :=
  let s := s.eachCe fun s e => s.ceAbortPart e p
  let off (s : State) (r : Nat) : State := s.setReg r (bits (s.reg r) 3 0)
  let s := off (off (off s (partBase p + 0x18)) (partBase p + 0x28)) (partBase p + 0x38)
  s.modPart p fun u => { u with lcHead := 0, lcTail := 0, beHead := 0, beTail := 0, cqHead := 0, cqTail := 0 }

/-- The reset of a defined partition runs: steps 1 to 7 of R458, but the end of the range handshakes. -/
def State.partReset (s : State) (p : Nat) : State :=
  let s := s.drainAll.modPart p fun u => { u with opened := false, resetting := true }
  let s := (s.drainSlots p).dropRequests p
  let s := (s.part p).waits.foldl (fun s w =>
    if w.path = 3 then s.netDone w.arg w.msg w.cls (match w.cls with | .lc => 0 | .be => 1) 4 0 0 [] else s) s
  let s := s.dropBatches fun b => b.part == p
  let s := s.modPart p fun u => { u with held := [], waits := [] }
  let s := s.modHrv fun h => { h with
    partner := h.partner.filter fun e => journalPart e.2 != p
    toReplay := h.toReplay.filter fun e => journalPart e.2 != p
    cmds := h.cmds.filter fun c => !(c.part == p && c.op != 8 && c.op != 9) }
  let s := s.dropEpochs fun ep => s.tablePart ep.table == some p
  let s : State := { s with bindings := s.bindings.filter fun b => b.part != p }
  let s := s.modSvc p fun x => { x with waiting := [], publishing := [], aborting := none, busy := x.heldCmd.isSome }
  let s : State := { s with cmp := s.cmp.map fun x => if x.part = p then x.cleared else x }
  let gone := s.ranges.filter fun r => r.part == p && !s.image.committed.contains r
  let s : State := { s with
    ranges := s.ranges.filter fun r => !gone.contains r
    caches := (s.caches.map fun (c : Agent × List (Nat × Nat)) => (c.1, c.2.filter fun k => !gone.any fun r => (r.part, r.idx) == k)).filter
      fun (c : Agent × List (Nat × Nat)) => c.2 != [] }
  let s := s.modXlt p fun x => { x with busy := false, removing := none, awaited := [], acks := [], replace := none
                                        cntInval := x.cntInval + BitVec.ofNat 64 gone.length }
  let s := s.modImage fun i => { i with removing := i.removing ++ gone }
  (s.resetCells p).resetRingsOf p

/-- Take a request for a partition reset (R460): a reset of equal or higher rank that runs discards it. Rank 0 of a pair
forwards the reset of a mirrored partition, rank 1 runs it and sends it on (R385, R458). -/
def State.requestPartReset (s : State) (p : Nat) : State :=
  if 16 ≤ p ∨ !(s.part p).defined then s else
  if 2 ≤ s.power.running then s.modPower fun x => { x with lost := true } else
  let s := s.modPower fun x => { x with lost := false, partReset := x.partReset ||| BitVec.ofNat 16 (2 ^ p) }
  if (s.part p).committing then s else
  if s.mirrored p ∧ s.hrv.st = 4 then
    let c : MirrorCmd := ⟨9, p, 0, [], true⟩
    let s := s.modHrv fun h => { h with cmds := h.cmds ++ [c] }
    if s.hrv.rank = 0 then s.sendCommand c else (s.partReset p).sendCommand c
  else s.partReset p

/-- GLB_RESET_PARTITION (R458). -/
def execGlbResetPartition (p : Nat) (s : State) : Host.Outcome State Fault Refusal := .next (s.requestPartReset p)

/-- The end of a partition reset (R458): no access through a removed range is in flight, and in a pair both modules have run
it. -/
def State.partResetDone (s : State) (p : Nat) : State :=
  let mine := s.image.removing.filter fun r => r.part == p
  if s.power.partReset.toNat.testBit p ∧ !(s.part p).resetting ∧ !(s.part p).committing ∧ !(s.hrv.cmds.any fun c => c.op == 9 && c.part == p)
  then s.partReset p else
  if 16 ≤ p ∨ !(s.part p).resetting ∨ (s.hrv.st = 4 ∧ s.hrv.cmds.any fun c => c.op == 9 && c.part == p && c.own)
    ∨ mine.any (fun r => (s.rangeAgents p).any fun a => s.rangeInUse a r) then s else
  let s := s.modImage fun i => { i with removing := i.removing.filter fun r => r.part != p }
  let s : State := { s with ranges := s.ranges ++ s.image.committed.filter fun r => r.part == p && !s.ranges.contains r }
  let s := s.modPart p fun u => { u with resetting := false }
  let s := s.modPower fun x => { x with partReset := x.partReset &&& ~~~ BitVec.ofNat 16 (2 ^ p) }
  ((s.reopen p).releaseHeld p).releaseCmp p

/-- PARTITION_RESET_DONE (R458). -/
def execPartitionResetDone (p : Nat) (s : State) : Host.Outcome State Fault Refusal := .next (s.partResetDone p)

end Sys2Proof.Machine
end

