-- ==== Sys2Proof/Machine/Horvi.lean ====
section
/-! DEFINITION. The Horvi link and the pair (R376 to R396). The payloads that the spec leaves open are laid out here (log entry
33): HELLO, SYNC, COMMAND; an ACK or NAK names its stream in ARG. -/
namespace Sys2Proof.Machine

/-! ## Frames (R378, R379) -/

def hrvType (f : Frame) : Nat := bits f.w0.toNat 7 4
def hrvStreamOf (f : Frame) : Nat := bits f.w0.toNat 11 10
def hrvPsn (f : Frame) : BitVec 24 := BitVec.ofNat 24 (bits f.w0.toNat 39 16)
def hrvAckPsn (f : Frame) : BitVec 24 := BitVec.ofNat 24 (bits f.w0.toNat 63 40)
def hrvPn (f : Frame) : Nat := bits f.w1.toNat 63 16
def hrvArg (f : Frame) : Nat := f.w3.toNat
def hrvBody (f : Frame) : Data := Frame.data f f.w2.toNat

def State.stream (s : State) (n : Nat) : HrvStream := s.hrv.streams.getD n .fresh
def State.modStream (s : State) (n : Nat) (f : HrvStream → HrvStream) : State :=
  s.modHrv fun h => { h with streams := h.streams.modify n f }

/-- The link is in use: LINK_EN, the image's policy, and a lane that is up. -/
def State.hrvOn (s : State) : Bool := s.model != 2 && s.hrv.enable && s.hrv.policy && s.hrv.lanes.any id

def State.hrvDrop (s : State) : State := s.modHrv fun h => { h with rxDrop := h.rxDrop + 1 }

/-- Send a header-only frame: 9 ACK or 10 NAK of a stream. -/
def State.hrvHeader (s : State) (type stream : Nat) : State :=
  let s := s.hrvSend type 2 stream []
  s.modHrv fun h => match h.out.getLast? with
    | some f => { h with out := h.out.dropLast ++ [{ f with w0 := BitVec.ofNat 64 (f.w0.toNat % 2 ^ 40 + 2 ^ 40 * (h.streams.getD stream .fresh).rx.toNat) }] }
    | none => h

/-- Send again every unacknowledged frame of a stream (R379). -/
def State.hrvResend (s : State) (stream : Nat) : State :=
  let x := s.stream stream
  if x.unacked = [] ∨ !s.hrv.lanes.any id then s else
  let now := s.now .horvi
  let s := s.modStream stream fun x => { x with oldest := now }
  s.modHrv fun h => { h with
    out := h.out ++ x.unacked.map fun f => { f with w0 := f.w0 ||| 256 }
    cntResend := h.cntResend + BitVec.ofNat 64 x.unacked.length }

/-- Frames below a PSN of a stream have arrived: updates that waited for them complete (R379, R384). -/
def State.hrvAcked (s : State) (stream : Nat) (psn : BitVec 24) : State :=
  let x := s.stream stream
  match x.unacked with
  | [] => s
  | f :: l =>
    let n := (psn - hrvPsn f).toNat
    if n = 0 ∨ l.length + 1 < n then s else
    let now := s.now .horvi
    let gone := (x.unacked.take n).map hrvPsn
    let s := (s.modStream stream fun x => { x with unacked := x.unacked.drop n, oldest := now }).hrvPump stream
    if stream ≠ 1 then s else
    s.openReqs.foldl (fun (s : State) o =>
      if o.psns = [] then s else
      let left := o.psns.filter fun p => !gone.contains p
      match o.result with
      | some (st, low, rec) => if left = [] then s.closeReq o st low rec else
          { s with openReqs := modWhere s.openReqs (fun y => y.r.id == o.r.id) fun y => { y with psns := left } }
      | none => { s with openReqs := modWhere s.openReqs (fun y => y.r.id == o.r.id) fun y => { y with psns := left } }) s

/-- A frame has passed its ICV check: version and packet number (R378). -/
def State.hrvEnter (s : State) (type : Nat) (f : Frame) (act : State → State) : State :=
  if !s.hrvOn ∨ hrvType f ≠ type then s else
  let a := 2 + b2n (f.w0.toNat.testBit 9)
  if bits f.w0.toNat 3 0 ≠ 1 ∨ hrvPn f ≤ s.hrv.lastPn.getD a 0 then s.hrvDrop else
  act (s.modHrv fun h => { h with lastPn := h.lastPn.set a (hrvPn f) })

/-- A frame of the ORDERED or UPDATE stream: only the PSN expected is accepted, another is answered with a NAK (R379). -/
def State.hrvOrdered (s : State) (type stream : Nat) (f : Frame) (act : State → State) : State :=
  s.hrvEnter type f fun s =>
    let s := s.hrvAcked stream (hrvAckPsn f)
    if hrvPsn f ≠ (s.stream stream).rx then s.hrvHeader 10 stream
    else act (s.modStream stream fun x => { x with rx := x.rx + 1 })

/-- HRV_ACK (R379). -/
def execHrvAck (f : Frame) (s : State) : Host.Outcome State Fault Refusal :=
  .next (s.hrvEnter 9 f fun s => if hrvArg f < 2 then s.hrvAcked (hrvArg f) (hrvAckPsn f) else s)

/-- HRV_NAK (R379): sent again from the PSN expected. -/
def execHrvNak (f : Frame) (s : State) : Host.Outcome State Fault Refusal :=
  .next (s.hrvEnter 10 f fun s => if hrvArg f < 2 then (s.hrvAcked (hrvArg f) (hrvAckPsn f)).hrvResend (hrvArg f) else s)

/-- HRV_BAD_FRAME: discarded and counted (R378). -/
def execHrvBadFrame (s : State) : Host.Outcome State Fault Refusal := .next (if s.hrvOn then s.hrvDrop else s)

/-- HRV_RESEND: 3 µs without an acknowledgement (R379). -/
def execHrvResend (stream : Nat) (s : State) : Host.Outcome State Fault Refusal :=
  .next (if stream < 2 ∧ (s.stream stream).oldest + 3000 ≤ s.now .horvi then s.hrvResend stream else s)

/-- HRV_PURE_ACK (R379). -/
def execHrvPureAck (stream : Nat) (s : State) : Host.Outcome State Fault Refusal :=
  .next (if stream < 2 ∧ s.hrvOn then s.hrvHeader 9 stream else s)

/-! ## Heartbeats and lanes (R377, R390) -/

/-- HEARTBEAT on a lane (R390); heartbeats due and not received are counted when the next one comes. -/
def State.heartbeat (s : State) (lane : Nat) : State :=
  let now := s.now .horvi
  let gap := now - s.hrv.laneSeen.getD lane 0
  s.modHrv fun h => { h with
    laneSeen := h.laneSeen.set lane now
    laneBack := if 6000 ≤ gap then h.laneBack.set lane now else h.laneBack
    hbMiss := h.hbMiss + BitVec.ofNat 64 ((gap - 1) / 2000) }

/-- HEARTBEAT (R390). -/
def execHeartbeat (lane : Nat) (f : Frame) (s : State) : Host.Outcome State Fault Refusal :=
  .next (if 2 ≤ lane then s else s.hrvEnter 1 f fun s => s.heartbeat lane)

/-- HEARTBEAT_SEND: one on each lane that is up (R390). -/
def execHeartbeatSend (s : State) : Host.Outcome State Fault Refusal :=
  .next (if !s.hrvOn then s else
    (s.hrv.lanes.filter id).foldl (fun s _ => s.hrvSend 1 2 (s.now .horvi) []) s)

/-- The report of a lane (R377, R402). -/
def State.laneReport (s : State) (lane : Nat) : State := s.report (stewardReport 0x11 ⟨0x0C, lane, 0⟩ 0 0 0 (s.now .horvi)) 3

/-- LANE_DOWN: no heartbeat for 6 µs on a lane while the other has delivered one (R377). -/
def State.laneDown (s : State) (lane : Nat) : State :=
  let now := s.now .horvi
  let seen (l : Nat) : Nat := s.hrv.laneSeen.getD l 0
  if 2 ≤ lane ∨ !(s.hrv.lanes.getD lane false) ∨ !(s.hrv.lanes.getD (1 - lane) false) ∨ now < seen lane + 6000
    ∨ seen (1 - lane) + 6000 ≤ now then s else
  (s.modHrv fun h => { h with lanes := h.lanes.set lane false, cntLane := h.cntLane + 1, hbMiss := h.hbMiss + 3 }).laneReport lane

/-- LANE_DOWN (R377). -/
def execLaneDown (lane : Nat) (s : State) : Host.Outcome State Fault Refusal := .next (s.laneDown lane)

/-- LANE_RETURN: a lane is used again after 1 ms without loss (R377). -/
def State.laneReturn (s : State) (lane : Nat) : State :=
  let now := s.now .horvi
  if 2 ≤ lane ∨ s.hrv.lanes.getD lane false ∨ !s.hrv.lanes.any id ∨ s.hrv.laneSeen.getD lane 0 + 6000 ≤ now
    ∨ now < s.hrv.laneBack.getD lane 0 + 1000000 then s else
  s.modHrv fun h => { h with lanes := h.lanes.set lane true, cntLane := h.cntLane + 1 }

/-- LANE_RETURN (R377). -/
def execLaneReturn (lane : Nat) (s : State) : Host.Outcome State Fault Refusal := .next (s.laneReturn lane)

/-! ## Forming a pair (R380 to R382) -/

/-- Send a HELLO (R381): RANK, MIRROR_MASK, state; log position; the digests of indices 16 to 32. -/
def State.sendHello (s : State) : State :=
  let h := s.hrv
  s.hrvSend 2 2 0 (Data.clean (ofWords [h.rank + 2 ^ 16 * h.mask + 2 ^ 32 * h.st, h.logPos]
    ++ s.image.measure.flatMap fun d => (d ++ zeros 48).take 48))

/-- States in which identities are compared: HELLO, and SOLO or YIELDED once the link has returned. -/
def Horvi.greets (h : Horvi) : Bool := !h.helloSeen && (h.st == 2 || h.st == 5 || h.st == 6)

/-- HELLO_SEND (R381). -/
def execHelloSend (s : State) : Host.Outcome State Fault Refusal := .next (if s.hrvOn && s.hrv.greets then s.sendHello else s)

/-- HORVI_LANE_TRAINED (R376, R381, R454): a first lane begins the comparison with a HELLO, the streams at PSN 0. -/
def State.laneTrained (s : State) (lane : Nat) : State :=
  if s.model = 2 ∨ 2 ≤ lane ∨ !s.hrv.enable ∨ !s.power.memReady ∨ s.hrv.lanes.getD lane false
    ∨ s.power.plugLow.contains lane then s else
  let first := !s.hrv.lanes.any id
  let now := s.now .horvi
  let s := s.modHrv fun h => { h with
    lanes := h.lanes.set lane true, laneSeen := h.laneSeen.set lane now, laneBack := h.laneBack.set lane now
    cntLane := h.cntLane + 1 }
  if !first ∨ !s.hrv.policy then s else
  let s := (s.modHrv fun h => { h with st := if h.st = 1 then 2 else h.st }).resetStreams
  if s.hrv.greets then s.sendHello else s

/-- HORVI_LANE_TRAINED (R381). -/
def execHorviLaneTrained (lane : Nat) (s : State) : Host.Outcome State Fault Refusal := .next (s.laneTrained lane)

/-! ## Resynchronisation (R383): SYNC frames hold 8 bytes of kind and number in ARG -/

/-- An epoch as a full copy sends it. -/
def Epoch.bytes (e : Epoch) : Bytes :=
  ofWords ([e.table, e.no, e.st, e.rows, e.res, e.cartMask, e.lba, e.bases.length, e.serials.length, e.dflt.length] ++ e.bases)
    ++ e.serials.flatMap (fun x => leBytes 8 x.1 ++ leBytes 8 x.2.length ++ (x.2 ++ zeros 32).take 32) ++ e.dflt

/-- Read it back. -/
def Epoch.parse (b : Bytes) : Epoch :=
  let w (i : Nat) : Nat := wordAt b i
  let ns := w 8
  let at_ := 80 + 8 * w 7
  { table := w 0, no := w 1, st := w 2, rows := w 3, res := w 4, cartMask := w 5, lba := w 6
    bases := (List.range (w 7)).map fun i => w (10 + i)
    serials := (List.range ns).map fun i =>
      let x := b.drop (at_ + 48 * i)
      (wordAt x 0, (x.drop 16).take (wordAt x 1))
    dflt := (b.drop (at_ + 48 * ns)).take (w 9), sweep := false }

/-- Send a SYNC message in frames of 4,096 bytes; ARG holds kind [3:0], last frame [4] and a number from bit 8. -/
def State.sendSync (s : State) (kind n : Nat) (d : Data) : State :=
  let d := d ++ Data.clean (zeros ((16 - d.length % 16) % 16))
  let cs := if d = [] then [(0, 0)] else chunks 4096 0 d.length
  cs.foldl (fun s c => s.hrvSend 8 0 (kind + 16 * b2n (decide (d.length ≤ c.1 + c.2)) + 2 ^ 8 * n) ((d.drop c.1).take c.2)) s

/-- Send the log from a position (R383, R389). -/
def State.sendLog (s : State) (pos : Nat) : State :=
  let s := (s.hrv.log.filter fun e => pos ≤ e.1).foldl (fun s e => s.sendSync 1 e.1 (Data.clean e.2)) s
  s.modHrv fun h => { h with syncPos := h.logPos }

/-- The rows of an epoch that lie in device memory. -/
def State.sendRows (s : State) (t : TableEntry) (ep : Epoch) : State :=
  (List.range ep.res).foldl (fun s row =>
    let (d, s) := s.areaRead 3 t.part (t.home (some ep) row) (t.rowOff ep row) t.len
    s.sendSync 3 row (Data.clean (ofWords [ep.table, ep.no]) ++ d)) s

/-- A full copy: every non-free epoch of every mirrored table, PUBNO of each partition, then every mirror window. -/
def State.sendFull (s : State) : State :=
  let ts := s.tables.filter fun t => s.mirrored t.part
  let s := ts.foldl (fun (s : State) t =>
    let eps := s.epochs.filter fun e => e.table == t.table && e.st != 0
    let s := s.sendSync 4 t.table (Data.clean (ofWords (t.lastEpoch :: eps.map (·.no))))
    eps.foldl (fun s ep => (s.sendSync 2 0 (Data.clean ep.bytes)).sendRows t ep) s) s
  let s := (List.range 16).foldl (fun (s : State) p =>
    if !s.mirrored p then s else
    let s := s.sendSync 5 p (Data.clean (ofWords [(s.part p).pubno]))
    let (lo, hi) := s.window p
    if lo < hi then s.sendWindow p lo (hi - lo) else s) s
  s.modHrv fun h => { h with syncPos := h.logPos }

/-- The source begins (R383): the log where it still holds every update after the destination's position, else a full copy;
a destination that was SOLO gets a full copy (R382). -/
def State.beginSource (s : State) (pos : Nat) (soloThere : Bool) : State :=
  let h := s.hrv
  let first := match h.log with | e :: _ => e.1 | [] => h.logPos
  if !soloThere ∧ first ≤ pos ∧ pos ≤ h.logPos then s.sendLog pos else s.sendFull

/-- HELLO (R381, R382): the identities are compared, then SYNC begins. -/
def State.hello (s : State) (d : Bytes) : State :=
  let w := wordAt d 0
  let h := s.hrv
  let same := bits w 15 0 ≠ h.rank ∧ bits w 31 16 = h.mask
    ∧ (d.drop 16).take 816 = s.image.measure.flatMap fun x => (x ++ zeros 48).take 48
  let s := s.modHrv fun h => { h with helloSeen := true }
  if !decide same then
    (s.modHrv fun h => { h with st := 7 }).steward 0x14 ⟨0, 0, 0⟩ 0 0 0 3
  else
    let there := bits w 39 32
    let source := if h.st = 5 ∧ there ≠ 5 then true else if h.st ≠ 5 ∧ there = 5 then false else h.rank == 1
    let s := s.modHrv fun h => { h with st := 3, source, syncEnd := false, toReplay := if source then h.toReplay else [] }
    let s := (List.range 16).foldl (fun (s : State) p => if s.mirrored p then s.reopen p else s) s
    if source then s.beginSource (wordAt d 1) (there == 5) else s

/-- HELLO (R381). -/
def execHello (f : Frame) (s : State) : Host.Outcome State Fault Refusal :=
  .next (s.hrvEnter 2 f fun s => if s.hrv.greets then s.hello f.payload else s)

/-- Hand an UPDATE message to a front end (R384): it applies to the epoch that it names. -/
def State.applyUpdate (s : State) (d : Bytes) : State :=
  let w0 := wordAt d 0
  let t := bits w0 11 0
  let n := bits w0 63 32
  let epoch := bits (wordAt d 1) 31 0
  let entry := bits (wordAt d 1) 63 32
  let op := bits w0 15 12
  let body := 32 + (4 * n + 7) / 8 * 8
  match s.anyTable t with
  | none => s
  | some e =>
    let words := [op + 2 ^ 12 * bits w0 31 24 + 2 ^ 16 * t, n + 2 ^ 32 * 0xFFFFFFFF, 0, 0, 0,
      pad16 entry + 2 ^ 32 * bits w0 23 16, wordAt d 2, 0]
    let (id, s) := s.newId
    let r : Request := { Request.ofWords op .lc words e.part with
      id, mirror := some epoch, idx := leList 4 n (d.drop 32)
      rows := (List.range n).map fun i => (d.drop (body + i * entry)).take entry }
    s.modDie (s.peerDie t) fun x => { x with queue := x.queue ++ [r] }

/-- A SYNC message at the destination. -/
def State.takeSync (s : State) (kind n : Nat) (d : Data) : State :=
  let b := d.bytes
  match kind with
  | 0 => s.modHrv fun h => { h with syncEnd := true, logPos := max h.logPos n }
  | 1 => s.applyUpdate b
  | 2 =>
    let ep := Epoch.parse b
    if (s.tablePart ep.table).isNone then s else
    { s with epochs := s.epochs.filter (fun e => !(e.table == ep.table && e.no == ep.no)) ++ [ep] }
  | 3 =>
    match s.anyTable (wordAt b 0), s.epoch (wordAt b 0) (wordAt b 1) with
    | some t, some ep => s.areaWrite 3 t.part (t.home (some ep) n) (t.rowOff ep n) ((d.drop 16).take t.len)
    | _, _ => s
  | 4 =>
    let keep := (List.range (b.length / 8 - 1)).map fun i => wordAt b (i + 1)
    let s := s.dropEpochs fun e => e.table == n && !keep.contains e.no
    { s with tables := modWhere s.tables (fun t => t.table == n) fun t => { t with lastEpoch := wordAt b 0 } }
  | 5 => s.modPart n fun u => { u with pubno := wordAt b 0 }
  | _ => s

/-- SYNC (R383): the frames of a message are joined up to its last. -/
def execSync (f : Frame) (s : State) : Host.Outcome State Fault Refusal :=
  .next (s.hrvOrdered 8 0 f fun s =>
    if s.hrv.st ≠ 3 ∨ s.hrv.source then s else
    let a := hrvArg f
    let d : Data := s.hrv.syncBuf ++ hrvBody f
    if a.testBit 4 then (s.modHrv fun h => { h with syncBuf := [] }).takeSync (a % 16) (a / 2 ^ 8) d
    else s.modHrv fun h => { h with syncBuf := d })

/-- SYNC_COMPLETE (R383): at the source, with everything acknowledged and the log sent to its end, the end of the copy and the
valid journal records go out; at the destination, once that end has come, admission opens and PAIR_SYNC is written. -/
def State.syncComplete (s : State) : State :=
  let h := s.hrv
  if h.st ≠ 3 then s else
  if h.source then
    let x := s.stream 0
    if x.unacked ≠ [] ∨ x.waiting ≠ [] then s else
    if h.syncPos < h.logPos then s.sendLog h.syncPos else
    let s := s.sendSync 0 h.logPos []
    let s := h.own.foldl (fun s e => s.hrvSend 3 0 e.1 (Data.clean e.2)) s
    (s.modHrv fun h => { h with st := 4, source := false }).steward 0x15 ⟨0, 0, 0⟩ 0 0 0 0
  else if h.syncEnd then
    let n := h.overwritten
    let s := s.modHrv fun h => { h with st := 4, syncEnd := false, overwritten := 0 }
    let s := (List.range 16).foldl (fun (s : State) p => if s.mirrored p then s.reopen p else s) s
    s.steward 0x15 ⟨0, 0, 0⟩ 0 n 0 0
  else s

/-- SYNC_COMPLETE (R383). -/
def execSyncComplete (s : State) : Host.Outcome State Fault Refusal := .next s.syncComplete

/-! ## Mirrored work (R384 to R388) -/

/-- HRV_UPDATE (R384): a message is complete when the bytes that its fourth word gives have come. -/
def execHrvUpdate (f : Frame) (s : State) : Host.Outcome State Fault Refusal :=
  .next (s.hrvOrdered 5 1 f fun s =>
    let b := (if hrvArg f = 0 then [] else s.hrv.updBuf) ++ f.payload
    if 32 ≤ b.length ∧ wordAt b 3 ≤ b.length then (s.modHrv fun h => { h with updBuf := [] }).applyUpdate b
    else s.modHrv fun h => { h with updBuf := b })

/-- Answer a mirrored command (R385). -/
def State.commandDone (s : State) (op p table : Nat) : State := s.hrvSend 6 0 (2 ^ 63 + op + 2 ^ 8 * p + 2 ^ 16 * table) []

/-- A mirrored command arrives (R385): rank 1 runs it and sends it back in order; rank 0 runs it and answers. -/
def State.command (s : State) (a : Nat) (d : Bytes) : State :=
  let op := bits a 7 0
  let p := bits a 15 8
  let table := bits a 31 16
  let mine := a.testBit 62
  let d := if op = 8 then d.take 48 else d
  let c : MirrorCmd := ⟨op, p, table, d, mine⟩
  if op = 8 then (s.modHrv fun h => { h with cmds := h.cmds ++ [{ c with own := false }] }).tryPartnerCommit else
  if s.hrv.rank = 1 then
    let c := { c with own := false }
    let s := s.modHrv fun h => { h with cmds := h.cmds ++ [c] }
    if op = 9 then (s.partReset p).sendCommand c else
    let (done, s) := s.tblRun op p table d false
    if done then s.sendCommand c else s
  else
    let keep := s.hrv.cmds.find? fun x => x.own && x.op == op && x.part == p && x.table == table
    let forget (s : State) : State := match keep with
      | some x => if mine then s.modHrv fun h => { h with cmds := h.cmds.erase x } else s
      | none => s
    if op = 9 then ((forget s).partReset p).commandDone op p table else
    let (done, s) := s.tblRun op p table d mine
    if done then ((forget s).commandDone op p table).tblIdle p
    else if mine then s else s.modHrv fun h => { h with cmds := h.cmds ++ [c] }

/-- COMMAND (R385). -/
def execCommand (f : Frame) (s : State) : Host.Outcome State Fault Refusal :=
  .next (s.hrvOrdered 6 0 f fun s => if s.hrv.st = 4 ∧ !(hrvArg f).testBit 63 then s.command (hrvArg f) f.payload else s)

/-- COMMAND_DONE (R385): BUSY clears where the command was written, and rank 1 releases the hold of a publication. -/
def State.takeCommandDone (s : State) (a : Nat) : State :=
  let op := bits a 7 0
  let p := bits a 15 8
  let table := bits a 31 16
  match s.hrv.cmds.find? fun c => c.op == op && (op == 8 || (c.part == p && c.table == table)) with
  | none => s
  | some c =>
    let s := s.modHrv fun h => { h with cmds := h.cmds.erase c }
    if op = 8 then (if c.own ∧ s.image.waitPartner then s.beginCommit else s) else
    let hold := (s.bindings.filter fun b => b.kind == 4 && b.part == p).map (·.handle)
    let s := if op = 2 ∨ op = 7 then
        match hold with
        | [] => s
        | x :: l => let m := l.foldl min x; s.releaseIf fun b => b.kind == 4 && b.part == p && b.handle == m
      else s
    s.tblIdle p

/-- COMMAND_DONE (R385). -/
def execCommandDone (f : Frame) (s : State) : Host.Outcome State Fault Refusal :=
  .next (s.hrvOrdered 6 0 f fun s => if s.hrv.st = 4 ∧ (hrvArg f).testBit 63 then s.takeCommandDone (hrvArg f) else s)

/-- WINDOW (R386): written where the partition translates it with WRITE, else discarded and counted. -/
def execWindow (f : Frame) (s : State) : Host.Outcome State Fault Refusal :=
  .next (s.hrvOrdered 7 0 f fun s =>
    let p := bits (hrvArg f) 60 57
    let a := addr57 (hrvArg f)
    if (s.refused p a f.payload.length).isSome then s.modHrv fun h => { h with winDrop := h.winDrop + 1 }
    else s.vwrite .horvi p a (hrvBody f))

/-- The epoch of a table that was CURRENT after publication n of its partition (R385, R388). -/
def State.epochAfter (s : State) (p t n : Nat) : Nat :=
  let holds := (s.bindings.filter fun b => b.kind == 4 && b.part == p && b.table == t && decide (2 ^ 33 + n < b.handle))
  match holds with
  | [] => ((s.current t).map (·.no)).getD 0
  | x :: l => (l.foldl (fun m b => if b.handle < m.handle then b else m) x).epoch

/-- JOURNAL (R388): the partner record is kept, and the epochs of its tables bound. -/
def State.takeJournal (s : State) (slot : Nat) (d : Bytes) : State :=
  let p := journalPart d
  let n := bits (wordAt d 3) 31 0
  let s := s.modHrv fun h => { h with partner := h.partner.filter (fun e => e.1 != slot) ++ [(slot, d)] }
  let new := s.tables.filterMap fun e => if e.part ≠ p then none else
    let ep := s.epochAfter p e.table n
    if ep = 0 then none else some (⟨journalHandle slot, 3, p, e.table, ep⟩ : Binding)
  { s with bindings := s.bindings.filter (fun b => !(b.kind == 3 && b.handle == journalHandle slot)) ++ new }

/-- JOURNAL (R388). -/
def execJournal (f : Frame) (s : State) : Host.Outcome State Fault Refusal :=
  .next (s.hrvOrdered 3 0 f fun s => s.takeJournal (hrvArg f % 65536) (f.payload.take 256))

/-- JOURNAL_DONE (R388). -/
def execJournalDone (f : Frame) (s : State) : Host.Outcome State Fault Refusal :=
  .next (s.hrvOrdered 4 0 f fun s =>
    let slot := hrvArg f % 65536
    (s.modHrv fun h => { h with partner := h.partner.filter fun e => e.1 != slot }).releaseIf fun b =>
      b.kind == 3 && b.handle == journalHandle slot)

/-! ## Loss (R390, R391) -/

/-- The record of a loss (R390, R391, R402). -/
def State.lossRecord (s : State) (sub : Nat) : State :=
  ((s.modHrv fun h => { h with loss := h.loss + 1 }).steward 0x12 ⟨0, 0, 0⟩ sub 0 0 3).modHealth fun h =>
    { h with alert := h.alert ||| 64 }

/-- What the steward does after a loss: rank 0 with a port up probes first. -/
def State.lossAction (s : State) (goodbye : Bool) : State :=
  if s.hrv.rank = 1 ∨ goodbye ∨ !(s.net.ports.any (·.up)) then s.takeover else
  let k := bits (s.reg 0x3600000) 13 4
  let (m, s) := s.newMsg k
  let due := s.now .steward + 1000 * bits (s.reg 0x3600000) 20 16
  let s := s.modHrv fun h => { h with probe := some due, probeMsg := some m }
  s.netMessage k 2 false .lc 0 m 0 (Data.clean (ofWords [16, 0]))

/-- PARTNER_LOSS: neither lane has delivered a heartbeat for 6 µs. -/
def State.partnerLoss (s : State) : State :=
  let now := s.now .horvi
  if !s.hrvOn ∨ s.hrv.laneSeen.any (fun t => decide (now < t + 6000)) then s else
  let st := s.hrv.st
  let s := s.modHrv fun h => { h with
    lanes := [false, false], hbMiss := h.hbMiss + 6, st := if h.st = 2 ∨ h.st = 7 then 1 else h.st
    cntLane := h.cntLane + BitVec.ofNat 64 (h.lanes.filter id).length }
  if st = 3 ∨ st = 4 then (s.lossRecord 0).lossAction false else s

/-- PARTNER_LOSS (R390). -/
def execPartnerLoss (s : State) : Host.Outcome State Fault Refusal := .next s.partnerLoss

/-- GOODBYE: a loss on the edge it arrives, with no probe (R390). -/
def State.goodbye (s : State) (reason : Nat) : State :=
  let st := s.hrv.st
  if st = 3 ∨ st = 4 then (s.lossRecord (if reason = 1 then 1 else 2)).takeover
  else s.modHrv fun h => { h with helloSeen := false }

/-- GOODBYE (R390). -/
def execGoodbye (f : Frame) (s : State) : Host.Outcome State Fault Refusal :=
  .next (s.hrvEnter 11 f fun s => s.goodbye (hrvArg f))

/-- PROBE_WINDOW_EXPIRY: no DONE within PROBE_US (R391). -/
def execProbeWindowExpiry (s : State) : Host.Outcome State Fault Refusal :=
  .next (match s.hrv.probe with
    | some t => if t ≤ s.now .steward then s.takeover else s
    | none => s)

/-! ## Registers (R395, R396) -/

/-- HRV_CFG[LINK_EN]: clearing it sends GOODBYE with reason 2 and enters OFF. -/
def State.linkEn (s : State) (b : Bool) : State :=
  if s.model = 2 ∨ s.hrv.enable = b then s else
  if b then s.modHrv fun h => { h with enable := true, st := if h.policy then 1 else 0 } else
  let s := if s.hrvOn then s.hrvSend 11 2 2 [] else s
  let s := s.unpair 0 false
  let s := (s.modHrv fun h => { h with enable := false, lanes := [false, false], partner := [], toReplay := [] }).releaseIf fun b => b.kind == 3
  (List.range 16).foldl (fun (s : State) p => if s.mirrored p then s.reopen p else s) s

/-- HRV_LINK_EN (R396). -/
def execHrvLinkEn (b : Bool) (s : State) : Host.Outcome State Fault Refusal := .next (s.linkEn b)

/-- HRV_SAK_WRITE (R395): a new key starts its packet numbers again. -/
def execHrvSakWrite (a word : Nat) (val : BitVec 64) (s : State) : Host.Outcome State Fault Refusal :=
  .next (if s.model = 2 ∨ 4 ≤ a ∨ 8 ≤ word then s else
    s.modHrv fun h => { h with sak := h.sak.set (8 * a + word) val, lastPn := h.lastPn.set a 0 })

end Sys2Proof.Machine
end

