-- ==== Sys2Proof/Machine/Larks.lean ====
section
/-! DEFINITION. Larkspur records (R416, R417, R425) and the die-to-die links (R21 to R24). -/
namespace Sys2Proof.Machine

/-! ## The record (R416) -/

/-- Class, lifetime count and newest events of a slot; an empty slot is all ones where it holds minutes. -/
def LarkSlot.bytes (x : Option LarkSlot) : Bytes :=
  match x with
  | none => zeros 8 ++ List.replicate 16 0xFF
  | some x => leBytes 4 x.cls ++ leBytes 4 x.lifetime
      ++ (List.range 4).flatMap fun i => leBytes 4 (x.recent.getD i 0xFFFFFFFF)

/-- A signed number in n bytes. -/
def leSigned (n : Nat) (v : Int) : Bytes := leBytes n (v % (2 ^ (8 * n) : Nat)).toNat

/-- The 512 bytes of a record at powered minute t. -/
def Lark.bytes (l : Lark) (t : Nat) : Bytes :=
  let body :=
    leBytes 2 0x6C4B ++ leBytes 1 1 ++ leBytes 1 l.unit.kind ++ leBytes 2 l.unit.index ++ leBytes 1 l.unit.sub ++ leBytes 1 l.st
      ++ leBytes 4 (t / 60) ++ leBytes 4 l.perm ++ leBytes 4 l.updated ++ zeros 4
      ++ (List.range 8).flatMap (fun i => LarkSlot.bytes l.slots[i]?)
      ++ leBytes 4 l.jigRuns ++ leBytes 4 l.jigFails ++ leBytes 4 l.jigLast ++ leBytes 2 l.history.toNat ++ leBytes 1 l.lastCode
      ++ zeros 1 ++ leBytes 2 l.interval ++ leBytes 1 l.margins.length ++ zeros 1
      ++ (List.range 32).flatMap (fun i => match l.margins[i]? with
          | some (mv, ps) => leBytes 2 mv ++ leBytes 2 ps
          | none => zeros 4)
      ++ (List.range 8).flatMap (fun i => match l.repairs[i]? with
          | some (a, d, loc, m) => leBytes 1 a ++ leBytes 1 d ++ leBytes 2 loc ++ leBytes 4 m
          | none => zeros 8)
      ++ l.tempH.flatMap (leBytes 4) ++ leSigned 2 l.tempMax ++ zeros 46
  body ++ leBytes 4 (crc32c body)

/-- A unit that has a record on this part (R400, R416). -/
def State.larkExists (s : State) (u : UnitId) : Bool :=
  let below (n : Nat) : Bool := decide (u.index < n)
  match u.kind with
  | 0x01 => below (40 * s.dieCount) && u.sub == 0
  | 0x02 => below s.stackCount && u.sub == 0
  | 0x03 => below s.stackCount && decide (u.sub < 64)
  | 0x04 => decide (u.sub < 8)
  | 0x05 => below s.dieCount && u.sub == 0
  | 0x07 => below 1
  | 0x08 => below 16 && u.sub == 0
  | 0x09 => below (portsOf s.model)
  | 0x0A => decide (0 < portsOf s.model) && below 1 && u.sub == 0
  | 0x0B => decide (0 < portsOf s.model) && below 1024 && u.sub == 0
  | 0x0C => decide (0 < portsOf s.model) && below 2
  | 0x0D => below (cartsOf s.model) && u.sub == 0
  | _ => false

/-- A record as FAULT_LARK_DATA and LARK_READ show it. -/
def State.larkBytes (s : State) (u : UnitId) : Bytes :=
  if s.larkExists u then (s.lark u).bytes (s.minutes u) else zeros 512

/-- The unit that FAULT_LARK_SEL names (R425). -/
def selUnit (v : Nat) : UnitId := ⟨bits v 7 0, bits v 23 8, bits v 31 24⟩

/-- A write of FAULT_LARK_SEL starts a copy (R425). -/
def State.larkSelWrite (s : State) (val : Nat) : State :=
  (s.setReg (faultBase + 0x400) (val % 2 ^ 32)).modHealth fun h => { h with larkBusy := true }

/-- LARK_SEL_WRITE (R425). -/
def execLarkSelWrite (val : BitVec 64) (s : State) : Host.Outcome State Fault Refusal := .next (s.larkSelWrite val.toNat)

/-- LARK_COPY_DONE (R425). -/
def execLarkCopyDone (s : State) : Host.Outcome State Fault Refusal :=
  let u := selUnit (s.reg (faultBase + 0x400))
  .next (if !s.health.larkBusy then s else
    s.modHealth fun h => { h with larkBusy := false, larkValid := s.larkExists u, larkData := s.larkBytes u })

/-- LARK_FLUSH (R417): every record goes to flash, with the minutes that the module has been powered. -/
def execLarkFlush (s : State) : Host.Outcome State Fault Refusal :=
  let m := s.mtime.toNat / 60000000000
  .next (s.modHealth fun h =>
    let ls := h.larks.map fun l => { l with dirty := false }
    { h with larks := ls, flash := ls.map fun l => { l with powered := l.powered + m }, flashMin := h.baseMin + m })

/-- MARGIN_SAMPLE (R416): with 32 samples held every second one goes and the interval doubles; a low margin is reported. -/
def State.marginSample (s : State) (u : UnitId) (mv ps : Nat) : State :=
  if !s.larkExists u then s else
  let s := s.modLark u fun l =>
    let l := if 32 ≤ l.margins.length then
        { l with margins := (l.margins.zipIdx.filter fun x => x.2 % 2 == 0).map Prod.fst, interval := 2 * l.interval } else l
    { l with margins := l.margins ++ [(mv % 65536, ps % 65536)], dirty := true }
  if mv < 25 ∨ ps < 10 then s.steward 0x1B u 0 0 0 0 else s

/-- MARGIN_SAMPLE (R416). -/
def execMarginSample (unit : UnitId) (mv ps : Nat) (s : State) : Host.Outcome State Fault Refusal :=
  .next (s.marginSample unit mv ps)

/-! ## Die-to-die links (R20 to R24) -/

/-- Column and row of CDd (R20). -/
def State.diePlace (s : State) (d : Nat) : Nat × Nat :=
  match s.model with | 0 => (d % 4, d / 4) | 1 => (d % 2, d / 2) | _ => (d, 0)

/-- An edge code of R400 that the part has (R20, R22). -/
def State.edgeExists (s : State) (e : Nat) : Bool :=
  let n := s.dieCount
  if e < 0x80 then
    let a := e / 16
    let b := e % 16
    let (ca, ra) := s.diePlace a
    let (cb, rb) := s.diePlace b
    decide (a < b) && decide (b < n) && ((ra == rb && cb == ca + 1) || (ca == cb && rb == ra + 1))
  else if e < 0x90 then decide (e - 0x80 < n) && (s.diePlace (e - 0x80)).1 == 0
  else if e < 0xA0 then
    decide (0 < portsOf s.model) && decide (e - 0x90 < n) && (s.diePlace (e - 0x90)).1 == (if s.model = 0 then 3 else 1)
  else e == 0xA0

/-- UCIe modules of an edge: eight, and one between the steward die and IOD-H (R21, R22). -/
def ucieModules (e : Nat) : Nat := if e = 0xA0 then 1 else 8

/-- The module is in service. -/
def State.ucieUp (s : State) (e m : Nat) : Bool :=
  s.edgeExists e && decide (m < ucieModules e) && !s.health.ucieLost.contains (e, m)

/-- LINK_RETRY (R23, R402): counted, and reported at most once per second and edge, stamped by the steward's MTIME copy (R29 leaves open
which island's: DESIGN CHOICE, log entry 50). -/
def State.linkRetry (s : State) (e m : Nat) : State :=
  if !s.ucieUp e m then s else
  let now := s.now .steward
  let (n, last) : Nat × Option Nat := match s.health.retries.find? fun x => x.1 == e with
    | some (_, n, t) => (n + 1, some t)
    | none => (1, none)
  let due := match last with | some t => decide (t + 1000000000 ≤ now) | none => true
  let put (s : State) (n t : Nat) : State := s.modHealth fun h => { h with
    retries := h.retries.filter (fun x => x.1 != e) ++ [(e, n, t)] }
  if due then
    (put s 0 now).report { stewardReport 0x0E ⟨4, e, m⟩ 0 n 0 now with selfReport := true } 1
  else put s n (last.getD now)

/-- LINK_RETRY (R23). -/
def execLinkRetry (edge ucie : Nat) (s : State) : Host.Outcome State Fault Refusal := .next (s.linkRetry edge ucie)

/-- LANE_REPAIR (R23, R24): a redundant lane of the module takes over; with none left the module goes out of service, and an
edge without a module makes the module suspect. Its report is stamped by the steward's MTIME copy, and traffic that was to cross an edge
without a module still arrives (DESIGN CHOICE, log entry 50). -/
def State.laneRepair (s : State) (e m lane : Nat) : State :=
  if !s.ucieUp e m then s else
  let now := s.now .steward
  let used := match s.health.laneUsed.find? fun x => x.1 == (e, m) with | some x => x.2 | none => 0
  let rep := stewardReport 0x0D ⟨4, e, m⟩ 0 lane 0 now
  if used < Config.laneSpares e m then
    let s := s.modHealth fun h => { h with laneUsed := h.laneUsed.filter (fun x => x.1 != (e, m)) ++ [((e, m), used + 1)] }
    (s.larkRepair ⟨4, e, m⟩ 8 0 lane).report rep 1
  else
    let s := s.modHealth fun h => { h with ucieLost := h.ucieLost ++ [(e, m)] }
    let s := s.modLark ⟨4, e, m⟩ fun l => { l with st := 3, dirty := false }
    let s := s.report rep 3
    if (List.range (ucieModules e)).any (fun k => s.ucieUp e k) then s else s.makeSuspect 0x0D

/-- LANE_REPAIR (R23). -/
def execLaneRepair (edge ucie lane : Nat) (s : State) : Host.Outcome State Fault Refusal := .next (s.laneRepair edge ucie lane)

end Sys2Proof.Machine
end

