-- ==== Sys2Proof/Machine/Reset.lean ====
section
/-! DEFINITION. The cold and warm resets of the module (R456 to R460), the loss of main power (R449), and the fatal events that
start one (R407). -/
namespace Sys2Proof.Machine

/-! ## What an island keeps when it restarts -/

/-- The positions' part of the repair map (R419): which position carries which logical cell, and which are RETIRED. A
position in TEST starts as SPARE. -/
def Cell.reborn (c : Cell) (pos : Nat) : Cell :=
  { Cell.fresh pos with logical := c.logical, st := if c.st = 7 then 7 else if c.logical.isSome then 0 else 6 }

/-- A cell restarts with its counters and clock limits (R457, R459). -/
def Cell.restart (c : Cell) (pos : Nat) : Cell :=
  { c.reborn pos with cnt := c.cnt, port := StreamPort.fresh.counted c.port, mhz := c.mhz, ceil := c.ceil, mv := c.mv }

/-- A stack's controller restarts with its repairs; `keep` says whether its counters stay. -/
def Stack.restart (m : Stack) (keep : Bool) : Stack :=
  let x : Stack := { Stack.fresh with repairs := m.repairs, spares := m.spares, pendingHard := m.pendingHard, failed := m.failed, lost := m.lost }
  if !keep then x else { x with
    regs := List.zipWith (fun (n o : Regulator) => { n with bytes := o.bytes, waits := o.waits, borrows := o.borrows }) x.regs m.regs
    scrubPasses := m.scrubPasses, scrubPos := m.scrubPos, cntRd := m.cntRd, cntWr := m.cntWr, cntMerge := m.cntMerge
    cntEvict := m.cntEvict, cntRdDrain := m.cntRdDrain, cntRelDrain := m.cntRelDrain, cntCorr := m.cntCorr
    cntUncorr := m.cntUncorr, cntPpr := m.cntPpr }

/-- A row engine restarts with its counters; one whose stack has failed stays FAILED (R214). -/
def Engine.restart (e : Engine) : Engine :=
  { Engine.fresh with
    st := if e.mem.failed ∨ e.mem.lost ≠ [] then 3 else 0, cnt := e.cnt, lastRepl := e.lastRepl, mhz := e.mhz, ceil := e.ceil, mv := e.mv
    mem := e.mem.restart true }

/-- A partition with nothing but its counters (R321). -/
def Partition.restart (u : Partition) : Partition :=
  { Partition.fresh with
    cntAdmitLc := u.cntAdmitLc, cntAdmitBe := u.cntAdmitBe, cntPreempt := u.cntPreempt, cntSliceOver := u.cntSliceOver
    cntSliceEnd := u.cntSliceEnd, cntLate := u.cntLate, cntMoves := u.cntMoves, cntJigDefer := u.cntJigDefer
    cntCqWait := u.cntCqWait, lcWaitMax := u.lcWaitMax }

/-- Table service with nothing but its counters (R151). -/
def TableSvc.restart (t : TableSvc) : TableSvc :=
  { TableSvc.fresh with
    cntColdMiss := t.cntColdMiss, cntSubst := t.cntSubst, cntColdDrop := t.cntColdDrop, cntReplMade := t.cntReplMade
    cntReplWithdrawn := t.cntReplWithdrawn, cntHit := t.cntHit, cntMiss := t.cntMiss, cntReject := t.cntReject }

/-- Translation with nothing but its counters (R267). -/
def XltCmd.restart (x : XltCmd) : XltCmd :=
  { XltCmd.fresh with cntMiss := x.cntMiss, cntInval := x.cntInval, cntFault := x.cntFault }

/-- A copy engine with nothing but its counters (R352). -/
def CopyEngine.restart (c : CopyEngine) : CopyEngine :=
  { CopyEngine.fresh with
    mhz := c.mhz, ceil := c.ceil, mv := c.mv, cntBytes := c.cntBytes, cntDesc := c.cntDesc, cntLost := c.cntLost
    cntReplay := c.cntReplay, cntPoison := c.cntPoison }

/-- The host function with nothing but its counters (R351); the link has been up since power-on or not. -/
def HostIf.restart (h : HostIf) : HostIf :=
  { HostIf.fresh with
    wasUp := h.wasUp, mhz := h.mhz, ceil := h.ceil, mv := h.mv, cntRecovery := h.cntRecovery, cntLinkdown := h.cntLinkdown
    cntHotreset := h.cntHotreset, cntUnmapped := h.cntUnmapped, cntCto := h.cntCto, cntReq := h.cntReq
    cntDbLost := h.cntDbLost }

/-- A port keeps its spare lane (R355) and, where `keep` says so, its counters. -/
def Port.restart (p : Port) (keep : Bool) : Port :=
  let x : Port := { Port.fresh with spared := p.spared, lowPower := p.lowPower }
  if keep then { x with tx := p.tx, rx := p.rx, fecCorr := p.fecCorr, fecUncorr := p.fecUncorr, drop := p.drop } else x

/-- The network engine with nothing but its counters (R375). -/
def Net.restart (n : Net) (model : Nat) : Net :=
  { Net.fresh model with
    ports := n.ports.map fun p => p.restart true, mhz := n.mhz, ceil := n.ceil, mv := n.mv, unknownPeer := n.unknownPeer
    other := n.other, resend := n.resend, redRedo := n.redRedo, redFail := n.redFail }

/-- The Horvi function with nothing but its counters (R396). -/
def Horvi.restart (h : Horvi) : Horvi :=
  { Horvi.fresh with
    mhz := h.mhz, ceil := h.ceil, mv := h.mv, hbMiss := h.hbMiss, cntLane := h.cntLane, cntResend := h.cntResend
    rxDrop := h.rxDrop, loss := h.loss, replayed := h.replayed, yields := h.yields, winDrop := h.winDrop }

/-- A bay whose cartridge is to be inserted afresh (R431, R459); `warm` keeps its counters and an OFFLINE link (R433). -/
def Bay.restart (b : Bay) (warm : Bool) : Bay :=
  if warm then { Bay.fresh with
    present := b.present, st := if b.st = 8 then 8 else 0, linkPerm := b.linkPerm, rdPages := b.rdPages, wrPages := b.wrPages
    rdErr := b.rdErr, wrRefused := b.wrRefused, droppedPages := b.droppedPages }
  else { Bay.fresh with present := b.present }

/-- The steward restarts: a ring is disabled and keeps what it holds (R405, R459); no test and no drain runs. -/
def Health.restart (h : Health) : Health :=
  { h with
    draining := false, drainedAll := false, wholeDrain := false, larkBusy := false, shadowPairs := [], retries := []
    jigs := h.jigs.map Jig.ended, reJigs := h.reJigs.map Jig.ended, netJig := h.netJig.ended }

/-- Registers of the steward's standby domain, which a warm reset keeps (R457): the caps, and the fault block but ENABLE of
its rings. -/
def keptReg (off : Nat) : Bool :=
  off == 0x408 || (decide (faultBase ≤ off) && decide (off < faultBase + 0x1000) && !([8, 0x28, 0x48].contains (off - faultBase)))

/-- The firmware bank activated at a reset is the one written last, where it verifies (R451, R454). -/
def Power.activate (p : Power) : Power :=
  let new := 1 - p.activeBank % 2
  { p with
    activeBank := if p.newFirmware && Config.firmwareVerifies (p.firmware.getD new []) then new else p.activeBank
    newFirmware := false }

/-! ## Module warm reset (R457) -/

/-- Steps 4 to 6 of R457: buffers drained, the link taken down, every island but the steward's standby domain restarted. The
frame map last committed is remembered for R290. -/
def State.warmFinish (s : State) : State :=
  let s := s.drainAll
  let f := State.resetOf s.model
  { f with
    pending := s.pending, mtime := s.mtime, drawn := s.drawn, nextId := s.nextId, nextHandle := s.nextHandle
    regs := s.regs.filter fun e => keptReg e.1
    mem := s.mem, host := s.host
    cells := s.cells.mapIdx fun i c => c.restart i
    dies := s.dies.map fun d => { Die.fresh with ceil := d.ceil, mhz := d.mhz, mv := d.mv }
    engines := s.engines.map Engine.restart
    tsvc := s.tsvc.map TableSvc.restart
    cmp := s.cmp.map CmpCtx.forgotten
    xlt := s.xlt.map XltCmd.restart
    hot := { f.hot with untracked := s.hot.untracked, lost := s.hot.lost }
    image := { f.image with lastFrames := if s.image.frames = [] then s.image.lastFrames else s.image.frames }
    parts := s.parts.map Partition.restart
    ces := s.ces.map CopyEngine.restart
    hif := s.hif.restart
    net := s.net.restart s.model
    hrv := s.hrv.restart
    health := s.health.restart
    carts := { f.carts with bays := s.carts.bays.map fun b => b.restart true, written := s.carts.written, nextId := s.carts.nextId
                            mhz := s.carts.mhz, ceil := s.carts.ceil, mv := s.carts.mv }
    power := { s.power.activate with
      boot := 3, memReady := false, imageReady := false, resetting := true, shutting := false, lastReset := 2, partReset := 0
      suspectHold := s.health.suspect }
    ctlMhz := s.ctlMhz, ctlCeil := s.ctlCeil, ctlMv := s.ctlMv, stewMhz := s.stewMhz, stewCeil := s.stewCeil, stewMv := s.stewMv }

/-- A warm reset that writes landing pages back goes on once none is dirty or being written. -/
def State.warmTry (s : State) : State :=
  if s.power.shutting ∧ !(s.engines.any fun e => e.landing.any fun l => l.dirty || l.writing) then s.warmFinish else s

/-- Steps 1 to 3 of R457. -/
def State.warmBegin (s : State) : State :=
  let s := s.modPower fun p => { p with lost := false, resetting := true, shutting := true }
  let s := if s.hrv.st = 4 then s.hrvSend 0xB 2 2 [] else s
  let s := (List.range 16).foldl (fun (s : State) p => s.modPart p fun u => { u with opened := false }) s
  let s := s.dropBatches fun _ => true
  ((s.dirtyPages fun _ => true).foldl (fun s x => s.writeBack x.1 x.2) s).warmTry

/-- WRITE_BACK_LIMIT (R457): after 1 s what has not been written is lost to the cold tier and counted. -/
def execWriteBackLimit (s : State) : Host.Outcome State Fault Refusal :=
  .next (if s.power.shutting then (s.dropPages fun l => l.dirty || l.writing).warmFinish else s)

/-- COLD_WRITE_BACK_DONE (R165): a warm reset may have waited for it (R457). -/
def execColdWriteBackDone (k n : Nat) (s : State) : Host.Outcome State Fault Refusal := .next (s.writeBackDone k n).warmTry

/-! ## Cold reset (R456, R459) -/

/-- Every volatile state is lost; management flash, the input pins, the cartridges in their bays and the world outside
stay (R459). -/
def State.cold (s : State) (boot last : Nat) : State :=
  let f := State.resetOf s.model
  { f with
    pending := s.pending, drawn := s.drawn, host := s.host
    cells := s.cells.mapIdx fun i c => c.reborn i
    engines := s.engines.map fun e => { Engine.fresh with mem := { e.mem.restart false with failed := false } }
    net := { f.net with ports := s.net.ports.map fun p => p.restart false }
    health := { f.health with
      suspect := s.health.suspect, replace := s.health.replace, cause := s.health.cause, larks := s.health.flash
      flash := s.health.flash, baseMin := s.health.flashMin, flashMin := s.health.flashMin, laneUsed := s.health.laneUsed
      ucieLost := s.health.ucieLost
      jigs := s.health.jigs.map fun j => { Jig.fresh with arraySpares := j.arraySpares } }
    carts := { f.carts with bays := s.carts.bays.map fun b => b.restart false, written := s.carts.written }
    power := { f.power with
      boot, lastReset := last, perstN := s.power.perstN, suspectHold := s.health.suspect, firmware := s.power.firmware
      activeBank := s.power.activeBank, newFirmware := s.power.newFirmware, keys := s.power.keys
      plugLow := s.power.plugLow, inputW := 0 } }

/-- A cold reset on command or by the pin (R456): the rails go for 100 ms and start-up runs from its 0 ms step. One that
already runs discards it (R460). -/
def State.coldReset (s : State) : State :=
  if s.power.running = 4 then s.modPower fun p => { p with lost := true }
  else if s.power.boot = 0 then s else s.cold 1 1

/-- A module warm reset is requested (R456, R460): cold while a fatal bit is set. -/
def State.warmReset (s : State) : State :=
  if s.health.fatal ≠ 0 then s.coldReset
  else if 3 ≤ s.power.running then s.modPower fun p => { p with lost := true }
  else if s.power.boot ≠ 4 then s else s.warmBegin

/-- GLB_RESET_WARM (R457). -/
def execGlbResetWarm (s : State) : Host.Outcome State Fault Refusal := .next s.warmReset

/-- GLB_RESET_COLD (R456). -/
def execGlbResetCold (s : State) : Host.Outcome State Fault Refusal := .next s.coldReset

/-- GLB_RESET_NOP (R462). -/
def execGlbResetNop (_op : Nat) (s : State) : Host.Outcome State Fault Refusal := .next s

/-- A write of GLB_RESET, or the OEM command RESET (R453, R462). -/
def State.glbReset (s : State) (val : Nat) : State :=
  match bits val 2 0 with
  | 1 => s.warmReset
  | 2 => s.requestPartReset (bits val 7 4)
  | 3 => s.coldReset
  | _ => s

/-- MOD_RESET_N_RELEASE (R456): the length of the pulse decides. -/
def execModResetNRelease (lowNs : Nat) (s : State) : Host.Outcome State Fault Refusal :=
  .next (if lowNs < 10000 then s else if lowNs < 4000000000 then s.warmReset else s.coldReset)

/-! ## Loss of main power (R449) -/

/-- Compute dies, IOD-N and stacks lose power: device memory is lost and PWRGOOD falls. -/
def State.powerOff (s : State) : State :=
  let f := State.resetOf s.model
  { s with
    mem := .empty, cells := s.cells.mapIdx fun i c => { c.reborn i with cnt := c.cnt }
    dies := f.dies, engines := s.engines.map fun e => { Engine.fresh with mem := e.mem.restart false }
    openReqs := [], tokens := [], credits := [], replWrites := [], countMsgs := [], caches := [], wrote := []
    net := f.net, hrv := f.hrv
    power := { s.power with pwrGood := false, memReady := false, imageReady := false, shutting := false } }

/-- The class of a FAULT_FATAL bit (R402, R424) and the unit that its record names. -/
def fatalClass (bit : Nat) : Nat × UnitId :=
  match bit with
  | 0 => (0x1C, ⟨0x0F, 0, 0⟩) | 1 => (0x1D, ⟨0x0F, 0, 0⟩) | 3 => (0x21, ⟨6, 0, 0⟩) | _ => (0x20, ⟨0x0E, 0, 0⟩)

/-- A fatal event (R407); a thermal trip and a power fault also take the main power (R449). -/
def State.fatalEvent (s : State) (bit : Nat) : State :=
  if 5 ≤ bit then s else
  let s := s.setFatalBy bit (fatalClass bit).1 (fatalClass bit).2
  if bit ≤ 1 then s.powerOff else s

/-- FATAL_EVENT (R407). -/
def execFatalEvent (bit : Nat) (s : State) : Host.Outcome State Fault Refusal := .next (s.fatalEvent bit)

/-- STEWARD_WDT (R407). -/
def execStewardWdt (s : State) : Host.Outcome State Fault Refusal := .next (s.fatalEvent 2)

end Sys2Proof.Machine
end

