-- ==== Sys2Proof/Machine/Stacks.lean ====
section
/-! DEFINITION. The events of a stack (R195, R196, R205 to R214, R218): reads and writes as they arrive, drain markers, patrol
scrub, repair and failure. -/
namespace Sys2Proof.Machine

/-- The stack that holds a granule (R199 to R201). -/
def State.stackOfGranule (s : State) (granule : Nat) : Option Nat :=
  let kind := (s.frame (granule / 2 ^ 24)).1
  if kind = 1 ∨ kind = 2 ∨ kind = 5 then some (s.stackOf (64 * granule))
  else if kind = 3 ∨ kind = 4 then some (64 * granule % 2 ^ 30 / s.share)
  else none

/-- Offset in the area of its owner's frames of its kind in the stack, of a granule of a TABLE or REPLICA frame (R200). -/
def State.areaOffset (s : State) (granule : Nat) : Nat :=
  let f := granule / 2 ^ 24
  let fr := s.frame f
  s.share * ((s.framesOf fr.1 fr.2.2).findIdx fun x => x == f) + 64 * granule % 2 ^ 30 % s.share

/-- A granule lies in a row engine's area. -/
def State.inArea (s : State) (granule : Nat) : Bool :=
  let kind := (s.frame (granule / 2 ^ 24)).1
  kind == 3 || kind == 4

/-- Channel and pseudo-channel of a granule in its stack (R201). -/
def State.granuleChannel (s : State) (granule : Nat) : Nat :=
  if s.inArea granule then areaChannel (s.areaOffset granule) else s.channelOf (64 * granule)

/-- The channel unit of a granule (R400): its stack and pseudo-channel. -/
def State.channelUnit (s : State) (k granule : Nat) : UnitId := ⟨3, k, s.granuleChannel granule⟩

/-- A DRAM error is reported (R195, R402): DRAM_CORRECTED or DRAM_UNCORRECTABLE, with the device physical address or the offset in the
area. -/
def State.dramReport (s : State) (k granule cls : Nat) : State :=
  let at_ := if s.inArea granule then s.areaOffset granule else 64 * granule
  s.report
    { cls, unit := s.channelUnit k granule, subcode := 0, part := s.ownerOf (64 * granule), info0 := BitVec.ofNat 64 at_
      info1 := 0, handle := 0xFFFFFFFF, step := 0, kind := 0, time := s.now (.rowEngine k), selfReport := true }
    (severityOf cls)

/-- What the check code of a granule finds on a read (R195): a corrected error is counted, an uncorrectable one marks the
granule. -/
def State.eccRead (s : State) (k granule : Nat) (err : EccErr) : State :=
  match err with
  | .none => s
  | .corrected => (s.countStack k fun m => { m with cntCorr := m.cntCorr + 1 }).dramReport k granule 8
  | .uncorrectable =>
    let s := s.countStack k fun m => { m with cntUncorr := m.cntUncorr + 1 }
    (({ s with mem := s.mem.setMark granule true } : State).withdrawPoisoned k).dramReport k granule 9

/-- STACK_READ (R206): a matching write-combining entry drains first, then the granule is read for a partition. An uncorrectable
outcome is also that of the drain's read, and marks the merged granule (R208). -/
def State.stackRead (s : State) (k : Nat) (part : Option Nat) (granule : Nat) (err : EccErr) : State :=
  if s.stackOfGranule granule ≠ some k ∨ (s.engine k).mem.dead (s.granuleChannel granule) then s else
  let s := s.drainGranule k granule fun m => { m with cntRdDrain := m.cntRdDrain + 1 }
  ((s.countStack k fun m => { m with cntRd := m.cntRd + 1 }).charge k part 1).eccRead k granule err

/-- STACK_READ (R206). -/
def execStackRead (k : Nat) (part : Option Nat) (granule : Nat) (err : EccErr) (s : State) : Host.Outcome State Fault Refusal :=
  .next (s.stackRead k part granule err)

/-- STACK_WRITE (R205): a write within one granule of a DEVICE, NEAR or JOURNAL frame of the stack. -/
def State.stackWrite (s : State) (k : Nat) (part : Option Nat) (a : Nat) (data : Bytes) (marked : Bool) : State :=
  let kind := (s.frame (a / 2 ^ 30)).1
  if s.stackOf a ≠ k ∨ (kind ≠ 1 ∧ kind ≠ 2 ∧ kind ≠ 5) ∨ data = [] ∨ 64 < a % 64 + data.length then s
  else s.writeGranule part a (Data.mark marked data)

/-- STACK_WRITE (R205). -/
def execStackWrite (k : Nat) (part : Option Nat) (addr : Nat) (data : Bytes) (marked : Bool) (s : State) :
    Host.Outcome State Fault Refusal :=
  .next (s.stackWrite k part addr data marked)

/-- The oldest drain marker of a stack completes once every entry is drained (R206); a cell's REL completes with its last
marker. -/
def State.drainMarker (s : State) (k : Nat) : State :=
  match (s.engine k).mem.markers with
  | [] => s
  | a :: l =>
    let s := (s.drainStack k).modStack k fun m => { m with markers := l }
    match a with
    | .cell g => match s.posOf g with
      | some i => (s.modCell i fun c => { c with markers := c.markers - 1 }).wake i
      | none => s
    | _ => s

/-- DRAIN_MARKER (R206). -/
def execDrainMarker (k : Nat) (s : State) : Host.Outcome State Fault Refusal := .next (s.drainMarker k)

/-- Granules of a stack (R2). -/
def stackGranules : Nat := 48 * 2 ^ 24

/-- PATROL_SCRUB (R196): one granule is read, corrected or marked; nothing is charged. -/
def State.patrolScrub (s : State) (k granule : Nat) (err : EccErr) : State :=
  if s.stackCount ≤ k ∨ (s.engine k).mem.failed then s else
  let s := s.modStack k fun m =>
    if m.scrubPos + 1 = stackGranules then { m with scrubPos := 0, scrubPasses := (m.scrubPasses + 1) % 2 ^ 24 }
    else { m with scrubPos := m.scrubPos + 1 }
  if s.stackOfGranule granule = some k ∧ !(s.engine k).mem.dead (s.granuleChannel granule) then s.eccRead k granule err else s

/-- PATROL_SCRUB (R196). -/
def execPatrolScrub (k granule : Nat) (err : EccErr) (s : State) : Host.Outcome State Fault Refusal :=
  .next (s.patrolScrub k granule err)

/-- Unused spare rows of a bank: those it shipped with, at least 2 of 4 (R212), less those used. -/
def Stack.spareRows (m : Stack) (k bank : Nat) : Nat :=
  match m.spares.find? fun e => e.1 == bank with
  | some e => e.2
  | none => 2 + Config.bankSpares k bank % 3
def State.spareRows (s : State) (k bank : Nat) : Nat := (s.engine k).mem.spareRows k bank
/-- Banks of a stack that a repair can name: 64 pseudo-channels of 256 (R410; PRESUMED, log entry 50). -/
def stackBanks : Nat := 64 * 256
/-- The fewest unused spare rows of any bank of the stack (R218). -/
def Stack.minSpare (m : Stack) (k : Nat) : Nat := (List.range stackBanks).foldl (fun n b => min n (m.spareRows k b)) 4

/-- The row of a repair is read (R213): how many of its granules are corrected, and which are uncorrectable and marked, is what the row
holds; where its granules lie is internal (R201), so that both are free values. -/
def State.repairRead (s : State) (k : Nat) : State :=
  let (c, s) := s.draw 6
  let s := s.countStack k fun m => { m with cntCorr := m.cntCorr + BitVec.ofNat 64 (c % 33) }
  let (u, s) := s.draw 6
  (List.range (u % 33)).foldl (fun s _ =>
    let (g, s) := s.draw 30
    if s.stackOfGranule g = some k then s.eccRead k g .uncorrectable else s) s

/-- SOFT_REPAIR (R213): a permanent row is read and takes a spare row of its bank; without one it stays, and the steward reports it. -/
def State.softRepair (s : State) (k bank row : Nat) : State :=
  if s.stackCount ≤ k ∨ stackBanks ≤ bank ∨ (s.engine k).mem.dead (bank % 64) ∨ (s.engine k).mem.repairs.contains (bank, row) then s else
  let u : UnitId := ⟨3, k, bank % 64⟩
  let n := s.spareRows k bank
  if n = 0 then s.steward 0x19 u 9 row 0 3 else
  let s := s.repairRead k
  let s := s.larkRepair u 8 (bank % 256) (row % 65536)
  let s := s.modStack k fun m => { m with
    repairs := m.repairs ++ [(bank, row)], spares := m.spares.filter (fun e => e.1 != bank) ++ [(bank, n - 1)], pendingHard := true }
  s.countStack k fun m => { m with cntPpr := m.cntPpr + 1 }

/-- SOFT_REPAIR (R213). -/
def execSoftRepair (k bank row : Nat) (s : State) : Host.Outcome State Fault Refusal := .next (s.softRepair k bank row)

/-- REGULATOR_BUCKET_REFILL (R210): the bucket earns, and the bursts held that it can pay are released. -/
def execRegulatorBucketRefill (k p : Nat) (s : State) : Host.Outcome State Fault Refusal :=
  let now := s.now (.rowEngine k)
  .next (s.modStack k fun m => { m with regs := m.regs.modify p fun r => r.earn now })

/-- STACK_FAILED (R214): stack u, or for 16 + 64k + c pseudo-channel c of stack k, fails; the engine enters FAILED, parts routed to it
complete with STACK_LOST and the module is suspect. -/
def execStackFailed (u : Nat) (s : State) : Host.Outcome State Fault Refusal :=
  let k := if u < 16 then u else (u - 16) / 64
  let c := (u - 16) % 64
  .next (if s.stackCount ≤ k ∨ (s.engine k).mem.failed then s
    else if u < 16 then s.failStack k
    else if (s.engine k).mem.lost.contains c then s else s.failChannel k c)

end Sys2Proof.Machine
end

