-- ==== Sys2Proof/Machine/StartUp.lean ====
section
/-! DEFINITION. Start-up (R454, R455): from input power to a module ready for an image. -/
namespace Sys2Proof.Machine

/-- INPUT_ON (R454). -/
def execInputOn (s : State) : Host.Outcome State Fault Refusal :=
  .next (if s.power.boot ≠ 0 then s else s.modPower fun p => { p with boot := 1, lastReset := 0 })

/-- STANDBY_RAILS_UP (R451, R454, R455): firmware written since the last start is tried first, then bank A, then bank B; with
neither the steward stays in recovery. Unreadable management flash is fatal. -/
def State.standbyUp (s : State) (okA okB flashOk : Bool) : State :=
  if s.power.boot ≠ 1 then s else
  let ok (b : Nat) : Bool := if b = 0 then okA else okB
  let new := 1 - s.power.activeBank % 2
  let bank := if s.power.newFirmware && ok new then some new else if okA then some 0 else if okB then some 1 else none
  let s := s.modHealth fun h => { h with flashOk }
  let s := s.modPower fun p => match bank with
    | some b => { p with boot := 2, activeBank := b, newFirmware := false }
    | none => { p with boot := 5 }
  if flashOk ∨ bank.isNone then s else s.setFatalBy 4 0x20 ⟨0x0E, 0, 0⟩

/-- STANDBY_RAILS_UP (R454). -/
def execStandbyRailsUp (okA okB flashOk : Bool) (s : State) : Host.Outcome State Fault Refusal :=
  .next (s.standbyUp okA okB flashOk)

/-- FIRMWARE_RUNNING (R29, R454): MTIME starts at 0, the flash records are read, the main rails come up and PWRGOOD rises. -/
def execFirmwareRunning (s : State) : Host.Outcome State Fault Refusal :=
  .next (if s.power.boot ≠ 2 then s else
    ({ s with mtime := 0 } : State).modPower fun p => { p with
      boot := 3, pwrGood := !(s.health.fatal.getLsbD 0 || s.health.fatal.getLsbD 1), suspectHold := s.health.suspect })

/-- The repair map of die d applied (R419): the logical cells of the positions in service; a missing one takes the lowest free
position, and with fewer than 36 positions the highest-numbered cells have none. -/
def State.applyMap (s : State) (d : Nat) : State :=
  let pos := (List.range 40).map (40 * d + ·)
  let good := pos.filter fun i => (s.cell i).st != 7
  let n := min 36 good.length
  let want (g : Nat) : Bool := decide (36 * d ≤ g) && decide (g < 36 * d + n)
  let kept := good.filter fun i => (s.cell i).logical.any want
  let free := good.filter fun i => !(s.cell i).logical.any want
  let missing := ((List.range n).map (36 * d + ·)).filter fun g => !kept.any fun i => (s.cell i).logical == some g
  let put := free.zip missing
  let s := free.foldl (fun (s : State) i => s.modCell i fun c => match put.find? fun x => x.1 == i with
    | some x => { c with logical := some x.2, st := 0 }
    | none => { c with logical := none, st := 6 }) s
  if n < 36 then s.modHealth fun h => { h with replace := true } else s

/-- Without a repair map every position is as it was built (R455; which position carries which cell is log entry 41), and no lane
repair is applied (R23). -/
def State.noMap (s : State) : State :=
  let s := s.modHealth fun h => { h with laneUsed := [], ucieLost := [] }
  { s with cells := s.cells.mapIdx fun i c => { c with logical := (Cell.fresh i).logical, st := (Cell.fresh i).st } }

/-- DIE_SELF_TEST_DONE (R419, R454, R457). -/
def execDieSelfTestDone (s : State) : Host.Outcome State Fault Refusal :=
  .next (if s.power.boot ≠ 3 ∨ !s.power.pwrGood then s else
    let s := s.modPower fun p => { p with boot := 4 }
    if s.health.flashOk then (List.range s.dieCount).foldl State.applyMap s else s.noMap)

/-- PERST_N_RELEASE (R454). -/
def execPerstNRelease (s : State) : Host.Outcome State Fault Refusal := .next (s.modPower fun p => { p with perstN := false })

/-- CONFIG_READY (R454): with PERST_N released and PWRGOOD high. -/
def execConfigReady (s : State) : Host.Outcome State Fault Refusal :=
  .next (if s.power.boot = 4 ∧ s.power.pwrGood ∧ !s.power.perstN then s.modHif fun h => { h with configReady := true } else s)

/-- MEM_READY (R136, R212, R214, R454): row engines go into service; at a cold start the soft repairs become hard and a stack that
cannot be trained is failed; cartridges that are present are taken. -/
def State.memReady (s : State) (failed : List Nat) : State :=
  if s.power.boot ≠ 4 ∨ !s.power.pwrGood ∨ s.power.memReady then s else
  let cold := !s.power.resetting
  let s : State := { s with engines := s.engines.map fun e => { e with
    st := if e.st = 0 then 1 else e.st, mem := { e.mem with pendingHard := e.mem.pendingHard && !cold } } }
  let s := s.modPower fun p => { p with memReady := true }
  let s := if !cold then s else ((List.range s.stackCount).filter failed.contains).foldl State.failStack s
  (List.range s.carts.bays.length).foldl State.startBay s

/-- MEM_READY (R454). -/
def execMemReady (failed : List Nat) (s : State) : Host.Outcome State Fault Refusal := .next (s.memReady failed)

/-- IMAGE_READY (R412, R422, R454): the module is ready for an image and the jig schedule begins. -/
def execImageReady (s : State) : Host.Outcome State Fault Refusal :=
  .next (if !s.power.memReady ∨ s.power.imageReady then s else
    let now := s.now .steward
    let period := s.jigPeriod
    (s.modPower fun p => { p with imageReady := true, resetting := false, suspectHold := s.health.suspect }).modHealth fun h =>
      { h with jigs := h.jigs.mapIdx fun i j => { j with next := now + period * (i + 1) / 320 } })

end Sys2Proof.Machine
end

