-- ==== Sys2Proof/Machine/NetPorts.lean ====
section
/-! DEFINITION. Ports (R353 to R357, R359), frames that are discarded (R353, R356, R358), time (R372), keys (R373) and the network
registers whose writes act (R374, R375). -/
namespace Sys2Proof.Machine

def State.port (s : State) (n : Nat) : Port := s.net.ports.getD n .fresh
def State.modPort (s : State) (n : Nat) (f : Port → Port) : State := s.modNet fun x => { x with ports := x.ports.modify n f }
/-- The port exists and its link is up. -/
def State.portUp (s : State) (n : Nat) : Bool := n < s.net.ports.length && (s.port n).up

/-! ## Frames that are discarded -/

/-- NET_BAD_FRAME: what is discarded, and where it is counted (R353, R356, R358, R361, R362, R373, R374). -/
def State.badFrame (s : State) (n : Nat) (why : BadFrame) : State :=
  if !s.portUp n then s else
  let drop := s.modPort n fun p => { p with drop := p.drop + 1 }
  match why with
  | .unknownPeer => s.modNet fun x => { x with unknownPeer := x.unknownPeer + 1 }
  | .version => s.modNet fun x => { x with other := x.other + 1 }
  | .type => s.modNet fun x => { x with other := x.other + 1 }
  | .fecUncorrectable => s.modPort n fun p => { p with fecUncorr := p.fecUncorr + 1 }
  | .checksum => s
  | .fcs => drop
  | .macsec => drop
  | .oversize => drop
  | .bufferFull => drop

/-- NET_BAD_FRAME (R361). -/
def execNetBadFrame (port : Nat) (why : BadFrame) (s : State) : Host.Outcome State Fault Refusal := .next (s.badFrame port why)

/-- PAUSE_FRAME: discarded and counted (R353). -/
def execPauseFrame (port : Nat) (s : State) : Host.Outcome State Fault Refusal :=
  .next (if s.portUp port then s.modPort port fun p => { p with drop := p.drop + 1 } else s)

/-- OTHER_FRAME: discarded and counted (R353). -/
def execOtherFrame (port : Nat) (s : State) : Host.Outcome State Fault Refusal :=
  .next (if s.portUp port then s.modNet fun x => { x with other := x.other + 1 } else s)

/-! ## Address resolution (R354) -/

/-- Answer a question for the module's address on a port: port, the asker's MAC and the address answered for. -/
def State.neighbour (s : State) (n : Nat) (v4 : Bool) (target own : Nat) (mac : BitVec 48) : State :=
  if s.portUp n ∧ (s.reg 0x3400000).testBit 1 = v4 ∧ target = own then
    s.modNet fun x => { x with replies := x.replies ++ [(n, mac.toNat, BitVec.ofNat 128 own)] }
  else s

/-- ARP_REQUEST (R354). -/
def execArpRequest (port : Nat) (target : BitVec 32) (mac : BitVec 48) (s : State) : Host.Outcome State Fault Refusal :=
  .next (s.neighbour port true target.toNat (s.reg 0x3400010 % 2 ^ 32) mac)

/-- NEIGHBOUR_SOLICITATION (R354). -/
def execNeighbourSolicitation (port : Nat) (target : BitVec 128) (mac : BitVec 48) (s : State) :
    Host.Outcome State Fault Refusal :=
  .next (s.neighbour port false target.toNat (s.reg 0x3400010 + 2 ^ 64 * s.reg 0x3400018) mac)

/-! ## Priority flow control (R359) -/

/-- Let every connection send what it may. -/
def State.pumpAll (s : State) : State := (s.net.conns.map (·.k)).foldl State.netPump s

/-- PFC_FRAME (R359): a pause on a priority of NET_PFC holds that priority's frames at the port. -/
def State.pfc (s : State) (n prio : Nat) (pause : Bool) : State :=
  let c := s.reg 0x3400028
  if !s.portUp n ∨ !c.testBit 8 then s else
  (s.modPort n fun p =>
    { p with pausedLc := if prio = bits c 2 0 then pause else p.pausedLc
             pausedBe := if prio = bits c 6 4 then pause else p.pausedBe }).pumpAll

/-- PFC_FRAME (R359). -/
def execPfcFrame (port prio : Nat) (pause : Bool) (s : State) : Host.Outcome State Fault Refusal := .next (s.pfc port prio pause)

/-! ## Time (R372) -/

/-- PTP_SYNC: a Sync taken on the port of NET_PTP gives the offset and a rate correction within 100 ppm. -/
def State.ptpSync (s : State) (time : Nat) (ppb : Int) : State :=
  let c := s.reg 0x3400030
  if !c.testBit 0 ∨ !s.portUp (bits c 4 1) then s else
  let now := s.now .network
  s.modNet fun n => { n with
    ptpLast := now, ptpLocked := true, ptpPpb := max (-10000) (min 10000 (ppb / 10)), ptpOffset := (time : Int) - now }

/-- PTP_SYNC (R372). -/
def execPtpSync (time : Nat) (ppb : Int) (s : State) : Host.Outcome State Fault Refusal := .next (s.ptpSync time ppb)

/-- PTP_SYNC_LOSS: no Sync for 8 s; the last rate is kept (R372). -/
def execPtpSyncLoss (s : State) : Host.Outcome State Fault Refusal :=
  .next (if s.net.ptpLocked ∧ s.net.ptpLast + 8000000000 ≤ s.now .network then s.modNet fun n => { n with ptpLocked := false } else s)

/-! ## Ports going up and down (R355, R357) -/

/-- Run a change of the ports: a connection whose port changes sends its unacknowledged frames again on the new one. -/
def State.rePort (s : State) (f : State → State) : State :=
  let old := s.net.conns.map fun c => (c.k, s.connPort c.k)
  let s := f s
  old.foldl (fun s e => if s.connPort e.1 = e.2 then s else
    if (s.connPort e.1).isSome then (s.netResend e.1).netPump e.1 else s) s

/-- PORT_UP (R357): ports train once memory is ready (R454), unless lanes are lost beyond repair (R355). -/
def execPortUp (n : Nat) (s : State) : Host.Outcome State Fault Refusal :=
  .next (if n < s.net.ports.length ∧ !(s.port n).up ∧ !(s.port n).dead ∧ !(s.port n).lowPower ∧ s.power.memReady then
      s.rePort fun s => s.modPort n fun p => { p with up := true }
    else s)

/-- PORT_DOWN (R357). -/
def State.portDown (s : State) (n : Nat) : State :=
  if s.portUp n then s.rePort fun s => s.modPort n fun p => { p with up := false, pausedLc := false, pausedBe := false } else s

/-- PORT_DOWN (R357). -/
def execPortDown (n : Nat) (s : State) : Host.Outcome State Fault Refusal := .next (s.portDown n)

/-- PORT_LANE_SPARE (R355): the spare lane is taken by a retrain; a second loss keeps the port down. -/
def State.laneSpare (s : State) (n lane : Nat) : State :=
  if s.net.ports.length ≤ n ∨ 9 ≤ lane ∨ (s.port n).dead then s else
  let u : UnitId := ⟨9, n, 0⟩
  let again := (s.port n).spared
  let s := s.larkRepair u 8 0 lane
  let s := s.portDown n
  let s := s.modPort n fun p => if again then { p with dead := true } else { p with spared := true }
  s.report { stewardReport 0x0F ⟨9, n, lane⟩ 0 0 0 (s.now .network) with selfReport := false } 3

/-- PORT_LANE_SPARE (R355). -/
def execPortLaneSpare (n lane : Nat) (s : State) : Host.Outcome State Fault Refusal := .next (s.laneSpare n lane)

/-! ## Registers (R373 to R375) -/

/-- NET_SAK_WRITE: a word of the associations of a peer entry (R373). -/
def execNetSakWrite (k word : Nat) (val : BitVec 64) (s : State) : Host.Outcome State Fault Refusal :=
  .next (if s.net.ports ≠ [] ∧ k < 1024 ∧ word < 16 then s.modConn k fun c => { c with sak := c.sak.set word val } else s)

/-- A write of NET_PEER_CFG (R374, R375): while enabled only ENABLE is taken. A connection becomes UP when its entry is enabled, and
IDLE, its work lost, when it is disabled. -/
def State.peerCfgWrite (s : State) (k v : Nat) : State :=
  if 1024 ≤ k ∨ s.net.ports = [] then s else
  let old := s.peerCfg k
  let new := if old.testBit 0 then old - 1 + v % 2 else cfgApply s.model (peerBase k + 0x10) v
  let s := s.setReg (peerBase k + 0x10) new
  let idle (st : Nat) (s : State) : State := s.modConn k fun c => { Conn.fresh k with st, sak := c.sak }
  if !old.testBit 0 ∧ new.testBit 0 then idle 1 s
  else if old.testBit 0 ∧ !new.testBit 0 then idle 0 (s.connFail k)
  else s

/-- A write of NET_RING_CTL: SIZE is kept while the ring is enabled; a ring that is enabled starts at HEAD 0. -/
def State.netRingCtlWrite (s : State) (i v : Nat) : State :=
  if 128 ≤ i ∨ s.net.ports = [] then s else
  let old := s.sendCtl i
  if old.testBit 4 then s.setReg (sendBase i + 8) (old - 16 + 16 * b2n (v.testBit 4)) else
  let s := (s.countClamps (sendBase i + 8) v).setReg (sendBase i + 8) (cfgApply s.model (sendBase i + 8) v)
  if v.testBit 4 then s.setSendRing ⟨i, 0, 0⟩ else s

end Sys2Proof.Machine
end

