-- ==== Sys2Proof/Machine/Power.lean ====
section
/-! DEFINITION. Clocks and ceilings (R25, R34), input power and capping (R444 to R446), cooling (R447 to R449) and the pluggables'
power (R443). -/
namespace Sys2Proof.Machine

/-! ## Island clocks (R25, R34) -/

/-- What the steward has set of an island and what it runs at: ceiling, frequency and voltage. -/
def State.clock (s : State) (i : Island) : Nat × Nat × Nat :=
  match i with
  | .cell p => let c := s.cell p; (c.ceil, c.mhz, c.mv)
  | .rowEngine k => let e := s.engine k; (e.ceil, e.mhz, e.mv)
  | .dieFabric d => let x := s.die d; (x.ceil, x.mhz, x.mv)
  | .control => (s.ctlCeil, s.ctlMhz, s.ctlMv)
  | .host => (s.hif.ceil, s.hif.mhz, s.hif.mv)
  | .copyEngine e => let c := s.ce e; (c.ceil, c.mhz, c.mv)
  | .cartridge => (s.carts.ceil, s.carts.mhz, s.carts.mv)
  | .network => (s.net.ceil, s.net.mhz, s.net.mv)
  | .horvi => (s.hrv.ceil, s.hrv.mhz, s.hrv.mv)
  | .steward => (s.stewCeil, s.stewMhz, s.stewMv)

def State.setClock (s : State) (i : Island) (v : Nat × Nat × Nat) : State :=
  match i with
  | .cell p => s.modCell p fun c => { c with ceil := v.1, mhz := v.2.1, mv := v.2.2 }
  | .rowEngine k => s.modEngine k fun c => { c with ceil := v.1, mhz := v.2.1, mv := v.2.2 }
  | .dieFabric d => s.modDie d fun c => { c with ceil := v.1, mhz := v.2.1, mv := v.2.2 }
  | .control => { s with ctlCeil := v.1, ctlMhz := v.2.1, ctlMv := v.2.2 }
  | .host => s.modHif fun c => { c with ceil := v.1, mhz := v.2.1, mv := v.2.2 }
  | .copyEngine e => s.modCe e fun c => { c with ceil := v.1, mhz := v.2.1, mv := v.2.2 }
  | .cartridge => s.modCarts fun c => { c with ceil := v.1, mhz := v.2.1, mv := v.2.2 }
  | .network => s.modNet fun c => { c with ceil := v.1, mhz := v.2.1, mv := v.2.2 }
  | .horvi => s.modHrv fun c => { c with ceil := v.1, mhz := v.2.1, mv := v.2.2 }
  | .steward => { s with stewCeil := v.1, stewMhz := v.2.1, stewMv := v.2.2 }

/-- The ceiling in force: a cell's is its lowest clock while the comparator or a low input holds it (R444, R446). -/
def State.limit (s : State) (i : Island) : Nat :=
  match i with
  | .cell p => if s.power.fastHold ∨ s.power.floorHold then 1200 else (s.cell p).ceil
  | _ => (s.clock i).1

/-- The oscillator runs anywhere between the lowest clock of its range and the ceiling in force (R25): a free value. -/
def State.oscillate (s : State) (i : Island) : State :=
  let lo := (islandRange i).1
  let (r, s) := s.draw (s.limit i + 1 - lo)
  let (c, _, v) := s.clock i
  s.setClock i (c, lo + r, v)

/-- Note for MGT_CNT_CAP that a ceiling is below its top in this millisecond (R461). -/
def State.noteCap (s : State) : State := let c := s.anyCapped; s.modPower fun p => { p with capped := p.capped || c }

/-- A ceiling within the range of its island (R25). -/
def clampCeil (i : Island) (mhz : Nat) : Nat := max (islandRange i).1 (min (islandRange i).2.2 mhz)

/-- Set the ceiling of an island. -/
def State.setCeil (s : State) (i : Island) (mhz : Nat) : State :=
  let (_, f, v) := s.clock i
  (s.setClock i (clampCeil i mhz, f, v)).oscillate i

/-- ISLAND_CLOCK_SET (R34). -/
def execIslandClockSet (island : Island) (mhz mv : Nat) (s : State) : Host.Outcome State Fault Refusal :=
  let (c, f, _) := s.clock island
  .next ((s.setClock island (c, f, mv % 4096)).setCeil island mhz).noteCap

/-! ## Input power (R444) -/

/-- A record of the power or thermal sensor n (R402); its number is the model's (log entry 44). -/
def sensorUnit (n : Nat) : UnitId := ⟨0x0F, n, 0⟩

/-- INPUT_VOLTAGE_LOW (R444): from 38 V to 40 V the cells are held at their lowest clock. -/
def execInputVoltageLow (mv100 : Nat) (s : State) : Host.Outcome State Fault Refusal :=
  .next (if mv100 < 380 ∨ 400 ≤ mv100 ∨ s.power.boot < 3 then s else
    ((s.modPower fun p => { p with floorHold := true, input100mv := mv100 }).steward 0x1D (sensorUnit 34) 0 mv100 0 3).noteCap)

/-- INPUT_VOLTAGE_RESTORED (R444). -/
def execInputVoltageRestored (mv100 : Nat) (s : State) : Host.Outcome State Fault Refusal :=
  .next (if mv100 < 400 then s else s.modPower fun p => { p with floorHold := false, input100mv := mv100 % 4096 })

/-- The sensor that a POWER_FAULT names. -/
def causeSensor (c : PowerCause) : Nat := match c with | .underVoltage => 34 | .overVoltage => 34 | .rail => 36

/-- POWER_FAULT (R444, R449). -/
def execPowerFault (cause : PowerCause) (s : State) : Host.Outcome State Fault Refusal :=
  .next (if s.power.boot = 0 then s else (s.setFatalBy 1 0x1D (sensorUnit (causeSensor cause))).powerOff)

/-- INPUT_OFF (R444): only management flash is kept. -/
def execInputOff (s : State) : Host.Outcome State Fault Refusal := .next (s.cold 0 0)

/-! ## Capping (R446) -/

/-- The effective cap: the lower of the host's and the management's, and the part's floor while the inlet is too hot. -/
def State.cap (s : State) : Nat :=
  if s.power.floorCap then floorOf s.model else min (bits (s.reg 0x408) 15 0) s.power.mgmtCap

/-- The 1 ms average: the mean of the last 20 samples. -/
def Power.average (p : Power) : Nat := p.samples.sum / max 1 p.samples.length

/-- POWER_SAMPLE (R446). -/
def execPowerSample (watts mv100 : Nat) (s : State) : Host.Outcome State Fault Refusal :=
  .next (s.modPower fun p => { p with
    inputW := watts % 65536, input100mv := mv100 % 4096
    samples := (p.samples ++ [watts % 65536]).drop (p.samples.length - 19) })

/-- Cell islands, and row-engine and die-fabric islands, of the part. -/
def State.cellIslands (s : State) : List Island := (List.range s.cells.length).map .cell
def State.otherIslands (s : State) : List Island :=
  (List.range s.engines.length).map .rowEngine ++ (List.range s.dies.length).map .dieFabric

/-- Lower a ceiling by one step of 25 MHz. -/
def State.lower (s : State) (i : Island) : State := s.setCeil i ((s.clock i).1 - 25)
/-- Raise a ceiling by one step, unless a thermal ceiling is in force. -/
def State.raiseCeil (s : State) (i : Island) : State :=
  if s.power.throttled.contains i then s else s.setCeil i ((s.clock i).1 + 25)

/-- CAP_STEP (R446): one step down of the cells, then of the engines and fabrics, while the average exceeds the cap; one step up
in the reverse order while it stays 100 W or more below. -/
def State.capStep (s : State) : State :=
  let avg := s.power.average
  let cap := s.cap
  if cap < avg then
    if 1200 < s.power.ceil ∨ s.cells.any (fun c => decide (1200 < c.ceil)) then
      (s.cellIslands.foldl State.lower s).modPower fun p => { p with ceil := max 1200 (p.ceil - 25) }
    else s.otherIslands.foldl State.lower s
  else if avg + 100 ≤ cap then
    let low := s.otherIslands.filter fun i => decide ((s.clock i).1 < (islandRange i).2.2) && !s.power.throttled.contains i
    if low ≠ [] then low.foldl State.raiseCeil s
    else (s.cellIslands.foldl State.raiseCeil s).modPower fun p => { p with ceil := min 2000 (p.ceil + 25) }
  else s

/-- CAP_STEP (R446). -/
def execCapStep (s : State) : Host.Outcome State Fault Refusal := .next s.noteCap.capStep.noteCap

/-- FAST_LIMIT (R446). -/
def execFastLimit (s : State) : Host.Outcome State Fault Refusal :=
  let s := (s.modPower fun p => { p with fastHold := true, cntFast := p.cntFast + 1 }).noteCap
  .next (s.cellIslands.foldl State.oscillate s)

/-- FAST_LIMIT_RELEASE (R446). -/
def execFastLimitRelease (s : State) : Host.Outcome State Fault Refusal :=
  .next (s.modPower fun p => { p with fastHold := false })

/-! ## Cooling (R448, R449) -/

/-- THERMAL_THROTTLE (R448): one of R446's steps down of the island, or the end of its thermal ceiling. -/
def execThermalThrottle (island : Island) (on : Bool) (s : State) : Host.Outcome State Fault Refusal :=
  .next (if on then
      ((s.modPower fun p => { p with throttled := p.throttled.filter (· != island) ++ [island] }).lower island).noteCap
    else s.modPower fun p => { p with throttled := p.throttled.filter (· != island) })

/-- A THERMAL record of severity DEGRADED. -/
def State.thermalRecord (s : State) (sensor : Nat) (celsius : Int) : State :=
  s.steward 0x1C (sensorUnit sensor) 0 (celsius % 2 ^ 64).toNat 0 3

/-- THERMAL (R448): the temperature that the condition compares, of a flow the outlet's excess over the inlet. -/
def State.thermal (s : State) (cond : ThermalCond) (c : Int) : State :=
  match cond with
  | .logicDie n =>
    let s := s.modPower fun p => { p with hottest := c }
    if 100 < c then s.thermalRecord n c else s
  | .stack k => if 95 < c then s.thermalRecord (16 + k) c else s
  | .inlet =>
    let s := s.modPower fun p => { p with
      inlet := c, inletHigh := p.inletHigh || decide (40 < c), floorCap := p.floorCap || decide (45 < c) }
    if 40 < c then s.thermalRecord 32 c else s
  | .flow =>
    let low := decide (25 < c) && decide (1000 < s.power.inputW)
    let s := s.modPower fun p => { p with outlet := p.inlet + c, flowLow := low }
    if low then s.thermalRecord 33 c else s

/-- THERMAL (R448). -/
def execThermal (cond : ThermalCond) (celsius : Int) (s : State) : Host.Outcome State Fault Refusal := .next (s.thermal cond celsius)

/-- INLET_TEMPERATURE_RESTORED (R448). -/
def execInletTemperatureRestored (celsius : Int) (s : State) : Host.Outcome State Fault Refusal :=
  .next (if celsius < 40 then s.modPower fun p => { p with inlet := celsius, inletHigh := false, floorCap := false } else s)

/-- THERMAL_TRIP (R449). -/
def execThermalTrip (stack : Bool) (n : Nat) (s : State) : Host.Outcome State Fault Refusal :=
  .next (if s.power.boot = 0 then s else
    (s.setFatalBy 0 0x1C (sensorUnit (if stack then 16 + n else n))).powerOff)

/-! ## Pluggables (R443) -/

/-- PLUGGABLE_INSERTED: one of more than 12 W is held in low-power mode and its port or Horvi lane stays down. The cages after the
ports' are the Horvi lanes'. -/
def execPluggableInserted (cage powerClass : Nat) (s : State) : Host.Outcome State Fault Refusal :=
  let n := portsOf s.model
  let low := decide (12 < powerClass)
  .next (if n = 0 then s
    else if cage < n then s.modNet fun x => { x with ports := x.ports.modify cage fun p => { p with lowPower := low, up := p.up && !low } }
    else if cage < n + 2 then
      let lane := cage - n
      let s := s.modPower fun p => { p with plugLow := p.plugLow.filter (· != lane) ++ (if low then [lane] else []) }
      if low ∧ s.hrv.lanes.getD lane false then s.laneDown lane else s
    else s)

end Sys2Proof.Machine
end

