-- ==== Sys2Proof/Machine/Views.lean ====
section
/-! DEFINITION. What a read of each BAR0 register shows (R7, R13, R16 and the register tables of the chapters): stored fields from
`State.regs`, every RO field from the structured state. -/
namespace Sys2Proof.Machine

/-- A field of w bits at bit lo. -/
def rf (lo w v : Nat) : Nat := v % 2 ^ w * 2 ^ lo

/-- A flag at a bit. -/
def flag (n : Nat) (b : Bool) : Nat := b2n b * 2 ^ n

/-- A signed value as a field. -/
def srf (lo w : Nat) (v : Int) : Nat := rf lo w (v % (2 ^ w : Nat)).toNat

/-- Eight bytes of a list of counts, from index i. -/
def level8 (l : List Nat) (i : Nat) : Nat := ((List.range 8).map fun n => rf (8 * n) 8 (l.getD (i + n) 0)).sum

def clsBit (c : Cls) : Nat := match c with | .lc => 0 | .be => 1

/-! ## Global and management registers (R4, R5, R31, R297, R298, R461, R462) -/

/-- CAPS_UNITS of a part (R5). -/
def capsUnits (model : Nat) : Nat := match model with | 0 => 0xFFFFFF0F | 1 => 0x00FF0F07 | _ => 0x000F0300
/-- CAPS_COUNTS of a part (R5). -/
def capsCounts (model : Nat) : Nat := match model with | 0 => 0x884801201008 | 1 => 0x882400900804 | _ => 0x880000480402

/-- The capability registers hold their values once the die self-test has loaded them (R4, R454); before that they read 0 (DESIGN
CHOICE, log entry 50). -/
def State.caps (s : State) (v : Nat) : Nat := if s.power.boot = 4 ∨ s.power.resetting then v else 0

def State.glbView (s : State) (o : Nat) : Nat :=
  let p := s.power
  if o = 0x10 then
    flag 0 p.memReady + flag 1 p.imageReady + flag 2 p.resetting + flag 3 p.lost + flag 4 p.suspectHold + rf 8 3 p.lastReset
      + rf 16 16 p.partReset.toNat
  else if o = 0x100 then s.caps (capsUnits s.model)
  else if o = 0x108 then s.caps (capsCounts s.model)
  else if o = 0x200 then s.now .host % 2 ^ 64
  else if o = 0x318 then
    flag 0 s.image.busy + flag 1 s.image.lost + rf 4 4 s.image.st + rf 8 8 s.image.result + rf 32 16 s.image.ended
  else if o = 0x328 then s.image.serial.toNat
  else if 0x380 ≤ o ∧ o < 0x400 ∧ o % 8 = 0 then (s.image.pserial.getD ((o - 0x380) / 8) 0).toNat
  else if o = 0x400 then
    rf 0 16 p.inputW + rf 16 16 p.average + rf 32 12 p.input100mv + rf 48 12 (if p.fastHold ∨ p.floorHold then 1200 else p.ceil)
  else if o = 0x408 then s.reg 0x408 + rf 16 16 p.mgmtCap + rf 32 16 (floorOf s.model) + rf 48 16 (tdpOf s.model)
  else if o = 0x410 then
    srf 0 8 p.hottest + srf 8 8 p.inlet + srf 16 8 p.outlet + flag 24 (p.throttled != []) + flag 25 p.flowLow
      + flag 26 p.inletHigh
  else if o = 0x440 then p.cntCap.toNat
  else if o = 0x448 then p.cntFast.toNat
  else if 0x4000 ≤ o ∧ o < 0x5800 ∧ o % 8 = 0 then
    let f := (o - 0x4000) / 8
    if f < 48 * s.stackCount then
      let (k, die, own) := s.frame f
      rf 0 3 k + rf 4 3 (if k = 2 then die else 0) + rf 8 4 (if k = 0 ∨ k = 5 then 0 else own)
    else 0
  else if 0xE0000 ≤ o ∧ o < 0x100000 ∧ o % 8 = 0 then (s.image.area.getD ((o - 0xE0000) / 8) 0).toNat
  else s.reg o

/-! ## Cells and their streams (R77 to R80, R192, R193) -/

/-- STATE of CELL_STATE (R78): WAITING while held in WAIT, WAITANY or POSTT; a cell that another step holds is RUNNING. -/
def Cell.stateCode (c : Cell) : Nat :=
  if c.st = 2 ∧ c.held.any (fun h => kindOf h.w != 3 && kindOf h.w != 4 && kindOf h.w != 6) then 1 else c.st

def Cell.view (c : Cell) (pos o stored : Nat) : Nat :=
  let x := c.cur
  if o = 0 then
    rf 0 4 (pos / 40) + rf 4 6 (pos % 40)
      + (match c.logical with | some g => rf 10 6 (g % 36) + rf 16 9 g | none => rf 10 6 0x3F + rf 16 9 0x1FF)
  else if o = 8 then
    rf 0 4 c.stateCode + rf 4 4 (c.part.getD 0) + flag 8 c.part.isSome + rf 9 1 (clsBit c.cls) + rf 10 12 x.step + rf 22 16 c.layer
  else if o = 0x10 then rf 0 12 c.mhz + rf 16 12 c.mv
  else if o = 0x18 then flag 0 c.freeze
  else if o = 0x20 then rf 0 8 c.fault.cause + flag 8 c.fault.valid + rf 9 12 c.fault.step + rf 21 8 c.fault.kind
  else if o = 0x28 then rf 0 57 c.fault.addr
  else if o = 0x30 then c.fault.mask.toNat
  else if o = 0x38 then rf 0 64 c.fault.info
  else if o = 0x40 ∨ o = 0x48 then level8 (x.queues.map fun q => q.toks.length) (o - 0x40)
  else if o = 0x50 ∨ o = 0x58 then level8 x.credits (o - 0x50)
  else if o = 0x60 then c.cnt.steps.toNat
  else if o = 0x68 then c.cnt.arrayBusy.toNat
  else if o = 0x70 then c.cnt.mloadStall.toNat
  else if o = 0x78 then c.cnt.wait.toNat
  else if o = 0x80 then c.cnt.late.toNat
  else if o = 0x88 then c.cnt.timeouts.toNat
  else if o = 0x90 then ((List.range 32).map fun t => flag t (c.comp.tiles.poison.any fun u => u / 64 == t)).sum
  else if 0x400 ≤ o ∧ o < 0x600 ∧ o % 8 = 0 then (x.scalar ((o - 0x400) / 8)).toNat
  else stored

/-- What a slot's STR_ registers show. -/
def Slot.view (x : Slot) (o : Nat) : Nat :=
  if o = 0 then
    rf 0 4 x.st + rf 4 2 x.role + rf 6 6 x.number + rf 12 1 (clsBit x.cls) + rf 16 8 x.blocks.length + rf 24 8 x.lastStatus
  else if o = 8 then rf 0 24 (match x.chain with | some r => r.expect | none => x.next)
  else if o = 0x10 then x.cntBytes.toNat
  else if o = 0x18 then x.cntBlocks.toNat
  else if o = 0x20 then x.cntReread.toNat
  else if o = 0x28 then x.cntDrops.toNat
  else if o = 0x30 then x.cntSkips.toNat
  else if o = 0x38 then x.lastSkip.toNat
  else 0

def Cell.strView (c : Cell) (o : Nat) : Nat :=
  if o < 0x400 then (c.port.slots.getD (o / 0x40) (Slot.fresh 0)).view (o % 0x40)
  else if o = 0x400 then
    let l := match c.cls with | .lc => c.port.splitLc | .be => c.port.splitBe
    rf 0 7 (l.getD 0 0) + rf 8 7 (l.getD 1 0) + rf 16 7 (l.getD 2 0)
  else if o = 0x408 then c.port.cntRead.toNat
  else if o = 0x410 then c.port.cntWrite.toNat
  else if o = 0x418 then c.port.cntRemote.toNat
  else if o = 0x420 then c.port.cntPoison.toNat
  else 0

/-! ## Row engines and stacks (R135 to R138, R216 to R218) -/

/-- The counters of a row engine in the order of R135. -/
def EngineCnt.list (c : EngineCnt) : List Word :=
  [c.indices, c.fetches, c.dedup, c.slices, c.adds, c.writes, c.seqSkip, c.stale, c.tagFull, c.range, c.poison, c.replicaWr]

def Engine.view (e : Engine) (k o stored : Nat) : Nat :=
  if o = 0 then rf 0 4 k + rf 4 4 (k / 2)
  else if o = 8 then rf 0 4 e.st + rf 8 7 (min 64 (e.parts.filter fun p => !p.done).length)
  else if o = 0x10 then rf 0 12 e.mhz + rf 16 12 e.mv
  else if o = 0x18 then flag 0 e.freeze
  else if o = 0x28 then rf 0 14 e.tags + rf 16 14 e.tagsHigh
  else if o = 0x30 then rf 0 8 e.faultCause + flag 8 e.faultValid + rf 9 7 (min 64 e.faultParts)
  else if 0x40 ≤ o ∧ o < 0xA0 ∧ o % 8 = 0 then (e.cnt.list.getD ((o - 0x40) / 8) 0).toNat
  else if 0x1010 ≤ o ∧ o < 0x2000 ∧ o % 8 = 0 then
    match e.srcs.find? fun x => x.src == (o - 0x1000) / 16 with
    | some x => if o % 16 = 0 then x.high.toNat else x.window.toNat
    | none => 0
  else stored

/-- The counters of a stack in the order of R216. -/
def Stack.cntList (m : Stack) : List Word :=
  [m.cntRd, m.cntWr, m.cntMerge, m.cntEvict, m.cntRdDrain, m.cntRelDrain, m.cntCorr, m.cntUncorr, m.cntPpr]

def Stack.view (m : Stack) (k o : Nat) : Nat :=
  if o = 0 then rf 0 16 m.repairs.length + rf 16 4 (m.minSpare k) + flag 20 m.pendingHard
  else if o = 8 then rf 0 9 m.wcb.length + rf 16 9 m.wcbHigh
  else if o = 0x10 then rf 0 24 m.scrubPasses + rf 24 7 (100 * m.scrubPos / stackGranules)
  else if 0x40 ≤ o ∧ o < 0x88 ∧ o % 8 = 0 then (m.cntList.getD ((o - 0x40) / 8) 0).toNat
  else if 0x1000 ≤ o ∧ o < 0x1200 then
    let r := m.regs.getD ((o - 0x1000) / 0x20) .fresh
    match o % 0x20 with
    | 0 => rf 0 8 r.weight + flag 8 r.share + rf 16 11 r.burst + rf 32 21 r.tokens
    | 8 => r.bytes.toNat | 0x10 => r.waits.toNat | 0x18 => r.borrows.toNat
    | _ => 0
  else 0

/-! ## Partitions (R150, R151, R238, R239, R266 to R268, R321, R322) -/

/-- A ring control register: stored SIZE and ENABLE with HEAD and TAIL. -/
def ctlView (ctl : Nat) (head tail : BitVec 16) : Nat := bits ctl 4 0 + rf 16 16 head.toNat + rf 48 16 tail.toNat

def State.partView (s : State) (p o : Nat) : Nat :=
  let u := s.part p
  if o = 0 then
    flag 0 u.defined + flag 1 u.opened + flag 2 u.drained + flag 3 u.committing
      + rf 16 9 (s.cells.filter fun c => c.part == some p && c.logical.isSome).length
      + rf 32 13 (s.batches.filter fun b => b.part == p).length
  else if o = 0x18 then ctlView (s.reg (partBase p + o)) u.lcHead u.lcTail
  else if o = 0x28 then ctlView (s.reg (partBase p + o)) u.beHead u.beTail
  else if o = 0x38 then ctlView (s.reg (partBase p + o)) u.cqHead u.cqTail
  else if o = 0x48 then rf 0 32 u.lcWaitMax
  else if 0x80 ≤ o ∧ o < 0xC8 ∧ o % 8 = 0 then
    (([u.cntAdmitLc, u.cntAdmitBe, u.cntPreempt, u.cntSliceOver, u.cntSliceEnd, u.cntLate, u.cntMoves, u.cntJigDefer,
      u.cntCqWait] : List Word).getD ((o - 0x80) / 8) 0).toNat
  else s.reg (partBase p + o)

def State.svcView (s : State) (p o : Nat) : Nat :=
  let t := s.svc p
  if o = 0x10 then flag 0 t.busy + flag 1 t.lost + rf 4 4 t.result + rf 32 32 t.value
  else if o = 0x18 then t.epochs.toNat
  else if o = 0x20 then t.bound.toNat
  else if 0x40 ≤ o ∧ o < 0x80 ∧ o % 8 = 0 then
    (([t.cntColdMiss, t.cntSubst, t.cntColdDrop, t.cntReplMade, t.cntReplWithdrawn, t.cntHit, t.cntMiss, t.cntReject] : List Word).getD
      ((o - 0x40) / 8) 0).toNat
  else s.reg (svcBase p + o)

def State.xltView (s : State) (p o : Nat) : Nat :=
  let x := s.xltOf p
  if o = 0x10 then flag 0 x.busy + flag 1 x.lost + rf 4 4 x.result + rf 8 10 (x.awaited.length + x.acks.length)
  else if o = 0x18 then rf 0 13 (s.ranges.filter fun r => r.part == p).length
  else if 0x20 ≤ o ∧ o < 0x40 ∧ o % 8 = 0 then (x.entry.getD ((o - 0x20) / 8) 0).toNat
  else if o = 0x40 then x.cntMiss.toNat
  else if o = 0x48 then x.cntInval.toNat
  else if o = 0x50 then x.cntFault.toNat
  else s.reg (xltBase p + o)

def State.cmpView (s : State) (p c o : Nat) : Nat :=
  let x := (s.cmpCtx p c).getD (CmpCtx.absent p c)
  if o = 0x10 then
    flag 0 x.busy + flag 1 x.wait + flag 2 x.enabled + rf 4 4 x.result + rf 8 3 x.current + flag 11 (x.gens.any (·.resident))
      + ((List.range 8).map fun g => flag (16 + g) (x.gen g).resident).sum
  else if 0x18 ≤ o ∧ o < 0x48 ∧ o % 8 = 0 then
    (([x.cntWait, x.cntRawIn, x.cntCoded, x.cntRaw, x.cntErr, x.cntOver] : List Word).getD ((o - 0x18) / 8) 0).toNat
  else if 0x80 ≤ o ∧ o < 0xC0 ∧ o % 8 = 0 then
    let g := x.gen ((o - 0x80) / 8)
    rf 0 24 g.queued + rf 32 32 g.stored
  else s.reg (cmpBase p c + o)

/-! ## Host interface (R351, R352) -/

def State.hifView (s : State) (o : Nat) : Nat :=
  let h := s.hif
  if o = 0 then
    flag 0 h.up + (if h.up then rf 1 3 h.rate + rf 4 5 h.width + flag 9 (h.rate == 5 || h.cxl) + flag 10 h.cxl else 0)
      + flag 11 h.sriov
  else if 0x40 ≤ o ∧ o < 0x68 ∧ o % 8 = 0 then
    (([h.cntRecovery, h.cntLinkdown, h.cntHotreset, h.cntUnmapped, h.cntCto] : List Word).getD ((o - 0x40) / 8) 0).toNat
  else if 0x100 ≤ o ∧ o < 0x200 ∧ o % 0x20 = 0 then
    match s.image.grants[(o - 0x100) / 0x20]? with
    | some g => rf 0 9 g + flag 15 true
    | none => 0
  else s.reg (0x100000 + o)

def State.ceView (s : State) (e o : Nat) : Nat :=
  let c := s.ce e
  if o = 8 then ctlView (s.reg (ceBase e + 8)) c.head c.tail
  else if o = 0x18 then rf 0 3 c.st + rf 3 3 c.active.length
  else if o = 0x28 then (match c.lastLost with | some n => rf 0 16 n + flag 16 true | none => 0)
  else if 0x40 ≤ o ∧ o < 0x68 ∧ o % 8 = 0 then
    (([c.cntBytes, c.cntDesc, c.cntLost, c.cntReplay, c.cntPoison] : List Word).getD ((o - 0x40) / 8) 0).toNat
  else s.reg (ceBase e + o)

/-! ## Network and Horvi (R374, R375, R395, R396) -/

def State.netView (s : State) (o : Nat) : Nat :=
  let n := s.net
  if o = 0x30 then s.reg 0x3400030 + flag 8 n.ptpLocked + srf 16 16 n.ptpPpb
  else if o = 0x38 then srf 0 64 n.ptpOffset
  else if 0x100 ≤ o ∧ o < 0x300 ∧ o % 8 = 0 then
    match n.ports[(o - 0x100) / 0x40]? with
    | none => 0
    | some p =>
      match o % 0x40 with
      | 0 => flag 0 p.up + flag 1 p.spared + flag 2 p.pausedLc + flag 3 p.pausedBe
      | 8 => (Config.portMac ((o - 0x100) / 0x40)).toNat
      | 0x10 => p.tx.toNat | 0x18 => p.rx.toNat | 0x20 => p.fecCorr.toNat | 0x28 => p.fecUncorr.toNat | 0x30 => p.drop.toNat
      | _ => 0
  else if 0x1000 ≤ o ∧ o < 0x11000 ∧ o % 0x40 = 0x18 then
    let k := (o - 0x1000) / 0x40
    let c := s.conn k
    rf 0 2 c.st + rf 2 4 ((s.connPort k).getD 0) + rf 8 24 c.tx.toNat + rf 32 24 c.rx.toNat
  else if 0x16000 ≤ o ∧ o < 0x16028 ∧ o % 8 = 0 then
    (([n.unknownPeer, n.other, n.resend, n.redRedo, n.redFail] : List Word).getD ((o - 0x16000) / 8) 0).toNat
  else s.reg (0x3400000 + o)

def State.hrvView (s : State) (o : Nat) : Nat :=
  let h := s.hrv
  if o = 0 then s.reg 0x3600000 + flag 0 h.enable
  else if o = 8 then
    rf 0 4 h.st + rf 4 1 h.rank + flag 5 h.source + flag 6 (h.lanes.getD 0 false) + flag 7 (h.lanes.getD 1 false)
  else if o = 0x10 then rf 0 17 h.own.length + rf 32 17 h.partner.length
  else if o = 0x18 then rf 0 48 h.logPos
  else if 0x40 ≤ o ∧ o < 0x80 ∧ o % 8 = 0 then
    (([h.hbMiss, h.cntLane, h.cntResend, h.rxDrop, h.loss, h.replayed, h.yields, h.winDrop] : List Word).getD ((o - 0x40) / 8) 0).toNat
  else s.reg (0x3600000 + o)

/-! ## Cartridges (R437, R438) -/

/-- WEAR (R438): WRITTEN ÷ ENDURANCE in tenths of a percent. -/
def State.wear (s : State) (b : Nat) : Nat := min 1000 (1000 * s.bayWritten b / max 1 (s.bay b).endurance)

def State.cartView (s : State) (o : Nat) : Nat :=
  let c := s.carts
  if o = 0x20 then flag 0 c.busy + flag 1 c.lost + rf 4 4 c.result + rf 8 24 c.progressErr + rf 32 32 c.progress
  else if 0x1000 ≤ o ∧ o < 0x2000 then
    let n := (o - 0x1000) / 0x100
    if c.bays.length ≤ n then 0 else
    let x := s.bay n
    let none := x.st == 0
    match o % 0x100 with
    | 0 => rf 0 4 x.st + flag 4 x.present + rf 5 3 x.width
        + (if none then 0 else rf 8 8 x.model + rf 16 10 (s.wear n) + rf 32 16 x.mfg)
    | 8 => if none then 0 else leNat (x.serial.take 8)
    | 0x10 => if none then 0 else leNat ((x.serial.drop 8).take 8)
    | 0x18 => if none then 0 else x.capacity % 2 ^ 64
    | 0x20 => if none then 0 else x.endurance % 2 ^ 64
    | 0x28 => if none then 0 else s.bayWritten n % 2 ^ 64
    | 0x40 => x.rdPages.toNat | 0x48 => x.wrPages.toNat | 0x50 => x.rdErr.toNat | 0x58 => x.wrRefused.toNat
    | 0x60 => x.droppedPages.toNat
    | _ => 0
  else s.reg (0x3800000 + o)

/-! ## Faults and health (R423 to R425) -/

/-- Fewest SPARE positions on a die. -/
def State.sparesMin (s : State) : Nat := ((List.range s.dieCount).map s.sparesOn).foldl min 4

/-- FAULT_HEALTH. -/
def State.healthView (s : State) : Nat :=
  let h := s.health
  flag 0 h.suspect + flag 1 h.draining + flag 2 h.drainedAll + flag 3 h.replace + rf 8 3 s.sparesMin
    + rf 16 8 (s.cells.filter fun c => c.st == 7).length + rf 24 8 h.cause

/-- FAULT_FATAL. -/
def Health.fatalView (h : Health) : Nat := h.fatal.toNat + rf 16 32 h.firstMs

def State.faultView (s : State) (o : Nat) : Nat :=
  let h := s.health
  if o < 0x60 ∧ o % 0x20 = 8 then
    let f := s.ring (o / 0x20)
    flag 0 (s.ringOn (o / 0x20)) + rf 16 16 f.head.toNat + rf 32 9 f.held.length + rf 48 16 f.tail.toNat
  else if o = 0x80 then h.fatalView
  else if o = 0x88 then h.alerts
  else if o = 0x98 then s.healthView
  else if 0xC0 ≤ o ∧ o < 0x100 ∧ o % 8 = 0 then
    (([h.cntRecords, h.cntIncidents, h.cntReports, h.cntReplays, h.cntJigRuns, h.cntJigFails, h.cntShadow, h.cntShadowSkip] :
      List Word).getD ((o - 0xC0) / 8) 0).toNat
  else if 0x200 ≤ o ∧ o < 0x380 ∧ o % 8 = 0 then
    let i := (o - 0x200) / 8
    rf 0 32 ((s.ring (i / 16)).ovf.getD (i % 16) 0)
  else if o = 0x408 then flag 0 h.larkBusy + flag 1 h.larkValid
  else if 0x800 ≤ o ∧ o < 0xA00 ∧ o % 8 = 0 then
    if h.larkBusy then Config.free (s.drawn + o) % 2 ^ 64 else leNat ((h.larkData.drop (o - 0x800)).take 8)
  else s.reg (faultBase + o)

/-! ## All of BAR0 -/

/-- The register at a BAR0 offset that is a multiple of 8, as it stands now: zero outside every block, in blocks of absent units
and where nothing is listed (R7, R16). -/
def State.viewReg (s : State) (a : Nat) : Nat :=
  if 0x40000 ≤ a ∧ a < 0xE0000 then
    let pos := (a - 0x40000) / 0x800
    if pos < s.cells.length then (s.cell pos).strView ((a - 0x40000) % 0x800) else 0
  else if a < 0x100000 then s.glbView a
  else if a < 0x101000 then s.hifView (a - 0x100000)
  else if 0x110000 ≤ a ∧ a < 0x120000 then s.ceView ((a - 0x110000) / 0x1000) (a % 0x1000)
  else if 0x200000 ≤ a ∧ a < 0x200100 then
    if a = 0x200040 then s.hif.cntReq.toNat else if a = 0x200048 then s.hif.cntDbLost.toNat else s.reg a
  else if 0x400000 ≤ a ∧ a < 0x500000 then s.xltView ((a - 0x400000) / 0x10000) (a % 0x10000)
  else if a = 0x500010 then s.hot.untracked.toNat
  else if a = 0x500018 then s.hot.lost.toNat
  else if 0x800000 ≤ a ∧ a < 0x900000 then s.partView ((a - 0x800000) / 0x10000) (a % 0x10000)
  else if 0xC00000 ≤ a ∧ a < 0xD00000 then s.svcView ((a - 0xC00000) / 0x10000) (a % 0x10000)
  else if 0xE00000 ≤ a ∧ a < 0xF00000 then
    if a % 0x10000 < 0x1000 then s.cmpView ((a - 0xE00000) / 0x10000) (a % 0x10000 / 0x100) (a % 0x100) else 0
  else if 0x1000000 ≤ a ∧ a < 0x3000000 then
    let d := (a - 0x1000000) / 0x400000
    let p := a % 0x400000 / 0x10000
    if d < s.dieCount ∧ p < 40 then (s.cell (40 * d + p)).view (40 * d + p) (a % 0x10000) (s.reg a) else 0
  else if 0x3000000 ≤ a ∧ a < 0x3400000 then
    let k := (a - 0x3000000) / 0x40000
    let o := a % 0x40000
    if s.stackCount ≤ k then 0 else
    if o < 0x20000 then (s.engine k).view k o (s.reg a) else (s.engine k).mem.view k (o - 0x20000)
  else if 0x3400000 ≤ a ∧ a < 0x3440000 then (if portsOf s.model = 0 then 0 else s.netView (a - 0x3400000))
  else if 0x3600000 ≤ a ∧ a < 0x3602000 then (if s.model = 2 then 0 else s.hrvView (a - 0x3600000))
  else if 0x3800000 ≤ a ∧ a < 0x3802000 then (if s.carts.bays = [] then 0 else s.cartView (a - 0x3800000))
  else if faultBase ≤ a ∧ a < faultBase + 0x1000 then s.faultView (a - faultBase)
  else s.reg a

end Sys2Proof.Machine
end

