-- ==== Sys2Proof/Machine/Regs.lean ====
section
/-! DEFINITION. Shadow sets (R36), reads of GLB_MTIME (R31), and register writes by access code (R12, R13, R16). -/
namespace Sys2Proof.Machine

/-! ## Shadow sets (R36) -/

/-- Every eighth offset of [lo, lo + 8n). -/
def offs (lo n : Nat) : List Nat := (List.range n).map fun i => lo + 8 * i

/-- The registers of an island's shadow set: those that the register tables read from it (R77, R135, R150, R192, R216, R238,
R266, R321, R351, R374, R395, R423, R437, R461). -/
def State.shadowOffs (s : State) (i : Island) : List Nat :=
  match i with
  | .cell p =>
    let b := cellBase p
    [b, b + 8, b + 0x10] ++ offs (b + 0x20) 15 ++ offs (b + 0x400) 64 ++ offs (0x40000 + 0x800 * p) 128
      ++ offs (0x40400 + 0x800 * p) 5
  | .rowEngine k =>
    let b := engineBase k
    [b, b + 8, b + 0x10, b + 0x28, b + 0x30] ++ offs (b + 0x40) 12
      ++ (s.engine k).srcs.flatMap (fun x => [b + 0x1000 + 16 * x.src, b + 0x1008 + 16 * x.src])
      ++ offs (b + 0x20000) 3 ++ offs (b + 0x20040) 9 ++ offs (b + 0x21000) 64
  | .control =>
    (List.range 16).flatMap fun p => offs (svcBase p + 0x40) 8 ++ offs (xltBase p + 0x40) 3 ++ offs (partBase p + 0x80) 9
      ++ (s.cmp.filter fun c => c.part == p).flatMap fun c => offs (cmpBase p c.ctx + 0x18) 6
  | .host => offs 0x100040 5 ++ [0x200040, 0x200048, 0x500010, 0x500018]
  | .copyEngine e => offs (ceBase e + 0x40) 5
  | .cartridge => (List.range s.carts.bays.length).flatMap fun n => offs (0x3801040 + 0x100 * n) 5
  | .network => (List.range s.net.ports.length).flatMap (fun n => offs (0x3400110 + 0x40 * n) 5) ++ offs 0x3416000 5
  | .horvi => offs 0x3600040 8
  | .steward => offs (faultBase + 0xC0) 8 ++ [0x400, 0x408, 0x410, 0x440, 0x448]
  | .dieFabric _ => []

/-- The island exists on the part. -/
def State.hasIsland (s : State) (i : Island) : Bool :=
  match i with
  | .cell p => decide (p < s.cells.length)
  | .rowEngine k => decide (k < s.engines.length)
  | .dieFabric d => decide (d < s.dies.length)
  | .copyEngine e => decide (e < 16)
  | .cartridge => s.carts.bays != []
  | .network => s.net.ports != []
  | .horvi => s.model != 2
  | _ => true

/-- The temperature sensor n of a die or stack is there (numbers of log entry 44). -/
def State.hasSensor (s : State) (n : Nat) : Bool :=
  decide (n < s.dieCount) || n == 8 || (n == 9 && portsOf s.model != 0) || n == 10 || (decide (16 ≤ n) && decide (n < 16 + s.stackCount))

/-- The steward's temperature sensors read anything the conditions of R448 have not been told of (log entry 45): free values. -/
def State.senseTemps (s : State) : State :=
  let (a, s) := s.drawBytes 32
  let (b, s) := s.draw 256
  let (c, s) := s.draw 256
  let temps := a.map BitVec.toNat
  let there := (List.range 32).filter s.hasSensor
  let hottest := (there.map fun n => signed 8 (temps.getD n 0)).foldl max (-128)
  s.modPower fun p => { p with hottest, inlet := signed 8 b, outlet := signed 8 c, temps }

/-- A shadow set is taken anew, stamped with the island's MTIME copy; its monitors read the clock and the sensors of that moment. -/
def State.shadowCopy (s : State) (i : Island) : State :=
  if !s.hasIsland i then s else
  let s := s.oscillate i
  let s := match i with | .cell p => s.modCell p (·.waited (s.now i)) | _ => s
  let s := if i = .steward then s.senseTemps else s
  let regs := ((s.shadowOffs i).map fun a => (a, BitVec.ofNat 64 (s.viewReg a))).filter fun x => x.2 != 0
  { s with shadows := s.shadows.filter (fun x => x.island != i) ++ [⟨i, s.now i, regs⟩] }

/-- SHADOW_SET_COPY (R36). -/
def execShadowSetCopy (island : Island) (s : State) : Host.Outcome State Fault Refusal := .next (s.shadowCopy island)

/-- The island whose shadow set a read of a register returns; none for a register that is read live. -/
def State.shadowOf (s : State) (a : Nat) : Option Island :=
  let holds (i : Island) : Option Island := if (s.shadowOffs i).contains a then some i else none
  if 0x1000000 ≤ a ∧ a < 0x3000000 then holds (.cell (40 * ((a - 0x1000000) / 0x400000) + a % 0x400000 / 0x10000))
  else if 0x40000 ≤ a ∧ a < 0xE0000 then holds (.cell ((a - 0x40000) / 0x800))
  else if 0x3000000 ≤ a ∧ a < 0x3400000 then holds (.rowEngine ((a - 0x3000000) / 0x40000))
  else if 0x110000 ≤ a ∧ a < 0x120000 then holds (.copyEngine ((a - 0x110000) / 0x1000))
  else ([.control, .host, .cartridge, .network, .horvi, .steward] : List Island).findSome? holds

/-- What a read of a register returns: the last shadow set where it reads from one, else its value now. Before an island's
first copy the register reads as it stands (log entry 46). -/
def State.readReg (s : State) (a : Nat) : Nat :=
  match (s.shadowOf a).bind fun i => s.shadows.find? fun x => x.island == i with
  | some x => ((x.regs.find? fun r => r.1 == a).map fun r => r.2.toNat).getD 0
  | none => s.viewReg a

/-- A read of a register whose bits from 16 up are a high-water mark (R12, R36): it returns the shadow set's, which the read clears
there. -/
def State.readMark (s : State) (a : Nat) : State :=
  let v := s.readReg a
  let clear (r : Nat × Word) : Nat × Word := if r.1 = a then (a, BitVec.ofNat 64 (r.2.toNat % 2 ^ 16)) else r
  let s : State := { s with shadows := s.shadows.map fun x => { x with regs := (x.regs.map clear).filter fun r => r.2 != 0 } }
  s.modHif fun h => { h with readData := leBytes 8 v, readMarked := false }

/-- RE_TAGS is read (R12, R137): the high-water mark starts again from the tags held. -/
def execReTagsRead (k : Nat) (s : State) : Host.Outcome State Fault Refusal :=
  .next ((s.readMark (engineBase k + 0x28)).modEngine k fun e => { e with tagsHigh := e.tags })

/-- MEM_WCB is read (R12, R218): the high-water mark starts again from the entries held. -/
def execMemWcbRead (k : Nat) (s : State) : Host.Outcome State Fault Refusal :=
  .next ((s.readMark (engineBase k + 0x20008)).modStack k fun m => { m with wcbHigh := m.wcb.length })

/-! ## GLB_MTIME (R31) -/

/-- GLB_MTIME_LOW_READ (R31). -/
def execGlbMtimeLowRead (fn : Nat) (s : State) : Host.Outcome State Fault Refusal :=
  let t := s.now .host % 2 ^ 64
  .next (s.modHif fun h => { h with
    mtimeLatch := h.mtimeLatch.filter (fun e => e.1 != fn) ++ [(fn, BitVec.ofNat 32 (t / 2 ^ 32))]
    readData := leBytes 4 t, readMarked := false })

/-- GLB_MTIME_HIGH_READ (R31): what the function's low-word read latched, once. -/
def execGlbMtimeHighRead (fn : Nat) (s : State) : Host.Outcome State Fault Refusal :=
  let v := match s.hif.mtimeLatch.find? fun e => e.1 == fn with
    | some e => e.2.toNat
    | none => s.now .host % 2 ^ 64 / 2 ^ 32
  .next (s.modHif fun h => { h with
    mtimeLatch := h.mtimeLatch.filter (fun e => e.1 != fn), readData := leBytes 4 v, readMarked := false })

/-! ## Register writes (R12, R13) -/

/-- The BAR0 offset that an offset in a function's BAR0 reaches (R16, R328); none where nothing is written. -/
def State.busOff (s : State) (fn off : Nat) : Option Nat :=
  if fn = 0 then some off else
  let n := fn - 1
  if 16 ≤ n then none else
  let o := off % 0x10000
  match off / 0x10000 with
  | 0 => some (partBase n + o)
  | 1 => some (xltBase n + o)
  | 2 => some (svcBase n + o)
  | 3 => some (0xE00000 + 0x10000 * n + o)
  | 4 => (((List.range 16).filter fun e => s.ceOwner e == 16 + n)[o / 0x1000]?).map fun e => ceBase e + o % 0x1000
  | 5 => if o < 8 then some (vfMbxBase n) else none
  | _ => none

/-- The state that a meaning answers. -/
def State.after (s : State) (o : Host.Outcome State Fault Refusal) : State :=
  match o with
  | .next t => t
  | _ => s

/-- Store the fields of a register, clamped, and count the clamps for the management plane (R12); a write of what stores nothing is
discarded (R7, R13). -/
def State.store (s : State) (a v : Nat) : State :=
  if cfgFields s.model a = [] then s else
  (s.setReg a (cfgApply s.model a v)).countClamps a v

/-- Run a command where the write covers its OP field. -/
def State.ifLow (s : State) (low : Bool) (f : State → State) : State := if low then f s else s

/-- A write of a global register. -/
def State.writeGlb (s : State) (a v w : Nat) (low : Bool) : State :=
  match a with
  | 0x18 => s.ifLow low fun s => s.glbReset w
  | 0x300 => s.ifLow low fun s => s.after (match bits w 3 0 with
      | 1 => execImgStage s | 2 => execImgCommit s | 3 => execImgDiscard s | op => execImgCmdNop op s)
  | _ => s.store a v

/-- A write of a cell's or row engine's register. -/
def State.writeCell (s : State) (pos o a v w : Nat) (low : Bool) : State :=
  match o with
  | 0x18 => s.ifLow low fun s =>
      let s := s.after (execCellCntFreeze pos (w.testBit 0) s)
      if w.testBit 1 then s.after (execCellCntClear pos s) else s
  | 0x20 => if w.testBit 8 then s.after (execCellFaultValidClear pos s) else s
  | _ => s.store a v

def State.writeEngine (s : State) (k o a v w : Nat) (low : Bool) : State :=
  match o with
  | 0x18 => s.ifLow low fun s =>
      let s := s.after (execReCntFreeze k (w.testBit 0) s)
      if w.testBit 1 then s.after (execReCntClear k s) else s
  | 0x30 => if w.testBit 8 then s.after (execReFaultValidClear k s) else s
  | _ => s.store a v

/-- A write of a partition's ring register (R322, R323). -/
def State.writePart (s : State) (p o a v : Nat) : State :=
  match o with
  | 0x10 => if (s.reg (partBase p + 0x18)).testBit 4 then s else s.store a v
  | 0x20 => if (s.reg (partBase p + 0x28)).testBit 4 then s else s.store a v
  | 0x30 => if (s.reg (partBase p + 0x38)).testBit 4 then s else s.store a v
  | 0x18 => s.subCtlWrite p false v
  | 0x28 => s.subCtlWrite p true v
  | 0x38 => s.cqCtlWrite p v
  | _ => s

/-- A write of PART_TBL_CMD (R151, R152). -/
def State.writeTbl (s : State) (p w : Nat) : State :=
  let t := bits w 15 4
  s.after (match bits w 3 0 with
    | 1 => execStage p t s | 2 => execPublish p t s | 3 => execAbort p t s | 4 => execQuery p t s | 5 => execBind p t s
    | 6 => execRelease p s | 7 => execPublishSet p s | op => execTblCmdNop p op s)

/-- A write of XLT_CMD (R267). -/
def State.writeXlt (s : State) (p w : Nat) : State :=
  let i := bits w 27 16
  s.after (match bits w 3 0 with
    | 1 => execRangeAdd p i s | 2 => execRangeRemove p i s | 3 => execRangeReplace p i s | 4 => execRangeRead p i s
    | op => execXltCmdNop p op s)

/-- A write of CMP_CTX_CMD (R239). -/
def State.writeCmp (s : State) (p c w : Nat) : State :=
  let n := bits w 47 16
  let g := bits w 6 4
  s.after (match bits w 3 0 with
    | 1 => execBuild p c n s | 2 => execLoad p c g n s | 3 => execCmpRelease p c g n s | op => execCmpCmdNop p c op s)

/-- A write of a copy engine's register (R351, R352). -/
def State.writeCe (s : State) (e o a v w : Nat) (low : Bool) : State :=
  match o with
  | 0 => if (s.ceCtl e).testBit 4 then s else s.store a v
  | 8 => s.ceCtlWrite e v
  | 0x10 => s.ifLow low fun s =>
      let s := if w.testBit 0 then s.after (execCeResume e s) else s
      if w.testBit 1 then s.after (execCeAbort e s) else s
  | 0x20 => if (s.ceCtl e).testBit 4 then s else s.store a v
  | _ => s

/-- A write of a network register (R374, R375). -/
def State.writeNet (s : State) (o a v w : Nat) (low : Bool) : State :=
  if portsOf s.model = 0 then s else
  if 0x20000 ≤ o ∧ o < 0x40000 then s.after (execNetSakWrite ((o - 0x20000) / 0x80) (o % 0x80 / 8) (BitVec.ofNat 64 w) s) else
  if 0x1000 ≤ o ∧ o < 0x11000 then
    let k := (o - 0x1000) / 0x40
    if o % 0x40 = 0x10 then
      let s := s.peerCfgWrite k v
      if low ∧ w.testBit 1 then s.after (execPeerReset k s) else s
    else if (s.peerCfg k).testBit 0 then s else s.store a v
  else if 0x11000 ≤ o ∧ o < 0x13000 then
    let i := (o - 0x11000) / 0x40
    if o % 0x40 = 8 then s.netRingCtlWrite i v else if (s.sendCtl i).testBit 4 then s else s.store a v
  else if 0x14000 ≤ o ∧ o < 0x15000 then
    let j := (o - 0x14000) / 0x40
    if o % 0x40 = 0 then s.redWrite j v
    else if (s.redCfg j).testBit 0 then s else s.store a v
  else s.store a v

/-- A write of a Horvi register (R395, R396). -/
def State.writeHrv (s : State) (o a v w : Nat) (low : Bool) : State :=
  if s.model = 2 then s else
  if 0x1000 ≤ o ∧ o < 0x1100 then s.after (execHrvSakWrite ((o - 0x1000) / 0x40) (o % 0x40 / 8) (BitVec.ofNat 64 w) s) else
  if o = 0 then (s.store a v).ifLow low fun s => s.linkEn (w.testBit 0)
  else if 0x100 ≤ o ∧ o < 0x200 ∧ (s.hrv.st = 3 ∨ s.hrv.st = 4) then s else s.store a v

/-- A write of CART_CMD (R436, R438). -/
def State.writeCart (s : State) (w : Nat) : State :=
  let b := bits w 7 4
  let n := bits w 63 32
  s.after (match bits w 3 0 with
    | 1 => execEject b s | 2 => execFill b n s | 3 => execMigrate b (bits w 11 8) n (w.testBit 12) s | 4 => execAdopt b s
    | 5 => execDiscardDirty s | op => execCartCmdNop op s)

/-- A write of a fault and health register (R423 to R425). -/
def State.writeFault (s : State) (o a v w : Nat) : State :=
  if o < 0x60 ∧ o % 0x20 = 0 then (if s.ringOn (o / 0x20) then s else s.store a v)
  else if o < 0x60 ∧ o % 0x20 = 8 then s.faultCtlWrite (o / 0x20) v
  else if o = 0x88 then s.alertClear w
  else if o = 0x400 then s.larkSelWrite v
  else s.store a v

/-- A write of the register at a (a multiple of 8): w holds the bytes written, v the same over what the register shows, and low
says whether its lowest byte is written. -/
def State.writeAt (s : State) (a v w : Nat) (low : Bool) : State :=
  if a < 0x100000 then s.writeGlb a v w low
  else if 0x110000 ≤ a ∧ a < 0x120000 then s.writeCe ((a - 0x110000) / 0x1000) (a % 0x1000) a v w low
  else if a = 0x200008 ∨ (0x200010 ≤ a ∧ a < 0x200030) ∨ (vfMbxBase 0 ≤ a ∧ a < vfMbxBase 16) then
    if (s.reg 0x200000).testBit 0 then s else s.store a v
  else if 0x400000 ≤ a ∧ a < 0x500000 ∧ a % 0x10000 = 0 then s.ifLow low fun s => s.writeXlt ((a - 0x400000) / 0x10000) w
  else if 0x800000 ≤ a ∧ a < 0x900000 then s.writePart ((a - 0x800000) / 0x10000) (a % 0x10000) a v
  else if 0xC00000 ≤ a ∧ a < 0xD00000 ∧ a % 0x10000 = 0 then s.ifLow low fun s => s.writeTbl ((a - 0xC00000) / 0x10000) w
  else if 0xE00000 ≤ a ∧ a < 0xF00000 ∧ a % 0x10000 < 0x1000 ∧ a % 0x100 = 0 then
    s.ifLow low fun s => s.writeCmp ((a - 0xE00000) / 0x10000) (a % 0x10000 / 0x100) w
  else if 0x1000000 ≤ a ∧ a < 0x3000000 then
    let d := (a - 0x1000000) / 0x400000
    let p := a % 0x400000 / 0x10000
    if d < s.dieCount ∧ p < 40 then s.writeCell (40 * d + p) (a % 0x10000) a v w low else s
  else if 0x3000000 ≤ a ∧ a < 0x3400000 then
    let k := (a - 0x3000000) / 0x40000
    if k < s.stackCount then s.writeEngine k (a % 0x40000) a v w low else s
  else if 0x3400000 ≤ a ∧ a < 0x3440000 then s.writeNet (a - 0x3400000) a v w low
  else if 0x3600000 ≤ a ∧ a < 0x3602000 then s.writeHrv (a - 0x3600000) a v w low
  else if 0x3800000 ≤ a ∧ a < 0x3802000 then
    if s.carts.bays = [] then s else if a = 0x3800000 then s.ifLow low fun s => s.writeCart w else s.store a v
  else if faultBase ≤ a ∧ a < faultBase + 0x1000 then s.writeFault (a - faultBase) a v w
  else s.store a v

/-- A write of `size` bytes at an offset of a function's BAR0; bytes beyond the register that it starts in are not written, and
bytes it does not cover keep what they hold (log entry 43). -/
def State.registerWrite (s : State) (fn off size val : Nat) : State :=
  match s.busOff fn off with
  | none => s
  | some b =>
    let lo := b % 8
    let a := b - lo
    let n := min size (8 - lo)
    if n = 0 then s else
    let w := val % 2 ^ (8 * n) * 2 ^ (8 * lo)
    let old := s.viewReg a
    let v := old % 2 ^ (8 * lo) + w + old / 2 ^ (8 * (lo + n)) * 2 ^ (8 * (lo + n))
    s.writeAt a v w (lo == 0)

/-- REGISTER_WRITE (R12). -/
def execRegisterWrite (fn off size : Nat) (val : BitVec 64) (s : State) : Host.Outcome State Fault Refusal :=
  .next (s.registerWrite fn off size val.toNat)

end Sys2Proof.Machine
end

