-- ==== Sys2Proof/Machine/Manage.lean ====
section
/-! DEFINITION. The steward's MCTP endpoint (R450 to R453): PLDM, SPDM, the OEM commands and the I3C address. `power.answer` holds
the response to the last request: for PLDM its completion code and data, for SPDM its header and fields. -/
namespace Sys2Proof.Machine

/-! ## Answers -/

def State.respond (s : State) (b : Bytes) : State := s.modPower fun p => { p with answer := b }

/-- PLDM completion codes (DSP0240, DSP0248). -/
def pldmOk : Byte := 0x00
def pldmInvalid : Byte := 0x02
def pldmLength : Byte := 0x03
def pldmNotReady : Byte := 0x04
def pldmUnsupported : Byte := 0x05
def pldmNoSensor : Byte := 0x80

/-- The steward's firmware runs, so that every type is answered (R450, R455). -/
def State.endpoint (s : State) : Bool := s.power.boot == 3 || s.power.boot == 4

/-- The PCIe binding also needs configuration-space readiness (R450). -/
def State.bound (s : State) (i3c : Bool) : Bool := s.endpoint && (i3c || s.hif.configReady)

/-- A refused command: the spec names no completion code, which is a free value other than SUCCESS. -/
def State.declineCmd (s : State) : State :=
  let (r, s) := s.draw 255
  s.respond [BitVec.ofNat 8 (r + 1)]

/-- An OEM command (R453): one marked I3C-only that arrives over PCIe is unsupported and has no effect. -/
def State.oem (s : State) (i3c only : Bool) (f : State → State) : State :=
  if !s.bound i3c then s else if only && !i3c then s.respond [pldmUnsupported] else f s

/-! ## OEM commands (R453) -/

/-- KEY_SET: a P-384 key of 97 bytes enters an empty slot (R288, R453). -/
def execKeySet (i3c : Bool) (slot : Nat) (key : Bytes) (s : State) : Host.Outcome State Fault Refusal :=
  .next (s.oem i3c true fun s =>
    if key.length ≠ 97 then s.respond [pldmLength]
    else if s.power.keys[slot]? ≠ some none then s.declineCmd
    else (s.modPower fun p => { p with keys := p.keys.set slot (some key) }).respond [pldmOk])

/-- KEY_REVOKE (R288, R453). -/
def execKeyRevoke (i3c : Bool) (slot : Nat) (s : State) : Host.Outcome State Fault Refusal :=
  .next (s.oem i3c true fun s =>
    if s.power.keys.length ≤ slot then s.declineCmd
    else (s.modPower fun p => { p with keys := p.keys.set slot none }).respond [pldmOk])

/-- HEALTH_CLEAR (R422, R453): SUSPECT, or SUSPECT and REPLACE; admission held since start-up opens. -/
def execHealthClear (i3c replace : Bool) (s : State) : Host.Outcome State Fault Refusal :=
  .next (s.oem i3c true fun s =>
    let s := s.modHealth fun h => { h with suspect := false, cause := 0, replace := h.replace && !replace }
    let s := s.modPower fun p => { p with suspectHold := false }
    ((List.range 16).foldl State.reopen s).respond [pldmOk])

/-- MTIME_ADVANCE (R30, R453): 1 to 2^40 ns; refused while PTP disciplines MTIME. -/
def execMtimeAdvance (i3c : Bool) (ns : Nat) (s : State) : Host.Outcome State Fault Refusal :=
  .next (s.oem i3c true fun s =>
    if ns = 0 ∨ 2 ^ 40 < ns ∨ (s.model ≠ 2 ∧ (s.reg 0x3400030).testBit 0) then s.declineCmd
    else ({ s with mtime := s.mtime + BitVec.ofNat 64 ns } : State).respond [pldmOk])

/-- RESET (R453): as a write of GLB_RESET. -/
def execOemReset (i3c : Bool) (val : BitVec 64) (s : State) : Host.Outcome State Fault Refusal :=
  .next (s.oem i3c true fun s => (s.respond [pldmOk]).glbReset val.toNat)

/-- LARK_READ (R453): the record as FAULT_LARK_DATA shows it. -/
def execLarkRead (i3c : Bool) (unit : UnitId) (s : State) : Host.Outcome State Fault Refusal :=
  .next (s.oem i3c false fun s => s.respond (pldmOk :: s.larkBytes unit))

/-- STATUS_READ (R453): GLB_STATUS, FAULT_HEALTH and FAULT_FATAL. -/
def execStatusRead (i3c : Bool) (s : State) : Host.Outcome State Fault Refusal :=
  .next (s.oem i3c false fun s =>
    s.respond (pldmOk :: (leBytes 8 (s.readReg 0x10) ++ leBytes 8 (s.readReg 0x3C00098) ++ leBytes 8 (s.readReg 0x3C00080))))

/-! ## Platform monitoring, firmware update and base commands (R451) -/

/-- SET_POWER_CAP (R451): 0 means the TDP; values are clamped to floor to TDP. -/
def execSetPowerCap (watts : Nat) (s : State) : Host.Outcome State Fault Refusal :=
  .next (if !s.endpoint then s else
    let w := if watts = 0 then tdpOf s.model else max (floorOf s.model) (min (tdpOf s.model) watts)
    (s.modPower fun p => { p with mgmtCap := w }).respond [pldmOk])

/-- The reading of a sensor (R36, R451; numbers of log entry 44) as the steward's last shadow set holds it; before the first, a free
value. -/
def State.sensor (s : State) (n : Nat) : Option (Nat × State) :=
  let power := s.readReg 0x400
  let heat := s.readReg 0x410
  if n = 32 then some (bits heat 15 8, s)
  else if n = 33 then some (bits heat 23 16, s)
  else if n = 34 then some (bits power 43 32, s)
  else if n = 35 then some (bits power 15 0, s)
  else if s.hasSensor n then
    let s := if s.power.temps = [] then s.senseTemps else s
    some (s.power.temps.getD n 0, s)
  else none

/-- GET_SENSOR_READING (R451). -/
def execGetSensorReading (sensor : Nat) (s : State) : Host.Outcome State Fault Refusal :=
  .next (if !s.endpoint then s else
    match s.sensor sensor with
    | some (v, s) => s.respond (pldmOk :: leBytes 2 v)
    | none => s.respond [pldmNoSensor])

/-- A transfer of steward firmware (R451, R455): to the inactive bank; in recovery one that verifies starts at once. -/
def State.firmware (s : State) (data : Bytes) : State :=
  let bank := 1 - s.power.activeBank % 2
  let s := (s.modPower fun p => { p with firmware := p.firmware.set bank data }).respond [pldmOk]
  if s.power.boot = 5 then
    if Config.firmwareVerifies data then s.modPower fun p => { p with boot := 2, activeBank := bank, newFirmware := false } else s
  else s.modPower fun p => { p with newFirmware := true }

/-- A transfer of a Pyrmet image (R298, R451): the staging store takes it as it takes a STAGE. -/
def State.transferImage (s : State) (data : Bytes) : State :=
  if s.image.busy ∨ !s.power.imageReady then s.respond [pldmNotReady]
  else if s.image.st = 2 then (s.imgCommand fun s => s.modImage fun i => { i with result := 4 }).respond [pldmNotReady]
  else
    let s := s.respond [pldmOk]
    s.imgCommand fun s =>
      if !lengthOk data.length then s.stageReject [] 1
      else ((s.modImage fun i => { i with st := 1, busy := true, area := [] }).stageBytes data).tryPartnerCommit

/-- FIRMWARE_UPDATE (R298, R451, R455). -/
def execFirmwareUpdate (image : Bool) (data : Bytes) (s : State) : Host.Outcome State Fault Refusal :=
  .next (if image then (if s.endpoint then s.transferImage data else s)
    else if s.endpoint ∨ s.power.boot = 5 then s.firmware data else s)

/-- PLDM_BASE (R451, R455; codes of DSP0240): SetTID, GetTID, GetPLDMVersion, GetPLDMTypes and GetPLDMCommands. The types are
those of R451, in recovery 0 and 5; the content of the other answers is left open. -/
def execPldmBase (cmd : Nat) (s : State) : Host.Outcome State Fault Refusal :=
  let open_ (s : State) (n : Nat) : State := let (b, s) := s.drawBytes n; s.respond (pldmOk :: b)
  .next (if !s.endpoint ∧ s.power.boot ≠ 5 then s else
    match cmd with
    | 1 => s.respond [pldmOk]
    | 2 => open_ s 1
    | 3 => open_ s 13
    | 4 => s.respond (pldmOk :: leBytes 8 (if s.power.boot = 5 then 0x21 else 0x8000000000000025))
    | 5 => open_ s 32
    | _ => s.respond [pldmUnsupported])

/-! ## SPDM (R452; formats of DSP0274) -/

/-- A response with its version, code and two parameters. -/
def spdm (code p1 p2 : Byte) (body : Bytes) : Bytes := [0x13, code, p1, p2] ++ body

/-- An SPDM answer from a running steward. -/
def State.spdmAnswer (s : State) (f : State → State) : State := if s.endpoint then f s else s

/-- GET_VERSION: 1.2 and 1.3. -/
def execGetVersion (s : State) : Host.Outcome State Fault Refusal :=
  .next (s.spdmAnswer fun s => s.respond [0x10, 0x04, 0, 0, 0, 2, 0x00, 0x12, 0x00, 0x13])

/-- GET_CAPABILITIES: certificates, challenges and signed measurements; no key exchange, PSK or secured messages. The timing
exponent is open. -/
def execGetCapabilities (s : State) : Host.Outcome State Fault Refusal :=
  .next (s.spdmAnswer fun s =>
    let (t, s) := s.drawBytes 1
    s.respond (spdm 0x61 0 0 ([0] ++ t ++ [0, 0] ++ leBytes 4 0x16)))

/-- NEGOTIATE_ALGORITHMS: ECDSA P-384 and SHA-384. -/
def execNegotiateAlgorithms (s : State) : Host.Outcome State Fault Refusal :=
  .next (s.spdmAnswer fun s => s.respond (spdm 0x63 0 0 (leBytes 4 0x80 ++ leBytes 4 0x02)))

/-- GET_DIGESTS: the chain of slot 0. -/
def execGetDigests (s : State) : Host.Outcome State Fault Refusal :=
  .next (s.spdmAnswer fun s => s.respond (spdm 0x01 0 1 (sha384 Config.certificate)))

/-- GET_CERTIFICATE: a portion of the chain in slot 0, its length and what remains. -/
def execGetCertificate (off len : Nat) (s : State) : Host.Outcome State Fault Refusal :=
  let c := (Config.certificate.drop off).take len
  .next (s.spdmAnswer fun s => s.respond (spdm 0x02 0 0
    (leBytes 2 c.length ++ leBytes 2 (Config.certificate.length - off - c.length) ++ c)))

/-- CHALLENGE: a response signed over the nonces and the chain's digest. -/
def execChallenge (nonce : Bytes) (s : State) : Host.Outcome State Fault Refusal :=
  .next (s.spdmAnswer fun s =>
    let (own, s) := s.drawBytes 32
    let body := spdm 0x03 0 1 (sha384 Config.certificate ++ own)
    s.respond (body ++ Config.ecdsaSign (sha384 (nonce ++ body))))

/-- An empty measurement (R452). -/
def emptyMeasure : Bytes := zeros 48

/-- The digest of the eight key slots (R452). -/
def Power.keyDigest (p : Power) : Bytes := sha384 (p.keys.flatMap fun k => k.getD (zeros 97))

/-- The measurement at an index (R452, R289): an image's digest with its SERIAL behind it (DESIGN CHOICE, log entry 50: the spec gives
no layout of the two). -/
def State.measurement (s : State) (n : Nat) : Bytes :=
  if n = 1 then Config.firmwareDigest
  else if n = 2 then Config.firmwareVersion
  else if n = 3 then s.power.keyDigest
  else if 16 ≤ n ∧ n ≤ 32 then
    let d := s.image.measure.getD (n - 16) emptyMeasure
    if d = emptyMeasure then d else d ++ leBytes 8 (s.image.measureSerial.getD (n - 16) 0).toNat
  else emptyMeasure

/-- GET_MEASUREMENTS: one index, signed over the nonces and the value. -/
def execGetMeasurements (index : Nat) (nonce : Bytes) (s : State) : Host.Outcome State Fault Refusal :=
  .next (s.spdmAnswer fun s =>
    let (own, s) := s.drawBytes 32
    let body := spdm 0x60 0 0 ([BitVec.ofNat 8 index] ++ s.measurement index ++ own)
    s.respond (body ++ Config.ecdsaSign (sha384 (nonce ++ body))))

/-! ## Addresses (R441, R450) -/

/-- ENTDAA (R441). -/
def execEntdaa (addr : Nat) (s : State) : Host.Outcome State Fault Refusal :=
  .next (if s.endpoint ∨ s.power.boot = 5 then s.modPower fun p => { p with i3cAddr := addr % 128 } else s)

/-- SET_ENDPOINT_ID (R450). -/
def execSetEndpointId (pcie : Bool) (eid : Nat) (s : State) : Host.Outcome State Fault Refusal :=
  .next (if pcie then (if s.bound false then s.modPower fun p => { p with eidPcie := eid % 256 } else s)
    else if s.endpoint ∨ s.power.boot = 5 then s.modPower fun p => { p with eidI3c := eid % 256 } else s)

end Sys2Proof.Machine
end

