-- ==== Sys2Proof/Machine/Scalar.lean ====
section
/-! DEFINITION. The scalar unit (R60, R69, R101, R102). -/
namespace Sys2Proof.Machine

/-- SD ← f of SA and of SB or IMM32 (R60, R69). -/
def State.scalarOp (s : State) (i : Nat) (w : StepWord) (f : Nat → Nat → Nat) : State :=
  let x := (s.cell i).cur
  s.setSd i w (f (x.sa w) (x.sbImm w))

/-- SMOV: SD ← the 64-bit immediate (R67). -/
def execSmov (g : Nat) (w : StepWord) (s : State) : Host.Outcome State Fault Refusal :=
  .next (s.issue 0x10 g w fun i _ s => s.setSd i w (imm64Of w))

/-- SADD (R60): modulo 2^64. -/
def execSadd (g : Nat) (w : StepWord) (s : State) : Host.Outcome State Fault Refusal :=
  .next (s.issue 0x11 g w fun i _ s => s.scalarOp i w fun a b => a + b)

/-- SSUB (R60): modulo 2^64. -/
def execSsub (g : Nat) (w : StepWord) (s : State) : Host.Outcome State Fault Refusal :=
  .next (s.issue 0x12 g w fun i _ s => s.scalarOp i w fun a b => a + (2 ^ 64 - b))

/-- SMUL (R60): the low 64 bits of the product. -/
def execSmul (g : Nat) (w : StepWord) (s : State) : Host.Outcome State Fault Refusal :=
  .next (s.issue 0x13 g w fun i _ s => s.scalarOp i w fun a b => a * b)

/-- SAND (R69). -/
def execSand (g : Nat) (w : StepWord) (s : State) : Host.Outcome State Fault Refusal :=
  .next (s.issue 0x14 g w fun i _ s => s.scalarOp i w fun a b => a &&& b)

/-- SOR (R69). -/
def execSor (g : Nat) (w : StepWord) (s : State) : Host.Outcome State Fault Refusal :=
  .next (s.issue 0x15 g w fun i _ s => s.scalarOp i w fun a b => a ||| b)

/-- SXOR (R69). -/
def execSxor (g : Nat) (w : StepWord) (s : State) : Host.Outcome State Fault Refusal :=
  .next (s.issue 0x16 g w fun i _ s => s.scalarOp i w fun a b => a ^^^ b)

/-- SSHL (R60): the count is bits [5:0] of the second operand. -/
def execSshl (g : Nat) (w : StepWord) (s : State) : Host.Outcome State Fault Refusal :=
  .next (s.issue 0x17 g w fun i _ s => s.scalarOp i w fun a b => a * 2 ^ (b % 64))

/-- SSHR (R60): a logical shift. -/
def execSshr (g : Nat) (w : StepWord) (s : State) : Host.Outcome State Fault Refusal :=
  .next (s.issue 0x18 g w fun i _ s => s.scalarOp i w fun a b => a / 2 ^ (b % 64))

/-- SCMP (R69, R101): SD ← 1 or 0. -/
def execScmp (g : Nat) (w : StepWord) (s : State) : Host.Outcome State Fault Refusal :=
  .next (s.issue 0x19 g w fun i _ s =>
    let x := (s.cell i).cur
    s.setSd i w (b2n (condBits (modeOf w) 64 (x.sa w) (x.sb w))))

/-- The function of SFOP (R69, R101, R102) on two scalars. -/
def scalarFp (mode a b : Nat) : Nat :=
  let x := decodeVal 0 a
  let y := decodeVal 0 b
  match mode with
  | 1 => encodeVal 0 (x.sub y)
  | 2 => encodeVal 0 (x.mul y)
  | 3 => encodeVal 0 (Val.pick true x y)
  | 4 => encodeVal 0 (Val.pick false x y)
  | 5 => encodeVal 0 (.ofInt (toSigned 64 a))
  | 6 =>
    let i : Int := match x with
      | .nan => 0 | .zero _ => 0 | .inf n => if n then -(2 ^ 63) else 2 ^ 63 - 1 | .num q => satInt 64 (roundInt q)
    (i % 2 ^ 64).toNat
  | _ => encodeVal 0 (x.add y)

/-- SFOP (R69, R102): an FP32 result has bits [63:32] zero (R60). -/
def execSfop (g : Nat) (w : StepWord) (s : State) : Host.Outcome State Fault Refusal :=
  .next (s.issue 0x1A g w fun i _ s =>
    let x := (s.cell i).cur
    s.setSd i w (scalarFp (modeOf w) (x.sa w) (x.sb w)))

end Sys2Proof.Machine
end

