-- ==== Sys2Proof/Machine/TopK.lean ====
section
/-! DEFINITION. The top-k selection network (R53 to R55). -/
namespace Sys2Proof.Machine

/-- Scores are read as INT32 with FMTA INT32, else as FP32 (R54, R55). -/
def scoreFmt (f : Nat) : Nat := if f = 10 then 10 else 0

/-- The first score is better (R54). -/
def better (keepMax : Bool) (f a b : Nat) : Bool :=
  match (decodeVal f a).compare (decodeVal f b) with
  | some c => if keepMax then 0 < c else c < 0
  | none => false

/-- The order of R54: a better score, of equal scores the lower id, ids being unsigned (DESIGN CHOICE, log entry 49); equal in both, the lower code of +0 and −0, so that the
order of the offers does not matter (DESIGN CHOICE, log entry 21). -/
def entryBefore (keepMax : Bool) (f : Nat) (a b : BitVec 32 × BitVec 32) : Bool :=
  better keepMax f a.1.toNat b.1.toNat ||
    (!better keepMax f b.1.toNat a.1.toNat &&
      (a.2.toNat < b.2.toNat || (a.2 == b.2 && decide (a.1.toNat < b.1.toNat))))

/-- Insert an entry in the order of R54. -/
def insertEntry (keepMax : Bool) (f : Nat) (e : BitVec 32 × BitVec 32) :
    List (BitVec 32 × BitVec 32) → List (BitVec 32 × BitVec 32)
  | [] => [e]
  | x :: l =>
    if entryBefore keepMax f e x then e :: x :: l else x :: insertEntry keepMax f e l

/-- Offer one entry: a NaN score is not entered, and k entries are kept (R54). -/
def TopK.offer (t : TopK) (f r score id : Nat) : TopK :=
  if decodeVal f score = .nan then t else
  { t with rows := t.rows.modify r fun l => (insertEntry t.keepMax f (BitVec.ofNat 32 score, BitVec.ofNat 32 id) l).take t.k }

/-- The fill score of a polarity (R55). -/
def TopK.fill (t : TopK) (f : Nat) : BitVec 32 :=
  if f = 10 then (if t.keepMax then 0x80000000 else 0x7FFFFFFF) else (if t.keepMax then 0xFF800000 else 0x7F800000)

/-- TKINIT (R53): k, the polarity, every row empty. -/
def execTkinit (g : Nat) (w : StepWord) (s : State) : Host.Outcome State Fault Refusal :=
  .next (s.issue 0x40 g w fun i _ s => s.modComp i fun c =>
    { c with topk := ⟨max 1 (min 256 (imm16Of w)), flagOf w 6, List.replicate 64 []⟩ })

/-- TKMERGE (R54): POISON_CONSUMED where a row read is marked. -/
def State.topkMerge (s : State) (i : Nat) (w : StepWord) : State :=
  let c := s.cell i
  let x := c.cur
  let rows := rowsOf w
  let cols := if fld w 93 88 = 0 then 64 else fld w 93 88
  let fromTb := flagOf w 5
  let ta := taOf x w
  let tb := tbOf x w
  if c.comp.anyMarked ta rows || (fromTb && c.comp.anyMarked tb rows) then s.cellFault i 4 0 0 0 none else
  let f := scoreFmt (fmtaOf w)
  let base := x.sb w % 2 ^ 32
  let t := (List.range rows).foldl (fun t r =>
    let scores := rowElems 0 cols (c.comp.row ta r)
    let ids := if fromTb then rowElems 0 cols (c.comp.row tb r) else (List.range cols).map fun j => (base + j) % 2 ^ 32
    (scores.zip ids).foldl (fun t e => t.offer f r e.1 e.2) t) c.comp.topk
  s.modComp i fun y => { y with topk := t }

/-- TKMERGE (R54). -/
def execTkmerge (g : Nat) (w : StepWord) (s : State) : Host.Outcome State Fault Refusal :=
  .next (s.issue 0x41 g w fun i _ s => s.topkMerge i w)

/-- The k entries of row r, filled (R55). -/
def TopK.filled (t : TopK) (f r : Nat) : List (BitVec 32 × BitVec 32) :=
  let l := t.rows.getD r []
  l ++ List.replicate (t.k - l.length) (t.fill f, 0xFFFFFFFF)

/-- TKREAD (R55): all 128 extents translate before any is written. -/
def State.topkRead (s : State) (i p : Nat) (w : StepWord) : State :=
  let c := s.cell i
  let x := c.cur
  let t := c.comp.topk
  let n := 4 * t.k
  if addr57 (x.addrAt w 0) % 16 ≠ 0 then s.cellFault i 3 (addr57 (x.addrAt w 0)) 0 0 none else
  let ext : List (Nat × Nat × Bool) :=
    (List.range 64).map (fun r => (x.addrAt w (1024 * r), r, false))
      ++ (List.range 64).map fun r => (x.addrAt w (65536 + 1024 * r), r, true)
  let bad := ext.filterMap fun e => s.wordRefused p e.1 n
  if bad ≠ [] then
    s.xltFault i p (if ext.any fun e => (s.wordUnmapped p e.1 n).isSome then 1 else 2) (lowest bad) 0 w
  else
    ext.foldl (fun s e =>
      let l := t.filled (fmtaOf w) e.2.1
      let d := l.flatMap fun q => leBytes 4 (if e.2.2 then q.2 else q.1).toNat
      s.cellWrite i p e.1 (Data.clean d)) s

/-- TKREAD (R55). -/
def execTkread (g : Nat) (w : StepWord) (s : State) : Host.Outcome State Fault Refusal :=
  .next (s.issue 0x42 g w fun i p s => s.topkRead i p w)

/-- TKTHR: SD ← the score of the k-th entry of a row, or the fill score (R55, R60). -/
def execTkthr (g : Nat) (w : StepWord) (s : State) : Host.Outcome State Fault Refusal :=
  .next (s.issue 0x43 g w fun i _ s =>
    let t := (s.cell i).comp.topk
    let l := t.filled (fmtaOf w) (fld w 85 80)
    s.setSd i w ((l.getD (t.k - 1) (t.fill (fmtaOf w), 0)).1.toNat))

end Sys2Proof.Machine
end

