-- ==== Sys2Proof/Machine/Functions.lean ====
section
/-! DEFINITION. The functions of R99: special inputs, and elsewhere a free FP32 value within 2 units in the last place of
the exact value. The exact value is bounded by a rational with an error far below one unit, so that the free value keeps
R99's bound. -/
namespace Sys2Proof.Machine

/-- Fraction bits of the fixed-point evaluations below. -/
def fxBits : Nat := 288
/-- A rational in fixed point. -/
def fxOf (q : Rat) : Int := (q * ((2 ^ fxBits : Nat) : Rat)).floor
/-- A fixed-point number as a rational. -/
def fxRat (x : Int) : Rat := mkRat x (2 ^ fxBits)
def fxMul (a b : Int) : Int := a * b / 2 ^ fxBits

/-- Sum of n terms, each got from the one before by f. -/
def fxSeries (n : Nat) (t : Int) (f : Nat → Int → Int) : Int :=
  go n 0 t
where
  go : Nat → Nat → Int → Int
    | 0, _, _ => 0
    | n + 1, i, t => t + go n (i + 1) (f i t)

/-- 2 atanh(z) = ln((1 + z) / (1 - z)) for |z| ≤ 1/3. -/
def fxAtanh2 (z : Int) : Int :=
  let z2 := fxMul z z
  2 * go 100 1 z z2
where
  go : Nat → Nat → Int → Int → Int
    | 0, _, _, _ => 0
    | n + 1, k, t, z2 => t / (k : Int) + go n (k + 2) (fxMul t z2) z2

def fxLn2 : Int := fxAtanh2 (2 ^ fxBits / 3)

/-- exp of a rational, as a rational; 0 or a huge number far outside the range of FP32. -/
def expRat (q : Rat) : Rat :=
  if q < -200 then 0 else if 200 < q then pow2 256 else
  let n := roundInt (q * mkRat 1442695 1000000)
  let r := fxOf q - n * fxLn2
  fxRat (fxSeries 80 (2 ^ fxBits) fun i t => fxMul t r / ((i : Int) + 1)) * pow2 n

/-- ln of a positive rational. -/
def lnRat (q : Rat) : Rat :=
  let k := floorLog2 q.num.natAbs q.den
  let m := q * pow2 (-k)
  fxRat (k * fxLn2 + fxAtanh2 (fxOf ((m - 1) / (m + 1))))

/-- The square root of a positive rational. -/
def sqrtRat (q : Rat) : Rat :=
  let k := floorLog2 q.num.natAbs q.den / 2
  mkRat ((q * pow2 (640 - 2 * k)).floor.toNat.sqrt : Nat) 1 * pow2 (k - 320)

def arctanInv (n : Int) : Int :=
  let t := 2 ^ fxBits / n
  go 140 1 t (n * n)
where
  go : Nat → Nat → Int → Int → Int
    | 0, _, _, _ => 0
    | m + 1, k, t, n2 => t / (k : Int) - go m (k + 2) (t / n2) n2

/-- Machin's formula. -/
def piRat : Rat := fxRat (4 * (4 * arctanInv 5 - arctanInv 239))

/-- The standard normal distribution function. -/
def phiRat (q : Rat) : Rat :=
  if q < -16 then 0 else if 16 < q then 1 else
  let x := fxOf q
  let x2 := fxMul x x
  let s := fxSeries 600 x fun i t => fxMul t x2 / (2 * (i : Int) + 3)
  mkRat 1 2 + fxRat s * expRat (-(q * q) / 2) / sqrtRat (2 * piRat)

/-- 1 / (1 + e^-x). -/
def sigmRat (q : Rat) : Rat := if q < 0 then let e := expRat q; e / (1 + e) else 1 / (1 + expRat (-q))

def tanhRat (q : Rat) : Rat :=
  if -(mkRat 1 8192) < q ∧ q < mkRat 1 8192 then q - q * q * q / 3 else
  let e := expRat (2 * q)
  if 100 < q then 1 else (e - 1) / (e + 1)

/-- One unit in the last place of an FP32 value. -/
def ulp32 (q : Rat) : Rat :=
  if q = 0 then pow2 (-149) else pow2 (max (floorLog2 q.num.natAbs q.den) (-126) - 23)

/-- A free FP32 result within 2 ulp of the exact value (R99); `a` is that value, or a rational within 2^-200 of it where it is
irrational. -/
def withinUlp (kind : Nat) (x : BitVec 32) (a : Rat) : Val :=
  let u := ulp32 a * 2
  match dec32 (Config.vecFn kind x) with
  | .num q => if a - u ≤ q ∧ q ≤ a + u then .num q else near
  | .zero s => if -u ≤ a ∧ a ≤ u then .zero s else near
  | .inf s => if s = decide (a < 0) ∧ pow2 128 ≤ (if a < 0 then -a else a) + u then .inf s else near
  | .nan => near
where
  near : Val := rnd32 (.ofRat a)

/-- The FP32 result of KIND 0x63 to 0x6B (VGELU, VSILU, VSIGM, VTANH, VEXP, VLOG, VRSQRT, VRCP, VSQRT) for an FP32 value
(R99). -/
def fn32 (kind : Nat) (v : Val) : Val :=
  match kind, v with
  | _, .nan => .nan
  | 0x63, .inf s => if s then .zero true else .inf false
  | 0x63, .zero s => .zero s
  | 0x63, .num q => withinUlp kind (enc32 v) (q * phiRat q)
  | 0x64, .inf s => if s then .zero true else .inf false
  | 0x64, .zero s => .zero s
  | 0x64, .num q => withinUlp kind (enc32 v) (q * sigmRat q)
  | 0x65, .inf s => if s then .zero false else .num 1
  | 0x65, .zero _ => withinUlp kind (enc32 v) (mkRat 1 2)
  | 0x65, .num q => withinUlp kind (enc32 v) (sigmRat q)
  | 0x66, .inf s => .num (if s then -1 else 1)
  | 0x66, .zero s => .zero s
  | 0x66, .num q => withinUlp kind (enc32 v) (tanhRat q)
  | 0x67, .inf s => if s then .zero false else .inf false
  | 0x67, .zero _ => withinUlp kind (enc32 v) 1
  | 0x67, .num q => withinUlp kind (enc32 v) (expRat q)
  | 0x68, .inf s => if s then .nan else .inf false
  | 0x68, .zero _ => .inf true
  | 0x68, .num q => if q < 0 then .nan else withinUlp kind (enc32 v) (lnRat q)
  | 0x69, .inf s => if s then .nan else .zero false
  | 0x69, .zero s => .inf s
  | 0x69, .num q => if q < 0 then .nan else withinUlp kind (enc32 v) (sqrtRat (1 / q))
  | 0x6A, .inf s => .zero s
  | 0x6A, .zero s => .inf s
  | 0x6A, .num q => withinUlp kind (enc32 v) (1 / q)
  | _, .inf s => if s then .nan else .inf false
  | _, .zero s => .zero s
  | _, .num q => if q < 0 then .nan else withinUlp kind (enc32 v) (sqrtRat q)

end Sys2Proof.Machine
end

