-- ==== Sys2Proof/Machine/Vector.lean ====
section
/-! DEFINITION. The vector engine (R56, R57, R89, R90, R98 to R105). -/
namespace Sys2Proof.Machine

/-! ## Shared operations -/

/-- A vector step: POISON_CONSUMED with free destinations where a row it reads is marked (R71, R72), else its effect.
`reads` lists registers and how many of their first rows are read. -/
def State.vecStep (s : State) (i : Nat) (reads : List (Nat × Nat)) (dests : List Nat) (f : Compute → Compute) : State :=
  let c := (s.cell i).comp
  if reads.any fun e => c.anyMarked e.1 e.2 then (s.scramble i dests).cellFault i 4 0 0 0 none else s.modComp i f

/-- Write every row of TD from unmarked sources; columns beyond those given are zero (R44, R57). -/
def Compute.vecWrite (c : Compute) (td fb : Nat) (f : Nat → List Nat) : Compute :=
  c.setRows td fun r => (packRow fb (f r), false)

/-- Result columns of a step that keeps columns (R57). -/
def vecCols (fa fb : Nat) : Nat := min (fmtCols fa) (fmtCols fb)

/-- n element codes of row r of register t in format f. -/
def Compute.codes (c : Compute) (f t n r : Nat) : List Nat := rowElems f n (c.row t r)
/-- The same as values. -/
def Compute.vals (c : Compute) (f t n r : Nat) : List Val := (c.codes f t n r).map (decodeVal f)

/-- The operand of a step of R99 or R100: integers are converted to FP32 (R102). -/
def toFp (fa : Nat) (v : Val) : Val := if fmtIsInt fa then rnd32 v else v

/-- A step with one element source. -/
def State.vec1 (s : State) (i : Nat) (w : StepWord) (op : Bool → Val → Val) : State :=
  let x := (s.cell i).cur
  let fa := fmtaOf w
  let fb := fmtbOf w
  s.vecStep i [(taOf x w, 64)] [tdOf x w] fun c =>
    c.vecWrite (tdOf x w) fb fun r => (c.vals fa (taOf x w) (vecCols fa fb) r).map fun a => encodeVal fb (op (fmtIsInt fa) a)

/-- A step with two element sources. -/
def State.vec2 (s : State) (i : Nat) (w : StepWord) (op : Bool → Val → Val → Val) : State :=
  let x := (s.cell i).cur
  let fa := fmtaOf w
  let fb := fmtbOf w
  s.vecStep i [(taOf x w, 64), (tbOf x w, 64)] [tdOf x w] fun c =>
    c.vecWrite (tdOf x w) fb fun r =>
      List.zipWith (fun a b => encodeVal fb (op (fmtIsInt fa) a b))
        (c.vals fa (taOf x w) (vecCols fa fb) r) (c.vals fa (tbOf x w) (vecCols fa fb) r)

/-- A step with three element sources. -/
def State.vec3 (s : State) (i : Nat) (w : StepWord) (op : Bool → Val → Val → Val → Val) : State :=
  let x := (s.cell i).cur
  let fa := fmtaOf w
  let fb := fmtbOf w
  s.vecStep i [(taOf x w, 64), (tbOf x w, 64), (tcOf x w, 64)] [tdOf x w] fun c =>
    c.vecWrite (tdOf x w) fb fun r =>
      List.zipWith (fun a bc => encodeVal fb (op (fmtIsInt fa) a bc.1 bc.2))
        (c.vals fa (taOf x w) (vecCols fa fb) r)
        ((c.vals fa (tbOf x w) (vecCols fa fb) r).zip (c.vals fa (tcOf x w) (vecCols fa fb) r))

/-- A step on element bits (R102); in another destination format the element is converted (R90). -/
def State.vecBits (s : State) (i : Nat) (w : StepWord) (op : Nat → Nat → Nat) : State :=
  let x := (s.cell i).cur
  let fa := fmtaOf w
  let fb := fmtbOf w
  s.vecStep i [(taOf x w, 64), (tbOf x w, 64)] [tdOf x w] fun c =>
    c.vecWrite (tdOf x w) fb fun r =>
      List.zipWith (fun a b => if fa = fb then op a b % 2 ^ fmtBits fb else encodeVal fb (decodeVal fa (op a b)))
        (c.codes fa (taOf x w) (vecCols fa fb) r) (c.codes fa (tbOf x w) (vecCols fa fb) r)

/-- The value is not zero; a NaN is not. -/
def Val.nonzero : Val → Bool
  | .zero _ => false
  | _ => true

/-- VRELU of a value: NaN stays NaN, what is not above zero is +0. -/
def reluVal (v : Val) : Val :=
  match v.compare (.zero false) with
  | none => .nan
  | some c => if 0 < c then v else .zero false

/-- The operations of VBCAST (R69). -/
def bcastOp (mode : Nat) (int : Bool) (a b : Val) : Val :=
  match mode with
  | 1 => rndEngine int (a.sub b)
  | 2 => rndEngine int (a.mul b)
  | 3 => Val.pick true a b
  | _ => rndEngine int (a.add b)

/-! ## Elementwise steps -/

/-- VADD (R98, R102). -/
def execVadd (g : Nat) (w : StepWord) (s : State) : Host.Outcome State Fault Refusal :=
  .next (s.issue 0x50 g w fun i _ s => s.vec2 i w fun n a b => rndEngine n (a.add b))

/-- VSUB (R98, R102). -/
def execVsub (g : Nat) (w : StepWord) (s : State) : Host.Outcome State Fault Refusal :=
  .next (s.issue 0x51 g w fun i _ s => s.vec2 i w fun n a b => rndEngine n (a.sub b))

/-- VMUL (R98, R102). -/
def execVmul (g : Nat) (w : StepWord) (s : State) : Host.Outcome State Fault Refusal :=
  .next (s.issue 0x52 g w fun i _ s => s.vec2 i w fun n a b => rndEngine n (a.mul b))

/-- VMAX (R101). -/
def execVmax (g : Nat) (w : StepWord) (s : State) : Host.Outcome State Fault Refusal :=
  .next (s.issue 0x53 g w fun i _ s => s.vec2 i w fun _ a b => Val.pick true a b)

/-- VMIN (R101). -/
def execVmin (g : Nat) (w : StepWord) (s : State) : Host.Outcome State Fault Refusal :=
  .next (s.issue 0x54 g w fun i _ s => s.vec2 i w fun _ a b => Val.pick false a b)

/-- VFMA: TA × TB + TC with one rounding of the exact value (R98). -/
def execVfma (g : Nat) (w : StepWord) (s : State) : Host.Outcome State Fault Refusal :=
  .next (s.issue 0x55 g w fun i _ s => s.vec3 i w fun n a b c => rndEngine n ((a.mul b).add c))

/-- VAND (R102). -/
def execVand (g : Nat) (w : StepWord) (s : State) : Host.Outcome State Fault Refusal :=
  .next (s.issue 0x56 g w fun i _ s => s.vecBits i w fun a b => a &&& b)

/-- VOR (R102). -/
def execVor (g : Nat) (w : StepWord) (s : State) : Host.Outcome State Fault Refusal :=
  .next (s.issue 0x57 g w fun i _ s => s.vecBits i w fun a b => a ||| b)

/-- VXOR (R102). -/
def execVxor (g : Nat) (w : StepWord) (s : State) : Host.Outcome State Fault Refusal :=
  .next (s.issue 0x58 g w fun i _ s => s.vecBits i w fun a b => a ^^^ b)

/-- VCMP: TD ← 1 or 0 per element, written in FMTB (R56, R101). -/
def State.vecCompare (s : State) (i : Nat) (w : StepWord) : State :=
  let x := (s.cell i).cur
  let fa := fmtaOf w
  let fb := fmtbOf w
  let mode := if modeOf w < 8 then modeOf w else 0
  s.vecStep i [(taOf x w, 64), (tbOf x w, 64)] [tdOf x w] fun c =>
    c.vecWrite (tdOf x w) fb fun r =>
      List.zipWith (fun a b => encodeVal fb (.ofInt (b2n (condElem mode fa a b))))
        (c.codes fa (taOf x w) (vecCols fa fb) r) (c.codes fa (tbOf x w) (vecCols fa fb) r)

/-- VCMP (R69). -/
def execVcmp (g : Nat) (w : StepWord) (s : State) : Host.Outcome State Fault Refusal :=
  .next (s.issue 0x59 g w fun i _ s => s.vecCompare i w)

/-- VSELM: TD ← TA where TC ≠ 0, else TB (R69). -/
def execVselm (g : Nat) (w : StepWord) (s : State) : Host.Outcome State Fault Refusal :=
  .next (s.issue 0x5A g w fun i _ s => s.vec3 i w fun _ a b c => if c.nonzero then a else b)

/-- VABS (R98). -/
def execVabs (g : Nat) (w : StepWord) (s : State) : Host.Outcome State Fault Refusal :=
  .next (s.issue 0x60 g w fun i _ s => s.vec1 i w fun n a => rndEngine n a.abs)

/-- VNEG (R98). -/
def execVneg (g : Nat) (w : StepWord) (s : State) : Host.Outcome State Fault Refusal :=
  .next (s.issue 0x61 g w fun i _ s => s.vec1 i w fun n a => rndEngine n a.neg)

/-- VRELU (R98). -/
def execVrelu (g : Nat) (w : StepWord) (s : State) : Host.Outcome State Fault Refusal :=
  .next (s.issue 0x62 g w fun i _ s => s.vec1 i w fun n a => rndEngine n (reluVal a))

/-- VGELU (R99). -/
def execVgelu (g : Nat) (w : StepWord) (s : State) : Host.Outcome State Fault Refusal :=
  .next (s.issue 0x63 g w fun i _ s => s.vec1 i w fun n a => fn32 0x63 (if n then rnd32 a else a))

/-- VSILU (R99). -/
def execVsilu (g : Nat) (w : StepWord) (s : State) : Host.Outcome State Fault Refusal :=
  .next (s.issue 0x64 g w fun i _ s => s.vec1 i w fun n a => fn32 0x64 (if n then rnd32 a else a))

/-- VSIGM (R99). -/
def execVsigm (g : Nat) (w : StepWord) (s : State) : Host.Outcome State Fault Refusal :=
  .next (s.issue 0x65 g w fun i _ s => s.vec1 i w fun n a => fn32 0x65 (if n then rnd32 a else a))

/-- VTANH (R99). -/
def execVtanh (g : Nat) (w : StepWord) (s : State) : Host.Outcome State Fault Refusal :=
  .next (s.issue 0x66 g w fun i _ s => s.vec1 i w fun n a => fn32 0x66 (if n then rnd32 a else a))

/-- VEXP (R99). -/
def execVexp (g : Nat) (w : StepWord) (s : State) : Host.Outcome State Fault Refusal :=
  .next (s.issue 0x67 g w fun i _ s => s.vec1 i w fun n a => fn32 0x67 (if n then rnd32 a else a))

/-- VLOG (R99). -/
def execVlog (g : Nat) (w : StepWord) (s : State) : Host.Outcome State Fault Refusal :=
  .next (s.issue 0x68 g w fun i _ s => s.vec1 i w fun n a => fn32 0x68 (if n then rnd32 a else a))

/-- VRSQRT (R99). -/
def execVrsqrt (g : Nat) (w : StepWord) (s : State) : Host.Outcome State Fault Refusal :=
  .next (s.issue 0x69 g w fun i _ s => s.vec1 i w fun n a => fn32 0x69 (if n then rnd32 a else a))

/-- VRCP (R99). -/
def execVrcp (g : Nat) (w : StepWord) (s : State) : Host.Outcome State Fault Refusal :=
  .next (s.issue 0x6A g w fun i _ s => s.vec1 i w fun n a => fn32 0x6A (if n then rnd32 a else a))

/-- VSQRT (R99). -/
def execVsqrt (g : Nat) (w : StepWord) (s : State) : Host.Outcome State Fault Refusal :=
  .next (s.issue 0x6B g w fun i _ s => s.vec1 i w fun n a => fn32 0x6B (if n then rnd32 a else a))

/-! ## Reductions (R57, R100, R101) -/

/-- A reduction of each row into column 0. -/
def State.vecRowRed (s : State) (i : Nat) (w : StepWord) (red : List Val → Val) : State :=
  let x := (s.cell i).cur
  let fa := fmtaOf w
  let fb := fmtbOf w
  s.vecStep i [(taOf x w, 64)] [tdOf x w] fun c =>
    c.vecWrite (tdOf x w) fb fun r => [encodeVal fb (red (c.vals fa (taOf x w) (fmtCols fa) r))]

/-- A reduction of each column into row 0. -/
def State.vecColRed (s : State) (i : Nat) (w : StepWord) (red : List Val → Val) : State :=
  let x := (s.cell i).cur
  let fa := fmtaOf w
  let fb := fmtbOf w
  let n := vecCols fa fb
  s.vecStep i [(taOf x w, 64)] [tdOf x w] fun c =>
    let rows := (List.range 64).map fun r => c.vals fa (taOf x w) n r
    c.vecWrite (tdOf x w) fb fun r =>
      if r = 0 then (List.range n).map fun k =>
        encodeVal fb (red (rows.map fun l => l.getD k (.zero false))) else []

/-- VRSUM (R57, R100). -/
def execVrsum (g : Nat) (w : StepWord) (s : State) : Host.Outcome State Fault Refusal :=
  .next (s.issue 0x70 g w fun i _ s => s.vecRowRed i w fun l => sumVals (l.map (toFp (fmtaOf w))))

/-- VCSUM (R57, R100). -/
def execVcsum (g : Nat) (w : StepWord) (s : State) : Host.Outcome State Fault Refusal :=
  .next (s.issue 0x71 g w fun i _ s => s.vecColRed i w fun l => sumVals (l.map (toFp (fmtaOf w))))

/-- VRMAX (R57, R101). -/
def execVrmax (g : Nat) (w : StepWord) (s : State) : Host.Outcome State Fault Refusal :=
  .next (s.issue 0x72 g w fun i _ s => s.vecRowRed i w maxVals)

/-- VCMAX (R57, R101). -/
def execVcmax (g : Nat) (w : StepWord) (s : State) : Host.Outcome State Fault Refusal :=
  .next (s.issue 0x73 g w fun i _ s => s.vecColRed i w maxVals)

/-! ## VLNORM, VRMSN, VSMAX and VBCAST (R100) -/

/-- rnd32(sum / n) of a row. -/
def meanOf (l : List Val) : Val := rnd32 ((sumVals l).divRat ((l.length : Nat) : Rat))

/-- The FP32 rsqrt of a value plus epsilon. -/
def rsqrtEps (v eps : Val) : Val := fn32 0x69 (rnd32 (v.add eps))

/-- One row of VLNORM: the square of x − mean is rounded once (R100). -/
def normRow (eps : Val) (gain bias l : List Val) : List Val :=
  let mean := meanOf l
  let ds := l.map fun x => x.sub mean
  let rs := rsqrtEps (meanOf (ds.map fun d => rnd32 (d.mul d))) eps
  List.zipWith (fun d gb => rnd32 ((rnd32 ((rnd32 ((rnd32 d).mul rs)).mul gb.1)).add gb.2)) ds (gain.zip bias)

/-- One row of VRMSN. -/
def rmsRow (eps : Val) (gain l : List Val) : List Val :=
  let rs := rsqrtEps (meanOf (l.map fun x => rnd32 (x.mul x))) eps
  List.zipWith (fun x g => rnd32 ((rnd32 (x.mul rs)).mul g)) l gain

/-- One row of VSMAX. -/
def softmaxRow (l : List Val) : List Val :=
  let m := maxVals l
  let es := l.map fun x => fn32 0x67 (rnd32 (x.sub m))
  let rc := fn32 0x6A (sumVals es)
  es.map fun e => rnd32 (e.mul rc)

/-- A step along whole rows of FP32 values; `f` maps the row, `reads` lists the other rows read. -/
def State.vecRows (s : State) (i : Nat) (w : StepWord) (reads : List (Nat × Nat)) (f : Compute → List Val → List Val) : State :=
  let x := (s.cell i).cur
  let fa := fmtaOf w
  let fb := fmtbOf w
  s.vecStep i ((taOf x w, 64) :: reads) [tdOf x w] fun c =>
    let g := f c
    c.vecWrite (tdOf x w) fb fun r =>
      ((g ((c.vals fa (taOf x w) (fmtCols fa) r).map (toFp fa))).take (vecCols fa fb)).map (encodeVal fb)

/-- Row 0 of a register as FP32 values. -/
def Compute.row0 (c : Compute) (fa t : Nat) : List Val := (c.vals fa t (fmtCols fa) 0).map (toFp fa)

/-- VLNORM: gain in row 0 of TB, bias in row 0 of TC, epsilon in SA (R69, R100). -/
def execVlnorm (g : Nat) (w : StepWord) (s : State) : Host.Outcome State Fault Refusal :=
  .next (s.issue 0x74 g w fun i _ s =>
    let x := (s.cell i).cur
    s.vecRows i w [(tbOf x w, 1), (tcOf x w, 1)] fun c =>
      normRow (decodeVal 0 (x.sa w)) (c.row0 (fmtaOf w) (tbOf x w)) (c.row0 (fmtaOf w) (tcOf x w)))

/-- VRMSN: gain in row 0 of TB, epsilon in SA (R69, R100). -/
def execVrmsn (g : Nat) (w : StepWord) (s : State) : Host.Outcome State Fault Refusal :=
  .next (s.issue 0x75 g w fun i _ s =>
    let x := (s.cell i).cur
    s.vecRows i w [(tbOf x w, 1)] fun c => rmsRow (decodeVal 0 (x.sa w)) (c.row0 (fmtaOf w) (tbOf x w)))

/-- VSMAX (R100). -/
def execVsmax (g : Nat) (w : StepWord) (s : State) : Host.Outcome State Fault Refusal :=
  .next (s.issue 0x76 g w fun i _ s => s.vecRows i w [] fun _ => softmaxRow)

/-- VBCAST: TA op row 0 of TB, or column 0 of TB with FLAGS[0] (R69, R98). -/
def State.vecBcast (s : State) (i : Nat) (w : StepWord) : State :=
  let x := (s.cell i).cur
  let fa := fmtaOf w
  let fb := fmtbOf w
  let n := vecCols fa fb
  let byCol := flagOf w 0
  s.vecStep i [(taOf x w, 64), (tbOf x w, if byCol then 64 else 1)] [tdOf x w] fun c =>
    let row0 := c.vals fa (tbOf x w) n 0
    c.vecWrite (tdOf x w) fb fun r =>
      let b := if byCol then List.replicate n ((c.vals fa (tbOf x w) 1 r).headD (.zero false)) else row0
      List.zipWith (fun a b => encodeVal fb (bcastOp (modeOf w) (fmtIsInt fa) a b)) (c.vals fa (taOf x w) n r) b

/-- VBCAST (R69). -/
def execVbcast (g : Nat) (w : StepWord) (s : State) : Host.Outcome State Fault Refusal :=
  .next (s.issue 0x77 g w fun i _ s => s.vecBcast i w)

/-! ## Conversions with segments (R57, R89, R103 to R105) -/

/-- Source columns that a conversion reads and the first destination column it writes (R57). -/
def segment (fa fb seg : Nat) : Nat × Nat × Nat :=
  let ks := fmtCols fa
  let kd := fmtCols fb
  if kd < ks then (min seg (ks / kd - 1) * kd, kd, 0) else (0, ks, min seg (kd / ks - 1) * ks)

/-- Row r of TD with the codes l put from column `at_`; where the row is not written whole its other columns and its mark
stay (R44, R57). -/
def Compute.putCols (c : Compute) (td fb r at_ : Nat) (l : List Nat) : Compute :=
  let kd := fmtCols fb
  if kd ≤ l.length then c.setRow td r false (packRow fb l) else
  let old := rowElems fb kd (c.row td r)
  c.setRow td r (c.rowMarked td r) (packRow fb (old.take at_ ++ l ++ old.drop (at_ + l.length)))

/-- VCVT (R57, R89). -/
def State.vecConvert (s : State) (i : Nat) (w : StepWord) : State :=
  let x := (s.cell i).cur
  let fa := fmtaOf w
  let fb := fmtbOf w
  let (lo, n, at_) := segment fa fb (imm16Of w)
  s.vecStep i [(taOf x w, 64)] [tdOf x w] fun c =>
    (List.range 64).foldl (fun y r =>
      y.putCols (tdOf x w) fb r at_ (((c.codes fa (taOf x w) (fmtCols fa) r).drop lo |>.take n).map (convert fa fb))) c

/-- VCVT (R69). -/
def execVcvt (g : Nat) (w : StepWord) (s : State) : Host.Outcome State Fault Refusal :=
  .next (s.issue 0x78 g w fun i _ s => s.vecConvert i w)

/-- The scale format of VQGRP and VDQGRP: E8M0 (2) or FP8-E4M3 (3) by MODE (R50, R103); for NONE and TENSOR the spec names
no format, and which of the two is taken is free. -/
def State.groupMode (s : State) (w : StepWord) : Nat × State :=
  if modeOf w = 2 ∨ modeOf w = 3 then (modeOf w, s) else
  let (r, s) := s.draw 2
  (2 + r, s)

/-- Exponent of the largest normal of a format (R103). -/
def fmtEmax (f : Nat) : Int :=
  match f with | 1 => 127 | 2 => 15 | 3 => 8 | 4 => 15 | 5 => 4 | 6 => 2 | _ => 2

/-- Largest magnitude of a group; none where it holds a NaN or an infinity (R104). -/
def amax (l : List Val) : Option Rat :=
  l.foldl (fun m v => match m, v with
    | some m, .num q => some (max m (if q < 0 then -q else q))
    | some m, .zero _ => some m
    | _, _ => none) (some 0)

/-- The scale byte of a group and the exact values that its elements are converted from (R103, R104). -/
def quantGroup (mode fb : Nat) (l : List Val) : Nat × List Val :=
  match amax l with
  | none => (if mode = 3 then 0x7F else 0xFF, l)
  | some m =>
    if m = 0 then (if mode = 3 then 0x38 else 0x7F, l) else
    if mode = 3 then
      let largest := match decodeVal fb (fmtMax fb) with | .num q => q | _ => 1
      let q := max 1 (encodeVal 3 (.num (m / largest)))
      match decodeVal 3 q with
      | .num d => (q, l.map fun v => v.divRat d)
      | _ => (q, l)
    else
      let x := max (-127) (min 127 (floorLog2 m.num.natAbs m.den - fmtEmax fb))
      ((x + 127).toNat, l.map fun v => v.mul (.num (pow2 (-x))))

/-- VQGRP on row r: groups are runs of G destination columns; one scale byte each into TB (R57, R103). -/
def Compute.quantRow (y c : Compute) (mode fa fb g td ta tb lo n at_ r : Nat) : Compute :=
  let vs := ((c.codes fa ta (fmtCols fa) r).drop lo |>.take n).map (decodeVal fa)
  let groups := (chunks g at_ vs.length).map fun e => (e.1 / g, quantGroup mode fb ((vs.drop (e.1 - at_)).take e.2))
  let y := y.putCols td fb r at_ (groups.flatMap fun e => e.2.2.map (encodeVal fb))
  groups.foldl (fun y e =>
    { y with tiles := y.tiles.write 256 (rowAddr tb r + e.1) [(BitVec.ofNat 8 e.2.1, false)] }) y

/-- VQGRP (R57, R103, R104); to FP32 or an integer format it is VCVT (R104). -/
def State.vecQuant (s : State) (i : Nat) (w : StepWord) : State :=
  let x := (s.cell i).cur
  let fa := fmtaOf w
  let fb := fmtbOf w
  if fb = 0 ∨ fmtIsInt fb then s.vecConvert i w else
  let (mode, s) := s.groupMode w
  let (lo, n, at_) := segment fa fb (imm16Of w)
  s.vecStep i [(taOf x w, 64)] [tdOf x w, tbOf x w] fun c =>
    (List.range 64).foldl (fun y r =>
      y.quantRow c mode fa fb (groupOf w) (tdOf x w) (taOf x w) (tbOf x w) lo n at_ r) c

/-- VQGRP (R69). -/
def execVqgrp (g : Nat) (w : StepWord) (s : State) : Host.Outcome State Fault Refusal :=
  .next (s.issue 0x79 g w fun i _ s => s.vecQuant i w)

/-- VDQGRP: each element times its group scale, rounded once (R57, R105); the sign bit of an FP8-E4M3 scale byte is ignored, as in the
array (DEDUCED from R94, log entry 49). -/
def State.vecDequant (s : State) (i : Nat) (w : StepWord) : State :=
  let x := (s.cell i).cur
  let fa := fmtaOf w
  let fb := fmtbOf w
  let (mode, s) := s.groupMode w
  let (lo, n, at_) := segment fa fb (imm16Of w)
  s.vecStep i [(taOf x w, 64), (tbOf x w, 64)] [tdOf x w] fun c =>
    (List.range 64).foldl (fun y r =>
      let scales := c.row (tbOf x w) r
      let l := (c.codes fa (taOf x w) (fmtCols fa) r).mapIdx fun k e =>
        encodeVal fb ((decodeVal fa e).mul
          (if mode = 3 then e4m3Scale (byteAt scales (k / groupOf w)) else e8m0 (byteAt scales (k / groupOf w))))
      y.putCols (tdOf x w) fb r at_ ((l.drop lo).take n)) c

/-- VDQGRP (R69). -/
def execVdqgrp (g : Nat) (w : StepWord) (s : State) : Host.Outcome State Fault Refusal :=
  .next (s.issue 0x7A g w fun i _ s => s.vecDequant i w)

end Sys2Proof.Machine
end

