-- ==== Sys2Proof/Machine/Dispatch.lean ====
section
/-! DEFINITION. The dispatch: one arm for each command, in the order of spec/opcode_table.json. -/
namespace Sys2Proof.Machine

def exec (i : Instr) (s : State) : Host.Outcome State Fault Refusal :=
  match i with
  | .registerWrite fn off size val => Sys2Proof.Machine.execRegisterWrite fn off size val s
  | .glbMtimeLowRead fn => Sys2Proof.Machine.execGlbMtimeLowRead fn s
  | .glbMtimeHighRead fn => Sys2Proof.Machine.execGlbMtimeHighRead fn s
  | .shadowSetCopy island => Sys2Proof.Machine.execShadowSetCopy island s
  | .linkRetry edge ucie => Sys2Proof.Machine.execLinkRetry edge ucie s
  | .laneRepair edge ucie lane => Sys2Proof.Machine.execLaneRepair edge ucie lane s
  | .islandClockSet island mhz mv => Sys2Proof.Machine.execIslandClockSet island mhz mv s
  | .drainCommand target => Sys2Proof.Machine.execDrainCommand target s
  | .nop g w => Sys2Proof.Machine.execNop g w s
  | .loop g w => Sys2Proof.Machine.execLoop g w s
  | .endloop g w => Sys2Proof.Machine.execEndloop g w s
  | .wait g w => Sys2Proof.Machine.execWait g w s
  | .waitany g w => Sys2Proof.Machine.execWaitany g w s
  | .postc g w => Sys2Proof.Machine.execPostc g w s
  | .postt g w => Sys2Proof.Machine.execPostt g w s
  | .ebind g w => Sys2Proof.Machine.execEbind g w s
  | .layer g w => Sys2Proof.Machine.execLayer g w s
  | .sel g w => Sys2Proof.Machine.execSel g w s
  | .tsel g w => Sys2Proof.Machine.execTsel g w s
  | .rel g w => Sys2Proof.Machine.execRel g w s
  | .acq g w => Sys2Proof.Machine.execAcq g w s
  | .fence g w => Sys2Proof.Machine.execFence g w s
  | .mark g w => Sys2Proof.Machine.execMark g w s
  | .endStep g w => Sys2Proof.Machine.execEndStep g w s
  | .smov g w => Sys2Proof.Machine.execSmov g w s
  | .sadd g w => Sys2Proof.Machine.execSadd g w s
  | .ssub g w => Sys2Proof.Machine.execSsub g w s
  | .smul g w => Sys2Proof.Machine.execSmul g w s
  | .sand g w => Sys2Proof.Machine.execSand g w s
  | .sor g w => Sys2Proof.Machine.execSor g w s
  | .sxor g w => Sys2Proof.Machine.execSxor g w s
  | .sshl g w => Sys2Proof.Machine.execSshl g w s
  | .sshr g w => Sys2Proof.Machine.execSshr g w s
  | .scmp g w => Sys2Proof.Machine.execScmp g w s
  | .sfop g w => Sys2Proof.Machine.execSfop g w s
  | .sld g w => Sys2Proof.Machine.execSld g w s
  | .sst g w => Sys2Proof.Machine.execSst g w s
  | .tld g w => Sys2Proof.Machine.execTld g w s
  | .tst g w => Sys2Proof.Machine.execTst g w s
  | .tlds g w => Sys2Proof.Machine.execTlds g w s
  | .tsts g w => Sys2Proof.Machine.execTsts g w s
  | .tmov g w => Sys2Proof.Machine.execTmov g w s
  | .tzero g w => Sys2Proof.Machine.execTzero g w s
  | .tfill g w => Sys2Proof.Machine.execTfill g w s
  | .ttrn g w => Sys2Proof.Machine.execTtrn g w s
  | .trow g w => Sys2Proof.Machine.execTrow g w s
  | .tmask g w => Sys2Proof.Machine.execTmask g w s
  | .mload g w => Sys2Proof.Machine.execMload g w s
  | .mma g w bad => Sys2Proof.Machine.execMma g w bad s
  | .mmat g w bad => Sys2Proof.Machine.execMmat g w bad s
  | .mdl2 g w bad => Sys2Proof.Machine.execMdl2 g w bad s
  | .mdnip g w bad => Sys2Proof.Machine.execMdnip g w bad s
  | .mdl1 g w bad => Sys2Proof.Machine.execMdl1 g w bad s
  | .mdham g w bad => Sys2Proof.Machine.execMdham g w bad s
  | .mdmax g w bad => Sys2Proof.Machine.execMdmax g w bad s
  | .mdmin g w bad => Sys2Proof.Machine.execMdmin g w bad s
  | .mwait g w => Sys2Proof.Machine.execMwait g w s
  | .tkinit g w => Sys2Proof.Machine.execTkinit g w s
  | .tkmerge g w => Sys2Proof.Machine.execTkmerge g w s
  | .tkread g w => Sys2Proof.Machine.execTkread g w s
  | .tkthr g w => Sys2Proof.Machine.execTkthr g w s
  | .vadd g w => Sys2Proof.Machine.execVadd g w s
  | .vsub g w => Sys2Proof.Machine.execVsub g w s
  | .vmul g w => Sys2Proof.Machine.execVmul g w s
  | .vmax g w => Sys2Proof.Machine.execVmax g w s
  | .vmin g w => Sys2Proof.Machine.execVmin g w s
  | .vfma g w => Sys2Proof.Machine.execVfma g w s
  | .vand g w => Sys2Proof.Machine.execVand g w s
  | .vor g w => Sys2Proof.Machine.execVor g w s
  | .vxor g w => Sys2Proof.Machine.execVxor g w s
  | .vcmp g w => Sys2Proof.Machine.execVcmp g w s
  | .vselm g w => Sys2Proof.Machine.execVselm g w s
  | .vabs g w => Sys2Proof.Machine.execVabs g w s
  | .vneg g w => Sys2Proof.Machine.execVneg g w s
  | .vrelu g w => Sys2Proof.Machine.execVrelu g w s
  | .vgelu g w => Sys2Proof.Machine.execVgelu g w s
  | .vsilu g w => Sys2Proof.Machine.execVsilu g w s
  | .vsigm g w => Sys2Proof.Machine.execVsigm g w s
  | .vtanh g w => Sys2Proof.Machine.execVtanh g w s
  | .vexp g w => Sys2Proof.Machine.execVexp g w s
  | .vlog g w => Sys2Proof.Machine.execVlog g w s
  | .vrsqrt g w => Sys2Proof.Machine.execVrsqrt g w s
  | .vrcp g w => Sys2Proof.Machine.execVrcp g w s
  | .vsqrt g w => Sys2Proof.Machine.execVsqrt g w s
  | .vrsum g w => Sys2Proof.Machine.execVrsum g w s
  | .vcsum g w => Sys2Proof.Machine.execVcsum g w s
  | .vrmax g w => Sys2Proof.Machine.execVrmax g w s
  | .vcmax g w => Sys2Proof.Machine.execVcmax g w s
  | .vlnorm g w => Sys2Proof.Machine.execVlnorm g w s
  | .vrmsn g w => Sys2Proof.Machine.execVrmsn g w s
  | .vsmax g w => Sys2Proof.Machine.execVsmax g w s
  | .vbcast g w => Sys2Proof.Machine.execVbcast g w s
  | .vcvt g w => Sys2Proof.Machine.execVcvt g w s
  | .vqgrp g w => Sys2Proof.Machine.execVqgrp g w s
  | .vdqgrp g w => Sys2Proof.Machine.execVdqgrp g w s
  | .gath g w => Sys2Proof.Machine.execGath g w s
  | .radd g w => Sys2Proof.Machine.execRadd g w s
  | .rwr g w => Sys2Proof.Machine.execRwr g w s
  | .sstart g w => Sys2Proof.Machine.execSstart g w s
  | .sstop g w => Sys2Proof.Machine.execSstop g w s
  | .chfwd g w => Sys2Proof.Machine.execChfwd g w s
  | .rstore g w => Sys2Proof.Machine.execRstore g w s
  | .hld g w => Sys2Proof.Machine.execHld g w s
  | .hst g w => Sys2Proof.Machine.execHst g w s
  | .tokenArrival g n => Sys2Proof.Machine.execTokenArrival g n s
  | .creditReturn g n => Sys2Proof.Machine.execCreditReturn g n s
  | .timeoutEdge g => Sys2Proof.Machine.execTimeoutEdge g s
  | .jobEnded g => Sys2Proof.Machine.execJobEnded g s
  | .cellCntFreeze pos b => Sys2Proof.Machine.execCellCntFreeze pos b s
  | .cellCntClear pos => Sys2Proof.Machine.execCellCntClear pos s
  | .cellFaultValidClear pos => Sys2Proof.Machine.execCellFaultValidClear pos s
  | .frontEndRequest d => Sys2Proof.Machine.execFrontEndRequest d s
  | .requestPart stk => Sys2Proof.Machine.execRequestPart stk s
  | .rowFetchDone stk n err => Sys2Proof.Machine.execRowFetchDone stk n err s
  | .partDone req stk => Sys2Proof.Machine.execPartDone req stk s
  | .reCntFreeze stk b => Sys2Proof.Machine.execReCntFreeze stk b s
  | .reCntClear stk => Sys2Proof.Machine.execReCntClear stk s
  | .reTagsRead stk => Sys2Proof.Machine.execReTagsRead stk s
  | .reFaultValidClear stk => Sys2Proof.Machine.execReFaultValidClear stk s
  | .stage p table => Sys2Proof.Machine.execStage p table s
  | .publish p table => Sys2Proof.Machine.execPublish p table s
  | .waitSlotPublish p => Sys2Proof.Machine.execWaitSlotPublish p s
  | .publishDone p => Sys2Proof.Machine.execPublishDone p s
  | .abort p table => Sys2Proof.Machine.execAbort p table s
  | .query p table => Sys2Proof.Machine.execQuery p table s
  | .bind p table => Sys2Proof.Machine.execBind p table s
  | .release p => Sys2Proof.Machine.execRelease p s
  | .publishSet p => Sys2Proof.Machine.execPublishSet p s
  | .tblCmdNop p op => Sys2Proof.Machine.execTblCmdNop p op s
  | .rowCacheSweepDone table epoch => Sys2Proof.Machine.execRowCacheSweepDone table epoch s
  | .sketchHalving stk => Sys2Proof.Machine.execSketchHalving stk s
  | .countMessageSend stk home => Sys2Proof.Machine.execCountMessageSend stk home s
  | .countMessage stk => Sys2Proof.Machine.execCountMessage stk s
  | .replicaSetCreated stk => Sys2Proof.Machine.execReplicaSetCreated stk s
  | .replicaWrite stk => Sys2Proof.Machine.execReplicaWrite stk s
  | .replicaWriteAck stk => Sys2Proof.Machine.execReplicaWriteAck stk s
  | .replicaLagExpiry stk => Sys2Proof.Machine.execReplicaLagExpiry stk s
  | .cacheSketchHalving d => Sys2Proof.Machine.execCacheSketchHalving d s
  | .coldPageArrival stk n data marked => Sys2Proof.Machine.execColdPageArrival stk n data marked s
  | .coldDeadline stk => Sys2Proof.Machine.execColdDeadline stk s
  | .coldWriteBackDone stk n => Sys2Proof.Machine.execColdWriteBackDone stk n s
  | .entryFetched g slot => Sys2Proof.Machine.execEntryFetched g slot s
  | .blockLanded g slot block => Sys2Proof.Machine.execBlockLanded g slot block s
  | .mcastCredit g slot recv => Sys2Proof.Machine.execMcastCredit g slot recv s
  | .lagTimeExpiry g slot recv => Sys2Proof.Machine.execLagTimeExpiry g slot recv s
  | .skipMarker g slot => Sys2Proof.Machine.execSkipMarker g slot s
  | .chunkArrival g slot => Sys2Proof.Machine.execChunkArrival g slot s
  | .ringCredit g slot succ => Sys2Proof.Machine.execRingCredit g slot succ s
  | .stackRead stk part granule err => Sys2Proof.Machine.execStackRead stk part granule err s
  | .stackWrite stk part addr data marked => Sys2Proof.Machine.execStackWrite stk part addr data marked s
  | .drainMarker stk => Sys2Proof.Machine.execDrainMarker stk s
  | .patrolScrub stk granule err => Sys2Proof.Machine.execPatrolScrub stk granule err s
  | .softRepair stk bank row => Sys2Proof.Machine.execSoftRepair stk bank row s
  | .stackFailed stk => Sys2Proof.Machine.execStackFailed stk s
  | .memWcbRead stk => Sys2Proof.Machine.execMemWcbRead stk s
  | .build p c count => Sys2Proof.Machine.execBuild p c count s
  | .histogramDone p c => Sys2Proof.Machine.execHistogramDone p c s
  | .load p c gen count => Sys2Proof.Machine.execLoad p c gen count s
  | .cmpRelease p c gen count => Sys2Proof.Machine.execCmpRelease p c gen count s
  | .cmpCmdNop p c op => Sys2Proof.Machine.execCmpCmdNop p c op s
  | .queuedCountChange p c => Sys2Proof.Machine.execQueuedCountChange p c s
  | .generationFree p c gen => Sys2Proof.Machine.execGenerationFree p c gen s
  | .installWaitResume p c => Sys2Proof.Machine.execInstallWaitResume p c s
  | .installDone p c => Sys2Proof.Machine.execInstallDone p c s
  | .rangeAdd p idx => Sys2Proof.Machine.execRangeAdd p idx s
  | .rangeRemove p idx => Sys2Proof.Machine.execRangeRemove p idx s
  | .rangeReplace p idx => Sys2Proof.Machine.execRangeReplace p idx s
  | .rangeRead p idx => Sys2Proof.Machine.execRangeRead p idx s
  | .xltCmdNop p op => Sys2Proof.Machine.execXltCmdNop p op s
  | .rangeInvalidation p agent => Sys2Proof.Machine.execRangeInvalidation p agent s
  | .invalidationAck p => Sys2Proof.Machine.execInvalidationAck p s
  | .rangeFetch agent p idx => Sys2Proof.Machine.execRangeFetch agent p idx s
  | .hostLineFill p va => Sys2Proof.Machine.execHostLineFill p va s
  | .accessHalving => Sys2Proof.Machine.execAccessHalving s
  | .xltHotPop => Sys2Proof.Machine.execXltHotPop s
  | .imgStage => Sys2Proof.Machine.execImgStage s
  | .stageDone readOutcome => Sys2Proof.Machine.execStageDone readOutcome s
  | .imgCommit => Sys2Proof.Machine.execImgCommit s
  | .epochBoundary => Sys2Proof.Machine.execEpochBoundary s
  | .commitLimit => Sys2Proof.Machine.execCommitLimit s
  | .applyDone => Sys2Proof.Machine.execApplyDone s
  | .imgDiscard => Sys2Proof.Machine.execImgDiscard s
  | .imgCmdNop op => Sys2Proof.Machine.execImgCmdNop op s
  | .admission p => Sys2Proof.Machine.execAdmission p s
  | .jobStart g => Sys2Proof.Machine.execJobStart g s
  | .batchComplete handle => Sys2Proof.Machine.execBatchComplete handle s
  | .completionRecord p => Sys2Proof.Machine.execCompletionRecord p s
  | .preemptionRequest g => Sys2Proof.Machine.execPreemptionRequest g s
  | .preempt g => Sys2Proof.Machine.execPreempt g s
  | .sliceLimit g => Sys2Proof.Machine.execSliceLimit g s
  | .beResume g => Sys2Proof.Machine.execBeResume g s
  | .jigMove g => Sys2Proof.Machine.execJigMove g s
  | .moveDone g => Sys2Proof.Machine.execMoveDone g s
  | .submissionRingCtlWrite p be val => Sys2Proof.Machine.execSubmissionRingCtlWrite p be val s
  | .cqCtlWrite p val => Sys2Proof.Machine.execCqCtlWrite p val s
  | .partLcWaitMaxRead p => Sys2Proof.Machine.execPartLcWaitMaxRead p s
  | .partFlush fn p => Sys2Proof.Machine.execPartFlush fn p s
  | .bar2Read fn addr len => Sys2Proof.Machine.execBar2Read fn addr len s
  | .bar2Write fn addr data => Sys2Proof.Machine.execBar2Write fn addr data s
  | .mbxSlotWrite fn off data => Sys2Proof.Machine.execMbxSlotWrite fn off data s
  | .mbxDoorbell fn off data => Sys2Proof.Machine.execMbxDoorbell fn off data s
  | .mbxSubmit slot => Sys2Proof.Machine.execMbxSubmit slot s
  | .mbxEcho slot => Sys2Proof.Machine.execMbxEcho slot s
  | .mbxBadOp slot => Sys2Proof.Machine.execMbxBadOp slot s
  | .mailboxReply slot => Sys2Proof.Machine.execMailboxReply slot s
  | .hostTransferDone g status => Sys2Proof.Machine.execHostTransferDone g status s
  | .completionTimeout g => Sys2Proof.Machine.execCompletionTimeout g s
  | .copy e => Sys2Proof.Machine.execCopy e s
  | .ceNop e => Sys2Proof.Machine.execCeNop e s
  | .ceComplete e status bytes => Sys2Proof.Machine.execCeComplete e status bytes s
  | .ceRingCtlWrite e val => Sys2Proof.Machine.execCeRingCtlWrite e val s
  | .ceResume e => Sys2Proof.Machine.execCeResume e s
  | .ceAbort e => Sys2Proof.Machine.execCeAbort e s
  | .snoop addr data => Sys2Proof.Machine.execSnoop addr data s
  | .linkRecovery => Sys2Proof.Machine.execLinkRecovery s
  | .linkDown => Sys2Proof.Machine.execLinkDown s
  | .linkUp rate width cxl => Sys2Proof.Machine.execLinkUp rate width cxl s
  | .hotReset => Sys2Proof.Machine.execHotReset s
  | .perstNAssert => Sys2Proof.Machine.execPerstNAssert s
  | .flrPf => Sys2Proof.Machine.execFlrPf s
  | .flrVf n => Sys2Proof.Machine.execFlrVf n s
  | .netWrite port f => Sys2Proof.Machine.execNetWrite port f s
  | .readReq port f => Sys2Proof.Machine.execReadReq port f s
  | .readResp port f => Sys2Proof.Machine.execReadResp port f s
  | .netUpdate port f => Sys2Proof.Machine.execNetUpdate port f s
  | .netGather port f => Sys2Proof.Machine.execNetGather port f s
  | .netSubmit port f => Sys2Proof.Machine.execNetSubmit port f s
  | .netDone port f => Sys2Proof.Machine.execNetDone port f s
  | .reduceUp port f => Sys2Proof.Machine.execReduceUp port f s
  | .reduceDown port f => Sys2Proof.Machine.execReduceDown port f s
  | .redo port f => Sys2Proof.Machine.execRedo port f s
  | .netAck port f => Sys2Proof.Machine.execNetAck port f s
  | .netNak port f => Sys2Proof.Machine.execNetNak port f s
  | .netBadFrame port why => Sys2Proof.Machine.execNetBadFrame port why s
  | .arpRequest port target mac => Sys2Proof.Machine.execArpRequest port target mac s
  | .neighbourSolicitation port target mac => Sys2Proof.Machine.execNeighbourSolicitation port target mac s
  | .pauseFrame port => Sys2Proof.Machine.execPauseFrame port s
  | .pfcFrame port prio pause => Sys2Proof.Machine.execPfcFrame port prio pause s
  | .otherFrame port => Sys2Proof.Machine.execOtherFrame port s
  | .ptpSync time ppb => Sys2Proof.Machine.execPtpSync time ppb s
  | .ptpSyncLoss => Sys2Proof.Machine.execPtpSyncLoss s
  | .rtoExpiry k => Sys2Proof.Machine.execRtoExpiry k s
  | .pureAck k => Sys2Proof.Machine.execPureAck k s
  | .roundTimeout j bucket => Sys2Proof.Machine.execRoundTimeout j bucket s
  | .portUp n => Sys2Proof.Machine.execPortUp n s
  | .portDown n => Sys2Proof.Machine.execPortDown n s
  | .portLaneSpare n lane => Sys2Proof.Machine.execPortLaneSpare n lane s
  | .sendRingTail idx => Sys2Proof.Machine.execSendRingTail idx s
  | .sendWrite idx => Sys2Proof.Machine.execSendWrite idx s
  | .sendRead idx => Sys2Proof.Machine.execSendRead idx s
  | .sendUpdate idx => Sys2Proof.Machine.execSendUpdate idx s
  | .sendGather idx => Sys2Proof.Machine.execSendGather idx s
  | .sendSubmit idx => Sys2Proof.Machine.execSendSubmit idx s
  | .reduce idx => Sys2Proof.Machine.execReduce idx s
  | .sendNop idx => Sys2Proof.Machine.execSendNop idx s
  | .peerReset k => Sys2Proof.Machine.execPeerReset k s
  | .netSakWrite k word val => Sys2Proof.Machine.execNetSakWrite k word val s
  | .redEnable j val => Sys2Proof.Machine.execRedEnable j val s
  | .heartbeat lane f => Sys2Proof.Machine.execHeartbeat lane f s
  | .heartbeatSend => Sys2Proof.Machine.execHeartbeatSend s
  | .hello f => Sys2Proof.Machine.execHello f s
  | .helloSend => Sys2Proof.Machine.execHelloSend s
  | .journal f => Sys2Proof.Machine.execJournal f s
  | .journalDone f => Sys2Proof.Machine.execJournalDone f s
  | .hrvUpdate f => Sys2Proof.Machine.execHrvUpdate f s
  | .command f => Sys2Proof.Machine.execCommand f s
  | .commandDone f => Sys2Proof.Machine.execCommandDone f s
  | .window f => Sys2Proof.Machine.execWindow f s
  | .sync f => Sys2Proof.Machine.execSync f s
  | .syncComplete => Sys2Proof.Machine.execSyncComplete s
  | .hrvAck f => Sys2Proof.Machine.execHrvAck f s
  | .hrvNak f => Sys2Proof.Machine.execHrvNak f s
  | .goodbye f => Sys2Proof.Machine.execGoodbye f s
  | .hrvBadFrame => Sys2Proof.Machine.execHrvBadFrame s
  | .hrvResend stream => Sys2Proof.Machine.execHrvResend stream s
  | .hrvPureAck stream => Sys2Proof.Machine.execHrvPureAck stream s
  | .laneDown lane => Sys2Proof.Machine.execLaneDown lane s
  | .laneReturn lane => Sys2Proof.Machine.execLaneReturn lane s
  | .partnerLoss => Sys2Proof.Machine.execPartnerLoss s
  | .probeWindowExpiry => Sys2Proof.Machine.execProbeWindowExpiry s
  | .replayAdmission => Sys2Proof.Machine.execReplayAdmission s
  | .hrvLinkEn b => Sys2Proof.Machine.execHrvLinkEn b s
  | .hrvSakWrite a word val => Sys2Proof.Machine.execHrvSakWrite a word val s
  | .faultReport rep => Sys2Proof.Machine.execFaultReport rep s
  | .incidentClose n => Sys2Proof.Machine.execIncidentClose n s
  | .faultRingCtlWrite r val => Sys2Proof.Machine.execFaultRingCtlWrite r val s
  | .fatalEvent bit => Sys2Proof.Machine.execFatalEvent bit s
  | .stewardWdt => Sys2Proof.Machine.execStewardWdt s
  | .replayDecision handle => Sys2Proof.Machine.execReplayDecision handle s
  | .replay handle => Sys2Proof.Machine.execReplay handle s
  | .jigDue pos => Sys2Proof.Machine.execJigDue pos s
  | .jigDone pos pass repairable phase => Sys2Proof.Machine.execJigDone pos pass repairable phase s
  | .reJigDone stk pass => Sys2Proof.Machine.execReJigDone stk pass s
  | .netJigDone pass => Sys2Proof.Machine.execNetJigDone pass s
  | .shadowCompare g spareCrc => Sys2Proof.Machine.execShadowCompare g spareCrc s
  | .larkFlush => Sys2Proof.Machine.execLarkFlush s
  | .marginSample unit mv ps => Sys2Proof.Machine.execMarginSample unit mv ps s
  | .larkSelWrite val => Sys2Proof.Machine.execLarkSelWrite val s
  | .larkCopyDone => Sys2Proof.Machine.execLarkCopyDone s
  | .faultAlertClear val => Sys2Proof.Machine.execFaultAlertClear val s
  | .prsntAssert bay => Sys2Proof.Machine.execPrsntAssert bay s
  | .presenceSettled bay => Sys2Proof.Machine.execPresenceSettled bay s
  | .controllerReady bay info => Sys2Proof.Machine.execControllerReady bay info s
  | .notReady bay => Sys2Proof.Machine.execNotReady bay s
  | .smartPoll bay smart => Sys2Proof.Machine.execSmartPoll bay smart s
  | .nvmeCompletion bay n ok data => Sys2Proof.Machine.execNvmeCompletion bay n ok data s
  | .cartRemoval bay => Sys2Proof.Machine.execCartRemoval bay s
  | .eject bay => Sys2Proof.Machine.execEject bay s
  | .ejectAbortTimeout bay => Sys2Proof.Machine.execEjectAbortTimeout bay s
  | .fill bay count => Sys2Proof.Machine.execFill bay count s
  | .migrate bay dest count rebind => Sys2Proof.Machine.execMigrate bay dest count rebind s
  | .adopt bay => Sys2Proof.Machine.execAdopt bay s
  | .discardDirty => Sys2Proof.Machine.execDiscardDirty s
  | .cartCmdNop op => Sys2Proof.Machine.execCartCmdNop op s
  | .inputVoltageLow mv100 => Sys2Proof.Machine.execInputVoltageLow mv100 s
  | .powerFault cause => Sys2Proof.Machine.execPowerFault cause s
  | .inputOff => Sys2Proof.Machine.execInputOff s
  | .powerSample watts mv100 => Sys2Proof.Machine.execPowerSample watts mv100 s
  | .capStep => Sys2Proof.Machine.execCapStep s
  | .fastLimit => Sys2Proof.Machine.execFastLimit s
  | .fastLimitRelease => Sys2Proof.Machine.execFastLimitRelease s
  | .thermalThrottle island on => Sys2Proof.Machine.execThermalThrottle island on s
  | .thermal cond celsius => Sys2Proof.Machine.execThermal cond celsius s
  | .thermalTrip stack n => Sys2Proof.Machine.execThermalTrip stack n s
  | .pluggableInserted cage powerClass => Sys2Proof.Machine.execPluggableInserted cage powerClass s
  | .inputOn => Sys2Proof.Machine.execInputOn s
  | .standbyRailsUp okA okB flashOk => Sys2Proof.Machine.execStandbyRailsUp okA okB flashOk s
  | .firmwareRunning => Sys2Proof.Machine.execFirmwareRunning s
  | .dieSelfTestDone => Sys2Proof.Machine.execDieSelfTestDone s
  | .perstNRelease => Sys2Proof.Machine.execPerstNRelease s
  | .configReady => Sys2Proof.Machine.execConfigReady s
  | .memReady failed => Sys2Proof.Machine.execMemReady failed s
  | .imageReady => Sys2Proof.Machine.execImageReady s
  | .modResetNRelease lowNs => Sys2Proof.Machine.execModResetNRelease lowNs s
  | .glbResetWarm => Sys2Proof.Machine.execGlbResetWarm s
  | .glbResetPartition p => Sys2Proof.Machine.execGlbResetPartition p s
  | .glbResetCold => Sys2Proof.Machine.execGlbResetCold s
  | .glbResetNop op => Sys2Proof.Machine.execGlbResetNop op s
  | .writeBackLimit => Sys2Proof.Machine.execWriteBackLimit s
  | .partitionResetDone p => Sys2Proof.Machine.execPartitionResetDone p s
  | .keySet i3c slot key => Sys2Proof.Machine.execKeySet i3c slot key s
  | .keyRevoke i3c slot => Sys2Proof.Machine.execKeyRevoke i3c slot s
  | .healthClear i3c replace => Sys2Proof.Machine.execHealthClear i3c replace s
  | .mtimeAdvance i3c ns => Sys2Proof.Machine.execMtimeAdvance i3c ns s
  | .oemReset i3c val => Sys2Proof.Machine.execOemReset i3c val s
  | .larkRead i3c unit => Sys2Proof.Machine.execLarkRead i3c unit s
  | .statusRead i3c => Sys2Proof.Machine.execStatusRead i3c s
  | .setPowerCap watts => Sys2Proof.Machine.execSetPowerCap watts s
  | .getSensorReading sensor => Sys2Proof.Machine.execGetSensorReading sensor s
  | .firmwareUpdate image data => Sys2Proof.Machine.execFirmwareUpdate image data s
  | .pldmBase cmd => Sys2Proof.Machine.execPldmBase cmd s
  | .getVersion => Sys2Proof.Machine.execGetVersion s
  | .getCapabilities => Sys2Proof.Machine.execGetCapabilities s
  | .negotiateAlgorithms => Sys2Proof.Machine.execNegotiateAlgorithms s
  | .getDigests => Sys2Proof.Machine.execGetDigests s
  | .getCertificate off len => Sys2Proof.Machine.execGetCertificate off len s
  | .challenge nonce => Sys2Proof.Machine.execChallenge nonce s
  | .getMeasurements index nonce => Sys2Proof.Machine.execGetMeasurements index nonce s
  | .entdaa addr => Sys2Proof.Machine.execEntdaa addr s
  | .returnToService target => Sys2Proof.Machine.execReturnToService target s
  | .regulatorBucketRefill stk p => Sys2Proof.Machine.execRegulatorBucketRefill stk p s
  | .streamBucketRefill g kind => Sys2Proof.Machine.execStreamBucketRefill g kind s
  | .horviLaneTrained lane => Sys2Proof.Machine.execHorviLaneTrained lane s
  | .inputVoltageRestored mv100 => Sys2Proof.Machine.execInputVoltageRestored mv100 s
  | .inletTemperatureRestored celsius => Sys2Proof.Machine.execInletTemperatureRestored celsius s
  | .repairPauseEnd stk => Sys2Proof.Machine.execRepairPauseEnd stk s
  | .setEndpointId pcie eid => Sys2Proof.Machine.execSetEndpointId pcie eid s

end Sys2Proof.Machine
end

