-- ==== Sys2Proof/Machine/Claims.lean ====
section
/-! DEFINITION. The words in which claims speak of a state and of what a command leaves of it. No meaning uses them. -/
namespace Sys2Proof.Machine

/-! ## Steps of a cell (R57, R58) -/

/-- Step w, of KIND k, is the next step of the job that runs on logical cell g, at position i in partition p (R58). -/
def State.Ready (s : State) (k g : Nat) (w : StepWord) (i p : Nat) : Prop :=
  s.posOf g = some i ∧ (s.cell i).part = some p ∧ (s.cell i).st = 1 ∧ (s.cell i).job.isSome = true ∧
    (s.cell i).img.steps[(s.cell i).cur.step]? = some w ∧ kindOf w = k

/-- The cell once the step has been issued: the step index and, unless FREEZE is set, the step counter have moved on
(R58, R77, R79). -/
def Cell.issued (c : Cell) : Cell :=
  (c.setCur { c.cur with step := c.cur.step + 1 }).count fun n => { n with steps := n.steps + 1 }

/-- The cell with scalar register n of its running context at v (R60). -/
def Cell.withScalar (c : Cell) (n : Nat) (v : Word) : Cell := c.setCur (c.cur.setScalar n v)

/-- The state with the cell at position i replaced and nothing else changed. -/
def State.putCell (s : State) (i : Nat) (c : Cell) : State := { s with cells := s.cells.set i c }

/-- The command leaves row r of tile register k holding `f k r`, with that mark, and changes nothing else but that the step
has been issued. -/
def TilesBecome (c : Instr) (s : State) (i : Nat) (f : Nat → Nat → Bytes × Bool) : Prop :=
  ∃ t, exec c s = .next t ∧ t = s.putCell i { (s.cell i).issued with comp := (t.cell i).comp } ∧
    (t.cell i).comp.stat = (s.cell i).comp.stat ∧ (t.cell i).comp.scales = (s.cell i).comp.scales ∧
    (t.cell i).comp.topk = (s.cell i).comp.topk ∧ ∀ k r, r < 64 → (t.cell i).comp.rowOf k r = f k r

/-- No row of a tile register is marked. -/
def Cell.clean (c : Cell) (k : Nat) : Prop := ∀ r < 64, c.comp.rowMarked k r = false

/-- Element e of row r of tile register k in format f (R42). -/
def Cell.elem (c : Cell) (f k r e : Nat) : Nat := (rowElems f (fmtCols f) (c.comp.row k r)).getD e 0

/-- The same as a value (R82). -/
def Cell.val (c : Cell) (f k r e : Nat) : Val := decodeVal f (c.elem f k r e)

/-- The command writes elements 0 to n - 1 of every row of TD, in FMTB, with f, the elements beyond with 0, clears the marks
of TD (R44, R57), and changes nothing else but that the step has been issued. -/
def VectorWrites (c : Instr) (s : State) (i td fb n : Nat) (f : Nat → Nat → Nat) : Prop :=
  ∃ rows : Nat → Bytes, (∀ r < 64, (rows r).length = 256 ∧
      rowElems fb (fmtCols fb) (rows r) =
        (List.range (fmtCols fb)).map fun e => if e < n then f r e % 2 ^ fmtWidth fb else 0) ∧
    TilesBecome c s i fun k r => if k = td then (rows r, false) else (s.cell i).comp.rowOf k r

/-- The command writes elements lo to lo + n - 1 of every row of TD, in FMTB, with f and keeps the others; a row written whole
loses its mark (R44, R57). -/
def VectorPuts (c : Instr) (s : State) (i td fb lo n : Nat) (f : Nat → Nat → Nat) : Prop :=
  ∃ rows : Nat → Bytes, (∀ r < 64, (rows r).length = 256 ∧
      rowElems fb (fmtCols fb) (rows r) = (List.range (fmtCols fb)).map fun e =>
        if lo ≤ e ∧ e < lo + n then f r (e - lo) % 2 ^ fmtWidth fb else (s.cell i).elem fb td r e) ∧
    TilesBecome c s i fun k r =>
      if k = td then (rows r, if fmtCols fb ≤ n then false else (s.cell i).comp.rowMarked td r)
      else (s.cell i).comp.rowOf k r

end Sys2Proof.Machine
end

