-- ==== Sys2Proof/Safety.lean ====
section
/-! DEFINITION. What a sound state is: the units of the part are all there (R2, R4, R6), and every store is in its canonical
form. Claims about every state use it where they need it. -/
namespace Sys2Proof.Machine

/-- The stores of a cell are canonical. -/
def Cell.Canon (c : Cell) : Prop :=
  c.scratch.wf = true ∧ c.comp.tiles.wf = true ∧ c.comp.stat.wf = true ∧ c.comp.scales.wf = true

/-- The state has the units that the part has, no more and no fewer (R2, R4, R6). -/
structure State.Fits (s : State) : Prop where
  model : s.model ≤ 2
  cells : s.cells.length = 40 * diesOf s.model
  dies : s.dies.length = diesOf s.model
  engines : s.engines.length = stacksOf s.model
  bays : s.carts.bays.length = cartsOf s.model
  ports : s.net.ports.length = portsOf s.model
  parts : s.parts.length = 16
  tsvc : s.tsvc.length = 16
  xlt : s.xlt.length = 16
  ces : s.ces.length = 16

/-- Every memory of the state is in its canonical form. -/
structure State.Canon (s : State) : Prop where
  mem : s.mem.wf = true
  host : s.host.wf = true
  cells : ∀ c ∈ s.cells, c.Canon

/-- The invariant of the module: its units are all there and its memories are canonical. -/
def State.Inv (s : State) : Prop := s.Fits ∧ s.Canon

end Sys2Proof.Machine
end

