-- ==== Sys2Proof/Certificates/Slice0/Obligations.lean ====
section
/-! DEFINITION. The statements for the provers, by family of commands. -/
open Sys2Proof Sys2Proof.Machine

/-! ## The module as a whole -/

/-- A step runs the command at the front of the queue with the rest of the queue; with an empty queue, MTIME advances by 1 ns
once the steward runs (R29; that nothing else does is the model's choice, log entry 2). No word of the table spells a command. -/
def Obligations.StepRunsTheFront : Prop :=
  ∀ s : State,
    (∀ c rest, s.pending = c :: rest → step s = exec c { s with pending := rest }) ∧
    (s.pending = [] → s.power.boot = 3 ∨ s.power.boot = 4 → ∃ t, step s = .next t ∧ t.mtime = s.mtime + 1 ∧
      t = { s with mtime := t.mtime, power := { s.power with cntCap := t.power.cntCap, capped := t.power.capped } } ∧
      ((s.mtime + 1).toNat % 1000000 ≠ 0 → t.power = s.power)) ∧
    (s.pending = [] → s.power.boot < 3 ∨ 4 < s.power.boot → step s = .next s) ∧
    ∀ nbits w, decodeTableWord nbits w = none ∧ s.withFetchWord nbits w = s

/-- Right after reset nothing waits, no memory byte is listed, no batch, token, range or table exists, every partition is
undefined and closed, no fault is recorded and MTIME is 0 (R4, R29, R303, R407, R421, R454); the state is one that the invariant
admits. That the part is a CN9640 with its input off is the model's choice (log entry 1). -/
def Obligations.ResetState : Prop :=
  let s := State.reset
  s.Inv ∧ s.pending = [] ∧ s.mtime = 0 ∧ s.mem = .empty ∧ s.host = .empty ∧ s.batches = [] ∧ s.tokens = [] ∧ s.ranges = [] ∧
    s.tables = [] ∧ s.epochs = [] ∧ s.bindings = [] ∧ s.cells.length = 40 * s.dieCount ∧ s.engines.length = s.stackCount ∧
    (∀ p, (s.part p).defined = false ∧ (s.part p).opened = false) ∧
    (∀ i, (s.cell i).job = none ∧ (s.cell i).startQ = [] ∧ (s.cell i).scratch = .empty) ∧
    s.health.fatal = 0 ∧ s.health.suspect = false ∧ s.health.incidents = [] ∧ s.hrv.st = 0 ∧ s.image.st = 0 ∧
    s.hif.configReady = false ∧ s.power.memReady = false ∧ s.power.imageReady = false

/-- Every command has an effect on every state, the spec's own or none: it completes, and what waits behind it and the part stay
as they are. -/
def Obligations.CommandsComplete : Prop :=
  ∀ (c : Instr) (s : State), ∃ t, exec c s = .next t ∧ t.pending = s.pending ∧ t.model = s.model

/-- R2, R4, R6, R42, R73, R197: every step keeps the units of the part, no more and no fewer, and the canonical form of device
memory, host memory, every scratchpad, tile register and stationary buffer. -/
def Obligations.StepKeepsInvariant : Prop :=
  ∀ s t : State, s.Inv → step s = .next t → t.Inv

/-! ## Steps of a cell: scalars and control (02_cells.md) -/

/-- R60, R69: SMOV, SADD, SSUB, SMUL, SAND, SOR, SXOR, SSHL and SSHR complete by writing SD; arithmetic wraps modulo 2^64,
shifts take bits [5:0] of their second operand, SSHR is logical. Nothing else changes but the step's own count.
R69, R101, R102: SCMP writes 1 or 0, SEL selects by SC, SFOP computes on bits [31:0] of its operands and writes zero to
bits [63:32] of an FP32 result (R60), MARK writes the cell's copy of MTIME, which is at most 16 ns from MTIME (R29).
R61, R69, R246: NOP, FENCE and MWAIT only move on; LOOP opens a loop, skips its body on a count of 0 and only counts
at depth 5 and deeper of the step list (its body runs once); ENDLOOP repeats or closes; ACQ empties the read buffer at DIE scope and wider. -/
def Obligations.ScalarSteps : Prop :=
  (∀ (s : State) (g i p : Nat) (w : StepWord),
    let c := s.cell i
    let a := c.cur.scalar (saOf w)
    let b := if flagOf w 0 then BitVec.ofNat 64 (imm32Of w) else c.cur.scalar (sbOf w)
    let done := fun (v : Word) => Host.Outcome.next (φ := Fault) (ρ := Refusal)
      (s.putCell i (c.issued.withScalar (sdOf w) v))
    (s.Ready 0x10 g w i p → exec (.smov g w) s = done (BitVec.ofNat 64 (imm64Of w))) ∧
    (s.Ready 0x11 g w i p → exec (.sadd g w) s = done (a + b)) ∧
    (s.Ready 0x12 g w i p → exec (.ssub g w) s = done (a - b)) ∧
    (s.Ready 0x13 g w i p → exec (.smul g w) s = done (a * b)) ∧
    (s.Ready 0x14 g w i p → exec (.sand g w) s = done (a &&& b)) ∧
    (s.Ready 0x15 g w i p → exec (.sor g w) s = done (a ||| b)) ∧
    (s.Ready 0x16 g w i p → exec (.sxor g w) s = done (a ^^^ b)) ∧
    (s.Ready 0x17 g w i p → exec (.sshl g w) s = done (a <<< (b.toNat % 64))) ∧
    (s.Ready 0x18 g w i p → exec (.sshr g w) s = done (a >>> (b.toNat % 64)))) ∧
  (∀ (s : State) (g i p : Nat) (w : StepWord),
    let c := s.cell i
    let a := c.cur.scalar (saOf w)
    let b := c.cur.scalar (sbOf w)
    let x := decodeVal 0 (a.toNat % 2 ^ 32)
    let y := decodeVal 0 (b.toNat % 2 ^ 32)
    let done := fun (v : Word) => Host.Outcome.next (φ := Fault) (ρ := Refusal)
      (s.putCell i (c.issued.withScalar (sdOf w) v))
    let one := fun (q : Prop) (v : Word) => (q → v = 1) ∧ (¬ q → v = 0)
    (s.Ready 0x19 g w i p → ∃ v : Word, exec (.scmp g w) s = done v ∧
      (modeOf w = 0 → one (a = b) v) ∧ (modeOf w = 1 → one (a ≠ b) v) ∧
      (modeOf w = 2 → one (a.toNat < b.toNat) v) ∧ (modeOf w = 3 → one (a.toNat ≤ b.toNat) v) ∧
      (modeOf w = 4 → one (a.toInt < b.toInt) v) ∧ (modeOf w = 5 → one (a.toInt ≤ b.toInt) v) ∧
      (modeOf w = 6 → one (∃ k, x.compare y = some k ∧ k < 0) v) ∧
      (modeOf w = 7 → one (∃ k, x.compare y = some k ∧ k ≤ 0) v)) ∧
    (s.Ready 0x09 g w i p → exec (.sel g w) s = done (if c.cur.scalar (scOf w) ≠ 0 then a else b)) ∧
    (s.Ready 0x1A g w i p → ∃ v : Word, exec (.sfop g w) s = done v ∧
      (modeOf w = 0 → v.toNat = encodeVal 0 (x.add y)) ∧ (modeOf w = 1 → v.toNat = encodeVal 0 (x.sub y)) ∧
      (modeOf w = 2 → v.toNat = encodeVal 0 (x.mul y)) ∧ (modeOf w = 3 → v.toNat = encodeVal 0 (Val.pick true x y)) ∧
      (modeOf w = 4 → v.toNat = encodeVal 0 (Val.pick false x y)) ∧
      (modeOf w = 5 → v.toNat = encodeVal 0 (Val.ofInt a.toInt)) ∧
      (modeOf w = 6 → x = .nan → v = 0) ∧
      (modeOf w = 6 → ∀ q, x = .num q → v.toInt = satInt 64 (roundInt q))) ∧
    (s.Ready 0x0E g w i p → ∃ n : Nat, exec (.mark g w) s = done (BitVec.ofNat 64 n) ∧
      s.mtime.toNat ≤ n ∧ n ≤ s.mtime.toNat + 16)) ∧
  (∀ (s : State) (g i p : Nat) (w : StepWord),
    let c := s.cell i
    let x := c.cur
    let n := if flagOf w 0 then (x.scalar (saOf w)).toNat % 2 ^ 32 else imm32Of w
    let deep := loopDepth (c.img.steps.take x.step)
    let d := if flagOf w 1 then c.issued.withScalar (sdOf w) 0 else c.issued
    let done := fun (c : Cell) => Host.Outcome.next (φ := Fault) (ρ := Refusal) (s.putCell i c)
    (s.Ready 0x00 g w i p → exec (.nop g w) s = done c.issued) ∧
    (s.Ready 0x0D g w i p → exec (.fence g w) s = done c.issued) ∧
    (s.Ready 0x39 g w i p → exec (.mwait g w) s = done c.issued) ∧
    (s.Ready 0x01 g w i p → deep < 4 → n ≠ 0 →
      exec (.loop g w) s = done (d.setCur { d.cur with loops := ⟨x.step + 1, n, 0⟩ :: x.loops })) ∧
    (s.Ready 0x01 g w i p → deep < 4 → n = 0 →
      exec (.loop g w) s =
        done (d.setCur { d.cur with step := skipBody (c.img.steps.drop (x.step + 1)) (x.step + 1) 0 })) ∧
    (s.Ready 0x01 g w i p → 4 ≤ deep →
      exec (.loop g w) s = done (d.setCur { d.cur with overLoops := x.overLoops + 1 })) ∧
    (s.Ready 0x02 g w i p → 4 < deep →
      exec (.endloop g w) s = done (c.issued.setCur { c.issued.cur with overLoops := x.overLoops - 1 })) ∧
    (s.Ready 0x02 g w i p → deep ≤ 4 → x.loops = [] → exec (.endloop g w) s = done c.issued) ∧
    (s.Ready 0x02 g w i p → deep ≤ 4 → ∀ f l, x.loops = f :: l → f.left ≤ 1 →
      exec (.endloop g w) s = done (c.issued.setCur { c.issued.cur with loops := l })) ∧
    (s.Ready 0x02 g w i p → deep ≤ 4 → ∀ f l, x.loops = f :: l → 1 < f.left →
      ∃ t, exec (.endloop g w) s = .next t ∧ (t.cell i).cur.step = f.start ∧
        (t.cell i).cur.loops = ⟨f.start, f.left - 1, f.idx + 1⟩ :: l ∧
        (t.cell i).comp = c.comp ∧ (t.cell i).scratch = c.scratch ∧ t = s.putCell i (t.cell i)) ∧
    (s.Ready 0x0C g w i p → modeOf w = 0 → exec (.acq g w) s = done c.issued) ∧
    (s.Ready 0x0C g w i p → modeOf w = 1 → exec (.acq g w) s = done { c.issued with readBuf := [] }) ∧
    (s.Ready 0x0C g w i p → 2 ≤ modeOf w → ∃ v, s.mtime.toNat ≤ v ∧
      exec (.acq g w) s =
        done ({ c.issued with readBuf := [] }.setCur { c.issued.cur with viewStamp := v })))

/-- R61 to R66, R244, R307: WAIT, WAITANY, EBIND, POSTT, POSTC and REL complete where what they wait for is there, with the
tokens popped, the credits moved and SD written; else they hold the cell in WAITING. The token of a gather to tile registers lands
its output where no step has written the registers meanwhile (R118). A REMOTE_STATUS among the tokens popped faults (R66), with the
rest done; what follows from a failed row engine (R119, R404) is left out.
R69, R308, R311, R314: END ends a job none of whose asynchronous steps is open, clearing what R60 and R76 clear and
keeping scratchpad, queues and credits; LAYER with nothing waiting for it records its number and begins a slice; a drain ends the
job there (R317; the spec speaks both ways: log entry 49). -/
def Obligations.WaitingAndJobSteps : Prop :=
  (∀ (s : State) (g i p : Nat) (w : StepWord),
    let c := s.cell i
    let x := c.cur
    let q := qOf w
    let toks := (x.queue q).toks
    let n := max 1 (min 64 (imm16Of w))
    let pop := fun (q k : Nat) (l : List Token) =>
      { x with step := x.step + 1 }.modQueue q fun u =>
        { u with toks := u.toks.drop k, popped := u.popped ++ l.map Token.credit }
    let ran := fun (c' : Instr) (l : List Token) (y : Ctx) => (∀ u ∈ l, u.engine = none) →
      ∃ t, exec c' s = .next t ∧ (t.cell i).held = none ∧
      (t.cell i).cur = y ∧ (t.cell i).scratch = c.scratch ∧ (t.cell i).job = c.job ∧
      ((∀ u ∈ l, u.tile = none) → (t.cell i).comp = c.comp) ∧
      (∀ v k d, l = [v] → v.tile = some k → c.comp.lands.find? (fun d => d.req == k) = some d → c.comp.tile d.td = d.junk →
        (t.cell i).comp = { c.comp with lands := c.comp.lands.filter fun d => d.req != k }.land d) ∧
      ((∀ u ∈ l, u.status = 0) → (t.cell i).st = 1 ∧ t = { s.putCell i (t.cell i) with drawn := t.drawn }) ∧
      (∀ v, l = [v] → v.status ≠ 0 → (t.cell i).st = 3 ∧ (t.cell i).fault.valid = true ∧ (t.cell i).fault.cause = 8 ∧
        (t.cell i).fault.info = 256 * v.status + v.value.toNat % 16 ∧ t.mem = s.mem ∧ t.tokens = s.tokens)
    let held := fun (c' : Instr) (dl : Option Nat) => exec c' s =
      .next (s.putCell i { c.issued with st := 2, held := some ⟨w, s.now (.cell i), dl⟩ })
    (s.Ready 0x03 g w i p → q < x.queues.length → ∀ v, n ≤ toks.length → (toks.take n).getLast? = some v →
      ran (.wait g w) (toks.take n) ((pop q n (toks.take n)).setScalar (sdOf w) (v.value.setWidth 64))) ∧
    (s.Ready 0x03 g w i p → toks.length < n → held (.wait g w) (s.waitDeadline i w)) ∧
    (s.Ready 0x04 g w i p → ∀ r v l, r < 16 → (imm16Of w).testBit r = true → (x.queue r).toks = v :: l →
      (∀ r' < r, (imm16Of w).testBit r' = true → (x.queue r').toks = []) →
      ran (.waitany g w) [v] ((pop r 1 [v]).setScalar (sdOf w) (BitVec.ofNat 64 (2 ^ 48 * r + v.value.toNat)))) ∧
    (s.Ready 0x04 g w i p → (∀ r < 16, (imm16Of w).testBit r = true → (x.queue r).toks = []) →
      held (.waitany g w) (s.waitDeadline i w)) ∧
    (s.Ready 0x07 g w i p → ∀ j v l, c.job = some j → toks = v :: l →
      ∃ t, exec (.ebind g w) s = .next t ∧ t = { s.putCell i (t.cell i) with drawn := t.drawn } ∧ (t.cell i).st = 1 ∧
        (t.cell i).held = none ∧ (t.cell i).cur = (pop q 1 [v]).setScalar (sdOf w) (j.param ++ v.value) ∧
        (t.cell i).scratch = c.scratch ∧ (t.cell i).job = c.job ∧ (v.tile = none → (t.cell i).comp = c.comp)) ∧
    (s.Ready 0x07 g w i p → toks = [] → held (.ebind g w) none) ∧
    (s.Ready 0x06 g w i p → ∀ d q', x.credits.getD q 0 ≠ 0 → c.img.binds.getD q none = some (d, q') →
      ∃ t, exec (.postt g w) s = .next t ∧ (t.cell i).st = 1 ∧ (t.cell i).job = c.job ∧
        (t.cell i).cur = { x with step := x.step + 1, credits := x.credits.set q (x.credits.getD q 0 - 1) } ∧
        t = { s.putCell i (t.cell i) with tokens := s.tokens ++ [(d, q', c.cls,
          ⟨(x.scalar (saOf w)).setWidth 32, .cell g, false, some (.counter g c.cls q), none⟩)] }) ∧
    (s.Ready 0x06 g w i p → x.credits.getD q 0 = 0 → held (.postt g w) none) ∧
    (s.Ready 0x05 g w i p → exec (.postc g w) s =
      .next { s.putCell i (c.issued.setCur ({ x with step := x.step + 1 }.modQueue q fun u =>
          { u with popped := (returnCredits n (x.queue q).popped).2 })) with
        credits := s.credits ++ (returnCredits n (x.queue q).popped).1 }) ∧
    (s.Ready 0x0B g w i p → modeOf w ≤ 1 ∨ c.written = [] → exec (.rel g w) s = .next (s.putCell i c.issued)) ∧
    (s.Ready 0x0B g w i p → 2 ≤ modeOf w → c.written ≠ [] → ∃ t, exec (.rel g w) s = .next t ∧ (t.cell i).st = 2 ∧
      (t.cell i).markers = c.written.length ∧ (t.cell i).written = [] ∧
      (∀ k ∈ c.written, k < s.engines.length → .cell g ∈ (t.engine k).mem.markers) ∧ t.mem = s.mem ∧ t.tokens = s.tokens)) ∧
  (∀ (s : State) (g i p : Nat) (w : StepWord) (j : Job),
    let c := s.cell i
    (s.Ready 0x0F g w i p → c.job = some j → (∀ o ∈ c.open_, o.cls ≠ j.cls) → c.pend.drain = false →
      ∃ t, exec (.endStep g w) s = .next t ∧ (t.cell i).st = 0 ∧ (t.cell i).job = none ∧ (t.cell i).comp = .fresh ∧
        (t.cell i).scratch = c.scratch ∧ ((t.cell i).ctx j.cls).scalars = List.replicate 64 0 ∧
        ((t.cell i).ctx j.cls).queues.map (·.toks) = (c.ctx j.cls).queues.map (·.toks) ∧
        ((t.cell i).ctx j.cls).credits = (c.ctx j.cls).credits ∧
        t = { s.putCell i (t.cell i) with
          batches := modWhere s.batches (fun b => b.handle == j.handle) (·.jobEnded g 0 0), cmp := t.cmp } ∧
        ((∀ x ∈ c.port.slots, x.blocks = []) → t.cmp = s.cmp)) ∧
    (s.Ready 0x0F g w i p → c.job = some j → (∃ o ∈ c.open_, o.cls = j.cls) → exec (.endStep g w) s =
      .next (s.putCell i { c.issued with st := 2, held := some ⟨w, s.now (.cell i), none⟩ })) ∧
    (s.Ready 0x08 g w i p → c.pend.drain = false → c.preemptDue = false → s.moveDue i = false →
      (c.pend.shadow = false ∨ c.pend.shadowCrc = []) →
      ∃ t, exec (.layer g w) s = .next t ∧ (t.cell i).layer = imm16Of w ∧ (t.cell i).st = 1 ∧ (t.cell i).job = c.job ∧
        (t.cell i).cur = { c.cur with step := c.cur.step + 1 } ∧ (t.cell i).comp = c.comp ∧
        (t.cell i).scratch = c.scratch ∧ (t.cell i).pend.sliceStart = s.now (.cell i) ∧
        (t.cell i).pend.sliceOver = false ∧ t.mem = s.mem ∧ t.tokens = s.tokens ∧ t.batches = s.batches) ∧
    (s.Ready 0x08 g w i p → c.pend.drain = false → c.preemptDue = true →
      ∃ t, exec (.layer g w) s = .next t ∧ (t.cell i).layer = imm16Of w ∧ (t.cell i).st = 2 ∧ (t.cell i).job = c.job ∧
        (t.cell i).comp = c.comp) ∧
    (s.Ready 0x08 g w i p → c.job = some j → c.pend.drain = true → c.susp = none →
      ∃ t, exec (.layer g w) s = .next t ∧ (t.cell i).layer = imm16Of w ∧ (t.cell i).st = 4 ∧ (t.cell i).job = none ∧
        (t.cell i).pend.drain = false ∧ (t.cell i).scratch = c.scratch ∧
        t.batches = modWhere s.batches (fun b => b.handle == j.handle) (·.jobEnded g 4 0)))

/-! ## Tile registers (R42, R44, R48, R69, R90, R215) -/

/-- R69, R90, R215: TMOV, TSEL, TZERO, TFILL, TTRN, TROW and TMASK write the rows of TD that they name, with their marks, and
no other row of any tile register; MLOAD fills the stationary buffer and its scales (R48, R50). -/
def Obligations.TileMoves : Prop :=
  ∀ (s : State) (g i p : Nat) (w : StepWord),
    let c := s.cell i
    let x := c.cur
    let td := tdOf x w
    let ta := taOf x w
    let tb := tbOf x w
    let fb := fmtbOf w
    let fill := encodeVal fb (if fmtIsInt fb then .ofInt (x.scalar (saOf w)).toInt
      else decodeVal 0 ((x.scalar (saOf w)).toNat % 2 ^ 32))
    (s.Ready 0x24 g w i p → TilesBecome (.tmov g w) s i fun k r => c.comp.rowOf (if k = td then ta else k) r) ∧
    (s.Ready 0x0A g w i p → TilesBecome (.tsel g w) s i fun k r =>
      c.comp.rowOf (if k = td then (if x.scalar (scOf w) ≠ 0 then ta else tb) else k) r) ∧
    (s.Ready 0x25 g w i p → TilesBecome (.tzero g w) s i fun k r =>
      if k = td then (zeros 256, false) else c.comp.rowOf k r) ∧
    (s.Ready 0x26 g w i p → ∃ row : Bytes, row.length = 256 ∧
      rowElems fb (fmtCols fb) row = List.replicate (fmtCols fb) (fill % 2 ^ fmtWidth fb) ∧
      TilesBecome (.tfill g w) s i fun k r => if k = td then (row, false) else c.comp.rowOf k r) ∧
    (s.Ready 0x27 g w i p → ∃ rows : Nat → Bytes,
      (∀ r < 64, ∀ j < 64, (rowElems 0 64 (rows r))[j]? = (rowElems 0 64 (c.comp.row ta j))[r]?) ∧
      TilesBecome (.ttrn g w) s i fun k r => if k = td then (rows r, c.comp.anyMarked ta 64) else c.comp.rowOf k r) ∧
    (s.Ready 0x28 g w i p → TilesBecome (.trow g w) s i fun k r =>
      if k = td ∧ r = fld w 93 88 then c.comp.rowOf ta (fld w 85 80) else c.comp.rowOf k r) ∧
    (s.Ready 0x29 g w i p → TilesBecome (.tmask g w) s i fun k r =>
      if k = td ∧ (x.scalar (saOf w)).getLsbD r = true then (zeros 256, false) else c.comp.rowOf k r) ∧
    (s.Ready 0x30 g w i p → ∃ t, exec (.mload g w) s = .next t ∧
      (∀ j < 64, (t.cell i).comp.statRow j = c.comp.row ta j ∧ (t.cell i).comp.stat.isMarked j = c.comp.rowMarked ta j ∧
        (t.cell i).comp.statScales j = (c.comp.row tb j).take 16 ∧
        (t.cell i).comp.scales.isMarked j = c.comp.rowMarked tb j) ∧
      (t.cell i).comp.tiles = c.comp.tiles ∧ (t.cell i).comp.topk = c.comp.topk ∧
      t = s.putCell i { c.issued with comp := (t.cell i).comp, cnt := (t.cell i).cnt } ∧
      (c.freeze = false → (t.cell i).cnt.mloadStall = c.cnt.mloadStall + 64))

/-- R69, R73, R242, R264, R265: with the address LOCAL, SLD, SST, TLD, TST, TLDS and TSTS whose address is aligned and whose
extents lie in the scratchpad move exactly the bytes named, with their marks (R215); rows of TLDS at and beyond the row count stay,
and the bytes of a row beyond the row bytes become zero. -/
def Obligations.LocalMemorySteps : Prop :=
  ∀ (s : State) (g i p : Nat) (w : StepWord),
    let c := s.cell i
    let x := c.cur
    let a := addr57 (((x.scalar (saOf w)).toNat + imm32Of w) % 2 ^ 64)
    let b := addr57 (((x.scalar (sbOf w)).toNat + imm32Of w) % 2 ^ 64)
    let at_ := fun r => addr57 (((x.scalar (saOf w)).toNat + (imm32Of w + (x.scalar (sbOf w)).toNat * r)) % 2 ^ 64)
    let n := min 64 (fld w 94 88 + 1)
    let m := min 256 ((imm16Of w % 32 + 1) * 16)
    (s.Ready 0x1B g w i p → localOf w = true → a % 8 = 0 → a + 8 ≤ 0x400000 → c.scratch.isMarked (a / 64) = false →
      exec (.sld g w) s = .next (s.putCell i (c.issued.withScalar (sdOf w)
        (BitVec.ofNat 64 (leNat (c.scratch.read 64 a 8).bytes))))) ∧
    (s.Ready 0x1C g w i p → localOf w = true → b % 8 = 0 → b + 8 ≤ 0x400000 → ∃ t, exec (.sst g w) s = .next t ∧
      (∀ y, (t.cell i).scratch.get y =
        if b ≤ y ∧ y < b + 8 then (leBytes 8 (x.scalar (saOf w)).toNat).getD (y - b) 0 else c.scratch.get y) ∧
      t = s.putCell i { c.issued with scratch := (t.cell i).scratch, written := (t.cell i).written }) ∧
    (s.Ready 0x20 g w i p → localOf w = true →
      (∀ r < 64, let y := addr57 (((x.scalar (saOf w)).toNat + (imm32Of w + 256 * r)) % 2 ^ 64)
        y % 16 = 0 ∧ y + 256 ≤ 0x400000) →
      TilesBecome (.tld g w) s i fun k r => if k = tdOf x w then
          let d := c.scratch.read 64 (addr57 (((x.scalar (saOf w)).toNat + (imm32Of w + 256 * r)) % 2 ^ 64)) 256
          (d.bytes, d.marked)
        else c.comp.rowOf k r) ∧
    (s.Ready 0x22 g w i p → localOf w = true → (∀ r < n, at_ r % 16 = 0 ∧ at_ r + m ≤ 0x400000) →
      TilesBecome (.tlds g w) s i fun k r => if k = tdOf x w ∧ r < n then
          let d := c.scratch.read 64 (at_ r) m
          (d.bytes ++ zeros (256 - m), d.marked)
        else c.comp.rowOf k r) ∧
    (s.Ready 0x21 g w i p → localOf w = true →
      (∀ r < 64, let y := addr57 (((x.scalar (saOf w)).toNat + (imm32Of w + 256 * r)) % 2 ^ 64)
        y % 16 = 0 ∧ y = a + 256 * r ∧ y + 256 ≤ 0x400000) → ∃ t, exec (.tst g w) s = .next t ∧
      (∀ y, (t.cell i).scratch.get y =
        if a ≤ y ∧ y < a + 16384 then (c.comp.row (taOf x w) ((y - a) / 256)).getD ((y - a) % 256) 0 else c.scratch.get y) ∧
      t = s.putCell i { c.issued with scratch := (t.cell i).scratch, written := (t.cell i).written }) ∧
    (s.Ready 0x23 g w i p → localOf w = true → (∀ r < n, at_ r % 16 = 0 ∧ at_ r + m ≤ 0x400000) →
      ∃ t, exec (.tsts g w) s = .next t ∧
      (∀ y, (∀ r < n, ¬ (at_ r ≤ y ∧ y < at_ r + m)) → (t.cell i).scratch.get y = c.scratch.get y) ∧
      (∀ r < n, ∀ e < m, (∀ r' < n, r < r' → ¬ (at_ r' ≤ at_ r + e ∧ at_ r + e < at_ r' + m)) →
        (t.cell i).scratch.get (at_ r + e) = (c.comp.row (taOf x w) r).getD e 0) ∧
      t = s.putCell i { c.issued with scratch := (t.cell i).scratch, written := (t.cell i).written })

/-- R71, R215, R245, R260, R264, R265: the same steps at an address word, LOCAL or a device virtual address. SLD reads its own scratchpad
or, of memory, the read buffer, which it fills and reorders (R245), and faults with POISON on a marked granule; SST and TST, TSTS
write where every byte is mapped, writable and aligned, SST also in a buffered block. Where an address is not aligned they fault with
ALIGN, SLD and SST where it is refused with XLT_UNMAPPED or XLT_READ_ONLY at that address, and change no register, scratchpad or
device memory; TST and TSTS then write only rows that are not refused, those of the mask, and name the first byte of the lowest
refused row (R265). -/
def Obligations.MappedMemorySteps : Prop :=
  ∀ (s : State) (g i p : Nat) (w : StepWord),
    let c := s.cell i
    let x := c.cur
    let s1 := s.putCell i c.issued
    let local_ := if localOf w then 2 ^ 63 else 0
    let a := addr57 (((x.scalar (saOf w)).toNat + imm32Of w) % 2 ^ 64)
    let b := addr57 (((x.scalar (sbOf w)).toNat + imm32Of w) % 2 ^ 64)
    let row := fun r => addr57 (((x.scalar (saOf w)).toNat + (imm32Of w + 256 * r)) % 2 ^ 64)
    let at_ := fun r => addr57 (((x.scalar (saOf w)).toNat + (imm32Of w + (x.scalar (sbOf w)).toNat * r)) % 2 ^ 64)
    let n := min 64 (fld w 94 88 + 1)
    let m := min 256 ((imm16Of w % 32 + 1) * 16)
    let ta := taOf x w
    let d := leBytes 8 (x.scalar (saOf w)).toNat
    let faults := fun (c' : Instr) (cause v : Nat) => ∃ t, exec c' s = .next t ∧ (t.cell i).st = 3 ∧
      (t.cell i).fault.cause = cause ∧ (t.cell i).fault.valid = true ∧ (t.cell i).fault.addr = v ∧
      (t.cell i).fault.step = x.step ∧ (t.cell i).cur = c.issued.cur ∧ (t.cell i).comp = c.comp ∧ (t.cell i).scratch = c.scratch ∧
      (cause ≠ 4 → t.mem = s.mem)
    let buffered := fun (e : RbEntry) => { c.issued with readBuf := (e :: c.readBuf.filter fun y => y.block != e.block).take 16 }
    let stores := fun (c' : Instr) (rows k : Nat) (at_ : Nat → Nat) =>
      (∀ r < rows, at_ r % 16 = 0) →
      ((∀ r < rows, s1.wordRefused p (at_ r + local_) k = none) → exec c' s = .next ((List.range rows).foldl
        (fun u r => u.cellWrite i p (at_ r + local_) (Data.mark (c.comp.rowMarked ta r) ((c.comp.row ta r).take k))) s1)) ∧
      ((∃ r < rows, s1.wordRefused p (at_ r + local_) k ≠ none) → ∃ t, exec c' s = .next t ∧ (t.cell i).st = 3 ∧
        (t.cell i).fault.valid = true ∧ (t.cell i).comp = c.comp ∧
        ((∃ r < rows, s1.wordUnmapped p (at_ r + local_) k ≠ none) → (t.cell i).fault.cause = 1) ∧
        ((∀ r < rows, s1.wordUnmapped p (at_ r + local_) k = none) → (t.cell i).fault.cause = 2) ∧
        (∃ r < rows, s1.wordRefused p (at_ r + local_) k ≠ none ∧ (t.cell i).fault.addr = at_ r) ∧
        (∀ r < rows, s1.wordRefused p (at_ r + local_) k ≠ none → (t.cell i).fault.addr ≤ at_ r) ∧
        ∀ r < 64, (t.cell i).fault.mask.getLsbD r = true → r < rows ∧ s1.wordRefused p (at_ r + local_) k = none)
    (s.Ready 0x21 g w i p → stores (.tst g w) 64 256 row) ∧
    (s.Ready 0x23 g w i p → stores (.tsts g w) n m at_) ∧
    (s.Ready 0x1C g w i p → localOf w = false → b % 8 = 0 → s1.refused p b 8 = none →
      let u := s1.vwrite (.cell g) p b (Data.clean d)
      exec (.sst g w) s = .next (u.putCell i { u.cell i with
        written := (c.written ++ s1.vstacks p b 8).dedup
        readBuf := modWhere c.readBuf (fun e => e.block == b / 256) fun e => { e with data := spliceBytes e.data (b % 256) d } })) ∧
    (s.Ready 0x1C g w i p → b % 8 = 0 → ∀ v, s1.wordRefused p (b + local_) 8 = some v →
      faults (.sst g w) (if (s1.wordUnmapped p (b + local_) 8).isSome then 1 else 2) v) ∧
    (s.Ready 0x1B g w i p → localOf w = false → a % 8 = 0 → s1.unmapped p a 8 = none → s1.ownScratch i p a = true →
      let u := s1.vread (.cell g) p a 8
      (u.1.marked = false → exec (.sld g w) s = .next (u.2.putCell i (c.issued.withScalar (sdOf w) (BitVec.ofNat 64 (leNat u.1.bytes))))) ∧
      (u.1.marked = true → faults (.sld g w) 4 a)) ∧
    (s.Ready 0x1B g w i p → localOf w = false → a % 8 = 0 → s1.unmapped p a 8 = none → s1.ownScratch i p a = false →
      ∀ e, s1.bufferHit i a = some e → 8 ≤ (e.data.drop (a % 256)).length →
      (e.marks.testBit (a % 256 / 64) = false → exec (.sld g w) s = .next (s.putCell i ((buffered e).withScalar (sdOf w)
        (BitVec.ofNat 64 (leNat ((e.data.drop (a % 256)).take 8)))))) ∧
      (e.marks.testBit (a % 256 / 64) = true → faults (.sld g w) 4 a)) ∧
    (s.Ready 0x1B g w i p → localOf w = false → a % 8 = 0 → s1.unmapped p a 8 = none → s1.ownScratch i p a = false →
      s1.bufferHit i a = none →
      let u := s1.vread (.cell g) p (a / 256 * 256) 256
      let v : Data := (u.1.drop (a % 256)).take 8
      (v.marked = false → exec (.sld g w) s = .next (u.2.putCell i
        ((buffered ⟨a / 256, s.now (.cell i), u.1.bytes, poisonMask u.1⟩).withScalar (sdOf w) (BitVec.ofNat 64 (leNat v.bytes))))) ∧
      (v.marked = true → faults (.sld g w) 4 a)) ∧
    (s.Ready 0x1B g w i p → localOf w = true → a % 8 = 0 → a + 8 ≤ 0x400000 → c.scratch.isMarked (a / 64) = true →
      faults (.sld g w) 4 a) ∧
    (s.Ready 0x1B g w i p → a % 8 = 0 → ∀ v, s1.wordUnmapped p (a + local_) 8 = some v → faults (.sld g w) 1 v) ∧
    (s.Ready 0x1B g w i p → a % 8 ≠ 0 → faults (.sld g w) 3 a) ∧
    (s.Ready 0x1C g w i p → b % 8 ≠ 0 → faults (.sst g w) 3 b) ∧
    (s.Ready 0x20 g w i p → row 0 % 16 ≠ 0 → faults (.tld g w) 3 (row 0)) ∧
    (s.Ready 0x21 g w i p → row 0 % 16 ≠ 0 → faults (.tst g w) 3 (row 0)) ∧
    (s.Ready 0x22 g w i p → at_ 0 % 16 ≠ 0 → faults (.tlds g w) 3 (at_ 0)) ∧
    (s.Ready 0x23 g w i p → at_ 0 % 16 ≠ 0 → faults (.tsts g w) 3 (at_ 0))

/-- R264: TLD and TLDS translate every row before they change a tile register. If any row is unmapped in whole or in part, the
step faults with XLT_UNMAPPED, TD is unchanged, bit r of CELL_FAULT_MASK is set for each unmapped row and for no other, and
CELL_FAULT_ADDR holds the lowest unmapped address that the step would have read. Otherwise each row of TD holds the bytes and the
mark of a whole read of its row, in the order of the rows. -/
def Obligations.TileLoadsTranslateFirst : Prop :=
  ∀ (s : State) (g i p : Nat) (w : StepWord),
    let c := s.cell i
    let x := c.cur
    let loads := fun (k : Nat) (cmd : Instr) (rows n : Nat) (row : Nat → Nat) =>
      let s1 := s.putCell i c.issued
      let bad := fun r => if localOf w then (if row r + n ≤ 0x400000 then none else some (max (row r) 0x400000))
        else s1.unmapped p (row r) n
      let before := fun r => (List.range r).foldl (fun u j => (u.vread (.cell g) p (row j) n).2) s1
      let d : Nat → Data := fun r => if localOf w then c.scratch.read 64 (row r) n else ((before r).vread (.cell g) p (row r) n).1
      s.Ready k g w i p → (∀ r < rows, row r % 16 = 0) →
      ((∃ r < rows, bad r ≠ none) → ∃ t, exec cmd s = .next t ∧ (t.cell i).st = 3 ∧ (t.cell i).fault.valid = true ∧
        (t.cell i).fault.cause = 1 ∧ (t.cell i).comp = c.comp ∧
        (∀ r < 64, (t.cell i).fault.mask.getLsbD r = (decide (r < rows) && (bad r).isSome)) ∧
        (∃ r < rows, bad r = some (t.cell i).fault.addr) ∧
        (∀ r < rows, ∀ a, bad r = some a → (t.cell i).fault.addr ≤ a) ∧ t.mem = s.mem) ∧
      ((∀ r < rows, bad r = none) → ∃ t, exec cmd s = .next t ∧ (t.cell i).st = 1 ∧
        (∀ r < rows, (t.cell i).comp.rowOf (tdOf x w) r = ((d r).bytes ++ zeros (256 - n), (d r).marked)) ∧
        ∀ q r, r < 64 → q ≠ tdOf x w ∨ rows ≤ r → (t.cell i).comp.rowOf q r = c.comp.rowOf q r)
    loads 0x20 (.tld g w) 64 256 (fun r => addr57 (((x.scalar (saOf w)).toNat + (imm32Of w + 256 * r)) % 2 ^ 64)) ∧
    loads 0x22 (.tlds g w) (min 64 (fld w 94 88 + 1)) (min 256 ((imm16Of w % 32 + 1) * 16))
      (fun r => addr57 (((x.scalar (saOf w)).toNat + (imm32Of w + (x.scalar (sbOf w)).toNat * r)) % 2 ^ 64))

/-! ## The matrix array and the top-k network (R45 to R55, R91 to R97) -/

/-- R47, R49, R51, R52, R71: an array step whose rows read are unmarked and whose residue check passes writes rows 0 to
ROWS - 1 of its destination registers with the outputs of R92 to R97, in FP32 or INT32, counts its cycles, and changes no other
row and nothing outside the cell.
R52, R71, R72, R79: an array step whose residue check fails faults with ARRAY_RESIDUE, and one that reads a marked row
with POISON_CONSUMED: the cell enters FAULTED with CAUSE, STEP and KIND recorded, and no register but the destinations
changes. -/
def Obligations.ArraySteps : Prop :=
  (∀ (s : State) (g i p : Nat) (w : StepWord),
    let c := s.cell i
    let x := c.cur
    let fa := fmtaOf w
    let fb := fmtbOf w
    let ta := taOf x w
    let tb := tbOf x w
    let rows := rowsOf w
    let o := fun k => arrayOp x w k
    let stat := fun k n => (List.range 64).map fun j => (o k).scaled fb n (c.comp.statRow j) (c.comp.statScales j)
    let done := fun (c' : Instr) (k : Nat) (f : Nat → Nat → List Nat) =>
      c.comp.arrayMarked (o k) ta tb rows (arrayDest x w k) = false →
      ∃ t, exec c' s = .next t ∧
        (∀ m y, (arrayDest x w k)[m]? = some y → ∀ r < rows, ∀ j < 64,
          (t.cell i).elem 0 y r j = (f r m).getD j 0 % 2 ^ 32 ∧ (t.cell i).comp.rowMarked y r = false) ∧
        (∀ y r, r < 64 → y ∉ arrayDest x w k ∨ rows ≤ r → (t.cell i).comp.rowOf y r = c.comp.rowOf y r) ∧
        (t.cell i).comp.stat = c.comp.stat ∧ (t.cell i).comp.scales = c.comp.scales ∧ (t.cell i).comp.topk = c.comp.topk ∧
        (c.freeze = false →
          (t.cell i).cnt.arrayBusy = c.cnt.arrayBusy + BitVec.ofNat 64 (rows * arrayCycles fa fb)) ∧
        t = s.putCell i { c.issued with comp := (t.cell i).comp, cnt := (t.cell i).cnt, pend := (t.cell i).pend }
    let alongK := fun k r (_ : Nat) =>
      (o k).rowOut c.comp fa ta tb (tdOf x w) r (stat k (o k).klen)
    (s.Ready 0x31 g w i p → done (.mma g w false) 0x31 (alongK 0x31)) ∧
    (s.Ready 0x33 g w i p → done (.mdl2 g w false) 0x33 (alongK 0x33)) ∧
    (s.Ready 0x34 g w i p → done (.mdnip g w false) 0x34 (alongK 0x34)) ∧
    (s.Ready 0x35 g w i p → done (.mdl1 g w false) 0x35 (alongK 0x35)) ∧
    (s.Ready 0x37 g w i p → done (.mdmax g w false) 0x37 (alongK 0x37)) ∧
    (s.Ready 0x38 g w i p → done (.mdmin g w false) 0x38 (alongK 0x38)) ∧
    (s.Ready 0x36 g w i p → done (.mdham g w false) 0x36 fun r _ => (List.range 64).map fun j =>
      hamming (o 0x36).klen (accOf w) (c.elem 0 (tdOf x w) r j) (leNat (c.comp.row ta r)) (leNat (c.comp.statRow j))) ∧
    (s.Ready 0x32 g w i p → done (.mmat g w false) 0x32 fun r m =>
      (o 0x32).rowOutT c.comp fa ta tb ((tdOf x w + m) % 32) r m (stat 0x32 (arrayK fa fb)))) ∧
  (∀ (s : State) (g i p : Nat) (w : StepWord) (bad : Bool),
    let c := s.cell i
    let x := c.cur
    let faulted := fun (c' : Instr) (k cause : Nat) => ∃ t, exec c' s = .next t ∧ (t.cell i).st = 3 ∧
      (t.cell i).fault.cause = cause ∧ (t.cell i).fault.valid = true ∧ (t.cell i).fault.step = x.step ∧
      (t.cell i).fault.kind = k ∧ (t.cell i).comp.stat = c.comp.stat ∧ (t.cell i).comp.topk = c.comp.topk ∧
      (∀ y r, r < 64 → y ∉ arrayDest x w k → (t.cell i).comp.rowOf y r = c.comp.rowOf y r) ∧
      (t.cell i).scratch = c.scratch ∧ t.mem = s.mem
    let both := fun (mk : Bool → Instr) (k : Nat) => s.Ready k g w i p →
      let marked := c.comp.arrayMarked (arrayOp x w k) (taOf x w) (tbOf x w) (rowsOf w) (arrayDest x w k)
      (marked = true → faulted (mk bad) k 4) ∧ (marked = false → faulted (mk true) k 5)
    both (.mma g w) 0x31 ∧ both (.mmat g w) 0x32 ∧ both (.mdl2 g w) 0x33 ∧ both (.mdnip g w) 0x34 ∧
    both (.mdl1 g w) 0x35 ∧ both (.mdham g w) 0x36 ∧ both (.mdmax g w) 0x37 ∧ both (.mdmin g w) 0x38)

/-- R47, R95: with INT8 operands and no accumulation MMA writes, in INT32, the exact sum over k below KLEN of the products of
row r of TA and row j of the stationary buffer, limited to the range of INT32. -/
def Obligations.IntegerProductExact : Prop :=
  ∀ (s : State) (g i p : Nat) (w : StepWord) (r j : Nat) (t : State),
    let c := s.cell i
    s.Ready 0x31 g w i p → fmtaOf w = 8 → fmtbOf w = 8 → accOf w = false → r < rowsOf w → j < 64 →
      c.comp.arrayMarked (arrayOp c.cur w 0x31) (taOf c.cur w) (tbOf c.cur w) (rowsOf w) [tdOf c.cur w] = false →
      exec (.mma g w false) s = .next t →
      toSigned 32 ((t.cell i).elem 0 (tdOf c.cur w) r j) =
        satInt 32 (((List.range (max 1 (min 256 (imm32Of w)))).map fun k =>
          toSigned 8 (c.elem 8 (taOf c.cur w) r k) * toSigned 8 ((rowElems 8 256 (c.comp.statRow j)).getD k 0)).sum)

/-- R53 to R55, R71: TKINIT empties the state with its k and polarity; TKMERGE offers the scores of its rows with their ids, a NaN
being left out, or faults with POISON_CONSUMED on a marked row; TKTHR writes the k-th score or the fill score; TKREAD writes both
planes of every row, filled to k entries, where every extent may be written, faults with XLT_UNMAPPED or XLT_READ_ONLY at the lowest
address refused where one may not and with ALIGN where its address is not aligned, then writing nothing. -/
def Obligations.TopKSteps : Prop :=
  ∀ (s : State) (g i p : Nat) (w : StepWord),
    let c := s.cell i
    let x := c.cur
    let k := c.comp.topk
    let f := if fmtaOf w = 10 then 10 else 0
    let cols := if fld w 93 88 = 0 then 64 else fld w 93 88
    let id := fun r e => if flagOf w 5 then c.elem 0 (tbOf x w) r e else ((x.scalar (sbOf w)).toNat + e) % 2 ^ 32
    let fill := k.fill (fmtaOf w)
    let s1 := s.putCell i c.issued
    let a := addr57 (((x.scalar (saOf w)).toNat + imm32Of w) % 2 ^ 64)
    let at_ := fun o => addr57 (((x.scalar (saOf w)).toNat + (imm32Of w + o)) % 2 ^ 64) + (if localOf w then 2 ^ 63 else 0)
    let exts := (List.range 64).map (fun r => (at_ (1024 * r), r, false)) ++
      (List.range 64).map fun r => (at_ (65536 + 1024 * r), r, true)
    let bytes := fun (e : Nat × Nat × Bool) =>
      (k.filled (fmtaOf w) e.2.1).flatMap fun q => leBytes 4 (if e.2.2 then q.2 else q.1).toNat
    let faulted := fun (c' : Instr) (cause : Nat) (t : State) => exec c' s = .next t ∧ (t.cell i).st = 3 ∧
      (t.cell i).fault.valid = true ∧ (t.cell i).fault.cause = cause ∧ (t.cell i).comp = c.comp ∧
      (t.cell i).scratch = c.scratch ∧ (t.cell i).cur = c.issued.cur ∧ t.mem = s.mem
    (s.Ready 0x40 g w i p → exec (.tkinit g w) s = .next (s.putCell i { c.issued with comp := { c.comp with
      topk := ⟨max 1 (min 256 (imm16Of w)), flagOf w 6, List.replicate 64 []⟩ } })) ∧
    (s.Ready 0x41 g w i p → (∀ r < rowsOf w, c.comp.rowMarked (taOf x w) r = false) →
      (flagOf w 5 = true → ∀ r < rowsOf w, c.comp.rowMarked (tbOf x w) r = false) →
      ∃ t, exec (.tkmerge g w) s = .next t ∧ (t.cell i).comp.topk.k = k.k ∧ (t.cell i).comp.topk.keepMax = k.keepMax ∧
        (∀ r, (t.cell i).comp.topk.rows.getD r [] = if r < rowsOf w ∧ r < k.rows.length then
          ((List.range cols).map fun e => (c.elem 0 (taOf x w) r e, id r e)).foldl (fun l e =>
            if decodeVal f e.1 = .nan then l
            else (insertEntry k.keepMax f (BitVec.ofNat 32 e.1, BitVec.ofNat 32 e.2) l).take k.k) (k.rows.getD r [])
          else k.rows.getD r []) ∧
        t = s.putCell i { c.issued with comp := { c.comp with topk := (t.cell i).comp.topk } }) ∧
    (s.Ready 0x41 g w i p → (∃ r < rowsOf w, c.comp.rowMarked (taOf x w) r = true ∨
        flagOf w 5 = true ∧ c.comp.rowMarked (tbOf x w) r = true) → ∃ t, faulted (.tkmerge g w) 4 t) ∧
    (s.Ready 0x43 g w i p → exec (.tkthr g w) s = .next (s.putCell i (c.issued.withScalar (sdOf w)
      (((((k.rows.getD (fld w 85 80) [])[k.k - 1]?).map Prod.fst).getD fill).setWidth 64)))) ∧
    (s.Ready 0x42 g w i p → a % 16 = 0 → (∀ e ∈ exts, s1.wordRefused p e.1 (4 * k.k) = none) →
      exec (.tkread g w) s = .next (exts.foldl (fun u e => u.cellWrite i p e.1 (Data.clean (bytes e))) s1)) ∧
    (s.Ready 0x42 g w i p → a % 16 = 0 → (∃ e ∈ exts, s1.wordRefused p e.1 (4 * k.k) ≠ none) →
      ∃ t, faulted (.tkread g w) (if exts.any fun e => (s1.wordUnmapped p e.1 (4 * k.k)).isSome then 1 else 2) t ∧
        (∃ e ∈ exts, s1.wordRefused p e.1 (4 * k.k) = some (t.cell i).fault.addr) ∧
        ∀ e ∈ exts, ∀ v, s1.wordRefused p e.1 (4 * k.k) = some v → (t.cell i).fault.addr ≤ v) ∧
    (s.Ready 0x42 g w i p → a % 16 ≠ 0 → ∃ t, faulted (.tkread g w) 3 t ∧ (t.cell i).fault.addr = a) ∧
    (s.Ready 0x42 g w i p → localOf w = true → a % 16 = 0 → a + 131072 ≤ 0x400000 →
      (x.scalar (saOf w)).toNat + imm32Of w + 131072 ≤ 2 ^ 57 → k.k ≤ 256 →
      ∃ t, exec (.tkread g w) s = .next t ∧ (t.cell i).comp = c.comp ∧ (t.cell i).cur = c.issued.cur ∧
        (∀ r < 64, ∀ e < (k.filled (fmtaOf w) r).length, e < k.k → ∀ q, (k.filled (fmtaOf w) r)[e]? = some q →
          leNat ((t.cell i).scratch.read 64 (a + 1024 * r + 4 * e) 4).bytes = q.1.toNat ∧
          leNat ((t.cell i).scratch.read 64 (a + 65536 + 1024 * r + 4 * e) 4).bytes = q.2.toNat))

/-! ## The vector engine (R56, R57, R89, R90, R98 to R105) -/

/-- R98, R101, R102: VADD, VSUB, VMUL, VMAX, VMIN, VFMA, VAND, VOR, VXOR, VCMP and VSELM on unmarked sources write each element
of TD with the operation on the elements of the sources, rounded once to FP32 (INT32 for integers) and converted to FMTB.
R98, R99, R102: VABS to VSQRT on an unmarked source write each element of TD with the function of the element of TA. The
functions of R99 take integers as FP32 and are R99's free value within its bound. Every vector step of which a row of TA is marked faults with POISON_CONSUMED
(R71, R72) and changes no register but its destinations. -/
def Obligations.VectorElementwise : Prop :=
  (∀ (s : State) (g i p : Nat) (w : StepWord),
    let c := s.cell i
    let x := c.cur
    let fa := fmtaOf w
    let fb := fmtbOf w
    let td := tdOf x w
    let a := fun r e => c.val fa (taOf x w) r e
    let b := fun r e => c.val fa (tbOf x w) r e
    let d := fun r e => c.val fa (tcOf x w) r e
    let ac := fun r e => c.elem fa (taOf x w) r e
    let bc := fun r e => c.elem fa (tbOf x w) r e
    let put := fun v => encodeVal fb (if fmtIsInt fa then decodeVal 10 (encodeVal 10 v) else decodeVal 0 (encodeVal 0 v))
    let runs := fun (c' : Instr) (k : Nat) (f : Nat → Nat → Nat) => s.Ready k g w i p → c.clean (taOf x w) →
      c.clean (tbOf x w) → VectorWrites c' s i td fb (min (fmtCols fa) (fmtCols fb)) f
    runs (.vadd g w) 0x50 (fun r e => put ((a r e).add (b r e))) ∧
    runs (.vsub g w) 0x51 (fun r e => put ((a r e).sub (b r e))) ∧
    runs (.vmul g w) 0x52 (fun r e => put ((a r e).mul (b r e))) ∧
    runs (.vmax g w) 0x53 (fun r e => encodeVal fb (Val.pick true (a r e) (b r e))) ∧
    runs (.vmin g w) 0x54 (fun r e => encodeVal fb (Val.pick false (a r e) (b r e))) ∧
    (c.clean (tcOf x w) → runs (.vfma g w) 0x55 (fun r e => put (((a r e).mul (b r e)).add (d r e)))) ∧
    (fa = fb → runs (.vand g w) 0x56 (fun r e => (ac r e &&& bc r e) % 2 ^ fmtBits fb)) ∧
    (fa = fb → runs (.vor g w) 0x57 (fun r e => (ac r e ||| bc r e) % 2 ^ fmtBits fb)) ∧
    (fa = fb → runs (.vxor g w) 0x58 (fun r e => (ac r e ^^^ bc r e) % 2 ^ fmtBits fb)) ∧
    (fa ≠ fb → runs (.vand g w) 0x56 (fun r e => encodeVal fb (decodeVal fa (ac r e &&& bc r e)))) ∧
    (fa ≠ fb → runs (.vor g w) 0x57 (fun r e => encodeVal fb (decodeVal fa (ac r e ||| bc r e)))) ∧
    (fa ≠ fb → runs (.vxor g w) 0x58 (fun r e => encodeVal fb (decodeVal fa (ac r e ^^^ bc r e)))) ∧
    (modeOf w < 8 → runs (.vcmp g w) 0x59 (fun r e =>
      encodeVal fb (Val.ofInt (if condElem (modeOf w) fa (ac r e) (bc r e) then 1 else 0)))) ∧
    (c.clean (tcOf x w) → runs (.vselm g w) 0x5A (fun r e =>
      encodeVal fb (if d r e = .zero true ∨ d r e = .zero false then b r e else a r e)))) ∧
  (∀ (s : State) (g i p : Nat) (w : StepWord),
    let c := s.cell i
    let x := c.cur
    let fa := fmtaOf w
    let fb := fmtbOf w
    let a := fun r e => c.val fa (taOf x w) r e
    let put := fun v => encodeVal fb (if fmtIsInt fa then decodeVal 10 (encodeVal 10 v) else decodeVal 0 (encodeVal 0 v))
    let fp := fun v => if fmtIsInt fa then decodeVal 0 (encodeVal 0 v) else v
    let runs := fun (c' : Instr) (k : Nat) (f : Nat → Nat → Nat) => s.Ready k g w i p → c.clean (taOf x w) →
      VectorWrites c' s i (tdOf x w) fb (min (fmtCols fa) (fmtCols fb)) f
    let fn := fun (c' : Instr) (k : Nat) => runs c' k (fun r e => encodeVal fb (fn32 k (fp (a r e))))
    runs (.vabs g w) 0x60 (fun r e => put (a r e).abs) ∧
    runs (.vneg g w) 0x61 (fun r e => put (a r e).neg) ∧
    runs (.vrelu g w) 0x62 (fun r e => put (match (a r e).compare (.zero false) with
      | none => .nan
      | some k => if 0 < k then a r e else .zero false)) ∧
    fn (.vgelu g w) 0x63 ∧ fn (.vsilu g w) 0x64 ∧ fn (.vsigm g w) 0x65 ∧ fn (.vtanh g w) 0x66 ∧ fn (.vexp g w) 0x67 ∧
    fn (.vlog g w) 0x68 ∧ fn (.vrsqrt g w) 0x69 ∧ fn (.vrcp g w) 0x6A ∧ fn (.vsqrt g w) 0x6B ∧
    ∀ e ∈ [(0x50, .vadd g w), (0x51, .vsub g w), (0x52, .vmul g w), (0x53, .vmax g w), (0x54, .vmin g w), (0x55, .vfma g w),
        (0x56, .vand g w), (0x57, .vor g w), (0x58, .vxor g w), (0x59, .vcmp g w), (0x5A, .vselm g w), (0x60, .vabs g w),
        (0x61, .vneg g w), (0x62, .vrelu g w), (0x63, .vgelu g w), (0x64, .vsilu g w), (0x65, .vsigm g w), (0x66, .vtanh g w),
        (0x67, .vexp g w), (0x68, .vlog g w), (0x69, .vrsqrt g w), (0x6A, .vrcp g w), (0x6B, .vsqrt g w), (0x70, .vrsum g w),
        (0x71, .vcsum g w), (0x72, .vrmax g w), (0x73, .vcmax g w), (0x74, .vlnorm g w), (0x75, .vrmsn g w), (0x76, .vsmax g w),
        (0x77, .vbcast g w), (0x78, .vcvt g w), (0x79, .vqgrp g w), (0x7A, .vdqgrp g w)],
      s.Ready e.1 g w i p → (∃ r < 64, c.comp.rowMarked (taOf x w) r = true) → ∃ t, exec e.2 s = .next t ∧ (t.cell i).st = 3 ∧
        (t.cell i).fault.valid = true ∧ (t.cell i).fault.cause = 4 ∧ (t.cell i).fault.kind = e.1 ∧
        (∀ k r, r < 64 → k ≠ tdOf x w → k ≠ tbOf x w → (t.cell i).comp.rowOf k r = c.comp.rowOf k r) ∧
        (t.cell i).scratch = c.scratch ∧ t.mem = s.mem)

/-- R57, R69, R88, R100, R101: VRSUM and VRMAX reduce each row into column 0, VCSUM and VCMAX each column into row 0, the rest
of TD being 0; VLNORM, VRMSN and VSMAX map whole rows; VBCAST combines with row 0 or column 0 of TB.
R57, R85, R89, R103 to R105: VCVT, VQGRP and VDQGRP write the segment of TD that SEG selects, each element converted (R89; a NaN becomes the canonical one), scaled
by the shared scale of its group, whose bytes VQGRP writes into TB, or multiplied by its group's scale; the other columns of TD
stay. To FP32 or an integer format VQGRP is VCVT (R104). -/
def Obligations.VectorRows : Prop :=
  (∀ (s : State) (g i p : Nat) (w : StepWord),
    let c := s.cell i
    let x := c.cur
    let fa := fmtaOf w
    let fb := fmtbOf w
    let td := tdOf x w
    let n := min (fmtCols fa) (fmtCols fb)
    let a := fun r e => c.val fa (taOf x w) r e
    let row := fun r => (List.range (fmtCols fa)).map (a r)
    let col := fun e => (List.range 64).map fun r => a r e
    let fp := fun v => if fmtIsInt fa then decodeVal 0 (encodeVal 0 v) else v
    let gain := (List.range (fmtCols fa)).map fun e => fp (c.val fa (tbOf x w) 0 e)
    let bias := (List.range (fmtCols fa)).map fun e => fp (c.val fa (tcOf x w) 0 e)
    let eps := decodeVal 0 ((x.scalar (saOf w)).toNat % 2 ^ 32)
    let runs := fun (c' : Instr) (k m : Nat) (f : Nat → Nat → Nat) => s.Ready k g w i p → c.clean (taOf x w) →
      VectorWrites c' s i td fb m f
    let whole := fun (f : List Val → List Val) r e => encodeVal fb ((f ((row r).map fp)).getD e (.zero false))
    runs (.vrsum g w) 0x70 1 (fun r _ => encodeVal fb (sumVals ((row r).map fp))) ∧
    runs (.vrmax g w) 0x72 1 (fun r _ => encodeVal fb (maxVals (row r))) ∧
    runs (.vcsum g w) 0x71 n (fun r e => if r = 0 then encodeVal fb (sumVals ((col e).map fp)) else 0) ∧
    runs (.vcmax g w) 0x73 n (fun r e => if r = 0 then encodeVal fb (maxVals (col e)) else 0) ∧
    (c.comp.rowMarked (tbOf x w) 0 = false → c.comp.rowMarked (tcOf x w) 0 = false →
      runs (.vlnorm g w) 0x74 n (whole (normRow eps gain bias))) ∧
    (c.comp.rowMarked (tbOf x w) 0 = false → runs (.vrmsn g w) 0x75 n (whole (rmsRow eps gain))) ∧
    runs (.vsmax g w) 0x76 n (whole softmaxRow) ∧
    ((∀ r < 64, flagOf w 0 = true ∨ r = 0 → c.comp.rowMarked (tbOf x w) r = false) → runs (.vbcast g w) 0x77 n (fun r e =>
      let u := a r e
      let v := c.val fa (tbOf x w) (if flagOf w 0 then r else 0) (if flagOf w 0 then 0 else e)
      let rnd := fun v => if fmtIsInt fa then decodeVal 10 (encodeVal 10 v) else decodeVal 0 (encodeVal 0 v)
      encodeVal fb (match modeOf w with
        | 1 => rnd (u.sub v) | 2 => rnd (u.mul v) | 3 => Val.pick true u v | _ => rnd (u.add v))))) ∧
  (∀ (s : State) (g i p : Nat) (w : StepWord),
    let c := s.cell i
    let x := c.cur
    let fa := fmtaOf w
    let fb := fmtbOf w
    let td := tdOf x w
    let tb := tbOf x w
    let ks := fmtCols fa
    let kd := fmtCols fb
    let lo := if kd < ks then min (imm16Of w) (ks / kd - 1) * kd else 0
    let n := if kd < ks then kd else ks
    let at_ := if kd < ks then 0 else min (imm16Of w) (kd / ks - 1) * ks
    let code := fun r e => c.elem fa (taOf x w) r (lo + e)
    let conv := fun r e => if fa = fb ∧ decodeVal fa (code r e) ≠ .nan then code r e % 2 ^ fmtBits fb
      else encodeVal fb (decodeVal fa (code r e))
    let members := fun r gi => ((List.range n).filter fun e => (at_ + e) / groupOf w = gi).map fun e => decodeVal fa (code r e)
    let scale := fun r e => byteAt (c.comp.row tb r) ((lo + e) / groupOf w)
    (s.Ready 0x78 g w i p → c.clean (taOf x w) → VectorPuts (.vcvt g w) s i td fb at_ n conv) ∧
    (s.Ready 0x79 g w i p → c.clean (taOf x w) → fb = 0 ∨ fmtIsInt fb = true →
      VectorPuts (.vqgrp g w) s i td fb at_ n conv) ∧
    (s.Ready 0x79 g w i p → c.clean (taOf x w) → fb ≠ 0 → fmtIsInt fb = false → td ≠ tb →
      ∃ t md, exec (.vqgrp g w) s = .next t ∧ (md = 2 ∨ md = 3) ∧ (modeOf w = 2 ∨ modeOf w = 3 → md = modeOf w) ∧
        (∀ r < 64, ∀ e < n, (t.cell i).elem fb td r (at_ + e) =
          encodeVal fb ((quantGroup md fb (members r ((at_ + e) / groupOf w))).2.getD
            (min e ((at_ + e) % groupOf w)) .nan) % 2 ^ fmtWidth fb) ∧
        (∀ r < 64, ∀ e < kd, ¬ (at_ ≤ e ∧ e < at_ + n) → (t.cell i).elem fb td r e = c.elem fb td r e) ∧
        (∀ r < 64, ∀ e < n, (at_ + e) / groupOf w < 256 → byteAt ((t.cell i).comp.row tb r) ((at_ + e) / groupOf w) =
          (quantGroup md fb (members r ((at_ + e) / groupOf w))).1 % 256) ∧
        (∀ k r, r < 64 → k ≠ td → k ≠ tb → (t.cell i).comp.rowOf k r = c.comp.rowOf k r) ∧
        (t.cell i).comp.stat = c.comp.stat ∧ (t.cell i).comp.topk = c.comp.topk ∧ t.mem = s.mem) ∧
    (s.Ready 0x79 g w i p → c.clean (taOf x w) → td = tb → ∃ t, exec (.vqgrp g w) s = .next t ∧ (t.cell i).st = 1 ∧
      (∀ k r, r < 64 → k ≠ td → (t.cell i).comp.rowOf k r = c.comp.rowOf k r)) ∧
    (s.Ready 0x7A g w i p → c.clean (taOf x w) → c.clean tb → modeOf w = 2 →
      VectorPuts (.vdqgrp g w) s i td fb at_ n fun r e =>
        encodeVal fb ((decodeVal fa (code r e)).mul (e8m0 (scale r e)))) ∧
    (s.Ready 0x7A g w i p → c.clean (taOf x w) → c.clean tb → modeOf w = 3 →
      VectorPuts (.vdqgrp g w) s i td fb at_ n fun r e =>
        encodeVal fb ((decodeVal fa (code r e)).mul (e4m3Scale (scale r e)))) ∧
    (s.Ready 0x7A g w i p → c.clean (taOf x w) → c.clean tb → ∃ t, exec (.vdqgrp g w) s = .next t ∧ (t.cell i).st = 1 ∧
      (∀ k r, r < 64 → k ≠ td → (t.cell i).comp.rowOf k r = c.comp.rowOf k r)))

/-! ## Asynchronous steps and what happens to a cell from outside (R62 to R66, R72, R107, R169 to R193, R334) -/

/-- R59, R66, R107, R118, R179, R251, R334, R463: GATH, RADD and RWR hand a request with the scratchpad as it stands to the front end
of the cell's die; a tile register that its header names holds free bytes from then on. RSTORE moves its bytes, a final one after the
DEVICE release of what earlier ones wrote, counts them at the port and posts its completion; it faults where its source or its
destination alone is misaligned or refused. HLD and HST open a transfer whose extents lie in the scratchpad and the window, fault
beyond the scratchpad and complete with WINDOW outside it. -/
def Obligations.RemoteSteps : Prop :=
  ∀ (s : State) (g i p : Nat) (w : StepWord),
    let c := s.cell i
    let x := c.cur
    let s1 := s.putCell i c.issued
    let a := x.scalar (saOf w)
    let b := x.scalar (sbOf w)
    let word := addr57 a.toNat + (if localOf w then 2 ^ 63 else 0)
    let dst := addr57 b.toNat
    let faults := fun (c' : Instr) (cause v : Nat) => ∃ t, exec c' s = .next t ∧ (t.cell i).st = 3 ∧
      (t.cell i).fault.cause = cause ∧ (t.cell i).fault.valid = true ∧ (t.cell i).fault.addr = v ∧
      (t.cell i).comp = c.comp ∧ (t.cell i).scratch = c.scratch ∧ t.mem = s.mem ∧ t.tokens = s.tokens
    let asked := fun (c' : Instr) (op : Nat) =>
      let r : Request :=
        { id := s.nextId, g, cls := c.cls, q := qOf w, op, addr := word, part := p, reply := none, mirror := none
          view := x.viewStamp, snap := c.scratch, words := [], idx := [], bags := [], rows := [], bad := 0 }
      let s2 := { s.putCell i { c.issued with open_ := c.open_ ++ [⟨s.nextId, 0x7F + op, qOf w, c.cls, 0, 0, 0, [], 0⟩] } with
        dies := s.dies.modify (i / 40) fun d => { d with queue := d.queue ++ [r] }, nextId := s.nextId + 1 }
      (s2.tileAsked (i / 40) r = none → exec c' s = .next s2) ∧
      (∀ td, s2.tileAsked (i / 40) r = some td → ∃ t junk, exec c' s = .next t ∧
        t = { s2.putCell i { s2.cell i with comp := (t.cell i).comp } with drawn := t.drawn } ∧
        (t.cell i).comp.lands = c.comp.lands ++ [⟨s.nextId, td, c.comp.tile td, junk, []⟩] ∧
        ∀ k r, r < 64 → k ≠ td → (t.cell i).comp.rowOf k r = c.comp.rowOf k r)
    let n := max 16 (min 65536 (imm32Of w / 16 * 16))
    let m := max 64 (min 4096 (imm32Of w / 64 * 64))
    let opened := fun (c' : Instr) (k src dst : Nat) (d : List (Byte × Bool)) => exec c' s =
      .next { s.putCell i { c.issued with open_ := c.open_ ++ [⟨s.nextId, k, qOf w, c.cls, src, dst, m, d, s.now .host⟩] } with
        nextId := s.nextId + 1 }
    let turned := fun (c' : Instr) => exec c' s = .next { s.putCell i c.issued with
        tokens := s.tokens ++ [(g, qOf w, c.cls, ⟨0x01000000, .cell g, true, none, none⟩)] }
    (s.Ready 0x80 g w i p → asked (.gath g w) 1) ∧
    (s.Ready 0x81 g w i p → asked (.radd g w) 2) ∧
    (s.Ready 0x82 g w i p → asked (.rwr g w) 3) ∧
    (s.Ready 0x86 g w i p → addr57 a.toNat % 16 = 0 → dst % 16 = 0 → s1.wordUnmapped p word n = none →
      s1.unmapped p dst n = none → s1.readOnly p dst n = none →
      let kind := s1.blockKind i i p false { parseEntry 0 [] with src := word, dst, len := n }
      let u := s1.wordRead (.cell g) i p word n
      let v := (if flagOf w 0 then c.rstored.foldl State.drainStack u.2 else u.2).vwrite (.cell g) p dst u.1
      ∃ t, exec (.rstore g w) s = .next t ∧ (t.cell i).st = 1 ∧ (t.cell i).cur = c.issued.cur ∧ (t.cell i).comp = c.comp ∧
        t.mem = v.mem ∧ t.engines = v.engines ∧ (∀ j, (t.cell j).scratch = (v.cell j).scratch) ∧
        (t.cell i).port = ((s1.portBytes i c.cls kind n (markedGranules (addr57 a.toNat) u.1)).cell i).port ∧
        (t.cell i).rstored = (c.rstored ++ s1.vstacks p dst n).dedup ∧
        t.tokens = s.tokens ++ [(g, qOf w, c.cls, ⟨0, .cell g, true, none, none⟩)]) ∧
    (s.Ready 0x86 g w i p → addr57 a.toNat % 16 ≠ 0 → dst % 16 = 0 → faults (.rstore g w) 3 (addr57 a.toNat)) ∧
    (s.Ready 0x86 g w i p → addr57 a.toNat % 16 = 0 → dst % 16 ≠ 0 → faults (.rstore g w) 3 dst) ∧
    (s.Ready 0x86 g w i p → addr57 a.toNat % 16 = 0 → dst % 16 = 0 → s1.unmapped p dst n = none → s1.readOnly p dst n = none →
      ∀ v, s1.wordUnmapped p word n = some v → faults (.rstore g w) 1 v) ∧
    (s.Ready 0x86 g w i p → addr57 a.toNat % 16 = 0 → dst % 16 = 0 → s1.wordUnmapped p word n = none → s1.readOnly p dst n = none →
      ∀ v, s1.unmapped p dst n = some v → faults (.rstore g w) 1 v) ∧
    (s.Ready 0x86 g w i p → addr57 a.toNat % 16 = 0 → dst % 16 = 0 → s1.wordUnmapped p word n = none → s1.unmapped p dst n = none →
      ∀ v, s1.readOnly p dst n = some v → faults (.rstore g w) 2 v) ∧
    (s.Ready 0x90 g w i p → addr57 a.toNat + m ≤ 0x400000 →
      (s.inWindow g b.toNat m = true → opened (.hld g w) 0x90 b.toNat (addr57 a.toNat) []) ∧
      (s.inWindow g b.toNat m = false → turned (.hld g w))) ∧
    (s.Ready 0x91 g w i p → addr57 a.toNat + m ≤ 0x400000 →
      (s.inWindow g b.toNat m = true → opened (.hst g w) 0x91 (addr57 a.toNat) b.toNat (c.scratch.read 64 (addr57 a.toNat) m)) ∧
      (s.inWindow g b.toNat m = false → turned (.hst g w))) ∧
    (s.Ready 0x90 g w i p → 0x400000 < addr57 a.toNat + m → faults (.hld g w) 1 (max (addr57 a.toNat) 0x400000)) ∧
    (s.Ready 0x91 g w i p → 0x400000 < addr57 a.toNat + m → faults (.hst g w) 1 (max (addr57 a.toNat) 0x400000))

/-- R169, R173, R178, R186: SSTART on an idle slot starts the stream there and waits on one that runs; SSTOP on an idle slot
posts its completion at once and on a running one stops it; CHFWD by a cell outside the chain does nothing, waits on a slot that runs,
and on an idle one completes at once with BAD_ENTRY (1), XLT_UNMAPPED (2) or LIST_POISONED (4) or joins with a legal slice descriptor. -/
def Obligations.StreamSteps : Prop :=
  ∀ (s : State) (g i p : Nat) (w : StepWord),
    let c := s.cell i
    let n := imm16Of w
    let x := s.slot i n
    let word := addr57 (c.cur.scalar (saOf w)).toNat + (if localOf w then 2 ^ 63 else 0)
    (s.Ready 0x83 g w i p → n < c.port.slots.length → x.st = 0 → ∃ t, exec (.sstart g w) s = .next t ∧
      (t.cell i).st = 1 ∧ (t.cell i).comp = c.comp ∧ (t.slot i n).st = 1 ∧ (t.slot i n).list = word ∧
      (t.slot i n).entry = word ∧ (t.slot i n).next = 0 ∧ (t.slot i n).blocks = [] ∧
      (t.slot i n).cls = c.cls ∧ (t.slot i n).q = qOf w ∧
      (∃ o ∈ (t.cell i).open_, o.kind = 0x83 ∧ o.src = n ∧ o.q = qOf w) ∧ t.tokens = s.tokens ∧ t.mem = s.mem) ∧
    (s.Ready 0x83 g w i p → x.st ≠ 0 → exec (.sstart g w) s =
      .next (s.putCell i { c.issued with st := 2, held := some ⟨w, s.now (.cell i), none⟩ })) ∧
    (s.Ready 0x84 g w i p → x.st = 0 → exec (.sstop g w) s = .next { s.putCell i c.issued with
      tokens := s.tokens ++ [(g, qOf w, c.cls, ⟨0, .cell g, true, none, none⟩)] }) ∧
    (s.Ready 0x84 g w i p → n < c.port.slots.length → x.st ≠ 0 → (∃ b ∈ x.blocks, b.paid = true) ∨ x.owed ≠ [] →
      ∃ t, exec (.sstop g w) s = .next t ∧ (t.slot i n).st = 3 ∧ (t.slot i n).blocks = x.blocks.filter (·.paid) ∧
        (t.slot i n).stopQs = x.stopQs ++ [qOf w] ∧ (t.cell i).st = 1 ∧ t.tokens = s.tokens ∧
        (∃ o ∈ (t.cell i).open_, o.kind = 0x84 ∧ o.src = n)) ∧
    (s.Ready 0x84 g w i p → n < c.port.slots.length → x.st ≠ 0 → (∀ b ∈ x.blocks, b.paid = false) → x.owed = [] →
      ∃ t v, exec (.sstop g w) s = .next t ∧ (t.slot i n).st = 0 ∧ (t.cell i).st = 1 ∧ v < 2 ^ 24 ∧
        (g, qOf w, x.cls, ⟨BitVec.ofNat 32 v, .cell g, true, none, none⟩) ∈ t.tokens) ∧
    (s.Ready 0x85 g w i p → s.chainMember i n = none → exec (.chfwd g w) s = .next (s.putCell i c.issued)) ∧
    (s.Ready 0x85 g w i p → ∀ u m, s.chainMember i n = some (u, m) → (s.slot i m).st ≠ 0 → exec (.chfwd g w) s =
      .next (s.putCell i { c.issued with st := 2, held := some ⟨w, s.now (.cell i), none⟩ })) ∧
    (s.Ready 0x85 g w i p → ∀ u m, s.chainMember i n = some (u, m) → m < c.port.slots.length → (s.slot i m).st = 0 →
      let s1 := s.putCell i c.issued
      let d := (s1.wordRead (.cell g) i p word 32).1
      let b := d.bytes
      let total := bits (wordAt b 1) 31 0
      let keepOff := bits (wordAt b 1) 63 32
      let keepLen := bits (wordAt b 2) 31 0
      let fwdOff := bits (wordAt b 2) 63 32
      let keepDst := bits (wordAt b 3) 21 0
      let legal := 16 ≤ total ∧ total ≤ 67108864 ∧ total % 16 = 0 ∧ keepOff % 16 = 0 ∧ keepLen % 16 = 0 ∧
        keepOff + keepLen ≤ total ∧ fwdOff ≤ total ∧
        (keepLen = 0 ∨ keepDst + keepLen ≤ u.ringBase ∨ u.ringBase + 4096 * u.ringSlots ≤ keepDst) ∧
        keepDst + keepLen ≤ 0x400000 ∧ s1.wordUnmapped p (wordAt b 0) total = none ∧
        ((byteAt b 28).testBit 4 = true → (c.bound (byteAt b 28 % 16)).isSome = true)
      let fails := fun st => ∃ t, exec (.chfwd g w) s = .next t ∧ (t.slot i m).st = 0 ∧ (t.slot i m).lastStatus = st ∧
        (t.cell i).st = 1 ∧ t.tokens = s.tokens ++ [(g, qOf w, c.cls, ⟨BitVec.ofNat 32 (2 ^ 24 * st), .cell g, true, none, none⟩)]
      (addr57 word % 32 ≠ 0 → fails 1) ∧
      (addr57 word % 32 = 0 → s1.wordUnmapped p word 32 ≠ none → fails 2) ∧
      (addr57 word % 32 = 0 → s1.wordUnmapped p word 32 = none →
        (d.marked = true → fails 4) ∧ (d.marked = false → ¬ legal → fails 1) ∧
        (d.marked = false → legal → ∃ t, exec (.chfwd g w) s = .next t ∧ (t.cell i).st = 1 ∧
          (keepLen ≠ 0 → fwdOff < total → (s.slot i m).nothing = false →
            (t.slot i m).st = 1 ∧ (∃ r, (t.slot i m).chain = some r ∧ r.src = wordAt b 0 ∧ r.total = total ∧
              r.keepOff = keepOff ∧ r.keepLen = keepLen ∧ r.fwdOff = fwdOff ∧ r.keepDst = keepDst ∧ r.q = qOf w ∧ r.expect = 0) ∧
            (∃ o ∈ (t.cell i).open_, o.kind = 0x85 ∧ o.src = m ∧ o.q = qOf w) ∧
            (s.feeder g m = none → (g, m) ∉ s.chainNext u g m → (t.cell i).scratch = c.scratch)))))

/-- R62 to R64, R66, R72, R79, R192, R255, R256, R306: a token on its way enters its queue, meets an owed discard or, at a full queue,
faults a running job with QUEUE_OVERFLOW; a credit enters its counter; what the cell waits for then goes on. A timeout pops what came,
writes SD, notes what is owed and with FLAGS[0] faults; JOB_ENDED frees a faulted cell; FREEZE, CLEAR and VALID act on the cell's
counters and fault register alone. -/
def Obligations.CellEvents : Prop :=
  ∀ (s : State) (g i n : Nat),
    let c := s.cell i
    (c.held = none → s.wake i = s) ∧
    (∀ q k v, s.posOf g = some i → s.arriving g n = some (g, q, k, v) →
      let x := c.ctx k
      let full := min 64 (x.queue q).depth ≤ (x.queue q).toks.length
      let s1 := { s with tokens := s.tokens.erase (g, q, k, v) }
      ((x.queue q).owed = 0 → (∀ m ∈ x.owedAny, m.toNat.testBit q = false) → ¬ full →
        exec (.tokenArrival g n) s =
          .next ((s1.putCell i (c.setCtx k (x.modQueue q fun u => { u with toks := u.toks ++ [v] }))).wake i)) ∧
      ((x.queue q).owed = 0 → (∀ m ∈ x.owedAny, m.toNat.testBit q = false) → full → c.job.isSome = true → c.cls = k →
        ∃ t, exec (.tokenArrival g n) s = .next t ∧ (t.cell i).st = 3 ∧ (t.cell i).fault.valid = true ∧
          (t.cell i).fault.cause = 6 ∧ (t.cell i).fault.info = q ∧ (t.cell i).ctx k = x ∧ t.tokens = s1.tokens) ∧
      ((x.queue q).owed = 0 → (∀ m ∈ x.owedAny, m.toNat.testBit q = false) → full → c.job.isSome = false ∨ c.cls ≠ k →
        exec (.tokenArrival g n) s = .next ((s1.putCell i (c.setCtx k { x with heldOverflow := some q })).wake i)) ∧
      (c.held = none → (x.queue q).owed ≠ 0 → ∃ t, exec (.tokenArrival g n) s = .next t ∧
        (t.cell i).ctx k = x.modQueue q (fun u => { u with owed := u.owed - 1 }) ∧
        (c.freeze = false → (t.cell i).cnt.late = c.cnt.late + 1) ∧ t.tokens = s1.tokens ∧
        t.credits = s.credits ++ v.credit.toList) ∧
      (c.held = none → (x.queue q).owed = 0 → ∀ j m, x.owedAny[j]? = some m → m.toNat.testBit q = true →
        (∀ j' < j, ∀ m', x.owedAny[j']? = some m' → m'.toNat.testBit q = false) →
        ∃ t, exec (.tokenArrival g n) s = .next t ∧ (t.cell i).ctx k = { x with owedAny := x.owedAny.eraseIdx j } ∧
          (c.freeze = false → (t.cell i).cnt.late = c.cnt.late + 1) ∧ t.tokens = s1.tokens ∧
          t.credits = s.credits ++ v.credit.toList)) ∧
    (∀ k cr, s.posOf g = some i → (s.credits.filter fun r => match r with
        | .counter g' _ _ => g' == g | _ => false)[n]? = some (.counter g k cr) → c.st ≠ 8 →
      exec (.creditReturn g n) s = .next (({ s.putCell i (c.setCtx k { c.ctx k with
        credits := (c.ctx k).credits.modify cr fun v => min 64 (v + 1) }) with
        credits := s.credits.erase (.counter g k cr) }.wake i).resumeStreams i)) ∧
    (∀ h dl, s.posOf g = some i → c.st = 2 → c.held = some h → h.deadline = some dl →
      let x := c.cur
      let q := qOf h.w
      let toks := (x.queue q).toks
      let popped := (x.modQueue q fun u => { u with toks := [], popped := u.popped ++ u.toks.map Token.credit }).setScalar (sdOf h.w)
        (BitVec.ofNat 64 (2 ^ 63 + toks.length))
      let owes := popped.modQueue q fun u => { u with owed := u.owed + (max 1 (min 64 (imm16Of h.w)) - toks.length) }
      let owesAny : Ctx := { x.setScalar (sdOf h.w) (BitVec.ofNat 64 (2 ^ 63)) with
        owedAny := x.owedAny ++ [BitVec.ofNat 16 (imm16Of h.w)] }
      let ended := fun (st cause : Nat) (y : Ctx) => ∃ t, exec (.timeoutEdge g) s = .next t ∧ (t.cell i).st = st ∧
        (t.cell i).held = none ∧ (t.cell i).cur = y ∧ (st = 3 → (t.cell i).fault.valid = true ∧ (t.cell i).fault.cause = cause) ∧
        (c.freeze = false → (t.cell i).cnt.timeouts = c.cnt.timeouts + 1) ∧ (t.cell i).job = c.job ∧
        (t.cell i).scratch = c.scratch
      (s.now (.cell i) < dl → exec (.timeoutEdge g) s = .next s) ∧
      (dl ≤ s.now (.cell i) →
        (kindOf h.w = 3 → (∀ u ∈ toks, u.status = 0) → flagOf h.w 0 = false → ended 1 0 owes) ∧
        (kindOf h.w = 3 → (∀ u ∈ toks, u.status = 0) → flagOf h.w 0 = true → ended 3 7 owes) ∧
        (kindOf h.w = 3 → (∀ u ∈ toks, u.engine = none) → (∃ u ∈ toks, u.status ≠ 0) → flagOf h.w 0 = false → ended 3 8 owes) ∧
        (kindOf h.w = 4 → flagOf h.w 0 = false → ended 1 0 owesAny) ∧
        (kindOf h.w = 4 → flagOf h.w 0 = true → ended 3 7 owesAny))) ∧
    (∀ j, s.posOf g = some i → c.st = 3 → c.job = some j →
      ∃ t, exec (.jobEnded g) s = .next t ∧ (t.cell i).st = (if c.pend.drain = true ∧ c.susp = none then 4 else 0) ∧
        (t.cell i).job = none ∧ (t.cell i).comp = .fresh ∧
        (t.cell i).scratch = c.scratch ∧ (t.cell i).fault = c.fault ∧
        t = { s.putCell i (t.cell i) with
          batches := modWhere s.batches (fun b => b.handle == j.handle) (·.jobEnded g 1 c.fault.cause), cmp := t.cmp } ∧
        ((∀ x ∈ c.port.slots, x.blocks = []) → t.cmp = s.cmp)) ∧
    (s.posOf g = some i → c.st ≠ 3 → exec (.jobEnded g) s = .next s) ∧
    (s.posOf g = some i → c.st = 3 → c.job = none → exec (.jobEnded g) s = .next (s.putCell i { c with st := 0 })) ∧
    (i < s.cells.length → ∀ b, exec (.cellCntFreeze i b) s =
      .next (s.putCell i { c.waited (s.now (.cell i)) with freeze := b })) ∧
    (i < s.cells.length → exec (.cellFaultValidClear i) s =
      .next (s.putCell i { c with fault := { c.fault with valid := false } })) ∧
    (i < s.cells.length → ∃ t, exec (.cellCntClear i) s = .next t ∧ (t.cell i).cnt = ⟨0, 0, 0, 0, 0, 0⟩ ∧
      (t.cell i).port.cntRead = 0 ∧ (t.cell i).port.cntWrite = 0 ∧ (t.cell i).port.cntRemote = 0 ∧
      (t.cell i).port.cntPoison = 0 ∧ (∀ x ∈ (t.cell i).port.slots, x.cntBytes = 0 ∧ x.cntBlocks = 0 ∧ x.cntReread = 0 ∧
        x.cntDrops = 0 ∧ x.cntSkips = 0) ∧
      t = s.putCell i { c.waited (s.now (.cell i)) with cnt := (t.cell i).cnt, port := (t.cell i).port })
/-- R171 to R175, R180, R182, R183, R185, R187 to R189: a stream takes a legal entry as its newest block, follows LINK and WRAP and
ends with the status of an entry that fails a check; a block that may land moves its bytes; credits of multicast receivers and of
rings come back; a receiver in default of LAG_TIME is dropped with a skip marker naming the first block it did not receive, which
starts its catch-up there; a member copies the chunk in its ring into its slice and sends it on into the ring of its successor; a
cell cycle fills the buckets, from which a block's bursts move. -/
def Obligations.StreamEvents : Prop :=
  ∀ (s : State) (g n i p : Nat),
    let c := s.cell i
    let x := s.slot i n
    s.posOf g = some i → c.part = some p → n < c.port.slots.length →
    (x.st = 1 → x.ending = none → x.chain = none → x.catchup = none → x.blocks.length < 8 → (∀ b ∈ x.blocks, b.paid = true) →
      (∀ b l, x.blocks = b :: l → (x.next + 2 ^ 24 - b.no) % 2 ^ 24 ≤ 16) →
      let d := (s.wordRead (.cell g) i p x.entry 32).1
      let b := parseEntry (x.next % 2 ^ 24) d.bytes
      let ends := fun st => x.blocks = [] → x.owed = [] → c.held = none → ∃ t, exec (.entryFetched g n) s = .next t ∧
        (t.slot i n).st = 0 ∧ (t.slot i n).lastStatus = st ∧
        t.tokens = s.tokens ++ [(g, x.q, x.cls, ⟨BitVec.ofNat 32 (2 ^ 24 * st + x.next % 2 ^ 24), .cell g, true, none, none⟩)]
      (addr57 x.entry % 32 ≠ 0 → ends 1) ∧
      (addr57 x.entry % 32 = 0 → s.wordUnmapped p x.entry 32 ≠ none → ends 2) ∧
      (addr57 x.entry % 32 = 0 → s.wordUnmapped p x.entry 32 = none →
        (d.marked = true → ends 4) ∧
        (d.marked = false → s.checkEntry i p i x.recvs b ≠ 0 → ends (s.checkEntry i p i x.recvs b)) ∧
        (d.marked = false → s.checkEntry i p i x.recvs b = 0 →
          (b.link = false → b.wrap = false → ∃ t, exec (.entryFetched g n) s = .next t ∧
            (t.slot i n).blocks.map (·.no) = x.blocks.map (·.no) ++ [x.next % 2 ^ 24] ∧
            (t.slot i n).next = (x.next + 1) % 2 ^ 24 ∧ (t.slot i n).entry = wordPlus x.entry 32 ∧
            (t.slot i n).ending = (if b.last then some 0 else none) ∧ t.tokens = s.tokens) ∧
          (b.link = true → ∃ t, exec (.entryFetched g n) s = .next t ∧ (t.slot i n).blocks = x.blocks ∧
            (t.slot i n).next = (x.next + 1) % 2 ^ 24 ∧ (t.slot i n).entry = wordAt d.bytes 0) ∧
          (b.wrap = true → ∃ t, exec (.entryFetched g n) s = .next t ∧ (t.slot i n).blocks = x.blocks ∧
            (t.slot i n).next = (x.next + 1) % 2 ^ 24 ∧ (t.slot i n).entry = x.list)))) ∧
    (∀ b, x.blocks.find? (fun y => y.no == b.no) = some b → x.mayLand b = true → x.st = 1 → b.mcast = false →
      b.decomp = false → b.comp = false → x.catchup = none → c.held = none →
      let s1 := (if b.final then x.written.foldl State.drainStack s else s)
      let s2 := { s1 with ranges := b.rngs ++ s.ranges }
      let u := s2.wordRead (.cell g) i p b.src b.len
      let v := u.2.wordWrite (.cell g) i p b.dst u.1
      u.1.bytes = b.snap →
      ∃ t, exec (.blockLanded g n b.no) s = .next t ∧ t.mem = v.mem ∧ t.engines = v.engines ∧
        (∀ j, (t.cell j).scratch = (v.cell j).scratch) ∧
        (∀ y ∈ (t.slot i n).blocks, y.no = b.no → y.landed = true) ∧ (t.cell i).comp = c.comp) ∧
    (∀ k r, .mcast g n k ∈ s.credits → x.recvs[k]? = some r →
      (r.dropped = false ∧ x.owes r = [] ∧ c.held = none) ∨
        (r.dropped = true ∧ ∀ j, s.posOf r.g = some j → (s.slot j r.slot).st ≠ 4) →
      ∃ t, exec (.mcastCredit g n k) s = .next t ∧ t.credits = s.credits.erase (.mcast g n k) ∧
        ((t.slot i n).recvs[k]?).map (·.credits) = some (min r.depth (r.credits + 1))) ∧
    (∀ k r t0 j, x.chain = none → x.recvs[k]? = some r → r.owedSince = some t0 → x.st ≠ 0 →
      t0 + 1000 * (s.groupLag i n).2 ≤ s.now (.cell i) → s.posOf r.g = some j → r.slot < (s.cell j).port.slots.length →
      c.held = none → (j, r.slot) ≠ (i, n) →
      ∃ t, exec (.lagTimeExpiry g n k) s = .next t ∧ (((t.slot i n).recvs[k]?).map (·.dropped)) = some true ∧
        (t.slot j r.slot).skips = (s.slot j r.slot).skips ++
          [match x.owes r with
            | b :: _ => ⟨true, b.no, x.number, false, x.list, g, n, b.at_⟩
            | [] => ⟨true, r.next, x.number, false, x.list, g, n, x.entry⟩]) ∧
    (∀ k l, x.skips = k :: l → k.chain = false → x.st = 0 → ∃ t, exec (.skipMarker g n) s = .next t ∧
      (t.slot i n).st = 4 ∧ (t.slot i n).catchup = some k ∧ (t.slot i n).skips = l ∧ (t.slot i n).next = k.first ∧
      (t.slot i n).blocks = [] ∧ (t.slot i n).entry = k.entry ∧
      (c.freeze = false → (t.slot i n).cntSkips = x.cntSkips + 1) ∧ (t.slot i n).lastSkip ≠ 0) ∧
    (∀ k l r, x.skips = k :: l → k.chain = true → x.chain = some r → x.ring = [] → x.st = 1 → c.held = none →
      (r.skipTo k.first).finished = false → ∃ t, exec (.skipMarker g n) s = .next t ∧
      (t.slot i n).st = 4 ∧ (t.slot i n).catchup = some k ∧ (t.slot i n).skips = l ∧
      (t.slot i n).chain = some (r.skipTo k.first) ∧ (t.slot i n).lastSkip ≠ 0) ∧
    (∀ h l r, x.ring = h :: l → x.chain = some r → r.expect ≤ h.no → c.held = none →
      s.portOpen i x.cls 2 = true ∨ (∀ e ∈ r.edges, e.dropped = true ∨ h.no < e.next) →
      let lo := max (4096 * h.no) r.keepOff
      let hi := min (4096 * h.no + h.len) (r.keepOff + r.keepLen)
      let d := c.scratch.read 64 h.at_ h.len
      let copied := if lo < hi then
        c.scratch.write 64 (r.keepDst + (lo - r.keepOff)) ((d.drop (lo - 4096 * h.no)).take (hi - lo)) else c.scratch
      (∃ t, exec (.chunkArrival g n) s = .next t ∧ (∃ m, (t.slot i n).ring = l ++ m) ∧
        (∀ r', (t.slot i n).chain = some r' → r'.expect = h.no + 1) ∧ (r.edges = [] → (t.cell i).scratch = copied)) ∧
      (∀ e j u, r.edges = [e] → e.dropped = false → 0 < e.credits → e.next = h.no → 4096 * h.no < h.total →
        s.posOf e.g = some j → j ≠ i → e.slot < (s.cell j).port.slots.length → s.chainOf e.g e.slot = some u →
        let at_ := u.ringBase + 4096 * ((s.slot j e.slot).ringPos % u.ringSlots)
        ∃ t, exec (.chunkArrival g n) s = .next t ∧ (t.cell i).scratch = copied ∧
          (t.slot j e.slot).ring = (s.slot j e.slot).ring ++ [⟨h.no, h.total, h.head, h.src, h.len, at_⟩] ∧
          (t.cell j).scratch = (s.cell j).scratch.write 64 at_ d)) ∧
    (∀ h l r, x.ring = h :: l → x.chain = some r → h.no < r.expect → ∃ t, exec (.chunkArrival g n) s = .next t ∧
      (t.slot i n).ring = l ∧ (t.slot i n).chain = some r ∧ (t.cell i).scratch = c.scratch) ∧
    (∀ h l, x.ring = h :: l → x.chain = none → ∃ t, exec (.chunkArrival g n) s = .next t ∧
      (t.slot i n).ring = l ∧ (t.slot i n).chain = none ∧ (t.cell i).scratch = c.scratch) ∧
    (∀ k r e, .ring g n k ∈ s.credits → x.chain = some r → r.edges[k]? = some e → e.dropped = false → r.expect ≤ e.next →
      c.held = none → ∃ t, exec (.ringCredit g n k) s = .next t ∧ t.credits = s.credits.erase (.ring g n k) ∧
        ∀ r', (t.slot i n).chain = some r' → (r'.edges[k]?).map (fun y => (y.credits, y.unc, y.next)) =
          some (min 16 (e.credits + 1), e.unc.drop 1, e.next)) ∧
    (∀ kind, n < 16 → (∀ y ∈ c.port.slots, y.recvs = [] ∧ y.owed = [] ∧ y.chain = none) →
      (∀ k, k ≠ n → (s.slot i k).blocks = []) →
      let port := { c.port with
        buckets := c.port.buckets.modify kind fun b => min 102400 (b + 32 * (c.port.splitLc.getD kind 0 : Nat))
        bucketsBe := c.port.bucketsBe.modify kind fun b => min 102400 (b + 32 * (c.port.splitBe.getD kind 0 : Nat)) }
      (x.blocks = [] → exec (.streamBucketRefill g kind) s = .next (s.putCell i { c with port })) ∧
      (∀ b, x.blocks = [b] → b.kind = kind → b.paid = true → b.landed = false → b.left ≠ 0 → b.units ≤ b.gens.length →
        let m := min b.left (port.bucket x.cls kind / 1600).toNat
        exec (.streamBucketRefill g kind) s = .next (s.putCell i { c with port :=
          { port.modBucket x.cls kind (fun v => v - 1600 * (m : Int)) with
            slots := c.port.slots.set n { x with blocks := [{ b with left := b.left - m }] } } })))

/-! ## Row engines and their tables (R107 to R166) -/

/-- R107, R109, R112 to R116: the front end takes the oldest request of its die. A legal gather of rows one by one, or a legal
write of whole rows, whose lists lie in the requesting cell's scratchpad is split by home: each home's row engine gets one part
with its index positions in list order, and of a write their rows. One whose header is not aligned is answered with FORMAT. -/
def Obligations.RequestRouting : Prop :=
  ∀ (s : State) (d : Nat) (r : Request) (l : List Request) (e : TableEntry) (ep : Epoch),
    let h := r.snap.read 64 (addr57 r.addr) 64
    let r' : Request := { r with words := leList 8 8 h.bytes }
    let n := r'.nidx
    let idx := leList 4 n (r.snap.read 64 (addr57 r'.idxAddr) (4 * n)).bytes
    let home := fun row => e.home (some ep) row
    let rowAt := fun pos => r.snap.read 64 (addr57 (2 ^ 63 + (addr57 r'.dataAddr + pos * r'.stride))) e.len
    d < s.dies.length → (s.die d).queue = r :: l → r.mirror = none → r.reply = none →
    (addr57 r.addr % 64 = 0 → r.addr.testBit 63 = true → (∀ o ∈ s.openReqs, o.r.id ≠ r.id) →
      addr57 r.addr + 64 ≤ 0x400000 → h.marked = false → bits (r'.w 0) 7 0 = r.op →
      ((r.op = 1 ∧ r'.mode = 2 ∧ r'.fmt ≤ 4 ∧ r'.destTile = false ∧ e.cache = false ∧ (∀ x ∈ s.engines, x.replicas = [])) ∨
        (r.op = 3 ∧ r'.mode = 0 ∧ r'.dataAddr.testBit 63 = true ∧ ∀ pos < n, (rowAt pos).marked = false)) →
      0 < n → n ≤ (if r.op = 1 then 2 ^ 24 else 4096) → r'.stride % 16 = 0 → r'.unit e ≤ r'.stride →
      s.table r.part r'.table = some e → r'.batch = 0xFFFFFFFF →
      (s.svc r.part).publishing.find? (fun x => x.1 == r'.table) = none → s.current r'.table = some ep →
      s.epoch r'.table ep.no = some ep → r'.idxAddr.testBit 63 = true → addr57 r'.idxAddr + 4 * n ≤ 0x400000 →
      (r.snap.read 64 (addr57 r'.idxAddr) (4 * n)).marked = false → (∀ l ∈ (s.cell (s.reqPos r)).comp.lands, l.req ≠ r.id) →
      (∀ x ∈ r'.extents e (if r.op = 1 then n else 0), s.wordUnmapped r.part x.1 x.2.1 = none ∧
        (x.2.2 = true → s.wordRefused r.part x.1 x.2.1 = none)) →
      ∃ t o, exec (.frontEndRequest d) s = .next t ∧ t.openReqs = s.openReqs ++ [o] ∧ o.r.id = r.id ∧ o.r.idx = idx ∧
        o.die = d ∧ o.epoch = ep.no ∧ o.parts = [] ∧ o.result = none ∧ o.waiting = o.served ∧ o.waiting.Nodup ∧
        (∀ k, k ∈ o.waiting ↔ ∃ row ∈ idx, home row = k) ∧ (t.die d).queue = l ∧ t.mem = s.mem ∧ t.cells = s.cells ∧
        t.tokens = s.tokens ∧ (∀ k, (∀ row ∈ idx, home row ≠ k) → t.engine k = s.engine k) ∧
        ∀ k ∈ o.waiting, k < s.engines.length → ∃ p, t.engine k = { s.engine k with input := (s.engine k).input ++ [p] } ∧
          p.req = r.id ∧ p.part = r.part ∧ p.table = r'.table ∧ p.epoch = ep.no ∧ p.op = r.op ∧ p.done = false ∧ p.status = 0 ∧
          p.items = (idx.mapIdx fun pos row => (⟨pos, row⟩ : Item)).filter (fun x => home x.row == k) ∧
          (r.op = 3 → p.entries = p.items.map fun x => (rowAt x.pos).bytes)) ∧
    (∀ i, addr57 r.addr % 64 ≠ 0 → s.posOf r.g = some i → (s.cell i).held = none → ∃ t, exec (.frontEndRequest d) s = .next t ∧
      (t.die d).queue = l ∧ t.tokens = s.tokens ++ [(r.g, r.q, r.cls, ⟨0x02000000, .frontEnd d, true, none,
        if r.destTile then some r.id else none⟩)] ∧ t.openReqs = s.openReqs ∧ t.mem = s.mem ∧ t.engines = s.engines ∧
      ∀ o ∈ (t.cell i).open_, o.id ≠ r.id)

/-- R121, R127, R128, R131 to R133, R136, R138: an engine takes a part's rows in list order and fetches them; a fetched row of a
gather enters its part as read, one of a write part is written whole; an internal error ends every part with ENGINE_FAULT,
and an engine out of service ends them with STACK_LOST.
R107, R119: a finished part leaves its engine for its request; the last part of an update that no partner mirrors answers it
with a token of status 0 and the number of rows applied. -/
def Obligations.RowEngineSteps : Prop :=
  (∀ (s : State) (k : Nat) (p : Part) (e : TableEntry) (ep : Epoch),
    let x := s.engine k
    k < s.engines.length → s.partTable p = some e → s.epoch p.table p.epoch = some ep →
    (∀ it : Item, x.st = 1 → x.paused = false → x.input = [p] → x.parts = [] → x.fetches = [] → x.misses = [] →
      p.op = 1 → p.done = false → p.items = [it] → p.slices = 0 → p.got = [] → p.distinct = [] → p.fetched = 0 →
      it.row < ep.rows → it.row < ep.res → e.marq = false → (∀ y, s.anyTable p.table = some y → y.marq = false) →
      e.home (some ep) it.row = k → ∃ t, exec (.requestPart k) s = .next t ∧ (t.engine k).input = [] ∧
      (t.engine k).fetches = [⟨p.id, 0, it.pos, it.row, p.table, p.epoch, false, p.deadline, true⟩] ∧
      (t.engine k).parts.map (fun q => (q.id, q.items, q.got, q.slices, q.fetched, q.rows, q.done)) =
        [(p.id, [], [(it.pos, it.row, 0)], 1, 1, p.rows, false)] ∧
      (x.freeze = false → (t.engine k).cnt = { x.cnt with
        indices := x.cnt.indices + 1, slices := x.cnt.slices + 1, fetches := x.cnt.fetches + 1 }) ∧
      t.mem = s.mem ∧ t.cells = s.cells) ∧
    (x.st = 1 → x.paused = false → x.input = [p] → x.parts = [] → x.fetches = [] → x.misses = [] →
      p.op = 3 → p.src = 0 → p.done = false → p.got = [] → p.skipTo = 0 → p.items ≠ [] → p.items.length ≤ 256 → ep.st = 2 →
      (∀ it ∈ p.items, it.row < ep.rows ∧ it.row < ep.res) → ∃ t, exec (.requestPart k) s = .next t ∧
      (t.engine k).fetches = p.items.map (fun it => (⟨p.id, 0, it.pos, it.row, p.table, p.epoch, true, 0, true⟩ : Fetch)) ∧
      (t.engine k).parts.map (fun q => (q.id, q.items, q.got, q.done)) =
        [(p.id, [], p.items.map fun it => (it.pos, it.row, 0), false)] ∧ t.mem = s.mem ∧ t.cells = s.cells) ∧
    (x.st ≠ 1 → ∃ t, exec (.requestPart k) s = .next t ∧ (t.engine k).input = [] ∧
      (∀ q ∈ (t.engine k).parts, q.done = true) ∧ (t.engine k).parts.map (·.id) = (x.parts ++ x.input).map (·.id) ∧
      (((x.parts ++ x.input).map (·.id)).Nodup → (t.engine k).parts =
        (x.parts ++ x.input).map fun q => if q.done then q else { q with done := true, status := 8 }) ∧ t.mem = s.mem) ∧
    (∀ f fs, x.parts = [p] → x.fetches = f :: fs → f.part = p.id → f.table = p.table → f.epoch = p.epoch → p.done = false → p.op = 1 →
      f.update = false → x.held = [] → x.misses = [] → f.row < ep.res → f.tag = true ∨ x.tags < 8192 →
      e.home (some ep) f.row = k → ∃ t, exec (.rowFetchDone k 0 .none) s = .next t ∧ (t.engine k).fetches = fs ∧
      (∃ q, (t.engine k).parts = [q] ∧ q.id = p.id ∧
        (let v := (s.areaRead 3 e.part k (e.rowOff ep f.row) e.len).1
         q.rows = p.rows ++ [⟨f.slice, f.row, v.bytes, v.marked, 0⟩]) ∧
        (q.done = true ↔ p.items = [] ∧ ∀ g ∈ fs, g.part ≠ p.id)) ∧ t.mem = s.mem) ∧
    (∀ f fs, x.parts = [p] → x.fetches = f :: fs → f.part = p.id → f.table = p.table → f.epoch = p.epoch → p.done = false →
      f.update = true → p.op = 3 → x.misses = [] → f.tag = true ∨ x.tags < 8192 → (∀ g ∈ fs, g.part = p.id → f.pos ≤ g.pos) →
      ep.st = 2 → f.row < ep.res → x.replicas = [] → x.mem.failed = false → x.mem.lost = [] → e.rowOff ep f.row % s.share + e.len ≤ s.share →
      p.src = 0 → p.items ≠ [] → (p.entryAt f.pos).length = e.len → ∃ t, exec (.rowFetchDone k 0 .none) s = .next t ∧
      (t.areaRead 3 e.part k (e.rowOff ep f.row) e.len).1 = Data.clean (p.entryAt f.pos) ∧
      (∀ a, a < s.areaAddr 3 e.part k (e.rowOff ep f.row) ∨ s.areaAddr 3 e.part k (e.rowOff ep f.row) + e.len ≤ a →
        t.mem.get a = s.mem.get a) ∧
      (t.engine k).fetches = fs ∧ (t.engine k).parts = [{ p with applied := p.applied ++ [f.pos] }] ∧
      (x.freeze = false → (t.engine k).cnt = { x.cnt with writes := x.cnt.writes + 1 }) ∧ t.cells = s.cells) ∧
    (∀ err f fs, x.fetches = f :: fs → f.update = false → f.tag = true ∨ x.tags < 8192 → err ≠ EngineErr.none → ∃ t,
      exec (.rowFetchDone k 0 err) s = .next t ∧ (∀ q ∈ (t.engine k).parts, q.done = true) ∧
      (((x.parts ++ x.input).map (·.id)).Nodup → ∀ q ∈ x.parts, q.done = false →
        { q with done := true, status := 9 } ∈ (t.engine k).parts) ∧
      (t.engine k).faultValid = true ∧ (t.engine k).faultParts = (x.parts.filter fun q => !q.done).length ∧
      (t.engine k).faultCause = (match err with
        | .none => 0 | .poolResidue => 1 | .addResidue => 2 | .dedupUncorrectable => 3 | .tagUncorrectable => 4))) ∧
  (∀ (s : State) (k : Nat) (p : Part) (ps : List Part) (o : OpenReq),
    k < s.engines.length → (s.engine k).parts = p :: ps → p.done = true → (∀ q ∈ ps, q.id ≠ p.id) → s.openReqs = [o] →
    o.r.id = p.req → o.result = none →
    (∀ j, j ≠ k → o.waiting = [k, j] → o.parts = [] → ∃ t, exec (.partDone p.req k) s = .next t ∧ (t.engine k).parts = ps ∧
      t.openReqs = [{ o with parts := [(k, p)], waiting := [j] }] ∧ t.tokens = s.tokens ∧ t.mem = s.mem) ∧
    (∀ i, o.waiting = [k] → o.parts = [] → o.r.op = 3 → o.psns = [] → p.status = 0 → o.r.reply = none → o.r.mirror = none →
      o.r.stat = 0 → s.posOf o.r.g = some i → (s.cell i).held = none → p.applied.length < 2 ^ 24 → ∃ t,
      exec (.partDone p.req k) s = .next t ∧ t.openReqs = [] ∧ (t.engine k).parts = ps ∧ t.mem = s.mem ∧
      t.tokens = s.tokens ++
        [(o.r.g, o.r.q, o.r.cls, ⟨BitVec.ofNat 32 p.applied.length, .frontEnd o.die, true, none, none⟩)] ∧
      ∀ a ∈ (t.cell i).open_, a.id ≠ o.r.id))

/-- R154 to R157, R161: sketches count occurrences and are halved; counts travel to the home; a replica set enters the
directories once every write of it has been acknowledged, and a copy not acknowledged in time is withdrawn. -/
def Obligations.Marquetry : Prop :=
  ∀ (s : State) (k : Nat), k < s.engines.length →
    let x := s.engine k
    (2 ^ 24 ≤ x.occ → (x.sketch.map Prod.fst).Nodup → ∃ t, exec (.sketchHalving k) s = .next t ∧
      (∀ q, sketchGet (t.engine k).sketch q = sketchGet x.sketch q / 2) ∧ (t.engine k).occ = x.occ - 2 ^ 24 ∧
      (t.engine k).replicas = x.replicas.filter (fun r => match s.anyTable r.table with
        | some e => decide (e.hot ≤ 2 * t.estimate k r.table r.row)
        | none => true) ∧ t.mem = s.mem ∧ (t.engine k).parts = x.parts) ∧
    (∀ d, d < s.dies.length → 2 ^ 20 ≤ (s.die d).lookups → ((s.die d).sketch.map Prod.fst).Nodup → ∃ t,
      exec (.cacheSketchHalving d) s = .next t ∧ (t.die d).lookups = (s.die d).lookups - 2 ^ 20 ∧
      (∀ q, sketchGet (t.die d).sketch q = sketchGet (s.die d).sketch q / 2) ∧
      (t.die d).cache = (s.die d).cache.map fun c => { c with counter := c.counter / 2 }) ∧
    (∀ home, ∃ t, exec (.countMessageSend k home) s = .next t ∧
      t.countMsgs = s.countMsgs ++ x.counts.filter (fun c => c.home == home) ∧
      (t.engine k).counts = x.counts.filter (fun c => c.home != home) ∧ t.mem = s.mem) ∧
    (∀ c, s.countMsgs.find? (fun c => c.home == k) = some c → (∀ e, s.anyTable c.table = some e → e.marq = false) →
      s.estimate k c.table c.row ≤ 65535 → ∃ t, exec (.countMessage k) s = .next t ∧
      t.estimate k c.table c.row = min 65535 (s.estimate k c.table c.row + c.count) ∧ t.countMsgs = s.countMsgs.erase c) ∧
    (∃ t, exec (.replicaSetCreated k) s = .next t ∧
      (t.engine k).replicas = x.replicas.map (fun r => if r.acks = [] then { r with live := true } else r) ∧
      (∀ r p, x.replicas = [r] → r.live = false → r.acks = [] → s.tablePart r.table = some p → p < s.tsvc.length →
        (t.svc p).cntReplMade = (s.svc p).cntReplMade + BitVec.ofNat 64 r.copies.length) ∧ t.mem = s.mem) ∧
    (∀ w l, s.replWrites = w :: l → w.dest = k → w.landed = false → ∃ t, exec (.replicaWrite k) s = .next t ∧
      t.replWrites = { w with landed := true } :: l ∧ (t.engine k).held = x.held ∧ (t.engine k).parts = x.parts ∧
      (x.freeze = false → (t.engine k).cnt = { x.cnt with replicaWr := x.cnt.replicaWr + 1 }) ∧ t.cells = s.cells ∧
      ((∀ r ∈ x.held, ¬ (r.table = w.table ∧ r.epoch = w.epoch ∧ r.row = w.row)) → t.mem = s.mem) ∧
      ∀ r, x.held.find? (fun r => r.table == w.table && r.epoch == w.epoch && r.row == w.row) = some r → x.mem.failed = false →
        x.mem.lost = [] → r.len = w.data.length → r.off % s.share + r.len ≤ s.share →
        (t.areaRead 4 r.part k r.off r.len).1 = Data.clean w.data ∧
        ∀ a, a < s.areaAddr 4 r.part k r.off ∨ s.areaAddr 4 r.part k r.off + r.len ≤ a → t.mem.get a = s.mem.get a) ∧
    (∀ w r, s.replWrites = [w] → w.home = k → w.landed = true → x.replicas = [r] → r.table = w.table → r.epoch = w.epoch →
      r.row = w.row → ∃ t, exec (.replicaWriteAck k) s = .next t ∧ t.replWrites = [] ∧
      (t.engine k).replicas = [{ r with acks := r.acks.erase w.dest }] ∧ t.mem = s.mem) ∧
    (∀ w r e p, s.replWrites = [w] → w.home = k → x.replicas = [r] → r.table = w.table → r.epoch = w.epoch → r.row = w.row →
      r.copies = [w.dest] → s.anyTable w.table = some e → s.tablePart w.table = some p → p < s.tsvc.length →
      w.appliedAt + 1000 * (e.replLag - 2) ≤ s.now (.rowEngine k) → ∃ t, exec (.replicaLagExpiry k) s = .next t ∧
      t.replWrites = [] ∧ (t.engine k).replicas = [] ∧ (t.svc p).cntReplWithdrawn = (s.svc p).cntReplWithdrawn + 1 ∧
      ((∀ j, j ≠ k → (s.engine j).replicas = []) → s.replicaBusy w.dest w.table w.epoch w.row = false →
        ∀ h ∈ (t.engine w.dest).held, ¬ (h.table = w.table ∧ h.epoch = w.epoch ∧ h.row = w.row)) ∧ t.mem = s.mem)

/-- R149, R162 to R165: a cold page that arrives is installed in its landing page and its waiters go on to read or change it, but for a
lookup whose deadline has passed, which gets the default row; one whose deadline comes gets it at once; a page written back is neither
being written nor pinned, and one evicted goes; a swept epoch leaves caches and catalogue once nothing reads it. -/
def Obligations.ColdTier : Prop :=
  ∀ (s : State) (k : Nat) (e : TableEntry) (ep : Epoch), k < s.engines.length →
    let x := s.engine k
    (∀ m f b c data, x.misses = [m] → m.waiters = [f] → s.anyTable m.table = some e → s.epoch m.table m.epoch = some ep →
      e.table = m.table → ep.no = m.epoch → s.nvmeOut 0 k (m.table, m.epoch, m.page) = some b → (s.bay b).cmds = [c] →
      c.kind = 0 → c.stack = k → c.ref = (m.table, m.epoch, m.page) → data.length = 4096 →
      ((∀ y ∈ s.carts.bays, y.st ≠ 6) → e.part < s.tsvc.length → ∃ t l, exec (.coldPageArrival k 0 data false) s = .next t ∧
        (t.engine k).misses = [] ∧ (t.engine k).landing = x.landing ++ [l] ∧ l.table = m.table ∧ l.epoch = m.epoch ∧
        l.page = m.page ∧ l.slot = m.slot ∧ l.data = data ∧ l.lba = c.lba ∧ l.dirty = false ∧ l.pinned = false ∧ l.marks = [] ∧
        (t.bay b).cmds = [] ∧ (t.bay b).rdPages = (s.bay b).rdPages + 1 ∧
        (t.svc e.part).cntColdMiss = (s.svc e.part).cntColdMiss + 1 ∧
        (f.update = true ∨ s.now (.rowEngine k) ≤ f.deadline → (t.engine k).fetches = x.fetches ++ [{ f with tag := false }] ∧
          (t.engine k).parts = x.parts ∧ t.mem = s.mem) ∧
        ∀ p, f.update = false → f.deadline < s.now (.rowEngine k) → f.part = p.id → x.parts = [p] → p.items ≠ [] →
          s.partTable p = some e → (t.engine k).fetches = x.fetches ∧ t.mem = s.mem ∧ (t.engine k).parts =
            [{ p with rows := p.rows ++ [⟨f.slice, f.row, defaultRow e (s.epoch f.table f.epoch), false, 2⟩] }]) ∧
      ∃ t l, exec (.coldPageArrival k 0 data true) s = .next t ∧ (t.engine k).misses = [] ∧
        (t.engine k).landing = x.landing ++ [l] ∧ l.data = data ∧ l.marks = List.range 64) ∧
    (∀ m f p, x.misses = [m] → m.waiters = [f] → f.update = false → f.deadline ≤ s.now (.rowEngine k) → f.part = p.id →
      x.parts = [p] → p.items ≠ [] → s.partTable p = some e → ∃ t, exec (.coldDeadline k) s = .next t ∧
        (t.engine k).misses = (if (s.nvmeOut 0 k (m.table, m.epoch, m.page)).isSome then [{ m with waiters := [] }] else []) ∧
        (t.engine k).parts = [{ p with
          rows := p.rows ++ [⟨f.slice, f.row, defaultRow e (s.epoch f.table f.epoch), false, 2⟩] }] ∧ t.mem = s.mem) ∧
    (∀ l ls, x.landing = l :: ls → l.writing = true → s.nvmeOut 1 k (l.table, l.epoch, l.page) = none →
      s.power.shutting = false →
      (l.slot ≠ evictedSlot → ∃ t, exec (.coldWriteBackDone k 0) s = .next t ∧ (∃ y, (t.engine k).landing.head? = some y ∧
        y.writing = false ∧ y.pinned = false ∧ y.data = l.data ∧ y.dirty = l.dirty ∧ y.page = l.page ∧ y.slot = l.slot) ∧
        t.mem = s.mem ∧ t.epochs = s.epochs ∧ (t.engine k).misses = x.misses) ∧
      (l.slot = evictedSlot → l.dirty = false → s.awaited k l = false → ∃ t, exec (.coldWriteBackDone k 0) s = .next t ∧
        (t.engine k).landing = ls.filter (fun y => decide (¬ (y.table = l.table ∧ y.epoch = l.epoch ∧ y.page = l.page))) ∧
        t.mem = s.mem ∧ t.epochs = s.epochs)) ∧
    (∀ tb n, (s.inUse tb n = true ∨ (∃ y ∈ s.tsvc, ∃ q ∈ y.publishing, q.1 = tb ∧ q.2.1 = n) →
        exec (.rowCacheSweepDone tb n) s = .next s) ∧
      (s.epoch tb n = some ep → ep.sweep = true → s.inUse tb n = false →
        (∀ y ∈ s.tsvc, ∀ q ∈ y.publishing, ¬ (q.1 = tb ∧ q.2.1 = n)) → s.engines.length = s.stackCount →
        (∀ q, s.tablePart tb = some q → (s.svc q).aborting ≠ some (tb, n)) →
        ∃ t, exec (.rowCacheSweepDone tb n) s = .next t ∧ (∀ y ∈ t.epochs, ¬ (y.table = tb ∧ y.no = n)) ∧
          (∀ y ∈ t.dies, ∀ c ∈ y.cache, ¬ (c.table = tb ∧ c.epoch = n)) ∧
          (∀ y ∈ t.engines, ∀ l ∈ y.landing, ¬ (l.table = tb ∧ l.epoch = n)) ∧
          (∀ y ∈ t.engines, ∀ m ∈ y.misses, ¬ (m.table = tb ∧ m.epoch = n)) ∧
          ((∀ y ∈ s.engines, ∀ m ∈ y.misses, ¬ (m.table = tb ∧ m.epoch = n)) → t.mem = s.mem ∧ t.bindings = s.bindings)))

/-- R143 to R146, R149 to R153: with nothing in the way a table-service command does what it names: STAGE takes the epoch that a
descriptor gives, PUBLISH and PUBLISH_SET make staged epochs current on one edge or wait for a free RETIRING slot, ABORT frees
the staged epoch, QUERY reports, BIND gives an unused handle of the current epoch, RELEASE ends one.
R146, R292, R458: a publication that waited takes effect when a slot is free and clears BUSY once every front end holds it;
a command that meets a commit or reset of its partition is held with BUSY set. -/
def Obligations.TableCommands : Prop :=
  (∀ (s : State) (p tb : Nat) (e : TableEntry),
    let x := s.svc p
    let open_ := { x with lost := false, result := 0 }
    let busy := s.modSvc p fun y => { y with lost := false, result := 0, busy := true }
    let moved := fun (l : List Nat) => s.epochs.map fun y =>
      if l.contains y.table ∧ y.st = 2 then { y with st := 3 } else if l.contains y.table ∧ y.st = 1 then { y with st := 2 } else y
    let heldAll := fun (l : List Nat) => ∀ y ∈ s.epochs, y.st = 3 ∨ (l.contains y.table = true ∧ y.st = 2) → s.isHeld y.table y.no = true
    p < s.tsvc.length → p < s.parts.length → (s.part p).committing = false → (s.part p).resetting = false →
    x.waiting = [] → x.aborting = none → x.heldCmd = none → s.mirrored p = false → s.hrv.cmds = [] →
    s.table p tb = some e →
    (∀ d, x.busy = false → x.publishing = [] → (busy.tblData 1 p tb (s.tblArg p)).1 = some d → s.epochs = [] → e.cold = false → e.storedDefault = false →
      let rows := bits (wordAt d 0) 31 0
      1 ≤ rows → rows ≤ e.maxRows → bits (wordAt d 1) 3 0 = 0 → s.areaSize 3 p ≠ 0 → d.length = 128 →
      (∀ i k, e.stacks'[i]? = some k →
        rows ≤ (s.areaSize 3 p - 4096 * bits (wordAt d (4 + k / 2)) (32 * (k % 2) + 31) (32 * (k % 2))) / e.len * e.stacks'.length + i) →
      ∃ t ep h, exec (.stage p tb) s = .next t ∧ t.epochs = [ep] ∧ ep.table = tb ∧ ep.st = 1 ∧ ep.rows = rows ∧ ep.res = rows ∧
        ep.no ≠ 0 ∧ t.bindings = s.bindings ++ [⟨h, 1, p, tb, ep.no⟩] ∧ (t.svc p).result = 0 ∧ (t.svc p).value = h ∧
        (t.svc p).busy = false ∧ (∀ k < 16, ep.bases.getD k 0 = bits (wordAt d (4 + k / 2)) (32 * (k % 2) + 31) (32 * (k % 2)))) ∧
    (∀ ep, x.busy = false → x.publishing = [] → s.staging tb = some ep → exec (.stage p tb) s =
      .next (s.modSvc p fun y => { y with lost := false, result := 2, busy := false })) ∧
    (∀ ep, x.busy = false → s.staging tb = some ep → s.wouldRetire p tb ≤ 2 → heldAll [tb] → ∃ t,
      exec (.publish p tb) s = .next t ∧ t.epochs = moved [tb] ∧ (t.svc p).result = 0 ∧ (t.svc p).value = ep.no ∧
      (t.svc p).busy = true ∧ (tb, ((s.current tb).map (·.no)).getD 0, []) ∈ (t.svc p).publishing ∧ t.bindings = s.bindings ∧ t.mem = s.mem) ∧
    (∀ ep old, x.busy = false → s.staging tb = some ep → s.wouldRetire p tb ≤ 2 → s.current tb = some old →
      s.isHeld tb old.no = false → ∃ t, exec (.publish p tb) s = .next t ∧
      ∀ y ∈ t.epochs, y.table = tb → y.no = old.no → y.st = 0 ∧ y.sweep = true) ∧
    (∀ ep, x.busy = false → s.staging tb = some ep → 2 < s.wouldRetire p tb → ∃ t, exec (.publish p tb) s = .next t ∧
      (t.svc p).waiting = [tb] ∧ (t.svc p).result = 4 ∧ (t.svc p).busy = true ∧ t.epochs = s.epochs ∧ t.bindings = s.bindings) ∧
    (∀ a b ea eb, x.busy = false → (busy.tblData 7 p 0 (s.tblArg p)).1 = some (leBytes 2 a ++ leBytes 2 b) → a < 65535 → b < 65535 →
      a ≠ b → (s.table p a).isSome = true → (s.table p b).isSome = true → s.staging a = some ea → s.staging b = some eb →
      s.wouldRetire p a ≤ 2 → s.wouldRetire p b ≤ 2 → heldAll [a, b] → ∃ t, exec (.publishSet p) s = .next t ∧
      t.epochs = moved [a, b] ∧ (t.svc p).result = 0 ∧ (t.svc p).busy = true ∧ t.bindings = s.bindings) ∧
    (∀ ep, x.busy = false → x.publishing = [] → s.staging tb = some ep → ∃ t, exec (.abort p tb) s = .next t ∧
      (∀ y ∈ t.epochs, y.table = tb → y.no = ep.no → y.st = 0 ∧ y.sweep = true) ∧
      (∀ b ∈ t.bindings, ¬ (b.table = tb ∧ b.epoch = ep.no)) ∧ (t.svc p).aborting = some (tb, ep.no) ∧
      (t.svc p).busy = true ∧ (t.svc p).result = 0 ∧ t.mem = s.mem) ∧
    (x.busy = false → exec (.query p tb) s = .next { s with tsvc := s.tsvc.set p { open_ with
      epochs := BitVec.ofNat 64 (((s.current tb).map (·.no)).getD 0 + 2 ^ 32 * ((s.staging tb).map (·.no)).getD 0)
      bound := BitVec.ofNat 64 (min 0xFFFF (s.bindings.filter fun b => b.table == tb &&
          b.epoch == ((s.current tb).map (·.no)).getD 0 && ((s.current tb).map (·.no)).getD 0 != 0).length +
        2 ^ 16 * (s.retiring tb).length + 2 ^ 32 * ((s.retiring tb).head?.map (·.no)).getD 0) } }) ∧
    (∀ ep, x.busy = false → s.current tb = some ep → s.bindings.length + s.batches.length < 2 ^ 31 → ∃ t h,
      exec (.bind p tb) s = .next t ∧ t.bindings = s.bindings ++ [⟨h, 2, p, tb, ep.no⟩] ∧ (t.svc p).value = h ∧
      (t.svc p).result = 0 ∧ h < 0xFFFFFFFF ∧ (∀ b ∈ s.bindings, b.handle ≠ h) ∧ (∀ b ∈ s.batches, b.handle ≠ h) ∧
      t.epochs = s.epochs ∧ t.mem = s.mem) ∧
    (x.busy = false → s.current tb = none → exec (.bind p tb) s = .next { s with tsvc := s.tsvc.set p { open_ with result := 8 } }) ∧
    (∀ h, x.busy = false → h = s.tblArg p % 2 ^ 32 → (∃ b ∈ s.bindings, b.handle = h ∧ b.kind = 2 ∧ b.part = p) →
      (∀ y ∈ s.epochs, y.st ≠ 3) → exec (.release p) s = .next { s with
        tsvc := s.tsvc.set p open_
        bindings := s.bindings.filter fun b => !(b.handle == h && (b.kind == 1 || b.kind == 2) && b.part == p) }) ∧
    (∀ y ∈ s.epochs, x.busy = false → y.st = 3 → (∃ b ∈ s.bindings, b.handle = s.tblArg p % 2 ^ 32 ∧ b.kind = 2 ∧ b.part = p) →
      (∀ b ∈ s.bindings, b.table = y.table → b.epoch = y.no → b.handle = s.tblArg p % 2 ^ 32 ∧ b.kind = 2 ∧ b.part = p) →
      (∀ o ∈ s.openReqs, o.r.table ≠ y.table ∨ o.epoch ≠ y.no) → ∃ t, exec (.release p) s = .next t ∧
      (∀ z ∈ t.epochs, z.table = y.table → z.no = y.no → z.st = 0 ∧ z.sweep = true) ∧
      ∀ b ∈ t.bindings, ¬ (b.table = y.table ∧ b.epoch = y.no)) ∧
    (x.busy = false → (∀ b ∈ s.bindings, b.handle ≠ s.tblArg p % 2 ^ 32) →
      exec (.release p) s = .next { s with tsvc := s.tsvc.set p { open_ with result := 7 } }) ∧
    (∀ op, x.busy = false → exec (.tblCmdNop p op) s = .next { s with tsvc := s.tsvc.set p open_ }) ∧
    (x.busy = true → ∀ op, ∀ c : Instr, c ∈ [.stage p tb, .publish p tb, .abort p tb, .publishSet p, .query p tb, .bind p tb,
      .release p, .tblCmdNop p op] → exec c s = .next { s with tsvc := s.tsvc.set p { x with lost := true } })) ∧
  (∀ (s : State) (p tb : Nat),
    let x := s.svc p
    p < s.tsvc.length →
    (x.waiting = [tb] → s.wouldRetire p tb ≤ 2 → s.hrv.cmds = [] → s.mirrored p = false →
      (∀ y ∈ s.epochs, y.st = 3 ∨ (y.table = tb ∧ y.st = 2) → s.isHeld y.table y.no = true) → ∃ t,
      exec (.waitSlotPublish p) s = .next t ∧ (t.svc p).waiting = [] ∧ (t.svc p).result = 0 ∧ (t.svc p).busy = x.busy ∧
      t.epochs = s.epochs.map (fun y => if y.table = tb ∧ y.st = 2 then { y with st := 3 }
        else if y.table = tb ∧ y.st = 1 then { y with st := 2 } else y) ∧ t.bindings = s.bindings) ∧
    (x.publishing ≠ [] → x.waiting = [] → x.aborting = none → x.heldCmd = none → s.hrv.cmds = [] →
      exec (.publishDone p) s = .next { s with tsvc := s.tsvc.set p { x with publishing := [], busy := false } }) ∧
    (x.busy = false → p < s.parts.length → (s.part p).committing = true ∨ (s.part p).resetting = true → ∀ c : Instr, ∀ op tab n,
      (c, op, tab) ∈ [(Instr.stage p tb, 1, tb), (.publish p tb, 2, tb), (.abort p tb, 3, tb), (.query p tb, 4, tb),
        (.bind p tb, 5, tb), (.release p, 6, 0), (.publishSet p, 7, 0), (.tblCmdNop p n, n, 0)] →
      exec c s = .next { s with tsvc := s.tsvc.set p { x with
        lost := false, result := 0, busy := true, heldCmd := some (op, tab, s.tblArg p) } }))

/-! ## Stacks (R195 to R218) -/

/-- R205, R206, R214, R215: a failed stack or pseudo-channel discards writes and reads as marked zeros; else what a write within one granule of a DEVICE, NEAR or JOURNAL frame stored is what a read of the same bytes
returns, whether it waits in a write-combining entry or not, a marked write reads marked, and while no entry is evicted every
byte of another granule reads as before. -/
def Obligations.StackReadAfterWrite : Prop :=
  ∀ (s : State) (k : Nat) (p q : Option Nat) (a : Nat) (data : Bytes) (m : Bool),
    let kind := (s.frame (a / 2 ^ 30)).1
    s.stackOf a = k → k < s.engines.length → (kind = 1 ∨ kind = 2 ∨ kind = 5) → data ≠ [] → a % 64 + data.length ≤ 64 →
    ((s.engine k).mem.dead (s.channelOf a) = true → exec (.stackWrite k p a data m) s = .next s ∧
      (s.devRead q a data.length).1 = Data.mark true (zeros data.length)) ∧
    ((s.engine k).mem.dead (s.channelOf a) = false → ∃ t, exec (.stackWrite k p a data m) s = .next t ∧ (t.devRead q a data.length).1.bytes = data ∧
      (m = true → (t.devRead q a data.length).1.marked = true) ∧
      (m = false → data.length = 64 → (t.devRead q a data.length).1.marked = false) ∧
      ((s.engine k).mem.wcb.length < 256 → ∀ b, b / 64 ≠ a / 64 → (t.devRead q b 1).1.bytes = (s.devRead q b 1).1.bytes) ∧
      t.cells = s.cells ∧ t.host = s.host ∧ t.image = s.image ∧ ∀ j, j ≠ k → t.engine j = s.engine j)

/-- R195, R196, R206, R214, R218: a read drains the entry of its granule first; a corrected error is counted, an uncorrectable one marks the
granule; a drain marker leaves no entry; a scrub reads, corrects or marks and charges nothing; a read of the
entry register answers from the shadow set and starts its high-water mark again.
R209, R210, R212 to R214, R418: a bucket earns at its weight up to its depth and pays the bursts held first; a permanent row is
read, takes a spare row of its bank and waits for a hard repair; a failed stack or pseudo-channel takes its engine with it and
makes the module suspect; an engine whose repair has ended takes its input again. -/
def Obligations.StackService : Prop :=
  (∀ (s : State) (k g : Nat) (p : Option Nat), k < s.engines.length → k < s.stackCount →
    let x := s.engine k
    let on := fun (e : Engine) (f : Stack → Stack) => { e with mem := f e.mem }
    (s.stackOfGranule g = some k → x.mem.dead (s.granuleChannel g) = false →
      (∃ t, exec (.stackRead k p g .none) s = .next t ∧ (∀ y ∈ (t.engine k).mem.wcb, y.granule ≠ g) ∧
        ((∀ y ∈ x.mem.wcb, y.granule ≠ g) → t.mem = s.mem ∧ (x.freeze = false → (t.engine k).mem.cntRd = x.mem.cntRd + 1)) ∧
        (∀ y, x.mem.wcb.find? (fun y => y.granule == g) = some y → t.mem = applyEntry s.mem y ∧
          (x.freeze = false → (t.engine k).mem.cntRdDrain = x.mem.cntRdDrain + 1)) ∧ t.cells = s.cells ∧ t.health = s.health) ∧
      (∃ t, exec (.stackRead k p g .corrected) s = .next t ∧
        (x.freeze = false → (t.engine k).mem.cntCorr = x.mem.cntCorr + 1) ∧ t.health.cntReports ≠ s.health.cntReports) ∧
      (∃ t, exec (.stackRead k p g .uncorrectable) s = .next t ∧ t.mem.isMarked g = true ∧
        (x.freeze = false → (∀ y ∈ x.mem.wcb, y.granule = g → y.marked = false) →
          (t.engine k).mem.cntUncorr = x.mem.cntUncorr + 1))) ∧
    (∀ err, s.stackOfGranule g = some k → x.mem.dead (s.granuleChannel g) = true → exec (.stackRead k p g err) s = .next s) ∧
    (∀ l, x.mem.markers = .control :: l → ∃ t, exec (.drainMarker k) s = .next t ∧ (t.engine k).mem.wcb = [] ∧
      (t.engine k).mem.markers = l ∧ t.cells = s.cells) ∧
    (∀ l c i, x.mem.markers = .cell c :: l → s.posOf c = some i → (s.cell i).held = none → ∃ t,
      exec (.drainMarker k) s = .next t ∧ (t.engine k).mem.wcb = [] ∧ (t.engine k).mem.markers = l ∧
      t.cell i = { s.cell i with markers := (s.cell i).markers - 1 }) ∧
    (x.mem.failed = false → x.mem.scrubPos + 1 < stackGranules → exec (.patrolScrub k g .none) s =
      .next { s with engines := s.engines.set k (on x fun m => { m with scrubPos := m.scrubPos + 1 }) }) ∧
    (x.mem.dead (s.granuleChannel g) = false → s.stackOfGranule g = some k →
      (∃ t, exec (.patrolScrub k g .uncorrectable) s = .next t ∧ t.mem.isMarked g = true ∧
        (x.freeze = false → (t.engine k).mem.cntUncorr = x.mem.cntUncorr + 1) ∧ (t.engine k).mem.regs = x.mem.regs) ∧
      ∃ t, exec (.patrolScrub k g .corrected) s = .next t ∧ t.mem = s.mem ∧
        (x.freeze = false → (t.engine k).mem.cntCorr = x.mem.cntCorr + 1) ∧ (t.engine k).mem.regs = x.mem.regs) ∧
    (∃ t, exec (.memWcbRead k) s = .next t ∧
      t.engines = s.engines.set k { x with mem := { x.mem with wcbHigh := x.mem.wcb.length } } ∧
      t.hif.readData = leBytes 8 (s.readReg (engineBase k + 0x20008)) ∧
      (k < 16 → (∃ h ∈ s.shadows, h.island = .rowEngine k) → bits (t.readReg (engineBase k + 0x20008)) 24 16 = 0) ∧
      (k < 16 → (∀ h ∈ s.shadows, h.island ≠ .rowEngine k) → x.mem.wcb.length ≤ 256 → x.mem.wcbHigh ≤ 256 →
        leNat t.hif.readData = x.mem.wcb.length + 2 ^ 16 * x.mem.wcbHigh) ∧ t.mem = s.mem)) ∧
  (∀ (s : State) (k : Nat), k < s.engines.length → k < s.stackCount →
    let x := s.engine k
    (∀ p, p < x.mem.regs.length →
      let r := x.mem.regs.getD p .fresh
      let now := s.now (.rowEngine k)
      let has := min (1024 * r.burst) (r.tokens + 8 * r.weight * (now - r.at_))
      let paid := min r.held (has / 64)
      exec (.regulatorBucketRefill k p) s = .next { s with engines := s.engines.set k { x with mem := { x.mem with
        regs := x.mem.regs.set p { r with tokens := has - 64 * paid, at_ := now, held := r.held - paid } } } }) ∧
    (∀ bank row, bank < stackBanks → x.mem.dead (bank % 64) = false → (bank, row) ∉ x.mem.repairs → 0 < s.spareRows k bank → ∃ t,
      exec (.softRepair k bank row) s = .next t ∧ (t.engine k).mem.repairs = x.mem.repairs ++ [(bank, row)] ∧
      t.spareRows k bank = s.spareRows k bank - 1 ∧ (∀ b, b ≠ bank → t.spareRows k b = s.spareRows k b) ∧
      (t.engine k).mem.pendingHard = true ∧ (x.freeze = false → (t.engine k).mem.cntPpr = x.mem.cntPpr + 1) ∧
      t.mem.bytes = s.mem.bytes ∧ (∀ g, s.mem.isMarked g = true → t.mem.isMarked g = true) ∧
      ∀ g, t.mem.isMarked g = true → s.mem.isMarked g = true ∨ s.stackOfGranule g = some k) ∧
    (∀ bank row, bank < stackBanks → x.mem.dead (bank % 64) = false → (bank, row) ∉ x.mem.repairs → s.spareRows k bank = 0 → ∃ t,
      exec (.softRepair k bank row) s = .next t ∧ t.engines = s.engines ∧ t.health.cntReports = s.health.cntReports + 1) ∧
    (∀ u, x.mem.failed = false → (k < 16 ∧ u = k) ∨ (∃ c < 64, u = 16 + 64 * k + c ∧ c ∉ x.mem.lost) → ∃ t,
      exec (.stackFailed u) s = .next t ∧ (t.engine k).st = 3 ∧
      (if u < 16 then (t.engine k).mem.failed = true
        else (t.engine k).mem.failed = false ∧ (t.engine k).mem.lost = x.mem.lost ++ [(u - 16) % 64]) ∧
      (t.engine k).input = [] ∧ (∀ q ∈ (t.engine k).parts, q.done = true) ∧ t.health.suspect = true ∧
      (s.health.suspect = false → ∀ q < 16, (t.part q).opened = false) ∧
      (s.health.suspect = true ∨ (s.hrv.st ≠ 4 ∧ ∀ e ∈ s.engines, e.mem.wcb = []) → t.mem = s.mem)) ∧
    (x.paused = true → ∃ t, exec (.repairPauseEnd k) s = .next t ∧ t.engine k = { x with paused := false } ∧
      (t.lark ⟨2, k, 0⟩).permanent = false ∧ t.mem = s.mem))

/-! ## Lossless compression (R219 to R239) -/

/-- R220 to R223, R232 to R234, R239, R458: what each command and event of a compression context does to it; the record of an
install is written at its slot of the table. -/
def Obligations.CompressionCommands : Prop :=
  ∀ (s : State) (p c : Nat) (x : CmpCtx),
    let a := s.cmpArg p c
    let opened := s.modCmp p c fun y => { y with result := 0 }
    let idle := x.busy = false ∧ x.enabled = true ∧ (s.part p).resetting = false
    let ok := fun n => a.testBit 63 = false ∧ s.unmapped p (addr57 a) n = none
    let becomes := fun (i : Instr) (y : CmpCtx) => ∃ t, exec i s = .next t ∧ t.cmpCtx p c = some y ∧ t = { s with cmp := t.cmp }
    let installs := fun (i : Instr) (g : Nat) (ls : List Nat) (y : CmpCtx) => ∃ t, exec i s = .next t ∧
      t.cmpCtx p c = some { y with
        gens := y.gens.set g ⟨true, 0, 0, s.now .control⟩, current := g, installing := true, copies := [] } ∧
      t.mem = (s.vwrite .control p (addr57 x.tableAddr + 256 * g)
        (Data.clean (tableRecord c g (s.now .control) ls))).mem ∧ t.host = s.host ∧ t.regs = s.regs
    (∀ g n, s.cmpCtx p c = none → ∀ i ∈ [Instr.build p c n, .load p c g n, .cmpRelease p c g n], exec i s =
      .next { s with cmp := s.cmp ++ [{ CmpCtx.absent p c with result := 4 }] }) ∧
    (s.cmpCtx p c = some x → x.gens.length = 8 →
    (∀ n, idle → 1 ≤ n → n ≤ 16384 → ok (4096 * n) → ∃ t h, exec (.build p c n) s = .next t ∧
      t.cmpCtx p c = some { x with busy := true, result := 0, hist := some h } ∧ h.length = 256 ∧
      (∀ v < 256, h.getD v 0 =
        1 + ((opened.vread .control p (addr57 a) (4096 * n)).1.bytes.filter fun b => b.toNat == v).length) ∧
      t.cells = s.cells ∧ t.host = s.host) ∧
    (∀ n, idle → n = 0 ∨ 16384 < n → becomes (.build p c n) { x with result := 1 }) ∧
    (∀ h g, x.hist = some h → x.installs = [] → x.freeSlot = some g →
      installs (.histogramDone p c) g (codeLengths 64 h) { x with hist := none }) ∧
    (∀ h, x.hist = some h → x.freeSlot = none ∨ x.installs ≠ [] → becomes (.histogramDone p c) { x with
      hist := none, installs := x.installs ++ [(codeLengths 64 h, none)], wait := true, cntWait := x.cntWait + 1 }) ∧
    (∀ ls g l, x.installs = (ls, none) :: l → x.freeSlot = some g →
      installs (.installWaitResume p c) g ls { x with installs := l }) ∧
    (∀ g n, idle → g < 8 → ok 256 → (x.gen g).resident = false →
      let d := (opened.vread .control p (addr57 a) 256).1
      d.marked = false → recordValid d.bytes = true → byteAt d.bytes 2 = g + 16 * c → ∃ t, exec (.load p c g n) s = .next t ∧
      t.cmpCtx p c = some { x with result := 0, gens := x.gens.set g ⟨true, 0, n % 2 ^ 32, s.now .control⟩, current := g
                                   installing := true, copies := [], busy := true } ∧ t.host = s.host ∧
      t.mem = ((opened.vread .control p (addr57 a) 256).2.vwrite .control p (addr57 x.tableAddr + 256 * g) d).mem) ∧
    (∀ g n, idle → g < 8 → ok 256 → (x.gen g).resident = true →
      let d := (opened.vread .control p (addr57 a) 256).1
      d.marked = false → recordValid d.bytes = true → byteAt d.bytes 2 = g + 16 * c → ∃ t, exec (.load p c g n) s = .next t ∧
      t.cmpCtx p c = some { x with result := 3 }) ∧
    (∀ g n, idle → ¬ ok 256 → becomes (.load p c g n) { x with result := 1 }) ∧
    (∀ n, idle → ¬ ok (4096 * n) → becomes (.build p c n) { x with result := 1 }) ∧
    (∀ g n, idle → ok 256 → (let d := (opened.vread .control p (addr57 a) 256).1
      recordValid d.bytes = false ∨ d.marked = true ∨ byteAt d.bytes 2 % 8 ≠ g % 8 ∨ byteAt d.bytes 2 / 16 ≠ c) → ∃ t,
      exec (.load p c g n) s = .next t ∧ t.cmpCtx p c = some { x with result := 2 }) ∧
    (∀ g n, idle → g < 8 → ∃ y, becomes (.cmpRelease p c g n) y ∧
      y = { x with result := 0, gens := y.gens, cntOver := x.cntOver + BitVec.ofNat 64 (n - (x.gen g).stored) } ∧
      (y.gen g).stored = (x.gen g).stored - n ∧ (y.gen g).queued = (x.gen g).queued ∧ ∀ k, k ≠ g → y.gen k = x.gen k) ∧
    (∀ op, op % 16 = 0 ∨ 4 ≤ op % 16 → becomes (.cmpCmdNop p c op) (if x.busy then x else { x with result := 0 })) ∧
    (∀ g dq ds l, x.changes = (g, dq, ds) :: l → g < 8 → ∃ y, becomes (.queuedCountChange p c) y ∧
      y = { x with changes := l, gens := y.gens } ∧ (y.gen g).queued = (((x.gen g).queued : Int) + dq).toNat ∧
      (y.gen g).stored = (((x.gen g).stored : Int) + ds).toNat ∧ ∀ k, k ≠ g → y.gen k = x.gen k) ∧
    (∀ g, g < 8 → (x.gen g).resident = true → x.current ≠ g → (x.gen g).queued = 0 → (x.gen g).stored = 0 →
      (x.gen g).zeroSince + 2000 ≤ s.now .control → becomes (.generationFree p c g) { x with gens := x.gens.set g .free }) ∧
    (∀ g, x.current = g ∨ 0 < (x.gen g).queued ∨ 0 < (x.gen g).stored → becomes (.generationFree p c g) x) ∧
    (x.installing = true → becomes (.installDone p c) { x with
      installing := false, wait := !x.installs.isEmpty
      busy := x.busy && (x.hist.isSome || x.installs.any fun e => e.2.isNone) }) ∧
    (∀ g n, ∀ i ∈ [Instr.build p c n, .load p c g n, .cmpRelease p c g n],
      (x.busy = true → exec i s = .next s) ∧
      (x.busy = false → x.enabled = false → becomes i { x with result := 4 }) ∧
      (x.busy = false → x.enabled = true → (s.part p).resetting = true → ∃ o ∈ [1, 2, 3], ∃ g', becomes i { x with busy := true, heldCmd := some (o, g', n, a) })))

/-- R222, R224, R227 to R229: no code is longer than 15 bits, and a block coded with canonical codes decodes to itself. -/
def Obligations.CompressionRoundTrip : Prop :=
  (∀ n h, ∀ l ∈ codeLengths n h, l ≤ 15) ∧
  ∀ (ls : List Nat) (b y : Bytes), ls.length = 256 → (∀ l ∈ ls, 1 ≤ l ∧ l ≤ 15) → kraft ls ≤ 2 ^ 15 → b.length = 4096 →
    payloadOf ls b = some y → y.length < 4096 ∧ decodePayload ls y (crc32c b) = (b, 0)

/-! ## Translation (R257 to R268) -/

/-- R258, R259, R261, R263, R266 to R268: the translation commands, a range fetch, a host line fill, the halving and the pop of
the access table.
R262, R267: an invalidation makes its engine forget the range at once, and is acknowledged when no access that it translated
is in flight; the last acknowledgement completes the removal. -/
def Obligations.TranslationCommands : Prop :=
  (∀ (s : State) (p k : Nat),
    let x := s.xltOf p
    let a := s.xltArg p
    let opened := s.modXlt p fun y => { y with lost := false, result := 0 }
    let answer := fun r => s.modXlt p fun y => { y with lost := false, result := r }
    let d := (opened.vread .control p (addr57 a) 32).1
    let reads := a.testBit 63 = false ∧ s.unmapped p (addr57 a) 32 = none ∧ d.marked = false
    let w := wordAt d.bytes
    let asWritten : Range := { part := p, idx := k, vstart := bits (w 0) 40 0, vlen := bits (w 1) 40 0, tstart := bits (w 2) 40 0
                               kind := bits (w 3) 2 0, write := (w 3).testBit 3, count := (w 3).testBit 4 }
    let applied : Range := { asWritten with
      vlen := (s.targets.good p asWritten.kind asWritten.tstart (min asWritten.vlen (2 ^ 41 - asWritten.vstart))).1
      write := asWritten.write && asWritten.kind != 3, count := asWritten.count && asWritten.kind == 3 }
    let meets := fun (r : Range) => applied.vstart < r.vstart + r.vlen ∧ r.vstart < applied.vstart + applied.vlen
    p < s.xlt.length →
    (x.busy = false → reads → (∀ r ∈ s.ranges, ¬ (r.part = p ∧ r.idx = k)) → 0 < asWritten.vlen → 1 ≤ asWritten.kind →
      asWritten.kind ≤ 3 → 0 < applied.vlen → (∀ r ∈ s.ranges, r.part = p → ¬ meets r) →
      ∀ i ∈ [Instr.rangeAdd p k, .rangeReplace p k], ∃ t, exec i s = .next t ∧ t.ranges = s.ranges ++ [applied] ∧
        (t.xltOf p).result = (if applied = asWritten then 0 else 1) ∧ (t.xltOf p).busy = false ∧ t.cells = s.cells ∧
        t.regs = s.regs ∧ t.host = s.host) ∧
    (x.busy = false → reads → (∀ r ∈ s.ranges, ¬ (r.part = p ∧ r.idx = k)) →
      (asWritten.vlen = 0 ∨ 4 ≤ asWritten.kind ∨ asWritten.kind = 0 ∨ applied.vlen = 0 ∨ ∃ r ∈ s.ranges, r.part = p ∧ meets r) →
      ∀ i ∈ [Instr.rangeAdd p k, .rangeReplace p k], ∃ t, exec i s = .next t ∧ t.ranges = s.ranges ∧ (t.xltOf p).result = 2) ∧
    (x.busy = false → a.testBit 63 = false → s.unmapped p (addr57 a) 32 = none → d.marked = true → s.findRange p k = none →
      ∀ i ∈ [Instr.rangeAdd p k, .rangeReplace p k], ∃ t, exec i s = .next t ∧ t.ranges = s.ranges ∧ (t.xltOf p).result = 5) ∧
    (x.busy = false → a.testBit 63 = true ∨ (s.unmapped p (addr57 a) 32).isSome = true →
      s.findRange p k = none → ∀ i ∈ [Instr.rangeAdd p k, .rangeReplace p k], exec i s = .next (answer 5)) ∧
    (∀ r, x.busy = false → s.findRange p k = some r → exec (.rangeAdd p k) s = .next (answer 3)) ∧
    (∀ r, x.busy = false → s.findRange p k = some r →
      exec (.rangeRead p k) s = .next (s.modXlt p fun y => { y with lost := false, result := 0, entry :=
        [BitVec.ofNat 64 r.vstart, BitVec.ofNat 64 r.vlen, BitVec.ofNat 64 r.tstart,
          BitVec.ofNat 64 (r.kind + 8 * b2n r.write + 16 * b2n r.count)] }) ∧
      ∀ i arg, (i, arg) ∈ [(Instr.rangeRemove p k, none), (.rangeReplace p k, some a)] → exec i s = .next
        ({ s with ranges := s.ranges.filter fun y => !(y.part == p && y.idx == r.idx) }.modXlt p fun y => { y with
          lost := false, result := 0, busy := true, removing := some r, awaited := s.rangeAgents p, acks := [], replace := arg })) ∧
    (x.busy = false → s.findRange p k = none → exec (.rangeRead p k) s = .next (answer 4) ∧
      exec (.rangeRemove p k) s = .next (answer 4)) ∧
    (∀ op, x.busy = false → exec (.xltCmdNop p op) s = .next (answer 0)) ∧
    (∀ op, x.busy = true → ∀ i ∈ [Instr.rangeAdd p k, .rangeRemove p k, .rangeReplace p k, .rangeRead p k, .xltCmdNop p op],
      exec i s = .next (s.modXlt p fun y => { y with lost := true })) ∧
    (∀ e, e ∈ s.rangeAgents p → (s.findRange p k).isSome = true → exec (.rangeFetch e p k) s = .next
      { s.modXlt p fun y => { y with cntMiss := if (s.cached e).contains (p, k) then y.cntMiss else y.cntMiss + 1 } with
        caches := s.caches.filter (fun y => y.1 != e) ++
          [(e, ((p, k) :: (s.cached e).filter (· != (p, k))).take (cacheSize e))] }) ∧
    (∀ e, e ∉ s.rangeAgents p ∨ s.findRange p k = none → exec (.rangeFetch e p k) s = .next s) ∧
    (∀ va, s.hif.up = false ∨ s.hif.cxl = false ∨ s.rangeAt p (addr57 va) = none → exec (.hostLineFill p va) s = .next s) ∧
    (∀ va r, s.hif.up = true → s.hif.cxl = true → s.rangeAt p (addr57 va) = some r → r.kind = 3 →
      let l := r.target (addr57 va) / 64
      ∃ t, exec (.hostLineFill p va) s = .next t ∧ (t.hif.lineCache.head?.map (·.block)) = some l ∧
        (t.hif.lineCache.head?.map (·.data)) = some (s.host.read 64 (64 * l) 64).bytes ∧ t.host = s.host ∧ t.mem = s.mem ∧
        t = { s with hif := t.hif, hot := t.hot } ∧ (r.count = false → t.hot = s.hot)) ∧
    (let due := s.hot.halved + 1000000 * bits (s.reg 0x500000) 47 32
      let now := s.now .host
      (now < due → exec .accessHalving s = .next s) ∧
      (due ≤ now → exec .accessHalving s = .next { s with hot := { s.hot with
        entries := (s.hot.entries.map fun e => (e.1, e.2 / 2)).filter fun e => e.2 != 0, halved := now } })) ∧
    (s.hot.queue = [] → exec .xltHotPop s = .next { s with hif := { s.hif with readData := zeros 8, readMarked := false } }) ∧
    (∀ q r l, s.hot.queue = (q, r) :: l → exec .xltHotPop s = .next { s with
      hot := { s.hot with queue := l }
      hif := { s.hif with readData := leBytes 8 (r % 2 ^ 36 + 2 ^ 36 * q + 2 ^ 63), readMarked := false } })) ∧
  (∀ (s : State) (p : Nat) (r : Range) (e : Agent),
    let x := s.xltOf p
    p < s.xlt.length → x.removing = some r →
    (x.awaited.contains e = true → ∃ t, exec (.rangeInvalidation p e) s = .next t ∧ (p, r.idx) ∉ t.cached e ∧
      (∀ f, f ≠ e → t.cached f = s.cached f) ∧ t = { s with caches := t.caches, xlt := t.xlt } ∧
      (s.rangeInUse e r = false → (t.xltOf p).acks = x.acks ++ [e] ∧ (t.xltOf p).awaited = x.awaited.erase e) ∧
      (s.rangeInUse e r = true → t.xlt = s.xlt)) ∧
    (x.awaited.contains e = false → exec (.rangeInvalidation p e) s = .next s) ∧
    (∀ l, x.acks = e :: l → l ≠ [] ∨ x.awaited ≠ [] → exec (.invalidationAck p) s = .next (s.modXlt p fun y => { y with acks := l })) ∧
    (x.acks = [e] → x.awaited = [] → x.replace = none → exec (.invalidationAck p) s = .next (s.modXlt p fun y => { y with
      busy := false, removing := none, acks := [], replace := none, cntInval := y.cntInval + 1 })) ∧
    (∀ a, x.acks = [e] → x.awaited = [] → x.replace = some a → ∃ t, exec (.invalidationAck p) s = .next t ∧
      (t.xltOf p).busy = false ∧ (t.xltOf p).removing = none ∧ (t.xltOf p).cntInval = x.cntInval + 1 ∧
      ((t.xltOf p).result = 0 ∨ (t.xltOf p).result = 1 → ∃ q, t.ranges = s.ranges ++ [q] ∧ q.part = p ∧ q.idx = r.idx) ∧
      (t.ranges = s.ranges ∨ (t.xltOf p).result = 0 ∨ (t.xltOf p).result = 1)))

/-! ## The image (R269 to R298) -/

/-- R287, R291, R292, R296, R297: what the image commands and the end of a staging read do. -/
def Obligations.ImageCommands : Prop :=
  ∀ (s : State) (op : Nat),
    let i := s.image
    let opened := { i with lost := false, result := 0 }
    (i.busy = true → ∀ c ∈ [Instr.imgStage, .imgCommit, .imgDiscard, .imgCmdNop op],
      exec c s = .next { s with image := { i with lost := true } }) ∧
    (i.busy = false → exec (.imgCmdNop op) s = .next { s with image := opened } ∧
      (i.st = 2 → exec .imgStage s = .next { s with image := { opened with result := 4 } }) ∧
      (i.st ≠ 2 → lengthOk (s.reg 0x310) = true →
        exec .imgStage s = .next { s with image := { opened with
          st := 1, busy := true, area := [], stageAddr := 64 * (s.reg 0x308 / 64), stageLen := s.reg 0x310 } }) ∧
      (i.st ≠ 2 → lengthOk (s.reg 0x310) = false → ∃ t, exec .imgStage s = .next t ∧
        t = { s with image := { opened with st := 0, result := 1, staged := none, area := t.image.area } }) ∧
      (i.staged = none → ∀ c ∈ [Instr.imgCommit, .imgDiscard], exec c s = .next { s with image := { opened with result := 5 } }) ∧
      (∀ x, i.staged = some x →
        exec .imgDiscard s = .next { s with image := { opened with st := 0, staged := none } } ∧
        (s.pairCommit x = false → s.parts.length = 16 → x.part < 16 → ∃ t, exec .imgCommit s = .next t ∧
          t = { s with
            parts := t.parts
            image := { opened with
              st := 3, busy := true, closedAt := s.now .control, ended := 0, waitPartner := false, applying := false } } ∧
          ∀ q < 16, t.part q =
            if x.whole = true ∨ q = x.part then { s.part q with committing := true, opened := false } else s.part q) ∧
        (s.pairCommit x = true → ∃ t, exec .imgCommit s = .next t ∧ t.parts = s.parts ∧ t.image = { opened with
          st := 3, busy := true, closedAt := s.now .control, waitPartner := true, applying := false } ∧
          t.hrv.cmds = s.hrv.cmds ++ [⟨8, x.part, 0, x.digest, true⟩]))) ∧
    (i.st = 1 → s.power.imageReady = true → s.hrv.cmds = [] →
      let d := s.host.read 64 i.stageAddr i.stageLen
      let head := s.host.read 64 i.stageAddr 128
      let img := d.bytes
      let rejected := fun (o : ReadOutcome) (r : Nat) => ∃ t, exec (.stageDone o) s = .next t ∧ t.image.st = 0 ∧
        t.image.busy = false ∧ t.image.result = r ∧ t.image.staged = none ∧ t = { s with image := t.image, hif := t.hif }
      rejected .failed 3 ∧ (s.hif.up = false → ∀ o, rejected o 3) ∧
      (s.hif.up = true → head.marked = true → ∀ o, rejected o 3) ∧
      (s.hif.up = true → head.marked = false → headerOk head.bytes i.stageLen = false → rejected .ok 1) ∧
      (s.hif.up = true → head.marked = false → headerOk head.bytes i.stageLen = true → d.marked = true → rejected .ok 3) ∧
      (s.hif.up = true → d.marked = false → headerOk (img.take 128) img.length = true → s.signatureOk img = false →
        rejected .ok 2) ∧
      (s.hif.up = true → d.marked = false → headerOk (img.take 128) img.length = true → s.signatureOk img = true →
        ∃ t x, exec (.stageDone .ok) s = .next t ∧ t.image.st = 2 ∧ t.image.busy = false ∧ t.image.result = 0 ∧
        t.image.staged = some x ∧ x.digest = Sys2Proof.Machine.sha384 (img.take (img.length - 128)) ∧
        x.serial = BitVec.ofNat 64 (wordAt img 3) ∧ (x.whole = true ↔ bits (wordAt img 0) 49 48 = 0) ∧
        x.part = bits (wordAt img 0) 55 52 ∧ t = { s with image := t.image, hif := t.hif })) ∧
    (i.st ≠ 1 → ∀ o, exec (.stageDone o) s = .next s)

/-- R289, R290, R292: the boundary removes the stale ranges once no batch of the scope runs, the limit ends the jobs that still
do, and the end of the apply phase puts the staged image in force and reopens admission. -/
def Obligations.ImageCommit : Prop :=
  ∀ (s : State) (x : Staged),
    let i := s.image
    let inScope := fun p => x.whole = true ∧ p < 16 ∨ p = x.part
    i.staged = some x → i.st = 3 → x.part < 16 → s.parts.length = 16 →
    (i.applying = false → i.waitPartner = false → (∀ p, inScope p → (s.part p).resetting = false) →
      (∀ p, inScope p → (s.svc p).busy = false ∨ (s.svc p).heldCmd ≠ none) →
      (∀ b ∈ s.batches, inScope b.part → b.running = [] ∧ b.replayed = false ∧ b.replayable = false) → ∃ t,
      exec .epochBoundary s = .next t ∧ t = { s with ranges := t.ranges, caches := t.caches, image := { i with
        applying := true, removing := t.image.removing } } ∧
      (∀ r, r ∈ t.ranges ↔ r ∈ s.ranges ∧ (¬ inScope r.part ∨ r ∈ x.ranges)) ∧
      ∀ r, r ∈ t.image.removing ↔ r ∈ s.ranges ∧ inScope r.part ∧ r ∉ x.ranges) ∧
    (∀ b ∈ s.batches, inScope b.part → b.running ≠ [] → exec .epochBoundary s = .next s) ∧
    (i.applying = false → i.waitPartner = true → i.closedAt + 1000000 * bits (s.reg 0x320) 13 0 ≤ s.now .control → ∃ t,
      exec .commitLimit s = .next t ∧ t.hrv.st = 7 ∧ t.image.waitPartner = false ∧
      ∀ p < 16, inScope p → (t.part p).committing = true ∧ (t.part p).opened = false) ∧
    (i.applying = false → i.waitPartner = false → i.closedAt + 1000000 * bits (s.reg 0x320) 13 0 ≤ s.now .control → ∃ t,
      exec .commitLimit s = .next t ∧ t.image = { i with ended := t.image.ended } ∧ i.ended ⊓ 65535 ≤ t.image.ended ∧
      (∀ c ∈ t.cells, ∀ j : Job, c.job = some j ∨ c.susp = some j ∨ j ∈ c.startQ →
        ∀ b ∈ s.batches, b.handle = j.handle → ¬ inScope b.part) ∧ t.mem = s.mem ∧ t.parts = s.parts) ∧
    (s.now .control < i.closedAt + 1000000 * bits (s.reg 0x320) 13 0 → exec .commitLimit s = .next s) ∧
    (i.applying = true → (∀ r ∈ i.removing, ∀ a ∈ s.rangeAgents r.part, s.rangeInUse a r = false) →
      (∀ p, (s.svc p).heldCmd = none) → ∃ t, exec .applyDone s = .next t ∧
      t.image.st = 0 ∧ t.image.busy = false ∧ t.image.staged = none ∧ t.image.result = 0 ∧ t.image.applying = false ∧
      (x.whole = true → t.image.measure = x.digest :: List.replicate 16 (List.replicate 48 0) ∧ t.image.serial = x.serial ∧
        t.image.measureSerial = x.serial :: List.replicate 16 0 ∧ t.image.pserial = List.replicate 16 0 ∧ t.image.frames = x.frames ∧ t.image.grants = x.grants) ∧
      (x.whole = false → t.image.measure = i.measure.set (x.part + 1) x.digest ∧ t.image.serial = i.serial ∧
        t.image.measureSerial = i.measureSerial.set (x.part + 1) x.serial ∧ t.image.pserial = i.pserial.set x.part x.serial ∧ t.image.frames = i.frames ∧ t.image.grants = i.grants) ∧
      (∀ p < 16, inScope p → (t.part p).committing = false ∧ (t.part p).opened = t.mayOpen p) ∧
      (∀ p < 16, ¬ inScope p → t.part p = s.part p) ∧
      (∀ r, r ∈ t.ranges ↔ r ∈ s.ranges ∨ r ∈ x.ranges) ∧
      (∀ k < s.cells.length, ∀ g, (s.cell k).logical = some g → x.whole = true ∨ (s.cell k).part = some x.part →
        (t.cell k).job = none ∧ (t.cell k).startQ = [] ∧ (t.cell k).comp = .fresh ∧
        ∀ y ∈ x.cells, (∀ z ∈ x.cells, z.g = g → z = y) → y.g = g → (t.cell k).img = y.img ∧
          (x.whole = true → (t.cell k).part = some y.part)) ∧
      (x.whole = false → ∀ k < s.cells.length, (s.cell k).part ≠ some x.part → (t.cell k).job = (s.cell k).job ∧
        (t.cell k).img = (s.cell k).img ∧ (t.cell k).part = (s.cell k).part) ∧ t.host = s.host)

/-! ## Partitions (R299 to R323) -/

/-- R12, R145, R301, R303, R304, R322: one edge of admission takes the LC ring before the BE ring, gives every cell that the descriptor names
and the partition owns a job, binds the CURRENT epochs, or completes the descriptor at once with the status that says why; a write of a ring control register counts the clamp of SIZE. -/
def Obligations.BatchAdmission : Prop :=
  ∀ (s : State) (p : Nat) (be : Bool),
    let u := s.part p
    let cls := if be then Cls.be else Cls.lc
    let size := 2 ^ bits (s.ringCtl p be) 3 0
    let base := 128 * (s.reg (partBase p + if be then 0x20 else 0x10) / 128)
    let d := s.host.read 64 (base + 128 * ((s.ringHead p be).toNat % size)) 128
    let own := (descCells d.bytes).filter (s.owns p)
    let passed := fun (t : State) => t.ringHead p be = s.ringHead p be + 1 ∧ t.ringTail p be = s.ringTail p be ∧ t.host = s.host ∧
      t.mem = s.mem ∧ t.regs = s.regs
    let refused := fun (status : Nat) => ∃ t r, exec (.admission p) s = .next t ∧ passed t ∧ t.batches = s.batches ∧
      t.cells = s.cells ∧ t.bindings = s.bindings ∧ (t.part p).held = u.held ++ [(0xFFFFFFFF, r)] ∧
      bits (wordAt r 1) 47 40 = status ∧ bits (wordAt r 1) 31 0 = 0xFFFFFFFF ∧ (status ≠ 6 → wordAt r 0 = wordAt d.bytes 1)
    let counted := fun (old : Nat) (val : BitVec 64) => let z := bits val.toNat 3 0
      if old.testBit 4 = false ∧ (z < 4 ∨ 12 < z) then { s with health := { s.health with cntClamps := s.health.cntClamps + 1 } } else s
    p < 16 → s.parts.length = 16 →
    (u.waits = [] →
    (s.ringReady p false = false → s.ringReady p true = false → exec (.admission p) s = .next s) ∧
    (s.ringReady p be = true → (be = true → s.ringReady p false = false) →
      (u.defined = false → d.marked = false → refused 7) ∧
      (u.defined = true → u.drained = true → d.marked = false → refused 4) ∧
      (u.defined = true → u.drained = false → s.power.suspectHold = false → u.opened = false ∨ s.room p cls = false →
        exec (.admission p) s = .next s) ∧
      (u.defined = true → u.drained = false → s.power.suspectHold = false → u.opened = true → s.room p cls = true →
        (d.marked = true → refused 6) ∧
        (d.marked = false → own = [] → refused 5) ∧
        (d.marked = false → own ≠ [] → s.mirrored p = false → s.bindings.length + s.batches.length < 2 ^ 31 →
          ∃ t b, exec (.admission p) s = .next t ∧ passed t ∧ t.batches = s.batches ++ [b] ∧
          (b.part = p ∧ b.cls = cls ∧ b.running = own ∧ b.cells = own ∧ b.jobs = own.length ∧
            b.dropped = (descCells d.bytes).length - own.length ∧ b.status = 0 ∧ b.complete = false ∧
            b.admitAt = s.now .control ∧ b.path = b2n be ∧ wordAt b.desc 1 = wordAt d.bytes 1) ∧
          (b.handle < 0xFFFFFFFF ∧ (∀ x ∈ s.bindings, x.handle ≠ b.handle) ∧ ∀ x ∈ s.batches, x.handle ≠ b.handle) ∧
          (t.part p).cntAdmitLc = u.cntAdmitLc + (if be then 0 else 1) ∧ (t.part p).cntAdmitBe = u.cntAdmitBe + (if be then 1 else 0) ∧
          (∀ x, x ∈ t.bindings ↔ x ∈ s.bindings ∨ ∃ e ∈ s.tables, e.part = p ∧
            x = ⟨b.handle, 0, p, e.table, ((s.current e.table).map (·.no)).getD 0⟩) ∧
          (∀ g i, g ∈ own → s.posOf g = some i → ∃ j : Job, t.cell i = { s.cell i with startQ := (s.cell i).startQ ++ [j] } ∧
            j.handle = b.handle ∧ j.cls = cls ∧ j.entry = bits (wordAt d.bytes 0) 27 16 ∧
            j.param = BitVec.ofNat 32 (bits (wordAt d.bytes 0) 63 32)) ∧
          ∀ i, (∀ g ∈ own, s.posOf g ≠ some i) → t.cell i = s.cell i)))) ∧
    (∀ val : BitVec 64, let r := partBase p + if be then 0x28 else 0x18
      let old := s.ringCtl p be
      let sz := if old.testBit 4 then bits old 3 0 else max 4 (min 12 (bits val.toNat 3 0))
      let tail := BitVec.ofNat 16 (bits val.toNat 63 48)
      exec (.submissionRingCtlWrite p be val) s = .next (((counted old val).setReg r (sz + 16 * b2n (val.getLsbD 4))).modPart p fun x =>
        let tail := if (tail - s.ringHead p be).toNat ≤ 2 ^ sz then tail else s.ringTail p be
        if be then { x with beTail := tail } else { x with lcTail := tail })) ∧
    (∀ val : BitVec 64, let old := s.reg (partBase p + 0x38)
      let sz := if old.testBit 4 then bits old 3 0 else max 4 (min 12 (bits val.toNat 3 0))
      let head := BitVec.ofNat 16 (bits val.toNat 31 16)
      exec (.cqCtlWrite p val) s = .next (((counted old val).setReg (partBase p + 0x38) (sz + 16 * b2n (val.getLsbD 4))).modPart p fun x =>
        { x with cqHead := if (u.cqTail - head).toNat ≤ 2 ^ sz then head else u.cqHead }))

/-- R145, R308, R309, R321, R323, R346: the completion of a batch and of its record. -/
def Obligations.BatchCompletion : Prop :=
  ∀ (s : State) (h : Nat) (b : Batch),
    let p := b.part
    let u := s.part p
    s.batch h = some b → p < 16 → s.parts.length = 16 →
    (b.running ≠ [] ∨ b.complete = true ∨ (b.replayable = true ∧ b.decided = false) → exec (.batchComplete h) s = .next s) ∧
    (s.batchReady b = true → b.path < 2 → ∃ t, exec (.batchComplete h) s = .next t ∧
      t.batch h = some { b with complete := true, doneAt := s.now .control } ∧ (t.part p).held = u.held ++ [(h, [])] ∧
      (∀ g i, g ∈ b.cells → s.posOf g = some i → t.cell i = { s.cell i with written := [] } ∧
        ∀ k ∈ (s.cell i).written, (t.engine k).mem.wcb = []) ∧
      (∀ i, (∀ g ∈ b.cells, s.posOf g ≠ some i) → t.cell i = s.cell i) ∧
      (∀ d < s.dieCount, (∀ k, (Agent.frontEnd d, k) ∈ s.wrote → (t.engine k).mem.wcb = []) ∧ ∀ e ∈ t.wrote, e.1 ≠ .frontEnd d) ∧
      t.host = s.host ∧ t.regs = s.regs ∧
      (s.cqRoom p (u.held.length + 1) = true → (t.part p).cntCqWait = u.cntCqWait ∧
        ∀ x ∈ t.bindings, ¬ (x.kind = 0 ∧ x.handle = h)) ∧
      (s.cqRoom p (u.held.length + 1) = false → (t.part p).cntCqWait = u.cntCqWait + 1 ∧ t.bindings = s.bindings)) ∧
    (s.batchReady b = true → b.path = 2 → b.pathArg < s.hif.slots.length → b.status < 256 → b.jobs < 65536 → ∃ t r,
      exec (.batchComplete h) s = .next t ∧ t.batch h = some { b with complete := true, doneAt := s.now .control } ∧
      (t.mbx b.pathArg).reply = some r ∧ wordAt r 0 = wordAt b.desc 1 ∧ bits (wordAt r 1) 31 0 = h % 2 ^ 32 ∧
      bits (wordAt r 1) 47 40 = b.status ∧ bits (wordAt r 1) 63 48 = b.jobs ∧ (t.part p).held = u.held) ∧
    (s.batchReady b = true → b.path = 3 → ∃ t, exec (.batchComplete h) s = .next t ∧
      t.batches = s.batches.filter (fun x => x.handle != h) ∧ ∀ x ∈ t.bindings, ¬ (x.kind = 0 ∧ x.handle = h)) ∧
    (∀ l, u.held = (h, []) :: l → s.cqRoom p 1 = true → wordAt b.desc 3 = 0 → s.hif.sriov = false → b.journalSlot = none →
      b.status < 256 → b.jobs < 65536 →
      let a := 64 * (s.reg (partBase p + 0x30) / 64) + 64 * (u.cqTail.toNat % 2 ^ bits (s.reg (partBase p + 0x38)) 3 0)
      ∃ t, exec (.completionRecord p) s = .next t ∧ t.batches = s.batches.filter (fun x => x.handle != h) ∧
      (t.part p).held = l ∧ (t.part p).cqTail = u.cqTail + 1 ∧ t.hif.vectors = s.hif.vectors ++ [p] ∧
      (let r := (t.host.read 64 a 64).bytes
       wordAt r 0 = wordAt b.desc 1 ∧ bits (wordAt r 1) 31 0 = h % 2 ^ 32 ∧ bits (wordAt r 1) 47 40 = b.status ∧
       bits (wordAt r 1) 63 48 = b.jobs ∧ wordAt r 2 = b.admitAt % 2 ^ 64 ∧ wordAt r 3 = b.doneAt % 2 ^ 64) ∧
      (∀ x, x < a ∨ a + 64 ≤ x → t.host.get x = s.host.get x) ∧ ∀ x ∈ t.bindings, ¬ (x.kind = 0 ∧ x.handle = h)) ∧
    (u.held = [] ∨ s.cqRoom p 1 = false → exec (.completionRecord p) s = .next s) ∧
    exec (.partLcWaitMaxRead p) s = .next { s.modPart p fun x => { x with lcWaitMax := 0 } with
      hif := { s.hif with readData := leBytes 8 u.lcWaitMax, readMarked := false } } ∧
    (∀ fn, fn = 0 ∨ fn = p + 1 → ∃ t, exec (.partFlush fn p) s = .next t ∧
      (s.engines.length = s.stackCount → ∀ e ∈ t.engines, e.mem.wcb = []) ∧
      t.hif.readData = leBytes 8 (s.now .host) ∧ t.hif.readMarked = false ∧ t.cells = s.cells ∧ t.host = s.host ∧
      ∀ e ∈ t.hif.bufs, e.1 = fn → e.2 = []) ∧
    (∀ fn, fn ≠ 0 → fn ≠ p + 1 → exec (.partFlush fn p) s = .next s)

/-- R307, R311 to R319: how jobs take a cell: start, preemption, the slice limit, resumption, the move to a SPARE position. -/
def Obligations.CellScheduling : Prop :=
  ∀ (s : State) (g i p : Nat),
    let c := s.cell i
    let noShadow := bits (s.reg (faultBase + 0x100 + 8 * p)) 4 0 = 0
    let ready := fun k => (c.ctx k).heldOverflow = none ∧ (c.ctx k).owedAny = [] ∧ (c.ctx k).queues.length = 16 ∧
      ((c.ctx k).queue 15).owed = 0 ∧ ((c.ctx k).queue 15).toks.length < min 64 ((c.ctx k).queue 15).depth
    let others := fun (t : State) => (∀ n, n ≠ i → t.cell n = s.cell n) ∧ t.mem = s.mem ∧ t.host = s.host ∧ t.regs = s.regs
    let starts := fun (t : State) (j : Job) => (t.cell i).job = some j ∧ (t.cell i).startQ = c.startQ.erase j ∧ (t.cell i).st = 1 ∧
      (t.cell i).cur.step = min j.entry (c.img.steps.length - 1) ∧ (t.cell i).cur.loops = [] ∧ (t.cell i).comp = .fresh ∧
      (t.cell i).readBuf = [] ∧ (t.cell i).held = none ∧ (t.cell i).scratch = c.scratch ∧
      ((t.cell i).cur.queue 15).toks = ((c.ctx j.cls).queue 15).toks ++ [⟨BitVec.ofNat 32 j.handle, .control, false, none, none⟩] ∧
      (t.cell i).cur.viewStamp = 0
    s.posOf g = some i → c.part = some p → p < s.parts.length → noShadow →
    (∀ j, c.st = 0 → c.job = none → c.susp = none → ready j.cls →
      (∃ l m, c.startQ = l ++ j :: m ∧ j.cls = .lc ∧ ∀ x ∈ l, x.cls = .be) ∨ (c.startQ.head? = some j ∧ ∀ x ∈ c.startQ, x.cls = .be) →
      ∃ t, exec (.jobStart g) s = .next t ∧ starts t j ∧ others t) ∧
    (c.st ≠ 0 ∨ c.job.isSome = true ∨ c.startQ = [] → exec (.jobStart g) s = .next s) ∧
    (∀ b, c.job = some b → b.cls = .be → (∃ j ∈ c.startQ, j.cls = .lc) →
      exec (.preemptionRequest g) s = .next (s.putCell i { c with pend := { c.pend with preempt := true } })) ∧
    (c.job = none ∨ (∀ j ∈ c.startQ, j.cls = .be) → exec (.preemptionRequest g) s = .next s) ∧
    (∀ b l j m, c.job = some b → b.cls = .be → c.startQ = l ++ j :: m → j.cls = .lc → (∀ x ∈ l, x.cls = .be) → j.behindBe = false →
      ready .lc → s.heldAtLayer i = true → c.pend.preempt = true → ∃ t, exec (.preempt g) s = .next t ∧ starts t j ∧ others t ∧
      (t.cell i).susp = some b ∧ (t.cell i).be = c.be ∧ t.parts = s.parts.modify p (fun u => { u with cntPreempt := u.cntPreempt + 1 }) ∧
      ∀ x, s.batch b.handle = some x → t.batch b.handle = some { x with preempted := x.preempted + 1 }) ∧
    (∀ b, c.job = some b → b.cls = .be → c.st = 1 ∨ c.st = 2 →
      let passed := s.now (.cell i) - c.pend.sliceStart
      let limit := 1000 * (s.part p).sliceUs
      (passed < limit → exec (.sliceLimit g) s = .next s) ∧
      (limit ≤ passed → c.pend.preempt = true → ∃ t, exec (.sliceLimit g) s = .next t ∧ (t.cell i).job = none ∧ others t ∧
        t.parts = s.parts.modify p (fun u => { u with cntSliceEnd := u.cntSliceEnd + 1 }) ∧
        ∀ x, s.batch b.handle = some x → t.batch b.handle = some (x.jobEnded g 2 0)) ∧
      (limit < passed → c.pend.preempt = false → c.pend.sliceOver = false → exec (.sliceLimit g) s = .next
        ((s.putCell i { c with pend := { c.pend with sliceOver := true } }).modPart p fun u =>
          { u with cntSliceOver := u.cntSliceOver + 1 }))) ∧
    (∀ j, c.susp = some j → c.st = 0 → c.job = none → (∀ x ∈ c.startQ, x.cls = .be) → c.be.heldOverflow = none →
      ∃ t, exec (.beResume g) s = .next t ∧ (t.cell i).job = some j ∧ (t.cell i).susp = none ∧ (t.cell i).st = 1 ∧
      (t.cell i).comp = .fresh ∧ (t.cell i).be = c.be ∧ (t.cell i).startQ = c.startQ ∧ others t) ∧
    (∀ k, s.spareOf (i / 40) = some k → s.dieTesting i = false → i < s.health.jigs.length → (s.jig i).pending = true →
      (s.jig i).due ≤ s.now (.cell i) → c.st = 0 → c.job = none → c.susp = none → ∃ t, exec (.jigMove g) s = .next t ∧
      (t.cell k).logical = some g ∧ (t.cell k).st = 8 ∧ (t.cell k).scratch = c.scratch ∧ (t.cell k).part = c.part ∧
      (t.cell i).logical = none ∧ (t.cell i).st = 5 ∧ (t.jig i).running = true ∧ (t.jig i).pending = false ∧
      (t.part p).cntMoves = (s.part p).cntMoves + 1 ∧ ∀ n, n ≠ i → n ≠ k → t.cell n = s.cell n) ∧
    (s.dieTesting i = true ∨ s.spareOf (i / 40) = none → exec (.jigMove g) s = .next s) ∧
    (c.st = 8 → c.job = none → exec (.moveDone g) s = .next (s.putCell i
      (if c.pend.drain = true ∧ c.susp = none then { c with st := 4, pend := { c.pend with drain := false } } else { c with st := 0 }))) ∧
    (∀ j, c.st = 8 → c.job = some j → ∃ t, exec (.moveDone g) s = .next t ∧ (t.cell i).st = 1 ∧ (t.cell i).job = some j ∧
      (t.cell i).held = none ∧ (t.cell i).cur = c.cur ∧ others t) ∧
    (c.st ≠ 8 → exec (.moveDone g) s = .next s)

/-! ## The host interface (R324 to R352) -/

/-- R199, R329 to R332, R334, R347: BAR2 accesses of the physical function, a store of the host to its own memory, and the end of
a host transfer. -/
def Obligations.HostAccesses : Prop :=
  ∀ (s : State),
    (∀ a data m, a % 64 = 0 → data.length = 64 → a < s.devEnd → (s.frame (a / 2 ^ 30)).1 = 1 ∨ (s.frame (a / 2 ^ 30)).1 = 2 →
      (s.engine (s.stackOf a)).mem.dead (s.channelOf a) = false → s.mirrors = false → ∃ t,
      exec (.bar2Write 0 (a + 2 ^ 63 * b2n m) data) s = .next t ∧ t.mem.read 64 a 64 = Data.mark m data ∧ (∀ x, x < a ∨ a + 64 ≤ x → t.mem.get x = s.mem.get x) ∧ t.cells = s.cells ∧
      t.host = s.host ∧ t.regs = s.regs ∧ t.hif.cntUnmapped = s.hif.cntUnmapped) ∧
    (∀ a data, 0 < data.length → a < 2 ^ 63 → a % 2 ^ 30 + data.length ≤ 2 ^ 30 →
      s.devEnd ≤ a ∨ ((s.frame (a / 2 ^ 30)).1 ≠ 1 ∧ (s.frame (a / 2 ^ 30)).1 ≠ 2) →
      exec (.bar2Write 0 a data) s = .next { s with hif := { s.hif with cntUnmapped := s.hif.cntUnmapped + 1 } }) ∧
    (∀ a n e, 0 < n → a % 256 + n ≤ 256 → a < s.devEnd → (s.frame (a / 2 ^ 30)).1 = 1 →
      (s.bar2Buf 0).find? (fun x => x.block == a / 256) = some e → s.now .host ≤ e.fill + 10000 → ∃ t,
      exec (.bar2Read 0 a n) s = .next t ∧ t.hif.readData = (e.data.drop (a % 256)).take n ∧ t.mem = s.mem ∧
      t.engines = s.engines ∧ t.cells = s.cells) ∧
    (∀ a n, 0 < n → a % 256 + n ≤ 256 → a < s.devEnd → (s.frame (a / 2 ^ 30)).1 = 1 → (∀ x ∈ s.bar2Buf 0, x.block ≠ a / 256) →
      (∀ e ∈ s.engines, e.mem.wcb = [] ∧ e.mem.failed = false ∧ e.mem.lost = []) → ∃ t, exec (.bar2Read 0 a n) s = .next t ∧
      t.hif.readData = (s.mem.read 64 a n).bytes ∧ t.hif.readMarked = (s.mem.read 64 a n).marked ∧ t.mem = s.mem ∧ t.cells = s.cells ∧ t.host = s.host) ∧
    (∀ a data, 0 < data.length → ∃ t, exec (.snoop a data) s = .next t ∧
      t = { s with host := t.host, hif := { s.hif with lineCache := t.hif.lineCache } } ∧
      (∀ k < data.length, t.host.get (a + k) = data.getD k 0) ∧
      (∀ x, x < a ∨ a + data.length ≤ x → t.host.get x = s.host.get x) ∧
      ∀ e, e ∈ t.hif.lineCache ↔ e ∈ s.hif.lineCache ∧ (64 * e.block + 64 ≤ a ∨ a + data.length ≤ 64 * e.block)) ∧
    (∀ g i o, s.posOf g = some i → (s.cell i).transfer = some o → (s.cell i).held = none →
      let ended := fun (c : Instr) (status : Nat) (t : State) => exec c s = .next t ∧
        t.tokens = s.tokens ++ [(g, o.q, o.cls, ⟨BitVec.ofNat 32 (2 ^ 24 * status), .cell g, true, none, none⟩)] ∧
        (t.cell i).open_ = (s.cell i).open_.filter (fun x => x.id != o.id) ∧ (t.cell i).st = (s.cell i).st ∧
        (t.cell i).cur = (s.cell i).cur ∧ (∀ n, n ≠ i → t.cell n = s.cell n) ∧ t.mem = s.mem
      (s.hif.up = true → o.kind = 0x90 → ∃ t, ended (.hostTransferDone g 0) 0 t ∧ t.host = s.host ∧
        (t.cell i).scratch = (s.cell i).scratch.write 64 o.dst (s.host.read 64 o.src o.len)) ∧
      (s.hif.up = true → o.kind = 0x91 → ∃ t, ended (.hostTransferDone g 0) 0 t ∧ t.host = s.host.write 64 o.dst o.data ∧
        (t.cell i).scratch = (s.cell i).scratch) ∧
      (∀ status, status = 2 ∨ status = 3 → o.kind = 0x90 → ∃ t, ended (.hostTransferDone g status) status t ∧ t.host = s.host ∧
        ∀ x, x < o.dst ∨ o.dst + o.len ≤ x → (t.cell i).scratch.get x = (s.cell i).scratch.get x) ∧
      (∀ status, status = 2 ∨ status = 3 → o.kind = 0x91 → ∃ t, ended (.hostTransferDone g status) status t ∧
        (t.cell i).scratch = (s.cell i).scratch ∧ (∀ x, x < o.dst ∨ o.dst + o.len ≤ x → t.host.get x = s.host.get x) ∧
        ∀ k < o.len, t.host.get (o.dst + k) = s.host.get (o.dst + k) ∨
          (o.data[k]?).map Prod.fst = some (t.host.get (o.dst + k))) ∧
      (∀ status, (status = 0 ∧ s.hif.up = false) ∨ status = 1 ∨ 4 ≤ status → exec (.hostTransferDone g status) s = .next s) ∧
      (let due := o.since + 1000000 * bits (s.reg 0x100008) 6 0
       (s.now .host < due → exec (.completionTimeout g) s = .next s) ∧
        (due ≤ s.now .host → ∃ t, ended (.completionTimeout g) 3 t ∧ t.hif.cntCto = s.hif.cntCto + 1)))

/-- R340 to R343: a slot is written while the host owns it, a doorbell hands it to the device, SUBMIT admits its descriptor, and
a reply is written to host memory with DONE and the slot given back. -/
def Obligations.Mailbox : Prop :=
  ∀ (s : State) (k : Nat),
    let x := s.mbx k
    let base := if 4096 * (s.reg (vfMbxBase (s.mbxOwner k)) / 4096) ≠ 0 then 4096 * (s.reg (vfMbxBase (s.mbxOwner k)) / 4096)
      else 4096 * (s.reg 0x200008 / 4096)
    let replied := fun (c : Instr) (rec result : Bytes) (status : Nat) => ∃ t, exec c s = .next t ∧
      t.mbx k = { x with device := false, rung := false, handle := none, reply := none } ∧
      t.host.read 64 (base + 256 * k) 256 = Data.clean (rec ++ zeros (64 - rec.length) ++ result ++ zeros (160 - result.length) ++
        zeros 24 ++ [BitVec.ofNat 8 status, 1, 0, 0] ++ (x.data.drop 4).take 4) ∧
      t.hif.vectors = s.hif.vectors ++ [16] ∧ t.batches = s.batches ∧ t.cells = s.cells
    let live := s.hif.up = true ∧ s.mbxOn = true ∧ x.device = true ∧ x.data.length = 256 ∧ s.hif.sriov = false
    k < 64 → k < s.hif.slots.length →
    (∀ o d, 0 < d.length → o + d.length ≤ 256 → x.device = false → exec (.mbxSlotWrite 0 (256 * k + o) d) s =
      .next (s.modMbx k fun y => { y with data := y.data.take o ++ d ++ y.data.drop (o + d.length) })) ∧
    (∀ o d, 0 < d.length → o + d.length ≤ 256 → x.device = true → exec (.mbxSlotWrite 0 (256 * k + o) d) s = .next s) ∧
    (∀ d, d.length = 4 → byteAt d 0 % 64 = k →
      (x.device = false → s.mbxOn = true → ∃ t, exec (.mbxDoorbell 0 0x8000 d) s = .next t ∧
        t.mbx k = { x with device := true, rung := true, handle := none, reply := none } ∧
        t.hif.cntReq = s.hif.cntReq + 1 ∧ t = { s with hif := t.hif, parts := t.parts } ∧
        (byteAt x.data 0 ≠ 1 → t.parts = s.parts) ∧
        (byteAt x.data 0 = 1 → s.mbxOwner k < s.parts.length → (t.part (s.mbxOwner k)).waits =
          (s.part (s.mbxOwner k)).waits ++ [⟨2, k, 0, .lc, x.desc, (s.part (s.mbxOwner k)).lcTail⟩])) ∧
      (x.device = true ∨ s.mbxOn = false → exec (.mbxDoorbell 0 0x8000 d) s =
        .next { s with hif := { s.hif with cntDbLost := s.hif.cntDbLost + 1 } })) ∧
    (∀ d, d.length = 2 → exec (.mbxDoorbell 0 0x8000 d) s =
      .next { s with hif := { s.hif with cntDbLost := s.hif.cntDbLost + 1 } }) ∧
    (∀ p w l, p < 16 → s.parts.length = 16 → (s.part p).waits = w :: l → w.path = 2 → w.arg = k → w.cls = .lc →
      (∀ q < 16, q ≠ p → ∀ v ∈ (s.part q).waits, v.arg ≠ k) → s.ringReady p false = false → (s.part p).defined = true →
      (s.part p).drained = false → s.power.suspectHold = false → (s.part p).opened = true → s.room p .lc = true →
      s.mirrored p = false → (∃ g ∈ descCells w.desc, s.owns p g = true) → ∃ t b, exec (.mbxSubmit k) s = .next t ∧
      t.batches = s.batches ++ [b] ∧ b.part = p ∧ b.path = 2 ∧ b.pathArg = k ∧
      b.running = (descCells w.desc).filter (s.owns p) ∧ (t.part p).waits = l ∧ (t.mbx k).handle = some b.handle) ∧
    (live → x.rung = true → byteAt x.data 0 = 2 →
      replied (.mbxEcho k) [] (((x.data.drop 32).take 128).take (min 160 (leNat ((x.data.drop 16).take 2)))) 0) ∧
    (live → x.rung = true → byteAt x.data 0 ≠ 1 → byteAt x.data 0 ≠ 2 → replied (.mbxBadOp k) [] [] 1) ∧
    (∀ rec, live → x.reply = some rec → rec.length = 64 → x.handle = none →
      let a := addr57 (wordAt x.data 1)
      let n := min 160 (leNat ((x.data.drop 16).take 2))
      let d := (s.vread .control (s.mbxOwner k) a n).1
      (a = 0 ∨ n = 0 → replied (.mailboxReply k) rec [] 0) ∧
      (a ≠ 0 → n ≠ 0 → (s.unmapped (s.mbxOwner k) a n).isSome = true ∨ d.marked = true → replied (.mailboxReply k) rec [] 2) ∧
      (a ≠ 0 → n ≠ 0 → s.unmapped (s.mbxOwner k) a n = none → d.marked = false → replied (.mailboxReply k) rec d.bytes 0)) ∧
    (∀ rec h b, live → x.reply = some rec → x.handle = some h → s.batch h = some b → b.handle = h → ∃ t,
      exec (.mailboxReply k) s = .next t ∧ t.batches = s.batches.filter (fun y => y.handle != h) ∧ (t.mbx k).device = false ∧
      (t.mbx k).reply = none ∧ ∀ y ∈ t.bindings, ¬ (y.kind = 0 ∧ y.handle = h)) ∧
    (x.reply = none → exec (.mailboxReply k) s = .next s)

/-- R335 to R339, R350, R352: a copy takes its descriptor and its source, and completes with its data at the destination and its
write-back in the ring; a NOP completes at once; an abort ends every descriptor. -/
def Obligations.CopyEngines : Prop :=
  ∀ (s : State) (e : Nat) (d : CeDesc),
    let c := s.ce e
    let p := s.cePart e d
    let wb := 64 * (s.reg (ceBase e) / 64) + 64 * d.index + 56
    let len := bits (wordAt d.desc 3) 31 0
    let flags := bits (wordAt d.desc 0) 12 9
    let vector := if bits (s.reg (ceBase e + 0x20)) 4 4 = 1 then 32 * (bits (s.reg (ceBase e + 0x20)) 3 0 + 1) + 2 else 17
    let done := fun (t : State) (status n : Nat) => (t.ce e).head = c.head + 1 ∧ (t.ce e).cntDesc = c.cntDesc + 1 ∧
      (t.ce e).cntBytes = c.cntBytes + BitVec.ofNat 64 n ∧ leNat (t.host.read 64 wb 8).bytes =
        status + 256 * b2n (decide (e < 8)) + 2 ^ 10 + 2 ^ 11 * b2n d.replayed +
          2 ^ 12 * b2n (decide ((t.ce e).cntPoison ≠ c.cntPoison)) + 2 ^ 32 * n ∧
      t.hif.vectors = s.hif.vectors ++ (if flags = 8 then [vector] else [])
    let irqOnly := flags = 0 ∨ flags = 8
    e < 16 → e < s.ces.length →
    (s.ceNext e = some d → bits (wordAt d.desc 0) 7 0 = 1 → s.ceCheck e d = 0 → ∃ t, exec (.copy e) s = .next t ∧
      (t.ce e).taken = c.taken + 1 ∧ (t.ce e).active.length = c.active.length + 1 ∧
      ((t.ce e).active.getLast?.map (·.snap)) = some (if e < 8 then s.host.read 64 (wordAt d.desc 1) len
        else (s.vread (.copyEngine e) p (addr57 (wordAt d.desc 1)) len).1) ∧
      ((t.ce e).active.getLast?.map (·.status)) = some 0 ∧ (t.ce e).head = c.head ∧ t.host = s.host ∧ (e < 8 → t.mem = s.mem) ∧
      (∀ f, f ≠ e → t.ce f = s.ce f)) ∧
    (s.ceNext e = some d → bits (wordAt d.desc 0) 7 0 ≠ 0 → s.ceCheck e d ≠ 0 → ∃ t, exec (.copy e) s = .next t ∧
      ((t.ce e).active.getLast?.map (·.status)) = some (s.ceCheck e d) ∧ (t.ce e).taken = c.taken + 1 ∧ t.mem = s.mem) ∧
    (s.ceNext e = none → exec (.copy e) s = .next s ∧ exec (.ceNop e) s = .next s) ∧
    (s.ceNext e = some d → bits (wordAt d.desc 0) 7 0 = 0 → c.active = [] → s.ceCheck e d = 0 → irqOnly → ∃ t,
      exec (.ceNop e) s = .next t ∧ done t 0 0 ∧ (t.ce e).taken = c.taken + 1 ∧ t.mem = s.mem ∧ t.cells = s.cells) ∧
    (∀ l r g j off, c.active = d :: l → s.hif.up = true → d.status = 0 → bits (wordAt d.desc 0) 7 0 = 1 → irqOnly →
      s.mirrors = false → d.snap.length = len → 0 < len → e < 8 → d.snap = s.host.read 64 (wordAt d.desc 1) len → d.rngs = [r] →
      r.part = p → r.kind = 2 → r.write = true → r.lo ≤ addr57 (wordAt d.desc 2) → addr57 (wordAt d.desc 2) + len ≤ r.hi →
      r.target (addr57 (wordAt d.desc 2)) = 0x100000000000 + 0x400000 * g + off → off + len ≤ 0x400000 → s.posOf g = some j →
      ∃ t, exec (.ceComplete e 0 len) s = .next t ∧ done t 0 len ∧ (t.ce e).active = l ∧
      (t.cell j).scratch = (s.cell j).scratch.write 64 off d.snap ∧ (∀ n, n ≠ j → t.cell n = s.cell n) ∧ t.ranges = s.ranges) ∧
    (∀ l r, c.active = d :: l → s.hif.up = true → d.status = 0 → bits (wordAt d.desc 0) 7 0 = 1 → irqOnly → s.mirrors = false →
      d.snap.length = len → 0 < len → e < 8 → d.snap = s.host.read 64 (wordAt d.desc 1) len → d.rngs = [r] → r.part = p →
      r.kind = 1 → r.write = true → r.lo ≤ addr57 (wordAt d.desc 2) → addr57 (wordAt d.desc 2) + len ≤ r.hi →
      (∀ x ∈ s.engines, x.mem.failed = false ∧ x.mem.lost = []) →
      let at_ := r.target (addr57 (wordAt d.desc 2))
      (∀ x, at_ ≤ x → x < at_ + len → s.stackOf x < s.engines.length) → ∃ t, exec (.ceComplete e 0 len) s = .next t ∧
      done t 0 len ∧ (t.ce e).active = l ∧ (t.devRead none at_ len).1.bytes = Data.bytes d.snap ∧ t.cells = s.cells ∧
      t.ranges = s.ranges) ∧
    (∀ l, c.active = d :: l → s.hif.up = true → d.status = 0 → bits (wordAt d.desc 0) 7 0 = 1 → irqOnly → d.snap.length = len →
      8 ≤ e → d.snap = (({ s with ranges := d.rngs } : State).vread (.copyEngine e) p (addr57 (wordAt d.desc 1)) len).1 →
      ∃ t, exec (.ceComplete e 0 len) s = .next t ∧ done t 0 len ∧ (t.ce e).active = l ∧ t.ranges = s.ranges ∧
      (wb + 8 ≤ wordAt d.desc 2 ∨ wordAt d.desc 2 + len ≤ wb → (t.host.read 64 (wordAt d.desc 2) len).bytes = Data.bytes d.snap)) ∧
    (∀ l n, c.active = d :: l → s.hif.up = true → d.status = 0 → irqOnly → n ≤ len → ∃ t, exec (.ceComplete e 4 n) s = .next t ∧
      done t 4 n ∧ (t.ce e).active = l) ∧
    (∀ l n, c.active = d :: l → n ≠ len → d.status = 0 → exec (.ceComplete e 0 n) s = .next s) ∧
    (∀ l, c.active = d :: l → s.hif.up = true → d.status ≠ 0 → d.status < 256 → irqOnly → ∃ t,
      exec (.ceComplete e d.status 0) s = .next t ∧
      done t d.status 0 ∧ (t.ce e).active = l ∧ t.mem = s.mem ∧ t.cells = s.cells) ∧
    (∀ val : BitVec 64, let old := s.reg (ceBase e + 8)
      let sz := if old.testBit 4 then bits old 3 0 else max 4 (min 12 (bits val.toNat 3 0))
      let tail := BitVec.ofNat 16 (bits val.toNat 63 48)
      let z := bits val.toNat 3 0
      let counted := if old.testBit 4 = false ∧ (z < 4 ∨ 12 < z)
        then { s with health := { s.health with cntClamps := s.health.cntClamps + 1 } } else s
      exec (.ceRingCtlWrite e val) s = .next ((counted.setReg (ceBase e + 8) (sz + 16 * b2n (val.getLsbD 4))).modCe e fun x =>
        { x with tail := if (tail - c.head).toNat ≤ 2 ^ sz then tail else c.tail })) ∧
    exec (.ceResume e) s = .next (s.modCe e fun x => { x with st := if x.st = 4 then 0 else x.st }) ∧
    (∃ t, exec (.ceAbort e) s = .next t ∧ (t.ce e).st = 0 ∧ (t.ce e).active = [] ∧ (t.ce e).affected = [] ∧
      (t.ce e).head = c.tail ∧ (t.ce e).taken = c.tail ∧ (t.ce e).tail = c.tail ∧ ∀ f, f ≠ e → t.ce f = s.ce f)

/-- R324 to R326, R348 to R350: the host link goes down and up, recovers, and is reset. -/
def Obligations.HostLink : Prop :=
  ∀ s : State,
    let h := s.hif
    let ringsZero := fun (t : State) (p : Nat) => (t.part p).lcHead = 0 ∧ (t.part p).lcTail = 0 ∧ (t.part p).beHead = 0 ∧
      (t.part p).beTail = 0 ∧ (t.part p).cqHead = 0 ∧ (t.part p).cqTail = 0
    let enginesZero := fun (t : State) (k : Nat) => (t.ce k).st = 0 ∧ (t.ce k).active = [] ∧ (t.ce k).affected = [] ∧
      (t.ce k).head = 0 ∧ (t.ce k).tail = 0 ∧ (t.ce k).taken = 0
    let down := fun (t : State) => t.hif.up = false ∧ t.hif.lineCache = [] ∧ t.hif.bufs = [] ∧
      ∀ c ∈ t.cells, ∀ o ∈ c.open_, o.kind ≠ 0x90 ∧ o.kind ≠ 0x91
    let reset := fun (t : State) => down t ∧ t.hif.sriov = false ∧ t.hif.cntHotreset = h.cntHotreset + 1 ∧
      t.power.lastReset = 3 ∧ t.power.lost = false ∧ (∀ p < 16, ringsZero t p) ∧ (∀ k < 16, enginesZero t k) ∧
      (∀ a, 0x200000 ≤ a → a < 0x200030 → t.reg a = cfgReset s.model a)
    s.parts.length = 16 → s.ces.length = 16 →
    (h.up = true → exec .linkRecovery s = .next { s with hif := { h with
      cntRecovery := h.cntRecovery + 1, vectors := h.vectors ++ [19] } }) ∧
    (h.up = false → exec .linkRecovery s = .next s ∧ exec .linkDown s = .next s ∧ exec .hotReset s = .next s) ∧
    (h.up = true → ∃ t, exec .linkDown s = .next t ∧ down t ∧ t.hif.cntLinkdown = h.cntLinkdown + 1 ∧ t.regs = s.regs ∧
      ∀ k < 16, ((s.ce k).active = [] → t.ce k = s.ce k) ∧ ((s.ce k).active ≠ [] → (t.ce k).st = 2 ∧ (t.ce k).active = [] ∧
        (t.ce k).affected.map (·.index) = ((s.ce k).affected ++ (s.ce k).active).map (·.index))) ∧
    (∀ r w x, h.up = false → h.configReady = true → r ≤ 5 → w ∈ [1, 4, 8, 16] →
      ∃ t, exec (.linkUp r w x) s = .next t ∧ t.hif.up = true ∧ t.hif.wasUp = true ∧ t.hif.rate = r ∧ t.hif.width = w ∧
      t.hif.cxl = x ∧ (h.wasUp = true → t.hif.vectors.getLast? = some 19) ∧
      (∀ k < 16, ((s.ce k).st ≠ 2 → t.ce k = s.ce k) ∧
        ((s.ce k).st = 2 → (∀ d ∈ (s.ce k).affected, (wordAt d.desc 0).testBit 8 = true) → (t.ce k).affected = [] ∧
          (t.ce k).st = (if (s.ce k).affected = [] then 0 else 3) ∧ (t.ce k).head = (s.ce k).head ∧
          (t.ce k).active.map (·.index) = (s.ce k).affected.map (·.index) ∧ (∀ d ∈ (t.ce k).active, d.replayed = true)) ∧
        ((s.ce k).st = 2 → (∃ d ∈ (s.ce k).affected, (wordAt d.desc 0).testBit 8 = false) → (t.ce k).affected = [] ∧
          (t.ce k).st = 4 ∧ (t.ce k).head = (s.ce k).head + BitVec.ofNat 16 (s.ce k).affected.length ∧
          (t.ce k).taken = (t.ce k).head)) ∧
      ((∀ k < 16, (s.ce k).st ≠ 2) → t.cells = s.cells ∧ t.mem = s.mem)) ∧
    (h.up = true → s.power.running = 0 → ∃ t, exec .hotReset s = .next t ∧ reset t) ∧
    exec .flrPf s = exec .hotReset s ∧
    (h.up = true → 1 ≤ s.power.running → exec .hotReset s = .next { s with power := { s.power with lost := true } }) ∧
    (s.power.perstN = true → exec .perstNAssert s = .next s) ∧
    (s.power.perstN = false → s.power.pwrGood = true → s.power.running = 0 → ∃ t, exec .perstNAssert s = .next t ∧ reset t ∧
      t.power.perstN = true ∧ t.hif.configReady = false) ∧
    (s.power.perstN = false → s.power.pwrGood = true → 1 ≤ s.power.running → exec .perstNAssert s = .next { s with
      power := { s.power with perstN := true, lost := true }, hif := { h with configReady := false, up := false } }) ∧
    (s.power.perstN = false → s.power.pwrGood = false → exec .perstNAssert s = .next { s with
      power := { s.power with perstN := true }, hif := { h with configReady := false, up := false } }) ∧
    (∀ n, n < 16 → h.up = true → h.sriov = true → ∃ t, exec (.flrVf n) s = .next t ∧ ringsZero t n ∧ t.hif.up = true ∧
      (∀ e ∈ t.hif.bufs, e.1 ≠ n + 1) ∧
      (∀ k < 16, (s.ceOwner k = 16 + n → enginesZero t k) ∧ (s.ceOwner k ≠ 16 + n → t.ce k = s.ce k)) ∧
      (∀ p < 16, p ≠ n → (t.part p).lcHead = (s.part p).lcHead ∧ (t.part p).cqTail = (s.part p).cqTail))

/-! ## The network (R353 to R375) -/

/-- R353 to R359, R361, R372, R373, R375: frames out of sequence, collected, acknowledged, sent again and discarded; a connection
that fails and its reset; ports, pauses, address resolution and time. -/
def Obligations.NetConnections : Prop :=
  ∀ (s : State) (port k : Nat) (f : Frame),
    let c := s.conn k
    let enters := fun (n : Nat) => s.netOn = true ∧ (s.port port).up = true ∧ f.version = 1 ∧ f.type = n ∧ f.conn = k
    let live := (s.peerCfg k).testBit 0 = true ∧ c.st = 1
    let netOnly := fun (t : State) => t = { s with net := t.net }
    let numbered := [(1, Instr.netWrite port f), (2, .readReq port f), (4, .netUpdate port f), (5, .netGather port f),
      (6, .netSubmit port f), (7, .netDone port f), (8, .reduceUp port f), (9, .reduceDown port f), (12, .redo port f)]
    let now := s.now .network
    let resent := fun (i : Instr) => ∃ t, exec i s = .next t ∧ netOnly t ∧ (t.conn k).unacked = c.unacked ∧
      (t.conn k).tries = c.tries + 1 ∧ t.net.out.length = s.net.out.length + c.unacked.length ∧
      t.net.resend = s.net.resend + BitVec.ofNat 64 c.unacked.length
    let failed := fun (i : Instr) => ∃ t, exec i s = .next t ∧ (t.conn k).st = 2 ∧ (t.conn k).unacked = [] ∧
      (t.conn k).waiting = [] ∧ ∀ x ∈ t.net.sends, x.conn = k → x.op = 8
    (∀ n i, (n, i) ∈ (3, Instr.readResp port f) :: numbered → enters n → live → f.psn ≠ c.rx → ∃ t,
      exec i s = .next t ∧ netOnly t ∧ (t.conn k).rx = c.rx ∧ (t.conn k).got = c.got ∧ t.net.sends = s.net.sends ∧
      ∀ q, s.connPort k = some q → ∃ l g, t.net.out = s.net.out ++ l ++ [(q, g)] ∧ g.type = 11 ∧ (c.waiting = [] → l = [])) ∧
    (∀ n i, (n, i) ∈ numbered → enters n → live → f.psn = c.rx → f.isLast = false → ∃ t,
      exec i s = .next t ∧ netOnly t ∧ (t.conn k).rx = c.rx + 1 ∧ (t.conn k).got = c.got ++ [f] ∧ t.net.sends = s.net.sends) ∧
    (∀ n i, (n, i) ∈ (10, Instr.netAck port f) :: (11, .netNak port f) :: numbered → enters n →
      (s.peerCfg k).testBit 0 = false → ∃ t, exec i s = .next t ∧ netOnly t ∧ t.net.conns = s.net.conns ∧
      t.net.unknownPeer = s.net.unknownPeer + 1) ∧
    (∀ x a b, enters 10 → live → c.unacked = x :: a ++ b → c.waiting = [] → (f.ackPsn - x.psn).toNat = a.length + 1 → ∃ t,
      exec (.netAck port f) s = .next t ∧ netOnly t ∧ (t.conn k).unacked = b ∧ (t.conn k).tries = 0 ∧
      (t.conn k).rx = c.rx ∧ t.net.out = s.net.out) ∧
    (∀ x a, enters 11 → live → c.unacked = x :: a → c.waiting = [] → f.ackPsn = x.psn →
      (c.tries < s.retries → (s.connPort k).isSome = true → resent (.netNak port f)) ∧
      (s.retries ≤ c.tries → failed (.netNak port f))) ∧
    (c.st = 1 → c.unacked ≠ [] → c.waiting = [] → c.oldest + s.rto ≤ now →
      (c.tries < s.retries → (s.connPort k).isSome = true → resent (.rtoExpiry k)) ∧
      (s.retries ≤ c.tries → failed (.rtoExpiry k))) ∧
    (now < c.oldest + s.rto → exec (.rtoExpiry k) s = .next s) ∧
    (∀ q, c.st = 1 → s.connPort k = some q → ∃ t g, exec (.pureAck k) s = .next t ∧ netOnly t ∧
      t.net.out = s.net.out ++ [(q, g)] ∧ g.type = 10 ∧ g.ackPsn = c.rx ∧ t.net.conns = s.net.conns) ∧
    (c.st = 2 → k < 1024 → (s.peerCfg k).testBit 0 = true → ∃ t, exec (.peerReset k) s = .next t ∧ netOnly t ∧
      t.conn k = { c with st := 1, tx := 0, rx := 0, unacked := [], waiting := [], got := [], tries := 0 }) ∧
    (∀ w v, s.net.ports ≠ [] → k < 1024 → w < 16 → ∃ t, exec (.netSakWrite k w v) s = .next t ∧ netOnly t ∧
      t.conn k = { c with sak := c.sak.set w v } ∧ ∀ j, j ≠ k → t.conn j = s.conn j) ∧
    (s.portUp port = true →
      let drop := .next { s with net := { s.net with ports := s.net.ports.modify port fun p => { p with drop := p.drop + 1 } } }
      let other := .next { s with net := { s.net with other := s.net.other + 1 } }
      exec (.pauseFrame port) s = drop ∧ exec (.otherFrame port) s = other ∧
      (∀ w ∈ [BadFrame.fcs, .macsec, .oversize, .bufferFull], exec (.netBadFrame port w) s = drop) ∧
      (∀ w ∈ [BadFrame.version, .type], exec (.netBadFrame port w) s = other) ∧
      exec (.netBadFrame port .unknownPeer) s = .next { s with net := { s.net with unknownPeer := s.net.unknownPeer + 1 } } ∧
      exec (.netBadFrame port .checksum) s = .next s ∧
      exec (.netBadFrame port .fecUncorrectable) s = .next { s with net := { s.net with
        ports := s.net.ports.modify port fun p => { p with fecUncorr := p.fecUncorr + 1 } } } ∧
      (∀ mac : BitVec 48, (s.reg 0x3400000).testBit 1 = true → let own := s.reg 0x3400010 % 2 ^ 32
        exec (.arpRequest port (BitVec.ofNat 32 own) mac) s = .next { s with net := { s.net with
          replies := s.net.replies ++ [(port, mac.toNat, BitVec.ofNat 128 own)] } } ∧
        ∀ v : BitVec 32, v.toNat ≠ own → exec (.arpRequest port v mac) s = .next s) ∧
      (∀ mac : BitVec 48, (s.reg 0x3400000).testBit 1 = false → let own := s.reg 0x3400010 + 2 ^ 64 * s.reg 0x3400018
        own < 2 ^ 128 → exec (.neighbourSolicitation port (BitVec.ofNat 128 own) mac) s = .next { s with net := { s.net with
          replies := s.net.replies ++ [(port, mac.toNat, BitVec.ofNat 128 own)] } } ∧
        ∀ v : BitVec 128, v.toNat ≠ own → exec (.neighbourSolicitation port v mac) s = .next s) ∧
      (∀ prio b, (∀ x ∈ s.net.conns, x.waiting = []) → exec (.pfcFrame port prio b) s = .next
        (if (s.reg 0x3400028).testBit 8 then { s with net := { s.net with ports := s.net.ports.modify port fun p => { p with
          pausedLc := if prio = bits (s.reg 0x3400028) 2 0 then b else p.pausedLc
          pausedBe := if prio = bits (s.reg 0x3400028) 6 4 then b else p.pausedBe } } } else s)) ∧
      (∃ t, exec (.portDown port) s = .next t ∧ (t.port port).up = false ∧
        ∀ n, n ≠ port → (t.port n).up = (s.port n).up) ∧
      (∀ lane, lane < 9 → (s.port port).dead = false → ∃ t, exec (.portLaneSpare port lane) s = .next t ∧
        (t.port port).up = false ∧ (t.port port).spared = true ∧ (t.port port).dead = (s.port port).spared)) ∧
    (port < s.net.ports.length → (s.port port).up = false → (s.port port).dead = false → (s.port port).lowPower = false →
      s.power.memReady = true → ∃ t, exec (.portUp port) s = .next t ∧ (t.port port).up = true ∧
      ∀ n, n ≠ port → (t.port n).up = (s.port n).up) ∧
    (∀ time ppb, (s.reg 0x3400030).testBit 0 = true → s.portUp (bits (s.reg 0x3400030) 4 1) = true →
      exec (.ptpSync time ppb) s = .next { s with net := { s.net with ptpLast := now, ptpLocked := true
                                                                      ptpPpb := max (-10000) (min 10000 (ppb / 10))
                                                                      ptpOffset := (time : Int) - now } }) ∧
    (s.net.ptpLocked = true → s.net.ptpLast + 8000000000 ≤ now →
      exec .ptpSyncLoss s = .next { s with net := { s.net with ptpLocked := false } }) ∧
    (now < s.net.ptpLast + 8000000000 → exec .ptpSyncLoss s = .next s)

/-- R363 to R365, R368: an operation without its permission is denied; one that has it reads or writes the partition's memory, or
hands its request to a front end or its descriptor to admission, and a DONE completes the send that asked. -/
def Obligations.NetMessages : Prop :=
  ∀ (s : State) (port k : Nat) (f : Frame) (r : Range),
    let c := s.conn k
    let p := s.peerPart k
    let fs := c.got ++ [f]
    let body := messageBody fs
    let d := Data.bytes body
    let arrives := fun (n : Nat) => s.netOn = true ∧ (s.port port).up = true ∧ f.version = 1 ∧ f.type = n ∧ f.conn = k ∧
      (s.peerCfg k).testBit 0 = true ∧ c.st = 1 ∧ f.psn = c.rx ∧ f.isLast = true
    let mayServe := fun (bit : Nat) => (s.peerCfg k).testBit bit = true ∧ (s.part p).resetting = false ∧ s.health.drainedAll = false
    let queued := fun (t : State) => (t.conn k).unacked ++ (t.conn k).waiting
    let done := fun (t : State) (status bytes : Nat) => (t.conn k).rx = c.rx + 1 ∧ ∃ g ∈ queued t, g.type = 7 ∧ g.msg = f.msg ∧
      wordAt g.payload 0 = status + 2 ^ 32 * bytes
    let answers := fun (i : Instr) (status : Nat) => ∃ t, exec i s = .next t ∧ done t status 0 ∧ t.mem = s.mem ∧ t.cells = s.cells
    let window := fun (a n g j off : Nat) => r.part = p ∧ r.kind = 2 ∧ r.write = true ∧ r.lo ≤ a ∧ a + n ≤ r.hi ∧ 0 < n ∧
      r.target a = 0x100000000000 + 0x400000 * g + off ∧ off + n ≤ 0x400000 ∧ s.posOf g = some j ∧ s.mirrors = false
    k < 1024 →
    (∀ n bit i, (n, bit, i) ∈ [(1, 6, Instr.netWrite port f), (2, 7, .readReq port f), (4, 8, .netUpdate port f),
        (5, 9, .netGather port f), (6, 10, .netSubmit port f), (8, 11, .reduceUp port f), (9, 11, .reduceDown port f)] → arrives n →
      (s.peerCfg k).testBit bit = false ∨ (s.part p).resetting = true ∨ s.health.drainedAll = true → ∃ t, exec i s = .next t ∧
      done t 4 0 ∧ t = { s with net := t.net } ∧ t.net.sends = s.net.sends) ∧
    (arrives 1 → mayServe 6 →
      let n := (fs.map fun h => h.payload.length).sum
      let st := s.sendCheck p (fs.map fun h => (h.addr, h.payload.length, true))
      (st ≠ 0 → answers (.netWrite port f) st) ∧
      (∀ g j base, s.ranges = [r] → n ≤ 2 ^ 24 →
        (∀ h ∈ fs, base ≤ h.addr ∧ window h.addr h.payload.length g j (h.addr - base)) → ∃ t, exec (.netWrite port f) s = .next t ∧
        done t 0 n ∧ (t.cell j).scratch = fs.foldl (fun m h => m.write 64 (h.addr - base) h.body) (s.cell j).scratch ∧
        (∀ m, m ≠ j → t.cell m = s.cell m) ∧ ((∀ h ∈ fs, h.isFinal = false) → t.mem = s.mem))) ∧
    (arrives 2 → mayServe 7 →
      let h := fs.headD f
      let n := wordAt h.payload 0
      let bad := n = 0 ∨ 2 ^ 24 < n ∨ h.body.marked = true
      h.msg = f.msg → (bad → answers (.readReq port f) 1) ∧ (¬ bad → (s.unmapped p h.addr n).isSome = true → answers (.readReq port f) 2) ∧
      (∀ g j off, ¬ bad → s.ranges = [r] → window h.addr n g j off → ∃ t, exec (.readReq port f) s = .next t ∧ done t 0 n ∧
        t.cells = s.cells ∧ ∃ x ∈ queued t, x.type = 3 ∧ x.msg = h.msg ∧ x.isLast = decide (n ≤ 4096) ∧
        x.addr = addr57 (wordAt h.payload 1) ∧ x.payload = ((s.cell j).scratch.read 64 off (min n 4096)).bytes)) ∧
    (∀ x g j off, arrives 3 → (s.net.sends.find? fun x => x.conn == k && x.msg == f.msg && (x.op == 2 || x.op == 5)) = some x →
      x.part = p → x.rngs = [r] → window f.addr f.payload.length g j off → ∃ t, exec (.readResp port f) s = .next t ∧
      (t.cell j).scratch = (s.cell j).scratch.write 64 off f.body ∧ (∀ n, n ≠ j → t.cell n = s.cell n) ∧
      { x with bytes := x.bytes + f.payload.length } ∈ t.net.sends ∧ (∀ y ∈ s.net.sends, y ≠ x → y ∈ t.net.sends) ∧
      (t.conn k).rx = c.rx + 1 ∧ t.ranges = s.ranges) ∧
    (∀ n bit op i, (n, bit, op, i) ∈ [(4, 8, if bits (wordAt d 0) 7 0 = 3 then 3 else 2, Instr.netUpdate port f),
        (5, 9, 1, .netGather port f)] → arrives n → mayServe bit →
      let r := s.peerRequest k op f body
      let rows := if r.pooled then r.nbags else r.nidx
      let unit := match s.table p r.table with | some e => r.unit e | none => 0
      let yielded := op ≠ 1 ∧ s.hrv.st = 6 ∧ s.mirrored p = true
      let large := if op = 1 then 65536 < r.nidx ∨ 2 ^ 22 < rows * unit else 4096 < r.nidx
      let marked := Data.marked (body.take 64)
      r.part = p ∧ r.op = op ∧ bits (r.words.getD 5 0) 39 32 = s.peerSrc k ∧ (yielded → answers i 4) ∧
      (¬ yielded → large → answers i 1) ∧
      (¬ yielded → ¬ large → s.peerDie r.table < s.dies.length → ∃ t, exec i s = .next t ∧ (t.conn k).rx = c.rx + 1 ∧
        t.cells = s.cells ∧ t.mem = s.mem ∧ (t.die (s.peerDie r.table)).queue =
          (s.die (s.peerDie r.table)).queue ++ if marked then [] else [{ r with id := s.nextId }])) ∧
    (arrives 6 → mayServe 10 → Data.marked (body.take 128) = false → p < s.parts.length → (s.part p).defined = true →
      (s.part p).drained = false → s.power.suspectHold = false → (s.part p).opened = false → ∃ t,
      exec (.netSubmit port f) s = .next t ∧ t.batches = s.batches ∧ t.cells = s.cells ∧ (t.part p).waits = (s.part p).waits ++
        [⟨3, k, f.msg, if (wordAt (d.take 128) 0).testBit 0 then .be else .lc, d.take 128 ++ zeros (128 - (d.take 128).length),
          if (wordAt (d.take 128) 0).testBit 0 then (s.part p).beTail else (s.part p).lcTail⟩]) ∧
    (arrives 7 → ¬ (k = bits (s.reg 0x3600000) 13 4 ∧ s.hrv.probeMsg = some f.msg) →
      let st := bits (wordAt d 0) 7 0
      let tok := bits (wordAt d 1) 31 0
      let rec_ := d.drop 16
      let notAdmitted := 64 ≤ rec_.length ∧ bits (wordAt rec_ 1) 31 0 = 0xFFFFFFFF
      let found := s.net.sends.find? fun x => x.conn == k && x.msg == f.msg && x.op != 8
      (found = none → ∃ t, exec (.netDone port f) s = .next t ∧ t = { s with net := t.net } ∧ t.net.sends = s.net.sends ∧
        (t.conn k).rx = c.rx + 1) ∧
      (∀ x, found = some x →
        let word0 := match x.op with
          | 2 => st + 2 ^ 32 * x.bytes
          | 4 => st
          | 5 => st + 2 ^ 32 * x.bytes
          | 6 => if notAdmitted then 6 else st
          | _ => st + 2 ^ 32 * bits (wordAt d 0) 63 32
        let word1 := match x.op with
          | 4 => tok
          | 5 => tok
          | 6 => if notAdmitted then 2 ^ 24 * bits (wordAt rec_ 1) 47 40 else 0
          | _ => 0
        ∃ t, exec (.netDone port f) s = .next t ∧ t.ranges = s.ranges ∧ (t.conn k).rx = c.rx + 1 ∧
        (∀ y, y ∈ t.net.sends ↔ y ∈ s.net.sends ∧ y ≠ x) ∧ (x.part = p → x.rngs = [r] →
        (∀ g j off, x.compl % 16 = 0 → window x.compl 16 g j off → (∀ m, m ≠ j → x.op ≠ 5 → x.op ≠ 6 → t.cell m = s.cell m) ∧
          Data.bytes ((t.cell j).scratch.read 64 off 16) = ofWords [word0 + 2 ^ 8, word1] ∧
          ∀ a n off', (a, n) = (if x.op = 5 then (x.stat, 32) else (x.aux, 64)) → x.op = 5 ∧ x.stat ≠ 0 ∨ x.op = 6 →
            n ≤ rec_.length → window a n g j off' → off + 16 ≤ off' ∨ off' + n ≤ off →
            Data.bytes ((t.cell j).scratch.read 64 off' n) = rec_.take n))))

/-- R366 to R369: a ring's TAIL is learnt from its header, and each descriptor is taken, its message sent, or completed with the
status of its checks at COMPL; a REDUCE on a step that does not send adds and counts, one on a step that sends starts its round. -/
def Obligations.NetSends : Prop :=
  ∀ (s : State) (i : Nat) (x : Send),
    let r := s.sendRing i
    let p := i / 8
    let read := s.vread .network p (s.sendHeader i + 64 + 64 * r.head) 64
    let d := read.1
    let k := x.peer
    let next := (r.head + 1) % 2 ^ bits (s.sendCtl i) 3 0
    let after := (read.2.setSendRing { r with head := next }).vwrite .network p (s.sendHeader i + 8) (Data.clean (leBytes 8 next))
    let taken := s.sendRingOk i = true ∧ r.head ≠ r.tail ∧ d.marked = false ∧ x = ⟨i, r.head, d.bytes, 0, 0, 0, [], 0⟩
    let window := fun (q : Range) (a n g j off : Nat) => s.pieces p a n = [⟨a, n, some q⟩] ∧ q.kind = 2 ∧ q.write = true ∧
      q.target a = 0x100000000000 + 0x400000 * g + off ∧ off + n ≤ 0x400000 ∧ s.posOf g = some j
    let completes := fun (t : State) (w0 w1 : Nat) => ∀ q g j off, x.compl % 16 = 0 → window q x.compl 16 g j off →
      Data.bytes ((t.cell j).scratch.read 64 off 16) = ofWords [w0, w1]
    let opens := fun (c : Instr) (type : Nat) (body : Data) (a : Nat) => ∃ t y, exec c s = .next t ∧ (t.sendRing i).head = next ∧
      t.net.sends = s.net.sends ++ [y] ∧ y.ring = i ∧ y.desc = x.desc ∧ y.conn = k ∧ y.msg = (s.conn k).nextMsg ∧
      (t.conn k).nextMsg = ((s.conn k).nextMsg + 1) % 65536 ∧
      ∃ g ∈ (t.conn k).unacked ++ (t.conn k).waiting, g.type = type ∧ g.msg = y.msg % 65536 ∧ g.psn = (s.conn k).tx ∧ g.addr = a ∧
        g.payload = Data.bytes (body.take 4096)
    let refused := fun (c : Instr) (st : Nat) => ∃ t, exec c s = .next t ∧ (t.sendRing i).head = next ∧
      (∀ y ∈ t.net.sends, y ∈ s.net.sends) ∧ (∀ y ∈ s.net.sends, y.ring ≠ i ∨ y.desc ≠ x.desc → y ∈ t.net.sends) ∧
      t.net.conns = s.net.conns ∧ completes t (st + 2 ^ 8) 0
    let serves := fun (c : Instr) (type : Nat) (legal : Bool) (ext : List (Nat × Nat × Bool)) (body : Data) (a : Nat) =>
      let bad := legal = false ∨ x.compl % 16 ≠ 0 ∨ (s.peerCfg k).testBit 0 = false
      let st := s.sendCheck p ((x.compl, 16, true) :: ext)
      (bad → refused c 1) ∧ (¬ bad → st ≠ 0 → refused c st) ∧ (¬ bad → st = 0 → (s.conn k).st ≠ 1 → refused c 5) ∧
      (¬ bad → st = 0 → (s.conn k).st = 1 → opens c type body a)
    (s.sendRingOk i = true → ∃ t, exec (.sendRingTail i) s = .next t ∧ (t.sendRing i).head = r.head ∧
      (t.sendRing i).tail = min (leNat (s.vread .network p (s.sendHeader i) 8).1.bytes) (2 ^ bits (s.sendCtl i) 3 0 - 1)) ∧
    (s.sendRingOk i = false ∨ r.head = r.tail → ∀ c ∈ [Instr.sendWrite i, .sendRead i, .sendUpdate i, .sendGather i, .sendSubmit i,
      .sendNop i, .reduce i], exec c s = .next s) ∧
    (taken → ∀ c op, (c, op) ∈ [(Instr.sendWrite i, 1), (.sendRead i, 2), (.sendUpdate i, 4), (.sendGather i, 5), (.sendSubmit i, 6),
      (.reduce i, 8)] → x.op ≠ op → exec c s = .next s) ∧
    (taken → x.op ∈ [1, 2, 4, 5, 6, 8] → exec (.sendNop i) s = .next s) ∧
    (taken → x.op ∉ [0, 1, 2, 4, 5, 6, 8] ∨ x.op = 0 ∧ x.compl % 16 ≠ 0 → refused (.sendNop i) 1) ∧
    (taken → x.op = 0 → x.compl % 16 = 0 → refused (.sendNop i) (s.sendCheck p [(x.compl, 16, true)])) ∧
    (s.sendRingOk i = true → r.head ≠ r.tail → d.marked = true → ∃ t, exec (.sendNop i) s = .next t ∧
      (t.sendRing i).head = next ∧ t.net.conns = s.net.conns) ∧
    (taken → (x.op = 1 → serves (.sendWrite i) 1 x.lenOk [(x.loc, x.len, false)] (after.vread .network p x.loc x.len).1 x.remote) ∧
      (x.op = 2 → serves (.sendRead i) 2 x.lenOk [(x.loc, x.len, true)] (Data.clean (ofWords [x.len, x.loc])) x.remote) ∧
      (x.op = 6 → serves (.sendSubmit i) 6 true [(x.loc, 128, false), (x.aux, 64, true)] (after.vread .network p x.loc 128).1 0) ∧
      (∀ c op, (c, op) ∈ [(Instr.sendUpdate i, 4), (.sendGather i, 5)] → x.op = op →
        ((s.unmapped p x.loc 64).isSome = true → serves c op true [(x.loc, 64, false)] [] 0) ∧
        ((s.unmapped p x.loc 64).isSome = false →
          let (h, s1) := after.vread .network p x.loc 64
          let req := Request.ofWords (if op = 5 then 1 else bits (wordAt h.bytes 0) 7 0) x.cls (leList 8 8 h.bytes) p
          let (ni, nb, nd) := req.carriedLens
          let rows := if req.mode ≤ 1 then req.nbags else req.nidx
          let legal := decide (1 ≤ req.nidx ∧ req.stride % 16 = 0 ∧
            (if op = 5 then req.nidx ≤ 65536 ∧ req.destTile = false else req.nidx ≤ 4096))
          let carried := [(x.loc, 64, false), (addr57 req.idxAddr, ni, false)]
            ++ (if nb = 0 then [] else [(addr57 req.dataAddr, nb, false)])
            ++ (if nd = 0 then [] else [(addr57 req.dataAddr, nd, false)])
          let written := [(addr57 req.dest, rows * req.stride, true)]
            ++ (if req.mode = 3 then [(addr57 req.mapAddr, 4 * req.nidx + 4 * rows, true)] else [])
            ++ (if req.stat = 0 then [] else [(addr57 req.stat, 32, true)])
          let (li, s2) := s1.vread .network p (addr57 req.idxAddr) ni
          let lb := (s2.vread .network p (addr57 req.dataAddr) (nb + nd)).1
          let pad := fun (d : Data) => d ++ Data.clean (zeros (pad16 d.length - d.length))
          serves c op legal (carried ++ if op = 5 then written else []) (h ++ pad li ++ pad lb) 0))) ∧
    (taken → x.op = 8 →
      let j := bits x.peer 5 0
      let c := s.redCfg j
      let n := x.count
      let b := s.bucket j x.bucket
      let sends := decide (b.count % redN c + 1 = redN c)
      let running := (s.net.rounds.filter fun u => u.send.isSome).length
      let bad := redOn c = false ∨ (s.redTree j).testBit 11 = false ∨ redPart c ≠ p ∨ 4096 ≤ x.bucket ∨ n < 64 ∨ 16384 < n ∨
        n % 64 ≠ 0 ∨ x.compl % 16 ≠ 0
      let ext := [(x.compl, 16, true), (x.loc, 4 * n, false), (x.remote, 4 * n, true)]
        ++ if sends then [(x.aux, 4 * n, true)] else []
      let wait := sends = true ∧ (64 ≤ running ∨ ∃ u, s.round j x.bucket = some u ∧ u.send.isSome = true)
      (wait → exec (.reduce i) s = .next s) ∧
      (¬ wait → bad → refused (.reduce i) 1) ∧
      (¬ wait → ¬ bad → s.sendCheck p ext ≠ 0 → refused (.reduce i) (s.sendCheck p ext)) ∧
      (¬ bad → sends = false → s.sendCheck p ext = 0 → ∃ t, exec (.reduce i) s = .next t ∧
        t.bucket j x.bucket = { b with count := b.count + 1 } ∧ (t.sendRing i).head = next ∧ t.net.rounds = s.net.rounds ∧
        t.net.conns = s.net.conns ∧ completes t (7 + 2 ^ 8 + 2 ^ 32 * (4 * n)) (b.mPrev % 256).toNat ∧
        ∀ q g m off, window q x.remote (4 * n) g m off →
          (∀ q' g' m' off', window q' x.compl 16 g' m' off' → m' ≠ m ∨ off' + 16 ≤ off ∨ off + 4 * n ≤ off') →
          let (src, s1) := after.vread .network p x.loc (4 * n)
          let acc := (s1.vread .network p x.remote (4 * n)).1
          Data.bytes ((t.cell m).scratch.read 64 off (4 * n)) = (List.range n).flatMap fun e =>
            leBytes 4 (addFp32 (BitVec.ofNat 32 (leNat ((Data.bytes (acc.drop (4 * e))).take 4)))
              (BitVec.ofNat 32 (leNat ((Data.bytes (src.drop (4 * e))).take 4)))).toNat) ∧
      (¬ wait → ¬ bad → sends = true → s.sendCheck p ext = 0 → s.round j x.bucket = none →
        s.redKids j ≠ [] ∨ s.redRoot j = false → ∃ t u,
        exec (.reduce i) s = .next t ∧ (t.sendRing i).head = next ∧ t.round j x.bucket = some u ∧ u.sent = decide (s.redKids j = []) ∧
        u.children = [] ∧ u.count = n ∧ u.e = b.mPrev - 30 + redH c ∧ u.x.length = n ∧ u.q = (quantiseAll c u.e u.x).1 ∧
        u.startAt = s.now .network ∧ u.send.isSome = true ∧ (s.redKids j ≠ [] → t.net.conns = s.net.conns)))

/-- R370, R371, R375: a contribution is entered in its round and a result ends it; the sums of a round do not depend on the order in
which its contributions came, and no sum of P limited values leaves 32 bits. -/
def Obligations.NetReductions : Prop :=
  (∀ r u : Round, u.children.Perm r.children → u = { r with children := u.children } → (∀ c ∈ r.children, c.q.length = r.q.length) →
    u.total = r.total) ∧
  (∀ (c : Nat) (e : Int) (l : List (List (BitVec 32))), redP c ≤ 1024 → 1 ≤ redP c → l.length ≤ redP c →
    ∀ k, |((l.map fun x => (quantiseAll c e x).1.getD k 0).sum : Int)| < 2 ^ 30) ∧
  ∀ (s : State) (port k j : Nat) (f : Frame),
    let c := s.conn k
    let g := s.redCfg j
    let (b, e, n, same) := redFields g f.addr
    let h := RedHead.parse f.payload
    let arrives := fun (type : Nat) => s.netOn = true ∧ (s.port port).up = true ∧ f.version = 1 ∧ f.type = type ∧ f.conn = k ∧
      (s.peerCfg k).testBit 0 = true ∧ (s.peerCfg k).testBit 11 = true ∧ (s.part (s.peerPart k)).resetting = false ∧
      s.health.drainedAll = false ∧ c.st = 1 ∧ c.got = [] ∧ f.psn = c.rx ∧ f.isLast = true ∧
      bits f.addr 53 48 = j ∧ redOn g = true ∧ f.w3 = 0
    let (vals, _, bad) := redParse n f.body
    (arrives 8 → (s.redKids j).contains k = true → s.round j b = none → same = true → h.fail = 0 → h.sel = 0 → bad = [] → ∃ t r,
      exec (.reduceUp port f) s = .next t ∧ t.round j b = some r ∧ r.send = none ∧ r.e = e ∧ r.count = n ∧
      r.children = [⟨k, e, vals, h.m, h.sat, h.nonfinite, 0, []⟩] ∧ (t.conn k).rx = c.rx + 1 ∧ t = { s with net := t.net }) ∧
    (∀ r x, arrives 9 → s.redRoot j = false → s.redParent j = k → s.redKids j = [] → s.round j b = some r → r.send = some x →
      h.fail = 0 → h.sel = 0 → bad = [] → ∃ t, exec (.reduceDown port f) s = .next t ∧ t.round j b = none ∧
      (t.bucket j b).count = (s.bucket j b).count + 1 ∧ (t.bucket j b).mPrev = h.m ∧ x ∉ t.net.sends ∧
      t.net.redFail = s.net.redFail) ∧
    (∀ r x, arrives 12 → s.redRoot j = false → s.redParent j = k → s.redKids j = [] → s.round j b = some r → r.send = some x →
      h.sel = 0 → r.sent = true → ∃ t u, exec (.redo port f) s = .next t ∧ t.round j b = some u ∧ u.e = e ∧ u.redone = true ∧
      u.q = (quantiseAll g e r.x).1 ∧ u.sent = true ∧ ∃ y ∈ (t.conn k).unacked ++ (t.conn k).waiting, y.type = 8) ∧
    (∀ b r m, s.round j b = some r → r.send.isSome = true → r.sent = false → m ∈ s.redKids j →
      (∀ x ∈ r.children, x.child ≠ m) → r.startAt + 1000 * bits g 55 40 ≤ s.now .network →
      ∃ t, exec (.roundTimeout j b) s = .next t ∧ t.round j b = none ∧ t.net.redFail = s.net.redFail + 1 ∧
      ∀ x, r.send = some x → x ∉ t.net.sends) ∧
    (∀ b, s.round j b = none → exec (.roundTimeout j b) s = .next s) ∧
    (∀ v : BitVec 64, j < 64 → s.net.ports ≠ [] → portsOf s.model ≠ 0 →
      let counted := fun (t : State) => t.redCfg j = cfgApply s.model (redBase j) v.toNat ∧
        t.health.cntClamps = s.health.cntClamps + BitVec.ofNat 64 (clampsIn s.model (redBase j) v.toNat)
      (redOn g = true → exec (.redEnable j v) s = .next (s.setReg (redBase j) (g - 1 + v.toNat % 2))) ∧
      (redOn g = false → v.getLsbD 0 = true → ∃ t, exec (.redEnable j v) s = .next t ∧ redOn (t.redCfg j) = true ∧
        (∀ x ∈ t.net.buckets, x.group ≠ j) ∧ (∀ x ∈ t.net.rounds, x.group ≠ j) ∧ counted t ∧ ∀ a, a ≠ redBase j → t.reg a = s.reg a) ∧
      (redOn g = false → v.getLsbD 0 = false → ∃ t, exec (.redEnable j v) s = .next t ∧ redOn (t.redCfg j) = false ∧
        counted t ∧ t.net = s.net ∧ ∀ a, a ≠ redBase j → t.reg a = s.reg a))

/-! ## Horvi pairs (R376 to R396) -/

/-- R376 to R379, R390, R391, R395, R396: frames dropped, out of sequence, acknowledged and sent again; heartbeats, lanes, the loss
of the partner and what follows it; the link switch and its keys. -/
def Obligations.HorviLink : Prop :=
  ∀ (s : State) (f : Frame),
    let h := s.hrv
    let now := s.now .horvi
    let last := h.lastPn.getD (2 + b2n (f.w0.toNat.testBit 9)) 0
    let typed := fun (n : Nat) => s.hrvOn = true ∧ hrvType f = n
    let enters := fun (n : Nat) => typed n ∧ bits f.w0.toNat 3 0 = 1 ∧ last < hrvPn f
    let hrvOnly := fun (t : State) => t = { s with hrv := t.hrv }
    let ordered := [(3, 0, Instr.journal f), (4, 0, .journalDone f), (5, 1, .hrvUpdate f), (6, 0, .command f), (6, 0, .commandDone f),
      (7, 0, .window f), (8, 0, .sync f)]
    let quiet := h.cmds = [] ∧ ∀ o ∈ s.openReqs, o.psns = []
    let freed := fun (t : State) => (∀ o ∈ t.openReqs, o.psns = []) ∧ ∀ b ∈ t.bindings, b.kind ≠ 4
    let solo := fun (t : State) => t.hrv.st = 5 ∧ t.hrv.partner = [] ∧ t.hrv.toReplay.length = h.partner.length ∧
      (∀ e, e ∈ t.hrv.toReplay ↔ e ∈ h.partner) ∧ freed t ∧ (quiet → t.batches = s.batches ∧ t.cells = s.cells)
    let lost := fun (t : State) => t.hrv.loss = h.loss + 1 ∧ t.health.alert.getLsbD 6 = true
    let resent := fun (c : Instr) (n : Nat) => ∃ t, exec c s = .next t ∧ hrvOnly t ∧ (t.stream n).unacked = (s.stream n).unacked ∧
      t.hrv.out.length = h.out.length + (s.stream n).unacked.length ∧
      t.hrv.cntResend = h.cntResend + BitVec.ofNat 64 (s.stream n).unacked.length
    h.streams.length = 3 → h.lanes.length = 2 → h.laneSeen.length = 2 → h.laneBack.length = 2 → h.lastPn.length = 4 →
    (∀ n c, (n, c) ∈ [(1, Instr.heartbeat 0 f), (2, .hello f), (3, .journal f), (4, .journalDone f), (5, .hrvUpdate f),
        (6, .command f), (6, .commandDone f), (7, .window f), (8, .sync f), (9, .hrvAck f), (10, .hrvNak f), (11, .goodbye f)] →
      typed n → bits f.w0.toNat 3 0 ≠ 1 ∨ hrvPn f ≤ last →
      exec c s = .next { s with hrv := { h with rxDrop := h.rxDrop + 1 } }) ∧
    (∀ n k c, (n, k, c) ∈ ordered → enters n → hrvPsn f ≠ (s.stream k).rx → ∃ t l g,
      exec c s = .next t ∧ t.hrv.out = h.out ++ l ++ [g] ∧ hrvType g = 10 ∧ hrvAckPsn g = (s.stream k).rx ∧
      (t.stream k).rx = (s.stream k).rx ∧ ((s.stream k).waiting = [] → l = []) ∧ (k = 0 ∨ s.openReqs = [] → hrvOnly t)) ∧
    (∀ n x a b, enters 9 → hrvArg f = n → n < 2 → n = 0 ∨ s.openReqs = [] → (s.stream n).unacked = x :: a ++ b →
      (s.stream n).waiting = [] → (hrvAckPsn f - hrvPsn x).toNat = a.length + 1 → ∃ t, exec (.hrvAck f) s = .next t ∧
      hrvOnly t ∧ (t.stream n).unacked = b ∧ t.hrv.out = h.out) ∧
    (∀ x o st low rec, enters 9 → hrvArg f = 1 → (s.stream 1).unacked = [x] → hrvAckPsn f = hrvPsn x + 1 → s.openReqs = [o] →
      o.psns = [hrvPsn x] → o.result = some (st, low, rec) → ∃ t, exec (.hrvAck f) s = .next t ∧ t.openReqs = [] ∧
      (t.stream 1).unacked = (if h.lanes.any id then (s.stream 1).waiting.take 4096 else [])) ∧
    (∀ n x a, enters 10 → hrvArg f = n → n < 2 → (s.stream n).unacked = x :: a → hrvAckPsn f = hrvPsn x → resent (.hrvNak f) n) ∧
    (∀ n, n < 2 → (s.stream n).oldest + 3000 ≤ now → (s.stream n).unacked ≠ [] → h.lanes.any id = true → resent (.hrvResend n) n) ∧
    (∀ n, now < (s.stream n).oldest + 3000 → exec (.hrvResend n) s = .next s) ∧
    (s.hrvOn = true → exec .hrvBadFrame s = .next { s with hrv := { h with rxDrop := h.rxDrop + 1 } }) ∧
    (∀ n, n < 2 → s.hrvOn = true → ∃ t g, exec (.hrvPureAck n) s = .next t ∧ hrvOnly t ∧ t.hrv.out = h.out ++ [g] ∧
      hrvType g = 9 ∧ hrvAckPsn g = (s.stream n).rx) ∧
    (∀ lane, lane < 2 → enters 1 → ∃ t, exec (.heartbeat lane f) s = .next t ∧ hrvOnly t ∧
      t.hrv.laneSeen = h.laneSeen.set lane now ∧
      t.hrv.hbMiss = h.hbMiss + BitVec.ofNat 64 ((now - h.laneSeen.getD lane 0 - 1) / 2000) ∧ t.hrv.lanes = h.lanes ∧ t.hrv.st = h.st) ∧
    (s.hrvOn = true → ∃ t, exec .heartbeatSend s = .next t ∧ hrvOnly t ∧
      t.hrv.out.length = h.out.length + (h.lanes.filter id).length ∧ ∀ g ∈ t.hrv.out.drop h.out.length, hrvType g = 1) ∧
    (∀ lane, lane < 2 → h.lanes = [true, true] → h.laneSeen.getD lane 0 + 6000 ≤ now →
      now < h.laneSeen.getD (1 - lane) 0 + 6000 → ∃ t, exec (.laneDown lane) s = .next t ∧ t.hrv = { h with
        lanes := h.lanes.set lane false, cntLane := h.cntLane + 1, hbMiss := h.hbMiss + 3 }) ∧
    (∀ lane, lane < 2 → h.lanes.getD lane false = false → h.lanes.any id = true → now < h.laneSeen.getD lane 0 + 6000 →
      h.laneBack.getD lane 0 + 1000000 ≤ now → exec (.laneReturn lane) s =
        .next { s with hrv := { h with lanes := h.lanes.set lane true, cntLane := h.cntLane + 1 } }) ∧
    (∀ lane, s.model < 2 → lane < 2 → h.enable = true → h.policy = true → s.power.memReady = true → h.lanes = [false, false] →
      s.power.plugLow.contains lane = false → h.st = 1 ∨ h.st = 5 ∨ h.st = 6 → ∃ t g, exec (.horviLaneTrained lane) s = .next t ∧
      hrvOnly t ∧ t.hrv.st = (if h.st = 1 then 2 else h.st) ∧ t.hrv.lanes = h.lanes.set lane true ∧ t.hrv.out = h.out ++ [g] ∧
      hrvType g = 2 ∧ ∀ n < 3, (t.stream n).rx = 0 ∧ (t.stream n).unacked = []) ∧
    (∀ lane, s.model < 2 → lane < 2 → h.enable = true → s.power.memReady = true → h.lanes.getD lane false = false →
      s.power.plugLow.contains lane = false → h.lanes.any id = true ∨ h.policy = false → exec (.horviLaneTrained lane) s =
        .next { s with hrv := { h with lanes := h.lanes.set lane true, laneSeen := h.laneSeen.set lane now
                                       laneBack := h.laneBack.set lane now, cntLane := h.cntLane + 1 } }) ∧
    (s.hrvOn = true → (∀ x ∈ h.laneSeen, x + 6000 ≤ now) →
      (h.st = 3 ∨ h.st = 4 → h.rank = 1 ∨ (∀ x ∈ s.net.ports, x.up = false) → ∃ t, exec .partnerLoss s = .next t ∧
        solo t ∧ lost t ∧ t.hrv.lanes = [false, false]) ∧
      (h.st = 3 ∨ h.st = 4 → h.rank = 0 → (∃ x ∈ s.net.ports, x.up = true) → ∃ t, exec .partnerLoss s = .next t ∧
        lost t ∧ t.hrv.st = h.st ∧ t.hrv.probe = some (s.now .steward + 1000 * bits (s.reg 0x3600000) 20 16) ∧
        t.hrv.probeMsg = some (s.conn (bits (s.reg 0x3600000) 13 4)).nextMsg) ∧
      (h.st = 2 ∨ h.st = 7 → ∃ t, exec .partnerLoss s = .next t ∧ hrvOnly t ∧ t.hrv.st = 1 ∧ t.hrv.loss = h.loss)) ∧
    (enters 11 → h.st = 3 ∨ h.st = 4 → ∃ t, exec (.goodbye f) s = .next t ∧ solo t ∧ lost t) ∧
    (enters 11 → h.st ≠ 3 → h.st ≠ 4 → ∃ t, exec (.goodbye f) s = .next t ∧ hrvOnly t ∧ t.hrv.st = h.st ∧
      t.hrv.helloSeen = false ∧ t.hrv.loss = h.loss) ∧
    (∀ port g, let k := bits (s.reg 0x3600000) 13 4
      let c := s.conn k
      s.netOn = true → (s.port port).up = true → g.version = 1 → g.type = 7 → g.conn = k → (s.peerCfg k).testBit 0 = true →
      c.st = 1 → g.psn = c.rx → g.isLast = true → h.probeMsg = some g.msg → ∃ t, exec (.netDone port g) s = .next t ∧
      t.hrv.st = 6 ∧ t.hrv.probe = none ∧ t.hrv.probeMsg = none ∧ t.hrv.yields = h.yields + 1 ∧ t.hrv.toReplay = [] ∧
      t.hrv.partner = [] ∧ freed t ∧ (∀ b ∈ t.bindings, b.kind ≠ 3) ∧ (∀ b ∈ t.batches, s.mirrored b.part = false) ∧
      t.health.alert.getLsbD 2 = true ∧ ∀ p < 16, p < s.parts.length → s.mirrored p = true → (t.part p).opened = false) ∧
    (∀ x, h.probe = some x → (s.now .steward < x → exec .probeWindowExpiry s = .next s) ∧
      (x ≤ s.now .steward → ∃ t, exec .probeWindowExpiry s = .next t ∧ solo t ∧ t.hrv.probe = none)) ∧
    (s.model < 2 → h.enable = false → exec (.hrvLinkEn true) s =
      .next { s with hrv := { h with enable := true, st := if h.policy then 1 else 0 } }) ∧
    (s.model < 2 → h.enable = true → ∃ t, exec (.hrvLinkEn false) s = .next t ∧ t.hrv.st = 0 ∧ t.hrv.enable = false ∧
      t.hrv.lanes = [false, false] ∧ t.hrv.partner = [] ∧ freed t ∧ (∀ b ∈ t.bindings, b.kind ≠ 3) ∧
      (s.hrvOn = true → quiet → ∃ g, t.hrv.out = h.out ++ [g] ∧ hrvType g = 11 ∧ hrvArg g = 2)) ∧
    (∀ a w v, s.model < 2 → a < 4 → w < 8 → exec (.hrvSakWrite a w v) s =
      .next { s with hrv := { h with sak := h.sak.set (8 * a + w) v, lastPn := h.lastPn.set a 0 } })

/-- R381 to R389, R392: the comparison of identities, the copy and its end, and the updates, commands, windows and journal records
that a partner sends. -/
def Obligations.HorviPair : Prop :=
  ∀ (s : State) (f : Frame),
    let h := s.hrv
    let w := wordAt f.payload 0
    let enters := fun (n : Nat) => s.hrvOn = true ∧ hrvType f = n ∧ bits f.w0.toNat 3 0 = 1 ∧
      h.lastPn.getD (2 + b2n (f.w0.toNat.testBit 9)) 0 < hrvPn f
    let next := fun (n k : Nat) => enters n ∧ (k = 0 ∨ (s.stream k).unacked = []) ∧ hrvPsn f = (s.stream k).rx
    let accepted := (((s.modHrv fun h => { h with
      lastPn := h.lastPn.set (2 + b2n (f.w0.toNat.testBit 9)) (hrvPn f) }).hrvAcked 0 (hrvAckPsn f)).modStream 0 fun x =>
        { x with rx := x.rx + 1 })
    let hrvOnly := fun (t : State) => t = { s with hrv := t.hrv }
    let same := bits w 15 0 ≠ h.rank ∧ bits w 31 16 = h.mask ∧
      (f.payload.drop 16).take 816 = s.image.measure.flatMap fun x => (x ++ zeros 48).take 48
    let reopened := fun (t : State) => ∀ p < 16, s.mirrored p = true → (t.part p).opened = t.mayOpen p
    let c0 : MirrorCmd := ⟨8, bits (hrvArg f) 15 8, bits (hrvArg f) 31 16, f.payload.take 48, false⟩
    h.streams.length = 3 → s.parts.length = 16 →
    (s.hrvOn = true → h.greets = true → ∃ t g, exec .helloSend s = .next t ∧ hrvOnly t ∧ t.hrv.out = h.out ++ [g] ∧
      hrvType g = 2 ∧ wordAt g.payload 0 = (h.rank + 2 ^ 16 * h.mask + 2 ^ 32 * h.st) % 2 ^ 64) ∧
    (h.greets = false → exec .helloSend s = .next s) ∧
    (enters 2 → h.greets = true → ¬ same → ∃ t, exec (.hello f) s = .next t ∧ t.hrv.st = 7 ∧ t.hrv.helloSeen = true ∧
      t.health.cntReports = s.health.cntReports + 1 ∧ t.parts = s.parts) ∧
    (enters 2 → h.greets = true → same → ∃ t, exec (.hello f) s = .next t ∧ t.hrv.st = 3 ∧ t.hrv.helloSeen = true ∧
      t.hrv.source = (if h.st = 5 ∧ bits w 39 32 ≠ 5 then true else if h.st ≠ 5 ∧ bits w 39 32 = 5 then false else h.rank == 1) ∧
      reopened t ∧ t.batches = s.batches) ∧
    (next 8 0 → h.st ≠ 3 ∨ h.source = true → ∃ t, exec (.sync f) s = .next t ∧ hrvOnly t ∧ t.hrv.syncBuf = h.syncBuf ∧
      t.hrv.st = h.st) ∧
    (next 8 0 → h.st = 3 → h.source = false →
      let d := h.syncBuf ++ hrvBody f
      let b := Data.bytes d
      let n := hrvArg f / 256
      let last := fun (kind : Nat) => (hrvArg f).testBit 4 = true ∧ hrvArg f % 16 = kind
      ((hrvArg f).testBit 4 = false → ∃ t, exec (.sync f) s = .next t ∧ hrvOnly t ∧ t.hrv.syncBuf = d) ∧
      (last 0 → ∃ t, exec (.sync f) s = .next t ∧ hrvOnly t ∧ t.hrv.syncBuf = [] ∧ t.hrv.syncEnd = true ∧
        t.hrv.logPos = max h.logPos n) ∧
      (∀ e, last 1 → s.anyTable (bits (wordAt b 0) 11 0) = some e → s.peerDie (bits (wordAt b 0) 11 0) < s.dies.length → ∃ t r,
        exec (.sync f) s = .next t ∧ (t.die (s.peerDie (bits (wordAt b 0) 11 0))).queue =
          (s.die (s.peerDie (bits (wordAt b 0) 11 0))).queue ++ [r] ∧ r.mirror = some (bits (wordAt b 1) 31 0) ∧ r.part = e.part ∧
        r.op = bits (wordAt b 0) 15 12) ∧
      (let ep := Epoch.parse b;
        last 2 → (s.tablePart ep.table).isSome = true → ∃ t, exec (.sync f) s = .next t ∧
        t.epochs = s.epochs.filter (fun e => !(e.table == ep.table && e.no == ep.no)) ++ [ep]) ∧
      (∀ tb ep, last 3 → s.anyTable (wordAt b 0) = some tb → s.epoch (wordAt b 0) (wordAt b 1) = some ep → ∃ t,
        exec (.sync f) s = .next t ∧ t.mem = (s.areaWrite 3 tb.part (tb.home (some ep) n) (tb.rowOff ep n)
          ((d.drop 16).take tb.len)).mem ∧ t.epochs = s.epochs) ∧
      (last 4 → ∃ t, exec (.sync f) s = .next t ∧ (∀ e ∈ t.tables, e.table = n → e.lastEpoch = wordAt b 0) ∧
        ∀ e, e.table ≠ n → (e ∈ t.epochs ↔ e ∈ s.epochs)) ∧
      (last 5 → ∃ t, exec (.sync f) s = .next t ∧
        t.parts = s.parts.modify n (fun u => { u with pubno := wordAt b 0 }) ∧ t.mem = s.mem)) ∧
    (h.st = 3 → h.source = false → h.syncEnd = true → ∃ t, exec .syncComplete s = .next t ∧ t.hrv.st = 4 ∧
      t.hrv.syncEnd = false ∧ reopened t ∧ t.health.cntReports = s.health.cntReports + 1) ∧
    (h.st = 3 → h.source = true → (s.stream 0).unacked = [] → (s.stream 0).waiting = [] → h.logPos ≤ h.syncPos → ∃ t,
      exec .syncComplete s = .next t ∧ t.hrv.st = 4 ∧ t.hrv.source = false ∧ t.health.cntReports = s.health.cntReports + 1) ∧
    (h.st ≠ 3 ∨ (h.source = false ∧ h.syncEnd = false) ∨ (h.source = true ∧ (s.stream 0).unacked ≠ []) →
      exec .syncComplete s = .next s) ∧
    (next 5 1 → hrvArg f = 0 → 32 ≤ f.payload.length → f.payload.length < wordAt f.payload 3 → ∃ t,
      exec (.hrvUpdate f) s = .next t ∧ hrvOnly t ∧ t.hrv.updBuf = f.payload ∧ (t.stream 1).rx = (s.stream 1).rx + 1) ∧
    (∀ e, next 5 1 → hrvArg f = 0 → 32 ≤ f.payload.length → wordAt f.payload 3 ≤ f.payload.length →
      s.anyTable (bits w 11 0) = some e → s.peerDie (bits w 11 0) < s.dies.length → ∃ t r, exec (.hrvUpdate f) s = .next t ∧
      (t.die (s.peerDie (bits w 11 0))).queue = (s.die (s.peerDie (bits w 11 0))).queue ++ [r] ∧ r.op = bits w 15 12 ∧
      r.part = e.part ∧ r.mirror = some (bits (wordAt f.payload 1) 31 0) ∧ r.idx = leList 4 (bits w 63 32) (f.payload.drop 32) ∧
      t.mem = s.mem ∧ t.cells = s.cells) ∧
    (next 6 0 → h.st = 4 → (hrvArg f).testBit 63 = false → bits (hrvArg f) 7 0 = 8 → s.image.st ≠ 2 → ∃ t,
      exec (.command f) s = .next t ∧ hrvOnly t ∧ t.hrv.cmds = h.cmds ++ [c0]) ∧
    (∀ x, next 6 0 → h.st = 4 → (hrvArg f).testBit 63 = false → bits (hrvArg f) 7 0 = 8 → h.cmds = [] → s.image.st = 2 →
      s.image.staged = some x → x.digest = f.payload.take 48 → ∃ t, exec (.command f) s = .next t ∧ t.hrv.cmds = [] ∧
      t.image.st = 3 ∧ t.image.busy = true ∧ t.image.waitPartner = false ∧ (x.part < 16 → (t.part x.part).committing = true)) ∧
    (∀ x c, next 6 0 → h.st = 4 → (hrvArg f).testBit 63 = true → bits (hrvArg f) 7 0 = 8 → h.cmds = [c] → c.op = 8 →
      c.own = true → s.image.waitPartner = true → s.image.staged = some x → x.part < 16 → ∃ t,
      exec (.commandDone f) s = .next t ∧ t.hrv.cmds = [] ∧ t.image.st = 3 ∧ t.image.waitPartner = false ∧
      (t.part x.part).committing = true) ∧
    (next 6 0 → h.st = 4 → (hrvArg f).testBit 63 = true → h.cmds = [] → ∃ t, exec (.commandDone f) s = .next t ∧ hrvOnly t ∧
      t.hrv.cmds = []) ∧
    (next 6 0 → h.st = 4 → (hrvArg f).testBit 63 = false →
      let op := bits (hrvArg f) 7 0
      let p := bits (hrvArg f) 15 8
      let table := bits (hrvArg f) 31 16
      let mine := (hrvArg f).testBit 62
      let c : MirrorCmd := ⟨op, p, table, f.payload, false⟩
      let kept := (accepted.hrv.cmds.find? fun x => x.own && x.op == op && x.part == p && x.table == table)
      let rest := match kept with
        | some x => fun (t : State) => if mine then t.modHrv fun h => { h with cmds := h.cmds.erase x } else t
        | none => fun t => t
      op ≠ 8 →
      (accepted.hrv.rank = 1 → op ≠ 9 →
        let (done, t) := (accepted.modHrv fun h => { h with cmds := h.cmds ++ [c] }).tblRun op p table f.payload false
        exec (.command f) s = .next (if done then t.sendCommand c else t)) ∧
      (accepted.hrv.rank = 1 → op = 9 → exec (.command f) s =
        .next (((accepted.modHrv fun h => { h with cmds := h.cmds ++ [c] }).partReset p).sendCommand c)) ∧
      (accepted.hrv.rank ≠ 1 → op = 9 → exec (.command f) s = .next (((rest accepted).partReset p).commandDone op p table)) ∧
      (accepted.hrv.rank ≠ 1 → op ≠ 9 →
        let (done, t) := accepted.tblRun op p table f.payload mine
        exec (.command f) s = .next (if done then ((rest t).commandDone op p table).tblIdle p
          else if mine then t else t.modHrv fun h => { h with cmds := h.cmds ++ [c] }))) ∧
    (next 7 0 → (s.refused (bits (hrvArg f) 60 57) (addr57 (hrvArg f)) f.payload.length).isSome = true → ∃ t,
      exec (.window f) s = .next t ∧ hrvOnly t ∧ t.hrv.winDrop = h.winDrop + 1) ∧
    (∀ r g j off, next 7 0 → s.ranges = [r] → r.part = bits (hrvArg f) 60 57 → r.kind = 2 → r.write = true →
      r.lo ≤ addr57 (hrvArg f) → addr57 (hrvArg f) + f.payload.length ≤ r.hi → 0 < f.payload.length →
      r.target (addr57 (hrvArg f)) = 0x100000000000 + 0x400000 * g + off → off + f.payload.length ≤ 0x400000 →
      s.posOf g = some j → ∃ t, exec (.window f) s = .next t ∧
      (t.cell j).scratch = (s.cell j).scratch.write 64 off (hrvBody f) ∧ (∀ n, n ≠ j → t.cell n = s.cell n) ∧ t.mem = s.mem) ∧
    (next 3 0 → let slot := hrvArg f % 65536
      ∃ t, exec (.journal f) s = .next t ∧ t.hrv.partner = h.partner.filter (fun e => e.1 != slot) ++ [(slot, f.payload.take 256)] ∧
      (∀ b ∈ t.bindings, b.kind = 3 → b.handle = 2 ^ 32 + slot → b.part = bits (wordAt (f.payload.take 256) 0) 35 32) ∧
      (∀ b, ¬ (b.kind = 3 ∧ b.handle = 2 ^ 32 + slot) → (b ∈ t.bindings ↔ b ∈ s.bindings)) ∧ t.batches = s.batches) ∧
    (next 4 0 → let slot := hrvArg f % 65536
      ∃ t, exec (.journalDone f) s = .next t ∧ t.hrv.partner = h.partner.filter (fun e => e.1 != slot) ∧
      t.bindings = s.bindings.filter (fun b => !(b.kind == 3 && b.handle == 2 ^ 32 + slot)) ∧ t.batches = s.batches) ∧
    (h.toReplay = [] → exec .replayAdmission s = .next s) ∧
    (∀ slot d l, h.toReplay = (slot, d) :: l →
      let p := bits (wordAt d 0) 35 32
      (s.health.fatal ≠ 0 ∨ (s.part p).committing = true ∨ (s.part p).resetting = true → exec .replayAdmission s = .next s) ∧
      (s.health.fatal = 0 → (s.part p).committing = false → (s.part p).resetting = false → (s.part p).defined = false ∨
        (s.part p).drained = true ∨ s.power.suspectHold = true → ∃ t, exec .replayAdmission s = .next t ∧ t.hrv.toReplay = l ∧
        t.hrv.replayed = h.replayed + 1 ∧ t.batches = s.batches ∧ t.cells = s.cells ∧
        ∀ b ∈ t.bindings, ¬ (b.kind = 3 ∧ b.handle = 2 ^ 32 + slot))) ∧
    (∀ slot d l, h.toReplay = (slot, d) :: l →
      let p := bits (wordAt d 0) 35 32
      let cls := if (wordAt d 0).testBit 36 then Cls.be else Cls.lc
      let own := (descCells ((d.drop 128).take 128)).filter (s.owns p)
      (s.part p).defined = true → (s.part p).drained = false → s.power.suspectHold = false → s.health.fatal = 0 → (s.part p).committing = false →
      (s.part p).resetting = false → own ≠ [] → s.bindings.length + s.batches.length < 2 ^ 31 → ∃ t b,
      exec .replayAdmission s = .next t ∧ t.hrv.toReplay = l ∧ t.hrv.replayed = h.replayed + 1 ∧ t.batches = s.batches ++ [b] ∧
      b.part = p ∧ b.cls = cls ∧ b.running = own ∧ b.replays = 1 ∧ (∀ x ∈ s.batches, x.handle ≠ b.handle) ∧
      (∀ x ∈ s.bindings, x.kind = 3 → x.handle = 2 ^ 32 + slot → { x with kind := 0, handle := b.handle } ∈ t.bindings) ∧
      ∀ g i, g ∈ own → s.posOf g = some i → ∃ j : Job, t.cell i = { s.cell i with startQ := j :: (s.cell i).startQ } ∧
        j.handle = b.handle ∧ j.cls = cls)

/-! ## Faults and health (R397 to R425) -/

/-- R398 to R407, R418, R424: reports become incidents, incidents records; what a class does to its unit; the ring and alert
registers; the fatal events. -/
def Obligations.FaultReports : Prop :=
  ∀ (s : State) (rep : Report),
    let h := s.health
    let now := s.now .steward
    let same := fun n : Incident => n.rep.unit == rep.unit && n.rep.cls == rep.cls
    let kept := fun (t : State) => t.mem = s.mem ∧ t.cells = s.cells ∧ t.parts = s.parts ∧ t.regs = s.regs
    let closed := fun (t : State) => t.batches = [] ∧ t.mem = s.mem ∧ ∀ q < 16, (t.part q).opened = false
    (0x12 ≤ rep.cls → rep.cls ≤ 0x15 → h.incidents.any same = false → h.incidents.length < 256 →
      exec (.faultReport rep) s = .next { s with health := { h with
        cntReports := h.cntReports + 1, incidents := h.incidents ++ [Incident.of rep (if rep.cls = 0x15 then 0 else 3) now] } }) ∧
    (0x12 ≤ rep.cls → rep.cls ≤ 0x15 → h.incidents.any same = true →
      exec (.faultReport rep) s = .next { s with health := { h with
        cntReports := h.cntReports + 1
        incidents := h.incidents.map fun n => if same n then { n with
          last := rep.time, reporters := min 65535 (n.reporters + 1), selfReport := n.selfReport || rep.selfReport } else n } }) ∧
    (rep.cls = 2 ∨ rep.cls = 7 → rep.unit.kind = 1 → rep.selfReport = false → h.incidents.any same = false →
      h.incidents.length < 256 → rep.unit.index < h.jigs.length →
      ∃ t, exec (.faultReport rep) s = .next t ∧ kept t ∧
        t.health.incidents = h.incidents ++ [{ Incident.of rep 2 now with action := 0x10, verdict := 1 }] ∧
        t.jig rep.unit.index = if (s.jig rep.unit.index).running then s.jig rep.unit.index else { s.jig rep.unit.index with
          due := now, graceEnd := now, pending := true, ref := 0, refCls := rep.cls }) ∧
    (0x12 ≤ rep.cls → rep.cls ≤ 0x15 → h.incidents.any same = false → 256 ≤ h.incidents.length →
      ∃ t, exec (.faultReport rep) s = .next t ∧ kept t ∧ t.health.incidents = h.incidents ∧
        t.health.cntReports = h.cntReports + 1 ∧ (∀ r, r ≠ ringOf rep.cls → t.ring r = s.ring r)) ∧
    (rep.cls = 0x0A → h.incidents.any same = false → ∃ t, exec (.faultReport rep) s = .next t ∧ t.health.suspect = true ∧
      t.cells.length = s.cells.length) ∧
    (∀ d l, rep.cls = 0x0C → rep.unit.kind = 8 → (s.ce rep.unit.index).active = d :: l → rep.unit.index < s.ces.length →
      ∃ t, exec (.faultReport rep) s = .next t ∧ t.mem = s.mem ∧ (t.ce rep.unit.index).active =
        { d with snap := d.snap.map fun x => (x.1, true) } :: l) ∧
    (rep.cls = 2 ∨ rep.cls = 4 ∨ rep.cls = 7 → rep.unit.kind = 2 → rep.selfReport = false → h.incidents.any same = false →
      h.incidents.length < 256 → ∃ t, exec (.faultReport rep) s = .next t ∧ kept t ∧
        t.engines = s.engines.modify rep.unit.index fun e => { e with jigDue := true }) ∧
    (rep.cls = 0x10 → rep.selfReport = false → h.incidents.any same = false → h.incidents.length < 256 →
      ∃ t, exec (.faultReport rep) s = .next t ∧ kept t ∧ t.net = { s.net with jig := true }) ∧
    (∀ j b, rep.cls = 4 → rep.unit.kind = 1 → (s.cell rep.unit.index).job = some j → s.batch j.handle = some b →
      ∃ t, exec (.faultReport rep) s = .next t ∧ (t.cell rep.unit.index).job = none ∧ (t.cell rep.unit.index).comp = .fresh ∧
        t.batch j.handle = some (({ b with
            replayable := true, faulty := b.faulty ++ (s.cell rep.unit.index).logical.toList } : Batch).jobEnded
          ((s.cell rep.unit.index).logical.getD 0x1FF) 1 0) ∧
        (∀ n, n ≠ rep.unit.index → t.cell n = s.cell n) ∧ t.mem = s.mem) ∧
    (rep.cls = 6 → rep.unit.kind = 1 → rep.unit.index < s.cells.length → rep.info0.toNat < scratchSize →
      ∃ t, exec (.faultReport rep) s = .next t ∧ t.mem = s.mem ∧
        t.cells = s.cells.modify rep.unit.index fun c => { c with scratch := c.scratch.setMark (rep.info0.toNat / 64) true }) ∧
    (rep.cls = 6 → rep.unit.kind = 1 → rep.unit.index < s.cells.length → scratchSize ≤ rep.info0.toNat →
      rep.info0.toNat < scratchSize + 0x80000 → ∃ t, exec (.faultReport rep) s = .next t ∧ t.mem = s.mem ∧
        t.cells = s.cells.modify rep.unit.index fun c => { c with comp := { c.comp with
          tiles := c.comp.tiles.setMark ((rep.info0.toNat - scratchSize) / 256) true } }) ∧
    (rep.cls = 5 ∨ rep.cls = 8 ∨ rep.cls = 9 → hasLark rep.unit = true → h.incidents.any same = false →
      ∃ t, exec (.faultReport rep) s = .next t ∧
        (t.lark rep.unit).slots = ((s.lark rep.unit).event rep.cls (s.minutes rep.unit)).slots) ∧
    (rep.cls = 5 → rep.unit.kind = 4 → h.incidents.any same = false → (s.lark rep.unit).permanent = false →
      (s.lark rep.unit).slots = [] → bits (s.reg (faultBase + 0xA8)) 2 0 ≤ 1 → 1 ≤ bits (s.reg (faultBase + 0xA8)) 15 8 →
      ∃ t, exec (.faultReport rep) s = .next t ∧ kept t ∧ (t.lark rep.unit).permanent = true ∧
        (t.lark rep.unit).perm = s.minutes rep.unit / 60 ∧ t.health.cntReports = h.cntReports + 2) ∧
    (rep.cls = 0x20 → ∃ t, exec (.faultReport rep) s = .next t ∧ t.health.fatal = h.fatal ||| 4 ∧ closed t ∧
      t.health.cntReports = h.cntReports) ∧
    (rep.cls = 0x21 → h.fatal.getLsbD 2 = false → ∃ t, exec (.faultReport rep) s = .next t ∧ t.health.fatal = h.fatal ||| 8 ∧
      closed t ∧ t.health.cntReports = h.cntReports + 1) ∧
    (∀ bit, 2 ≤ bit → bit < 5 → ∃ t, exec (.fatalEvent bit) s = .next t ∧ closed t ∧
      t.health.fatal = h.fatal ||| BitVec.ofNat 5 (2 ^ bit) ∧
      t.health.firstMs = (if h.fatal = 0 then s.mtime.toNat / 1000000 % 2 ^ 32 else h.firstMs)) ∧
    (∀ bit, bit < 2 → ∃ t, exec (.fatalEvent bit) s = .next t ∧ t.batches = [] ∧ t.mem = .empty ∧ t.power.pwrGood = false ∧
      t.power.memReady = false ∧ (∀ q < 16, (t.part q).opened = false) ∧
      t.health.fatal = h.fatal ||| BitVec.ofNat 5 (2 ^ bit)) ∧
    (∀ bit, 5 ≤ bit → exec (.fatalEvent bit) s = .next s) ∧
    (∃ t, exec .stewardWdt s = .next t ∧ t.health.fatal = h.fatal ||| 4 ∧ closed t ∧ t.health.cntReports = h.cntReports ∧
      t.health.rings = h.rings ∧ t.host = s.host)

/-- R397 to R400, R403 to R406, R424, R451: an incident whose window has closed is written to the ring of its class and raises
vector 18; what the host writes to a ring's control and to FAULT_ALERT.
R416, R417, R425: the larkspur records: the flush to flash, a margin sample, and the copy that FAULT_LARK_DATA shows. -/
def Obligations.FaultRecords : Prop :=
  (∀ s : State,
    let h := s.health
    (∀ k n, h.incidents[k]? = some n → s.now .steward < n.openedAt + 20000 → exec (.incidentClose k) s = .next s) ∧
    (∀ k, h.incidents.length ≤ k → exec (.incidentClose k) s = .next s) ∧
    (∀ k n, h.incidents[k]? = some n → n.openedAt + 20000 ≤ s.now .steward →
      let r := ringOf n.rep.cls
      let f := s.ring r
      let a := 4096 * (s.reg (faultBase + 0x20 * r) / 4096) + 64 * (f.tail.toNat % 4096)
      h.rings.length = 3 → (s.reg (faultBase + 8 + 0x20 * r)).testBit 0 = true → (f.tail - f.head).toNat < 4096 → f.lost = 0 →
      s.hif.up = true → n.rep.cls < 256 → n.sev < 16 → n.rep.subcode < 256 → n.action < 256 → n.rep.unit.kind < 256 →
      n.rep.unit.index < 65536 → n.rep.unit.sub < 256 → (n.rep.part.getD 0) < 16 → n.verdict < 4 → n.reporters < 65536 →
      ∃ t, exec (.incidentClose k) s = .next t ∧ t.health.incidents = h.incidents.eraseIdx k ∧
        t.ring r = { f with tail := f.tail + 1, seq := f.seq + 1 } ∧ t.hif.vectors = s.hif.vectors ++ [18] ∧
        t.health.cntRecords = h.cntRecords + 1 ∧
        t.health.cntIncidents = h.cntIncidents + (if 1 < n.reporters then 1 else 0) ∧
        t.health.messages.length = h.messages.length + (if 3 ≤ n.sev then 1 else 0) ∧
        (let x := (t.host.read 64 a 64).bytes
         bits (wordAt x 0) 7 0 = n.rep.cls ∧ bits (wordAt x 0) 11 8 = n.sev ∧ bits (wordAt x 0) 13 12 = r ∧
         bits (wordAt x 0) 63 32 = f.seq % 2 ^ 32 ∧ bits (wordAt x 1) 7 0 = n.rep.unit.kind ∧
         bits (wordAt x 1) 23 8 = n.rep.unit.index ∧ bits (wordAt x 1) 63 48 = n.reporters ∧ wordAt x 2 = n.first % 2 ^ 64 ∧
         wordAt x 3 = n.last % 2 ^ 64 ∧ wordAt x 4 = n.rep.info0.toNat ∧ wordAt x 5 = n.rep.info1.toNat ∧
         (wordAt x 7).testBit 63 = (f.tail.toNat / 4096 % 2 == 0)) ∧
        (∀ y, y < a ∨ a + 64 ≤ y → t.host.get y = s.host.get y) ∧ t.mem = s.mem ∧ t.cells = s.cells ∧ t.parts = s.parts) ∧
    (∀ k n, h.incidents[k]? = some n → n.openedAt + 20000 ≤ s.now .steward →
      let r := ringOf n.rep.cls
      let f := s.ring r
      let on := (s.reg (faultBase + 8 + 0x20 * r)).testBit 0
      let level := (f.tail - f.head).toNat
      h.rings.length = 3 →
      (s.hif.up = false → f.held.length < 256 → ∃ t x, exec (.incidentClose k) s = .next t ∧
        t.health.incidents = h.incidents.eraseIdx k ∧ t.ring r = { f with seq := f.seq + 1, held := f.held ++ [x] } ∧
        t.host = s.host ∧ t.hif.vectors = s.hif.vectors) ∧
      ((s.hif.up = false ∧ 256 ≤ f.held.length) ∨ (s.hif.up = true ∧ (on = false ∨ 4096 ≤ level)) → ∃ t,
        exec (.incidentClose k) s = .next t ∧ t.health.incidents = h.incidents.eraseIdx k ∧ (t.ring r).tail = f.tail ∧
        (t.ring r).lost = min 0xFFFFFFFF (f.lost + 1) ∧ (t.ring r).seq = f.seq ∧ t.host = s.host ∧
        t.health.cntRecords = h.cntRecords) ∧
      (s.hif.up = true → on = true → level < 4095 → f.lost ≠ 0 → ∃ t, exec (.incidentClose k) s = .next t ∧
        (t.ring r).tail = f.tail + 2 ∧ (t.ring r).seq = f.seq + 2 ∧ (t.ring r).lost = 0 ∧
        t.health.alert.getLsbD 4 = true ∧ t.health.cntRecords = h.cntRecords + 2)) ∧
    (∀ r (val : BitVec 64), r < 3 → h.rings.length = 3 → (s.ring r).held = [] → (s.ring r).lost ≠ 0 → s.hif.up = true →
      val.toNat.testBit 0 = true → ((s.ring r).tail - BitVec.ofNat 16 (bits val.toNat 31 16)).toNat < 4096 →
      ∃ t, exec (.faultRingCtlWrite r val) s = .next t ∧ (t.ring r).tail = (s.ring r).tail + 1 ∧ (t.ring r).lost = 0 ∧
        (t.ring r).seq = (s.ring r).seq + 1 ∧ t.health.alert.getLsbD 4 = true) ∧
    (∀ r (val : BitVec 64), r < 3 → (s.hif.up = false ∨ val.toNat.testBit 0 = false) ∨ (s.ring r).held = [] ∧ (s.ring r).lost = 0 →
      exec (.faultRingCtlWrite r val) s =
        .next ((s.setReg (faultBase + 8 + 0x20 * r) (b2n (val.toNat.testBit 0))).modHealth fun h => { h with
          rings := h.rings.modify r fun f => { f with head := BitVec.ofNat 16 (bits val.toNat 31 16) } })) ∧
    (∀ r (val : BitVec 64) x l, r < 3 → h.rings.length = 3 → (s.ring r).held = x :: l → l.length < 4096 → (s.ring r).lost = 0 → s.hif.up = true →
      val.toNat.testBit 0 = true → BitVec.ofNat 16 (bits val.toNat 31 16) = (s.ring r).tail →
      ∃ t, exec (.faultRingCtlWrite r val) s = .next t ∧ (t.ring r).held = [] ∧
        (t.ring r).tail = (s.ring r).tail + BitVec.ofNat 16 (l.length + 1) ∧ (t.ring r).seq = (s.ring r).seq ∧
        t.health.cntRecords = h.cntRecords + BitVec.ofNat 64 (l.length + 1) ∧ t.mem = s.mem ∧ t.cells = s.cells) ∧
    (∀ r (val : BitVec 64), 3 ≤ r → exec (.faultRingCtlWrite r val) s = .next s) ∧
    (∀ val : BitVec 64, ∃ t, exec (.faultAlertClear val) s = .next t ∧ t = { s with health := { h with alert := t.health.alert } } ∧
      (∀ k < 7, t.health.alert.getLsbD k = (h.alert.getLsbD k && !val.getLsbD k)) ∧ t.health.alerts % 4 = h.alerts % 4)) ∧
  (∀ (s : State) (u : UnitId) (mv ps : Nat),
    let h := s.health
    let l := s.lark u
    let v := s.reg (faultBase + 0x400)
    let sel : UnitId := ⟨bits v 7 0, bits v 23 8, bits v 31 24⟩
    (∃ t, exec .larkFlush s = .next t ∧ t = { s with health := { h with
        larks := t.health.larks, flash := t.health.flash, flashMin := h.baseMin + s.mtime.toNat / 60000000000 } } ∧
      t.health.larks = h.larks.map (fun x => { x with dirty := false }) ∧ t.health.flash.length = h.larks.length ∧
      ∀ (k : Nat) (x : Lark), h.larks[k]? = some x →
        t.health.flash[k]? = some { x with dirty := false, powered := x.powered + s.mtime.toNat / 60000000000 }) ∧
    (s.larkExists u = false → exec (.marginSample u mv ps) s = .next s) ∧
    (s.larkExists u = true → l.margins.length < 32 → 25 ≤ mv → 10 ≤ ps → mv < 65536 → ps < 65536 →
      ∃ t, exec (.marginSample u mv ps) s = .next t ∧ t = { s with health := { h with larks := t.health.larks } } ∧
        t.lark u = { l with margins := l.margins ++ [(mv, ps)], dirty := true } ∧
        ∀ x : UnitId, larkUnit x ≠ larkUnit u → t.lark x = s.lark x) ∧
    (s.larkExists u = true → l.margins.length = 32 → 25 ≤ mv → 10 ≤ ps → mv < 65536 → ps < 65536 →
      ∃ t, exec (.marginSample u mv ps) s = .next t ∧ (t.lark u).interval = 2 * l.interval ∧ (t.lark u).margins.length = 17 ∧
        (∀ k < 16, (t.lark u).margins[k]? = l.margins[2 * k]?) ∧ (t.lark u).margins[16]? = some (mv, ps)) ∧
    (s.larkExists u = true → mv < 25 ∨ ps < 10 → ∃ t, exec (.marginSample u mv ps) s = .next t ∧
      t.health.cntReports = h.cntReports + 1 ∧ t.cells = s.cells ∧ t.mem = s.mem ∧ t.engines = s.engines) ∧
    (∀ val : BitVec 64, exec (.larkSelWrite val) s =
      .next ((s.setReg (faultBase + 0x400) (val.toNat % 2 ^ 32)).modHealth fun h => { h with larkBusy := true })) ∧
    (h.larkBusy = false → exec .larkCopyDone s = .next s) ∧
    (h.larkBusy = true → ∃ t, exec .larkCopyDone s = .next t ∧ t = { s with health := { h with
        larkBusy := false, larkValid := s.larkExists sel, larkData := t.health.larkData } } ∧
      (s.larkExists sel = false → t.health.larkData = List.replicate 512 0) ∧
      (s.larkExists sel = true → t.health.larkData = (s.lark sel).bytes (s.minutes sel) ∧
        bits (wordAt t.health.larkData 0) 15 0 = 0x6C4B ∧
        byteAt t.health.larkData 3 = (s.lark sel).unit.kind % 256 ∧ byteAt t.health.larkData 7 = (s.lark sel).st % 256)))

/-- R408, R409, R415: the steward's decision to replay a batch, the replay, and the comparison of a shadowed layer. -/
def Obligations.ReplaySteps : Prop :=
  ∀ (s : State) (h : Nat) (b : Batch),
    let cfg := s.reg (faultBase + 0xA0)
    s.batch h = some b →
    (b.replayable = false ∨ b.decided = true ∨ b.complete = true → exec (.replayDecision h) s = .next s) ∧
    (b.replayable = true → b.decided = false → b.complete = false →
      ((bits cfg 31 16).testBit b.part = false ∨ bits cfg 1 0 ≤ b.replays ∨ s.hrv.st = 6 ∧ s.mirrored b.part = true →
        exec (.replayDecision h) s =
          .next (s.modBatch h fun b => { b with decided := true, replayed := false })) ∧
      ((bits cfg 31 16).testBit b.part = true → b.replays < bits cfg 1 0 → s.hrv.st ≠ 6 ∨ s.mirrored b.part = false →
        (∃ t x, exec (.replayDecision h) s = .next t ∧ t.batch h = some x ∧ x.decided = true ∧ x.replayed = true ∧
          x.replays = b.replays ∧ x.cells = b.cells ∧ t.mem = s.mem ∧
          ∀ i, (∀ j, (t.cell i).job = some j → j.handle ≠ h) ∧ (∀ j, (t.cell i).susp = some j → j.handle ≠ h) ∧
            ∀ j ∈ (t.cell i).startQ, j.handle ≠ h) ∧
        (∀ g i k, b.faulty = [g] → s.posOf g = some i → (s.cell i).st < 4 → (s.cell i).pend.drain = false →
          s.health.spareOnly i = false → s.spareOf (i / 40) = some k → i < s.health.jigs.length →
          ∃ t, exec (.replayDecision h) s = .next t ∧ (t.cell k).logical = some g ∧ (t.cell k).st = 8 ∧
            (t.cell i).logical = none ∧ (t.cell i).st = 5 ∧ (t.jig i).running = true ∧
            (t.cell k).scratch = (s.cell i).scratch) ∧
        (∀ g i, b.faulty = [g] → s.posOf g = some i → (s.cell i).st < 4 → (s.cell i).pend.drain = false →
          s.health.spareOnly i = false → s.spareOf (i / 40) = none → i < s.health.jigs.length →
          ∃ t, exec (.replayDecision h) s = .next t ∧ (t.cell i).logical = some g ∧ (t.cell i).st = 5 ∧
            (t.cell i).scratch = .empty ∧ (t.jig i).running = true))) ∧
    (b.decided = false ∨ b.replayed = false ∨ b.running ≠ [] → exec (.replay h) s = .next s) ∧
    (b.decided = true → b.replayed = true → b.running = [] →
      ((∃ g ∈ b.cells, s.posOf g = none) →
        exec (.replay h) s = .next (s.modBatch h fun b => { b with replayed := false })) ∧
      ((∀ g ∈ b.cells, s.posOf g ≠ none) → (∃ g ∈ b.cells, ∃ i, s.posOf g = some i ∧ (s.cell i).st = 5) →
        exec (.replay h) s = .next s) ∧
      ((∀ g ∈ b.cells, ∃ i, s.posOf g = some i ∧ (s.cell i).st ≠ 5) → ∃ t x, exec (.replay h) s = .next t ∧
        t.batch h = some x ∧ x.running = b.cells ∧ x.status = 0 ∧ x.replays = b.replays + 1 ∧ x.faulty = [] ∧ x.desc = b.desc ∧
        x.decided = false ∧ x.replayable = false ∧ t.health.cntReplays = s.health.cntReplays + 1 ∧ t.parts = s.parts ∧
        t.mem = s.mem ∧ (∀ g ∈ b.cells, ∀ i, s.posOf g = some i → ∃ j, (t.cell i).startQ.head? = some j ∧ j.handle = h ∧
          t.cell i = { s.cell i with startQ := (t.cell i).startQ }) ∧
        ∀ i, (∀ g ∈ b.cells, s.posOf g ≠ some i) → t.cell i = s.cell i)) ∧
    (∀ g i x l, s.posOf g = some i → (s.cell i).pend.shadowCrc = x :: l → (s.cell i).held = none →
      exec (.shadowCompare g x) s =
        .next (s.putCell i { s.cell i with pend := { (s.cell i).pend with shadowCrc := l } })) ∧
    (∀ g i x l, s.posOf g = some i → (s.cell i).pend.shadowCrc = x :: l → ∃ t, exec (.shadowCompare g x) s = .next t ∧
      t.health.shadowPairs = s.health.shadowPairs ∧ t.health.cntReports = s.health.cntReports) ∧
    (∀ g i x l (y : BitVec 32) j, s.posOf g = some i → (s.cell i).pend.shadowCrc = x :: l → y ≠ x → (s.cell i).job = some j →
      j.handle = h → s.spareOf (i / 40) = none → ∃ t, exec (.shadowCompare g y) s = .next t ∧ (t.cell i).job = none ∧
      t.batch h = some (({ b with replayable := true, faulty := b.faulty ++ [g] } : Batch).jobEnded g 1 0) ∧
      t.health.shadowPairs = s.health.shadowPairs ∧ t.mem = s.mem ∧ ∀ n, n ≠ i → t.cell n = s.cell n) ∧
    (∀ g i x l (y : BitVec 32) j k, s.posOf g = some i → (s.cell i).pend.shadowCrc = x :: l → y ≠ x → (s.cell i).st < 4 →
      (s.cell i).job = some j → j.handle = h → s.spareOf (i / 40) = some k → ∃ t, exec (.shadowCompare g y) s = .next t ∧
      (t.cell i).job = none ∧ t.cell k = (s.cell k).vacate 5 ∧
      t.batch h = some (({ b with replayable := true, faulty := b.faulty ++ [g] } : Batch).jobEnded g 1 0) ∧
      t.health.shadowPairs = s.health.shadowPairs ++ [(i, k, none, none)] ∧ t.mem = s.mem ∧ ∀ n, n ≠ i → n ≠ k → t.cell n = s.cell n) ∧
    (∀ g i (y : BitVec 32), s.posOf g = some i → (s.cell i).pend.shadowCrc = [] → exec (.shadowCompare g y) s = .next s)

/-- R404, R411 to R414, R416, R418, R420, R423: jigs of cell positions, row engines and the network engine: when one runs, what a
pass, a failure, a repair and the last failure do. -/
def Obligations.JigSteps : Prop :=
  ∀ (s : State) (i : Nat) (phase : Nat),
    let c := s.cell i
    let j := s.jig i
    let now := s.now .steward
    let u : UnitId := ⟨1, i, 0⟩
    let cfg := s.reg (faultBase + 0xB0)
    let limit := bits (s.reg (faultBase + 0xA8)) 18 16
    let due := { j with
      due := j.next, next := j.next + 60000000000 * bits cfg 10 0, graceEnd := now + 1000000 * bits cfg 30 16, pending := true
      ref := 0, refCls := 0 }
    let setJig := fun (x : Jig) (t : State) => { t with health := { t.health with jigs := t.health.jigs.set i x } }
    let others := fun (t : State) => (∀ n, n ≠ i → t.cell n = s.cell n) ∧ t.mem = s.mem ∧ t.parts = s.parts
    let counted := fun (t : State) (pass : Bool) => t.health.cntJigRuns = s.health.cntJigRuns + 1 ∧
      t.health.cntJigFails = s.health.cntJigFails + (if pass then 0 else 1)
    let testing := c.st = 5 ∧ j.running = true ∧ i < s.cells.length ∧ i < s.health.jigs.length ∧ s.health.shadowPairs = []
    (s.cells.length ≤ i ∨ j.running = true ∨ c.st = 5 ∨ c.st = 7 → exec (.jigDue i) s = .next s) ∧
    (i < s.cells.length → i < s.health.jigs.length → j.running = false → j.pending = false → s.power.imageReady = true →
      j.next ≤ now →
      (c.st = 6 → s.dieTesting i = false → (∀ k, (s.jig k).pending = false) →
        exec (.jigDue i) s = .next (setJig { due with pending := false, running := true } (s.putCell i (c.vacate 5)))) ∧
      (c.st ≤ 4 ∨ 7 < c.st → s.spareOf (i / 40) ≠ none ∨ c.part = none → exec (.jigDue i) s = .next (setJig due s)) ∧
      (∀ p, c.st ≤ 4 ∨ 7 < c.st → s.spareOf (i / 40) = none → c.part = some p → exec (.jigDue i) s = .next
        ((setJig due s).modPart p fun x => { x with cntJigDefer := x.cntJigDefer + 1 }))) ∧
    (i < s.cells.length → i < s.health.jigs.length → j.running = false → j.pending = true → c.st = 6 → s.dieTesting i = false →
      (∀ k, (s.cell k).st = 6 → (s.jig k).pending = true → j.due ≤ (s.jig k).due) →
      exec (.jigDue i) s = .next (setJig { j with pending := false, running := true } (s.putCell i (c.vacate 5)))) ∧
    (j.pending = false → s.power.imageReady = false ∨ now < j.next → exec (.jigDue i) s = .next s) ∧
    (c.st ≠ 5 ∨ j.running = false → ∀ pass rep, exec (.jigDone i pass rep phase) s = .next s) ∧
    (testing → j.fails = 0 → (s.lark u).permanent = false → ∃ t, exec (.jigDone i true false phase) s = .next t ∧
      t.cell i = (if c.logical.isNone then { c with st := 6 } else c.freed) ∧ others t ∧ counted t true ∧
      t.jig i = { j.ended with lastPass := now } ∧ (t.lark u).jigRuns = (s.lark u).jigRuns + 1 ∧
      (t.lark u).jigFails = (s.lark u).jigFails ∧ (t.lark u).st = (if c.logical.isNone then 1 else 0)) ∧
    (testing → j.fails + 1 < limit → ∃ t, exec (.jigDone i false false phase) s = .next t ∧ t.cells = s.cells ∧
      t.jig i = { j with fails := j.fails + 1 } ∧ others t ∧ counted t false ∧
      (t.lark u).jigFails = (s.lark u).jigFails + 1) ∧
    (testing → limit ≤ j.fails + 1 → c.logical = none → ∃ t, exec (.jigDone i false false phase) s = .next t ∧
      t.cell i = { c with st := 7 } ∧ others t ∧ counted t false ∧ t.jig i = j.ended ∧ (t.lark u).st = 2 ∧
      (t.lark u).permanent = true) ∧
    (∀ g k, testing → limit ≤ j.fails + 1 → c.logical = some g → s.spareOf (i / 40) = some k →
      ∃ t, exec (.jigDone i false false phase) s = .next t ∧ (t.cell i).st = 7 ∧ (t.cell i).logical = none ∧
      (t.cell k).logical = some g ∧ (t.cell k).st = 8 ∧ t.mem = s.mem ∧ ∀ n, n ≠ i → n ≠ k → t.cell n = s.cell n) ∧
    (∀ g, testing → limit ≤ j.fails + 1 → c.logical = some g → s.spareOf (i / 40) = none →
      ∃ t, exec (.jigDone i false false phase) s = .next t ∧ t.health.suspect = true ∧
      ((∀ e ∈ s.engines, e.mem.wcb = []) → t.mem = s.mem)) ∧
    (testing → j.fails = 0 → phase ≠ 3 ∨ 0 < j.arraySpares → ∃ t, exec (.jigDone i false true phase) s = .next t ∧
      t.cell i = (if c.logical.isNone then { c with st := 6 } else c.freed) ∧ others t ∧ counted t false ∧
      (∃ m, (8, phase, i, m) ∈ (t.lark u).repairs) ∧ (t.lark u).permanent = false) ∧
    (∀ k, let e := s.engine k
      let x := s.health.reJigs.getD k .fresh;
      (e.st ≠ 1 ∨ s.stackCount ≤ k → ∀ pass, exec (.reJigDone k pass) s = .next s) ∧
      (k < s.stackCount → e.st = 1 → k < s.health.reJigs.length →
        (x.fails = 0 → ∃ t, exec (.reJigDone k true) s = .next t ∧
          t.engines = s.engines.modify k (fun e => { e with jigDue := false }) ∧ counted t true ∧ t.cells = s.cells ∧
          t.health.reJigs = s.health.reJigs.set k { x.ended with lastPass := now }) ∧
        (x.fails + 1 < limit → ∃ t, exec (.reJigDone k false) s = .next t ∧ t.engines = s.engines ∧ counted t false ∧
          t.cells = s.cells ∧ t.health.reJigs = s.health.reJigs.set k { x with fails := x.fails + 1 }) ∧
        (limit ≤ x.fails + 1 → ∃ t, exec (.reJigDone k false) s = .next t ∧ (t.lark ⟨2, k, 0⟩).permanent = true ∧
          (t.engine k).jigDue = false ∧ counted t false))) ∧
    (let x := s.health.netJig;
      (s.net.jig = false → ∀ pass, exec (.netJigDone pass) s = .next s) ∧
      (s.net.jig = true → x.fails = 0 → ∃ t, exec (.netJigDone true) s = .next t ∧ t.net = { s.net with jig := false } ∧
        counted t true ∧ t.cells = s.cells ∧ t.health.netJig = { x.ended with lastPass := now }) ∧
      (s.net.jig = true → x.fails + 1 < limit → ∃ t, exec (.netJigDone false) s = .next t ∧ t.net = s.net ∧ counted t false ∧
        t.cells = s.cells ∧ t.health.netJig = { x with fails := x.fails + 1 }) ∧
      (s.net.jig = true → limit ≤ x.fails + 1 → (s.lark ⟨0x0A, 0, 0⟩).permanent = false → ∃ t,
        exec (.netJigDone false) s = .next t ∧ t.net.jig = false ∧ t.health.suspect = true ∧ counted t false))

/-- R320: when the die has no SPARE position the jig of the cell is deferred and its job keeps running; the deferral is counted;
the move is made under R318 once a position is SPARE while the jig remains due, at once for a cell without a job, else at the LAYER
that holds it. -/
def Obligations.DeferredJig : Prop :=
  ∀ (s : State) (g i p : Nat),
    let c := s.cell i
    let j := s.jig i
    let moved := fun (t : State) (k : Nat) => (t.cell k).logical = some g ∧ (t.cell k).st = 8 ∧ (t.cell k).job = c.job ∧
      (t.cell k).scratch = c.scratch ∧ (t.cell i).logical = none ∧ (t.cell i).st = 5 ∧ (t.jig i).running = true ∧
      (t.jig i).pending = false ∧ ∀ n, n ≠ i → n ≠ k → t.cell n = s.cell n
    s.posOf g = some i → c.part = some p → p < s.parts.length → i < s.health.jigs.length →
    (s.spareOf (i / 40) = none → s.power.imageReady = true → j.next ≤ s.now .steward → j.pending = false → j.running = false →
      c.st ≤ 4 → ∃ t, exec (.jigDue i) s = .next t ∧ t.cells = s.cells ∧ (t.jig i).pending = true ∧ (t.jig i).due = j.next ∧
      (t.part p).cntJigDefer = (s.part p).cntJigDefer + 1 ∧ exec (.jigMove g) t = .next t) ∧
    (∀ k, s.spareOf (i / 40) = some k → s.dieTesting i = false → j.pending = true → j.due ≤ s.now (.cell i) → c.st = 0 →
      c.job = none → c.susp = none → ∃ t, exec (.jigMove g) s = .next t ∧ moved t k) ∧
    (∀ k, s.spareOf (i / 40) = some k → s.dieTesting i = false → s.moveDue i = true → s.heldAtLayer i = true →
      c.preemptDue = false → c.st ≠ 6 → ∃ t, exec (.jigMove g) s = .next t ∧ moved t k)

/-! ## Power, cooling and start-up (R34, R441 to R457) -/

/-- R419, R454 to R456: start-up step by step, each step taken from the one before it.
R419, R454: when the die self-test is done every logical cell of a die with 36 positions in service has a position there that
is not RETIRED; with fewer positions the highest-numbered cells have none and the module asks for its replacement; a RETIRED
position is left as it is. -/
def Obligations.StartUpSteps : Prop :=
  (∀ s : State,
    let p := s.power
    (p.boot = 0 → exec .inputOn s = .next { s with power := { p with boot := 1, lastReset := 0 } }) ∧
    (p.boot = 1 → ∀ a b, let new := 1 - p.activeBank % 2
      let ok := fun k => if k = 0 then a else b
      exec (.standbyRailsUp a b true) s = .next { s with
        health := { s.health with flashOk := true }
        power := if p.newFirmware = true ∧ ok new = true then { p with boot := 2, activeBank := new, newFirmware := false }
          else if a = true then { p with boot := 2, activeBank := 0, newFirmware := false }
          else if b = true then { p with boot := 2, activeBank := 1, newFirmware := false } else { p with boot := 5 } }) ∧
    (p.boot = 1 → ∃ t, exec (.standbyRailsUp true true false) s = .next t ∧ t.power.boot = 2 ∧
      t.health.fatal = s.health.fatal ||| 16 ∧ t.health.flashOk = false ∧ ∀ q < 16, (t.part q).opened = false) ∧
    (p.boot = 2 → exec .firmwareRunning s = .next { s with
      mtime := 0, power := { p with boot := 3, pwrGood := !(s.health.fatal.getLsbD 0 || s.health.fatal.getLsbD 1)
                                    suspectHold := s.health.suspect } }) ∧
    (p.boot = 3 → p.pwrGood = true → s.health.flashOk = false → exec .dieSelfTestDone s = .next { s with
      power := { p with boot := 4 }, health := { s.health with laneUsed := [], ucieLost := [] }
      cells := s.cells.mapIdx fun i c => { c with
        logical := if i % 40 < 36 then some (36 * (i / 40) + i % 40) else none
        st := if i % 40 < 36 then 0 else 6 } }) ∧
    exec .perstNRelease s = .next { s with power := { p with perstN := false } } ∧
    (p.boot = 4 → p.pwrGood = true → p.perstN = false →
      exec .configReady s = .next { s with hif := { s.hif with configReady := true } }) ∧
    (∀ failed, p.boot = 4 → p.pwrGood = true → p.memReady = false → p.resetting = true ∨ failed = [] → ∃ t,
      exec (.memReady failed) s = .next t ∧ t = { s with
        carts := t.carts, power := { p with memReady := true }
        engines := s.engines.map fun e => { e with
          st := if e.st = 0 then 1 else e.st, mem := { e.mem with pendingHard := e.mem.pendingHard && p.resetting } } } ∧
      ∀ b < s.carts.bays.length, (t.bay b).st = if (s.bay b).present ∧ (s.bay b).st = 0 then 1 else (s.bay b).st) ∧
    (∀ k, p.boot = 4 → p.pwrGood = true → p.memReady = false → p.resetting = false → k < s.stackCount → k < s.engines.length → ∃ t,
      exec (.memReady [k]) s = .next t ∧ t.power.memReady = true ∧ (t.engine k).st = 3 ∧ (t.engine k).mem.failed = true ∧
      t.health.suspect = true) ∧
    (p.memReady = true → p.imageReady = false → ∃ t, exec .imageReady s = .next t ∧
      t.power = { p with imageReady := true, resetting := false, suspectHold := s.health.suspect } ∧
      t = { s with power := t.power, health := { s.health with jigs := t.health.jigs } } ∧
      ∀ i < s.health.jigs.length, (t.jig i).next = s.now .steward + s.jigPeriod * (i + 1) / 320) ∧
    (∀ ns, ns < 10000 → exec (.modResetNRelease ns) s = .next s) ∧
    (∀ ns, 10000 ≤ ns → ns < 4000000000 → exec (.modResetNRelease ns) s = exec .glbResetWarm s) ∧
    (∀ ns, 4000000000 ≤ ns → exec (.modResetNRelease ns) s = exec .glbResetCold s) ∧
    (∀ ns, 4000000000 ≤ ns → p.boot = 4 → p.resetting = false → p.partReset = 0 → ∃ t,
      exec (.modResetNRelease ns) s = .next t ∧ t.power.boot = 1 ∧ t.power.lastReset = 1 ∧ t.mtime = 0 ∧ t.batches = [])) ∧
  (∀ s : State, s.power.boot = 3 → s.power.pwrGood = true → s.health.flashOk = true → s.cells.length = 40 * s.dieCount →
    (∀ i j g, i < s.cells.length → j < s.cells.length → (s.cell i).logical = some g → (s.cell j).logical = some g → i = j) →
    let good := fun (d : Nat) => ((List.range 40).filter fun k => (s.cell (40 * d + k)).st != 7).length
    ∃ t, exec .dieSelfTestDone s = .next t ∧ t.power.boot = 4 ∧ t.mem = s.mem ∧
      ((∀ d < s.dieCount, 36 ≤ good d) → t.health = s.health) ∧
      (∀ d < s.dieCount, good d < 36 → t.health.replace = true) ∧
      (∀ d g, d < s.dieCount → 36 * d ≤ g → g < 36 * d + min 36 (good d) →
        ∃ i, 40 * d ≤ i ∧ i < 40 * d + 40 ∧ (t.cell i).logical = some g ∧ (t.cell i).st ≠ 7) ∧
      (∀ d g i, d < s.dieCount → 36 * d + min 36 (good d) ≤ g → g < 36 * d + 36 → 40 * d ≤ i → i < 40 * d + 40 →
        (t.cell i).st ≠ 7 → (t.cell i).logical ≠ some g) ∧
      (∀ i, (s.cell i).st = 7 → t.cell i = s.cell i))

/-- R34, R443, R444, R446, R448, R449: what each event of the input, the comparator, the sensors and the cages does. -/
def Obligations.PowerEvents : Prop :=
  ∀ s : State,
    let p := s.power
    (∀ v, 380 ≤ v → v < 400 → 3 ≤ p.boot → ∃ t, exec (.inputVoltageLow v) s = .next t ∧ t.power.floorHold = true ∧
      t.power.input100mv = v ∧ (∀ i, t.limit (.cell i) = 1200) ∧ t.cells = s.cells ∧ t.mem = s.mem ∧ t.parts = s.parts ∧
      t.health.cntReports = s.health.cntReports + 1) ∧
    (∀ v, 400 ≤ v → v < 4096 → exec (.inputVoltageRestored v) s =
      .next { s with power := { p with floorHold := false, input100mv := v } }) ∧
    (∀ k, p.boot ≠ 0 → ∃ t, exec (.powerFault k) s = .next t ∧ t.health.fatal = s.health.fatal ||| 2 ∧ t.power.pwrGood = false ∧
      t.mem = .empty ∧ t.batches = [] ∧ t.power.memReady = false ∧ (∀ q < 16, (t.part q).opened = false)) ∧
    (∀ k n, p.boot ≠ 0 → ∃ t, exec (.thermalTrip k n) s = .next t ∧ t.health.fatal = s.health.fatal ||| 1 ∧
      t.power.pwrGood = false ∧ t.mem = .empty ∧ t.batches = [] ∧ t.power.memReady = false ∧
      (∀ q < 16, (t.part q).opened = false)) ∧
    (∃ t, exec .inputOff s = .next t ∧ t.power.boot = 0 ∧ t.mem = .empty ∧ t.mtime = 0 ∧ t.batches = [] ∧ t.regs = [] ∧
      t.health.suspect = s.health.suspect ∧ t.health.replace = s.health.replace ∧ t.health.larks = s.health.flash ∧
      t.health.fatal = 0 ∧ t.power.keys = p.keys ∧ t.power.firmware = p.firmware ∧ t.host = s.host ∧ t.pending = s.pending) ∧
    (∀ w v, w < 65536 → v < 4096 → exec (.powerSample w v) s = .next { s with power := { p with
      inputW := w, input100mv := v, samples := (p.samples ++ [w]).drop (p.samples.length + 1 - 20) } }) ∧
    (∃ t, exec .fastLimit s = .next t ∧ t.power.fastHold = true ∧ t.power.cntFast = p.cntFast + 1 ∧
      (∀ i < s.cells.length, t.limit (.cell i) = 1200 ∧ (t.cell i).mhz = 1200 ∧ (t.cell i).ceil = (s.cell i).ceil ∧
        (t.cell i).cur = (s.cell i).cur ∧ (t.cell i).st = (s.cell i).st) ∧ t.mem = s.mem ∧ t.engines = s.engines) ∧
    exec .fastLimitRelease s = .next { s with power := { p with fastHold := false } } ∧
    (∀ i mhz mv, i < s.cells.length → 1200 ≤ mhz → mhz ≤ 2000 → mv < 4096 → ∃ t,
      exec (.islandClockSet (.cell i) mhz mv) s = .next t ∧ (t.cell i).ceil = mhz ∧ (t.cell i).mv = mv ∧
      1200 ≤ (t.cell i).mhz ∧ (t.cell i).mhz ≤ mhz ∧ (∀ j, j ≠ i → t.cell j = s.cell j) ∧
      t.cell i = { s.cell i with ceil := mhz, mv, mhz := (t.cell i).mhz } ∧ t.mem = s.mem) ∧
    (∀ k, k < s.engines.length → (s.engine k).ceil ≤ 1800 → ∃ t, exec (.thermalThrottle (.rowEngine k) true) s = .next t ∧
      (t.engine k).ceil = max 1200 ((s.engine k).ceil - 25) ∧ (t.engine k).mhz ≤ (t.engine k).ceil ∧
      1200 ≤ (t.engine k).mhz ∧ Island.rowEngine k ∈ t.power.throttled ∧ t.cells = s.cells ∧
      (t.engine k).parts = (s.engine k).parts) ∧
    (∀ i mhz mv, i ∈ [Island.control, .host, .cartridge, .network, .horvi, .steward] ∨
        (∃ k < s.engines.length, i = .rowEngine k) ∨ (∃ k < s.dies.length, i = .dieFabric k) ∨ (∃ k < s.ces.length, i = .copyEngine k) →
      ∃ t, exec (.islandClockSet i mhz mv) s = .next t ∧ (t.clock i).1 = clampCeil i mhz ∧ (t.clock i).2.2 = mv % 4096 ∧
        (islandRange i).1 ≤ (t.clock i).2.1 ∧ (t.clock i).2.1 ≤ (t.clock i).1 ∧ t.cells = s.cells ∧ t.mem = s.mem) ∧
    (∀ i, exec (.thermalThrottle i false) s =
      .next { s with power := { p with throttled := p.throttled.filter (· != i) } }) ∧
    (∀ c : Int, 45 < c → ∃ t, exec (.thermal .inlet c) s = .next t ∧ t.power.inlet = c ∧ t.power.inletHigh = true ∧
      t.power.floorCap = true ∧ t.cap = floorOf s.model ∧ t.health.cntReports = s.health.cntReports + 1 ∧ t.cells = s.cells) ∧
    (∀ c : Int, 40 < c → c ≤ 45 → ∃ t, exec (.thermal .inlet c) s = .next t ∧ t.power.inletHigh = true ∧
      t.power.floorCap = p.floorCap ∧ t.health.cntReports = s.health.cntReports + 1) ∧
    (∀ c : Int, c ≤ 40 → exec (.thermal .inlet c) s = .next { s with power := { p with inlet := c } }) ∧
    (∀ c : Int, let low := decide (25 < c ∧ 1000 < p.inputW)
      ∃ t, exec (.thermal .flow c) s = .next t ∧ t.power.flowLow = low ∧ t.power.outlet = p.inlet + c ∧
      t.health.cntReports = s.health.cntReports + (if low then 1 else 0)) ∧
    (∀ n (c : Int), c ≤ 100 → exec (.thermal (.logicDie n) c) s = .next { s with power := { p with hottest := c } }) ∧
    (∀ n (c : Int), c ≤ 95 → exec (.thermal (.stack n) c) s = .next s) ∧
    (∀ n (c : Int), 100 < c → ∃ t, exec (.thermal (.logicDie n) c) s = .next t ∧ t.power.hottest = c ∧
      t.health.cntReports = s.health.cntReports + 1) ∧
    (∀ n (c : Int), 95 < c → ∃ t, exec (.thermal (.stack n) c) s = .next t ∧ t.power = p ∧
      t.health.cntReports = s.health.cntReports + 1) ∧
    (∀ c : Int, c < 40 → exec (.inletTemperatureRestored c) s =
      .next { s with power := { p with inlet := c, inletHigh := false, floorCap := false } }) ∧
    (∀ n w, n < portsOf s.model → 12 < w → exec (.pluggableInserted n w) s = .next { s with net := { s.net with
      ports := s.net.ports.modify n fun x => { x with lowPower := true, up := false } } }) ∧
    (∀ lane w, lane < 2 → portsOf s.model ≠ 0 → ∃ t, exec (.pluggableInserted (portsOf s.model + lane) w) s = .next t ∧
      t.power.plugLow.contains lane = decide (12 < w) ∧ t.net = s.net ∧ t.cells = s.cells) ∧
    (∀ n w, n < portsOf s.model → w ≤ 12 → ∃ t, exec (.pluggableInserted n w) s = .next t ∧
      t.net.ports.map (·.up) = s.net.ports.map (·.up) ∧ t.net.conns = s.net.conns)

/-- R446: while the average exceeds the cap every cell ceiling above its lowest clock goes 25 MHz down, not below 1.2 GHz, and
nothing else does; with the cells at 1.2 GHz the row engines and fabrics follow; no clock exceeds its ceiling. -/
def Obligations.PowerCapping : Prop :=
  ∀ s : State,
    let avg := s.power.samples.sum / max 1 s.power.samples.length
    let cap := if s.power.floorCap then floorOf s.model
      else min (bits (s.reg 0x408) 15 0) s.power.mgmtCap
    s.power.fastHold = false → s.power.floorHold = false → (∀ c ∈ s.cells, 1200 ≤ c.ceil ∧ c.ceil ≤ 2000) →
    (∀ e ∈ s.engines, 1200 ≤ e.ceil ∧ e.ceil ≤ 1800) → (∀ d ∈ s.dies, 1600 ≤ d.ceil ∧ d.ceil ≤ 2200) →
    1200 ≤ s.power.ceil → s.power.ceil ≤ 2000 →
    (cap < avg → (∃ c ∈ s.cells, 1200 < c.ceil) → ∃ t, exec .capStep s = .next t ∧ t.engines = s.engines ∧ t.dies = s.dies ∧
      t.cells.length = s.cells.length ∧ t.mem = s.mem ∧ t.parts = s.parts ∧ t.power.ceil = max 1200 (s.power.ceil - 25) ∧
      ∀ i < s.cells.length, (t.cell i).ceil = max 1200 ((s.cell i).ceil - 25) ∧ 1200 ≤ (t.cell i).mhz ∧
        (t.cell i).mhz ≤ (t.cell i).ceil ∧ t.cell i = { s.cell i with ceil := (t.cell i).ceil, mhz := (t.cell i).mhz }) ∧
    (cap < avg → (∀ c ∈ s.cells, c.ceil = 1200) → s.power.ceil = 1200 → ∃ t, exec .capStep s = .next t ∧ t.cells = s.cells ∧
      (∀ k < s.engines.length, (t.engine k).ceil = max 1200 ((s.engine k).ceil - 25) ∧
        (t.engine k).mhz ≤ (t.engine k).ceil) ∧
      (∀ d < s.dies.length, (t.die d).ceil = max 1600 ((s.die d).ceil - 25) ∧ (t.die d).mhz ≤ (t.die d).ceil)) ∧
    (avg + 100 ≤ cap → s.power.throttled = [] → (∀ e ∈ s.engines, e.ceil = 1800) → (∀ d ∈ s.dies, d.ceil = 2200) →
      ∃ t, exec .capStep s = .next t ∧ t.engines = s.engines ∧ t.dies = s.dies ∧
      ∀ i < s.cells.length, (t.cell i).ceil = min 2000 ((s.cell i).ceil + 25) ∧ (t.cell i).mhz ≤ (t.cell i).ceil) ∧
    (avg + 100 ≤ cap → s.power.throttled = [] → (∃ e ∈ s.engines, e.ceil < 1800) → ∃ t, exec .capStep s = .next t ∧
      t.cells = s.cells ∧ ∀ k < s.engines.length, (t.engine k).ceil = min 1800 ((s.engine k).ceil + 25)) ∧
    (avg ≤ cap → cap < avg + 100 → ∃ t, exec .capStep s = .next t ∧ t.cells = s.cells ∧ t.engines = s.engines ∧
      t.dies = s.dies ∧ t.power.ceil = s.power.ceil)

/-! ## The management plane and the resets (R450 to R462) -/

/-- R30, R288, R422, R451, R453: every OEM, monitoring and firmware command that arrives over I3C has its effect and is answered;
one marked I3C-only that arrives over PCIe has none.
R455: in recovery the endpoint takes firmware, which starts at once where it verifies, and answers PLDM types 0 and 5.
R289, R452: the SPDM answers; a challenge and a measurement are signed over the requester's nonces and the answer, which
holds the index asked for. -/
def Obligations.ManagementCommands : Prop :=
  (∀ s : State,
    let p := s.power
    let ok := fun (t : State) => { t with power := { t.power with answer := [0] } }
    p.boot = 4 ∨ p.boot = 3 →
    (∀ n key, key.length = 97 → p.keys[n]? = some none → exec (.keySet true n key) s =
      .next { s with power := { p with keys := p.keys.set n (some key), answer := [0] } }) ∧
    (∀ n key, key.length = 97 → p.keys[n]? ≠ some none → ∃ t, exec (.keySet true n key) s = .next t ∧
      t.power.keys = p.keys ∧ t.power.answer ≠ [0] ∧ t.power.answer.length = 1) ∧
    (∀ n key, key.length ≠ 97 → exec (.keySet true n key) s = .next { s with power := { p with answer := [3] } }) ∧
    (∀ n, p.keys.length ≤ n → ∃ t, exec (.keyRevoke true n) s = .next t ∧ t.power.keys = p.keys ∧ t.power.answer ≠ [0] ∧
      t.power.answer.length = 1) ∧
    (∀ n, n < p.keys.length → exec (.keyRevoke true n) s =
      .next { s with power := { p with keys := p.keys.set n none, answer := [0] } }) ∧
    (∀ r, ∃ t, exec (.healthClear true r) s = .next t ∧ t.health.suspect = false ∧ t.health.cause = 0 ∧
      t.health.replace = (s.health.replace && !r) ∧ t.power.suspectHold = false ∧ t.power.answer = [0] ∧
      (∀ q < 16, (s.part q).defined = true → (s.part q).drained = false → (s.part q).resetting = false →
        (s.part q).committing = false → s.health.fatal = 0 → p.resetting = false → s.mirrored q = false →
        q < s.parts.length → (t.part q).opened = true) ∧ t.cells = s.cells ∧ t.mem = s.mem ∧ t.mtime = s.mtime) ∧
    (∀ ns, 1 ≤ ns → ns ≤ 2 ^ 40 → s.model = 2 ∨ (s.reg 0x3400030).testBit 0 = false → exec (.mtimeAdvance true ns) s =
      .next (ok { s with mtime := s.mtime + BitVec.ofNat 64 ns })) ∧
    (∀ ns, ns = 0 ∨ 2 ^ 40 < ns ∨ s.model ≠ 2 ∧ (s.reg 0x3400030).testBit 0 = true → ∃ t, exec (.mtimeAdvance true ns) s = .next t ∧
      t.mtime = s.mtime ∧ t.power.answer ≠ [0]) ∧
    (∀ v : BitVec 64, bits v.toNat 2 0 ∉ [1, 2, 3] → exec (.oemReset true v) s = .next (ok s)) ∧
    (∀ v : BitVec 64, bits v.toNat 2 0 = 3 → p.boot = 4 → p.resetting = false → p.partReset = 0 → ∃ t,
      exec (.oemReset true v) s = .next t ∧ t.power.boot = 1 ∧ t.power.lastReset = 1 ∧ t.mtime = 0) ∧
    (∀ v : BitVec 64, bits v.toNat 2 0 = 1 → exec (.oemReset true v) s = exec .glbResetWarm (ok s)) ∧
    (∀ v : BitVec 64, bits v.toNat 2 0 = 2 →
      exec (.oemReset true v) s = exec (.glbResetPartition (bits v.toNat 7 4)) (ok s)) ∧
    (∀ u, exec (.larkRead true u) s = .next { s with power := { p with answer := 0 :: s.larkBytes u } }) ∧
    exec (.statusRead true) s = .next { s with power := { p with answer :=
      0 :: (leBytes 8 (s.readReg 0x10) ++ leBytes 8 (s.readReg 0x3C00098) ++ leBytes 8 (s.readReg 0x3C00080)) } } ∧
    (s.hif.configReady = true → ∀ n key r v, ∀ c : Instr,
      c ∈ [.keySet false n key, .keyRevoke false n, .healthClear false r, .mtimeAdvance false n, .oemReset false v] →
      exec c s = .next { s with power := { p with answer := [pldmUnsupported] } }) ∧
    (s.hif.configReady = true → ∀ u, exec (.larkRead false u) s = exec (.larkRead true u) s ∧
      exec (.statusRead false) s = exec (.statusRead true) s) ∧
    (s.hif.configReady = false → ∀ n key r v u, ∀ c : Instr,
      c ∈ [.keySet false n key, .keyRevoke false n, .healthClear false r, .mtimeAdvance false n, .oemReset false v, .larkRead false u,
        .statusRead false, .setEndpointId true n] → exec c s = .next s) ∧
    (∀ w, ∃ t, exec (.setPowerCap w) s = .next t ∧ t = ok { s with power := { p with mgmtCap := t.power.mgmtCap } } ∧
      (w = 0 → t.power.mgmtCap = tdpOf s.model) ∧ (0 < w → w < floorOf s.model → t.power.mgmtCap = floorOf s.model) ∧
      (floorOf s.model ≤ w → w ≤ tdpOf s.model → t.power.mgmtCap = w) ∧ (tdpOf s.model < w → t.power.mgmtCap = tdpOf s.model)) ∧
    exec (.getSensorReading 35) s =
      .next { s with power := { p with answer := 0 :: leBytes 2 (bits (s.readReg 0x400) 15 0) } } ∧
    (∀ d hi lo, (d, hi, lo) ∈ [(32, 15, 8), (33, 23, 16)] → exec (.getSensorReading d) s =
      .next { s with power := { p with answer := 0 :: leBytes 2 (bits (s.readReg 0x410) hi lo) } }) ∧
    exec (.getSensorReading 34) s =
      .next { s with power := { p with answer := 0 :: leBytes 2 (bits (s.readReg 0x400) 43 32) } } ∧
    (∀ d, d < 32 → s.hasSensor d = true →
      (p.temps ≠ [] → exec (.getSensorReading d) s = .next { s with power := { p with answer := 0 :: leBytes 2 (p.temps.getD d 0) } }) ∧
      (p.temps = [] → ∃ t, exec (.getSensorReading d) s = .next t ∧ t.power.temps.length = 32 ∧
        t.power.answer = 0 :: leBytes 2 (t.power.temps.getD d 0) ∧ t = { s with power := t.power, drawn := t.drawn })) ∧
    (∀ d, d < 32 ∨ 36 ≤ d → s.hasSensor d = false → exec (.getSensorReading d) s =
      .next { s with power := { p with answer := [0x80] } }) ∧
    (∀ d, exec (.firmwareUpdate false d) s = .next (ok { s with power := { p with
      firmware := p.firmware.set (1 - p.activeBank % 2) d, newFirmware := true } })) ∧
    (∀ d, p.imageReady = true → s.image.busy = false → s.image.st ≠ 2 → lengthOk d.length = false →
      ∃ t, exec (.firmwareUpdate true d) s = .next t ∧ t.power.answer = [0] ∧ t.image.result = 1 ∧ t.image.st = 0 ∧ t.image.serial = s.image.serial ∧
        t.mem = s.mem ∧ t.parts = s.parts) ∧
    exec (.pldmBase 1) s = .next (ok s) ∧
    (∀ c n, (c, n) ∈ [(2, 2), (3, 14), (5, 33)] → ∃ t, exec (.pldmBase c) s = .next t ∧ t.power.answer.length = n ∧
      t.power.answer.head? = some 0 ∧ t = { s with drawn := t.drawn, power := { p with answer := t.power.answer } }) ∧
    (∀ c, c = 0 ∨ 5 < c → exec (.pldmBase c) s = .next { s with power := { p with answer := [5] } }) ∧
    exec (.pldmBase 4) s = .next { s with power := { p with answer := 0 :: leBytes 8 0x8000000000000025 } } ∧
    (∀ a, a < 128 → exec (.entdaa a) s = .next { s with power := { p with i3cAddr := a } }) ∧
    (∀ e, e < 256 → exec (.setEndpointId false e) s = .next { s with power := { p with eidI3c := e } }) ∧
    (∀ e, e < 256 → s.hif.configReady = true → exec (.setEndpointId true e) s = .next { s with power := { p with eidPcie := e } })) ∧
  (∀ (s : State) (d : Bytes), s.power.boot = 5 →
    (Config.firmwareVerifies d = true → exec (.firmwareUpdate false d) s = .next { s with power := { s.power with
      boot := 2, activeBank := 1 - s.power.activeBank % 2, newFirmware := false, answer := [0]
      firmware := s.power.firmware.set (1 - s.power.activeBank % 2) d } }) ∧
    (Config.firmwareVerifies d = false → ∃ t, exec (.firmwareUpdate false d) s = .next t ∧ t.power.boot = 5) ∧
    exec (.pldmBase 4) s = .next { s with power := { s.power with answer := 0 :: leBytes 8 0x21 } } ∧
    (∀ w, exec (.setPowerCap w) s = .next s) ∧ exec .getVersion s = .next s ∧ exec (.statusRead true) s = .next s) ∧
  (∀ s : State,
    (s.power.boot ≠ 3 → s.power.boot ≠ 4 → ∀ c off len nonce, c ∈ [Instr.getVersion, .getCapabilities, .negotiateAlgorithms, .getDigests,
      .getCertificate off len, .challenge nonce, .getMeasurements off nonce] → exec c s = .next s) ∧
    (s.power.boot = 3 ∨ s.power.boot = 4 →
    let said := fun (t : State) (b : Bytes) => t = { s with power := { s.power with answer := b } }
    let chain := Config.certificate
    (∃ t, exec .getVersion s = .next t ∧ said t [0x10, 0x04, 0, 0, 0, 2, 0x00, 0x12, 0x00, 0x13]) ∧
    (∃ t, exec .getCapabilities s = .next t ∧ t = { s with drawn := t.drawn, power := { s.power with answer := t.power.answer } } ∧
      t.power.answer.length = 12 ∧ t.power.answer.take 2 = [0x13, 0x61] ∧ t.power.answer.drop 8 = leBytes 4 0x16) ∧
    (∃ t, exec .negotiateAlgorithms s = .next t ∧ said t ([0x13, 0x63, 0, 0] ++ leBytes 4 0x80 ++ leBytes 4 0x02)) ∧
    (∃ t, exec .getDigests s = .next t ∧ said t ([0x13, 0x01, 0, 1] ++ Sys2Proof.Machine.sha384 chain)) ∧
    (∀ off len, ∃ t, exec (.getCertificate off len) s = .next t ∧ said t ([0x13, 0x02, 0, 0] ++
      leBytes 2 (min len (chain.length - off)) ++ leBytes 2 (chain.length - off - min len (chain.length - off)) ++
      (chain.drop off).take len)) ∧
    (∀ nonce, ∃ t own body, exec (.challenge nonce) s = .next t ∧ own.length = 32 ∧
      body = [0x13, 0x03, 0, 1] ++ Sys2Proof.Machine.sha384 chain ++ own ∧
      t = { s with drawn := s.drawn + 32
                   power := { s.power with answer := body ++ Config.ecdsaSign (Sys2Proof.Machine.sha384 (nonce ++ body)) } }) ∧
    (∀ n nonce, n < 256 → ∃ t own body v, exec (.getMeasurements n nonce) s = .next t ∧ own.length = 32 ∧
      body = [0x13, 0x60, 0, 0] ++ [BitVec.ofNat 8 n] ++ v ++ own ∧
      t = { s with drawn := s.drawn + 32
                   power := { s.power with answer := body ++ Config.ecdsaSign (Sys2Proof.Machine.sha384 (nonce ++ body)) } } ∧
      (n = 1 → v = Config.firmwareDigest) ∧ (n = 2 → v = Config.firmwareVersion) ∧
      (n = 3 → v = Sys2Proof.Machine.sha384 (s.power.keys.flatMap fun k => k.getD (zeros 97))) ∧
      (16 ≤ n → n ≤ 32 → let d := s.image.measure.getD (n - 16) (zeros 48)
        v = if d = zeros 48 then d else d ++ leBytes 8 (s.image.measureSerial.getD (n - 16) 0).toNat) ∧
      (n ∉ [1, 2, 3] → (n < 16 ∨ 32 < n) → v = zeros 48))))

/-- R456 to R460: a cold reset loses everything volatile; a warm reset keeps MTIME, memory and counters and clears image,
batches and tables; a partition reset clears the partition's cells and rings and keeps the others; a request of equal or lower
rank while one runs is discarded and sets LOST. -/
def Obligations.ResetKinds : Prop :=
  ∀ s : State,
    let p := s.power
    (p.boot = 4 → p.resetting = false → p.partReset = 0 → ∃ t, exec .glbResetCold s = .next t ∧ t.power.boot = 1 ∧
      t.power.lastReset = 1 ∧ t.mem = .empty ∧ t.mtime = 0 ∧ t.batches = [] ∧ t.epochs = [] ∧ t.regs = [] ∧ t.image.serial = 0 ∧
      t.health.fatal = 0 ∧ t.health.suspect = s.health.suspect ∧ t.health.replace = s.health.replace ∧
      t.power.keys = p.keys ∧ t.pending = s.pending ∧ t.model = s.model ∧ (∀ c ∈ t.cells, c.job = none ∧ c.scratch = .empty)) ∧
    (p.boot = 4 → p.resetting = false → s.health.fatal = 0 → (∃ e ∈ s.engines, ∃ l ∈ e.landing, l.writing = true) → ∃ t,
      exec .glbResetWarm s = .next t ∧ t.power.boot = 4 ∧ t.power.shutting = true ∧ t.power.resetting = true ∧ t.batches = [] ∧
      ∀ q < 16, (t.part q).opened = false) ∧
    (p.boot = 4 → p.resetting = true → s.health.fatal ≠ 0 → exec .glbResetWarm s = exec .glbResetCold s) ∧
    (1 ≤ p.boot → p.boot ≤ 3 → p.resetting = false → exec .glbResetCold s = .next { s with power := { p with lost := true } }) ∧
    (∀ n, n < 16 → (s.part n).defined = true → p.resetting = true ∨ p.partReset ≠ 0 ∨ (1 ≤ p.boot ∧ p.boot ≤ 3) →
      exec (.glbResetPartition n) s = .next { s with power := { p with lost := true } }) ∧
    (p.boot = 4 → p.resetting = false → s.health.fatal = 0 → (∀ e ∈ s.engines, ∀ l ∈ e.landing, l.dirty = false ∧ l.writing = false) → ∃ t, exec .glbResetWarm s = .next t ∧ t.power.boot = 3 ∧ t.power.resetting = true ∧
      t.power.lastReset = 2 ∧ t.mtime = s.mtime ∧ t.batches = [] ∧ t.epochs = [] ∧ t.bindings = [] ∧ t.image.serial = 0 ∧ t.image.st = 0 ∧
      t.net.conns = [] ∧ t.hrv.st = 0 ∧ t.hif.up = false ∧ t.health.larks = s.health.larks ∧ t.host = s.host ∧
      (∀ i < s.cells.length, (t.cell i).job = none ∧ (t.cell i).cnt = (s.cell i).cnt ∧ (t.cell i).logical = (s.cell i).logical) ∧
      (∀ q < 16, (t.part q).opened = false)) ∧
    (p.boot = 4 → s.health.fatal ≠ 0 → exec .glbResetWarm s = exec .glbResetCold s) ∧
    (p.boot = 4 → p.resetting = true → s.health.fatal = 0 →
      exec .glbResetWarm s = .next { s with power := { p with lost := true } }) ∧
    (∀ n, exec (.glbResetNop n) s = .next s) ∧
    (p.shutting = true → ∃ t, exec .writeBackLimit s = .next t ∧ t.power.boot = 3 ∧ t.power.lastReset = 2 ∧
      t.power.shutting = false ∧ t.mtime = s.mtime ∧ (∀ e ∈ t.engines, e.landing = []) ∧
      (∀ b < s.carts.bays.length, (t.bay b).droppedPages = (s.bay b).droppedPages + BitVec.ofNat 64
        ((s.engines.flatMap (·.landing)).filter fun l => (l.dirty || l.writing) && s.dropBay l.serial == b).length)) ∧
    (∀ n, n < 16 → (s.part n).defined = true → p.resetting = false → p.boot = 4 → p.partReset = 0 → (s.part n).committing = false →
      s.mirrored n = false ∨ s.hrv.st ≠ 4 → ∃ t, exec (.glbResetPartition n) s = .next t ∧ (t.part n).resetting = true ∧
      (t.part n).opened = false ∧ t.power.partReset.toNat.testBit n = true ∧ (t.part n).lcTail = 0 ∧ (t.part n).beTail = 0 ∧
      (t.part n).cqTail = 0 ∧ (t.part n).waits = [] ∧ (∀ b ∈ t.batches, b.part ≠ n) ∧ (∀ b ∈ t.bindings, b.part ≠ n) ∧
      (∀ o ∈ t.openReqs, o.r.part = n → o.r.mirror.isSome = true) ∧ t.mtime = s.mtime ∧
      ∀ i < s.cells.length, (s.cell i).part = some n → (s.cell i).logical ≠ none → (t.cell i).scratch = .empty ∧
        (t.cell i).img = (s.cell i).img ∧ (t.cell i).logical = (s.cell i).logical ∧ (t.cell i).job = none ∧ (t.cell i).susp = none) ∧
    (∀ n, n < 16 → (s.part n).defined = true → p.resetting = false → p.boot = 4 → p.partReset = 0 → (s.part n).committing = false →
      s.mirrored n = true → s.hrv.st = 4 → s.hrv.rank = 0 → ∃ t, exec (.glbResetPartition n) s = .next t ∧
      t.hrv.cmds = s.hrv.cmds ++ [⟨9, n, 0, [], true⟩] ∧ t.power.partReset.toNat.testBit n = true ∧ t.parts = s.parts ∧
      t.cells = s.cells ∧ t.batches = s.batches) ∧
    (∀ n, n < 16 → (s.part n).defined = true → p.resetting = false → p.boot = 4 → p.partReset = 0 → (s.part n).committing = false →
      s.mirrored n = false → s.batches = [] → s.openReqs = [] → (∀ d ∈ s.dies, d.queue = []) → (s.part n).waits = [] →
      (∀ x ∈ s.hif.slots, x.device = false) → s.epochs = [] → (∀ c ∈ s.ces, c.active = []) → ∃ t,
      exec (.glbResetPartition n) s = .next t ∧
      (∀ i < s.cells.length, (s.cell i).part ≠ some n → t.cell i = s.cell i) ∧
      ((∀ e ∈ s.engines, e.mem.wcb = []) → t.mem = s.mem)) ∧
    (∀ n, n < 16 → (s.part n).defined = false → exec (.glbResetPartition n) s = .next s) ∧
    (∀ n, n < 16 → (s.part n).resetting = true → (s.part n).committing = false → p.partReset.toNat.testBit n = true →
      s.hrv.st ≠ 4 → (∃ r ∈ s.image.removing, r.part = n ∧ ∃ a ∈ s.rangeAgents n, s.rangeInUse a r = true) →
      exec (.partitionResetDone n) s = .next s) ∧
    (∀ n, n < 16 → (s.part n).resetting = true → (s.part n).committing = false → p.partReset.toNat.testBit n = true →
      s.hrv.st ≠ 4 → (∀ r ∈ s.image.removing, r.part = n → ∀ a ∈ s.rangeAgents n, s.rangeInUse a r = false) → (s.svc n).heldCmd = none →
      (∀ x ∈ s.cmp, x.heldCmd = none) → n < s.parts.length → ∃ t, exec (.partitionResetDone n) s = .next t ∧
      (t.part n).resetting = false ∧ t.power.partReset.toNat.testBit n = false ∧
      t.ranges = s.ranges ++ s.image.committed.filter (fun r => r.part == n && !s.ranges.contains r) ∧ (t.part n).opened = t.mayOpen n ∧
      t.cells = s.cells ∧ t.mem = s.mem)

/-! ## Registers, shadow sets, links and the drain switch (R7, R12, R16, R23, R31, R33, R35, R36) -/

/-- R7: a register of a block that belongs to an absent unit reads as zero, and a write of it of any size, at any byte, changes
nothing, a fault record included. -/
def Obligations.AbsentUnitRegisters : Prop :=
  ∀ (s : State) (off : Nat),
    let a := off - off % 8
    (0x3400000 ≤ a ∧ a < 0x3440000 ∧ portsOf s.model = 0) ∨ (0x3600000 ≤ a ∧ a < 0x3602000 ∧ s.model = 2) ∨
      (0x3800000 ≤ a ∧ a < 0x3802000 ∧ s.carts.bays = []) ∨ (0x1000000 + 0x400000 * s.dieCount ≤ a ∧ a < 0x3000000) ∨
      (0x3000000 + 0x40000 * s.stackCount ≤ a ∧ a < 0x3400000) ∨ (0x40000 + 0x800 * s.cells.length ≤ a ∧ a < 0xE0000) →
    s.viewReg a = 0 ∧ ∀ size v, exec (.registerWrite 0 off size v) s = .next s

/-- R12: a stored register reads back what was stored, and storing it leaves every other register.
R12, R13, R412, R424, R462: a write of a clamped field applies the nearest legal value and counts the clamp, a write of a
plain field reads back, a write of a read-only register changes nothing, and writing 1 to a bit of FAULT_ALERT clears it. -/
def Obligations.RegisterWrites : Prop :=
  (∀ (s : State) (a v : Nat), v < 2 ^ 64 → (s.setReg a v).reg a = v ∧ ∀ b, b ≠ a → (s.setReg a v).reg b = s.reg b) ∧
  (∀ (s : State) (v : BitVec 64),
    let n := v.toNat
    let capped := max (floorOf s.model) (min (tdpOf s.model) (bits n 15 0))
    (∃ t, exec (.registerWrite 0 0x408 8 v) s = .next t ∧ t.reg 0x408 = capped ∧ (∀ b, b ≠ 0x408 → t.reg b = s.reg b) ∧
      t = { s with regs := t.regs, health := { s.health with
        cntClamps := s.health.cntClamps + (if capped = bits n 15 0 then 0 else 1) } }) ∧
    (∃ t, exec (.registerWrite 0 0x3C000B0 8 v) s = .next t ∧
      bits (t.reg 0x3C000B0) 10 0 = max 5 (min 1440 (bits n 10 0)) ∧
      bits (t.reg 0x3C000B0) 30 16 = max 100 (min 30000 (bits n 30 16)) ∧ (∀ b, b ≠ 0x3C000B0 → t.reg b = s.reg b) ∧
      t.health.jigs = s.health.jigs) ∧
    (∀ p, p < 16 → ∃ t, exec (.registerWrite 0 (0x400008 + 0x10000 * p) 8 v) s = .next t ∧
      t.viewReg (0x400008 + 0x10000 * p) = n ∧ t.xlt = s.xlt ∧ t.ranges = s.ranges) ∧
    (∀ p, p < 16 → exec (.registerWrite (p + 1) 0x10008 8 v) s = exec (.registerWrite 0 (0x400008 + 0x10000 * p) 8 v) s) ∧
    (∀ a ∈ [0x10, 0x100, 0x108, 0x200, 0x318, 0x328, 0x400, 0x410, 0x440, 0x448, 0x1000000, 0x1000008, 0x1000060, 0x3000000,
      0x3000008, 0x3000040, 0x3C00080, 0x3C00098, 0x3C000C0], ∀ size, exec (.registerWrite 0 a size v) s = .next s) ∧
    exec (.registerWrite 0 0x3C00088 8 v) s = .next { s with health := { s.health with
      alert := s.health.alert &&& ~~~ (v.truncate 7) } })

/-- R31: a 32-bit read of GLB_MTIME latches the high word for its function's next read of it, whatever MTIME is by then;
without a latched word that read returns the current one.
R36: a shadow set of every island is taken with the MTIME of its copy, and a read of a register that reads from it, such as a
counter, returns it until the next copy, whatever the register becomes.
R12, R36, R137, R138: FREEZE, CLEAR and VALID of an engine act on its counters and fault register alone; a read of the tag
register answers from the engine's shadow set, clears its high-water mark there and starts the mark again from the tags held. -/
def Obligations.RegisterReads : Prop :=
  (∀ (s u : State) (f : Nat),
    let now := (s.mtime.toNat + Config.mtimeSkew .host % 17) % 2 ^ 64
    s.viewReg 0x200 = now ∧
    (∃ t, exec (.glbMtimeLowRead f) s = .next t ∧ leNat t.hif.readData = now % 2 ^ 32 ∧ t.hif.readData.length = 4 ∧
      t = { s with hif := { s.hif with readData := t.hif.readData, readMarked := false, mtimeLatch := t.hif.mtimeLatch } } ∧
      (u.hif.mtimeLatch = t.hif.mtimeLatch → ∃ r, exec (.glbMtimeHighRead f) u = .next r ∧
        leNat r.hif.readData = now / 2 ^ 32 ∧ (∀ e ∈ r.hif.mtimeLatch, e.1 ≠ f)) ∧
      ∀ e, e.1 ≠ f → (e ∈ t.hif.mtimeLatch ↔ e ∈ s.hif.mtimeLatch)) ∧
    ((∀ e ∈ s.hif.mtimeLatch, e.1 ≠ f) → ∃ t, exec (.glbMtimeHighRead f) s = .next t ∧
      leNat t.hif.readData = now / 2 ^ 32 ∧ t.mtime = s.mtime)) ∧
  (∀ (s u : State) (k : Nat),
    (∀ i, s.hasIsland i = false → exec (.shadowSetCopy i) s = .next s) ∧
    (∀ i, s.hasIsland i = true → ∃ t, exec (.shadowSetCopy i) s = .next t ∧ t.mem = s.mem ∧
      (∃ r, t.shadows.getLast? = some ⟨i, s.now i, r⟩) ∧ (∀ x ∈ s.shadows, x.island ≠ i → x ∈ t.shadows) ∧
      ∀ a, t.shadowOf a = some i → u.shadowOf a = some i → u.shadows = t.shadows → u.readReg a = t.viewReg a % 2 ^ 64) ∧
    (k < s.engines.length → k < s.stackCount → k < 16 → ∃ t, exec (.shadowSetCopy (.rowEngine k)) s = .next t ∧ t.mem = s.mem ∧ t.cells = s.cells ∧
      (∃ r, t.shadows.getLast? = some ⟨.rowEngine k, s.now (.rowEngine k), r⟩) ∧
      (∀ x ∈ s.shadows, x.island ≠ .rowEngine k → x ∈ t.shadows) ∧
      (t.engine k).cnt = (s.engine k).cnt ∧ (t.engine k).ceil = (s.engine k).ceil ∧
      (u.shadows = t.shadows → u.readReg (engineBase k + 0x40) = (s.engine k).cnt.indices.toNat ∧
        u.readReg (engineBase k + 0x48) = (s.engine k).cnt.fetches.toNat))) ∧
  (∀ (s : State) (k : Nat), k < s.engines.length →
    let x := s.engine k
    let put := fun (y : Engine) => { s with engines := s.engines.set k y }
    (∀ b, exec (.reCntFreeze k b) s = .next (put { x with freeze := b })) ∧
    exec (.reFaultValidClear k) s = .next (put { x with faultValid := false }) ∧
    (∃ t, exec (.reCntClear k) s = .next t ∧ (t.engine k).cnt = ⟨0, 0, 0, 0, 0, 0, 0, 0, 0, 0, 0, 0⟩ ∧
      (t.engine k).mem.cntRd = 0 ∧ (t.engine k).mem.cntWr = 0 ∧ (t.engine k).mem.cntCorr = 0 ∧ (t.engine k).mem.cntUncorr = 0 ∧
      (∀ r ∈ (t.engine k).mem.regs, r.bytes = 0 ∧ r.waits = 0 ∧ r.borrows = 0) ∧ (t.engine k).mem.wcb = x.mem.wcb ∧
      t = put { x with cnt := (t.engine k).cnt, mem := (t.engine k).mem }) ∧
    (∃ t, exec (.reTagsRead k) s = .next t ∧ t.engines = s.engines.set k { x with tagsHigh := x.tags } ∧
      t.hif.readData = leBytes 8 (s.readReg (engineBase k + 0x28)) ∧
      (k < 16 → (∃ h ∈ s.shadows, h.island = .rowEngine k) → bits (t.readReg (engineBase k + 0x28)) 29 16 = 0) ∧
      (k < 16 → k < s.stackCount → (∀ h ∈ s.shadows, h.island ≠ .rowEngine k) → x.tags ≤ 8192 → x.tagsHigh ≤ 8192 →
        bits (leNat t.hif.readData) 13 0 = x.tags ∧ bits (leNat t.hif.readData) 29 16 = x.tagsHigh) ∧
      t.mem = s.mem ∧ t.cells = s.cells))

/-- R23, R24, R402: a link-level retry is counted and reported at most once a second for its edge; a lane failure takes a
redundant lane of its module, and with none left the module goes out of service, an edge's last one making the module
suspect.
R33, R35: a drain takes an idle cell out of service at once and another at its next layer boundary, and closes a partition;
the return to service undoes it. -/
def Obligations.LinksAndDrain : Prop :=
  (∀ (s : State) (e m : Nat),
    let now := s.now .steward
    (s.edgeExists e = false ∨ ucieModules e ≤ m ∨ (e, m) ∈ s.health.ucieLost →
      exec (.linkRetry e m) s = .next s ∧ ∀ l, exec (.laneRepair e m l) s = .next s) ∧
    (s.edgeExists e = true → m < ucieModules e → (e, m) ∉ s.health.ucieLost →
    (∀ n t0, s.health.retries.find? (fun x => x.1 == e) = some (e, n, t0) → now < t0 + 1000000000 →
      exec (.linkRetry e m) s = .next { s with health := { s.health with
        retries := s.health.retries.filter (fun x => x.1 != e) ++ [(e, n + 1, t0)] } }) ∧
    ((∀ x ∈ s.health.retries, x.1 ≠ e) ∨ (∃ n t0, s.health.retries.find? (fun x => x.1 == e) = some (e, n, t0) ∧
      t0 + 1000000000 ≤ now) → ∃ t, exec (.linkRetry e m) s = .next t ∧
      t.health.retries.find? (fun x => x.1 == e) = some (e, 0, now) ∧ s.health.cntReports ≠ t.health.cntReports) ∧
    (∀ l n, (n = 0 ∧ ∀ x ∈ s.health.laneUsed, x.1 ≠ (e, m)) ∨
      s.health.laneUsed.find? (fun x => x.1 == (e, m)) = some ((e, m), n) → n < Config.laneSpares e m → ∃ t,
      exec (.laneRepair e m l) s = .next t ∧ ((e, m), n + 1) ∈ t.health.laneUsed ∧ t.health.ucieLost = s.health.ucieLost) ∧
    (∀ l n, s.health.laneUsed.find? (fun x => x.1 == (e, m)) = some ((e, m), n) → Config.laneSpares e m ≤ n →
      ∃ t, exec (.laneRepair e m l) s = .next t ∧ (e, m) ∈ t.health.ucieLost ∧
        ((∀ j < ucieModules e, j ≠ m → (e, j) ∈ s.health.ucieLost) →
          t.health.suspect = true ∧ (s.health.suspect = false → ∀ q < 16, (t.part q).opened = false))))) ∧
  (∀ (s : State) (g i q : Nat),
    let c := s.cell i
    (s.posOf g = some i → c.st = 0 → c.job = none → c.susp = none →
      exec (.drainCommand (.cell g)) s = .next (s.putCell i { c with st := 4 })) ∧
    (s.posOf g = some i → c.st ≠ 4 → c.st ≠ 0 ∨ c.job.isSome = true ∨ c.susp.isSome = true →
      exec (.drainCommand (.cell g)) s = .next (s.putCell i { c with pend := { c.pend with drain := true } })) ∧
    (s.posOf g = some i → c.st = 4 → exec (.drainCommand (.cell g)) s = .next s) ∧
    (s.posOf g = some i → exec (.returnToService (.cell g)) s =
      .next (s.putCell i { c with st := if c.st = 4 then 0 else c.st, pend := { c.pend with drain := false } })) ∧
    (s.posOf g = none → exec (.drainCommand (.cell g)) s = .next s ∧ exec (.returnToService (.cell g)) s = .next s) ∧
    (q < 16 → exec (.drainCommand (.partition q)) s = .next { s with
      parts := s.parts.modify q fun u => { u with opened := false, drained := true } }) ∧
    (q < s.parts.length → ∃ t, exec (.returnToService (.partition q)) s = .next t ∧ (t.part q).drained = false ∧
      (t.part q).opened = t.mayOpen q ∧ t = { s with parts := t.parts } ∧ ∀ r, r ≠ q → t.part r = s.part r) ∧
    (s.batches ≠ [] → s.hrv.st ≠ 4 → ∃ t, exec (.drainCommand .whole) s = .next t ∧ t.health.wholeDrain = true ∧
      t.cells = s.cells ∧ t.engines = s.engines ∧ t.batches = s.batches ∧ ∀ p < 16, (t.part p).opened = false) ∧
    (s.batches = [] → s.engines.length = s.stackCount → ∃ t, exec (.drainCommand .whole) s = .next t ∧
      (∀ c ∈ t.cells, c.logical ≠ none → c.st = 4) ∧ (∀ e ∈ t.engines, e.st ≠ 1) ∧ ∀ p < 16, (t.part p).opened = false) ∧
    (∃ t, exec (.returnToService .whole) s = .next t ∧ (∀ c ∈ t.cells, c.st ≠ 4) ∧ (∀ e ∈ t.engines, e.st ≠ 2) ∧
      ∀ p < 16, (t.part p).drained = false))

/-! ## Slab cartridges (R426 to R438) -/

/-- R428 to R431, R433, R435: a cartridge is inserted, identified and judged, polled, and removed. -/
def Obligations.CartridgeStates : Prop :=
  ∀ (s : State) (b : Nat),
    let x := s.bay b
    let h := s.health
    let now := s.now .cartridge
    let reported := fun (t : State) (alert : Bool) => t.health.cntReports = h.cntReports + 1 ∧
      t.health.alert = (if alert then h.alert ||| 0x20 else h.alert) ∧ t.mem = s.mem ∧ t.cells = s.cells
    b < s.carts.bays.length → h.incidents.length < 256 →
    (x.present = false → s.power.memReady = true → x.st = 0 → exec (.prsntAssert b) s =
      .next (s.modBay b fun y => { y with present := true, since := now, st := 1, settled := false })) ∧
    (x.present = false → s.power.memReady = false → exec (.prsntAssert b) s =
      .next (s.modBay b fun y => { y with present := true, since := now })) ∧
    (x.present = true → exec (.prsntAssert b) s = .next s) ∧
    (x.st = 1 → x.settled = false → x.since + 100000000 ≤ now → exec (.presenceSettled b) s =
      .next (s.modBay b fun y => { y with settled := true, released := true })) ∧
    (x.st ≠ 1 ∨ x.settled = true ∨ now < x.since + 100000000 → exec (.presenceSettled b) s = .next s) ∧
    (x.st = 1 → x.settled = true → ∃ t, exec (.notReady b) s = .next t ∧ t.bay b = { x with st := 5, released := false } ∧
      reported t true) ∧
    (x.st ≠ 1 ∨ x.settled = false → exec (.notReady b) s = .next s ∧ ∀ i, exec (.controllerReady b i) s = .next s) ∧
    (∀ i : CartInfo, x.st = 1 → x.settled = true →
      i.identity.length ≠ 256 ∨ bits (wordAt i.identity 0) 31 0 ≠ 0x42414C53 ∨ i.lba4k = false ∨
        i.blocks < wordAt i.identity 3 / 4096 →
      ∃ t, exec (.controllerReady b i) s = .next t ∧ t.bay b = { x with st := 5, released := false } ∧ reported t true) ∧
    (∀ i : CartInfo, x.st = 1 → x.settled = true → CartInfo.genuine i = true → x.linkPerm = 0 → 4 ≤ i.width →
      i.smart.critical = 0 → i.smart.fatal = false → (∀ e ∈ s.engines, e.landing = []) →
      let serial := (i.identity.drop 8).take 16
      (∀ e ∈ s.carts.written, e.1 ≠ serial) → 10 * (i.smart.dataUnits * 512000) < 8 * wordAt i.identity 4 →
      ∃ t, exec (.controllerReady b i) s = .next t ∧ reported t false ∧ t.engines = s.engines ∧
        t.bay b = { x with
          st := 2, width := i.width, model := byteAt i.identity 5, serial, capacity := wordAt i.identity 3
          endurance := wordAt i.identity 4, mfg := bits (wordAt i.identity 5) 31 0
          smartWritten := i.smart.dataUnits * 512000 } ∧ (serial, 0) ∈ t.carts.written ∧ t.carts.written.length ≤ 16) ∧
    (∀ i : CartInfo, x.st = 1 → x.settled = true → CartInfo.genuine i = true → (∀ e ∈ s.engines, e.landing = []) →
      x.linkPerm ≠ 0 ∨ 4 ≤ i.width →
      let serial := (i.identity.drop 8).take 16
      let endurance := wordAt i.identity 4
      let w := max (((s.carts.written.find? fun e => e.1 == serial).map Prod.snd).getD 0) (i.smart.dataUnits * 512000)
      let c := i.smart.critical
      ∃ t, exec (.controllerReady b i) s = .next t ∧ (t.bay b).serial = serial ∧ (t.bay b).capacity = wordAt i.identity 3 ∧
        (t.bay b).endurance = endurance ∧ (t.bay b).width = (if x.linkPerm = 0 then i.width else min 2 i.width) ∧
        (t.bay b).st = (if c.getLsbD 2 ∨ i.smart.fatal then 5 else if endurance ≤ w ∨ c.getLsbD 3 then 4
          else if 8 * endurance ≤ 10 * w ∨ c.getLsbD 0 then 3 else 2) ∧
        (∀ k, k ≠ b → t.bay k = s.bay k) ∧ t.mem = s.mem ∧ t.cells = s.cells) ∧
    (∀ m : Smart, x.st ≠ 2 → x.st ≠ 3 → x.st ≠ 4 → exec (.smartPoll b m) s = .next s) ∧
    (∀ m : Smart, x.st = 2 ∨ x.st = 3 ∨ x.st = 4 →
      let w := max (((s.carts.written.find? fun e => e.1 == x.serial).map Prod.snd).getD 0)
        (max x.smartWritten (m.dataUnits * 512000))
      let becomes := fun (t : State) (st : Nat) =>
        t.bay b = { x with st, smartWritten := max x.smartWritten (m.dataUnits * 512000) } ∧ t.carts.written = s.carts.written
      (m.critical.getLsbD 2 = true ∨ m.fatal = true → ∃ t, exec (.smartPoll b m) s = .next t ∧ becomes t 5 ∧ reported t true) ∧
      (m.critical.getLsbD 2 = false → m.fatal = false → x.st ≠ 4 → x.endurance ≤ w ∨ m.critical.getLsbD 3 = true →
        ∃ t, exec (.smartPoll b m) s = .next t ∧ becomes t 4 ∧ reported t true) ∧
      (m.critical.getLsbD 2 = false → m.fatal = false → m.critical.getLsbD 3 = false → x.st = 2 → w < x.endurance →
        8 * x.endurance ≤ 10 * w ∨ m.critical.getLsbD 0 = true →
        ∃ t, exec (.smartPoll b m) s = .next t ∧ becomes t 3 ∧ reported t true) ∧
      (m.critical = 0 → m.fatal = false → x.st = 2 → 10 * w < 8 * x.endurance → exec (.smartPoll b m) s =
        .next (s.modBay b fun y => { y with smartWritten := max y.smartWritten (m.dataUnits * 512000) }))) ∧
    (x.present = false → exec (.cartRemoval b) s = .next s) ∧
    (x.present = true → s.carts.busy = true → (s.carts.op = 1 ∧ s.carts.bay = b) ∨ (s.carts.op = 2 ∧ s.carts.bay = b) ∨
      (s.carts.op = 3 ∧ (s.carts.bay = b ∨ s.carts.dest = b)) → ∃ t, exec (.cartRemoval b) s = .next t ∧ t.carts.busy = false ∧
      t.carts.result = 4 ∧ (t.bay b).present = false ∧ (t.bay b).cmds = [] ∧ t.mem = s.mem) ∧
    (x.present = true → s.carts.busy = false → ∃ t, exec (.cartRemoval b) s = .next t ∧
      t.bay b = { x with
        st := if x.st = 8 then 8 else 0, present := false, settled := false, width := 0, cmds := [], released := false } ∧
      (∀ k, ∀ l ∈ (t.engine k).landing, l.serial = x.serial → l.dirty = true → l.pinned = true) ∧
      (x.st = 7 ∨ x.st = 5 ∨ x.st = 0 ∨ x.st = 8 → t.health = h) ∧
      (x.st = 2 ∨ x.st = 3 ∨ x.st = 4 ∨ x.st = 6 ∨ x.st = 1 → reported t true) ∧ t.mem = s.mem)

/-- R427, R430, R432, R434 to R436, R438: the commands of CART_CMD, one at a time, with their results, and the completions that
carry them on. -/
def Obligations.CartridgeCommands : Prop :=
  ∀ (s : State) (b : Nat),
    let x := s.bay b
    let c := s.carts
    let lba := s.reg 0x3800008 % 2 ^ 48
    let reads := x.st = 2 ∨ x.st = 3 ∨ x.st = 4
    let took := fun (op dest count : Nat) (rebind : Bool) => { c with
      busy := true, lost := false, result := 0, op, bay := b, dest, rebind, count, lba, progress := 0, progressErr := 0 }
    let ends := fun (i : Instr) (op dest count : Nat) (rebind : Bool) (r : Nat) =>
      exec i s = .next { s with carts := { took op dest count rebind with busy := false, result := r } }
    (c.bays = [] → ∀ n d r, ∀ i ∈ [.fill b n, .migrate b d n r, .adopt b, .discardDirty, .cartCmdNop n], exec i s = .next s) ∧
    (c.bays = [] → c.busy = false → exec (.eject b) s = .next s) ∧
    (c.bays ≠ [] → c.busy = true → ∀ n d r, ∀ i ∈ [.fill b n, .migrate b d n r, .adopt b, .discardDirty, .cartCmdNop n],
      exec i s = .next { s with carts := { c with lost := true } }) ∧
    (c.bays ≠ [] → c.busy = true → ¬ ((c.op = 2 ∨ c.op = 3) ∧ (c.bay = b ∨ c.op = 3 ∧ c.dest = b)) →
      exec (.eject b) s = .next { s with carts := { c with lost := true } }) ∧
    (b < c.bays.length → reads → (c.busy = false ∨ (c.op = 2 ∨ c.op = 3) ∧ (c.bay = b ∨ c.op = 3 ∧ c.dest = b)) → ∃ t,
      exec (.eject b) s = .next t ∧ (t.bay b).st = 6 ∧ t.carts.busy = true ∧ t.carts.lost = false ∧ t.carts.op = 1 ∧
      t.carts.bay = b ∧ t.mem = s.mem) ∧
    (c.bays ≠ [] → c.busy = false →
      (∀ op, exec (.cartCmdNop op) s = .next { s with carts := { took op 0 0 false with bay := 0, busy := false } }) ∧
      (c.bays.length ≤ b → ends (.eject b) 1 0 0 false 1 ∧ (∀ n, ends (.fill b n) 2 0 n false 1) ∧
        (∀ d n r, ends (.migrate b d n r) 3 d n r 1) ∧ ends (.adopt b) 4 0 0 false 1) ∧
      (∀ d r, ends (.fill b 0) 2 0 0 false 1 ∧ ends (.migrate b d 0 r) 3 d 0 r 1) ∧
      (b < c.bays.length → ¬ reads → ends (.eject b) 1 0 0 false 2 ∧ ends (.adopt b) 4 0 0 false 2 ∧
        (∀ n, 0 < n → ends (.fill b n) 2 0 n false 2) ∧
        ∀ d n r, d < c.bays.length → 0 < n → ends (.migrate b d n r) 3 d n r 2) ∧
      (b < c.bays.length → reads → x.cmds = [] → (∀ e ∈ s.engines, e.landing = []) →
        exec (.eject b) s = .next { s with carts := { took 1 0 0 false with
          nextId := c.nextId + 1
          bays := c.bays.set b { x with st := 6, cmds := [⟨c.nextId, 5, 0, 0, (0, 0, 0), [], false⟩] } } }) ∧
      (∀ n, b < c.bays.length → x.st = 2 ∨ x.st = 3 → 0 < n → x.capacity < 4096 * (lba + n) → ends (.fill b n) 2 0 n false 1) ∧
      (∀ n, b < c.bays.length → x.st = 2 ∨ x.st = 3 → 0 < n → 4096 * (lba + n) ≤ x.capacity → s.hif.up = true →
        (s.host.read 64 (s.reg 0x3800010) 4096).marked = true → ∃ t, exec (.fill b n) s = .next t ∧ t.carts.busy = false ∧
        t.carts.result = 5 ∧ t.carts.bays = c.bays ∧ t.mem = s.mem) ∧
      (∀ n, b < c.bays.length → x.st = 2 ∨ x.st = 3 → 0 < n → 4096 * (lba + n) ≤ x.capacity → s.hif.up = true →
        x.endurance ≤ s.bayWritten b → (s.host.read 64 (s.reg 0x3800010) 4096).marked = false → ∃ t, exec (.fill b n) s = .next t ∧
        t.carts.busy = false ∧ t.carts.result = 2 ∧ (t.bay b).st = 4 ∧ (t.bay b).wrRefused = x.wrRefused + 1 ∧ t.mem = s.mem) ∧
      (∀ n, b < c.bays.length → (x.st = 2 ∧ 10 * s.bayWritten b < 8 * x.endurance) ∨ (x.st = 3 ∧ s.bayWritten b < x.endurance) →
        0 < n → 4096 * (lba + n) ≤ x.capacity → s.hif.up = true → (s.host.read 64 (s.reg 0x3800010) 4096).marked = false →
        ∃ t, exec (.fill b n) s = .next t ∧ t.carts = { took 2 0 n false with
          nextId := c.nextId + 1
          bays := c.bays.set b { x with cmds := x.cmds ++
            [⟨c.nextId, 2, lba, 0, (0, 0, 0), (s.host.read 64 (s.reg 0x3800010) 4096).bytes, false⟩] } } ∧
          t.mem = s.mem ∧ t.host = s.host) ∧
      (∀ n, b < c.bays.length → x.st = 2 ∨ x.st = 3 → 0 < n → 4096 * (lba + n) ≤ x.capacity → s.hif.up = false →
        ends (.fill b n) 2 0 n false 5) ∧
      (∀ d n r, b < c.bays.length → d < c.bays.length → reads → (s.bay d).st = 2 ∨ (s.bay d).st = 3 → 0 < n →
        4096 * (lba + n) ≤ x.capacity → 4096 * (lba + n) ≤ (s.bay d).capacity →
        exec (.migrate b d n r) s = .next { s with carts := { took 3 d n r with
          nextId := c.nextId + 1
          bays := c.bays.set b { x with cmds := x.cmds ++ [⟨c.nextId, 3, lba, 0, (0, 0, 0), [], false⟩] } } }) ∧
      (b < c.bays.length → x.st = 4 → ∃ t, exec (.adopt b) s = .next t ∧
        t.carts = { took 4 0 0 false with busy := false } ∧
        (let old := leBytes 8 (s.reg 0x3800010) ++ leBytes 8 (s.reg 0x3800018)
         t.epochs = s.epochs.map (fun e => { e with
          serials := e.serials.map fun y => if y.2 = old then (y.1, x.serial) else y }) ∧
         ∀ k l, l ∈ (t.engine k).landing → l.serial = old → old ≠ x.serial → l.writing = true) ∧ t.mem = s.mem) ∧
      (let old := leBytes 8 (s.reg 0x3800010) ++ leBytes 8 (s.reg 0x3800018)
       ∃ t, exec .discardDirty s = .next t ∧ t.carts.busy = false ∧ t.carts.result = 0 ∧ t.mem = s.mem ∧ t.epochs = s.epochs ∧
        t.engines = s.engines.map fun e => { e with
          landing := e.landing.filter fun l => !(l.serial == old && l.dirty && l.pinned && !l.writing) })) ∧
    (x.st ≠ 6 → exec (.ejectAbortTimeout b) s = .next s) ∧
    (b < c.bays.length → x.st = 6 → (∀ y ∈ x.cmds, y.kind ≠ 5) → ∃ t, exec (.ejectAbortTimeout b) s = .next t ∧
      t.bay b = { x with cmds := [⟨c.nextId, 5, 0, 0, (0, 0, 0), [], false⟩] } ∧ (∀ k, k ≠ b → t.bay k = s.bay k) ∧ t.mem = s.mem ∧
      t.carts.busy = c.busy) ∧
    (∀ n ok d, x.cmds.length ≤ n → exec (.nvmeCompletion b n ok d) s = .next s) ∧
    (∀ n y ok d, x.cmds[n]? = some y → y.kind = 0 → exec (.nvmeCompletion b n ok d) s = .next s) ∧
    (∀ n y d, b < c.bays.length → x.cmds[n]? = some y → (∀ k < c.bays.length, (s.bay k).st ≠ 6) →
      (y.kind = 1 → exec (.nvmeCompletion b n true d) s = .next { s with carts := { c with
        bays := c.bays.set b { x with cmds := x.cmds.eraseIdx n, wrPages := x.wrPages + 1 }
        written := c.written.map fun e => if e.1 = x.serial then (e.1, e.2 + 4096) else e } }) ∧
      (y.kind = 2 → c.progress + 1 = c.count → exec (.nvmeCompletion b n true d) s = .next { s with carts := { c with
        busy := false, result := 0, progress := c.progress + 1
        bays := c.bays.set b { x with cmds := x.cmds.eraseIdx n, wrPages := x.wrPages + 1 }
        written := c.written.map fun e => if e.1 = x.serial then (e.1, e.2 + 4096) else e } })) ∧
    (∀ n y d, b < c.bays.length → x.cmds[n]? = some y → (∀ k < c.bays.length, (s.bay k).st ≠ 6) →
      let took := { x with cmds := x.cmds.eraseIdx n }
      let written := c.written.map fun e => if e.1 = x.serial then (e.1, e.2 + 4096) else e
      let room := (s.bay c.dest).st = 2 ∧ 10 * s.bayWritten c.dest < 8 * (s.bay c.dest).endurance ∨
        (s.bay c.dest).st = 3 ∧ s.bayWritten c.dest < (s.bay c.dest).endurance
      (y.kind = 2 → c.progress + 1 < c.count → s.hif.up = true → c.bay = b →
        (x.st = 2 ∧ 10 * (s.bayWritten b + 4096) < 8 * x.endurance) ∨ (x.st = 3 ∧ s.bayWritten b + 4096 < x.endurance) →
        (s.host.read 64 (s.reg 0x3800010 + 4096 * (c.progress + 1)) 4096).marked = false → ∃ t,
        exec (.nvmeCompletion b n true d) s = .next t ∧ t.carts = { c with
          progress := c.progress + 1, written, nextId := c.nextId + 1
          bays := c.bays.set b { took with
            wrPages := x.wrPages + 1
            cmds := took.cmds ++ [⟨c.nextId, 2, c.lba + (c.progress + 1), 0, (0, 0, 0),
              (s.host.read 64 (s.reg 0x3800010 + 4096 * (c.progress + 1)) 4096).bytes, false⟩] } } ∧ t.mem = s.mem) ∧
      (y.kind = 3 → c.dest < c.bays.length → c.dest ≠ b → room → ∃ t, exec (.nvmeCompletion b n true d) s = .next t ∧
        t.bay b = { took with rdPages := x.rdPages + 1 } ∧ t.bay c.dest = { s.bay c.dest with cmds := (s.bay c.dest).cmds ++
          [⟨c.nextId, 4, y.lba, 0, (0, 0, 0), d.take 4096 ++ zeros (4096 - d.length), false⟩] } ∧ t.carts.busy = c.busy ∧
        t.mem = s.mem) ∧
      (y.kind = 3 → c.dest < c.bays.length → c.dest ≠ b → room → ∃ t, exec (.nvmeCompletion b n false d) s = .next t ∧
        t.carts.progressErr = c.progressErr + 1 ∧ (t.bay b).rdErr = x.rdErr + 1 ∧ t.mem = s.mem ∧
        t.bay c.dest = { s.bay c.dest with cmds := (s.bay c.dest).cmds ++ [⟨c.nextId, 8, y.lba, 0, (0, 0, 0), [], true⟩] }) ∧
      (y.kind = 4 ∨ y.kind = 8 → c.bay < c.bays.length → c.bay ≠ b → c.progress + 1 < c.count → ∃ t,
        exec (.nvmeCompletion b n true d) s = .next t ∧ t.carts.progress = c.progress + 1 ∧
        t.bay c.bay = { s.bay c.bay with cmds := (s.bay c.bay).cmds ++
          [⟨c.nextId, 3, c.lba + (c.progress + 1), 0, (0, 0, 0), [], false⟩] } ∧
        t.bay b = (if y.kind = 4 then { took with wrPages := x.wrPages + 1 } else took) ∧ t.carts.busy = c.busy) ∧
      (y.kind = 4 ∨ y.kind = 8 → c.progress + 1 = c.count → (s.bay c.bay).st ≠ 4 → (∀ m ∈ (s.bay c.dest).cmds, m.kind ≠ 7) → ∃ t,
        exec (.nvmeCompletion b n true d) s = .next t ∧ t.carts.progress = c.count ∧ t.carts.busy = false ∧
        t.carts.result = (if c.progressErr = 0 then 0 else 3) ∧ t.mem = s.mem ∧
        t.epochs = (if c.rebind then s.epochs.map fun e => { e with serials := e.serials.map fun z =>
          if z.2 = (s.bay c.bay).serial then (z.1, (s.bay c.dest).serial) else z } else s.epochs)) ∧
      (y.kind = 2 ∨ y.kind = 4 → ∃ t r, exec (.nvmeCompletion b n false d) s = .next t ∧ r < 16 ∧ t.carts.busy = false ∧
        t.carts.result = r ∧ t.mem = s.mem) ∧
      (y.kind = 6 → exec (.nvmeCompletion b n true d) s = .next { s with carts := { c with
        bays := c.bays.set b { took with wrPages := x.wrPages + 1 }, written } }) ∧
      (y.kind = 1 → ∃ t, exec (.nvmeCompletion b n false d) s = .next t ∧ (t.bay b).wrPages = x.wrPages ∧ t.mem = s.mem ∧
        ∀ k, ∀ l ∈ (t.engine k).landing, (l.table, l.epoch, l.page) = y.ref → l.writing = false) ∧
      (y.kind = 7 → ¬ (c.busy = true ∧ c.op = 3) → ∃ t, exec (.nvmeCompletion b n true d) s = .next t ∧
        (t.bay b).wrPages = x.wrPages + 1 ∧ ∀ k, ∀ l ∈ (t.engine k).landing, (l.table, l.epoch, l.page) = y.ref →
          l.writing = false ∧ l.pinned = false)) ∧
    (∀ y d, b < c.bays.length → x.cmds = [y] → y.kind = 5 → x.st = 6 → c.busy = true → c.op = 1 → c.bay = b →
      (∀ k < c.bays.length, k ≠ b → (s.bay k).st ≠ 6) → exec (.nvmeCompletion b 0 true d) s = .next { s with carts := { c with
        busy := false, result := 0, bays := c.bays.set b { x with st := 7, released := false, cmds := [] } } })
end

