-- ==== Sys2Proof/Laws/State.lean ====
section
/-! SUPPORT. What the updates of State change and leave, one lemma for each field of each update, and what a unit reads
after it. -/
set_option Elab.async false
namespace Sys2Proof.Machine

/-! ## modCell -/

section
variable (s : State) (i : Nat) (f : Cell → Cell)
@[simp] theorem State.modCell_pending : (s.modCell i f).pending = s.pending := rfl
@[simp] theorem State.modCell_model : (s.modCell i f).model = s.model := rfl
@[simp] theorem State.modCell_mtime : (s.modCell i f).mtime = s.mtime := rfl
@[simp] theorem State.modCell_drawn : (s.modCell i f).drawn = s.drawn := rfl
@[simp] theorem State.modCell_nextId : (s.modCell i f).nextId = s.nextId := rfl
@[simp] theorem State.modCell_nextHandle : (s.modCell i f).nextHandle = s.nextHandle := rfl
@[simp] theorem State.modCell_regs : (s.modCell i f).regs = s.regs := rfl
@[simp] theorem State.modCell_shadows : (s.modCell i f).shadows = s.shadows := rfl
@[simp] theorem State.modCell_mem : (s.modCell i f).mem = s.mem := rfl
@[simp] theorem State.modCell_host : (s.modCell i f).host = s.host := rfl
@[simp] theorem State.modCell_cells : (s.modCell i f).cells = s.cells.modify i f := rfl
@[simp] theorem State.modCell_dies : (s.modCell i f).dies = s.dies := rfl
@[simp] theorem State.modCell_engines : (s.modCell i f).engines = s.engines := rfl
@[simp] theorem State.modCell_openReqs : (s.modCell i f).openReqs = s.openReqs := rfl
@[simp] theorem State.modCell_tokens : (s.modCell i f).tokens = s.tokens := rfl
@[simp] theorem State.modCell_credits : (s.modCell i f).credits = s.credits := rfl
@[simp] theorem State.modCell_replWrites : (s.modCell i f).replWrites = s.replWrites := rfl
@[simp] theorem State.modCell_countMsgs : (s.modCell i f).countMsgs = s.countMsgs := rfl
@[simp] theorem State.modCell_tables : (s.modCell i f).tables = s.tables := rfl
@[simp] theorem State.modCell_epochs : (s.modCell i f).epochs = s.epochs := rfl
@[simp] theorem State.modCell_bindings : (s.modCell i f).bindings = s.bindings := rfl
@[simp] theorem State.modCell_tsvc : (s.modCell i f).tsvc = s.tsvc := rfl
@[simp] theorem State.modCell_cmp : (s.modCell i f).cmp = s.cmp := rfl
@[simp] theorem State.modCell_ranges : (s.modCell i f).ranges = s.ranges := rfl
@[simp] theorem State.modCell_caches : (s.modCell i f).caches = s.caches := rfl
@[simp] theorem State.modCell_wrote : (s.modCell i f).wrote = s.wrote := rfl
@[simp] theorem State.modCell_xlt : (s.modCell i f).xlt = s.xlt := rfl
@[simp] theorem State.modCell_hot : (s.modCell i f).hot = s.hot := rfl
@[simp] theorem State.modCell_image : (s.modCell i f).image = s.image := rfl
@[simp] theorem State.modCell_parts : (s.modCell i f).parts = s.parts := rfl
@[simp] theorem State.modCell_batches : (s.modCell i f).batches = s.batches := rfl
@[simp] theorem State.modCell_ces : (s.modCell i f).ces = s.ces := rfl
@[simp] theorem State.modCell_hif : (s.modCell i f).hif = s.hif := rfl
@[simp] theorem State.modCell_net : (s.modCell i f).net = s.net := rfl
@[simp] theorem State.modCell_hrv : (s.modCell i f).hrv = s.hrv := rfl
@[simp] theorem State.modCell_health : (s.modCell i f).health = s.health := rfl
@[simp] theorem State.modCell_carts : (s.modCell i f).carts = s.carts := rfl
@[simp] theorem State.modCell_power : (s.modCell i f).power = s.power := rfl
@[simp] theorem State.modCell_ctlMhz : (s.modCell i f).ctlMhz = s.ctlMhz := rfl
@[simp] theorem State.modCell_ctlCeil : (s.modCell i f).ctlCeil = s.ctlCeil := rfl
@[simp] theorem State.modCell_ctlMv : (s.modCell i f).ctlMv = s.ctlMv := rfl
@[simp] theorem State.modCell_stewMhz : (s.modCell i f).stewMhz = s.stewMhz := rfl
@[simp] theorem State.modCell_stewCeil : (s.modCell i f).stewCeil = s.stewCeil := rfl
@[simp] theorem State.modCell_stewMv : (s.modCell i f).stewMv = s.stewMv := rfl
end

/-! ## modEngine -/

section
variable (s : State) (i : Nat) (f : Engine → Engine)
@[simp] theorem State.modEngine_pending : (s.modEngine i f).pending = s.pending := rfl
@[simp] theorem State.modEngine_model : (s.modEngine i f).model = s.model := rfl
@[simp] theorem State.modEngine_mtime : (s.modEngine i f).mtime = s.mtime := rfl
@[simp] theorem State.modEngine_drawn : (s.modEngine i f).drawn = s.drawn := rfl
@[simp] theorem State.modEngine_nextId : (s.modEngine i f).nextId = s.nextId := rfl
@[simp] theorem State.modEngine_nextHandle : (s.modEngine i f).nextHandle = s.nextHandle := rfl
@[simp] theorem State.modEngine_regs : (s.modEngine i f).regs = s.regs := rfl
@[simp] theorem State.modEngine_shadows : (s.modEngine i f).shadows = s.shadows := rfl
@[simp] theorem State.modEngine_mem : (s.modEngine i f).mem = s.mem := rfl
@[simp] theorem State.modEngine_host : (s.modEngine i f).host = s.host := rfl
@[simp] theorem State.modEngine_cells : (s.modEngine i f).cells = s.cells := rfl
@[simp] theorem State.modEngine_dies : (s.modEngine i f).dies = s.dies := rfl
@[simp] theorem State.modEngine_engines : (s.modEngine i f).engines = s.engines.modify i f := rfl
@[simp] theorem State.modEngine_openReqs : (s.modEngine i f).openReqs = s.openReqs := rfl
@[simp] theorem State.modEngine_tokens : (s.modEngine i f).tokens = s.tokens := rfl
@[simp] theorem State.modEngine_credits : (s.modEngine i f).credits = s.credits := rfl
@[simp] theorem State.modEngine_replWrites : (s.modEngine i f).replWrites = s.replWrites := rfl
@[simp] theorem State.modEngine_countMsgs : (s.modEngine i f).countMsgs = s.countMsgs := rfl
@[simp] theorem State.modEngine_tables : (s.modEngine i f).tables = s.tables := rfl
@[simp] theorem State.modEngine_epochs : (s.modEngine i f).epochs = s.epochs := rfl
@[simp] theorem State.modEngine_bindings : (s.modEngine i f).bindings = s.bindings := rfl
@[simp] theorem State.modEngine_tsvc : (s.modEngine i f).tsvc = s.tsvc := rfl
@[simp] theorem State.modEngine_cmp : (s.modEngine i f).cmp = s.cmp := rfl
@[simp] theorem State.modEngine_ranges : (s.modEngine i f).ranges = s.ranges := rfl
@[simp] theorem State.modEngine_caches : (s.modEngine i f).caches = s.caches := rfl
@[simp] theorem State.modEngine_wrote : (s.modEngine i f).wrote = s.wrote := rfl
@[simp] theorem State.modEngine_xlt : (s.modEngine i f).xlt = s.xlt := rfl
@[simp] theorem State.modEngine_hot : (s.modEngine i f).hot = s.hot := rfl
@[simp] theorem State.modEngine_image : (s.modEngine i f).image = s.image := rfl
@[simp] theorem State.modEngine_parts : (s.modEngine i f).parts = s.parts := rfl
@[simp] theorem State.modEngine_batches : (s.modEngine i f).batches = s.batches := rfl
@[simp] theorem State.modEngine_ces : (s.modEngine i f).ces = s.ces := rfl
@[simp] theorem State.modEngine_hif : (s.modEngine i f).hif = s.hif := rfl
@[simp] theorem State.modEngine_net : (s.modEngine i f).net = s.net := rfl
@[simp] theorem State.modEngine_hrv : (s.modEngine i f).hrv = s.hrv := rfl
@[simp] theorem State.modEngine_health : (s.modEngine i f).health = s.health := rfl
@[simp] theorem State.modEngine_carts : (s.modEngine i f).carts = s.carts := rfl
@[simp] theorem State.modEngine_power : (s.modEngine i f).power = s.power := rfl
@[simp] theorem State.modEngine_ctlMhz : (s.modEngine i f).ctlMhz = s.ctlMhz := rfl
@[simp] theorem State.modEngine_ctlCeil : (s.modEngine i f).ctlCeil = s.ctlCeil := rfl
@[simp] theorem State.modEngine_ctlMv : (s.modEngine i f).ctlMv = s.ctlMv := rfl
@[simp] theorem State.modEngine_stewMhz : (s.modEngine i f).stewMhz = s.stewMhz := rfl
@[simp] theorem State.modEngine_stewCeil : (s.modEngine i f).stewCeil = s.stewCeil := rfl
@[simp] theorem State.modEngine_stewMv : (s.modEngine i f).stewMv = s.stewMv := rfl
end

/-! ## modDie -/

section
variable (s : State) (d : Nat) (f : Die → Die)
@[simp] theorem State.modDie_pending : (s.modDie d f).pending = s.pending := rfl
@[simp] theorem State.modDie_model : (s.modDie d f).model = s.model := rfl
@[simp] theorem State.modDie_mtime : (s.modDie d f).mtime = s.mtime := rfl
@[simp] theorem State.modDie_drawn : (s.modDie d f).drawn = s.drawn := rfl
@[simp] theorem State.modDie_nextId : (s.modDie d f).nextId = s.nextId := rfl
@[simp] theorem State.modDie_nextHandle : (s.modDie d f).nextHandle = s.nextHandle := rfl
@[simp] theorem State.modDie_regs : (s.modDie d f).regs = s.regs := rfl
@[simp] theorem State.modDie_shadows : (s.modDie d f).shadows = s.shadows := rfl
@[simp] theorem State.modDie_mem : (s.modDie d f).mem = s.mem := rfl
@[simp] theorem State.modDie_host : (s.modDie d f).host = s.host := rfl
@[simp] theorem State.modDie_cells : (s.modDie d f).cells = s.cells := rfl
@[simp] theorem State.modDie_dies : (s.modDie d f).dies = s.dies.modify d f := rfl
@[simp] theorem State.modDie_engines : (s.modDie d f).engines = s.engines := rfl
@[simp] theorem State.modDie_openReqs : (s.modDie d f).openReqs = s.openReqs := rfl
@[simp] theorem State.modDie_tokens : (s.modDie d f).tokens = s.tokens := rfl
@[simp] theorem State.modDie_credits : (s.modDie d f).credits = s.credits := rfl
@[simp] theorem State.modDie_replWrites : (s.modDie d f).replWrites = s.replWrites := rfl
@[simp] theorem State.modDie_countMsgs : (s.modDie d f).countMsgs = s.countMsgs := rfl
@[simp] theorem State.modDie_tables : (s.modDie d f).tables = s.tables := rfl
@[simp] theorem State.modDie_epochs : (s.modDie d f).epochs = s.epochs := rfl
@[simp] theorem State.modDie_bindings : (s.modDie d f).bindings = s.bindings := rfl
@[simp] theorem State.modDie_tsvc : (s.modDie d f).tsvc = s.tsvc := rfl
@[simp] theorem State.modDie_cmp : (s.modDie d f).cmp = s.cmp := rfl
@[simp] theorem State.modDie_ranges : (s.modDie d f).ranges = s.ranges := rfl
@[simp] theorem State.modDie_caches : (s.modDie d f).caches = s.caches := rfl
@[simp] theorem State.modDie_wrote : (s.modDie d f).wrote = s.wrote := rfl
@[simp] theorem State.modDie_xlt : (s.modDie d f).xlt = s.xlt := rfl
@[simp] theorem State.modDie_hot : (s.modDie d f).hot = s.hot := rfl
@[simp] theorem State.modDie_image : (s.modDie d f).image = s.image := rfl
@[simp] theorem State.modDie_parts : (s.modDie d f).parts = s.parts := rfl
@[simp] theorem State.modDie_batches : (s.modDie d f).batches = s.batches := rfl
@[simp] theorem State.modDie_ces : (s.modDie d f).ces = s.ces := rfl
@[simp] theorem State.modDie_hif : (s.modDie d f).hif = s.hif := rfl
@[simp] theorem State.modDie_net : (s.modDie d f).net = s.net := rfl
@[simp] theorem State.modDie_hrv : (s.modDie d f).hrv = s.hrv := rfl
@[simp] theorem State.modDie_health : (s.modDie d f).health = s.health := rfl
@[simp] theorem State.modDie_carts : (s.modDie d f).carts = s.carts := rfl
@[simp] theorem State.modDie_power : (s.modDie d f).power = s.power := rfl
@[simp] theorem State.modDie_ctlMhz : (s.modDie d f).ctlMhz = s.ctlMhz := rfl
@[simp] theorem State.modDie_ctlCeil : (s.modDie d f).ctlCeil = s.ctlCeil := rfl
@[simp] theorem State.modDie_ctlMv : (s.modDie d f).ctlMv = s.ctlMv := rfl
@[simp] theorem State.modDie_stewMhz : (s.modDie d f).stewMhz = s.stewMhz := rfl
@[simp] theorem State.modDie_stewCeil : (s.modDie d f).stewCeil = s.stewCeil := rfl
@[simp] theorem State.modDie_stewMv : (s.modDie d f).stewMv = s.stewMv := rfl
end

/-! ## modPart -/

section
variable (s : State) (p : Nat) (f : Partition → Partition)
@[simp] theorem State.modPart_pending : (s.modPart p f).pending = s.pending := rfl
@[simp] theorem State.modPart_model : (s.modPart p f).model = s.model := rfl
@[simp] theorem State.modPart_mtime : (s.modPart p f).mtime = s.mtime := rfl
@[simp] theorem State.modPart_drawn : (s.modPart p f).drawn = s.drawn := rfl
@[simp] theorem State.modPart_nextId : (s.modPart p f).nextId = s.nextId := rfl
@[simp] theorem State.modPart_nextHandle : (s.modPart p f).nextHandle = s.nextHandle := rfl
@[simp] theorem State.modPart_regs : (s.modPart p f).regs = s.regs := rfl
@[simp] theorem State.modPart_shadows : (s.modPart p f).shadows = s.shadows := rfl
@[simp] theorem State.modPart_mem : (s.modPart p f).mem = s.mem := rfl
@[simp] theorem State.modPart_host : (s.modPart p f).host = s.host := rfl
@[simp] theorem State.modPart_cells : (s.modPart p f).cells = s.cells := rfl
@[simp] theorem State.modPart_dies : (s.modPart p f).dies = s.dies := rfl
@[simp] theorem State.modPart_engines : (s.modPart p f).engines = s.engines := rfl
@[simp] theorem State.modPart_openReqs : (s.modPart p f).openReqs = s.openReqs := rfl
@[simp] theorem State.modPart_tokens : (s.modPart p f).tokens = s.tokens := rfl
@[simp] theorem State.modPart_credits : (s.modPart p f).credits = s.credits := rfl
@[simp] theorem State.modPart_replWrites : (s.modPart p f).replWrites = s.replWrites := rfl
@[simp] theorem State.modPart_countMsgs : (s.modPart p f).countMsgs = s.countMsgs := rfl
@[simp] theorem State.modPart_tables : (s.modPart p f).tables = s.tables := rfl
@[simp] theorem State.modPart_epochs : (s.modPart p f).epochs = s.epochs := rfl
@[simp] theorem State.modPart_bindings : (s.modPart p f).bindings = s.bindings := rfl
@[simp] theorem State.modPart_tsvc : (s.modPart p f).tsvc = s.tsvc := rfl
@[simp] theorem State.modPart_cmp : (s.modPart p f).cmp = s.cmp := rfl
@[simp] theorem State.modPart_ranges : (s.modPart p f).ranges = s.ranges := rfl
@[simp] theorem State.modPart_caches : (s.modPart p f).caches = s.caches := rfl
@[simp] theorem State.modPart_wrote : (s.modPart p f).wrote = s.wrote := rfl
@[simp] theorem State.modPart_xlt : (s.modPart p f).xlt = s.xlt := rfl
@[simp] theorem State.modPart_hot : (s.modPart p f).hot = s.hot := rfl
@[simp] theorem State.modPart_image : (s.modPart p f).image = s.image := rfl
@[simp] theorem State.modPart_parts : (s.modPart p f).parts = s.parts.modify p f := rfl
@[simp] theorem State.modPart_batches : (s.modPart p f).batches = s.batches := rfl
@[simp] theorem State.modPart_ces : (s.modPart p f).ces = s.ces := rfl
@[simp] theorem State.modPart_hif : (s.modPart p f).hif = s.hif := rfl
@[simp] theorem State.modPart_net : (s.modPart p f).net = s.net := rfl
@[simp] theorem State.modPart_hrv : (s.modPart p f).hrv = s.hrv := rfl
@[simp] theorem State.modPart_health : (s.modPart p f).health = s.health := rfl
@[simp] theorem State.modPart_carts : (s.modPart p f).carts = s.carts := rfl
@[simp] theorem State.modPart_power : (s.modPart p f).power = s.power := rfl
@[simp] theorem State.modPart_ctlMhz : (s.modPart p f).ctlMhz = s.ctlMhz := rfl
@[simp] theorem State.modPart_ctlCeil : (s.modPart p f).ctlCeil = s.ctlCeil := rfl
@[simp] theorem State.modPart_ctlMv : (s.modPart p f).ctlMv = s.ctlMv := rfl
@[simp] theorem State.modPart_stewMhz : (s.modPart p f).stewMhz = s.stewMhz := rfl
@[simp] theorem State.modPart_stewCeil : (s.modPart p f).stewCeil = s.stewCeil := rfl
@[simp] theorem State.modPart_stewMv : (s.modPart p f).stewMv = s.stewMv := rfl
end

/-! ## modSvc -/

section
variable (s : State) (p : Nat) (f : TableSvc → TableSvc)
@[simp] theorem State.modSvc_pending : (s.modSvc p f).pending = s.pending := rfl
@[simp] theorem State.modSvc_model : (s.modSvc p f).model = s.model := rfl
@[simp] theorem State.modSvc_mtime : (s.modSvc p f).mtime = s.mtime := rfl
@[simp] theorem State.modSvc_drawn : (s.modSvc p f).drawn = s.drawn := rfl
@[simp] theorem State.modSvc_nextId : (s.modSvc p f).nextId = s.nextId := rfl
@[simp] theorem State.modSvc_nextHandle : (s.modSvc p f).nextHandle = s.nextHandle := rfl
@[simp] theorem State.modSvc_regs : (s.modSvc p f).regs = s.regs := rfl
@[simp] theorem State.modSvc_shadows : (s.modSvc p f).shadows = s.shadows := rfl
@[simp] theorem State.modSvc_mem : (s.modSvc p f).mem = s.mem := rfl
@[simp] theorem State.modSvc_host : (s.modSvc p f).host = s.host := rfl
@[simp] theorem State.modSvc_cells : (s.modSvc p f).cells = s.cells := rfl
@[simp] theorem State.modSvc_dies : (s.modSvc p f).dies = s.dies := rfl
@[simp] theorem State.modSvc_engines : (s.modSvc p f).engines = s.engines := rfl
@[simp] theorem State.modSvc_openReqs : (s.modSvc p f).openReqs = s.openReqs := rfl
@[simp] theorem State.modSvc_tokens : (s.modSvc p f).tokens = s.tokens := rfl
@[simp] theorem State.modSvc_credits : (s.modSvc p f).credits = s.credits := rfl
@[simp] theorem State.modSvc_replWrites : (s.modSvc p f).replWrites = s.replWrites := rfl
@[simp] theorem State.modSvc_countMsgs : (s.modSvc p f).countMsgs = s.countMsgs := rfl
@[simp] theorem State.modSvc_tables : (s.modSvc p f).tables = s.tables := rfl
@[simp] theorem State.modSvc_epochs : (s.modSvc p f).epochs = s.epochs := rfl
@[simp] theorem State.modSvc_bindings : (s.modSvc p f).bindings = s.bindings := rfl
@[simp] theorem State.modSvc_tsvc : (s.modSvc p f).tsvc = s.tsvc.modify p f := rfl
@[simp] theorem State.modSvc_cmp : (s.modSvc p f).cmp = s.cmp := rfl
@[simp] theorem State.modSvc_ranges : (s.modSvc p f).ranges = s.ranges := rfl
@[simp] theorem State.modSvc_caches : (s.modSvc p f).caches = s.caches := rfl
@[simp] theorem State.modSvc_wrote : (s.modSvc p f).wrote = s.wrote := rfl
@[simp] theorem State.modSvc_xlt : (s.modSvc p f).xlt = s.xlt := rfl
@[simp] theorem State.modSvc_hot : (s.modSvc p f).hot = s.hot := rfl
@[simp] theorem State.modSvc_image : (s.modSvc p f).image = s.image := rfl
@[simp] theorem State.modSvc_parts : (s.modSvc p f).parts = s.parts := rfl
@[simp] theorem State.modSvc_batches : (s.modSvc p f).batches = s.batches := rfl
@[simp] theorem State.modSvc_ces : (s.modSvc p f).ces = s.ces := rfl
@[simp] theorem State.modSvc_hif : (s.modSvc p f).hif = s.hif := rfl
@[simp] theorem State.modSvc_net : (s.modSvc p f).net = s.net := rfl
@[simp] theorem State.modSvc_hrv : (s.modSvc p f).hrv = s.hrv := rfl
@[simp] theorem State.modSvc_health : (s.modSvc p f).health = s.health := rfl
@[simp] theorem State.modSvc_carts : (s.modSvc p f).carts = s.carts := rfl
@[simp] theorem State.modSvc_power : (s.modSvc p f).power = s.power := rfl
@[simp] theorem State.modSvc_ctlMhz : (s.modSvc p f).ctlMhz = s.ctlMhz := rfl
@[simp] theorem State.modSvc_ctlCeil : (s.modSvc p f).ctlCeil = s.ctlCeil := rfl
@[simp] theorem State.modSvc_ctlMv : (s.modSvc p f).ctlMv = s.ctlMv := rfl
@[simp] theorem State.modSvc_stewMhz : (s.modSvc p f).stewMhz = s.stewMhz := rfl
@[simp] theorem State.modSvc_stewCeil : (s.modSvc p f).stewCeil = s.stewCeil := rfl
@[simp] theorem State.modSvc_stewMv : (s.modSvc p f).stewMv = s.stewMv := rfl
end

/-! ## modXlt -/

section
variable (s : State) (p : Nat) (f : XltCmd → XltCmd)
@[simp] theorem State.modXlt_pending : (s.modXlt p f).pending = s.pending := rfl
@[simp] theorem State.modXlt_model : (s.modXlt p f).model = s.model := rfl
@[simp] theorem State.modXlt_mtime : (s.modXlt p f).mtime = s.mtime := rfl
@[simp] theorem State.modXlt_drawn : (s.modXlt p f).drawn = s.drawn := rfl
@[simp] theorem State.modXlt_nextId : (s.modXlt p f).nextId = s.nextId := rfl
@[simp] theorem State.modXlt_nextHandle : (s.modXlt p f).nextHandle = s.nextHandle := rfl
@[simp] theorem State.modXlt_regs : (s.modXlt p f).regs = s.regs := rfl
@[simp] theorem State.modXlt_shadows : (s.modXlt p f).shadows = s.shadows := rfl
@[simp] theorem State.modXlt_mem : (s.modXlt p f).mem = s.mem := rfl
@[simp] theorem State.modXlt_host : (s.modXlt p f).host = s.host := rfl
@[simp] theorem State.modXlt_cells : (s.modXlt p f).cells = s.cells := rfl
@[simp] theorem State.modXlt_dies : (s.modXlt p f).dies = s.dies := rfl
@[simp] theorem State.modXlt_engines : (s.modXlt p f).engines = s.engines := rfl
@[simp] theorem State.modXlt_openReqs : (s.modXlt p f).openReqs = s.openReqs := rfl
@[simp] theorem State.modXlt_tokens : (s.modXlt p f).tokens = s.tokens := rfl
@[simp] theorem State.modXlt_credits : (s.modXlt p f).credits = s.credits := rfl
@[simp] theorem State.modXlt_replWrites : (s.modXlt p f).replWrites = s.replWrites := rfl
@[simp] theorem State.modXlt_countMsgs : (s.modXlt p f).countMsgs = s.countMsgs := rfl
@[simp] theorem State.modXlt_tables : (s.modXlt p f).tables = s.tables := rfl
@[simp] theorem State.modXlt_epochs : (s.modXlt p f).epochs = s.epochs := rfl
@[simp] theorem State.modXlt_bindings : (s.modXlt p f).bindings = s.bindings := rfl
@[simp] theorem State.modXlt_tsvc : (s.modXlt p f).tsvc = s.tsvc := rfl
@[simp] theorem State.modXlt_cmp : (s.modXlt p f).cmp = s.cmp := rfl
@[simp] theorem State.modXlt_ranges : (s.modXlt p f).ranges = s.ranges := rfl
@[simp] theorem State.modXlt_caches : (s.modXlt p f).caches = s.caches := rfl
@[simp] theorem State.modXlt_wrote : (s.modXlt p f).wrote = s.wrote := rfl
@[simp] theorem State.modXlt_xlt : (s.modXlt p f).xlt = s.xlt.modify p f := rfl
@[simp] theorem State.modXlt_hot : (s.modXlt p f).hot = s.hot := rfl
@[simp] theorem State.modXlt_image : (s.modXlt p f).image = s.image := rfl
@[simp] theorem State.modXlt_parts : (s.modXlt p f).parts = s.parts := rfl
@[simp] theorem State.modXlt_batches : (s.modXlt p f).batches = s.batches := rfl
@[simp] theorem State.modXlt_ces : (s.modXlt p f).ces = s.ces := rfl
@[simp] theorem State.modXlt_hif : (s.modXlt p f).hif = s.hif := rfl
@[simp] theorem State.modXlt_net : (s.modXlt p f).net = s.net := rfl
@[simp] theorem State.modXlt_hrv : (s.modXlt p f).hrv = s.hrv := rfl
@[simp] theorem State.modXlt_health : (s.modXlt p f).health = s.health := rfl
@[simp] theorem State.modXlt_carts : (s.modXlt p f).carts = s.carts := rfl
@[simp] theorem State.modXlt_power : (s.modXlt p f).power = s.power := rfl
@[simp] theorem State.modXlt_ctlMhz : (s.modXlt p f).ctlMhz = s.ctlMhz := rfl
@[simp] theorem State.modXlt_ctlCeil : (s.modXlt p f).ctlCeil = s.ctlCeil := rfl
@[simp] theorem State.modXlt_ctlMv : (s.modXlt p f).ctlMv = s.ctlMv := rfl
@[simp] theorem State.modXlt_stewMhz : (s.modXlt p f).stewMhz = s.stewMhz := rfl
@[simp] theorem State.modXlt_stewCeil : (s.modXlt p f).stewCeil = s.stewCeil := rfl
@[simp] theorem State.modXlt_stewMv : (s.modXlt p f).stewMv = s.stewMv := rfl
end

/-! ## modCe -/

section
variable (s : State) (e : Nat) (f : CopyEngine → CopyEngine)
@[simp] theorem State.modCe_pending : (s.modCe e f).pending = s.pending := rfl
@[simp] theorem State.modCe_model : (s.modCe e f).model = s.model := rfl
@[simp] theorem State.modCe_mtime : (s.modCe e f).mtime = s.mtime := rfl
@[simp] theorem State.modCe_drawn : (s.modCe e f).drawn = s.drawn := rfl
@[simp] theorem State.modCe_nextId : (s.modCe e f).nextId = s.nextId := rfl
@[simp] theorem State.modCe_nextHandle : (s.modCe e f).nextHandle = s.nextHandle := rfl
@[simp] theorem State.modCe_regs : (s.modCe e f).regs = s.regs := rfl
@[simp] theorem State.modCe_shadows : (s.modCe e f).shadows = s.shadows := rfl
@[simp] theorem State.modCe_mem : (s.modCe e f).mem = s.mem := rfl
@[simp] theorem State.modCe_host : (s.modCe e f).host = s.host := rfl
@[simp] theorem State.modCe_cells : (s.modCe e f).cells = s.cells := rfl
@[simp] theorem State.modCe_dies : (s.modCe e f).dies = s.dies := rfl
@[simp] theorem State.modCe_engines : (s.modCe e f).engines = s.engines := rfl
@[simp] theorem State.modCe_openReqs : (s.modCe e f).openReqs = s.openReqs := rfl
@[simp] theorem State.modCe_tokens : (s.modCe e f).tokens = s.tokens := rfl
@[simp] theorem State.modCe_credits : (s.modCe e f).credits = s.credits := rfl
@[simp] theorem State.modCe_replWrites : (s.modCe e f).replWrites = s.replWrites := rfl
@[simp] theorem State.modCe_countMsgs : (s.modCe e f).countMsgs = s.countMsgs := rfl
@[simp] theorem State.modCe_tables : (s.modCe e f).tables = s.tables := rfl
@[simp] theorem State.modCe_epochs : (s.modCe e f).epochs = s.epochs := rfl
@[simp] theorem State.modCe_bindings : (s.modCe e f).bindings = s.bindings := rfl
@[simp] theorem State.modCe_tsvc : (s.modCe e f).tsvc = s.tsvc := rfl
@[simp] theorem State.modCe_cmp : (s.modCe e f).cmp = s.cmp := rfl
@[simp] theorem State.modCe_ranges : (s.modCe e f).ranges = s.ranges := rfl
@[simp] theorem State.modCe_caches : (s.modCe e f).caches = s.caches := rfl
@[simp] theorem State.modCe_wrote : (s.modCe e f).wrote = s.wrote := rfl
@[simp] theorem State.modCe_xlt : (s.modCe e f).xlt = s.xlt := rfl
@[simp] theorem State.modCe_hot : (s.modCe e f).hot = s.hot := rfl
@[simp] theorem State.modCe_image : (s.modCe e f).image = s.image := rfl
@[simp] theorem State.modCe_parts : (s.modCe e f).parts = s.parts := rfl
@[simp] theorem State.modCe_batches : (s.modCe e f).batches = s.batches := rfl
@[simp] theorem State.modCe_ces : (s.modCe e f).ces = s.ces.modify e f := rfl
@[simp] theorem State.modCe_hif : (s.modCe e f).hif = s.hif := rfl
@[simp] theorem State.modCe_net : (s.modCe e f).net = s.net := rfl
@[simp] theorem State.modCe_hrv : (s.modCe e f).hrv = s.hrv := rfl
@[simp] theorem State.modCe_health : (s.modCe e f).health = s.health := rfl
@[simp] theorem State.modCe_carts : (s.modCe e f).carts = s.carts := rfl
@[simp] theorem State.modCe_power : (s.modCe e f).power = s.power := rfl
@[simp] theorem State.modCe_ctlMhz : (s.modCe e f).ctlMhz = s.ctlMhz := rfl
@[simp] theorem State.modCe_ctlCeil : (s.modCe e f).ctlCeil = s.ctlCeil := rfl
@[simp] theorem State.modCe_ctlMv : (s.modCe e f).ctlMv = s.ctlMv := rfl
@[simp] theorem State.modCe_stewMhz : (s.modCe e f).stewMhz = s.stewMhz := rfl
@[simp] theorem State.modCe_stewCeil : (s.modCe e f).stewCeil = s.stewCeil := rfl
@[simp] theorem State.modCe_stewMv : (s.modCe e f).stewMv = s.stewMv := rfl
end

/-! ## modHif -/

section
variable (s : State) (f : HostIf → HostIf)
@[simp] theorem State.modHif_pending : (s.modHif f).pending = s.pending := rfl
@[simp] theorem State.modHif_model : (s.modHif f).model = s.model := rfl
@[simp] theorem State.modHif_mtime : (s.modHif f).mtime = s.mtime := rfl
@[simp] theorem State.modHif_drawn : (s.modHif f).drawn = s.drawn := rfl
@[simp] theorem State.modHif_nextId : (s.modHif f).nextId = s.nextId := rfl
@[simp] theorem State.modHif_nextHandle : (s.modHif f).nextHandle = s.nextHandle := rfl
@[simp] theorem State.modHif_regs : (s.modHif f).regs = s.regs := rfl
@[simp] theorem State.modHif_shadows : (s.modHif f).shadows = s.shadows := rfl
@[simp] theorem State.modHif_mem : (s.modHif f).mem = s.mem := rfl
@[simp] theorem State.modHif_host : (s.modHif f).host = s.host := rfl
@[simp] theorem State.modHif_cells : (s.modHif f).cells = s.cells := rfl
@[simp] theorem State.modHif_dies : (s.modHif f).dies = s.dies := rfl
@[simp] theorem State.modHif_engines : (s.modHif f).engines = s.engines := rfl
@[simp] theorem State.modHif_openReqs : (s.modHif f).openReqs = s.openReqs := rfl
@[simp] theorem State.modHif_tokens : (s.modHif f).tokens = s.tokens := rfl
@[simp] theorem State.modHif_credits : (s.modHif f).credits = s.credits := rfl
@[simp] theorem State.modHif_replWrites : (s.modHif f).replWrites = s.replWrites := rfl
@[simp] theorem State.modHif_countMsgs : (s.modHif f).countMsgs = s.countMsgs := rfl
@[simp] theorem State.modHif_tables : (s.modHif f).tables = s.tables := rfl
@[simp] theorem State.modHif_epochs : (s.modHif f).epochs = s.epochs := rfl
@[simp] theorem State.modHif_bindings : (s.modHif f).bindings = s.bindings := rfl
@[simp] theorem State.modHif_tsvc : (s.modHif f).tsvc = s.tsvc := rfl
@[simp] theorem State.modHif_cmp : (s.modHif f).cmp = s.cmp := rfl
@[simp] theorem State.modHif_ranges : (s.modHif f).ranges = s.ranges := rfl
@[simp] theorem State.modHif_caches : (s.modHif f).caches = s.caches := rfl
@[simp] theorem State.modHif_wrote : (s.modHif f).wrote = s.wrote := rfl
@[simp] theorem State.modHif_xlt : (s.modHif f).xlt = s.xlt := rfl
@[simp] theorem State.modHif_hot : (s.modHif f).hot = s.hot := rfl
@[simp] theorem State.modHif_image : (s.modHif f).image = s.image := rfl
@[simp] theorem State.modHif_parts : (s.modHif f).parts = s.parts := rfl
@[simp] theorem State.modHif_batches : (s.modHif f).batches = s.batches := rfl
@[simp] theorem State.modHif_ces : (s.modHif f).ces = s.ces := rfl
@[simp] theorem State.modHif_hif : (s.modHif f).hif = f s.hif := rfl
@[simp] theorem State.modHif_net : (s.modHif f).net = s.net := rfl
@[simp] theorem State.modHif_hrv : (s.modHif f).hrv = s.hrv := rfl
@[simp] theorem State.modHif_health : (s.modHif f).health = s.health := rfl
@[simp] theorem State.modHif_carts : (s.modHif f).carts = s.carts := rfl
@[simp] theorem State.modHif_power : (s.modHif f).power = s.power := rfl
@[simp] theorem State.modHif_ctlMhz : (s.modHif f).ctlMhz = s.ctlMhz := rfl
@[simp] theorem State.modHif_ctlCeil : (s.modHif f).ctlCeil = s.ctlCeil := rfl
@[simp] theorem State.modHif_ctlMv : (s.modHif f).ctlMv = s.ctlMv := rfl
@[simp] theorem State.modHif_stewMhz : (s.modHif f).stewMhz = s.stewMhz := rfl
@[simp] theorem State.modHif_stewCeil : (s.modHif f).stewCeil = s.stewCeil := rfl
@[simp] theorem State.modHif_stewMv : (s.modHif f).stewMv = s.stewMv := rfl
end

/-! ## modNet -/

section
variable (s : State) (f : Net → Net)
@[simp] theorem State.modNet_pending : (s.modNet f).pending = s.pending := rfl
@[simp] theorem State.modNet_model : (s.modNet f).model = s.model := rfl
@[simp] theorem State.modNet_mtime : (s.modNet f).mtime = s.mtime := rfl
@[simp] theorem State.modNet_drawn : (s.modNet f).drawn = s.drawn := rfl
@[simp] theorem State.modNet_nextId : (s.modNet f).nextId = s.nextId := rfl
@[simp] theorem State.modNet_nextHandle : (s.modNet f).nextHandle = s.nextHandle := rfl
@[simp] theorem State.modNet_regs : (s.modNet f).regs = s.regs := rfl
@[simp] theorem State.modNet_shadows : (s.modNet f).shadows = s.shadows := rfl
@[simp] theorem State.modNet_mem : (s.modNet f).mem = s.mem := rfl
@[simp] theorem State.modNet_host : (s.modNet f).host = s.host := rfl
@[simp] theorem State.modNet_cells : (s.modNet f).cells = s.cells := rfl
@[simp] theorem State.modNet_dies : (s.modNet f).dies = s.dies := rfl
@[simp] theorem State.modNet_engines : (s.modNet f).engines = s.engines := rfl
@[simp] theorem State.modNet_openReqs : (s.modNet f).openReqs = s.openReqs := rfl
@[simp] theorem State.modNet_tokens : (s.modNet f).tokens = s.tokens := rfl
@[simp] theorem State.modNet_credits : (s.modNet f).credits = s.credits := rfl
@[simp] theorem State.modNet_replWrites : (s.modNet f).replWrites = s.replWrites := rfl
@[simp] theorem State.modNet_countMsgs : (s.modNet f).countMsgs = s.countMsgs := rfl
@[simp] theorem State.modNet_tables : (s.modNet f).tables = s.tables := rfl
@[simp] theorem State.modNet_epochs : (s.modNet f).epochs = s.epochs := rfl
@[simp] theorem State.modNet_bindings : (s.modNet f).bindings = s.bindings := rfl
@[simp] theorem State.modNet_tsvc : (s.modNet f).tsvc = s.tsvc := rfl
@[simp] theorem State.modNet_cmp : (s.modNet f).cmp = s.cmp := rfl
@[simp] theorem State.modNet_ranges : (s.modNet f).ranges = s.ranges := rfl
@[simp] theorem State.modNet_caches : (s.modNet f).caches = s.caches := rfl
@[simp] theorem State.modNet_wrote : (s.modNet f).wrote = s.wrote := rfl
@[simp] theorem State.modNet_xlt : (s.modNet f).xlt = s.xlt := rfl
@[simp] theorem State.modNet_hot : (s.modNet f).hot = s.hot := rfl
@[simp] theorem State.modNet_image : (s.modNet f).image = s.image := rfl
@[simp] theorem State.modNet_parts : (s.modNet f).parts = s.parts := rfl
@[simp] theorem State.modNet_batches : (s.modNet f).batches = s.batches := rfl
@[simp] theorem State.modNet_ces : (s.modNet f).ces = s.ces := rfl
@[simp] theorem State.modNet_hif : (s.modNet f).hif = s.hif := rfl
@[simp] theorem State.modNet_net : (s.modNet f).net = f s.net := rfl
@[simp] theorem State.modNet_hrv : (s.modNet f).hrv = s.hrv := rfl
@[simp] theorem State.modNet_health : (s.modNet f).health = s.health := rfl
@[simp] theorem State.modNet_carts : (s.modNet f).carts = s.carts := rfl
@[simp] theorem State.modNet_power : (s.modNet f).power = s.power := rfl
@[simp] theorem State.modNet_ctlMhz : (s.modNet f).ctlMhz = s.ctlMhz := rfl
@[simp] theorem State.modNet_ctlCeil : (s.modNet f).ctlCeil = s.ctlCeil := rfl
@[simp] theorem State.modNet_ctlMv : (s.modNet f).ctlMv = s.ctlMv := rfl
@[simp] theorem State.modNet_stewMhz : (s.modNet f).stewMhz = s.stewMhz := rfl
@[simp] theorem State.modNet_stewCeil : (s.modNet f).stewCeil = s.stewCeil := rfl
@[simp] theorem State.modNet_stewMv : (s.modNet f).stewMv = s.stewMv := rfl
end

/-! ## modHrv -/

section
variable (s : State) (f : Horvi → Horvi)
@[simp] theorem State.modHrv_pending : (s.modHrv f).pending = s.pending := rfl
@[simp] theorem State.modHrv_model : (s.modHrv f).model = s.model := rfl
@[simp] theorem State.modHrv_mtime : (s.modHrv f).mtime = s.mtime := rfl
@[simp] theorem State.modHrv_drawn : (s.modHrv f).drawn = s.drawn := rfl
@[simp] theorem State.modHrv_nextId : (s.modHrv f).nextId = s.nextId := rfl
@[simp] theorem State.modHrv_nextHandle : (s.modHrv f).nextHandle = s.nextHandle := rfl
@[simp] theorem State.modHrv_regs : (s.modHrv f).regs = s.regs := rfl
@[simp] theorem State.modHrv_shadows : (s.modHrv f).shadows = s.shadows := rfl
@[simp] theorem State.modHrv_mem : (s.modHrv f).mem = s.mem := rfl
@[simp] theorem State.modHrv_host : (s.modHrv f).host = s.host := rfl
@[simp] theorem State.modHrv_cells : (s.modHrv f).cells = s.cells := rfl
@[simp] theorem State.modHrv_dies : (s.modHrv f).dies = s.dies := rfl
@[simp] theorem State.modHrv_engines : (s.modHrv f).engines = s.engines := rfl
@[simp] theorem State.modHrv_openReqs : (s.modHrv f).openReqs = s.openReqs := rfl
@[simp] theorem State.modHrv_tokens : (s.modHrv f).tokens = s.tokens := rfl
@[simp] theorem State.modHrv_credits : (s.modHrv f).credits = s.credits := rfl
@[simp] theorem State.modHrv_replWrites : (s.modHrv f).replWrites = s.replWrites := rfl
@[simp] theorem State.modHrv_countMsgs : (s.modHrv f).countMsgs = s.countMsgs := rfl
@[simp] theorem State.modHrv_tables : (s.modHrv f).tables = s.tables := rfl
@[simp] theorem State.modHrv_epochs : (s.modHrv f).epochs = s.epochs := rfl
@[simp] theorem State.modHrv_bindings : (s.modHrv f).bindings = s.bindings := rfl
@[simp] theorem State.modHrv_tsvc : (s.modHrv f).tsvc = s.tsvc := rfl
@[simp] theorem State.modHrv_cmp : (s.modHrv f).cmp = s.cmp := rfl
@[simp] theorem State.modHrv_ranges : (s.modHrv f).ranges = s.ranges := rfl
@[simp] theorem State.modHrv_caches : (s.modHrv f).caches = s.caches := rfl
@[simp] theorem State.modHrv_wrote : (s.modHrv f).wrote = s.wrote := rfl
@[simp] theorem State.modHrv_xlt : (s.modHrv f).xlt = s.xlt := rfl
@[simp] theorem State.modHrv_hot : (s.modHrv f).hot = s.hot := rfl
@[simp] theorem State.modHrv_image : (s.modHrv f).image = s.image := rfl
@[simp] theorem State.modHrv_parts : (s.modHrv f).parts = s.parts := rfl
@[simp] theorem State.modHrv_batches : (s.modHrv f).batches = s.batches := rfl
@[simp] theorem State.modHrv_ces : (s.modHrv f).ces = s.ces := rfl
@[simp] theorem State.modHrv_hif : (s.modHrv f).hif = s.hif := rfl
@[simp] theorem State.modHrv_net : (s.modHrv f).net = s.net := rfl
@[simp] theorem State.modHrv_hrv : (s.modHrv f).hrv = f s.hrv := rfl
@[simp] theorem State.modHrv_health : (s.modHrv f).health = s.health := rfl
@[simp] theorem State.modHrv_carts : (s.modHrv f).carts = s.carts := rfl
@[simp] theorem State.modHrv_power : (s.modHrv f).power = s.power := rfl
@[simp] theorem State.modHrv_ctlMhz : (s.modHrv f).ctlMhz = s.ctlMhz := rfl
@[simp] theorem State.modHrv_ctlCeil : (s.modHrv f).ctlCeil = s.ctlCeil := rfl
@[simp] theorem State.modHrv_ctlMv : (s.modHrv f).ctlMv = s.ctlMv := rfl
@[simp] theorem State.modHrv_stewMhz : (s.modHrv f).stewMhz = s.stewMhz := rfl
@[simp] theorem State.modHrv_stewCeil : (s.modHrv f).stewCeil = s.stewCeil := rfl
@[simp] theorem State.modHrv_stewMv : (s.modHrv f).stewMv = s.stewMv := rfl
end

/-! ## modHealth -/

section
variable (s : State) (f : Health → Health)
@[simp] theorem State.modHealth_pending : (s.modHealth f).pending = s.pending := rfl
@[simp] theorem State.modHealth_model : (s.modHealth f).model = s.model := rfl
@[simp] theorem State.modHealth_mtime : (s.modHealth f).mtime = s.mtime := rfl
@[simp] theorem State.modHealth_drawn : (s.modHealth f).drawn = s.drawn := rfl
@[simp] theorem State.modHealth_nextId : (s.modHealth f).nextId = s.nextId := rfl
@[simp] theorem State.modHealth_nextHandle : (s.modHealth f).nextHandle = s.nextHandle := rfl
@[simp] theorem State.modHealth_regs : (s.modHealth f).regs = s.regs := rfl
@[simp] theorem State.modHealth_shadows : (s.modHealth f).shadows = s.shadows := rfl
@[simp] theorem State.modHealth_mem : (s.modHealth f).mem = s.mem := rfl
@[simp] theorem State.modHealth_host : (s.modHealth f).host = s.host := rfl
@[simp] theorem State.modHealth_cells : (s.modHealth f).cells = s.cells := rfl
@[simp] theorem State.modHealth_dies : (s.modHealth f).dies = s.dies := rfl
@[simp] theorem State.modHealth_engines : (s.modHealth f).engines = s.engines := rfl
@[simp] theorem State.modHealth_openReqs : (s.modHealth f).openReqs = s.openReqs := rfl
@[simp] theorem State.modHealth_tokens : (s.modHealth f).tokens = s.tokens := rfl
@[simp] theorem State.modHealth_credits : (s.modHealth f).credits = s.credits := rfl
@[simp] theorem State.modHealth_replWrites : (s.modHealth f).replWrites = s.replWrites := rfl
@[simp] theorem State.modHealth_countMsgs : (s.modHealth f).countMsgs = s.countMsgs := rfl
@[simp] theorem State.modHealth_tables : (s.modHealth f).tables = s.tables := rfl
@[simp] theorem State.modHealth_epochs : (s.modHealth f).epochs = s.epochs := rfl
@[simp] theorem State.modHealth_bindings : (s.modHealth f).bindings = s.bindings := rfl
@[simp] theorem State.modHealth_tsvc : (s.modHealth f).tsvc = s.tsvc := rfl
@[simp] theorem State.modHealth_cmp : (s.modHealth f).cmp = s.cmp := rfl
@[simp] theorem State.modHealth_ranges : (s.modHealth f).ranges = s.ranges := rfl
@[simp] theorem State.modHealth_caches : (s.modHealth f).caches = s.caches := rfl
@[simp] theorem State.modHealth_wrote : (s.modHealth f).wrote = s.wrote := rfl
@[simp] theorem State.modHealth_xlt : (s.modHealth f).xlt = s.xlt := rfl
@[simp] theorem State.modHealth_hot : (s.modHealth f).hot = s.hot := rfl
@[simp] theorem State.modHealth_image : (s.modHealth f).image = s.image := rfl
@[simp] theorem State.modHealth_parts : (s.modHealth f).parts = s.parts := rfl
@[simp] theorem State.modHealth_batches : (s.modHealth f).batches = s.batches := rfl
@[simp] theorem State.modHealth_ces : (s.modHealth f).ces = s.ces := rfl
@[simp] theorem State.modHealth_hif : (s.modHealth f).hif = s.hif := rfl
@[simp] theorem State.modHealth_net : (s.modHealth f).net = s.net := rfl
@[simp] theorem State.modHealth_hrv : (s.modHealth f).hrv = s.hrv := rfl
@[simp] theorem State.modHealth_health : (s.modHealth f).health = f s.health := rfl
@[simp] theorem State.modHealth_carts : (s.modHealth f).carts = s.carts := rfl
@[simp] theorem State.modHealth_power : (s.modHealth f).power = s.power := rfl
@[simp] theorem State.modHealth_ctlMhz : (s.modHealth f).ctlMhz = s.ctlMhz := rfl
@[simp] theorem State.modHealth_ctlCeil : (s.modHealth f).ctlCeil = s.ctlCeil := rfl
@[simp] theorem State.modHealth_ctlMv : (s.modHealth f).ctlMv = s.ctlMv := rfl
@[simp] theorem State.modHealth_stewMhz : (s.modHealth f).stewMhz = s.stewMhz := rfl
@[simp] theorem State.modHealth_stewCeil : (s.modHealth f).stewCeil = s.stewCeil := rfl
@[simp] theorem State.modHealth_stewMv : (s.modHealth f).stewMv = s.stewMv := rfl
end

/-! ## modCarts -/

section
variable (s : State) (f : Carts → Carts)
@[simp] theorem State.modCarts_pending : (s.modCarts f).pending = s.pending := rfl
@[simp] theorem State.modCarts_model : (s.modCarts f).model = s.model := rfl
@[simp] theorem State.modCarts_mtime : (s.modCarts f).mtime = s.mtime := rfl
@[simp] theorem State.modCarts_drawn : (s.modCarts f).drawn = s.drawn := rfl
@[simp] theorem State.modCarts_nextId : (s.modCarts f).nextId = s.nextId := rfl
@[simp] theorem State.modCarts_nextHandle : (s.modCarts f).nextHandle = s.nextHandle := rfl
@[simp] theorem State.modCarts_regs : (s.modCarts f).regs = s.regs := rfl
@[simp] theorem State.modCarts_shadows : (s.modCarts f).shadows = s.shadows := rfl
@[simp] theorem State.modCarts_mem : (s.modCarts f).mem = s.mem := rfl
@[simp] theorem State.modCarts_host : (s.modCarts f).host = s.host := rfl
@[simp] theorem State.modCarts_cells : (s.modCarts f).cells = s.cells := rfl
@[simp] theorem State.modCarts_dies : (s.modCarts f).dies = s.dies := rfl
@[simp] theorem State.modCarts_engines : (s.modCarts f).engines = s.engines := rfl
@[simp] theorem State.modCarts_openReqs : (s.modCarts f).openReqs = s.openReqs := rfl
@[simp] theorem State.modCarts_tokens : (s.modCarts f).tokens = s.tokens := rfl
@[simp] theorem State.modCarts_credits : (s.modCarts f).credits = s.credits := rfl
@[simp] theorem State.modCarts_replWrites : (s.modCarts f).replWrites = s.replWrites := rfl
@[simp] theorem State.modCarts_countMsgs : (s.modCarts f).countMsgs = s.countMsgs := rfl
@[simp] theorem State.modCarts_tables : (s.modCarts f).tables = s.tables := rfl
@[simp] theorem State.modCarts_epochs : (s.modCarts f).epochs = s.epochs := rfl
@[simp] theorem State.modCarts_bindings : (s.modCarts f).bindings = s.bindings := rfl
@[simp] theorem State.modCarts_tsvc : (s.modCarts f).tsvc = s.tsvc := rfl
@[simp] theorem State.modCarts_cmp : (s.modCarts f).cmp = s.cmp := rfl
@[simp] theorem State.modCarts_ranges : (s.modCarts f).ranges = s.ranges := rfl
@[simp] theorem State.modCarts_caches : (s.modCarts f).caches = s.caches := rfl
@[simp] theorem State.modCarts_wrote : (s.modCarts f).wrote = s.wrote := rfl
@[simp] theorem State.modCarts_xlt : (s.modCarts f).xlt = s.xlt := rfl
@[simp] theorem State.modCarts_hot : (s.modCarts f).hot = s.hot := rfl
@[simp] theorem State.modCarts_image : (s.modCarts f).image = s.image := rfl
@[simp] theorem State.modCarts_parts : (s.modCarts f).parts = s.parts := rfl
@[simp] theorem State.modCarts_batches : (s.modCarts f).batches = s.batches := rfl
@[simp] theorem State.modCarts_ces : (s.modCarts f).ces = s.ces := rfl
@[simp] theorem State.modCarts_hif : (s.modCarts f).hif = s.hif := rfl
@[simp] theorem State.modCarts_net : (s.modCarts f).net = s.net := rfl
@[simp] theorem State.modCarts_hrv : (s.modCarts f).hrv = s.hrv := rfl
@[simp] theorem State.modCarts_health : (s.modCarts f).health = s.health := rfl
@[simp] theorem State.modCarts_carts : (s.modCarts f).carts = f s.carts := rfl
@[simp] theorem State.modCarts_power : (s.modCarts f).power = s.power := rfl
@[simp] theorem State.modCarts_ctlMhz : (s.modCarts f).ctlMhz = s.ctlMhz := rfl
@[simp] theorem State.modCarts_ctlCeil : (s.modCarts f).ctlCeil = s.ctlCeil := rfl
@[simp] theorem State.modCarts_ctlMv : (s.modCarts f).ctlMv = s.ctlMv := rfl
@[simp] theorem State.modCarts_stewMhz : (s.modCarts f).stewMhz = s.stewMhz := rfl
@[simp] theorem State.modCarts_stewCeil : (s.modCarts f).stewCeil = s.stewCeil := rfl
@[simp] theorem State.modCarts_stewMv : (s.modCarts f).stewMv = s.stewMv := rfl
end

/-! ## modPower -/

section
variable (s : State) (f : Power → Power)
@[simp] theorem State.modPower_pending : (s.modPower f).pending = s.pending := rfl
@[simp] theorem State.modPower_model : (s.modPower f).model = s.model := rfl
@[simp] theorem State.modPower_mtime : (s.modPower f).mtime = s.mtime := rfl
@[simp] theorem State.modPower_drawn : (s.modPower f).drawn = s.drawn := rfl
@[simp] theorem State.modPower_nextId : (s.modPower f).nextId = s.nextId := rfl
@[simp] theorem State.modPower_nextHandle : (s.modPower f).nextHandle = s.nextHandle := rfl
@[simp] theorem State.modPower_regs : (s.modPower f).regs = s.regs := rfl
@[simp] theorem State.modPower_shadows : (s.modPower f).shadows = s.shadows := rfl
@[simp] theorem State.modPower_mem : (s.modPower f).mem = s.mem := rfl
@[simp] theorem State.modPower_host : (s.modPower f).host = s.host := rfl
@[simp] theorem State.modPower_cells : (s.modPower f).cells = s.cells := rfl
@[simp] theorem State.modPower_dies : (s.modPower f).dies = s.dies := rfl
@[simp] theorem State.modPower_engines : (s.modPower f).engines = s.engines := rfl
@[simp] theorem State.modPower_openReqs : (s.modPower f).openReqs = s.openReqs := rfl
@[simp] theorem State.modPower_tokens : (s.modPower f).tokens = s.tokens := rfl
@[simp] theorem State.modPower_credits : (s.modPower f).credits = s.credits := rfl
@[simp] theorem State.modPower_replWrites : (s.modPower f).replWrites = s.replWrites := rfl
@[simp] theorem State.modPower_countMsgs : (s.modPower f).countMsgs = s.countMsgs := rfl
@[simp] theorem State.modPower_tables : (s.modPower f).tables = s.tables := rfl
@[simp] theorem State.modPower_epochs : (s.modPower f).epochs = s.epochs := rfl
@[simp] theorem State.modPower_bindings : (s.modPower f).bindings = s.bindings := rfl
@[simp] theorem State.modPower_tsvc : (s.modPower f).tsvc = s.tsvc := rfl
@[simp] theorem State.modPower_cmp : (s.modPower f).cmp = s.cmp := rfl
@[simp] theorem State.modPower_ranges : (s.modPower f).ranges = s.ranges := rfl
@[simp] theorem State.modPower_caches : (s.modPower f).caches = s.caches := rfl
@[simp] theorem State.modPower_wrote : (s.modPower f).wrote = s.wrote := rfl
@[simp] theorem State.modPower_xlt : (s.modPower f).xlt = s.xlt := rfl
@[simp] theorem State.modPower_hot : (s.modPower f).hot = s.hot := rfl
@[simp] theorem State.modPower_image : (s.modPower f).image = s.image := rfl
@[simp] theorem State.modPower_parts : (s.modPower f).parts = s.parts := rfl
@[simp] theorem State.modPower_batches : (s.modPower f).batches = s.batches := rfl
@[simp] theorem State.modPower_ces : (s.modPower f).ces = s.ces := rfl
@[simp] theorem State.modPower_hif : (s.modPower f).hif = s.hif := rfl
@[simp] theorem State.modPower_net : (s.modPower f).net = s.net := rfl
@[simp] theorem State.modPower_hrv : (s.modPower f).hrv = s.hrv := rfl
@[simp] theorem State.modPower_health : (s.modPower f).health = s.health := rfl
@[simp] theorem State.modPower_carts : (s.modPower f).carts = s.carts := rfl
@[simp] theorem State.modPower_power : (s.modPower f).power = f s.power := rfl
@[simp] theorem State.modPower_ctlMhz : (s.modPower f).ctlMhz = s.ctlMhz := rfl
@[simp] theorem State.modPower_ctlCeil : (s.modPower f).ctlCeil = s.ctlCeil := rfl
@[simp] theorem State.modPower_ctlMv : (s.modPower f).ctlMv = s.ctlMv := rfl
@[simp] theorem State.modPower_stewMhz : (s.modPower f).stewMhz = s.stewMhz := rfl
@[simp] theorem State.modPower_stewCeil : (s.modPower f).stewCeil = s.stewCeil := rfl
@[simp] theorem State.modPower_stewMv : (s.modPower f).stewMv = s.stewMv := rfl
end

/-! ## modImage -/

section
variable (s : State) (f : Image → Image)
@[simp] theorem State.modImage_pending : (s.modImage f).pending = s.pending := rfl
@[simp] theorem State.modImage_model : (s.modImage f).model = s.model := rfl
@[simp] theorem State.modImage_mtime : (s.modImage f).mtime = s.mtime := rfl
@[simp] theorem State.modImage_drawn : (s.modImage f).drawn = s.drawn := rfl
@[simp] theorem State.modImage_nextId : (s.modImage f).nextId = s.nextId := rfl
@[simp] theorem State.modImage_nextHandle : (s.modImage f).nextHandle = s.nextHandle := rfl
@[simp] theorem State.modImage_regs : (s.modImage f).regs = s.regs := rfl
@[simp] theorem State.modImage_shadows : (s.modImage f).shadows = s.shadows := rfl
@[simp] theorem State.modImage_mem : (s.modImage f).mem = s.mem := rfl
@[simp] theorem State.modImage_host : (s.modImage f).host = s.host := rfl
@[simp] theorem State.modImage_cells : (s.modImage f).cells = s.cells := rfl
@[simp] theorem State.modImage_dies : (s.modImage f).dies = s.dies := rfl
@[simp] theorem State.modImage_engines : (s.modImage f).engines = s.engines := rfl
@[simp] theorem State.modImage_openReqs : (s.modImage f).openReqs = s.openReqs := rfl
@[simp] theorem State.modImage_tokens : (s.modImage f).tokens = s.tokens := rfl
@[simp] theorem State.modImage_credits : (s.modImage f).credits = s.credits := rfl
@[simp] theorem State.modImage_replWrites : (s.modImage f).replWrites = s.replWrites := rfl
@[simp] theorem State.modImage_countMsgs : (s.modImage f).countMsgs = s.countMsgs := rfl
@[simp] theorem State.modImage_tables : (s.modImage f).tables = s.tables := rfl
@[simp] theorem State.modImage_epochs : (s.modImage f).epochs = s.epochs := rfl
@[simp] theorem State.modImage_bindings : (s.modImage f).bindings = s.bindings := rfl
@[simp] theorem State.modImage_tsvc : (s.modImage f).tsvc = s.tsvc := rfl
@[simp] theorem State.modImage_cmp : (s.modImage f).cmp = s.cmp := rfl
@[simp] theorem State.modImage_ranges : (s.modImage f).ranges = s.ranges := rfl
@[simp] theorem State.modImage_caches : (s.modImage f).caches = s.caches := rfl
@[simp] theorem State.modImage_wrote : (s.modImage f).wrote = s.wrote := rfl
@[simp] theorem State.modImage_xlt : (s.modImage f).xlt = s.xlt := rfl
@[simp] theorem State.modImage_hot : (s.modImage f).hot = s.hot := rfl
@[simp] theorem State.modImage_image : (s.modImage f).image = f s.image := rfl
@[simp] theorem State.modImage_parts : (s.modImage f).parts = s.parts := rfl
@[simp] theorem State.modImage_batches : (s.modImage f).batches = s.batches := rfl
@[simp] theorem State.modImage_ces : (s.modImage f).ces = s.ces := rfl
@[simp] theorem State.modImage_hif : (s.modImage f).hif = s.hif := rfl
@[simp] theorem State.modImage_net : (s.modImage f).net = s.net := rfl
@[simp] theorem State.modImage_hrv : (s.modImage f).hrv = s.hrv := rfl
@[simp] theorem State.modImage_health : (s.modImage f).health = s.health := rfl
@[simp] theorem State.modImage_carts : (s.modImage f).carts = s.carts := rfl
@[simp] theorem State.modImage_power : (s.modImage f).power = s.power := rfl
@[simp] theorem State.modImage_ctlMhz : (s.modImage f).ctlMhz = s.ctlMhz := rfl
@[simp] theorem State.modImage_ctlCeil : (s.modImage f).ctlCeil = s.ctlCeil := rfl
@[simp] theorem State.modImage_ctlMv : (s.modImage f).ctlMv = s.ctlMv := rfl
@[simp] theorem State.modImage_stewMhz : (s.modImage f).stewMhz = s.stewMhz := rfl
@[simp] theorem State.modImage_stewCeil : (s.modImage f).stewCeil = s.stewCeil := rfl
@[simp] theorem State.modImage_stewMv : (s.modImage f).stewMv = s.stewMv := rfl
end

/-! ## Units after an update -/

theorem getD_modify {α : Type} (l : List α) (i j : Nat) (f : α → α) (d : α) :
    (l.modify i f).getD j d = if i = j ∧ i < l.length then f (l.getD i d) else l.getD j d := by
  simp only [List.getD_eq_getElem?_getD, List.getElem?_modify]
  by_cases h : i = j
  · subst h
    by_cases k : i < l.length
    · simp [k]
    · simp [k]
  · simp [h]

theorem modify_eq_set {α : Type} (l : List α) (i : Nat) (f : α → α) (d : α) : l.modify i f = l.set i (f (l.getD i d)) := by
  apply List.ext_getElem?
  intro j
  simp only [List.getElem?_modify, List.getElem?_set, List.getD_eq_getElem?_getD]
  by_cases h : i = j
  · subst h
    by_cases k : i < l.length
    · simp [k]
    · simp [k]
  · simp [h]

section
variable (s : State) {i j : Nat}

theorem State.cell_modCell_self (f : Cell → Cell) (h : i < s.cells.length) : (s.modCell i f).cell i = f (s.cell i) := by
  simp [State.cell, State.modCell, h, List.getD_eq_getElem?_getD]
theorem State.cell_modCell_ne (f : Cell → Cell) (h : i ≠ j) : (s.modCell i f).cell j = s.cell j := by
  simp [State.cell, State.modCell, h]
theorem State.engine_modEngine_self (f : Engine → Engine) (h : i < s.engines.length) :
    (s.modEngine i f).engine i = f (s.engine i) := by
  simp [State.engine, State.modEngine, h]
theorem State.engine_modEngine_ne (f : Engine → Engine) (h : i ≠ j) : (s.modEngine i f).engine j = s.engine j := by
  simp [State.engine, State.modEngine, h]
theorem State.die_modDie_self (f : Die → Die) (h : i < s.dies.length) : (s.modDie i f).die i = f (s.die i) := by
  simp [State.die, State.modDie, h]
theorem State.die_modDie_ne (f : Die → Die) (h : i ≠ j) : (s.modDie i f).die j = s.die j := by
  simp [State.die, State.modDie, h]
theorem State.part_modPart_self (f : Partition → Partition) (h : i < s.parts.length) :
    (s.modPart i f).part i = f (s.part i) := by
  simp [State.part, State.modPart, h]
theorem State.part_modPart_ne (f : Partition → Partition) (h : i ≠ j) : (s.modPart i f).part j = s.part j := by
  simp [State.part, State.modPart, h]
theorem State.svc_modSvc_self (f : TableSvc → TableSvc) (h : i < s.tsvc.length) : (s.modSvc i f).svc i = f (s.svc i) := by
  simp [State.svc, State.modSvc, h]
theorem State.svc_modSvc_ne (f : TableSvc → TableSvc) (h : i ≠ j) : (s.modSvc i f).svc j = s.svc j := by
  simp [State.svc, State.modSvc, h]
theorem State.xltOf_modXlt_self (f : XltCmd → XltCmd) (h : i < s.xlt.length) : (s.modXlt i f).xltOf i = f (s.xltOf i) := by
  simp [State.xltOf, State.modXlt, h]
theorem State.xltOf_modXlt_ne (f : XltCmd → XltCmd) (h : i ≠ j) : (s.modXlt i f).xltOf j = s.xltOf j := by
  simp [State.xltOf, State.modXlt, h]
theorem State.ce_modCe_self (f : CopyEngine → CopyEngine) (h : i < s.ces.length) : (s.modCe i f).ce i = f (s.ce i) := by
  simp [State.ce, State.modCe, h]
theorem State.ce_modCe_ne (f : CopyEngine → CopyEngine) (h : i ≠ j) : (s.modCe i f).ce j = s.ce j := by
  simp [State.ce, State.modCe, h]
theorem State.bay_modBay_self (f : Bay → Bay) (h : i < s.carts.bays.length) : (s.modBay i f).bay i = f (s.bay i) := by
  simp [State.bay, State.modBay, h]
theorem State.bay_modBay_ne (f : Bay → Bay) (h : i ≠ j) : (s.modBay i f).bay j = s.bay j := by
  simp [State.bay, State.modBay, h]

/-! ## A state with one cell replaced -/

theorem State.modCell_eq_putCell (f : Cell → Cell) : s.modCell i f = s.putCell i (f (s.cell i)) := by
  simp only [State.modCell, State.putCell, State.cell, modify_eq_set _ _ _ (Cell.fresh i)]

theorem State.cell_putCell_self (c : Cell) (h : i < s.cells.length) : (s.putCell i c).cell i = c := by
  simp [State.putCell, State.cell, List.getD_eq_getElem?_getD, h]
theorem State.cell_putCell_ne (c : Cell) (h : i ≠ j) : (s.putCell i c).cell j = s.cell j := by
  simp [State.putCell, State.cell, List.getD_eq_getElem?_getD, h]

@[simp] theorem State.putCell_putCell (c d : Cell) : (s.putCell i c).putCell i d = s.putCell i d := by
  simp [State.putCell]

@[simp] theorem State.putCell_length (c : Cell) : (s.putCell i c).cells.length = s.cells.length := by
  simp [State.putCell]

theorem State.posOf_lt {g : Nat} (h : s.posOf g = some i) : i < s.cells.length := by
  obtain ⟨h, -⟩ := List.findIdx?_eq_some_iff_getElem.mp h
  exact h

theorem State.Ready.canIssue {s : State} {k g i p : Nat} {w : StepWord} (h : s.Ready k g w i p) :
    s.canIssue k g w = some (i, p) := by
  obtain ⟨h1, h2, h3, h4, h5, h6⟩ := h
  simp [State.canIssue, h1, h2, h3, h4, h5, h6]

theorem State.Ready.lt {s : State} {k g i p : Nat} {w : StepWord} (h : s.Ready k g w i p) : i < s.cells.length :=
  s.posOf_lt h.1

/-- A step that is ready runs on the state in which it has been issued. -/
theorem State.Ready.issue {s : State} {k g i p : Nat} {w : StepWord} (h : s.Ready k g w i p)
    (f : Nat → Nat → State → State) : s.issue k g w f = f i p (s.putCell i (s.cell i).issued) := by
  simp only [State.issue, h.canIssue, State.advance, State.modCell_eq_putCell]
  rfl
end

/-! ## Cells after a change of a context or a counter -/

section
variable (c : Cell) (k : Cls) (x y : Ctx) (f : CellCnt → CellCnt)
@[simp] theorem Cell.setCtx_st : (c.setCtx k x).st = c.st := by cases k <;> rfl
@[simp] theorem Cell.setCur_st : (c.setCur x).st = c.st := by simp [Cell.setCur]
@[simp] theorem Cell.setCtx_logical : (c.setCtx k x).logical = c.logical := by cases k <;> rfl
@[simp] theorem Cell.setCur_logical : (c.setCur x).logical = c.logical := by simp [Cell.setCur]
@[simp] theorem Cell.setCtx_part : (c.setCtx k x).part = c.part := by cases k <;> rfl
@[simp] theorem Cell.setCur_part : (c.setCur x).part = c.part := by simp [Cell.setCur]
@[simp] theorem Cell.setCtx_job : (c.setCtx k x).job = c.job := by cases k <;> rfl
@[simp] theorem Cell.setCur_job : (c.setCur x).job = c.job := by simp [Cell.setCur]
@[simp] theorem Cell.setCtx_susp : (c.setCtx k x).susp = c.susp := by cases k <;> rfl
@[simp] theorem Cell.setCur_susp : (c.setCur x).susp = c.susp := by simp [Cell.setCur]
@[simp] theorem Cell.setCtx_startQ : (c.setCtx k x).startQ = c.startQ := by cases k <;> rfl
@[simp] theorem Cell.setCur_startQ : (c.setCur x).startQ = c.startQ := by simp [Cell.setCur]
@[simp] theorem Cell.setCtx_held : (c.setCtx k x).held = c.held := by cases k <;> rfl
@[simp] theorem Cell.setCur_held : (c.setCur x).held = c.held := by simp [Cell.setCur]
@[simp] theorem Cell.setCtx_layer : (c.setCtx k x).layer = c.layer := by cases k <;> rfl
@[simp] theorem Cell.setCur_layer : (c.setCur x).layer = c.layer := by simp [Cell.setCur]
@[simp] theorem Cell.setCtx_comp : (c.setCtx k x).comp = c.comp := by cases k <;> rfl
@[simp] theorem Cell.setCur_comp : (c.setCur x).comp = c.comp := by simp [Cell.setCur]
@[simp] theorem Cell.setCtx_scratch : (c.setCtx k x).scratch = c.scratch := by cases k <;> rfl
@[simp] theorem Cell.setCur_scratch : (c.setCur x).scratch = c.scratch := by simp [Cell.setCur]
@[simp] theorem Cell.setCtx_readBuf : (c.setCtx k x).readBuf = c.readBuf := by cases k <;> rfl
@[simp] theorem Cell.setCur_readBuf : (c.setCur x).readBuf = c.readBuf := by simp [Cell.setCur]
@[simp] theorem Cell.setCtx_open_ : (c.setCtx k x).open_ = c.open_ := by cases k <;> rfl
@[simp] theorem Cell.setCur_open_ : (c.setCur x).open_ = c.open_ := by simp [Cell.setCur]
@[simp] theorem Cell.setCtx_written : (c.setCtx k x).written = c.written := by cases k <;> rfl
@[simp] theorem Cell.setCur_written : (c.setCur x).written = c.written := by simp [Cell.setCur]
@[simp] theorem Cell.setCtx_markers : (c.setCtx k x).markers = c.markers := by cases k <;> rfl
@[simp] theorem Cell.setCur_markers : (c.setCur x).markers = c.markers := by simp [Cell.setCur]
@[simp] theorem Cell.setCtx_img : (c.setCtx k x).img = c.img := by cases k <;> rfl
@[simp] theorem Cell.setCur_img : (c.setCur x).img = c.img := by simp [Cell.setCur]
@[simp] theorem Cell.setCtx_port : (c.setCtx k x).port = c.port := by cases k <;> rfl
@[simp] theorem Cell.setCur_port : (c.setCur x).port = c.port := by simp [Cell.setCur]
@[simp] theorem Cell.setCtx_fault : (c.setCtx k x).fault = c.fault := by cases k <;> rfl
@[simp] theorem Cell.setCur_fault : (c.setCur x).fault = c.fault := by simp [Cell.setCur]
@[simp] theorem Cell.setCtx_cnt : (c.setCtx k x).cnt = c.cnt := by cases k <;> rfl
@[simp] theorem Cell.setCur_cnt : (c.setCur x).cnt = c.cnt := by simp [Cell.setCur]
@[simp] theorem Cell.setCtx_freeze : (c.setCtx k x).freeze = c.freeze := by cases k <;> rfl
@[simp] theorem Cell.setCur_freeze : (c.setCur x).freeze = c.freeze := by simp [Cell.setCur]
@[simp] theorem Cell.setCtx_mhz : (c.setCtx k x).mhz = c.mhz := by cases k <;> rfl
@[simp] theorem Cell.setCur_mhz : (c.setCur x).mhz = c.mhz := by simp [Cell.setCur]
@[simp] theorem Cell.setCtx_ceil : (c.setCtx k x).ceil = c.ceil := by cases k <;> rfl
@[simp] theorem Cell.setCur_ceil : (c.setCur x).ceil = c.ceil := by simp [Cell.setCur]
@[simp] theorem Cell.setCtx_mv : (c.setCtx k x).mv = c.mv := by cases k <;> rfl
@[simp] theorem Cell.setCur_mv : (c.setCur x).mv = c.mv := by simp [Cell.setCur]
@[simp] theorem Cell.setCtx_pend : (c.setCtx k x).pend = c.pend := by cases k <;> rfl
@[simp] theorem Cell.setCur_pend : (c.setCur x).pend = c.pend := by simp [Cell.setCur]
@[simp] theorem Cell.count_st : (c.count f).st = c.st := by unfold Cell.count; split <;> rfl
@[simp] theorem Cell.count_logical : (c.count f).logical = c.logical := by unfold Cell.count; split <;> rfl
@[simp] theorem Cell.count_part : (c.count f).part = c.part := by unfold Cell.count; split <;> rfl
@[simp] theorem Cell.count_lc : (c.count f).lc = c.lc := by unfold Cell.count; split <;> rfl
@[simp] theorem Cell.count_be : (c.count f).be = c.be := by unfold Cell.count; split <;> rfl
@[simp] theorem Cell.count_job : (c.count f).job = c.job := by unfold Cell.count; split <;> rfl
@[simp] theorem Cell.count_susp : (c.count f).susp = c.susp := by unfold Cell.count; split <;> rfl
@[simp] theorem Cell.count_startQ : (c.count f).startQ = c.startQ := by unfold Cell.count; split <;> rfl
@[simp] theorem Cell.count_held : (c.count f).held = c.held := by unfold Cell.count; split <;> rfl
@[simp] theorem Cell.count_layer : (c.count f).layer = c.layer := by unfold Cell.count; split <;> rfl
@[simp] theorem Cell.count_comp : (c.count f).comp = c.comp := by unfold Cell.count; split <;> rfl
@[simp] theorem Cell.count_scratch : (c.count f).scratch = c.scratch := by unfold Cell.count; split <;> rfl
@[simp] theorem Cell.count_readBuf : (c.count f).readBuf = c.readBuf := by unfold Cell.count; split <;> rfl
@[simp] theorem Cell.count_open_ : (c.count f).open_ = c.open_ := by unfold Cell.count; split <;> rfl
@[simp] theorem Cell.count_written : (c.count f).written = c.written := by unfold Cell.count; split <;> rfl
@[simp] theorem Cell.count_markers : (c.count f).markers = c.markers := by unfold Cell.count; split <;> rfl
@[simp] theorem Cell.count_img : (c.count f).img = c.img := by unfold Cell.count; split <;> rfl
@[simp] theorem Cell.count_port : (c.count f).port = c.port := by unfold Cell.count; split <;> rfl
@[simp] theorem Cell.count_fault : (c.count f).fault = c.fault := by unfold Cell.count; split <;> rfl
@[simp] theorem Cell.count_freeze : (c.count f).freeze = c.freeze := by unfold Cell.count; split <;> rfl
@[simp] theorem Cell.count_mhz : (c.count f).mhz = c.mhz := by unfold Cell.count; split <;> rfl
@[simp] theorem Cell.count_ceil : (c.count f).ceil = c.ceil := by unfold Cell.count; split <;> rfl
@[simp] theorem Cell.count_mv : (c.count f).mv = c.mv := by unfold Cell.count; split <;> rfl
@[simp] theorem Cell.count_pend : (c.count f).pend = c.pend := by unfold Cell.count; split <;> rfl
@[simp] theorem Cell.setCtx_ctx : (c.setCtx k x).ctx k = x := by cases k <;> rfl
@[simp] theorem Cell.setCtx_setCtx : (c.setCtx k x).setCtx k y = c.setCtx k y := by cases k <;> rfl
@[simp] theorem Cell.count_ctx : (c.count f).ctx k = c.ctx k := by cases k <;> simp [Cell.ctx]
@[simp] theorem Cell.setCur_cls : (c.setCur x).cls = c.cls := by simp [Cell.cls]
@[simp] theorem Cell.count_cls : (c.count f).cls = c.cls := by simp [Cell.cls]
@[simp] theorem Cell.setCur_cur : (c.setCur x).cur = x := by simp [Cell.cur, Cell.setCur, Cell.cls]
@[simp] theorem Cell.count_cur : (c.count f).cur = c.cur := by simp [Cell.cur, Cell.cls]
@[simp] theorem Cell.setCur_setCur : (c.setCur x).setCur y = c.setCur y := by simp [Cell.setCur, Cell.cls]
theorem Cell.count_setCtx : (c.count f).setCtx k x = (c.setCtx k x).count f := by
  cases hf : c.freeze <;> cases k <;> simp [Cell.count, Cell.setCtx, hf]
theorem Cell.count_setCur : (c.count f).setCur x = (c.setCur x).count f := by
  simp [Cell.setCur, Cell.count_setCtx]
end

section
variable (c : Cell)
@[simp] theorem Cell.issued_st : c.issued.st = c.st := by simp [Cell.issued]
@[simp] theorem Cell.withScalar_st (n : Nat) (v : Word) : (c.withScalar n v).st = c.st := by simp [Cell.withScalar]
@[simp] theorem Cell.issued_logical : c.issued.logical = c.logical := by simp [Cell.issued]
@[simp] theorem Cell.withScalar_logical (n : Nat) (v : Word) : (c.withScalar n v).logical = c.logical := by simp [Cell.withScalar]
@[simp] theorem Cell.issued_part : c.issued.part = c.part := by simp [Cell.issued]
@[simp] theorem Cell.withScalar_part (n : Nat) (v : Word) : (c.withScalar n v).part = c.part := by simp [Cell.withScalar]
@[simp] theorem Cell.issued_job : c.issued.job = c.job := by simp [Cell.issued]
@[simp] theorem Cell.withScalar_job (n : Nat) (v : Word) : (c.withScalar n v).job = c.job := by simp [Cell.withScalar]
@[simp] theorem Cell.issued_susp : c.issued.susp = c.susp := by simp [Cell.issued]
@[simp] theorem Cell.withScalar_susp (n : Nat) (v : Word) : (c.withScalar n v).susp = c.susp := by simp [Cell.withScalar]
@[simp] theorem Cell.issued_startQ : c.issued.startQ = c.startQ := by simp [Cell.issued]
@[simp] theorem Cell.withScalar_startQ (n : Nat) (v : Word) : (c.withScalar n v).startQ = c.startQ := by simp [Cell.withScalar]
@[simp] theorem Cell.issued_held : c.issued.held = c.held := by simp [Cell.issued]
@[simp] theorem Cell.withScalar_held (n : Nat) (v : Word) : (c.withScalar n v).held = c.held := by simp [Cell.withScalar]
@[simp] theorem Cell.issued_layer : c.issued.layer = c.layer := by simp [Cell.issued]
@[simp] theorem Cell.withScalar_layer (n : Nat) (v : Word) : (c.withScalar n v).layer = c.layer := by simp [Cell.withScalar]
@[simp] theorem Cell.issued_comp : c.issued.comp = c.comp := by simp [Cell.issued]
@[simp] theorem Cell.withScalar_comp (n : Nat) (v : Word) : (c.withScalar n v).comp = c.comp := by simp [Cell.withScalar]
@[simp] theorem Cell.issued_scratch : c.issued.scratch = c.scratch := by simp [Cell.issued]
@[simp] theorem Cell.withScalar_scratch (n : Nat) (v : Word) : (c.withScalar n v).scratch = c.scratch := by simp [Cell.withScalar]
@[simp] theorem Cell.issued_readBuf : c.issued.readBuf = c.readBuf := by simp [Cell.issued]
@[simp] theorem Cell.withScalar_readBuf (n : Nat) (v : Word) : (c.withScalar n v).readBuf = c.readBuf := by simp [Cell.withScalar]
@[simp] theorem Cell.issued_open_ : c.issued.open_ = c.open_ := by simp [Cell.issued]
@[simp] theorem Cell.withScalar_open_ (n : Nat) (v : Word) : (c.withScalar n v).open_ = c.open_ := by simp [Cell.withScalar]
@[simp] theorem Cell.issued_written : c.issued.written = c.written := by simp [Cell.issued]
@[simp] theorem Cell.withScalar_written (n : Nat) (v : Word) : (c.withScalar n v).written = c.written := by simp [Cell.withScalar]
@[simp] theorem Cell.issued_markers : c.issued.markers = c.markers := by simp [Cell.issued]
@[simp] theorem Cell.withScalar_markers (n : Nat) (v : Word) : (c.withScalar n v).markers = c.markers := by simp [Cell.withScalar]
@[simp] theorem Cell.issued_img : c.issued.img = c.img := by simp [Cell.issued]
@[simp] theorem Cell.withScalar_img (n : Nat) (v : Word) : (c.withScalar n v).img = c.img := by simp [Cell.withScalar]
@[simp] theorem Cell.issued_port : c.issued.port = c.port := by simp [Cell.issued]
@[simp] theorem Cell.withScalar_port (n : Nat) (v : Word) : (c.withScalar n v).port = c.port := by simp [Cell.withScalar]
@[simp] theorem Cell.issued_fault : c.issued.fault = c.fault := by simp [Cell.issued]
@[simp] theorem Cell.withScalar_fault (n : Nat) (v : Word) : (c.withScalar n v).fault = c.fault := by simp [Cell.withScalar]
@[simp] theorem Cell.issued_freeze : c.issued.freeze = c.freeze := by simp [Cell.issued]
@[simp] theorem Cell.withScalar_freeze (n : Nat) (v : Word) : (c.withScalar n v).freeze = c.freeze := by simp [Cell.withScalar]
@[simp] theorem Cell.issued_mhz : c.issued.mhz = c.mhz := by simp [Cell.issued]
@[simp] theorem Cell.withScalar_mhz (n : Nat) (v : Word) : (c.withScalar n v).mhz = c.mhz := by simp [Cell.withScalar]
@[simp] theorem Cell.issued_ceil : c.issued.ceil = c.ceil := by simp [Cell.issued]
@[simp] theorem Cell.withScalar_ceil (n : Nat) (v : Word) : (c.withScalar n v).ceil = c.ceil := by simp [Cell.withScalar]
@[simp] theorem Cell.issued_mv : c.issued.mv = c.mv := by simp [Cell.issued]
@[simp] theorem Cell.withScalar_mv (n : Nat) (v : Word) : (c.withScalar n v).mv = c.mv := by simp [Cell.withScalar]
@[simp] theorem Cell.issued_pend : c.issued.pend = c.pend := by simp [Cell.issued]
@[simp] theorem Cell.withScalar_pend (n : Nat) (v : Word) : (c.withScalar n v).pend = c.pend := by simp [Cell.withScalar]
@[simp] theorem Cell.issued_cls : c.issued.cls = c.cls := by simp [Cell.issued]
@[simp] theorem Cell.issued_cur : c.issued.cur = { c.cur with step := c.cur.step + 1 } := by simp [Cell.issued]
@[simp] theorem Cell.withScalar_cls (n : Nat) (v : Word) : (c.withScalar n v).cls = c.cls := by simp [Cell.withScalar]
@[simp] theorem Cell.withScalar_cur (n : Nat) (v : Word) : (c.withScalar n v).cur = c.cur.setScalar n v := by
  simp [Cell.withScalar]
end

end Sys2Proof.Machine
end

