-- ==== Sys2Proof/Laws/Store.lean ====
section
/-! SUPPORT. Stores: every operation keeps the canonical form; a read after a write. -/
set_option Elab.async false
namespace Sys2Proof.Machine

/-- Strictly rising, as a relation. -/
theorem rising_iff (l : List Nat) : rising l = true ↔ l.Pairwise (· < ·) := by
  induction l with
  | nil => simp [rising]
  | cons a l ih =>
    cases l with
    | nil => simp [rising]
    | cons b l =>
      simp only [rising, Bool.and_eq_true, decide_eq_true_eq, ih, List.pairwise_cons]
      constructor
      · rintro ⟨h, hb, hl⟩
        refine ⟨fun x hx => ?_, hb, hl⟩
        rcases List.mem_cons.1 hx with rfl | hx
        · exact h
        · exact h.trans (hb x hx)
      · rintro ⟨h, hb, hl⟩
        exact ⟨h b (by simp), hb, hl⟩

theorem cellsFrom_mem {a : Nat} {b : Bytes} {c : Host.Cell} (h : c ∈ cellsFrom a b) :
    a ≤ c.1 ∧ c.1 < a + b.length ∧ c.2 ≠ 0 := by
  induction b generalizing a with
  | nil => simp [cellsFrom] at h
  | cons x l ih =>
    unfold cellsFrom at h
    split at h
    · obtain ⟨h1, h2, h3⟩ := ih h
      exact ⟨by omega, by simp only [List.length_cons]; omega, h3⟩
    · rcases List.mem_cons.1 h with rfl | h
      · refine ⟨le_refl _, by simp, ‹_›⟩
      · obtain ⟨h1, h2, h3⟩ := ih h
        exact ⟨by omega, by simp only [List.length_cons]; omega, h3⟩

theorem cellsFrom_rising (a : Nat) (b : Bytes) : ((cellsFrom a b).map Prod.fst).Pairwise (· < ·) := by
  induction b generalizing a with
  | nil => simp [cellsFrom]
  | cons x l ih =>
    unfold cellsFrom
    split
    · exact ih _
    · simp only [List.map_cons, List.pairwise_cons]
      refine ⟨fun y hy => ?_, ih _⟩
      obtain ⟨c, hc, rfl⟩ := List.mem_map.1 hy
      have := (cellsFrom_mem hc).1; omega

/-- The canonical form, spelled out. -/
theorem Store.wf_iff (st : Store) : st.wf = true ↔
    (st.bytes.map Prod.fst).Pairwise (· < ·) ∧ (∀ c ∈ st.bytes, c.2 ≠ 0) ∧ st.poison.Pairwise (· < ·) := by
  simp [Store.wf, rising_iff, and_assoc]

theorem Store.wf_empty : Store.empty.wf = true := by decide

theorem map_fst_filter_pairwise {l : List Host.Cell} (p : Host.Cell → Bool) (h : (l.map Prod.fst).Pairwise (· < ·)) :
    ((l.filter p).map Prod.fst).Pairwise (· < ·) := h.sublist (List.filter_sublist.map _)

/-- Writing keeps the canonical form. -/
theorem Store.wf_write {u : Nat} {st : Store} {a : Nat} {d : Data} (h : st.wf = true) : (st.write u a d).wf = true := by
  unfold Store.write
  split
  · exact h
  rw [Store.wf_iff] at h ⊢
  obtain ⟨h1, h2, h3⟩ := h
  have hlen : d.bytes.length = d.length := by simp [Data.bytes]
  refine ⟨?_, ?_, ?_⟩
  · simp only [List.map_append, List.pairwise_append, map_fst_filter_pairwise _ h1, cellsFrom_rising, true_and]
    refine ⟨fun x hx y hy => ?_, fun x hx y hy => ?_⟩
    · obtain ⟨c, hc, rfl⟩ := List.mem_map.1 hx
      obtain ⟨e, he, rfl⟩ := List.mem_map.1 hy
      have := (cellsFrom_mem he).1
      have hc2 := (List.mem_filter.1 hc).2; simp at hc2; omega
    · obtain ⟨e, he, rfl⟩ := List.mem_map.1 hy
      have he2 := (List.mem_filter.1 he).2; simp at he2
      rcases List.mem_append.1 hx with hx | hx
      · obtain ⟨c, hc, rfl⟩ := List.mem_map.1 hx
        have hc2 := (List.mem_filter.1 hc).2; simp at hc2; omega
      · obtain ⟨c, hc, rfl⟩ := List.mem_map.1 hx
        have := (cellsFrom_mem hc).2.1; omega
  · intro c hc
    simp only [List.mem_append] at hc
    rcases hc with (hc | hc) | hc
    · exact h2 c (List.mem_filter.1 hc).1
    · exact (cellsFrom_mem hc).2.2
    · exact h2 c (List.mem_filter.1 hc).1
  · have hr : ∀ n : Nat, ((List.range n).map (a / u + ·)).Pairwise (· < ·) := fun n =>
      List.pairwise_map.2 (List.pairwise_lt_range.imp fun hab => by omega)
    simp only [List.pairwise_append, h3.filter, (hr _).filter, true_and]
    refine ⟨fun x hx y hy => ?_, fun x hx y hy => ?_⟩
    · have h1 := (List.mem_filter.1 hx).2; simp at h1
      obtain ⟨k, _, rfl⟩ := List.mem_map.1 (List.mem_filter.1 hy).1
      omega
    · have h2 := (List.mem_filter.1 hy).2; simp at h2
      rcases List.mem_append.1 hx with hx | hx
      · have h1 := (List.mem_filter.1 hx).2; simp at h1
        have : a / u ≤ (a + d.length - 1) / u := Nat.div_le_div_right (by
          cases d with
          | nil => simp at *
          | cons _ _ => simp)
        omega
      · obtain ⟨k, hk, rfl⟩ := List.mem_map.1 (List.mem_filter.1 hx).1
        have := List.mem_range.1 hk; omega

/-- Setting or clearing a mark keeps the canonical form. -/
theorem Store.wf_setMark {st : Store} {x : Nat} {m : Bool} (h : st.wf = true) : (st.setMark x m).wf = true := by
  rw [Store.wf_iff] at h ⊢
  obtain ⟨h1, h2, h3⟩ := h
  refine ⟨h1, h2, ?_⟩
  unfold Store.setMark
  have hp : (if m then [x] else []).Pairwise (· < ·) := by split <;> simp
  simp only [List.pairwise_append, h3.filter, hp, true_and]
  refine ⟨fun y hy z hz => ?_, fun y hy z hz => ?_⟩
  · have h1 := (List.mem_filter.1 hy).2
    split at hz
    · simp at hz h1; omega
    · simp at hz
  · have h2 := (List.mem_filter.1 hz).2
    rcases List.mem_append.1 hy with hy | hy
    · have h1 := (List.mem_filter.1 hy).2; simp at h1 h2; omega
    · split at hy
      · simp at hy h2; omega
      · simp at hy

/-- Forgetting a range keeps the canonical form. -/
theorem Store.wf_erase {u : Nat} {st : Store} {a n : Nat} (h : st.wf = true) : (st.erase u a n).wf = true := by
  rw [Store.wf_iff] at h ⊢
  obtain ⟨h1, h2, h3⟩ := h
  exact ⟨map_fst_filter_pairwise _ h1, fun c hc => h2 c (List.mem_filter.1 hc).1, h3.filter _⟩

/-- Putting other marks in place that also rise keeps the canonical form. -/
theorem Store.wf_marks {st : Store} {l : List Nat} (h : st.wf = true) (hl : rising l = true) :
    ({ st with poison := l } : Store).wf = true := by
  rw [Store.wf_iff] at h ⊢
  exact ⟨h.1, h.2.1, (rising_iff l).1 hl⟩

theorem Store.wf_rising {st : Store} (h : st.wf = true) : rising st.poison = true := by
  rw [Store.wf_iff] at h; exact (rising_iff _).2 h.2.2

/-! ## Reading after an update -/

theorem find_cellsFrom (a x : Nat) (b : Bytes) :
    ((cellsFrom a b).find? (fun c => c.1 == x)).elim 0 Prod.snd = if a ≤ x ∧ x < a + b.length then b.getD (x - a) 0 else 0 := by
  induction b generalizing a with
  | nil => simp [cellsFrom]
  | cons y l ih =>
    unfold cellsFrom
    by_cases hy : y = 0
    · rw [if_pos hy, ih]
      by_cases h : a = x
      · subst h; simp [hy]
      · by_cases h1 : a ≤ x
        · obtain ⟨k, rfl⟩ : ∃ k, x = a + 1 + k := ⟨x - (a + 1), by omega⟩
          have e1 : a + 1 + k - (a + 1) = k := by omega
          have e2 : a + 1 + k - a = k + 1 := by omega
          rw [e1, e2]
          simp only [List.length_cons, List.getD_cons_succ]
          congr 1
          apply propext; omega
        · rw [if_neg (by omega), if_neg (by simp; omega)]
    · rw [if_neg hy]
      by_cases h : a = x
      · subst h; simp
      · have hb : (a == x) = false := by simpa using h
        rw [List.find?_cons_of_neg (by simpa using h), ih]
        by_cases h1 : a ≤ x
        · obtain ⟨k, rfl⟩ : ∃ k, x = a + 1 + k := ⟨x - (a + 1), by omega⟩
          have e1 : a + 1 + k - (a + 1) = k := by omega
          have e2 : a + 1 + k - a = k + 1 := by omega
          rw [e1, e2]
          simp only [List.length_cons, List.getD_cons_succ]
          congr 1
          apply propext; omega
        · rw [if_neg (by omega), if_neg (by simp; omega)]

theorem Store.get_elim (st : Store) (x : Nat) : st.get x = (st.bytes.find? (fun c => c.1 == x)).elim 0 Prod.snd := by
  unfold Store.get
  cases st.bytes.find? (fun c => c.1 == x) <;> rfl

theorem find_filter_pos {l : List Host.Cell} {p : Host.Cell → Bool} {x : Nat} (h : ∀ c : Host.Cell, c.1 = x → p c = true) :
    (l.filter p).find? (fun c => c.1 == x) = l.find? (fun c => c.1 == x) := by
  rw [List.find?_filter]
  congr 1
  funext c
  by_cases e : c.1 = x
  · simp [e, h c e]
  · simp [e]

theorem find_filter_neg {l : List Host.Cell} {p : Host.Cell → Bool} {x : Nat} (h : ∀ c : Host.Cell, c.1 = x → p c = false) :
    (l.filter p).find? (fun c => c.1 == x) = none := by
  rw [List.find?_eq_none]
  intro c hc
  simp only [List.mem_filter] at hc
  intro e
  have := h c (by simpa using e)
  simp_all

/-- A byte read after a write: the byte written, or what was there before. -/
theorem Store.get_write (u : Nat) (st : Store) (a : Nat) (d : Data) (x : Nat) :
    (st.write u a d).get x = if a ≤ x ∧ x < a + d.length then d.bytes.getD (x - a) 0 else st.get x := by
  have hl : d.bytes.length = d.length := by simp [Data.bytes]
  unfold Store.write
  split
  · rename_i h
    simp only [List.isEmpty_iff] at h
    subst h
    rw [if_neg (by rw [List.length_nil]; omega)]
  · rw [Store.get_elim, Store.get_elim]
    simp only [List.find?_append]
    have hf := find_cellsFrom a x d.bytes
    rw [hl] at hf
    by_cases h1 : x < a
    · rw [if_neg (by omega), find_filter_pos (x := x) (by intro c hc; simpa [hc] using h1)]
      have : (cellsFrom a d.bytes).find? (fun c => c.1 == x) = none := by
        rw [List.find?_eq_none]; intro c hc e
        have := (cellsFrom_mem hc).1
        simp only [beq_iff_eq] at e; omega
      rw [this, find_filter_neg (l := st.bytes) (p := fun c => decide (a + d.length ≤ c.1)) (by intro c hc; simp [hc]; omega)]
      simp
    · rw [find_filter_neg (l := st.bytes) (p := fun c => decide (c.1 < a)) (by intro c hc; simp [hc]; omega)]
      by_cases h2 : x < a + d.length
      · rw [if_pos (by omega)] at hf ⊢
        rw [find_filter_neg (l := st.bytes) (p := fun c => decide (a + d.length ≤ c.1)) (by intro c hc; simp [hc]; omega)]
        simpa using hf
      · rw [if_neg (by omega)]
        rw [find_filter_pos (l := st.bytes) (p := fun c => decide (a + d.length ≤ c.1)) (by intro c hc; simp [hc]; omega)]
        have : (cellsFrom a d.bytes).find? (fun c => c.1 == x) = none := by
          rw [List.find?_eq_none]; intro c hc e
          have := (cellsFrom_mem hc).2.1
          simp only [beq_iff_eq] at e; omega
        rw [this]
        simp

/-- A mark after a write: that of the unit where the write reaches it, else what it was. -/
theorem Store.isMarked_write (u : Nat) (st : Store) (a : Nat) (d : Data) (x : Nat) (h : d ≠ []) :
    (st.write u a d).isMarked x =
      if a / u ≤ x ∧ x ≤ (a + d.length - 1) / u then st.markAfter u a d x else st.isMarked x := by
  have he : d.isEmpty = false := by cases d <;> simp_all
  have hle : a / u ≤ (a + d.length - 1) / u := by
    apply Nat.div_le_div_right
    have : 0 < d.length := by cases d <;> simp_all
    omega
  simp only [Store.write, he, Bool.false_eq_true, if_false, Store.isMarked]
  rw [Bool.eq_iff_iff]
  simp only [List.contains_iff_mem, List.mem_append, List.mem_filter, List.mem_map, List.mem_range]
  by_cases h1 : a / u ≤ x ∧ x ≤ (a + d.length - 1) / u
  · rw [if_pos h1]
    constructor
    · rintro ((⟨_, h2⟩ | ⟨_, h2⟩) | ⟨_, h2⟩)
      · simp at h2; omega
      · exact h2
      · simp at h2; omega
    · intro h2
      exact Or.inl (Or.inr ⟨⟨x - a / u, by omega, by omega⟩, h2⟩)
  · rw [if_neg h1]
    constructor
    · rintro ((⟨h2, _⟩ | ⟨⟨k, h2, h3⟩, _⟩) | ⟨h2, _⟩)
      · simpa using h2
      · omega
      · simpa using h2
    · intro h2
      have h2 : x ∈ st.poison := by simpa using h2
      by_cases h3 : x < a / u
      · exact Or.inl (Or.inl ⟨h2, by simpa using h3⟩)
      · exact Or.inr ⟨h2, by simp; omega⟩

/-- Reading bytes one by one. -/
theorem Store.read_eq (u : Nat) (st : Store) (a n : Nat) :
    st.read u a n = (List.range n).map fun i => (st.get (a + i), st.isMarked ((a + i) / u)) := by
  simp only [Store.read]
  apply List.map_congr_left
  intro i hi
  simp only [List.mem_range] at hi
  congr 1
  · rw [Store.get_elim, Store.get_elim, find_filter_pos]
    intro c hc
    simp [hc]
    omega

@[simp] theorem Store.read_length (u : Nat) (st : Store) (a n : Nat) : (st.read u a n).length = n := by simp [Store.read]

end Sys2Proof.Machine
end

