-- ==== Sys2Proof/Laws/Keeps.lean ====
section
/-! SUPPORT. One relation that every shared operation satisfies: the queue and the part stay, and the invariant is kept. -/
set_option Elab.async false
namespace Sys2Proof.Machine

/-- What every operation keeps: the queue of commands, the part, and the invariant. -/
def Keeps (s t : State) : Prop := t.pending = s.pending ∧ t.model = s.model ∧ (s.Inv → t.Inv)

theorem Keeps.refl (s : State) : Keeps s s := ⟨rfl, rfl, id⟩

theorem Keeps.ofId (s : State) : Keeps s (id s) := ⟨rfl, rfl, fun h => h⟩

theorem Keeps.trans {s t u : State} (h : Keeps s t) (k : Keeps t u) : Keeps s u :=
  ⟨k.1.trans h.1, k.2.1.trans h.2.1, fun i => k.2.2 (h.2.2 i)⟩

theorem Keeps.after {s t u : State} (k : Keeps t u) (h : Keeps s t) : Keeps s u := h.trans k

/-- What every meaning keeps. -/
def KeepsO (s : State) (o : Host.Outcome State Fault Refusal) : Prop := ∀ t, o = .next t → Keeps s t

theorem KeepsO.next {s t : State} (h : Keeps s t) : KeepsO s (.next t) := by
  intro u hu; cases hu; exact h

theorem KeepsO.ite {s : State} {a b : Host.Outcome State Fault Refusal} {c : Prop} [Decidable c] (h : KeepsO s a)
    (k : KeepsO s b) : KeepsO s (if c then a else b) := by
  split
  · exact h
  · exact k

/-- What the relation looks at. -/
def State.core (s : State) :=
  (s.pending, s.model, s.mem, s.host, s.cells, s.dies.length, s.engines.length, s.carts.bays.length,
    s.net.ports.length, s.parts.length, s.tsvc.length, s.xlt.length, s.ces.length)

theorem Keeps.of_core {s t : State} (h : t.core = s.core) : Keeps s t := by
  simp only [State.core, Prod.mk.injEq] at h
  obtain ⟨h1, h2, h3, h4, h5, h6, h7, h8, h9, h10, h11, h12, h13⟩ := h
  refine ⟨h1, h2, fun ⟨f, c⟩ => ⟨⟨?_, ?_, ?_, ?_, ?_, ?_, ?_, ?_, ?_, ?_⟩, ⟨?_, ?_, ?_⟩⟩⟩
  · rw [h2]; exact f.model
  · rw [h2, h5]; exact f.cells
  · rw [h2, h6]; exact f.dies
  · rw [h2, h7]; exact f.engines
  · rw [h2, h8]; exact f.bays
  · rw [h2, h9]; exact f.ports
  · rw [h10]; exact f.parts
  · rw [h11]; exact f.tsvc
  · rw [h12]; exact f.xlt
  · rw [h13]; exact f.ces
  · rw [h3]; exact c.mem
  · rw [h4]; exact c.host
  · rw [h5]; exact c.cells

theorem Keeps.of_pair {α : Type} {s t : State} {a : α} {p : α × State} (h : p = (a, t)) (k : Keeps s p.2) : Keeps s t := by
  subst h; exact k

theorem Keeps.of_pair3 {α β : Type} {s t : State} {a : α} {b : β} {p : α × β × State} (h : p = (a, b, t))
    (k : Keeps s p.2.2) : Keeps s t := by
  subst h; exact k

theorem Keeps.of_pair4 {α β γ : Type} {s t : State} {a : α} {b : β} {c : γ} {p : α × β × γ × State} (h : p = (a, b, c, t))
    (k : Keeps s p.2.2.2) : Keeps s t := by
  subst h; exact k

theorem Keeps.of_pairL {α β : Type} {s t : State} {a : α} {b : β} {p : (α × β) × State} (h : p = ((a, b), t))
    (k : Keeps s p.2) : Keeps s t := by
  subst h; exact k

theorem Keeps.ite {s : State} {a b : State} {c : Prop} [Decidable c] (h : Keeps s a) (k : Keeps s b) :
    Keeps s (if c then a else b) := by
  split
  · exact h
  · exact k

theorem Keeps.ite2 {α : Type} {s : State} {a b : α × State} {c : Prop} [Decidable c] (h : Keeps s a.2) (k : Keeps s b.2) :
    Keeps s (if c then a else b).2 := by
  split
  · exact h
  · exact k

theorem Keeps.ite3 {α β : Type} {s : State} {a b : α × β × State} {c : Prop} [Decidable c] (h : Keeps s a.2.2) (k : Keeps s b.2.2) :
    Keeps s (if c then a else b).2.2 := by
  split
  · exact h
  · exact k

theorem Keeps.ite4 {α β γ : Type} {s : State} {a b : α × β × γ × State} {c : Prop} [Decidable c] (h : Keeps s a.2.2.2) (k : Keeps s b.2.2.2) :
    Keeps s (if c then a else b).2.2.2 := by
  split
  · exact h
  · exact k

theorem Keeps.cut {s : State} {P : Prop} (x : State) (h : Keeps s x) (k : Keeps s x → P) : P := k h

theorem Keeps.foldl {α : Type} {s : State} {l : List α} {f : State → α → State} (h : ∀ t a, Keeps t (f t a)) :
    Keeps s (l.foldl f s) := by
  induction l generalizing s with
  | nil => exact .refl s
  | cons a l ih => exact (h s a).trans ih

theorem Keeps.foldlFrom {α : Type} {s t : State} {l : List α} {f : State → α → State} (k : Keeps s t)
    (h : ∀ t a, Keeps t (f t a)) : Keeps s (l.foldl f t) := k.trans (.foldl h)

/-- What an operation on a cell keeps. -/
def Cell.Keeps (c d : Cell) : Prop := c.Canon → d.Canon

theorem Cell.Keeps.refl (c : Cell) : Cell.Keeps c c := id
theorem Cell.Keeps.trans {c d e : Cell} (h : Cell.Keeps c d) (k : Cell.Keeps d e) : Cell.Keeps c e := k ∘ h

theorem Cell.Keeps.after {c d e : Cell} (k : Cell.Keeps d e) (h : Cell.Keeps c d) : Cell.Keeps c e := k ∘ h

theorem Cell.Keeps.ite {s a b : Cell} {c : Prop} [Decidable c] (h : Cell.Keeps s a) (k : Cell.Keeps s b) :
    Cell.Keeps s (if c then a else b) := by
  split
  · exact h
  · exact k

theorem compute_fresh_wf : Compute.fresh.tiles.wf = true ∧ Compute.fresh.stat.wf = true ∧ Compute.fresh.scales.wf = true := by
  refine ⟨rfl, rfl, rfl⟩

/-- A scratchpad kept or emptied and compute registers kept or cleared. -/
theorem Cell.Keeps.of {c d : Cell} (h1 : d.scratch = c.scratch ∨ d.scratch = .empty)
    (h2 : d.comp = c.comp ∨ d.comp = .fresh) : Cell.Keeps c d := by
  intro h
  unfold Cell.Canon
  refine ⟨?_, ?_⟩
  · rcases h1 with h1 | h1 <;> rw [h1]
    · exact h.1
    · rfl
  · rcases h2 with h2 | h2 <;> rw [h2]
    · exact h.2
    · exact compute_fresh_wf

theorem canon_map {l : List Cell} {f : Cell → Cell} (h : ∀ c, Cell.Keeps c (f c)) (hl : ∀ c ∈ l, c.Canon) :
    ∀ c ∈ l.map f, c.Canon := by
  intro c hc
  obtain ⟨d, hd, rfl⟩ := List.mem_map.1 hc
  exact h d (hl d hd)

theorem canon_mapIdx {l : List Cell} {f : Nat → Cell → Cell} (h : ∀ i c, Cell.Keeps c (f i c)) (hl : ∀ c ∈ l, c.Canon) :
    ∀ c ∈ l.mapIdx f, c.Canon := by
  intro c hc
  obtain ⟨n, hn, rfl⟩ := List.getElem_of_mem hc
  rw [List.getElem_mapIdx]
  exact h _ _ (hl _ (List.getElem_mem _))

@[simp] theorem Cell.fresh_scratch (i : Nat) : (Cell.fresh i).scratch = .empty := rfl
@[simp] theorem Cell.fresh_comp (i : Nat) : (Cell.fresh i).comp = .fresh := rfl

theorem Store.wf_foldl {α : Type} {l : List α} {f : Store → α → Store} {m : Store} (hm : m.wf = true)
    (h : ∀ m a, m.wf = true → (f m a).wf = true) : (l.foldl f m).wf = true := by
  induction l generalizing m with
  | nil => exact hm
  | cons a l ih => exact ih (h m a hm)

theorem applyEntry_wf {m : Store} {e : WcbEntry} (h : m.wf = true) : (applyEntry m e).wf = true := by
  unfold applyEntry
  split
  · exact Store.wf_write h
  · generalize e.bytes = l
    induction l generalizing m with
    | nil => exact h
    | cons c l ih => exact ih (Store.wf_write h)

/-- A record update keeps what each changed field keeps. -/
theorem Keeps.mk {s e : State} {mtime : Word} {drawn nextId nextHandle : Nat} {regs : List (Nat × Word)}
    {shadows : List Shadow} {mem host : Store} {cells : List Cell} {dies : List Die} {engines : List Engine}
    {openReqs : List OpenReq} {tokens : List (Nat × Nat × Cls × Token)} {credits : List CreditRef}
    {replWrites : List ReplicaWrite} {countMsgs : List CountMsg} {tables : List TableEntry} {epochs : List Epoch}
    {bindings : List Binding} {tsvc : List TableSvc} {cmp : List CmpCtx} {ranges : List Range}
    {caches : List (Agent × List (Nat × Nat))} {wrote : List (Agent × Nat)} {xlt : List XltCmd} {hot : HotTable} {image : Image}
    {parts : List Partition} {batches : List Batch} {ces : List CopyEngine} {hif : HostIf} {net : Net} {hrv : Horvi}
    {health : Health} {carts : Carts} {power : Power} {ctlMhz ctlCeil ctlMv stewMhz stewCeil stewMv : Nat}
    (h : Keeps s e) (hm : e.mem.wf = true → mem.wf = true := by first | with_reducible exact (fun h => h) | exact Store.wf_write | exact applyEntry_wf | exact Store.wf_setMark | exact Store.wf_erase | exact (fun h => h)) (hh : e.host.wf = true → host.wf = true := by first | with_reducible exact (fun h => h) | exact Store.wf_write | exact applyEntry_wf | exact Store.wf_setMark | exact Store.wf_erase | exact (fun h => h))
    (hl : cells.length = e.cells.length := by first | with_reducible rfl | (simp; done) | rfl) (hc : (∀ c ∈ e.cells, c.Canon) → ∀ c ∈ cells, c.Canon := by first
      | with_reducible exact (fun h => h)
      | (refine canon_map (fun c => ?_); (refine Cell.Keeps.of ?_ ?_) <;> (simp; done))
      | (refine canon_mapIdx (fun i c => ?_); (refine Cell.Keeps.of ?_ ?_) <;> (simp; done))
      | exact (fun h => h))
    (h_dies : dies.length = e.dies.length := by first | with_reducible rfl | (simp; done) | rfl) (h_engines : engines.length = e.engines.length := by first | with_reducible rfl | (simp; done) | rfl)
    (h_parts : parts.length = e.parts.length := by first | with_reducible rfl | (simp; done) | rfl) (h_tsvc : tsvc.length = e.tsvc.length := by first | with_reducible rfl | (simp; done) | rfl) (h_xlt : xlt.length = e.xlt.length := by first | with_reducible rfl | (simp; done) | rfl)
    (h_ces : ces.length = e.ces.length := by first | with_reducible rfl | (simp; done) | rfl) (h_bays : carts.bays.length = e.carts.bays.length := by first | with_reducible rfl | (simp; done) | rfl)
    (h_ports : net.ports.length = e.net.ports.length := by first | with_reducible rfl | (simp; done) | rfl) :
    Keeps s (State.mk e.pending e.model mtime drawn nextId nextHandle regs shadows mem host cells dies engines openReqs
      tokens credits replWrites countMsgs tables epochs bindings tsvc cmp ranges caches wrote xlt hot image parts batches ces hif
      net hrv health carts power ctlMhz ctlCeil ctlMv stewMhz stewCeil stewMv) :=
  h.trans ⟨rfl, rfl, fun ⟨f, c⟩ => ⟨⟨f.model, hl.trans f.cells, h_dies.trans f.dies, h_engines.trans f.engines,
    h_bays.trans f.bays, h_ports.trans f.ports, h_parts.trans f.parts, h_tsvc.trans f.tsvc, h_xlt.trans f.xlt,
    h_ces.trans f.ces⟩, ⟨hm c.mem, hh c.host, hc c.cells⟩⟩⟩

/-- Memory replaced by one that is canonical when it was. -/
theorem Keeps.memory {s e : State} {m : Store} (h : Keeps s e) (hm : e.mem.wf = true → m.wf = true) :
    Keeps s { e with mem := m } := h.trans ⟨rfl, rfl, fun v =>
  ⟨⟨v.1.model, v.1.cells, v.1.dies, v.1.engines, v.1.bays, v.1.ports, v.1.parts, v.1.tsvc, v.1.xlt, v.1.ces⟩,
    ⟨hm v.2.mem, v.2.host, v.2.cells⟩⟩⟩

theorem Keeps.cutF {P : Prop} (x : State → State) (h : ∀ t, Keeps t (x t)) (k : (∀ t, Keeps t (x t)) → P) : P := k h

theorem Keeps.cutF2 {α : Type} {P : Prop} (x : State → α → State) (h : ∀ t a, Keeps t (x t a))
    (k : (∀ t a, Keeps t (x t a)) → P) : P := k h

theorem Keeps.cutF3 {α β : Type} {P : Prop} (x : State → α → β → State) (h : ∀ t a b, Keeps t (x t a b))
    (k : (∀ t a b, Keeps t (x t a b)) → P) : P := k h

theorem Keeps.cutG {α : Type} {P : Prop} (x : α → State → State) (h : ∀ a t, Keeps t (x a t))
    (k : (∀ a t, Keeps t (x a t)) → P) : P := k h

theorem Keeps.cutG2 {α β : Type} {P : Prop} (x : α → β → State → State) (h : ∀ a b t, Keeps t (x a b t))
    (k : (∀ a b t, Keeps t (x a b t)) → P) : P := k h

theorem Keeps.cutFP2 {α β γ : Type} {P : Prop} (x : State → α → β → γ × State) (h : ∀ t a b, Keeps t (x t a b).2)
    (k : (∀ t a b, Keeps t (x t a b).2) → P) : P := k h

theorem Keeps.cutFP1 {α γ : Type} {P : Prop} (x : State → α → γ × State) (h : ∀ t a, Keeps t (x t a).2)
    (k : (∀ t a, Keeps t (x t a).2) → P) : P := k h

theorem Keeps.cutGP1 {α γ : Type} {P : Prop} (x : α → State → γ × State) (h : ∀ a t, Keeps t (x a t).2)
    (k : (∀ a t, Keeps t (x a t).2) → P) : P := k h

theorem Keeps.cutGP4 {α β δ ε γ : Type} {P : Prop} (x : α → β → δ → ε → State → γ × State)
    (h : ∀ a b d e t, Keeps t (x a b d e t).2) (k : (∀ a b d e t, Keeps t (x a b d e t).2) → P) : P := k h

theorem Keeps.cutA {α : Type} {s : State} {P : Prop} (x : α → State) (h : ∀ a, Keeps s (x a))
    (k : (∀ a, Keeps s (x a)) → P) : P := k h

theorem Keeps.cutP {α β : Type} {s : State} {P : Prop} (x : α → β × State) (h : ∀ a, Keeps s (x a).2)
    (k : (∀ a, Keeps s (x a).2) → P) : P := k h

theorem Keeps.cut2 {β : Type} {s : State} {P : Prop} (x : β × State) (h : Keeps s x.2) (k : Keeps s x.2 → P) : P := k h

theorem Keeps.foldlPair {α β : Type} {s : State} {l : List α} {f : β × State → α → β × State} {p : β × State}
    (k : Keeps s p.2) (h : ∀ p a, Keeps p.2 (f p a).2) : Keeps s (l.foldl f p).2 := by
  induction l generalizing p with
  | nil => exact k
  | cons a l ih => exact ih (k.trans (h p a))

@[simp] theorem Carts.remember_bays (c : Carts) (x : Bytes) : (c.remember x).bays = c.bays := by
  rfl

@[simp] theorem State.resetOf_model (m : Nat) : (State.resetOf m).model = m := rfl

theorem canon_fresh (i : Nat) : (Cell.fresh i).Canon := ⟨by rfl, by rfl, by rfl, by rfl⟩

theorem cell_canon {s : State} (h : s.Inv) (i : Nat) : (s.cell i).Canon := by
  unfold State.cell
  by_cases hi : i < s.cells.length
  · rw [List.getD_eq_getElem _ _ hi]; exact h.2.cells _ (List.getElem_mem hi)
  · rw [List.getD_eq_default _ _ (by omega)]; exact canon_fresh i

theorem modify_canon {l : List Cell} {i : Nat} {f : Cell → Cell} (h : ∀ c, Cell.Keeps c (f c)) (hl : ∀ c ∈ l, c.Canon) :
    ∀ c ∈ l.modify i f, c.Canon := by
  intro c hc
  obtain ⟨n, hn, rfl⟩ := List.getElem_of_mem hc
  rw [List.getElem_modify]
  have hn' : n < l.length := by simpa using hn
  split
  · exact h _ (hl _ (List.getElem_mem hn'))
  · exact hl _ (List.getElem_mem hn')

theorem State.modCell_keeps {s : State} {i : Nat} {f : Cell → Cell} (h : ∀ c, Cell.Keeps c (f c)) : Keeps s (s.modCell i f) :=
  Keeps.mk (.refl s) id id (by simp) (modify_canon h) rfl rfl rfl rfl rfl rfl rfl rfl

/-- A cell replaced by one that the state itself vouches for. -/
theorem State.modCell_keepsInv {s : State} {i : Nat} {f : Cell → Cell} (h : s.Inv → ∀ c, Cell.Keeps c (f c)) :
    Keeps s (s.modCell i f) :=
  ⟨rfl, rfl, fun v => (State.modCell_keeps (h v)).2.2 v⟩

theorem State.modEngine_keeps {s : State} {i : Nat} {f : Engine → Engine} : Keeps s (s.modEngine i f) := .of_core (by simp [State.modEngine, State.core])
theorem State.modStack_keeps {s : State} {i : Nat} {f : Stack → Stack} : Keeps s (s.modStack i f) := State.modEngine_keeps
theorem State.modDie_keeps {s : State} {i : Nat} {f : Die → Die} : Keeps s (s.modDie i f) := .of_core (by simp [State.modDie, State.core])
theorem State.modPart_keeps {s : State} {i : Nat} {f : Partition → Partition} : Keeps s (s.modPart i f) := .of_core (by simp [State.modPart, State.core])
theorem State.modSvc_keeps {s : State} {i : Nat} {f : TableSvc → TableSvc} : Keeps s (s.modSvc i f) := .of_core (by simp [State.modSvc, State.core])
theorem State.modXlt_keeps {s : State} {i : Nat} {f : XltCmd → XltCmd} : Keeps s (s.modXlt i f) := .of_core (by simp [State.modXlt, State.core])
theorem State.modCe_keeps {s : State} {i : Nat} {f : CopyEngine → CopyEngine} : Keeps s (s.modCe i f) := .of_core (by simp [State.modCe, State.core])
theorem State.modHif_keeps {s : State} {f : HostIf → HostIf} : Keeps s (s.modHif f) := .of_core rfl
theorem State.modHrv_keeps {s : State} {f : Horvi → Horvi} : Keeps s (s.modHrv f) := .of_core rfl
theorem State.modHealth_keeps {s : State} {f : Health → Health} : Keeps s (s.modHealth f) := .of_core rfl
theorem State.modPower_keeps {s : State} {f : Power → Power} : Keeps s (s.modPower f) := .of_core rfl
theorem State.modImage_keeps {s : State} {f : Image → Image} : Keeps s (s.modImage f) := .of_core rfl
theorem State.modNet_keeps {s : State} {f : Net → Net} (h : ∀ n, (f n).ports.length = n.ports.length) : Keeps s (s.modNet f) :=
  .of_core (by simp [State.modNet, State.core, h])
theorem State.modCarts_keeps {s : State} {f : Carts → Carts} (h : ∀ n, (f n).bays.length = n.bays.length) :
    Keeps s (s.modCarts f) := .of_core (by simp [State.modCarts, State.core, h])
theorem State.modBay_keeps {s : State} {b : Nat} {f : Bay → Bay} : Keeps s (s.modBay b f) :=
  State.modCarts_keeps fun n => by simp

theorem Cell.Keeps.comp {c : Cell} {y : Compute} (h : (c.comp.tiles.wf = true ∧ c.comp.stat.wf = true ∧ c.comp.scales.wf = true) →
    (y.tiles.wf = true ∧ y.stat.wf = true ∧ y.scales.wf = true)) : Cell.Keeps c { c with comp := y } :=
  fun v => ⟨v.1, h v.2⟩

/-- A cell changed in a way that the state before vouches for. -/
theorem Keeps.modCellOf {s u : State} {i : Nat} {f : Cell → Cell} (h : Keeps s u)
    (hf : s.Inv → ∀ c, Cell.Keeps c (f c)) : Keeps s (u.modCell i f) :=
  ⟨h.1, h.2.1, fun v => (State.modCell_keeps (hf v)).2.2 (h.2.2 v)⟩

/-- Other bytes in the tiles of a cell under its old marks. -/
theorem Cell.Keeps.junk {c : Cell} {u a : Nat} {d : Data} :
    Cell.Keeps c { c with comp := { c.comp with tiles := { c.comp.tiles.write u a d with poison := c.comp.tiles.poison } } } :=
  fun v => ⟨v.1, Store.wf_marks (Store.wf_write v.2.1) (Store.wf_rising v.2.1), v.2.2⟩

theorem Cell.Keeps.cut {c : Cell} {P : Prop} (x : Cell) (h : Cell.Keeps c x) (k : Cell.Keeps c x → P) : P := k h

/-- What an operation on compute registers keeps. -/
def Compute.Keeps (c d : Compute) : Prop :=
  (c.tiles.wf = true ∧ c.stat.wf = true ∧ c.scales.wf = true) → (d.tiles.wf = true ∧ d.stat.wf = true ∧ d.scales.wf = true)

theorem Compute.Keeps.refl (c : Compute) : Compute.Keeps c c := id
theorem Compute.Keeps.trans {c d e : Compute} (h : Compute.Keeps c d) (k : Compute.Keeps d e) : Compute.Keeps c e := k ∘ h

theorem Compute.Keeps.after {c d e : Compute} (k : Compute.Keeps d e) (h : Compute.Keeps c d) : Compute.Keeps c e := k ∘ h

theorem Compute.Keeps.tiles {c : Compute} {t : Store} {k : TopK} {l : List TileLand} (h : c.tiles.wf = true → t.wf = true) :
    Compute.Keeps c ⟨t, c.stat, c.scales, k, l⟩ := fun v => ⟨h v.1, v.2⟩

/-- Other bytes under the old marks. -/
theorem Compute.Keeps.junk {c : Compute} {u a : Nat} {d : Data} :
    Compute.Keeps c { c with tiles := { c.tiles.write u a d with poison := c.tiles.poison } } :=
  fun v => ⟨Store.wf_marks (Store.wf_write v.1) (Store.wf_rising v.1), v.2⟩

theorem Compute.Keeps.foldlFrom {α : Type} {c d : Compute} {l : List α} {f : Compute → α → Compute} (k : Compute.Keeps c d)
    (h : ∀ t a, Compute.Keeps t (f t a)) : Compute.Keeps c (l.foldl f d) := by
  induction l generalizing d with
  | nil => exact k
  | cons a l ih => exact ih (k.trans (h d a))

theorem State.modComp_keeps {s : State} {i : Nat} {f : Compute → Compute} (h : ∀ c, Compute.Keeps c (f c)) :
    Keeps s (s.modComp i f) := State.modCell_keeps fun c v => ⟨v.1, h c.comp v.2⟩

end Sys2Proof.Machine
end

