-- ==== Sys2Proof/Laws/KeepsOps.lean ====
section
/-! SUPPORT. What every operation of Machine/Ops.lean keeps. -/
set_option linter.all false
set_option Elab.async false
namespace Sys2Proof.Machine

theorem State.draw_keeps {s : State} {bound : Nat}  :
    Keeps s (State.draw s bound).2 := by
  unfold State.draw
  repeat' first
    | with_reducible apply Keeps.refl
    | dsimp -zeta only
    | with_reducible refine Keeps.mk ?_

theorem State.drawBytes_keeps {s : State} {n : Nat}  :
    Keeps s (State.drawBytes s n).2 := by
  unfold State.drawBytes
  repeat' first
    | with_reducible apply Keeps.refl
    | dsimp -zeta only
    | with_reducible refine Keeps.mk ?_

theorem State.newId_keeps {s : State}  :
    Keeps s (State.newId s).2 := by
  unfold State.newId
  repeat' first
    | with_reducible apply Keeps.refl
    | dsimp -zeta only
    | with_reducible refine Keeps.mk ?_

end Sys2Proof.Machine
end

