-- ==== Sys2Proof/Laws/KeepsCfg.lean ====
section
/-! SUPPORT. What every operation of Machine/Cfg.lean keeps. -/
set_option linter.all false
set_option Elab.async false
namespace Sys2Proof.Machine

theorem State.countClamps_keeps {s : State} {a v : Nat}  :
    Keeps s (State.countClamps s a v) := by
  unfold State.countClamps
  repeat' first
    | with_reducible apply Keeps.refl
    | with_reducible apply Keeps.after (State.modHealth_keeps ..)

theorem State.sizeClamp_keeps {s : State} {a v : Nat}  :
    Keeps s (State.sizeClamp s a v) := by
  unfold State.sizeClamp
  repeat' first
    | with_reducible apply Keeps.refl
    | with_reducible apply Keeps.ite
    | with_reducible apply Keeps.after (State.countClamps_keeps ..)

theorem State.setReg_keeps {s : State} {off v : Nat}  :
    Keeps s (State.setReg s off v) := by
  unfold State.setReg
  repeat' first
    | with_reducible apply Keeps.refl
    | split
    | with_reducible refine Keeps.mk ?_

theorem State.resetRegs_keeps {s : State} {lo hi : Nat}  :
    Keeps s (State.resetRegs s lo hi) := by
  unfold State.resetRegs
  repeat' first
    | with_reducible apply Keeps.refl
    | with_reducible refine Keeps.mk ?_

end Sys2Proof.Machine
end

