-- ==== Sys2Proof/Laws/KeepsMemory.lean ====
section
/-! SUPPORT. What every operation of Machine/Memory.lean keeps. -/
set_option linter.all false
set_option Elab.async false
namespace Sys2Proof.Machine

theorem State.charge_keeps {s : State} {k : Nat} {p : Option Nat} {n : Nat}  :
    Keeps s (State.charge s k p n) := by
  unfold State.charge
  repeat' first
    | with_reducible apply Keeps.refl
    | ((try lift_lets -underBinder); intro x; clear_value x)
    | split
    | with_reducible apply Keeps.after (State.modStack_keeps ..)

theorem State.countStack_keeps {s : State} {k : Nat} {f : Stack → Stack}  :
    Keeps s (State.countStack s k f) := by
  unfold State.countStack
  repeat' first
    | with_reducible apply Keeps.refl
    | with_reducible apply Keeps.after (State.modEngine_keeps ..)

theorem State.bursts_keeps {s : State} {k : Nat} {p : Option Nat} {rd wr : Nat}  :
    Keeps s (State.bursts s k p rd wr) := by
  unfold State.bursts
  repeat' first
    | with_reducible apply Keeps.refl
    | with_reducible apply Keeps.after (State.countStack_keeps ..)
    | with_reducible apply Keeps.after (State.charge_keeps ..)

theorem State.drainGranule_keeps {s : State} {k g : Nat} {f : Stack → Stack}  :
    Keeps s (State.drainGranule s k g f) := by
  unfold State.drainGranule
  repeat' first
    | with_reducible apply Keeps.refl
    | with_reducible assumption
    | ((try lift_lets -underBinder); intro x; (refine Keeps.cut (s := s) x ?_ (fun hx => ?_); dsimp -zeta only [x]; rotate_left; clear_value x; rotate_right))
    | split
    | with_reducible apply Keeps.after (State.countStack_keeps ..)
    | with_reducible apply Keeps.after (State.charge_keeps ..)
    | with_reducible apply Keeps.after (State.modStack_keeps ..)
    | with_reducible refine Keeps.mk ?_

theorem State.drainStack_keeps {s : State} {k : Nat}  :
    Keeps s (State.drainStack s k) := by
  unfold State.drainStack
  repeat' first
    | with_reducible apply Keeps.refl
    | (with_reducible apply Keeps.foldlFrom; rotate_left; intro s a; rotate_right)
    | with_reducible apply Keeps.after (State.drainGranule_keeps ..)

theorem State.release_keeps {s : State} {a : Agent}  :
    Keeps s (State.release s a) := by
  unfold State.release
  repeat' first
    | with_reducible apply Keeps.refl
    | ((with_reducible refine Cell.Keeps.of ?_ ?_) <;> (simp; done))
    | split
    | (with_reducible apply Keeps.foldlFrom; rotate_left; intro s a; rotate_right)
    | with_reducible apply Keeps.after (State.drainStack_keeps ..)
    | with_reducible apply Keeps.after (State.modCell_keeps (h := ?_) ..)
    | intro c
    | with_reducible refine Keeps.mk ?_

theorem State.noteWrite_keeps {s : State} {a : Agent} {ks : List Nat}  :
    Keeps s (State.noteWrite s a ks) := by
  unfold State.noteWrite
  repeat' first
    | with_reducible apply Keeps.refl
    | split
    | with_reducible refine Keeps.mk ?_

theorem State.drainAll_keeps {s : State}  :
    Keeps s (State.drainAll s) := by
  unfold State.drainAll
  repeat' first
    | with_reducible apply Keeps.refl
    | (with_reducible apply Keeps.foldlFrom; rotate_left; intro s a; rotate_right)
    | with_reducible apply Keeps.after (State.drainStack_keeps ..)

theorem State.readGranule_keeps {s : State} {p : Option Nat} {pa n : Nat}  :
    Keeps s (State.readGranule s p pa n).2 := by
  unfold State.readGranule
  repeat' first
    | with_reducible apply Keeps.refl
    | with_reducible assumption
    | ((try lift_lets -underBinder); intro x; first
        | (refine Keeps.cut (s := s) x ?_ (fun hx => ?_); dsimp -zeta only [x]; rotate_left; clear_value x; rotate_right)
        | clear_value x)
    | with_reducible apply Keeps.ite2
    | with_reducible apply Keeps.after (State.drainGranule_keeps ..)
    | with_reducible apply Keeps.after (State.countStack_keeps ..)
    | with_reducible apply Keeps.after (State.charge_keeps ..)

theorem State.devRead_keeps {s : State} {p : Option Nat} {pa n : Nat}  :
    Keeps s (State.devRead s p pa n).2 := by
  unfold State.devRead
  repeat' first
    | with_reducible apply Keeps.refl
    | split
    | (with_reducible apply Keeps.foldlPair; rotate_left; rintro ⟨d, s⟩ a; rotate_right)
    | with_reducible apply Keeps.after (State.readGranule_keeps ..)
    | (with_reducible apply Keeps.of_pair; with_reducible assumption)

theorem State.writeGranule_keeps {s : State} {p : Option Nat} {pa : Nat} {d : Data}  :
    Keeps s (State.writeGranule s p pa d) := by
  unfold State.writeGranule
  repeat' first
    | with_reducible apply Keeps.refl
    | with_reducible assumption
    | ((try lift_lets -underBinder); intro x; first
        | (refine Keeps.cut (s := s) x ?_ (fun hx => ?_); dsimp -zeta only [x]; rotate_left; clear_value x; rotate_right)
        | clear_value x)
    | with_reducible apply Keeps.ite
    | split
    | with_reducible apply Keeps.after (State.drainGranule_keeps ..)
    | with_reducible apply Keeps.after (State.countStack_keeps ..)
    | with_reducible apply Keeps.after (State.charge_keeps ..)
    | with_reducible apply Keeps.after (State.modStack_keeps ..)
    | with_reducible refine Keeps.mk ?_

theorem State.devWrite_keeps {s : State} {p : Option Nat} {pa : Nat} {d : Data}  :
    Keeps s (State.devWrite s p pa d) := by
  unfold State.devWrite
  repeat' first
    | with_reducible apply Keeps.refl
    | split
    | (with_reducible apply Keeps.foldlFrom; rotate_left; intro s a; rotate_right)
    | with_reducible apply Keeps.after (State.writeGranule_keeps ..)

theorem State.scratchWrite_keeps {s : State} {i off : Nat} {d : Data} : Keeps s (State.scratchWrite s i off d) :=
  State.modCell_keeps fun _ h => ⟨Store.wf_write h.1, h.2⟩

theorem State.windowWrite_keeps {s : State} {g off : Nat} {d : Data}  :
    Keeps s (State.windowWrite s g off d) := by
  unfold State.windowWrite
  repeat' first
    | with_reducible apply Keeps.refl
    | split
    | with_reducible apply Keeps.after (State.scratchWrite_keeps ..)

theorem State.fillLines_keeps {s : State} {a n : Nat}  :
    Keeps s (State.fillLines s a n) := by
  unfold State.fillLines
  repeat' first
    | with_reducible apply Keeps.refl
    | with_reducible apply Keeps.ite
    | with_reducible apply Keeps.after (State.modHif_keeps ..)

theorem State.hostRead_keeps {s : State} {a n : Nat}  :
    Keeps s (State.hostRead s a n).2 := by
  unfold State.hostRead
  repeat' first
    | with_reducible apply Keeps.refl
    | with_reducible apply Keeps.ite2
    | with_reducible apply Keeps.after (State.fillLines_keeps ..)

theorem State.hostStore_keeps {s : State} {a : Nat} {d : Data}  :
    Keeps s (State.hostStore s a d) := by
  unfold State.hostStore
  repeat' first
    | with_reducible apply Keeps.refl
    | with_reducible apply Keeps.after (State.modHif_keeps ..)
    | with_reducible refine Keeps.mk ?_

theorem State.hostWrite_keeps {s : State} {a : Nat} {d : Data}  :
    Keeps s (State.hostWrite s a d) := by
  unfold State.hostWrite
  repeat' first
    | with_reducible apply Keeps.refl
    | with_reducible apply Keeps.ite
    | with_reducible apply Keeps.after (State.hostStore_keeps ..)

theorem State.raise_keeps {s : State} {v : Nat}  :
    Keeps s (State.raise s v) := by
  unfold State.raise
  repeat' first
    | with_reducible apply Keeps.refl
    | with_reducible apply Keeps.after (State.modHif_keeps ..)

theorem State.setCached_keeps {s : State} {a : Agent} {l : List (Nat × Nat)}  :
    Keeps s (State.setCached s a l) := by
  unfold State.setCached
  repeat' first
    | with_reducible apply Keeps.refl
    | split
    | with_reducible refine Keeps.mk ?_

theorem State.useRange_keeps {s : State} {a : Agent} {p i : Nat}  :
    Keeps s (State.useRange s a p i) := by
  unfold State.useRange
  repeat' first
    | with_reducible apply Keeps.refl
    | with_reducible assumption
    | ((try lift_lets -underBinder); intro x; first
        | (refine Keeps.cut (s := s) x ?_ (fun hx => ?_); dsimp -zeta only [x]; rotate_left; clear_value x; rotate_right)
        | clear_value x)
    | with_reducible apply Keeps.ite
    | with_reducible apply Keeps.after (State.setCached_keeps ..)
    | with_reducible apply Keeps.after (State.modXlt_keeps ..)

theorem State.countHost_keeps {s : State} {p line : Nat}  :
    Keeps s (State.countHost s p line) := by
  unfold State.countHost
  repeat' first
    | with_reducible apply Keeps.refl
    | ((try lift_lets -underBinder); intro x; first
        | clear_value x
        | (have hP : Prop := x; clear hP))
    | with_reducible apply Keeps.ite
    | split
    | with_reducible refine Keeps.mk ?_

theorem State.rangeHostRead_keeps {s : State} {r : Range} {a n : Nat}  :
    Keeps s (State.rangeHostRead s r a n).2 := by
  unfold State.rangeHostRead
  repeat' first
    | with_reducible apply Keeps.refl
    | with_reducible assumption
    | ((try lift_lets -underBinder); intro x; first
        | (refine Keeps.cut (s := s) x ?_ (fun hx => ?_); dsimp -zeta only [x]; rotate_left; clear_value x; rotate_right)
        | clear_value x)
    | with_reducible apply Keeps.ite
    | (with_reducible apply Keeps.foldlFrom; rotate_left; intro s a; rotate_right)
    | with_reducible apply Keeps.after (State.countHost_keeps ..)
    | with_reducible apply Keeps.after (State.hostRead_keeps ..)

theorem State.targetRead_keeps {s : State} {r : Range} {t n : Nat}  :
    Keeps s (State.targetRead s r t n).2 := by
  unfold State.targetRead
  repeat' first
    | with_reducible apply Keeps.refl
    | split
    | with_reducible apply Keeps.after (State.rangeHostRead_keeps ..)
    | with_reducible apply Keeps.after (State.devRead_keeps ..)

theorem State.targetWrite_keeps {s : State} {r : Range} {t : Nat} {d : Data}  :
    Keeps s (State.targetWrite s r t d) := by
  unfold State.targetWrite
  repeat' first
    | with_reducible apply Keeps.refl
    | split
    | (with_reducible apply Keeps.foldlFrom; rotate_left; intro s a; rotate_right)
    | with_reducible apply Keeps.after (State.windowWrite_keeps ..)
    | with_reducible apply Keeps.after (State.devWrite_keeps ..)

theorem State.withRanges_keeps {s : State} {l : List Range} {f : State → State} (h_f : ∀ t, Keeps t (f t)) :
    Keeps s (State.withRanges s l f) := by
  unfold State.withRanges
  repeat' first
    | with_reducible apply Keeps.refl
    | with_reducible assumption
    | ((try lift_lets -underBinder); intro x; (refine Keeps.cut (s := s) x ?_ (fun hx => ?_); dsimp -zeta only [x]; rotate_left; clear_value x; rotate_right))
    | with_reducible apply Keeps.after (h_f ..)
    | with_reducible refine Keeps.mk ?_

theorem State.vread_keeps {s : State} {a : Agent} {p v n : Nat}  :
    Keeps s (State.vread s a p v n).2 := by
  unfold State.vread
  repeat' first
    | with_reducible apply Keeps.refl
    | split
    | (with_reducible apply Keeps.foldlPair; rotate_left; rintro ⟨d, s⟩ a; rotate_right)
    | with_reducible apply Keeps.after (State.targetRead_keeps ..)
    | with_reducible apply Keeps.after (State.useRange_keeps ..)
    | (with_reducible apply Keeps.of_pair; with_reducible assumption)

theorem State.vwrite_keeps {s : State} {a : Agent} {p v : Nat} {d : Data}  :
    Keeps s (State.vwrite s a p v d) := by
  unfold State.vwrite
  repeat' first
    | with_reducible apply Keeps.refl
    | with_reducible apply Keeps.ite
    | split
    | (with_reducible apply Keeps.foldlFrom; rotate_left; intro s a; rotate_right)
    | with_reducible apply Keeps.after (State.targetWrite_keeps ..)
    | with_reducible apply Keeps.after (State.useRange_keeps ..)
    | with_reducible apply Keeps.after (State.noteWrite_keeps ..)

theorem State.countXltFault_keeps {s : State} {p : Nat}  :
    Keeps s (State.countXltFault s p) := by
  unfold State.countXltFault
  repeat' first
    | with_reducible apply Keeps.refl
    | with_reducible apply Keeps.after (State.modXlt_keeps ..)

theorem State.wordRead_keeps {s : State} {a : Agent} {i p w n : Nat}  :
    Keeps s (State.wordRead s a i p w n).2 := by
  unfold State.wordRead
  repeat' first
    | with_reducible apply Keeps.refl
    | with_reducible apply Keeps.ite2
    | with_reducible apply Keeps.after (State.vread_keeps ..)

theorem State.wordWrite_keeps {s : State} {a : Agent} {i p w : Nat} {d : Data}  :
    Keeps s (State.wordWrite s a i p w d) := by
  unfold State.wordWrite
  repeat' first
    | with_reducible apply Keeps.refl
    | with_reducible apply Keeps.ite
    | with_reducible apply Keeps.after (State.vwrite_keeps ..)
    | with_reducible apply Keeps.after (State.scratchWrite_keeps ..)

end Sys2Proof.Machine
end

