-- ==== Sys2Proof/Laws/KeepsEpochs.lean ====
section
/-! SUPPORT. What every operation of Machine/Epochs.lean keeps. -/
set_option linter.all false
set_option Elab.async false
namespace Sys2Proof.Machine

theorem State.reqRead_keeps {s : State} {d : Nat} {r : Request} {w n : Nat}  :
    Keeps s (State.reqRead s d r w n).2 := by
  unfold State.reqRead
  repeat' first
    | with_reducible apply Keeps.refl
    | with_reducible apply Keeps.ite2
    | split
    | (with_reducible apply Keeps.foldlPair; rotate_left; rintro ⟨d, s⟩ a; rotate_right)
    | with_reducible apply Keeps.after (State.targetRead_keeps ..)
    | with_reducible apply Keeps.after (State.useRange_keeps ..)
    | (with_reducible apply Keeps.of_pair; with_reducible assumption)

theorem State.modEpoch_keeps {s : State} {t n : Nat} {f : Epoch → Epoch}  :
    Keeps s (State.modEpoch s t n f) := by
  unfold State.modEpoch
  repeat' first
    | with_reducible apply Keeps.refl
    | with_reducible refine Keeps.mk ?_

theorem State.sweepHeld_keeps {s : State} {k : Nat}  :
    Keeps s (State.sweepHeld s k) := by
  unfold State.sweepHeld
  repeat' first
    | with_reducible apply Keeps.refl
    | ((try lift_lets -underBinder); intro x; clear_value x)
    | with_reducible apply Keeps.after (State.modEngine_keeps ..)

theorem State.withdrawIf_keeps {s : State} {p : Nat → Replica → Bool}  :
    Keeps s (State.withdrawIf s p) := by
  unfold State.withdrawIf
  repeat' first
    | with_reducible apply Keeps.refl
    | with_reducible assumption
    | ((try lift_lets -underBinder); intro x; first
        | (refine Keeps.cut (s := s) x ?_ (fun hx => ?_); dsimp -zeta only [x]; rotate_left; clear_value x; rotate_right)
        | clear_value x)
    | (with_reducible apply Keeps.foldlFrom; rotate_left; intro s a; rotate_right)
    | with_reducible apply Keeps.after (State.sweepHeld_keeps ..)
    | with_reducible refine Keeps.mk ?_

theorem State.dropCopies_keeps {s : State} {p : Nat → ReplicaRow → Bool}  :
    Keeps s (State.dropCopies s p) := by
  unfold State.dropCopies
  repeat' first
    | with_reducible apply Keeps.refl
    | ((try lift_lets -underBinder); intro x; clear_value x)
    | with_reducible refine Keeps.mk ?_

theorem State.freeEpoch_keeps {s : State} {t n : Nat}  :
    Keeps s (State.freeEpoch s t n) := by
  unfold State.freeEpoch
  repeat' first
    | with_reducible apply Keeps.refl
    | with_reducible apply Keeps.after (State.withdrawIf_keeps ..)
    | with_reducible apply Keeps.after (State.modEpoch_keeps ..)

theorem State.freeUnheld_keeps {s : State}  :
    Keeps s (State.freeUnheld s) := by
  unfold State.freeUnheld
  repeat' first
    | with_reducible apply Keeps.refl
    | (with_reducible apply Keeps.foldlFrom; rotate_left; intro s a; rotate_right)
    | with_reducible apply Keeps.after (State.freeEpoch_keeps ..)

theorem State.releaseIf_keeps {s : State} {p : Binding → Bool}  :
    Keeps s (State.releaseIf s p) := by
  unfold State.releaseIf
  repeat' first
    | with_reducible apply Keeps.refl
    | with_reducible apply Keeps.after (State.freeUnheld_keeps ..)
    | with_reducible refine Keeps.mk ?_

theorem State.endParts_keeps {s : State} {k status : Nat} {sel : Part → Bool}  :
    Keeps s (State.endParts s k status sel) := by
  unfold State.endParts
  repeat' first
    | with_reducible apply Keeps.refl
    | ((try lift_lets -underBinder); intro x; clear_value x)
    | with_reducible apply Keeps.after (State.sweepHeld_keeps ..)
    | with_reducible apply Keeps.after (State.modEngine_keeps ..)

theorem State.engineLost_keeps {s : State} {k : Nat}  :
    Keeps s (State.engineLost s k) := by
  unfold State.engineLost
  repeat' first
    | with_reducible apply Keeps.refl
    | with_reducible assumption
    | ((try lift_lets -underBinder); intro x; (refine Keeps.cut (s := s) x ?_ (fun hx => ?_); dsimp -zeta only [x]; rotate_left; clear_value x; rotate_right))
    | with_reducible apply Keeps.after (State.endParts_keeps ..)
    | with_reducible apply Keeps.after (State.modEngine_keeps ..)

end Sys2Proof.Machine
end

