-- ==== Sys2Proof/Laws/KeepsJobs.lean ====
section
/-! SUPPORT. What every operation of Machine/Jobs.lean keeps. -/
set_option linter.all false
set_option Elab.async false
namespace Sys2Proof.Machine

theorem State.hrvPump_keeps {s : State} {stream : Nat}  :
    Keeps s (State.hrvPump s stream) := by
  unfold State.hrvPump
  repeat' first
    | with_reducible apply Keeps.refl
    | ((try lift_lets -underBinder); intro x; clear_value x)
    | with_reducible apply Keeps.ite
    | split
    | with_reducible apply Keeps.after (State.modHrv_keeps ..)

theorem State.hrvSend_keeps {s : State} {type stream arg : Nat} {d : Data}  :
    Keeps s (State.hrvSend s type stream arg d) := by
  unfold State.hrvSend
  repeat' first
    | with_reducible apply Keeps.refl
    | with_reducible assumption
    | ((try lift_lets -underBinder); intro x; first
        | (refine Keeps.cut (s := s) x ?_ (fun hx => ?_); dsimp -zeta only [x]; rotate_left; clear_value x; rotate_right)
        | clear_value x)
    | with_reducible apply Keeps.ite
    | with_reducible apply Keeps.after (State.hrvPump_keeps ..)
    | with_reducible apply Keeps.after (State.modHrv_keeps ..)

theorem State.logUpdate_keeps {s : State} {d : Bytes}  :
    Keeps s (State.logUpdate s d) := by
  unfold State.logUpdate
  repeat' first
    | with_reducible apply Keeps.refl
    | ((try lift_lets -underBinder); intro x; clear_value x)
    | with_reducible apply Keeps.after (State.modHrv_keeps ..)

theorem State.countSolo_keeps {s : State} {n : Nat}  :
    Keeps s (State.countSolo s n) := by
  unfold State.countSolo
  repeat' first
    | with_reducible apply Keeps.refl
    | with_reducible apply Keeps.ite
    | with_reducible apply Keeps.after (State.modHrv_keeps ..)

theorem State.hrvUpdate_keeps {s : State} {d : Bytes}  :
    Keeps s (State.hrvUpdate s d).2 := by
  unfold State.hrvUpdate
  repeat' first
    | with_reducible apply Keeps.refl
    | split
    | (with_reducible apply Keeps.foldlPair; rotate_left; rintro ⟨d, s⟩ a; rotate_right)
    | with_reducible apply Keeps.after (State.hrvSend_keeps ..)
    | (with_reducible apply Keeps.of_pair; with_reducible assumption)

theorem State.mirrorUpdate_keeps {s : State} {p : Nat} {d : Bytes}  :
    Keeps s (State.mirrorUpdate s p d).2 := by
  unfold State.mirrorUpdate
  repeat' first
    | with_reducible apply Keeps.refl
    | with_reducible assumption
    | ((try lift_lets -underBinder); intro x; (refine Keeps.cut (s := s) x ?_ (fun hx => ?_); dsimp -zeta only [x]; rotate_left; clear_value x; rotate_right))
    | with_reducible apply Keeps.ite2
    | with_reducible apply Keeps.after (State.hrvUpdate_keeps ..)
    | with_reducible apply Keeps.after (State.logUpdate_keeps ..)

theorem State.modBatch_keeps {s : State} {h : Nat} {f : Batch → Batch}  :
    Keeps s (State.modBatch s h f) := by
  unfold State.modBatch
  repeat' first
    | with_reducible apply Keeps.refl
    | with_reducible refine Keeps.mk ?_

theorem State.modCmp_keeps {s : State} {p c : Nat} {f : CmpCtx → CmpCtx}  :
    Keeps s (State.modCmp s p c f) := by
  unfold State.modCmp
  repeat' first
    | with_reducible apply Keeps.refl
    | with_reducible refine Keeps.mk ?_

theorem State.countChange_keeps {s : State} {p c g : Nat} {dq ds : Int}  :
    Keeps s (State.countChange s p c g dq ds) := by
  unfold State.countChange
  repeat' first
    | with_reducible apply Keeps.refl
    | with_reducible apply Keeps.ite
    | with_reducible apply Keeps.after (State.modCmp_keeps ..)

theorem State.unqueue_keeps {s : State} {p : Nat} {bs : List Block}  :
    Keeps s (State.unqueue s p bs) := by
  unfold State.unqueue
  repeat' first
    | with_reducible apply Keeps.refl
    | (with_reducible apply Keeps.foldlFrom; rotate_left; intro s a; rotate_right)
    | with_reducible apply Keeps.after (State.countChange_keeps ..)

theorem Cell.endJob_keeps {c : Cell} {k : Cls}  :
    Cell.Keeps c (Cell.endJob c k) := by
  unfold Cell.endJob
  repeat' first
    | ((with_reducible refine Cell.Keeps.of ?_ ?_) <;> (simp; done))

theorem Cell.freed_keeps {c : Cell}  :
    Cell.Keeps c (Cell.freed c) := by
  unfold Cell.freed
  repeat' first
    | ((with_reducible refine Cell.Keeps.of ?_ ?_) <;> (simp; done))
    | split

theorem State.endJob_keeps {s : State} {i status cause : Nat}  :
    Keeps s (State.endJob s i status cause) := by
  unfold State.endJob
  repeat' first
    | with_reducible apply Keeps.refl
    | with_reducible assumption
    | ((with_reducible refine Cell.Keeps.of ?_ ?_) <;> (simp; done))
    | ((try lift_lets -underBinder); intro x; first
        | (refine Keeps.cut (s := s) x ?_ (fun hx => ?_); dsimp -zeta only [x]; rotate_left; clear_value x; rotate_right)
        | clear_value x)
    | split
    | (with_reducible apply Keeps.foldlFrom; rotate_left; intro s a; rotate_right)
    | with_reducible apply Cell.Keeps.after (Cell.endJob_keeps ..)
    | with_reducible apply Keeps.after (State.unqueue_keeps ..)
    | with_reducible apply Keeps.after (State.modBatch_keeps ..)
    | with_reducible apply Keeps.after (State.modCell_keeps (h := ?_) ..)
    | intro c

theorem State.endSusp_keeps {s : State} {i status : Nat}  :
    Keeps s (State.endSusp s i status) := by
  unfold State.endSusp
  repeat' first
    | with_reducible apply Keeps.refl
    | ((with_reducible refine Cell.Keeps.of ?_ ?_) <;> (simp; done))
    | ((try lift_lets -underBinder); intro x; clear_value x)
    | split
    | with_reducible apply Keeps.after (State.modBatch_keeps ..)
    | with_reducible apply Keeps.after (State.modCell_keeps (h := ?_) ..)
    | intro c

theorem State.dropQueued_keeps {s : State} {i status : Nat} {p : Job → Bool}  :
    Keeps s (State.dropQueued s i status p) := by
  unfold State.dropQueued
  repeat' first
    | with_reducible apply Keeps.refl
    | ((with_reducible refine Cell.Keeps.of ?_ ?_) <;> (simp; done))
    | ((try lift_lets -underBinder); intro x; clear_value x)
    | (with_reducible apply Keeps.foldlFrom; rotate_left; intro s a; rotate_right)
    | with_reducible apply Keeps.after (State.modBatch_keeps ..)
    | with_reducible apply Keeps.after (State.modCell_keeps (h := ?_) ..)
    | intro c

theorem State.eachCell_keeps {s : State} {f : State → Nat → State} (h_f : ∀ t y0, Keeps t (f t y0)) :
    Keeps s (State.eachCell s f) := by
  unfold State.eachCell
  repeat' first
    | with_reducible apply Keeps.refl
    | (with_reducible apply Keeps.foldlFrom; rotate_left; intro s a; rotate_right)
    | with_reducible apply Keeps.after (h_f ..)

theorem State.endJobs_keeps {s : State} {status : Nat} {p : Job → Bool}  :
    Keeps s (State.endJobs s status p) := by
  unfold State.endJobs
  repeat' first
    | with_reducible apply Keeps.refl
    | with_reducible assumption
    | ((try lift_lets -underBinder); intro x; first
        | (refine Keeps.cut (s := s) x ?_ (fun hx => ?_); dsimp -zeta only [x]; rotate_left; clear_value x; rotate_right)
        | clear_value x)
    | with_reducible apply Keeps.ite
    | with_reducible apply Keeps.after (State.eachCell_keeps (h_f := fun s y0 => ?_) ..)
    | with_reducible apply Keeps.after (State.dropQueued_keeps ..)
    | with_reducible apply Keeps.after (State.endSusp_keeps ..)
    | with_reducible apply Keeps.after (State.endJob_keeps ..)

theorem State.dropBatches_keeps {s : State} {p : Batch → Bool}  :
    Keeps s (State.dropBatches s p) := by
  unfold State.dropBatches
  repeat' first
    | with_reducible apply Keeps.refl
    | with_reducible assumption
    | ((try lift_lets -underBinder); intro x; first
        | (refine Keeps.cut (s := s) x ?_ (fun hx => ?_); dsimp -zeta only [x]; rotate_left; clear_value x; rotate_right)
        | clear_value x)
    | with_reducible apply Keeps.after (State.endJobs_keeps ..)
    | with_reducible apply Keeps.after (State.releaseIf_keeps ..)
    | with_reducible apply Keeps.after (State.modHrv_keeps ..)
    | with_reducible refine Keeps.mk ?_

end Sys2Proof.Machine
end

