-- ==== Sys2Proof/Laws/KeepsConcentrator.lean ====
section
/-! SUPPORT. What every operation of Machine/Concentrator.lean keeps. -/
set_option linter.all false
set_option Elab.async false
namespace Sys2Proof.Machine

theorem State.modRing_keeps {s : State} {r : Nat} {f : FaultRing → FaultRing}  :
    Keeps s (State.modRing s r f) := by
  unfold State.modRing
  repeat' first
    | with_reducible apply Keeps.refl
    | with_reducible apply Keeps.after (State.modHealth_keeps ..)

theorem State.ringWrite_keeps {s : State} {r : Nat} {rec : Bytes}  :
    Keeps s (State.ringWrite s r rec) := by
  unfold State.ringWrite
  repeat' first
    | with_reducible apply Keeps.refl
    | with_reducible assumption
    | ((try lift_lets -underBinder); intro x; first
        | (refine Keeps.cut (s := s) x ?_ (fun hx => ?_); dsimp -zeta only [x]; rotate_left; clear_value x; rotate_right)
        | clear_value x)
    | with_reducible apply Keeps.after (State.modRing_keeps ..)
    | with_reducible apply Keeps.after (State.raise_keeps ..)
    | with_reducible apply Keeps.after (State.hostWrite_keeps ..)
    | with_reducible apply Keeps.after (State.modHealth_keeps ..)

theorem State.ringLose_keeps {s : State} {r kind : Nat}  :
    Keeps s (State.ringLose s r kind) := by
  unfold State.ringLose
  repeat' first
    | with_reducible apply Keeps.refl
    | ((try lift_lets -underBinder); intro x; clear_value x)
    | with_reducible apply Keeps.after (State.modRing_keeps ..)

theorem State.ringSummary_keeps {s : State} {r : Nat}  :
    Keeps s (State.ringSummary s r) := by
  unfold State.ringSummary
  repeat' first
    | with_reducible apply Keeps.refl
    | with_reducible assumption
    | ((try lift_lets -underBinder); intro x; first
        | (refine Keeps.cut (s := s) x ?_ (fun hx => ?_); dsimp -zeta only [x]; rotate_left; clear_value x; rotate_right)
        | clear_value x)
    | with_reducible apply Keeps.ite
    | with_reducible apply Keeps.after (State.ringWrite_keeps ..)
    | with_reducible apply Keeps.after (State.modRing_keeps ..)
    | with_reducible apply Keeps.after (State.modHealth_keeps ..)

theorem State.putRecord_keeps {s : State} {r kind : Nat} {mk : Nat → Bytes}  :
    Keeps s (State.putRecord s r kind mk).2 := by
  unfold State.putRecord
  repeat' first
    | with_reducible apply Keeps.refl
    | with_reducible assumption
    | ((try lift_lets -underBinder); intro x; first
        | (refine Keeps.cut (s := s) x ?_ (fun hx => ?_); dsimp -zeta only [x]; rotate_left; clear_value x; rotate_right)
        | clear_value x)
    | with_reducible apply Keeps.ite2
    | with_reducible apply Keeps.after (State.ringSummary_keeps ..)
    | with_reducible apply Keeps.after (State.ringLose_keeps ..)
    | with_reducible apply Keeps.after (State.ringWrite_keeps ..)
    | with_reducible apply Keeps.after (State.modRing_keeps ..)

theorem State.flushRing_keeps {s : State} {r : Nat}  :
    Keeps s (State.flushRing s r) := by
  unfold State.flushRing
  repeat' first
    | with_reducible apply Keeps.refl
    | with_reducible assumption
    | ((try lift_lets -underBinder); intro x; first
        | (refine Keeps.cut (s := s) x ?_ (fun hx => ?_); dsimp -zeta only [x]; rotate_left; clear_value x; rotate_right)
        | clear_value x)
    | with_reducible apply Keeps.ite
    | (with_reducible apply Keeps.foldlFrom; rotate_left; intro s a; rotate_right)
    | with_reducible apply Keeps.after (State.ringSummary_keeps ..)
    | with_reducible apply Keeps.after (State.ringWrite_keeps ..)
    | with_reducible apply Keeps.after (State.modRing_keeps ..)

theorem State.modLark_keeps {s : State} {u : UnitId} {f : Lark → Lark}  :
    Keeps s (State.modLark s u f) := by
  unfold State.modLark
  repeat' first
    | with_reducible apply Keeps.refl
    | ((try lift_lets -underBinder); intro x; clear_value x)
    | with_reducible apply Keeps.ite
    | split
    | with_reducible apply Keeps.after (State.modHealth_keeps ..)

theorem State.larkRepair_keeps {s : State} {u : UnitId} {action detail loc : Nat}  :
    Keeps s (State.larkRepair s u action detail loc) := by
  unfold State.larkRepair
  repeat' first
    | with_reducible apply Keeps.refl
    | ((try lift_lets -underBinder); intro x; clear_value x)
    | with_reducible apply Keeps.after (State.modLark_keeps ..)

theorem State.writeIncident_keeps {s : State} {n : Incident} {ref : Nat}  :
    Keeps s (State.writeIncident s n ref).2 := by
  unfold State.writeIncident
  repeat' first
    | with_reducible apply Keeps.refl
    | with_reducible assumption
    | ((try lift_lets -underBinder); intro x; (refine Keeps.cut (s := s) x ?_ (fun hx => ?_); dsimp -zeta only [x]; rotate_left; clear_value x; rotate_right))
    | with_reducible apply Keeps.ite
    | split
    | with_reducible apply Keeps.after (State.putRecord_keeps ..)
    | with_reducible apply Keeps.after (State.modHealth_keeps ..)

theorem State.fileReport_keeps {s : State} {rep : Report} {sev action : Nat}  :
    Keeps s (State.fileReport s rep sev action).2 := by
  unfold State.fileReport
  repeat' first
    | with_reducible apply Keeps.refl
    | with_reducible assumption
    | ((try lift_lets -underBinder); intro x; first
        | (refine Keeps.cut (s := s) x ?_ (fun hx => ?_); dsimp -zeta only [x]; rotate_left; clear_value x; rotate_right)
        | clear_value x)
    | with_reducible apply Keeps.ite2
    | with_reducible apply Keeps.after (State.writeIncident_keeps ..)
    | with_reducible apply Keeps.after (State.modHealth_keeps ..)

theorem State.steward_keeps {s : State} {cls : Nat} {u : UnitId} {sub info0 info1 sev : Nat}  :
    Keeps s (State.steward s cls u sub info0 info1 sev) := by
  unfold State.steward
  repeat' first
    | with_reducible apply Keeps.refl
    | with_reducible apply Keeps.after (State.fileReport_keeps ..)

theorem State.drainCells_keeps {s : State}  :
    Keeps s (State.drainCells s) := by
  unfold State.drainCells
  repeat' first
    | with_reducible apply Keeps.refl
    | ((with_reducible refine Cell.Keeps.of ?_ ?_) <;> (simp; done))
    | with_reducible apply Cell.Keeps.ite
    | with_reducible refine Keeps.mk ?_ (hc := canon_map fun c => ?_)

theorem State.engineOut_keeps {s : State} {k : Nat}  :
    Keeps s (State.engineOut s k) := by
  unfold State.engineOut
  repeat' first
    | with_reducible apply Keeps.refl
    | with_reducible apply Keeps.ite
    | with_reducible apply Keeps.after (State.engineLost_keeps ..)
    | with_reducible apply Keeps.after (State.modEngine_keeps ..)

theorem State.finishDrain_keeps {s : State}  :
    Keeps s (State.finishDrain s) := by
  unfold State.finishDrain
  repeat' first
    | with_reducible apply Keeps.refl
    | with_reducible assumption
    | ((try lift_lets -underBinder); intro x; (refine Keeps.cut (s := s) x ?_ (fun hx => ?_); dsimp -zeta only [x]; rotate_left; clear_value x; rotate_right))
    | with_reducible apply Keeps.ite
    | (with_reducible apply Keeps.foldlFrom; rotate_left; intro s a; rotate_right)
    | with_reducible apply Keeps.after (State.engineOut_keeps ..)
    | with_reducible apply Keeps.after (State.drainCells_keeps ..)
    | with_reducible apply Keeps.after (State.drainAll_keeps ..)
    | with_reducible apply Keeps.after (State.modHealth_keeps ..)

theorem State.closePart_keeps {s : State} {p : Nat}  :
    Keeps s (State.closePart s p) := by
  unfold State.closePart
  repeat' first
    | with_reducible apply Keeps.refl
    | with_reducible apply Keeps.after (State.modPart_keeps ..)

theorem State.makeSuspect_keeps {s : State} {cls : Nat}  :
    Keeps s (State.makeSuspect s cls) := by
  unfold State.makeSuspect
  repeat' first
    | with_reducible apply Keeps.refl
    | with_reducible assumption
    | ((try lift_lets -underBinder); intro x; first
        | (refine Keeps.cut (s := s) x ?_ (fun hx => ?_); dsimp -zeta only [x]; rotate_left; clear_value x; rotate_right)
        | (have hP : Prop := x; clear hP))
    | with_reducible apply Keeps.ite
    | (with_reducible apply Keeps.foldlFrom; rotate_left; intro s a; rotate_right)
    | with_reducible apply Keeps.after (State.closePart_keeps ..)
    | with_reducible apply Keeps.after (State.finishDrain_keeps ..)
    | with_reducible apply Keeps.after (State.steward_keeps ..)
    | with_reducible apply Keeps.after (State.dropBatches_keeps ..)
    | with_reducible apply Keeps.after (State.hrvSend_keeps ..)
    | with_reducible apply Keeps.after (State.modHealth_keeps ..)

theorem State.setFatal_keeps {s : State} {bit : Nat} {rep : Report}  :
    Keeps s (State.setFatal s bit rep) := by
  unfold State.setFatal
  repeat' first
    | with_reducible apply Keeps.refl
    | with_reducible assumption
    | ((try lift_lets -underBinder); intro x; first
        | (refine Keeps.cut (s := s) x ?_ (fun hx => ?_); dsimp -zeta only [x]; rotate_left; clear_value x; rotate_right)
        | clear_value x)
    | with_reducible apply Keeps.ite
    | (with_reducible apply Keeps.foldlFrom; rotate_left; intro s a; rotate_right)
    | with_reducible apply Keeps.after (State.fileReport_keeps ..)
    | with_reducible apply Keeps.after (State.dropBatches_keeps ..)
    | with_reducible apply Keeps.after (State.modHealth_keeps ..)
    | with_reducible apply Keeps.after (State.modPart_keeps ..)

theorem State.setFatalBy_keeps {s : State} {bit cls : Nat} {unit : UnitId}  :
    Keeps s (State.setFatalBy s bit cls unit) := by
  unfold State.setFatalBy
  repeat' first
    | with_reducible apply Keeps.refl
    | with_reducible apply Keeps.after (State.setFatal_keeps ..)

theorem Cell.carry_keeps {new old : Cell} (h : old.Canon) : Cell.Keeps new (new.carry old) :=
  fun _ => ⟨h.1, compute_fresh_wf⟩

theorem Cell.vacate_keeps {c : Cell} {st : Nat}  :
    Cell.Keeps c (Cell.vacate c st) := by
  unfold Cell.vacate
  repeat' first
    | ((with_reducible refine Cell.Keeps.of ?_ ?_) <;> (simp; done))

theorem State.moveCell_keeps {s : State} {i k st : Nat} : Keeps s (State.moveCell s i k st) := by
  unfold State.moveCell
  lift_lets; intro old x
  have hx : Keeps s x :=
    State.modCell_keepsInv fun v c => (Cell.carry_keeps (cell_canon v i) : Cell.Keeps c (c.carry (s.cell i)))
  clear_value x
  repeat' first
    | with_reducible assumption
    | ((with_reducible refine Cell.Keeps.of ?_ ?_) <;> (simp; done))
    | ((try lift_lets -underBinder); intro x; (refine Keeps.cut (s := s) x ?_ (fun hx => ?_); dsimp -zeta only [x]; rotate_left; clear_value x; rotate_right))
    | with_reducible apply Keeps.ite
    | split
    | with_reducible apply Cell.Keeps.after (Cell.vacate_keeps ..)
    | with_reducible apply Keeps.after (State.steward_keeps ..)
    | with_reducible apply Keeps.after (State.modBatch_keeps ..)
    | with_reducible apply Keeps.after (State.modHealth_keeps ..)
    | with_reducible apply Keeps.after (State.modPart_keeps ..)
    | with_reducible apply Keeps.after (State.modCell_keeps (h := ?_) ..)
    | intro c

theorem State.jigNow_keeps {s : State} {pos grace cls : Nat}  :
    Keeps s (State.jigNow s pos grace cls) := by
  unfold State.jigNow
  repeat' first
    | with_reducible apply Keeps.refl
    | ((try lift_lets -underBinder); intro x; clear_value x)
    | with_reducible apply Keeps.after (State.modHealth_keeps ..)

theorem State.startJig_keeps {s : State} {u : UnitId} {cls : Nat}  :
    Keeps s (State.startJig s u cls) := by
  unfold State.startJig
  repeat' first
    | with_reducible apply Keeps.refl
    | (intro n; with_reducible rfl)
    | with_reducible apply Keeps.ite
    | with_reducible apply Keeps.after (State.jigNow_keeps ..)
    | with_reducible apply Keeps.after (State.modHealth_keeps ..)
    | with_reducible apply Keeps.after (State.modNet_keeps (h := ?_) ..)
    | with_reducible apply Keeps.after (State.modEngine_keeps ..)

theorem State.failStack_keeps {s : State} {k : Nat}  :
    Keeps s (State.failStack s k) := by
  unfold State.failStack
  repeat' first
    | with_reducible apply Keeps.refl
    | with_reducible assumption
    | ((try lift_lets -underBinder); intro x; (refine Keeps.cut (s := s) x ?_ (fun hx => ?_); dsimp -zeta only [x]; rotate_left; clear_value x; rotate_right))
    | with_reducible apply Keeps.after (State.makeSuspect_keeps ..)
    | with_reducible apply Keeps.after (State.steward_keeps ..)
    | with_reducible apply Keeps.after (State.modLark_keeps ..)
    | with_reducible apply Keeps.after (State.engineLost_keeps ..)
    | with_reducible apply Keeps.after (State.modEngine_keeps ..)

theorem State.failChannel_keeps {s : State} {k c : Nat}  :
    Keeps s (State.failChannel s k c) := by
  unfold State.failChannel
  repeat' first
    | with_reducible apply Keeps.refl
    | with_reducible assumption
    | ((try lift_lets -underBinder); intro x; (refine Keeps.cut (s := s) x ?_ (fun hx => ?_); dsimp -zeta only [x]; rotate_left; clear_value x; rotate_right))
    | with_reducible apply Keeps.after (State.makeSuspect_keeps ..)
    | with_reducible apply Keeps.after (State.steward_keeps ..)
    | with_reducible apply Keeps.after (State.modLark_keeps ..)
    | with_reducible apply Keeps.after (State.engineLost_keeps ..)
    | with_reducible apply Keeps.after (State.modEngine_keeps ..)

theorem State.repairAround_keeps {s : State} {u : UnitId} {cls : Nat}  :
    Keeps s (State.repairAround s u cls) := by
  unfold State.repairAround
  repeat' first
    | with_reducible apply Keeps.refl
    | with_reducible apply Keeps.ite
    | with_reducible apply Keeps.after (State.failStack_keeps ..)
    | with_reducible apply Keeps.after (State.jigNow_keeps ..)
    | with_reducible apply Keeps.after (State.makeSuspect_keeps ..)
    | with_reducible apply Keeps.after (State.larkRepair_keeps ..)
    | with_reducible apply Keeps.after (State.modEngine_keeps ..)

theorem State.judge_keeps {s : State} {u : UnitId} {cls : Nat}  :
    Keeps s (State.judge s u cls) := by
  unfold State.judge
  repeat' first
    | with_reducible apply Keeps.refl
    | ((try lift_lets -underBinder); intro x; clear_value x)
    | with_reducible apply Keeps.after (State.steward_keeps ..)
    | with_reducible apply Keeps.after (State.modLark_keeps ..)

theorem State.permanent_keeps {s : State} {u : UnitId} {cls : Nat}  :
    Keeps s (State.permanent s u cls) := by
  unfold State.permanent
  repeat' first
    | with_reducible apply Keeps.refl
    | with_reducible apply Keeps.after (State.judge_keeps ..)
    | with_reducible apply Keeps.after (State.repairAround_keeps ..)

theorem State.countEvent_keeps {s : State} {u : UnitId} {cls : Nat}  :
    Keeps s (State.countEvent s u cls) := by
  unfold State.countEvent
  repeat' first
    | with_reducible apply Keeps.refl
    | with_reducible assumption
    | ((try lift_lets -underBinder); intro x; first
        | (refine Keeps.cut (s := s) x ?_ (fun hx => ?_); dsimp -zeta only [x]; rotate_left; clear_value x; rotate_right)
        | clear_value x)
    | with_reducible apply Keeps.ite
    | with_reducible apply Keeps.after (State.permanent_keeps ..)
    | with_reducible apply Keeps.after (State.modLark_keeps ..)

theorem State.countIncident_keeps {s : State} {u : UnitId} {cls : Nat}  :
    Keeps s (State.countIncident s u cls) := by
  unfold State.countIncident
  repeat' first
    | with_reducible apply Keeps.refl
    | with_reducible assumption
    | ((try lift_lets -underBinder); intro x; first
        | (refine Keeps.cut (s := s) x ?_ (fun hx => ?_); dsimp -zeta only [x]; rotate_left; clear_value x; rotate_right)
        | clear_value x)
    | with_reducible apply Keeps.ite
    | split
    | with_reducible apply Keeps.after (State.countEvent_keeps ..)
    | with_reducible apply Keeps.after (State.modHealth_keeps ..)

theorem State.report_keeps {s : State} {rep : Report} {sev : Nat}  :
    Keeps s (State.report s rep sev) := by
  unfold State.report
  repeat' first
    | with_reducible apply Keeps.refl
    | ((try lift_lets -underBinder); intro x; clear_value x)
    | with_reducible apply Keeps.ite
    | split
    | with_reducible apply Keeps.after (State.countIncident_keeps ..)
    | with_reducible apply Keeps.after (State.startJig_keeps ..)
    | with_reducible apply Keeps.after (State.makeSuspect_keeps ..)
    | with_reducible apply Keeps.after (State.fileReport_keeps ..)
    | with_reducible apply Keeps.after (State.modHealth_keeps ..)

end Sys2Proof.Machine
end

