-- ==== Sys2Proof/Laws/KeepsOperands.lean ====
section
/-! SUPPORT. What every operation of Machine/Operands.lean keeps. -/
set_option linter.all false
set_option Elab.async false
namespace Sys2Proof.Machine

theorem State.advance_keeps {s : State} {i : Nat}  :
    Keeps s (State.advance s i) := by
  unfold State.advance
  repeat' first
    | with_reducible apply Keeps.refl
    | ((with_reducible refine Cell.Keeps.of ?_ ?_) <;> (simp; done))
    | with_reducible apply Keeps.after (State.modCell_keeps (h := ?_) ..)
    | intro c

theorem State.issue_keeps {s : State} {k g : Nat} {w : StepWord} {f : Nat → Nat → State → State} (h_f : ∀ x0 x1 t, Keeps t (f x0 x1 t)) :
    Keeps s (State.issue s k g w f) := by
  unfold State.issue
  repeat' first
    | with_reducible apply Keeps.refl
    | split
    | with_reducible apply Keeps.after (h_f ..)
    | with_reducible apply Keeps.after (State.advance_keeps ..)

theorem State.modCtx_keeps {s : State} {i : Nat} {f : Ctx → Ctx}  :
    Keeps s (State.modCtx s i f) := by
  unfold State.modCtx
  repeat' first
    | with_reducible apply Keeps.refl
    | ((with_reducible refine Cell.Keeps.of ?_ ?_) <;> (simp; done))
    | with_reducible apply Keeps.after (State.modCell_keeps (h := ?_) ..)
    | intro c

theorem State.setSd_keeps {s : State} {i : Nat} {w : StepWord} {v : Nat}  :
    Keeps s (State.setSd s i w v) := by
  unfold State.setSd
  repeat' first
    | with_reducible apply Keeps.refl
    | with_reducible apply Keeps.after (State.modCtx_keeps ..)

theorem State.cellFault_keeps {s : State} {i cause addr : Nat} {mask : Nat} {info : Nat} {engine : Option Nat}  :
    Keeps s (State.cellFault s i cause addr mask info engine) := by
  unfold State.cellFault
  repeat' first
    | with_reducible apply Keeps.refl
    | with_reducible assumption
    | ((with_reducible refine Cell.Keeps.of ?_ ?_) <;> (simp; done))
    | ((try lift_lets -underBinder); intro x; first
        | (refine Keeps.cut (s := s) x ?_ (fun hx => ?_); dsimp -zeta only [x]; rotate_left; clear_value x; rotate_right)
        | clear_value x)
    | with_reducible apply Keeps.ite
    | split
    | with_reducible apply Keeps.after (State.report_keeps ..)
    | with_reducible apply Keeps.after (State.modBatch_keeps ..)
    | with_reducible apply Keeps.after (State.modCell_keeps (h := ?_) ..)
    | intro c

theorem State.sendCredit_keeps {s : State} {c : Option CreditRef}  :
    Keeps s (State.sendCredit s c) := by
  unfold State.sendCredit
  repeat' first
    | with_reducible apply Keeps.refl
    | split
    | with_reducible refine Keeps.mk ?_

theorem State.sendToken_keeps {s : State} {g q : Nat} {k : Cls} {t : Token}  :
    Keeps s (State.sendToken s g q k t) := by
  unfold State.sendToken
  repeat' first
    | with_reducible apply Keeps.refl
    | with_reducible refine Keeps.mk ?_

theorem State.complete_keeps {s : State} {g q : Nat} {k : Cls} {sender : Agent} {status low : Nat}  :
    Keeps s (State.complete s g q k sender status low) := by
  unfold State.complete
  repeat' first
    | with_reducible apply Keeps.refl
    | with_reducible apply Keeps.after (State.sendToken_keeps ..)

theorem State.openAsync_keeps {s : State} {i : Nat} {o : AsyncOp}  :
    Keeps s (State.openAsync s i o) := by
  unfold State.openAsync
  repeat' first
    | with_reducible apply Keeps.refl
    | ((with_reducible refine Cell.Keeps.of ?_ ?_) <;> (simp; done))
    | with_reducible apply Keeps.after (State.modCell_keeps (h := ?_) ..)
    | intro c

theorem State.closeAsync_keeps {s : State} {i : Nat} {id : Nat}  :
    Keeps s (State.closeAsync s i id) := by
  unfold State.closeAsync
  repeat' first
    | with_reducible apply Keeps.refl
    | ((with_reducible refine Cell.Keeps.of ?_ ?_) <;> (simp; done))
    | with_reducible apply Keeps.after (State.modCell_keeps (h := ?_) ..)
    | intro c

theorem State.enterToken_keeps {s : State} {i q : Nat} {k : Cls} {t : Token}  :
    Keeps s (State.enterToken s i q k t).2 := by
  unfold State.enterToken
  repeat' first
    | with_reducible apply Keeps.refl
    | ((with_reducible refine Cell.Keeps.of ?_ ?_) <;> (simp; done))
    | ((try lift_lets -underBinder); intro x; first
        | (refine Keeps.cutP (s := s) x (fun a => ?_) (fun hp => ?_); dsimp -zeta only [x]; rotate_left; clear_value x; rotate_right)
        | clear_value x)
    | with_reducible apply Keeps.ite2
    | split
    | with_reducible apply Keeps.after (State.sendCredit_keeps ..)
    | with_reducible apply Keeps.after (State.modCell_keeps (h := ?_) ..)
    | intro c
    | (with_reducible apply Keeps.after; with_reducible apply_assumption -exfalso -symm)

theorem State.remoteStatus_keeps {s : State} {i : Nat} {ts : List Token}  :
    Keeps s (State.remoteStatus s i ts) := by
  unfold State.remoteStatus
  repeat' first
    | with_reducible apply Keeps.refl
    | split
    | with_reducible apply Keeps.after (State.cellFault_keeps ..)

theorem Compute.setTile_keeps {c : Compute} {td : Nat} {b : Bytes} : Compute.Keeps c (Compute.setTile c td b) := Compute.Keeps.junk

theorem State.holdTile_keeps {s : State} {i id td : Nat} : Keeps s (State.holdTile s i id td) := by
  unfold State.holdTile
  refine Keeps.trans (State.drawBytes_keeps (n := 16384)) ?_
  generalize s.drawBytes 16384 = p
  obtain ⟨junk, t⟩ := p
  refine State.modComp_keeps fun c v => ?_
  have h := (Compute.setTile_keeps (c := c) (td := td) (b := junk)) v
  revert h
  generalize c.setTile td junk = d
  exact fun h => h

theorem State.tileRows_keeps {s : State} {i id : Nat} {rows : List (Bytes × Bool)}  :
    Keeps s (State.tileRows s i id rows) := by
  unfold State.tileRows
  repeat' first
    | with_reducible apply Keeps.refl
    | with_reducible assumption
    | with_reducible apply Keeps.after (State.modComp_keeps (h := ?_) ..)
    | intro c

theorem Compute.land_keeps {c : Compute} {l : TileLand}  :
    Compute.Keeps c (Compute.land c l) := by
  unfold Compute.land
  repeat' first
    | with_reducible exact Compute.Keeps.refl _
    | with_reducible refine Compute.Keeps.foldlFrom ?_ (fun t a => ?_)
    | with_reducible exact Compute.Keeps.tiles Store.wf_write
    | with_reducible apply Keeps.after (Compute.setTile_keeps ..)

theorem State.landTile_keeps {s : State} {i id : Nat} : Keeps s (State.landTile s i id) := by
  unfold State.landTile
  split
  · exact .refl _
  rename_i l _
  lift_lets; intro x
  have hx : Keeps s x := State.modComp_keeps fun c v => v
  clear_value x
  split
  · exact hx.trans (State.modComp_keeps fun c => Compute.land_keeps)
  refine hx.trans (Keeps.trans (State.drawBytes_keeps (n := 16384)) ?_)
  generalize x.drawBytes 16384 = p
  obtain ⟨junk, t⟩ := p
  exact State.modComp_keeps fun c => Compute.setTile_keeps

theorem State.popTokens_keeps {s : State} {i q : Nat} {ts : List Token}  :
    Keeps s (State.popTokens s i q ts) := by
  unfold State.popTokens
  repeat' first
    | with_reducible apply Keeps.refl
    | (with_reducible apply Keeps.foldlFrom; rotate_left; intro s a; rotate_right)
    | with_reducible apply Keeps.after (State.landTile_keeps ..)
    | with_reducible apply Keeps.after (State.modCtx_keeps ..)

theorem State.hold_keeps {s : State} {i : Nat} {w : StepWord} {deadline : Option Nat}  :
    Keeps s (State.hold s i w deadline) := by
  unfold State.hold
  repeat' first
    | with_reducible apply Keeps.refl
    | ((with_reducible refine Cell.Keeps.of ?_ ?_) <;> (simp; done))
    | ((try lift_lets -underBinder); intro x; clear_value x)
    | with_reducible apply Keeps.after (State.modCell_keeps (h := ?_) ..)
    | intro c

theorem Cell.waited_keeps {c : Cell} {now : Nat}  :
    Cell.Keeps c (Cell.waited c now) := by
  unfold Cell.waited
  repeat' first
    | ((with_reducible refine Cell.Keeps.of ?_ ?_) <;> (simp; done))
    | split

theorem State.resume_keeps {s : State} {i : Nat}  :
    Keeps s (State.resume s i) := by
  unfold State.resume
  repeat' first
    | with_reducible apply Keeps.refl
    | ((with_reducible refine Cell.Keeps.of ?_ ?_) <;> (simp; done))
    | ((try lift_lets -underBinder); intro x; first
        | (refine Cell.Keeps.cut (c := c) x ?_ (fun hx => ?_); dsimp -zeta only [x]; rotate_left; clear_value x; rotate_right)
        | clear_value x)
    | split
    | with_reducible apply Cell.Keeps.after (Cell.waited_keeps ..)
    | with_reducible apply Keeps.after (State.modCell_keeps (h := ?_) ..)
    | ((with_reducible refine Cell.Keeps.trans hx (Cell.Keeps.of ?_ ?_)) <;> (simp; done))
    | intro c

end Sys2Proof.Machine
end

