-- ==== Sys2Proof/Laws/KeepsChains.lean ====
section
/-! SUPPORT. What every operation of Machine/Chains.lean keeps. -/
set_option linter.all false
set_option Elab.async false
namespace Sys2Proof.Machine

theorem State.modSlot_keeps {s : State} {i n : Nat} {f : Slot → Slot}  :
    Keeps s (State.modSlot s i n f) := by
  unfold State.modSlot
  repeat' first
    | with_reducible apply Keeps.refl
    | ((with_reducible refine Cell.Keeps.of ?_ ?_) <;> (simp; done))
    | with_reducible apply Keeps.after (State.modCell_keeps (h := ?_) ..)
    | intro c

theorem State.countSlot_keeps {s : State} {i n : Nat} {f : Slot → Slot}  :
    Keeps s (State.countSlot s i n f) := by
  unfold State.countSlot
  repeat' first
    | with_reducible apply Keeps.refl
    | with_reducible apply Keeps.ite
    | with_reducible apply Keeps.after (State.modSlot_keeps ..)

theorem State.countPort_keeps {s : State} {i kind bytes marks : Nat}  :
    Keeps s (State.countPort s i kind bytes marks) := by
  unfold State.countPort
  repeat' first
    | with_reducible apply Keeps.refl
    | ((with_reducible refine Cell.Keeps.of ?_ ?_) <;> (simp; done))
    | ((try lift_lets -underBinder); intro x; clear_value x)
    | with_reducible apply Cell.Keeps.ite
    | split
    | with_reducible apply Keeps.after (State.modCell_keeps (h := ?_) ..)
    | intro c

theorem State.spendPort_keeps {s : State} {i : Nat} {k : Cls} {kind bytes : Nat}  :
    Keeps s (State.spendPort s i k kind bytes) := by
  unfold State.spendPort
  repeat' first
    | with_reducible apply Keeps.refl
    | ((with_reducible refine Cell.Keeps.of ?_ ?_) <;> (simp; done))
    | with_reducible apply Keeps.after (State.modCell_keeps (h := ?_) ..)
    | intro c

theorem State.portBytes_keeps {s : State} {i : Nat} {k : Cls} {kind bytes marks : Nat}  :
    Keeps s (State.portBytes s i k kind bytes marks) := by
  unfold State.portBytes
  repeat' first
    | with_reducible apply Keeps.refl
    | with_reducible apply Keeps.after (State.spendPort_keeps ..)
    | with_reducible apply Keeps.after (State.countPort_keeps ..)

theorem State.closeSlotOp_keeps {s : State} {i kind n : Nat}  :
    Keeps s (State.closeSlotOp s i kind n) := by
  unfold State.closeSlotOp
  repeat' first
    | with_reducible apply Keeps.refl
    | ((with_reducible refine Cell.Keeps.of ?_ ?_) <;> (simp; done))
    | with_reducible apply Keeps.after (State.modCell_keeps (h := ?_) ..)
    | intro c

theorem State.arrivalToken_keeps {s : State} {i : Nat} {k : Cls} {cr : Nat} {v : BitVec 32}  :
    Keeps s (State.arrivalToken s i k cr v).2 := by
  unfold State.arrivalToken
  repeat' first
    | with_reducible apply Keeps.refl
    | ((with_reducible refine Cell.Keeps.of ?_ ?_) <;> (simp; done))
    | ((try lift_lets -underBinder); intro x; clear_value x)
    | with_reducible apply Keeps.ite2
    | split
    | with_reducible apply Keeps.after (State.sendToken_keeps ..)
    | with_reducible apply Keeps.after (State.modCell_keeps (h := ?_) ..)
    | intro c

theorem State.modRun_keeps {s : State} {i n : Nat} {f : ChainRun → ChainRun}  :
    Keeps s (State.modRun s i n f) := by
  unfold State.modRun
  repeat' first
    | with_reducible apply Keeps.refl
    | with_reducible apply Keeps.after (State.modSlot_keeps ..)

theorem State.ringReturn_keeps {s : State} {g n : Nat}  :
    Keeps s (State.ringReturn s g n) := by
  unfold State.ringReturn
  repeat' first
    | with_reducible apply Keeps.refl
    | split
    | with_reducible apply Keeps.after (State.sendCredit_keeps ..)

theorem State.payload_keeps {s : State} {a : Agent} {p hg src off n : Nat}  :
    Keeps s (State.payload s a p hg src off n).2 := by
  unfold State.payload
  repeat' first
    | with_reducible apply Keeps.refl
    | with_reducible apply Keeps.ite2
    | with_reducible apply Keeps.after (State.vread_keeps ..)

theorem State.ringLand_keeps {s : State} {g n : Nat} {c : Chunk} {d : Data}  :
    Keeps s (State.ringLand s g n c d) := by
  unfold State.ringLand
  repeat' first
    | with_reducible apply Keeps.refl
    | ((try lift_lets -underBinder); intro x; clear_value x)
    | split
    | with_reducible apply Keeps.after (State.modSlot_keeps ..)
    | with_reducible apply Keeps.after (State.scratchWrite_keeps ..)

theorem State.edgeSend_keeps (i n j : Nat) (live : Option (Chunk × Data)) (f : Nat) : ∀ s, Keeps s (State.edgeSend i n j live f s) := by
  induction f with
  | zero => intro s; exact .refl _
  | succ f ih => ?_
  intro s
  unfold State.edgeSend
  repeat' first
    | with_reducible apply Keeps.refl
    | with_reducible assumption
    | ((try lift_lets -underBinder); intro x; first
        | (refine Keeps.cut (s := s) x ?_ (fun hx => ?_); dsimp -zeta only [x]; rotate_left; clear_value x; rotate_right)
        | clear_value x)
    | with_reducible apply Keeps.ite
    | split
    | with_reducible apply Keeps.after (ih ..)
    | with_reducible apply Keeps.after (State.ringLand_keeps ..)
    | with_reducible apply Keeps.after (State.payload_keeps ..)
    | with_reducible apply Keeps.after (State.modRun_keeps ..)
    | with_reducible apply Keeps.after (State.portBytes_keeps ..)
    | with_reducible apply Keeps.after (State.countSlot_keeps ..)
    | (with_reducible apply Keeps.of_pair; with_reducible assumption)

theorem State.chainSend_keeps {s : State} {i n : Nat} {live : Option (Chunk × Data)}  :
    Keeps s (State.chainSend s i n live) := by
  unfold State.chainSend
  repeat' first
    | with_reducible apply Keeps.refl
    | with_reducible assumption
    | ((try lift_lets -underBinder); intro x; first
        | (refine Keeps.cut (s := s) x ?_ (fun hx => ?_); dsimp -zeta only [x]; rotate_left; clear_value x; rotate_right)
        | clear_value x)
    | split
    | (with_reducible apply Keeps.foldlFrom; rotate_left; intro s a; rotate_right)
    | with_reducible apply Keeps.after (State.edgeSend_keeps ..)
    | with_reducible apply Keeps.after (State.modRun_keeps ..)

theorem State.chainTokens_keeps (i n f : Nat) : ∀ s, Keeps s (State.chainTokens i n f s) := by
  induction f with
  | zero => intro s; exact .refl _
  | succ f ih => ?_
  intro s
  unfold State.chainTokens
  repeat' first
    | with_reducible apply Keeps.refl
    | with_reducible apply Keeps.ite
    | split
    | with_reducible apply Keeps.after (ih ..)
    | with_reducible apply Keeps.after (State.arrivalToken_keeps ..)
    | with_reducible apply Keeps.after (State.modSlot_keeps ..)

theorem State.chainTry_keeps {s : State} {i n : Nat}  :
    Keeps s (State.chainTry s i n) := by
  unfold State.chainTry
  repeat' first
    | with_reducible apply Keeps.refl
    | with_reducible assumption
    | ((try lift_lets -underBinder); intro x; first
        | (refine Keeps.cut (s := s) x ?_ (fun hx => ?_); dsimp -zeta only [x]; rotate_left; clear_value x; rotate_right)
        | clear_value x)
    | with_reducible apply Keeps.ite
    | split
    | with_reducible apply Keeps.after (State.closeSlotOp_keeps ..)
    | with_reducible apply Keeps.after (State.modSlot_keeps ..)
    | with_reducible apply Keeps.after (State.complete_keeps ..)

theorem State.recordSkip_keeps {s : State} {i n : Nat} {k : Skip}  :
    Keeps s (State.recordSkip s i n k) := by
  unfold State.recordSkip
  repeat' first
    | with_reducible apply Keeps.refl
    | with_reducible assumption
    | ((try lift_lets -underBinder); intro x; (refine Keeps.cut (s := s) x ?_ (fun hx => ?_); dsimp -zeta only [x]; rotate_left; clear_value x; rotate_right))
    | with_reducible apply Keeps.after (State.countSlot_keeps ..)
    | with_reducible apply Keeps.after (State.modSlot_keeps ..)

theorem State.chainNothing_keeps (f : Nat) : ∀ g n s, Keeps s (State.chainNothing f g n s) := by
  induction f with
  | zero => intro g n s; exact .refl _
  | succ f ih => ?_
  intro g n s
  unfold State.chainNothing
  repeat' first
    | with_reducible apply Keeps.refl
    | with_reducible assumption
    | ((try lift_lets -underBinder); intro x; (refine Keeps.cut (s := s) x ?_ (fun hx => ?_); dsimp -zeta only [x]; rotate_left; clear_value x; rotate_right))
    | with_reducible apply Keeps.ite
    | split
    | (with_reducible apply Keeps.foldlFrom; rotate_left; intro s a; rotate_right)
    | with_reducible apply Keeps.after (ih ..)
    | with_reducible apply Keeps.after (State.chainTry_keeps ..)
    | with_reducible apply Keeps.after (State.modRun_keeps ..)
    | with_reducible apply Keeps.after (State.modSlot_keeps ..)

theorem State.chainJoin_keeps {s : State} {i : Nat} {u : Chain} {n : Nat} {r : ChainRun} {k : Cls}  :
    Keeps s (State.chainJoin s i u n r k) := by
  unfold State.chainJoin
  repeat' first
    | with_reducible apply Keeps.refl
    | with_reducible assumption
    | ((with_reducible refine Cell.Keeps.of ?_ ?_) <;> (simp; done))
    | ((try lift_lets -underBinder); intro x; first
        | (refine Keeps.cut (s := s) x ?_ (fun hx => ?_); dsimp -zeta only [x]; rotate_left; clear_value x; rotate_right)
        | clear_value x)
    | with_reducible apply Keeps.ite
    | split
    | (with_reducible apply Keeps.foldlFrom; rotate_left; intro s a; rotate_right)
    | with_reducible apply Keeps.after (State.chainNothing_keeps ..)
    | with_reducible apply Keeps.after (State.recordSkip_keeps ..)
    | with_reducible apply Keeps.after (State.chainTry_keeps ..)
    | with_reducible apply Keeps.after (State.chainSend_keeps ..)
    | with_reducible apply Keeps.after (State.ringReturn_keeps ..)
    | with_reducible apply Keeps.after (State.modRun_keeps ..)
    | with_reducible apply Keeps.after (State.modSlot_keeps ..)
    | with_reducible apply Keeps.after (State.modCell_keeps (h := ?_) ..)
    | intro c
    | with_reducible refine Keeps.mk ?_

theorem State.chainStart_keeps {s : State} {i : Nat} {u : Chain} {n : Nat} {w : StepWord}  :
    Keeps s (State.chainStart s i u n w) := by
  unfold State.chainStart
  repeat' first
    | with_reducible apply Keeps.refl
    | ((try lift_lets -underBinder); intro x; first
        | (refine Keeps.cutF2 x (fun s a => ?_) (fun hg => ?_); dsimp -zeta only [x]; rotate_left; clear_value x; rotate_right)
        | clear_value x
        | (have hP : Prop := x; clear hP))
    | with_reducible apply Keeps.ite
    | split
    | with_reducible apply Keeps.after (State.chainJoin_keeps ..)
    | with_reducible apply Keeps.after (State.modSlot_keeps ..)
    | with_reducible apply Keeps.after (State.complete_keeps ..)
    | with_reducible apply Keeps.after (State.wordRead_keeps ..)
    | with_reducible apply Keeps.after (State.countXltFault_keeps ..)
    | (with_reducible apply Keeps.after; with_reducible apply_assumption -exfalso -symm)

theorem State.chainDrop_keeps {s : State} {i n j : Nat}  :
    Keeps s (State.chainDrop s i n j) := by
  unfold State.chainDrop
  repeat' first
    | with_reducible apply Keeps.refl
    | with_reducible assumption
    | ((try lift_lets -underBinder); intro x; first
        | (refine Keeps.cut (s := s) x ?_ (fun hx => ?_); dsimp -zeta only [x]; rotate_left; clear_value x; rotate_right)
        | clear_value x)
    | with_reducible apply Keeps.ite
    | split
    | with_reducible apply Keeps.after (State.chainTry_keeps ..)
    | with_reducible apply Keeps.after (State.chainSend_keeps ..)
    | with_reducible apply Keeps.after (State.modRun_keeps ..)
    | with_reducible apply Keeps.after (State.countSlot_keeps ..)
    | with_reducible apply Keeps.after (State.modSlot_keeps ..)
    | with_reducible refine Keeps.mk ?_

theorem State.chainLag_keeps {s : State} {i n : Nat}  :
    Keeps s (State.chainLag s i n) := by
  unfold State.chainLag
  repeat' first
    | with_reducible apply Keeps.refl
    | ((try lift_lets -underBinder); intro x; clear_value x)
    | with_reducible apply Keeps.ite
    | split
    | (with_reducible apply Keeps.foldlFrom; rotate_left; intro s a; rotate_right)
    | with_reducible apply Keeps.after (State.chainDrop_keeps ..)

theorem State.chainChunk_keeps {s : State} {i n : Nat} {c : Chunk} {d : Data} {forward : Bool}  :
    Keeps s (State.chainChunk s i n c d forward) := by
  unfold State.chainChunk
  repeat' first
    | with_reducible apply Keeps.refl
    | with_reducible assumption
    | ((try lift_lets -underBinder); intro x; first
        | (refine Keeps.cut (s := s) x ?_ (fun hx => ?_); dsimp -zeta only [x]; rotate_left; clear_value x; rotate_right)
        | clear_value x)
    | with_reducible apply Keeps.ite
    | split
    | with_reducible apply Keeps.after (State.chainLag_keeps ..)
    | with_reducible apply Keeps.after (State.chainTry_keeps ..)
    | with_reducible apply Keeps.after (State.chainTokens_keeps ..)
    | with_reducible apply Keeps.after (State.chainSend_keeps ..)
    | with_reducible apply Keeps.after (State.modRun_keeps ..)
    | with_reducible apply Keeps.after (State.countSlot_keeps ..)
    | with_reducible apply Keeps.after (State.modSlot_keeps ..)
    | with_reducible apply Keeps.after (State.scratchWrite_keeps ..)

end Sys2Proof.Machine
end

