-- ==== Sys2Proof/Laws/KeepsSequencer.lean ====
section
/-! SUPPORT. What every operation of Machine/Sequencer.lean keeps. -/
set_option linter.all false
set_option Elab.async false
namespace Sys2Proof.Machine

theorem State.waitTry_keeps {s : State} {i : Nat} {w : StepWord}  :
    Keeps s (State.waitTry s i w).2 := by
  unfold State.waitTry
  repeat' first
    | with_reducible apply Keeps.refl
    | ((try lift_lets -underBinder); intro x; clear_value x)
    | with_reducible apply Keeps.ite2
    | with_reducible apply Keeps.after (State.resume_keeps ..)
    | with_reducible apply Keeps.after (State.popTokens_keeps ..)
    | with_reducible apply Keeps.after (State.remoteStatus_keeps ..)
    | with_reducible apply Keeps.after (State.setSd_keeps ..)

theorem State.waitAnyTry_keeps {s : State} {i : Nat} {w : StepWord}  :
    Keeps s (State.waitAnyTry s i w).2 := by
  unfold State.waitAnyTry
  repeat' first
    | with_reducible apply Keeps.refl
    | ((try lift_lets -underBinder); intro x; clear_value x)
    | split
    | with_reducible apply Keeps.after (State.resume_keeps ..)
    | with_reducible apply Keeps.after (State.popTokens_keeps ..)
    | with_reducible apply Keeps.after (State.remoteStatus_keeps ..)
    | with_reducible apply Keeps.after (State.setSd_keeps ..)

theorem State.ebindTry_keeps {s : State} {i : Nat} {w : StepWord}  :
    Keeps s (State.ebindTry s i w).2 := by
  unfold State.ebindTry
  repeat' first
    | with_reducible apply Keeps.refl
    | ((try lift_lets -underBinder); intro x; clear_value x)
    | split
    | with_reducible apply Keeps.after (State.resume_keeps ..)
    | with_reducible apply Keeps.after (State.popTokens_keeps ..)
    | with_reducible apply Keeps.after (State.setSd_keeps ..)

theorem State.posttTry_keeps {s : State} {i : Nat} {w : StepWord}  :
    Keeps s (State.posttTry s i w).2 := by
  unfold State.posttTry
  repeat' first
    | with_reducible apply Keeps.refl
    | with_reducible assumption
    | ((try lift_lets -underBinder); intro x; first
        | (refine Keeps.cut (s := s) x ?_ (fun hx => ?_); dsimp -zeta only [x]; rotate_left; clear_value x; rotate_right)
        | clear_value x)
    | with_reducible apply Keeps.ite2
    | split
    | with_reducible apply Keeps.after (State.resume_keeps ..)
    | with_reducible apply Keeps.after (State.sendToken_keeps ..)
    | with_reducible apply Keeps.after (State.modCtx_keeps ..)

theorem State.relStart_keeps {s : State} {i : Nat} {w : StepWord}  :
    Keeps s (State.relStart s i w) := by
  unfold State.relStart
  repeat' first
    | with_reducible apply Keeps.refl
    | with_reducible assumption
    | ((with_reducible refine Cell.Keeps.of ?_ ?_) <;> (simp; done))
    | ((try lift_lets -underBinder); intro x; first
        | (refine Keeps.cut (s := s) x ?_ (fun hx => ?_); dsimp -zeta only [x]; rotate_left; clear_value x; rotate_right)
        | clear_value x)
    | with_reducible apply Keeps.ite
    | (with_reducible apply Keeps.foldlFrom; rotate_left; intro s a; rotate_right)
    | with_reducible apply Keeps.after (State.hold_keeps ..)
    | with_reducible apply Keeps.after (State.modStack_keeps ..)
    | with_reducible apply Keeps.after (State.modCell_keeps (h := ?_) ..)
    | intro c

theorem State.relTry_keeps {s : State} {i : Nat}  :
    Keeps s (State.relTry s i).2 := by
  unfold State.relTry
  repeat' first
    | with_reducible apply Keeps.refl
    | with_reducible apply Keeps.ite2
    | with_reducible apply Keeps.after (State.resume_keeps ..)

theorem State.startStream_keeps {s : State} {i : Nat} {w : StepWord}  :
    Keeps s (State.startStream s i w) := by
  unfold State.startStream
  repeat' first
    | with_reducible apply Keeps.refl
    | with_reducible assumption
    | ((try lift_lets -underBinder); intro x; first
        | (refine Keeps.cut (s := s) x ?_ (fun hx => ?_); dsimp -zeta only [x]; rotate_left; clear_value x; rotate_right)
        | clear_value x)
    | with_reducible apply Keeps.ite
    | split
    | (with_reducible apply Keeps.foldlFrom; rotate_left; intro s a; rotate_right)
    | with_reducible apply Keeps.after (State.modSlot_keeps ..)
    | with_reducible apply Keeps.after (State.openAsync_keeps ..)
    | with_reducible apply Keeps.after (State.newId_keeps ..)
    | (with_reducible apply Keeps.of_pair; with_reducible assumption)

theorem State.sstartTry_keeps {s : State} {i : Nat} {w : StepWord}  :
    Keeps s (State.sstartTry s i w).2 := by
  unfold State.sstartTry
  repeat' first
    | with_reducible apply Keeps.refl
    | with_reducible apply Keeps.ite2
    | with_reducible apply Keeps.after (State.startStream_keeps ..)
    | with_reducible apply Keeps.after (State.resume_keeps ..)

theorem State.chfwdTry_keeps {s : State} {i : Nat} {w : StepWord}  :
    Keeps s (State.chfwdTry s i w).2 := by
  unfold State.chfwdTry
  repeat' first
    | with_reducible apply Keeps.refl
    | with_reducible apply Keeps.ite2
    | split
    | with_reducible apply Keeps.after (State.chainStart_keeps ..)
    | with_reducible apply Keeps.after (State.resume_keeps ..)

theorem State.endTry_keeps {s : State} {i : Nat}  :
    Keeps s (State.endTry s i).2 := by
  unfold State.endTry
  repeat' first
    | with_reducible apply Keeps.refl
    | ((try lift_lets -underBinder); intro x; clear_value x)
    | with_reducible apply Keeps.ite2
    | with_reducible apply Keeps.after (State.endJob_keeps ..)

theorem State.layerTake_keeps {s : State} {i : Nat} {w : StepWord}  :
    Keeps s (State.layerTake s i w) := by
  unfold State.layerTake
  repeat' first
    | with_reducible apply Keeps.refl
    | with_reducible assumption
    | ((with_reducible refine Cell.Keeps.of ?_ ?_) <;> (simp; done))
    | ((try lift_lets -underBinder); intro x; first
        | (refine Keeps.cut (s := s) x ?_ (fun hx => ?_); dsimp -zeta only [x]; rotate_left; clear_value x; rotate_right)
        | clear_value x)
    | with_reducible apply Keeps.ite
    | with_reducible apply Keeps.after (State.hold_keeps ..)
    | with_reducible apply Keeps.after (State.endSusp_keeps ..)
    | with_reducible apply Keeps.after (State.endJob_keeps ..)
    | with_reducible apply Keeps.after (State.modCell_keeps (h := ?_) ..)
    | intro c

theorem State.sliceStart_keeps {s : State} {i : Nat}  :
    Keeps s (State.sliceStart s i) := by
  unfold State.sliceStart
  repeat' first
    | with_reducible apply Keeps.refl
    | with_reducible assumption
    | ((with_reducible refine Cell.Keeps.of ?_ ?_) <;> (simp; done))
    | ((try lift_lets -underBinder); intro x; first
        | (refine Keeps.cut (s := s) x ?_ (fun hx => ?_); dsimp -zeta only [x]; rotate_left; clear_value x; rotate_right)
        | clear_value x)
    | with_reducible apply Keeps.ite
    | split
    | with_reducible apply Keeps.after (State.draw_keeps ..)
    | with_reducible apply Keeps.after (State.modHealth_keeps ..)
    | with_reducible apply Keeps.after (State.modCell_keeps (h := ?_) ..)
    | intro c

theorem State.layerDone_keeps {s : State} {i : Nat}  :
    Keeps s (State.layerDone s i) := by
  unfold State.layerDone
  repeat' first
    | with_reducible apply Keeps.refl
    | with_reducible apply Keeps.after (State.sliceStart_keeps ..)
    | with_reducible apply Keeps.after (State.resume_keeps ..)

theorem State.layerTry_keeps {s : State} {i : Nat}  :
    Keeps s (State.layerTry s i).2 := by
  unfold State.layerTry
  repeat' first
    | with_reducible apply Keeps.refl
    | ((try lift_lets -underBinder); intro x; clear_value x)
    | with_reducible apply Keeps.ite2
    | with_reducible apply Keeps.after (State.layerDone_keeps ..)

theorem State.wake_keeps {s : State} {i : Nat}  :
    Keeps s (State.wake s i) := by
  unfold State.wake
  repeat' first
    | with_reducible apply Keeps.refl
    | ((try lift_lets -underBinder); intro x; clear_value x)
    | with_reducible apply Keeps.ite
    | split
    | with_reducible apply Keeps.after (State.layerTry_keeps ..)
    | with_reducible apply Keeps.after (State.endTry_keeps ..)
    | with_reducible apply Keeps.after (State.chfwdTry_keeps ..)
    | with_reducible apply Keeps.after (State.sstartTry_keeps ..)
    | with_reducible apply Keeps.after (State.relTry_keeps ..)
    | with_reducible apply Keeps.after (State.posttTry_keeps ..)
    | with_reducible apply Keeps.after (State.ebindTry_keeps ..)
    | with_reducible apply Keeps.after (State.waitAnyTry_keeps ..)
    | with_reducible apply Keeps.after (State.waitTry_keeps ..)

theorem State.orHold_keeps {s : State} {i : Nat} {w : StepWord} {r : Bool × State} {deadline : Option Nat} (h_r : Keeps s r.2) :
    Keeps s (State.orHold s i w r deadline) := by
  unfold State.orHold
  repeat' first
    | with_reducible apply Keeps.refl
    | with_reducible assumption
    | with_reducible apply Keeps.ite
    | with_reducible apply Keeps.after (State.hold_keeps ..)

theorem State.tokenArrive_keeps {s : State} {i q : Nat} {k : Cls} {t : Token}  :
    Keeps s (State.tokenArrive s i q k t) := by
  unfold State.tokenArrive
  repeat' first
    | with_reducible apply Keeps.refl
    | with_reducible apply Keeps.ite
    | with_reducible apply Keeps.after (State.wake_keeps ..)
    | with_reducible apply Keeps.after (State.enterToken_keeps ..)
    | with_reducible apply Keeps.after (State.cellFault_keeps ..)

theorem State.creditArrive_keeps {s : State} {g : Nat} {k : Cls} {cr : Nat}  :
    Keeps s (State.creditArrive s g k cr) := by
  unfold State.creditArrive
  repeat' first
    | with_reducible apply Keeps.refl
    | ((with_reducible refine Cell.Keeps.of ?_ ?_) <;> (simp; done))
    | split
    | with_reducible apply Keeps.after (State.wake_keeps ..)
    | with_reducible apply Keeps.after (State.modCell_keeps (h := ?_) ..)
    | intro c

end Sys2Proof.Machine
end

