-- ==== Sys2Proof/Laws/KeepsTiles.lean ====
section
/-! SUPPORT. What every operation of Machine/Tiles.lean keeps. -/
set_option linter.all false
set_option Elab.async false
namespace Sys2Proof.Machine

theorem Compute.setRow_keeps {c : Compute} {t r : Nat} {m : Bool} {b : Bytes}  :
    Compute.Keeps c (Compute.setRow c t r m b) := by
  unfold Compute.setRow
  repeat' first
    | with_reducible exact Compute.Keeps.tiles Store.wf_write

theorem Compute.setRows_keeps {c : Compute} {t : Nat} {f : Nat → Bytes × Bool}  :
    Compute.Keeps c (Compute.setRows c t f) := by
  unfold Compute.setRows
  repeat' first
    | with_reducible exact Compute.Keeps.refl _
    | with_reducible refine Compute.Keeps.foldlFrom ?_ (fun t a => ?_)
    | dsimp only
    | with_reducible apply Compute.Keeps.after (Compute.setRow_keeps ..)

theorem State.scramble_keeps {s : State} {i : Nat} {ts : List Nat}  :
    Keeps s (State.scramble s i ts) := by
  unfold State.scramble
  repeat' first
    | with_reducible apply Keeps.refl
    | with_reducible exact Compute.Keeps.junk
    | split
    | (with_reducible apply Keeps.foldlFrom; rotate_left; intro s a; rotate_right)
    | with_reducible apply Keeps.after (State.drawBytes_keeps ..)
    | with_reducible apply Keeps.after (State.modComp_keeps (h := ?_) ..)
    | (with_reducible apply Keeps.of_pair; with_reducible assumption)
    | intro c

theorem State.cellWrite_keeps {s : State} {i p word : Nat} {d : Data}  :
    Keeps s (State.cellWrite s i p word d) := by
  unfold State.cellWrite
  repeat' first
    | with_reducible apply Keeps.refl
    | with_reducible assumption
    | ((with_reducible refine Cell.Keeps.of ?_ ?_) <;> (simp; done))
    | ((try lift_lets -underBinder); intro x; first
        | (refine Keeps.cut (s := s) x ?_ (fun hx => ?_); dsimp -zeta only [x]; rotate_left; clear_value x; rotate_right)
        | clear_value x)
    | with_reducible apply Keeps.after (State.wordWrite_keeps ..)
    | with_reducible apply Keeps.after (State.modCell_keeps (h := ?_) ..)
    | intro c

theorem State.cellRead_keeps {s : State} {i p word n : Nat}  :
    Keeps s (State.cellRead s i p word n).2 := by
  unfold State.cellRead
  repeat' first
    | with_reducible apply Keeps.refl
    | with_reducible apply Keeps.after (State.wordRead_keeps ..)

theorem State.xltFault_keeps {s : State} {i p cause addr mask : Nat} {w : StepWord}  :
    Keeps s (State.xltFault s i p cause addr mask w) := by
  unfold State.xltFault
  repeat' first
    | with_reducible apply Keeps.refl
    | split
    | with_reducible apply Keeps.after (State.cellFault_keeps ..)
    | with_reducible apply Keeps.after (State.countXltFault_keeps ..)

theorem State.tileLoad_keeps {s : State} {i p : Nat} {w : StepWord} {rows n : Nat} {row : Nat → Nat}  :
    Keeps s (State.tileLoad s i p w rows n row) := by
  unfold State.tileLoad
  repeat' first
    | with_reducible apply Keeps.refl
    | ((try lift_lets -underBinder); intro x; clear_value x)
    | with_reducible apply Keeps.ite
    | split
    | (with_reducible apply Keeps.foldlFrom; rotate_left; intro s a; rotate_right)
    | with_reducible apply Keeps.after (State.xltFault_keeps ..)
    | with_reducible apply Keeps.after (State.cellRead_keeps ..)
    | with_reducible apply Compute.Keeps.after (Compute.setRow_keeps ..)
    | with_reducible apply Keeps.after (State.cellFault_keeps ..)
    | with_reducible apply Keeps.after (State.modComp_keeps (h := ?_) ..)
    | (with_reducible apply Keeps.of_pair; with_reducible assumption)
    | with_reducible exact Compute.Keeps.refl _
    | intro c

theorem State.tileStore_keeps {s : State} {i p : Nat} {w : StepWord} {rows n : Nat} {row : Nat → Nat}  :
    Keeps s (State.tileStore s i p w rows n row) := by
  unfold State.tileStore
  repeat' first
    | with_reducible apply Keeps.refl
    | ((try lift_lets -underBinder); intro x; first
        | (refine Keeps.cutF2 x (fun s a => ?_) (fun hg => ?_); dsimp -zeta only [x]; rotate_left; clear_value x; rotate_right)
        | clear_value x)
    | with_reducible apply Keeps.ite
    | split
    | (with_reducible apply Keeps.foldlFrom; rotate_left; intro s a; rotate_right)
    | with_reducible apply Keeps.after (State.xltFault_keeps ..)
    | with_reducible apply Keeps.after (State.cellWrite_keeps ..)
    | with_reducible apply Keeps.after (State.cellFault_keeps ..)
    | with_reducible apply Keeps.after (State.draw_keeps ..)
    | (with_reducible apply Keeps.of_pair; with_reducible assumption)
    | (with_reducible apply Keeps.after; with_reducible apply_assumption -exfalso -symm)

theorem execTld_keeps {g : Nat} {w : StepWord} {s : State}  :
    KeepsO s (execTld g w s) := by
  unfold execTld
  repeat' first
    | with_reducible apply Keeps.refl
    | with_reducible apply KeepsO.next
    | with_reducible apply Keeps.after (State.tileLoad_keeps ..)
    | with_reducible apply Keeps.after (State.issue_keeps (h_f := fun x0 x1 s => ?_) ..)

theorem execTst_keeps {g : Nat} {w : StepWord} {s : State}  :
    KeepsO s (execTst g w s) := by
  unfold execTst
  repeat' first
    | with_reducible apply Keeps.refl
    | with_reducible apply KeepsO.next
    | with_reducible apply Keeps.after (State.tileStore_keeps ..)
    | with_reducible apply Keeps.after (State.issue_keeps (h_f := fun x0 x1 s => ?_) ..)

theorem execTlds_keeps {g : Nat} {w : StepWord} {s : State}  :
    KeepsO s (execTlds g w s) := by
  unfold execTlds
  repeat' first
    | with_reducible apply Keeps.refl
    | with_reducible apply KeepsO.next
    | with_reducible apply Keeps.after (State.tileLoad_keeps ..)
    | with_reducible apply Keeps.after (State.issue_keeps (h_f := fun x0 x1 s => ?_) ..)

theorem execTsts_keeps {g : Nat} {w : StepWord} {s : State}  :
    KeepsO s (execTsts g w s) := by
  unfold execTsts
  repeat' first
    | with_reducible apply Keeps.refl
    | with_reducible apply KeepsO.next
    | with_reducible apply Keeps.after (State.tileStore_keeps ..)
    | with_reducible apply Keeps.after (State.issue_keeps (h_f := fun x0 x1 s => ?_) ..)

theorem execTmov_keeps {g : Nat} {w : StepWord} {s : State}  :
    KeepsO s (execTmov g w s) := by
  unfold execTmov
  repeat' first
    | with_reducible apply Keeps.refl
    | ((try lift_lets -underBinder); intro x; clear_value x)
    | with_reducible apply KeepsO.next
    | with_reducible apply Compute.Keeps.after (Compute.setRows_keeps ..)
    | with_reducible apply Keeps.after (State.issue_keeps (h_f := fun x0 x1 s => ?_) ..)
    | with_reducible apply Keeps.after (State.modComp_keeps (h := ?_) ..)
    | with_reducible exact Compute.Keeps.refl _
    | intro c

theorem execTsel_keeps {g : Nat} {w : StepWord} {s : State}  :
    KeepsO s (execTsel g w s) := by
  unfold execTsel
  repeat' first
    | with_reducible apply Keeps.refl
    | ((try lift_lets -underBinder); intro x; clear_value x)
    | with_reducible apply KeepsO.next
    | with_reducible apply Compute.Keeps.after (Compute.setRows_keeps ..)
    | with_reducible apply Keeps.after (State.issue_keeps (h_f := fun x0 x1 s => ?_) ..)
    | with_reducible apply Keeps.after (State.modComp_keeps (h := ?_) ..)
    | with_reducible exact Compute.Keeps.refl _
    | intro c

theorem execTzero_keeps {g : Nat} {w : StepWord} {s : State}  :
    KeepsO s (execTzero g w s) := by
  unfold execTzero
  repeat' first
    | with_reducible apply Keeps.refl
    | with_reducible apply KeepsO.next
    | with_reducible apply Compute.Keeps.after (Compute.setRows_keeps ..)
    | with_reducible apply Keeps.after (State.issue_keeps (h_f := fun x0 x1 s => ?_) ..)
    | with_reducible apply Keeps.after (State.modComp_keeps (h := ?_) ..)
    | with_reducible exact Compute.Keeps.refl _
    | intro c

theorem execTfill_keeps {g : Nat} {w : StepWord} {s : State}  :
    KeepsO s (execTfill g w s) := by
  unfold execTfill
  repeat' first
    | with_reducible apply Keeps.refl
    | ((try lift_lets -underBinder); intro x; clear_value x)
    | with_reducible apply KeepsO.next
    | with_reducible apply Compute.Keeps.after (Compute.setRows_keeps ..)
    | with_reducible apply Keeps.after (State.issue_keeps (h_f := fun x0 x1 s => ?_) ..)
    | with_reducible apply Keeps.after (State.modComp_keeps (h := ?_) ..)
    | with_reducible exact Compute.Keeps.refl _
    | intro c

theorem execTtrn_keeps {g : Nat} {w : StepWord} {s : State}  :
    KeepsO s (execTtrn g w s) := by
  unfold execTtrn
  repeat' first
    | with_reducible apply Keeps.refl
    | ((try lift_lets -underBinder); intro x; clear_value x)
    | with_reducible apply KeepsO.next
    | with_reducible apply Compute.Keeps.after (Compute.setRows_keeps ..)
    | with_reducible apply Keeps.after (State.issue_keeps (h_f := fun x0 x1 s => ?_) ..)
    | with_reducible apply Keeps.after (State.modComp_keeps (h := ?_) ..)
    | with_reducible exact Compute.Keeps.refl _
    | intro c

theorem execTrow_keeps {g : Nat} {w : StepWord} {s : State}  :
    KeepsO s (execTrow g w s) := by
  unfold execTrow
  repeat' first
    | with_reducible apply Keeps.refl
    | ((try lift_lets -underBinder); intro x; clear_value x)
    | with_reducible apply KeepsO.next
    | with_reducible apply Compute.Keeps.after (Compute.setRow_keeps ..)
    | with_reducible apply Keeps.after (State.issue_keeps (h_f := fun x0 x1 s => ?_) ..)
    | with_reducible apply Keeps.after (State.modComp_keeps (h := ?_) ..)
    | with_reducible exact Compute.Keeps.refl _
    | intro c

theorem execTmask_keeps {g : Nat} {w : StepWord} {s : State}  :
    KeepsO s (execTmask g w s) := by
  unfold execTmask
  repeat' first
    | with_reducible apply Keeps.refl
    | ((try lift_lets -underBinder); intro x; clear_value x)
    | with_reducible apply KeepsO.next
    | with_reducible apply Compute.Keeps.after (Compute.setRow_keeps ..)
    | with_reducible apply Keeps.after (State.issue_keeps (h_f := fun x0 x1 s => ?_) ..)
    | with_reducible apply Keeps.after (State.modComp_keeps (h := ?_) ..)
    | with_reducible exact Compute.Keeps.refl _
    | with_reducible refine Compute.Keeps.foldlFrom ?_ (fun t a => ?_)
    | intro c

theorem State.bufferPut_keeps {s : State} {i : Nat} {e : RbEntry}  :
    Keeps s (State.bufferPut s i e) := by
  unfold State.bufferPut
  repeat' first
    | with_reducible apply Keeps.refl
    | ((with_reducible refine Cell.Keeps.of ?_ ?_) <;> (simp; done))
    | with_reducible apply Keeps.after (State.modCell_keeps (h := ?_) ..)
    | intro c

theorem State.scalarLoad_keeps {s : State} {i p : Nat} {w : StepWord}  :
    Keeps s (State.scalarLoad s i p w) := by
  unfold State.scalarLoad
  repeat' first
    | with_reducible apply Keeps.refl
    | with_reducible assumption
    | ((try lift_lets -underBinder); intro x; first
        | (refine Keeps.cut (s := s) x ?_ (fun hx => ?_); dsimp -zeta only [x]; rotate_left; clear_value x; rotate_right)
        | (refine Keeps.cutF2 x (fun s a => ?_) (fun hg => ?_); dsimp -zeta only [x]; rotate_left; clear_value x; rotate_right)
        | clear_value x)
    | with_reducible apply Keeps.ite
    | split
    | with_reducible apply Keeps.after (State.bufferPut_keeps ..)
    | with_reducible apply Keeps.after (State.xltFault_keeps ..)
    | with_reducible apply Keeps.after (State.cellRead_keeps ..)
    | with_reducible apply Keeps.after (State.cellFault_keeps ..)
    | with_reducible apply Keeps.after (State.setSd_keeps ..)
    | (with_reducible apply Keeps.of_pair; with_reducible assumption)
    | (with_reducible apply Keeps.after; with_reducible apply_assumption -exfalso -symm)

theorem execSld_keeps {g : Nat} {w : StepWord} {s : State}  :
    KeepsO s (execSld g w s) := by
  unfold execSld
  repeat' first
    | with_reducible apply Keeps.refl
    | with_reducible apply KeepsO.next
    | with_reducible apply Keeps.after (State.scalarLoad_keeps ..)
    | with_reducible apply Keeps.after (State.issue_keeps (h_f := fun x0 x1 s => ?_) ..)

theorem State.scalarStore_keeps {s : State} {i p : Nat} {w : StepWord}  :
    Keeps s (State.scalarStore s i p w) := by
  unfold State.scalarStore
  repeat' first
    | with_reducible apply Keeps.refl
    | with_reducible assumption
    | ((with_reducible refine Cell.Keeps.of ?_ ?_) <;> (simp; done))
    | ((try lift_lets -underBinder); intro x; first
        | (refine Keeps.cut (s := s) x ?_ (fun hx => ?_); dsimp -zeta only [x]; rotate_left; clear_value x; rotate_right)
        | clear_value x)
    | with_reducible apply Keeps.ite
    | split
    | with_reducible apply Keeps.after (State.xltFault_keeps ..)
    | with_reducible apply Keeps.after (State.cellWrite_keeps ..)
    | with_reducible apply Keeps.after (State.cellFault_keeps ..)
    | with_reducible apply Keeps.after (State.modCell_keeps (h := ?_) ..)
    | intro c

theorem execSst_keeps {g : Nat} {w : StepWord} {s : State}  :
    KeepsO s (execSst g w s) := by
  unfold execSst
  repeat' first
    | with_reducible apply Keeps.refl
    | with_reducible apply KeepsO.next
    | with_reducible apply Keeps.after (State.scalarStore_keeps ..)
    | with_reducible apply Keeps.after (State.issue_keeps (h_f := fun x0 x1 s => ?_) ..)

end Sys2Proof.Machine
end

