-- ==== Sys2Proof/Laws/KeepsArray.lean ====
section
/-! SUPPORT. What every operation of Machine/Array.lean keeps. -/
set_option linter.all false
set_option Elab.async false
namespace Sys2Proof.Machine

theorem Compute.arrayRun_keeps {c : Compute} {o : ArrayOp} {fa fb ta tb rows : Nat} {outs : List Nat}  :
    Compute.Keeps c (Compute.arrayRun c o fa fb ta tb rows outs) := by
  unfold Compute.arrayRun
  repeat' first
    | with_reducible exact Compute.Keeps.refl _
    | with_reducible refine Compute.Keeps.foldlFrom ?_ (fun t a => ?_)
    | split
    | dsimp only
    | with_reducible apply Compute.Keeps.after (Compute.setRow_keeps ..)

theorem State.arrayStep_keeps {s : State} {i : Nat} {w : StepWord} {kind : Nat} {bad : Bool}  :
    Keeps s (State.arrayStep s i w kind bad) := by
  unfold State.arrayStep
  repeat' first
    | with_reducible apply Keeps.refl
    | with_reducible assumption
    | ((with_reducible refine Cell.Keeps.of ?_ ?_) <;> (simp; done))
    | ((try lift_lets -underBinder); intro x; first
        | (refine Keeps.cut (s := s) x ?_ (fun hx => ?_); dsimp -zeta only [x]; rotate_left; clear_value x; rotate_right)
        | clear_value x)
    | with_reducible apply Keeps.ite
    | with_reducible apply Compute.Keeps.after (Compute.arrayRun_keeps ..)
    | with_reducible apply Keeps.after (State.scramble_keeps ..)
    | with_reducible apply Keeps.after (State.cellFault_keeps ..)
    | with_reducible apply Keeps.after (State.modComp_keeps (h := ?_) ..)
    | with_reducible apply Keeps.after (State.modCell_keeps (h := ?_) ..)
    | with_reducible exact Compute.Keeps.refl _
    | intro c

theorem State.arrayLoad_keeps {s : State} {i : Nat} {w : StepWord} : Keeps s (State.arrayLoad s i w) := by
  unfold State.arrayLoad
  lift_lets; intro c ta tb stat scales
  have h1 : stat.wf = true := Store.wf_foldl Store.wf_empty fun _ _ h => Store.wf_write h
  have h2 : scales.wf = true := Store.wf_foldl Store.wf_empty fun _ _ h => Store.wf_write h
  clear_value stat scales
  refine Keeps.trans ?_ (State.modCell_keeps fun c => ?_)
  · exact State.modComp_keeps fun c v => ⟨v.1, h1, h2⟩
  · refine Cell.Keeps.of ?_ ?_ <;> simp

theorem execMload_keeps {g : Nat} {w : StepWord} {s : State}  :
    KeepsO s (execMload g w s) := by
  unfold execMload
  repeat' first
    | with_reducible apply Keeps.refl
    | with_reducible apply KeepsO.next
    | with_reducible apply Keeps.after (State.arrayLoad_keeps ..)
    | with_reducible apply Keeps.after (State.issue_keeps (h_f := fun x0 x1 s => ?_) ..)

theorem execMma_keeps {g : Nat} {w : StepWord} {bad : Bool} {s : State}  :
    KeepsO s (execMma g w bad s) := by
  unfold execMma
  repeat' first
    | with_reducible apply Keeps.refl
    | with_reducible apply KeepsO.next
    | with_reducible apply Keeps.after (State.arrayStep_keeps ..)
    | with_reducible apply Keeps.after (State.issue_keeps (h_f := fun x0 x1 s => ?_) ..)

theorem execMmat_keeps {g : Nat} {w : StepWord} {bad : Bool} {s : State}  :
    KeepsO s (execMmat g w bad s) := by
  unfold execMmat
  repeat' first
    | with_reducible apply Keeps.refl
    | with_reducible apply KeepsO.next
    | with_reducible apply Keeps.after (State.arrayStep_keeps ..)
    | with_reducible apply Keeps.after (State.issue_keeps (h_f := fun x0 x1 s => ?_) ..)

theorem execMdl2_keeps {g : Nat} {w : StepWord} {bad : Bool} {s : State}  :
    KeepsO s (execMdl2 g w bad s) := by
  unfold execMdl2
  repeat' first
    | with_reducible apply Keeps.refl
    | with_reducible apply KeepsO.next
    | with_reducible apply Keeps.after (State.arrayStep_keeps ..)
    | with_reducible apply Keeps.after (State.issue_keeps (h_f := fun x0 x1 s => ?_) ..)

theorem execMdnip_keeps {g : Nat} {w : StepWord} {bad : Bool} {s : State}  :
    KeepsO s (execMdnip g w bad s) := by
  unfold execMdnip
  repeat' first
    | with_reducible apply Keeps.refl
    | with_reducible apply KeepsO.next
    | with_reducible apply Keeps.after (State.arrayStep_keeps ..)
    | with_reducible apply Keeps.after (State.issue_keeps (h_f := fun x0 x1 s => ?_) ..)

theorem execMdl1_keeps {g : Nat} {w : StepWord} {bad : Bool} {s : State}  :
    KeepsO s (execMdl1 g w bad s) := by
  unfold execMdl1
  repeat' first
    | with_reducible apply Keeps.refl
    | with_reducible apply KeepsO.next
    | with_reducible apply Keeps.after (State.arrayStep_keeps ..)
    | with_reducible apply Keeps.after (State.issue_keeps (h_f := fun x0 x1 s => ?_) ..)

theorem execMdham_keeps {g : Nat} {w : StepWord} {bad : Bool} {s : State}  :
    KeepsO s (execMdham g w bad s) := by
  unfold execMdham
  repeat' first
    | with_reducible apply Keeps.refl
    | with_reducible apply KeepsO.next
    | with_reducible apply Keeps.after (State.arrayStep_keeps ..)
    | with_reducible apply Keeps.after (State.issue_keeps (h_f := fun x0 x1 s => ?_) ..)

theorem execMdmax_keeps {g : Nat} {w : StepWord} {bad : Bool} {s : State}  :
    KeepsO s (execMdmax g w bad s) := by
  unfold execMdmax
  repeat' first
    | with_reducible apply Keeps.refl
    | with_reducible apply KeepsO.next
    | with_reducible apply Keeps.after (State.arrayStep_keeps ..)
    | with_reducible apply Keeps.after (State.issue_keeps (h_f := fun x0 x1 s => ?_) ..)

theorem execMdmin_keeps {g : Nat} {w : StepWord} {bad : Bool} {s : State}  :
    KeepsO s (execMdmin g w bad s) := by
  unfold execMdmin
  repeat' first
    | with_reducible apply Keeps.refl
    | with_reducible apply KeepsO.next
    | with_reducible apply Keeps.after (State.arrayStep_keeps ..)
    | with_reducible apply Keeps.after (State.issue_keeps (h_f := fun x0 x1 s => ?_) ..)

end Sys2Proof.Machine
end

