-- ==== Sys2Proof/Laws/KeepsBays.lean ====
section
/-! SUPPORT. What every operation of Machine/Bays.lean keeps. -/
set_option linter.all false
set_option Elab.async false
namespace Sys2Proof.Machine

theorem State.addWritten_keeps {s : State} {serial : Bytes} {n : Nat}  :
    Keeps s (State.addWritten s serial n) := by
  unfold State.addWritten
  repeat' first
    | with_reducible apply Keeps.refl
    | (intro n; with_reducible rfl)
    | with_reducible apply Keeps.after (State.modCarts_keeps (h := ?_) ..)

theorem State.cartReport_keeps {s : State} {r : Report}  :
    Keeps s (State.cartReport s r) := by
  unfold State.cartReport
  repeat' first
    | with_reducible apply Keeps.refl
    | with_reducible assumption
    | ((try lift_lets -underBinder); intro x; first
        | (refine Keeps.cut (s := s) x ?_ (fun hx => ?_); dsimp -zeta only [x]; rotate_left; clear_value x; rotate_right)
        | (refine Keeps.cutF x (fun s => ?_) (fun hf => ?_); dsimp -zeta only [x]; rotate_left; clear_value x; rotate_right)
        | clear_value x)
    | with_reducible apply Keeps.ite
    | with_reducible apply Keeps.after (State.countIncident_keeps ..)
    | with_reducible apply Keeps.after (State.fileReport_keeps ..)
    | with_reducible apply Keeps.after (State.modLark_keeps ..)
    | with_reducible apply Keeps.after (State.modBay_keeps ..)
    | with_reducible apply Keeps.after (State.modHealth_keeps ..)
    | (with_reducible apply Keeps.after; with_reducible apply_assumption -exfalso -symm)

theorem State.cartFault_keeps {s : State} {b sub : Nat}  :
    Keeps s (State.cartFault s b sub) := by
  unfold State.cartFault
  repeat' first
    | with_reducible apply Keeps.refl
    | with_reducible apply Keeps.after (State.cartReport_keeps ..)

theorem State.decideLife_keeps {s : State} {b : Nat} {warn : BitVec 8} {fatal : Bool}  :
    Keeps s (State.decideLife s b warn fatal) := by
  unfold State.decideLife
  repeat' first
    | with_reducible apply Keeps.refl
    | ((try lift_lets -underBinder); intro x; clear_value x)
    | with_reducible apply Keeps.ite
    | with_reducible apply Keeps.after (State.cartFault_keeps ..)
    | with_reducible apply Keeps.after (State.modBay_keeps ..)

theorem State.nvme_keeps {s : State} {b kind lba stack : Nat} {ref : Nat × Nat × Nat} {data : Bytes} {unc : Bool}  :
    Keeps s (State.nvme s b kind lba stack ref data unc) := by
  unfold State.nvme
  repeat' first
    | with_reducible apply Keeps.refl
    | (intro n; with_reducible rfl)
    | with_reducible apply Keeps.after (State.modBay_keeps ..)
    | with_reducible apply Keeps.after (State.modCarts_keeps (h := ?_) ..)

theorem State.nvmeWrite_keeps {s : State} {b kind lba stack : Nat} {ref : Nat × Nat × Nat} {data : Bytes} {unc : Bool}  :
    Keeps s (State.nvmeWrite s b kind lba stack ref data unc).2 := by
  unfold State.nvmeWrite
  repeat' first
    | with_reducible apply Keeps.refl
    | with_reducible assumption
    | ((try lift_lets -underBinder); intro x; (refine Keeps.cut (s := s) x ?_ (fun hx => ?_); dsimp -zeta only [x]; rotate_left; clear_value x; rotate_right))
    | with_reducible apply Keeps.ite2
    | split
    | with_reducible apply Keeps.after (State.nvme_keeps ..)
    | with_reducible apply Keeps.after (State.decideLife_keeps ..)
    | with_reducible apply Keeps.after (State.modBay_keeps ..)

theorem State.writeBack_keeps {s : State} {k : Nat} {l : Landing}  :
    Keeps s (State.writeBack s k l) := by
  unfold State.writeBack
  repeat' first
    | with_reducible apply Keeps.refl
    | with_reducible assumption
    | ((try lift_lets -underBinder); intro x; first
        | (refine Keeps.cut (s := s) x ?_ (fun hx => ?_); dsimp -zeta only [x]; rotate_left; clear_value x; rotate_right)
        | (refine Keeps.cutF2 x (fun s a => ?_) (fun hg => ?_); dsimp -zeta only [x]; rotate_left; clear_value x; rotate_right)
        | clear_value x)
    | with_reducible apply Keeps.ite
    | split
    | with_reducible apply Keeps.after (State.nvmeWrite_keeps ..)
    | with_reducible apply Keeps.after (State.bursts_keeps ..)
    | with_reducible apply Keeps.after (State.modEngine_keeps ..)
    | (with_reducible apply Keeps.after; with_reducible apply_assumption -exfalso -symm)

end Sys2Proof.Machine
end

