-- ==== Sys2Proof/Laws/KeepsNetSend.lean ====
section
/-! SUPPORT. What every operation of Machine/NetSend.lean keeps. -/
set_option linter.all false
set_option Elab.async false
namespace Sys2Proof.Machine

theorem State.modConn_keeps {s : State} {k : Nat} {f : Conn → Conn}  :
    Keeps s (State.modConn s k f) := by
  unfold State.modConn
  repeat' first
    | with_reducible apply Keeps.refl
    | split
    | with_reducible apply Keeps.after (State.modNet_keeps (h := ?_) ..)
    | dsimp -zeta only
    | intro c

theorem State.emit_keeps {s : State} {port k : Nat} {f : Frame}  :
    Keeps s (State.emit s port k f) := by
  unfold State.emit
  repeat' first
    | with_reducible apply Keeps.refl
    | (intro (n : Net); simp; done)
    | ((try lift_lets -underBinder); intro x; clear_value x)
    | with_reducible apply Keeps.after (State.modNet_keeps (h := ?_) ..)

theorem State.netPumpN_keeps (k f : Nat) : ∀ s, Keeps s (State.netPumpN k f s) := by
  induction f with
  | zero => intro s; exact .refl _
  | succ f ih => ?_
  intro s
  unfold State.netPumpN
  repeat' first
    | with_reducible apply Keeps.refl
    | with_reducible assumption
    | ((try lift_lets -underBinder); intro x; first
        | (refine Keeps.cut (s := s) x ?_ (fun hx => ?_); dsimp -zeta only [x]; rotate_left; clear_value x; rotate_right)
        | clear_value x)
    | with_reducible apply Keeps.ite
    | split
    | with_reducible apply Keeps.after (ih ..)
    | with_reducible apply Keeps.after (State.emit_keeps ..)
    | with_reducible apply Keeps.after (State.modConn_keeps ..)

theorem State.netPump_keeps {s : State} {k : Nat}  :
    Keeps s (State.netPump s k) := by
  unfold State.netPump
  repeat' first
    | with_reducible apply Keeps.refl
    | with_reducible apply Keeps.after (State.netPumpN_keeps ..)

theorem State.netSend_keeps {s : State} {k type : Nat} {final last : Bool} {cls : Cls} {stream msg addr : Nat} {d : Data}  :
    Keeps s (State.netSend s k type final last cls stream msg addr d) := by
  unfold State.netSend
  repeat' first
    | with_reducible apply Keeps.refl
    | ((try lift_lets -underBinder); intro x; clear_value x)
    | with_reducible apply Keeps.ite
    | with_reducible apply Keeps.after (State.netPump_keeps ..)
    | with_reducible apply Keeps.after (State.modConn_keeps ..)

theorem State.netMessage_keeps {s : State} {k type : Nat} {final : Bool} {cls : Cls} {stream msg addr : Nat} {d : Data}  :
    Keeps s (State.netMessage s k type final cls stream msg addr d) := by
  unfold State.netMessage
  repeat' first
    | with_reducible apply Keeps.refl
    | ((try lift_lets -underBinder); intro x; clear_value x)
    | (with_reducible apply Keeps.foldlFrom; rotate_left; intro s a; rotate_right)
    | with_reducible apply Keeps.after (State.netSend_keeps ..)

theorem State.newMsg_keeps {s : State} {k : Nat}  :
    Keeps s (State.newMsg s k).2 := by
  unfold State.newMsg
  repeat' first
    | with_reducible apply Keeps.refl
    | with_reducible apply Keeps.after (State.modConn_keeps ..)

theorem State.netDone_keeps {s : State} {k msg : Nat} {cls : Cls} {stream status bytes tok : Nat} {rec : Bytes}  :
    Keeps s (State.netDone s k msg cls stream status bytes tok rec) := by
  unfold State.netDone
  repeat' first
    | with_reducible apply Keeps.refl
    | with_reducible apply Keeps.after (State.netMessage_keeps ..)

theorem State.netHeader_keeps {s : State} {k type : Nat}  :
    Keeps s (State.netHeader s k type) := by
  unfold State.netHeader
  repeat' first
    | with_reducible apply Keeps.refl
    | ((try lift_lets -underBinder); intro x; clear_value x)
    | with_reducible apply Keeps.ite
    | split
    | with_reducible apply Keeps.after (State.emit_keeps ..)

end Sys2Proof.Machine
end

