-- ==== Sys2Proof/Laws/KeepsTables.lean ====
section
/-! SUPPORT. What every operation of Machine/Tables.lean keeps. -/
set_option linter.all false
set_option Elab.async false
namespace Sys2Proof.Machine

theorem State.areaRead_keeps {s : State} {kind p k off n : Nat}  :
    Keeps s (State.areaRead s kind p k off n).2 := by
  unfold State.areaRead
  repeat' first
    | with_reducible apply Keeps.refl
    | ((try lift_lets -underBinder); intro x; clear_value x)
    | with_reducible apply Keeps.ite2
    | with_reducible apply Keeps.after (State.countStack_keeps ..)
    | with_reducible apply Keeps.after (State.charge_keeps ..)

theorem State.areaWrite_keeps {s : State} {kind p k off : Nat} {d : Data} : Keeps s (State.areaWrite s kind p k off d) := by
  unfold State.areaWrite
  split
  · exact .refl _
  lift_lets -underBinder; intro mem n
  have h : Keeps s { s with mem } :=
    Keeps.memory (.refl s) fun v => Store.wf_foldl v fun _ _ v => by
      split
      · exact v
      · exact Store.wf_write v
  clear_value mem n
  exact (h.trans State.countStack_keeps).trans State.charge_keeps

theorem State.areaUnmark_keeps {s : State} {kind p k off n : Nat} : Keeps s (State.areaUnmark s kind p k off n) :=
  Keeps.memory (.refl s) fun v => Store.wf_foldl v fun _ _ v => Store.wf_foldl v fun _ _ v => Store.wf_setMark v

theorem State.freshHandle_keeps {s : State}  :
    Keeps s (State.freshHandle s).2 := by
  unfold State.freshHandle
  repeat' first
    | with_reducible apply Keeps.refl
    | ((try lift_lets -underBinder); intro x; clear_value x)
    | dsimp -zeta only
    | with_reducible refine Keeps.mk ?_

end Sys2Proof.Machine
end

