-- ==== Sys2Proof/Laws/KeepsFrontEnd.lean ====
section
/-! SUPPORT. What every operation of Machine/FrontEnd.lean keeps. -/
set_option linter.all false
set_option Elab.async false
namespace Sys2Proof.Machine

theorem State.cacheLookup_keeps {s : State} {d view : Nat} {e : TableEntry} {epoch row : Nat}  :
    Keeps s (State.cacheLookup s d view e epoch row).2 := by
  unfold State.cacheLookup
  repeat' first
    | with_reducible apply Keeps.refl
    | with_reducible assumption
    | ((try lift_lets -underBinder); intro x; first
        | (refine Keeps.cut (s := s) x ?_ (fun hx => ?_); dsimp -zeta only [x]; rotate_left; clear_value x; rotate_right)
        | clear_value x)
    | split
    | with_reducible apply Keeps.after (State.modSvc_keeps ..)
    | with_reducible apply Keeps.after (State.modDie_keeps ..)

theorem State.cacheAdmit_keeps {s : State} {d stamp : Nat} {e : TableEntry} {epoch : Nat} {v : RowVal}  :
    Keeps s (State.cacheAdmit s d stamp e epoch v) := by
  unfold State.cacheAdmit
  repeat' first
    | with_reducible apply Keeps.refl
    | ((try lift_lets -underBinder); intro x; first
        | (refine Keeps.cutA (s := s) x (fun a => ?_) (fun ha => ?_); dsimp -zeta only [x]; rotate_left; clear_value x; rotate_right)
        | clear_value x)
    | with_reducible apply Keeps.ite
    | with_reducible apply Keeps.after (State.modSvc_keeps ..)
    | with_reducible apply Keeps.after (State.modDie_keeps ..)
    | (with_reducible apply Keeps.after; with_reducible apply_assumption -exfalso -symm)

theorem State.answer_keeps {s : State} {d : Nat} {r : Request} {status low : Nat} {rec : Bytes}  :
    Keeps s (State.answer s d r status low rec) := by
  unfold State.answer
  repeat' first
    | with_reducible apply Keeps.refl
    | with_reducible assumption
    | ((try lift_lets -underBinder); intro x; (refine Keeps.cut (s := s) x ?_ (fun hx => ?_); dsimp -zeta only [x]; rotate_left; clear_value x; rotate_right))
    | split
    | with_reducible apply Keeps.after (State.netDone_keeps ..)
    | with_reducible apply Keeps.after (State.wake_keeps ..)
    | with_reducible apply Keeps.after (State.closeAsync_keeps ..)
    | with_reducible apply Keeps.after (State.sendToken_keeps ..)

theorem State.putSummary_keeps {s : State} {d : Nat} {r : Request} {rec : Bytes}  :
    Keeps s (State.putSummary s d r rec) := by
  unfold State.putSummary
  repeat' first
    | with_reducible apply Keeps.refl
    | with_reducible apply Keeps.ite
    | with_reducible apply Keeps.after (State.wordWrite_keeps ..)

theorem State.refuse_keeps {s : State} {d : Nat} {r : Request} {status : Nat} {trusted xlt : Bool}  :
    Keeps s (State.refuse s d r status trusted xlt) := by
  unfold State.refuse
  repeat' first
    | with_reducible apply Keeps.refl
    | with_reducible assumption
    | ((try lift_lets -underBinder); intro x; first
        | (refine Keeps.cut (s := s) x ?_ (fun hx => ?_); dsimp -zeta only [x]; rotate_left; clear_value x; rotate_right)
        | clear_value x)
    | with_reducible apply Keeps.ite
    | with_reducible apply Keeps.after (State.putSummary_keeps ..)
    | with_reducible apply Keeps.after (State.answer_keeps ..)
    | with_reducible apply Keeps.after (State.countXltFault_keeps ..)

theorem State.bindEpoch_keeps {s : State} {d : Nat} {r : Request}  :
    Keeps s (State.bindEpoch s d r).2 := by
  unfold State.bindEpoch
  repeat' first
    | with_reducible apply Keeps.refl
    | ((try lift_lets -underBinder); intro x; clear_value x)
    | with_reducible apply Keeps.ite2
    | split
    | with_reducible apply Keeps.after (State.draw_keeps ..)
    | with_reducible apply Keeps.after (State.modSvc_keeps ..)

theorem State.checkRequest_keeps {s : State} {d : Nat} {r : Request}  :
    Keeps s (State.checkRequest s d r).2.2.2 := by
  unfold State.checkRequest
  repeat' first
    | with_reducible apply Keeps.refl
    | ((try lift_lets -underBinder); intro x; first
        | clear_value x
        | (have hP : Prop := x; clear hP))
    | with_reducible apply Keeps.ite2
    | with_reducible apply Keeps.ite4
    | split
    | (with_reducible apply Keeps.foldlPair; rotate_left; rintro ⟨d, s⟩ a; rotate_right)
    | with_reducible apply Keeps.after (State.bindEpoch_keeps ..)
    | with_reducible apply Keeps.after (State.reqRead_keeps ..)
    | (with_reducible apply Keeps.of_pair; with_reducible assumption)

theorem State.lookupAll_keeps {s : State} {d : Nat} {r : Request} {e : TableEntry} {epoch : Nat}  :
    Keeps s (State.lookupAll s d r e epoch).2 := by
  unfold State.lookupAll
  repeat' first
    | with_reducible apply Keeps.refl
    | with_reducible apply Keeps.ite2
    | split
    | (with_reducible apply Keeps.foldlPair; rotate_left; rintro ⟨d, s⟩ a; rotate_right)
    | with_reducible apply Keeps.after (State.cacheLookup_keeps ..)
    | (with_reducible apply Keeps.of_pair; with_reducible assumption)

theorem State.fixTile_keeps {s : State} {r : Request}  :
    Keeps s (State.fixTile s r) := by
  unfold State.fixTile
  repeat' first
    | with_reducible apply Keeps.refl
    | with_reducible assumption
    | ((try lift_lets -underBinder); intro x; first
        | (refine Keeps.cut (s := s) x ?_ (fun hx => ?_); dsimp -zeta only [x]; rotate_left; clear_value x; rotate_right)
        | clear_value x)
    | with_reducible apply Keeps.ite
    | with_reducible apply Keeps.after (State.landTile_keeps ..)
    | with_reducible apply Keeps.after (State.holdTile_keeps ..)

theorem State.route_keeps {s : State} {d : Nat} {r : Request} {e : TableEntry} {epoch : Nat}  :
    Keeps s (State.route s d r e epoch) := by
  unfold State.route
  repeat' first
    | with_reducible apply Keeps.refl
    | with_reducible assumption
    | ((try lift_lets -underBinder); intro x; first
        | (refine Keeps.cut (s := s) x ?_ (fun hx => ?_); dsimp -zeta only [x]; rotate_left; clear_value x; rotate_right)
        | clear_value x)
    | split
    | (with_reducible apply Keeps.foldlFrom; rotate_left; intro s a; rotate_right)
    | with_reducible apply Keeps.after (State.fixTile_keeps ..)
    | with_reducible apply Keeps.after (State.lookupAll_keeps ..)
    | with_reducible apply Keeps.after (State.newId_keeps ..)
    | with_reducible apply Keeps.after (State.modEngine_keeps ..)
    | (with_reducible apply Keeps.of_pair; with_reducible assumption)
    | with_reducible refine Keeps.mk ?_

theorem State.outWrite_keeps {s : State} {o : OpenReq} {w : Nat} {d : Data}  :
    Keeps s (State.outWrite s o w d) := by
  unfold State.outWrite
  repeat' first
    | with_reducible apply Keeps.refl
    | with_reducible assumption
    | ((try lift_lets -underBinder); intro x; first
        | (refine Keeps.cut (s := s) x ?_ (fun hx => ?_); dsimp -zeta only [x]; rotate_left; clear_value x; rotate_right)
        | clear_value x)
    | split
    | with_reducible apply Keeps.after (State.netMessage_keeps ..)
    | with_reducible apply Keeps.after (State.wordWrite_keeps ..)
    | with_reducible refine Keeps.mk ?_

theorem State.addSubst_keeps {s : State} {r : Request} {n : Nat}  :
    Keeps s (State.addSubst s r n) := by
  unfold State.addSubst
  repeat' first
    | with_reducible apply Keeps.refl
    | with_reducible assumption
    | ((try lift_lets -underBinder); intro x; first
        | (refine Keeps.cut (s := s) x ?_ (fun hx => ?_); dsimp -zeta only [x]; rotate_left; clear_value x; rotate_right)
        | clear_value x)
    | with_reducible apply Keeps.ite
    | split
    | with_reducible apply Keeps.after (State.modBatch_keeps ..)
    | with_reducible apply Keeps.after (State.modSvc_keeps ..)

theorem State.closeReq_keeps {s : State} {o : OpenReq} {status low : Nat} {rec : Bytes}  :
    Keeps s (State.closeReq s o status low rec) := by
  unfold State.closeReq
  repeat' first
    | with_reducible apply Keeps.refl
    | with_reducible assumption
    | ((try lift_lets -underBinder); intro x; first
        | (refine Keeps.cut (s := s) x ?_ (fun hx => ?_); dsimp -zeta only [x]; rotate_left; clear_value x; rotate_right)
        | clear_value x)
    | with_reducible apply Keeps.after (State.putSummary_keeps ..)
    | with_reducible apply Keeps.after (State.answer_keeps ..)
    | with_reducible apply Keeps.after (State.freeUnheld_keeps ..)
    | with_reducible refine Keeps.mk ?_

theorem State.drawRows_keeps {s : State} {unit n : Nat} : Keeps s (State.drawRows s unit n).2 := by
  induction n generalizing s with
  | zero => exact .refl _
  | succ n ih =>
    unfold State.drawRows
    exact State.drawBytes_keeps.trans ih

theorem State.putRows_keeps {s : State} {o : OpenReq} {rows : List (Bytes × Bool)}  :
    Keeps s (State.putRows s o rows) := by
  unfold State.putRows
  repeat' first
    | with_reducible apply Keeps.refl
    | with_reducible apply Keeps.ite
    | (with_reducible apply Keeps.foldlFrom; rotate_left; intro s a; rotate_right)
    | with_reducible apply Keeps.after (State.outWrite_keeps ..)
    | with_reducible apply Keeps.after (State.tileRows_keeps ..)

theorem State.freeOutput_keeps {s : State} {o : OpenReq} {e : TableEntry}  :
    Keeps s (State.freeOutput s o e) := by
  unfold State.freeOutput
  repeat' first
    | with_reducible apply Keeps.refl
    | ((try lift_lets -underBinder); intro x; clear_value x)
    | with_reducible apply Keeps.ite
    | split
    | with_reducible apply Keeps.after (State.putRows_keeps ..)
    | with_reducible apply Keeps.after (State.drawRows_keeps ..)
    | with_reducible apply Keeps.after (State.outWrite_keeps ..)
    | with_reducible apply Keeps.after (State.drawBytes_keeps ..)
    | (with_reducible apply Keeps.of_pair; with_reducible assumption)

theorem State.gatherOutput_keeps {s : State} {o : OpenReq} {e : TableEntry}  :
    Keeps s (State.gatherOutput s o e) := by
  unfold State.gatherOutput
  repeat' first
    | with_reducible apply Keeps.refl
    | with_reducible assumption
    | ((try lift_lets -underBinder); intro x; (refine Keeps.cut (s := s) x ?_ (fun hx => ?_); dsimp -zeta only [x]; rotate_left; clear_value x; rotate_right))
    | with_reducible apply Keeps.ite
    | with_reducible apply Keeps.after (State.putRows_keeps ..)
    | with_reducible apply Keeps.after (State.outWrite_keeps ..)

theorem State.finishGather_keeps {s : State} {o : OpenReq} {e : TableEntry}  :
    Keeps s (State.finishGather s o e) := by
  unfold State.finishGather
  repeat' first
    | with_reducible apply Keeps.refl
    | with_reducible assumption
    | ((try lift_lets -underBinder); intro x; first
        | (refine Keeps.cut (s := s) x ?_ (fun hx => ?_); dsimp -zeta only [x]; rotate_left; clear_value x; rotate_right)
        | clear_value x)
    | with_reducible apply Keeps.ite
    | split
    | (with_reducible apply Keeps.foldlFrom; rotate_left; intro s a; rotate_right)
    | with_reducible apply Keeps.after (State.gatherOutput_keeps ..)
    | with_reducible apply Keeps.after (State.freeOutput_keeps ..)
    | with_reducible apply Keeps.after (State.closeReq_keeps ..)
    | with_reducible apply Keeps.after (State.addSubst_keeps ..)
    | with_reducible apply Keeps.after (State.cacheAdmit_keeps ..)

theorem State.finishUpdate_keeps {s : State} {o : OpenReq}  :
    Keeps s (State.finishUpdate s o) := by
  unfold State.finishUpdate
  repeat' first
    | with_reducible apply Keeps.refl
    | with_reducible apply Keeps.ite
    | split
    | with_reducible apply Keeps.after (State.closeReq_keeps ..)
    | dsimp -zeta only
    | with_reducible refine Keeps.mk ?_

theorem State.finishReq_keeps {s : State} {id : Nat}  :
    Keeps s (State.finishReq s id) := by
  unfold State.finishReq
  repeat' first
    | with_reducible apply Keeps.refl
    | with_reducible apply Keeps.ite
    | split
    | with_reducible apply Keeps.after (State.finishUpdate_keeps ..)
    | with_reducible apply Keeps.after (State.finishGather_keeps ..)
    | with_reducible apply Keeps.after (State.closeReq_keeps ..)

theorem State.frontEnd_keeps {s : State} {d : Nat}  :
    Keeps s (State.frontEnd s d) := by
  unfold State.frontEnd
  repeat' first
    | with_reducible apply Keeps.refl
    | with_reducible assumption
    | ((try lift_lets -underBinder); intro x; first
        | (refine Keeps.cut (s := s) x ?_ (fun hx => ?_); dsimp -zeta only [x]; rotate_left; clear_value x; rotate_right)
        | (refine Keeps.cutF2 x (fun s a => ?_) (fun hg => ?_); dsimp -zeta only [x]; rotate_left; clear_value x; rotate_right))
    | with_reducible apply Keeps.ite
    | split
    | with_reducible apply Keeps.after (State.finishReq_keeps ..)
    | with_reducible apply Keeps.after (State.route_keeps ..)
    | with_reducible apply Keeps.after (State.checkRequest_keeps ..)
    | with_reducible apply Keeps.after (State.refuse_keeps ..)
    | with_reducible apply Keeps.after (State.reqRead_keeps ..)
    | with_reducible apply Keeps.after (State.modDie_keeps ..)
    | (with_reducible apply Keeps.after; with_reducible apply_assumption -exfalso -symm)

theorem execFrontEndRequest_keeps {d : Nat} {s : State}  :
    KeepsO s (execFrontEndRequest d s) := by
  unfold execFrontEndRequest
  repeat' first
    | with_reducible apply Keeps.refl
    | with_reducible apply KeepsO.next
    | with_reducible apply Keeps.after (State.frontEnd_keeps ..)

theorem State.partDone_keeps {s : State} {req k : Nat}  :
    Keeps s (State.partDone s req k) := by
  unfold State.partDone
  repeat' first
    | with_reducible apply Keeps.refl
    | with_reducible assumption
    | ((try lift_lets -underBinder); intro x; (refine Keeps.cut (s := s) x ?_ (fun hx => ?_); dsimp -zeta only [x]; rotate_left; clear_value x; rotate_right))
    | split
    | with_reducible apply Keeps.after (State.finishReq_keeps ..)
    | with_reducible apply Keeps.after (State.modEngine_keeps ..)
    | with_reducible refine Keeps.mk ?_

theorem execPartDone_keeps {req k : Nat} {s : State}  :
    KeepsO s (execPartDone req k s) := by
  unfold execPartDone
  repeat' first
    | with_reducible apply Keeps.refl
    | with_reducible apply KeepsO.next
    | with_reducible apply Keeps.after (State.partDone_keeps ..)

theorem execCacheSketchHalving_keeps {d : Nat} {s : State}  :
    KeepsO s (execCacheSketchHalving d s) := by
  unfold execCacheSketchHalving
  repeat' first
    | with_reducible apply Keeps.refl
    | with_reducible apply KeepsO.next
    | with_reducible apply Keeps.ite
    | with_reducible apply Keeps.after (State.modDie_keeps ..)

end Sys2Proof.Machine
end

