-- ==== Sys2Proof/Laws/KeepsEngine.lean ====
section
/-! SUPPORT. What every operation of Machine/Engine.lean keeps. -/
set_option linter.all false
set_option Elab.async false
namespace Sys2Proof.Machine

theorem State.countEngine_keeps {s : State} {k : Nat} {f : EngineCnt → EngineCnt}  :
    Keeps s (State.countEngine s k f) := by
  unfold State.countEngine
  repeat' first
    | with_reducible apply Keeps.refl
    | with_reducible apply Keeps.after (State.modEngine_keeps ..)

theorem State.modHeld_keeps {s : State} {k id : Nat} {f : Part → Part}  :
    Keeps s (State.modHeld s k id f) := by
  unfold State.modHeld
  repeat' first
    | with_reducible apply Keeps.refl
    | with_reducible apply Keeps.after (State.modEngine_keeps ..)

theorem State.setSrc_keeps {s : State} {k : Nat} {x : SrcState}  :
    Keeps s (State.setSrc s k x) := by
  unfold State.setSrc
  repeat' first
    | with_reducible apply Keeps.refl
    | with_reducible apply Keeps.after (State.modEngine_keeps ..)

theorem State.engineFault_keeps {s : State} {k cause : Nat}  :
    Keeps s (State.engineFault s k cause) := by
  unfold State.engineFault
  repeat' first
    | with_reducible apply Keeps.refl
    | with_reducible assumption
    | ((try lift_lets -underBinder); intro x; first
        | (refine Keeps.cut (s := s) x ?_ (fun hx => ?_); dsimp -zeta only [x]; rotate_left; clear_value x; rotate_right)
        | clear_value x)
    | with_reducible apply Keeps.ite
    | (with_reducible apply Keeps.foldlFrom; rotate_left; intro s a; rotate_right)
    | with_reducible apply Keeps.after (State.setSrc_keeps ..)
    | with_reducible apply Keeps.after (State.report_keeps ..)
    | with_reducible apply Keeps.after (State.endParts_keeps ..)
    | with_reducible apply Keeps.after (State.modEngine_keeps ..)

theorem State.partTry_keeps {s : State} {k id : Nat}  :
    Keeps s (State.partTry s k id) := by
  unfold State.partTry
  repeat' first
    | with_reducible apply Keeps.refl
    | with_reducible assumption
    | ((try lift_lets -underBinder); intro x; first
        | (refine Keeps.cut (s := s) x ?_ (fun hx => ?_); dsimp -zeta only [x]; rotate_left; clear_value x; rotate_right)
        | clear_value x)
    | with_reducible apply Keeps.ite
    | split
    | with_reducible apply Keeps.after (State.setSrc_keeps ..)
    | with_reducible apply Keeps.after (State.modHeld_keeps ..)
    | with_reducible apply Keeps.after (State.mirrorUpdate_keeps ..)
    | with_reducible apply Keeps.after (State.countSolo_keeps ..)
    | with_reducible apply Keeps.after (State.logUpdate_keeps ..)
    | with_reducible apply Keeps.after (State.sweepHeld_keeps ..)
    | (with_reducible apply Keeps.of_pair; with_reducible assumption)
    | with_reducible refine Keeps.mk ?_

theorem State.poolTake_keeps {s : State} {k : Nat} {e : TableEntry} {epoch row : Nat}  :
    Keeps s (State.poolTake s k e epoch row) := by
  unfold State.poolTake
  repeat' first
    | with_reducible apply Keeps.refl
    | split
    | with_reducible apply Keeps.after (State.modEngine_keeps ..)

theorem State.withdraw_keeps {s : State} {home : Nat} {r : Replica}  :
    Keeps s (State.withdraw s home r) := by
  unfold State.withdraw
  repeat' first
    | with_reducible apply Keeps.refl
    | with_reducible apply Keeps.after (State.withdrawIf_keeps ..)

theorem State.withdrawPoisoned_keeps {s : State} {k : Nat}  :
    Keeps s (State.withdrawPoisoned s k) := by
  unfold State.withdrawPoisoned
  repeat' first
    | with_reducible apply Keeps.refl
    | with_reducible apply Keeps.after (State.withdrawIf_keeps ..)

theorem State.tryReplicate_keeps {s : State} {k table row : Nat}  :
    Keeps s (State.tryReplicate s k table row) := by
  unfold State.tryReplicate
  repeat' first
    | with_reducible apply Keeps.refl
    | with_reducible assumption
    | ((try lift_lets -underBinder); intro x; first
        | (refine Keeps.cut (s := s) x ?_ (fun hx => ?_); dsimp -zeta only [x]; rotate_left; clear_value x; rotate_right)
        | clear_value x
        | (have hP : Prop := x; clear hP))
    | with_reducible apply Keeps.ite
    | split
    | (with_reducible apply Keeps.foldlFrom; rotate_left; intro s a; rotate_right)
    | with_reducible apply Keeps.after (State.withdraw_keeps ..)
    | with_reducible apply Keeps.after (State.poolTake_keeps ..)
    | with_reducible apply Keeps.after (State.areaRead_keeps ..)
    | with_reducible apply Keeps.after (State.modEngine_keeps ..)
    | (with_reducible apply Keeps.of_pair; with_reducible assumption)
    | with_reducible refine Keeps.mk ?_

theorem State.countRow_keeps {s : State} {k : Nat} {e : TableEntry} {ep : Option Epoch} {row : Nat}  :
    Keeps s (State.countRow s k e ep row) := by
  unfold State.countRow
  repeat' first
    | with_reducible apply Keeps.refl
    | with_reducible assumption
    | ((try lift_lets -underBinder); intro x; first
        | (refine Keeps.cut (s := s) x ?_ (fun hx => ?_); dsimp -zeta only [x]; rotate_left; clear_value x; rotate_right)
        | clear_value x)
    | with_reducible apply Keeps.ite
    | with_reducible apply Keeps.after (State.tryReplicate_keeps ..)
    | with_reducible apply Keeps.after (State.modEngine_keeps ..)

theorem State.propagate_keeps {s : State} {k table epoch row : Nat} {d : Bytes}  :
    Keeps s (State.propagate s k table epoch row d) := by
  unfold State.propagate
  repeat' first
    | with_reducible apply Keeps.refl
    | ((try lift_lets -underBinder); intro x; clear_value x)
    | split
    | with_reducible refine Keeps.mk ?_

theorem State.giveRow_keeps {s : State} {k id : Nat} {v : RowVal}  :
    Keeps s (State.giveRow s k id v) := by
  unfold State.giveRow
  repeat' first
    | with_reducible apply Keeps.refl
    | with_reducible assumption
    | ((try lift_lets -underBinder); intro x; (refine Keeps.cut (s := s) x ?_ (fun hx => ?_); dsimp -zeta only [x]; rotate_left; clear_value x; rotate_right))
    | with_reducible apply Keeps.ite
    | with_reducible apply Keeps.after (State.modHeld_keeps ..)
    | with_reducible apply Keeps.after (State.countEngine_keeps ..)

theorem State.updated_keeps {s : State} {k : Nat} {p : Part} {pos : Nat} {ok : Bool}  :
    Keeps s (State.updated s k p pos ok) := by
  unfold State.updated
  repeat' first
    | with_reducible apply Keeps.refl
    | with_reducible apply Keeps.ite
    | split
    | with_reducible apply Keeps.after (State.modHeld_keeps ..)
    | with_reducible apply Keeps.after (State.countEngine_keeps ..)

theorem State.modLanding_keeps {s : State} {k table epoch page : Nat} {f : Landing → Landing}  :
    Keeps s (State.modLanding s k table epoch page f) := by
  unfold State.modLanding
  repeat' first
    | with_reducible apply Keeps.refl
    | with_reducible apply Keeps.after (State.modEngine_keeps ..)

theorem State.takeSlot_keeps (k : Nat) (e : TableEntry) (f : Nat) : ∀ s, Keeps s (State.takeSlot k e f s).2 := by
  induction f with
  | zero => intro s; exact .refl _
  | succ f ih => ?_
  intro s
  unfold State.takeSlot
  repeat' first
    | with_reducible apply Keeps.refl
    | with_reducible assumption
    | ((try lift_lets -underBinder); intro x; first
        | (refine Keeps.cut (s := s) x ?_ (fun hx => ?_); dsimp -zeta only [x]; rotate_left; clear_value x; rotate_right)
        | clear_value x)
    | with_reducible apply Keeps.ite2
    | split
    | with_reducible apply Keeps.after (ih ..)
    | with_reducible apply Keeps.after (State.modLanding_keeps ..)
    | with_reducible apply Keeps.after (State.writeBack_keeps ..)
    | with_reducible apply Keeps.after (State.modEngine_keeps ..)

theorem State.coldMiss_keeps {s : State} {k : Nat} {e : TableEntry} {ep : Epoch} {page : Nat} {f : Fetch} :
    Keeps s (State.coldMiss s k e ep page f).2 := by
  unfold State.coldMiss
  dsimp only
  split
  · exact .refl _
  split
  · dsimp only
    split
    · exact State.modEngine_keeps
    · exact State.modEngine_keeps.trans State.nvme_keeps
  split
  · exact .refl _
  have h := State.takeSlot_keeps k e (e.landing + 1) s
  generalize State.takeSlot k e (e.landing + 1) s = p at h
  obtain ⟨o, t⟩ := p
  cases o
  · exact h
  · exact h.trans (State.modEngine_keeps.trans State.nvme_keeps)

theorem State.coldDrop_keeps {s : State} {p : Nat}  :
    Keeps s (State.coldDrop s p) := by
  unfold State.coldDrop
  repeat' first
    | with_reducible apply Keeps.refl
    | with_reducible apply Keeps.after (State.modSvc_keeps ..)

theorem State.coldRow_keeps {s : State} {k : Nat} {e : TableEntry} {ep : Epoch} {row : Nat}  :
    Keeps s (State.coldRow s k e ep row).2 := by
  unfold State.coldRow
  repeat' first
    | with_reducible apply Keeps.refl
    | split
    | with_reducible apply Keeps.after (State.bursts_keeps ..)

theorem State.coldApply_keeps {s : State} {k : Nat} {e : TableEntry} {ep : Epoch} {p : Part} {pos row : Nat}  :
    Keeps s (State.coldApply s k e ep p pos row) := by
  unfold State.coldApply
  repeat' first
    | with_reducible apply Keeps.refl
    | ((try lift_lets -underBinder); intro x; clear_value x)
    | split
    | with_reducible apply Keeps.after (State.coldDrop_keeps ..)
    | with_reducible apply Keeps.after (State.modLanding_keeps ..)
    | with_reducible apply Keeps.after (State.updated_keeps ..)
    | with_reducible apply Keeps.after (State.bursts_keeps ..)

theorem State.issueFetch_keeps {s : State} {k : Nat} {f : Fetch}  :
    Keeps s (State.issueFetch s k f) := by
  unfold State.issueFetch
  repeat' first
    | with_reducible apply Keeps.refl
    | with_reducible apply Keeps.after (State.modEngine_keeps ..)

theorem State.takeIndex_keeps {s : State} {k id : Nat} {it : Item}  :
    Keeps s (State.takeIndex s k id it) := by
  unfold State.takeIndex
  repeat' first
    | with_reducible apply Keeps.refl
    | with_reducible assumption
    | ((try lift_lets -underBinder); intro x; first
        | (refine Keeps.cut (s := s) x ?_ (fun hx => ?_); dsimp -zeta only [x]; rotate_left; clear_value x; rotate_right)
        | (refine Keeps.cutG x (fun a s => ?_) (fun hg => ?_); dsimp -zeta only [x]; rotate_left; clear_value x; rotate_right)
        | clear_value x)
    | with_reducible apply Keeps.ite
    | split
    | with_reducible apply Keeps.after (State.issueFetch_keeps ..)
    | with_reducible apply Keeps.after (State.coldMiss_keeps ..)
    | with_reducible apply Keeps.after (State.giveRow_keeps ..)
    | with_reducible apply Keeps.after (State.countRow_keeps ..)
    | with_reducible apply Keeps.after (State.modHeld_keeps ..)
    | with_reducible apply Keeps.after (State.countEngine_keeps ..)
    | (with_reducible apply Keeps.after; with_reducible apply_assumption -exfalso -symm)

theorem State.takeRow_keeps {s : State} {k id : Nat} {it : Item}  :
    Keeps s (State.takeRow s k id it) := by
  unfold State.takeRow
  repeat' first
    | with_reducible apply Keeps.refl
    | with_reducible assumption
    | ((try lift_lets -underBinder); intro x; first
        | (refine Keeps.cut (s := s) x ?_ (fun hx => ?_); dsimp -zeta only [x]; rotate_left; clear_value x; rotate_right)
        | (refine Keeps.cutF x (fun s => ?_) (fun hf => ?_); dsimp -zeta only [x]; rotate_left; clear_value x; rotate_right)
        | clear_value x)
    | with_reducible apply Keeps.ite
    | split
    | with_reducible apply Keeps.after (State.issueFetch_keeps ..)
    | with_reducible apply Keeps.after (State.coldDrop_keeps ..)
    | with_reducible apply Keeps.after (State.coldMiss_keeps ..)
    | with_reducible apply Keeps.after (State.modHeld_keeps ..)
    | with_reducible apply Keeps.after (State.countEngine_keeps ..)
    | (with_reducible apply Keeps.after; with_reducible apply_assumption -exfalso -symm)

theorem State.admitPart_keeps {s : State} {k : Nat}  :
    Keeps s (State.admitPart s k) := by
  unfold State.admitPart
  repeat' first
    | with_reducible apply Keeps.refl
    | with_reducible assumption
    | ((try lift_lets -underBinder); intro x; first
        | (refine Keeps.cut (s := s) x ?_ (fun hx => ?_); dsimp -zeta only [x]; rotate_left; clear_value x; rotate_right)
        | clear_value x)
    | with_reducible apply Keeps.ite
    | split
    | with_reducible apply Keeps.after (State.countEngine_keeps ..)
    | with_reducible apply Keeps.after (State.modEngine_keeps ..)

theorem State.takeTurn_keeps {s : State} {k : Nat}  :
    Keeps s (State.takeTurn s k) := by
  unfold State.takeTurn
  repeat' first
    | with_reducible apply Keeps.refl
    | with_reducible assumption
    | ((try lift_lets -underBinder); intro x; first
        | (refine Keeps.cut (s := s) x ?_ (fun hx => ?_); dsimp -zeta only [x]; rotate_left; clear_value x; rotate_right)
        | clear_value x)
    | with_reducible apply Keeps.ite
    | split
    | (with_reducible apply Keeps.foldlFrom; rotate_left; intro s a; rotate_right)
    | with_reducible apply Keeps.after (State.takeRow_keeps ..)
    | with_reducible apply Keeps.after (State.takeIndex_keeps ..)
    | with_reducible apply Keeps.after (State.partTry_keeps ..)
    | with_reducible apply Keeps.after (State.modHeld_keeps ..)
    | with_reducible apply Keeps.after (State.countEngine_keeps ..)
    | with_reducible apply Keeps.after (State.draw_keeps ..)
    | with_reducible apply Keeps.after (State.modEngine_keeps ..)
    | (with_reducible apply Keeps.of_pair; with_reducible assumption)

theorem execRequestPart_keeps {k : Nat} {s : State}  :
    KeepsO s (execRequestPart k s) := by
  unfold execRequestPart
  repeat' first
    | with_reducible apply Keeps.refl
    | with_reducible apply KeepsO.next
    | with_reducible apply Keeps.ite
    | with_reducible apply Keeps.after (State.takeTurn_keeps ..)
    | with_reducible apply Keeps.after (State.admitPart_keeps ..)
    | with_reducible apply Keeps.after (State.engineLost_keeps ..)

theorem State.gatherRow_keeps {s : State} {k : Nat} {e : TableEntry} {ep : Epoch} {f : Fetch}  :
    Keeps s (State.gatherRow s k e ep f).2 := by
  unfold State.gatherRow
  repeat' first
    | with_reducible apply Keeps.refl
    | ((try lift_lets -underBinder); intro x; clear_value x)
    | with_reducible apply Keeps.ite2
    | split
    | with_reducible apply Keeps.after (State.areaRead_keeps ..)

theorem State.runFetch_keeps {s : State} {k : Nat} {e : TableEntry} {ep : Epoch} {p : Part} {f : Fetch}  :
    Keeps s (State.runFetch s k e ep p f) := by
  unfold State.runFetch
  repeat' first
    | with_reducible apply Keeps.refl
    | with_reducible assumption
    | ((try lift_lets -underBinder); intro x; first
        | (refine Keeps.cut (s := s) x ?_ (fun hx => ?_); dsimp -zeta only [x]; rotate_left; clear_value x; rotate_right)
        | clear_value x)
    | with_reducible apply Keeps.ite
    | with_reducible apply Keeps.ite2
    | split
    | with_reducible apply Keeps.after (State.gatherRow_keeps ..)
    | with_reducible apply Keeps.after (State.coldApply_keeps ..)
    | with_reducible apply Keeps.after (State.coldRow_keeps ..)
    | with_reducible apply Keeps.after (State.updated_keeps ..)
    | with_reducible apply Keeps.after (State.giveRow_keeps ..)
    | with_reducible apply Keeps.after (State.propagate_keeps ..)
    | with_reducible apply Keeps.after (State.modHeld_keeps ..)
    | with_reducible apply Keeps.after (State.countEngine_keeps ..)
    | with_reducible apply Keeps.after (State.areaUnmark_keeps ..)
    | with_reducible apply Keeps.after (State.areaWrite_keeps ..)
    | with_reducible apply Keeps.after (State.areaRead_keeps ..)
    | (with_reducible apply Keeps.of_pair; with_reducible assumption)

theorem State.fetchDone_keeps {s : State} {k n : Nat} {err : EngineErr}  :
    Keeps s (State.fetchDone s k n err) := by
  unfold State.fetchDone
  repeat' first
    | with_reducible apply Keeps.refl
    | with_reducible assumption
    | ((try lift_lets -underBinder); intro x; first
        | (refine Keeps.cut (s := s) x ?_ (fun hx => ?_); dsimp -zeta only [x]; rotate_left; clear_value x; rotate_right)
        | clear_value x)
    | with_reducible apply Keeps.ite
    | split
    | with_reducible apply Keeps.after (State.runFetch_keeps ..)
    | with_reducible apply Keeps.after (State.giveRow_keeps ..)
    | with_reducible apply Keeps.after (State.partTry_keeps ..)
    | with_reducible apply Keeps.after (State.engineFault_keeps ..)
    | with_reducible apply Keeps.after (State.modEngine_keeps ..)

theorem execRowFetchDone_keeps {k n : Nat} {err : EngineErr} {s : State}  :
    KeepsO s (execRowFetchDone k n err s) := by
  unfold execRowFetchDone
  repeat' first
    | with_reducible apply Keeps.refl
    | with_reducible apply KeepsO.next
    | with_reducible apply Keeps.after (State.fetchDone_keeps ..)

theorem State.serveDefault_keeps {s : State} {k : Nat} {f : Fetch}  :
    Keeps s (State.serveDefault s k f) := by
  unfold State.serveDefault
  repeat' first
    | with_reducible apply Keeps.refl
    | split
    | with_reducible apply Keeps.after (State.giveRow_keeps ..)
    | with_reducible apply Keeps.after (State.partTry_keeps ..)

theorem State.serveDropped_keeps {s : State} {k : Nat} {f : Fetch}  :
    Keeps s (State.serveDropped s k f) := by
  unfold State.serveDropped
  repeat' first
    | with_reducible apply Keeps.refl
    | split
    | with_reducible apply Keeps.after (State.coldDrop_keeps ..)
    | with_reducible apply Keeps.after (State.partTry_keeps ..)

theorem State.endMiss_keeps {s : State} {k : Nat} {m : ColdMiss}  :
    Keeps s (State.endMiss s k m) := by
  unfold State.endMiss
  repeat' first
    | with_reducible apply Keeps.refl
    | with_reducible assumption
    | ((try lift_lets -underBinder); intro x; (refine Keeps.cut (s := s) x ?_ (fun hx => ?_); dsimp -zeta only [x]; rotate_left; clear_value x; rotate_right))
    | with_reducible apply Keeps.ite
    | (with_reducible apply Keeps.foldlFrom; rotate_left; intro s a; rotate_right)
    | with_reducible apply Keeps.after (State.serveDropped_keeps ..)
    | with_reducible apply Keeps.after (State.serveDefault_keeps ..)
    | with_reducible apply Keeps.after (State.modEngine_keeps ..)

theorem State.readAborted_keeps {s : State} {c : Nvme}  :
    Keeps s (State.readAborted s c) := by
  unfold State.readAborted
  repeat' first
    | with_reducible apply Keeps.refl
    | with_reducible assumption
    | ((try lift_lets -underBinder); intro x; first
        | (refine Keeps.cut (s := s) x ?_ (fun hx => ?_); dsimp -zeta only [x]; rotate_left; clear_value x; rotate_right)
        | clear_value x)
    | with_reducible apply Keeps.ite
    | (with_reducible apply Keeps.foldlFrom; rotate_left; intro s a; rotate_right)
    | with_reducible apply Keeps.after (State.serveDropped_keeps ..)
    | with_reducible apply Keeps.after (State.modEngine_keeps ..)

theorem State.pageArrival_keeps {s : State} {k n : Nat} {data : Bytes} {marked : Bool}  :
    Keeps s (State.pageArrival s k n data marked) := by
  unfold State.pageArrival
  repeat' first
    | with_reducible apply Keeps.refl
    | with_reducible assumption
    | ((try lift_lets -underBinder); intro x; first
        | (refine Keeps.cut (s := s) x ?_ (fun hx => ?_); dsimp -zeta only [x]; rotate_left; clear_value x; rotate_right)
        | clear_value x)
    | with_reducible apply Keeps.ite
    | split
    | (with_reducible apply Keeps.foldlFrom; rotate_left; intro s a; rotate_right)
    | with_reducible apply Keeps.after (State.endMiss_keeps ..)
    | with_reducible apply Keeps.after (State.serveDefault_keeps ..)
    | with_reducible apply Keeps.after (State.cartFault_keeps ..)
    | with_reducible apply Keeps.after (State.bursts_keeps ..)
    | with_reducible apply Keeps.after (State.modBay_keeps ..)
    | with_reducible apply Keeps.after (State.modSvc_keeps ..)
    | with_reducible apply Keeps.after (State.modEngine_keeps ..)

theorem State.coldDeadline_keeps {s : State} {k : Nat}  :
    Keeps s (State.coldDeadline s k) := by
  unfold State.coldDeadline
  repeat' first
    | with_reducible apply Keeps.refl
    | with_reducible assumption
    | ((try lift_lets -underBinder); intro x; first
        | (refine Keeps.cut (s := s) x ?_ (fun hx => ?_); dsimp -zeta only [x]; rotate_left; clear_value x; rotate_right)
        | clear_value x)
    | (with_reducible apply Keeps.foldlFrom; rotate_left; intro s a; rotate_right)
    | with_reducible apply Keeps.after (State.serveDefault_keeps ..)
    | with_reducible apply Keeps.after (State.modEngine_keeps ..)

theorem execColdDeadline_keeps {k : Nat} {s : State}  :
    KeepsO s (execColdDeadline k s) := by
  unfold execColdDeadline
  repeat' first
    | with_reducible apply Keeps.refl
    | with_reducible apply KeepsO.next
    | with_reducible apply Keeps.after (State.coldDeadline_keeps ..)

theorem State.writeBackDone_keeps {s : State} {k n : Nat}  :
    Keeps s (State.writeBackDone s k n) := by
  unfold State.writeBackDone
  repeat' first
    | with_reducible apply Keeps.refl
    | with_reducible assumption
    | ((try lift_lets -underBinder); intro x; first
        | (refine Keeps.cut (s := s) x ?_ (fun hx => ?_); dsimp -zeta only [x]; rotate_left; clear_value x; rotate_right)
        | clear_value x)
    | with_reducible apply Keeps.ite
    | split
    | with_reducible apply Keeps.after (State.modLanding_keeps ..)
    | with_reducible apply Keeps.after (State.writeBack_keeps ..)
    | with_reducible apply Keeps.after (State.modEngine_keeps ..)

theorem execSketchHalving_keeps {k : Nat} {s : State}  :
    KeepsO s (execSketchHalving k s) := by
  unfold execSketchHalving
  repeat' first
    | with_reducible apply Keeps.refl
    | with_reducible assumption
    | ((try lift_lets -underBinder); intro x; (refine Keeps.cut (s := s) x ?_ (fun hx => ?_); dsimp -zeta only [x]; rotate_left; clear_value x; rotate_right))
    | with_reducible apply KeepsO.next
    | with_reducible apply Keeps.ite
    | split
    | (with_reducible apply Keeps.foldlFrom; rotate_left; intro s a; rotate_right)
    | with_reducible apply Keeps.after (State.withdraw_keeps ..)
    | with_reducible apply Keeps.after (State.modEngine_keeps ..)

theorem execCountMessageSend_keeps {k home : Nat} {s : State}  :
    KeepsO s (execCountMessageSend k home s) := by
  unfold execCountMessageSend
  repeat' first
    | with_reducible apply Keeps.refl
    | with_reducible assumption
    | ((try lift_lets -underBinder); intro x; first
        | (refine Keeps.cut (s := s) x ?_ (fun hx => ?_); dsimp -zeta only [x]; rotate_left; clear_value x; rotate_right)
        | clear_value x)
    | with_reducible apply KeepsO.next
    | with_reducible apply Keeps.after (State.modEngine_keeps ..)
    | with_reducible refine Keeps.mk ?_

theorem execCountMessage_keeps {k : Nat} {s : State}  :
    KeepsO s (execCountMessage k s) := by
  unfold execCountMessage
  repeat' first
    | with_reducible apply Keeps.refl
    | with_reducible assumption
    | ((try lift_lets -underBinder); intro x; (refine Keeps.cut (s := s) x ?_ (fun hx => ?_); dsimp -zeta only [x]; rotate_left; clear_value x; rotate_right))
    | with_reducible apply KeepsO.next
    | split
    | with_reducible apply Keeps.after (State.tryReplicate_keeps ..)
    | with_reducible apply Keeps.after (State.modEngine_keeps ..)
    | with_reducible refine Keeps.mk ?_

theorem State.replicaWrite_keeps {s : State} {k : Nat}  :
    Keeps s (State.replicaWrite s k) := by
  unfold State.replicaWrite
  repeat' first
    | with_reducible apply Keeps.refl
    | with_reducible assumption
    | ((try lift_lets -underBinder); intro x; (refine Keeps.cut (s := s) x ?_ (fun hx => ?_); dsimp -zeta only [x]; rotate_left; clear_value x; rotate_right))
    | split
    | with_reducible apply Keeps.after (State.countEngine_keeps ..)
    | with_reducible apply Keeps.after (State.areaUnmark_keeps ..)
    | with_reducible apply Keeps.after (State.areaWrite_keeps ..)
    | with_reducible refine Keeps.mk ?_

theorem execReplicaWrite_keeps {k : Nat} {s : State}  :
    KeepsO s (execReplicaWrite k s) := by
  unfold execReplicaWrite
  repeat' first
    | with_reducible apply Keeps.refl
    | with_reducible apply KeepsO.next
    | with_reducible apply Keeps.after (State.replicaWrite_keeps ..)

theorem State.replicaAck_keeps {s : State} {k : Nat}  :
    Keeps s (State.replicaAck s k) := by
  unfold State.replicaAck
  repeat' first
    | with_reducible apply Keeps.refl
    | with_reducible assumption
    | ((try lift_lets -underBinder); intro x; first
        | (refine Keeps.cut (s := s) x ?_ (fun hx => ?_); dsimp -zeta only [x]; rotate_left; clear_value x; rotate_right)
        | clear_value x)
    | split
    | with_reducible apply Keeps.after (State.modEngine_keeps ..)
    | with_reducible refine Keeps.mk ?_

theorem execReplicaWriteAck_keeps {k : Nat} {s : State}  :
    KeepsO s (execReplicaWriteAck k s) := by
  unfold execReplicaWriteAck
  repeat' first
    | with_reducible apply Keeps.refl
    | with_reducible apply KeepsO.next
    | with_reducible apply Keeps.after (State.replicaAck_keeps ..)

theorem State.replicaLive_keeps {s : State} {k : Nat}  :
    Keeps s (State.replicaLive s k) := by
  unfold State.replicaLive
  repeat' first
    | with_reducible apply Keeps.refl
    | with_reducible assumption
    | ((try lift_lets -underBinder); intro x; first
        | (refine Keeps.cut (s := s) x ?_ (fun hx => ?_); dsimp -zeta only [x]; rotate_left; clear_value x; rotate_right)
        | clear_value x)
    | split
    | (with_reducible apply Keeps.foldlFrom; rotate_left; intro s a; rotate_right)
    | with_reducible apply Keeps.after (State.modSvc_keeps ..)
    | with_reducible apply Keeps.after (State.modEngine_keeps ..)

theorem execReplicaSetCreated_keeps {k : Nat} {s : State}  :
    KeepsO s (execReplicaSetCreated k s) := by
  unfold execReplicaSetCreated
  repeat' first
    | with_reducible apply Keeps.refl
    | with_reducible apply KeepsO.next
    | with_reducible apply Keeps.after (State.replicaLive_keeps ..)

theorem State.replicaLag_keeps {s : State} {k : Nat}  :
    Keeps s (State.replicaLag s k) := by
  unfold State.replicaLag
  repeat' first
    | with_reducible apply Keeps.refl
    | with_reducible assumption
    | ((try lift_lets -underBinder); intro x; first
        | (refine Keeps.cut (s := s) x ?_ (fun hx => ?_); dsimp -zeta only [x]; rotate_left; clear_value x; rotate_right)
        | clear_value x)
    | split
    | (with_reducible apply Keeps.foldlFrom; rotate_left; intro s a; rotate_right)
    | with_reducible apply Keeps.after (State.sweepHeld_keeps ..)
    | with_reducible apply Keeps.after (State.modSvc_keeps ..)
    | with_reducible apply Keeps.after (State.modEngine_keeps ..)
    | with_reducible refine Keeps.mk ?_

theorem execReplicaLagExpiry_keeps {k : Nat} {s : State}  :
    KeepsO s (execReplicaLagExpiry k s) := by
  unfold execReplicaLagExpiry
  repeat' first
    | with_reducible apply Keeps.refl
    | with_reducible apply KeepsO.next
    | with_reducible apply Keeps.after (State.replicaLag_keeps ..)

theorem execReCntFreeze_keeps {k : Nat} {b : Bool} {s : State}  :
    KeepsO s (execReCntFreeze k b s) := by
  unfold execReCntFreeze
  repeat' first
    | with_reducible apply Keeps.refl
    | with_reducible apply KeepsO.next
    | with_reducible apply Keeps.after (State.modEngine_keeps ..)

theorem execReCntClear_keeps {k : Nat} {s : State}  :
    KeepsO s (execReCntClear k s) := by
  unfold execReCntClear
  repeat' first
    | with_reducible apply Keeps.refl
    | with_reducible apply KeepsO.next
    | with_reducible apply Keeps.after (State.modEngine_keeps ..)

theorem execReFaultValidClear_keeps {k : Nat} {s : State}  :
    KeepsO s (execReFaultValidClear k s) := by
  unfold execReFaultValidClear
  repeat' first
    | with_reducible apply Keeps.refl
    | with_reducible apply KeepsO.next
    | with_reducible apply Keeps.after (State.modEngine_keeps ..)

end Sys2Proof.Machine
end

