-- ==== Sys2Proof/Laws/KeepsCarts.lean ====
section
/-! SUPPORT. What every operation of Machine/Carts.lean keeps. -/
set_option linter.all false
set_option Elab.async false
namespace Sys2Proof.Machine

theorem State.cartEvent_keeps {s : State} {b sub : Nat}  :
    Keeps s (State.cartEvent s b sub) := by
  unfold State.cartEvent
  repeat' first
    | with_reducible apply Keeps.refl
    | with_reducible apply Keeps.after (State.cartFault_keeps ..)

theorem State.modPages_keeps {s : State} {p : Landing → Bool} {f : Landing → Landing}  :
    Keeps s (State.modPages s p f) := by
  unfold State.modPages
  repeat' first
    | with_reducible apply Keeps.refl
    | with_reducible refine Keeps.mk ?_

theorem State.writeBackAll_keeps {s : State} {serial : Bytes}  :
    Keeps s (State.writeBackAll s serial) := by
  unfold State.writeBackAll
  repeat' first
    | with_reducible apply Keeps.refl
    | (with_reducible apply Keeps.foldlFrom; rotate_left; intro s a; rotate_right)
    | with_reducible apply Keeps.after (State.writeBack_keeps ..)

theorem State.unwritten_keeps {s : State} {c : Nvme}  :
    Keeps s (State.unwritten s c) := by
  unfold State.unwritten
  repeat' first
    | with_reducible apply Keeps.refl
    | with_reducible apply Keeps.ite
    | with_reducible apply Keeps.after (State.modPages_keeps ..)

theorem State.cartEnd_keeps {s : State} {result : Nat}  :
    Keeps s (State.cartEnd s result) := by
  unfold State.cartEnd
  repeat' first
    | with_reducible apply Keeps.refl
    | (intro n; with_reducible rfl)
    | with_reducible apply Keeps.after (State.modCarts_keeps (h := ?_) ..)

theorem State.abortCopy_keeps {s : State} {b : Nat}  :
    Keeps s (State.abortCopy s b) := by
  unfold State.abortCopy
  repeat' first
    | with_reducible apply Keeps.refl
    | with_reducible assumption
    | (intro (n : Carts); simp; done)
    | ((try lift_lets -underBinder); intro x; first
        | (refine Keeps.cut (s := s) x ?_ (fun hx => ?_); dsimp -zeta only [x]; rotate_left; clear_value x; rotate_right)
        | clear_value x)
    | with_reducible apply Keeps.ite
    | (with_reducible apply Keeps.foldlFrom; rotate_left; intro s a; rotate_right)
    | with_reducible apply Keeps.after (State.cartEnd_keeps ..)
    | with_reducible apply Keeps.after (State.unwritten_keeps ..)
    | with_reducible apply Keeps.after (State.modCarts_keeps (h := ?_) ..)

theorem State.ejectTry_keeps {s : State} {b : Nat}  :
    Keeps s (State.ejectTry s b) := by
  unfold State.ejectTry
  repeat' first
    | with_reducible apply Keeps.refl
    | with_reducible apply Keeps.ite
    | with_reducible apply Keeps.after (State.nvme_keeps ..)

theorem State.ejectAll_keeps {s : State}  :
    Keeps s (State.ejectAll s) := by
  unfold State.ejectAll
  repeat' first
    | with_reducible apply Keeps.refl
    | (with_reducible apply Keeps.foldlFrom; rotate_left; intro s a; rotate_right)
    | with_reducible apply Keeps.after (State.ejectTry_keeps ..)

theorem State.fillNext_keeps {s : State}  :
    Keeps s (State.fillNext s) := by
  unfold State.fillNext
  repeat' first
    | with_reducible apply Keeps.refl
    | ((try lift_lets -underBinder); intro x; clear_value x)
    | with_reducible apply Keeps.ite
    | with_reducible apply Keeps.after (State.cartEnd_keeps ..)
    | with_reducible apply Keeps.after (State.nvmeWrite_keeps ..)
    | with_reducible apply Keeps.after (State.hostRead_keeps ..)

theorem State.rebindSerial_keeps {s : State} {old new : Bytes}  :
    Keeps s (State.rebindSerial s old new) := by
  unfold State.rebindSerial
  repeat' first
    | with_reducible apply Keeps.refl
    | with_reducible apply Keeps.after (State.modPages_keeps ..)
    | with_reducible refine Keeps.mk ?_

theorem State.migrateEnd_keeps {s : State}  :
    Keeps s (State.migrateEnd s) := by
  unfold State.migrateEnd
  repeat' first
    | with_reducible apply Keeps.refl
    | with_reducible assumption
    | ((try lift_lets -underBinder); intro x; first
        | (refine Keeps.cut (s := s) x ?_ (fun hx => ?_); dsimp -zeta only [x]; rotate_left; clear_value x; rotate_right)
        | clear_value x)
    | with_reducible apply Keeps.ite
    | split
    | with_reducible apply Keeps.after (State.rebindSerial_keeps ..)
    | with_reducible apply Keeps.after (State.cartEnd_keeps ..)

theorem State.migrateNext_keeps {s : State}  :
    Keeps s (State.migrateNext s) := by
  unfold State.migrateNext
  repeat' first
    | with_reducible apply Keeps.refl
    | with_reducible assumption
    | ((try lift_lets -underBinder); intro x; first
        | (refine Keeps.cut (s := s) x ?_ (fun hx => ?_); dsimp -zeta only [x]; rotate_left; clear_value x; rotate_right)
        | clear_value x)
    | with_reducible apply Keeps.ite
    | (with_reducible apply Keeps.foldlFrom; rotate_left; intro s a; rotate_right)
    | with_reducible apply Keeps.after (State.migrateEnd_keeps ..)
    | with_reducible apply Keeps.after (State.modLanding_keeps ..)
    | with_reducible apply Keeps.after (State.nvmeWrite_keeps ..)
    | with_reducible apply Keeps.after (State.nvme_keeps ..)

theorem State.pageWritten_keeps {s : State} {b : Nat}  :
    Keeps s (State.pageWritten s b) := by
  unfold State.pageWritten
  repeat' first
    | with_reducible apply Keeps.refl
    | with_reducible apply Keeps.after (State.addWritten_keeps ..)
    | with_reducible apply Keeps.after (State.modBay_keeps ..)

theorem State.nvmeDone_keeps {s : State} {b : Nat} {c : Nvme} {ok : Bool} {data : Bytes}  :
    Keeps s (State.nvmeDone s b c ok data) := by
  unfold State.nvmeDone
  repeat' first
    | with_reducible apply Keeps.refl
    | with_reducible assumption
    | (intro n; with_reducible rfl)
    | ((try lift_lets -underBinder); intro x; first
        | (refine Keeps.cut (s := s) x ?_ (fun hx => ?_); dsimp -zeta only [x]; rotate_left; clear_value x; rotate_right)
        | clear_value x)
    | with_reducible apply Keeps.ite
    | with_reducible apply Keeps.ite2
    | split
    | with_reducible apply Keeps.after (State.pageWritten_keeps ..)
    | with_reducible apply Keeps.after (State.migrateNext_keeps ..)
    | with_reducible apply Keeps.after (State.migrateEnd_keeps ..)
    | with_reducible apply Keeps.after (State.fillNext_keeps ..)
    | with_reducible apply Keeps.after (State.cartEnd_keeps ..)
    | with_reducible apply Keeps.after (State.unwritten_keeps ..)
    | with_reducible apply Keeps.after (State.modPages_keeps ..)
    | with_reducible apply Keeps.after (State.nvmeWrite_keeps ..)
    | with_reducible apply Keeps.after (State.cartFault_keeps ..)
    | with_reducible apply Keeps.after (State.draw_keeps ..)
    | with_reducible apply Keeps.after (State.modBay_keeps ..)
    | with_reducible apply Keeps.after (State.modCarts_keeps (h := ?_) ..)
    | (with_reducible apply Keeps.of_pair; with_reducible assumption)

theorem State.nvmeCompletion_keeps {s : State} {b n : Nat} {ok : Bool} {data : Bytes}  :
    Keeps s (State.nvmeCompletion s b n ok data) := by
  unfold State.nvmeCompletion
  repeat' first
    | with_reducible apply Keeps.refl
    | with_reducible apply Keeps.ite
    | split
    | with_reducible apply Keeps.after (State.nvmeDone_keeps ..)
    | with_reducible apply Keeps.after (State.ejectAll_keeps ..)
    | with_reducible apply Keeps.after (State.modBay_keeps ..)

theorem execNvmeCompletion_keeps {bay n : Nat} {ok : Bool} {data : Bytes} {s : State}  :
    KeepsO s (execNvmeCompletion bay n ok data s) := by
  unfold execNvmeCompletion
  repeat' first
    | with_reducible apply Keeps.refl
    | with_reducible apply KeepsO.next
    | with_reducible apply Keeps.after (State.nvmeCompletion_keeps ..)

theorem execColdPageArrival_keeps {k n : Nat} {data : Bytes} {marked : Bool} {s : State}  :
    KeepsO s (execColdPageArrival k n data marked s) := by
  unfold execColdPageArrival
  repeat' first
    | with_reducible apply Keeps.refl
    | with_reducible apply KeepsO.next
    | with_reducible apply Keeps.after (State.ejectAll_keeps ..)
    | with_reducible apply Keeps.after (State.pageArrival_keeps ..)

theorem State.startBay_keeps {s : State} {b : Nat}  :
    Keeps s (State.startBay s b) := by
  unfold State.startBay
  repeat' first
    | with_reducible apply Keeps.refl
    | ((try lift_lets -underBinder); intro x; clear_value x)
    | with_reducible apply Keeps.after (State.modBay_keeps ..)

theorem State.prsntAssert_keeps {s : State} {b : Nat}  :
    Keeps s (State.prsntAssert s b) := by
  unfold State.prsntAssert
  repeat' first
    | with_reducible apply Keeps.refl
    | with_reducible assumption
    | ((try lift_lets -underBinder); intro x; first
        | (refine Keeps.cut (s := s) x ?_ (fun hx => ?_); dsimp -zeta only [x]; rotate_left; clear_value x; rotate_right)
        | clear_value x)
    | with_reducible apply Keeps.ite
    | with_reducible apply Keeps.after (State.startBay_keeps ..)
    | with_reducible apply Keeps.after (State.modBay_keeps ..)

theorem execPrsntAssert_keeps {bay : Nat} {s : State}  :
    KeepsO s (execPrsntAssert bay s) := by
  unfold execPrsntAssert
  repeat' first
    | with_reducible apply Keeps.refl
    | with_reducible apply KeepsO.next
    | with_reducible apply Keeps.after (State.prsntAssert_keeps ..)

theorem execPresenceSettled_keeps {bay : Nat} {s : State}  :
    KeepsO s (execPresenceSettled bay s) := by
  unfold execPresenceSettled
  repeat' first
    | with_reducible apply Keeps.refl
    | ((try lift_lets -underBinder); intro x; clear_value x)
    | with_reducible apply KeepsO.next
    | with_reducible apply Keeps.ite
    | with_reducible apply Keeps.after (State.modBay_keeps ..)

theorem State.holdRetired_keeps {s : State} {b sub : Nat}  :
    Keeps s (State.holdRetired s b sub) := by
  unfold State.holdRetired
  repeat' first
    | with_reducible apply Keeps.refl
    | with_reducible apply Keeps.after (State.cartFault_keeps ..)
    | with_reducible apply Keeps.after (State.modBay_keeps ..)

theorem State.controllerReady_keeps {s : State} {b : Nat} {i : CartInfo}  :
    Keeps s (State.controllerReady s b i) := by
  unfold State.controllerReady
  repeat' first
    | with_reducible apply Keeps.refl
    | with_reducible assumption
    | (intro (n : Carts); simp; done)
    | ((try lift_lets -underBinder); intro x; first
        | (refine Keeps.cut (s := s) x ?_ (fun hx => ?_); dsimp -zeta only [x]; rotate_left; clear_value x; rotate_right)
        | clear_value x)
    | with_reducible apply Keeps.ite
    | with_reducible apply Keeps.after (State.holdRetired_keeps ..)
    | with_reducible apply Keeps.after (State.writeBackAll_keeps ..)
    | with_reducible apply Keeps.after (State.decideLife_keeps ..)
    | with_reducible apply Keeps.after (State.cartFault_keeps ..)
    | with_reducible apply Keeps.after (State.modBay_keeps ..)
    | with_reducible apply Keeps.after (State.modCarts_keeps (h := ?_) ..)

theorem execControllerReady_keeps {bay : Nat} {info : CartInfo} {s : State}  :
    KeepsO s (execControllerReady bay info s) := by
  unfold execControllerReady
  repeat' first
    | with_reducible apply Keeps.refl
    | with_reducible apply KeepsO.next
    | with_reducible apply Keeps.after (State.controllerReady_keeps ..)

theorem execNotReady_keeps {bay : Nat} {s : State}  :
    KeepsO s (execNotReady bay s) := by
  unfold execNotReady
  repeat' first
    | with_reducible apply Keeps.refl
    | with_reducible apply KeepsO.next
    | with_reducible apply Keeps.ite
    | with_reducible apply Keeps.after (State.holdRetired_keeps ..)

theorem execSmartPoll_keeps {bay : Nat} {smart : Smart} {s : State}  :
    KeepsO s (execSmartPoll bay smart s) := by
  unfold execSmartPoll
  repeat' first
    | with_reducible apply Keeps.refl
    | with_reducible apply KeepsO.next
    | with_reducible apply Keeps.ite
    | with_reducible apply Keeps.after (State.decideLife_keeps ..)
    | with_reducible apply Keeps.after (State.modBay_keeps ..)

theorem State.cartRemoval_keeps {s : State} {b : Nat}  :
    Keeps s (State.cartRemoval s b) := by
  unfold State.cartRemoval
  repeat' first
    | with_reducible apply Keeps.refl
    | with_reducible assumption
    | ((try lift_lets -underBinder); intro x; first
        | (refine Keeps.cut (s := s) x ?_ (fun hx => ?_); dsimp -zeta only [x]; rotate_left; clear_value x; rotate_right)
        | clear_value x)
    | with_reducible apply Keeps.ite
    | (with_reducible apply Keeps.foldlFrom; rotate_left; intro s a; rotate_right)
    | with_reducible apply Keeps.after (State.abortCopy_keeps ..)
    | with_reducible apply Keeps.after (State.cartEnd_keeps ..)
    | with_reducible apply Keeps.after (State.unwritten_keeps ..)
    | with_reducible apply Keeps.after (State.modPages_keeps ..)
    | with_reducible apply Keeps.after (State.readAborted_keeps ..)
    | with_reducible apply Keeps.after (State.cartFault_keeps ..)
    | with_reducible apply Keeps.after (State.modBay_keeps ..)

theorem execCartRemoval_keeps {bay : Nat} {s : State}  :
    KeepsO s (execCartRemoval bay s) := by
  unfold execCartRemoval
  repeat' first
    | with_reducible apply Keeps.refl
    | with_reducible apply KeepsO.next
    | with_reducible apply Keeps.after (State.cartRemoval_keeps ..)

theorem State.cartCommand_keeps {s : State} {op bay dest count : Nat} {rebind : Bool} {f : State → State} (h_f : ∀ t, Keeps t (f t)) :
    Keeps s (State.cartCommand s op bay dest count rebind f) := by
  unfold State.cartCommand
  repeat' first
    | with_reducible apply Keeps.refl
    | (intro n; with_reducible rfl)
    | with_reducible apply Keeps.ite
    | with_reducible apply Keeps.after (h_f ..)
    | with_reducible apply Keeps.after (State.modCarts_keeps (h := ?_) ..)

theorem State.eject_keeps {s : State} {b : Nat}  :
    Keeps s (State.eject s b) := by
  unfold State.eject
  repeat' first
    | with_reducible apply Keeps.refl
    | with_reducible assumption
    | ((try lift_lets -underBinder); intro x; (refine Keeps.cut (s := s) x ?_ (fun hx => ?_); dsimp -zeta only [x]; rotate_left; clear_value x; rotate_right))
    | with_reducible apply Keeps.ite
    | with_reducible apply Keeps.after (State.cartCommand_keeps (h_f := fun s => ?_) ..)
    | with_reducible apply Keeps.after (State.ejectTry_keeps ..)
    | with_reducible apply Keeps.after (State.abortCopy_keeps ..)
    | with_reducible apply Keeps.after (State.cartEnd_keeps ..)
    | with_reducible apply Keeps.after (State.writeBackAll_keeps ..)
    | with_reducible apply Keeps.after (State.modBay_keeps ..)

theorem execEject_keeps {bay : Nat} {s : State}  :
    KeepsO s (execEject bay s) := by
  unfold execEject
  repeat' first
    | with_reducible apply Keeps.refl
    | with_reducible apply KeepsO.next
    | with_reducible apply Keeps.after (State.eject_keeps ..)

theorem State.ejectAbort_keeps {s : State} {b : Nat}  :
    Keeps s (State.ejectAbort s b) := by
  unfold State.ejectAbort
  repeat' first
    | with_reducible apply Keeps.refl
    | with_reducible assumption
    | ((try lift_lets -underBinder); intro x; first
        | (refine Keeps.cut (s := s) x ?_ (fun hx => ?_); dsimp -zeta only [x]; rotate_left; clear_value x; rotate_right)
        | clear_value x)
    | with_reducible apply Keeps.ite
    | (with_reducible apply Keeps.foldlFrom; rotate_left; intro s a; rotate_right)
    | with_reducible apply Keeps.after (State.ejectTry_keeps ..)
    | with_reducible apply Keeps.after (State.unwritten_keeps ..)
    | with_reducible apply Keeps.after (State.readAborted_keeps ..)
    | with_reducible apply Keeps.after (State.modBay_keeps ..)

theorem execEjectAbortTimeout_keeps {bay : Nat} {s : State}  :
    KeepsO s (execEjectAbortTimeout bay s) := by
  unfold execEjectAbortTimeout
  repeat' first
    | with_reducible apply Keeps.refl
    | with_reducible apply KeepsO.next
    | with_reducible apply Keeps.after (State.ejectAbort_keeps ..)

theorem State.fill_keeps {s : State} {b count : Nat}  :
    Keeps s (State.fill s b count) := by
  unfold State.fill
  repeat' first
    | with_reducible apply Keeps.refl
    | with_reducible apply Keeps.ite
    | with_reducible apply Keeps.after (State.cartCommand_keeps (h_f := fun s => ?_) ..)
    | with_reducible apply Keeps.after (State.fillNext_keeps ..)
    | with_reducible apply Keeps.after (State.cartEnd_keeps ..)

theorem execFill_keeps {bay count : Nat} {s : State}  :
    KeepsO s (execFill bay count s) := by
  unfold execFill
  repeat' first
    | with_reducible apply Keeps.refl
    | with_reducible apply KeepsO.next
    | with_reducible apply Keeps.after (State.fill_keeps ..)

theorem State.migrate_keeps {s : State} {b dest count : Nat} {rebind : Bool}  :
    Keeps s (State.migrate s b dest count rebind) := by
  unfold State.migrate
  repeat' first
    | with_reducible apply Keeps.refl
    | with_reducible apply Keeps.ite
    | with_reducible apply Keeps.after (State.cartCommand_keeps (h_f := fun s => ?_) ..)
    | with_reducible apply Keeps.after (State.migrateNext_keeps ..)
    | with_reducible apply Keeps.after (State.cartEnd_keeps ..)

theorem execMigrate_keeps {bay dest count : Nat} {rebind : Bool} {s : State}  :
    KeepsO s (execMigrate bay dest count rebind s) := by
  unfold execMigrate
  repeat' first
    | with_reducible apply Keeps.refl
    | with_reducible apply KeepsO.next
    | with_reducible apply Keeps.after (State.migrate_keeps ..)

theorem execAdopt_keeps {bay : Nat} {s : State}  :
    KeepsO s (execAdopt bay s) := by
  unfold execAdopt
  repeat' first
    | with_reducible apply Keeps.refl
    | with_reducible assumption
    | ((try lift_lets -underBinder); intro x; (refine Keeps.cut (s := s) x ?_ (fun hx => ?_); dsimp -zeta only [x]; rotate_left; clear_value x; rotate_right))
    | with_reducible apply KeepsO.next
    | with_reducible apply Keeps.ite
    | with_reducible apply Keeps.after (State.cartCommand_keeps (h_f := fun s => ?_) ..)
    | with_reducible apply Keeps.after (State.rebindSerial_keeps ..)
    | with_reducible apply Keeps.after (State.cartEnd_keeps ..)
    | with_reducible apply Keeps.after (State.writeBackAll_keeps ..)

theorem State.dropPages_keeps {s : State} {p : Landing → Bool}  :
    Keeps s (State.dropPages s p) := by
  unfold State.dropPages
  repeat' first
    | with_reducible apply Keeps.refl
    | with_reducible assumption
    | ((try lift_lets -underBinder); intro x; first
        | (refine Keeps.cut (s := s) x ?_ (fun hx => ?_); dsimp -zeta only [x]; rotate_left; clear_value x; rotate_right)
        | clear_value x)
    | (with_reducible apply Keeps.foldlFrom; rotate_left; intro s a; rotate_right)
    | with_reducible apply Keeps.after (State.modBay_keeps ..)
    | with_reducible refine Keeps.mk ?_

theorem execDiscardDirty_keeps {s : State}  :
    KeepsO s (execDiscardDirty s) := by
  unfold execDiscardDirty
  repeat' first
    | with_reducible apply Keeps.refl
    | with_reducible apply KeepsO.next
    | with_reducible apply Keeps.after (State.dropPages_keeps ..)
    | with_reducible apply Keeps.after (State.cartCommand_keeps (h_f := fun s => ?_) ..)
    | with_reducible apply Keeps.after (State.cartEnd_keeps ..)

theorem execCartCmdNop_keeps {op : Nat} {s : State}  :
    KeepsO s (execCartCmdNop op s) := by
  unfold execCartCmdNop
  repeat' first
    | with_reducible apply Keeps.refl
    | with_reducible apply KeepsO.next
    | with_reducible apply Keeps.after (State.cartCommand_keeps (h_f := fun s => ?_) ..)
    | with_reducible apply Keeps.after (State.cartEnd_keeps ..)

end Sys2Proof.Machine
end

