-- ==== Sys2Proof/Laws/KeepsCompression.lean ====
section
/-! SUPPORT. What every operation of Machine/Compression.lean keeps. -/
set_option linter.all false
set_option Elab.async false
namespace Sys2Proof.Machine

theorem State.readRecord_keeps {s : State} {a : Agent} {x : CmpCtx} {g : Nat}  :
    Keeps s (State.readRecord s a x g).2 := by
  unfold State.readRecord
  repeat' first
    | with_reducible apply Keeps.refl
    | split
    | with_reducible apply Keeps.after (State.modCmp_keeps ..)
    | with_reducible apply Keeps.after (State.vread_keeps ..)
    | (with_reducible apply Keeps.of_pair; with_reducible assumption)

theorem State.install_keeps {s : State} {p c g : Nat} {ls : List Nat} {stored : Nat}  :
    Keeps s (State.install s p c g ls stored) := by
  unfold State.install
  repeat' first
    | with_reducible apply Keeps.refl
    | with_reducible assumption
    | ((try lift_lets -underBinder); intro x; first
        | (refine Keeps.cut (s := s) x ?_ (fun hx => ?_); dsimp -zeta only [x]; rotate_left; clear_value x; rotate_right)
        | clear_value x)
    | split
    | with_reducible apply Keeps.after (State.modCmp_keeps ..)
    | with_reducible apply Keeps.after (State.vwrite_keeps ..)

theorem State.wantInstall_keeps {s : State} {p c : Nat} {ls : List Nat} {who : Option (Nat × Nat × Nat)}  :
    Keeps s (State.wantInstall s p c ls who).2 := by
  unfold State.wantInstall
  repeat' first
    | with_reducible apply Keeps.refl
    | split
    | with_reducible apply Keeps.after (State.install_keeps ..)
    | with_reducible apply Keeps.after (State.modCmp_keeps ..)

theorem State.codeTable_keeps {s : State} {a : Agent} {x : CmpCtx} {g : Nat}  :
    Keeps s (State.codeTable s a x g).2 := by
  unfold State.codeTable
  repeat' first
    | with_reducible apply Keeps.refl
    | with_reducible apply Keeps.ite2
    | split
    | with_reducible apply Keeps.after (State.readRecord_keeps ..)
    | (with_reducible apply Keeps.of_pair; with_reducible assumption)

theorem State.decodeBlock_keeps {s : State} {a : Agent} {x : CmpCtx} {len i : Nat} {rd : State → Nat → Nat → Data × State} (h_rd : ∀ t y0 y1, Keeps t (rd t y0 y1).2) :
    Keeps s (State.decodeBlock s a x len i rd).2 := by
  unfold State.decodeBlock
  repeat' first
    | with_reducible apply Keeps.refl
    | ((try lift_lets -underBinder); intro x; clear_value x)
    | with_reducible apply Keeps.ite2
    | split
    | with_reducible apply Keeps.after (h_rd ..)
    | with_reducible apply Keeps.after (State.readRecord_keeps ..)

theorem State.decodeFault_keeps {s : State} {pos p c sub src : Nat}  :
    Keeps s (State.decodeFault s pos p c sub src) := by
  unfold State.decodeFault
  repeat' first
    | with_reducible apply Keeps.refl
    | ((try lift_lets -underBinder); intro x; clear_value x)
    | with_reducible apply Keeps.ite
    | with_reducible apply Keeps.after (State.report_keeps ..)
    | with_reducible apply Keeps.after (State.modCmp_keeps ..)

theorem State.cmpCommand_keeps {s : State} {p c : Nat} {f : CmpCtx → State → State} (h_f : ∀ x0 t, Keeps t (f x0 t)) :
    Keeps s (State.cmpCommand s p c f) := by
  unfold State.cmpCommand
  repeat' first
    | with_reducible apply Keeps.refl
    | ((try lift_lets -underBinder); intro x; clear_value x)
    | with_reducible apply Keeps.ite
    | split
    | with_reducible apply Keeps.after (h_f ..)
    | with_reducible apply Keeps.after (State.modCmp_keeps ..)
    | with_reducible refine Keeps.mk ?_

theorem State.cmpResult_keeps {s : State} {p c r : Nat}  :
    Keeps s (State.cmpResult s p c r) := by
  unfold State.cmpResult
  repeat' first
    | with_reducible apply Keeps.refl
    | with_reducible apply Keeps.after (State.modCmp_keeps ..)

theorem State.cmpGate_keeps {s : State} {p c op gen count : Nat} {f : State → State} (h_f : ∀ t, Keeps t (f t)) :
    Keeps s (State.cmpGate s p c op gen count f) := by
  unfold State.cmpGate
  repeat' first
    | with_reducible apply Keeps.refl
    | ((try lift_lets -underBinder); intro x; clear_value x)
    | with_reducible apply Keeps.ite
    | split
    | with_reducible apply Keeps.after (h_f ..)
    | with_reducible apply Keeps.after (State.modCmp_keeps ..)

theorem State.cmpBuild_keeps {s : State} {p c count : Nat}  :
    Keeps s (State.cmpBuild s p c count) := by
  unfold State.cmpBuild
  repeat' first
    | with_reducible apply Keeps.refl
    | ((try lift_lets -underBinder); intro x; clear_value x)
    | with_reducible apply Keeps.ite
    | split
    | with_reducible apply Keeps.after (State.cmpResult_keeps ..)
    | with_reducible apply Keeps.after (State.cmpCommand_keeps (h_f := fun x0 s => ?_) ..)
    | with_reducible apply Keeps.after (State.modCmp_keeps ..)
    | with_reducible apply Keeps.after (State.vread_keeps ..)
    | (with_reducible apply Keeps.of_pair; with_reducible assumption)

theorem execBuild_keeps {p c count : Nat} {s : State}  :
    KeepsO s (execBuild p c count s) := by
  unfold execBuild
  repeat' first
    | with_reducible apply Keeps.refl
    | with_reducible apply KeepsO.next
    | with_reducible apply Keeps.after (State.cmpBuild_keeps ..)
    | with_reducible apply Keeps.after (State.cmpGate_keeps (h_f := fun s => ?_) ..)

theorem State.histogramDone_keeps {s : State} {p c : Nat}  :
    Keeps s (State.histogramDone s p c) := by
  unfold State.histogramDone
  repeat' first
    | with_reducible apply Keeps.refl
    | with_reducible assumption
    | ((try lift_lets -underBinder); intro x; (refine Keeps.cut (s := s) x ?_ (fun hx => ?_); dsimp -zeta only [x]; rotate_left; clear_value x; rotate_right))
    | split
    | with_reducible apply Keeps.after (State.wantInstall_keeps ..)
    | with_reducible apply Keeps.after (State.modCmp_keeps ..)

theorem execHistogramDone_keeps {p c : Nat} {s : State}  :
    KeepsO s (execHistogramDone p c s) := by
  unfold execHistogramDone
  repeat' first
    | with_reducible apply Keeps.refl
    | with_reducible apply KeepsO.next
    | with_reducible apply Keeps.after (State.histogramDone_keeps ..)

theorem State.cmpLoad_keeps {s : State} {p c g count : Nat}  :
    Keeps s (State.cmpLoad s p c g count) := by
  unfold State.cmpLoad
  repeat' first
    | with_reducible apply Keeps.refl
    | with_reducible assumption
    | ((try lift_lets -underBinder); intro x; first
        | (refine Keeps.cut (s := s) x ?_ (fun hx => ?_); dsimp -zeta only [x]; rotate_left; clear_value x; rotate_right)
        | clear_value x)
    | with_reducible apply Keeps.ite
    | with_reducible apply Keeps.after (State.cmpResult_keeps ..)
    | with_reducible apply Keeps.after (State.cmpCommand_keeps (h_f := fun x0 s => ?_) ..)
    | with_reducible apply Keeps.after (State.modCmp_keeps ..)
    | with_reducible apply Keeps.after (State.vwrite_keeps ..)
    | with_reducible apply Keeps.after (State.vread_keeps ..)

theorem execLoad_keeps {p c gen count : Nat} {s : State}  :
    KeepsO s (execLoad p c gen count s) := by
  unfold execLoad
  repeat' first
    | with_reducible apply Keeps.refl
    | with_reducible apply KeepsO.next
    | with_reducible apply Keeps.after (State.cmpLoad_keeps ..)
    | with_reducible apply Keeps.after (State.cmpGate_keeps (h_f := fun s => ?_) ..)

theorem State.cmpRelease_keeps {s : State} {p c g count : Nat}  :
    Keeps s (State.cmpRelease s p c g count) := by
  unfold State.cmpRelease
  repeat' first
    | with_reducible apply Keeps.refl
    | ((try lift_lets -underBinder); intro x; clear_value x)
    | with_reducible apply Keeps.after (State.cmpCommand_keeps (h_f := fun x0 s => ?_) ..)
    | with_reducible apply Keeps.after (State.modCmp_keeps ..)

theorem execCmpRelease_keeps {p c gen count : Nat} {s : State}  :
    KeepsO s (execCmpRelease p c gen count s) := by
  unfold execCmpRelease
  repeat' first
    | with_reducible apply Keeps.refl
    | with_reducible apply KeepsO.next
    | with_reducible apply Keeps.after (State.cmpRelease_keeps ..)
    | with_reducible apply Keeps.after (State.cmpGate_keeps (h_f := fun s => ?_) ..)

theorem execCmpCmdNop_keeps {p c op : Nat} {s : State}  :
    KeepsO s (execCmpCmdNop p c op s) := by
  unfold execCmpCmdNop
  repeat' first
    | with_reducible apply Keeps.refl
    | with_reducible apply KeepsO.next
    | with_reducible apply Keeps.ite
    | with_reducible apply Keeps.after (State.modCmp_keeps ..)

theorem State.applyChange_keeps {s : State} {p c : Nat}  :
    Keeps s (State.applyChange s p c) := by
  unfold State.applyChange
  repeat' first
    | with_reducible apply Keeps.refl
    | ((try lift_lets -underBinder); intro x; clear_value x)
    | with_reducible apply Keeps.after (State.modCmp_keeps ..)

theorem execQueuedCountChange_keeps {p c : Nat} {s : State}  :
    KeepsO s (execQueuedCountChange p c s) := by
  unfold execQueuedCountChange
  repeat' first
    | with_reducible apply Keeps.refl
    | with_reducible apply KeepsO.next
    | with_reducible apply Keeps.after (State.applyChange_keeps ..)

theorem execGenerationFree_keeps {p c gen : Nat} {s : State}  :
    KeepsO s (execGenerationFree p c gen s) := by
  unfold execGenerationFree
  repeat' first
    | with_reducible apply Keeps.refl
    | ((try lift_lets -underBinder); intro x; clear_value x)
    | with_reducible apply KeepsO.next
    | with_reducible apply Keeps.after (State.modCmp_keeps ..)

theorem execInstallDone_keeps {p c : Nat} {s : State}  :
    KeepsO s (execInstallDone p c s) := by
  unfold execInstallDone
  repeat' first
    | with_reducible apply Keeps.refl
    | with_reducible apply KeepsO.next
    | with_reducible apply Keeps.after (State.modCmp_keeps ..)

theorem State.releaseCmp_keeps {s : State} {p : Nat}  :
    Keeps s (State.releaseCmp s p) := by
  unfold State.releaseCmp
  repeat' first
    | with_reducible apply Keeps.refl
    | with_reducible assumption
    | ((try lift_lets -underBinder); intro x; first
        | (refine Keeps.cut (s := s) x ?_ (fun hx => ?_); dsimp -zeta only [x]; rotate_left; clear_value x; rotate_right)
        | clear_value x)
    | split
    | (with_reducible apply Keeps.foldlFrom; rotate_left; intro s a; rotate_right)
    | with_reducible apply Keeps.after (State.cmpRelease_keeps ..)
    | with_reducible apply Keeps.after (State.cmpLoad_keeps ..)
    | with_reducible apply Keeps.after (State.cmpBuild_keeps ..)
    | with_reducible apply Keeps.after (State.modCmp_keeps ..)
    | with_reducible apply Keeps.after (State.setReg_keeps ..)

end Sys2Proof.Machine
end

