-- ==== Sys2Proof/Laws/KeepsStreams.lean ====
section
/-! SUPPORT. What every operation of Machine/Streams.lean keeps. -/
set_option linter.all false
set_option Elab.async false
namespace Sys2Proof.Machine

theorem State.under_keeps {s : State} {rs : List Range} {f : State → State} (h_f : ∀ t, Keeps t (f t)) :
    Keeps s (State.under s rs f) := by
  unfold State.under
  repeat' first
    | with_reducible apply Keeps.refl
    | with_reducible assumption
    | ((try lift_lets -underBinder); intro x; (refine Keeps.cut (s := s) x ?_ (fun hx => ?_); dsimp -zeta only [x]; rotate_left; clear_value x; rotate_right))
    | with_reducible apply Keeps.after (h_f ..)
    | with_reducible refine Keeps.mk ?_

theorem State.readUnit_keeps {s : State} {i p sp : Nat} {b : Block} {k : Nat}  :
    Keeps s (State.readUnit s i p sp b k).2 := by
  unfold State.readUnit
  repeat' first
    | with_reducible apply Keeps.refl
    | ((try lift_lets -underBinder); intro x; first
        | (refine Keeps.cutFP2 x (fun s a b => ?_) (fun hg => ?_); dsimp -zeta only [x]; rotate_left; clear_value x; rotate_right)
        | clear_value x)
    | with_reducible apply Keeps.ite2
    | split
    | with_reducible apply Keeps.after (State.decodeBlock_keeps (h_rd := fun s y0 y1 => ?_) ..)
    | with_reducible apply Keeps.after (State.wordRead_keeps ..)
    | (with_reducible apply Keeps.of_pair; with_reducible assumption)
    | (with_reducible apply Keeps.after; with_reducible apply_assumption -exfalso -symm)

theorem State.codeUnit_keeps {s : State} {i p : Nat} {b : Block} {gen : Nat} {d : Data}  :
    Keeps s (State.codeUnit s i p b gen d).2 := by
  unfold State.codeUnit
  repeat' first
    | with_reducible apply Keeps.refl
    | ((try lift_lets -underBinder); intro x; clear_value x)
    | split
    | with_reducible apply Keeps.after (State.codeTable_keeps ..)
    | (with_reducible apply Keeps.of_pair; with_reducible assumption)

theorem State.startUnit_keeps {s : State} {i n p : Nat} {b : Block}  :
    Keeps s (State.startUnit s i n p b) := by
  unfold State.startUnit
  repeat' first
    | with_reducible apply Keeps.refl
    | with_reducible assumption
    | ((try lift_lets -underBinder); intro x; first
        | (refine Keeps.cut (s := s) x ?_ (fun hx => ?_); dsimp -zeta only [x]; rotate_left; clear_value x; rotate_right)
        | clear_value x)
    | with_reducible apply Keeps.ite
    | split
    | with_reducible apply Keeps.after (State.codeUnit_keeps ..)
    | with_reducible apply Keeps.after (State.readUnit_keeps ..)
    | with_reducible apply Keeps.after (State.under_keeps (h_f := fun s => ?_) ..)
    | with_reducible apply Keeps.after (State.modSlot_keeps ..)
    | with_reducible apply Keeps.after (State.countChange_keeps ..)
    | (with_reducible apply Keeps.of_pair; with_reducible assumption)
    | (with_reducible apply Keeps.of_pair4; with_reducible assumption)

theorem State.pump_keeps (i n p no f : Nat) : ∀ s, Keeps s (State.pump i n p no f s) := by
  induction f with
  | zero => intro s; exact .refl _
  | succ f ih => ?_
  intro s
  unfold State.pump
  repeat' first
    | with_reducible apply Keeps.refl
    | with_reducible assumption
    | ((with_reducible refine Cell.Keeps.of ?_ ?_) <;> (simp; done))
    | ((try lift_lets -underBinder); intro x; first
        | (refine Keeps.cut (s := s) x ?_ (fun hx => ?_); dsimp -zeta only [x]; rotate_left; clear_value x; rotate_right)
        | clear_value x)
    | with_reducible apply Keeps.ite
    | split
    | with_reducible apply Keeps.after (ih ..)
    | with_reducible apply Keeps.after (State.startUnit_keeps ..)
    | with_reducible apply Keeps.after (State.modSlot_keeps ..)
    | with_reducible apply Keeps.after (State.modCell_keeps (h := ?_) ..)
    | intro c

theorem State.blockPieces_keeps {s : State} {i n p : Nat} {b : Block}  :
    Keeps s (State.blockPieces s i n p b).2 := by
  unfold State.blockPieces
  repeat' first
    | with_reducible apply Keeps.refl
    | with_reducible assumption
    | ((try lift_lets -underBinder); intro x; first
        | (refine Keeps.cut (s := s) x ?_ (fun hx => ?_); dsimp -zeta only [x]; rotate_left; clear_value x; rotate_right)
        | clear_value x)
    | with_reducible apply Keeps.ite
    | split
    | (with_reducible apply Keeps.foldlPair; rotate_left; rintro ⟨d, s⟩ a; rotate_right)
    | with_reducible apply Keeps.after (State.codeUnit_keeps ..)
    | with_reducible apply Keeps.after (State.readUnit_keeps ..)
    | with_reducible apply Keeps.after (State.decodeFault_keeps ..)
    | with_reducible apply Keeps.after (State.modCmp_keeps ..)
    | with_reducible apply Keeps.after (State.drawBytes_keeps ..)
    | (with_reducible apply Keeps.of_pair; with_reducible assumption)

theorem State.takePieces_keeps {s : State} {i n p : Nat} {b : Block}  :
    Keeps s (State.takePieces s i n p b).2 := by
  unfold State.takePieces
  repeat' first
    | with_reducible apply Keeps.refl
    | split
    | with_reducible apply Keeps.after (State.blockPieces_keeps ..)
    | (with_reducible apply Keeps.of_pair; with_reducible assumption)
    | dsimp -zeta only
    | with_reducible refine Keeps.mk ?_

theorem State.settle_keeps {s : State} {p : Nat} {b : Block} {coded : List Nat} {m : Nat}  :
    Keeps s (State.settle s p b coded m) := by
  unfold State.settle
  repeat' first
    | with_reducible apply Keeps.refl
    | (with_reducible apply Keeps.foldlFrom; rotate_left; intro s a; rotate_right)
    | with_reducible apply Keeps.after (State.countChange_keeps ..)

theorem State.countBlock_keeps {s : State} {i n kind bytes at_ : Nat} {ps : List (Nat × Data)}  :
    Keeps s (State.countBlock s i n kind bytes at_ ps) := by
  unfold State.countBlock
  repeat' first
    | with_reducible apply Keeps.refl
    | with_reducible apply Keeps.after (State.countPort_keeps ..)
    | with_reducible apply Keeps.after (State.countSlot_keeps ..)

theorem State.writePieces_keeps {s : State} {i p dst : Nat} {ps : List (Nat × Data)}  :
    Keeps s (State.writePieces s i p dst ps) := by
  unfold State.writePieces
  repeat' first
    | with_reducible apply Keeps.refl
    | ((with_reducible refine Cell.Keeps.of ?_ ?_) <;> (simp; done))
    | ((try lift_lets -underBinder); intro x; clear_value x)
    | (with_reducible apply Keeps.foldlFrom; rotate_left; intro s a; rotate_right)
    | with_reducible apply Keeps.after (State.wordWrite_keeps ..)
    | with_reducible apply Keeps.after (State.modCell_keeps (h := ?_) ..)
    | intro c

theorem State.sendTo_keeps {s : State} {i n k : Nat} {r : Receiver} {b : Block} {ps : List (Nat × Data)}  :
    Keeps s (State.sendTo s i n k r b ps) := by
  unfold State.sendTo
  repeat' first
    | with_reducible apply Keeps.refl
    | with_reducible assumption
    | ((try lift_lets -underBinder); intro x; first
        | (refine Keeps.cut (s := s) x ?_ (fun hx => ?_); dsimp -zeta only [x]; rotate_left; clear_value x; rotate_right)
        | clear_value x)
    | with_reducible apply Keeps.ite
    | (with_reducible apply Keeps.foldlFrom; rotate_left; intro s a; rotate_right)
    | with_reducible apply Keeps.after (State.modSlot_keeps ..)
    | with_reducible apply Keeps.after (State.sendToken_keeps ..)
    | with_reducible apply Keeps.after (State.windowWrite_keeps ..)

theorem State.dropReceiver_keeps {s : State} {i n k : Nat}  :
    Keeps s (State.dropReceiver s i n k) := by
  unfold State.dropReceiver
  repeat' first
    | with_reducible apply Keeps.refl
    | with_reducible assumption
    | ((try lift_lets -underBinder); intro x; first
        | (refine Keeps.cut (s := s) x ?_ (fun hx => ?_); dsimp -zeta only [x]; rotate_left; clear_value x; rotate_right)
        | clear_value x)
    | split
    | with_reducible apply Keeps.after (State.countSlot_keeps ..)
    | with_reducible apply Keeps.after (State.modSlot_keeps ..)

theorem State.groupCheck_keeps {s : State} {i n : Nat}  :
    Keeps s (State.groupCheck s i n) := by
  unfold State.groupCheck
  repeat' first
    | with_reducible apply Keeps.refl
    | with_reducible assumption
    | ((try lift_lets -underBinder); intro x; first
        | (refine Keeps.cut (s := s) x ?_ (fun hx => ?_); dsimp -zeta only [x]; rotate_left; clear_value x; rotate_right)
        | clear_value x)
    | with_reducible apply Keeps.ite
    | split
    | (with_reducible apply Keeps.foldlFrom; rotate_left; intro s a; rotate_right)
    | with_reducible apply Keeps.after (State.dropReceiver_keeps ..)
    | with_reducible apply Keeps.after (State.modSlot_keeps ..)

theorem State.sendOwed_keeps (i n k p f : Nat) : ∀ s, Keeps s (State.sendOwed i n k p f s) := by
  induction f with
  | zero => intro s; exact .refl _
  | succ f ih => ?_
  intro s
  unfold State.sendOwed
  repeat' first
    | with_reducible apply Keeps.refl
    | with_reducible assumption
    | ((try lift_lets -underBinder); intro x; first
        | (refine Keeps.cut (s := s) x ?_ (fun hx => ?_); dsimp -zeta only [x]; rotate_left; clear_value x; rotate_right)
        | clear_value x)
    | with_reducible apply Keeps.ite
    | split
    | (with_reducible apply Keeps.foldlFrom; rotate_left; intro s a; rotate_right)
    | with_reducible apply Keeps.after (ih ..)
    | with_reducible apply Keeps.after (State.sendTo_keeps ..)
    | with_reducible apply Keeps.after (State.countBlock_keeps ..)
    | with_reducible apply Keeps.after (State.settle_keeps ..)
    | with_reducible apply Keeps.after (State.takePieces_keeps ..)
    | with_reducible apply Keeps.after (State.spendPort_keeps ..)
    | with_reducible apply Keeps.after (State.countSlot_keeps ..)
    | with_reducible apply Keeps.after (State.modSlot_keeps ..)
    | with_reducible apply Keeps.after (State.countChange_keeps ..)
    | (with_reducible apply Keeps.of_pair; with_reducible assumption)

theorem State.streamTry_keeps {s : State} {i n : Nat}  :
    Keeps s (State.streamTry s i n) := by
  unfold State.streamTry
  repeat' first
    | with_reducible apply Keeps.refl
    | with_reducible assumption
    | ((try lift_lets -underBinder); intro x; first
        | (refine Keeps.cut (s := s) x ?_ (fun hx => ?_); dsimp -zeta only [x]; rotate_left; clear_value x; rotate_right)
        | (refine Keeps.cutF2 x (fun s a => ?_) (fun hg => ?_); dsimp -zeta only [x]; rotate_left; clear_value x; rotate_right)
        | clear_value x)
    | with_reducible apply Keeps.ite
    | split
    | (with_reducible apply Keeps.foldlFrom; rotate_left; intro s a; rotate_right)
    | with_reducible apply Keeps.after (State.wake_keeps ..)
    | with_reducible apply Keeps.after (State.closeSlotOp_keeps ..)
    | with_reducible apply Keeps.after (State.modSlot_keeps ..)
    | with_reducible apply Keeps.after (State.complete_keeps ..)
    | (with_reducible apply Keeps.after; with_reducible apply_assumption -exfalso -symm)

theorem State.streamPost_keeps (i n f : Nat) : ∀ s, Keeps s (State.streamPost i n f s) := by
  induction f with
  | zero => intro s; exact .refl _
  | succ f ih => ?_
  intro s
  unfold State.streamPost
  repeat' first
    | with_reducible apply Keeps.refl
    | with_reducible assumption
    | ((try lift_lets -underBinder); intro x; first
        | (refine Keeps.cut (s := s) x ?_ (fun hx => ?_); dsimp -zeta only [x]; rotate_left; clear_value x; rotate_right)
        | clear_value x)
    | with_reducible apply Keeps.ite
    | split
    | with_reducible apply Keeps.after (ih ..)
    | with_reducible apply Keeps.after (State.countSlot_keeps ..)
    | with_reducible apply Keeps.after (State.modSlot_keeps ..)
    | with_reducible apply Keeps.after (State.sendToken_keeps ..)

theorem State.blockGo_keeps {s : State} {i n p gen : Nat}  :
    Keeps s (State.blockGo s i n p gen) := by
  unfold State.blockGo
  repeat' first
    | with_reducible apply Keeps.refl
    | with_reducible assumption
    | ((try lift_lets -underBinder); intro x; first
        | (refine Keeps.cut (s := s) x ?_ (fun hx => ?_); dsimp -zeta only [x]; rotate_left; clear_value x; rotate_right)
        | clear_value x)
    | split
    | with_reducible apply Keeps.after (State.pump_keeps ..)
    | with_reducible apply Keeps.after (State.modSlot_keeps ..)

theorem State.blockStart_keeps {s : State} {i n p : Nat}  :
    Keeps s (State.blockStart s i n p) := by
  unfold State.blockStart
  repeat' first
    | with_reducible apply Keeps.refl
    | with_reducible assumption
    | ((with_reducible refine Cell.Keeps.of ?_ ?_) <;> (simp; done))
    | ((try lift_lets -underBinder); intro x; first
        | (refine Keeps.cut (s := s) x ?_ (fun hx => ?_); dsimp -zeta only [x]; rotate_left; clear_value x; rotate_right)
        | (refine Keeps.cutF x (fun s => ?_) (fun hf => ?_); dsimp -zeta only [x]; rotate_left; clear_value x; rotate_right)
        | clear_value x)
    | with_reducible apply Keeps.ite
    | split
    | with_reducible apply Keeps.after (State.blockGo_keeps ..)
    | with_reducible apply Keeps.after (State.wantInstall_keeps ..)
    | with_reducible apply Keeps.after (State.portBytes_keeps ..)
    | with_reducible apply Keeps.after (State.countSlot_keeps ..)
    | with_reducible apply Keeps.after (State.modSlot_keeps ..)
    | with_reducible apply Keeps.after (State.wordRead_keeps ..)
    | with_reducible apply Keeps.after (State.modCell_keeps (h := ?_) ..)
    | intro c
    | (with_reducible apply Keeps.after; with_reducible apply_assumption -exfalso -symm)

theorem State.takeEntry_keeps {s : State} {i n : Nat}  :
    Keeps s (State.takeEntry s i n) := by
  unfold State.takeEntry
  repeat' first
    | with_reducible apply Keeps.refl
    | with_reducible assumption
    | ((try lift_lets -underBinder); intro x; first
        | (refine Keeps.cut (s := s) x ?_ (fun hx => ?_); dsimp -zeta only [x]; rotate_left; clear_value x; rotate_right)
        | (refine Keeps.cutF2 x (fun s a => ?_) (fun hg => ?_); dsimp -zeta only [x]; rotate_left; clear_value x; rotate_right)
        | clear_value x
        | (have hP : Prop := x; clear hP))
    | with_reducible apply Keeps.ite
    | split
    | with_reducible apply Keeps.after (State.blockStart_keeps ..)
    | with_reducible apply Keeps.after (State.streamTry_keeps ..)
    | with_reducible apply Keeps.after (State.modSlot_keeps ..)
    | with_reducible apply Keeps.after (State.wordRead_keeps ..)
    | with_reducible apply Keeps.after (State.countXltFault_keeps ..)
    | (with_reducible apply Keeps.after; with_reducible apply_assumption -exfalso -symm)

theorem execEntryFetched_keeps {g slot : Nat} {s : State}  :
    KeepsO s (execEntryFetched g slot s) := by
  unfold execEntryFetched
  repeat' first
    | with_reducible apply Keeps.refl
    | with_reducible apply KeepsO.next
    | split
    | with_reducible apply Keeps.after (State.takeEntry_keeps ..)

theorem State.landBlock_keeps {s : State} {i n no : Nat}  :
    Keeps s (State.landBlock s i n no) := by
  unfold State.landBlock
  repeat' first
    | with_reducible apply Keeps.refl
    | with_reducible assumption
    | ((try lift_lets -underBinder); intro x; first
        | (refine Keeps.cut (s := s) x ?_ (fun hx => ?_); dsimp -zeta only [x]; rotate_left; clear_value x; rotate_right)
        | (refine Keeps.cutF x (fun s => ?_) (fun hf => ?_); dsimp -zeta only [x]; rotate_left; clear_value x; rotate_right)
        | clear_value x)
    | with_reducible apply Keeps.ite
    | split
    | (with_reducible apply Keeps.foldlFrom; rotate_left; intro s a; rotate_right)
    | with_reducible apply Keeps.after (State.streamPost_keeps ..)
    | with_reducible apply Keeps.after (State.streamTry_keeps ..)
    | with_reducible apply Keeps.after (State.groupCheck_keeps ..)
    | with_reducible apply Keeps.after (State.sendTo_keeps ..)
    | with_reducible apply Keeps.after (State.writePieces_keeps ..)
    | with_reducible apply Keeps.after (State.countBlock_keeps ..)
    | with_reducible apply Keeps.after (State.settle_keeps ..)
    | with_reducible apply Keeps.after (State.takePieces_keeps ..)
    | with_reducible apply Keeps.after (State.blockPieces_keeps ..)
    | with_reducible apply Keeps.after (State.under_keeps (h_f := fun s => ?_) ..)
    | with_reducible apply Keeps.after (State.modSlot_keeps ..)
    | with_reducible apply Keeps.after (State.scratchWrite_keeps ..)
    | with_reducible apply Keeps.after (State.drainStack_keeps ..)
    | (with_reducible apply Keeps.of_pair; with_reducible assumption)
    | dsimp -zeta only
    | (with_reducible apply Keeps.after; with_reducible apply_assumption -exfalso -symm)

theorem execBlockLanded_keeps {g slot block : Nat} {s : State}  :
    KeepsO s (execBlockLanded g slot block s) := by
  unfold execBlockLanded
  repeat' first
    | with_reducible apply Keeps.refl
    | with_reducible apply KeepsO.next
    | split
    | with_reducible apply Keeps.after (State.landBlock_keeps ..)

theorem State.takeCredit_keeps {s t u : State} {r : CreditRef} (h : t.takeCredit r = some u) (k : Keeps s t) : Keeps s u := by
  unfold State.takeCredit at h
  split at h
  · cases h; exact k.trans (.of_core rfl)
  · cases h

theorem State.mcastCredit_keeps {s : State} {g n k : Nat}  :
    Keeps s (State.mcastCredit s g n k) := by
  unfold State.mcastCredit
  repeat' first
    | with_reducible apply Keeps.refl
    | with_reducible assumption
    | ((try lift_lets -underBinder); intro x; first
        | (refine Keeps.cut (s := s) x ?_ (fun hx => ?_); dsimp -zeta only [x]; rotate_left; clear_value x; rotate_right)
        | clear_value x)
    | with_reducible apply Keeps.ite
    | split
    | (with_reducible apply State.takeCredit_keeps; with_reducible assumption)
    | with_reducible apply Keeps.after (State.blockStart_keeps ..)
    | with_reducible apply Keeps.after (State.streamTry_keeps ..)
    | with_reducible apply Keeps.after (State.sendOwed_keeps ..)
    | with_reducible apply Keeps.after (State.groupCheck_keeps ..)
    | with_reducible apply Keeps.after (State.modSlot_keeps ..)

theorem execMcastCredit_keeps {g slot recv : Nat} {s : State}  :
    KeepsO s (execMcastCredit g slot recv s) := by
  unfold execMcastCredit
  repeat' first
    | with_reducible apply Keeps.refl
    | with_reducible apply KeepsO.next
    | with_reducible apply Keeps.after (State.mcastCredit_keeps ..)

theorem State.lagExpiry_keeps {s : State} {g n k : Nat}  :
    Keeps s (State.lagExpiry s g n k) := by
  unfold State.lagExpiry
  repeat' first
    | with_reducible apply Keeps.refl
    | ((try lift_lets -underBinder); intro x; clear_value x)
    | with_reducible apply Keeps.ite
    | split
    | with_reducible apply Keeps.after (State.streamTry_keeps ..)
    | with_reducible apply Keeps.after (State.dropReceiver_keeps ..)
    | with_reducible apply Keeps.after (State.chainDrop_keeps ..)

theorem execLagTimeExpiry_keeps {g slot recv : Nat} {s : State}  :
    KeepsO s (execLagTimeExpiry g slot recv s) := by
  unfold execLagTimeExpiry
  repeat' first
    | with_reducible apply Keeps.refl
    | with_reducible apply KeepsO.next
    | with_reducible apply Keeps.after (State.lagExpiry_keeps ..)

theorem State.skipMarker_keeps {s : State} {g n : Nat}  :
    Keeps s (State.skipMarker s g n) := by
  unfold State.skipMarker
  repeat' first
    | with_reducible apply Keeps.refl
    | with_reducible assumption
    | ((try lift_lets -underBinder); intro x; first
        | (refine Keeps.cut (s := s) x ?_ (fun hx => ?_); dsimp -zeta only [x]; rotate_left; clear_value x; rotate_right)
        | clear_value x)
    | with_reducible apply Keeps.ite
    | split
    | with_reducible apply Keeps.after (State.wake_keeps ..)
    | with_reducible apply Keeps.after (State.recordSkip_keeps ..)
    | with_reducible apply Keeps.after (State.chainTry_keeps ..)
    | with_reducible apply Keeps.after (State.modSlot_keeps ..)

theorem execSkipMarker_keeps {g slot : Nat} {s : State}  :
    KeepsO s (execSkipMarker g slot s) := by
  unfold execSkipMarker
  repeat' first
    | with_reducible apply Keeps.refl
    | with_reducible apply KeepsO.next
    | with_reducible apply Keeps.after (State.skipMarker_keeps ..)

theorem State.chunkArrival_keeps {s : State} {g n : Nat}  :
    Keeps s (State.chunkArrival s g n) := by
  unfold State.chunkArrival
  repeat' first
    | with_reducible apply Keeps.refl
    | with_reducible assumption
    | ((try lift_lets -underBinder); intro x; first
        | (refine Keeps.cut (s := s) x ?_ (fun hx => ?_); dsimp -zeta only [x]; rotate_left; clear_value x; rotate_right)
        | (refine Keeps.cutF x (fun s => ?_) (fun hf => ?_); dsimp -zeta only [x]; rotate_left; clear_value x; rotate_right)
        | (refine Keeps.cutGP4 x (fun a b d e s => ?_) (fun hg => ?_); dsimp -zeta only [x]; rotate_left; clear_value x; rotate_right)
        | clear_value x)
    | with_reducible apply Keeps.ite
    | split
    | with_reducible apply Keeps.after (State.wake_keeps ..)
    | with_reducible apply Keeps.after (State.chainChunk_keeps ..)
    | with_reducible apply Keeps.after (State.ringLand_keeps ..)
    | with_reducible apply Keeps.after (State.payload_keeps ..)
    | with_reducible apply Keeps.after (State.ringReturn_keeps ..)
    | with_reducible apply Keeps.after (State.modRun_keeps ..)
    | with_reducible apply Keeps.after (State.portBytes_keeps ..)
    | with_reducible apply Keeps.after (State.countSlot_keeps ..)
    | with_reducible apply Keeps.after (State.modSlot_keeps ..)
    | (with_reducible apply Keeps.of_pair; with_reducible assumption)
    | (with_reducible apply Keeps.after; with_reducible apply_assumption -exfalso -symm)

theorem execChunkArrival_keeps {g slot : Nat} {s : State}  :
    KeepsO s (execChunkArrival g slot s) := by
  unfold execChunkArrival
  repeat' first
    | with_reducible apply Keeps.refl
    | with_reducible apply KeepsO.next
    | with_reducible apply Keeps.after (State.chunkArrival_keeps ..)

theorem State.ringCredit_keeps {s : State} {g n k : Nat}  :
    Keeps s (State.ringCredit s g n k) := by
  unfold State.ringCredit
  repeat' first
    | with_reducible apply Keeps.refl
    | with_reducible assumption
    | ((try lift_lets -underBinder); intro x; first
        | (refine Keeps.cut (s := s) x ?_ (fun hx => ?_); dsimp -zeta only [x]; rotate_left; clear_value x; rotate_right)
        | clear_value x)
    | split
    | (with_reducible apply State.takeCredit_keeps; with_reducible assumption)
    | with_reducible apply Keeps.after (State.wake_keeps ..)
    | with_reducible apply Keeps.after (State.chainTry_keeps ..)
    | with_reducible apply Keeps.after (State.chainSend_keeps ..)
    | with_reducible apply Keeps.after (State.modRun_keeps ..)

theorem execRingCredit_keeps {g slot succ : Nat} {s : State}  :
    KeepsO s (execRingCredit g slot succ s) := by
  unfold execRingCredit
  repeat' first
    | with_reducible apply Keeps.refl
    | with_reducible apply KeepsO.next
    | with_reducible apply Keeps.after (State.ringCredit_keeps ..)

theorem execSstart_keeps {g : Nat} {w : StepWord} {s : State}  :
    KeepsO s (execSstart g w s) := by
  unfold execSstart
  repeat' first
    | with_reducible apply Keeps.refl
    | with_reducible apply KeepsO.next
    | with_reducible apply Keeps.after (State.orHold_keeps (h_r := ?_) ..)
    | with_reducible apply Keeps.after (State.sstartTry_keeps ..)
    | with_reducible apply Keeps.after (State.issue_keeps (h_f := fun x0 x1 s => ?_) ..)

theorem State.streamStop_keeps {s : State} {i : Nat} {w : StepWord}  :
    Keeps s (State.streamStop s i w) := by
  unfold State.streamStop
  repeat' first
    | with_reducible apply Keeps.refl
    | with_reducible assumption
    | ((try lift_lets -underBinder); intro x; first
        | (refine Keeps.cut (s := s) x ?_ (fun hx => ?_); dsimp -zeta only [x]; rotate_left; clear_value x; rotate_right)
        | clear_value x)
    | with_reducible apply Keeps.ite
    | split
    | with_reducible apply Keeps.after (State.streamTry_keeps ..)
    | with_reducible apply Keeps.after (State.modSlot_keeps ..)
    | with_reducible apply Keeps.after (State.openAsync_keeps ..)
    | with_reducible apply Keeps.after (State.complete_keeps ..)
    | with_reducible apply Keeps.after (State.newId_keeps ..)
    | (with_reducible apply Keeps.of_pair; with_reducible assumption)

theorem execSstop_keeps {g : Nat} {w : StepWord} {s : State}  :
    KeepsO s (execSstop g w s) := by
  unfold execSstop
  repeat' first
    | with_reducible apply Keeps.refl
    | with_reducible apply KeepsO.next
    | with_reducible apply Keeps.after (State.streamStop_keeps ..)
    | with_reducible apply Keeps.after (State.issue_keeps (h_f := fun x0 x1 s => ?_) ..)

theorem execChfwd_keeps {g : Nat} {w : StepWord} {s : State}  :
    KeepsO s (execChfwd g w s) := by
  unfold execChfwd
  repeat' first
    | with_reducible apply Keeps.refl
    | with_reducible apply KeepsO.next
    | with_reducible apply Keeps.after (State.orHold_keeps (h_r := ?_) ..)
    | with_reducible apply Keeps.after (State.chfwdTry_keeps ..)
    | with_reducible apply Keeps.after (State.issue_keeps (h_f := fun x0 x1 s => ?_) ..)

theorem State.resumeStreams_keeps {s : State} {i : Nat}  :
    Keeps s (State.resumeStreams s i) := by
  unfold State.resumeStreams
  repeat' first
    | with_reducible apply Keeps.refl
    | with_reducible assumption
    | ((try lift_lets -underBinder); intro x; first
        | (refine Keeps.cut (s := s) x ?_ (fun hx => ?_); dsimp -zeta only [x]; rotate_left; clear_value x; rotate_right)
        | clear_value x)
    | with_reducible apply Keeps.ite
    | (with_reducible apply Keeps.foldlFrom; rotate_left; intro s a; rotate_right)
    | with_reducible apply Keeps.after (State.blockStart_keeps ..)
    | with_reducible apply Keeps.after (State.chainTokens_keeps ..)

theorem execCreditReturn_keeps {g n : Nat} {s : State}  :
    KeepsO s (execCreditReturn g n s) := by
  unfold execCreditReturn
  repeat' first
    | with_reducible apply Keeps.refl
    | ((try lift_lets -underBinder); intro x; clear_value x)
    | with_reducible apply KeepsO.next
    | with_reducible apply Keeps.ite
    | split
    | with_reducible apply Keeps.after (State.resumeStreams_keeps ..)
    | with_reducible apply Keeps.after (State.creditArrive_keeps ..)
    | with_reducible refine Keeps.mk ?_

theorem State.installResume_keeps {s : State} {p c : Nat}  :
    Keeps s (State.installResume s p c) := by
  unfold State.installResume
  repeat' first
    | with_reducible apply Keeps.refl
    | with_reducible assumption
    | ((try lift_lets -underBinder); intro x; (refine Keeps.cut (s := s) x ?_ (fun hx => ?_); dsimp -zeta only [x]; rotate_left; clear_value x; rotate_right))
    | with_reducible apply Keeps.ite
    | split
    | with_reducible apply Keeps.after (State.blockGo_keeps ..)
    | with_reducible apply Keeps.after (State.install_keeps ..)
    | with_reducible apply Keeps.after (State.modCmp_keeps ..)

theorem execInstallWaitResume_keeps {p c : Nat} {s : State}  :
    KeepsO s (execInstallWaitResume p c s) := by
  unfold execInstallWaitResume
  repeat' first
    | with_reducible apply Keeps.refl
    | with_reducible apply KeepsO.next
    | with_reducible apply Keeps.after (State.installResume_keeps ..)

theorem State.refill_keeps {s : State} {i kind : Nat}  :
    Keeps s (State.refill s i kind) := by
  unfold State.refill
  repeat' first
    | with_reducible apply Keeps.refl
    | with_reducible assumption
    | ((with_reducible refine Cell.Keeps.of ?_ ?_) <;> (simp; done))
    | ((try lift_lets -underBinder); intro x; first
        | (refine Keeps.cut (s := s) x ?_ (fun hx => ?_); dsimp -zeta only [x]; rotate_left; clear_value x; rotate_right)
        | clear_value x)
    | with_reducible apply Keeps.ite
    | split
    | (with_reducible apply Keeps.foldlFrom; rotate_left; intro s a; rotate_right)
    | with_reducible apply Keeps.after (State.streamTry_keeps ..)
    | with_reducible apply Keeps.after (State.sendOwed_keeps ..)
    | with_reducible apply Keeps.after (State.groupCheck_keeps ..)
    | with_reducible apply Keeps.after (State.pump_keeps ..)
    | with_reducible apply Keeps.after (State.wake_keeps ..)
    | with_reducible apply Keeps.after (State.chainTry_keeps ..)
    | with_reducible apply Keeps.after (State.chainSend_keeps ..)
    | with_reducible apply Keeps.after (State.modCell_keeps (h := ?_) ..)
    | intro c

theorem execStreamBucketRefill_keeps {g kind : Nat} {s : State}  :
    KeepsO s (execStreamBucketRefill g kind s) := by
  unfold execStreamBucketRefill
  repeat' first
    | with_reducible apply Keeps.refl
    | with_reducible apply KeepsO.next
    | split
    | with_reducible apply Keeps.after (State.refill_keeps ..)

end Sys2Proof.Machine
end

