-- ==== Sys2Proof/Laws/KeepsCellEvents.lean ====
section
/-! SUPPORT. What every operation of Machine/CellEvents.lean keeps. -/
set_option linter.all false
set_option Elab.async false
namespace Sys2Proof.Machine

theorem State.tokenArrival_keeps {s : State} {g n : Nat}  :
    Keeps s (State.tokenArrival s g n) := by
  unfold State.tokenArrival
  repeat' first
    | with_reducible apply Keeps.refl
    | split
    | with_reducible apply Keeps.after (State.tokenArrive_keeps ..)
    | with_reducible refine Keeps.mk ?_

theorem execTokenArrival_keeps {g n : Nat} {s : State}  :
    KeepsO s (execTokenArrival g n s) := by
  unfold execTokenArrival
  repeat' first
    | with_reducible apply Keeps.refl
    | with_reducible apply KeepsO.next
    | with_reducible apply Keeps.after (State.tokenArrival_keeps ..)

theorem State.declareTimeout_keeps {s : State} {i : Nat} {w : StepWord}  :
    Keeps s (State.declareTimeout s i w) := by
  unfold State.declareTimeout
  repeat' first
    | with_reducible apply Keeps.refl
    | with_reducible assumption
    | ((with_reducible refine Cell.Keeps.of ?_ ?_) <;> (simp; done))
    | ((try lift_lets -underBinder); intro x; first
        | (refine Keeps.cut (s := s) x ?_ (fun hx => ?_); dsimp -zeta only [x]; rotate_left; clear_value x; rotate_right)
        | clear_value x
        | (have hP : Prop := x; clear hP))
    | with_reducible apply Keeps.ite
    | split
    | with_reducible apply Keeps.after (State.resume_keeps ..)
    | with_reducible apply Keeps.after (State.popTokens_keeps ..)
    | with_reducible apply Keeps.after (State.remoteStatus_keeps ..)
    | with_reducible apply Keeps.after (State.cellFault_keeps ..)
    | with_reducible apply Keeps.after (State.setSd_keeps ..)
    | with_reducible apply Keeps.after (State.modCtx_keeps ..)
    | with_reducible apply Keeps.after (State.modCell_keeps (h := ?_) ..)
    | intro c

theorem State.timeoutEdge_keeps {s : State} {g : Nat}  :
    Keeps s (State.timeoutEdge s g) := by
  unfold State.timeoutEdge
  repeat' first
    | with_reducible apply Keeps.refl
    | with_reducible apply Keeps.ite
    | split
    | with_reducible apply Keeps.after (State.declareTimeout_keeps ..)

theorem execTimeoutEdge_keeps {g : Nat} {s : State}  :
    KeepsO s (execTimeoutEdge g s) := by
  unfold execTimeoutEdge
  repeat' first
    | with_reducible apply Keeps.refl
    | with_reducible apply KeepsO.next
    | with_reducible apply Keeps.after (State.timeoutEdge_keeps ..)

theorem State.jobEndedAt_keeps {s : State} {g : Nat}  :
    Keeps s (State.jobEndedAt s g) := by
  unfold State.jobEndedAt
  repeat' first
    | with_reducible apply Keeps.refl
    | ((with_reducible refine Cell.Keeps.of ?_ ?_) <;> (simp; done))
    | ((try lift_lets -underBinder); intro x; clear_value x)
    | with_reducible apply Keeps.ite
    | split
    | with_reducible apply Keeps.after (State.endJob_keeps ..)
    | with_reducible apply Keeps.after (State.modCell_keeps (h := ?_) ..)
    | intro c

theorem execJobEnded_keeps {g : Nat} {s : State}  :
    KeepsO s (execJobEnded g s) := by
  unfold execJobEnded
  repeat' first
    | with_reducible apply Keeps.refl
    | with_reducible apply KeepsO.next
    | with_reducible apply Keeps.after (State.jobEndedAt_keeps ..)

theorem execCellCntFreeze_keeps {pos : Nat} {b : Bool} {s : State}  :
    KeepsO s (execCellCntFreeze pos b s) := by
  unfold execCellCntFreeze
  repeat' first
    | with_reducible apply Keeps.refl
    | ((with_reducible refine Cell.Keeps.of ?_ ?_) <;> (simp; done))
    | ((try lift_lets -underBinder); intro x; (refine Cell.Keeps.cut (c := c) x ?_ (fun hx => ?_); dsimp -zeta only [x]; rotate_left; clear_value x; rotate_right))
    | with_reducible apply KeepsO.next
    | with_reducible apply Cell.Keeps.after (Cell.waited_keeps ..)
    | with_reducible apply Keeps.after (State.modCell_keeps (h := ?_) ..)
    | ((with_reducible refine Cell.Keeps.trans hx (Cell.Keeps.of ?_ ?_)) <;> (simp; done))
    | intro c

theorem execCellCntClear_keeps {pos : Nat} {s : State}  :
    KeepsO s (execCellCntClear pos s) := by
  unfold execCellCntClear
  repeat' first
    | with_reducible apply Keeps.refl
    | ((with_reducible refine Cell.Keeps.of ?_ ?_) <;> (simp; done))
    | ((try lift_lets -underBinder); intro x; first
        | (refine Cell.Keeps.cut (c := c) x ?_ (fun hx => ?_); dsimp -zeta only [x]; rotate_left; clear_value x; rotate_right)
        | clear_value x)
    | with_reducible apply KeepsO.next
    | with_reducible apply Cell.Keeps.after (Cell.waited_keeps ..)
    | with_reducible apply Keeps.after (State.modCell_keeps (h := ?_) ..)
    | ((with_reducible refine Cell.Keeps.trans hx (Cell.Keeps.of ?_ ?_)) <;> (simp; done))
    | intro c

theorem execCellFaultValidClear_keeps {pos : Nat} {s : State}  :
    KeepsO s (execCellFaultValidClear pos s) := by
  unfold execCellFaultValidClear
  repeat' first
    | with_reducible apply Keeps.refl
    | ((with_reducible refine Cell.Keeps.of ?_ ?_) <;> (simp; done))
    | with_reducible apply KeepsO.next
    | with_reducible apply Keeps.after (State.modCell_keeps (h := ?_) ..)
    | intro c

end Sys2Proof.Machine
end

