-- ==== Sys2Proof/Laws/KeepsControl.lean ====
section
/-! SUPPORT. What every operation of Machine/Control.lean keeps. -/
set_option linter.all false
set_option Elab.async false
namespace Sys2Proof.Machine

theorem execNop_keeps {g : Nat} {w : StepWord} {s : State}  :
    KeepsO s (execNop g w s) := by
  unfold execNop
  repeat' first
    | with_reducible apply Keeps.refl
    | with_reducible apply KeepsO.next
    | with_reducible apply Keeps.after (State.issue_keeps (h_f := fun x0 x1 s => ?_) ..)

theorem State.loopOpen_keeps {s : State} {i : Nat} {w : StepWord}  :
    Keeps s (State.loopOpen s i w) := by
  unfold State.loopOpen
  repeat' first
    | with_reducible apply Keeps.refl
    | with_reducible assumption
    | ((try lift_lets -underBinder); intro x; first
        | (refine Keeps.cut (s := s) x ?_ (fun hx => ?_); dsimp -zeta only [x]; rotate_left; clear_value x; rotate_right)
        | clear_value x)
    | with_reducible apply Keeps.ite
    | with_reducible apply Keeps.after (State.setSd_keeps ..)
    | with_reducible apply Keeps.after (State.modCtx_keeps ..)

theorem execLoop_keeps {g : Nat} {w : StepWord} {s : State}  :
    KeepsO s (execLoop g w s) := by
  unfold execLoop
  repeat' first
    | with_reducible apply Keeps.refl
    | with_reducible apply KeepsO.next
    | with_reducible apply Keeps.after (State.loopOpen_keeps ..)
    | with_reducible apply Keeps.after (State.issue_keeps (h_f := fun x0 x1 s => ?_) ..)

theorem State.loopClose_keeps {s : State} {i : Nat}  :
    Keeps s (State.loopClose s i) := by
  unfold State.loopClose
  repeat' first
    | with_reducible apply Keeps.refl
    | with_reducible assumption
    | ((try lift_lets -underBinder); intro x; first
        | (refine Keeps.cut (s := s) x ?_ (fun hx => ?_); dsimp -zeta only [x]; rotate_left; clear_value x; rotate_right)
        | clear_value x)
    | with_reducible apply Keeps.ite
    | split
    | with_reducible apply Keeps.after (State.setSd_keeps ..)
    | with_reducible apply Keeps.after (State.modCtx_keeps ..)

theorem execEndloop_keeps {g : Nat} {w : StepWord} {s : State}  :
    KeepsO s (execEndloop g w s) := by
  unfold execEndloop
  repeat' first
    | with_reducible apply Keeps.refl
    | with_reducible apply KeepsO.next
    | with_reducible apply Keeps.after (State.loopClose_keeps ..)
    | with_reducible apply Keeps.after (State.issue_keeps (h_f := fun x0 x1 s => ?_) ..)

theorem execWait_keeps {g : Nat} {w : StepWord} {s : State}  :
    KeepsO s (execWait g w s) := by
  unfold execWait
  repeat' first
    | with_reducible apply Keeps.refl
    | with_reducible apply KeepsO.next
    | with_reducible apply Keeps.after (State.orHold_keeps (h_r := ?_) ..)
    | with_reducible apply Keeps.after (State.waitTry_keeps ..)
    | with_reducible apply Keeps.after (State.issue_keeps (h_f := fun x0 x1 s => ?_) ..)

theorem execWaitany_keeps {g : Nat} {w : StepWord} {s : State}  :
    KeepsO s (execWaitany g w s) := by
  unfold execWaitany
  repeat' first
    | with_reducible apply Keeps.refl
    | with_reducible apply KeepsO.next
    | with_reducible apply Keeps.after (State.orHold_keeps (h_r := ?_) ..)
    | with_reducible apply Keeps.after (State.waitAnyTry_keeps ..)
    | with_reducible apply Keeps.after (State.issue_keeps (h_f := fun x0 x1 s => ?_) ..)

theorem State.postCredits_keeps {s : State} {i : Nat} {w : StepWord}  :
    Keeps s (State.postCredits s i w) := by
  unfold State.postCredits
  repeat' first
    | with_reducible apply Keeps.refl
    | with_reducible assumption
    | ((try lift_lets -underBinder); intro x; (refine Keeps.cut (s := s) x ?_ (fun hx => ?_); dsimp -zeta only [x]; rotate_left; clear_value x; rotate_right))
    | split
    | with_reducible apply Keeps.after (State.modCtx_keeps ..)
    | with_reducible refine Keeps.mk ?_

theorem execPostc_keeps {g : Nat} {w : StepWord} {s : State}  :
    KeepsO s (execPostc g w s) := by
  unfold execPostc
  repeat' first
    | with_reducible apply Keeps.refl
    | with_reducible apply KeepsO.next
    | with_reducible apply Keeps.after (State.postCredits_keeps ..)
    | with_reducible apply Keeps.after (State.issue_keeps (h_f := fun x0 x1 s => ?_) ..)

theorem execPostt_keeps {g : Nat} {w : StepWord} {s : State}  :
    KeepsO s (execPostt g w s) := by
  unfold execPostt
  repeat' first
    | with_reducible apply Keeps.refl
    | with_reducible apply KeepsO.next
    | with_reducible apply Keeps.after (State.orHold_keeps (h_r := ?_) ..)
    | with_reducible apply Keeps.after (State.posttTry_keeps ..)
    | with_reducible apply Keeps.after (State.issue_keeps (h_f := fun x0 x1 s => ?_) ..)

theorem execEbind_keeps {g : Nat} {w : StepWord} {s : State}  :
    KeepsO s (execEbind g w s) := by
  unfold execEbind
  repeat' first
    | with_reducible apply Keeps.refl
    | with_reducible apply KeepsO.next
    | with_reducible apply Keeps.after (State.orHold_keeps (h_r := ?_) ..)
    | with_reducible apply Keeps.after (State.ebindTry_keeps ..)
    | with_reducible apply Keeps.after (State.issue_keeps (h_f := fun x0 x1 s => ?_) ..)

theorem State.layerIssue_keeps {s : State} {i : Nat} {w : StepWord}  :
    Keeps s (State.layerIssue s i w) := by
  unfold State.layerIssue
  repeat' first
    | with_reducible apply Keeps.refl
    | with_reducible assumption
    | ((with_reducible refine Cell.Keeps.of ?_ ?_) <;> (simp; done))
    | ((try lift_lets -underBinder); intro x; (refine Keeps.cut (s := s) x ?_ (fun hx => ?_); dsimp -zeta only [x]; rotate_left; clear_value x; rotate_right))
    | with_reducible apply Keeps.ite
    | with_reducible apply Keeps.after (State.layerDone_keeps ..)
    | with_reducible apply Keeps.after (State.layerTake_keeps ..)
    | with_reducible apply Keeps.after (State.modCell_keeps (h := ?_) ..)
    | intro c

theorem execLayer_keeps {g : Nat} {w : StepWord} {s : State}  :
    KeepsO s (execLayer g w s) := by
  unfold execLayer
  repeat' first
    | with_reducible apply Keeps.refl
    | with_reducible apply KeepsO.next
    | with_reducible apply Keeps.after (State.layerIssue_keeps ..)
    | with_reducible apply Keeps.after (State.issue_keeps (h_f := fun x0 x1 s => ?_) ..)

theorem State.selScalar_keeps {s : State} {i : Nat} {w : StepWord}  :
    Keeps s (State.selScalar s i w) := by
  unfold State.selScalar
  repeat' first
    | with_reducible apply Keeps.refl
    | ((try lift_lets -underBinder); intro x; clear_value x)
    | split
    | with_reducible apply Keeps.after (State.setSd_keeps ..)

theorem execSel_keeps {g : Nat} {w : StepWord} {s : State}  :
    KeepsO s (execSel g w s) := by
  unfold execSel
  repeat' first
    | with_reducible apply Keeps.refl
    | with_reducible apply KeepsO.next
    | with_reducible apply Keeps.after (State.selScalar_keeps ..)
    | with_reducible apply Keeps.after (State.issue_keeps (h_f := fun x0 x1 s => ?_) ..)

theorem execRel_keeps {g : Nat} {w : StepWord} {s : State}  :
    KeepsO s (execRel g w s) := by
  unfold execRel
  repeat' first
    | with_reducible apply Keeps.refl
    | with_reducible apply KeepsO.next
    | with_reducible apply Keeps.after (State.relStart_keeps ..)
    | with_reducible apply Keeps.after (State.issue_keeps (h_f := fun x0 x1 s => ?_) ..)

theorem State.acquire_keeps {s : State} {i : Nat} {w : StepWord}  :
    Keeps s (State.acquire s i w) := by
  unfold State.acquire
  repeat' first
    | with_reducible apply Keeps.refl
    | with_reducible assumption
    | ((with_reducible refine Cell.Keeps.of ?_ ?_) <;> (simp; done))
    | ((try lift_lets -underBinder); intro x; first
        | (refine Keeps.cut (s := s) x ?_ (fun hx => ?_); dsimp -zeta only [x]; rotate_left; clear_value x; rotate_right)
        | clear_value x)
    | with_reducible apply Keeps.ite
    | with_reducible apply Keeps.after (State.modCtx_keeps ..)
    | with_reducible apply Keeps.after (State.modCell_keeps (h := ?_) ..)
    | intro c

theorem execAcq_keeps {g : Nat} {w : StepWord} {s : State}  :
    KeepsO s (execAcq g w s) := by
  unfold execAcq
  repeat' first
    | with_reducible apply Keeps.refl
    | with_reducible apply KeepsO.next
    | with_reducible apply Keeps.after (State.acquire_keeps ..)
    | with_reducible apply Keeps.after (State.issue_keeps (h_f := fun x0 x1 s => ?_) ..)

theorem execFence_keeps {g : Nat} {w : StepWord} {s : State}  :
    KeepsO s (execFence g w s) := by
  unfold execFence
  repeat' first
    | with_reducible apply Keeps.refl
    | with_reducible apply KeepsO.next
    | with_reducible apply Keeps.after (State.issue_keeps (h_f := fun x0 x1 s => ?_) ..)

theorem execMark_keeps {g : Nat} {w : StepWord} {s : State}  :
    KeepsO s (execMark g w s) := by
  unfold execMark
  repeat' first
    | with_reducible apply Keeps.refl
    | with_reducible apply KeepsO.next
    | with_reducible apply Keeps.after (State.setSd_keeps ..)
    | with_reducible apply Keeps.after (State.issue_keeps (h_f := fun x0 x1 s => ?_) ..)

theorem execEndStep_keeps {g : Nat} {w : StepWord} {s : State}  :
    KeepsO s (execEndStep g w s) := by
  unfold execEndStep
  repeat' first
    | with_reducible apply Keeps.refl
    | with_reducible apply KeepsO.next
    | with_reducible apply Keeps.after (State.orHold_keeps (h_r := ?_) ..)
    | with_reducible apply Keeps.after (State.endTry_keeps ..)
    | with_reducible apply Keeps.after (State.issue_keeps (h_f := fun x0 x1 s => ?_) ..)

theorem execMwait_keeps {g : Nat} {w : StepWord} {s : State}  :
    KeepsO s (execMwait g w s) := by
  unfold execMwait
  repeat' first
    | with_reducible apply Keeps.refl
    | with_reducible apply KeepsO.next
    | with_reducible apply Keeps.after (State.issue_keeps (h_f := fun x0 x1 s => ?_) ..)

end Sys2Proof.Machine
end

