-- ==== Sys2Proof/Laws/KeepsBatches.lean ====
section
/-! SUPPORT. What every operation of Machine/Batches.lean keeps. -/
set_option linter.all false
set_option Elab.async false
namespace Sys2Proof.Machine

theorem State.ringTake_keeps {s : State} {p : Nat} {be : Bool}  :
    Keeps s (State.ringTake s p be).2 := by
  unfold State.ringTake
  repeat' first
    | with_reducible apply Keeps.refl
    | ((try lift_lets -underBinder); intro x; clear_value x)
    | split
    | with_reducible apply Keeps.after (State.hostRead_keeps ..)
    | with_reducible apply Keeps.after (State.modPart_keeps ..)
    | (with_reducible apply Keeps.of_pair; with_reducible assumption)

theorem State.cqPut_keeps {s : State} {p handle : Nat} {rec : Bytes}  :
    Keeps s (State.cqPut s p handle rec) := by
  unfold State.cqPut
  repeat' first
    | with_reducible apply Keeps.refl
    | ((try lift_lets -underBinder); intro x; clear_value x)
    | split
    | with_reducible apply Keeps.after (State.modPart_keeps ..)

theorem State.refuseSub_keeps {s : State} {p path arg msg : Nat} {cls : Cls} {rec : Bytes}  :
    Keeps s (State.refuseSub s p path arg msg cls rec) := by
  unfold State.refuseSub
  repeat' first
    | with_reducible apply Keeps.refl
    | split
    | with_reducible apply Keeps.after (State.cqPut_keeps ..)
    | with_reducible apply Keeps.after (State.netDone_keeps ..)
    | with_reducible apply Keeps.after (State.modHif_keeps ..)

theorem State.journalCharge_keeps {s : State} {p n : Nat}  :
    Keeps s (State.journalCharge s p n) := by
  unfold State.journalCharge
  repeat' first
    | with_reducible apply Keeps.refl
    | ((try lift_lets -underBinder); intro x; clear_value x)
    | split
    | with_reducible apply Keeps.after (State.bursts_keeps ..)

theorem State.journalWrite_keeps {s : State} {b : Batch}  :
    Keeps s (State.journalWrite s b).2 := by
  unfold State.journalWrite
  repeat' first
    | with_reducible apply Keeps.refl
    | with_reducible assumption
    | ((try lift_lets -underBinder); intro x; first
        | (refine Keeps.cut (s := s) x ?_ (fun hx => ?_); dsimp -zeta only [x]; rotate_left; clear_value x; rotate_right)
        | clear_value x)
    | with_reducible apply Keeps.ite
    | with_reducible apply Keeps.ite2
    | split
    | with_reducible apply Keeps.after (State.journalCharge_keeps ..)
    | with_reducible apply Keeps.after (State.hrvSend_keeps ..)
    | with_reducible apply Keeps.after (State.modHrv_keeps ..)

theorem State.journalDone_keeps {s : State} {b : Batch}  :
    Keeps s (State.journalDone s b) := by
  unfold State.journalDone
  repeat' first
    | with_reducible apply Keeps.refl
    | with_reducible assumption
    | ((try lift_lets -underBinder); intro x; (refine Keeps.cut (s := s) x ?_ (fun hx => ?_); dsimp -zeta only [x]; rotate_left; clear_value x; rotate_right))
    | with_reducible apply Keeps.ite
    | split
    | with_reducible apply Keeps.after (State.hrvSend_keeps ..)
    | with_reducible apply Keeps.after (State.modHrv_keeps ..)

theorem State.enqueue_keeps {s : State} {b : Batch} {head : Bool}  :
    Keeps s (State.enqueue s b head) := by
  unfold State.enqueue
  repeat' first
    | with_reducible apply Keeps.refl
    | ((with_reducible refine Cell.Keeps.of ?_ ?_) <;> (simp; done))
    | ((try lift_lets -underBinder); intro x; clear_value x)
    | split
    | (with_reducible apply Keeps.foldlFrom; rotate_left; intro s a; rotate_right)
    | with_reducible apply Keeps.after (State.modCell_keeps (h := ?_) ..)
    | intro c

theorem State.bindAll_keeps {s : State} {p h : Nat}  :
    Keeps s (State.bindAll s p h) := by
  unfold State.bindAll
  repeat' first
    | with_reducible apply Keeps.refl
    | ((try lift_lets -underBinder); intro x; clear_value x)
    | with_reducible refine Keeps.mk ?_

theorem State.admitDesc_keeps {s : State} {p path arg msg : Nat} {cls : Cls} {d : Data}  :
    Keeps s (State.admitDesc s p path arg msg cls d) := by
  unfold State.admitDesc
  repeat' first
    | with_reducible apply Keeps.refl
    | with_reducible assumption
    | ((try lift_lets -underBinder); intro x; first
        | (refine Keeps.cut (s := s) x ?_ (fun hx => ?_); dsimp -zeta only [x]; rotate_left; clear_value x; rotate_right)
        | clear_value x)
    | with_reducible apply Keeps.ite
    | split
    | with_reducible apply Keeps.after (State.bindAll_keeps ..)
    | with_reducible apply Keeps.after (State.enqueue_keeps ..)
    | with_reducible apply Keeps.after (State.journalWrite_keeps ..)
    | with_reducible apply Keeps.after (State.refuseSub_keeps ..)
    | with_reducible apply Keeps.after (State.freshHandle_keeps ..)
    | with_reducible apply Keeps.after (State.modHif_keeps ..)
    | with_reducible apply Keeps.after (State.modPart_keeps ..)
    | (with_reducible apply Keeps.of_pair; with_reducible assumption)
    | with_reducible refine Keeps.mk ?_

theorem State.admitClass_keeps {s : State} {p : Nat} {cls : Cls} {from_ : Option Submission}  :
    Keeps s (State.admitClass s p cls from_) := by
  unfold State.admitClass
  repeat' first
    | with_reducible apply Keeps.refl
    | with_reducible assumption
    | ((try lift_lets -underBinder); intro x; first
        | (refine Keeps.cut (s := s) x ?_ (fun hx => ?_); dsimp -zeta only [x]; rotate_left; clear_value x; rotate_right)
        | clear_value x)
    | with_reducible apply Keeps.ite
    | split
    | with_reducible apply Keeps.after (State.admitDesc_keeps ..)
    | with_reducible apply Keeps.after (State.refuseSub_keeps ..)
    | with_reducible apply Keeps.after (State.ringTake_keeps ..)
    | with_reducible apply Keeps.after (State.modPart_keeps ..)
    | (with_reducible apply Keeps.of_pair; with_reducible assumption)

theorem State.admission_keeps {s : State} {p : Nat}  :
    Keeps s (State.admission s p) := by
  unfold State.admission
  repeat' first
    | with_reducible apply Keeps.refl
    | split
    | with_reducible apply Keeps.after (State.admitClass_keeps ..)

theorem State.writeSubst_keeps {s : State} {b : Batch}  :
    Keeps s (State.writeSubst s b).2 := by
  unfold State.writeSubst
  repeat' first
    | with_reducible apply Keeps.refl
    | ((try lift_lets -underBinder); intro x; clear_value x)
    | with_reducible apply Keeps.ite2
    | with_reducible apply Keeps.after (State.vwrite_keeps ..)

theorem State.finishBatch_keeps {s : State} {b : Batch}  :
    Keeps s (State.finishBatch s b).2 := by
  unfold State.finishBatch
  repeat' first
    | with_reducible apply Keeps.refl
    | with_reducible apply Keeps.ite
    | with_reducible apply Keeps.after (State.writeSubst_keeps ..)
    | with_reducible apply Keeps.after (State.modPart_keeps ..)

theorem State.unbind_keeps {s : State} {h : Nat}  :
    Keeps s (State.unbind s h) := by
  unfold State.unbind
  repeat' first
    | with_reducible apply Keeps.refl
    | with_reducible apply Keeps.after (State.releaseIf_keeps ..)

theorem State.leave_keeps {s : State} {b : Batch}  :
    Keeps s (State.leave s b) := by
  unfold State.leave
  repeat' first
    | with_reducible apply Keeps.refl
    | with_reducible assumption
    | ((try lift_lets -underBinder); intro x; (refine Keeps.cut (s := s) x ?_ (fun hx => ?_); dsimp -zeta only [x]; rotate_left; clear_value x; rotate_right))
    | with_reducible apply Keeps.after (State.unbind_keeps ..)
    | with_reducible apply Keeps.after (State.journalDone_keeps ..)
    | with_reducible apply Keeps.after (State.finishDrain_keeps ..)
    | with_reducible refine Keeps.mk ?_

theorem State.batchComplete_keeps {s : State} {h : Nat}  :
    Keeps s (State.batchComplete s h) := by
  unfold State.batchComplete
  repeat' first
    | with_reducible apply Keeps.refl
    | with_reducible assumption
    | ((try lift_lets -underBinder); intro x; first
        | (refine Keeps.cut (s := s) x ?_ (fun hx => ?_); dsimp -zeta only [x]; rotate_left; clear_value x; rotate_right)
        | clear_value x)
    | with_reducible apply Keeps.ite
    | split
    | (with_reducible apply Keeps.foldlFrom; rotate_left; intro s a; rotate_right)
    | with_reducible apply Keeps.after (State.leave_keeps ..)
    | with_reducible apply Keeps.after (State.unbind_keeps ..)
    | with_reducible apply Keeps.after (State.finishBatch_keeps ..)
    | with_reducible apply Keeps.after (State.cqPut_keeps ..)
    | with_reducible apply Keeps.after (State.netDone_keeps ..)
    | with_reducible apply Keeps.after (State.modBatch_keeps ..)
    | with_reducible apply Keeps.after (State.release_keeps ..)
    | with_reducible apply Keeps.after (State.modHif_keeps ..)
    | (with_reducible apply Keeps.of_pair; with_reducible assumption)

theorem State.completionWrite_keeps {s : State} {p : Nat}  :
    Keeps s (State.completionWrite s p) := by
  unfold State.completionWrite
  repeat' first
    | with_reducible apply Keeps.refl
    | with_reducible assumption
    | ((try lift_lets -underBinder); intro x; first
        | (refine Keeps.cut (s := s) x ?_ (fun hx => ?_); dsimp -zeta only [x]; rotate_left; clear_value x; rotate_right)
        | clear_value x)
    | with_reducible apply Keeps.ite
    | with_reducible apply Keeps.ite2
    | split
    | with_reducible apply Keeps.after (State.leave_keeps ..)
    | with_reducible apply Keeps.after (State.finishBatch_keeps ..)
    | with_reducible apply Keeps.after (State.raise_keeps ..)
    | with_reducible apply Keeps.after (State.hostWrite_keeps ..)
    | with_reducible apply Keeps.after (State.modPart_keeps ..)
    | (with_reducible apply Keeps.of_pair; with_reducible assumption)

end Sys2Proof.Machine
end

