-- ==== Sys2Proof/Laws/KeepsWindows.lean ====
section
/-! SUPPORT. What every operation of Machine/Windows.lean keeps. -/
set_option linter.all false
set_option Elab.async false
namespace Sys2Proof.Machine

theorem State.sendWindow_keeps {s : State} {p va n : Nat}  :
    Keeps s (State.sendWindow s p va n) := by
  unfold State.sendWindow
  repeat' first
    | with_reducible apply Keeps.refl
    | ((try lift_lets -underBinder); intro x; clear_value x)
    | split
    | (with_reducible apply Keeps.foldlFrom; rotate_left; intro s a; rotate_right)
    | with_reducible apply Keeps.after (State.hrvSend_keeps ..)
    | with_reducible apply Keeps.after (State.vread_keeps ..)
    | (with_reducible apply Keeps.of_pair; with_reducible assumption)

theorem State.mirrorWrite_keeps {s : State} {kind t n : Nat}  :
    Keeps s (State.mirrorWrite s kind t n) := by
  unfold State.mirrorWrite
  repeat' first
    | with_reducible apply Keeps.refl
    | ((try lift_lets -underBinder); intro x; clear_value x)
    | with_reducible apply Keeps.ite
    | split
    | (with_reducible apply Keeps.foldlFrom; rotate_left; intro s a; rotate_right)
    | with_reducible apply Keeps.after (State.sendWindow_keeps ..)

theorem State.outsideWrite_keeps {s : State} {a : Agent} {p va : Nat} {d : Data}  :
    Keeps s (State.outsideWrite s a p va d) := by
  unfold State.outsideWrite
  repeat' first
    | with_reducible apply Keeps.refl
    | ((try lift_lets -underBinder); intro x; clear_value x)
    | (with_reducible apply Keeps.foldlFrom; rotate_left; intro s a; rotate_right)
    | with_reducible apply Keeps.after (State.mirrorWrite_keeps ..)
    | with_reducible apply Keeps.after (State.vwrite_keeps ..)

end Sys2Proof.Machine
end

