-- ==== Sys2Proof/Laws/KeepsCopyEngine.lean ====
section
/-! SUPPORT. What every operation of Machine/CopyEngine.lean keeps. -/
set_option linter.all false
set_option Elab.async false
namespace Sys2Proof.Machine

theorem State.ceSource_keeps {s : State} {e : Nat} {d : CeDesc}  :
    Keeps s (State.ceSource s e d).2 := by
  unfold State.ceSource
  repeat' first
    | with_reducible apply Keeps.refl
    | with_reducible apply Keeps.ite2
    | with_reducible apply Keeps.after (State.vread_keeps ..)

theorem State.ceStart_keeps {s : State} {e : Nat} {d : CeDesc}  :
    Keeps s (State.ceStart s e d).2 := by
  unfold State.ceStart
  repeat' first
    | with_reducible apply Keeps.refl
    | with_reducible assumption
    | ((try lift_lets -underBinder); intro x; first
        | (refine Keeps.cut (s := s) x ?_ (fun hx => ?_); dsimp -zeta only [x]; rotate_left; clear_value x; rotate_right)
        | clear_value x)
    | with_reducible apply Keeps.ite
    | with_reducible apply Keeps.ite2
    | split
    | with_reducible apply Keeps.after (State.ceSource_keeps ..)
    | with_reducible apply Keeps.after (State.countXltFault_keeps ..)
    | (with_reducible apply Keeps.of_pair; with_reducible assumption)

theorem State.ceCopy_keeps {s : State} {e : Nat}  :
    Keeps s (State.ceCopy s e) := by
  unfold State.ceCopy
  repeat' first
    | with_reducible apply Keeps.refl
    | with_reducible apply Keeps.ite
    | split
    | with_reducible apply Keeps.after (State.ceStart_keeps ..)
    | with_reducible apply Keeps.after (State.modCe_keeps ..)
    | (with_reducible apply Keeps.of_pair; with_reducible assumption)

theorem execCopy_keeps {e : Nat} {s : State}  :
    KeepsO s (execCopy e s) := by
  unfold execCopy
  repeat' first
    | with_reducible apply Keeps.refl
    | with_reducible apply KeepsO.next
    | with_reducible apply Keeps.after (State.ceCopy_keeps ..)

theorem State.ceBlend_keeps {s : State} {d now : Data}  :
    Keeps s (State.ceBlend s d now).2 := by
  unfold State.ceBlend
  repeat' first
    | with_reducible apply Keeps.refl
    | with_reducible apply Keeps.ite2
    | split
    | (with_reducible apply Keeps.foldlPair; rotate_left; rintro ⟨d, s⟩ a; rotate_right)
    | with_reducible apply Keeps.after (State.draw_keeps ..)
    | (with_reducible apply Keeps.of_pair; with_reducible assumption)

theorem State.ceLand_keeps {s : State} {e : Nat} {d : CeDesc} {n : Nat}  :
    Keeps s (State.ceLand s e d n).2 := by
  unfold State.ceLand
  repeat' first
    | with_reducible apply Keeps.refl
    | with_reducible assumption
    | ((try lift_lets -underBinder); intro x; first
        | (refine Keeps.cut (s := s) x ?_ (fun hx => ?_); dsimp -zeta only [x]; rotate_left; clear_value x; rotate_right)
        | clear_value x)
    | with_reducible apply Keeps.ite
    | with_reducible apply Keeps.ite2
    | split
    | (with_reducible apply Keeps.foldlFrom; rotate_left; intro s a; rotate_right)
    | with_reducible apply Keeps.after (State.ceBlend_keeps ..)
    | with_reducible apply Keeps.after (State.ceSource_keeps ..)
    | with_reducible apply Keeps.after (State.outsideWrite_keeps ..)
    | with_reducible apply Keeps.after (State.hostStore_keeps ..)
    | with_reducible apply Keeps.after (State.drainStack_keeps ..)
    | with_reducible apply Keeps.after (State.drawBytes_keeps ..)
    | (with_reducible apply Keeps.of_pair; with_reducible assumption)
    | dsimp -zeta only
    | with_reducible refine Keeps.mk ?_

theorem State.ceWriteBack_keeps {s : State} {e : Nat} {d : CeDesc} {status n marks : Nat}  :
    Keeps s (State.ceWriteBack s e d status n marks) := by
  unfold State.ceWriteBack
  repeat' first
    | with_reducible apply Keeps.refl
    | with_reducible apply Keeps.after (State.hostWrite_keeps ..)

theorem State.ceAnnounce_keeps {s : State} {e : Nat} {d : CeDesc} {status : Nat}  :
    Keeps s (State.ceAnnounce s e d status) := by
  unfold State.ceAnnounce
  repeat' first
    | with_reducible apply Keeps.refl
    | with_reducible assumption
    | ((try lift_lets -underBinder); intro x; first
        | (refine Keeps.cut (s := s) x ?_ (fun hx => ?_); dsimp -zeta only [x]; rotate_left; clear_value x; rotate_right)
        | clear_value x)
    | with_reducible apply Keeps.ite
    | split
    | with_reducible apply Keeps.after (State.outsideWrite_keeps ..)
    | with_reducible apply Keeps.after (State.complete_keeps ..)
    | with_reducible apply Keeps.after (State.withRanges_keeps (h_f := fun s => ?_) ..)
    | with_reducible apply Keeps.after (State.raise_keeps ..)
    | with_reducible apply Keeps.after (State.hostWrite_keeps ..)
    | with_reducible apply Keeps.after (State.draw_keeps ..)

theorem State.ceFinish_keeps {s : State} {e : Nat} {d : CeDesc} {status n marks : Nat}  :
    Keeps s (State.ceFinish s e d status n marks) := by
  unfold State.ceFinish
  repeat' first
    | with_reducible apply Keeps.refl
    | with_reducible apply Keeps.after (State.ceAnnounce_keeps ..)
    | with_reducible apply Keeps.after (State.ceWriteBack_keeps ..)
    | with_reducible apply Keeps.after (State.modCe_keeps ..)

theorem State.ceNop_keeps {s : State} {e : Nat}  :
    Keeps s (State.ceNop s e) := by
  unfold State.ceNop
  repeat' first
    | with_reducible apply Keeps.refl
    | with_reducible apply Keeps.ite
    | split
    | with_reducible apply Keeps.after (State.ceFinish_keeps ..)
    | with_reducible apply Keeps.after (State.ceStart_keeps ..)
    | with_reducible apply Keeps.after (State.modCe_keeps ..)
    | (with_reducible apply Keeps.of_pair; with_reducible assumption)

theorem execCeNop_keeps {e : Nat} {s : State}  :
    KeepsO s (execCeNop e s) := by
  unfold execCeNop
  repeat' first
    | with_reducible apply Keeps.refl
    | with_reducible apply KeepsO.next
    | with_reducible apply Keeps.after (State.ceNop_keeps ..)

theorem State.ceComplete_keeps {s : State} {e status n : Nat}  :
    Keeps s (State.ceComplete s e status n) := by
  unfold State.ceComplete
  repeat' first
    | with_reducible apply Keeps.refl
    | with_reducible assumption
    | ((try lift_lets -underBinder); intro x; first
        | (refine Keeps.cut (s := s) x ?_ (fun hx => ?_); dsimp -zeta only [x]; rotate_left; clear_value x; rotate_right)
        | clear_value x)
    | with_reducible apply Keeps.ite
    | split
    | with_reducible apply Keeps.after (State.ceFinish_keeps ..)
    | with_reducible apply Keeps.after (State.ceLand_keeps ..)
    | with_reducible apply Keeps.after (State.modCe_keeps ..)
    | (with_reducible apply Keeps.of_pair; with_reducible assumption)

theorem execCeComplete_keeps {e status bytes : Nat} {s : State}  :
    KeepsO s (execCeComplete e status bytes s) := by
  unfold execCeComplete
  repeat' first
    | with_reducible apply Keeps.refl
    | with_reducible apply KeepsO.next
    | with_reducible apply Keeps.after (State.ceComplete_keeps ..)

theorem State.ceCtlWrite_keeps {s : State} {e : Nat} {val : Nat}  :
    Keeps s (State.ceCtlWrite s e val) := by
  unfold State.ceCtlWrite
  repeat' first
    | with_reducible apply Keeps.refl
    | with_reducible apply Keeps.ite
    | split
    | with_reducible apply Keeps.after (State.setReg_keeps ..)
    | with_reducible apply Keeps.after (State.sizeClamp_keeps ..)
    | with_reducible apply Keeps.after (State.modCe_keeps ..)

theorem execCeRingCtlWrite_keeps {e : Nat} {val : BitVec 64} {s : State}  :
    KeepsO s (execCeRingCtlWrite e val s) := by
  unfold execCeRingCtlWrite
  repeat' first
    | with_reducible apply Keeps.refl
    | with_reducible apply KeepsO.next
    | with_reducible apply Keeps.after (State.ceCtlWrite_keeps ..)

theorem execCeResume_keeps {e : Nat} {s : State}  :
    KeepsO s (execCeResume e s) := by
  unfold execCeResume
  repeat' first
    | with_reducible apply Keeps.refl
    | with_reducible apply KeepsO.next
    | with_reducible apply Keeps.after (State.modCe_keeps ..)

theorem State.ceCut_keeps {s : State} {e : Nat} {d : CeDesc}  :
    Keeps s (State.ceCut s e d).2.2 := by
  unfold State.ceCut
  repeat' first
    | with_reducible apply Keeps.refl
    | with_reducible apply Keeps.ite3
    | split
    | with_reducible apply Keeps.after (State.ceLand_keeps ..)
    | with_reducible apply Keeps.after (State.draw_keeps ..)
    | (with_reducible apply Keeps.of_pair; with_reducible assumption)

theorem State.ceAbort_keeps {s : State} {e : Nat}  :
    Keeps s (State.ceAbort s e) := by
  unfold State.ceAbort
  repeat' first
    | with_reducible apply Keeps.refl
    | with_reducible assumption
    | ((try lift_lets -underBinder); intro x; first
        | (refine Keeps.cut (s := s) x ?_ (fun hx => ?_); dsimp -zeta only [x]; rotate_left; clear_value x; rotate_right)
        | clear_value x)
    | split
    | (with_reducible apply Keeps.foldlFrom; rotate_left; intro s a; rotate_right)
    | with_reducible apply Keeps.after (State.ceCut_keeps ..)
    | with_reducible apply Keeps.after (State.ceFinish_keeps ..)
    | with_reducible apply Keeps.after (State.modCe_keeps ..)

theorem execCeAbort_keeps {e : Nat} {s : State}  :
    KeepsO s (execCeAbort e s) := by
  unfold execCeAbort
  repeat' first
    | with_reducible apply Keeps.refl
    | with_reducible apply KeepsO.next
    | with_reducible apply Keeps.ite
    | with_reducible apply Keeps.after (State.ceAbort_keeps ..)

theorem State.ceAbortPart_keeps {s : State} {e p : Nat}  :
    Keeps s (State.ceAbortPart s e p) := by
  unfold State.ceAbortPart
  repeat' first
    | with_reducible apply Keeps.refl
    | with_reducible assumption
    | ((try lift_lets -underBinder); intro x; (refine Keeps.cut (s := s) x ?_ (fun hx => ?_); dsimp -zeta only [x]; rotate_left; clear_value x; rotate_right))
    | with_reducible apply Keeps.ite
    | split
    | (with_reducible apply Keeps.foldlFrom; rotate_left; intro s a; rotate_right)
    | with_reducible apply Keeps.after (State.ceCut_keeps ..)
    | with_reducible apply Keeps.after (State.ceFinish_keeps ..)
    | with_reducible apply Keeps.after (State.modCe_keeps ..)
    | (with_reducible apply Keeps.of_pair3; with_reducible assumption)

theorem State.ceLinkDown_keeps {s : State} {e : Nat}  :
    Keeps s (State.ceLinkDown s e) := by
  unfold State.ceLinkDown
  repeat' first
    | with_reducible apply Keeps.refl
    | ((try lift_lets -underBinder); intro x; clear_value x)
    | with_reducible apply Keeps.ite
    | split
    | (with_reducible apply Keeps.foldlPair; rotate_left; rintro ⟨d, s⟩ a; rotate_right)
    | with_reducible apply Keeps.after (State.ceCut_keeps ..)
    | with_reducible apply Keeps.after (State.modCe_keeps ..)
    | (with_reducible apply Keeps.of_pair; with_reducible assumption)
    | (with_reducible apply Keeps.of_pair3; with_reducible assumption)

theorem State.ceLinkUp_keeps {s : State} {e : Nat}  :
    Keeps s (State.ceLinkUp s e) := by
  unfold State.ceLinkUp
  repeat' first
    | with_reducible apply Keeps.refl
    | with_reducible assumption
    | ((try lift_lets -underBinder); intro x; first
        | (refine Keeps.cut (s := s) x ?_ (fun hx => ?_); dsimp -zeta only [x]; rotate_left; clear_value x; rotate_right)
        | clear_value x)
    | with_reducible apply Keeps.ite
    | split
    | (with_reducible apply Keeps.foldlFrom; rotate_left; intro s a; rotate_right)
    | (with_reducible apply Keeps.foldlPair; rotate_left; rintro ⟨d, s⟩ a; rotate_right)
    | with_reducible apply Keeps.after (State.ceFinish_keeps ..)
    | with_reducible apply Keeps.after (State.ceWriteBack_keeps ..)
    | with_reducible apply Keeps.after (State.ceStart_keeps ..)
    | with_reducible apply Keeps.after (State.modCe_keeps ..)
    | (with_reducible apply Keeps.of_pair; with_reducible assumption)

theorem State.ceHotReset_keeps {s : State} {e : Nat}  :
    Keeps s (State.ceHotReset s e) := by
  unfold State.ceHotReset
  repeat' first
    | with_reducible apply Keeps.refl
    | with_reducible assumption
    | ((try lift_lets -underBinder); intro x; (refine Keeps.cut (s := s) x ?_ (fun hx => ?_); dsimp -zeta only [x]; rotate_left; clear_value x; rotate_right))
    | with_reducible apply Keeps.after (State.ceLinkDown_keeps ..)
    | with_reducible apply Keeps.after (State.resetRegs_keeps ..)
    | with_reducible apply Keeps.after (State.modCe_keeps ..)

end Sys2Proof.Machine
end

