-- ==== Sys2Proof/Laws/KeepsTranslation.lean ====
section
/-! SUPPORT. What every operation of Machine/Translation.lean keeps. -/
set_option linter.all false
set_option Elab.async false
namespace Sys2Proof.Machine

theorem State.xltCommand_keeps {s : State} {p : Nat} {f : State → State} (h_f : ∀ t, Keeps t (f t)) :
    Keeps s (State.xltCommand s p f) := by
  unfold State.xltCommand
  repeat' first
    | with_reducible apply Keeps.refl
    | with_reducible apply Keeps.ite
    | with_reducible apply Keeps.after (h_f ..)
    | with_reducible apply Keeps.after (State.modXlt_keeps ..)

theorem State.xltResult_keeps {s : State} {p r : Nat}  :
    Keeps s (State.xltResult s p r) := by
  unfold State.xltResult
  repeat' first
    | with_reducible apply Keeps.refl
    | with_reducible apply Keeps.after (State.modXlt_keeps ..)

theorem State.addRange_keeps {s : State} {p idx a : Nat}  :
    Keeps s (State.addRange s p idx a) := by
  unfold State.addRange
  repeat' first
    | with_reducible apply Keeps.refl
    | with_reducible apply Keeps.ite
    | split
    | with_reducible apply Keeps.after (State.xltResult_keeps ..)
    | with_reducible apply Keeps.after (State.vread_keeps ..)
    | with_reducible refine Keeps.mk ?_

theorem execRangeAdd_keeps {p idx : Nat} {s : State}  :
    KeepsO s (execRangeAdd p idx s) := by
  unfold execRangeAdd
  repeat' first
    | with_reducible apply Keeps.refl
    | with_reducible apply KeepsO.next
    | with_reducible apply Keeps.ite
    | with_reducible apply Keeps.after (State.addRange_keeps ..)
    | with_reducible apply Keeps.after (State.xltResult_keeps ..)
    | with_reducible apply Keeps.after (State.xltCommand_keeps (h_f := fun s => ?_) ..)

theorem State.removeRange_keeps {s : State} {p : Nat} {r : Range} {arg : Option Nat}  :
    Keeps s (State.removeRange s p r arg) := by
  unfold State.removeRange
  repeat' first
    | with_reducible apply Keeps.refl
    | with_reducible apply Keeps.after (State.modXlt_keeps ..)
    | with_reducible refine Keeps.mk ?_

theorem execRangeRemove_keeps {p idx : Nat} {s : State}  :
    KeepsO s (execRangeRemove p idx s) := by
  unfold execRangeRemove
  repeat' first
    | with_reducible apply Keeps.refl
    | with_reducible apply KeepsO.next
    | split
    | with_reducible apply Keeps.after (State.removeRange_keeps ..)
    | with_reducible apply Keeps.after (State.xltResult_keeps ..)
    | with_reducible apply Keeps.after (State.xltCommand_keeps (h_f := fun s => ?_) ..)

theorem execRangeReplace_keeps {p idx : Nat} {s : State}  :
    KeepsO s (execRangeReplace p idx s) := by
  unfold execRangeReplace
  repeat' first
    | with_reducible apply Keeps.refl
    | with_reducible apply KeepsO.next
    | split
    | with_reducible apply Keeps.after (State.removeRange_keeps ..)
    | with_reducible apply Keeps.after (State.addRange_keeps ..)
    | with_reducible apply Keeps.after (State.xltCommand_keeps (h_f := fun s => ?_) ..)

theorem execRangeRead_keeps {p idx : Nat} {s : State}  :
    KeepsO s (execRangeRead p idx s) := by
  unfold execRangeRead
  repeat' first
    | with_reducible apply Keeps.refl
    | with_reducible apply KeepsO.next
    | split
    | with_reducible apply Keeps.after (State.xltResult_keeps ..)
    | with_reducible apply Keeps.after (State.xltCommand_keeps (h_f := fun s => ?_) ..)
    | with_reducible apply Keeps.after (State.modXlt_keeps ..)

theorem execXltCmdNop_keeps {p _op : Nat} {s : State}  :
    KeepsO s (execXltCmdNop p _op s) := by
  unfold execXltCmdNop
  repeat' first
    | with_reducible apply Keeps.refl
    | with_reducible apply Keeps.ofId
    | with_reducible apply KeepsO.next
    | with_reducible apply Keeps.after (State.xltCommand_keeps (h_f := fun s => ?_) ..)

theorem State.invalidate_keeps {s : State} {p : Nat} {a : Agent}  :
    Keeps s (State.invalidate s p a) := by
  unfold State.invalidate
  repeat' first
    | with_reducible apply Keeps.refl
    | with_reducible assumption
    | ((try lift_lets -underBinder); intro x; first
        | (refine Keeps.cut (s := s) x ?_ (fun hx => ?_); dsimp -zeta only [x]; rotate_left; clear_value x; rotate_right)
        | clear_value x)
    | with_reducible apply Keeps.ite
    | split
    | with_reducible apply Keeps.after (State.setCached_keeps ..)
    | with_reducible apply Keeps.after (State.modXlt_keeps ..)

theorem execRangeInvalidation_keeps {p : Nat} {agent : Agent} {s : State}  :
    KeepsO s (execRangeInvalidation p agent s) := by
  unfold execRangeInvalidation
  repeat' first
    | with_reducible apply Keeps.refl
    | with_reducible apply KeepsO.next
    | with_reducible apply Keeps.after (State.invalidate_keeps ..)

theorem State.invalidationAck_keeps {s : State} {p : Nat}  :
    Keeps s (State.invalidationAck s p) := by
  unfold State.invalidationAck
  repeat' first
    | with_reducible apply Keeps.refl
    | with_reducible assumption
    | ((try lift_lets -underBinder); intro x; first
        | (refine Keeps.cut (s := s) x ?_ (fun hx => ?_); dsimp -zeta only [x]; rotate_left; clear_value x; rotate_right)
        | clear_value x)
    | with_reducible apply Keeps.ite
    | split
    | with_reducible apply Keeps.after (State.addRange_keeps ..)
    | with_reducible apply Keeps.after (State.modXlt_keeps ..)

theorem execInvalidationAck_keeps {p : Nat} {s : State}  :
    KeepsO s (execInvalidationAck p s) := by
  unfold execInvalidationAck
  repeat' first
    | with_reducible apply Keeps.refl
    | with_reducible apply KeepsO.next
    | with_reducible apply Keeps.after (State.invalidationAck_keeps ..)

theorem execRangeFetch_keeps {agent : Agent} {p idx : Nat} {s : State}  :
    KeepsO s (execRangeFetch agent p idx s) := by
  unfold execRangeFetch
  repeat' first
    | with_reducible apply Keeps.refl
    | with_reducible apply KeepsO.next
    | with_reducible apply Keeps.ite
    | with_reducible apply Keeps.after (State.useRange_keeps ..)

theorem State.hostLineFill_keeps {s : State} {p va : Nat}  :
    Keeps s (State.hostLineFill s p va) := by
  unfold State.hostLineFill
  repeat' first
    | with_reducible apply Keeps.refl
    | with_reducible apply Keeps.ite
    | split
    | with_reducible apply Keeps.after (State.rangeHostRead_keeps ..)

theorem execHostLineFill_keeps {p va : Nat} {s : State}  :
    KeepsO s (execHostLineFill p va s) := by
  unfold execHostLineFill
  repeat' first
    | with_reducible apply Keeps.refl
    | with_reducible apply KeepsO.next
    | with_reducible apply Keeps.after (State.hostLineFill_keeps ..)

theorem State.halveCounts_keeps {s : State}  :
    Keeps s (State.halveCounts s) := by
  unfold State.halveCounts
  repeat' first
    | with_reducible apply Keeps.refl
    | ((try lift_lets -underBinder); intro x; clear_value x)
    | with_reducible apply Keeps.ite
    | with_reducible refine Keeps.mk ?_

theorem execAccessHalving_keeps {s : State}  :
    KeepsO s (execAccessHalving s) := by
  unfold execAccessHalving
  repeat' first
    | with_reducible apply Keeps.refl
    | with_reducible apply KeepsO.next
    | with_reducible apply Keeps.after (State.halveCounts_keeps ..)

theorem State.answerRead_keeps {s : State} {v : Nat}  :
    Keeps s (State.answerRead s v) := by
  unfold State.answerRead
  repeat' first
    | with_reducible apply Keeps.refl
    | with_reducible apply Keeps.after (State.modHif_keeps ..)

theorem execXltHotPop_keeps {s : State}  :
    KeepsO s (execXltHotPop s) := by
  unfold execXltHotPop
  repeat' first
    | with_reducible apply Keeps.refl
    | ((try lift_lets -underBinder); intro x; clear_value x)
    | with_reducible apply KeepsO.next
    | split
    | with_reducible apply Keeps.after (State.answerRead_keeps ..)
    | with_reducible refine Keeps.mk ?_

end Sys2Proof.Machine
end

