-- ==== Sys2Proof/Laws/KeepsPartitions.lean ====
section
/-! SUPPORT. What every operation of Machine/Partitions.lean keeps. -/
set_option linter.all false
set_option Elab.async false
namespace Sys2Proof.Machine

theorem execAdmission_keeps {p : Nat} {s : State}  :
    KeepsO s (execAdmission p s) := by
  unfold execAdmission
  repeat' first
    | with_reducible apply Keeps.refl
    | with_reducible apply KeepsO.next
    | with_reducible apply Keeps.after (State.admission_keeps ..)

theorem State.raiseHeld_keeps {s : State} {i : Nat} {k : Cls}  :
    Keeps s (State.raiseHeld s i k) := by
  unfold State.raiseHeld
  repeat' first
    | with_reducible apply Keeps.refl
    | with_reducible assumption
    | ((with_reducible refine Cell.Keeps.of ?_ ?_) <;> (simp; done))
    | ((try lift_lets -underBinder); intro x; (refine Keeps.cut (s := s) x ?_ (fun hx => ?_); dsimp -zeta only [x]; rotate_left; clear_value x; rotate_right))
    | with_reducible apply Keeps.ite
    | split
    | with_reducible apply Keeps.after (State.cellFault_keeps ..)
    | with_reducible apply Keeps.after (State.modCell_keeps (h := ?_) ..)
    | intro c

theorem State.startJob_keeps {s : State} {i : Nat} {j : Job}  :
    Keeps s (State.startJob s i j) := by
  unfold State.startJob
  repeat' first
    | with_reducible apply Keeps.refl
    | with_reducible assumption
    | ((with_reducible refine Cell.Keeps.of ?_ ?_) <;> (simp; done))
    | ((try lift_lets -underBinder); intro x; first
        | (refine Keeps.cut (s := s) x ?_ (fun hx => ?_); dsimp -zeta only [x]; rotate_left; clear_value x; rotate_right)
        | clear_value x)
    | with_reducible apply Keeps.ite
    | split
    | with_reducible apply Keeps.after (State.raiseHeld_keeps ..)
    | with_reducible apply Keeps.after (State.tokenArrive_keeps ..)
    | with_reducible apply Keeps.after (State.sliceStart_keeps ..)
    | with_reducible apply Keeps.after (State.modPart_keeps ..)
    | with_reducible apply Keeps.after (State.modCell_keeps (h := ?_) ..)
    | intro c

theorem State.jobStart_keeps {s : State} {g : Nat}  :
    Keeps s (State.jobStart s g) := by
  unfold State.jobStart
  repeat' first
    | with_reducible apply Keeps.refl
    | ((try lift_lets -underBinder); intro x; clear_value x)
    | with_reducible apply Keeps.ite
    | split
    | with_reducible apply Keeps.after (State.startJob_keeps ..)

theorem execJobStart_keeps {g : Nat} {s : State}  :
    KeepsO s (execJobStart g s) := by
  unfold execJobStart
  repeat' first
    | with_reducible apply Keeps.refl
    | with_reducible apply KeepsO.next
    | with_reducible apply Keeps.after (State.jobStart_keeps ..)

theorem execBatchComplete_keeps {handle : Nat} {s : State}  :
    KeepsO s (execBatchComplete handle s) := by
  unfold execBatchComplete
  repeat' first
    | with_reducible apply Keeps.refl
    | with_reducible apply KeepsO.next
    | with_reducible apply Keeps.after (State.batchComplete_keeps ..)

theorem execCompletionRecord_keeps {p : Nat} {s : State}  :
    KeepsO s (execCompletionRecord p s) := by
  unfold execCompletionRecord
  repeat' first
    | with_reducible apply Keeps.refl
    | with_reducible apply KeepsO.next
    | with_reducible apply Keeps.after (State.completionWrite_keeps ..)

theorem State.preemptionRequest_keeps {s : State} {g : Nat}  :
    Keeps s (State.preemptionRequest s g) := by
  unfold State.preemptionRequest
  repeat' first
    | with_reducible apply Keeps.refl
    | ((with_reducible refine Cell.Keeps.of ?_ ?_) <;> (simp; done))
    | ((try lift_lets -underBinder); intro x; clear_value x)
    | with_reducible apply Keeps.ite
    | split
    | with_reducible apply Keeps.after (State.modCell_keeps (h := ?_) ..)
    | intro c

theorem execPreemptionRequest_keeps {g : Nat} {s : State}  :
    KeepsO s (execPreemptionRequest g s) := by
  unfold execPreemptionRequest
  repeat' first
    | with_reducible apply Keeps.refl
    | with_reducible apply KeepsO.next
    | with_reducible apply Keeps.after (State.preemptionRequest_keeps ..)

theorem State.preempt_keeps {s : State} {g : Nat}  :
    Keeps s (State.preempt s g) := by
  unfold State.preempt
  repeat' first
    | with_reducible apply Keeps.refl
    | with_reducible assumption
    | ((with_reducible refine Cell.Keeps.of ?_ ?_) <;> (simp; done))
    | ((try lift_lets -underBinder); intro x; first
        | (refine Keeps.cut (s := s) x ?_ (fun hx => ?_); dsimp -zeta only [x]; rotate_left; clear_value x; rotate_right)
        | clear_value x)
    | with_reducible apply Keeps.ite
    | split
    | with_reducible apply Keeps.after (State.startJob_keeps ..)
    | with_reducible apply Keeps.after (State.modBatch_keeps ..)
    | with_reducible apply Keeps.after (State.modPart_keeps ..)
    | with_reducible apply Keeps.after (State.modCell_keeps (h := ?_) ..)
    | intro c

theorem execPreempt_keeps {g : Nat} {s : State}  :
    KeepsO s (execPreempt g s) := by
  unfold execPreempt
  repeat' first
    | with_reducible apply Keeps.refl
    | with_reducible apply KeepsO.next
    | with_reducible apply Keeps.after (State.preempt_keeps ..)

theorem State.sliceLimit_keeps {s : State} {g : Nat}  :
    Keeps s (State.sliceLimit s g) := by
  unfold State.sliceLimit
  repeat' first
    | with_reducible apply Keeps.refl
    | ((with_reducible refine Cell.Keeps.of ?_ ?_) <;> (simp; done))
    | ((try lift_lets -underBinder); intro x; clear_value x)
    | with_reducible apply Keeps.ite
    | split
    | with_reducible apply Keeps.after (State.endJob_keeps ..)
    | with_reducible apply Keeps.after (State.modPart_keeps ..)
    | with_reducible apply Keeps.after (State.modCell_keeps (h := ?_) ..)
    | intro c

theorem execSliceLimit_keeps {g : Nat} {s : State}  :
    KeepsO s (execSliceLimit g s) := by
  unfold execSliceLimit
  repeat' first
    | with_reducible apply Keeps.refl
    | with_reducible apply KeepsO.next
    | with_reducible apply Keeps.after (State.sliceLimit_keeps ..)

theorem State.beResume_keeps {s : State} {g : Nat}  :
    Keeps s (State.beResume s g) := by
  unfold State.beResume
  repeat' first
    | with_reducible apply Keeps.refl
    | with_reducible assumption
    | ((with_reducible refine Cell.Keeps.of ?_ ?_) <;> (simp; done))
    | ((try lift_lets -underBinder); intro x; first
        | (refine Keeps.cut (s := s) x ?_ (fun hx => ?_); dsimp -zeta only [x]; rotate_left; clear_value x; rotate_right)
        | clear_value x)
    | with_reducible apply Keeps.ite
    | split
    | with_reducible apply Keeps.after (State.raiseHeld_keeps ..)
    | with_reducible apply Keeps.after (State.sliceStart_keeps ..)
    | with_reducible apply Keeps.after (State.modCell_keeps (h := ?_) ..)
    | intro c

theorem execBeResume_keeps {g : Nat} {s : State}  :
    KeepsO s (execBeResume g s) := by
  unfold execBeResume
  repeat' first
    | with_reducible apply Keeps.refl
    | with_reducible apply KeepsO.next
    | with_reducible apply Keeps.after (State.beResume_keeps ..)

theorem State.jigMove_keeps {s : State} {g : Nat}  :
    Keeps s (State.jigMove s g) := by
  unfold State.jigMove
  repeat' first
    | with_reducible apply Keeps.refl
    | ((try lift_lets -underBinder); intro x; clear_value x)
    | with_reducible apply Keeps.ite
    | split
    | with_reducible apply Keeps.after (State.moveCell_keeps ..)
    | with_reducible apply Keeps.after (State.modHealth_keeps ..)

theorem execJigMove_keeps {g : Nat} {s : State}  :
    KeepsO s (execJigMove g s) := by
  unfold execJigMove
  repeat' first
    | with_reducible apply Keeps.refl
    | with_reducible apply KeepsO.next
    | with_reducible apply Keeps.after (State.jigMove_keeps ..)

theorem State.moveDone_keeps {s : State} {g : Nat}  :
    Keeps s (State.moveDone s g) := by
  unfold State.moveDone
  repeat' first
    | with_reducible apply Keeps.refl
    | ((with_reducible refine Cell.Keeps.of ?_ ?_) <;> (simp; done))
    | with_reducible apply Keeps.ite
    | split
    | with_reducible apply Keeps.after (State.layerDone_keeps ..)
    | with_reducible apply Cell.Keeps.after (Cell.freed_keeps ..)
    | with_reducible apply Keeps.after (State.modCell_keeps (h := ?_) ..)
    | intro c

theorem execMoveDone_keeps {g : Nat} {s : State}  :
    KeepsO s (execMoveDone g s) := by
  unfold execMoveDone
  repeat' first
    | with_reducible apply Keeps.refl
    | with_reducible apply KeepsO.next
    | with_reducible apply Keeps.after (State.moveDone_keeps ..)

theorem State.subCtlWrite_keeps {s : State} {p : Nat} {be : Bool} {val : Nat}  :
    Keeps s (State.subCtlWrite s p be val) := by
  unfold State.subCtlWrite
  repeat' first
    | with_reducible apply Keeps.refl
    | ((try lift_lets -underBinder); intro x; clear_value x)
    | with_reducible apply Keeps.ite
    | split
    | with_reducible apply Keeps.after (State.setReg_keeps ..)
    | with_reducible apply Keeps.after (State.sizeClamp_keeps ..)
    | with_reducible apply Keeps.after (State.modPart_keeps ..)

theorem execSubmissionRingCtlWrite_keeps {p : Nat} {be : Bool} {val : BitVec 64} {s : State}  :
    KeepsO s (execSubmissionRingCtlWrite p be val s) := by
  unfold execSubmissionRingCtlWrite
  repeat' first
    | with_reducible apply Keeps.refl
    | with_reducible apply KeepsO.next
    | with_reducible apply Keeps.after (State.subCtlWrite_keeps ..)

theorem State.cqCtlWrite_keeps {s : State} {p : Nat} {val : Nat}  :
    Keeps s (State.cqCtlWrite s p val) := by
  unfold State.cqCtlWrite
  repeat' first
    | with_reducible apply Keeps.refl
    | ((try lift_lets -underBinder); intro x; clear_value x)
    | with_reducible apply Keeps.ite
    | split
    | with_reducible apply Keeps.after (State.setReg_keeps ..)
    | with_reducible apply Keeps.after (State.sizeClamp_keeps ..)
    | with_reducible apply Keeps.after (State.modPart_keeps ..)

theorem execCqCtlWrite_keeps {p : Nat} {val : BitVec 64} {s : State}  :
    KeepsO s (execCqCtlWrite p val s) := by
  unfold execCqCtlWrite
  repeat' first
    | with_reducible apply Keeps.refl
    | with_reducible apply KeepsO.next
    | with_reducible apply Keeps.after (State.cqCtlWrite_keeps ..)

theorem execPartLcWaitMaxRead_keeps {p : Nat} {s : State}  :
    KeepsO s (execPartLcWaitMaxRead p s) := by
  unfold execPartLcWaitMaxRead
  repeat' first
    | with_reducible apply Keeps.refl
    | ((try lift_lets -underBinder); intro x; clear_value x)
    | with_reducible apply KeepsO.next
    | with_reducible apply Keeps.after (State.answerRead_keeps ..)
    | with_reducible apply Keeps.after (State.modPart_keeps ..)

end Sys2Proof.Machine
end

