-- ==== Sys2Proof/Laws/KeepsFaults.lean ====
section
/-! SUPPORT. What every operation of Machine/Faults.lean keeps. -/
set_option linter.all false
set_option Elab.async false
namespace Sys2Proof.Machine

theorem State.endFaulty_keeps {s : State} {i : Nat}  :
    Keeps s (State.endFaulty s i) := by
  unfold State.endFaulty
  repeat' first
    | with_reducible apply Keeps.refl
    | ((try lift_lets -underBinder); intro x; clear_value x)
    | split
    | with_reducible apply Keeps.after (State.endJob_keeps ..)
    | with_reducible apply Keeps.after (State.modBatch_keeps ..)

theorem State.markSram_keeps {s : State} {i off : Nat} : Keeps s (State.markSram s i off) := by
  refine State.modCell_keeps fun c => ?_
  split
  · exact fun v => ⟨Store.wf_setMark v.1, v.2⟩
  split
  · exact fun v => ⟨v.1, Store.wf_setMark v.2.1, v.2.2⟩
  · exact fun v => v

theorem State.faultReport_keeps {s : State} {r : Report}  :
    Keeps s (State.faultReport s r) := by
  unfold State.faultReport
  repeat' first
    | with_reducible apply Keeps.refl
    | ((try lift_lets -underBinder); intro x; clear_value x)
    | split
    | with_reducible apply Keeps.after (State.markSram_keeps ..)
    | with_reducible apply Keeps.after (State.endFaulty_keeps ..)
    | with_reducible apply Keeps.after (State.cartReport_keeps ..)
    | with_reducible apply Keeps.after (State.report_keeps ..)
    | with_reducible apply Keeps.after (State.setFatal_keeps ..)
    | with_reducible apply Keeps.after (State.modCe_keeps ..)

theorem execFaultReport_keeps {rep : Report} {s : State}  :
    KeepsO s (execFaultReport rep s) := by
  unfold execFaultReport
  repeat' first
    | with_reducible apply Keeps.refl
    | with_reducible apply KeepsO.next
    | with_reducible apply Keeps.after (State.faultReport_keeps ..)

theorem State.incidentClose_keeps {s : State} {k : Nat}  :
    Keeps s (State.incidentClose s k) := by
  unfold State.incidentClose
  repeat' first
    | with_reducible apply Keeps.refl
    | with_reducible apply Keeps.ite
    | split
    | with_reducible apply Keeps.after (State.writeIncident_keeps ..)
    | with_reducible apply Keeps.after (State.modHealth_keeps ..)
    | (with_reducible apply Keeps.of_pair; with_reducible assumption)

theorem execIncidentClose_keeps {n : Nat} {s : State}  :
    KeepsO s (execIncidentClose n s) := by
  unfold execIncidentClose
  repeat' first
    | with_reducible apply Keeps.refl
    | with_reducible apply KeepsO.next
    | with_reducible apply Keeps.after (State.incidentClose_keeps ..)

theorem State.faultCtlWrite_keeps {s : State} {r val : Nat}  :
    Keeps s (State.faultCtlWrite s r val) := by
  unfold State.faultCtlWrite
  repeat' first
    | with_reducible apply Keeps.refl
    | with_reducible apply Keeps.ite
    | with_reducible apply Keeps.after (State.flushRing_keeps ..)
    | with_reducible apply Keeps.after (State.modRing_keeps ..)
    | with_reducible apply Keeps.after (State.setReg_keeps ..)

theorem execFaultRingCtlWrite_keeps {r : Nat} {val : BitVec 64} {s : State}  :
    KeepsO s (execFaultRingCtlWrite r val s) := by
  unfold execFaultRingCtlWrite
  repeat' first
    | with_reducible apply Keeps.refl
    | with_reducible apply KeepsO.next
    | with_reducible apply Keeps.after (State.faultCtlWrite_keeps ..)

theorem State.alertClear_keeps {s : State} {val : Nat}  :
    Keeps s (State.alertClear s val) := by
  unfold State.alertClear
  repeat' first
    | with_reducible apply Keeps.refl
    | with_reducible apply Keeps.after (State.modHealth_keeps ..)

theorem execFaultAlertClear_keeps {val : BitVec 64} {s : State}  :
    KeepsO s (execFaultAlertClear val s) := by
  unfold execFaultAlertClear
  repeat' first
    | with_reducible apply Keeps.refl
    | with_reducible apply KeepsO.next
    | with_reducible apply Keeps.after (State.alertClear_keeps ..)

theorem State.moveFaulty_keeps {s : State} {g : Nat}  :
    Keeps s (State.moveFaulty s g) := by
  unfold State.moveFaulty
  repeat' first
    | with_reducible apply Keeps.refl
    | ((with_reducible refine Cell.Keeps.of ?_ ?_) <;> (simp; done))
    | ((try lift_lets -underBinder); intro x; (refine Keeps.cutF x (fun s => ?_) (fun hf => ?_); dsimp -zeta only [x]; rotate_left; clear_value x; rotate_right))
    | with_reducible apply Keeps.ite
    | split
    | with_reducible apply Keeps.after (State.moveCell_keeps ..)
    | with_reducible apply Keeps.after (State.modHealth_keeps ..)
    | with_reducible apply Keeps.after (State.modCell_keeps (h := ?_) ..)
    | intro c
    | (with_reducible apply Keeps.after; with_reducible apply_assumption -exfalso -symm)

theorem State.replayDecision_keeps {s : State} {h : Nat}  :
    Keeps s (State.replayDecision s h) := by
  unfold State.replayDecision
  repeat' first
    | with_reducible apply Keeps.refl
    | with_reducible assumption
    | ((try lift_lets -underBinder); intro x; first
        | (refine Keeps.cut (s := s) x ?_ (fun hx => ?_); dsimp -zeta only [x]; rotate_left; clear_value x; rotate_right)
        | clear_value x)
    | with_reducible apply Keeps.ite
    | split
    | (with_reducible apply Keeps.foldlFrom; rotate_left; intro s a; rotate_right)
    | with_reducible apply Keeps.after (State.moveFaulty_keeps ..)
    | with_reducible apply Keeps.after (State.endJobs_keeps ..)
    | with_reducible apply Keeps.after (State.modBatch_keeps ..)

theorem execReplayDecision_keeps {handle : Nat} {s : State}  :
    KeepsO s (execReplayDecision handle s) := by
  unfold execReplayDecision
  repeat' first
    | with_reducible apply Keeps.refl
    | with_reducible apply KeepsO.next
    | with_reducible apply Keeps.after (State.replayDecision_keeps ..)

theorem State.replay_keeps {s : State} {h : Nat}  :
    Keeps s (State.replay s h) := by
  unfold State.replay
  repeat' first
    | with_reducible apply Keeps.refl
    | ((try lift_lets -underBinder); intro x; clear_value x)
    | with_reducible apply Keeps.ite
    | split
    | with_reducible apply Keeps.after (State.enqueue_keeps ..)
    | with_reducible apply Keeps.after (State.modBatch_keeps ..)
    | with_reducible apply Keeps.after (State.modHealth_keeps ..)

theorem execReplay_keeps {handle : Nat} {s : State}  :
    KeepsO s (execReplay handle s) := by
  unfold execReplay
  repeat' first
    | with_reducible apply Keeps.refl
    | with_reducible apply KeepsO.next
    | with_reducible apply Keeps.after (State.replay_keeps ..)

theorem State.modJig_keeps {s : State} {i : Nat} {f : Jig → Jig}  :
    Keeps s (State.modJig s i f) := by
  unfold State.modJig
  repeat' first
    | with_reducible apply Keeps.refl
    | with_reducible apply Keeps.after (State.modHealth_keeps ..)

theorem State.jigDue_keeps {s : State} {i : Nat}  :
    Keeps s (State.jigDue s i) := by
  unfold State.jigDue
  repeat' first
    | with_reducible apply Keeps.refl
    | with_reducible assumption
    | ((with_reducible refine Cell.Keeps.of ?_ ?_) <;> (simp; done))
    | ((try lift_lets -underBinder); intro x; first
        | (refine Keeps.cut (s := s) x ?_ (fun hx => ?_); dsimp -zeta only [x]; rotate_left; clear_value x; rotate_right)
        | clear_value x)
    | with_reducible apply Keeps.ite
    | split
    | with_reducible apply Keeps.after (State.modJig_keeps ..)
    | with_reducible apply Cell.Keeps.after (Cell.vacate_keeps ..)
    | with_reducible apply Keeps.after (State.modPart_keeps ..)
    | with_reducible apply Keeps.after (State.modCell_keeps (h := ?_) ..)
    | intro c

theorem execJigDue_keeps {pos : Nat} {s : State}  :
    KeepsO s (execJigDue pos s) := by
  unfold execJigDue
  repeat' first
    | with_reducible apply Keeps.refl
    | with_reducible apply KeepsO.next
    | with_reducible apply Keeps.after (State.jigDue_keeps ..)

theorem State.jigRan_keeps {s : State} {u : UnitId} {pass : Bool} {phase : Nat}  :
    Keeps s (State.jigRan s u pass phase) := by
  unfold State.jigRan
  repeat' first
    | with_reducible apply Keeps.refl
    | ((try lift_lets -underBinder); intro x; clear_value x)
    | split
    | with_reducible apply Keeps.after (State.modLark_keeps ..)
    | with_reducible apply Keeps.after (State.modHealth_keeps ..)

theorem State.jigRecord_keeps {s : State} {u : UnitId} {j : Jig} {fail : Bool} {verdict action : Nat}  :
    Keeps s (State.jigRecord s u j fail verdict action) := by
  unfold State.jigRecord
  repeat' first
    | with_reducible apply Keeps.refl
    | ((try lift_lets -underBinder); intro x; clear_value x)
    | with_reducible apply Keeps.after (State.writeIncident_keeps ..)

theorem State.confirm_keeps {s : State} {u : UnitId} {j : Jig}  :
    Keeps s (State.confirm s u j) := by
  unfold State.confirm
  repeat' first
    | with_reducible apply Keeps.refl
    | ((try lift_lets -underBinder); intro x; clear_value x)
    | with_reducible apply Keeps.ite
    | split
    | with_reducible apply Keeps.after (State.countEvent_keeps ..)
    | with_reducible apply Keeps.after (State.modHealth_keeps ..)

theorem State.shadowVerdict_keeps {s : State} {i : Nat} {pass : Bool}  :
    Keeps s (State.shadowVerdict s i pass) := by
  unfold State.shadowVerdict
  repeat' first
    | with_reducible apply Keeps.refl
    | with_reducible assumption
    | ((try lift_lets -underBinder); intro x; first
        | (refine Keeps.cut (s := s) x ?_ (fun hx => ?_); dsimp -zeta only [x]; rotate_left; clear_value x; rotate_right)
        | clear_value x)
    | split
    | (with_reducible apply Keeps.foldlFrom; rotate_left; intro s a; rotate_right)
    | with_reducible apply Keeps.after (State.countEvent_keeps ..)
    | with_reducible apply Keeps.after (State.modHealth_keeps ..)

theorem State.jigPassed_keeps {s : State} {i : Nat}  :
    Keeps s (State.jigPassed s i) := by
  unfold State.jigPassed
  repeat' first
    | with_reducible apply Keeps.refl
    | with_reducible assumption
    | ((with_reducible refine Cell.Keeps.of ?_ ?_) <;> (simp; done))
    | ((try lift_lets -underBinder); intro x; first
        | (refine Keeps.cut (s := s) x ?_ (fun hx => ?_); dsimp -zeta only [x]; rotate_left; clear_value x; rotate_right)
        | clear_value x)
    | with_reducible apply Keeps.ite
    | with_reducible apply Cell.Keeps.ite
    | split
    | with_reducible apply Keeps.after (State.shadowVerdict_keeps ..)
    | with_reducible apply Keeps.after (State.jigRecord_keeps ..)
    | with_reducible apply Keeps.after (State.modJig_keeps ..)
    | with_reducible apply Keeps.after (State.countEvent_keeps ..)
    | with_reducible apply Keeps.after (State.modLark_keeps ..)
    | with_reducible apply Cell.Keeps.after (Cell.freed_keeps ..)
    | with_reducible apply Keeps.after (State.modCell_keeps (h := ?_) ..)
    | intro c

theorem State.retire_keeps {s : State} {i : Nat}  :
    Keeps s (State.retire s i) := by
  unfold State.retire
  repeat' first
    | with_reducible apply Keeps.refl
    | with_reducible assumption
    | ((with_reducible refine Cell.Keeps.of ?_ ?_) <;> (simp; done))
    | ((try lift_lets -underBinder); intro x; first
        | (refine Keeps.cut (s := s) x ?_ (fun hx => ?_); dsimp -zeta only [x]; rotate_left; clear_value x; rotate_right)
        | clear_value x)
    | with_reducible apply Keeps.ite
    | split
    | with_reducible apply Keeps.after (State.shadowVerdict_keeps ..)
    | with_reducible apply Keeps.after (State.modJig_keeps ..)
    | with_reducible apply Keeps.after (State.judge_keeps ..)
    | with_reducible apply Keeps.after (State.moveCell_keeps ..)
    | with_reducible apply Cell.Keeps.after (Cell.vacate_keeps ..)
    | with_reducible apply Keeps.after (State.makeSuspect_keeps ..)
    | with_reducible apply Keeps.after (State.larkRepair_keeps ..)
    | with_reducible apply Keeps.after (State.modLark_keeps ..)
    | with_reducible apply Keeps.after (State.modCell_keeps (h := ?_) ..)
    | intro c

theorem State.jigDone_keeps {s : State} {i : Nat} {pass repairable : Bool} {phase : Nat}  :
    Keeps s (State.jigDone s i pass repairable phase) := by
  unfold State.jigDone
  repeat' first
    | with_reducible apply Keeps.refl
    | with_reducible assumption
    | ((try lift_lets -underBinder); intro x; first
        | (refine Keeps.cut (s := s) x ?_ (fun hx => ?_); dsimp -zeta only [x]; rotate_left; clear_value x; rotate_right)
        | clear_value x)
    | with_reducible apply Keeps.ite
    | with_reducible apply Keeps.after (State.retire_keeps ..)
    | with_reducible apply Keeps.after (State.jigPassed_keeps ..)
    | with_reducible apply Keeps.after (State.confirm_keeps ..)
    | with_reducible apply Keeps.after (State.jigRecord_keeps ..)
    | with_reducible apply Keeps.after (State.jigRan_keeps ..)
    | with_reducible apply Keeps.after (State.modJig_keeps ..)
    | with_reducible apply Keeps.after (State.larkRepair_keeps ..)
    | with_reducible apply Keeps.after (State.modLark_keeps ..)

theorem execJigDone_keeps {pos : Nat} {pass repairable : Bool} {phase : Nat} {s : State}  :
    KeepsO s (execJigDone pos pass repairable phase s) := by
  unfold execJigDone
  repeat' first
    | with_reducible apply Keeps.refl
    | with_reducible apply KeepsO.next
    | with_reducible apply Keeps.after (State.jigDone_keeps ..)

theorem State.reJigDone_keeps {s : State} {k : Nat} {pass : Bool}  :
    Keeps s (State.reJigDone s k pass) := by
  unfold State.reJigDone
  repeat' first
    | with_reducible apply Keeps.refl
    | with_reducible assumption
    | ((try lift_lets -underBinder); intro x; first
        | (refine Keeps.cut (s := s) x ?_ (fun hx => ?_); dsimp -zeta only [x]; rotate_left; clear_value x; rotate_right)
        | (refine Keeps.cutF x (fun s => ?_) (fun hf => ?_); dsimp -zeta only [x]; rotate_left; clear_value x; rotate_right)
        | (refine Keeps.cutF2 x (fun s a => ?_) (fun hg => ?_); dsimp -zeta only [x]; rotate_left; clear_value x; rotate_right)
        | clear_value x)
    | with_reducible apply Keeps.ite
    | split
    | with_reducible apply Keeps.after (State.confirm_keeps ..)
    | with_reducible apply Keeps.after (State.jigRecord_keeps ..)
    | with_reducible apply Keeps.after (State.jigRan_keeps ..)
    | with_reducible apply Keeps.after (State.countEvent_keeps ..)
    | with_reducible apply Keeps.after (State.permanent_keeps ..)
    | with_reducible apply Keeps.after (State.modLark_keeps ..)
    | with_reducible apply Keeps.after (State.modHealth_keeps ..)
    | with_reducible apply Keeps.after (State.modEngine_keeps ..)
    | (with_reducible apply Keeps.after; with_reducible apply_assumption -exfalso -symm)

theorem execReJigDone_keeps {k : Nat} {pass : Bool} {s : State}  :
    KeepsO s (execReJigDone k pass s) := by
  unfold execReJigDone
  repeat' first
    | with_reducible apply Keeps.refl
    | with_reducible apply KeepsO.next
    | with_reducible apply Keeps.after (State.reJigDone_keeps ..)

theorem State.netJigDone_keeps {s : State} {pass : Bool}  :
    Keeps s (State.netJigDone s pass) := by
  unfold State.netJigDone
  repeat' first
    | with_reducible apply Keeps.refl
    | with_reducible assumption
    | (intro n; with_reducible rfl)
    | ((try lift_lets -underBinder); intro x; first
        | (refine Keeps.cut (s := s) x ?_ (fun hx => ?_); dsimp -zeta only [x]; rotate_left; clear_value x; rotate_right)
        | (refine Keeps.cutF x (fun s => ?_) (fun hf => ?_); dsimp -zeta only [x]; rotate_left; clear_value x; rotate_right)
        | (refine Keeps.cutF2 x (fun s a => ?_) (fun hg => ?_); dsimp -zeta only [x]; rotate_left; clear_value x; rotate_right)
        | clear_value x)
    | with_reducible apply Keeps.ite
    | with_reducible apply Keeps.after (State.confirm_keeps ..)
    | with_reducible apply Keeps.after (State.jigRecord_keeps ..)
    | with_reducible apply Keeps.after (State.jigRan_keeps ..)
    | with_reducible apply Keeps.after (State.countEvent_keeps ..)
    | with_reducible apply Keeps.after (State.permanent_keeps ..)
    | with_reducible apply Keeps.after (State.modLark_keeps ..)
    | with_reducible apply Keeps.after (State.modHealth_keeps ..)
    | with_reducible apply Keeps.after (State.modNet_keeps (h := ?_) ..)
    | (with_reducible apply Keeps.after; with_reducible apply_assumption -exfalso -symm)

theorem execNetJigDone_keeps {pass : Bool} {s : State}  :
    KeepsO s (execNetJigDone pass s) := by
  unfold execNetJigDone
  repeat' first
    | with_reducible apply Keeps.refl
    | with_reducible apply KeepsO.next
    | with_reducible apply Keeps.after (State.netJigDone_keeps ..)

theorem State.repairPauseEnd_keeps {s : State} {k : Nat}  :
    Keeps s (State.repairPauseEnd s k) := by
  unfold State.repairPauseEnd
  repeat' first
    | with_reducible apply Keeps.refl
    | with_reducible apply Keeps.ite
    | with_reducible apply Keeps.after (State.modLark_keeps ..)
    | with_reducible apply Keeps.after (State.modEngine_keeps ..)

theorem execRepairPauseEnd_keeps {k : Nat} {s : State}  :
    KeepsO s (execRepairPauseEnd k s) := by
  unfold execRepairPauseEnd
  repeat' first
    | with_reducible apply Keeps.refl
    | with_reducible apply KeepsO.next
    | with_reducible apply Keeps.after (State.repairPauseEnd_keeps ..)

theorem State.shadowMismatch_keeps {s : State} {i : Nat}  :
    Keeps s (State.shadowMismatch s i) := by
  unfold State.shadowMismatch
  repeat' first
    | with_reducible apply Keeps.refl
    | with_reducible assumption
    | ((with_reducible refine Cell.Keeps.of ?_ ?_) <;> (simp; done))
    | ((try lift_lets -underBinder); intro x; first
        | (refine Keeps.cut (s := s) x ?_ (fun hx => ?_); dsimp -zeta only [x]; rotate_left; clear_value x; rotate_right)
        | clear_value x)
    | split
    | with_reducible apply Keeps.after (State.modJig_keeps ..)
    | with_reducible apply Keeps.after (State.endFaulty_keeps ..)
    | with_reducible apply Keeps.after (State.report_keeps ..)
    | with_reducible apply Cell.Keeps.after (Cell.vacate_keeps ..)
    | with_reducible apply Keeps.after (State.modHealth_keeps ..)
    | with_reducible apply Keeps.after (State.modCell_keeps (h := ?_) ..)
    | intro c

theorem State.shadowCompare_keeps {s : State} {g : Nat} {crc : BitVec 32}  :
    Keeps s (State.shadowCompare s g crc) := by
  unfold State.shadowCompare
  repeat' first
    | with_reducible apply Keeps.refl
    | ((with_reducible refine Cell.Keeps.of ?_ ?_) <;> (simp; done))
    | with_reducible apply Keeps.ite
    | split
    | with_reducible apply Keeps.after (State.shadowMismatch_keeps ..)
    | with_reducible apply Keeps.after (State.wake_keeps ..)
    | with_reducible apply Keeps.after (State.modCell_keeps (h := ?_) ..)
    | intro c

theorem execShadowCompare_keeps {g : Nat} {spareCrc : BitVec 32} {s : State}  :
    KeepsO s (execShadowCompare g spareCrc s) := by
  unfold execShadowCompare
  repeat' first
    | with_reducible apply Keeps.refl
    | with_reducible apply KeepsO.next
    | with_reducible apply Keeps.after (State.shadowCompare_keeps ..)

end Sys2Proof.Machine
end

