-- ==== Sys2Proof/Laws/KeepsTableCmd.lean ====
section
/-! SUPPORT. What every operation of Machine/TableCmd.lean keeps. -/
set_option linter.all false
set_option Elab.async false
namespace Sys2Proof.Machine

theorem State.tblResult_keeps {s : State} {p r : Nat}  :
    Keeps s (State.tblResult s p r) := by
  unfold State.tblResult
  repeat' first
    | with_reducible apply Keeps.refl
    | with_reducible apply Keeps.after (State.modSvc_keeps ..)

theorem State.tblValue_keeps {s : State} {p v : Nat}  :
    Keeps s (State.tblValue s p v) := by
  unfold State.tblValue
  repeat' first
    | with_reducible apply Keeps.refl
    | with_reducible apply Keeps.after (State.modSvc_keeps ..)

theorem State.tblIdle_keeps {s : State} {p : Nat}  :
    Keeps s (State.tblIdle s p) := by
  unfold State.tblIdle
  repeat' first
    | with_reducible apply Keeps.refl
    | ((try lift_lets -underBinder); intro x; clear_value x)
    | with_reducible apply Keeps.ite
    | with_reducible apply Keeps.after (State.modSvc_keeps ..)

theorem State.stageRun_keeps {s : State} {p table : Nat} {data : Bytes} {own : Bool}  :
    Keeps s (State.stageRun s p table data own) := by
  unfold State.stageRun
  repeat' first
    | with_reducible apply Keeps.refl
    | with_reducible assumption
    | ((try lift_lets -underBinder); intro x; first
        | (refine Keeps.cut (s := s) x ?_ (fun hx => ?_); dsimp -zeta only [x]; rotate_left; clear_value x; rotate_right)
        | (refine Keeps.cutF2 x (fun s a => ?_) (fun hg => ?_); dsimp -zeta only [x]; rotate_left; clear_value x; rotate_right)
        | clear_value x)
    | with_reducible apply Keeps.ite
    | split
    | with_reducible apply Keeps.after (State.tblValue_keeps ..)
    | with_reducible apply Keeps.after (State.tblResult_keeps ..)
    | with_reducible apply Keeps.after (State.freshHandle_keeps ..)
    | (with_reducible apply Keeps.of_pair; with_reducible assumption)
    | (with_reducible apply Keeps.after; with_reducible apply_assumption -exfalso -symm)
    | with_reducible refine Keeps.mk ?_

theorem State.publishNow_keeps {s : State} {p : Nat} {tables : List Nat} {own : Bool}  :
    Keeps s (State.publishNow s p tables own) := by
  unfold State.publishNow
  repeat' first
    | with_reducible apply Keeps.refl
    | with_reducible assumption
    | ((try lift_lets -underBinder); intro x; first
        | (refine Keeps.cut (s := s) x ?_ (fun hx => ?_); dsimp -zeta only [x]; rotate_left; clear_value x; rotate_right)
        | clear_value x)
    | with_reducible apply Keeps.ite
    | split
    | (with_reducible apply Keeps.foldlFrom; rotate_left; intro s a; rotate_right)
    | with_reducible apply Keeps.after (State.tblValue_keeps ..)
    | with_reducible apply Keeps.after (State.tblResult_keeps ..)
    | with_reducible apply Keeps.after (State.freeUnheld_keeps ..)
    | with_reducible apply Keeps.after (State.modSvc_keeps ..)
    | with_reducible apply Keeps.after (State.modPart_keeps ..)
    | with_reducible refine Keeps.mk ?_

theorem State.publishRun_keeps {s : State} {p : Nat} {tables : List Nat} {own : Bool}  :
    Keeps s (State.publishRun s p tables own).2 := by
  unfold State.publishRun
  repeat' first
    | with_reducible apply Keeps.refl
    | ((try lift_lets -underBinder); intro x; (refine Keeps.cutF2 x (fun s a => ?_) (fun hg => ?_); dsimp -zeta only [x]; rotate_left; clear_value x; rotate_right))
    | with_reducible apply Keeps.ite
    | with_reducible apply Keeps.ite2
    | split
    | with_reducible apply Keeps.after (State.publishNow_keeps ..)
    | with_reducible apply Keeps.after (State.tblResult_keeps ..)
    | with_reducible apply Keeps.after (State.modSvc_keeps ..)
    | dsimp -zeta only
    | (with_reducible apply Keeps.after; with_reducible apply_assumption -exfalso -symm)

theorem State.abortRun_keeps {s : State} {p table : Nat} {own : Bool}  :
    Keeps s (State.abortRun s p table own) := by
  unfold State.abortRun
  repeat' first
    | with_reducible apply Keeps.refl
    | with_reducible assumption
    | ((try lift_lets -underBinder); intro x; first
        | (refine Keeps.cut (s := s) x ?_ (fun hx => ?_); dsimp -zeta only [x]; rotate_left; clear_value x; rotate_right)
        | (refine Keeps.cutF2 x (fun s a => ?_) (fun hg => ?_); dsimp -zeta only [x]; rotate_left; clear_value x; rotate_right))
    | with_reducible apply Keeps.ite
    | split
    | with_reducible apply Keeps.after (State.tblResult_keeps ..)
    | with_reducible apply Keeps.after (State.freeEpoch_keeps ..)
    | with_reducible apply Keeps.after (State.modSvc_keeps ..)
    | (with_reducible apply Keeps.after; with_reducible apply_assumption -exfalso -symm)
    | with_reducible refine Keeps.mk ?_

theorem State.tblRun_keeps {s : State} {op p table : Nat} {data : Bytes} {own : Bool}  :
    Keeps s (State.tblRun s op p table data own).2 := by
  unfold State.tblRun
  repeat' first
    | with_reducible apply Keeps.refl
    | split
    | with_reducible apply Keeps.after (State.abortRun_keeps ..)
    | with_reducible apply Keeps.after (State.publishRun_keeps ..)
    | with_reducible apply Keeps.after (State.stageRun_keeps ..)

theorem State.argRead_keeps {s : State} {p a n : Nat}  :
    Keeps s (State.argRead s p a n).2 := by
  unfold State.argRead
  repeat' first
    | with_reducible apply Keeps.refl
    | with_reducible apply Keeps.ite2
    | split
    | with_reducible apply Keeps.after (State.vread_keeps ..)
    | (with_reducible apply Keeps.of_pair; with_reducible assumption)

theorem State.listRead_keeps (p f : Nat) : ∀ a s, Keeps s (State.listRead p f a s).2 := by
  induction f with
  | zero => intro a s; exact .refl _
  | succ f ih => ?_
  intro a s
  unfold State.listRead
  repeat' first
    | with_reducible apply Keeps.refl
    | with_reducible apply Keeps.ite2
    | split
    | with_reducible apply Keeps.after (ih ..)
    | with_reducible apply Keeps.after (State.argRead_keeps ..)
    | (with_reducible apply Keeps.of_pair; with_reducible assumption)

theorem State.tblData_keeps {s : State} {op p table arg : Nat}  :
    Keeps s (State.tblData s op p table arg).2 := by
  unfold State.tblData
  repeat' first
    | with_reducible apply Keeps.refl
    | with_reducible apply Keeps.ite2
    | split
    | with_reducible apply Keeps.after (State.listRead_keeps ..)
    | with_reducible apply Keeps.after (State.argRead_keeps ..)
    | (with_reducible apply Keeps.of_pair; with_reducible assumption)

theorem State.sendCommand_keeps {s : State} {c : MirrorCmd}  :
    Keeps s (State.sendCommand s c) := by
  unfold State.sendCommand
  repeat' first
    | with_reducible apply Keeps.refl
    | split
    | with_reducible apply Keeps.after (State.hrvSend_keeps ..)

theorem State.tblMirror_keeps {s : State} {op p table : Nat} {data : Bytes}  :
    Keeps s (State.tblMirror s op p table data) := by
  unfold State.tblMirror
  repeat' first
    | with_reducible apply Keeps.refl
    | with_reducible assumption
    | ((try lift_lets -underBinder); intro x; first
        | (refine Keeps.cut (s := s) x ?_ (fun hx => ?_); dsimp -zeta only [x]; rotate_left; clear_value x; rotate_right)
        | clear_value x)
    | with_reducible apply Keeps.ite
    | with_reducible apply Keeps.after (State.sendCommand_keeps ..)
    | with_reducible apply Keeps.after (State.tblRun_keeps ..)
    | with_reducible apply Keeps.after (State.modHrv_keeps ..)

theorem State.tblBegin_keeps {s : State} {op p table arg : Nat}  :
    Keeps s (State.tblBegin s op p table arg) := by
  unfold State.tblBegin
  repeat' first
    | with_reducible apply Keeps.refl
    | with_reducible apply Keeps.ite
    | split
    | with_reducible apply Keeps.after (State.tblMirror_keeps ..)
    | with_reducible apply Keeps.after (State.tblData_keeps ..)
    | with_reducible apply Keeps.after (State.tblRun_keeps ..)
    | with_reducible apply Keeps.after (State.tblResult_keeps ..)
    | (with_reducible apply Keeps.of_pair; with_reducible assumption)

theorem State.tblCommand_keeps {s : State} {op p table : Nat}  :
    Keeps s (State.tblCommand s op p table) := by
  unfold State.tblCommand
  repeat' first
    | with_reducible apply Keeps.refl
    | with_reducible assumption
    | ((try lift_lets -underBinder); intro x; (refine Keeps.cut (s := s) x ?_ (fun hx => ?_); dsimp -zeta only [x]; rotate_left; clear_value x; rotate_right))
    | with_reducible apply Keeps.ite
    | with_reducible apply Keeps.after (State.tblBegin_keeps ..)
    | with_reducible apply Keeps.after (State.tblIdle_keeps ..)
    | with_reducible apply Keeps.after (State.modSvc_keeps ..)

theorem execStage_keeps {p table : Nat} {s : State}  :
    KeepsO s (execStage p table s) := by
  unfold execStage
  repeat' first
    | with_reducible apply Keeps.refl
    | with_reducible apply KeepsO.next
    | with_reducible apply Keeps.after (State.tblCommand_keeps ..)

theorem execPublish_keeps {p table : Nat} {s : State}  :
    KeepsO s (execPublish p table s) := by
  unfold execPublish
  repeat' first
    | with_reducible apply Keeps.refl
    | with_reducible apply KeepsO.next
    | with_reducible apply Keeps.after (State.tblCommand_keeps ..)

theorem execAbort_keeps {p table : Nat} {s : State}  :
    KeepsO s (execAbort p table s) := by
  unfold execAbort
  repeat' first
    | with_reducible apply Keeps.refl
    | with_reducible apply KeepsO.next
    | with_reducible apply Keeps.after (State.tblCommand_keeps ..)

theorem execPublishSet_keeps {p : Nat} {s : State}  :
    KeepsO s (execPublishSet p s) := by
  unfold execPublishSet
  repeat' first
    | with_reducible apply Keeps.refl
    | with_reducible apply KeepsO.next
    | with_reducible apply Keeps.after (State.tblCommand_keeps ..)

theorem State.waitSlot_keeps {s : State} {p : Nat}  :
    Keeps s (State.waitSlot s p) := by
  unfold State.waitSlot
  repeat' first
    | with_reducible apply Keeps.refl
    | with_reducible assumption
    | ((try lift_lets -underBinder); intro x; first
        | (refine Keeps.cut (s := s) x ?_ (fun hx => ?_); dsimp -zeta only [x]; rotate_left; clear_value x; rotate_right)
        | clear_value x)
    | with_reducible apply Keeps.ite
    | split
    | with_reducible apply Keeps.after (State.sendCommand_keeps ..)
    | with_reducible apply Keeps.after (State.publishNow_keeps ..)
    | with_reducible apply Keeps.after (State.tblIdle_keeps ..)
    | with_reducible apply Keeps.after (State.hrvSend_keeps ..)
    | with_reducible apply Keeps.after (State.modHrv_keeps ..)
    | with_reducible apply Keeps.after (State.modSvc_keeps ..)

theorem execWaitSlotPublish_keeps {p : Nat} {s : State}  :
    KeepsO s (execWaitSlotPublish p s) := by
  unfold execWaitSlotPublish
  repeat' first
    | with_reducible apply Keeps.refl
    | with_reducible apply KeepsO.next
    | with_reducible apply Keeps.after (State.waitSlot_keeps ..)

theorem execPublishDone_keeps {p : Nat} {s : State}  :
    KeepsO s (execPublishDone p s) := by
  unfold execPublishDone
  repeat' first
    | with_reducible apply Keeps.refl
    | with_reducible apply KeepsO.next
    | with_reducible apply Keeps.ite
    | with_reducible apply Keeps.after (State.tblIdle_keeps ..)
    | with_reducible apply Keeps.after (State.modSvc_keeps ..)

theorem State.tblSimple_keeps {s : State} {op p table : Nat} {f : State → State} (h_f : ∀ t, Keeps t (f t)) :
    Keeps s (State.tblSimple s op p table f) := by
  unfold State.tblSimple
  repeat' first
    | with_reducible apply Keeps.refl
    | with_reducible assumption
    | ((try lift_lets -underBinder); intro x; (refine Keeps.cut (s := s) x ?_ (fun hx => ?_); dsimp -zeta only [x]; rotate_left; clear_value x; rotate_right))
    | with_reducible apply Keeps.ite
    | with_reducible apply Keeps.after (h_f ..)
    | with_reducible apply Keeps.after (State.modSvc_keeps ..)

theorem State.queryRun_keeps {s : State} {p table : Nat}  :
    Keeps s (State.queryRun s p table) := by
  unfold State.queryRun
  repeat' first
    | with_reducible apply Keeps.refl
    | ((try lift_lets -underBinder); intro x; clear_value x)
    | with_reducible apply Keeps.ite
    | with_reducible apply Keeps.after (State.tblResult_keeps ..)
    | with_reducible apply Keeps.after (State.modSvc_keeps ..)

theorem State.bindRun_keeps {s : State} {p table : Nat}  :
    Keeps s (State.bindRun s p table) := by
  unfold State.bindRun
  repeat' first
    | with_reducible apply Keeps.refl
    | with_reducible apply Keeps.ite
    | split
    | with_reducible apply Keeps.after (State.tblValue_keeps ..)
    | with_reducible apply Keeps.after (State.tblResult_keeps ..)
    | with_reducible apply Keeps.after (State.freshHandle_keeps ..)
    | (with_reducible apply Keeps.of_pair; with_reducible assumption)
    | with_reducible refine Keeps.mk ?_

theorem State.releaseRun_keeps {s : State} {p arg : Nat}  :
    Keeps s (State.releaseRun s p arg) := by
  unfold State.releaseRun
  repeat' first
    | with_reducible apply Keeps.refl
    | ((try lift_lets -underBinder); intro x; clear_value x)
    | with_reducible apply Keeps.ite
    | with_reducible apply Keeps.after (State.tblResult_keeps ..)
    | with_reducible apply Keeps.after (State.releaseIf_keeps ..)

theorem execQuery_keeps {p table : Nat} {s : State}  :
    KeepsO s (execQuery p table s) := by
  unfold execQuery
  repeat' first
    | with_reducible apply Keeps.refl
    | with_reducible apply KeepsO.next
    | with_reducible apply Keeps.after (State.queryRun_keeps ..)
    | with_reducible apply Keeps.after (State.tblSimple_keeps (h_f := fun s => ?_) ..)

theorem execBind_keeps {p table : Nat} {s : State}  :
    KeepsO s (execBind p table s) := by
  unfold execBind
  repeat' first
    | with_reducible apply Keeps.refl
    | with_reducible apply KeepsO.next
    | with_reducible apply Keeps.after (State.bindRun_keeps ..)
    | with_reducible apply Keeps.after (State.tblSimple_keeps (h_f := fun s => ?_) ..)

theorem execRelease_keeps {p : Nat} {s : State}  :
    KeepsO s (execRelease p s) := by
  unfold execRelease
  repeat' first
    | with_reducible apply Keeps.refl
    | with_reducible apply KeepsO.next
    | with_reducible apply Keeps.after (State.releaseRun_keeps ..)
    | with_reducible apply Keeps.after (State.tblSimple_keeps (h_f := fun s => ?_) ..)

theorem execTblCmdNop_keeps {p op : Nat} {s : State}  :
    KeepsO s (execTblCmdNop p op s) := by
  unfold execTblCmdNop
  repeat' first
    | with_reducible apply Keeps.refl
    | with_reducible apply Keeps.ofId
    | with_reducible apply KeepsO.next
    | with_reducible apply Keeps.after (State.tblSimple_keeps (h_f := fun s => ?_) ..)

theorem State.releaseHeld_keeps {s : State} {p : Nat}  :
    Keeps s (State.releaseHeld s p) := by
  unfold State.releaseHeld
  repeat' first
    | with_reducible apply Keeps.refl
    | with_reducible assumption
    | ((try lift_lets -underBinder); intro x; (refine Keeps.cut (s := s) x ?_ (fun hx => ?_); dsimp -zeta only [x]; rotate_left; clear_value x; rotate_right))
    | with_reducible apply Keeps.ite
    | split
    | with_reducible apply Keeps.after (State.releaseRun_keeps ..)
    | with_reducible apply Keeps.after (State.bindRun_keeps ..)
    | with_reducible apply Keeps.after (State.queryRun_keeps ..)
    | with_reducible apply Keeps.after (State.tblBegin_keeps ..)
    | with_reducible apply Keeps.after (State.tblIdle_keeps ..)
    | with_reducible apply Keeps.after (State.modSvc_keeps ..)

theorem State.endWaiters_keeps {s : State} {k table epoch : Nat}  :
    Keeps s (State.endWaiters s k table epoch) := by
  unfold State.endWaiters
  repeat' first
    | with_reducible apply Keeps.refl
    | with_reducible assumption
    | ((try lift_lets -underBinder); intro x; first
        | (refine Keeps.cut (s := s) x ?_ (fun hx => ?_); dsimp -zeta only [x]; rotate_left; clear_value x; rotate_right)
        | clear_value x)
    | with_reducible apply Keeps.ite
    | (with_reducible apply Keeps.foldlFrom; rotate_left; intro s a; rotate_right)
    | with_reducible apply Keeps.after (State.serveDefault_keeps ..)
    | with_reducible apply Keeps.after (State.partTry_keeps ..)
    | with_reducible apply Keeps.after (State.modHeld_keeps ..)
    | with_reducible apply Keeps.after (State.countEngine_keeps ..)
    | with_reducible apply Keeps.after (State.modEngine_keeps ..)

theorem State.sweepNow_keeps {s : State} {table epoch : Nat}  :
    Keeps s (State.sweepNow s table epoch) := by
  unfold State.sweepNow
  repeat' first
    | with_reducible apply Keeps.refl
    | with_reducible assumption
    | ((try lift_lets -underBinder); intro x; first
        | (refine Keeps.cut (s := s) x ?_ (fun hx => ?_); dsimp -zeta only [x]; rotate_left; clear_value x; rotate_right)
        | clear_value x)
    | with_reducible apply Keeps.ite
    | split
    | (with_reducible apply Keeps.foldlFrom; rotate_left; intro s a; rotate_right)
    | with_reducible apply Keeps.after (State.endWaiters_keeps ..)
    | with_reducible apply Keeps.after (State.tblIdle_keeps ..)
    | with_reducible apply Keeps.after (State.writeBack_keeps ..)
    | with_reducible apply Keeps.after (State.modSvc_keeps ..)
    | with_reducible apply Keeps.after (State.modEngine_keeps ..)
    | with_reducible refine Keeps.mk ?_

theorem State.sweepDone_keeps {s : State} {table epoch : Nat}  :
    Keeps s (State.sweepDone s table epoch) := by
  unfold State.sweepDone
  repeat' first
    | with_reducible apply Keeps.refl
    | with_reducible apply Keeps.ite
    | with_reducible apply Keeps.after (State.sweepNow_keeps ..)

theorem execRowCacheSweepDone_keeps {table epoch : Nat} {s : State}  :
    KeepsO s (execRowCacheSweepDone table epoch s) := by
  unfold execRowCacheSweepDone
  repeat' first
    | with_reducible apply Keeps.refl
    | with_reducible apply KeepsO.next
    | with_reducible apply Keeps.after (State.sweepDone_keeps ..)

end Sys2Proof.Machine
end

