-- ==== Sys2Proof/Laws/KeepsImage.lean ====
section
/-! SUPPORT. What every operation of Machine/Image.lean keeps. -/
set_option linter.all false
set_option Elab.async false
namespace Sys2Proof.Machine

theorem State.stageReject_keeps {s : State} {header : Bytes} {result : Nat}  :
    Keeps s (State.stageReject s header result) := by
  unfold State.stageReject
  repeat' first
    | with_reducible apply Keeps.refl
    | with_reducible apply Keeps.after (State.modImage_keeps ..)

theorem State.stageBytes_keeps {s : State} {img : Bytes}  :
    Keeps s (State.stageBytes s img) := by
  unfold State.stageBytes
  repeat' first
    | with_reducible apply Keeps.refl
    | with_reducible apply Keeps.ite
    | split
    | with_reducible apply Keeps.after (State.stageReject_keeps ..)
    | with_reducible apply Keeps.after (State.modImage_keeps ..)

theorem State.imgCommand_keeps {s : State} {f : State → State} (h_f : ∀ t, Keeps t (f t)) :
    Keeps s (State.imgCommand s f) := by
  unfold State.imgCommand
  repeat' first
    | with_reducible apply Keeps.refl
    | with_reducible apply Keeps.ite
    | with_reducible apply Keeps.after (h_f ..)
    | with_reducible apply Keeps.after (State.modImage_keeps ..)

theorem execImgStage_keeps {s : State}  :
    KeepsO s (execImgStage s) := by
  unfold execImgStage
  repeat' first
    | with_reducible apply Keeps.refl
    | ((try lift_lets -underBinder); intro x; clear_value x)
    | with_reducible apply KeepsO.next
    | with_reducible apply Keeps.ite
    | with_reducible apply Keeps.after (State.imgCommand_keeps (h_f := fun s => ?_) ..)
    | with_reducible apply Keeps.after (State.stageReject_keeps ..)
    | with_reducible apply Keeps.after (State.modImage_keeps ..)

theorem State.beginCommit_keeps {s : State}  :
    Keeps s (State.beginCommit s) := by
  unfold State.beginCommit
  repeat' first
    | with_reducible apply Keeps.refl
    | with_reducible assumption
    | ((try lift_lets -underBinder); intro x; first
        | (refine Keeps.cut (s := s) x ?_ (fun hx => ?_); dsimp -zeta only [x]; rotate_left; clear_value x; rotate_right)
        | clear_value x)
    | split
    | (with_reducible apply Keeps.foldlFrom; rotate_left; intro s a; rotate_right)
    | with_reducible apply Keeps.after (State.modImage_keeps ..)
    | with_reducible apply Keeps.after (State.modPart_keeps ..)

theorem State.tryPartnerCommit_keeps {s : State}  :
    Keeps s (State.tryPartnerCommit s) := by
  unfold State.tryPartnerCommit
  repeat' first
    | with_reducible apply Keeps.refl
    | with_reducible assumption
    | ((try lift_lets -underBinder); intro x; (refine Keeps.cut (s := s) x ?_ (fun hx => ?_); dsimp -zeta only [x]; rotate_left; clear_value x; rotate_right))
    | with_reducible apply Keeps.ite
    | split
    | with_reducible apply Keeps.after (State.beginCommit_keeps ..)
    | with_reducible apply Keeps.after (State.hrvSend_keeps ..)
    | with_reducible apply Keeps.after (State.modHrv_keeps ..)

theorem State.stageDone_keeps {s : State} {o : ReadOutcome}  :
    Keeps s (State.stageDone s o) := by
  unfold State.stageDone
  repeat' first
    | with_reducible apply Keeps.refl
    | ((try lift_lets -underBinder); intro x; clear_value x)
    | with_reducible apply Keeps.ite
    | with_reducible apply Keeps.after (State.tryPartnerCommit_keeps ..)
    | with_reducible apply Keeps.after (State.stageBytes_keeps ..)
    | with_reducible apply Keeps.after (State.stageReject_keeps ..)
    | with_reducible apply Keeps.after (State.hostRead_keeps ..)

theorem execStageDone_keeps {readOutcome : ReadOutcome} {s : State}  :
    KeepsO s (execStageDone readOutcome s) := by
  unfold execStageDone
  repeat' first
    | with_reducible apply Keeps.refl
    | with_reducible apply KeepsO.next
    | with_reducible apply Keeps.after (State.stageDone_keeps ..)

theorem execImgCommit_keeps {s : State}  :
    KeepsO s (execImgCommit s) := by
  unfold execImgCommit
  repeat' first
    | with_reducible apply Keeps.refl
    | with_reducible assumption
    | ((try lift_lets -underBinder); intro x; first
        | (refine Keeps.cut (s := s) x ?_ (fun hx => ?_); dsimp -zeta only [x]; rotate_left; clear_value x; rotate_right)
        | clear_value x)
    | with_reducible apply KeepsO.next
    | with_reducible apply Keeps.ite
    | split
    | with_reducible apply Keeps.after (State.beginCommit_keeps ..)
    | with_reducible apply Keeps.after (State.imgCommand_keeps (h_f := fun s => ?_) ..)
    | with_reducible apply Keeps.after (State.sendCommand_keeps ..)
    | with_reducible apply Keeps.after (State.modImage_keeps ..)
    | with_reducible apply Keeps.after (State.modHrv_keeps ..)

theorem execImgDiscard_keeps {s : State}  :
    KeepsO s (execImgDiscard s) := by
  unfold execImgDiscard
  repeat' first
    | with_reducible apply Keeps.refl
    | with_reducible apply KeepsO.next
    | split
    | with_reducible apply Keeps.after (State.imgCommand_keeps (h_f := fun s => ?_) ..)
    | with_reducible apply Keeps.after (State.modImage_keeps ..)

theorem execImgCmdNop_keeps {_op : Nat} {s : State}  :
    KeepsO s (execImgCmdNop _op s) := by
  unfold execImgCmdNop
  repeat' first
    | with_reducible apply Keeps.refl
    | with_reducible apply Keeps.ofId
    | with_reducible apply KeepsO.next
    | with_reducible apply Keeps.after (State.imgCommand_keeps (h_f := fun s => ?_) ..)

theorem State.epochBoundary_keeps {s : State}  :
    Keeps s (State.epochBoundary s) := by
  unfold State.epochBoundary
  repeat' first
    | with_reducible apply Keeps.refl
    | with_reducible assumption
    | ((try lift_lets -underBinder); intro x; first
        | (refine Keeps.cut (s := s) x ?_ (fun hx => ?_); dsimp -zeta only [x]; rotate_left; clear_value x; rotate_right)
        | clear_value x)
    | with_reducible apply Keeps.ite
    | split
    | with_reducible apply Keeps.after (State.modImage_keeps ..)
    | with_reducible refine Keeps.mk ?_

theorem execEpochBoundary_keeps {s : State}  :
    KeepsO s (execEpochBoundary s) := by
  unfold execEpochBoundary
  repeat' first
    | with_reducible apply Keeps.refl
    | with_reducible apply KeepsO.next
    | with_reducible apply Keeps.after (State.epochBoundary_keeps ..)

theorem State.endPartJobs_keeps {s : State} {ps : List Nat} {status : Nat}  :
    Keeps s (State.endPartJobs s ps status).2 := by
  unfold State.endPartJobs
  repeat' first
    | with_reducible apply Keeps.refl
    | ((try lift_lets -underBinder); intro x; clear_value x)
    | with_reducible apply Keeps.after (State.endJobs_keeps ..)

theorem State.commitLimit_keeps {s : State}  :
    Keeps s (State.commitLimit s) := by
  unfold State.commitLimit
  repeat' first
    | with_reducible apply Keeps.refl
    | with_reducible assumption
    | ((try lift_lets -underBinder); intro x; first
        | (refine Keeps.cut (s := s) x ?_ (fun hx => ?_); dsimp -zeta only [x]; rotate_left; clear_value x; rotate_right)
        | clear_value x)
    | with_reducible apply Keeps.ite
    | split
    | with_reducible apply Keeps.after (State.endPartJobs_keeps ..)
    | with_reducible apply Keeps.after (State.beginCommit_keeps ..)
    | with_reducible apply Keeps.after (State.steward_keeps ..)
    | with_reducible apply Keeps.after (State.modImage_keeps ..)
    | with_reducible apply Keeps.after (State.modHrv_keeps ..)
    | (with_reducible apply Keeps.of_pair; with_reducible assumption)

theorem execCommitLimit_keeps {s : State}  :
    KeepsO s (execCommitLimit s) := by
  unfold execCommitLimit
  repeat' first
    | with_reducible apply Keeps.refl
    | with_reducible apply KeepsO.next
    | with_reducible apply Keeps.after (State.commitLimit_keeps ..)

theorem State.dropEpochs_keeps {s : State} {p : Epoch → Bool}  :
    Keeps s (State.dropEpochs s p) := by
  unfold State.dropEpochs
  repeat' first
    | with_reducible apply Keeps.refl
    | with_reducible assumption
    | ((try lift_lets -underBinder); intro x; (refine Keeps.cut (s := s) x ?_ (fun hx => ?_); dsimp -zeta only [x]; rotate_left; clear_value x; rotate_right))
    | (with_reducible apply Keeps.foldlFrom; rotate_left; intro s a; rotate_right)
    | with_reducible apply Keeps.after (State.sweepNow_keeps ..)
    | with_reducible apply Keeps.after (State.freeEpoch_keeps ..)
    | with_reducible refine Keeps.mk ?_

theorem State.zeroFrame_keeps {s : State} {f : Nat}  :
    Keeps s (State.zeroFrame s f) := by
  unfold State.zeroFrame
  repeat' first
    | with_reducible apply Keeps.refl
    | with_reducible refine Keeps.mk ?_

theorem State.applyFrames_keeps {s : State} {x : Staged}  :
    Keeps s (State.applyFrames s x) := by
  unfold State.applyFrames
  repeat' first
    | with_reducible apply Keeps.refl
    | with_reducible assumption
    | ((try lift_lets -underBinder); intro x; first
        | (refine Keeps.cut (s := s) x ?_ (fun hx => ?_); dsimp -zeta only [x]; rotate_left; clear_value x; rotate_right)
        | clear_value x)
    | (with_reducible apply Keeps.foldlFrom; rotate_left; intro s a; rotate_right)
    | with_reducible apply Keeps.after (State.zeroFrame_keeps ..)
    | with_reducible apply Keeps.after (State.dropCopies_keeps ..)
    | with_reducible apply Keeps.after (State.modImage_keeps ..)

theorem State.applyTables_keeps {s : State} {x : Staged}  :
    Keeps s (State.applyTables s x) := by
  unfold State.applyTables
  repeat' first
    | with_reducible apply Keeps.refl
    | with_reducible assumption
    | ((try lift_lets -underBinder); intro x; first
        | (refine Keeps.cut (s := s) x ?_ (fun hx => ?_); dsimp -zeta only [x]; rotate_left; clear_value x; rotate_right)
        | clear_value x)
    | with_reducible apply Keeps.after (State.dropEpochs_keeps ..)
    | with_reducible refine Keeps.mk ?_

theorem State.applyContexts_keeps {s : State} {x : Staged}  :
    Keeps s (State.applyContexts s x) := by
  unfold State.applyContexts
  repeat' first
    | with_reducible apply Keeps.refl
    | with_reducible assumption
    | ((try lift_lets -underBinder); intro x; first
        | (refine Keeps.cut (s := s) x ?_ (fun hx => ?_); dsimp -zeta only [x]; rotate_left; clear_value x; rotate_right)
        | clear_value x)
    | with_reducible apply Keeps.ite
    | (with_reducible apply Keeps.foldlFrom; rotate_left; intro s a; rotate_right)
    | with_reducible apply Keeps.after (State.install_keeps ..)
    | with_reducible apply Keeps.after (State.vread_keeps ..)
    | with_reducible refine Keeps.mk ?_

theorem Cell.load_keeps {c : Cell} {part : Option Nat} {img : CellImage} {credits : List Nat} {lc be : List Nat}  :
    Cell.Keeps c (Cell.load c part img credits lc be) := by
  unfold Cell.load
  repeat' first
    | ((with_reducible refine Cell.Keeps.of ?_ ?_) <;> (simp; done))
    | split

theorem State.dropBlocks_keeps {s : State} {cs : List Cell}  :
    Keeps s (State.dropBlocks s cs) := by
  unfold State.dropBlocks
  repeat' first
    | with_reducible apply Keeps.refl
    | (with_reducible apply Keeps.foldlFrom; rotate_left; intro s a; rotate_right)
    | with_reducible apply Keeps.after (State.unqueue_keeps ..)

theorem State.applyCells_keeps {s : State} {x : Staged} : Keeps s (State.applyCells s x) := by
  unfold State.applyCells
  lift_lets -underBinder
  intro staged image depth inScope gs t
  have ht : Keeps s t := State.dropBlocks_keeps
  clear_value t
  refine Keeps.mk ht (hc := canon_map fun c => ?_)
  split
  · exact Cell.Keeps.refl _
  · exact Cell.load_keeps

theorem State.applyRegulators_keeps {s : State} {x : Staged}  :
    Keeps s (State.applyRegulators s x) := by
  unfold State.applyRegulators
  repeat' first
    | with_reducible apply Keeps.refl
    | ((try lift_lets -underBinder); intro x; clear_value x)
    | (with_reducible apply Keeps.foldlFrom; rotate_left; intro s a; rotate_right)
    | with_reducible apply Keeps.after (State.modStack_keeps ..)

theorem State.applySources_keeps {s : State} {x : Staged}  :
    Keeps s (State.applySources s x) := by
  unfold State.applySources
  repeat' first
    | with_reducible apply Keeps.refl
    | with_reducible assumption
    | ((try lift_lets -underBinder); intro x; first
        | (refine Keeps.cut (s := s) x ?_ (fun hx => ?_); dsimp -zeta only [x]; rotate_left; clear_value x; rotate_right)
        | clear_value x)
    | with_reducible apply Keeps.after (State.modImage_keeps ..)
    | with_reducible refine Keeps.mk ?_

theorem State.applyPair_keeps {s : State} {pair : Option (Bool × Nat × Nat)}  :
    Keeps s (State.applyPair s pair) := by
  unfold State.applyPair
  repeat' first
    | with_reducible apply Keeps.refl
    | split
    | with_reducible apply Keeps.after (State.modHrv_keeps ..)

theorem State.reopen_keeps {s : State} {p : Nat}  :
    Keeps s (State.reopen s p) := by
  unfold State.reopen
  repeat' first
    | with_reducible apply Keeps.refl
    | ((try lift_lets -underBinder); intro x; clear_value x)
    | with_reducible apply Keeps.after (State.modPart_keeps ..)

theorem State.applyParts_keeps {s : State} {x : Staged}  :
    Keeps s (State.applyParts s x) := by
  unfold State.applyParts
  repeat' first
    | with_reducible apply Keeps.refl
    | with_reducible assumption
    | ((try lift_lets -underBinder); intro x; (refine Keeps.cut (s := s) x ?_ (fun hx => ?_); dsimp -zeta only [x]; rotate_left; clear_value x; rotate_right))
    | with_reducible apply Keeps.ite
    | split
    | (with_reducible apply Keeps.foldlFrom; rotate_left; intro s a; rotate_right)
    | with_reducible apply Keeps.after (State.modPart_keeps ..)

theorem State.applyData_keeps {s : State} {x : Staged}  :
    Keeps s (State.applyData s x) := by
  unfold State.applyData
  repeat' first
    | with_reducible apply Keeps.refl
    | with_reducible assumption
    | ((try lift_lets -underBinder); intro x; first
        | (refine Keeps.cut (s := s) x ?_ (fun hx => ?_); dsimp -zeta only [x]; rotate_left; clear_value x; rotate_right)
        | clear_value x)
    | with_reducible apply Keeps.ite
    | split
    | (with_reducible apply Keeps.foldlFrom; rotate_left; intro s a; rotate_right)
    | with_reducible apply Keeps.after (State.areaUnmark_keeps ..)
    | with_reducible apply Keeps.after (State.areaWrite_keeps ..)
    | with_reducible apply Keeps.after (State.vwrite_keeps ..)
    | with_reducible refine Keeps.mk ?_

theorem State.applyMeasure_keeps {s : State} {x : Staged}  :
    Keeps s (State.applyMeasure s x) := by
  unfold State.applyMeasure
  repeat' first
    | with_reducible apply Keeps.refl
    | split
    | with_reducible apply Keeps.after (State.modImage_keeps ..)

theorem State.applyImage_keeps {s : State} {x : Staged}  :
    Keeps s (State.applyImage s x) := by
  unfold State.applyImage
  repeat' first
    | with_reducible apply Keeps.refl
    | with_reducible assumption
    | ((try lift_lets -underBinder); intro x; first
        | (refine Keeps.cut (s := s) x ?_ (fun hx => ?_); dsimp -zeta only [x]; rotate_left; clear_value x; rotate_right)
        | clear_value x)
    | with_reducible apply Keeps.ite
    | (with_reducible apply Keeps.foldlFrom; rotate_left; intro s a; rotate_right)
    | with_reducible apply Keeps.after (State.applyMeasure_keeps ..)
    | with_reducible apply Keeps.after (State.applyData_keeps ..)
    | with_reducible apply Keeps.after (State.applyParts_keeps ..)
    | with_reducible apply Keeps.after (State.applyPair_keeps ..)
    | with_reducible apply Keeps.after (State.applySources_keeps ..)
    | with_reducible apply Keeps.after (State.applyRegulators_keeps ..)
    | with_reducible apply Keeps.after (State.applyCells_keeps ..)
    | with_reducible apply Keeps.after (State.applyContexts_keeps ..)
    | with_reducible apply Keeps.after (State.applyTables_keeps ..)
    | with_reducible apply Keeps.after (State.applyFrames_keeps ..)
    | with_reducible apply Keeps.after (State.dropEpochs_keeps ..)
    | with_reducible apply Keeps.after (State.modImage_keeps ..)
    | with_reducible apply Keeps.after (State.modXlt_keeps ..)
    | with_reducible refine Keeps.mk ?_

theorem State.applyDone_keeps {s : State}  :
    Keeps s (State.applyDone s) := by
  unfold State.applyDone
  repeat' first
    | with_reducible apply Keeps.refl
    | with_reducible assumption
    | ((try lift_lets -underBinder); intro x; (refine Keeps.cut (s := s) x ?_ (fun hx => ?_); dsimp -zeta only [x]; rotate_left; clear_value x; rotate_right))
    | with_reducible apply Keeps.ite
    | split
    | (with_reducible apply Keeps.foldlFrom; rotate_left; intro s a; rotate_right)
    | with_reducible apply Keeps.after (State.applyImage_keeps ..)
    | with_reducible apply Keeps.after (State.reopen_keeps ..)
    | with_reducible apply Keeps.after (State.releaseHeld_keeps ..)
    | with_reducible apply Keeps.after (State.modImage_keeps ..)
    | with_reducible apply Keeps.after (State.modPart_keeps ..)

theorem execApplyDone_keeps {s : State}  :
    KeepsO s (execApplyDone s) := by
  unfold execApplyDone
  repeat' first
    | with_reducible apply Keeps.refl
    | with_reducible apply KeepsO.next
    | with_reducible apply Keeps.after (State.applyDone_keeps ..)

end Sys2Proof.Machine
end

