-- ==== Sys2Proof/Laws/KeepsDrain.lean ====
section
/-! SUPPORT. What every operation of Machine/Drain.lean keeps. -/
set_option linter.all false
set_option Elab.async false
namespace Sys2Proof.Machine

theorem State.drainCell_keeps {s : State} {i : Nat}  :
    Keeps s (State.drainCell s i) := by
  unfold State.drainCell
  repeat' first
    | with_reducible apply Keeps.refl
    | ((with_reducible refine Cell.Keeps.of ?_ ?_) <;> (simp; done))
    | ((try lift_lets -underBinder); intro x; clear_value x)
    | with_reducible apply Cell.Keeps.ite
    | with_reducible apply Keeps.after (State.modCell_keeps (h := ?_) ..)
    | intro c

theorem State.drain_keeps {s : State} {t : Target}  :
    Keeps s (State.drain s t) := by
  unfold State.drain
  repeat' first
    | with_reducible apply Keeps.refl
    | with_reducible assumption
    | ((try lift_lets -underBinder); intro x; first
        | (refine Keeps.cut (s := s) x ?_ (fun hx => ?_); dsimp -zeta only [x]; rotate_left; clear_value x; rotate_right)
        | (have hP : Prop := x; clear hP))
    | with_reducible apply Keeps.ite
    | split
    | (with_reducible apply Keeps.foldlFrom; rotate_left; intro s a; rotate_right)
    | with_reducible apply Keeps.after (State.drainCell_keeps ..)
    | with_reducible apply Keeps.after (State.closePart_keeps ..)
    | with_reducible apply Keeps.after (State.finishDrain_keeps ..)
    | with_reducible apply Keeps.after (State.dropBatches_keeps ..)
    | with_reducible apply Keeps.after (State.hrvSend_keeps ..)
    | with_reducible apply Keeps.after (State.modHealth_keeps ..)

theorem execDrainCommand_keeps {target : Target} {s : State}  :
    KeepsO s (execDrainCommand target s) := by
  unfold execDrainCommand
  repeat' first
    | with_reducible apply Keeps.refl
    | with_reducible apply KeepsO.next
    | with_reducible apply Keeps.after (State.drain_keeps ..)

theorem Cell.undrain_keeps {c : Cell}  :
    Cell.Keeps c (Cell.undrain c) := by
  unfold Cell.undrain
  repeat' first
    | ((with_reducible refine Cell.Keeps.of ?_ ?_) <;> (simp; done))

theorem State.undrainPart_keeps {s : State} {p : Nat}  :
    Keeps s (State.undrainPart s p) := by
  unfold State.undrainPart
  repeat' first
    | with_reducible apply Keeps.refl
    | with_reducible apply Keeps.after (State.reopen_keeps ..)
    | with_reducible apply Keeps.after (State.modPart_keeps ..)

theorem State.undrain_keeps {s : State} {t : Target}  :
    Keeps s (State.undrain s t) := by
  unfold State.undrain
  repeat' first
    | with_reducible apply Keeps.refl
    | with_reducible assumption
    | ((with_reducible refine Cell.Keeps.of ?_ ?_) <;> (simp; done))
    | ((try lift_lets -underBinder); intro x; (refine Keeps.cut (s := s) x ?_ (fun hx => ?_); dsimp -zeta only [x]; rotate_left; clear_value x; rotate_right))
    | split
    | (with_reducible apply Keeps.foldlFrom; rotate_left; intro s a; rotate_right)
    | with_reducible apply Keeps.after (State.undrainPart_keeps ..)
    | with_reducible apply Cell.Keeps.after (Cell.undrain_keeps ..)
    | with_reducible apply Keeps.after (State.modHealth_keeps ..)
    | with_reducible apply Keeps.after (State.modCell_keeps (h := ?_) ..)
    | intro c
    | with_reducible refine Keeps.mk ?_ (hc := canon_map fun c => ?_)

theorem execReturnToService_keeps {target : Target} {s : State}  :
    KeepsO s (execReturnToService target s) := by
  unfold execReturnToService
  repeat' first
    | with_reducible apply Keeps.refl
    | with_reducible apply KeepsO.next
    | with_reducible apply Keeps.after (State.undrain_keeps ..)

end Sys2Proof.Machine
end

