-- ==== Sys2Proof/Laws/KeepsHost.lean ====
section
/-! SUPPORT. What every operation of Machine/Host.lean keeps. -/
set_option linter.all false
set_option Elab.async false
namespace Sys2Proof.Machine

theorem State.useFn_keeps {s : State} {fn : Nat}  :
    Keeps s (State.useFn s fn) := by
  unfold State.useFn
  repeat' first
    | with_reducible apply Keeps.refl
    | with_reducible apply Keeps.ite
    | with_reducible apply Keeps.after (State.modHif_keeps ..)

theorem State.bar2Fetch_keeps {s : State} {fn a n : Nat}  :
    Keeps s (State.bar2Fetch s fn a n).2 := by
  unfold State.bar2Fetch
  repeat' first
    | with_reducible apply Keeps.refl
    | split
    | (with_reducible apply Keeps.foldlPair; rotate_left; rintro ⟨d, s⟩ a; rotate_right)
    | with_reducible apply Keeps.after (State.devRead_keeps ..)
    | (with_reducible apply Keeps.of_pair; with_reducible assumption)

theorem State.bar2Count_keeps {s : State} {fn a n : Nat}  :
    Keeps s (State.bar2Count s fn a n) := by
  unfold State.bar2Count
  repeat' first
    | with_reducible apply Keeps.refl
    | with_reducible apply Keeps.ite
    | with_reducible apply Keeps.after (State.modHif_keeps ..)

theorem State.setBuf_keeps {s : State} {fn : Nat} {l : List RbEntry}  :
    Keeps s (State.setBuf s fn l) := by
  unfold State.setBuf
  repeat' first
    | with_reducible apply Keeps.refl
    | split
    | with_reducible apply Keeps.after (State.modHif_keeps ..)

theorem State.bar2Fill_keeps {s : State} {fn b : Nat}  :
    Keeps s (State.bar2Fill s fn b) := by
  unfold State.bar2Fill
  repeat' first
    | with_reducible apply Keeps.refl
    | ((try lift_lets -underBinder); intro x; clear_value x)
    | split
    | with_reducible apply Keeps.after (State.setBuf_keeps ..)
    | with_reducible apply Keeps.after (State.bar2Fetch_keeps ..)
    | (with_reducible apply Keeps.of_pair; with_reducible assumption)

theorem State.bar2Block_keeps {s : State} {fn b o n : Nat}  :
    Keeps s (State.bar2Block s fn b o n).2 := by
  unfold State.bar2Block
  repeat' first
    | with_reducible apply Keeps.refl
    | with_reducible assumption
    | ((try lift_lets -underBinder); intro x; first
        | (refine Keeps.cut (s := s) x ?_ (fun hx => ?_); dsimp -zeta only [x]; rotate_left; clear_value x; rotate_right)
        | clear_value x)
    | split
    | with_reducible apply Keeps.after (State.bar2Fill_keeps ..)
    | with_reducible apply Keeps.after (State.setBuf_keeps ..)

theorem State.bar2Read_keeps {s : State} {fn a n : Nat}  :
    Keeps s (State.bar2Read s fn a n) := by
  unfold State.bar2Read
  repeat' first
    | with_reducible apply Keeps.refl
    | with_reducible assumption
    | ((try lift_lets -underBinder); intro x; (refine Keeps.cut (s := s) x ?_ (fun hx => ?_); dsimp -zeta only [x]; rotate_left; clear_value x; rotate_right))
    | split
    | (with_reducible apply Keeps.foldlPair; rotate_left; rintro ⟨d, s⟩ a; rotate_right)
    | with_reducible apply Keeps.after (State.bar2Block_keeps ..)
    | with_reducible apply Keeps.after (State.bar2Count_keeps ..)
    | with_reducible apply Keeps.after (State.useFn_keeps ..)
    | with_reducible apply Keeps.after (State.modHif_keeps ..)
    | (with_reducible apply Keeps.of_pair; with_reducible assumption)

theorem execBar2Read_keeps {fn addr len : Nat} {s : State}  :
    KeepsO s (execBar2Read fn addr len s) := by
  unfold execBar2Read
  repeat' first
    | with_reducible apply Keeps.refl
    | with_reducible apply KeepsO.next
    | with_reducible apply Keeps.after (State.bar2Read_keeps ..)

theorem State.bar2Write_keeps {s : State} {fn a : Nat} {data : Bytes} {poisoned : Bool}  :
    Keeps s (State.bar2Write s fn a data poisoned) := by
  unfold State.bar2Write
  repeat' first
    | with_reducible apply Keeps.refl
    | with_reducible assumption
    | ((try lift_lets -underBinder); intro x; first
        | (refine Keeps.cut (s := s) x ?_ (fun hx => ?_); dsimp -zeta only [x]; rotate_left; clear_value x; rotate_right)
        | clear_value x)
    | with_reducible apply Keeps.ite
    | split
    | (with_reducible apply Keeps.foldlFrom; rotate_left; intro s a; rotate_right)
    | with_reducible apply Keeps.after (State.setBuf_keeps ..)
    | with_reducible apply Keeps.after (State.bar2Count_keeps ..)
    | with_reducible apply Keeps.after (State.useFn_keeps ..)
    | with_reducible apply Keeps.after (State.mirrorWrite_keeps ..)
    | with_reducible apply Keeps.after (State.windowWrite_keeps ..)
    | with_reducible apply Keeps.after (State.devWrite_keeps ..)

theorem execBar2Write_keeps {fn addr : Nat} {data : Bytes} {s : State}  :
    KeepsO s (execBar2Write fn addr data s) := by
  unfold execBar2Write
  repeat' first
    | with_reducible apply Keeps.refl
    | with_reducible apply KeepsO.next
    | with_reducible apply Keeps.after (State.bar2Write_keeps ..)

theorem State.partFlush_keeps {s : State} {fn p : Nat}  :
    Keeps s (State.partFlush s fn p) := by
  unfold State.partFlush
  repeat' first
    | with_reducible apply Keeps.refl
    | with_reducible assumption
    | ((try lift_lets -underBinder); intro x; (refine Keeps.cut (s := s) x ?_ (fun hx => ?_); dsimp -zeta only [x]; rotate_left; clear_value x; rotate_right))
    | with_reducible apply Keeps.ite
    | with_reducible apply Keeps.after (State.setBuf_keeps ..)
    | with_reducible apply Keeps.after (State.useFn_keeps ..)
    | with_reducible apply Keeps.after (State.answerRead_keeps ..)
    | with_reducible apply Keeps.after (State.drainAll_keeps ..)

theorem execPartFlush_keeps {fn p : Nat} {s : State}  :
    KeepsO s (execPartFlush fn p s) := by
  unfold execPartFlush
  repeat' first
    | with_reducible apply Keeps.refl
    | with_reducible apply KeepsO.next
    | with_reducible apply Keeps.after (State.partFlush_keeps ..)

theorem execSnoop_keeps {addr : Nat} {data : Bytes} {s : State}  :
    KeepsO s (execSnoop addr data s) := by
  unfold execSnoop
  repeat' first
    | with_reducible apply Keeps.refl
    | with_reducible apply KeepsO.next
    | with_reducible apply Keeps.after (State.hostStore_keeps ..)

theorem State.modMbx_keeps {s : State} {k : Nat} {f : MbxSlot → MbxSlot}  :
    Keeps s (State.modMbx s k f) := by
  unfold State.modMbx
  repeat' first
    | with_reducible apply Keeps.refl
    | with_reducible apply Keeps.after (State.modHif_keeps ..)

theorem State.mbxSlotWrite_keeps {s : State} {fn off : Nat} {data : Bytes}  :
    Keeps s (State.mbxSlotWrite s fn off data) := by
  unfold State.mbxSlotWrite
  repeat' first
    | with_reducible apply Keeps.refl
    | ((try lift_lets -underBinder); intro x; clear_value x)
    | with_reducible apply Keeps.ite
    | (with_reducible apply Keeps.foldlFrom; rotate_left; intro s a; rotate_right)
    | with_reducible apply Keeps.after (State.modMbx_keeps ..)
    | with_reducible apply Keeps.after (State.useFn_keeps ..)

theorem execMbxSlotWrite_keeps {fn off : Nat} {data : Bytes} {s : State}  :
    KeepsO s (execMbxSlotWrite fn off data s) := by
  unfold execMbxSlotWrite
  repeat' first
    | with_reducible apply Keeps.refl
    | with_reducible apply KeepsO.next
    | with_reducible apply Keeps.after (State.mbxSlotWrite_keeps ..)

theorem State.doorbell_keeps {s : State} {fn k : Nat}  :
    Keeps s (State.doorbell s fn k) := by
  unfold State.doorbell
  repeat' first
    | with_reducible apply Keeps.refl
    | with_reducible assumption
    | ((try lift_lets -underBinder); intro x; first
        | (refine Keeps.cut (s := s) x ?_ (fun hx => ?_); dsimp -zeta only [x]; rotate_left; clear_value x; rotate_right)
        | clear_value x)
    | with_reducible apply Keeps.ite
    | with_reducible apply Keeps.after (State.modMbx_keeps ..)
    | with_reducible apply Keeps.after (State.modHif_keeps ..)
    | with_reducible apply Keeps.after (State.modPart_keeps ..)

theorem State.mbxDoorbell_keeps {s : State} {fn off : Nat} {data : Bytes}  :
    Keeps s (State.mbxDoorbell s fn off data) := by
  unfold State.mbxDoorbell
  repeat' first
    | with_reducible apply Keeps.refl
    | with_reducible assumption
    | ((try lift_lets -underBinder); intro x; (refine Keeps.cut (s := s) x ?_ (fun hx => ?_); dsimp -zeta only [x]; rotate_left; clear_value x; rotate_right))
    | with_reducible apply Keeps.ite
    | with_reducible apply Keeps.after (State.doorbell_keeps ..)
    | with_reducible apply Keeps.after (State.useFn_keeps ..)
    | with_reducible apply Keeps.after (State.modHif_keeps ..)

theorem execMbxDoorbell_keeps {fn off : Nat} {data : Bytes} {s : State}  :
    KeepsO s (execMbxDoorbell fn off data s) := by
  unfold execMbxDoorbell
  repeat' first
    | with_reducible apply Keeps.refl
    | with_reducible apply KeepsO.next
    | with_reducible apply Keeps.after (State.mbxDoorbell_keeps ..)

theorem State.mbxSubmit_keeps {s : State} {k : Nat}  :
    Keeps s (State.mbxSubmit s k) := by
  unfold State.mbxSubmit
  repeat' first
    | with_reducible apply Keeps.refl
    | with_reducible apply Keeps.ite
    | split
    | with_reducible apply Keeps.after (State.modMbx_keeps ..)
    | with_reducible apply Keeps.after (State.admitClass_keeps ..)

theorem execMbxSubmit_keeps {slot : Nat} {s : State}  :
    KeepsO s (execMbxSubmit slot s) := by
  unfold execMbxSubmit
  repeat' first
    | with_reducible apply Keeps.refl
    | with_reducible apply KeepsO.next
    | with_reducible apply Keeps.after (State.mbxSubmit_keeps ..)

theorem State.sendReply_keeps {s : State} {k p : Nat} {b : Bytes}  :
    Keeps s (State.sendReply s k p b) := by
  unfold State.sendReply
  repeat' first
    | with_reducible apply Keeps.refl
    | with_reducible assumption
    | ((try lift_lets -underBinder); intro x; first
        | (refine Keeps.cut (s := s) x ?_ (fun hx => ?_); dsimp -zeta only [x]; rotate_left; clear_value x; rotate_right)
        | clear_value x)
    | with_reducible apply Keeps.ite
    | with_reducible apply Keeps.after (State.modMbx_keeps ..)
    | with_reducible apply Keeps.after (State.raise_keeps ..)
    | with_reducible apply Keeps.after (State.hostWrite_keeps ..)

theorem State.mbxEcho_keeps {s : State} {k : Nat}  :
    Keeps s (State.mbxEcho s k) := by
  unfold State.mbxEcho
  repeat' first
    | with_reducible apply Keeps.refl
    | ((try lift_lets -underBinder); intro x; clear_value x)
    | with_reducible apply Keeps.ite
    | with_reducible apply Keeps.after (State.sendReply_keeps ..)

theorem execMbxEcho_keeps {slot : Nat} {s : State}  :
    KeepsO s (execMbxEcho slot s) := by
  unfold execMbxEcho
  repeat' first
    | with_reducible apply Keeps.refl
    | with_reducible apply KeepsO.next
    | with_reducible apply Keeps.after (State.mbxEcho_keeps ..)

theorem execMbxBadOp_keeps {slot : Nat} {s : State}  :
    KeepsO s (execMbxBadOp slot s) := by
  unfold execMbxBadOp
  repeat' first
    | with_reducible apply Keeps.refl
    | ((try lift_lets -underBinder); intro x; clear_value x)
    | with_reducible apply KeepsO.next
    | with_reducible apply Keeps.ite
    | with_reducible apply Keeps.after (State.sendReply_keeps ..)

theorem State.mailboxReply_keeps {s : State} {k : Nat}  :
    Keeps s (State.mailboxReply s k) := by
  unfold State.mailboxReply
  repeat' first
    | with_reducible apply Keeps.refl
    | with_reducible assumption
    | ((try lift_lets -underBinder); intro x; first
        | (refine Keeps.cut (s := s) x ?_ (fun hx => ?_); dsimp -zeta only [x]; rotate_left; clear_value x; rotate_right)
        | clear_value x)
    | with_reducible apply Keeps.ite
    | with_reducible apply Keeps.ite2
    | split
    | with_reducible apply Keeps.after (State.sendReply_keeps ..)
    | with_reducible apply Keeps.after (State.leave_keeps ..)
    | with_reducible apply Keeps.after (State.vread_keeps ..)
    | (with_reducible apply Keeps.of_pair; with_reducible assumption)

theorem execMailboxReply_keeps {slot : Nat} {s : State}  :
    KeepsO s (execMailboxReply slot s) := by
  unfold execMailboxReply
  repeat' first
    | with_reducible apply Keeps.refl
    | with_reducible apply KeepsO.next
    | with_reducible apply Keeps.after (State.mailboxReply_keeps ..)

end Sys2Proof.Machine
end

