-- ==== Sys2Proof/Laws/KeepsRemote.lean ====
section
/-! SUPPORT. What every operation of Machine/Remote.lean keeps. -/
set_option linter.all false
set_option Elab.async false
namespace Sys2Proof.Machine

theorem State.request_keeps {s : State} {i p op : Nat} {w : StepWord}  :
    Keeps s (State.request s i p op w) := by
  unfold State.request
  repeat' first
    | with_reducible apply Keeps.refl
    | with_reducible assumption
    | ((try lift_lets -underBinder); intro x; first
        | (refine Keeps.cut (s := s) x ?_ (fun hx => ?_); dsimp -zeta only [x]; rotate_left; clear_value x; rotate_right)
        | clear_value x)
    | split
    | with_reducible apply Keeps.after (State.holdTile_keeps ..)
    | with_reducible apply Keeps.after (State.openAsync_keeps ..)
    | with_reducible apply Keeps.after (State.newId_keeps ..)
    | with_reducible apply Keeps.after (State.modDie_keeps ..)
    | (with_reducible apply Keeps.of_pair; with_reducible assumption)

theorem execGath_keeps {g : Nat} {w : StepWord} {s : State}  :
    KeepsO s (execGath g w s) := by
  unfold execGath
  repeat' first
    | with_reducible apply Keeps.refl
    | with_reducible apply KeepsO.next
    | with_reducible apply Keeps.after (State.request_keeps ..)
    | with_reducible apply Keeps.after (State.issue_keeps (h_f := fun x0 x1 s => ?_) ..)

theorem execRadd_keeps {g : Nat} {w : StepWord} {s : State}  :
    KeepsO s (execRadd g w s) := by
  unfold execRadd
  repeat' first
    | with_reducible apply Keeps.refl
    | with_reducible apply KeepsO.next
    | with_reducible apply Keeps.after (State.request_keeps ..)
    | with_reducible apply Keeps.after (State.issue_keeps (h_f := fun x0 x1 s => ?_) ..)

theorem execRwr_keeps {g : Nat} {w : StepWord} {s : State}  :
    KeepsO s (execRwr g w s) := by
  unfold execRwr
  repeat' first
    | with_reducible apply Keeps.refl
    | with_reducible apply KeepsO.next
    | with_reducible apply Keeps.after (State.request_keeps ..)
    | with_reducible apply Keeps.after (State.issue_keeps (h_f := fun x0 x1 s => ?_) ..)

theorem State.rstore_keeps {s : State} {i p : Nat} {w : StepWord}  :
    Keeps s (State.rstore s i p w) := by
  unfold State.rstore
  repeat' first
    | with_reducible apply Keeps.refl
    | with_reducible assumption
    | ((with_reducible refine Cell.Keeps.of ?_ ?_) <;> (simp; done))
    | ((try lift_lets -underBinder); intro x; first
        | (refine Keeps.cut (s := s) x ?_ (fun hx => ?_); dsimp -zeta only [x]; rotate_left; clear_value x; rotate_right)
        | clear_value x)
    | with_reducible apply Keeps.ite
    | split
    | (with_reducible apply Keeps.foldlFrom; rotate_left; intro s a; rotate_right)
    | with_reducible apply Keeps.after (State.writePieces_keeps ..)
    | with_reducible apply Keeps.after (State.xltFault_keeps ..)
    | with_reducible apply Keeps.after (State.portBytes_keeps ..)
    | with_reducible apply Keeps.after (State.complete_keeps ..)
    | with_reducible apply Keeps.after (State.cellFault_keeps ..)
    | with_reducible apply Keeps.after (State.wordRead_keeps ..)
    | with_reducible apply Keeps.after (State.countXltFault_keeps ..)
    | with_reducible apply Keeps.after (State.drainStack_keeps ..)
    | with_reducible apply Keeps.after (State.modCell_keeps (h := ?_) ..)
    | (with_reducible apply Keeps.of_pair; with_reducible assumption)
    | intro c

theorem execRstore_keeps {g : Nat} {w : StepWord} {s : State}  :
    KeepsO s (execRstore g w s) := by
  unfold execRstore
  repeat' first
    | with_reducible apply Keeps.refl
    | with_reducible apply KeepsO.next
    | with_reducible apply Keeps.after (State.rstore_keeps ..)
    | with_reducible apply Keeps.after (State.issue_keeps (h_f := fun x0 x1 s => ?_) ..)

theorem State.hostStep_keeps {s : State} {i kind : Nat} {w : StepWord}  :
    Keeps s (State.hostStep s i kind w) := by
  unfold State.hostStep
  repeat' first
    | with_reducible apply Keeps.refl
    | ((try lift_lets -underBinder); intro x; clear_value x)
    | with_reducible apply Keeps.ite
    | split
    | with_reducible apply Keeps.after (State.openAsync_keeps ..)
    | with_reducible apply Keeps.after (State.complete_keeps ..)
    | with_reducible apply Keeps.after (State.cellFault_keeps ..)
    | with_reducible apply Keeps.after (State.newId_keeps ..)
    | (with_reducible apply Keeps.of_pair; with_reducible assumption)

theorem execHld_keeps {g : Nat} {w : StepWord} {s : State}  :
    KeepsO s (execHld g w s) := by
  unfold execHld
  repeat' first
    | with_reducible apply Keeps.refl
    | with_reducible apply KeepsO.next
    | with_reducible apply Keeps.after (State.hostStep_keeps ..)
    | with_reducible apply Keeps.after (State.issue_keeps (h_f := fun x0 x1 s => ?_) ..)

theorem execHst_keeps {g : Nat} {w : StepWord} {s : State}  :
    KeepsO s (execHst g w s) := by
  unfold execHst
  repeat' first
    | with_reducible apply Keeps.refl
    | with_reducible apply KeepsO.next
    | with_reducible apply Keeps.after (State.hostStep_keeps ..)
    | with_reducible apply Keeps.after (State.issue_keeps (h_f := fun x0 x1 s => ?_) ..)

theorem State.endTransfer_keeps {s : State} {i status : Nat} {o : AsyncOp}  :
    Keeps s (State.endTransfer s i status o) := by
  unfold State.endTransfer
  repeat' first
    | with_reducible apply Keeps.refl
    | with_reducible assumption
    | ((try lift_lets -underBinder); intro x; first
        | (refine Keeps.cut (s := s) x ?_ (fun hx => ?_); dsimp -zeta only [x]; rotate_left; clear_value x; rotate_right)
        | clear_value x)
    | with_reducible apply Keeps.ite
    | (with_reducible apply Keeps.foldlFrom; rotate_left; intro s a; rotate_right)
    | with_reducible apply Keeps.after (State.closeAsync_keeps ..)
    | with_reducible apply Keeps.after (State.complete_keeps ..)
    | with_reducible apply Keeps.after (State.hostStore_keeps ..)
    | with_reducible apply Keeps.after (State.hostRead_keeps ..)
    | with_reducible apply Keeps.after (State.scratchWrite_keeps ..)
    | with_reducible apply Keeps.after (State.drawBytes_keeps ..)
    | with_reducible apply Keeps.after (State.draw_keeps ..)

theorem State.transferDone_keeps {s : State} {g status : Nat}  :
    Keeps s (State.transferDone s g status) := by
  unfold State.transferDone
  repeat' first
    | with_reducible apply Keeps.refl
    | with_reducible apply Keeps.ite
    | split
    | with_reducible apply Keeps.after (State.endTransfer_keeps ..)
    | with_reducible apply Keeps.after (State.wake_keeps ..)

theorem execHostTransferDone_keeps {g status : Nat} {s : State}  :
    KeepsO s (execHostTransferDone g status s) := by
  unfold execHostTransferDone
  repeat' first
    | with_reducible apply Keeps.refl
    | with_reducible apply KeepsO.next
    | with_reducible apply Keeps.after (State.transferDone_keeps ..)

theorem execCompletionTimeout_keeps {g : Nat} {s : State}  :
    KeepsO s (execCompletionTimeout g s) := by
  unfold execCompletionTimeout
  repeat' first
    | with_reducible apply Keeps.refl
    | with_reducible apply KeepsO.next
    | with_reducible apply Keeps.ite
    | split
    | with_reducible apply Keeps.after (State.transferDone_keeps ..)
    | with_reducible apply Keeps.after (State.modHif_keeps ..)

end Sys2Proof.Machine
end

