-- ==== Sys2Proof/Laws/KeepsLink.lean ====
section
/-! SUPPORT. What every operation of Machine/Link.lean keeps. -/
set_option linter.all false
set_option Elab.async false
namespace Sys2Proof.Machine

theorem State.eachCe_keeps {s : State} {f : State → Nat → State} (h_f : ∀ t y0, Keeps t (f t y0)) :
    Keeps s (State.eachCe s f) := by
  unfold State.eachCe
  repeat' first
    | with_reducible apply Keeps.refl
    | (with_reducible apply Keeps.foldlFrom; rotate_left; intro s a; rotate_right)
    | with_reducible apply Keeps.after (h_f ..)

theorem State.linkRecovery_keeps {s : State}  :
    Keeps s (State.linkRecovery s) := by
  unfold State.linkRecovery
  repeat' first
    | with_reducible apply Keeps.refl
    | with_reducible apply Keeps.ite
    | with_reducible apply Keeps.after (State.raise_keeps ..)
    | with_reducible apply Keeps.after (State.modHif_keeps ..)

theorem execLinkRecovery_keeps {s : State}  :
    KeepsO s (execLinkRecovery s) := by
  unfold execLinkRecovery
  repeat' first
    | with_reducible apply Keeps.refl
    | with_reducible apply KeepsO.next
    | with_reducible apply Keeps.after (State.linkRecovery_keeps ..)

theorem State.linkReport_keeps {s : State} {sub : Nat}  :
    Keeps s (State.linkReport s sub) := by
  unfold State.linkReport
  repeat' first
    | with_reducible apply Keeps.refl
    | with_reducible apply Keeps.after (State.report_keeps ..)

theorem State.loseTransfers_keeps {s : State} {p : Cell → Bool}  :
    Keeps s (State.loseTransfers s p) := by
  unfold State.loseTransfers
  repeat' first
    | with_reducible apply Keeps.refl
    | ((try lift_lets -underBinder); intro x; clear_value x)
    | with_reducible apply Keeps.ite
    | (with_reducible apply Keeps.foldlFrom; rotate_left; intro s a; rotate_right)
    | with_reducible apply Keeps.after (State.endTransfer_keeps ..)
    | with_reducible apply Keeps.after (State.wake_keeps ..)
    | with_reducible apply Keeps.after (State.eachCell_keeps (h_f := fun s y0 => ?_) ..)

theorem State.dropLink_keeps {s : State}  :
    Keeps s (State.dropLink s) := by
  unfold State.dropLink
  repeat' first
    | with_reducible apply Keeps.refl
    | with_reducible apply Keeps.after (State.loseTransfers_keeps ..)
    | with_reducible apply Keeps.after (State.modHif_keeps ..)

theorem State.linkDown_keeps {s : State}  :
    Keeps s (State.linkDown s) := by
  unfold State.linkDown
  repeat' first
    | with_reducible apply Keeps.refl
    | with_reducible apply Keeps.ite
    | with_reducible apply Keeps.after (State.dropLink_keeps ..)
    | with_reducible apply Keeps.after (State.linkReport_keeps ..)
    | with_reducible apply Keeps.after (State.eachCe_keeps (h_f := fun s y0 => ?_) ..)
    | with_reducible apply Keeps.after (State.ceLinkDown_keeps ..)
    | with_reducible apply Keeps.after (State.modHif_keeps ..)

theorem execLinkDown_keeps {s : State}  :
    KeepsO s (execLinkDown s) := by
  unfold execLinkDown
  repeat' first
    | with_reducible apply Keeps.refl
    | with_reducible apply KeepsO.next
    | with_reducible apply Keeps.after (State.linkDown_keeps ..)

theorem State.linkUp_keeps {s : State} {rate width : Nat} {cxl : Bool}  :
    Keeps s (State.linkUp s rate width cxl) := by
  unfold State.linkUp
  repeat' first
    | with_reducible apply Keeps.refl
    | with_reducible assumption
    | ((try lift_lets -underBinder); intro x; first
        | (refine Keeps.cut (s := s) x ?_ (fun hx => ?_); dsimp -zeta only [x]; rotate_left; clear_value x; rotate_right)
        | clear_value x)
    | with_reducible apply Keeps.ite
    | (with_reducible apply Keeps.foldlFrom; rotate_left; intro s a; rotate_right)
    | with_reducible apply Keeps.after (State.eachCe_keeps (h_f := fun s y0 => ?_) ..)
    | with_reducible apply Keeps.after (State.ceLinkUp_keeps ..)
    | with_reducible apply Keeps.after (State.flushRing_keeps ..)
    | with_reducible apply Keeps.after (State.raise_keeps ..)
    | with_reducible apply Keeps.after (State.modHif_keeps ..)

theorem execLinkUp_keeps {rate width : Nat} {cxl : Bool} {s : State}  :
    KeepsO s (execLinkUp rate width cxl s) := by
  unfold execLinkUp
  repeat' first
    | with_reducible apply Keeps.refl
    | with_reducible apply KeepsO.next
    | with_reducible apply Keeps.after (State.linkUp_keeps ..)

theorem State.resetRings_keeps {s : State} {p : Nat}  :
    Keeps s (State.resetRings s p) := by
  unfold State.resetRings
  repeat' first
    | with_reducible apply Keeps.refl
    | with_reducible apply Keeps.after (State.resetRegs_keeps ..)
    | with_reducible apply Keeps.after (State.modPart_keeps ..)

theorem State.hostReset_keeps {s : State}  :
    Keeps s (State.hostReset s) := by
  unfold State.hostReset
  repeat' first
    | with_reducible apply Keeps.refl
    | with_reducible assumption
    | ((try lift_lets -underBinder); intro x; (refine Keeps.cut (s := s) x ?_ (fun hx => ?_); dsimp -zeta only [x]; rotate_left; clear_value x; rotate_right))
    | (with_reducible apply Keeps.foldlFrom; rotate_left; intro s a; rotate_right)
    | with_reducible apply Keeps.after (State.resetRings_keeps ..)
    | with_reducible apply Keeps.after (State.dropLink_keeps ..)
    | with_reducible apply Keeps.after (State.linkReport_keeps ..)
    | with_reducible apply Keeps.after (State.eachCe_keeps (h_f := fun s y0 => ?_) ..)
    | with_reducible apply Keeps.after (State.ceHotReset_keeps ..)
    | with_reducible apply Keeps.after (State.resetRegs_keeps ..)
    | with_reducible apply Keeps.after (State.modPower_keeps ..)
    | with_reducible apply Keeps.after (State.modHif_keeps ..)

theorem State.requestHostReset_keeps {s : State}  :
    Keeps s (State.requestHostReset s) := by
  unfold State.requestHostReset
  repeat' first
    | with_reducible apply Keeps.refl
    | with_reducible apply Keeps.ite
    | with_reducible apply Keeps.after (State.hostReset_keeps ..)
    | with_reducible apply Keeps.after (State.modPower_keeps ..)

theorem execHotReset_keeps {s : State}  :
    KeepsO s (execHotReset s) := by
  unfold execHotReset
  repeat' first
    | with_reducible apply Keeps.refl
    | with_reducible apply KeepsO.next
    | with_reducible apply Keeps.ite
    | with_reducible apply Keeps.after (State.requestHostReset_keeps ..)

theorem State.perstAssert_keeps {s : State}  :
    Keeps s (State.perstAssert s) := by
  unfold State.perstAssert
  repeat' first
    | with_reducible apply Keeps.refl
    | with_reducible apply Keeps.ite
    | split
    | with_reducible apply Keeps.after (State.requestHostReset_keeps ..)
    | with_reducible apply Keeps.after (State.modPower_keeps ..)
    | with_reducible apply Keeps.after (State.modHif_keeps ..)

theorem execPerstNAssert_keeps {s : State}  :
    KeepsO s (execPerstNAssert s) := by
  unfold execPerstNAssert
  repeat' first
    | with_reducible apply Keeps.refl
    | with_reducible apply KeepsO.next
    | with_reducible apply Keeps.after (State.perstAssert_keeps ..)

theorem execFlrPf_keeps {s : State}  :
    KeepsO s (execFlrPf s) := by
  unfold execFlrPf
  repeat' first
    | with_reducible apply Keeps.refl
    | with_reducible apply KeepsO.next
    | with_reducible apply Keeps.ite
    | with_reducible apply Keeps.after (State.requestHostReset_keeps ..)

theorem State.flrVf_keeps {s : State} {n : Nat}  :
    Keeps s (State.flrVf s n) := by
  unfold State.flrVf
  repeat' first
    | with_reducible apply Keeps.refl
    | with_reducible assumption
    | ((try lift_lets -underBinder); intro x; (refine Keeps.cut (s := s) x ?_ (fun hx => ?_); dsimp -zeta only [x]; rotate_left; clear_value x; rotate_right))
    | with_reducible apply Keeps.ite
    | split
    | (with_reducible apply Keeps.foldlFrom; rotate_left; intro s a; rotate_right)
    | with_reducible apply Keeps.after (State.resetRings_keeps ..)
    | with_reducible apply Keeps.after (State.loseTransfers_keeps ..)
    | with_reducible apply Keeps.after (State.eachCe_keeps (h_f := fun s y0 => ?_) ..)
    | with_reducible apply Keeps.after (State.ceHotReset_keeps ..)
    | with_reducible apply Keeps.after (State.resetRegs_keeps ..)
    | with_reducible apply Keeps.after (State.modHif_keeps ..)

theorem execFlrVf_keeps {n : Nat} {s : State}  :
    KeepsO s (execFlrVf n s) := by
  unfold execFlrVf
  repeat' first
    | with_reducible apply Keeps.refl
    | with_reducible apply KeepsO.next
    | with_reducible apply Keeps.after (State.flrVf_keeps ..)

end Sys2Proof.Machine
end

