-- ==== Sys2Proof/Laws/KeepsPair.lean ====
section
/-! SUPPORT. What every operation of Machine/Pair.lean keeps. -/
set_option linter.all false
set_option Elab.async false
namespace Sys2Proof.Machine

theorem State.releaseUpdates_keeps {s : State} {denied : Bool}  :
    Keeps s (State.releaseUpdates s denied) := by
  unfold State.releaseUpdates
  repeat' first
    | with_reducible apply Keeps.refl
    | with_reducible apply Keeps.ite
    | split
    | (with_reducible apply Keeps.foldlFrom; rotate_left; intro s a; rotate_right)
    | with_reducible apply Keeps.after (State.closeReq_keeps ..)
    | with_reducible apply Keeps.after (State.netDone_keeps ..)
    | with_reducible refine Keeps.mk ?_

theorem State.releaseCommands_keeps {s : State}  :
    Keeps s (State.releaseCommands s) := by
  unfold State.releaseCommands
  repeat' first
    | with_reducible apply Keeps.refl
    | with_reducible assumption
    | ((try lift_lets -underBinder); intro x; first
        | (refine Keeps.cut (s := s) x ?_ (fun hx => ?_); dsimp -zeta only [x]; rotate_left; clear_value x; rotate_right)
        | clear_value x
        | (have hP : Prop := x; clear hP))
    | with_reducible apply Keeps.ite
    | split
    | (with_reducible apply Keeps.foldlFrom; rotate_left; intro s a; rotate_right)
    | with_reducible apply Keeps.after (State.beginCommit_keeps ..)
    | with_reducible apply Keeps.after (State.tblRun_keeps ..)
    | with_reducible apply Keeps.after (State.tblIdle_keeps ..)
    | with_reducible apply Keeps.after (State.modHrv_keeps ..)

theorem State.resetStreams_keeps {s : State}  :
    Keeps s (State.resetStreams s) := by
  unfold State.resetStreams
  repeat' first
    | with_reducible apply Keeps.refl
    | with_reducible apply Keeps.after (State.modHrv_keeps ..)

theorem State.unpair_keeps {s : State} {st : Nat} {denied : Bool}  :
    Keeps s (State.unpair s st denied) := by
  unfold State.unpair
  repeat' first
    | with_reducible apply Keeps.refl
    | with_reducible assumption
    | ((try lift_lets -underBinder); intro x; (refine Keeps.cut (s := s) x ?_ (fun hx => ?_); dsimp -zeta only [x]; rotate_left; clear_value x; rotate_right))
    | with_reducible apply Keeps.after (State.resetStreams_keeps ..)
    | with_reducible apply Keeps.after (State.releaseCommands_keeps ..)
    | with_reducible apply Keeps.after (State.releaseUpdates_keeps ..)
    | with_reducible apply Keeps.after (State.releaseIf_keeps ..)
    | with_reducible apply Keeps.after (State.modHrv_keeps ..)

theorem State.takeover_keeps {s : State}  :
    Keeps s (State.takeover s) := by
  unfold State.takeover
  repeat' first
    | with_reducible apply Keeps.refl
    | ((try lift_lets -underBinder); intro x; clear_value x)
    | with_reducible apply Keeps.after (State.unpair_keeps ..)
    | with_reducible apply Keeps.after (State.modHrv_keeps ..)

theorem State.yield__keeps {s : State}  :
    Keeps s (State.yield_ s) := by
  unfold State.yield_
  repeat' first
    | with_reducible apply Keeps.refl
    | with_reducible assumption
    | ((try lift_lets -underBinder); intro x; (refine Keeps.cut (s := s) x ?_ (fun hx => ?_); dsimp -zeta only [x]; rotate_left; clear_value x; rotate_right))
    | with_reducible apply Keeps.ite
    | (with_reducible apply Keeps.foldlFrom; rotate_left; intro s a; rotate_right)
    | with_reducible apply Keeps.after (State.unpair_keeps ..)
    | with_reducible apply Keeps.after (State.reopen_keeps ..)
    | with_reducible apply Keeps.after (State.steward_keeps ..)
    | with_reducible apply Keeps.after (State.dropBatches_keeps ..)
    | with_reducible apply Keeps.after (State.releaseIf_keeps ..)
    | with_reducible apply Keeps.after (State.modHealth_keeps ..)
    | with_reducible apply Keeps.after (State.modHrv_keeps ..)

theorem State.replayNext_keeps {s : State}  :
    Keeps s (State.replayNext s) := by
  unfold State.replayNext
  repeat' first
    | with_reducible apply Keeps.refl
    | with_reducible assumption
    | ((try lift_lets -underBinder); intro x; first
        | (refine Keeps.cut (s := s) x ?_ (fun hx => ?_); dsimp -zeta only [x]; rotate_left; clear_value x; rotate_right)
        | clear_value x
        | (have hP : Prop := x; clear hP))
    | with_reducible apply Keeps.ite
    | split
    | with_reducible apply Keeps.after (State.enqueue_keeps ..)
    | with_reducible apply Keeps.after (State.journalWrite_keeps ..)
    | with_reducible apply Keeps.after (State.refuseSub_keeps ..)
    | with_reducible apply Keeps.after (State.freshHandle_keeps ..)
    | with_reducible apply Keeps.after (State.releaseIf_keeps ..)
    | with_reducible apply Keeps.after (State.modHrv_keeps ..)
    | with_reducible apply Keeps.after (State.modPart_keeps ..)
    | (with_reducible apply Keeps.of_pair; with_reducible assumption)
    | with_reducible refine Keeps.mk ?_

theorem execReplayAdmission_keeps {s : State}  :
    KeepsO s (execReplayAdmission s) := by
  unfold execReplayAdmission
  repeat' first
    | with_reducible apply Keeps.refl
    | with_reducible apply KeepsO.next
    | with_reducible apply Keeps.after (State.replayNext_keeps ..)

end Sys2Proof.Machine
end

