-- ==== Sys2Proof/Laws/KeepsSends.lean ====
section
/-! SUPPORT. What every operation of Machine/Sends.lean keeps. -/
set_option linter.all false
set_option Elab.async false
namespace Sys2Proof.Machine

theorem State.setSendRing_keeps {s : State} {r : SendRing}  :
    Keeps s (State.setSendRing s r) := by
  unfold State.setSendRing
  repeat' first
    | with_reducible apply Keeps.refl
    | (intro n; with_reducible rfl)
    | split
    | with_reducible apply Keeps.after (State.modNet_keeps (h := ?_) ..)

theorem State.sendTail_keeps {s : State} {i : Nat}  :
    Keeps s (State.sendTail s i) := by
  unfold State.sendTail
  repeat' first
    | with_reducible apply Keeps.refl
    | ((try lift_lets -underBinder); intro x; clear_value x)
    | with_reducible apply Keeps.ite
    | split
    | with_reducible apply Keeps.after (State.setSendRing_keeps ..)
    | with_reducible apply Keeps.after (State.vread_keeps ..)
    | (with_reducible apply Keeps.of_pair; with_reducible assumption)

theorem execSendRingTail_keeps {i : Nat} {s : State}  :
    KeepsO s (execSendRingTail i s) := by
  unfold execSendRingTail
  repeat' first
    | with_reducible apply Keeps.refl
    | with_reducible apply KeepsO.next
    | with_reducible apply Keeps.after (State.sendTail_keeps ..)

theorem State.completeSend_keeps {s : State} {x : Send} {status bytes w1 : Nat}  :
    Keeps s (State.completeSend s x status bytes w1) := by
  unfold State.completeSend
  repeat' first
    | with_reducible apply Keeps.refl
    | with_reducible assumption
    | (intro n; with_reducible rfl)
    | ((try lift_lets -underBinder); intro x; (refine Keeps.cut (s := s) x ?_ (fun hx => ?_); dsimp -zeta only [x]; rotate_left; clear_value x; rotate_right))
    | with_reducible apply Keeps.ite
    | split
    | with_reducible apply Keeps.after (State.vwrite_keeps ..)
    | with_reducible apply Keeps.after (State.withRanges_keeps (h_f := fun s => ?_) ..)
    | with_reducible apply Keeps.after (State.release_keeps ..)
    | with_reducible apply Keeps.after (State.modNet_keeps (h := ?_) ..)

theorem State.takeSend_keeps {s : State} {i : Nat} {ok : Send → Bool} {f : Send → State → State} (h_f : ∀ x0 t, Keeps t (f x0 t)) :
    Keeps s (State.takeSend s i ok f) := by
  unfold State.takeSend
  repeat' first
    | with_reducible apply Keeps.refl
    | with_reducible assumption
    | ((try lift_lets -underBinder); intro x; first
        | (refine Keeps.cut (s := s) x ?_ (fun hx => ?_); dsimp -zeta only [x]; rotate_left; clear_value x; rotate_right)
        | clear_value x)
    | with_reducible apply Keeps.ite
    | split
    | with_reducible apply Keeps.after (h_f ..)
    | with_reducible apply Keeps.after (State.setSendRing_keeps ..)
    | with_reducible apply Keeps.after (State.vwrite_keeps ..)
    | with_reducible apply Keeps.after (State.vread_keeps ..)

theorem State.openSend_keeps {s : State} {x : Send} {legal : Bool} {ext : List (Nat × Nat × Bool)} {f : Nat → State → State} (h_f : ∀ x0 t, Keeps t (f x0 t)) :
    Keeps s (State.openSend s x legal ext f) := by
  unfold State.openSend
  repeat' first
    | with_reducible apply Keeps.refl
    | (intro n; with_reducible rfl)
    | ((try lift_lets -underBinder); intro x; clear_value x)
    | with_reducible apply Keeps.ite
    | split
    | with_reducible apply Keeps.after (h_f ..)
    | with_reducible apply Keeps.after (State.completeSend_keeps ..)
    | with_reducible apply Keeps.after (State.newMsg_keeps ..)
    | with_reducible apply Keeps.after (State.countXltFault_keeps ..)
    | with_reducible apply Keeps.after (State.modNet_keeps (h := ?_) ..)
    | (with_reducible apply Keeps.of_pair; with_reducible assumption)

theorem execSendWrite_keeps {i : Nat} {s : State}  :
    KeepsO s (execSendWrite i s) := by
  unfold execSendWrite
  repeat' first
    | with_reducible apply Keeps.refl
    | with_reducible apply KeepsO.next
    | split
    | with_reducible apply Keeps.after (State.openSend_keeps (h_f := fun x0 s => ?_) ..)
    | with_reducible apply Keeps.after (State.takeSend_keeps (h_f := fun x0 s => ?_) ..)
    | with_reducible apply Keeps.after (State.netMessage_keeps ..)
    | with_reducible apply Keeps.after (State.vread_keeps ..)
    | (with_reducible apply Keeps.of_pair; with_reducible assumption)

theorem execSendRead_keeps {i : Nat} {s : State}  :
    KeepsO s (execSendRead i s) := by
  unfold execSendRead
  repeat' first
    | with_reducible apply Keeps.refl
    | with_reducible apply KeepsO.next
    | with_reducible apply Keeps.after (State.openSend_keeps (h_f := fun x0 s => ?_) ..)
    | with_reducible apply Keeps.after (State.takeSend_keeps (h_f := fun x0 s => ?_) ..)
    | with_reducible apply Keeps.after (State.netMessage_keeps ..)

theorem State.sendRequest_keeps {s : State} {x : Send} {gather : Bool}  :
    Keeps s (State.sendRequest s x gather) := by
  unfold State.sendRequest
  repeat' first
    | with_reducible apply Keeps.refl
    | ((try lift_lets -underBinder); intro x; clear_value x)
    | with_reducible apply Keeps.ite
    | split
    | with_reducible apply Keeps.after (State.openSend_keeps (h_f := fun x0 s => ?_) ..)
    | with_reducible apply Keeps.after (State.netMessage_keeps ..)
    | with_reducible apply Keeps.after (State.vread_keeps ..)
    | (with_reducible apply Keeps.of_pair; with_reducible assumption)

theorem execSendUpdate_keeps {i : Nat} {s : State}  :
    KeepsO s (execSendUpdate i s) := by
  unfold execSendUpdate
  repeat' first
    | with_reducible apply Keeps.refl
    | with_reducible apply KeepsO.next
    | with_reducible apply Keeps.after (State.sendRequest_keeps ..)
    | with_reducible apply Keeps.after (State.takeSend_keeps (h_f := fun x0 s => ?_) ..)

theorem execSendGather_keeps {i : Nat} {s : State}  :
    KeepsO s (execSendGather i s) := by
  unfold execSendGather
  repeat' first
    | with_reducible apply Keeps.refl
    | with_reducible apply KeepsO.next
    | with_reducible apply Keeps.after (State.sendRequest_keeps ..)
    | with_reducible apply Keeps.after (State.takeSend_keeps (h_f := fun x0 s => ?_) ..)

theorem execSendSubmit_keeps {i : Nat} {s : State}  :
    KeepsO s (execSendSubmit i s) := by
  unfold execSendSubmit
  repeat' first
    | with_reducible apply Keeps.refl
    | with_reducible apply KeepsO.next
    | split
    | with_reducible apply Keeps.after (State.openSend_keeps (h_f := fun x0 s => ?_) ..)
    | with_reducible apply Keeps.after (State.takeSend_keeps (h_f := fun x0 s => ?_) ..)
    | with_reducible apply Keeps.after (State.netMessage_keeps ..)
    | with_reducible apply Keeps.after (State.vread_keeps ..)
    | (with_reducible apply Keeps.of_pair; with_reducible assumption)

theorem execSendNop_keeps {i : Nat} {s : State}  :
    KeepsO s (execSendNop i s) := by
  unfold execSendNop
  repeat' first
    | with_reducible apply Keeps.refl
    | ((try lift_lets -underBinder); intro x; clear_value x)
    | with_reducible apply KeepsO.next
    | with_reducible apply Keeps.ite
    | with_reducible apply Keeps.after (State.takeSend_keeps (h_f := fun x0 s => ?_) ..)
    | with_reducible apply Keeps.after (State.completeSend_keeps ..)

end Sys2Proof.Machine
end

