-- ==== Sys2Proof/Laws/KeepsReduce.lean ====
section
/-! SUPPORT. What every operation of Machine/Reduce.lean keeps. -/
set_option linter.all false
set_option Elab.async false
namespace Sys2Proof.Machine

theorem State.setBucket_keeps {s : State} {x : Bucket}  :
    Keeps s (State.setBucket s x) := by
  unfold State.setBucket
  repeat' first
    | with_reducible apply Keeps.refl
    | (intro n; with_reducible rfl)
    | with_reducible apply Keeps.after (State.modNet_keeps (h := ?_) ..)

theorem State.modRound_keeps {s : State} {j b : Nat} {f : Round → Round}  :
    Keeps s (State.modRound s j b f) := by
  unfold State.modRound
  repeat' first
    | with_reducible apply Keeps.refl
    | (intro n; with_reducible rfl)
    | with_reducible apply Keeps.after (State.modNet_keeps (h := ?_) ..)

theorem State.redWrite_keeps {s : State} {j v : Nat}  :
    Keeps s (State.redWrite s j v) := by
  unfold State.redWrite
  repeat' first
    | with_reducible apply Keeps.refl
    | with_reducible assumption
    | (intro n; with_reducible rfl)
    | ((try lift_lets -underBinder); intro x; first
        | (refine Keeps.cut (s := s) x ?_ (fun hx => ?_); dsimp -zeta only [x]; rotate_left; clear_value x; rotate_right)
        | clear_value x)
    | with_reducible apply Keeps.ite
    | split
    | with_reducible apply Keeps.after (State.setReg_keeps ..)
    | with_reducible apply Keeps.after (State.countClamps_keeps ..)
    | with_reducible apply Keeps.after (State.modNet_keeps (h := ?_) ..)

theorem execRedEnable_keeps {j : Nat} {val : BitVec 64} {s : State}  :
    KeepsO s (execRedEnable j val s) := by
  unfold execRedEnable
  repeat' first
    | with_reducible apply Keeps.refl
    | with_reducible apply KeepsO.next
    | with_reducible apply Keeps.after (State.redWrite_keeps ..)

theorem State.redSend_keeps {s : State} {k type j b : Nat} {e : Int} {count : Nat} {d : Data}  :
    Keeps s (State.redSend s k type j b e count d) := by
  unfold State.redSend
  repeat' first
    | with_reducible apply Keeps.refl
    | split
    | with_reducible apply Keeps.after (State.newMsg_keeps ..)
    | with_reducible apply Keeps.after (State.netMessage_keeps ..)
    | (with_reducible apply Keeps.of_pair; with_reducible assumption)

theorem State.redAsk_keeps {s : State} {k j b : Nat} {e : Int} {count sel : Nat}  :
    Keeps s (State.redAsk s k j b e count sel) := by
  unfold State.redAsk
  repeat' first
    | with_reducible apply Keeps.refl
    | (intro n; with_reducible rfl)
    | split
    | with_reducible apply Keeps.after (State.newMsg_keeps ..)
    | with_reducible apply Keeps.after (State.netMessage_keeps ..)
    | with_reducible apply Keeps.after (State.modNet_keeps (h := ?_) ..)
    | (with_reducible apply Keeps.of_pair; with_reducible assumption)

theorem State.redFinish_keeps {s : State} {j b status : Nat} {y : List Int} {marks : Nat} {m : Int}  :
    Keeps s (State.redFinish s j b status y marks m) := by
  unfold State.redFinish
  repeat' first
    | with_reducible apply Keeps.refl
    | with_reducible assumption
    | (intro n; with_reducible rfl)
    | ((try lift_lets -underBinder); intro x; first
        | (refine Keeps.cut (s := s) x ?_ (fun hx => ?_); dsimp -zeta only [x]; rotate_left; clear_value x; rotate_right)
        | clear_value x)
    | with_reducible apply Keeps.ite
    | split
    | with_reducible apply Keeps.after (State.setBucket_keeps ..)
    | with_reducible apply Keeps.after (State.completeSend_keeps ..)
    | with_reducible apply Keeps.after (State.vwrite_keeps ..)
    | with_reducible apply Keeps.after (State.withRanges_keeps (h_f := fun s => ?_) ..)
    | with_reducible apply Keeps.after (State.modNet_keeps (h := ?_) ..)

theorem State.redFailRound_keeps {s : State} {j b status : Nat} {up : Bool}  :
    Keeps s (State.redFailRound s j b status up) := by
  unfold State.redFailRound
  repeat' first
    | with_reducible apply Keeps.refl
    | with_reducible assumption
    | ((try lift_lets -underBinder); intro x; first
        | (refine Keeps.cut (s := s) x ?_ (fun hx => ?_); dsimp -zeta only [x]; rotate_left; clear_value x; rotate_right)
        | clear_value x)
    | with_reducible apply Keeps.ite
    | split
    | (with_reducible apply Keeps.foldlFrom; rotate_left; intro s a; rotate_right)
    | with_reducible apply Keeps.after (State.redFinish_keeps ..)
    | with_reducible apply Keeps.after (State.redSend_keeps ..)

theorem State.redDeliver_keeps {s : State} {j b : Nat} {h : RedHead} {y : List Int} {marks : Nat}  :
    Keeps s (State.redDeliver s j b h y marks) := by
  unfold State.redDeliver
  repeat' first
    | with_reducible apply Keeps.refl
    | with_reducible assumption
    | ((try lift_lets -underBinder); intro x; first
        | (refine Keeps.cut (s := s) x ?_ (fun hx => ?_); dsimp -zeta only [x]; rotate_left; clear_value x; rotate_right)
        | clear_value x)
    | split
    | (with_reducible apply Keeps.foldlFrom; rotate_left; intro s a; rotate_right)
    | with_reducible apply Keeps.after (State.redFinish_keeps ..)
    | with_reducible apply Keeps.after (State.redSend_keeps ..)
    | with_reducible apply Keeps.after (State.setBucket_keeps ..)

theorem State.redSaturate_keeps {s : State} {j b : Nat} {e : Int}  :
    Keeps s (State.redSaturate s j b e) := by
  unfold State.redSaturate
  repeat' first
    | with_reducible apply Keeps.refl
    | with_reducible assumption
    | ((try lift_lets -underBinder); intro x; (refine Keeps.cut (s := s) x ?_ (fun hx => ?_); dsimp -zeta only [x]; rotate_left; clear_value x; rotate_right))
    | split
    | (with_reducible apply Keeps.foldlFrom; rotate_left; intro s a; rotate_right)
    | with_reducible apply Keeps.after (State.redAsk_keeps ..)
    | with_reducible apply Keeps.after (State.modRound_keeps ..)

theorem State.redTry_keeps {s : State} {j b : Nat}  :
    Keeps s (State.redTry s j b) := by
  unfold State.redTry
  repeat' first
    | with_reducible apply Keeps.refl
    | ((try lift_lets -underBinder); intro x; clear_value x)
    | with_reducible apply Keeps.ite
    | split
    | with_reducible apply Keeps.after (State.redSaturate_keeps ..)
    | with_reducible apply Keeps.after (State.redDeliver_keeps ..)
    | with_reducible apply Keeps.after (State.redSend_keeps ..)
    | with_reducible apply Keeps.after (State.modRound_keeps ..)

theorem State.redRun_keeps {s : State} {j b : Nat}  :
    Keeps s (State.redRun s j b) := by
  unfold State.redRun
  repeat' first
    | with_reducible apply Keeps.refl
    | with_reducible apply Keeps.after (State.redTry_keeps ..)

theorem State.redRead_keeps {s : State} {p a n : Nat}  :
    Keeps s (State.redRead s p a n).2.2 := by
  unfold State.redRead
  repeat' first
    | with_reducible apply Keeps.refl
    | split
    | with_reducible apply Keeps.after (State.vread_keeps ..)
    | (with_reducible apply Keeps.of_pair; with_reducible assumption)

theorem State.redStart_keeps {s : State} {j : Nat} {x : Send} {v : List (BitVec 32)} {marks : Nat}  :
    Keeps s (State.redStart s j x v marks) := by
  unfold State.redStart
  repeat' first
    | with_reducible apply Keeps.refl
    | (intro n; with_reducible rfl)
    | ((try lift_lets -underBinder); intro x; clear_value x)
    | with_reducible apply Keeps.ite
    | split
    | with_reducible apply Keeps.after (State.redRun_keeps ..)
    | with_reducible apply Keeps.after (State.redFailRound_keeps ..)
    | with_reducible apply Keeps.after (State.draw_keeps ..)
    | with_reducible apply Keeps.after (State.modNet_keeps (h := ?_) ..)
    | (with_reducible apply Keeps.of_pair; with_reducible assumption)

theorem State.reduce_keeps {s : State} {i : Nat}  :
    Keeps s (State.reduce s i) := by
  unfold State.reduce
  repeat' first
    | with_reducible apply Keeps.refl
    | with_reducible assumption
    | (intro n; with_reducible rfl)
    | ((try lift_lets -underBinder); intro x; first
        | (refine Keeps.cut (s := s) x ?_ (fun hx => ?_); dsimp -zeta only [x]; rotate_left; clear_value x; rotate_right)
        | clear_value x)
    | with_reducible apply Keeps.ite
    | split
    | with_reducible apply Keeps.after (State.redStart_keeps ..)
    | with_reducible apply Keeps.after (State.redRead_keeps ..)
    | with_reducible apply Keeps.after (State.setBucket_keeps ..)
    | with_reducible apply Keeps.after (State.takeSend_keeps (h_f := fun x0 s => ?_) ..)
    | with_reducible apply Keeps.after (State.completeSend_keeps ..)
    | with_reducible apply Keeps.after (State.countXltFault_keeps ..)
    | with_reducible apply Keeps.after (State.vwrite_keeps ..)
    | with_reducible apply Keeps.after (State.modNet_keeps (h := ?_) ..)

theorem execReduce_keeps {i : Nat} {s : State}  :
    KeepsO s (execReduce i s) := by
  unfold execReduce
  repeat' first
    | with_reducible apply Keeps.refl
    | with_reducible apply KeepsO.next
    | with_reducible apply Keeps.after (State.reduce_keeps ..)

theorem State.redResidueFail_keeps {s : State} {j b k : Nat}  :
    Keeps s (State.redResidueFail s j b k) := by
  unfold State.redResidueFail
  repeat' first
    | with_reducible apply Keeps.refl
    | ((try lift_lets -underBinder); intro x; clear_value x)
    | with_reducible apply Keeps.after (State.redFailRound_keeps ..)
    | with_reducible apply Keeps.after (State.report_keeps ..)

theorem State.redCheck_keeps {s : State} {j b k key : Nat} {bad : List Nat}  :
    Keeps s (State.redCheck s j b k key bad) := by
  unfold State.redCheck
  repeat' first
    | with_reducible apply Keeps.refl
    | with_reducible assumption
    | ((try lift_lets -underBinder); intro x; (refine Keeps.cut (s := s) x ?_ (fun hx => ?_); dsimp -zeta only [x]; rotate_left; clear_value x; rotate_right))
    | with_reducible apply Keeps.ite
    | split
    | (with_reducible apply Keeps.foldlFrom; rotate_left; intro s a; rotate_right)
    | with_reducible apply Keeps.after (State.redResidueFail_keeps ..)
    | with_reducible apply Keeps.after (State.redAsk_keeps ..)
    | with_reducible apply Keeps.after (State.modRound_keeps ..)

theorem State.redUp_keeps {s : State} {k a : Nat} {d : Data}  :
    Keeps s (State.redUp s k a d) := by
  unfold State.redUp
  repeat' first
    | with_reducible apply Keeps.refl
    | with_reducible assumption
    | (intro n; with_reducible rfl)
    | ((try lift_lets -underBinder); intro x; first
        | (refine Keeps.cut (s := s) x ?_ (fun hx => ?_); dsimp -zeta only [x]; rotate_left; clear_value x; rotate_right)
        | clear_value x
        | (have hP : Prop := x; clear hP))
    | with_reducible apply Keeps.ite
    | split
    | with_reducible apply Keeps.after (State.redCheck_keeps ..)
    | with_reducible apply Keeps.after (State.redRun_keeps ..)
    | with_reducible apply Keeps.after (State.redFailRound_keeps ..)
    | with_reducible apply Keeps.after (State.modRound_keeps ..)
    | with_reducible apply Keeps.after (State.modNet_keeps (h := ?_) ..)

theorem State.redDown_keeps {s : State} {k a : Nat} {d : Data}  :
    Keeps s (State.redDown s k a d) := by
  unfold State.redDown
  repeat' first
    | with_reducible apply Keeps.refl
    | ((try lift_lets -underBinder); intro x; clear_value x)
    | with_reducible apply Keeps.ite
    | split
    | with_reducible apply Keeps.after (State.redCheck_keeps ..)
    | with_reducible apply Keeps.after (State.redDeliver_keeps ..)
    | with_reducible apply Keeps.after (State.redFailRound_keeps ..)
    | with_reducible apply Keeps.after (State.modRound_keeps ..)

theorem State.redRedo_keeps {s : State} {k a : Nat} {d : Data}  :
    Keeps s (State.redRedo s k a d) := by
  unfold State.redRedo
  repeat' first
    | with_reducible apply Keeps.refl
    | with_reducible assumption
    | ((try lift_lets -underBinder); intro x; first
        | (refine Keeps.cut (s := s) x ?_ (fun hx => ?_); dsimp -zeta only [x]; rotate_left; clear_value x; rotate_right)
        | clear_value x)
    | with_reducible apply Keeps.ite
    | split
    | with_reducible apply Keeps.after (State.redRun_keeps ..)
    | with_reducible apply Keeps.after (State.redSaturate_keeps ..)
    | with_reducible apply Keeps.after (State.redSend_keeps ..)
    | with_reducible apply Keeps.after (State.modRound_keeps ..)

theorem State.roundTimeout_keeps {s : State} {j b : Nat}  :
    Keeps s (State.roundTimeout s j b) := by
  unfold State.roundTimeout
  repeat' first
    | with_reducible apply Keeps.refl
    | ((try lift_lets -underBinder); intro x; clear_value x)
    | with_reducible apply Keeps.ite
    | split
    | with_reducible apply Keeps.after (State.redFailRound_keeps ..)

theorem execRoundTimeout_keeps {j bucket : Nat} {s : State}  :
    KeepsO s (execRoundTimeout j bucket s) := by
  unfold execRoundTimeout
  repeat' first
    | with_reducible apply Keeps.refl
    | with_reducible apply KeepsO.next
    | with_reducible apply Keeps.after (State.roundTimeout_keeps ..)

end Sys2Proof.Machine
end

