-- ==== Sys2Proof/Laws/KeepsNetServe.lean ====
section
/-! SUPPORT. What every operation of Machine/NetServe.lean keeps. -/
set_option linter.all false
set_option Elab.async false
namespace Sys2Proof.Machine

theorem State.connFail_keeps {s : State} {k : Nat}  :
    Keeps s (State.connFail s k) := by
  unfold State.connFail
  repeat' first
    | with_reducible apply Keeps.refl
    | with_reducible assumption
    | ((try lift_lets -underBinder); intro x; (refine Keeps.cut (s := s) x ?_ (fun hx => ?_); dsimp -zeta only [x]; rotate_left; clear_value x; rotate_right))
    | (with_reducible apply Keeps.foldlFrom; rotate_left; intro s a; rotate_right)
    | with_reducible apply Keeps.after (State.redFailRound_keeps ..)
    | with_reducible apply Keeps.after (State.completeSend_keeps ..)
    | with_reducible apply Keeps.after (State.modConn_keeps ..)

theorem State.netResend_keeps {s : State} {k : Nat}  :
    Keeps s (State.netResend s k) := by
  unfold State.netResend
  repeat' first
    | with_reducible apply Keeps.refl
    | with_reducible assumption
    | (intro n; with_reducible rfl)
    | ((try lift_lets -underBinder); intro x; first
        | (refine Keeps.cut (s := s) x ?_ (fun hx => ?_); dsimp -zeta only [x]; rotate_left; clear_value x; rotate_right)
        | clear_value x)
    | with_reducible apply Keeps.ite
    | split
    | (with_reducible apply Keeps.foldlFrom; rotate_left; intro s a; rotate_right)
    | with_reducible apply Keeps.after (State.connFail_keeps ..)
    | with_reducible apply Keeps.after (State.netPump_keeps ..)
    | with_reducible apply Keeps.after (State.emit_keeps ..)
    | with_reducible apply Keeps.after (State.modConn_keeps ..)
    | with_reducible apply Keeps.after (State.modNet_keeps (h := ?_) ..)

theorem State.netAcked_keeps {s : State} {k : Nat} {psn : BitVec 24}  :
    Keeps s (State.netAcked s k psn) := by
  unfold State.netAcked
  repeat' first
    | with_reducible apply Keeps.refl
    | ((try lift_lets -underBinder); intro x; clear_value x)
    | with_reducible apply Keeps.ite
    | split
    | with_reducible apply Keeps.after (State.netPump_keeps ..)
    | with_reducible apply Keeps.after (State.modConn_keeps ..)

theorem State.netEnter_keeps {s : State} {port type : Nat} {f : Frame} {act : Nat → State → State} (h_act : ∀ x0 t, Keeps t (act x0 t)) :
    Keeps s (State.netEnter s port type f act) := by
  unfold State.netEnter
  repeat' first
    | with_reducible apply Keeps.refl
    | with_reducible assumption
    | (intro n; with_reducible rfl)
    | (intro (n : Net); simp; done)
    | ((try lift_lets -underBinder); intro x; first
        | (refine Keeps.cut (s := s) x ?_ (fun hx => ?_); dsimp -zeta only [x]; rotate_left; clear_value x; rotate_right)
        | clear_value x)
    | with_reducible apply Keeps.ite
    | with_reducible apply Keeps.after (h_act ..)
    | with_reducible apply Keeps.after (State.netAcked_keeps ..)
    | with_reducible apply Keeps.after (State.modNet_keeps (h := ?_) ..)

theorem State.netOrdered_keeps {s : State} {port type : Nat} {f : Frame} {act : Nat → State → State} (h_act : ∀ x0 t, Keeps t (act x0 t)) :
    Keeps s (State.netOrdered s port type f act) := by
  unfold State.netOrdered
  repeat' first
    | with_reducible apply Keeps.refl
    | with_reducible apply Keeps.ite
    | with_reducible apply Keeps.after (h_act ..)
    | with_reducible apply Keeps.after (State.netEnter_keeps (h_act := fun x0 s => ?_) ..)
    | with_reducible apply Keeps.after (State.netHeader_keeps ..)
    | with_reducible apply Keeps.after (State.modConn_keeps ..)

theorem State.netMessageIn_keeps {s : State} {port type : Nat} {f : Frame} {act : Nat → List Frame → State → State} (h_act : ∀ x0 x1 t, Keeps t (act x0 x1 t)) :
    Keeps s (State.netMessageIn s port type f act) := by
  unfold State.netMessageIn
  repeat' first
    | with_reducible apply Keeps.refl
    | ((try lift_lets -underBinder); intro x; clear_value x)
    | split
    | with_reducible apply Keeps.after (h_act ..)
    | with_reducible apply Keeps.after (State.netOrdered_keeps (h_act := fun x0 s => ?_) ..)
    | with_reducible apply Keeps.after (State.modConn_keeps ..)

theorem State.doneFor_keeps {s : State} {k : Nat} {f : Frame} {status bytes : Nat}  :
    Keeps s (State.doneFor s k f status bytes) := by
  unfold State.doneFor
  repeat' first
    | with_reducible apply Keeps.refl
    | with_reducible apply Keeps.after (State.netDone_keeps ..)

theorem State.served_keeps {s : State} {k perm : Nat} {f : Frame} {act : State → State} (h_act : ∀ t, Keeps t (act t)) :
    Keeps s (State.served s k perm f act) := by
  unfold State.served
  repeat' first
    | with_reducible apply Keeps.refl
    | with_reducible apply Keeps.ite
    | with_reducible apply Keeps.after (h_act ..)
    | with_reducible apply Keeps.after (State.doneFor_keeps ..)

theorem State.serveWrite_keeps {s : State} {k : Nat} {fs : List Frame} {f : Frame}  :
    Keeps s (State.serveWrite s k fs f) := by
  unfold State.serveWrite
  repeat' first
    | with_reducible apply Keeps.refl
    | with_reducible assumption
    | ((try lift_lets -underBinder); intro x; first
        | (refine Keeps.cut (s := s) x ?_ (fun hx => ?_); dsimp -zeta only [x]; rotate_left; clear_value x; rotate_right)
        | clear_value x)
    | with_reducible apply Keeps.ite
    | (with_reducible apply Keeps.foldlFrom; rotate_left; intro s a; rotate_right)
    | with_reducible apply Keeps.after (State.doneFor_keeps ..)
    | with_reducible apply Keeps.after (State.outsideWrite_keeps ..)
    | with_reducible apply Keeps.after (State.countXltFault_keeps ..)
    | with_reducible apply Keeps.after (State.release_keeps ..)

theorem execNetWrite_keeps {port : Nat} {f : Frame} {s : State}  :
    KeepsO s (execNetWrite port f s) := by
  unfold execNetWrite
  repeat' first
    | with_reducible apply Keeps.refl
    | with_reducible apply KeepsO.next
    | with_reducible apply Keeps.after (State.serveWrite_keeps ..)
    | with_reducible apply Keeps.after (State.served_keeps (h_act := fun s => ?_) ..)
    | with_reducible apply Keeps.after (State.netMessageIn_keeps (h_act := fun x0 x1 s => ?_) ..)

theorem State.serveRead_keeps {s : State} {k : Nat} {f : Frame}  :
    Keeps s (State.serveRead s k f) := by
  unfold State.serveRead
  repeat' first
    | with_reducible apply Keeps.refl
    | ((try lift_lets -underBinder); intro x; clear_value x)
    | with_reducible apply Keeps.ite
    | split
    | with_reducible apply Keeps.after (State.doneFor_keeps ..)
    | with_reducible apply Keeps.after (State.netMessage_keeps ..)
    | with_reducible apply Keeps.after (State.countXltFault_keeps ..)
    | with_reducible apply Keeps.after (State.vread_keeps ..)
    | (with_reducible apply Keeps.of_pair; with_reducible assumption)

theorem execReadReq_keeps {port : Nat} {f : Frame} {s : State}  :
    KeepsO s (execReadReq port f s) := by
  unfold execReadReq
  repeat' first
    | with_reducible apply Keeps.refl
    | with_reducible apply KeepsO.next
    | with_reducible apply Keeps.after (State.serveRead_keeps ..)
    | with_reducible apply Keeps.after (State.served_keeps (h_act := fun s => ?_) ..)
    | with_reducible apply Keeps.after (State.netMessageIn_keeps (h_act := fun x0 x1 s => ?_) ..)

theorem State.takeResponse_keeps {s : State} {k : Nat} {f : Frame}  :
    Keeps s (State.takeResponse s k f) := by
  unfold State.takeResponse
  repeat' first
    | with_reducible apply Keeps.refl
    | with_reducible assumption
    | (intro n; with_reducible rfl)
    | ((try lift_lets -underBinder); intro x; (refine Keeps.cut (s := s) x ?_ (fun hx => ?_); dsimp -zeta only [x]; rotate_left; clear_value x; rotate_right))
    | split
    | with_reducible apply Keeps.after (State.outsideWrite_keeps ..)
    | with_reducible apply Keeps.after (State.withRanges_keeps (h_f := fun s => ?_) ..)
    | with_reducible apply Keeps.after (State.modNet_keeps (h := ?_) ..)

theorem execReadResp_keeps {port : Nat} {f : Frame} {s : State}  :
    KeepsO s (execReadResp port f s) := by
  unfold execReadResp
  repeat' first
    | with_reducible apply Keeps.refl
    | with_reducible apply KeepsO.next
    | with_reducible apply Keeps.after (State.takeResponse_keeps ..)
    | with_reducible apply Keeps.after (State.netOrdered_keeps (h_act := fun x0 s => ?_) ..)

theorem State.peerHand_keeps {s : State} {r : Request} {headMarked : Bool}  :
    Keeps s (State.peerHand s r headMarked) := by
  unfold State.peerHand
  repeat' first
    | with_reducible apply Keeps.refl
    | ((try lift_lets -underBinder); intro x; clear_value x)
    | with_reducible apply Keeps.ite
    | split
    | with_reducible apply Keeps.after (State.refuse_keeps ..)
    | with_reducible apply Keeps.after (State.newId_keeps ..)
    | with_reducible apply Keeps.after (State.modDie_keeps ..)
    | (with_reducible apply Keeps.of_pair; with_reducible assumption)

theorem State.serveUpdate_keeps {s : State} {k : Nat} {fs : List Frame} {f : Frame}  :
    Keeps s (State.serveUpdate s k fs f) := by
  unfold State.serveUpdate
  repeat' first
    | with_reducible apply Keeps.refl
    | ((try lift_lets -underBinder); intro x; clear_value x)
    | with_reducible apply Keeps.ite
    | with_reducible apply Keeps.after (State.peerHand_keeps ..)
    | with_reducible apply Keeps.after (State.doneFor_keeps ..)

theorem execNetUpdate_keeps {port : Nat} {f : Frame} {s : State}  :
    KeepsO s (execNetUpdate port f s) := by
  unfold execNetUpdate
  repeat' first
    | with_reducible apply Keeps.refl
    | with_reducible apply KeepsO.next
    | with_reducible apply Keeps.after (State.serveUpdate_keeps ..)
    | with_reducible apply Keeps.after (State.served_keeps (h_act := fun s => ?_) ..)
    | with_reducible apply Keeps.after (State.netMessageIn_keeps (h_act := fun x0 x1 s => ?_) ..)

theorem State.serveGather_keeps {s : State} {k : Nat} {fs : List Frame} {f : Frame}  :
    Keeps s (State.serveGather s k fs f) := by
  unfold State.serveGather
  repeat' first
    | with_reducible apply Keeps.refl
    | ((try lift_lets -underBinder); intro x; clear_value x)
    | with_reducible apply Keeps.ite
    | with_reducible apply Keeps.after (State.peerHand_keeps ..)
    | with_reducible apply Keeps.after (State.doneFor_keeps ..)

theorem execNetGather_keeps {port : Nat} {f : Frame} {s : State}  :
    KeepsO s (execNetGather port f s) := by
  unfold execNetGather
  repeat' first
    | with_reducible apply Keeps.refl
    | with_reducible apply KeepsO.next
    | with_reducible apply Keeps.after (State.serveGather_keeps ..)
    | with_reducible apply Keeps.after (State.served_keeps (h_act := fun s => ?_) ..)
    | with_reducible apply Keeps.after (State.netMessageIn_keeps (h_act := fun x0 x1 s => ?_) ..)

theorem State.serveSubmit_keeps {s : State} {k : Nat} {fs : List Frame} {f : Frame}  :
    Keeps s (State.serveSubmit s k fs f) := by
  unfold State.serveSubmit
  repeat' first
    | with_reducible apply Keeps.refl
    | ((try lift_lets -underBinder); intro x; clear_value x)
    | with_reducible apply Keeps.ite
    | split
    | with_reducible apply Keeps.after (State.refuseSub_keeps ..)
    | with_reducible apply Keeps.after (State.modPart_keeps ..)

theorem execNetSubmit_keeps {port : Nat} {f : Frame} {s : State}  :
    KeepsO s (execNetSubmit port f s) := by
  unfold execNetSubmit
  repeat' first
    | with_reducible apply Keeps.refl
    | with_reducible apply KeepsO.next
    | with_reducible apply Keeps.after (State.serveSubmit_keeps ..)
    | with_reducible apply Keeps.after (State.served_keeps (h_act := fun s => ?_) ..)
    | with_reducible apply Keeps.after (State.netMessageIn_keeps (h_act := fun x0 x1 s => ?_) ..)
    | with_reducible apply Keeps.after (State.admission_keeps ..)

theorem State.takeDone_keeps {s : State} {k : Nat} {fs : List Frame} {f : Frame}  :
    Keeps s (State.takeDone s k fs f) := by
  unfold State.takeDone
  repeat' first
    | with_reducible apply Keeps.refl
    | with_reducible assumption
    | ((try lift_lets -underBinder); intro x; first
        | (refine Keeps.cut (s := s) x ?_ (fun hx => ?_); dsimp -zeta only [x]; rotate_left; clear_value x; rotate_right)
        | (refine Keeps.cutF3 x (fun s a b => ?_) (fun hg => ?_); dsimp -zeta only [x]; rotate_left; clear_value x; rotate_right)
        | clear_value x
        | (have hP : Prop := x; clear hP))
    | with_reducible apply Keeps.ite
    | split
    | with_reducible apply Keeps.after (State.completeSend_keeps ..)
    | with_reducible apply Keeps.after (State.vwrite_keeps ..)
    | with_reducible apply Keeps.after (State.withRanges_keeps (h_f := fun s => ?_) ..)
    | (with_reducible apply Keeps.after; with_reducible apply_assumption -exfalso -symm)

theorem State.probeDone_keeps {s : State} {k msg : Nat}  :
    Keeps s (State.probeDone s k msg) := by
  unfold State.probeDone
  repeat' first
    | with_reducible apply Keeps.refl
    | with_reducible apply Keeps.ite
    | with_reducible apply Keeps.after (State.yield__keeps ..)
    | with_reducible apply Keeps.after (State.modHrv_keeps ..)

theorem execNetDone_keeps {port : Nat} {f : Frame} {s : State}  :
    KeepsO s (execNetDone port f s) := by
  unfold execNetDone
  repeat' first
    | with_reducible apply Keeps.refl
    | with_reducible apply KeepsO.next
    | with_reducible apply Keeps.after (State.probeDone_keeps ..)
    | with_reducible apply Keeps.after (State.takeDone_keeps ..)
    | with_reducible apply Keeps.after (State.netMessageIn_keeps (h_act := fun x0 x1 s => ?_) ..)

theorem execReduceUp_keeps {port : Nat} {f : Frame} {s : State}  :
    KeepsO s (execReduceUp port f s) := by
  unfold execReduceUp
  repeat' first
    | with_reducible apply Keeps.refl
    | with_reducible apply KeepsO.next
    | with_reducible apply Keeps.after (State.served_keeps (h_act := fun s => ?_) ..)
    | with_reducible apply Keeps.after (State.netMessageIn_keeps (h_act := fun x0 x1 s => ?_) ..)
    | with_reducible apply Keeps.after (State.redUp_keeps ..)

theorem execReduceDown_keeps {port : Nat} {f : Frame} {s : State}  :
    KeepsO s (execReduceDown port f s) := by
  unfold execReduceDown
  repeat' first
    | with_reducible apply Keeps.refl
    | with_reducible apply KeepsO.next
    | with_reducible apply Keeps.after (State.served_keeps (h_act := fun s => ?_) ..)
    | with_reducible apply Keeps.after (State.netMessageIn_keeps (h_act := fun x0 x1 s => ?_) ..)
    | with_reducible apply Keeps.after (State.redDown_keeps ..)

theorem execRedo_keeps {port : Nat} {f : Frame} {s : State}  :
    KeepsO s (execRedo port f s) := by
  unfold execRedo
  repeat' first
    | with_reducible apply Keeps.refl
    | with_reducible apply KeepsO.next
    | with_reducible apply Keeps.after (State.netMessageIn_keeps (h_act := fun x0 x1 s => ?_) ..)
    | with_reducible apply Keeps.after (State.redRedo_keeps ..)

theorem execNetAck_keeps {port : Nat} {f : Frame} {s : State}  :
    KeepsO s (execNetAck port f s) := by
  unfold execNetAck
  repeat' first
    | with_reducible apply Keeps.refl
    | with_reducible apply KeepsO.next
    | with_reducible apply Keeps.after (State.netEnter_keeps (h_act := fun x0 s => ?_) ..)

theorem execNetNak_keeps {port : Nat} {f : Frame} {s : State}  :
    KeepsO s (execNetNak port f s) := by
  unfold execNetNak
  repeat' first
    | with_reducible apply Keeps.refl
    | with_reducible apply KeepsO.next
    | with_reducible apply Keeps.after (State.netEnter_keeps (h_act := fun x0 s => ?_) ..)
    | with_reducible apply Keeps.after (State.netResend_keeps ..)

theorem execRtoExpiry_keeps {k : Nat} {s : State}  :
    KeepsO s (execRtoExpiry k s) := by
  unfold execRtoExpiry
  repeat' first
    | with_reducible apply Keeps.refl
    | ((try lift_lets -underBinder); intro x; clear_value x)
    | with_reducible apply KeepsO.next
    | with_reducible apply Keeps.ite
    | with_reducible apply Keeps.after (State.netResend_keeps ..)

theorem execPureAck_keeps {k : Nat} {s : State}  :
    KeepsO s (execPureAck k s) := by
  unfold execPureAck
  repeat' first
    | with_reducible apply Keeps.refl
    | with_reducible apply KeepsO.next
    | with_reducible apply Keeps.after (State.netHeader_keeps ..)

theorem execPeerReset_keeps {k : Nat} {s : State}  :
    KeepsO s (execPeerReset k s) := by
  unfold execPeerReset
  repeat' first
    | with_reducible apply Keeps.refl
    | with_reducible apply KeepsO.next
    | with_reducible apply Keeps.ite
    | split
    | with_reducible apply Keeps.after (State.modConn_keeps ..)

end Sys2Proof.Machine
end

