-- ==== Sys2Proof/Laws/KeepsPartReset.lean ====
section
/-! SUPPORT. What every operation of Machine/PartReset.lean keeps. -/
set_option linter.all false
set_option Elab.async false
namespace Sys2Proof.Machine

theorem State.drainSlots_keeps {s : State} {p : Nat}  :
    Keeps s (State.drainSlots s p) := by
  unfold State.drainSlots
  repeat' first
    | with_reducible apply Keeps.refl
    | ((try lift_lets -underBinder); intro x; clear_value x)
    | with_reducible apply Keeps.ite
    | (with_reducible apply Keeps.foldlFrom; rotate_left; intro s a; rotate_right)
    | with_reducible apply Keeps.after (State.modMbx_keeps ..)

theorem State.dropRequests_keeps {s : State} {p : Nat}  :
    Keeps s (State.dropRequests s p) := by
  unfold State.dropRequests
  repeat' first
    | with_reducible apply Keeps.refl
    | with_reducible assumption
    | ((try lift_lets -underBinder); intro x; first
        | (refine Keeps.cut (s := s) x ?_ (fun hx => ?_); dsimp -zeta only [x]; rotate_left; clear_value x; rotate_right)
        | clear_value x)
    | split
    | (with_reducible apply Keeps.foldlFrom; rotate_left; intro s a; rotate_right)
    | with_reducible apply Keeps.after (State.netDone_keeps ..)
    | with_reducible refine Keeps.mk ?_

theorem State.resetCells_keeps {s : State} {p : Nat}  :
    Keeps s (State.resetCells s p) := by
  unfold State.resetCells
  repeat' first
    | with_reducible apply Keeps.refl
    | with_reducible assumption
    | ((with_reducible refine Cell.Keeps.of ?_ ?_) <;> (simp; done))
    | ((try lift_lets -underBinder); intro x; first
        | (refine Cell.Keeps.cut (c := c) x ?_ (fun hx => ?_); dsimp -zeta only [x]; rotate_left; clear_value x; rotate_right)
        | clear_value x)
    | with_reducible apply Cell.Keeps.ite
    | with_reducible apply Cell.Keeps.after (Cell.load_keeps ..)
    | with_reducible refine Keeps.mk ?_ (hc := canon_map fun c => ?_)

theorem State.resetRingsOf_keeps {s : State} {p : Nat}  :
    Keeps s (State.resetRingsOf s p) := by
  unfold State.resetRingsOf
  repeat' first
    | with_reducible apply Keeps.refl
    | with_reducible assumption
    | ((try lift_lets -underBinder); intro x; first
        | (refine Keeps.cut (s := s) x ?_ (fun hx => ?_); dsimp -zeta only [x]; rotate_left; clear_value x; rotate_right)
        | (refine Keeps.cutF2 x (fun s a => ?_) (fun hg => ?_); dsimp -zeta only [x]; rotate_left; clear_value x; rotate_right))
    | with_reducible apply Keeps.after (State.eachCe_keeps (h_f := fun s y0 => ?_) ..)
    | with_reducible apply Keeps.after (State.ceAbortPart_keeps ..)
    | with_reducible apply Keeps.after (State.setReg_keeps ..)
    | with_reducible apply Keeps.after (State.modPart_keeps ..)
    | (with_reducible apply Keeps.after; with_reducible apply_assumption -exfalso -symm)

theorem State.partReset_keeps {s : State} {p : Nat}  :
    Keeps s (State.partReset s p) := by
  unfold State.partReset
  repeat' first
    | with_reducible apply Keeps.refl
    | with_reducible assumption
    | ((try lift_lets -underBinder); intro x; first
        | (refine Keeps.cut (s := s) x ?_ (fun hx => ?_); dsimp -zeta only [x]; rotate_left; clear_value x; rotate_right)
        | clear_value x)
    | with_reducible apply Keeps.ite
    | split
    | (with_reducible apply Keeps.foldlFrom; rotate_left; intro s a; rotate_right)
    | with_reducible apply Keeps.after (State.resetRingsOf_keeps ..)
    | with_reducible apply Keeps.after (State.resetCells_keeps ..)
    | with_reducible apply Keeps.after (State.dropRequests_keeps ..)
    | with_reducible apply Keeps.after (State.drainSlots_keeps ..)
    | with_reducible apply Keeps.after (State.dropEpochs_keeps ..)
    | with_reducible apply Keeps.after (State.netDone_keeps ..)
    | with_reducible apply Keeps.after (State.dropBatches_keeps ..)
    | with_reducible apply Keeps.after (State.drainAll_keeps ..)
    | with_reducible apply Keeps.after (State.modImage_keeps ..)
    | with_reducible apply Keeps.after (State.modHrv_keeps ..)
    | with_reducible apply Keeps.after (State.modXlt_keeps ..)
    | with_reducible apply Keeps.after (State.modSvc_keeps ..)
    | with_reducible apply Keeps.after (State.modPart_keeps ..)
    | with_reducible refine Keeps.mk ?_

theorem State.requestPartReset_keeps {s : State} {p : Nat}  :
    Keeps s (State.requestPartReset s p) := by
  unfold State.requestPartReset
  repeat' first
    | with_reducible apply Keeps.refl
    | with_reducible assumption
    | ((try lift_lets -underBinder); intro x; first
        | (refine Keeps.cut (s := s) x ?_ (fun hx => ?_); dsimp -zeta only [x]; rotate_left; clear_value x; rotate_right)
        | clear_value x)
    | with_reducible apply Keeps.ite
    | with_reducible apply Keeps.after (State.partReset_keeps ..)
    | with_reducible apply Keeps.after (State.sendCommand_keeps ..)
    | with_reducible apply Keeps.after (State.modPower_keeps ..)
    | with_reducible apply Keeps.after (State.modHrv_keeps ..)

theorem execGlbResetPartition_keeps {p : Nat} {s : State}  :
    KeepsO s (execGlbResetPartition p s) := by
  unfold execGlbResetPartition
  repeat' first
    | with_reducible apply Keeps.refl
    | with_reducible apply KeepsO.next
    | with_reducible apply Keeps.after (State.requestPartReset_keeps ..)

theorem State.partResetDone_keeps {s : State} {p : Nat}  :
    Keeps s (State.partResetDone s p) := by
  unfold State.partResetDone
  repeat' first
    | with_reducible apply Keeps.refl
    | with_reducible assumption
    | ((try lift_lets -underBinder); intro x; first
        | (refine Keeps.cut (s := s) x ?_ (fun hx => ?_); dsimp -zeta only [x]; rotate_left; clear_value x; rotate_right)
        | clear_value x)
    | with_reducible apply Keeps.ite
    | with_reducible apply Keeps.after (State.partReset_keeps ..)
    | with_reducible apply Keeps.after (State.reopen_keeps ..)
    | with_reducible apply Keeps.after (State.releaseHeld_keeps ..)
    | with_reducible apply Keeps.after (State.releaseCmp_keeps ..)
    | with_reducible apply Keeps.after (State.modImage_keeps ..)
    | with_reducible apply Keeps.after (State.modPower_keeps ..)
    | with_reducible apply Keeps.after (State.modPart_keeps ..)
    | with_reducible refine Keeps.mk ?_

theorem execPartitionResetDone_keeps {p : Nat} {s : State}  :
    KeepsO s (execPartitionResetDone p s) := by
  unfold execPartitionResetDone
  repeat' first
    | with_reducible apply Keeps.refl
    | with_reducible apply KeepsO.next
    | with_reducible apply Keeps.after (State.partResetDone_keeps ..)

end Sys2Proof.Machine
end

