-- ==== Sys2Proof/Laws/KeepsHorvi.lean ====
section
/-! SUPPORT. What every operation of Machine/Horvi.lean keeps. -/
set_option linter.all false
set_option Elab.async false
namespace Sys2Proof.Machine

theorem State.modStream_keeps {s : State} {n : Nat} {f : HrvStream → HrvStream}  :
    Keeps s (State.modStream s n f) := by
  unfold State.modStream
  repeat' first
    | with_reducible apply Keeps.refl
    | with_reducible apply Keeps.after (State.modHrv_keeps ..)

theorem State.hrvDrop_keeps {s : State}  :
    Keeps s (State.hrvDrop s) := by
  unfold State.hrvDrop
  repeat' first
    | with_reducible apply Keeps.refl
    | with_reducible apply Keeps.after (State.modHrv_keeps ..)

theorem State.hrvHeader_keeps {s : State} {type stream : Nat}  :
    Keeps s (State.hrvHeader s type stream) := by
  unfold State.hrvHeader
  repeat' first
    | with_reducible apply Keeps.refl
    | with_reducible assumption
    | ((try lift_lets -underBinder); intro x; (refine Keeps.cut (s := s) x ?_ (fun hx => ?_); dsimp -zeta only [x]; rotate_left; clear_value x; rotate_right))
    | with_reducible apply Keeps.after (State.hrvSend_keeps ..)
    | with_reducible apply Keeps.after (State.modHrv_keeps ..)

theorem State.hrvResend_keeps {s : State} {stream : Nat}  :
    Keeps s (State.hrvResend s stream) := by
  unfold State.hrvResend
  repeat' first
    | with_reducible apply Keeps.refl
    | with_reducible assumption
    | ((try lift_lets -underBinder); intro x; first
        | (refine Keeps.cut (s := s) x ?_ (fun hx => ?_); dsimp -zeta only [x]; rotate_left; clear_value x; rotate_right)
        | clear_value x)
    | with_reducible apply Keeps.ite
    | with_reducible apply Keeps.after (State.modStream_keeps ..)
    | with_reducible apply Keeps.after (State.modHrv_keeps ..)

theorem State.hrvAcked_keeps {s : State} {stream : Nat} {psn : BitVec 24}  :
    Keeps s (State.hrvAcked s stream psn) := by
  unfold State.hrvAcked
  repeat' first
    | with_reducible apply Keeps.refl
    | with_reducible assumption
    | ((try lift_lets -underBinder); intro x; first
        | (refine Keeps.cut (s := s) x ?_ (fun hx => ?_); dsimp -zeta only [x]; rotate_left; clear_value x; rotate_right)
        | clear_value x)
    | with_reducible apply Keeps.ite
    | split
    | (with_reducible apply Keeps.foldlFrom; rotate_left; intro s a; rotate_right)
    | with_reducible apply Keeps.after (State.modStream_keeps ..)
    | with_reducible apply Keeps.after (State.closeReq_keeps ..)
    | with_reducible apply Keeps.after (State.hrvPump_keeps ..)
    | with_reducible refine Keeps.mk ?_

theorem State.hrvEnter_keeps {s : State} {type : Nat} {f : Frame} {act : State → State} (h_act : ∀ t, Keeps t (act t)) :
    Keeps s (State.hrvEnter s type f act) := by
  unfold State.hrvEnter
  repeat' first
    | with_reducible apply Keeps.refl
    | ((try lift_lets -underBinder); intro x; clear_value x)
    | with_reducible apply Keeps.ite
    | with_reducible apply Keeps.after (h_act ..)
    | with_reducible apply Keeps.after (State.hrvDrop_keeps ..)
    | with_reducible apply Keeps.after (State.modHrv_keeps ..)

theorem State.hrvOrdered_keeps {s : State} {type stream : Nat} {f : Frame} {act : State → State} (h_act : ∀ t, Keeps t (act t)) :
    Keeps s (State.hrvOrdered s type stream f act) := by
  unfold State.hrvOrdered
  repeat' first
    | with_reducible apply Keeps.refl
    | with_reducible assumption
    | ((try lift_lets -underBinder); intro x; (refine Keeps.cut (s := s) x ?_ (fun hx => ?_); dsimp -zeta only [x]; rotate_left; clear_value x; rotate_right))
    | with_reducible apply Keeps.ite
    | with_reducible apply Keeps.after (h_act ..)
    | with_reducible apply Keeps.after (State.hrvEnter_keeps (h_act := fun s => ?_) ..)
    | with_reducible apply Keeps.after (State.hrvAcked_keeps ..)
    | with_reducible apply Keeps.after (State.hrvHeader_keeps ..)
    | with_reducible apply Keeps.after (State.modStream_keeps ..)

theorem execHrvAck_keeps {f : Frame} {s : State}  :
    KeepsO s (execHrvAck f s) := by
  unfold execHrvAck
  repeat' first
    | with_reducible apply Keeps.refl
    | with_reducible apply KeepsO.next
    | split
    | with_reducible apply Keeps.after (State.hrvEnter_keeps (h_act := fun s => ?_) ..)
    | with_reducible apply Keeps.after (State.hrvAcked_keeps ..)

theorem execHrvNak_keeps {f : Frame} {s : State}  :
    KeepsO s (execHrvNak f s) := by
  unfold execHrvNak
  repeat' first
    | with_reducible apply Keeps.refl
    | with_reducible apply KeepsO.next
    | split
    | with_reducible apply Keeps.after (State.hrvEnter_keeps (h_act := fun s => ?_) ..)
    | with_reducible apply Keeps.after (State.hrvAcked_keeps ..)
    | with_reducible apply Keeps.after (State.hrvResend_keeps ..)

theorem execHrvBadFrame_keeps {s : State}  :
    KeepsO s (execHrvBadFrame s) := by
  unfold execHrvBadFrame
  repeat' first
    | with_reducible apply Keeps.refl
    | with_reducible apply KeepsO.next
    | with_reducible apply Keeps.ite
    | with_reducible apply Keeps.after (State.hrvDrop_keeps ..)

theorem execHrvResend_keeps {stream : Nat} {s : State}  :
    KeepsO s (execHrvResend stream s) := by
  unfold execHrvResend
  repeat' first
    | with_reducible apply Keeps.refl
    | with_reducible apply KeepsO.next
    | with_reducible apply Keeps.ite
    | with_reducible apply Keeps.after (State.hrvResend_keeps ..)

theorem execHrvPureAck_keeps {stream : Nat} {s : State}  :
    KeepsO s (execHrvPureAck stream s) := by
  unfold execHrvPureAck
  repeat' first
    | with_reducible apply Keeps.refl
    | with_reducible apply KeepsO.next
    | with_reducible apply Keeps.ite
    | with_reducible apply Keeps.after (State.hrvHeader_keeps ..)

theorem State.heartbeat_keeps {s : State} {lane : Nat}  :
    Keeps s (State.heartbeat s lane) := by
  unfold State.heartbeat
  repeat' first
    | with_reducible apply Keeps.refl
    | ((try lift_lets -underBinder); intro x; clear_value x)
    | split
    | with_reducible apply Keeps.after (State.modHrv_keeps ..)

theorem execHeartbeat_keeps {lane : Nat} {f : Frame} {s : State}  :
    KeepsO s (execHeartbeat lane f s) := by
  unfold execHeartbeat
  repeat' first
    | with_reducible apply Keeps.refl
    | with_reducible apply KeepsO.next
    | with_reducible apply Keeps.ite
    | with_reducible apply Keeps.after (State.heartbeat_keeps ..)
    | with_reducible apply Keeps.after (State.hrvEnter_keeps (h_act := fun s => ?_) ..)

theorem execHeartbeatSend_keeps {s : State}  :
    KeepsO s (execHeartbeatSend s) := by
  unfold execHeartbeatSend
  repeat' first
    | with_reducible apply Keeps.refl
    | with_reducible apply KeepsO.next
    | with_reducible apply Keeps.ite
    | (with_reducible apply Keeps.foldlFrom; rotate_left; intro s a; rotate_right)
    | with_reducible apply Keeps.after (State.hrvSend_keeps ..)

theorem State.laneReport_keeps {s : State} {lane : Nat}  :
    Keeps s (State.laneReport s lane) := by
  unfold State.laneReport
  repeat' first
    | with_reducible apply Keeps.refl
    | with_reducible apply Keeps.after (State.report_keeps ..)

theorem State.laneDown_keeps {s : State} {lane : Nat}  :
    Keeps s (State.laneDown s lane) := by
  unfold State.laneDown
  repeat' first
    | with_reducible apply Keeps.refl
    | ((try lift_lets -underBinder); intro x; clear_value x)
    | with_reducible apply Keeps.ite
    | with_reducible apply Keeps.after (State.laneReport_keeps ..)
    | with_reducible apply Keeps.after (State.modHrv_keeps ..)

theorem execLaneDown_keeps {lane : Nat} {s : State}  :
    KeepsO s (execLaneDown lane s) := by
  unfold execLaneDown
  repeat' first
    | with_reducible apply Keeps.refl
    | with_reducible apply KeepsO.next
    | with_reducible apply Keeps.after (State.laneDown_keeps ..)

theorem State.laneReturn_keeps {s : State} {lane : Nat}  :
    Keeps s (State.laneReturn s lane) := by
  unfold State.laneReturn
  repeat' first
    | with_reducible apply Keeps.refl
    | ((try lift_lets -underBinder); intro x; clear_value x)
    | with_reducible apply Keeps.ite
    | with_reducible apply Keeps.after (State.modHrv_keeps ..)

theorem execLaneReturn_keeps {lane : Nat} {s : State}  :
    KeepsO s (execLaneReturn lane s) := by
  unfold execLaneReturn
  repeat' first
    | with_reducible apply Keeps.refl
    | with_reducible apply KeepsO.next
    | with_reducible apply Keeps.after (State.laneReturn_keeps ..)

theorem State.sendHello_keeps {s : State}  :
    Keeps s (State.sendHello s) := by
  unfold State.sendHello
  repeat' first
    | with_reducible apply Keeps.refl
    | ((try lift_lets -underBinder); intro x; clear_value x)
    | with_reducible apply Keeps.after (State.hrvSend_keeps ..)

theorem execHelloSend_keeps {s : State}  :
    KeepsO s (execHelloSend s) := by
  unfold execHelloSend
  repeat' first
    | with_reducible apply Keeps.refl
    | with_reducible apply KeepsO.next
    | with_reducible apply Keeps.ite
    | with_reducible apply Keeps.after (State.sendHello_keeps ..)

theorem State.laneTrained_keeps {s : State} {lane : Nat}  :
    Keeps s (State.laneTrained s lane) := by
  unfold State.laneTrained
  repeat' first
    | with_reducible apply Keeps.refl
    | with_reducible assumption
    | ((try lift_lets -underBinder); intro x; first
        | (refine Keeps.cut (s := s) x ?_ (fun hx => ?_); dsimp -zeta only [x]; rotate_left; clear_value x; rotate_right)
        | clear_value x)
    | with_reducible apply Keeps.ite
    | with_reducible apply Keeps.after (State.sendHello_keeps ..)
    | with_reducible apply Keeps.after (State.resetStreams_keeps ..)
    | with_reducible apply Keeps.after (State.modHrv_keeps ..)

theorem execHorviLaneTrained_keeps {lane : Nat} {s : State}  :
    KeepsO s (execHorviLaneTrained lane s) := by
  unfold execHorviLaneTrained
  repeat' first
    | with_reducible apply Keeps.refl
    | with_reducible apply KeepsO.next
    | with_reducible apply Keeps.after (State.laneTrained_keeps ..)

theorem State.sendSync_keeps {s : State} {kind n : Nat} {d : Data}  :
    Keeps s (State.sendSync s kind n d) := by
  unfold State.sendSync
  repeat' first
    | with_reducible apply Keeps.refl
    | ((try lift_lets -underBinder); intro x; clear_value x)
    | (with_reducible apply Keeps.foldlFrom; rotate_left; intro s a; rotate_right)
    | with_reducible apply Keeps.after (State.hrvSend_keeps ..)

theorem State.sendLog_keeps {s : State} {pos : Nat}  :
    Keeps s (State.sendLog s pos) := by
  unfold State.sendLog
  repeat' first
    | with_reducible apply Keeps.refl
    | with_reducible assumption
    | ((try lift_lets -underBinder); intro x; (refine Keeps.cut (s := s) x ?_ (fun hx => ?_); dsimp -zeta only [x]; rotate_left; clear_value x; rotate_right))
    | (with_reducible apply Keeps.foldlFrom; rotate_left; intro s a; rotate_right)
    | with_reducible apply Keeps.after (State.sendSync_keeps ..)
    | with_reducible apply Keeps.after (State.modHrv_keeps ..)

theorem State.sendRows_keeps {s : State} {t : TableEntry} {ep : Epoch}  :
    Keeps s (State.sendRows s t ep) := by
  unfold State.sendRows
  repeat' first
    | with_reducible apply Keeps.refl
    | split
    | (with_reducible apply Keeps.foldlFrom; rotate_left; intro s a; rotate_right)
    | with_reducible apply Keeps.after (State.sendSync_keeps ..)
    | with_reducible apply Keeps.after (State.areaRead_keeps ..)
    | (with_reducible apply Keeps.of_pair; with_reducible assumption)

theorem State.sendFull_keeps {s : State}  :
    Keeps s (State.sendFull s) := by
  unfold State.sendFull
  repeat' first
    | with_reducible apply Keeps.refl
    | with_reducible assumption
    | ((try lift_lets -underBinder); intro x; first
        | (refine Keeps.cut (s := s) x ?_ (fun hx => ?_); dsimp -zeta only [x]; rotate_left; clear_value x; rotate_right)
        | clear_value x)
    | with_reducible apply Keeps.ite
    | (with_reducible apply Keeps.foldlFrom; rotate_left; intro s a; rotate_right)
    | with_reducible apply Keeps.after (State.sendRows_keeps ..)
    | with_reducible apply Keeps.after (State.sendSync_keeps ..)
    | with_reducible apply Keeps.after (State.sendWindow_keeps ..)
    | with_reducible apply Keeps.after (State.modHrv_keeps ..)

theorem State.beginSource_keeps {s : State} {pos : Nat} {soloThere : Bool}  :
    Keeps s (State.beginSource s pos soloThere) := by
  unfold State.beginSource
  repeat' first
    | with_reducible apply Keeps.refl
    | ((try lift_lets -underBinder); intro x; clear_value x)
    | with_reducible apply Keeps.ite
    | with_reducible apply Keeps.after (State.sendFull_keeps ..)
    | with_reducible apply Keeps.after (State.sendLog_keeps ..)

theorem State.hello_keeps {s : State} {d : Bytes}  :
    Keeps s (State.hello s d) := by
  unfold State.hello
  repeat' first
    | with_reducible apply Keeps.refl
    | with_reducible assumption
    | ((try lift_lets -underBinder); intro x; first
        | (refine Keeps.cut (s := s) x ?_ (fun hx => ?_); dsimp -zeta only [x]; rotate_left; clear_value x; rotate_right)
        | clear_value x
        | (have hP : Prop := x; clear hP))
    | with_reducible apply Keeps.ite
    | split
    | (with_reducible apply Keeps.foldlFrom; rotate_left; intro s a; rotate_right)
    | with_reducible apply Keeps.after (State.beginSource_keeps ..)
    | with_reducible apply Keeps.after (State.reopen_keeps ..)
    | with_reducible apply Keeps.after (State.steward_keeps ..)
    | with_reducible apply Keeps.after (State.modHrv_keeps ..)

theorem execHello_keeps {f : Frame} {s : State}  :
    KeepsO s (execHello f s) := by
  unfold execHello
  repeat' first
    | with_reducible apply Keeps.refl
    | with_reducible apply KeepsO.next
    | with_reducible apply Keeps.ite
    | with_reducible apply Keeps.after (State.hello_keeps ..)
    | with_reducible apply Keeps.after (State.hrvEnter_keeps (h_act := fun s => ?_) ..)

theorem State.applyUpdate_keeps {s : State} {d : Bytes}  :
    Keeps s (State.applyUpdate s d) := by
  unfold State.applyUpdate
  repeat' first
    | with_reducible apply Keeps.refl
    | ((try lift_lets -underBinder); intro x; clear_value x)
    | split
    | with_reducible apply Keeps.after (State.newId_keeps ..)
    | with_reducible apply Keeps.after (State.modDie_keeps ..)
    | (with_reducible apply Keeps.of_pair; with_reducible assumption)

theorem State.takeSync_keeps {s : State} {kind n : Nat} {d : Data}  :
    Keeps s (State.takeSync s kind n d) := by
  unfold State.takeSync
  repeat' first
    | with_reducible apply Keeps.refl
    | with_reducible assumption
    | ((try lift_lets -underBinder); intro x; first
        | (refine Keeps.cut (s := s) x ?_ (fun hx => ?_); dsimp -zeta only [x]; rotate_left; clear_value x; rotate_right)
        | clear_value x)
    | with_reducible apply Keeps.ite
    | split
    | with_reducible apply Keeps.after (State.applyUpdate_keeps ..)
    | with_reducible apply Keeps.after (State.dropEpochs_keeps ..)
    | with_reducible apply Keeps.after (State.areaWrite_keeps ..)
    | with_reducible apply Keeps.after (State.modHrv_keeps ..)
    | with_reducible apply Keeps.after (State.modPart_keeps ..)
    | with_reducible refine Keeps.mk ?_

theorem execSync_keeps {f : Frame} {s : State}  :
    KeepsO s (execSync f s) := by
  unfold execSync
  repeat' first
    | with_reducible apply Keeps.refl
    | ((try lift_lets -underBinder); intro x; clear_value x)
    | with_reducible apply KeepsO.next
    | with_reducible apply Keeps.ite
    | with_reducible apply Keeps.after (State.takeSync_keeps ..)
    | with_reducible apply Keeps.after (State.hrvOrdered_keeps (h_act := fun s => ?_) ..)
    | with_reducible apply Keeps.after (State.modHrv_keeps ..)

theorem State.syncComplete_keeps {s : State}  :
    Keeps s (State.syncComplete s) := by
  unfold State.syncComplete
  repeat' first
    | with_reducible apply Keeps.refl
    | with_reducible assumption
    | ((try lift_lets -underBinder); intro x; first
        | (refine Keeps.cut (s := s) x ?_ (fun hx => ?_); dsimp -zeta only [x]; rotate_left; clear_value x; rotate_right)
        | clear_value x)
    | with_reducible apply Keeps.ite
    | (with_reducible apply Keeps.foldlFrom; rotate_left; intro s a; rotate_right)
    | with_reducible apply Keeps.after (State.sendLog_keeps ..)
    | with_reducible apply Keeps.after (State.sendSync_keeps ..)
    | with_reducible apply Keeps.after (State.reopen_keeps ..)
    | with_reducible apply Keeps.after (State.steward_keeps ..)
    | with_reducible apply Keeps.after (State.hrvSend_keeps ..)
    | with_reducible apply Keeps.after (State.modHrv_keeps ..)

theorem execSyncComplete_keeps {s : State}  :
    KeepsO s (execSyncComplete s) := by
  unfold execSyncComplete
  repeat' first
    | with_reducible apply Keeps.refl
    | with_reducible apply KeepsO.next
    | with_reducible apply Keeps.after (State.syncComplete_keeps ..)

theorem execHrvUpdate_keeps {f : Frame} {s : State}  :
    KeepsO s (execHrvUpdate f s) := by
  unfold execHrvUpdate
  repeat' first
    | with_reducible apply Keeps.refl
    | ((try lift_lets -underBinder); intro x; clear_value x)
    | with_reducible apply KeepsO.next
    | with_reducible apply Keeps.ite
    | split
    | with_reducible apply Keeps.after (State.applyUpdate_keeps ..)
    | with_reducible apply Keeps.after (State.hrvOrdered_keeps (h_act := fun s => ?_) ..)
    | with_reducible apply Keeps.after (State.modHrv_keeps ..)

theorem State.commandDone_keeps {s : State} {op p table : Nat}  :
    Keeps s (State.commandDone s op p table) := by
  unfold State.commandDone
  repeat' first
    | with_reducible apply Keeps.refl
    | with_reducible apply Keeps.after (State.hrvSend_keeps ..)

theorem State.command_keeps {s : State} {a : Nat} {d : Bytes}  :
    Keeps s (State.command s a d) := by
  unfold State.command
  repeat' first
    | with_reducible apply Keeps.refl
    | with_reducible assumption
    | ((try lift_lets -underBinder); intro x; first
        | (refine Keeps.cut (s := s) x ?_ (fun hx => ?_); dsimp -zeta only [x]; rotate_left; clear_value x; rotate_right)
        | (refine Keeps.cutF x (fun s => ?_) (fun hf => ?_); dsimp -zeta only [x]; rotate_left; clear_value x; rotate_right)
        | clear_value x)
    | with_reducible apply Keeps.ite
    | split
    | with_reducible apply Keeps.after (State.commandDone_keeps ..)
    | with_reducible apply Keeps.after (State.partReset_keeps ..)
    | with_reducible apply Keeps.after (State.tryPartnerCommit_keeps ..)
    | with_reducible apply Keeps.after (State.sendCommand_keeps ..)
    | with_reducible apply Keeps.after (State.tblRun_keeps ..)
    | with_reducible apply Keeps.after (State.tblIdle_keeps ..)
    | with_reducible apply Keeps.after (State.modHrv_keeps ..)
    | (with_reducible apply Keeps.after; with_reducible apply_assumption -exfalso -symm)

theorem execCommand_keeps {f : Frame} {s : State}  :
    KeepsO s (execCommand f s) := by
  unfold execCommand
  repeat' first
    | with_reducible apply Keeps.refl
    | with_reducible apply KeepsO.next
    | with_reducible apply Keeps.ite
    | with_reducible apply Keeps.after (State.command_keeps ..)
    | with_reducible apply Keeps.after (State.hrvOrdered_keeps (h_act := fun s => ?_) ..)

theorem State.takeCommandDone_keeps {s : State} {a : Nat}  :
    Keeps s (State.takeCommandDone s a) := by
  unfold State.takeCommandDone
  repeat' first
    | with_reducible apply Keeps.refl
    | with_reducible assumption
    | ((try lift_lets -underBinder); intro x; first
        | (refine Keeps.cut (s := s) x ?_ (fun hx => ?_); dsimp -zeta only [x]; rotate_left; clear_value x; rotate_right)
        | clear_value x)
    | with_reducible apply Keeps.ite
    | split
    | with_reducible apply Keeps.after (State.beginCommit_keeps ..)
    | with_reducible apply Keeps.after (State.tblIdle_keeps ..)
    | with_reducible apply Keeps.after (State.releaseIf_keeps ..)
    | with_reducible apply Keeps.after (State.modHrv_keeps ..)

theorem execCommandDone_keeps {f : Frame} {s : State}  :
    KeepsO s (execCommandDone f s) := by
  unfold execCommandDone
  repeat' first
    | with_reducible apply Keeps.refl
    | with_reducible apply KeepsO.next
    | with_reducible apply Keeps.ite
    | with_reducible apply Keeps.after (State.takeCommandDone_keeps ..)
    | with_reducible apply Keeps.after (State.hrvOrdered_keeps (h_act := fun s => ?_) ..)

theorem execWindow_keeps {f : Frame} {s : State}  :
    KeepsO s (execWindow f s) := by
  unfold execWindow
  repeat' first
    | with_reducible apply Keeps.refl
    | ((try lift_lets -underBinder); intro x; clear_value x)
    | with_reducible apply KeepsO.next
    | with_reducible apply Keeps.ite
    | with_reducible apply Keeps.after (State.hrvOrdered_keeps (h_act := fun s => ?_) ..)
    | with_reducible apply Keeps.after (State.vwrite_keeps ..)
    | with_reducible apply Keeps.after (State.modHrv_keeps ..)

theorem State.takeJournal_keeps {s : State} {slot : Nat} {d : Bytes}  :
    Keeps s (State.takeJournal s slot d) := by
  unfold State.takeJournal
  repeat' first
    | with_reducible apply Keeps.refl
    | with_reducible assumption
    | ((try lift_lets -underBinder); intro x; first
        | (refine Keeps.cut (s := s) x ?_ (fun hx => ?_); dsimp -zeta only [x]; rotate_left; clear_value x; rotate_right)
        | clear_value x)
    | with_reducible apply Keeps.after (State.modHrv_keeps ..)
    | with_reducible refine Keeps.mk ?_

theorem execJournal_keeps {f : Frame} {s : State}  :
    KeepsO s (execJournal f s) := by
  unfold execJournal
  repeat' first
    | with_reducible apply Keeps.refl
    | with_reducible apply KeepsO.next
    | with_reducible apply Keeps.after (State.takeJournal_keeps ..)
    | with_reducible apply Keeps.after (State.hrvOrdered_keeps (h_act := fun s => ?_) ..)

theorem execJournalDone_keeps {f : Frame} {s : State}  :
    KeepsO s (execJournalDone f s) := by
  unfold execJournalDone
  repeat' first
    | with_reducible apply Keeps.refl
    | ((try lift_lets -underBinder); intro x; clear_value x)
    | with_reducible apply KeepsO.next
    | with_reducible apply Keeps.after (State.hrvOrdered_keeps (h_act := fun s => ?_) ..)
    | with_reducible apply Keeps.after (State.releaseIf_keeps ..)
    | with_reducible apply Keeps.after (State.modHrv_keeps ..)

theorem State.lossRecord_keeps {s : State} {sub : Nat}  :
    Keeps s (State.lossRecord s sub) := by
  unfold State.lossRecord
  repeat' first
    | with_reducible apply Keeps.refl
    | with_reducible apply Keeps.after (State.steward_keeps ..)
    | with_reducible apply Keeps.after (State.modHealth_keeps ..)
    | with_reducible apply Keeps.after (State.modHrv_keeps ..)

theorem State.lossAction_keeps {s : State} {goodbye : Bool}  :
    Keeps s (State.lossAction s goodbye) := by
  unfold State.lossAction
  repeat' first
    | with_reducible apply Keeps.refl
    | with_reducible assumption
    | ((try lift_lets -underBinder); intro x; first
        | (refine Keeps.cut (s := s) x ?_ (fun hx => ?_); dsimp -zeta only [x]; rotate_left; clear_value x; rotate_right)
        | clear_value x)
    | with_reducible apply Keeps.ite
    | split
    | with_reducible apply Keeps.after (State.takeover_keeps ..)
    | with_reducible apply Keeps.after (State.newMsg_keeps ..)
    | with_reducible apply Keeps.after (State.netMessage_keeps ..)
    | with_reducible apply Keeps.after (State.modHrv_keeps ..)
    | (with_reducible apply Keeps.of_pair; with_reducible assumption)

theorem State.partnerLoss_keeps {s : State}  :
    Keeps s (State.partnerLoss s) := by
  unfold State.partnerLoss
  repeat' first
    | with_reducible apply Keeps.refl
    | with_reducible assumption
    | ((try lift_lets -underBinder); intro x; first
        | (refine Keeps.cut (s := s) x ?_ (fun hx => ?_); dsimp -zeta only [x]; rotate_left; clear_value x; rotate_right)
        | clear_value x)
    | with_reducible apply Keeps.ite
    | with_reducible apply Keeps.after (State.lossAction_keeps ..)
    | with_reducible apply Keeps.after (State.lossRecord_keeps ..)
    | with_reducible apply Keeps.after (State.modHrv_keeps ..)

theorem execPartnerLoss_keeps {s : State}  :
    KeepsO s (execPartnerLoss s) := by
  unfold execPartnerLoss
  repeat' first
    | with_reducible apply Keeps.refl
    | with_reducible apply KeepsO.next
    | with_reducible apply Keeps.after (State.partnerLoss_keeps ..)

theorem State.goodbye_keeps {s : State} {reason : Nat}  :
    Keeps s (State.goodbye s reason) := by
  unfold State.goodbye
  repeat' first
    | with_reducible apply Keeps.refl
    | ((try lift_lets -underBinder); intro x; clear_value x)
    | with_reducible apply Keeps.ite
    | split
    | with_reducible apply Keeps.after (State.lossRecord_keeps ..)
    | with_reducible apply Keeps.after (State.takeover_keeps ..)
    | with_reducible apply Keeps.after (State.modHrv_keeps ..)

theorem execGoodbye_keeps {f : Frame} {s : State}  :
    KeepsO s (execGoodbye f s) := by
  unfold execGoodbye
  repeat' first
    | with_reducible apply Keeps.refl
    | with_reducible apply KeepsO.next
    | with_reducible apply Keeps.after (State.goodbye_keeps ..)
    | with_reducible apply Keeps.after (State.hrvEnter_keeps (h_act := fun s => ?_) ..)

theorem execProbeWindowExpiry_keeps {s : State}  :
    KeepsO s (execProbeWindowExpiry s) := by
  unfold execProbeWindowExpiry
  repeat' first
    | with_reducible apply Keeps.refl
    | with_reducible apply KeepsO.next
    | with_reducible apply Keeps.ite
    | split
    | with_reducible apply Keeps.after (State.takeover_keeps ..)

theorem State.linkEn_keeps {s : State} {b : Bool}  :
    Keeps s (State.linkEn s b) := by
  unfold State.linkEn
  repeat' first
    | with_reducible apply Keeps.refl
    | with_reducible assumption
    | ((try lift_lets -underBinder); intro x; (refine Keeps.cut (s := s) x ?_ (fun hx => ?_); dsimp -zeta only [x]; rotate_left; clear_value x; rotate_right))
    | with_reducible apply Keeps.ite
    | (with_reducible apply Keeps.foldlFrom; rotate_left; intro s a; rotate_right)
    | with_reducible apply Keeps.after (State.unpair_keeps ..)
    | with_reducible apply Keeps.after (State.reopen_keeps ..)
    | with_reducible apply Keeps.after (State.hrvSend_keeps ..)
    | with_reducible apply Keeps.after (State.releaseIf_keeps ..)
    | with_reducible apply Keeps.after (State.modHrv_keeps ..)

theorem execHrvLinkEn_keeps {b : Bool} {s : State}  :
    KeepsO s (execHrvLinkEn b s) := by
  unfold execHrvLinkEn
  repeat' first
    | with_reducible apply Keeps.refl
    | with_reducible apply KeepsO.next
    | with_reducible apply Keeps.after (State.linkEn_keeps ..)

theorem execHrvSakWrite_keeps {a word : Nat} {val : BitVec 64} {s : State}  :
    KeepsO s (execHrvSakWrite a word val s) := by
  unfold execHrvSakWrite
  repeat' first
    | with_reducible apply Keeps.refl
    | with_reducible apply KeepsO.next
    | with_reducible apply Keeps.ite
    | with_reducible apply Keeps.after (State.modHrv_keeps ..)

end Sys2Proof.Machine
end

