-- ==== Sys2Proof/Laws/KeepsLarks.lean ====
section
/-! SUPPORT. What every operation of Machine/Larks.lean keeps. -/
set_option linter.all false
set_option Elab.async false
namespace Sys2Proof.Machine

theorem State.larkSelWrite_keeps {s : State} {val : Nat}  :
    Keeps s (State.larkSelWrite s val) := by
  unfold State.larkSelWrite
  repeat' first
    | with_reducible apply Keeps.refl
    | with_reducible apply Keeps.after (State.setReg_keeps ..)
    | with_reducible apply Keeps.after (State.modHealth_keeps ..)

theorem execLarkSelWrite_keeps {val : BitVec 64} {s : State}  :
    KeepsO s (execLarkSelWrite val s) := by
  unfold execLarkSelWrite
  repeat' first
    | with_reducible apply Keeps.refl
    | with_reducible apply KeepsO.next
    | with_reducible apply Keeps.after (State.larkSelWrite_keeps ..)

theorem execLarkCopyDone_keeps {s : State}  :
    KeepsO s (execLarkCopyDone s) := by
  unfold execLarkCopyDone
  repeat' first
    | with_reducible apply Keeps.refl
    | ((try lift_lets -underBinder); intro x; clear_value x)
    | with_reducible apply KeepsO.next
    | with_reducible apply Keeps.ite
    | with_reducible apply Keeps.after (State.modHealth_keeps ..)

theorem execLarkFlush_keeps {s : State}  :
    KeepsO s (execLarkFlush s) := by
  unfold execLarkFlush
  repeat' first
    | with_reducible apply Keeps.refl
    | ((try lift_lets -underBinder); intro x; clear_value x)
    | with_reducible apply KeepsO.next
    | with_reducible apply Keeps.after (State.modHealth_keeps ..)

theorem State.marginSample_keeps {s : State} {u : UnitId} {mv ps : Nat}  :
    Keeps s (State.marginSample s u mv ps) := by
  unfold State.marginSample
  repeat' first
    | with_reducible apply Keeps.refl
    | with_reducible assumption
    | ((try lift_lets -underBinder); intro x; (refine Keeps.cut (s := s) x ?_ (fun hx => ?_); dsimp -zeta only [x]; rotate_left; clear_value x; rotate_right))
    | with_reducible apply Keeps.ite
    | with_reducible apply Keeps.after (State.steward_keeps ..)
    | with_reducible apply Keeps.after (State.modLark_keeps ..)

theorem execMarginSample_keeps {unit : UnitId} {mv ps : Nat} {s : State}  :
    KeepsO s (execMarginSample unit mv ps s) := by
  unfold execMarginSample
  repeat' first
    | with_reducible apply Keeps.refl
    | with_reducible apply KeepsO.next
    | with_reducible apply Keeps.after (State.marginSample_keeps ..)

theorem State.linkRetry_keeps {s : State} {e m : Nat}  :
    Keeps s (State.linkRetry s e m) := by
  unfold State.linkRetry
  repeat' first
    | with_reducible apply Keeps.refl
    | ((try lift_lets -underBinder); intro x; clear_value x)
    | with_reducible apply Keeps.ite
    | split
    | with_reducible apply Keeps.after (State.report_keeps ..)
    | with_reducible apply Keeps.after (State.modHealth_keeps ..)

theorem execLinkRetry_keeps {edge ucie : Nat} {s : State}  :
    KeepsO s (execLinkRetry edge ucie s) := by
  unfold execLinkRetry
  repeat' first
    | with_reducible apply Keeps.refl
    | with_reducible apply KeepsO.next
    | with_reducible apply Keeps.after (State.linkRetry_keeps ..)

theorem State.laneRepair_keeps {s : State} {e m lane : Nat}  :
    Keeps s (State.laneRepair s e m lane) := by
  unfold State.laneRepair
  repeat' first
    | with_reducible apply Keeps.refl
    | with_reducible assumption
    | ((try lift_lets -underBinder); intro x; first
        | (refine Keeps.cut (s := s) x ?_ (fun hx => ?_); dsimp -zeta only [x]; rotate_left; clear_value x; rotate_right)
        | clear_value x)
    | with_reducible apply Keeps.ite
    | with_reducible apply Keeps.after (State.report_keeps ..)
    | with_reducible apply Keeps.after (State.makeSuspect_keeps ..)
    | with_reducible apply Keeps.after (State.larkRepair_keeps ..)
    | with_reducible apply Keeps.after (State.modLark_keeps ..)
    | with_reducible apply Keeps.after (State.modHealth_keeps ..)

theorem execLaneRepair_keeps {edge ucie lane : Nat} {s : State}  :
    KeepsO s (execLaneRepair edge ucie lane s) := by
  unfold execLaneRepair
  repeat' first
    | with_reducible apply Keeps.refl
    | with_reducible apply KeepsO.next
    | with_reducible apply Keeps.after (State.laneRepair_keeps ..)

end Sys2Proof.Machine
end

