-- ==== Sys2Proof/Laws/KeepsReset.lean ====
section
/-! SUPPORT. What every operation of Machine/Reset.lean keeps. -/
set_option linter.all false
set_option Elab.async false
namespace Sys2Proof.Machine

theorem Cell.reborn_keeps {c : Cell} {pos : Nat}  :
    Cell.Keeps c (Cell.reborn c pos) := by
  unfold Cell.reborn
  repeat' first
    | ((with_reducible refine Cell.Keeps.of ?_ ?_) <;> (simp; done))

theorem Cell.restart_keeps {c : Cell} {pos : Nat} : Cell.Keeps c (Cell.restart c pos) := fun _ => canon_fresh pos

theorem State.warmFinish_keeps {s : State} : Keeps s (State.warmFinish s) := by
  refine Keeps.trans (State.drainAll_keeps (s := s)) ?_
  unfold State.warmFinish
  generalize s.drainAll = s
  refine ⟨rfl, rfl, fun ⟨f, c⟩ => ⟨⟨f.model, ?_, ?_, ?_, ?_, ?_, ?_, ?_, ?_, ?_⟩, ⟨c.mem, c.host, ?_⟩⟩⟩
  · simpa using f.cells
  · simpa using f.dies
  · simpa using f.engines
  · simpa using f.bays
  · simpa [Net.restart] using f.ports
  · simpa using f.parts
  · simpa using f.tsvc
  · simpa using f.xlt
  · simpa using f.ces
  · exact canon_mapIdx (fun i c => Cell.restart_keeps) c.cells

theorem State.warmTry_keeps {s : State}  :
    Keeps s (State.warmTry s) := by
  unfold State.warmTry
  repeat' first
    | with_reducible apply Keeps.refl
    | with_reducible apply Keeps.ite
    | with_reducible apply Keeps.after (State.warmFinish_keeps ..)

theorem State.warmBegin_keeps {s : State}  :
    Keeps s (State.warmBegin s) := by
  unfold State.warmBegin
  repeat' first
    | with_reducible apply Keeps.refl
    | with_reducible assumption
    | ((try lift_lets -underBinder); intro x; (refine Keeps.cut (s := s) x ?_ (fun hx => ?_); dsimp -zeta only [x]; rotate_left; clear_value x; rotate_right))
    | with_reducible apply Keeps.ite
    | (with_reducible apply Keeps.foldlFrom; rotate_left; intro s a; rotate_right)
    | with_reducible apply Keeps.after (State.warmTry_keeps ..)
    | with_reducible apply Keeps.after (State.writeBack_keeps ..)
    | with_reducible apply Keeps.after (State.dropBatches_keeps ..)
    | with_reducible apply Keeps.after (State.hrvSend_keeps ..)
    | with_reducible apply Keeps.after (State.modPower_keeps ..)
    | with_reducible apply Keeps.after (State.modPart_keeps ..)

theorem execWriteBackLimit_keeps {s : State}  :
    KeepsO s (execWriteBackLimit s) := by
  unfold execWriteBackLimit
  repeat' first
    | with_reducible apply Keeps.refl
    | with_reducible apply KeepsO.next
    | with_reducible apply Keeps.ite
    | with_reducible apply Keeps.after (State.warmFinish_keeps ..)
    | with_reducible apply Keeps.after (State.dropPages_keeps ..)

theorem execColdWriteBackDone_keeps {k n : Nat} {s : State}  :
    KeepsO s (execColdWriteBackDone k n s) := by
  unfold execColdWriteBackDone
  repeat' first
    | with_reducible apply Keeps.refl
    | with_reducible apply KeepsO.next
    | with_reducible apply Keeps.after (State.warmTry_keeps ..)
    | with_reducible apply Keeps.after (State.writeBackDone_keeps ..)

theorem State.cold_keeps {s : State} {boot last : Nat} : Keeps s (State.cold s boot last) := by
  unfold State.cold
  refine ⟨rfl, rfl, fun ⟨f, c⟩ => ⟨⟨f.model, ?_, ?_, ?_, ?_, ?_, ?_, ?_, ?_, ?_⟩, ⟨rfl, c.host, ?_⟩⟩⟩
  · simpa using f.cells
  · simp [State.resetOf]
  · simpa using f.engines
  · simpa using f.bays
  · simpa using f.ports
  · simp [State.resetOf]
  · simp [State.resetOf]
  · simp [State.resetOf]
  · simp [State.resetOf]
  · exact canon_mapIdx (fun i c => Cell.reborn_keeps) c.cells

theorem State.coldReset_keeps {s : State}  :
    Keeps s (State.coldReset s) := by
  unfold State.coldReset
  repeat' first
    | with_reducible apply Keeps.refl
    | with_reducible apply Keeps.ite
    | with_reducible apply Keeps.after (State.cold_keeps ..)
    | with_reducible apply Keeps.after (State.modPower_keeps ..)

theorem State.warmReset_keeps {s : State}  :
    Keeps s (State.warmReset s) := by
  unfold State.warmReset
  repeat' first
    | with_reducible apply Keeps.refl
    | with_reducible apply Keeps.ite
    | with_reducible apply Keeps.after (State.coldReset_keeps ..)
    | with_reducible apply Keeps.after (State.warmBegin_keeps ..)
    | with_reducible apply Keeps.after (State.modPower_keeps ..)

theorem execGlbResetWarm_keeps {s : State}  :
    KeepsO s (execGlbResetWarm s) := by
  unfold execGlbResetWarm
  repeat' first
    | with_reducible apply Keeps.refl
    | with_reducible apply KeepsO.next
    | with_reducible apply Keeps.after (State.warmReset_keeps ..)

theorem execGlbResetCold_keeps {s : State}  :
    KeepsO s (execGlbResetCold s) := by
  unfold execGlbResetCold
  repeat' first
    | with_reducible apply Keeps.refl
    | with_reducible apply KeepsO.next
    | with_reducible apply Keeps.after (State.coldReset_keeps ..)

theorem execGlbResetNop_keeps {_op : Nat} {s : State}  :
    KeepsO s (execGlbResetNop _op s) := by
  unfold execGlbResetNop
  repeat' first
    | with_reducible apply Keeps.refl
    | with_reducible apply KeepsO.next

theorem State.glbReset_keeps {s : State} {val : Nat}  :
    Keeps s (State.glbReset s val) := by
  unfold State.glbReset
  repeat' first
    | with_reducible apply Keeps.refl
    | split
    | with_reducible apply Keeps.after (State.warmReset_keeps ..)
    | with_reducible apply Keeps.after (State.coldReset_keeps ..)
    | with_reducible apply Keeps.after (State.requestPartReset_keeps ..)

theorem execModResetNRelease_keeps {lowNs : Nat} {s : State}  :
    KeepsO s (execModResetNRelease lowNs s) := by
  unfold execModResetNRelease
  repeat' first
    | with_reducible apply Keeps.refl
    | with_reducible apply KeepsO.next
    | with_reducible apply Keeps.ite
    | with_reducible apply Keeps.after (State.warmReset_keeps ..)
    | with_reducible apply Keeps.after (State.coldReset_keeps ..)

theorem State.powerOff_keeps {s : State} : Keeps s (State.powerOff s) := by
  unfold State.powerOff
  refine ⟨rfl, rfl, fun ⟨f, c⟩ => ⟨⟨f.model, ?_, ?_, ?_, f.bays, ?_, f.parts, f.tsvc, f.xlt, f.ces⟩, ⟨rfl, c.host, ?_⟩⟩⟩
  · simpa using f.cells
  · simp [State.resetOf]
  · simpa using f.engines
  · simp [State.resetOf, Net.fresh]
  · exact canon_mapIdx (fun i c _ => canon_fresh i) c.cells

theorem State.fatalEvent_keeps {s : State} {bit : Nat}  :
    Keeps s (State.fatalEvent s bit) := by
  unfold State.fatalEvent
  repeat' first
    | with_reducible apply Keeps.refl
    | with_reducible assumption
    | ((try lift_lets -underBinder); intro x; (refine Keeps.cut (s := s) x ?_ (fun hx => ?_); dsimp -zeta only [x]; rotate_left; clear_value x; rotate_right))
    | with_reducible apply Keeps.ite
    | with_reducible apply Keeps.after (State.powerOff_keeps ..)
    | with_reducible apply Keeps.after (State.setFatalBy_keeps ..)

theorem execFatalEvent_keeps {bit : Nat} {s : State}  :
    KeepsO s (execFatalEvent bit s) := by
  unfold execFatalEvent
  repeat' first
    | with_reducible apply Keeps.refl
    | with_reducible apply KeepsO.next
    | with_reducible apply Keeps.after (State.fatalEvent_keeps ..)

theorem execStewardWdt_keeps {s : State}  :
    KeepsO s (execStewardWdt s) := by
  unfold execStewardWdt
  repeat' first
    | with_reducible apply Keeps.refl
    | with_reducible apply KeepsO.next
    | with_reducible apply Keeps.after (State.fatalEvent_keeps ..)

end Sys2Proof.Machine
end

