-- ==== Sys2Proof/Laws/KeepsStacks.lean ====
section
/-! SUPPORT. What every operation of Machine/Stacks.lean keeps. -/
set_option linter.all false
set_option Elab.async false
namespace Sys2Proof.Machine

theorem State.dramReport_keeps {s : State} {k granule cls : Nat}  :
    Keeps s (State.dramReport s k granule cls) := by
  unfold State.dramReport
  repeat' first
    | with_reducible apply Keeps.refl
    | ((try lift_lets -underBinder); intro x; clear_value x)
    | with_reducible apply Keeps.after (State.report_keeps ..)

theorem State.eccRead_keeps {s : State} {k granule : Nat} {err : EccErr}  :
    Keeps s (State.eccRead s k granule err) := by
  unfold State.eccRead
  repeat' first
    | with_reducible apply Keeps.refl
    | with_reducible assumption
    | ((try lift_lets -underBinder); intro x; (refine Keeps.cut (s := s) x ?_ (fun hx => ?_); dsimp -zeta only [x]; rotate_left; clear_value x; rotate_right))
    | split
    | with_reducible apply Keeps.after (State.dramReport_keeps ..)
    | with_reducible apply Keeps.after (State.withdrawPoisoned_keeps ..)
    | with_reducible apply Keeps.after (State.countStack_keeps ..)
    | with_reducible refine Keeps.mk ?_

theorem State.stackRead_keeps {s : State} {k : Nat} {part : Option Nat} {granule : Nat} {err : EccErr}  :
    Keeps s (State.stackRead s k part granule err) := by
  unfold State.stackRead
  repeat' first
    | with_reducible apply Keeps.refl
    | with_reducible assumption
    | ((try lift_lets -underBinder); intro x; (refine Keeps.cut (s := s) x ?_ (fun hx => ?_); dsimp -zeta only [x]; rotate_left; clear_value x; rotate_right))
    | with_reducible apply Keeps.ite
    | with_reducible apply Keeps.after (State.eccRead_keeps ..)
    | with_reducible apply Keeps.after (State.drainGranule_keeps ..)
    | with_reducible apply Keeps.after (State.countStack_keeps ..)
    | with_reducible apply Keeps.after (State.charge_keeps ..)

theorem execStackRead_keeps {k : Nat} {part : Option Nat} {granule : Nat} {err : EccErr} {s : State}  :
    KeepsO s (execStackRead k part granule err s) := by
  unfold execStackRead
  repeat' first
    | with_reducible apply Keeps.refl
    | with_reducible apply KeepsO.next
    | with_reducible apply Keeps.after (State.stackRead_keeps ..)

theorem State.stackWrite_keeps {s : State} {k : Nat} {part : Option Nat} {a : Nat} {data : Bytes} {marked : Bool}  :
    Keeps s (State.stackWrite s k part a data marked) := by
  unfold State.stackWrite
  repeat' first
    | with_reducible apply Keeps.refl
    | ((try lift_lets -underBinder); intro x; clear_value x)
    | with_reducible apply Keeps.ite
    | with_reducible apply Keeps.after (State.writeGranule_keeps ..)

theorem execStackWrite_keeps {k : Nat} {part : Option Nat} {addr : Nat} {data : Bytes} {marked : Bool} {s : State}  :
    KeepsO s (execStackWrite k part addr data marked s) := by
  unfold execStackWrite
  repeat' first
    | with_reducible apply Keeps.refl
    | with_reducible apply KeepsO.next
    | with_reducible apply Keeps.after (State.stackWrite_keeps ..)

theorem State.drainMarker_keeps {s : State} {k : Nat}  :
    Keeps s (State.drainMarker s k) := by
  unfold State.drainMarker
  repeat' first
    | with_reducible apply Keeps.refl
    | with_reducible assumption
    | ((with_reducible refine Cell.Keeps.of ?_ ?_) <;> (simp; done))
    | ((try lift_lets -underBinder); intro x; (refine Keeps.cut (s := s) x ?_ (fun hx => ?_); dsimp -zeta only [x]; rotate_left; clear_value x; rotate_right))
    | split
    | with_reducible apply Keeps.after (State.wake_keeps ..)
    | with_reducible apply Keeps.after (State.drainStack_keeps ..)
    | with_reducible apply Keeps.after (State.modStack_keeps ..)
    | with_reducible apply Keeps.after (State.modCell_keeps (h := ?_) ..)
    | intro c

theorem execDrainMarker_keeps {k : Nat} {s : State}  :
    KeepsO s (execDrainMarker k s) := by
  unfold execDrainMarker
  repeat' first
    | with_reducible apply Keeps.refl
    | with_reducible apply KeepsO.next
    | with_reducible apply Keeps.after (State.drainMarker_keeps ..)

theorem State.patrolScrub_keeps {s : State} {k granule : Nat} {err : EccErr}  :
    Keeps s (State.patrolScrub s k granule err) := by
  unfold State.patrolScrub
  repeat' first
    | with_reducible apply Keeps.refl
    | with_reducible assumption
    | ((try lift_lets -underBinder); intro x; (refine Keeps.cut (s := s) x ?_ (fun hx => ?_); dsimp -zeta only [x]; rotate_left; clear_value x; rotate_right))
    | with_reducible apply Keeps.ite
    | with_reducible apply Keeps.after (State.eccRead_keeps ..)
    | with_reducible apply Keeps.after (State.modStack_keeps ..)

theorem execPatrolScrub_keeps {k granule : Nat} {err : EccErr} {s : State}  :
    KeepsO s (execPatrolScrub k granule err s) := by
  unfold execPatrolScrub
  repeat' first
    | with_reducible apply Keeps.refl
    | with_reducible apply KeepsO.next
    | with_reducible apply Keeps.after (State.patrolScrub_keeps ..)

theorem State.repairRead_keeps {s : State} {k : Nat}  :
    Keeps s (State.repairRead s k) := by
  unfold State.repairRead
  repeat' first
    | with_reducible apply Keeps.refl
    | with_reducible assumption
    | ((try lift_lets -underBinder); intro x; (refine Keeps.cut (s := s) x ?_ (fun hx => ?_); dsimp -zeta only [x]; rotate_left; clear_value x; rotate_right))
    | with_reducible apply Keeps.ite
    | split
    | (with_reducible apply Keeps.foldlFrom; rotate_left; intro s a; rotate_right)
    | with_reducible apply Keeps.after (State.eccRead_keeps ..)
    | with_reducible apply Keeps.after (State.countStack_keeps ..)
    | with_reducible apply Keeps.after (State.draw_keeps ..)
    | (with_reducible apply Keeps.of_pair; with_reducible assumption)

theorem State.softRepair_keeps {s : State} {k bank row : Nat}  :
    Keeps s (State.softRepair s k bank row) := by
  unfold State.softRepair
  repeat' first
    | with_reducible apply Keeps.refl
    | with_reducible assumption
    | ((try lift_lets -underBinder); intro x; first
        | (refine Keeps.cut (s := s) x ?_ (fun hx => ?_); dsimp -zeta only [x]; rotate_left; clear_value x; rotate_right)
        | clear_value x)
    | with_reducible apply Keeps.ite
    | with_reducible apply Keeps.after (State.repairRead_keeps ..)
    | with_reducible apply Keeps.after (State.steward_keeps ..)
    | with_reducible apply Keeps.after (State.larkRepair_keeps ..)
    | with_reducible apply Keeps.after (State.countStack_keeps ..)
    | with_reducible apply Keeps.after (State.modStack_keeps ..)

theorem execSoftRepair_keeps {k bank row : Nat} {s : State}  :
    KeepsO s (execSoftRepair k bank row s) := by
  unfold execSoftRepair
  repeat' first
    | with_reducible apply Keeps.refl
    | with_reducible apply KeepsO.next
    | with_reducible apply Keeps.after (State.softRepair_keeps ..)

theorem execRegulatorBucketRefill_keeps {k p : Nat} {s : State}  :
    KeepsO s (execRegulatorBucketRefill k p s) := by
  unfold execRegulatorBucketRefill
  repeat' first
    | with_reducible apply Keeps.refl
    | ((try lift_lets -underBinder); intro x; clear_value x)
    | with_reducible apply KeepsO.next
    | with_reducible apply Keeps.after (State.modStack_keeps ..)

theorem execStackFailed_keeps {u : Nat} {s : State}  :
    KeepsO s (execStackFailed u s) := by
  unfold execStackFailed
  repeat' first
    | with_reducible apply Keeps.refl
    | ((try lift_lets -underBinder); intro x; clear_value x)
    | with_reducible apply KeepsO.next
    | with_reducible apply Keeps.ite
    | with_reducible apply Keeps.after (State.failChannel_keeps ..)
    | with_reducible apply Keeps.after (State.failStack_keeps ..)

end Sys2Proof.Machine
end

