-- ==== Sys2Proof/Laws/KeepsStartUp.lean ====
section
/-! SUPPORT. What every operation of Machine/StartUp.lean keeps. -/
set_option linter.all false
set_option Elab.async false
namespace Sys2Proof.Machine

theorem execInputOn_keeps {s : State}  :
    KeepsO s (execInputOn s) := by
  unfold execInputOn
  repeat' first
    | with_reducible apply Keeps.refl
    | with_reducible apply KeepsO.next
    | with_reducible apply Keeps.ite
    | with_reducible apply Keeps.after (State.modPower_keeps ..)

theorem State.standbyUp_keeps {s : State} {okA okB flashOk : Bool}  :
    Keeps s (State.standbyUp s okA okB flashOk) := by
  unfold State.standbyUp
  repeat' first
    | with_reducible apply Keeps.refl
    | with_reducible assumption
    | ((try lift_lets -underBinder); intro x; first
        | (refine Keeps.cut (s := s) x ?_ (fun hx => ?_); dsimp -zeta only [x]; rotate_left; clear_value x; rotate_right)
        | clear_value x)
    | with_reducible apply Keeps.ite
    | split
    | with_reducible apply Keeps.after (State.setFatalBy_keeps ..)
    | with_reducible apply Keeps.after (State.modPower_keeps ..)
    | with_reducible apply Keeps.after (State.modHealth_keeps ..)

theorem execStandbyRailsUp_keeps {okA okB flashOk : Bool} {s : State}  :
    KeepsO s (execStandbyRailsUp okA okB flashOk s) := by
  unfold execStandbyRailsUp
  repeat' first
    | with_reducible apply Keeps.refl
    | with_reducible apply KeepsO.next
    | with_reducible apply Keeps.after (State.standbyUp_keeps ..)

theorem execFirmwareRunning_keeps {s : State}  :
    KeepsO s (execFirmwareRunning s) := by
  unfold execFirmwareRunning
  repeat' first
    | with_reducible apply Keeps.refl
    | with_reducible apply KeepsO.next
    | with_reducible apply Keeps.ite
    | with_reducible apply Keeps.after (State.modPower_keeps ..)
    | with_reducible refine Keeps.mk ?_

theorem State.applyMap_keeps {s : State} {d : Nat}  :
    Keeps s (State.applyMap s d) := by
  unfold State.applyMap
  repeat' first
    | with_reducible apply Keeps.refl
    | with_reducible assumption
    | ((with_reducible refine Cell.Keeps.of ?_ ?_) <;> (simp; done))
    | ((try lift_lets -underBinder); intro x; first
        | (refine Keeps.cut (s := s) x ?_ (fun hx => ?_); dsimp -zeta only [x]; rotate_left; clear_value x; rotate_right)
        | clear_value x)
    | with_reducible apply Keeps.ite
    | split
    | (with_reducible apply Keeps.foldlFrom; rotate_left; intro s a; rotate_right)
    | with_reducible apply Keeps.after (State.modHealth_keeps ..)
    | with_reducible apply Keeps.after (State.modCell_keeps (h := ?_) ..)
    | intro c

theorem State.noMap_keeps {s : State}  :
    Keeps s (State.noMap s) := by
  unfold State.noMap
  repeat' first
    | with_reducible apply Keeps.refl
    | with_reducible assumption
    | ((try lift_lets -underBinder); intro x; (refine Keeps.cut (s := s) x ?_ (fun hx => ?_); dsimp -zeta only [x]; rotate_left; clear_value x; rotate_right))
    | with_reducible apply Keeps.after (State.modHealth_keeps ..)
    | with_reducible refine Keeps.mk ?_

theorem execDieSelfTestDone_keeps {s : State}  :
    KeepsO s (execDieSelfTestDone s) := by
  unfold execDieSelfTestDone
  repeat' first
    | with_reducible apply Keeps.refl
    | with_reducible assumption
    | ((try lift_lets -underBinder); intro x; (refine Keeps.cut (s := s) x ?_ (fun hx => ?_); dsimp -zeta only [x]; rotate_left; clear_value x; rotate_right))
    | with_reducible apply KeepsO.next
    | with_reducible apply Keeps.ite
    | (with_reducible apply Keeps.foldlFrom; rotate_left; intro s a; rotate_right)
    | with_reducible apply Keeps.after (State.noMap_keeps ..)
    | with_reducible apply Keeps.after (State.applyMap_keeps ..)
    | with_reducible apply Keeps.after (State.modPower_keeps ..)

theorem execPerstNRelease_keeps {s : State}  :
    KeepsO s (execPerstNRelease s) := by
  unfold execPerstNRelease
  repeat' first
    | with_reducible apply Keeps.refl
    | with_reducible apply KeepsO.next
    | with_reducible apply Keeps.after (State.modPower_keeps ..)

theorem execConfigReady_keeps {s : State}  :
    KeepsO s (execConfigReady s) := by
  unfold execConfigReady
  repeat' first
    | with_reducible apply Keeps.refl
    | with_reducible apply KeepsO.next
    | with_reducible apply Keeps.ite
    | with_reducible apply Keeps.after (State.modHif_keeps ..)

theorem State.memReady_keeps {s : State} {failed : List Nat}  :
    Keeps s (State.memReady s failed) := by
  unfold State.memReady
  repeat' first
    | with_reducible apply Keeps.refl
    | with_reducible assumption
    | ((try lift_lets -underBinder); intro x; first
        | (refine Keeps.cut (s := s) x ?_ (fun hx => ?_); dsimp -zeta only [x]; rotate_left; clear_value x; rotate_right)
        | clear_value x)
    | with_reducible apply Keeps.ite
    | (with_reducible apply Keeps.foldlFrom; rotate_left; intro s a; rotate_right)
    | with_reducible apply Keeps.after (State.startBay_keeps ..)
    | with_reducible apply Keeps.after (State.failStack_keeps ..)
    | with_reducible apply Keeps.after (State.modPower_keeps ..)
    | with_reducible refine Keeps.mk ?_

theorem execMemReady_keeps {failed : List Nat} {s : State}  :
    KeepsO s (execMemReady failed s) := by
  unfold execMemReady
  repeat' first
    | with_reducible apply Keeps.refl
    | with_reducible apply KeepsO.next
    | with_reducible apply Keeps.after (State.memReady_keeps ..)

theorem execImageReady_keeps {s : State}  :
    KeepsO s (execImageReady s) := by
  unfold execImageReady
  repeat' first
    | with_reducible apply Keeps.refl
    | ((try lift_lets -underBinder); intro x; clear_value x)
    | with_reducible apply KeepsO.next
    | with_reducible apply Keeps.ite
    | with_reducible apply Keeps.after (State.modPower_keeps ..)
    | with_reducible apply Keeps.after (State.modHealth_keeps ..)

end Sys2Proof.Machine
end

