-- ==== Sys2Proof/Laws/KeepsNetPorts.lean ====
section
/-! SUPPORT. What every operation of Machine/NetPorts.lean keeps. -/
set_option linter.all false
set_option Elab.async false
namespace Sys2Proof.Machine

theorem State.modPort_keeps {s : State} {n : Nat} {f : Port → Port}  :
    Keeps s (State.modPort s n f) := by
  unfold State.modPort
  repeat' first
    | with_reducible apply Keeps.refl
    | (intro (n : Net); simp; done)
    | with_reducible apply Keeps.after (State.modNet_keeps (h := ?_) ..)

theorem State.badFrame_keeps {s : State} {n : Nat} {why : BadFrame}  :
    Keeps s (State.badFrame s n why) := by
  unfold State.badFrame
  repeat' first
    | with_reducible apply Keeps.refl
    | with_reducible assumption
    | (intro n; with_reducible rfl)
    | ((try lift_lets -underBinder); intro x; (refine Keeps.cut (s := s) x ?_ (fun hx => ?_); dsimp -zeta only [x]; rotate_left; clear_value x; rotate_right))
    | with_reducible apply Keeps.ite
    | split
    | with_reducible apply Keeps.after (State.modPort_keeps ..)
    | with_reducible apply Keeps.after (State.modNet_keeps (h := ?_) ..)

theorem execNetBadFrame_keeps {port : Nat} {why : BadFrame} {s : State}  :
    KeepsO s (execNetBadFrame port why s) := by
  unfold execNetBadFrame
  repeat' first
    | with_reducible apply Keeps.refl
    | with_reducible apply KeepsO.next
    | with_reducible apply Keeps.after (State.badFrame_keeps ..)

theorem execPauseFrame_keeps {port : Nat} {s : State}  :
    KeepsO s (execPauseFrame port s) := by
  unfold execPauseFrame
  repeat' first
    | with_reducible apply Keeps.refl
    | with_reducible apply KeepsO.next
    | with_reducible apply Keeps.ite
    | with_reducible apply Keeps.after (State.modPort_keeps ..)

theorem execOtherFrame_keeps {port : Nat} {s : State}  :
    KeepsO s (execOtherFrame port s) := by
  unfold execOtherFrame
  repeat' first
    | with_reducible apply Keeps.refl
    | (intro n; with_reducible rfl)
    | with_reducible apply KeepsO.next
    | with_reducible apply Keeps.ite
    | with_reducible apply Keeps.after (State.modNet_keeps (h := ?_) ..)

theorem State.neighbour_keeps {s : State} {n : Nat} {v4 : Bool} {target own : Nat} {mac : BitVec 48}  :
    Keeps s (State.neighbour s n v4 target own mac) := by
  unfold State.neighbour
  repeat' first
    | with_reducible apply Keeps.refl
    | (intro n; with_reducible rfl)
    | with_reducible apply Keeps.ite
    | with_reducible apply Keeps.after (State.modNet_keeps (h := ?_) ..)

theorem execArpRequest_keeps {port : Nat} {target : BitVec 32} {mac : BitVec 48} {s : State}  :
    KeepsO s (execArpRequest port target mac s) := by
  unfold execArpRequest
  repeat' first
    | with_reducible apply Keeps.refl
    | with_reducible apply KeepsO.next
    | with_reducible apply Keeps.after (State.neighbour_keeps ..)

theorem execNeighbourSolicitation_keeps {port : Nat} {target : BitVec 128} {mac : BitVec 48} {s : State}  :
    KeepsO s (execNeighbourSolicitation port target mac s) := by
  unfold execNeighbourSolicitation
  repeat' first
    | with_reducible apply Keeps.refl
    | with_reducible apply KeepsO.next
    | with_reducible apply Keeps.after (State.neighbour_keeps ..)

theorem State.pumpAll_keeps {s : State}  :
    Keeps s (State.pumpAll s) := by
  unfold State.pumpAll
  repeat' first
    | with_reducible apply Keeps.refl
    | (with_reducible apply Keeps.foldlFrom; rotate_left; intro s a; rotate_right)
    | with_reducible apply Keeps.after (State.netPump_keeps ..)

theorem State.pfc_keeps {s : State} {n prio : Nat} {pause : Bool}  :
    Keeps s (State.pfc s n prio pause) := by
  unfold State.pfc
  repeat' first
    | with_reducible apply Keeps.refl
    | ((try lift_lets -underBinder); intro x; clear_value x)
    | with_reducible apply Keeps.ite
    | split
    | with_reducible apply Keeps.after (State.pumpAll_keeps ..)
    | with_reducible apply Keeps.after (State.modPort_keeps ..)

theorem execPfcFrame_keeps {port prio : Nat} {pause : Bool} {s : State}  :
    KeepsO s (execPfcFrame port prio pause s) := by
  unfold execPfcFrame
  repeat' first
    | with_reducible apply Keeps.refl
    | with_reducible apply KeepsO.next
    | with_reducible apply Keeps.after (State.pfc_keeps ..)

theorem State.ptpSync_keeps {s : State} {time : Nat} {ppb : Int}  :
    Keeps s (State.ptpSync s time ppb) := by
  unfold State.ptpSync
  repeat' first
    | with_reducible apply Keeps.refl
    | (intro n; with_reducible rfl)
    | ((try lift_lets -underBinder); intro x; clear_value x)
    | with_reducible apply Keeps.ite
    | with_reducible apply Keeps.after (State.modNet_keeps (h := ?_) ..)

theorem execPtpSync_keeps {time : Nat} {ppb : Int} {s : State}  :
    KeepsO s (execPtpSync time ppb s) := by
  unfold execPtpSync
  repeat' first
    | with_reducible apply Keeps.refl
    | with_reducible apply KeepsO.next
    | with_reducible apply Keeps.after (State.ptpSync_keeps ..)

theorem execPtpSyncLoss_keeps {s : State}  :
    KeepsO s (execPtpSyncLoss s) := by
  unfold execPtpSyncLoss
  repeat' first
    | with_reducible apply Keeps.refl
    | (intro n; with_reducible rfl)
    | with_reducible apply KeepsO.next
    | with_reducible apply Keeps.ite
    | with_reducible apply Keeps.after (State.modNet_keeps (h := ?_) ..)

theorem State.rePort_keeps {s : State} {f : State → State} (h_f : ∀ t, Keeps t (f t)) :
    Keeps s (State.rePort s f) := by
  unfold State.rePort
  repeat' first
    | with_reducible apply Keeps.refl
    | with_reducible assumption
    | ((try lift_lets -underBinder); intro x; first
        | (refine Keeps.cut (s := s) x ?_ (fun hx => ?_); dsimp -zeta only [x]; rotate_left; clear_value x; rotate_right)
        | clear_value x)
    | with_reducible apply Keeps.ite
    | (with_reducible apply Keeps.foldlFrom; rotate_left; intro s a; rotate_right)
    | with_reducible apply Keeps.after (h_f ..)
    | with_reducible apply Keeps.after (State.netResend_keeps ..)
    | with_reducible apply Keeps.after (State.netPump_keeps ..)

theorem execPortUp_keeps {n : Nat} {s : State}  :
    KeepsO s (execPortUp n s) := by
  unfold execPortUp
  repeat' first
    | with_reducible apply Keeps.refl
    | with_reducible apply KeepsO.next
    | with_reducible apply Keeps.ite
    | with_reducible apply Keeps.after (State.rePort_keeps (h_f := fun s => ?_) ..)
    | with_reducible apply Keeps.after (State.modPort_keeps ..)

theorem State.portDown_keeps {s : State} {n : Nat}  :
    Keeps s (State.portDown s n) := by
  unfold State.portDown
  repeat' first
    | with_reducible apply Keeps.refl
    | with_reducible apply Keeps.ite
    | with_reducible apply Keeps.after (State.rePort_keeps (h_f := fun s => ?_) ..)
    | with_reducible apply Keeps.after (State.modPort_keeps ..)

theorem execPortDown_keeps {n : Nat} {s : State}  :
    KeepsO s (execPortDown n s) := by
  unfold execPortDown
  repeat' first
    | with_reducible apply Keeps.refl
    | with_reducible apply KeepsO.next
    | with_reducible apply Keeps.after (State.portDown_keeps ..)

theorem State.laneSpare_keeps {s : State} {n lane : Nat}  :
    Keeps s (State.laneSpare s n lane) := by
  unfold State.laneSpare
  repeat' first
    | with_reducible apply Keeps.refl
    | with_reducible assumption
    | ((try lift_lets -underBinder); intro x; first
        | (refine Keeps.cut (s := s) x ?_ (fun hx => ?_); dsimp -zeta only [x]; rotate_left; clear_value x; rotate_right)
        | clear_value x)
    | with_reducible apply Keeps.ite
    | split
    | with_reducible apply Keeps.after (State.portDown_keeps ..)
    | with_reducible apply Keeps.after (State.modPort_keeps ..)
    | with_reducible apply Keeps.after (State.report_keeps ..)
    | with_reducible apply Keeps.after (State.larkRepair_keeps ..)

theorem execPortLaneSpare_keeps {n lane : Nat} {s : State}  :
    KeepsO s (execPortLaneSpare n lane s) := by
  unfold execPortLaneSpare
  repeat' first
    | with_reducible apply Keeps.refl
    | with_reducible apply KeepsO.next
    | with_reducible apply Keeps.after (State.laneSpare_keeps ..)

theorem execNetSakWrite_keeps {k word : Nat} {val : BitVec 64} {s : State}  :
    KeepsO s (execNetSakWrite k word val s) := by
  unfold execNetSakWrite
  repeat' first
    | with_reducible apply Keeps.refl
    | with_reducible apply KeepsO.next
    | with_reducible apply Keeps.ite
    | with_reducible apply Keeps.after (State.modConn_keeps ..)

theorem State.peerCfgWrite_keeps {s : State} {k v : Nat}  :
    Keeps s (State.peerCfgWrite s k v) := by
  unfold State.peerCfgWrite
  repeat' first
    | with_reducible apply Keeps.refl
    | with_reducible assumption
    | ((try lift_lets -underBinder); intro x; first
        | (refine Keeps.cut (s := s) x ?_ (fun hx => ?_); dsimp -zeta only [x]; rotate_left; clear_value x; rotate_right)
        | (refine Keeps.cutG x (fun a s => ?_) (fun hg => ?_); dsimp -zeta only [x]; rotate_left; clear_value x; rotate_right)
        | clear_value x)
    | with_reducible apply Keeps.ite
    | with_reducible apply Keeps.after (State.connFail_keeps ..)
    | with_reducible apply Keeps.after (State.modConn_keeps ..)
    | with_reducible apply Keeps.after (State.setReg_keeps ..)
    | (with_reducible apply Keeps.after; with_reducible apply_assumption -exfalso -symm)

theorem State.netRingCtlWrite_keeps {s : State} {i v : Nat}  :
    Keeps s (State.netRingCtlWrite s i v) := by
  unfold State.netRingCtlWrite
  repeat' first
    | with_reducible apply Keeps.refl
    | with_reducible assumption
    | ((try lift_lets -underBinder); intro x; first
        | (refine Keeps.cut (s := s) x ?_ (fun hx => ?_); dsimp -zeta only [x]; rotate_left; clear_value x; rotate_right)
        | clear_value x)
    | with_reducible apply Keeps.ite
    | with_reducible apply Keeps.after (State.setSendRing_keeps ..)
    | with_reducible apply Keeps.after (State.setReg_keeps ..)
    | with_reducible apply Keeps.after (State.countClamps_keeps ..)

end Sys2Proof.Machine
end

