-- ==== Sys2Proof/Laws/KeepsPower.lean ====
section
/-! SUPPORT. What every operation of Machine/Power.lean keeps. -/
set_option linter.all false
set_option Elab.async false
namespace Sys2Proof.Machine

theorem State.setClock_keeps {s : State} {i : Island} {v : Nat × Nat × Nat}  :
    Keeps s (State.setClock s i v) := by
  unfold State.setClock
  repeat' first
    | with_reducible apply Keeps.refl
    | (intro n; with_reducible rfl)
    | ((with_reducible refine Cell.Keeps.of ?_ ?_) <;> (simp; done))
    | split
    | with_reducible apply Keeps.after (State.modCarts_keeps (h := ?_) ..)
    | with_reducible apply Keeps.after (State.modHrv_keeps ..)
    | with_reducible apply Keeps.after (State.modNet_keeps (h := ?_) ..)
    | with_reducible apply Keeps.after (State.modHif_keeps ..)
    | with_reducible apply Keeps.after (State.modCe_keeps ..)
    | with_reducible apply Keeps.after (State.modDie_keeps ..)
    | with_reducible apply Keeps.after (State.modEngine_keeps ..)
    | with_reducible apply Keeps.after (State.modCell_keeps (h := ?_) ..)
    | intro c
    | with_reducible refine Keeps.mk ?_

theorem State.oscillate_keeps {s : State} {i : Island}  :
    Keeps s (State.oscillate s i) := by
  unfold State.oscillate
  repeat' first
    | with_reducible apply Keeps.refl
    | ((try lift_lets -underBinder); intro x; clear_value x)
    | split
    | with_reducible apply Keeps.after (State.setClock_keeps ..)
    | with_reducible apply Keeps.after (State.draw_keeps ..)
    | (with_reducible apply Keeps.of_pair; with_reducible assumption)

theorem State.noteCap_keeps {s : State}  :
    Keeps s (State.noteCap s) := by
  unfold State.noteCap
  repeat' first
    | with_reducible apply Keeps.refl
    | ((try lift_lets -underBinder); intro x; clear_value x)
    | with_reducible apply Keeps.after (State.modPower_keeps ..)

theorem State.setCeil_keeps {s : State} {i : Island} {mhz : Nat}  :
    Keeps s (State.setCeil s i mhz) := by
  unfold State.setCeil
  repeat' first
    | with_reducible apply Keeps.refl
    | split
    | with_reducible apply Keeps.after (State.oscillate_keeps ..)
    | with_reducible apply Keeps.after (State.setClock_keeps ..)

theorem execIslandClockSet_keeps {island : Island} {mhz mv : Nat} {s : State}  :
    KeepsO s (execIslandClockSet island mhz mv s) := by
  unfold execIslandClockSet
  repeat' first
    | with_reducible apply Keeps.refl
    | with_reducible apply KeepsO.next
    | with_reducible apply Keeps.after (State.setCeil_keeps ..)
    | with_reducible apply Keeps.after (State.noteCap_keeps ..)
    | with_reducible apply Keeps.after (State.setClock_keeps ..)

theorem execInputVoltageLow_keeps {mv100 : Nat} {s : State}  :
    KeepsO s (execInputVoltageLow mv100 s) := by
  unfold execInputVoltageLow
  repeat' first
    | with_reducible apply Keeps.refl
    | with_reducible apply KeepsO.next
    | with_reducible apply Keeps.ite
    | with_reducible apply Keeps.after (State.noteCap_keeps ..)
    | with_reducible apply Keeps.after (State.steward_keeps ..)
    | with_reducible apply Keeps.after (State.modPower_keeps ..)

theorem execInputVoltageRestored_keeps {mv100 : Nat} {s : State}  :
    KeepsO s (execInputVoltageRestored mv100 s) := by
  unfold execInputVoltageRestored
  repeat' first
    | with_reducible apply Keeps.refl
    | with_reducible apply KeepsO.next
    | with_reducible apply Keeps.ite
    | with_reducible apply Keeps.after (State.modPower_keeps ..)

theorem execPowerFault_keeps {cause : PowerCause} {s : State}  :
    KeepsO s (execPowerFault cause s) := by
  unfold execPowerFault
  repeat' first
    | with_reducible apply Keeps.refl
    | with_reducible apply KeepsO.next
    | with_reducible apply Keeps.ite
    | with_reducible apply Keeps.after (State.powerOff_keeps ..)
    | with_reducible apply Keeps.after (State.setFatalBy_keeps ..)

theorem execInputOff_keeps {s : State}  :
    KeepsO s (execInputOff s) := by
  unfold execInputOff
  repeat' first
    | with_reducible apply Keeps.refl
    | with_reducible apply KeepsO.next
    | with_reducible apply Keeps.after (State.cold_keeps ..)

theorem execPowerSample_keeps {watts mv100 : Nat} {s : State}  :
    KeepsO s (execPowerSample watts mv100 s) := by
  unfold execPowerSample
  repeat' first
    | with_reducible apply Keeps.refl
    | with_reducible apply KeepsO.next
    | with_reducible apply Keeps.after (State.modPower_keeps ..)

theorem State.lower_keeps {s : State} {i : Island}  :
    Keeps s (State.lower s i) := by
  unfold State.lower
  repeat' first
    | with_reducible apply Keeps.refl
    | with_reducible apply Keeps.after (State.setCeil_keeps ..)

theorem State.raiseCeil_keeps {s : State} {i : Island}  :
    Keeps s (State.raiseCeil s i) := by
  unfold State.raiseCeil
  repeat' first
    | with_reducible apply Keeps.refl
    | with_reducible apply Keeps.ite
    | with_reducible apply Keeps.after (State.setCeil_keeps ..)

theorem State.capStep_keeps {s : State}  :
    Keeps s (State.capStep s) := by
  unfold State.capStep
  repeat' first
    | with_reducible apply Keeps.refl
    | ((try lift_lets -underBinder); intro x; clear_value x)
    | with_reducible apply Keeps.ite
    | (with_reducible apply Keeps.foldlFrom; rotate_left; intro s a; rotate_right)
    | with_reducible apply Keeps.after (State.raiseCeil_keeps ..)
    | with_reducible apply Keeps.after (State.lower_keeps ..)
    | with_reducible apply Keeps.after (State.modPower_keeps ..)

theorem execCapStep_keeps {s : State}  :
    KeepsO s (execCapStep s) := by
  unfold execCapStep
  repeat' first
    | with_reducible apply Keeps.refl
    | with_reducible apply KeepsO.next
    | with_reducible apply Keeps.after (State.capStep_keeps ..)
    | with_reducible apply Keeps.after (State.noteCap_keeps ..)

theorem execFastLimit_keeps {s : State}  :
    KeepsO s (execFastLimit s) := by
  unfold execFastLimit
  repeat' first
    | with_reducible apply Keeps.refl
    | with_reducible assumption
    | ((try lift_lets -underBinder); intro x; (refine Keeps.cut (s := s) x ?_ (fun hx => ?_); dsimp -zeta only [x]; rotate_left; clear_value x; rotate_right))
    | with_reducible apply KeepsO.next
    | (with_reducible apply Keeps.foldlFrom; rotate_left; intro s a; rotate_right)
    | with_reducible apply Keeps.after (State.noteCap_keeps ..)
    | with_reducible apply Keeps.after (State.oscillate_keeps ..)
    | with_reducible apply Keeps.after (State.modPower_keeps ..)

theorem execFastLimitRelease_keeps {s : State}  :
    KeepsO s (execFastLimitRelease s) := by
  unfold execFastLimitRelease
  repeat' first
    | with_reducible apply Keeps.refl
    | with_reducible apply KeepsO.next
    | with_reducible apply Keeps.after (State.modPower_keeps ..)

theorem execThermalThrottle_keeps {island : Island} {on : Bool} {s : State}  :
    KeepsO s (execThermalThrottle island on s) := by
  unfold execThermalThrottle
  repeat' first
    | with_reducible apply Keeps.refl
    | with_reducible apply KeepsO.next
    | with_reducible apply Keeps.ite
    | with_reducible apply Keeps.after (State.lower_keeps ..)
    | with_reducible apply Keeps.after (State.noteCap_keeps ..)
    | with_reducible apply Keeps.after (State.modPower_keeps ..)

theorem State.thermalRecord_keeps {s : State} {sensor : Nat} {celsius : Int}  :
    Keeps s (State.thermalRecord s sensor celsius) := by
  unfold State.thermalRecord
  repeat' first
    | with_reducible apply Keeps.refl
    | with_reducible apply Keeps.after (State.steward_keeps ..)

theorem State.thermal_keeps {s : State} {cond : ThermalCond} {c : Int}  :
    Keeps s (State.thermal s cond c) := by
  unfold State.thermal
  repeat' first
    | with_reducible apply Keeps.refl
    | with_reducible assumption
    | ((try lift_lets -underBinder); intro x; first
        | (refine Keeps.cut (s := s) x ?_ (fun hx => ?_); dsimp -zeta only [x]; rotate_left; clear_value x; rotate_right)
        | clear_value x)
    | with_reducible apply Keeps.ite
    | split
    | with_reducible apply Keeps.after (State.thermalRecord_keeps ..)
    | with_reducible apply Keeps.after (State.modPower_keeps ..)

theorem execThermal_keeps {cond : ThermalCond} {celsius : Int} {s : State}  :
    KeepsO s (execThermal cond celsius s) := by
  unfold execThermal
  repeat' first
    | with_reducible apply Keeps.refl
    | with_reducible apply KeepsO.next
    | with_reducible apply Keeps.after (State.thermal_keeps ..)

theorem execInletTemperatureRestored_keeps {celsius : Int} {s : State}  :
    KeepsO s (execInletTemperatureRestored celsius s) := by
  unfold execInletTemperatureRestored
  repeat' first
    | with_reducible apply Keeps.refl
    | with_reducible apply KeepsO.next
    | with_reducible apply Keeps.ite
    | with_reducible apply Keeps.after (State.modPower_keeps ..)

theorem execThermalTrip_keeps {stack : Bool} {n : Nat} {s : State}  :
    KeepsO s (execThermalTrip stack n s) := by
  unfold execThermalTrip
  repeat' first
    | with_reducible apply Keeps.refl
    | with_reducible apply KeepsO.next
    | with_reducible apply Keeps.ite
    | split
    | with_reducible apply Keeps.after (State.powerOff_keeps ..)
    | with_reducible apply Keeps.after (State.setFatalBy_keeps ..)

theorem execPluggableInserted_keeps {cage powerClass : Nat} {s : State}  :
    KeepsO s (execPluggableInserted cage powerClass s) := by
  unfold execPluggableInserted
  repeat' first
    | with_reducible apply Keeps.refl
    | with_reducible assumption
    | (intro (n : Net); simp; done)
    | ((try lift_lets -underBinder); intro x; first
        | (refine Keeps.cut (s := s) x ?_ (fun hx => ?_); dsimp -zeta only [x]; rotate_left; clear_value x; rotate_right)
        | clear_value x)
    | with_reducible apply KeepsO.next
    | with_reducible apply Keeps.ite
    | split
    | with_reducible apply Keeps.after (State.laneDown_keeps ..)
    | with_reducible apply Keeps.after (State.modPower_keeps ..)
    | with_reducible apply Keeps.after (State.modNet_keeps (h := ?_) ..)

end Sys2Proof.Machine
end

