-- ==== Sys2Proof/Laws/KeepsRegs.lean ====
section
/-! SUPPORT. What every operation of Machine/Regs.lean keeps. -/
set_option linter.all false
set_option Elab.async false
namespace Sys2Proof.Machine

theorem State.senseTemps_keeps {s : State}  :
    Keeps s (State.senseTemps s) := by
  unfold State.senseTemps
  repeat' first
    | with_reducible apply Keeps.refl
    | ((try lift_lets -underBinder); intro x; clear_value x)
    | split
    | with_reducible apply Keeps.after (State.drawBytes_keeps ..)
    | with_reducible apply Keeps.after (State.draw_keeps ..)
    | with_reducible apply Keeps.after (State.modPower_keeps ..)
    | (with_reducible apply Keeps.of_pair; with_reducible assumption)

theorem State.shadowCopy_keeps {s : State} {i : Island}  :
    Keeps s (State.shadowCopy s i) := by
  unfold State.shadowCopy
  repeat' first
    | with_reducible apply Keeps.refl
    | with_reducible assumption
    | ((with_reducible refine Cell.Keeps.of ?_ ?_) <;> (simp; done))
    | ((try lift_lets -underBinder); intro x; first
        | (refine Keeps.cut (s := s) x ?_ (fun hx => ?_); dsimp -zeta only [x]; rotate_left; clear_value x; rotate_right)
        | clear_value x)
    | with_reducible apply Keeps.ite
    | split
    | with_reducible apply Keeps.after (State.senseTemps_keeps ..)
    | with_reducible apply Keeps.after (State.oscillate_keeps ..)
    | with_reducible apply Cell.Keeps.after (Cell.waited_keeps ..)
    | with_reducible apply Keeps.after (State.modCell_keeps (h := ?_) ..)
    | intro c
    | with_reducible refine Keeps.mk ?_

theorem execShadowSetCopy_keeps {island : Island} {s : State}  :
    KeepsO s (execShadowSetCopy island s) := by
  unfold execShadowSetCopy
  repeat' first
    | with_reducible apply Keeps.refl
    | with_reducible apply KeepsO.next
    | with_reducible apply Keeps.after (State.shadowCopy_keeps ..)

theorem State.readMark_keeps {s : State} {a : Nat}  :
    Keeps s (State.readMark s a) := by
  unfold State.readMark
  repeat' first
    | with_reducible apply Keeps.refl
    | with_reducible assumption
    | ((try lift_lets -underBinder); intro x; first
        | (refine Keeps.cut (s := s) x ?_ (fun hx => ?_); dsimp -zeta only [x]; rotate_left; clear_value x; rotate_right)
        | clear_value x)
    | with_reducible apply Keeps.after (State.modHif_keeps ..)
    | with_reducible refine Keeps.mk ?_

theorem execReTagsRead_keeps {k : Nat} {s : State}  :
    KeepsO s (execReTagsRead k s) := by
  unfold execReTagsRead
  repeat' first
    | with_reducible apply Keeps.refl
    | with_reducible apply KeepsO.next
    | with_reducible apply Keeps.after (State.readMark_keeps ..)
    | with_reducible apply Keeps.after (State.modEngine_keeps ..)

theorem execMemWcbRead_keeps {k : Nat} {s : State}  :
    KeepsO s (execMemWcbRead k s) := by
  unfold execMemWcbRead
  repeat' first
    | with_reducible apply Keeps.refl
    | with_reducible apply KeepsO.next
    | with_reducible apply Keeps.after (State.readMark_keeps ..)
    | with_reducible apply Keeps.after (State.modStack_keeps ..)

theorem execGlbMtimeLowRead_keeps {fn : Nat} {s : State}  :
    KeepsO s (execGlbMtimeLowRead fn s) := by
  unfold execGlbMtimeLowRead
  repeat' first
    | with_reducible apply Keeps.refl
    | ((try lift_lets -underBinder); intro x; clear_value x)
    | with_reducible apply KeepsO.next
    | with_reducible apply Keeps.after (State.modHif_keeps ..)

theorem execGlbMtimeHighRead_keeps {fn : Nat} {s : State}  :
    KeepsO s (execGlbMtimeHighRead fn s) := by
  unfold execGlbMtimeHighRead
  repeat' first
    | with_reducible apply Keeps.refl
    | ((try lift_lets -underBinder); intro x; clear_value x)
    | with_reducible apply KeepsO.next
    | with_reducible apply Keeps.after (State.modHif_keeps ..)

theorem State.after_keeps {s : State} {o : Host.Outcome State Fault Refusal} (h : KeepsO s o) : Keeps s (s.after o) := by
  unfold State.after
  split
  · exact h _ rfl
  · exact .refl s

theorem State.store_keeps {s : State} {a v : Nat}  :
    Keeps s (State.store s a v) := by
  unfold State.store
  repeat' first
    | with_reducible apply Keeps.refl
    | with_reducible apply Keeps.ite
    | with_reducible apply Keeps.after (State.setReg_keeps ..)
    | with_reducible apply Keeps.after (State.countClamps_keeps ..)

theorem State.ifLow_keeps {s : State} {low : Bool} {f : State → State} (h_f : ∀ t, Keeps t (f t)) :
    Keeps s (State.ifLow s low f) := by
  unfold State.ifLow
  repeat' first
    | with_reducible apply Keeps.refl
    | with_reducible apply Keeps.ite
    | with_reducible apply Keeps.after (h_f ..)

theorem State.writeGlb_keeps {s : State} {a v w : Nat} {low : Bool}  :
    Keeps s (State.writeGlb s a v w low) := by
  unfold State.writeGlb
  repeat' first
    | with_reducible apply Keeps.refl
    | split
    | with_reducible apply Keeps.after (State.ifLow_keeps (h_f := fun s => ?_) ..)
    | with_reducible apply Keeps.after (State.store_keeps ..)
    | with_reducible apply Keeps.after (State.after_keeps (h := ?_) ..)
    | with_reducible apply Keeps.after (State.glbReset_keeps ..)
    | with_reducible apply execImgCmdNop_keeps
    | with_reducible apply execImgDiscard_keeps
    | with_reducible apply execImgCommit_keeps
    | with_reducible apply execImgStage_keeps

theorem State.writeCell_keeps {s : State} {pos o a v w : Nat} {low : Bool}  :
    Keeps s (State.writeCell s pos o a v w low) := by
  unfold State.writeCell
  repeat' first
    | with_reducible apply Keeps.refl
    | with_reducible assumption
    | ((try lift_lets -underBinder); intro x; (refine Keeps.cut (s := s) x ?_ (fun hx => ?_); dsimp -zeta only [x]; rotate_left; clear_value x; rotate_right))
    | with_reducible apply Keeps.ite
    | split
    | with_reducible apply Keeps.after (State.ifLow_keeps (h_f := fun s => ?_) ..)
    | with_reducible apply Keeps.after (State.store_keeps ..)
    | with_reducible apply Keeps.after (State.after_keeps (h := ?_) ..)
    | with_reducible apply execCellFaultValidClear_keeps
    | with_reducible apply execCellCntClear_keeps
    | with_reducible apply execCellCntFreeze_keeps

theorem State.writeEngine_keeps {s : State} {k o a v w : Nat} {low : Bool}  :
    Keeps s (State.writeEngine s k o a v w low) := by
  unfold State.writeEngine
  repeat' first
    | with_reducible apply Keeps.refl
    | with_reducible assumption
    | ((try lift_lets -underBinder); intro x; (refine Keeps.cut (s := s) x ?_ (fun hx => ?_); dsimp -zeta only [x]; rotate_left; clear_value x; rotate_right))
    | with_reducible apply Keeps.ite
    | split
    | with_reducible apply Keeps.after (State.ifLow_keeps (h_f := fun s => ?_) ..)
    | with_reducible apply Keeps.after (State.store_keeps ..)
    | with_reducible apply Keeps.after (State.after_keeps (h := ?_) ..)
    | with_reducible apply execReFaultValidClear_keeps
    | with_reducible apply execReCntClear_keeps
    | with_reducible apply execReCntFreeze_keeps

theorem State.writePart_keeps {s : State} {p o a v : Nat}  :
    Keeps s (State.writePart s p o a v) := by
  unfold State.writePart
  repeat' first
    | with_reducible apply Keeps.refl
    | with_reducible apply Keeps.ite
    | split
    | with_reducible apply Keeps.after (State.store_keeps ..)
    | with_reducible apply Keeps.after (State.cqCtlWrite_keeps ..)
    | with_reducible apply Keeps.after (State.subCtlWrite_keeps ..)

theorem State.writeTbl_keeps {s : State} {p w : Nat}  :
    Keeps s (State.writeTbl s p w) := by
  unfold State.writeTbl
  repeat' first
    | with_reducible apply Keeps.refl
    | ((try lift_lets -underBinder); intro x; clear_value x)
    | split
    | with_reducible apply Keeps.after (State.after_keeps (h := ?_) ..)
    | with_reducible apply execTblCmdNop_keeps
    | with_reducible apply execRelease_keeps
    | with_reducible apply execBind_keeps
    | with_reducible apply execQuery_keeps
    | with_reducible apply execPublishSet_keeps
    | with_reducible apply execAbort_keeps
    | with_reducible apply execPublish_keeps
    | with_reducible apply execStage_keeps

theorem State.writeXlt_keeps {s : State} {p w : Nat}  :
    Keeps s (State.writeXlt s p w) := by
  unfold State.writeXlt
  repeat' first
    | with_reducible apply Keeps.refl
    | ((try lift_lets -underBinder); intro x; clear_value x)
    | split
    | with_reducible apply Keeps.after (State.after_keeps (h := ?_) ..)
    | with_reducible apply execXltCmdNop_keeps
    | with_reducible apply execRangeRead_keeps
    | with_reducible apply execRangeReplace_keeps
    | with_reducible apply execRangeRemove_keeps
    | with_reducible apply execRangeAdd_keeps

theorem State.writeCmp_keeps {s : State} {p c w : Nat}  :
    Keeps s (State.writeCmp s p c w) := by
  unfold State.writeCmp
  repeat' first
    | with_reducible apply Keeps.refl
    | ((try lift_lets -underBinder); intro x; clear_value x)
    | split
    | with_reducible apply Keeps.after (State.after_keeps (h := ?_) ..)
    | with_reducible apply execCmpCmdNop_keeps
    | with_reducible apply execCmpRelease_keeps
    | with_reducible apply execLoad_keeps
    | with_reducible apply execBuild_keeps

theorem State.writeCe_keeps {s : State} {e o a v w : Nat} {low : Bool}  :
    Keeps s (State.writeCe s e o a v w low) := by
  unfold State.writeCe
  repeat' first
    | with_reducible apply Keeps.refl
    | with_reducible assumption
    | ((try lift_lets -underBinder); intro x; (refine Keeps.cut (s := s) x ?_ (fun hx => ?_); dsimp -zeta only [x]; rotate_left; clear_value x; rotate_right))
    | with_reducible apply Keeps.ite
    | split
    | with_reducible apply Keeps.after (State.ifLow_keeps (h_f := fun s => ?_) ..)
    | with_reducible apply Keeps.after (State.store_keeps ..)
    | with_reducible apply Keeps.after (State.after_keeps (h := ?_) ..)
    | with_reducible apply execCeAbort_keeps
    | with_reducible apply execCeResume_keeps
    | with_reducible apply Keeps.after (State.ceCtlWrite_keeps ..)

theorem State.writeNet_keeps {s : State} {o a v w : Nat} {low : Bool}  :
    Keeps s (State.writeNet s o a v w low) := by
  unfold State.writeNet
  repeat' first
    | with_reducible apply Keeps.refl
    | with_reducible assumption
    | ((try lift_lets -underBinder); intro x; first
        | (refine Keeps.cut (s := s) x ?_ (fun hx => ?_); dsimp -zeta only [x]; rotate_left; clear_value x; rotate_right)
        | clear_value x)
    | with_reducible apply Keeps.ite
    | with_reducible apply Keeps.after (State.store_keeps ..)
    | with_reducible apply Keeps.after (State.after_keeps (h := ?_) ..)
    | with_reducible apply Keeps.after (State.netRingCtlWrite_keeps ..)
    | with_reducible apply Keeps.after (State.peerCfgWrite_keeps ..)
    | with_reducible apply execNetSakWrite_keeps
    | with_reducible apply execPeerReset_keeps
    | with_reducible apply Keeps.after (State.redWrite_keeps ..)

theorem State.writeHrv_keeps {s : State} {o a v w : Nat} {low : Bool}  :
    Keeps s (State.writeHrv s o a v w low) := by
  unfold State.writeHrv
  repeat' first
    | with_reducible apply Keeps.refl
    | with_reducible apply Keeps.ite
    | with_reducible apply Keeps.after (State.ifLow_keeps (h_f := fun s => ?_) ..)
    | with_reducible apply Keeps.after (State.store_keeps ..)
    | with_reducible apply Keeps.after (State.after_keeps (h := ?_) ..)
    | with_reducible apply execHrvSakWrite_keeps
    | with_reducible apply Keeps.after (State.linkEn_keeps ..)

theorem State.writeCart_keeps {s : State} {w : Nat}  :
    Keeps s (State.writeCart s w) := by
  unfold State.writeCart
  repeat' first
    | with_reducible apply Keeps.refl
    | ((try lift_lets -underBinder); intro x; clear_value x)
    | split
    | with_reducible apply Keeps.after (State.after_keeps (h := ?_) ..)
    | with_reducible apply execCartCmdNop_keeps
    | with_reducible apply execDiscardDirty_keeps
    | with_reducible apply execAdopt_keeps
    | with_reducible apply execMigrate_keeps
    | with_reducible apply execFill_keeps
    | with_reducible apply execEject_keeps

theorem State.writeFault_keeps {s : State} {o a v w : Nat}  :
    Keeps s (State.writeFault s o a v w) := by
  unfold State.writeFault
  repeat' first
    | with_reducible apply Keeps.refl
    | with_reducible apply Keeps.ite
    | with_reducible apply Keeps.after (State.store_keeps ..)
    | with_reducible apply Keeps.after (State.larkSelWrite_keeps ..)
    | with_reducible apply Keeps.after (State.alertClear_keeps ..)
    | with_reducible apply Keeps.after (State.faultCtlWrite_keeps ..)

theorem State.writeAt_keeps {s : State} {a v w : Nat} {low : Bool}  :
    Keeps s (State.writeAt s a v w low) := by
  unfold State.writeAt
  repeat' first
    | with_reducible apply Keeps.refl
    | ((try lift_lets -underBinder); intro x; clear_value x)
    | with_reducible apply Keeps.ite
    | with_reducible apply Keeps.after (State.writeFault_keeps ..)
    | with_reducible apply Keeps.after (State.writeCart_keeps ..)
    | with_reducible apply Keeps.after (State.writeHrv_keeps ..)
    | with_reducible apply Keeps.after (State.writeNet_keeps ..)
    | with_reducible apply Keeps.after (State.writeCe_keeps ..)
    | with_reducible apply Keeps.after (State.writeCmp_keeps ..)
    | with_reducible apply Keeps.after (State.writeXlt_keeps ..)
    | with_reducible apply Keeps.after (State.writeTbl_keeps ..)
    | with_reducible apply Keeps.after (State.writePart_keeps ..)
    | with_reducible apply Keeps.after (State.writeEngine_keeps ..)
    | with_reducible apply Keeps.after (State.writeCell_keeps ..)
    | with_reducible apply Keeps.after (State.writeGlb_keeps ..)
    | with_reducible apply Keeps.after (State.ifLow_keeps (h_f := fun s => ?_) ..)
    | with_reducible apply Keeps.after (State.store_keeps ..)

theorem State.registerWrite_keeps {s : State} {fn off size val : Nat}  :
    Keeps s (State.registerWrite s fn off size val) := by
  unfold State.registerWrite
  repeat' first
    | with_reducible apply Keeps.refl
    | ((try lift_lets -underBinder); intro x; clear_value x)
    | with_reducible apply Keeps.ite
    | split
    | with_reducible apply Keeps.after (State.writeAt_keeps ..)

theorem execRegisterWrite_keeps {fn off size : Nat} {val : BitVec 64} {s : State}  :
    KeepsO s (execRegisterWrite fn off size val s) := by
  unfold execRegisterWrite
  repeat' first
    | with_reducible apply Keeps.refl
    | with_reducible apply KeepsO.next
    | with_reducible apply Keeps.after (State.registerWrite_keeps ..)

end Sys2Proof.Machine
end

