-- ==== Sys2Proof/Laws/KeepsManage.lean ====
section
/-! SUPPORT. What every operation of Machine/Manage.lean keeps. -/
set_option linter.all false
set_option Elab.async false
namespace Sys2Proof.Machine

theorem State.respond_keeps {s : State} {b : Bytes}  :
    Keeps s (State.respond s b) := by
  unfold State.respond
  repeat' first
    | with_reducible apply Keeps.refl
    | with_reducible apply Keeps.after (State.modPower_keeps ..)

theorem State.declineCmd_keeps {s : State}  :
    Keeps s (State.declineCmd s) := by
  unfold State.declineCmd
  repeat' first
    | with_reducible apply Keeps.refl
    | split
    | with_reducible apply Keeps.after (State.respond_keeps ..)
    | with_reducible apply Keeps.after (State.draw_keeps ..)
    | (with_reducible apply Keeps.of_pair; with_reducible assumption)

theorem State.oem_keeps {s : State} {i3c only : Bool} {f : State → State} (h_f : ∀ t, Keeps t (f t)) :
    Keeps s (State.oem s i3c only f) := by
  unfold State.oem
  repeat' first
    | with_reducible apply Keeps.refl
    | with_reducible apply Keeps.ite
    | with_reducible apply Keeps.after (h_f ..)
    | with_reducible apply Keeps.after (State.respond_keeps ..)

theorem execKeySet_keeps {i3c : Bool} {slot : Nat} {key : Bytes} {s : State}  :
    KeepsO s (execKeySet i3c slot key s) := by
  unfold execKeySet
  repeat' first
    | with_reducible apply Keeps.refl
    | with_reducible apply KeepsO.next
    | with_reducible apply Keeps.ite
    | split
    | with_reducible apply Keeps.after (State.oem_keeps (h_f := fun s => ?_) ..)
    | with_reducible apply Keeps.after (State.declineCmd_keeps ..)
    | with_reducible apply Keeps.after (State.respond_keeps ..)
    | with_reducible apply Keeps.after (State.modPower_keeps ..)

theorem execKeyRevoke_keeps {i3c : Bool} {slot : Nat} {s : State}  :
    KeepsO s (execKeyRevoke i3c slot s) := by
  unfold execKeyRevoke
  repeat' first
    | with_reducible apply Keeps.refl
    | with_reducible apply KeepsO.next
    | with_reducible apply Keeps.ite
    | with_reducible apply Keeps.after (State.oem_keeps (h_f := fun s => ?_) ..)
    | with_reducible apply Keeps.after (State.declineCmd_keeps ..)
    | with_reducible apply Keeps.after (State.respond_keeps ..)
    | with_reducible apply Keeps.after (State.modPower_keeps ..)

theorem execHealthClear_keeps {i3c replace : Bool} {s : State}  :
    KeepsO s (execHealthClear i3c replace s) := by
  unfold execHealthClear
  repeat' first
    | with_reducible apply Keeps.refl
    | with_reducible assumption
    | ((try lift_lets -underBinder); intro x; (refine Keeps.cut (s := s) x ?_ (fun hx => ?_); dsimp -zeta only [x]; rotate_left; clear_value x; rotate_right))
    | with_reducible apply KeepsO.next
    | (with_reducible apply Keeps.foldlFrom; rotate_left; intro s a; rotate_right)
    | with_reducible apply Keeps.after (State.oem_keeps (h_f := fun s => ?_) ..)
    | with_reducible apply Keeps.after (State.respond_keeps ..)
    | with_reducible apply Keeps.after (State.reopen_keeps ..)
    | with_reducible apply Keeps.after (State.modPower_keeps ..)
    | with_reducible apply Keeps.after (State.modHealth_keeps ..)

theorem execMtimeAdvance_keeps {i3c : Bool} {ns : Nat} {s : State}  :
    KeepsO s (execMtimeAdvance i3c ns s) := by
  unfold execMtimeAdvance
  repeat' first
    | with_reducible apply Keeps.refl
    | with_reducible apply KeepsO.next
    | with_reducible apply Keeps.ite
    | with_reducible apply Keeps.after (State.oem_keeps (h_f := fun s => ?_) ..)
    | with_reducible apply Keeps.after (State.declineCmd_keeps ..)
    | with_reducible apply Keeps.after (State.respond_keeps ..)
    | with_reducible refine Keeps.mk ?_

theorem execOemReset_keeps {i3c : Bool} {val : BitVec 64} {s : State}  :
    KeepsO s (execOemReset i3c val s) := by
  unfold execOemReset
  repeat' first
    | with_reducible apply Keeps.refl
    | with_reducible apply KeepsO.next
    | with_reducible apply Keeps.after (State.oem_keeps (h_f := fun s => ?_) ..)
    | with_reducible apply Keeps.after (State.respond_keeps ..)
    | with_reducible apply Keeps.after (State.glbReset_keeps ..)

theorem execLarkRead_keeps {i3c : Bool} {unit : UnitId} {s : State}  :
    KeepsO s (execLarkRead i3c unit s) := by
  unfold execLarkRead
  repeat' first
    | with_reducible apply Keeps.refl
    | with_reducible apply KeepsO.next
    | with_reducible apply Keeps.after (State.oem_keeps (h_f := fun s => ?_) ..)
    | with_reducible apply Keeps.after (State.respond_keeps ..)

theorem execStatusRead_keeps {i3c : Bool} {s : State}  :
    KeepsO s (execStatusRead i3c s) := by
  unfold execStatusRead
  repeat' first
    | with_reducible apply Keeps.refl
    | with_reducible apply KeepsO.next
    | with_reducible apply Keeps.after (State.oem_keeps (h_f := fun s => ?_) ..)
    | with_reducible apply Keeps.after (State.respond_keeps ..)

theorem execSetPowerCap_keeps {watts : Nat} {s : State}  :
    KeepsO s (execSetPowerCap watts s) := by
  unfold execSetPowerCap
  repeat' first
    | with_reducible apply Keeps.refl
    | ((try lift_lets -underBinder); intro x; clear_value x)
    | with_reducible apply KeepsO.next
    | with_reducible apply Keeps.ite
    | with_reducible apply Keeps.after (State.respond_keeps ..)
    | with_reducible apply Keeps.after (State.modPower_keeps ..)

theorem State.sensor_keeps {s t u : State} {n v : Nat} (h : t.sensor n = some (v, u)) (k : Keeps s t) : Keeps s u := by
  unfold State.sensor at h
  dsimp only at h
  split at h
  · cases h; exact k
  split at h
  · cases h; exact k
  split at h
  · cases h; exact k
  split at h
  · cases h; exact k
  split at h
  · cases h
    refine k.trans ?_
    split
    · exact State.senseTemps_keeps
    · exact .refl _
  · cases h

theorem execGetSensorReading_keeps {sensor : Nat} {s : State}  :
    KeepsO s (execGetSensorReading sensor s) := by
  unfold execGetSensorReading
  repeat' first
    | with_reducible apply Keeps.refl
    | with_reducible apply KeepsO.next
    | with_reducible apply Keeps.ite
    | split
    | (with_reducible apply State.sensor_keeps; with_reducible assumption)
    | with_reducible apply Keeps.after (State.respond_keeps ..)

theorem State.firmware_keeps {s : State} {data : Bytes}  :
    Keeps s (State.firmware s data) := by
  unfold State.firmware
  repeat' first
    | with_reducible apply Keeps.refl
    | with_reducible assumption
    | ((try lift_lets -underBinder); intro x; first
        | (refine Keeps.cut (s := s) x ?_ (fun hx => ?_); dsimp -zeta only [x]; rotate_left; clear_value x; rotate_right)
        | clear_value x)
    | with_reducible apply Keeps.ite
    | with_reducible apply Keeps.after (State.respond_keeps ..)
    | with_reducible apply Keeps.after (State.modPower_keeps ..)

theorem State.transferImage_keeps {s : State} {data : Bytes}  :
    Keeps s (State.transferImage s data) := by
  unfold State.transferImage
  repeat' first
    | with_reducible apply Keeps.refl
    | with_reducible assumption
    | ((try lift_lets -underBinder); intro x; (refine Keeps.cut (s := s) x ?_ (fun hx => ?_); dsimp -zeta only [x]; rotate_left; clear_value x; rotate_right))
    | with_reducible apply Keeps.ite
    | split
    | with_reducible apply Keeps.after (State.respond_keeps ..)
    | with_reducible apply Keeps.after (State.tryPartnerCommit_keeps ..)
    | with_reducible apply Keeps.after (State.imgCommand_keeps (h_f := fun s => ?_) ..)
    | with_reducible apply Keeps.after (State.stageBytes_keeps ..)
    | with_reducible apply Keeps.after (State.stageReject_keeps ..)
    | with_reducible apply Keeps.after (State.modImage_keeps ..)

theorem execFirmwareUpdate_keeps {image : Bool} {data : Bytes} {s : State}  :
    KeepsO s (execFirmwareUpdate image data s) := by
  unfold execFirmwareUpdate
  repeat' first
    | with_reducible apply Keeps.refl
    | with_reducible apply KeepsO.next
    | with_reducible apply Keeps.ite
    | with_reducible apply Keeps.after (State.transferImage_keeps ..)
    | with_reducible apply Keeps.after (State.firmware_keeps ..)

theorem execPldmBase_keeps {cmd : Nat} {s : State}  :
    KeepsO s (execPldmBase cmd s) := by
  unfold execPldmBase
  repeat' first
    | with_reducible apply Keeps.refl
    | ((try lift_lets -underBinder); intro x; (refine Keeps.cutF2 x (fun s a => ?_) (fun hg => ?_); dsimp -zeta only [x]; rotate_left; clear_value x; rotate_right))
    | with_reducible apply KeepsO.next
    | with_reducible apply Keeps.ite
    | split
    | with_reducible apply Keeps.after (State.respond_keeps ..)
    | with_reducible apply Keeps.after (State.drawBytes_keeps ..)
    | (with_reducible apply Keeps.after; with_reducible apply_assumption -exfalso -symm)

theorem State.spdmAnswer_keeps {s : State} {f : State → State} (h_f : ∀ t, Keeps t (f t)) :
    Keeps s (State.spdmAnswer s f) := by
  unfold State.spdmAnswer
  repeat' first
    | with_reducible apply Keeps.refl
    | with_reducible apply Keeps.ite
    | with_reducible apply Keeps.after (h_f ..)

theorem execGetVersion_keeps {s : State}  :
    KeepsO s (execGetVersion s) := by
  unfold execGetVersion
  repeat' first
    | with_reducible apply Keeps.refl
    | with_reducible apply KeepsO.next
    | with_reducible apply Keeps.after (State.spdmAnswer_keeps (h_f := fun s => ?_) ..)
    | with_reducible apply Keeps.after (State.respond_keeps ..)

theorem execGetCapabilities_keeps {s : State}  :
    KeepsO s (execGetCapabilities s) := by
  unfold execGetCapabilities
  repeat' first
    | with_reducible apply Keeps.refl
    | with_reducible apply KeepsO.next
    | split
    | with_reducible apply Keeps.after (State.spdmAnswer_keeps (h_f := fun s => ?_) ..)
    | with_reducible apply Keeps.after (State.respond_keeps ..)
    | with_reducible apply Keeps.after (State.drawBytes_keeps ..)
    | (with_reducible apply Keeps.of_pair; with_reducible assumption)

theorem execNegotiateAlgorithms_keeps {s : State}  :
    KeepsO s (execNegotiateAlgorithms s) := by
  unfold execNegotiateAlgorithms
  repeat' first
    | with_reducible apply Keeps.refl
    | with_reducible apply KeepsO.next
    | with_reducible apply Keeps.after (State.spdmAnswer_keeps (h_f := fun s => ?_) ..)
    | with_reducible apply Keeps.after (State.respond_keeps ..)

theorem execGetDigests_keeps {s : State}  :
    KeepsO s (execGetDigests s) := by
  unfold execGetDigests
  repeat' first
    | with_reducible apply Keeps.refl
    | with_reducible apply KeepsO.next
    | with_reducible apply Keeps.after (State.spdmAnswer_keeps (h_f := fun s => ?_) ..)
    | with_reducible apply Keeps.after (State.respond_keeps ..)

theorem execGetCertificate_keeps {off len : Nat} {s : State}  :
    KeepsO s (execGetCertificate off len s) := by
  unfold execGetCertificate
  repeat' first
    | with_reducible apply Keeps.refl
    | ((try lift_lets -underBinder); intro x; clear_value x)
    | with_reducible apply KeepsO.next
    | with_reducible apply Keeps.after (State.spdmAnswer_keeps (h_f := fun s => ?_) ..)
    | with_reducible apply Keeps.after (State.respond_keeps ..)

theorem execChallenge_keeps {nonce : Bytes} {s : State}  :
    KeepsO s (execChallenge nonce s) := by
  unfold execChallenge
  repeat' first
    | with_reducible apply Keeps.refl
    | ((try lift_lets -underBinder); intro x; clear_value x)
    | with_reducible apply KeepsO.next
    | split
    | with_reducible apply Keeps.after (State.spdmAnswer_keeps (h_f := fun s => ?_) ..)
    | with_reducible apply Keeps.after (State.respond_keeps ..)
    | with_reducible apply Keeps.after (State.drawBytes_keeps ..)
    | (with_reducible apply Keeps.of_pair; with_reducible assumption)

theorem execGetMeasurements_keeps {index : Nat} {nonce : Bytes} {s : State}  :
    KeepsO s (execGetMeasurements index nonce s) := by
  unfold execGetMeasurements
  repeat' first
    | with_reducible apply Keeps.refl
    | ((try lift_lets -underBinder); intro x; clear_value x)
    | with_reducible apply KeepsO.next
    | split
    | with_reducible apply Keeps.after (State.spdmAnswer_keeps (h_f := fun s => ?_) ..)
    | with_reducible apply Keeps.after (State.respond_keeps ..)
    | with_reducible apply Keeps.after (State.drawBytes_keeps ..)
    | (with_reducible apply Keeps.of_pair; with_reducible assumption)

theorem execEntdaa_keeps {addr : Nat} {s : State}  :
    KeepsO s (execEntdaa addr s) := by
  unfold execEntdaa
  repeat' first
    | with_reducible apply Keeps.refl
    | with_reducible apply KeepsO.next
    | with_reducible apply Keeps.ite
    | with_reducible apply Keeps.after (State.modPower_keeps ..)

theorem execSetEndpointId_keeps {pcie : Bool} {eid : Nat} {s : State}  :
    KeepsO s (execSetEndpointId pcie eid s) := by
  unfold execSetEndpointId
  repeat' first
    | with_reducible apply Keeps.refl
    | with_reducible apply KeepsO.next
    | with_reducible apply Keeps.ite
    | with_reducible apply Keeps.after (State.modPower_keeps ..)

end Sys2Proof.Machine
end

