-- ==== Sys2Proof/Laws/KeepsScalar.lean ====
section
/-! SUPPORT. What every operation of Machine/Scalar.lean keeps. -/
set_option linter.all false
set_option Elab.async false
namespace Sys2Proof.Machine

theorem State.scalarOp_keeps {s : State} {i : Nat} {w : StepWord} {f : Nat → Nat → Nat}  :
    Keeps s (State.scalarOp s i w f) := by
  unfold State.scalarOp
  repeat' first
    | with_reducible apply Keeps.refl
    | ((try lift_lets -underBinder); intro x; clear_value x)
    | with_reducible apply Keeps.after (State.setSd_keeps ..)

theorem execSmov_keeps {g : Nat} {w : StepWord} {s : State}  :
    KeepsO s (execSmov g w s) := by
  unfold execSmov
  repeat' first
    | with_reducible apply Keeps.refl
    | with_reducible apply KeepsO.next
    | with_reducible apply Keeps.after (State.setSd_keeps ..)
    | with_reducible apply Keeps.after (State.issue_keeps (h_f := fun x0 x1 s => ?_) ..)

theorem execSadd_keeps {g : Nat} {w : StepWord} {s : State}  :
    KeepsO s (execSadd g w s) := by
  unfold execSadd
  repeat' first
    | with_reducible apply Keeps.refl
    | with_reducible apply KeepsO.next
    | with_reducible apply Keeps.after (State.scalarOp_keeps ..)
    | with_reducible apply Keeps.after (State.issue_keeps (h_f := fun x0 x1 s => ?_) ..)

theorem execSsub_keeps {g : Nat} {w : StepWord} {s : State}  :
    KeepsO s (execSsub g w s) := by
  unfold execSsub
  repeat' first
    | with_reducible apply Keeps.refl
    | with_reducible apply KeepsO.next
    | with_reducible apply Keeps.after (State.scalarOp_keeps ..)
    | with_reducible apply Keeps.after (State.issue_keeps (h_f := fun x0 x1 s => ?_) ..)

theorem execSmul_keeps {g : Nat} {w : StepWord} {s : State}  :
    KeepsO s (execSmul g w s) := by
  unfold execSmul
  repeat' first
    | with_reducible apply Keeps.refl
    | with_reducible apply KeepsO.next
    | with_reducible apply Keeps.after (State.scalarOp_keeps ..)
    | with_reducible apply Keeps.after (State.issue_keeps (h_f := fun x0 x1 s => ?_) ..)

theorem execSand_keeps {g : Nat} {w : StepWord} {s : State}  :
    KeepsO s (execSand g w s) := by
  unfold execSand
  repeat' first
    | with_reducible apply Keeps.refl
    | with_reducible apply KeepsO.next
    | with_reducible apply Keeps.after (State.scalarOp_keeps ..)
    | with_reducible apply Keeps.after (State.issue_keeps (h_f := fun x0 x1 s => ?_) ..)

theorem execSor_keeps {g : Nat} {w : StepWord} {s : State}  :
    KeepsO s (execSor g w s) := by
  unfold execSor
  repeat' first
    | with_reducible apply Keeps.refl
    | with_reducible apply KeepsO.next
    | with_reducible apply Keeps.after (State.scalarOp_keeps ..)
    | with_reducible apply Keeps.after (State.issue_keeps (h_f := fun x0 x1 s => ?_) ..)

theorem execSxor_keeps {g : Nat} {w : StepWord} {s : State}  :
    KeepsO s (execSxor g w s) := by
  unfold execSxor
  repeat' first
    | with_reducible apply Keeps.refl
    | with_reducible apply KeepsO.next
    | with_reducible apply Keeps.after (State.scalarOp_keeps ..)
    | with_reducible apply Keeps.after (State.issue_keeps (h_f := fun x0 x1 s => ?_) ..)

theorem execSshl_keeps {g : Nat} {w : StepWord} {s : State}  :
    KeepsO s (execSshl g w s) := by
  unfold execSshl
  repeat' first
    | with_reducible apply Keeps.refl
    | with_reducible apply KeepsO.next
    | with_reducible apply Keeps.after (State.scalarOp_keeps ..)
    | with_reducible apply Keeps.after (State.issue_keeps (h_f := fun x0 x1 s => ?_) ..)

theorem execSshr_keeps {g : Nat} {w : StepWord} {s : State}  :
    KeepsO s (execSshr g w s) := by
  unfold execSshr
  repeat' first
    | with_reducible apply Keeps.refl
    | with_reducible apply KeepsO.next
    | with_reducible apply Keeps.after (State.scalarOp_keeps ..)
    | with_reducible apply Keeps.after (State.issue_keeps (h_f := fun x0 x1 s => ?_) ..)

theorem execScmp_keeps {g : Nat} {w : StepWord} {s : State}  :
    KeepsO s (execScmp g w s) := by
  unfold execScmp
  repeat' first
    | with_reducible apply Keeps.refl
    | ((try lift_lets -underBinder); intro x; clear_value x)
    | with_reducible apply KeepsO.next
    | with_reducible apply Keeps.after (State.setSd_keeps ..)
    | with_reducible apply Keeps.after (State.issue_keeps (h_f := fun x0 x1 s => ?_) ..)

theorem execSfop_keeps {g : Nat} {w : StepWord} {s : State}  :
    KeepsO s (execSfop g w s) := by
  unfold execSfop
  repeat' first
    | with_reducible apply Keeps.refl
    | ((try lift_lets -underBinder); intro x; clear_value x)
    | with_reducible apply KeepsO.next
    | with_reducible apply Keeps.after (State.setSd_keeps ..)
    | with_reducible apply Keeps.after (State.issue_keeps (h_f := fun x0 x1 s => ?_) ..)

end Sys2Proof.Machine
end

