-- ==== Sys2Proof/Laws/KeepsTopK.lean ====
section
/-! SUPPORT. What every operation of Machine/TopK.lean keeps. -/
set_option linter.all false
set_option Elab.async false
namespace Sys2Proof.Machine

theorem execTkinit_keeps {g : Nat} {w : StepWord} {s : State}  :
    KeepsO s (execTkinit g w s) := by
  unfold execTkinit
  repeat' first
    | with_reducible apply Keeps.refl
    | with_reducible assumption
    | with_reducible apply KeepsO.next
    | with_reducible apply Keeps.after (State.issue_keeps (h_f := fun x0 x1 s => ?_) ..)
    | with_reducible apply Keeps.after (State.modComp_keeps (h := ?_) ..)
    | intro c

theorem State.topkMerge_keeps {s : State} {i : Nat} {w : StepWord}  :
    Keeps s (State.topkMerge s i w) := by
  unfold State.topkMerge
  repeat' first
    | with_reducible apply Keeps.refl
    | with_reducible assumption
    | ((try lift_lets -underBinder); intro x; clear_value x)
    | with_reducible apply Keeps.ite
    | with_reducible apply Keeps.after (State.cellFault_keeps ..)
    | with_reducible apply Keeps.after (State.modComp_keeps (h := ?_) ..)
    | intro c

theorem execTkmerge_keeps {g : Nat} {w : StepWord} {s : State}  :
    KeepsO s (execTkmerge g w s) := by
  unfold execTkmerge
  repeat' first
    | with_reducible apply Keeps.refl
    | with_reducible apply KeepsO.next
    | with_reducible apply Keeps.after (State.topkMerge_keeps ..)
    | with_reducible apply Keeps.after (State.issue_keeps (h_f := fun x0 x1 s => ?_) ..)

theorem State.topkRead_keeps {s : State} {i p : Nat} {w : StepWord}  :
    Keeps s (State.topkRead s i p w) := by
  unfold State.topkRead
  repeat' first
    | with_reducible apply Keeps.refl
    | ((try lift_lets -underBinder); intro x; clear_value x)
    | with_reducible apply Keeps.ite
    | split
    | (with_reducible apply Keeps.foldlFrom; rotate_left; intro s a; rotate_right)
    | with_reducible apply Keeps.after (State.xltFault_keeps ..)
    | with_reducible apply Keeps.after (State.cellWrite_keeps ..)
    | with_reducible apply Keeps.after (State.cellFault_keeps ..)

theorem execTkread_keeps {g : Nat} {w : StepWord} {s : State}  :
    KeepsO s (execTkread g w s) := by
  unfold execTkread
  repeat' first
    | with_reducible apply Keeps.refl
    | with_reducible apply KeepsO.next
    | with_reducible apply Keeps.after (State.topkRead_keeps ..)
    | with_reducible apply Keeps.after (State.issue_keeps (h_f := fun x0 x1 s => ?_) ..)

theorem execTkthr_keeps {g : Nat} {w : StepWord} {s : State}  :
    KeepsO s (execTkthr g w s) := by
  unfold execTkthr
  repeat' first
    | with_reducible apply Keeps.refl
    | ((try lift_lets -underBinder); intro x; clear_value x)
    | with_reducible apply KeepsO.next
    | with_reducible apply Keeps.after (State.setSd_keeps ..)
    | with_reducible apply Keeps.after (State.issue_keeps (h_f := fun x0 x1 s => ?_) ..)

end Sys2Proof.Machine
end

