-- ==== Sys2Proof/Laws/KeepsVector.lean ====
section
/-! SUPPORT. What every operation of Machine/Vector.lean keeps. -/
set_option linter.all false
set_option Elab.async false
namespace Sys2Proof.Machine

theorem State.vecStep_keeps {s : State} {i : Nat} {reads : List (Nat × Nat)} {dests : List Nat} {f : Compute → Compute} (h_f : ∀ c, Compute.Keeps c (f c)) :
    Keeps s (State.vecStep s i reads dests f) := by
  unfold State.vecStep
  repeat' first
    | with_reducible apply Keeps.refl
    | with_reducible assumption
    | ((try lift_lets -underBinder); intro x; clear_value x)
    | with_reducible apply Keeps.ite
    | with_reducible apply Keeps.after (State.scramble_keeps ..)
    | with_reducible apply Keeps.after (State.cellFault_keeps ..)
    | with_reducible apply Keeps.after (State.modComp_keeps (h := ?_) ..)

theorem Compute.vecWrite_keeps {c : Compute} {td fb : Nat} {f : Nat → List Nat}  :
    Compute.Keeps c (Compute.vecWrite c td fb f) := by
  unfold Compute.vecWrite
  repeat' first
    | with_reducible exact Compute.Keeps.refl _
    | with_reducible apply Compute.Keeps.after (Compute.setRows_keeps ..)

theorem State.vec1_keeps {s : State} {i : Nat} {w : StepWord} {op : Bool → Val → Val}  :
    Keeps s (State.vec1 s i w op) := by
  unfold State.vec1
  repeat' first
    | with_reducible apply Keeps.refl
    | ((try lift_lets -underBinder); intro x; clear_value x)
    | with_reducible apply Compute.Keeps.after (Compute.vecWrite_keeps ..)
    | with_reducible apply Keeps.after (State.vecStep_keeps (h_f := fun c => ?_) ..)
    | with_reducible exact Compute.Keeps.refl _

theorem State.vec2_keeps {s : State} {i : Nat} {w : StepWord} {op : Bool → Val → Val → Val}  :
    Keeps s (State.vec2 s i w op) := by
  unfold State.vec2
  repeat' first
    | with_reducible apply Keeps.refl
    | ((try lift_lets -underBinder); intro x; clear_value x)
    | with_reducible apply Compute.Keeps.after (Compute.vecWrite_keeps ..)
    | with_reducible apply Keeps.after (State.vecStep_keeps (h_f := fun c => ?_) ..)
    | with_reducible exact Compute.Keeps.refl _

theorem State.vec3_keeps {s : State} {i : Nat} {w : StepWord} {op : Bool → Val → Val → Val → Val}  :
    Keeps s (State.vec3 s i w op) := by
  unfold State.vec3
  repeat' first
    | with_reducible apply Keeps.refl
    | ((try lift_lets -underBinder); intro x; clear_value x)
    | with_reducible apply Compute.Keeps.after (Compute.vecWrite_keeps ..)
    | with_reducible apply Keeps.after (State.vecStep_keeps (h_f := fun c => ?_) ..)
    | with_reducible exact Compute.Keeps.refl _

theorem State.vecBits_keeps {s : State} {i : Nat} {w : StepWord} {op : Nat → Nat → Nat}  :
    Keeps s (State.vecBits s i w op) := by
  unfold State.vecBits
  repeat' first
    | with_reducible apply Keeps.refl
    | ((try lift_lets -underBinder); intro x; clear_value x)
    | split
    | with_reducible apply Compute.Keeps.after (Compute.vecWrite_keeps ..)
    | with_reducible apply Keeps.after (State.vecStep_keeps (h_f := fun c => ?_) ..)
    | with_reducible exact Compute.Keeps.refl _

theorem execVadd_keeps {g : Nat} {w : StepWord} {s : State}  :
    KeepsO s (execVadd g w s) := by
  unfold execVadd
  repeat' first
    | with_reducible apply Keeps.refl
    | with_reducible apply KeepsO.next
    | with_reducible apply Keeps.after (State.vec2_keeps ..)
    | with_reducible apply Keeps.after (State.issue_keeps (h_f := fun x0 x1 s => ?_) ..)

theorem execVsub_keeps {g : Nat} {w : StepWord} {s : State}  :
    KeepsO s (execVsub g w s) := by
  unfold execVsub
  repeat' first
    | with_reducible apply Keeps.refl
    | with_reducible apply KeepsO.next
    | with_reducible apply Keeps.after (State.vec2_keeps ..)
    | with_reducible apply Keeps.after (State.issue_keeps (h_f := fun x0 x1 s => ?_) ..)

theorem execVmul_keeps {g : Nat} {w : StepWord} {s : State}  :
    KeepsO s (execVmul g w s) := by
  unfold execVmul
  repeat' first
    | with_reducible apply Keeps.refl
    | with_reducible apply KeepsO.next
    | with_reducible apply Keeps.after (State.vec2_keeps ..)
    | with_reducible apply Keeps.after (State.issue_keeps (h_f := fun x0 x1 s => ?_) ..)

theorem execVmax_keeps {g : Nat} {w : StepWord} {s : State}  :
    KeepsO s (execVmax g w s) := by
  unfold execVmax
  repeat' first
    | with_reducible apply Keeps.refl
    | with_reducible apply KeepsO.next
    | with_reducible apply Keeps.after (State.vec2_keeps ..)
    | with_reducible apply Keeps.after (State.issue_keeps (h_f := fun x0 x1 s => ?_) ..)

theorem execVmin_keeps {g : Nat} {w : StepWord} {s : State}  :
    KeepsO s (execVmin g w s) := by
  unfold execVmin
  repeat' first
    | with_reducible apply Keeps.refl
    | with_reducible apply KeepsO.next
    | with_reducible apply Keeps.after (State.vec2_keeps ..)
    | with_reducible apply Keeps.after (State.issue_keeps (h_f := fun x0 x1 s => ?_) ..)

theorem execVfma_keeps {g : Nat} {w : StepWord} {s : State}  :
    KeepsO s (execVfma g w s) := by
  unfold execVfma
  repeat' first
    | with_reducible apply Keeps.refl
    | with_reducible apply KeepsO.next
    | with_reducible apply Keeps.after (State.vec3_keeps ..)
    | with_reducible apply Keeps.after (State.issue_keeps (h_f := fun x0 x1 s => ?_) ..)

theorem execVand_keeps {g : Nat} {w : StepWord} {s : State}  :
    KeepsO s (execVand g w s) := by
  unfold execVand
  repeat' first
    | with_reducible apply Keeps.refl
    | with_reducible apply KeepsO.next
    | with_reducible apply Keeps.after (State.vecBits_keeps ..)
    | with_reducible apply Keeps.after (State.issue_keeps (h_f := fun x0 x1 s => ?_) ..)

theorem execVor_keeps {g : Nat} {w : StepWord} {s : State}  :
    KeepsO s (execVor g w s) := by
  unfold execVor
  repeat' first
    | with_reducible apply Keeps.refl
    | with_reducible apply KeepsO.next
    | with_reducible apply Keeps.after (State.vecBits_keeps ..)
    | with_reducible apply Keeps.after (State.issue_keeps (h_f := fun x0 x1 s => ?_) ..)

theorem execVxor_keeps {g : Nat} {w : StepWord} {s : State}  :
    KeepsO s (execVxor g w s) := by
  unfold execVxor
  repeat' first
    | with_reducible apply Keeps.refl
    | with_reducible apply KeepsO.next
    | with_reducible apply Keeps.after (State.vecBits_keeps ..)
    | with_reducible apply Keeps.after (State.issue_keeps (h_f := fun x0 x1 s => ?_) ..)

theorem State.vecCompare_keeps {s : State} {i : Nat} {w : StepWord}  :
    Keeps s (State.vecCompare s i w) := by
  unfold State.vecCompare
  repeat' first
    | with_reducible apply Keeps.refl
    | ((try lift_lets -underBinder); intro x; clear_value x)
    | with_reducible apply Compute.Keeps.after (Compute.vecWrite_keeps ..)
    | with_reducible apply Keeps.after (State.vecStep_keeps (h_f := fun c => ?_) ..)
    | with_reducible exact Compute.Keeps.refl _

theorem execVcmp_keeps {g : Nat} {w : StepWord} {s : State}  :
    KeepsO s (execVcmp g w s) := by
  unfold execVcmp
  repeat' first
    | with_reducible apply Keeps.refl
    | with_reducible apply KeepsO.next
    | with_reducible apply Keeps.after (State.vecCompare_keeps ..)
    | with_reducible apply Keeps.after (State.issue_keeps (h_f := fun x0 x1 s => ?_) ..)

theorem execVselm_keeps {g : Nat} {w : StepWord} {s : State}  :
    KeepsO s (execVselm g w s) := by
  unfold execVselm
  repeat' first
    | with_reducible apply Keeps.refl
    | with_reducible apply KeepsO.next
    | with_reducible apply Keeps.after (State.vec3_keeps ..)
    | with_reducible apply Keeps.after (State.issue_keeps (h_f := fun x0 x1 s => ?_) ..)

theorem execVabs_keeps {g : Nat} {w : StepWord} {s : State}  :
    KeepsO s (execVabs g w s) := by
  unfold execVabs
  repeat' first
    | with_reducible apply Keeps.refl
    | with_reducible apply KeepsO.next
    | with_reducible apply Keeps.after (State.vec1_keeps ..)
    | with_reducible apply Keeps.after (State.issue_keeps (h_f := fun x0 x1 s => ?_) ..)

theorem execVneg_keeps {g : Nat} {w : StepWord} {s : State}  :
    KeepsO s (execVneg g w s) := by
  unfold execVneg
  repeat' first
    | with_reducible apply Keeps.refl
    | with_reducible apply KeepsO.next
    | with_reducible apply Keeps.after (State.vec1_keeps ..)
    | with_reducible apply Keeps.after (State.issue_keeps (h_f := fun x0 x1 s => ?_) ..)

theorem execVrelu_keeps {g : Nat} {w : StepWord} {s : State}  :
    KeepsO s (execVrelu g w s) := by
  unfold execVrelu
  repeat' first
    | with_reducible apply Keeps.refl
    | with_reducible apply KeepsO.next
    | with_reducible apply Keeps.after (State.vec1_keeps ..)
    | with_reducible apply Keeps.after (State.issue_keeps (h_f := fun x0 x1 s => ?_) ..)

theorem execVgelu_keeps {g : Nat} {w : StepWord} {s : State}  :
    KeepsO s (execVgelu g w s) := by
  unfold execVgelu
  repeat' first
    | with_reducible apply Keeps.refl
    | with_reducible apply KeepsO.next
    | with_reducible apply Keeps.after (State.vec1_keeps ..)
    | with_reducible apply Keeps.after (State.issue_keeps (h_f := fun x0 x1 s => ?_) ..)

theorem execVsilu_keeps {g : Nat} {w : StepWord} {s : State}  :
    KeepsO s (execVsilu g w s) := by
  unfold execVsilu
  repeat' first
    | with_reducible apply Keeps.refl
    | with_reducible apply KeepsO.next
    | with_reducible apply Keeps.after (State.vec1_keeps ..)
    | with_reducible apply Keeps.after (State.issue_keeps (h_f := fun x0 x1 s => ?_) ..)

theorem execVsigm_keeps {g : Nat} {w : StepWord} {s : State}  :
    KeepsO s (execVsigm g w s) := by
  unfold execVsigm
  repeat' first
    | with_reducible apply Keeps.refl
    | with_reducible apply KeepsO.next
    | with_reducible apply Keeps.after (State.vec1_keeps ..)
    | with_reducible apply Keeps.after (State.issue_keeps (h_f := fun x0 x1 s => ?_) ..)

theorem execVtanh_keeps {g : Nat} {w : StepWord} {s : State}  :
    KeepsO s (execVtanh g w s) := by
  unfold execVtanh
  repeat' first
    | with_reducible apply Keeps.refl
    | with_reducible apply KeepsO.next
    | with_reducible apply Keeps.after (State.vec1_keeps ..)
    | with_reducible apply Keeps.after (State.issue_keeps (h_f := fun x0 x1 s => ?_) ..)

theorem execVexp_keeps {g : Nat} {w : StepWord} {s : State}  :
    KeepsO s (execVexp g w s) := by
  unfold execVexp
  repeat' first
    | with_reducible apply Keeps.refl
    | with_reducible apply KeepsO.next
    | with_reducible apply Keeps.after (State.vec1_keeps ..)
    | with_reducible apply Keeps.after (State.issue_keeps (h_f := fun x0 x1 s => ?_) ..)

theorem execVlog_keeps {g : Nat} {w : StepWord} {s : State}  :
    KeepsO s (execVlog g w s) := by
  unfold execVlog
  repeat' first
    | with_reducible apply Keeps.refl
    | with_reducible apply KeepsO.next
    | with_reducible apply Keeps.after (State.vec1_keeps ..)
    | with_reducible apply Keeps.after (State.issue_keeps (h_f := fun x0 x1 s => ?_) ..)

theorem execVrsqrt_keeps {g : Nat} {w : StepWord} {s : State}  :
    KeepsO s (execVrsqrt g w s) := by
  unfold execVrsqrt
  repeat' first
    | with_reducible apply Keeps.refl
    | with_reducible apply KeepsO.next
    | with_reducible apply Keeps.after (State.vec1_keeps ..)
    | with_reducible apply Keeps.after (State.issue_keeps (h_f := fun x0 x1 s => ?_) ..)

theorem execVrcp_keeps {g : Nat} {w : StepWord} {s : State}  :
    KeepsO s (execVrcp g w s) := by
  unfold execVrcp
  repeat' first
    | with_reducible apply Keeps.refl
    | with_reducible apply KeepsO.next
    | with_reducible apply Keeps.after (State.vec1_keeps ..)
    | with_reducible apply Keeps.after (State.issue_keeps (h_f := fun x0 x1 s => ?_) ..)

theorem execVsqrt_keeps {g : Nat} {w : StepWord} {s : State}  :
    KeepsO s (execVsqrt g w s) := by
  unfold execVsqrt
  repeat' first
    | with_reducible apply Keeps.refl
    | with_reducible apply KeepsO.next
    | with_reducible apply Keeps.after (State.vec1_keeps ..)
    | with_reducible apply Keeps.after (State.issue_keeps (h_f := fun x0 x1 s => ?_) ..)

theorem State.vecRowRed_keeps {s : State} {i : Nat} {w : StepWord} {red : List Val → Val}  :
    Keeps s (State.vecRowRed s i w red) := by
  unfold State.vecRowRed
  repeat' first
    | with_reducible apply Keeps.refl
    | ((try lift_lets -underBinder); intro x; clear_value x)
    | with_reducible apply Compute.Keeps.after (Compute.vecWrite_keeps ..)
    | with_reducible apply Keeps.after (State.vecStep_keeps (h_f := fun c => ?_) ..)
    | with_reducible exact Compute.Keeps.refl _

theorem State.vecColRed_keeps {s : State} {i : Nat} {w : StepWord} {red : List Val → Val}  :
    Keeps s (State.vecColRed s i w red) := by
  unfold State.vecColRed
  repeat' first
    | with_reducible apply Keeps.refl
    | ((try lift_lets -underBinder); intro x; clear_value x)
    | with_reducible apply Compute.Keeps.after (Compute.vecWrite_keeps ..)
    | with_reducible apply Keeps.after (State.vecStep_keeps (h_f := fun c => ?_) ..)
    | with_reducible exact Compute.Keeps.refl _

theorem execVrsum_keeps {g : Nat} {w : StepWord} {s : State}  :
    KeepsO s (execVrsum g w s) := by
  unfold execVrsum
  repeat' first
    | with_reducible apply Keeps.refl
    | with_reducible apply KeepsO.next
    | with_reducible apply Keeps.after (State.vecRowRed_keeps ..)
    | with_reducible apply Keeps.after (State.issue_keeps (h_f := fun x0 x1 s => ?_) ..)

theorem execVcsum_keeps {g : Nat} {w : StepWord} {s : State}  :
    KeepsO s (execVcsum g w s) := by
  unfold execVcsum
  repeat' first
    | with_reducible apply Keeps.refl
    | with_reducible apply KeepsO.next
    | with_reducible apply Keeps.after (State.vecColRed_keeps ..)
    | with_reducible apply Keeps.after (State.issue_keeps (h_f := fun x0 x1 s => ?_) ..)

theorem execVrmax_keeps {g : Nat} {w : StepWord} {s : State}  :
    KeepsO s (execVrmax g w s) := by
  unfold execVrmax
  repeat' first
    | with_reducible apply Keeps.refl
    | with_reducible apply KeepsO.next
    | with_reducible apply Keeps.after (State.vecRowRed_keeps ..)
    | with_reducible apply Keeps.after (State.issue_keeps (h_f := fun x0 x1 s => ?_) ..)

theorem execVcmax_keeps {g : Nat} {w : StepWord} {s : State}  :
    KeepsO s (execVcmax g w s) := by
  unfold execVcmax
  repeat' first
    | with_reducible apply Keeps.refl
    | with_reducible apply KeepsO.next
    | with_reducible apply Keeps.after (State.vecColRed_keeps ..)
    | with_reducible apply Keeps.after (State.issue_keeps (h_f := fun x0 x1 s => ?_) ..)

theorem State.vecRows_keeps {s : State} {i : Nat} {w : StepWord} {reads : List (Nat × Nat)} {f : Compute → List Val → List Val}  :
    Keeps s (State.vecRows s i w reads f) := by
  unfold State.vecRows
  repeat' first
    | with_reducible apply Keeps.refl
    | ((try lift_lets -underBinder); intro x; clear_value x)
    | with_reducible apply Compute.Keeps.after (Compute.vecWrite_keeps ..)
    | with_reducible apply Keeps.after (State.vecStep_keeps (h_f := fun c => ?_) ..)
    | with_reducible exact Compute.Keeps.refl _

theorem execVlnorm_keeps {g : Nat} {w : StepWord} {s : State}  :
    KeepsO s (execVlnorm g w s) := by
  unfold execVlnorm
  repeat' first
    | with_reducible apply Keeps.refl
    | ((try lift_lets -underBinder); intro x; clear_value x)
    | with_reducible apply KeepsO.next
    | with_reducible apply Keeps.after (State.vecRows_keeps ..)
    | with_reducible apply Keeps.after (State.issue_keeps (h_f := fun x0 x1 s => ?_) ..)

theorem execVrmsn_keeps {g : Nat} {w : StepWord} {s : State}  :
    KeepsO s (execVrmsn g w s) := by
  unfold execVrmsn
  repeat' first
    | with_reducible apply Keeps.refl
    | ((try lift_lets -underBinder); intro x; clear_value x)
    | with_reducible apply KeepsO.next
    | with_reducible apply Keeps.after (State.vecRows_keeps ..)
    | with_reducible apply Keeps.after (State.issue_keeps (h_f := fun x0 x1 s => ?_) ..)

theorem execVsmax_keeps {g : Nat} {w : StepWord} {s : State}  :
    KeepsO s (execVsmax g w s) := by
  unfold execVsmax
  repeat' first
    | with_reducible apply Keeps.refl
    | with_reducible apply KeepsO.next
    | with_reducible apply Keeps.after (State.vecRows_keeps ..)
    | with_reducible apply Keeps.after (State.issue_keeps (h_f := fun x0 x1 s => ?_) ..)

theorem State.vecBcast_keeps {s : State} {i : Nat} {w : StepWord}  :
    Keeps s (State.vecBcast s i w) := by
  unfold State.vecBcast
  repeat' first
    | with_reducible apply Keeps.refl
    | ((try lift_lets -underBinder); intro x; clear_value x)
    | split
    | with_reducible apply Compute.Keeps.after (Compute.vecWrite_keeps ..)
    | with_reducible apply Keeps.after (State.vecStep_keeps (h_f := fun c => ?_) ..)
    | with_reducible exact Compute.Keeps.refl _

theorem execVbcast_keeps {g : Nat} {w : StepWord} {s : State}  :
    KeepsO s (execVbcast g w s) := by
  unfold execVbcast
  repeat' first
    | with_reducible apply Keeps.refl
    | with_reducible apply KeepsO.next
    | with_reducible apply Keeps.after (State.vecBcast_keeps ..)
    | with_reducible apply Keeps.after (State.issue_keeps (h_f := fun x0 x1 s => ?_) ..)

theorem Compute.putCols_keeps {c : Compute} {td fb r at_ : Nat} {l : List Nat}  :
    Compute.Keeps c (Compute.putCols c td fb r at_ l) := by
  unfold Compute.putCols
  repeat' first
    | with_reducible exact Compute.Keeps.refl _
    | split
    | dsimp only
    | with_reducible apply Compute.Keeps.after (Compute.setRow_keeps ..)

theorem State.vecConvert_keeps {s : State} {i : Nat} {w : StepWord}  :
    Keeps s (State.vecConvert s i w) := by
  unfold State.vecConvert
  repeat' first
    | with_reducible apply Keeps.refl
    | ((try lift_lets -underBinder); intro x; clear_value x)
    | split
    | with_reducible apply Compute.Keeps.after (Compute.putCols_keeps ..)
    | with_reducible apply Keeps.after (State.vecStep_keeps (h_f := fun c => ?_) ..)
    | with_reducible exact Compute.Keeps.refl _
    | with_reducible refine Compute.Keeps.foldlFrom ?_ (fun t a => ?_)

theorem execVcvt_keeps {g : Nat} {w : StepWord} {s : State}  :
    KeepsO s (execVcvt g w s) := by
  unfold execVcvt
  repeat' first
    | with_reducible apply Keeps.refl
    | with_reducible apply KeepsO.next
    | with_reducible apply Keeps.after (State.vecConvert_keeps ..)
    | with_reducible apply Keeps.after (State.issue_keeps (h_f := fun x0 x1 s => ?_) ..)

theorem State.groupMode_keeps {s : State} {w : StepWord}  :
    Keeps s (State.groupMode s w).2 := by
  unfold State.groupMode
  repeat' first
    | with_reducible apply Keeps.refl
    | with_reducible apply Keeps.ite2
    | split
    | with_reducible apply Keeps.after (State.draw_keeps ..)
    | (with_reducible apply Keeps.of_pair; with_reducible assumption)

theorem Compute.quantRow_keeps {y c : Compute} {mode fa fb g td ta tb lo n at_ r : Nat}  :
    Compute.Keeps y (Compute.quantRow y c mode fa fb g td ta tb lo n at_ r) := by
  unfold Compute.quantRow
  repeat' first
    | with_reducible exact Compute.Keeps.refl _
    | with_reducible refine Compute.Keeps.foldlFrom ?_ (fun t a => ?_)
    | with_reducible exact Compute.Keeps.tiles Store.wf_write
    | with_reducible apply Compute.Keeps.after (Compute.putCols_keeps ..)

theorem State.vecQuant_keeps {s : State} {i : Nat} {w : StepWord}  :
    Keeps s (State.vecQuant s i w) := by
  unfold State.vecQuant
  repeat' first
    | with_reducible apply Keeps.refl
    | ((try lift_lets -underBinder); intro x; clear_value x)
    | with_reducible apply Keeps.ite
    | split
    | with_reducible apply Compute.Keeps.after (Compute.quantRow_keeps ..)
    | with_reducible apply Keeps.after (State.groupMode_keeps ..)
    | with_reducible apply Keeps.after (State.vecConvert_keeps ..)
    | with_reducible apply Keeps.after (State.vecStep_keeps (h_f := fun c => ?_) ..)
    | (with_reducible apply Keeps.of_pair; with_reducible assumption)
    | with_reducible exact Compute.Keeps.refl _
    | with_reducible refine Compute.Keeps.foldlFrom ?_ (fun t a => ?_)

theorem execVqgrp_keeps {g : Nat} {w : StepWord} {s : State}  :
    KeepsO s (execVqgrp g w s) := by
  unfold execVqgrp
  repeat' first
    | with_reducible apply Keeps.refl
    | with_reducible apply KeepsO.next
    | with_reducible apply Keeps.after (State.vecQuant_keeps ..)
    | with_reducible apply Keeps.after (State.issue_keeps (h_f := fun x0 x1 s => ?_) ..)

theorem State.vecDequant_keeps {s : State} {i : Nat} {w : StepWord}  :
    Keeps s (State.vecDequant s i w) := by
  unfold State.vecDequant
  repeat' first
    | with_reducible apply Keeps.refl
    | ((try lift_lets -underBinder); intro x; clear_value x)
    | split
    | with_reducible apply Keeps.after (State.groupMode_keeps ..)
    | with_reducible apply Compute.Keeps.after (Compute.putCols_keeps ..)
    | with_reducible apply Keeps.after (State.vecStep_keeps (h_f := fun c => ?_) ..)
    | (with_reducible apply Keeps.of_pair; with_reducible assumption)
    | with_reducible exact Compute.Keeps.refl _
    | with_reducible refine Compute.Keeps.foldlFrom ?_ (fun t a => ?_)

theorem execVdqgrp_keeps {g : Nat} {w : StepWord} {s : State}  :
    KeepsO s (execVdqgrp g w s) := by
  unfold execVdqgrp
  repeat' first
    | with_reducible apply Keeps.refl
    | with_reducible apply KeepsO.next
    | with_reducible apply Keeps.after (State.vecDequant_keeps ..)
    | with_reducible apply Keeps.after (State.issue_keeps (h_f := fun x0 x1 s => ?_) ..)

end Sys2Proof.Machine
end

