-- ==== Sys2Proof/Laws/Steps.lean ====
section
/-! SUPPORT. The shared operations of a step on a state whose cell is known: each replaces that cell and nothing else. -/
set_option Elab.async false
namespace Sys2Proof.Machine

section
variable (s : State) (i : Nat) (c : Cell) (h : i < s.cells.length)
include h

theorem State.modCtx_putCell (f : Ctx → Ctx) : (s.putCell i c).modCtx i f = s.putCell i (c.setCur (f c.cur)) := by
  simp [State.modCtx, State.modCell_eq_putCell, State.cell_putCell_self _ _ h]

theorem State.setSd_putCell (w : StepWord) (v : Nat) :
    (s.putCell i c).setSd i w v = s.putCell i (c.withScalar (sdOf w) (BitVec.ofNat 64 v)) := by
  simp [State.setSd, State.modCtx_putCell _ _ _ h, Cell.withScalar]

theorem State.modComp_putCell (f : Compute → Compute) :
    (s.putCell i c).modComp i f = s.putCell i { c with comp := f c.comp } := by
  simp [State.modComp, State.modCell_eq_putCell, State.cell_putCell_self _ _ h]

/-- Popped tokens that land no tile register change their queue alone. -/
theorem State.popTokens_putCell (q : Nat) (ts : List Token) (ht : ts.filterMap (·.tile) = []) :
    (s.putCell i c).popTokens i q ts = s.putCell i (c.setCur (c.cur.modQueue q fun u =>
      { u with toks := u.toks.drop ts.length, popped := u.popped ++ ts.map (·.credit) })) := by
  simp [State.popTokens, ht, State.modCtx_putCell _ _ _ h]

theorem State.hold_putCell (w : StepWord) (d : Option Nat) :
    (s.putCell i c).hold i w d = s.putCell i { c with st := 2, held := some ⟨w, s.now (.cell i), d⟩ } := by
  simp [State.hold, State.modCell_eq_putCell, State.cell_putCell_self _ _ h]; rfl

theorem State.openAsync_putCell (o : AsyncOp) :
    (s.putCell i c).openAsync i o = s.putCell i { c with open_ := c.open_ ++ [o] } := by
  simp [State.openAsync, State.modCell_eq_putCell, State.cell_putCell_self _ _ h]

/-- Resuming keeps all of the cell but the state, the held step and the wait counter. -/
theorem State.resume_putCell : ∃ d : Cell, (s.putCell i c).resume i = s.putCell i d ∧ d.held = none ∧
    d.st = (if c.st = 2 then 1 else c.st) ∧ d = { c with st := d.st, held := none, cnt := d.cnt } := by
  refine ⟨_, by simp only [State.resume, State.modCell_eq_putCell, State.cell_putCell_self _ _ h, State.putCell_putCell]; rfl,
    rfl, rfl, ?_⟩
  cases hh : c.held with
  | none => simp [Cell.waited, hh]
  | some k => by_cases hk : kindOf k.w = 3 ∨ kindOf k.w = 4 <;> by_cases hf : c.freeze = true <;>
      simp [Cell.waited, Cell.count, hh, hk, hf]
end

/-- Popped tokens of which none carries a status leave the state as it is (R66). -/
theorem State.remoteStatus_none (s : State) (i : Nat) (ts : List Token) (h : ∀ u ∈ ts, u.status = 0) :
    s.remoteStatus i ts = s := by
  unfold State.remoteStatus
  rw [List.find?_eq_none.mpr]
  simpa using h

@[simp] theorem Ctx.queue_step (x : Ctx) (n q : Nat) : Ctx.queue { x with step := n } q = x.queue q := rfl
@[simp] theorem Ctx.scalar_step (x : Ctx) (n k : Nat) : Ctx.scalar { x with step := n } k = x.scalar k := rfl
@[simp] theorem Ctx.sa_step (x : Ctx) (n : Nat) (w : StepWord) : Ctx.sa { x with step := n } w = x.sa w := rfl
@[simp] theorem Ctx.sb_step (x : Ctx) (n : Nat) (w : StepWord) : Ctx.sb { x with step := n } w = x.sb w := rfl
@[simp] theorem Ctx.sc_step (x : Ctx) (n : Nat) (w : StepWord) : Ctx.sc { x with step := n } w = x.sc w := rfl
@[simp] theorem Ctx.addrAt_step (x : Ctx) (n : Nat) (w : StepWord) (o : Nat) :
    Ctx.addrAt { x with step := n } w o = x.addrAt w o := rfl
@[simp] theorem tdOf_step (x : Ctx) (n : Nat) (w : StepWord) : tdOf { x with step := n } w = tdOf x w := rfl
@[simp] theorem taOf_step (x : Ctx) (n : Nat) (w : StepWord) : taOf { x with step := n } w = taOf x w := rfl
@[simp] theorem tbOf_step (x : Ctx) (n : Nat) (w : StepWord) : tbOf { x with step := n } w = tbOf x w := rfl
@[simp] theorem tcOf_step (x : Ctx) (n : Nat) (w : StepWord) : tcOf { x with step := n } w = tcOf x w := rfl

end Sys2Proof.Machine
end

