-- ==== Sys2Proof/Laws/Tiles.lean ====
section
/-! SUPPORT. Rows of tile registers: a row written reads back whole with its mark, and every other row stays (R42, R44). -/
set_option Elab.async false
namespace Sys2Proof.Machine

theorem rowAddr_div (t r : Nat) : rowAddr t r / 256 = rowUnit t r := by unfold rowAddr rowUnit; omega

theorem rowUnit_inj {t r t' r' : Nat} (h : r < 64) (h' : r' < 64) (e : rowUnit t r = rowUnit t' r') : t = t' ∧ r = r' := by
  unfold rowUnit at e; omega

theorem Compute.row_eq (c : Compute) (t r : Nat) :
    c.row t r = (List.range 256).map fun i => c.tiles.get (rowAddr t r + i) := by
  simp [Compute.row, Store.read_eq, Data.bytes]

theorem Compute.row_length (c : Compute) (t r : Nat) : (c.row t r).length = 256 := by simp [Compute.row_eq]

theorem Data.mark_bytes (m : Bool) (b : Bytes) : (Data.mark m b).bytes = b := by
  simp [Data.mark, Data.bytes, Function.comp_def]

theorem Data.mark_length (m : Bool) (b : Bytes) : (Data.mark m b).length = b.length := by simp [Data.mark]

/-- A row after a row of 256 bytes has been written. -/
theorem Compute.row_setRow (c : Compute) {t r t' r' : Nat} (m : Bool) (b : Bytes) (hb : b.length = 256) (hr : r < 64)
    (hr' : r' < 64) : (c.setRow t r m b).row t' r' = if t' = t ∧ r' = r then b else c.row t' r' := by
  rw [Compute.row_eq, Compute.row_eq]
  simp only [Compute.setRow]
  have hl : (Data.mark m b).length = 256 := by rw [Data.mark_length, hb]
  split
  · rename_i h
    obtain ⟨rfl, rfl⟩ := h
    apply List.ext_getElem
    · simp [hb]
    · intro i h1 h2
      simp only [List.length_map, List.length_range] at h1
      simp only [List.getElem_map, List.getElem_range, Store.get_write, hl, Data.mark_bytes]
      rw [if_pos ⟨by omega, by omega⟩]
      have : rowAddr t' r' + i - rowAddr t' r' = i := by omega
      rw [this, List.getD_eq_getElem?_getD, List.getElem?_eq_getElem (by omega)]
      rfl
  · rename_i h
    apply List.map_congr_left
    intro i hi
    simp only [List.mem_range] at hi
    rw [Store.get_write, hl, if_neg]
    intro ⟨h1, h2⟩
    apply h
    unfold rowAddr at h1 h2
    omega

/-- The mark of a row after a row of 256 bytes has been written. -/
theorem Compute.rowMarked_setRow (c : Compute) {t r t' r' : Nat} (m : Bool) (b : Bytes) (hb : b.length = 256) (hr : r < 64)
    (hr' : r' < 64) : (c.setRow t r m b).rowMarked t' r' = if t' = t ∧ r' = r then m else c.rowMarked t' r' := by
  have hl : (Data.mark m b).length = 256 := by rw [Data.mark_length, hb]
  have hne : Data.mark m b ≠ [] := by intro e; rw [e] at hl; simp at hl
  simp only [Compute.rowMarked, Compute.setRow]
  rw [Store.isMarked_write _ _ _ _ _ hne, hl]
  have h1 : (rowAddr t r + 256 - 1) / 256 = rowUnit t r := by unfold rowAddr rowUnit; omega
  rw [rowAddr_div, h1]
  by_cases h : t' = t ∧ r' = r
  · obtain ⟨rfl, rfl⟩ := h
    simp only [le_refl, and_self, if_true]
    simp only [Store.markAfter, hl]
    have e1 : max (rowAddr t' r') (rowUnit t' r' * 256) = rowAddr t' r' := by unfold rowAddr rowUnit; omega
    have e2 : min (rowAddr t' r' + 256) ((rowUnit t' r' + 1) * 256) = rowAddr t' r' + 256 := by unfold rowAddr rowUnit; omega
    rw [e1, e2]
    simp only [Nat.sub_self, List.drop_zero, Nat.add_sub_cancel_left]
    rw [List.take_of_length_le (by omega)]
    cases m with
    | true =>
      have : Data.marked (Data.mark true b) = true := by
        simp only [Data.marked, Data.mark, List.any_map, List.any_eq_true]
        exact ⟨b[0], by simp, rfl⟩
      rw [this]; rfl
    | false =>
      have : Data.marked (Data.mark false b) = false := by simp [Data.marked, Data.mark]
      rw [this]; rfl
  · rw [if_neg h, if_neg]
    intro ⟨h2, h3⟩
    exact h (by have := rowUnit_inj hr hr' (by omega : rowUnit t r = rowUnit t' r'); exact ⟨this.1.symm, this.2.symm⟩)

@[simp] theorem Compute.setRow_stat (c : Compute) (t r : Nat) (m : Bool) (b : Bytes) : (c.setRow t r m b).stat = c.stat := rfl
@[simp] theorem Compute.setRow_scales (c : Compute) (t r : Nat) (m : Bool) (b : Bytes) : (c.setRow t r m b).scales = c.scales := rfl
@[simp] theorem Compute.setRow_topk (c : Compute) (t r : Nat) (m : Bool) (b : Bytes) : (c.setRow t r m b).topk = c.topk := rfl

/-- Rows written one after another from a list of row numbers without repeats. -/
theorem Compute.rowOf_foldl (l : List Nat) (c : Compute) (t : Nat) (f : Nat → Bytes × Bool) (hl : ∀ r ∈ l, r < 64)
    (hf : ∀ r, (f r).1.length = 256) (t' r' : Nat) (hr' : r' < 64) :
    (l.foldl (fun c r => c.setRow t r (f r).2 (f r).1) c).rowOf t' r' = if t' = t ∧ r' ∈ l then f r' else c.rowOf t' r' := by
  induction l generalizing c with
  | nil => simp
  | cons r l ih =>
    rw [List.foldl_cons, ih _ (fun x hx => hl x (List.mem_cons_of_mem _ hx))]
    have hr : r < 64 := hl r (by simp)
    simp only [Compute.rowOf, Compute.row_setRow _ _ _ (hf r) hr hr', Compute.rowMarked_setRow _ _ _ (hf r) hr hr', List.mem_cons]
    by_cases h1 : t' = t <;> by_cases h2 : r' = r <;> by_cases h3 : r' ∈ l <;> simp [h1, h2, h3]

theorem Compute.foldl_stat (l : List Nat) (c : Compute) (t : Nat) (f : Nat → Bytes × Bool) :
    (l.foldl (fun c r => c.setRow t r (f r).2 (f r).1) c).stat = c.stat ∧
    (l.foldl (fun c r => c.setRow t r (f r).2 (f r).1) c).scales = c.scales ∧
    (l.foldl (fun c r => c.setRow t r (f r).2 (f r).1) c).topk = c.topk := by
  induction l generalizing c with
  | nil => simp
  | cons r l ih => rw [List.foldl_cons]; exact ih _

/-- Every row of a register after all of its rows have been written. -/
theorem Compute.rowOf_setRows (c : Compute) (t : Nat) (f : Nat → Bytes × Bool) (hf : ∀ r, (f r).1.length = 256) (t' r' : Nat)
    (hr' : r' < 64) : (c.setRows t f).rowOf t' r' = if t' = t then f r' else c.rowOf t' r' := by
  unfold Compute.setRows
  rw [Compute.rowOf_foldl _ _ _ _ (by simp) hf _ _ hr']
  simp [hr']

theorem Compute.setRows_rest (c : Compute) (t : Nat) (f : Nat → Bytes × Bool) :
    (c.setRows t f).stat = c.stat ∧ (c.setRows t f).scales = c.scales ∧ (c.setRows t f).topk = c.topk :=
  Compute.foldl_stat _ _ _ _

/-! ## Elements of a row (R42) -/

theorem leNat_leBytes (n v : Nat) : leNat (leBytes n v) = v % 256 ^ n := by
  induction n generalizing v with
  | zero => simp [leNat, leBytes, Nat.mod_one]
  | succ n ih =>
    show (BitVec.ofNat 8 v).toNat + 256 * leNat (leBytes n (v / 256)) = _
    have e : 256 ^ (n + 1) = 256 * 256 ^ n := by rw [Nat.pow_succ, Nat.mul_comm]
    rw [ih, e, Nat.mod_mul, BitVec.toNat_ofNat]

theorem leBytes_length (n v : Nat) : (leBytes n v).length = n := by
  induction n generalizing v with
  | zero => rfl
  | succ n ih => simp [leBytes, ih]

/-- The packed number of a list of elements of w bits. -/
def packNat (w : Nat) (l : List Nat) : Nat := l.foldr (fun c acc => c % 2 ^ w + 2 ^ w * acc) 0

theorem packNat_digit (w : Nat) (l : List Nat) (i : Nat) :
    packNat w l / 2 ^ (w * i) % 2 ^ w = l.getD i 0 % 2 ^ w := by
  induction l generalizing i with
  | nil => simp [packNat]
  | cons a l ih =>
    have hp : 0 < 2 ^ w := Nat.two_pow_pos w
    cases i with
    | zero => simp [packNat]
    | succ i =>
      have : packNat w (a :: l) / 2 ^ w = packNat w l := by
        show (a % 2 ^ w + 2 ^ w * packNat w l) / 2 ^ w = _
        rw [Nat.add_mul_div_left _ _ hp, Nat.div_eq_of_lt (Nat.mod_lt _ hp), Nat.zero_add]
      rw [Nat.mul_succ, Nat.add_comm, Nat.pow_add, ← Nat.div_div_eq_div_mul, this, ih]
      simp

theorem packNat_lt (w : Nat) (l : List Nat) : packNat w l < 2 ^ (w * l.length) := by
  induction l with
  | nil => simp [packNat]
  | cons a l ih =>
    have h1 : a % 2 ^ w < 2 ^ w := Nat.mod_lt _ (Nat.two_pow_pos w)
    show a % 2 ^ w + 2 ^ w * packNat w l < _
    rw [List.length_cons, Nat.mul_succ, Nat.add_comm (w * _), Nat.pow_add]
    calc _ < 2 ^ w + 2 ^ w * packNat w l := by omega
      _ = 2 ^ w * (packNat w l + 1) := by ring
      _ ≤ _ := Nat.mul_le_mul_left _ ih

/-- What a packed row holds, element by element. -/
theorem rowElems_packRow (f n : Nat) (l : List Nat) (hl : fmtWidth f * l.length ≤ 2048) :
    rowElems f n (packRow f l) = (List.range n).map fun i => l.getD i 0 % 2 ^ fmtWidth f := by
  have hv : leNat (packRow f l) = packNat (fmtWidth f) l := by
    unfold packRow
    rw [leNat_leBytes]
    apply Nat.mod_eq_of_lt
    calc _ < 2 ^ (fmtWidth f * l.length) := packNat_lt _ _
      _ ≤ 2 ^ 2048 := Nat.pow_le_pow_right (by norm_num) hl
      _ = 256 ^ 256 := by rw [show (256 : Nat) ^ 256 = (2 ^ 8) ^ 256 from rfl, ← Nat.pow_mul]
  unfold rowElems
  simp only [hv, packNat_digit]

theorem packRow_length (f : Nat) (l : List Nat) : (packRow f l).length = 256 := leBytes_length _ _

end Sys2Proof.Machine
end

