-- ==== Sys2Proof/WellFormed.lean ====
section
/-! DEFINITION. Well-formed commands: every operand within the range the spec gives it on the largest part, a step command with the
KIND of its row (R67). A command that names a unit the part lacks is well-formed; its meaning does nothing (R7). -/
namespace Sys2Proof

/-- A step command: a logical cell of the CN9640 and a word of the row's KIND (R2, R67). -/
def stepOk (kind g : Nat) (w : StepWord) : Bool := decide (g < 288) && w.toNat % 256 == kind

/-- A unit code of R400. -/
def UnitId.wf (u : UnitId) : Bool := decide (u.kind < 16) && decide (u.index < 65536) && decide (u.sub < 256)

/-- An island of the CN9640 (R25). -/
def Island.wf : Island → Bool
  | .cell p => decide (p < 320) | .rowEngine s => decide (s < 16) | .dieFabric d => decide (d < 8) | .copyEngine e => decide (e < 16)
  | .control => true | .host => true | .cartridge => true | .network => true | .horvi => true | .steward => true

/-- A target of the drain switch (R33). -/
def Target.wf : Target → Bool
  | .cell g => decide (g < 288) | .partition n => decide (n < 16) | .whole => true

/-- An agent of R240. -/
def Agent.wf : Agent → Bool
  | .cell g => decide (g < 288) | .frontEnd d => decide (d < 8) | .rowEngine s => decide (s < 16) | .copyEngine e => decide (e < 16)
  | .network => true | .horvi => true | .control => true

/-- A report's fields have the widths of R399. -/
def Report.wf (r : Report) : Bool :=
  decide (1 ≤ r.cls) && decide (r.cls < 0x22) && r.unit.wf && decide (r.subcode < 256) && (r.part.all fun p => decide (p < 16))
    && decide (r.handle < 2 ^ 32) && decide (r.step < 4096) && decide (r.kind < 256)

/-- The identity is the 256-byte block of R428. -/
def CartInfo.wf (c : CartInfo) : Bool := c.identity.length == 256

/-- The operands of a command lie in their ranges. -/
def Instr.wf : Instr → Bool
  | .registerWrite fn off size _ => decide (fn < 17) && decide (off < 2 ^ 26) && [1, 2, 4, 8].contains size
  | .glbMtimeLowRead fn => decide (fn < 17)
  | .glbMtimeHighRead fn => decide (fn < 17)
  | .shadowSetCopy island => island.wf
  | .linkRetry edge ucie => decide (edge < 161) && decide (ucie < 8)
  | .laneRepair edge ucie _ => decide (edge < 161) && decide (ucie < 8)
  | .islandClockSet island _ _ => island.wf
  | .drainCommand target => target.wf
  | .nop g w => stepOk 0x00 g w
  | .loop g w => stepOk 0x01 g w
  | .endloop g w => stepOk 0x02 g w
  | .wait g w => stepOk 0x03 g w
  | .waitany g w => stepOk 0x04 g w
  | .postc g w => stepOk 0x05 g w
  | .postt g w => stepOk 0x06 g w
  | .ebind g w => stepOk 0x07 g w
  | .layer g w => stepOk 0x08 g w
  | .sel g w => stepOk 0x09 g w
  | .tsel g w => stepOk 0x0A g w
  | .rel g w => stepOk 0x0B g w
  | .acq g w => stepOk 0x0C g w
  | .fence g w => stepOk 0x0D g w
  | .mark g w => stepOk 0x0E g w
  | .endStep g w => stepOk 0x0F g w
  | .smov g w => stepOk 0x10 g w
  | .sadd g w => stepOk 0x11 g w
  | .ssub g w => stepOk 0x12 g w
  | .smul g w => stepOk 0x13 g w
  | .sand g w => stepOk 0x14 g w
  | .sor g w => stepOk 0x15 g w
  | .sxor g w => stepOk 0x16 g w
  | .sshl g w => stepOk 0x17 g w
  | .sshr g w => stepOk 0x18 g w
  | .scmp g w => stepOk 0x19 g w
  | .sfop g w => stepOk 0x1A g w
  | .sld g w => stepOk 0x1B g w
  | .sst g w => stepOk 0x1C g w
  | .tld g w => stepOk 0x20 g w
  | .tst g w => stepOk 0x21 g w
  | .tlds g w => stepOk 0x22 g w
  | .tsts g w => stepOk 0x23 g w
  | .tmov g w => stepOk 0x24 g w
  | .tzero g w => stepOk 0x25 g w
  | .tfill g w => stepOk 0x26 g w
  | .ttrn g w => stepOk 0x27 g w
  | .trow g w => stepOk 0x28 g w
  | .tmask g w => stepOk 0x29 g w
  | .mload g w => stepOk 0x30 g w
  | .mma g w _ => stepOk 0x31 g w
  | .mmat g w _ => stepOk 0x32 g w
  | .mdl2 g w _ => stepOk 0x33 g w
  | .mdnip g w _ => stepOk 0x34 g w
  | .mdl1 g w _ => stepOk 0x35 g w
  | .mdham g w _ => stepOk 0x36 g w
  | .mdmax g w _ => stepOk 0x37 g w
  | .mdmin g w _ => stepOk 0x38 g w
  | .mwait g w => stepOk 0x39 g w
  | .tkinit g w => stepOk 0x40 g w
  | .tkmerge g w => stepOk 0x41 g w
  | .tkread g w => stepOk 0x42 g w
  | .tkthr g w => stepOk 0x43 g w
  | .vadd g w => stepOk 0x50 g w
  | .vsub g w => stepOk 0x51 g w
  | .vmul g w => stepOk 0x52 g w
  | .vmax g w => stepOk 0x53 g w
  | .vmin g w => stepOk 0x54 g w
  | .vfma g w => stepOk 0x55 g w
  | .vand g w => stepOk 0x56 g w
  | .vor g w => stepOk 0x57 g w
  | .vxor g w => stepOk 0x58 g w
  | .vcmp g w => stepOk 0x59 g w
  | .vselm g w => stepOk 0x5A g w
  | .vabs g w => stepOk 0x60 g w
  | .vneg g w => stepOk 0x61 g w
  | .vrelu g w => stepOk 0x62 g w
  | .vgelu g w => stepOk 0x63 g w
  | .vsilu g w => stepOk 0x64 g w
  | .vsigm g w => stepOk 0x65 g w
  | .vtanh g w => stepOk 0x66 g w
  | .vexp g w => stepOk 0x67 g w
  | .vlog g w => stepOk 0x68 g w
  | .vrsqrt g w => stepOk 0x69 g w
  | .vrcp g w => stepOk 0x6A g w
  | .vsqrt g w => stepOk 0x6B g w
  | .vrsum g w => stepOk 0x70 g w
  | .vcsum g w => stepOk 0x71 g w
  | .vrmax g w => stepOk 0x72 g w
  | .vcmax g w => stepOk 0x73 g w
  | .vlnorm g w => stepOk 0x74 g w
  | .vrmsn g w => stepOk 0x75 g w
  | .vsmax g w => stepOk 0x76 g w
  | .vbcast g w => stepOk 0x77 g w
  | .vcvt g w => stepOk 0x78 g w
  | .vqgrp g w => stepOk 0x79 g w
  | .vdqgrp g w => stepOk 0x7A g w
  | .gath g w => stepOk 0x80 g w
  | .radd g w => stepOk 0x81 g w
  | .rwr g w => stepOk 0x82 g w
  | .sstart g w => stepOk 0x83 g w
  | .sstop g w => stepOk 0x84 g w
  | .chfwd g w => stepOk 0x85 g w
  | .rstore g w => stepOk 0x86 g w
  | .hld g w => stepOk 0x90 g w
  | .hst g w => stepOk 0x91 g w
  | .tokenArrival g _ => decide (g < 288)
  | .creditReturn g _ => decide (g < 288)
  | .timeoutEdge g => decide (g < 288)
  | .jobEnded g => decide (g < 288)
  | .cellCntFreeze pos _ => decide (pos < 320)
  | .cellCntClear pos => decide (pos < 320)
  | .cellFaultValidClear pos => decide (pos < 320)
  | .frontEndRequest d => decide (d < 8)
  | .requestPart s => decide (s < 16)
  | .rowFetchDone s _ _ => decide (s < 16)
  | .partDone _ s => decide (s < 16)
  | .reCntFreeze s _ => decide (s < 16)
  | .reCntClear s => decide (s < 16)
  | .reTagsRead s => decide (s < 16)
  | .reFaultValidClear s => decide (s < 16)
  | .stage p table => decide (p < 16) && decide (table < 4096)
  | .publish p table => decide (p < 16) && decide (table < 4096)
  | .waitSlotPublish p => decide (p < 16)
  | .publishDone p => decide (p < 16)
  | .abort p table => decide (p < 16) && decide (table < 4096)
  | .query p table => decide (p < 16) && decide (table < 4096)
  | .bind p table => decide (p < 16) && decide (table < 4096)
  | .release p => decide (p < 16)
  | .publishSet p => decide (p < 16)
  | .tblCmdNop p op => decide (p < 16) && decide (op < 16)
  | .rowCacheSweepDone table _ => decide (table < 4096)
  | .sketchHalving s => decide (s < 16)
  | .countMessageSend s home => decide (s < 16) && decide (home < 16)
  | .countMessage s => decide (s < 16)
  | .replicaSetCreated s => decide (s < 16)
  | .replicaWrite s => decide (s < 16)
  | .replicaWriteAck s => decide (s < 16)
  | .replicaLagExpiry s => decide (s < 16)
  | .cacheSketchHalving d => decide (d < 8)
  | .coldPageArrival s _ data _ => decide (s < 16) && data.length == 4096
  | .coldDeadline s => decide (s < 16)
  | .coldWriteBackDone s _ => decide (s < 16)
  | .entryFetched g slot => decide (g < 288) && decide (slot < 16)
  | .blockLanded g slot _ => decide (g < 288) && decide (slot < 16)
  | .mcastCredit g slot recv => decide (g < 288) && decide (slot < 16) && decide (recv < 64)
  | .lagTimeExpiry g slot recv => decide (g < 288) && decide (slot < 16) && decide (recv < 64)
  | .skipMarker g slot => decide (g < 288) && decide (slot < 16)
  | .chunkArrival g slot => decide (g < 288) && decide (slot < 16)
  | .ringCredit g slot succ => decide (g < 288) && decide (slot < 16) && decide (succ < 64)
  | .stackRead s part _ _ => decide (s < 16) && (part.all fun p => decide (p < 16))
  | .stackWrite s part _ _ _ => decide (s < 16) && (part.all fun p => decide (p < 16))
  | .drainMarker s => decide (s < 16)
  | .patrolScrub s _ _ => decide (s < 16)
  | .softRepair s _ _ => decide (s < 16)
  | .stackFailed s => decide (s < 16 + 16 * 64)
  | .memWcbRead s => decide (s < 16)
  | .build p c count => decide (p < 16) && decide (c < 16) && decide (count < 2 ^ 32)
  | .histogramDone p c => decide (p < 16) && decide (c < 16)
  | .load p c gen count => decide (p < 16) && decide (c < 16) && decide (gen < 8) && decide (count < 2 ^ 32)
  | .cmpRelease p c gen count => decide (p < 16) && decide (c < 16) && decide (gen < 8) && decide (count < 2 ^ 32)
  | .cmpCmdNop p c op => decide (p < 16) && decide (c < 16) && decide (op < 16)
  | .queuedCountChange p c => decide (p < 16) && decide (c < 16)
  | .generationFree p c gen => decide (p < 16) && decide (c < 16) && decide (gen < 8)
  | .installWaitResume p c => decide (p < 16) && decide (c < 16)
  | .installDone p c => decide (p < 16) && decide (c < 16)
  | .rangeAdd p idx => decide (p < 16) && decide (idx < 4096)
  | .rangeRemove p idx => decide (p < 16) && decide (idx < 4096)
  | .rangeReplace p idx => decide (p < 16) && decide (idx < 4096)
  | .rangeRead p idx => decide (p < 16) && decide (idx < 4096)
  | .xltCmdNop p op => decide (p < 16) && decide (op < 16)
  | .rangeInvalidation p agent => decide (p < 16) && agent.wf
  | .invalidationAck p => decide (p < 16)
  | .rangeFetch agent p idx => agent.wf && decide (p < 16) && decide (idx < 4096)
  | .hostLineFill p _ => decide (p < 16)
  | .accessHalving => true
  | .xltHotPop => true
  | .imgStage => true
  | .stageDone _ => true
  | .imgCommit => true
  | .epochBoundary => true
  | .commitLimit => true
  | .applyDone => true
  | .imgDiscard => true
  | .imgCmdNop op => decide (op < 16)
  | .admission p => decide (p < 16)
  | .jobStart g => decide (g < 288)
  | .batchComplete handle => decide (handle < 2 ^ 32)
  | .completionRecord p => decide (p < 16)
  | .preemptionRequest g => decide (g < 288)
  | .preempt g => decide (g < 288)
  | .sliceLimit g => decide (g < 288)
  | .beResume g => decide (g < 288)
  | .jigMove g => decide (g < 288)
  | .moveDone g => decide (g < 288)
  | .submissionRingCtlWrite p _ _ => decide (p < 16)
  | .cqCtlWrite p _ => decide (p < 16)
  | .partLcWaitMaxRead p => decide (p < 16)
  | .partFlush fn p => decide (fn < 17) && decide (p < 16)
  | .bar2Read fn _ _ => decide (fn < 17)
  | .bar2Write fn _ _ => decide (fn < 17)
  | .mbxSlotWrite fn off _ => decide (fn < 17) && decide (off < 2 ^ 16)
  | .mbxDoorbell fn off _ => decide (fn < 17) && decide (off < 2 ^ 16)
  | .mbxSubmit slot => decide (slot < 64)
  | .mbxEcho slot => decide (slot < 64)
  | .mbxBadOp slot => decide (slot < 64)
  | .mailboxReply slot => decide (slot < 64)
  | .hostTransferDone g status => decide (g < 288) && decide (status < 256)
  | .completionTimeout g => decide (g < 288)
  | .copy e => decide (e < 16)
  | .ceNop e => decide (e < 16)
  | .ceComplete e status _ => decide (e < 16) && decide (status < 256)
  | .ceRingCtlWrite e _ => decide (e < 16)
  | .ceResume e => decide (e < 16)
  | .ceAbort e => decide (e < 16)
  | .snoop _ _ => true
  | .linkRecovery => true
  | .linkDown => true
  | .linkUp rate width _ => decide (rate < 6) && [1, 4, 8, 16].contains width
  | .hotReset => true
  | .perstNAssert => true
  | .flrPf => true
  | .flrVf n => decide (n < 16)
  | .netWrite port _ => decide (port < 8)
  | .readReq port _ => decide (port < 8)
  | .readResp port _ => decide (port < 8)
  | .netUpdate port _ => decide (port < 8)
  | .netGather port _ => decide (port < 8)
  | .netSubmit port _ => decide (port < 8)
  | .netDone port _ => decide (port < 8)
  | .reduceUp port _ => decide (port < 8)
  | .reduceDown port _ => decide (port < 8)
  | .redo port _ => decide (port < 8)
  | .netAck port _ => decide (port < 8)
  | .netNak port _ => decide (port < 8)
  | .netBadFrame port _ => decide (port < 8)
  | .arpRequest port _ _ => decide (port < 8)
  | .neighbourSolicitation port _ _ => decide (port < 8)
  | .pauseFrame port => decide (port < 8)
  | .pfcFrame port prio _ => decide (port < 8) && decide (prio < 8)
  | .otherFrame port => decide (port < 8)
  | .ptpSync _ _ => true
  | .ptpSyncLoss => true
  | .rtoExpiry k => decide (k < 1024)
  | .pureAck k => decide (k < 1024)
  | .roundTimeout j bucket => decide (j < 64) && decide (bucket < 4096)
  | .portUp n => decide (n < 8)
  | .portDown n => decide (n < 8)
  | .portLaneSpare n lane => decide (n < 8) && decide (lane < 9)
  | .sendRingTail i => decide (i < 128)
  | .sendWrite i => decide (i < 128)
  | .sendRead i => decide (i < 128)
  | .sendUpdate i => decide (i < 128)
  | .sendGather i => decide (i < 128)
  | .sendSubmit i => decide (i < 128)
  | .reduce i => decide (i < 128)
  | .sendNop i => decide (i < 128)
  | .peerReset k => decide (k < 1024)
  | .netSakWrite k word _ => decide (k < 1024) && decide (word < 16)
  | .redEnable j _ => decide (j < 64)
  | .heartbeat lane _ => decide (lane < 2)
  | .heartbeatSend => true
  | .hello _ => true
  | .helloSend => true
  | .journal _ => true
  | .journalDone _ => true
  | .hrvUpdate _ => true
  | .command _ => true
  | .commandDone _ => true
  | .window _ => true
  | .sync _ => true
  | .syncComplete => true
  | .hrvAck _ => true
  | .hrvNak _ => true
  | .goodbye _ => true
  | .hrvBadFrame => true
  | .hrvResend stream => decide (stream < 3)
  | .hrvPureAck stream => decide (stream < 3)
  | .laneDown lane => decide (lane < 2)
  | .laneReturn lane => decide (lane < 2)
  | .partnerLoss => true
  | .probeWindowExpiry => true
  | .replayAdmission => true
  | .hrvLinkEn _ => true
  | .hrvSakWrite a word _ => decide (a < 4) && decide (word < 8)
  | .faultReport rep => rep.wf
  | .incidentClose _ => true
  | .faultRingCtlWrite r _ => decide (r < 3)
  | .fatalEvent bit => decide (bit < 5)
  | .stewardWdt => true
  | .replayDecision handle => decide (handle < 2 ^ 32)
  | .replay handle => decide (handle < 2 ^ 32)
  | .jigDue pos => decide (pos < 320)
  | .jigDone pos _ _ phase => decide (pos < 320) && decide (phase < 256)
  | .reJigDone s _ => decide (s < 16)
  | .netJigDone _ => true
  | .shadowCompare g _ => decide (g < 288)
  | .larkFlush => true
  | .marginSample unit _ _ => unit.wf
  | .larkSelWrite _ => true
  | .larkCopyDone => true
  | .faultAlertClear _ => true
  | .prsntAssert bay => decide (bay < 4)
  | .presenceSettled bay => decide (bay < 4)
  | .controllerReady bay info => decide (bay < 4) && info.wf
  | .notReady bay => decide (bay < 4)
  | .smartPoll bay _ => decide (bay < 4)
  | .nvmeCompletion bay _ _ _ => decide (bay < 4)
  | .cartRemoval bay => decide (bay < 4)
  | .eject bay => decide (bay < 16)
  | .ejectAbortTimeout bay => decide (bay < 4)
  | .fill bay count => decide (bay < 16) && decide (count < 2 ^ 32)
  | .migrate bay dest count _ => decide (bay < 16) && decide (dest < 16) && decide (count < 2 ^ 32)
  | .adopt bay => decide (bay < 16)
  | .discardDirty => true
  | .cartCmdNop op => decide (op < 16)
  | .inputVoltageLow mv100 => decide (mv100 < 4096)
  | .powerFault _ => true
  | .inputOff => true
  | .powerSample _ mv100 => decide (mv100 < 4096)
  | .capStep => true
  | .fastLimit => true
  | .fastLimitRelease => true
  | .thermalThrottle island _ => island.wf
  | .thermal _ _ => true
  | .thermalTrip _ _ => true
  | .pluggableInserted cage _ => decide (cage < 10)
  | .inputOn => true
  | .standbyRailsUp _ _ _ => true
  | .firmwareRunning => true
  | .dieSelfTestDone => true
  | .perstNRelease => true
  | .configReady => true
  | .memReady failed => (failed.all fun k => decide (k < 16))
  | .imageReady => true
  | .modResetNRelease _ => true
  | .glbResetWarm => true
  | .glbResetPartition p => decide (p < 16)
  | .glbResetCold => true
  | .glbResetNop op => decide (op < 16)
  | .writeBackLimit => true
  | .partitionResetDone p => decide (p < 16)
  | .keySet _ slot key => decide (slot < 16) && key.length == 97
  | .keyRevoke _ slot => decide (slot < 16)
  | .healthClear _ _ => true
  | .mtimeAdvance _ ns => decide (ns < 2 ^ 64)
  | .oemReset _ _ => true
  | .larkRead _ unit => unit.wf
  | .statusRead _ => true
  | .setPowerCap _ => true
  | .getSensorReading sensor => decide (sensor < 256)
  | .firmwareUpdate _ _ => true
  | .pldmBase cmd => decide (cmd < 256)
  | .getVersion => true
  | .getCapabilities => true
  | .negotiateAlgorithms => true
  | .getDigests => true
  | .getCertificate _ _ => true
  | .challenge _ => true
  | .getMeasurements index _ => decide (index < 256)
  | .entdaa addr => decide (addr < 128)
  | .returnToService target => target.wf
  | .regulatorBucketRefill s p => decide (s < 16) && decide (p < 16)
  | .streamBucketRefill g kind => decide (g < 288) && decide (kind < 3)
  | .horviLaneTrained lane => decide (lane < 2)
  | .inputVoltageRestored mv100 => decide (mv100 < 4096)
  | .inletTemperatureRestored _ => true
  | .repairPauseEnd s => decide (s < 16)
  | .setEndpointId _ eid => decide (eid < 256)

end Sys2Proof
end

