-- ==== Sys2Proof/Tests/Slice0.lean ====
section
/-! SUPPORT. Tests: each check of WellFormed refuses an ill-formed command; small one-step tests against the spec's words; and,
for the statements with hypotheses, concrete states and operands that meet them. -/
set_option linter.all false
set_option Elab.async false
namespace Sys2Proof.Tests
open Sys2Proof Sys2Proof.Machine

/-! ## Witnesses: helpers -/

/-- Cell 0 of a part, in partition 0, RUNNING a job whose one step is w. -/
def runner (w : StepWord) : Cell :=
  { Cell.fresh 0 with part := some 0, st := 1, job := some ⟨1, .lc, 0, 0, 0, false⟩, img := { CellImage.fresh with steps := [w] } }

/-- A part with that one cell. -/
def runs (w : StepWord) (f : Cell → Cell) : State :=
  { State.resetOf 2 with
    cells := [f (runner w)]
    ranges := [⟨0, 0, 0, 65536, 0, 1, true, false⟩]
    image := { Image.fresh with frames := [(0, 1, 0), (1, 3, 0), (2, 1, 0), (3, 5, 0)] } }

/-- A step word of a KIND whose other fields are given as they lie from bit 8 up. -/
def stp (k rest : Nat) : StepWord := BitVec.ofNat 128 (k + 256 * rest)

theorem ready_of {s : State} {k g i p : Nat} {w : StepWord}
    (h : s.posOf g = some i ∧ (s.cell i).part = some p ∧ (s.cell i).st = 1 ∧ (s.cell i).job.isSome = true ∧
      (s.cell i).img.steps[(s.cell i).cur.step]? = some w ∧ kindOf w = k) : s.Ready k g w i p := h

/-- The hypothesis Ready of every step's statement is met, whatever the step word. -/
theorem test_meets_ready (w : StepWord) : (runs w id).Ready (kindOf w) 0 w 0 0 := ⟨rfl, rfl, rfl, rfl, rfl, rfl⟩

/-- Cell 0 as f leaves the runner of w meets Ready for KIND k and q. -/
def Meets (k : Nat) (w : StepWord) (f : Cell → Cell) (q : State → Cell → Prop) : Prop :=
  (runs w f).Ready k 0 w 0 0 ∧ q (runs w f) ((runs w f).cell 0)

def tok : Token := ⟨5, .cell 1, false, none, none⟩
def withToks (l : List Token) (c : Cell) : Cell := c.setCur (c.cur.modQueue 0 fun u => { u with toks := l })

/-- A completion token of status 1. -/
def badTok : Token := ⟨0x10000000, .cell 1, true, none, none⟩

/-- The runner of w under the one range r. -/
def ranged (w : StepWord) (r : Range) : State := { runs w id with ranges := [r] }

theorem le_now {s : State} {k : Nat} {u : Island} (h : k ≤ s.mtime.toNat) : k ≤ s.now u := Nat.le_trans h (Nat.le_add_right ..)

def withLoops (l : List LoopFrame) (c : Cell) : Cell := c.setCur { c.cur with loops := l }



/-- The runner's list is n steps of the word v and then w, and it stands at w. -/
def behind (n : Nat) (v w : StepWord) (c : Cell) : Cell :=
  { c with img := { c.img with steps := List.replicate n v ++ [w] } }.setCur { c.cur with step := n }

theorem test_meets_ControlSteps :
    let deep := fun (c : Cell) => loopDepth (c.img.steps.take c.cur.step)
    Meets 1 (stp 1 (2 ^ 88)) id (fun _ c => deep c < 4 ∧ imm32Of (stp 1 (2 ^ 88)) ≠ 0) ∧
    Meets 1 (stp 1 0) (behind 3 (stp 1 0) (stp 1 0)) (fun _ c => deep c < 4 ∧ imm32Of (stp 1 0) = 0) ∧
    Meets 1 (stp 1 0) (behind 4 (stp 1 0) (stp 1 0)) (fun _ c => 4 ≤ deep c) ∧
    Meets 2 (stp 2 0) (behind 5 (stp 1 0) (stp 2 0)) (fun _ c => 4 < deep c) ∧
    Meets 2 (stp 2 0) id (fun _ c => deep c ≤ 4 ∧ c.cur.loops = []) ∧
    Meets 2 (stp 2 0) (withLoops [⟨0, 1, 0⟩]) (fun _ c => deep c ≤ 4 ∧ c.cur.loops = [⟨0, 1, 0⟩]) ∧
    Meets 2 (stp 2 0) (withLoops [⟨0, 2, 0⟩]) (fun _ c => deep c ≤ 4 ∧ c.cur.loops = [⟨0, 2, 0⟩]) ∧
    Meets 0x0C (stp 0x0C 0) id (fun _ _ => modeOf (stp 0x0C 0) = 0) ∧
    Meets 0x0C (stp 0x0C (2 ^ 68)) id (fun _ _ => modeOf (stp 0x0C (2 ^ 68)) = 1) ∧
    Meets 0x0C (stp 0x0C (2 ^ 69)) id (fun _ _ => 2 ≤ modeOf (stp 0x0C (2 ^ 69))) := by
  unfold Meets State.Ready; and_intros <;> decide +kernel

theorem test_meets_WaitingAndJobSteps :
    Meets 3 (stp 3 0) (withToks [tok]) (fun _ c => qOf (stp 3 0) < c.cur.queues.length ∧
      max 1 (min 64 (imm16Of (stp 3 0))) ≤ (c.cur.queue 0).toks.length ∧ (∀ u ∈ (c.cur.queue 0).toks.take 1, u.engine = none) ∧
      ((c.cur.queue 0).toks.take 1).getLast? = some tok) ∧
    Meets 3 (stp 3 0) id (fun _ c => (c.cur.queue 0).toks.length < max 1 (min 64 (imm16Of (stp 3 0)))) ∧
    Meets 4 (stp 4 (2 ^ 72)) (withToks [tok]) (fun _ c => (imm16Of (stp 4 (2 ^ 72))).testBit 0 = true ∧
      (c.cur.queue 0).toks = [tok] ∧ tok.engine = none) ∧
    Meets 3 (stp 3 0) (withToks [badTok]) (fun _ c => (c.cur.queue 0).toks = [badTok] ∧ badTok.engine = none ∧ badTok.status ≠ 0) ∧
    Meets 4 (stp 4 (2 ^ 72)) id (fun _ c => ∀ r < 16, (imm16Of (stp 4 (2 ^ 72))).testBit r = true → (c.cur.queue r).toks = []) ∧
    Meets 7 (stp 7 0) (withToks [tok]) (fun _ c => c.job.isSome = true ∧ (c.cur.queue 0).toks = [tok]) ∧
    Meets 7 (stp 7 0) id (fun _ c => (c.cur.queue 0).toks = []) ∧
    Meets 6 (stp 6 0) (fun c => { c with img := { c.img with binds := [some (1, 0)] } })
      (fun _ c => c.cur.credits.getD 0 0 ≠ 0 ∧ c.img.binds.getD 0 none = some (1, 0)) ∧
    Meets 6 (stp 6 0) (fun c => c.setCur { c.cur with credits := [0] }) (fun _ c => c.cur.credits.getD 0 0 = 0) ∧
    Meets 0x0B (stp 0x0B (2 ^ 68)) id (fun _ c => modeOf (stp 0x0B (2 ^ 68)) ≤ 1 ∨ c.written = []) ∧
    Meets 0x0B (stp 0x0B (2 ^ 69)) (fun c => { c with written := [0] })
      (fun _ c => 2 ≤ modeOf (stp 0x0B (2 ^ 69)) ∧ c.written ≠ []) ∧
    Meets 0x0F (stp 0x0F 0) id (fun _ c => c.job = some ⟨1, .lc, 0, 0, 0, false⟩ ∧ c.open_ = [] ∧ c.pend.drain = false) ∧
    Meets 0x0F (stp 0x0F 0) (fun c => { c with open_ := [⟨0, 0x80, 0, .lc, 0, 0, 0, [], 0⟩] })
      (fun _ c => ∃ o ∈ c.open_, o.cls = .lc) ∧
    Meets 8 (stp 8 0) id (fun s c => c.pend.drain = false ∧ c.preemptDue = false ∧ s.moveDue 0 = false ∧ c.pend.shadow = false) ∧
    Meets 8 (stp 8 0) (fun c => { c with pend := { c.pend with shadow := true } }) (fun _ c => c.pend.shadowCrc = []) ∧
    Meets 8 (stp 8 0) (fun c => { c with pend := { c.pend with drain := true } }) (fun _ c =>
      c.job = some ⟨1, .lc, 0, 0, 0, false⟩ ∧ c.pend.drain = true ∧ c.susp = none) ∧
    Meets 8 (stp 8 0) (fun c => { c with job := some ⟨1, .be, 0, 0, 0, false⟩, pend := { c.pend with preempt := true } })
      (fun _ c => c.pend.drain = false ∧ c.preemptDue = true) := by
  unfold Meets State.Ready; and_intros <;> decide +kernel

/-- Of LocalMemorySteps: the offset 0x3FFFF8 is the last aligned word of the scratchpad, and 64 rows end at its end. -/
theorem test_meets_LocalMemorySteps :
    let at_ := fun (w : StepWord) (c : Cell) (r : Nat) =>
      addr57 (((c.cur.scalar (saOf w)).toNat + (imm32Of w + (c.cur.scalar (sbOf w)).toNat * r)) % 2 ^ 64)
    let row := fun (w : StepWord) (c : Cell) (r : Nat) =>
      addr57 (((c.cur.scalar (saOf w)).toNat + (imm32Of w + 256 * r)) % 2 ^ 64)
    let w8 := stp 0x1B (2 ^ 7 + 2 ^ 88 * 0x3FFFF8)
    let wS := stp 0x1C (2 ^ 7 + 2 ^ 88 * 0x3FFFF8)
    let wL := stp 0x20 (2 ^ 7 + 2 ^ 88 * 0x3FC000)
    let wT := stp 0x21 (2 ^ 7 + 2 ^ 88 * 0x3FC000)
    let wLs := stp 0x22 (2 ^ 7 + 2 ^ 72 * 15 + 2 ^ 80 * 63 + 2 ^ 88 * 0x3FFF00)
    let wTs := stp 0x23 (2 ^ 7 + 2 ^ 72 * 15 + 2 ^ 80 * 63 + 2 ^ 88 * 0x3FFF00)
    Meets 0x1B w8 id (fun _ c => localOf w8 = true ∧ at_ w8 c 0 % 8 = 0 ∧ at_ w8 c 0 + 8 = 0x400000 ∧
      c.scratch.isMarked (at_ w8 c 0 / 64) = false) ∧
    Meets 0x1C wS id (fun _ c => localOf wS = true ∧ at_ wS c 0 % 8 = 0 ∧ at_ wS c 0 + 8 = 0x400000) ∧
    Meets 0x20 wL id (fun _ c => localOf wL = true ∧ ∀ r < 64, row wL c r % 16 = 0 ∧ row wL c r + 256 ≤ 0x400000) ∧
    Meets 0x21 wT id (fun _ c => localOf wT = true ∧ ∀ r < 64, row wT c r % 16 = 0 ∧ row wT c r = row wT c 0 + 256 * r ∧
      row wT c r + 256 ≤ 0x400000) ∧
    Meets 0x22 wLs id (fun _ c => localOf wLs = true ∧ ∀ r < min 64 (fld wLs 94 88 + 1),
      at_ wLs c r % 16 = 0 ∧ at_ wLs c r + min 256 ((imm16Of wLs % 32 + 1) * 16) ≤ 0x400000) ∧
    Meets 0x23 wTs id (fun _ c => localOf wTs = true ∧ ∀ r < min 64 (fld wTs 94 88 + 1),
      at_ wTs c r % 16 = 0 ∧ at_ wTs c r + min 256 ((imm16Of wTs % 32 + 1) * 16) ≤ 0x400000) := by
  unfold Meets State.Ready; and_intros <;> decide +kernel

/-- Of MappedMemorySteps and TileLoadsTranslateFirst: a mapped, a read-only-free and a misaligned address for each step. -/
theorem test_meets_MappedMemorySteps :
    let row := fun (w : StepWord) (c : Cell) (r : Nat) =>
      addr57 (((c.cur.scalar (saOf w)).toNat + (imm32Of w + 256 * r)) % 2 ^ 64)
    let mapped := fun (k n : Nat) => Meets k (stp k 0) id fun s c => localOf (stp k 0) = false ∧ ∀ r < 64,
      row (stp k 0) c r % 16 = 0 ∧ (s.putCell 0 c.issued).unmapped 0 (row (stp k 0) c r) n = none ∧
      (s.putCell 0 c.issued).refused 0 (row (stp k 0) c r) n = none
    let off := fun (k : Nat) => Meets k (stp k (2 ^ 88)) id fun _ c => row (stp k (2 ^ 88)) c 0 % 8 ≠ 0 ∧
      row (stp k (2 ^ 88)) c 0 % 16 ≠ 0
    mapped 0x20 256 ∧ mapped 0x21 256 ∧ mapped 0x22 16 ∧ mapped 0x23 16 ∧ mapped 0x1B 8 ∧ mapped 0x1C 8 ∧
    off 0x1B ∧ off 0x1C ∧ off 0x20 ∧ off 0x21 ∧ off 0x22 ∧ off 0x23 ∧
    (Meets 0x1B (stp 0x1B 0) id fun s c => (s.putCell 0 c.issued).ownScratch 0 0 0 = false ∧
      (s.putCell 0 c.issued).bufferHit 0 0 = none) ∧
    (Meets 0x1B (stp 0x1B (2 ^ 7)) (fun c => { c with scratch := c.scratch.setMark 0 true }) fun _ c =>
      localOf (stp 0x1B (2 ^ 7)) = true ∧ c.scratch.isMarked 0 = true) ∧
    (∀ k, k ∈ [0x1B, 0x1C, 0x21, 0x23] → (ranged (stp k (2 ^ 88 * 65536)) ⟨0, 0, 0, 1, 0, 1, true, false⟩).Ready k 0
        (stp k (2 ^ 88 * 65536)) 0 0 ∧
      (ranged (stp k (2 ^ 88 * 65536)) ⟨0, 0, 0, 1, 0, 1, true, false⟩).wordUnmapped 0 65536 8 = some 65536 ∧
      (ranged (stp k (2 ^ 88 * 65536)) ⟨0, 0, 0, 1, 0, 1, true, false⟩).wordRefused 0 65536 8 = some 65536) ∧
    (∀ k, k ∈ [0x1C, 0x21] → (ranged (stp k 0) ⟨0, 0, 0, 65536, 0, 1, false, false⟩).Ready k 0 (stp k 0) 0 0 ∧
      (ranged (stp k 0) ⟨0, 0, 0, 65536, 0, 1, false, false⟩).wordUnmapped 0 0 8 = none ∧
      (ranged (stp k 0) ⟨0, 0, 0, 65536, 0, 1, false, false⟩).wordRefused 0 0 8 = some 0) ∧
    (let s := ranged (stp 0x1B 0) ⟨0, 0, 0, 65536, 0x10000000, 2, true, false⟩;
      s.Ready 0x1B 0 (stp 0x1B 0) 0 0 ∧ s.unmapped 0 0 8 = none ∧ s.ownScratch 0 0 0 = true) ∧
    (Meets 0x20 (stp 0x20 (2 ^ 120 - 2 ^ 100)) id fun s c =>
      (s.putCell 0 c.issued).unmapped 0 (row (stp 0x20 (2 ^ 120 - 2 ^ 100)) c 63) 256 ≠ none) := by
  unfold Meets State.Ready; and_intros <;> decide +kernel

/-- Of MappedMemorySteps: an SLD that finds its block in the read buffer. -/
theorem test_meets_MappedMemorySteps_buffer :
    let s := runs (stp 0x1B 0) fun c => { c with readBuf := [⟨0, 0, zeros 256, 0⟩] }
    s.Ready 0x1B 0 (stp 0x1B 0) 0 0 ∧ s.bufferHit 0 0 = some ⟨0, 0, zeros 256, 0⟩ := by
  have h : ∀ s : State, (s.cell 0).readBuf = [⟨0, 0, zeros 256, 0⟩] → s.mtime = 0 →
      s.bufferHit 0 0 = some ⟨0, 0, zeros 256, 0⟩ := by
    intro s h m
    have : s.now (.cell 0) ≤ 2000 := by unfold State.now; rw [m]; simp; omega
    simp [State.bufferHit, h, this]
  exact ⟨by unfold State.Ready; decide +kernel, h _ rfl rfl⟩

/-- Row 0 of tile register 0 is marked. -/
def markRow (c : Cell) : Cell := { c with comp := { c.comp with tiles := { c.comp.tiles with poison := [rowUnit 0 0] } } }

/-- Of ArraySteps, ArrayFaults, IntegerProductExact and TopKSteps. -/
theorem test_meets_ArraySteps :
    let clean := fun (k : Nat) => Meets k (stp k 0) id fun _ c => c.comp.arrayMarked (arrayOp c.cur (stp k 0) k)
      (taOf c.cur (stp k 0)) (tbOf c.cur (stp k 0)) (rowsOf (stp k 0)) (arrayDest c.cur (stp k 0) k) = false
    let marked := fun (k : Nat) => Meets k (stp k 0) markRow fun _ c => c.comp.arrayMarked (arrayOp c.cur (stp k 0) k)
      (taOf c.cur (stp k 0)) (tbOf c.cur (stp k 0)) (rowsOf (stp k 0)) (arrayDest c.cur (stp k 0) k) = true
    clean 0x31 ∧ clean 0x32 ∧ clean 0x33 ∧ clean 0x34 ∧ clean 0x35 ∧ clean 0x36 ∧ clean 0x37 ∧ clean 0x38 ∧
    marked 0x31 ∧ marked 0x32 ∧ marked 0x33 ∧ marked 0x34 ∧ marked 0x35 ∧ marked 0x36 ∧ marked 0x37 ∧ marked 0x38 := by
  unfold Meets State.Ready; and_intros <;> decide +kernel

/-- INT8 operands, FMTA and FMTB being 8. -/
def wProd : StepWord := stp 0x31 (8 * 2 ^ 8 + 8 * 2 ^ 12)

theorem test_meets_IntegerProductExact :
    Meets 0x31 wProd id (fun _ c => fmtaOf wProd = 8 ∧ fmtbOf wProd = 8 ∧ accOf wProd = false ∧ 0 < rowsOf wProd ∧
      c.comp.arrayMarked (arrayOp c.cur wProd 0x31) (taOf c.cur wProd) (tbOf c.cur wProd) (rowsOf wProd) [tdOf c.cur wProd] = false) ∧
    ∃ t, exec (.mma 0 wProd false) (runs wProd id) = .next t := by
  unfold Meets State.Ready
  refine ⟨by and_intros <;> decide +kernel, ?_⟩
  exact ⟨_, rfl⟩

/-- The last offset at which TKREAD's 128 KiB still lie in the scratchpad. -/
def wTk : StepWord := stp 0x42 (2 ^ 7 + 2 ^ 88 * 0x3E0000)

theorem test_meets_TopKSteps :
    Meets 0x41 (stp 0x41 0) markRow (fun _ c => ∃ r < rowsOf (stp 0x41 0), c.comp.rowMarked (taOf c.cur (stp 0x41 0)) r = true) ∧
    Meets 0x42 (stp 0x42 (2 ^ 88)) id (fun _ c => addr57 (((c.cur.scalar 0).toNat + imm32Of (stp 0x42 (2 ^ 88))) % 2 ^ 64) % 16 ≠ 0) ∧
    Meets 0x42 (stp 0x42 (2 ^ 7 + 2 ^ 88 * 0x400000)) id (fun s c => (s.putCell 0 c.issued).wordRefused 0 (2 ^ 63 + 0x400000) (4 * c.comp.topk.k) ≠ none) ∧
    Meets 0x41 (stp 0x41 (2 ^ 5)) id (fun _ c => (∀ r < rowsOf (stp 0x41 (2 ^ 5)), c.comp.rowMarked (taOf c.cur (stp 0x41 (2 ^ 5))) r = false) ∧
      ∀ r < rowsOf (stp 0x41 (2 ^ 5)), c.comp.rowMarked (tbOf c.cur (stp 0x41 (2 ^ 5))) r = false) ∧
    Meets 0x43 (stp 0x43 0) id (fun _ c => 1 ≤ c.comp.topk.k) ∧
    Meets 0x42 wTk id (fun _ c =>
      let a := addr57 (((c.cur.scalar (saOf wTk)).toNat + imm32Of wTk) % 2 ^ 64)
      localOf wTk = true ∧ a % 16 = 0 ∧ a + 131072 = 0x400000 ∧
      (c.cur.scalar (saOf wTk)).toNat + imm32Of wTk + 131072 ≤ 2 ^ 57 ∧ c.comp.topk.k ≤ 256) ∧
    Meets 0x42 (stp 0x42 0) id (fun s c => localOf (stp 0x42 0) = false ∧ ∀ r < 64,
      (s.putCell 0 c.issued).refused 0 (1024 * r) (4 * c.comp.topk.k) = none ∧
      (s.putCell 0 c.issued).refused 0 (65536 + 1024 * r) (4 * c.comp.topk.k) = none) := by
  unfold Meets State.Ready; and_intros <;> decide +kernel

/-- No register is marked at reset, so that the clean sources of every vector step are there. -/
theorem test_meets_vector_steps (w : StepWord) (k : Nat) : ((runs w id).cell 0).clean k := by
  intro r _; rfl

/-- Formats, modes and registers of VectorElementwise and VectorRows. -/
theorem test_meets_VectorRows :
    (let w := stp 0x79 (2 * 2 ^ 12 + 1 * 2 ^ 16); fmtbOf w ≠ 0 ∧ fmtIsInt (fmtbOf w) = false ∧ fmtaOf w ≠ fmtbOf w ∧
      tdOf (runner w).cur w ≠ tbOf (runner w).cur w) ∧
    (let w := stp 0x79 0; fmtbOf w = 0 ∧ fmtaOf w = fmtbOf w ∧ tdOf (runner w).cur w = tbOf (runner w).cur w) ∧
    (let w := stp 0x7A (2 * 2 ^ 68); modeOf w = 2) ∧ (let w := stp 0x7A (3 * 2 ^ 68); modeOf w = 3) := by
  and_intros <;> decide +kernel

def grantAll (s : State) : State := (({ s with image := { s.image with grants := [0] } }).setReg 0x100110 (64 * 63))

/-- A state made from a runner, its step ready and q true of it. -/
def MeetsIn (s : State) (k : Nat) (w : StepWord) (q : State → Cell → Prop) : Prop := s.Ready k 0 w 0 0 ∧ q s (s.cell 0)

theorem test_meets_RemoteSteps :
    Meets 0x80 (stp 0x80 0) id (fun s _ => 0 / 40 < s.dies.length) ∧
    Meets 0x86 (stp 0x86 0) id (fun s c => (s.putCell 0 c.issued).wordUnmapped 0 0 16 = none ∧
      (s.putCell 0 c.issued).refused 0 0 16 = none ∧ addr57 (c.cur.scalar 0).toNat % 16 = 0) ∧
    MeetsIn (grantAll (runs (stp 0x90 0) id)) 0x90 (stp 0x90 0)
      (fun s c => addr57 (c.cur.scalar 0).toNat + 64 ≤ 0x400000 ∧ s.inWindow 0 (c.cur.scalar 0).toNat 64 = true) ∧
    MeetsIn (grantAll (runs (stp 0x91 0) id)) 0x91 (stp 0x91 0)
      (fun s c => addr57 (c.cur.scalar 0).toNat + 64 ≤ 0x400000 ∧ s.inWindow 0 (c.cur.scalar 0).toNat 64 = true) ∧
    Meets 0x90 (stp 0x90 0) id (fun s c => s.inWindow 0 (c.cur.scalar 0).toNat 64 = false) := by
  unfold Meets MeetsIn State.Ready; and_intros <;> decide +kernel

/-- The runner of w with scalars l. -/
def regs (l : List Word) (c : Cell) : Cell := c.setCur { c.cur with scalars := l }

/-- The request that the runner of a GATH hands over, with a header at 0 of its scratchpad that names tile register 0. -/
def tileHeader (c : Cell) : Cell := { c with scratch := c.scratch.write 64 0 (Data.clean (leBytes 8 (1 + 2 ^ 29) ++ zeros 56)) }
def wG : StepWord := stp 0x80 (2 ^ 7)
/-- The runner of a GATH with its request in the queue of its front end. -/
def gathers (f : Cell → Cell) : State :=
  let s := runs wG f
  { s with dies := s.dies.modify 0 fun d => { d with queue := [⟨s.nextId, 0, .lc, 0, 1, 2 ^ 63, 0, none, none, 0, (s.cell 0).scratch, [], [], [], [], 0⟩] } }
/-- Of RemoteSteps: a header that names a tile register and one that does not, and the refusals of RSTORE, HLD and HST. -/
theorem test_meets_RemoteSteps_more :
    (gathers id).Ready 0x80 0 wG 0 0 ∧ ((gathers id).die 0).queue.map ((gathers id).tileAsked 0) = [none] ∧
    (gathers tileHeader).Ready 0x80 0 wG 0 0 ∧ ((gathers tileHeader).die 0).queue.map ((gathers tileHeader).tileAsked 0) = [some 0] ∧
    (let w := stp 0x86 (2 ^ 52); Meets 0x86 w (regs [8, 0]) fun _ c =>
      addr57 (c.cur.scalar (saOf w)).toNat % 16 ≠ 0 ∧ addr57 (c.cur.scalar (sbOf w)).toNat % 16 = 0) ∧
    (let w := stp 0x86 (2 ^ 52); Meets 0x86 w (regs [0, 8]) fun _ c =>
      addr57 (c.cur.scalar (saOf w)).toNat % 16 = 0 ∧ addr57 (c.cur.scalar (sbOf w)).toNat % 16 ≠ 0) ∧
    (let w := stp 0x86 (2 ^ 7 + 2 ^ 52); Meets 0x86 w (regs [0x400000, 0]) fun s c =>
      (s.putCell 0 c.issued).wordUnmapped 0 (2 ^ 63 + 0x400000) 16 = some 0x400000 ∧
      (s.putCell 0 c.issued).unmapped 0 0 16 = none ∧ (s.putCell 0 c.issued).readOnly 0 0 16 = none) ∧
    (let w := stp 0x86 (2 ^ 52); Meets 0x86 w (regs [0, 2 ^ 40]) fun s c =>
      (s.putCell 0 c.issued).wordUnmapped 0 0 16 = none ∧ (s.putCell 0 c.issued).unmapped 0 (2 ^ 40) 16 = some (2 ^ 40) ∧
      (s.putCell 0 c.issued).readOnly 0 (2 ^ 40) 16 = none) ∧
    (let w := stp 0x86 0; (ranged w ⟨0, 0, 0, 1, 0, 1, false, false⟩).Ready 0x86 0 w 0 0 ∧
      (ranged w ⟨0, 0, 0, 1, 0, 1, false, false⟩).unmapped 0 0 16 = none ∧
      (ranged w ⟨0, 0, 0, 1, 0, 1, false, false⟩).readOnly 0 0 16 = some 0) ∧
    (∀ k, k ∈ [0x90, 0x91] → Meets k (stp k 0) (regs [0x400000]) fun _ c => 0x400000 < addr57 (c.cur.scalar 0).toNat + 64) := by
  unfold Meets State.Ready; and_intros <;> decide +kernel

def slotted (l : List Slot) (c : Cell) : Cell := { c with port := { c.port with slots := l } }
def blk : Block := ⟨0, 2 ^ 63, 2 ^ 63 + 4096, 16, 0, 0, 0, true, false, [], zeros 16, 8, 0, 0, 0, [8], []⟩

/-- A slice descriptor at scratchpad offset 4096: 16 bytes of source 0, all of them kept at offset 8192. -/
def slice : Bytes := leBytes 8 0 ++ leBytes 8 16 ++ leBytes 8 16 ++ leBytes 8 8192
def wCh : StepWord := stp 0x85 (2 ^ 7 + 2 ^ 46)
def chained (s : State) : State := { s with image := { s.image with chains := [⟨0, 0, [(0, 0)], 1, 0, 64, 200, []⟩] } }
def sliced : State := chained (runs wCh fun c =>
  { c with scratch := c.scratch.write 64 4096 (Data.clean slice) }.setCur { c.cur with scalars := [0, 4096] })

theorem test_meets_StreamSteps :
    Meets 0x83 (stp 0x83 0) id (fun s c => 0 < c.port.slots.length ∧ (s.slot 0 0).st = 0) ∧
    Meets 0x83 (stp 0x83 0) (slotted [{ Slot.fresh 0 with st := 1 }]) (fun s _ => (s.slot 0 0).st ≠ 0) ∧
    Meets 0x84 (stp 0x84 0) id (fun s _ => (s.slot 0 0).st = 0) ∧
    Meets 0x84 (stp 0x84 0) (slotted [{ Slot.fresh 0 with st := 1, blocks := [blk] }])
      (fun s c => 0 < c.port.slots.length ∧ (s.slot 0 0).st ≠ 0 ∧ ∃ b ∈ (s.slot 0 0).blocks, b.paid = true) ∧
    Meets 0x84 (stp 0x84 0) (slotted [{ Slot.fresh 0 with st := 1, owed := [blk] }])
      (fun s c => 0 < c.port.slots.length ∧ (s.slot 0 0).st ≠ 0 ∧ (s.slot 0 0).owed ≠ []) ∧
    Meets 0x84 (stp 0x84 0) (slotted [{ Slot.fresh 0 with st := 1 }])
      (fun s c => 0 < c.port.slots.length ∧ (s.slot 0 0).st ≠ 0 ∧ (∀ b ∈ (s.slot 0 0).blocks, b.paid = false) ∧ (s.slot 0 0).owed = []) ∧
    Meets 0x85 (stp 0x85 0) id (fun s _ => s.chainMember 0 0 = none) ∧
    MeetsIn (chained (runs wCh (slotted [{ Slot.fresh 0 with st := 1 }]))) 0x85 wCh
      (fun s _ => (s.chainMember 0 0).map Prod.snd = some 0 ∧ (s.slot 0 0).st ≠ 0) ∧
    MeetsIn sliced 0x85 wCh (fun s c =>
      let word := addr57 (c.cur.scalar (saOf wCh)).toNat + 2 ^ 63
      let b := (c.scratch.read 64 (addr57 word) 32).bytes
      s.chainMember 0 0 = some (⟨0, 0, [(0, 0)], 1, 0, 64, 200, []⟩, 0) ∧ 0 < c.port.slots.length ∧ (s.slot 0 0).st = 0 ∧
      localOf wCh = true ∧ addr57 word = 4096 ∧ (c.scratch.read 64 (addr57 word) 32).marked = false ∧
      bits (wordAt b 1) 31 0 = 16 ∧ bits (wordAt b 1) 63 32 = 0 ∧ bits (wordAt b 2) 31 0 = 16 ∧ bits (wordAt b 2) 63 32 = 0 ∧
      0 + 4096 * 1 ≤ bits (wordAt b 3) 21 0 ∧ bits (wordAt b 3) 21 0 + 16 ≤ 0x400000 ∧
      (s.putCell 0 c.issued).wordUnmapped 0 (wordAt b 0) 16 = none ∧ (byteAt b 28).testBit 4 = false) := by
  unfold Meets MeetsIn State.Ready; and_intros <;> decide +kernel

/-- The runner waits in a WAIT, or a WAITANY that faults on a timeout, whose deadline 0 has come. -/
def waiting (w : StepWord) : State := runs w fun c => { c with st := 2, held := some ⟨w, 0, some 0⟩ }
def w3 : StepWord := stp 3 0
def w4 : StepWord := stp 4 (1 + 2 ^ 72)
def faulted : State := runs 0 fun c => { c with st := 3 }
def ownTok : State := { runs 0 id with tokens := [(0, 0, .lc, tok)] }
def owing : State := { runs 0 (fun c => c.setCur (c.cur.modQueue 0 fun u => { u with owed := 1 })) with tokens := [(0, 0, .lc, tok)] }
def crBack : State := { runs 0 id with credits := [.counter 0 .lc 0] }

theorem test_meets_CellEvents :
    (ownTok.posOf 0 = some 0 ∧ ownTok.arriving 0 0 = some (0, 0, .lc, tok) ∧ 0 < ((ownTok.cell 0).ctx .lc).queues.length ∧
      (((ownTok.cell 0).ctx .lc).queue 0).owed = 0 ∧ ((ownTok.cell 0).ctx .lc).owedAny = [] ∧
      (((ownTok.cell 0).ctx .lc).queue 0).toks.length < min 64 (((ownTok.cell 0).ctx .lc).queue 0).depth ∧
      (ownTok.cell 0).held = none) ∧
    (owing.posOf 0 = some 0 ∧ owing.arriving 0 0 = some (0, 0, .lc, tok) ∧ 0 < ((owing.cell 0).ctx .lc).queues.length ∧
      (((owing.cell 0).ctx .lc).queue 0).owed ≠ 0 ∧ (owing.cell 0).held = none) ∧
    (crBack.posOf 0 = some 0 ∧ (crBack.credits.filter fun r => match r with | .counter g' _ _ => g' == 0 | _ => false)[0]? =
      some (.counter 0 .lc 0) ∧ (crBack.cell 0).st ≠ 8 ∧ (crBack.cell 0).held = none ∧
      0 < ((crBack.cell 0).ctx .lc).credits.length ∧ (∀ x ∈ (crBack.cell 0).port.slots, x.st ≠ 2 ∧ x.chain = none)) ∧
    (((waiting w3).posOf 0 = some 0 ∧ ((waiting w3).cell 0).st = 2 ∧ ((waiting w3).cell 0).held = some ⟨w3, 0, some 0⟩ ∧
      kindOf w3 = 3 ∧ flagOf w3 0 = false ∧ qOf w3 < ((waiting w3).cell 0).cur.queues.length ∧
      (((waiting w3).cell 0).cur.queue (qOf w3)).toks.length < max 1 (min 64 (imm16Of w3)) ∧
      sdOf w3 < ((waiting w3).cell 0).cur.scalars.length) ∧ 0 ≤ (waiting w3).now (.cell 0)) ∧
    (((waiting w4).posOf 0 = some 0 ∧ ((waiting w4).cell 0).st = 2 ∧ ((waiting w4).cell 0).held = some ⟨w4, 0, some 0⟩ ∧
      kindOf w4 = 4 ∧ flagOf w4 0 = true) ∧ 0 ≤ (waiting w4).now (.cell 0)) ∧
    (faulted.posOf 0 = some 0 ∧ (faulted.cell 0).st = 3 ∧ (faulted.cell 0).job.isSome = true ∧ (faulted.cell 0).pend.drain = false) ∧
    0 < faulted.cells.length := by
  and_intros <;> first | exact le_now (Nat.zero_le _) | decide +kernel

def recv0 : Receiver := ⟨1, 0, 4, 0, 0, 0, 0, some 0, false⟩
def edge0 : Edge := ⟨1, 0, 0, 0, [], none, false⟩
def run0 : ChainRun := ⟨0, 16, 0, 16, 0, 8192, 0, false, 1, 0, 0, 0, false, [edge0], false, 0, 0⟩
/-- A list whose first entry moves 16 bytes of the scratchpad, one that links to itself and one that wraps. -/
def entries (flags : Nat) : Bytes := leBytes 8 (2 ^ 63) ++ leBytes 8 (2 ^ 63 + 4096) ++ leBytes 8 (16 + 2 ^ 32 * flags) ++ leBytes 8 0
def streaming (flags : Nat) (x : Slot) : State := runs 0 fun c => { slotted [x] c with
  scratch := c.scratch.write 64 8192 (Data.clean (entries flags)) }
def slotAt : Slot := { Slot.fresh 0 with st := 1, entry := 2 ^ 63 + 8192, list := 2 ^ 63 + 8192 }
def sLand : State := streaming 0 { slotAt with blocks := [blk] }
def sCast : State := { streaming 0 { slotAt with recvs := [recv0] } with credits := [.mcast 0 0 0] }
def sLag : State := { sCast with
  cells := sCast.cells ++ [Cell.fresh 1], mtime := 200000 }
def sSkip : State := streaming 0 { Slot.fresh 0 with skips := [⟨true, 0, 0, false, 2 ^ 63, 1, 0, 2 ^ 63⟩] }
def chunk (n : Nat) : Chunk := ⟨n, 16, 0, 0, 16, 0⟩
def sRing (e : Nat) : State := { streaming 0 { slotAt with ring := [chunk 0], chain := some { run0 with expect := e } } with
  credits := [.ring 0 0 0] }

theorem test_meets_StreamEvents :
    let fetch := fun (flags : Nat) =>
      let s := streaming flags slotAt
      let x := s.slot 0 0
      let d := (s.cell 0).scratch.read 64 (addr57 x.entry) 32
      (s.posOf 0 = some 0 ∧ (s.cell 0).part = some 0 ∧ 0 < (s.cell 0).port.slots.length) ∧
      (x.st = 1 ∧ x.ending = none ∧ x.chain = none ∧ x.blocks.length < 8 ∧ x.entry.testBit 63 = true ∧ addr57 x.entry % 32 = 0 ∧
        addr57 x.entry + 32 ≤ 0x400000 ∧ d.marked = false ∧ x.catchup = none ∧
        s.checkEntry 0 0 0 x.recvs (parseEntry 0 d.bytes) = 0 ∧ (parseEntry 0 d.bytes).flags = flags)
    fetch 0 ∧ fetch 8 ∧ fetch 16 ∧
    ((sLand.slot 0 0).blocks.find? (fun y => y.no == blk.no) = some blk ∧ (sLand.slot 0 0).mayLand blk = true ∧
      (sLand.slot 0 0).st = 1 ∧ blk.mcast = false ∧ blk.decomp = false ∧ blk.comp = false ∧ blk.src.testBit 63 = true ∧
      blk.dst.testBit 63 = true ∧ ((sLand.cell 0).scratch.read 64 (addr57 blk.src) blk.len).bytes = blk.snap) ∧
    (CreditRef.mcast 0 0 0 ∈ sCast.credits ∧ (sCast.slot 0 0).recvs[0]? = some recv0 ∧ recv0.dropped = false ∧
      (sCast.slot 0 0).owes recv0 = []) ∧
    ((sLag.slot 0 0).chain = none ∧ (sLag.slot 0 0).recvs[0]? = some recv0 ∧ recv0.owedSince = some 0 ∧ (sLag.slot 0 0).st ≠ 0 ∧
      (sLag.groupLag 0 0).2 = 200 ∧ sLag.posOf recv0.g = some 1 ∧ recv0.slot < (sLag.cell 1).port.slots.length) ∧
    0 + 1000 * 200 ≤ sLag.now (.cell 0) ∧
    (∃ k, (sSkip.slot 0 0).skips = [k] ∧ k.chain = false ∧ (sSkip.slot 0 0).st = 0) ∧
    (((sRing 0).slot 0 0).ring = [chunk 0] ∧ ((sRing 0).slot 0 0).chain = some run0 ∧ run0.expect ≤ (chunk 0).no ∧
      run0.edges[0]? = some edge0 ∧ edge0.dropped = false ∧ run0.expect ≤ edge0.next ∧ CreditRef.ring 0 0 0 ∈ (sRing 0).credits) ∧
    (((sRing 1).slot 0 0).ring = [chunk 0] ∧ ((sRing 1).slot 0 0).chain = some { run0 with expect := 1 } ∧ (chunk 0).no < 1) := by
  and_intros <;> first
    | exact le_now (by decide +kernel)
    | exact ⟨⟨true, 0, 0, false, 2 ^ 63, 1, 0, 2 ^ 63⟩, by decide +kernel⟩
    | decide +kernel

/-- The streaming runner with its first entry at byte address a of the list word e. -/
def entryIs (e : Nat) (b : Bytes) : State :=
  let s := streaming 0 { slotAt with entry := e, list := e }
  s.modCell 0 fun c => { c with scratch := c.scratch.write 64 8192 (Data.clean b) }

/-- Of StreamEvents: entries that end a run, the takeover of a chain, the send into a successor's ring and the refill. -/
theorem test_meets_StreamEvents_more :
    (let s := entryIs (2 ^ 63 + 8) []; addr57 (s.slot 0 0).entry % 32 ≠ 0 ∧ (s.slot 0 0).st = 1 ∧ (s.cell 0).held = none) ∧
    (let s := entryIs (2 ^ 63 + 0x400000) []; s.wordUnmapped 0 (s.slot 0 0).entry 32 ≠ none ∧ addr57 (s.slot 0 0).entry % 32 = 0) ∧
    (let s := entryIs (2 ^ 63 + 8192) (leBytes 8 (2 ^ 63) ++ leBytes 8 (2 ^ 63 + 4096) ++ leBytes 8 8 ++ leBytes 8 0)
     let d := (s.wordRead (.cell 0) 0 0 (s.slot 0 0).entry 32).1
     s.wordUnmapped 0 (s.slot 0 0).entry 32 = none ∧ d.marked = false ∧ s.checkEntry 0 0 0 [] (parseEntry 0 d.bytes) = 1) ∧
    (let s := (entryIs (2 ^ 63 + 8192) []).modCell 0 fun c => { c with scratch := c.scratch.setMark 128 true }
     (s.wordRead (.cell 0) 0 0 (s.slot 0 0).entry 32).1.marked = true) ∧
    (let x : Slot := { slotAt with chain := some { run0 with edges := [] }, skips := [⟨true, 1, 0, true, 2 ^ 63, 1, 0, 2 ^ 63⟩] }
     let s := streaming 0 x
     (s.slot 0 0).skips.map (·.chain) = [true] ∧ (s.slot 0 0).ring = [] ∧ (s.slot 0 0).st = 1 ∧
      ({ run0 with edges := [], keepLen := 8192 }.skipTo 1).finished = false) ∧
    (let e : Edge := ⟨1, 0, 4, 0, [], none, false⟩
     let s := streaming 0 { slotAt with ring := [chunk 0], chain := some { run0 with edges := [e] } }
     let s := { s with cells := s.cells ++ [Cell.fresh 1], image := { s.image with chains := [⟨0, 0, [(0, 0), (1, 0)], 4, 0x10000, 64, 200, []⟩] } }
     s.portOpen 0 .lc 2 = true ∧ e.next = (chunk 0).no ∧ 4096 * (chunk 0).no < (chunk 0).total ∧ s.posOf 1 = some 1 ∧
      0 < (s.cell 1).port.slots.length ∧ (s.chainOf 1 0).map (·.ringSlots) = some 4) ∧
    (let s := streaming 0 { slotAt with ring := [chunk 0] }; (s.slot 0 0).ring = [chunk 0] ∧ (s.slot 0 0).chain = none) ∧
    (let b := { blk with left := 1 }
     let s := streaming 0 { slotAt with blocks := [b] }
     (s.slot 0 0).blocks = [b] ∧ b.kind = 0 ∧ b.paid = true ∧ b.landed = false ∧ b.units ≤ b.gens.length ∧
      ∀ y ∈ (s.cell 0).port.slots, y.recvs = [] ∧ y.owed = [] ∧ y.chain = none) ∧
    (let s := streaming 0 slotAt; (s.slot 0 0).blocks = [] ∧ ∀ y ∈ (s.cell 0).port.slots, y.recvs = [] ∧ y.owed = [] ∧ y.chain = none) := by
  and_intros <;> decide +kernel

/-- Of CellEvents: a full queue with a job and without one, a WAITANY that still owes, a WAIT with an error among its tokens. -/
theorem test_meets_CellEvents_more :
    (let s := { runs 0 (withToks (List.replicate 64 tok)) with tokens := [(0, 0, .lc, tok)] }
     s.arriving 0 0 = some (0, 0, .lc, tok) ∧ 64 ≤ (((s.cell 0).ctx .lc).queue 0).toks.length ∧
      (((s.cell 0).ctx .lc).queue 0).owed = 0 ∧ (s.cell 0).job.isSome = true ∧ (s.cell 0).cls = .lc) ∧
    (let s := { runs 0 (fun c => { withToks (List.replicate 64 tok) c with job := none }) with tokens := [(0, 0, .lc, tok)] }
     s.arriving 0 0 = some (0, 0, .lc, tok) ∧ (s.cell 0).job.isSome = false) ∧
    (let s := { runs 0 (fun c => c.setCur { c.cur with owedAny := [1] }) with tokens := [(0, 0, .lc, tok)] }
     s.arriving 0 0 = some (0, 0, .lc, tok) ∧ ((s.cell 0).ctx .lc).owedAny = [1] ∧ (1 : BitVec 16).toNat.testBit 0 = true ∧
      (s.cell 0).held = none) ∧
    (let s := runs w3 fun c => { withToks [badTok] c with st := 2, held := some ⟨w3, 0, some 0⟩ }
     ∃ u ∈ ((s.cell 0).cur.queue (qOf w3)).toks, u.status ≠ 0 ∧ u.engine = none) ∧
    (let s := runs 0 fun c => { c with st := 3, job := none }
     (s.cell 0).st = 3 ∧ (s.cell 0).job = none) := by
  and_intros <;> decide +kernel

/-! ## Row engines and tables -/

/-- Table 5 of partition 0: FP32, rows of 16 bytes, 4 elements, stacks 0 and 1, 4 landing pages. -/
def tab : TableEntry := ⟨5, 0, BitVec.ofNat 64 (4 * 2 ^ 32 + 3 * 2 ^ 48), 100, BitVec.ofNat 64 (100 * 2 ^ 32), 4, 0⟩
def epo (res : Nat) : Epoch := ⟨5, 1, 2, 100, res, 0, 0, zeros 16, List.replicate 16 0, [], false⟩
/-- A header at 0 with two indices at 64, rows 0 and 1 of table 5. -/
def header (op mode : Nat) : Bytes :=
  [op + 256 * mode + 65536 * 5, 2 + 2 ^ 32 * 0xFFFFFFFF, 2 ^ 63 + 64, 2 ^ 63 + 4096, 2 ^ 63 + 8192, 16, 0, 0, 2 ^ 32].flatMap (leBytes 8)
def req (op mode : Nat) (addr : Nat) : Request :=
  { id := 9, g := 0, cls := .lc, q := 0, op, addr, part := 0, reply := none, mirror := none, view := 0,
    snap := Store.empty.write 64 0 (Data.clean (header op mode)), words := [], idx := [], bags := [], rows := [], bad := 0 }
def asked (r : Request) : State :=
  { runs 0 id with tables := [tab], epochs := [epo 100], dies := [{ Die.fresh with queue := [r] }] }

theorem test_meets_RequestRouting :
    let legal := fun (op mode : Nat) =>
      let r := req op mode (2 ^ 63)
      let s := asked r
      let h := r.snap.read 64 (addr57 r.addr) 64
      let r' : Request := { r with words := leList 8 8 h.bytes }
      (0 < s.dies.length ∧ (s.die 0).queue = [r] ∧ r.mirror.isNone = true ∧ r.reply.isNone = true ∧ s.openReqs = []) ∧
      (addr57 r.addr % 64 = 0 ∧ r.addr.testBit 63 = true ∧ h.marked = false ∧ bits (r'.w 0) 7 0 = r.op) ∧
      (r'.nidx = 2 ∧ r'.mode = mode ∧ r'.fmt = 0 ∧ r'.destTile = false ∧ tab.cache = false ∧ r'.dataAddr.testBit 63 = true ∧
        r'.stride % 16 = 0 ∧ r'.unit tab ≤ r'.stride) ∧
      (s.table 0 r'.table = some tab ∧ r'.batch = 0xFFFFFFFF ∧ (s.svc 0).publishing.find? (fun x => x.1 == r'.table) = none ∧
        s.current r'.table = some (epo 100) ∧ s.epoch r'.table (epo 100).no = some (epo 100)) ∧
      (∀ x ∈ s.engines, x.replicas = []) ∧ r'.idxAddr.testBit 63 = true ∧
      (r.snap.read 64 (addr57 r'.idxAddr) (4 * 2)).marked = false ∧ (∀ pos < 2, (r.snap.read 64 (4096 + 16 * pos) 16).marked = false) ∧
      (addr57 r.addr + 64 ≤ 0x400000 ∧ addr57 r'.idxAddr + 4 * 2 ≤ 0x400000 ∧ (s.cell (s.reqPos r)).comp.lands = []) ∧
      ∀ x ∈ r'.extents tab (if r.op = 1 then 2 else 0), s.wordUnmapped 0 x.1 x.2.1 = none ∧
        (x.2.2 = true → s.wordRefused 0 x.1 x.2.1 = none)
    legal 1 2 ∧ legal 3 0 ∧
    ((asked (req 1 2 8)).die 0).queue = [req 1 2 8] ∧ addr57 (req 1 2 8).addr % 64 ≠ 0 ∧
    (asked (req 1 2 8)).posOf (req 1 2 8).g = some 0 ∧ ((asked (req 1 2 8)).cell 0).held = none := by
  and_intros <;> decide +kernel

def part (op : Nat) (items : List Item) : Part :=
  { id := 1, req := 9, part := 0, table := 5, epoch := 1, op, fmt := 0, src := 0, seq := 0, anyEpoch := false, deadline := 0, items, got := []
    slices := 0, window := 64, distinct := [], rows := [], entries := [], next := 0, skipTo := 0, applied := []
    seqSkip := false, stale := 0, range := 0, poisoned := 0, fetched := 0, done := false, status := 0 }
def engineIs (x : Engine) : State :=
  { asked (req 1 2 0) with engines := x :: List.replicate 3 .fresh, tsvc := List.replicate 16 .fresh }
def serving (p : Part) : State := engineIs { Engine.fresh with st := 1, input := [p] }
def fetch (update : Bool) : Fetch := ⟨1, 0, 0, 0, 5, 1, update, 0, true⟩
def upd : Part := { part 3 [⟨1, 2⟩] with got := [(0, 0, 0)], entries := [zeros 16] }
def fetching (p : Part) (update : Bool) : State := engineIs { Engine.fresh with st := 1, parts := [p], fetches := [fetch update] }

theorem test_meets_RowEngineSteps :
    (let s := serving (part 1 [⟨0, 0⟩])
     0 < s.engines.length ∧ s.partTable (part 1 [⟨0, 0⟩]) = some tab ∧ s.epoch 5 1 = some (epo 100) ∧ (s.engine 0).st = 1 ∧
      (s.engine 0).paused = false ∧ (s.engine 0).input = [part 1 [⟨0, 0⟩]] ∧ (s.engine 0).parts = [] ∧
      0 < (epo 100).rows ∧ 0 < (epo 100).res ∧ tab.marq = false ∧ (s.anyTable 5).map (·.marq) = some false ∧
      tab.home (some (epo 100)) 0 = 0) ∧
    (let s := serving (part 3 [⟨0, 0⟩, ⟨1, 2⟩])
     s.partTable (part 3 []) = some tab ∧ (s.engine 0).input = [part 3 [⟨0, 0⟩, ⟨1, 2⟩]] ∧ (epo 100).st = 2 ∧
      ∀ it ∈ (part 3 [⟨0, 0⟩, ⟨1, 2⟩]).items, it.row < (epo 100).rows ∧ it.row < (epo 100).res) ∧
    ((engineIs .fresh).engine 0).st ≠ 1 ∧
    (let s := fetching (part 1 []) false
     (s.engine 0).parts = [part 1 []] ∧ (s.engine 0).fetches = [fetch false] ∧ (fetch false).part = (part 1 []).id ∧
      (s.engine 0).held = [] ∧ (s.engine 0).misses = [] ∧ tab.home (some (epo 100)) (fetch false).row = 0) ∧
    (let s := fetching upd true
     (s.engine 0).parts = [upd] ∧ (s.engine 0).fetches = [fetch true] ∧ (s.engine 0).replicas = [] ∧
      (s.engine 0).mem.failed = false ∧ tab.rowOff (epo 100) 0 % s.share + tab.len ≤ s.share ∧ upd.items ≠ [] ∧
      (upd.entryAt 0).length = tab.len ∧ (epo 100).st = 2) ∧
    (let p := { part 3 [] with done := true, applied := [0, 1] }
     let o := fun (l : List Nat) => (⟨req 3 0 0, 0, 1, 0, [], [], l, [], [], [], none⟩ : OpenReq)
     let s := fun (l : List Nat) => { engineIs { Engine.fresh with parts := [p] } with openReqs := [o l] }
     ((s [0, 1]).engine 0).parts = [p] ∧ (s [0, 1]).openReqs = [o [0, 1]] ∧ (o [0, 1]).r.id = p.req ∧ (o [0, 1]).waiting = [0, 1] ∧
      (s [0]).openReqs = [o [0]] ∧ (o [0]).psns = [] ∧ (o [0]).r.stat = 0 ∧ (s [0]).posOf (o [0]).r.g = some 0 ∧
      p.applied.length < 2 ^ 24) := by
  and_intros <;> decide +kernel

def rep : Replica := ⟨5, 1, 0, [1], false, []⟩
def rw (landed : Bool) : ReplicaWrite := ⟨0, 1, 5, 1, 0, zeros 16, 0, landed⟩

theorem test_meets_Marquetry :
    (let x := { Engine.fresh with occ := 2 ^ 24, sketch := [((0, 0), 7)] }
     2 ^ 24 ≤ ((engineIs x).engine 0).occ ∧ ((engineIs x).engine 0).replicas = [] ∧ (((engineIs x).engine 0).sketch.map Prod.fst).Nodup) ∧
    (let s := { engineIs .fresh with dies := [{ Die.fresh with lookups := 2 ^ 20, sketch := [((0, 0), 7)] }] }
     0 < s.dies.length ∧ 2 ^ 20 ≤ (s.die 0).lookups ∧ ((s.die 0).sketch.map Prod.fst).Nodup) ∧
    (let s := { engineIs .fresh with countMsgs := [⟨0, 5, 0, 3⟩] }
     s.countMsgs.find? (fun c => c.home == 0) = some ⟨0, 5, 0, 3⟩ ∧ (s.anyTable 5).map (·.marq) = some false ∧ s.estimate 0 5 0 ≤ 65535) ∧
    (let s := engineIs { Engine.fresh with replicas := [rep] }
     (s.engine 0).replicas = [rep] ∧ rep.live = false ∧ rep.acks = [] ∧ s.tablePart rep.table = some 0 ∧ 0 < s.tsvc.length) ∧
    (let s := { engineIs .fresh with replWrites := [rw false] }
     s.replWrites = [rw false] ∧ (rw false).dest = 1 ∧ 1 < s.engines.length) ∧
    (let s := { engineIs { Engine.fresh with replicas := [rep] } with replWrites := [rw true], mtime := 100000 }
     (s.replWrites = [rw true] ∧ (rw true).home = 0 ∧ (s.engine 0).replicas = [rep] ∧ rep.copies = [(rw true).dest] ∧ (rw true).dest ≠ 0 ∧
      rep.table = (rw true).table ∧ s.anyTable 5 = some tab) ∧ (rw true).appliedAt + 1000 * (tab.replLag - 2) ≤ s.now (.rowEngine 0)) := by
  and_intros <;> first | exact le_now (by decide +kernel) | decide +kernel

def cold : Fetch := ⟨1, 0, 0, 0, 5, 1, false, 0, true⟩
def missing : State :=
  { engineIs { Engine.fresh with parts := [part 1 [⟨1, 1⟩]], misses := [⟨5, 1, 0, 0, [cold]⟩] } with
    epochs := [epo 0], carts := { Carts.fresh 2 with bays := [{ Bay.fresh with cmds := [⟨1, 0, 0, 0, (5, 1, 0), [], false⟩] }] } }
def page (slot : Nat) : Landing := ⟨5, slot, 1, 0, [], [], false, true, [], 0, true⟩

theorem test_meets_ColdTier :
    ((missing.engine 0).misses = [⟨5, 1, 0, 0, [cold]⟩] ∧ (missing.engine 0).parts = [part 1 [⟨1, 1⟩]] ∧ missing.anyTable 5 = some tab ∧
      missing.epoch 5 1 = some (epo 0) ∧ missing.nvmeOut 0 0 (5, 1, 0) = some 0 ∧
      ((missing.engine 0).landing.filter fun l => l.table == tab.table && !l.writing).length < tab.landing ∧
      (∀ y ∈ missing.carts.bays, y.st ≠ 6) ∧ tab.page (epo 0) cold.row = (0, 0) ∧
      tab.part < missing.tsvc.length ∧ missing.partTable (part 1 []) = some tab) ∧
    cold.deadline ≤ missing.now (.rowEngine 0) ∧
    (let s := { missing with mtime := 1 }
     (part 1 [⟨1, 1⟩]).items ≠ [] ∧ cold.part = (part 1 []).id ∧ tab.table = 5 ∧ (epo 0).no = 1 ∧ cold.update = false ∧
      (s.bay 0).cmds.map (fun c => (c.kind, c.stack, c.ref)) = [(0, 0, 5, 1, 0)]) ∧
    cold.deadline < { missing with mtime := 1 }.now (.rowEngine 0) ∧
    (∀ n, n ∈ [0, evictedSlot] → let s := engineIs { Engine.fresh with landing := [page n] }
     (s.engine 0).landing = [page n] ∧ s.nvmeOut 1 0 (5, 1, 0) = none ∧ s.power.shutting = false ∧ s.awaited 0 (page n) = false) ∧
    (let s := { engineIs .fresh with epochs := [{ epo 0 with sweep := true, st := 0 }] }
     (s.epoch 5 1).map (·.sweep) = some true ∧ s.engines.length = s.stackCount ∧ s.tablePart 5 = some 0 ∧
      (s.svc 0).aborting = none ∧ s.inUse 5 1 = false ∧ ∀ y ∈ s.tsvc, y.publishing = []) ∧
    ({ engineIs .fresh with openReqs := [⟨{ req 1 2 0 with words := [0x50000] }, 0, 1, 0, [], [], [], [], [], [], none⟩] } : State).inUse 5 1 = true := by
  and_intros <;> first | exact le_now (by decide) | decide +kernel

/-- Table 5 in a quiet partition 0, with the epochs l. -/
def tabled (l : List Epoch) : State := { asked (req 1 2 0) with epochs := l }
def staged : Epoch := { epo 100 with no := 2, st := 1 }
def bound (n : Nat) : Binding := ⟨7, 2, 0, 5, n⟩
/-- An epoch descriptor of 100 rows at device virtual address 0. -/
def described : State := { tabled [] with mem := Store.empty.write 64 0 (Data.clean (leBytes 8 100)) }
def svcIs (f : TableSvc → TableSvc) (s : State) : State := s.modSvc 0 f

theorem test_meets_TableCommands :
    (let s := tabled []
     (0 < s.tsvc.length ∧ 0 < s.parts.length ∧ (s.part 0).committing = false ∧ (s.part 0).resetting = false) ∧
      ((s.svc 0).waiting = [] ∧ (s.svc 0).aborting = none ∧ (s.svc 0).heldCmd = none ∧ s.mirrored 0 = false ∧ s.hrv.cmds = [] ∧
        s.table 0 5 = some tab ∧ (s.svc 0).busy = false ∧ (s.svc 0).publishing = [])) ∧
    (let s := described
     let d := (((s.modSvc 0 fun y => { y with lost := false, result := 0, busy := true }).tblData 1 0 5 (s.tblArg 0)).1).getD []
     (((s.modSvc 0 fun y => { y with lost := false, result := 0, busy := true }).tblData 1 0 5 (s.tblArg 0)).1).isSome = true ∧
      s.epochs = [] ∧ tab.cold = false ∧ tab.storedDefault = false ∧ bits (wordAt d 0) 31 0 = 100 ∧ 100 ≤ tab.maxRows ∧
      bits (wordAt d 1) 3 0 = 0 ∧ s.areaSize 3 0 ≠ 0 ∧ d.length = 128 ∧ tab.stacks' = [0, 1] ∧
      100 ≤ (s.areaSize 3 0 - 4096 * bits (wordAt d 4) 31 0) / tab.len * 2 ∧
      100 ≤ (s.areaSize 3 0 - 4096 * bits (wordAt d 4) 63 32) / tab.len * 2 + 1) ∧
    (let s := { tabled [epo 100, staged] with bindings := [bound 1] }
     s.staging 5 = some staged ∧ s.wouldRetire 0 5 ≤ 2 ∧ s.current 5 = some (epo 100) ∧
      ∀ y ∈ s.epochs, y.st = 3 ∨ (y.table = 5 ∧ y.st = 2) → s.isHeld y.table y.no = true) ∧
    (let s := tabled [epo 100, staged]
     s.staging 5 = some staged ∧ s.current 5 = some (epo 100) ∧ s.isHeld 5 (epo 100).no = false ∧ s.wouldRetire 0 5 ≤ 2) ∧
    (let old := fun n => { epo 100 with no := n, st := 3 }
     let s := { tabled [old 7, old 8, epo 100, staged] with bindings := [bound 1] }
     s.staging 5 = some staged ∧ 2 < s.wouldRetire 0 5) ∧
    (let b : TableEntry := { tab with table := 6 }
     let s := { tabled [staged, { staged with table := 6 }] with
       tables := [tab, b]
       mem := Store.empty.write 64 0 (Data.clean (leBytes 2 5 ++ leBytes 2 6 ++ leBytes 2 0xFFFF)) }
     (((s.modSvc 0 fun y => { y with lost := false, result := 0, busy := true }).tblData 7 0 0 (s.tblArg 0)).1) =
       some (leBytes 2 5 ++ leBytes 2 6) ∧ (s.table 0 5).isSome = true ∧ (s.table 0 6).isSome = true ∧ s.staging 5 = some staged ∧
      s.staging 6 = some { staged with table := 6 } ∧ s.wouldRetire 0 5 ≤ 2 ∧ s.wouldRetire 0 6 ≤ 2) ∧
    (let s := { tabled [epo 100] with bindings := [⟨0, 2, 0, 5, 1⟩] }
     s.bindings.length + s.batches.length < 2 ^ 31 ∧ (tabled []).current 5 = none ∧ s.tblArg 0 % 2 ^ 32 = 0 ∧
      (∃ b ∈ s.bindings, b.handle = 0 ∧ b.kind = 2 ∧ b.part = 0) ∧ (∀ y ∈ s.epochs, y.st ≠ 3)) ∧
    (let s := { tabled [{ epo 100 with st := 3 }] with bindings := [⟨0, 2, 0, 5, 1⟩] }
     (∃ b ∈ s.bindings, b.handle = 0 ∧ b.kind = 2 ∧ b.part = 0) ∧ s.openReqs = [] ∧
      ∀ b ∈ s.bindings, b.handle = s.tblArg 0 % 2 ^ 32) ∧
    ((svcIs (fun y => { y with busy := true }) (tabled [])).svc 0).busy = true := by
  and_intros <;> decide +kernel

/-- Of TableCommands, the waiting publication and the command that meets a commit. -/
theorem test_meets_publication_gate :
    (let s := svcIs (fun y => { y with waiting := [5] }) { tabled [epo 100, staged] with bindings := [bound 1] }
     (s.svc 0).waiting = [5] ∧ s.wouldRetire 0 5 ≤ 2 ∧ s.hrv.cmds = [] ∧ s.mirrored 0 = false ∧
      ∀ y ∈ s.epochs, y.st = 3 ∨ (y.table = 5 ∧ y.st = 2) → s.isHeld y.table y.no = true) ∧
    (let s := svcIs (fun y => { y with publishing := [(5, 1, [])] }) (tabled [])
     (s.svc 0).publishing ≠ [] ∧ (s.svc 0).waiting = [] ∧ (s.svc 0).aborting = none ∧ (s.svc 0).heldCmd = none) ∧
    (let s := (tabled []).modPart 0 fun x => { x with committing := true }
     (s.svc 0).busy = false ∧ 0 < s.parts.length ∧ (s.part 0).committing = true) := by
  and_intros <;> decide +kernel

/-- The end of a granule, and a whole granule, of a DEVICE frame. -/
theorem test_meets_StackReadAfterWrite :
    let s := runs 0 id
    (s.frame (63 / 2 ^ 30)).1 = 1 ∧ s.stackOf 63 < s.engines.length ∧ (s.engine (s.stackOf 63)).mem.failed = false ∧
      63 % 64 + (zeros 1).length ≤ 64 ∧ 0 % 64 + (zeros 64).length ≤ 64 ∧ (s.engine (s.stackOf 63)).mem.wcb.length < 256 ∧
      (s.engine (s.stackOf 63)).mem.dead (s.channelOf 63) = false := by
  and_intros <;> decide +kernel

def stackIs (f : Stack → Stack) : State := engineIs { Engine.fresh with mem := f Stack.fresh }

theorem test_meets_StackService :
    (let s := stackIs id
     s.stackOfGranule 0 = some 0 ∧ 0 < s.stackCount ∧ (s.engine 0).mem.failed = false ∧ (s.engine 0).mem.scrubPos + 1 < stackGranules ∧
      (∀ y ∈ (s.engine 0).mem.wcb, y.granule ≠ 0) ∧ 0 < (s.engine 0).mem.regs.length ∧
      ((s.engine 0).mem.regs.getD 0 .fresh).held = 0 ∧ (0, 0) ∉ (s.engine 0).mem.repairs ∧ s.health.suspect = false) ∧
    0 < (stackIs id).spareRows 0 0 ∧ ((stackIs id).engine 0).mem.dead ((stackIs id).granuleChannel 0) = false ∧
    (let s := stackIs fun m => { m with failed := true, lost := [0] }
     (s.engine 0).mem.dead 0 = true ∧ (s.engine 0).mem.dead (s.granuleChannel 0) = true ∧ s.stackOfGranule 0 = some 0) ∧
    (let s := stackIs fun m => { m with wcb := [⟨0, [(0, 1)], false⟩], markers := [.control] }
     (s.engine 0).mem.wcb.find? (fun y => y.granule == 0) = some ⟨0, [(0, 1)], false⟩ ∧ (s.engine 0).mem.markers = [.control]) ∧
    (let s := stackIs fun m => { m with markers := [.cell 0] }
     (s.engine 0).mem.markers = [.cell 0] ∧ s.posOf 0 = some 0 ∧ (s.cell 0).held = none) ∧
    (let s := stackIs fun m => { m with spares := [(0, 0)] }
     (s.engine 0).mem.failed = false ∧ (0, 0) ∉ (s.engine 0).mem.repairs ∧ s.spareRows 0 0 = 0) ∧
    ((engineIs { Engine.fresh with paused := true }).engine 0).paused = true := by
  and_intros <;> first
    | exact Nat.lt_of_lt_of_le Nat.zero_lt_two (Nat.le_add_right 2 _)
    | decide +kernel

def ctx (f : CmpCtx → CmpCtx) : State := { runs 0 id with cmp := [f { CmpCtx.absent 0 0 with enabled := true }] }
def busyGen : Gen := ⟨true, 1, 1, 0⟩

theorem test_meets_CompressionCommands :
    (let s := ctx id
     (s.cmpCtx 0 0).map (fun x => (x.busy, x.enabled, x.gens.length, x.freeSlot, (x.gen 0).resident)) =
       some (false, true, 8, some 0, false) ∧ (s.part 0).resetting = false ∧ (s.cmpArg 0 0).testBit 63 = false ∧
      s.unmapped 0 (addr57 (s.cmpArg 0 0)) (4096 * 16384) = none ∧
      recordValid ((s.modCmp 0 0 fun y => { y with result := 0 }).vread .control 0 0 256).1.bytes = false) ∧
    (let s := ctx fun x => { x with hist := some (List.replicate 256 1) }
     (s.cmpCtx 0 0).map (fun x => (x.hist.isSome, x.installs.isEmpty, x.freeSlot)) = some (true, true, some 0)) ∧
    (let s := ctx fun x => { x with hist := some [], gens := List.replicate 8 busyGen }
     (s.cmpCtx 0 0).map (fun x => (x.hist, x.freeSlot)) = some (some [], none)) ∧
    (let s := ctx fun x => { x with installs := [([], none)], changes := [(7, 1, 1)], installing := true }
     (s.cmpCtx 0 0).map (fun x => x.installs == [([], none)] && x.changes == [(7, 1, 1)] && x.installing) = some true) ∧
    (let s := { ctx id with mem := Store.empty.write 64 0 (Data.clean (tableRecord 0 0 0 (List.replicate 256 8))) }
     let d := ((s.modCmp 0 0 fun y => { y with result := 0 }).vread .control 0 0 256).1
     d.marked = false ∧ recordValid d.bytes = true ∧ byteAt d.bytes 2 = 0) ∧
    (let s := { ctx fun x => { x with gens := x.gens.set 1 ⟨true, 0, 0, 0⟩ } with mtime := 2000 }
     ((s.cmpCtx 0 0).map (fun x => (x.gen 1, x.current)) = some (⟨true, 0, 0, 0⟩, 0)) ∧ 0 + 2000 ≤ s.now .control) ∧
    (let s := ctx fun x => { x with busy := true }
     (s.cmpCtx 0 0).map (·.busy) = some true) ∧
    (let s := { ctx fun x => { x with gens := x.gens.set 0 ⟨true, 0, 0, 0⟩ } with
        mem := Store.empty.write 64 0 (Data.clean (tableRecord 0 0 0 (List.replicate 256 8))) }
     (s.cmpCtx 0 0).map (fun x => (x.gen 0).resident) = some true) ∧
    ((runs 0 id).cmpCtx 0 0 = none) ∧
    (let s := (ctx id).setReg (cmpBase 0 0 + 8) (2 ^ 63)
     (s.cmpCtx 0 0).map (·.enabled) = some true ∧ (s.cmpArg 0 0).testBit 63 = true) ∧
    (let s := ctx fun x => { x with enabled := false }
     (s.cmpCtx 0 0).map (·.enabled) = some false) ∧
    (let s := (ctx id).modPart 0 fun x => { x with resetting := true }
     (s.part 0).resetting = true ∧ (s.cmpCtx 0 0).map (·.busy) = some false) := by
  and_intros <;> first | exact le_now (by decide +kernel) | decide +kernel

/-- Code lengths under which a block of zeros takes 512 bytes. -/
def lens : List Nat := 1 :: List.replicate 255 9

theorem test_meets_CompressionRoundTrip :
    lens.length = 256 ∧ (∀ l ∈ lens, 1 ≤ l ∧ l ≤ 15) ∧ kraft lens ≤ 2 ^ 15 ∧ (zeros 4096).length = 4096 := by
  refine ⟨by decide +kernel, by decide +kernel, by decide +kernel, List.length_replicate ..⟩

/-! ## Translation, the image, partitions -/

def rangeWords (v n t k : Nat) : Bytes := [v, n, t, k].flatMap (leBytes 8)
/-- A range entry at device virtual address 0: 1 unit at 65536 on frame 0. -/
def entered (b : Bytes) : State := { runs 0 id with mem := Store.empty.write 64 0 (Data.clean b) }

theorem test_meets_TranslationCommands :
    (let s := entered (rangeWords 65536 1 0 9)
     let d := ((s.modXlt 0 fun y => { y with lost := false, result := 0 }).vread .control 0 (addr57 (s.xltArg 0)) 32).1
     (0 < s.xlt.length ∧ (s.xltOf 0).busy = false ∧ (s.xltArg 0).testBit 63 = false ∧ s.unmapped 0 (addr57 (s.xltArg 0)) 32 = none) ∧
      d.marked = false ∧ (∀ r ∈ s.ranges, ¬ (r.part = 0 ∧ r.idx = 1)) ∧ bits (wordAt d.bytes 1) 40 0 = 1 ∧
      bits (wordAt d.bytes 0) 40 0 = 65536 ∧ bits (wordAt d.bytes 3) 2 0 = 1 ∧ (wordAt d.bytes 3).testBit 4 = false ∧
      s.targets.good 0 1 0 1 = (1, 0) ∧ ∀ r ∈ s.ranges, r.part = 0 → 65536 + 1 ≤ r.vstart ∨ r.vstart + r.vlen ≤ 65536) ∧
    (let s := entered (rangeWords 65536 0 0 9)
     bits (wordAt ((s.modXlt 0 fun y => { y with lost := false, result := 0 }).vread .control 0 0 32).1.bytes 1) 40 0 = 0) ∧
    (let s := { runs 0 id with ranges := [] }
     (s.unmapped 0 (addr57 (s.xltArg 0)) 32).isSome = true ∧ s.findRange 0 0 = none) ∧
    ((runs 0 id).findRange 0 0).isSome = true ∧
    (((runs 0 id).modXlt 0 fun y => { y with busy := true }).xltOf 0).busy = true ∧
    Agent.cell 0 ∈ (runs 0 id).rangeAgents 0 ∧
    (let s := { runs 0 id with hif := { HostIf.fresh with up := true, cxl := true }, ranges := [⟨0, 0, 0, 1, 0, 3, false, false⟩] }
     s.hif.up = true ∧ s.hif.cxl = true ∧ (s.rangeAt 0 (addr57 0)).map (·.kind) = some 3) ∧
    (let s := { runs 0 id with hot := ⟨[], [(15, 2 ^ 36 - 1)], 0, 0, 0⟩ }
     s.hot.queue = [(15, 2 ^ 36 - 1)]) ∧ (runs 0 id).hot.queue = [] ∧
    (let r : Range := ⟨0, 0, 0, 65536, 0, 1, true, false⟩
     ({ runs 0 id with openReqs := [⟨req 1 2 0, 0, 1, 0, [r], [], [], [], [], [], none⟩] } : State).rangeInUse (.frontEnd 0) r = true) ∧
    (let r : Range := ⟨0, 0, 0, 65536, 0, 1, true, false⟩
     let s := fun (aw ak : List Agent) (a : Option Nat) => (runs 0 id).modXlt 0 fun y => { y with
       busy := true, removing := some r, awaited := aw, acks := ak, replace := a }
     (((s [.cell 0] [] none).xltOf 0).removing = some r ∧ ((s [.cell 0] [] none).xltOf 0).awaited.contains (.cell 0) = true ∧
      (s [.cell 0] [] none).rangeInUse (.cell 0) r = false) ∧
      ((s [.cell 0] [.control] none).xltOf 0).acks = [.control] ∧
      (((s [] [.control] none).xltOf 0).awaited = [] ∧ ((s [] [.control] (some 0)).xltOf 0).replace = some 0)) := by
  and_intros <;> decide +kernel

def bat (f : Batch → Batch) : Batch := f
  { handle := 1, part := 0, cls := .lc, desc := zeros 128, admitAt := 0, coldFrom := 0, coldUs := 0, path := 0, pathArg := 0, msg := 0
    running := [], jobs := 1, status := 0, cells := [0], preempted := 0, moved := 0, replays := 0, dropped := 0, firstCell := 0
    cause := 0, faulty := [], replayable := false, decided := false, replayed := false, journalSlot := none, complete := false
    doneAt := 0, subst := [], substLost := 0 }
/-- Of TranslationCommands: the halving is due, and not yet. -/
theorem test_meets_TranslationCommands_halving :
    (let s := { runs 0 id with mtime := BitVec.ofNat 64 (2 ^ 40) }
     s.hot.halved + 1000000 * bits (s.reg 0x500000) 47 32 ≤ s.now .host) ∧
    (let s := { runs 0 id with hot := ⟨[], [], 0, 0, 100⟩ }
     s.now .host < s.hot.halved + 1000000 * bits (s.reg 0x500000) 47 32) := by
  refine ⟨le_now (by decide +kernel), ?_⟩
  show 0 + Config.mtimeSkew _ % 17 < 100 + 1000000 * _
  have := Nat.mod_lt (Config.mtimeSkew .host) (show 0 < 17 by decide)
  omega

def hdr (crc : Nat) : Bytes := [0x544D5950 + 2 ^ 32 * 0x100, 512 + 2 ^ 32, 128, 0, 0, 0, 0, 0, 0, 0, 0, 0, 0, 0, 0, crc].flatMap (leBytes 8)
def goodHdr : Bytes := hdr (crc32c ((hdr 0).take 120))
def stg : Staged := ⟨false, 0, 0, 0, [], [], [], [], [], [], none, [], [], [], [], [], [], [], [], []⟩
def imageIs (f : Image → Image) : State := { runs 0 id with image := f (runs 0 id).image }
def reading (b : Bytes) (up : Bool) : State := ({ imageIs (fun i => { i with st := 1, busy := true }) with
  hif := { HostIf.fresh with up := up }
  power := { Power.fresh 2 with imageReady := true }
  host := Store.empty.write 64 0 (Data.clean b) }).setReg 0x310 512

theorem test_meets_ImageCommands :
    (imageIs fun i => { i with busy := true }).image.busy = true ∧ (imageIs id).image.busy = false ∧
    (imageIs fun i => { i with st := 2 }).image.st = 2 ∧ (imageIs id).image.st ≠ 2 ∧
    lengthOk ((imageIs id).setReg 0x310 512 |>.reg 0x310) = true ∧ lengthOk ((imageIs id).setReg 0x310 (2 ^ 28) |>.reg 0x310) = true ∧
    lengthOk ((imageIs id).setReg 0x310 448 |>.reg 0x310) = false ∧ (imageIs id).image.staged.isNone = true ∧
    (let s := imageIs fun i => { i with st := 2, staged := some stg }
     s.image.staged = some stg ∧ s.pairCommit stg = false ∧ s.parts.length = 16 ∧ stg.part < 16) ∧
    (let s := { imageIs fun i => { i with st := 2, staged := some stg } with hrv := { Horvi.fresh with st := 4, mask := 1, policy := true } }
     s.pairCommit stg = true) ∧
    (let s := reading goodHdr true
     (s.image.st = 1 ∧ s.power.imageReady = true ∧ s.hrv.cmds = [] ∧ s.hif.up = true ∧ (s.host.read 64 0 128).marked = false) ∧
      headerOk (s.host.read 64 0 128).bytes (s.reg 0x310) = true ∧ (s.host.read 64 0 512).marked = false ∧
      s.signatureOk (s.host.read 64 0 512).bytes = false) ∧
    headerOk ((reading (hdr 0) true).host.read 64 0 128).bytes 512 = false ∧ (reading goodHdr false).hif.up = false := by
  and_intros <;> decide +kernel

/-- The image of goodHdr signed under FIPS 186-5 with the private key 0x1234567890abcdef1234567890abcdef. -/
def key0 : Bytes := 4 :: beBytes 48 0xbfd152465458e5b9f1a903eafef03095ebfd52c5f9ea97be74de9194355fcfb40ec097315adf6afdefba21f44b625b48 ++
  beBytes 48 0x17058eff9a1ad175a4675e9c730cb028ec76aec544f7a56d58164d8cfc0402b489c4e74c918dc3a77f5c219d31b8e245
def signed : Bytes := goodHdr ++ zeros 256 ++ leBytes 8 (0x47495350 + 2 ^ 32) ++ zeros 8 ++
  beBytes 48 0x171ec1c947c21526323f3a1a2c597910c554e076ab58a5325d9ef0169cdd4f075364dd9e2f11f7732675161a5b8c3678 ++
  beBytes 48 0xb956786eea31bde6d42795cd710c855c18a301e44f46d323338cdc6330271e58aadc85bf4ecf0eeb884f193b56c503dd ++ zeros 16

/-- FIPS 180-4: the digest of "abc". -/
theorem test_sha384_abc : sha384 [0x61, 0x62, 0x63] = beBytes 48
    0xcb00753f45a35e8bb5a03d699ac65007272c32ab0eded1631a8b605a43ff5bed8086072ba1e7cc2358baeca134c825a7 := by decide +kernel

/-- The signature verifies, and with another key it does not (R287). -/
theorem test_meets_ImageCommands_signature :
    ({ reading signed true with power := { Power.fresh 2 with keys := [some key0] } } : State).signatureOk signed = true ∧
    headerOk (signed.take 128) signed.length = true ∧
    ({ reading signed true with power := { Power.fresh 2 with keys := [some (4 :: zeros 96)] } } : State).signatureOk signed = false := by
  and_intros <;> decide +kernel

theorem test_meets_ImageCommit :
    (let s := imageIs fun i => { i with st := 3, busy := true, staged := some stg }
     (s.image.staged = some stg ∧ s.image.st = 3 ∧ stg.part < 16 ∧ s.parts.length = 16 ∧ s.image.applying = false ∧
      s.image.waitPartner = false ∧ (s.part 0).resetting = false ∧ s.batches = [] ∧ (s.svc 0).busy = false)) ∧
    (let s := imageIs fun i => { i with st := 3, staged := some stg, waitPartner := true, closedAt := 2 ^ 40 }
     s.image.waitPartner = true ∧ s.image.applying = false) ∧
    (let s := { imageIs fun i => { i with st := 3, staged := some stg } with batches := [bat fun b => { b with running := [0] }] }
     ∃ b ∈ s.batches, b.part = stg.part ∧ b.running ≠ []) ∧
    (let s := { imageIs fun i => { i with st := 3, staged := some stg } with mtime := BitVec.ofNat 64 (2 ^ 40) }
     s.image.closedAt + 1000000 * bits (s.reg 0x320) 13 0 ≤ s.now .control) ∧
    (let s := imageIs fun i => { i with st := 3, busy := true, staged := some stg, applying := true }
     s.image.applying = true ∧ s.image.removing = [] ∧ ∀ p < 16, (s.svc p).heldCmd = none) := by
  and_intros <;> first | exact le_now (by decide +kernel) | decide +kernel

/-- One descriptor for the cells of a mask waits in the LC ring of partition 0. -/
def submitted (mask : Nat) (f : Partition → Partition) : State :=
  (({ runs 0 id with
      hif := { HostIf.fresh with up := true }
      host := Store.empty.write 64 0 (Data.clean (zeros 32 ++ leBytes 8 mask)) }).setReg (partBase 0 + 0x18) 0x14).modPart 0 fun u =>
    f { u with defined := true, opened := true, lcTail := 1 }

theorem test_meets_BatchAdmission :
    ((runs 0 id).ringReady 0 false = false ∧ (runs 0 id).ringReady 0 true = false) ∧
    (let s := submitted 1 id
     (s.ringReady 0 false = true ∧ s.parts.length = 16 ∧ (s.part 0).waits = [] ∧ (s.part 0).defined = true ∧ (s.part 0).drained = false ∧
      s.power.suspectHold = false ∧ (s.part 0).opened = true ∧ s.room 0 .lc = true) ∧
      (s.host.read 64 0 128).marked = false ∧ (descCells (s.host.read 64 0 128).bytes).filter (s.owns 0) = [0] ∧
      s.mirrored 0 = false ∧ s.bindings.length + s.batches.length < 2 ^ 31) ∧
    (let s := submitted 2 id
     (descCells (s.host.read 64 0 128).bytes).filter (s.owns 0) = []) ∧
    ((submitted 1 fun u => { u with defined := false }).part 0).defined = false ∧
    ((submitted 1 fun u => { u with drained := true }).part 0).drained = true ∧
    ((submitted 1 fun u => { u with opened := false }).part 0).opened = false ∧
    (let s := { submitted 1 id with host := { (submitted 1 id).host with poison := [0] } }
     (s.host.read 64 0 128).marked = true) := by
  and_intros <;> decide +kernel

def completing (f : Batch → Batch) (held : List (Nat × Bytes)) : State :=
  (({ runs 0 id with hif := { HostIf.fresh with up := true }, batches := [bat f] }).setReg (partBase 0 + 0x38) 0x14).modPart 0 fun u =>
    { u with held := held }

theorem test_meets_BatchCompletion :
    (let s := completing id []
     s.batch 1 = some (bat id) ∧ (bat id).part < 16 ∧ s.parts.length = 16 ∧ s.engines.length = s.stackCount ∧
      s.batchReady (bat id) = true ∧ (bat id).path < 2 ∧ s.cqRoom 0 1 = true) ∧
    (let s := { completing id [] with hif := .fresh }
     s.batchReady (bat id) = true ∧ s.cqRoom 0 1 = false) ∧
    (let s := completing (fun b => { b with complete := true }) [(1, [])]
     (s.part 0).held = [(1, [])] ∧ s.cqRoom 0 1 = true ∧ wordAt (bat id).desc 3 = 0 ∧ s.hif.sriov = false ∧
      (bat id).journalSlot = none ∧ (bat id).status < 256 ∧ (bat id).jobs < 65536) ∧
    (bat fun b => { b with running := [0] }).running ≠ [] := by
  and_intros <;> decide +kernel

def jb (cls : Cls) : Job := ⟨2, cls, 0, 0, 0, false⟩
/-- Cell 0 idle with a start queue, or as f leaves it; SPARE position 1 beside it. -/
def idle (f : Cell → Cell) : State :=
  { runs (stp 8 0) (fun c => f { c with st := 0, job := none, startQ := [jb .lc] }) with
    cells := [f { runner (stp 8 0) with st := 0, job := none, startQ := [jb .lc] }, { Cell.fresh 36 with st := 6 }] }

theorem test_meets_CellScheduling :
    (let s := idle id
     (s.posOf 0 = some 0 ∧ (s.cell 0).part = some 0 ∧ 0 < s.parts.length ∧ bits (s.reg (faultBase + 0x100)) 4 0 = 0) ∧
      ((s.cell 0).st = 0 ∧ (s.cell 0).job = none ∧ (s.cell 0).susp = none ∧ (s.cell 0).startQ = [jb .lc]) ∧
      (((s.cell 0).ctx .lc).heldOverflow = none ∧ ((s.cell 0).ctx .lc).owedAny = [] ∧ ((s.cell 0).ctx .lc).queues.length = 16 ∧
        (((s.cell 0).ctx .lc).queue 15).owed = 0 ∧
        (((s.cell 0).ctx .lc).queue 15).toks.length < min 64 (((s.cell 0).ctx .lc).queue 15).depth)) ∧
    (let s := idle fun c => { c with startQ := [jb .be] }
     (s.cell 0).startQ.head? = some (jb .be) ∧ ∀ x ∈ (s.cell 0).startQ, x.cls = .be) ∧
    (let s := idle fun c => { c with st := 2, job := some (jb .be), held := some ⟨stp 8 0, 0, none⟩, pend := { c.pend with preempt := true } }
     (s.cell 0).job = some (jb .be) ∧ (s.cell 0).startQ = [jb .lc] ∧ (jb .lc).behindBe = false ∧ s.heldAtLayer 0 = true ∧
      (s.cell 0).pend.preempt = true) ∧
    (let s := idle fun c => { c with startQ := [jb .be, jb .lc] }
     (s.cell 0).startQ = [jb .be] ++ jb .lc :: []) ∧
    (let s := idle fun c => { c with st := 8, pend := { c.pend with drain := true } }
     (s.cell 0).st = 8 ∧ (s.cell 0).job = none ∧ (s.cell 0).pend.drain = true ∧ (s.cell 0).susp = none) ∧
    (let s := idle fun c => { c with st := 0, susp := some (jb .be), startQ := [] }
     (s.cell 0).susp = some (jb .be) ∧ (s.cell 0).job = none ∧ (s.cell 0).be.heldOverflow = none) ∧
    (let s := (idle id).modJig 0 fun j => { j with pending := true }
     (s.spareOf 0 = some 1 ∧ s.dieTesting 0 = false ∧ 0 < s.health.jigs.length ∧ (s.jig 0).pending = true) ∧ (s.jig 0).due ≤ s.now (.cell 0)) ∧
    ((runs 0 id).spareOf 0 = none) ∧ ((idle fun c => { c with st := 8 }).cell 0).st = 8 ∧
    ((idle fun c => { c with st := 8, job := some (jb .lc) }).cell 0).job = some (jb .lc) := by
  and_intros <;> first | exact le_now (Nat.zero_le _) | decide +kernel

/-- The slice limit of R315, reached and not yet reached. -/
theorem test_meets_slice_limit :
    let s := fun (a t : Nat) => { idle (fun c => { c with st := 1, job := some (jb .be), pend := { c.pend with sliceStart := a } }) with
      mtime := BitVec.ofNat 64 t }
    ((s 0 20001).now (.cell 0) - ((s 0 20001).cell 0).pend.sliceStart > 1000 * ((s 0 20001).part 0).sliceUs) ∧
    ((s 17 0).now (.cell 0) - ((s 17 0).cell 0).pend.sliceStart < 1000 * ((s 17 0).part 0).sliceUs) := by
  have h : ∀ n : Nat, n % 17 < 17 := fun n => Nat.mod_lt _ (by decide)
  constructor
  · show 20000 < 20001 + Config.mtimeSkew _ % 17 - 0
    omega
  · show 0 + Config.mtimeSkew _ % 17 - 17 < 20000
    omega

/-! ## The host, the network, Horvi pairs -/

def hostUp (s : State) : State := { s with hif := { s.hif with up := true } }
def xfer (kind : Nat) : AsyncOp := ⟨3, kind, 0, .lc, 0, 64, 64, Data.clean (zeros 64), 0⟩
def moving (kind : Nat) : State := hostUp (runs 0 fun c => { c with open_ := [xfer kind] })
def rbe : RbEntry := ⟨0, 16, zeros 256, 0⟩

theorem test_meets_HostAccesses :
    (let s := runs 0 id
     64 % 64 = 0 ∧ (zeros 64).length = 64 ∧ 64 < s.devEnd ∧ (s.frame (64 / 2 ^ 30)).1 = 1 ∧
      (s.engine (s.stackOf 64)).mem.failed = false ∧ s.mirrors = false ∧ (∀ x ∈ s.bar2Buf 0, x.block ≠ 64 / 256) ∧
      (∀ e ∈ s.engines, e.mem.wcb = [] ∧ e.mem.failed = false)) ∧
    (let s := runs 0 id
     s.devEnd ≤ s.devEnd ∧ s.devEnd % 2 ^ 30 + (zeros 1).length ≤ 2 ^ 30 ∧ (s.frame 1).1 ≠ 1 ∧ (s.frame 1).1 ≠ 2) ∧
    (let s := { runs 0 id with hif := { HostIf.fresh with bufs := [(0, [rbe])] } }
     (s.bar2Buf 0).find? (fun x => x.block == 255 / 256) = some rbe ∧ 255 % 256 + 1 ≤ 256) ∧
    (let s := moving 0x90
     s.posOf 0 = some 0 ∧ (s.cell 0).transfer = some (xfer 0x90) ∧ (s.cell 0).held = none ∧ s.hif.up = true) ∧
    ((moving 0x91).cell 0).transfer = some (xfer 0x91) ∧
    (xfer 0x90).since + 1000000 * bits (({ moving 0x90 with mtime := BitVec.ofNat 64 (2 ^ 40) } : State).reg 0x100008) 6 0 ≤
      ({ moving 0x90 with mtime := BitVec.ofNat 64 (2 ^ 40) } : State).now .host ∧
    ((runs 0 id).engine ((runs 0 id).stackOf 64)).mem.dead ((runs 0 id).channelOf 64) = false := by
  and_intros <;> first | decide +kernel | exact le_now (by decide +kernel)

/-- The clock is at most 16 ns ahead of MTIME, so that an entry filled at 16 is still fresh. -/
theorem test_meets_read_buffer : (runs 0 id).now .host ≤ rbe.fill + 10000 := by
  have : Config.mtimeSkew .host % 17 < 17 := Nat.mod_lt _ (by decide)
  show 0 + Config.mtimeSkew .host % 17 ≤ 16 + 10000
  omega

def slotIs (f : MbxSlot → MbxSlot) : State :=
  (({ hostUp (runs 0 id) with hif := { (hostUp (runs 0 id)).hif with slots := f MbxSlot.fresh :: List.replicate 63 .fresh } }).setReg
    0x200000 1)
def reqData (op : Nat) : Bytes := leBytes 8 op ++ zeros 248

theorem test_meets_Mailbox :
    (let s := slotIs id
     0 < s.hif.slots.length ∧ (s.mbx 0).device = false ∧ s.mbxOn = true ∧ 0 + (zeros 256).length ≤ 256 ∧ (s.mbx 0).reply = none ∧
      byteAt (zeros 4) 0 % 64 = 0 ∧ byteAt (s.mbx 0).data 0 ≠ 1) ∧
    (let s := slotIs fun x => { x with data := reqData 1 }
     byteAt (s.mbx 0).data 0 = 1 ∧ s.mbxOwner 0 < s.parts.length) ∧
    (runs 0 id).mbxOn = false ∧
    (let s := slotIs fun x => { x with data := reqData 2, device := true, rung := true }
     s.hif.up = true ∧ s.mbxOn = true ∧ (s.mbx 0).device = true ∧ (s.mbx 0).data.length = 256 ∧ s.hif.sriov = false ∧
      (s.mbx 0).rung = true ∧ byteAt (s.mbx 0).data 0 = 2) ∧
    (let s := slotIs fun x => { x with data := reqData 3, device := true, rung := true }
     byteAt (s.mbx 0).data 0 ≠ 1 ∧ byteAt (s.mbx 0).data 0 ≠ 2) ∧
    (let s := slotIs fun x => { x with data := reqData 1, device := true, reply := some (zeros 64) }
     (s.mbx 0).reply = some (zeros 64) ∧ (s.mbx 0).handle = none ∧ leNat (((s.mbx 0).data.drop 16).take 2) = 0) ∧
    (let w : Submission := ⟨2, 0, 0, .lc, zeros 32 ++ leBytes 8 1, 0⟩
     let s := (slotIs fun x => { x with device := true }).modPart 0 fun u => { u with defined := true, opened := true, waits := [w] }
     (s.parts.length = 16 ∧ (s.part 0).waits = [w] ∧ (∀ q < 16, q ≠ 0 → (s.part q).waits = []) ∧ s.ringReady 0 false = false ∧
      (s.part 0).defined = true ∧ (s.part 0).drained = false ∧ s.power.suspectHold = false ∧ s.room 0 .lc = true) ∧
      s.mirrored 0 = false ∧ 0 ∈ descCells w.desc ∧ s.owns 0 0 = true) := by
  and_intros <;> decide +kernel

def copyDesc (op len : Nat) : Bytes := [op, 0, 2 ^ 20, len, 0, 0, 0, 0].flatMap (leBytes 8)
/-- One descriptor waits in the ring of copy engine 0. -/
def copying (d : Bytes) : State :=
  (({ hostUp (runs 0 id) with host := Store.empty.write 64 0 (Data.clean d) }).setReg (ceBase 0 + 8) 0x14).modCe 0 fun c =>
    { c with tail := 1 }
def toCell : Range := ⟨0, 0, 0, 64, 0x10000000, 2, true, false⟩
def act : CeDesc := ⟨0, [1, 0, 0, 64, 0, 0, 0, 0].flatMap (leBytes 8), 0, 0, false, Data.clean (zeros 64), [toCell]⟩
def landed (d : CeDesc) : State := (hostUp (runs 0 id)).modCe 0 fun c => { c with active := [d], taken := 1, tail := 1 }

theorem test_meets_CopyEngines :
    (let s := copying (copyDesc 1 64)
     0 < s.ces.length ∧ (s.ceNext 0).isSome = true ∧ (s.ceNext 0).map (s.ceCheck 0) = some 0 ∧
      (s.ceNext 0).map (fun d => bits (wordAt d.desc 0) 7 0) = some 1) ∧
    (let s := copying (copyDesc 1 0)
     (s.ceNext 0).map (fun d => decide (s.ceCheck 0 d ≠ 0)) = some true) ∧ (runs 0 id).ceNext 0 = none ∧
    (let s := copying (copyDesc 0 0)
     (s.ceNext 0).map (fun d => (bits (wordAt d.desc 0) 7 0, bits (wordAt d.desc 0) 12 9, s.ceCheck 0 d)) = some (0, 0, 0) ∧
      (s.ce 0).active = []) ∧
    (let s := landed act
     ((s.ce 0).active = [act] ∧ s.hif.up = true ∧ act.status = 0 ∧ bits (wordAt act.desc 0) 7 0 = 1 ∧ bits (wordAt act.desc 0) 12 9 = 0 ∧
      s.mirrors = false ∧ bits (wordAt act.desc 3) 31 0 = 64 ∧ act.snap.length = 64) ∧
      act.snap = s.host.read 64 (wordAt act.desc 1) 64 ∧ toCell.part = s.cePart 0 act ∧ toCell.lo ≤ addr57 (wordAt act.desc 2) ∧
      addr57 (wordAt act.desc 2) + 64 ≤ toCell.hi ∧
      toCell.target (addr57 (wordAt act.desc 2)) = 0x100000000000 + 0x400000 * 0 + 0 ∧ s.posOf 0 = some 0) ∧
    (let d := { act with status := 1 }
     ((landed d).ce 0).active = [d] ∧ d.status ≠ 0 ∧ d.status < 256) := by
  and_intros <;> decide +kernel

/-- A copy into DEVICE memory, and one from it to the host. -/
def toMem : Range := ⟨0, 0, 0, 1, 0, 1, true, false⟩
def actMem : CeDesc := { act with rngs := [toMem] }
def fromMem : State := (hostUp (ranged 0 toMem)).modCe 8 fun c => { c with active := [actMem], taken := 1, tail := 1 }

theorem test_meets_CopyEngines_memory :
    (let s := landed actMem
     actMem.snap = s.host.read 64 (wordAt actMem.desc 1) 64 ∧ toMem.part = s.cePart 0 actMem ∧ toMem.kind = 1 ∧ toMem.write = true ∧
      toMem.lo ≤ addr57 (wordAt actMem.desc 2) ∧ addr57 (wordAt actMem.desc 2) + 64 ≤ toMem.hi ∧
      (∀ x ∈ s.engines, x.mem.failed = false ∧ x.mem.lost = []) ∧ ∀ x < 64, s.stackOf x < s.engines.length) ∧
    ((fromMem.ce 8).active = [actMem] ∧ fromMem.hif.up = true ∧ actMem.status = 0 ∧
      (({ fromMem with ranges := actMem.rngs } : State).vread (.copyEngine 8) 0 (addr57 (wordAt actMem.desc 1)) 64).1 = actMem.snap) := by
  and_intros <;> decide +kernel

theorem test_meets_HostLink :
    (let s := hostUp (runs 0 id)
     s.parts.length = 16 ∧ s.ces.length = 16 ∧ s.hif.up = true ∧ s.power.running = 0) ∧
    (runs 0 id).hif.up = false ∧
    (let s := { runs 0 id with hif := { HostIf.fresh with configReady := true } }
     s.hif.up = false ∧ s.hif.configReady = true ∧ (∀ k < 16, (s.ce k).st ≠ 2) ∧ 16 ∈ [1, 4, 8, 16]) ∧
    (let d := fun (flag : Nat) => ({ act with desc := [1 + 256 * flag, 0, 0, 64, 0, 0, 0, 0].flatMap (leBytes 8) } : CeDesc)
     let s := fun (flag : Nat) => ({ runs 0 id with hif := { HostIf.fresh with configReady := true } } : State).modCe 0 fun c =>
       { c with st := 2, affected := [d flag] }
     ((s 1).ce 0).st = 2 ∧ (∀ d ∈ ((s 1).ce 0).affected, (wordAt d.desc 0).testBit 8 = true) ∧
      ∃ d ∈ ((s 0).ce 0).affected, (wordAt d.desc 0).testBit 8 = false) ∧
    (let s := { hostUp (runs 0 id) with power := { Power.fresh 2 with boot := 1 } }
     1 ≤ s.power.running) ∧
    (let s := { runs 0 id with power := { Power.fresh 2 with perstN := false, pwrGood := true } }
     s.power.perstN = false ∧ s.power.pwrGood = true ∧ s.power.running = 0) ∧
    (Power.fresh 2).perstN = true ∧ ({ Power.fresh 2 with perstN := false }).pwrGood = false ∧
    (let s := { runs 0 id with hif := { HostIf.fresh with up := true, sriov := true } }
     s.hif.up = true ∧ s.hif.sriov = true ∧ s.ceOwner 0 ≠ 16 + 15) ∧
    (let s := (runs 0 id).setReg (ceBase 0 + 0x20) 31
     s.ceOwner 0 = 16 + 15) := by
  and_intros <;> decide +kernel

/-! ### The network: a CN9624 with connection 5 up on port 0 -/

def upPort : Port := { Port.fresh with up := true }
def onNet (cfg : Nat) (f : Net → Net) : State :=
  ((({ runs 0 id with model := 1, dies := List.replicate 4 .fresh, net := f { Net.fresh 1 with
        ports := [upPort, upPort]
        conns := [{ Conn.fresh 5 with st := 1 }] } }).setReg 0x3400000 1).setReg 0x3400020 (20 + 3 * 2 ^ 16)).setReg
    (peerBase 5 + 0x10) cfg
/-- Every permission, ports 0 and 1, partition 0. -/
def allCfg : Nat := 1 + 0xFC0 + 2 ^ 20 * 3
def frame (type psn : Nat) (last : Bool) (addr msg : Nat) (p : Bytes) : Frame :=
  ⟨BitVec.ofNat 64 (1 + 16 * type + 2 ^ 9 * b2n last + 2 ^ 12 * 5 + 2 ^ 32 * psn), BitVec.ofNat 64 (2 ^ 48 * msg), BitVec.ofNat 64 addr, 0, p⟩
def conn (f : Conn → Conn) : Net → Net := fun n => { n with conns := [f { Conn.fresh 5 with st := 1 }] }

theorem test_meets_NetConnections :
    (let s := onNet allCfg id
     let f := frame 1 1 false 0 0 []
     (s.netOn = true ∧ (s.port 0).up = true ∧ f.version = 1 ∧ f.type = 1 ∧ f.conn = 5) ∧
      ((s.peerCfg 5).testBit 0 = true ∧ (s.conn 5).st = 1 ∧ (s.conn 5).unacked = [] ∧ f.psn ≠ (s.conn 5).rx ∧
        (s.connPort 5).isSome = true)) ∧
    (let s := onNet allCfg id
     let f := frame 12 0 false 0 0 []
     f.type = 12 ∧ f.psn = (s.conn 5).rx ∧ f.isLast = false) ∧
    ((onNet 0 id).peerCfg 5).testBit 0 = false ∧
    (let x := frame 1 0 true 0 0 []
     let s := onNet allCfg (conn fun c => { c with unacked := [x] })
     let a : Frame := { frame 10 0 true 0 0 [] with w1 := 1 }
     let n : Frame := frame 11 0 true 0 0 []
     ((s.conn 5).unacked = x :: [] ++ [] ∧ (s.conn 5).waiting = [] ∧ (a.ackPsn - x.psn).toNat = 0 + 1 ∧ a.type = 10) ∧
      n.type = 11 ∧ n.ackPsn = x.psn ∧ (s.conn 5).tries < s.retries) ∧
    (let s := onNet allCfg (conn fun c => { c with unacked := [frame 1 0 true 0 0 []], tries := 3 })
     s.retries ≤ (s.conn 5).tries) ∧
    (let s := { onNet allCfg (conn fun c => { c with unacked := [frame 1 0 true 0 0 []] }) with mtime := 20000 }
     (s.conn 5).unacked ≠ [] ∧ (s.conn 5).oldest + s.rto ≤ s.now .network) ∧
    ((onNet allCfg (conn fun c => { c with st := 2 })).conn 5).st = 2 ∧ (onNet allCfg id).net.ports ≠ [] ∧
    (let s := onNet allCfg id
     s.portUp 0 = true ∧ (s.reg 0x3400000).testBit 1 = false ∧ s.reg 0x3400010 + 2 ^ 64 * s.reg 0x3400018 < 2 ^ 128 ∧
      (∀ x ∈ s.net.conns, x.waiting = []) ∧ (s.port 0).dead = false) ∧
    ((onNet allCfg id).setReg 0x3400000 3 |>.reg 0x3400000).testBit 1 = true ∧
    (let s := { onNet allCfg (fun n => { n with ports := [.fresh] }) with power := { Power.fresh 1 with memReady := true } }
     0 < s.net.ports.length ∧ (s.port 0).up = false ∧ (s.port 0).dead = false ∧ (s.port 0).lowPower = false ∧ s.power.memReady = true) ∧
    (let s := (onNet allCfg id).setReg 0x3400030 1
     (s.reg 0x3400030).testBit 0 = true ∧ s.portUp (bits (s.reg 0x3400030) 4 1) = true) ∧
    (let s := { onNet allCfg (fun n => { n with ptpLocked := true }) with mtime := BitVec.ofNat 64 8000000000 }
     s.net.ptpLocked = true ∧ s.net.ptpLast + 8000000000 ≤ s.now .network) := by
  and_intros <;> first | with_reducible exact le_now (by decide +kernel) | exact le_now (by decide +kernel) | decide +kernel

/-- Of NetConnections: a retry timer at its limit with frames to send again, one not yet due, a NAK at the retry limit. -/
theorem test_meets_NetConnections_more :
    (let s := { onNet allCfg (conn fun c => { c with unacked := [frame 1 0 true 0 0 []] }) with mtime := 20000 }
     (s.conn 5).tries < s.retries ∧ (s.connPort 5).isSome = true ∧ (s.conn 5).waiting = []) ∧
    (let s := onNet allCfg (conn fun c => { c with unacked := [frame 1 0 true 0 0 []], tries := 3 })
     (s.conn 5).unacked = [frame 1 0 true 0 0 []] ∧ (frame 11 0 true 0 0 []).ackPsn = (frame 1 0 true 0 0 []).psn ∧
      s.retries ≤ (s.conn 5).tries) ∧
    ((onNet allCfg id).peerCfg 5).testBit 0 = true := by
  and_intros <;> decide +kernel

/-- A window of partition 0 on cell 0's scratchpad, from address 0. -/
def windowed (s : State) : State := { s with ranges := [toCell] }
def sending (op loc len cfg extra : Nat) : State :=
  let d := [op + 2 ^ 8 * 5 + 2 ^ 32 * len, loc, 0x200000, 0x300000, 0x301000, extra].flatMap (leBytes 8)
  let s := onNet cfg fun n => { n with rings := [⟨0, 0, 1⟩] }
  ({ s with mem := Store.empty.write 64 64 (Data.clean d) }).setReg (sendBase 0 + 8) 0x14
def sendOf (op loc len extra : Nat) : Send :=
  ⟨0, 0, [op + 2 ^ 8 * 5 + 2 ^ 32 * len, loc, 0x200000, 0x300000, 0x301000, extra, 0, 0].flatMap (leBytes 8), 0, 0, 0, [], 0⟩

theorem test_meets_NetMessages :
    let live := fun (s : State) (f : Frame) (n : Nat) => s.netOn = true ∧ (s.port 0).up = true ∧ f.version = 1 ∧ f.type = n ∧
      f.conn = 5 ∧ (s.peerCfg 5).testBit 0 = true ∧ (s.conn 5).st = 1 ∧ (s.conn 5).got = [] ∧ f.psn = (s.conn 5).rx ∧ f.isLast = true
    live (onNet (1 + 2 ^ 20 * 3) id) (frame 9 0 true 0 0 []) 9 ∧ ((onNet (1 + 2 ^ 20 * 3) id).peerCfg 5).testBit 11 = false ∧
    (let s := windowed (onNet allCfg id)
     let f := frame 1 0 true 0 0 (zeros 64)
     live s f 1 ∧ ((s.peerCfg 5).testBit 6 = true ∧ (s.part (s.peerPart 5)).resetting = false ∧ s.health.drainedAll = false ∧
      f.isFinal = false ∧ s.ranges = [toCell] ∧ toCell.part = s.peerPart 5 ∧ toCell.lo ≤ f.addr ∧ f.addr + 64 ≤ toCell.hi) ∧
      toCell.target f.addr = 0x100000000000 + 0x400000 * 0 + 0 ∧ s.posOf 0 = some 0 ∧ s.mirrors = false) ∧
    (let f := frame 2 0 true 0 0 (leBytes 8 64 ++ leBytes 8 0)
     live (windowed (onNet allCfg id)) f 2 ∧ f.body.marked = false ∧ wordAt f.payload 0 = 64) ∧
    wordAt (frame 2 0 true 0 0 (leBytes 8 0)).payload 0 = 0 ∧
    (let x : Send := { sendOf 2 0 64 0 with conn := 5, msg := 9, rngs := [toCell] }
     let s := windowed (onNet allCfg fun n => { n with sends := [x] })
     let f := frame 3 0 true 0 9 (zeros 64)
     live s f 3 ∧ s.net.sends = [x] ∧ x.conn = 5 ∧ x.msg = f.msg ∧ x.op = 2 ∧ x.part = s.peerPart 5) ∧
    (let s := onNet allCfg id
     let f := fun op => frame (if op = 2 then 4 else 5) 0 true 0 0 (leBytes 8 (op + 2 ^ 16 * 7) ++ zeros 56)
     (live s (f 2) 4 ∧ 64 ≤ (f 2).payload.length ∧ (f 2).w3 = 0 ∧ bits (wordAt (f 2).payload 0) 7 0 = 2) ∧
      (live s (f 1) 5 ∧ bits (wordAt (f 1).payload 0) 7 0 = 1) ∧ s.hrv.st ≠ 6 ∧
      s.peerDie (s.peerRequest 5 2 (f 2) (f 2).body).table < s.dies.length ∧ s.table 0 (s.peerRequest 5 2 (f 2) (f 2).body).table = none ∧
      (s.peerRequest 5 2 (f 2) (f 2).body).nidx ≤ 4096 ∧ (s.peerRequest 5 2 (f 2) (f 2).body).nbags ≤ 4096) ∧
    (let s := (onNet allCfg id).modPart 0 fun u => { u with defined := true }
     let f := frame 6 0 true 0 0 (zeros 128)
     live s f 6 ∧ f.payload.length = 128 ∧ s.peerPart 5 < s.parts.length ∧ (s.part 0).defined = true ∧ (s.part 0).drained = false ∧
      s.power.suspectHold = false ∧ (s.part 0).opened = false) ∧
    (let x : Send := { sendOf 1 0 64 0 with conn := 5, msg := 9, rngs := [toCell] }
     let s := windowed (onNet allCfg fun n => { n with sends := [x] })
     let f := frame 7 0 true 0 9 (zeros 16)
     live s f 7 ∧ s.hrv.probeMsg = none ∧ x.op = 1 ∧ x.compl % 16 = 0 ∧ x.compl + 16 ≤ toCell.hi ∧ toCell.lo ≤ x.compl ∧
      toCell.target x.compl = 0x100000000000 + 0x400000 * 0 + 0x300000) := by
  and_intros <;> decide +kernel

/-- Of NetMessages: a write of two frames, what is refused, and a DONE that no send awaits. -/
theorem test_meets_NetMessages_more :
    (let s := windowed (onNet allCfg (conn fun c => { c with rx := 1, got := [frame 1 0 false 0 0 (zeros 64)] }))
     let f := frame 1 1 true 64 0 (zeros 64)
     let fs := (s.conn 5).got ++ [f]
     f.psn = (s.conn 5).rx ∧ (fs.map fun h => h.payload.length).sum ≤ 2 ^ 24 ∧ ∀ h ∈ fs, toCell.lo ≤ h.addr ∧
      h.addr + h.payload.length ≤ toCell.hi ∧ toCell.target h.addr = 0x100000000000 + 0x400000 * 0 + h.addr) ∧
    ({ onNet allCfg id with ranges := [] } : State).sendCheck 0 [(0, 64, true)] ≠ 0 ∧
    ({ onNet allCfg id with ranges := [] } : State).unmapped 0 0 64 = some 0 ∧
    (((onNet allCfg id).modPart 0 fun u => { u with resetting := true }).part 0).resetting = true ∧
    (let s := { onNet allCfg id with hrv := { Horvi.fresh with st := 6, policy := true, mask := 1 } }
     s.hrv.st = 6 ∧ s.mirrored (s.peerPart 5) = true) ∧
    (let f := frame 4 0 true 0 0 (leBytes 8 (2 + 2 ^ 16 * 7) ++ leBytes 8 4097 ++ zeros 48)
     4096 < ((onNet allCfg id).peerRequest 5 2 f f.body).nidx) ∧
    (onNet allCfg id).net.sends = [] := by
  and_intros <;> decide +kernel

def grpCfg : Nat := 1 + 2 ^ 7 * 2 + 2 ^ 18 * 2 + 2 ^ 40

theorem test_meets_NetSends :
    let taken := fun (s : State) (x : Send) => s.sendRingOk 0 = true ∧ (s.sendRing 0).head ≠ (s.sendRing 0).tail ∧
      x.desc = (s.vread .network 0 (s.sendHeader 0 + 64 + 64 * (s.sendRing 0).head) 64).1.bytes ∧ x.ring = 0 ∧ x.index = 0
    taken (sending 0 0 0 allCfg 0) (sendOf 0 0 0 0) ∧ (sendOf 0 0 0 0).op = 0 ∧ (sendOf 0 0 0 0).compl % 16 = 0 ∧
    (onNet allCfg id).sendRingOk 0 = false ∧
    (let s := sending 1 0x10000 64 allCfg 0
     let x := sendOf 1 0x10000 64 0
     taken s x ∧ x.peer = 5 ∧ (s.peerCfg 5).testBit 0 = true ∧ (s.conn 5).st = 1 ∧ x.op = 1 ∧ x.lenOk = true ∧
      s.sendCheck 0 [(x.compl, 16, true), (x.loc, x.len, false)] = 0) ∧
    (let s := sending 2 0x10000 (2 ^ 24) allCfg 0
     let x := sendOf 2 0x10000 (2 ^ 24) 0
     taken s x ∧ x.op = 2 ∧ x.lenOk = true ∧ s.sendCheck 0 [(x.compl, 16, true), (x.loc, x.len, true)] = 0) ∧
    (let s := sending 6 0x10000 0 allCfg 0
     let x := sendOf 6 0x10000 0 0
     taken s x ∧ x.op = 6 ∧ s.sendCheck 0 [(x.compl, 16, true), (x.loc, 128, false), (x.aux, 64, true)] = 0) ∧
    (sendOf 1 0 8 0).lenOk = false ∧ ((sending 1 0 64 0 0).peerCfg 5).testBit 0 = false ∧
    (let h := [2, 1, 0x20000, 0x30000, 0x40000, 16, 0, 0].flatMap (leBytes 8)
     let s0 := sending 4 0x10000 0 allCfg 0
     let s := { s0 with mem := s0.mem.write 64 0x10000 (Data.clean h) }
     let x := sendOf 4 0x10000 0 0
     let r := Request.ofWords 2 x.cls (leList 8 8 h) 0
     (taken s x ∧ x.op = 4 ∧ (s.vread .network 0 x.loc 64).1.bytes = h ∧ s.sendHeader 0 + 64 ≤ x.loc ∧
      (∀ e ∈ s.engines, e.mem.wcb = [] ∧ e.mem.failed = false)) ∧
      (bits (wordAt h 0) 7 0 = 2 ∧ r.nidx = 1 ∧ r.stride = 16 ∧ r.destTile = false ∧ r.mode ≠ 3 ∧ r.stat = 0) ∧
      s.unmapped 0 x.compl 16 = none ∧ s.unmapped 0 (addr57 r.idxAddr) 4 = none ∧ s.unmapped 0 (addr57 r.dataAddr) 16 = none ∧
      s.unmapped 0 (addr57 r.dest) 16 = none) ∧
    (let s := ((sending 8 0x10000 0 allCfg (2 ^ 16 * 64)).setReg (redBase 5) grpCfg).setReg (redBase 5 + 8) 0x800
     let x := sendOf 8 0x10000 0 (2 ^ 16 * 64)
     let j := bits x.peer 5 0
     (taken s x ∧ x.op = 8 ∧ redOn (s.redCfg j) = true ∧ (s.redTree j).testBit 11 = true ∧ redPart (s.redCfg j) = 0 ∧
      x.bucket < 4096 ∧ x.count = 64) ∧ (s.bucket j x.bucket).count % redN (s.redCfg j) + 1 ≠ redN (s.redCfg j) ∧
      s.sendCheck 0 [(x.compl, 16, true), (x.loc, 4 * x.count, false), (x.remote, 4 * x.count, true)] = 0) := by
  and_intros <;> decide +kernel

/-- Of NetSends: descriptors that are refused, a poisoned one, and a REDUCE that starts its round. -/
theorem test_meets_NetSends_more :
    (let s := sending 3 0 0 allCfg 0
     s.sendRingOk 0 = true ∧ (s.sendRing 0).head ≠ (s.sendRing 0).tail ∧
      (s.vread .network 0 (s.sendHeader 0 + 64 + 64 * (s.sendRing 0).head) 64).1.bytes = (sendOf 3 0 0 0).desc ∧ (sendOf 3 0 0 0).op = 3) ∧
    (let s := sending 1 (2 ^ 40) 64 allCfg 0
     s.sendCheck 0 [((sendOf 1 (2 ^ 40) 64 0).compl, 16, true), (2 ^ 40, 64, false)] ≠ 0) ∧
    (let s := sending 1 0x10000 64 allCfg 0
     let s := { s with net := { s.net with conns := [{ Conn.fresh 5 with st := 2 }] } }
     (s.conn 5).st ≠ 1 ∧ s.sendCheck 0 [((sendOf 1 0x10000 64 0).compl, 16, true), (0x10000, 64, false)] = 0) ∧
    (let s := sending 1 0x10000 64 allCfg 0
     let s := { s with mem := s.mem.setMark 1 true }
     (s.vread .network 0 (s.sendHeader 0 + 64 + 64 * (s.sendRing 0).head) 64).1.marked = true) ∧
    (let s := (((sending 8 0x10000 0 allCfg (2 ^ 16 * 64)).setReg (redBase 5) (grpCfg - 2 ^ 18 * 2 + 2 ^ 18)).setReg (redBase 5 + 8) 0xC00).setReg
       (redBase 5 + 0x10) 0x8005
     let x := sendOf 8 0x10000 0 (2 ^ 16 * 64)
     (s.bucket 5 x.bucket).count % redN (s.redCfg 5) + 1 = redN (s.redCfg 5) ∧ redOn (s.redCfg 5) = true ∧
      (s.redTree 5).testBit 11 = true ∧ s.redKids 5 ≠ [] ∧ s.round 5 x.bucket = none ∧ s.net.rounds = [] ∧
      s.sendCheck 0 [(x.compl, 16, true), (x.loc, 256, false), (x.remote, 256, true), (x.aux, 256, true)] = 0) := by
  and_intros <;> decide +kernel

def upHead : Bytes := (RedHead.bytes ⟨0, false, false, 0, 0⟩)
def redAddr (j : Nat) : Nat := 2 ^ 22 + 2 ^ 33 + 2 ^ 48 * j
def rnd (sent : Bool) : Round :=
  ⟨3, 0, some (sendOf 8 0 0 0), List.replicate 64 0, List.replicate 64 0, 0, 0, false, false, 0, 64, 0, [], false, false, sent, none, []⟩
/-- Group 3 of two modules: peer 5 its child (a root), or its parent. -/
def grouped (tree kid : Nat) (f : Net → Net) : State :=
  (((onNet allCfg f).setReg (redBase 3) grpCfg).setReg (redBase 3 + 8) tree).setReg (redBase 3 + 0x10) kid
def redFrame (type : Nat) : Frame := frame type 0 true (redAddr 3) 0 (upHead ++ zeros 256 ++ zeros 16)

theorem test_meets_NetReductions :
    (let s := grouped 0xC00 0x8005 id
     let f := redFrame 8
     let (b, _, n, same) := redFields (s.redCfg 3) f.addr
     let h := RedHead.parse f.payload
     (bits f.addr 53 48 = 3 ∧ redOn (s.redCfg 3) = true ∧ f.w3 = 0 ∧ f.type = 8 ∧ (s.peerCfg 5).testBit 11 = true) ∧
      ((s.redKids 3).contains 5 = true ∧ (s.round 3 b).isNone = true ∧ same = true ∧ h.fail = 0 ∧ h.sel = 0 ∧ (redParse n f.body).2.2 = [])) ∧
    (let s := grouped 0x805 0 fun n => { n with rounds := [rnd true] }
     let f := redFrame 9
     let (b, _, n, _) := redFields (s.redCfg 3) f.addr
     s.redRoot 3 = false ∧ s.redParent 3 = 5 ∧ s.redKids 3 = [] ∧ s.round 3 b = some (rnd true) ∧ (rnd true).send = some (sendOf 8 0 0 0) ∧
      (redParse n f.body).2.2 = [] ∧ (rnd true).sent = true ∧ (redFrame 12).type = 12) ∧
    (let s := { grouped 0xC00 0x8005 fun n => { n with rounds := [rnd false] } with mtime := 1000 }
     (s.round 3 0 = some (rnd false) ∧ (rnd false).send.isSome = true ∧ (rnd false).sent = false ∧ 5 ∈ s.redKids 3 ∧
      (rnd false).children = []) ∧ (rnd false).startAt + 1000 * bits (s.redCfg 3) 55 40 ≤ s.now .network) ∧
    (redP grpCfg ≤ 1024 ∧ 1 ≤ redP grpCfg) ∧ (grouped 0xC00 0 id).net.ports ≠ [] ∧ portsOf (grouped 0xC00 0 id).model ≠ 0 ∧
    redOn ((onNet allCfg id).redCfg 3) = false := by
  and_intros <;> first | decide +kernel | exact le_now (by decide +kernel)

def hrv (f : Horvi → Horvi) : State :=
  { runs 0 id with model := 1, hrv := f { Horvi.fresh with st := 4, enable := true, policy := true, lanes := [true, true] } }
def hf (type pn psn arg : Nat) (p : Bytes) : Frame :=
  ⟨BitVec.ofNat 64 (1 + 16 * type + 2 ^ 16 * psn), BitVec.ofNat 64 (2 ^ 16 * pn), 0, BitVec.ofNat 64 arg, p⟩
def strs (u : List Frame) : List HrvStream := [⟨0, 0, u, [], 0⟩, .fresh, .fresh]

theorem test_meets_HorviLink :
    (let s := hrv id
     (s.hrv.streams.length = 3 ∧ s.hrv.lanes.length = 2 ∧ s.hrv.laneSeen.length = 2 ∧ s.hrv.laneBack.length = 2 ∧ s.hrv.lastPn.length = 4) ∧
      (s.hrvOn = true ∧ hrvType (hf 3 0 0 0 []) = 3 ∧ hrvPn (hf 3 0 0 0 []) ≤ 0) ∧
      (0 < hrvPn (hf 3 1 1 0 []) ∧ bits (hf 3 1 1 0 []).w0.toNat 3 0 = 1 ∧ (s.stream 0).unacked = [] ∧
        hrvPsn (hf 3 1 1 0 []) ≠ (s.stream 0).rx) ∧ s.hrv.cmds = [] ∧ s.openReqs = [] ∧ s.hrv.st = 4) ∧
    (let s := hrv fun h => { h with streams := strs [hf 3 0 0 0 []] }
     let a : Frame := { hf 9 1 0 0 [] with w0 := BitVec.ofNat 64 (1 + 16 * 9 + 2 ^ 40) }
     (s.stream 0).unacked = hf 3 0 0 0 [] :: [] ++ [] ∧ (s.stream 0).waiting = [] ∧ hrvArg a = 0 ∧ hrvType a = 9 ∧
      (hrvAckPsn a - hrvPsn (hf 3 0 0 0 [])).toNat = 0 + 1 ∧ hrvAckPsn (hf 10 1 0 0 []) = hrvPsn (hf 3 0 0 0 [])) ∧
    (let s := { hrv fun h => { h with streams := strs [hf 3 0 0 0 []] } with mtime := 3000 }
     ((s.stream 0).unacked ≠ [] ∧ s.hrv.lanes.any id = true) ∧ (s.stream 0).oldest + 3000 ≤ s.now .horvi) ∧
    (let s := { hrv fun h => { h with laneBack := [0, 0], laneSeen := [10 ^ 6, 0], lanes := [false, true] } with mtime := 10 ^ 6 }
     (s.hrv.lanes.getD 0 false = false ∧ s.hrv.lanes.any id = true) ∧ s.hrv.laneBack.getD 0 0 + 1000000 ≤ s.now .horvi) ∧
    (let s := { hrv fun h => { h with st := 1, lanes := [false, false] } with power := { Power.fresh 1 with memReady := true } }
     s.model < 2 ∧ s.hrv.enable = true ∧ s.hrv.policy = true ∧ s.power.memReady = true ∧ s.hrv.lanes = [false, false] ∧
      s.power.plugLow.contains 0 = false ∧ s.hrv.st = 1) ∧
    (let s := { hrv fun h => { h with rank := 1 } with mtime := 6000 }
     (s.hrv.st = 4 ∧ s.hrv.rank = 1) ∧ s.hrv.laneSeen.getD 0 0 + 6000 ≤ s.now .horvi) ∧
    (let s := { hrv id with net := { Net.fresh 1 with ports := [upPort] } }
     s.hrv.rank = 0 ∧ ∃ x ∈ s.net.ports, x.up = true) ∧ (hrv fun h => { h with st := 7 }).hrv.st = 7 ∧
    hrvType (hf 11 1 0 0 []) = 11 ∧
    ((hrv fun h => { h with probe := some 0 }).hrv.probe = some 0 ∧ 0 ≤ (hrv fun h => { h with probe := some 0 }).now .steward) ∧
    (hrv fun h => { h with enable := false }).hrv.enable = false := by
  and_intros <;> first | decide +kernel | exact le_now (by decide +kernel)

/-- Lane 0 has been silent for 6 µs, lane 1 has not (R377), at a clock at most 16 ns ahead of MTIME. -/
theorem test_meets_lane_down :
    let s := { hrv fun h => { h with laneSeen := [0, 6000] } with mtime := 6000 }
    s.hrv.lanes = [true, true] ∧ s.hrv.laneSeen.getD 0 0 + 6000 ≤ s.now .horvi ∧ s.now .horvi < s.hrv.laneSeen.getD 1 0 + 6000 := by
  have : Config.mtimeSkew .horvi % 17 < 17 := Nat.mod_lt _ (by decide)
  refine ⟨rfl, ?_, ?_⟩
  · show 0 + 6000 ≤ 6000 + Config.mtimeSkew .horvi % 17
    omega
  · show 6000 + Config.mtimeSkew .horvi % 17 < 6000 + 6000
    omega

def hello (rank : Nat) : Frame := hf 2 1 0 0 (leBytes 8 rank ++ leBytes 8 0 ++ ((hrv id).image.measure.flatMap fun x => (x ++ zeros 48).take 48))
def own8 : MirrorCmd := ⟨8, 0, 0, [], true⟩

theorem test_meets_HorviPair :
    let next := fun (s : State) (f : Frame) (n k : Nat) => s.hrvOn = true ∧ hrvType f = n ∧ bits f.w0.toNat 3 0 = 1 ∧
      s.hrv.lastPn.getD (2 + b2n (f.w0.toNat.testBit 9)) 0 < hrvPn f ∧ (s.stream k).unacked = [] ∧ hrvPsn f = (s.stream k).rx
    (let s := hrv fun h => { h with st := 2 }
     let w := wordAt (hello 1).payload 0
     (s.hrvOn = true ∧ s.hrv.greets = true ∧ next s (hello 1) 2 0) ∧ bits w 15 0 ≠ s.hrv.rank ∧ bits w 31 16 = s.hrv.mask ∧
      ((hello 1).payload.drop 16).take 816 = s.image.measure.flatMap (fun x => (x ++ zeros 48).take 48) ∧
      bits (wordAt (hello 0).payload 0) 15 0 = s.hrv.rank) ∧ (hrv id).hrv.greets = false ∧
    (let s := hrv fun h => { h with st := 3 }
     next s (hf 8 1 0 0 (zeros 64)) 8 0 ∧ s.hrv.st = 3 ∧ s.hrv.source = false ∧ s.hrv.syncBuf = [] ∧
      (hrvArg (hf 8 1 0 0 [])).testBit 4 = false ∧ (hrvArg (hf 8 1 0 16 [])).testBit 4 = true ∧ hrvArg (hf 8 1 0 16 []) % 16 = 0 ∧
      (hrvArg (hf 8 1 0 21 [])).testBit 4 = true ∧ hrvArg (hf 8 1 0 21 []) % 16 = 5) ∧
    (hrv fun h => { h with st := 3, syncEnd := true }).hrv.syncEnd = true ∧
    (let s := hrv fun h => { h with st := 3, source := true }
     s.hrv.source = true ∧ (s.stream 0).unacked = [] ∧ (s.stream 0).waiting = [] ∧ s.hrv.logPos ≤ s.hrv.syncPos) ∧
    (let s := { hrv id with tables := [tab], dies := List.replicate 4 .fresh }
     let f := hf 5 1 0 0 (leBytes 8 (5 + 2 ^ 12 * 3) ++ zeros 16 ++ leBytes 8 32)
     next s f 5 1 ∧ hrvArg f = 0 ∧ f.payload.length = 32 ∧ wordAt f.payload 3 ≤ 32 ∧ s.anyTable (bits (wordAt f.payload 0) 11 0) = some tab ∧
      s.peerDie 5 < s.dies.length) ∧
    (let f := hf 5 1 0 0 (zeros 24 ++ leBytes 8 64)
     f.payload.length = 32 ∧ f.payload.length < wordAt f.payload 3) ∧
    (let s := hrv id
     let f := hf 6 1 0 8 (zeros 48)
     next s f 6 0 ∧ s.hrv.st = 4 ∧ (hrvArg f).testBit 63 = false ∧ bits (hrvArg f) 7 0 = 8 ∧ s.image.st ≠ 2) ∧
    (let x := { stg with digest := zeros 48 }
     let s := { hrv id with image := { Image.fresh with st := 2, staged := some x } }
     s.hrv.cmds = [] ∧ s.image.st = 2 ∧ s.image.staged = some x ∧ x.digest = (hf 6 1 0 8 (zeros 48)).payload.take 48) ∧
    (let s := { hrv (fun h => { h with cmds := [own8] }) with image := { Image.fresh with st := 3, waitPartner := true, staged := some stg } }
     let f := hf 6 1 0 (2 ^ 63 + 8) []
     next s f 6 0 ∧ (hrvArg f).testBit 63 = true ∧ bits (hrvArg f) 7 0 = 8 ∧ s.hrv.cmds = [own8] ∧ own8.op = 8 ∧ own8.own = true ∧
      s.image.waitPartner = true ∧ s.image.staged = some stg ∧ stg.part < 16) ∧
    (let s := { hrv id with ranges := [] }
     let f := hf 7 1 0 0 (zeros 64)
     next s f 7 0 ∧ (s.refused (bits (hrvArg f) 60 57) (addr57 (hrvArg f)) f.payload.length).isSome = true) ∧
    (let s := windowed (hrv id)
     let f := hf 7 1 0 0 (zeros 64)
     s.ranges = [toCell] ∧ toCell.part = bits (hrvArg f) 60 57 ∧ toCell.lo ≤ addr57 (hrvArg f) ∧
      addr57 (hrvArg f) + f.payload.length ≤ toCell.hi ∧ s.posOf 0 = some 0) ∧
    next (hrv id) (hf 3 1 0 7 (zeros 256)) 3 0 ∧ next (hrv id) (hf 4 1 0 7 []) 4 0 ∧
    (let d := zeros 128 ++ zeros 32 ++ leBytes 8 1
     let s := (hrv fun h => { h with st := 5, toReplay := [(7, d)] }).modPart 0 fun u => { u with defined := true }
     s.hrv.toReplay = [(7, d)] ∧ bits (wordAt d 0) 35 32 = 0 ∧ (descCells ((d.drop 128).take 128)).filter (s.owns 0) = [0] ∧
      (s.part 0).defined = true ∧ (s.part 0).drained = false ∧ s.health.fatal = 0 ∧ (s.part 0).committing = false ∧
      (s.part 0).resetting = false) := by
  and_intros <;> decide +kernel

/-- Of HorviLink: a mirrored update acknowledged with its request, a GOODBYE outside the pair, a probe answered and one not yet due. -/
theorem test_meets_HorviLink_more :
    (let x := hf 5 0 0 0 []
     let o : OpenReq := ⟨req 3 0 0, 0, 1, 0, [], [], [], [], [], [hrvPsn x], some (0, 0, [])⟩
     let s := { hrv fun h => { h with streams := [.fresh, ⟨0, 0, [x], [], 0⟩, .fresh] } with openReqs := [o] }
     let f : Frame := { hf 9 1 0 1 [] with w0 := BitVec.ofNat 64 (1 + 16 * 9 + 2 ^ 40) }
     hrvArg f = 1 ∧ (s.stream 1).unacked = [x] ∧ hrvAckPsn f = hrvPsn x + 1 ∧ s.openReqs = [o]) ∧
    ((hrv fun h => { h with st := 2 }).hrv.st ≠ 3 ∧ (hrv fun h => { h with st := 2 }).hrv.st ≠ 4) ∧
    (let s := ({ onNet allCfg id with hrv := { Horvi.fresh with st := 4, probeMsg := some 7 } }).setReg 0x3600000 (5 * 2 ^ 4)
     let g := frame 7 0 true 0 7 []
     bits (s.reg 0x3600000) 13 4 = 5 ∧ s.netOn = true ∧ (s.port 0).up = true ∧ g.version = 1 ∧ g.type = 7 ∧ g.conn = 5 ∧
      (s.peerCfg 5).testBit 0 = true ∧ (s.conn 5).st = 1 ∧ g.psn = (s.conn 5).rx ∧ g.isLast = true ∧ s.hrv.probeMsg = some g.msg) := by
  and_intros <;> decide +kernel

/-- Of HorviPair: a table, an epoch, a row and a counter of the copy; commands by both ranks; a replay that finds its partition closed. -/
theorem test_meets_HorviPair_more :
    let next := fun (s : State) (f : Frame) (n k : Nat) => s.hrvOn = true ∧ hrvType f = n ∧ bits f.w0.toNat 3 0 = 1 ∧
      s.hrv.lastPn.getD (2 + b2n (f.w0.toNat.testBit 9)) 0 < hrvPn f ∧ (s.stream k).unacked = [] ∧ hrvPsn f = (s.stream k).rx
    let s := { hrv fun h => { h with st := 3 } with tables := [tab], epochs := [epo 0], dies := List.replicate 4 .fresh }
    let f := fun kind b => hf 8 1 0 (16 + kind) b
    let e := leBytes 8 5 ++ leBytes 8 1 ++ zeros 64
    (∀ k < 6, next s (f k e) 8 0 ∧ (hrvArg (f k e)).testBit 4 = true ∧ hrvArg (f k e) % 16 = k) ∧
    (bits (wordAt e 0) 11 0 = 5 ∧ s.anyTable 5 = some tab ∧ s.peerDie 5 < s.dies.length) ∧
    ((Epoch.parse e).table = 5 ∧ (s.tablePart 5).isSome = true ∧ wordAt e 0 = 5 ∧ wordAt e 1 = 1 ∧ s.epoch 5 1 = some (epo 0)) ∧
    (let c := hf 6 1 0 9 []
     next (hrv id) c 6 0 ∧ (hrv id).hrv.rank ≠ 1 ∧ (hrvArg c).testBit 63 = false ∧ bits (hrvArg c) 7 0 = 9 ∧
      bits (hrvArg (hf 6 1 0 1 [])) 7 0 = 1 ∧ (hrvArg (hf 6 1 0 (2 ^ 62 + 1) [])).testBit 62 = true ∧
      (hrv fun h => { h with rank := 1 }).hrv.rank = 1) ∧
    (let d := zeros 128 ++ zeros 32 ++ leBytes 8 1
     let s := hrv fun h => { h with st := 5, toReplay := [(7, d)] }
     s.hrv.toReplay = [(7, d)] ∧ (s.part 0).defined = false ∧ s.health.fatal = 0 ∧ (s.part 0).committing = false ∧
      (s.part 0).resetting = false ∧ (hrv id).hrv.toReplay = []) := by
  and_intros <;> decide +kernel

/-! ## Faults and health -/

def rpt (cls kind : Nat) : Report := ⟨cls, ⟨kind, 0, 0⟩, 0, none, 0, 0, 0, 0, 0, 0, false⟩
def hl (f : Health → Health) : State := { runs 0 id with health := f (Health.fresh 2) }
def inc (r : Report) : Incident := Incident.of r 3 0

theorem test_meets_FaultReports :
    (let s := hl id
     (∀ k ∈ [0x12, 0x15], (0x12 ≤ (rpt k 7).cls ∧ (rpt k 7).cls ≤ 0x15 ∧ s.health.incidents.any (fun n => n.rep.unit == (rpt k 7).unit && n.rep.cls == k) = false ∧
      s.health.incidents.length < 256)) ∧
      ((rpt 2 1).selfReport = false ∧ (s.jig 0).running = false ∧ 0 < s.health.jigs.length) ∧
      (hasLark (rpt 5 4).unit = true ∧ hasLark (rpt 8 3).unit = true ∧ hasLark (rpt 9 2).unit = true) ∧
      (0 < s.cells.length ∧ (rpt 6 1).info0.toNat < scratchSize) ∧ s.health.fatal.getLsbD 2 = false ∧
      ((s.lark (rpt 5 4).unit).permanent = false ∧ (s.lark (rpt 5 4).unit).slots = [])) ∧
    (let s := hl fun h => { h with incidents := [inc (rpt 0x12 7)] }
     s.health.incidents.any (fun n => n.rep.unit == (rpt 0x12 7).unit && n.rep.cls == 0x12) = true) ∧
    (let s := (hl id).setReg (faultBase + 0xA8) 0x101
     bits (s.reg (faultBase + 0xA8)) 2 0 ≤ 1 ∧ 1 ≤ bits (s.reg (faultBase + 0xA8)) 15 8) ∧
    (let s := { hl id with batches := [bat id] }
     (s.cell 0).job = some ⟨1, .lc, 0, 0, 0, false⟩ ∧ s.batch 1 = some (bat id)) := by
  and_intros <;> decide +kernel

/-- An incident of class 2, opened at 0, whose window closes at 20000. -/
def ringing (f : FaultRing → FaultRing) (t : Nat) : State :=
  { (hl fun h => { h with incidents := [inc (rpt 2 1)], rings := h.rings.map f }) with
    hif := { HostIf.fresh with up := true }
    mtime := BitVec.ofNat 64 t }.setReg (faultBase + 8) 1

theorem test_meets_incidents :
    (let s := { ringing id 0 with health := { (ringing id 0).health with incidents := [{ inc (rpt 2 1) with openedAt := 17 }] } }
     ∃ n, s.health.incidents[0]? = some n ∧ s.now .steward < n.openedAt + 20000) ∧
    (let s := ringing id 20000
     let n := inc (rpt 2 1)
     (s.health.incidents[0]? = some n ∧ n.openedAt + 20000 ≤ s.now .steward) ∧ ringOf n.rep.cls = 0 ∧ s.health.rings.length = 3 ∧
      (s.reg (faultBase + 8 + 0x20 * 0)).testBit 0 = true ∧ ((s.ring 0).tail - (s.ring 0).head).toNat < 4096 ∧ (s.ring 0).lost = 0 ∧
      s.hif.up = true ∧ n.rep.cls < 256 ∧ n.sev < 16 ∧ n.rep.subcode < 256 ∧ n.action < 256 ∧ n.rep.unit.kind < 256 ∧
      n.rep.unit.index < 65536 ∧ n.rep.unit.sub < 256 ∧ (n.rep.part.getD 0) < 16 ∧ n.verdict < 4 ∧ n.reporters < 65536) := by
  refine ⟨⟨_, rfl, ?_⟩, ?_⟩
  · have : Config.mtimeSkew .steward % 17 < 17 := Nat.mod_lt _ (by decide)
    show 0 + Config.mtimeSkew .steward % 17 < 17 + 20000
    omega
  · and_intros <;> first | exact le_now (by decide +kernel) | decide +kernel

theorem test_meets_FaultRecords :
    (let s := ringing (fun f => { f with held := [zeros 64] }) 0
     (s.ring 2).held = [zeros 64] ∧ s.health.rings.length = 3 ∧ (s.ring 2).lost = 0 ∧ s.hif.up = true ∧ (1#64).toNat.testBit 0 = true ∧
      BitVec.ofNat 16 (bits (1#64).toNat 31 16) = (s.ring 2).tail) ∧ ((ringing id 0).ring 2).held = [] ∧
    ((hl id).larkExists ⟨1, 0, 0⟩ = true ∧ (hl id).larkExists ⟨1, 0, 1⟩ = false ∧ (hl id).larkExists ⟨6, 0, 0⟩ = false) ∧
    ((hl id).lark ⟨1, 0, 0⟩).margins.length < 32 ∧
    (let s := hl fun h => { h with larks := [{ Lark.fresh ⟨1, 0, 0⟩ with margins := List.replicate 31 (25, 10) }] }
     (s.lark ⟨1, 0, 0⟩).margins.length < 32) ∧
    (let s := hl fun h => { h with larks := [{ Lark.fresh ⟨1, 0, 0⟩ with margins := List.replicate 32 (25, 10) }] }
     (s.lark ⟨1, 0, 0⟩).margins.length = 32) ∧
    (hl id).health.larkBusy = false ∧ (hl fun h => { h with larkBusy := true }).health.larkBusy = true := by
  and_intros <;> decide +kernel

def again (cell : Cell → Cell) (f : Batch → Batch) : State :=
  { idle cell with batches := [bat f], regs := [(faultBase + 0xA0, 2 ^ 16 + 1)] }

theorem test_meets_ReplaySteps :
    (let s := again id fun b => { b with replayable := true, faulty := [0] }
     let b := bat fun b => { b with replayable := true, faulty := [0] }
     s.batch 1 = some b ∧ b.replayable = true ∧ b.decided = false ∧ b.complete = false ∧
      (bits (s.reg (faultBase + 0xA0)) 31 16).testBit b.part = true ∧ b.replays < bits (s.reg (faultBase + 0xA0)) 1 0 ∧ s.hrv.st ≠ 6 ∧
      b.faulty = [0] ∧ s.posOf 0 = some 0 ∧ (s.cell 0).st < 4 ∧ (s.cell 0).pend.drain = false ∧ s.health.spareOnly 0 = false ∧
      s.spareOf (0 / 40) = some 1 ∧ 0 < s.health.jigs.length) ∧
    (let s := again id fun b => { b with replayable := true, replays := 1 }
     bits (s.reg (faultBase + 0xA0)) 1 0 ≤ (bat fun b => { b with replayable := true, replays := 1 }).replays) ∧
    (let s := again id fun b => { b with decided := true, replayed := true }
     let b := bat fun b => { b with decided := true, replayed := true }
     s.batch 1 = some b ∧ b.decided = true ∧ b.replayed = true ∧ b.running = [] ∧
      (∀ g ∈ b.cells, ∃ i, s.posOf g = some i ∧ (s.cell i).st ≠ 5)) ∧
    (let s := again (fun c => { c with st := 5 }) id
     (∀ g ∈ (bat id).cells, s.posOf g ≠ none) ∧ ∃ g ∈ (bat id).cells, ∃ i, s.posOf g = some i ∧ (s.cell i).st = 5) ∧
    (let s := again (fun c => { c with logical := none }) id
     ∃ g ∈ (bat id).cells, s.posOf g = none) ∧
    (bat id).decided = false ∧ (bat id).replayable = false ∧
    (let s := idle fun c => { c with st := 1, job := some { jb .lc with handle := 1 }, pend := { c.pend with shadow := true, shadowCrc := [7] } }
     s.posOf 0 = some 0 ∧ (s.cell 0).pend.shadowCrc = 7 :: [] ∧ (s.cell 0).held = none ∧ (s.cell 0).st < 4 ∧
      (s.cell 0).job = some { jb .lc with handle := 1 } ∧ ({ jb .lc with handle := 1 } : Job).handle = 1 ∧ s.spareOf (0 / 40) = some 1) ∧
    ((idle id).cell 0).pend.shadowCrc = [] := by
  and_intros <;> decide +kernel

/-! ## Jigs -/

/-- Position 0 under test by its jig. -/
def jigged (f : Cell → Cell) (j : Jig → Jig) : State :=
  ((idle fun c => f { c with st := 5 }).modJig 0 fun x => j { x with running := true }).setReg (faultBase + 0xA8) (2 ^ 16 * 3)

theorem test_meets_JigSteps :
    (let s := jigged id id
     ((s.cell 0).st = 5 ∧ (s.jig 0).running = true ∧ 0 < s.cells.length ∧ 0 < s.health.jigs.length ∧ s.health.shadowPairs = []) ∧
      (s.jig 0).fails = 0 ∧ (s.jig 0).refCls = 0 ∧ (s.lark ⟨1, 0, 0⟩).permanent = false ∧
      (s.jig 0).fails + 1 < bits (s.reg (faultBase + 0xA8)) 18 16 ∧ (s.cell 0).logical = some 0 ∧ s.spareOf (0 / 40) = some 1) ∧
    (let s := jigged id fun j => { j with fails := 2 }
     (s.cell 0).logical = some 0 ∧ bits (s.reg (faultBase + 0xA8)) 18 16 ≤ (s.jig 0).fails + 1) ∧
    (let s := jigged (fun c => { c with logical := none }) fun j => { j with fails := 2 }
     (s.cell 0).logical = none ∧ bits (s.reg (faultBase + 0xA8)) 18 16 ≤ (s.jig 0).fails + 1 ∧ (s.jig 0).refCls = 0) ∧
    (let s := { jigged id (fun j => { j with fails := 2 }) with cells := (jigged id id).cells.take 1 }
     ((s.cell 0).st = 5 ∧ 0 < s.cells.length) ∧ s.spareOf (0 / 40) = none) ∧
    ((runs 0 id).cell 0).st ≠ 5 ∧ ((runs 0 id).jig 0).running = false := by
  and_intros <;> decide +kernel

theorem no_jig_pending (n k : Nat) : ((List.replicate n Jig.fresh).getD k .fresh).pending = false := by
  rw [List.getD_eq_getElem?_getD, List.getElem?_replicate]; split <;> rfl

theorem test_meets_jigs_due :
    (let s := { idle id with power := { Power.fresh 2 with imageReady := true } }
     (1 < s.cells.length ∧ 1 < s.health.jigs.length ∧ (s.jig 1).running = false ∧ (s.jig 1).pending = false ∧ s.power.imageReady = true ∧
      (s.jig 1).next ≤ s.now .steward) ∧ (s.cell 1).st = 6 ∧ s.dieTesting 1 = false ∧ (∀ k, (s.jig k).pending = false) ∧
      (s.cell 0).st ≤ 4 ∧ s.spareOf (0 / 40) ≠ none) ∧
    ((runs 0 id).spareOf (0 / 40) = none ∧ ((runs 0 id).cell 0).part = some 0) ∧
    (let s := engineIs { Engine.fresh with st := 1 }
     0 < s.stackCount ∧ (s.engine 0).st = 1 ∧ 0 < s.health.reJigs.length ∧ (s.health.reJigs.getD 0 .fresh).fails = 0 ∧
      (s.health.reJigs.getD 0 .fresh).refCls = 0) ∧ ((runs 0 id).engine 0).st ≠ 1 ∧
    (let s := { jigged id id with net := { Net.fresh 1 with jig := true } }
     s.net.jig = true ∧ s.health.netJig.fails = 0 ∧ s.health.netJig.fails + 1 < bits (s.reg (faultBase + 0xA8)) 18 16) ∧
    (let s := { (jigged id id).setReg (faultBase + 0xA8) (2 ^ 16) with net := { Net.fresh 1 with jig := true } }
     s.net.jig = true ∧ bits (s.reg (faultBase + 0xA8)) 18 16 ≤ s.health.netJig.fails + 1 ∧
      bits (s.reg (faultBase + 0xA8)) 18 16 ≤ (s.health.reJigs.getD 0 .fresh).fails + 1 ∧ (s.lark ⟨0x0A, 0, 0⟩).permanent = false) ∧
    (runs 0 id).net.jig = false := by
  and_intros <;> first
    | exact le_now (Nat.zero_le _)
    | decide +kernel
    | exact fun k => no_jig_pending 80 k

theorem test_meets_DeferredJig :
    (let s := { runs 0 id with power := { Power.fresh 2 with imageReady := true } }
     (s.posOf 0 = some 0 ∧ (s.cell 0).part = some 0 ∧ 0 < s.parts.length ∧ 0 < s.health.jigs.length) ∧
      s.spareOf (0 / 40) = none ∧ s.power.imageReady = true ∧ (s.jig 0).next ≤ s.now .steward ∧ (s.jig 0).pending = false ∧
      (s.jig 0).running = false ∧ (s.cell 0).st ≤ 4) ∧
    (let s := (idle fun c => { c with startQ := [] }).modJig 0 fun j => { j with pending := true }
     s.spareOf (0 / 40) = some 1 ∧ s.dieTesting 0 = false ∧ (s.jig 0).pending = true ∧ (s.jig 0).due ≤ s.now (.cell 0) ∧
      (s.cell 0).st = 0 ∧ (s.cell 0).job = none ∧ (s.cell 0).susp = none) ∧
    (let s := (idle fun c => { c with st := 2, job := some (jb .lc), held := some ⟨stp 8 0, 0, none⟩ }).modJig 0 fun j => { j with pending := true }
     s.spareOf (0 / 40) = some 1 ∧ s.dieTesting 0 = false ∧ (s.jig 0).pending = true ∧ (s.spareOf (0 / 40)).isSome = true ∧
      (s.jig 0).graceEnd ≤ s.now (.cell 0) ∧ s.heldAtLayer 0 = true ∧ (s.cell 0).preemptDue = false ∧ (s.cell 0).st ≠ 6) := by
  and_intros <;> first | exact le_now (Nat.zero_le _) | decide +kernel

/-- Of FaultReports: a table of incidents that is full, marks of a copy, of a tile row, and the units that a report sends to a jig. -/
theorem test_meets_FaultReports_more :
    (let s := hl fun h => { h with incidents := List.replicate 256 (inc (rpt 1 5)) }
     s.health.incidents.any (fun n => n.rep.unit == (rpt 0x12 7).unit && n.rep.cls == 0x12) = false ∧ 256 ≤ s.health.incidents.length) ∧
    (let s := { hl id with ces := [{ CopyEngine.fresh with active := [⟨0, zeros 64, 0, 0, false, [(0, false)], []⟩] }] }
     (rpt 0x0C 8).unit.kind = 8 ∧ (s.ce 0).active = ⟨0, zeros 64, 0, 0, false, [(0, false)], []⟩ :: [] ∧ 0 < s.ces.length) ∧
    (let r : Report := { rpt 6 1 with info0 := 0x47FF00 }
     scratchSize ≤ r.info0.toNat ∧ r.info0.toNat < scratchSize + 0x80000) ∧
    ((rpt 2 2).unit.kind = 2 ∧ (rpt 2 2).selfReport = false ∧ (rpt 0x10 10).selfReport = false ∧ (rpt 0x0A 0).cls = 0x0A) := by
  and_intros <;> decide +kernel

/-- Of FaultRecords: rings that hold records back while the link is down, that are full, off or owe a record of losses. -/
theorem test_meets_FaultRecords_more :
    (let s := { ringing id 20000 with hif := HostIf.fresh }
     s.hif.up = false ∧ (s.ring 0).held.length < 256) ∧
    (let s := { ringing (fun f => { f with held := List.replicate 256 [] }) 20000 with hif := HostIf.fresh }
     s.hif.up = false ∧ 256 ≤ (s.ring 0).held.length) ∧
    (let s := ringing (fun f => { f with tail := 4096 }) 20000
     s.hif.up = true ∧ 4096 ≤ ((s.ring 0).tail - (s.ring 0).head).toNat ∧ (s.reg (faultBase + 8 + 0x20 * 1)).testBit 0 = false) ∧
    (let s := ringing (fun f => { f with lost := 1 }) 20000
     s.hif.up = true ∧ (s.reg (faultBase + 8)).testBit 0 = true ∧ ((s.ring 0).tail - (s.ring 0).head).toNat < 4095 ∧
      (s.ring 0).lost ≠ 0 ∧ (s.ring 0).held = [] ∧ ((s.ring 0).tail - BitVec.ofNat 16 (bits (1#64).toNat 31 16)).toNat < 4096) := by
  and_intros <;> decide +kernel

/-- Of ReplaySteps: no position is SPARE for the faulty cell. -/
theorem test_meets_ReplaySteps_more :
    (let s := { again id (fun b => { b with replayable := true, faulty := [0] }) with cells := (idle id).cells.take 1 }
     s.posOf 0 = some 0 ∧ (s.cell 0).st < 4 ∧ (s.cell 0).pend.drain = false ∧ s.health.spareOnly 0 = false ∧ s.spareOf (0 / 40) = none) ∧
    (let s := { runs 0 (fun c => { c with pend := { c.pend with shadow := true, shadowCrc := [7] } }) with batches := [bat id] }
     s.posOf 0 = some 0 ∧ (s.cell 0).pend.shadowCrc = 7 :: [] ∧ (8 : BitVec 32) ≠ 7 ∧ (s.cell 0).job = some ⟨1, .lc, 0, 0, 0, false⟩ ∧
      s.batch 1 = some (bat id) ∧ s.spareOf (0 / 40) = none) := by
  and_intros <;> decide +kernel

/-- Of JigSteps: a spare position whose jig waits, a cell of no partition, one that fails with a spare column left and one not due. -/
theorem test_meets_JigSteps_more :
    (let s := (idle id).modJig 1 fun j => { j with pending := true }
     1 < s.cells.length ∧ 1 < s.health.jigs.length ∧ (s.jig 1).running = false ∧ (s.jig 1).pending = true ∧ (s.cell 1).st = 6 ∧
      s.dieTesting 1 = false ∧ ∀ k, (s.cell k).st = 6 → (s.jig k).pending = true → (s.jig 1).due ≤ (s.jig k).due) ∧
    ((idle fun c => { c with part := none }).cell 0).part = none ∧
    (let s := jigged id id
     (s.jig 0).fails = 0 ∧ 0 < (s.jig 0).arraySpares) ∧
    ((jigged id id).power.imageReady = false ∧ ((idle id).jig 0).pending = false) := by
  and_intros <;> first | exact fun k _ _ => Nat.zero_le _ | decide +kernel

/-! ## Power, start-up, management, resets -/

def m2 : State := State.resetOf 2
def pw (f : Power → Power) : State := { m2 with power := f (Power.fresh 2) }

theorem test_meets_StartUpSteps :
    (pw id).power.boot = 0 ∧ (pw fun p => { p with boot := 1 }).power.boot = 1 ∧
    (let s := pw fun p => { p with boot := 1, newFirmware := true }; s.power.boot = 1 ∧ s.power.newFirmware = true) ∧
    (let s := pw fun p => { p with boot := 2 }; s.power.boot = 2 ∧ s.health.fatal = 0) ∧
    (let s := pw fun p => { p with boot := 3, pwrGood := true }
     (s.power.boot = 3 ∧ s.power.pwrGood = true ∧ s.health.flashOk = true ∧ s.cells.length = 40 * s.dieCount) ∧
      (s.cells.filterMap (·.logical)).Nodup ∧
      ∀ d < s.dieCount, 36 ≤ ((List.range 40).filter fun k => (s.cell (40 * d + k)).st != 7).length) ∧
    (let s := { pw (fun p => { p with boot := 3, pwrGood := true }) with health := { Health.fresh 2 with flashOk := false } }
     s.power.boot = 3 ∧ s.power.pwrGood = true ∧ s.health.flashOk = false) ∧
    (let s := pw fun p => { p with boot := 4, pwrGood := true, perstN := false }
     s.power.boot = 4 ∧ s.power.pwrGood = true ∧ s.power.perstN = false ∧ s.power.memReady = false ∧ s.power.resetting = false ∧
      s.power.partReset = 0 ∧ s.carts.bays = []) ∧
    (let s := pw fun p => { p with boot := 4, memReady := true }; s.power.memReady = true ∧ s.power.imageReady = false) := by
  and_intros <;> decide +kernel

/-- After reset no two positions carry one logical cell, which StartUpSteps asks. -/
theorem test_meets_logical_once : ∀ i j g, i < m2.cells.length → j < m2.cells.length →
    (m2.cell i).logical = some g → (m2.cell j).logical = some g → i = j := by
  have h : ∀ i < 80, ∀ j < 80, (m2.cell i).logical = (m2.cell j).logical → (m2.cell i).logical.isSome = true → i = j := by decide +kernel
  intro i j g hi hj h1 h2
  exact h i hi j hj (h1.trans h2.symm) (by rw [h1]; rfl)

theorem test_meets_PowerEvents :
    (let s := pw fun p => { p with boot := 3 }; 3 ≤ s.power.boot ∧ s.power.boot ≠ 0) ∧
    (0 < m2.cells.length ∧ 79 < m2.cells.length ∧ 0 < m2.engines.length ∧ (m2.engine 0).ceil ≤ 1800) ∧
    7 < portsOf 0 ∧ (0 < portsOf 1) ∧
    (m2.power.fastHold = false ∧ m2.power.floorHold = false ∧ (∀ c ∈ m2.cells, 1200 ≤ c.ceil ∧ c.ceil ≤ 2000) ∧
      (∀ e ∈ m2.engines, 1200 ≤ e.ceil ∧ e.ceil ≤ 1800) ∧ (∀ d ∈ m2.dies, 1600 ≤ d.ceil ∧ d.ceil ≤ 2200) ∧
      1200 ≤ m2.power.ceil ∧ m2.power.ceil ≤ 2000) := by
  and_intros <;> decide +kernel

def capOf (s : State) : Nat := if s.power.floorCap then floorOf s.model else min (bits (s.reg 0x408) 15 0) s.power.mgmtCap
def avgOf (s : State) : Nat := s.power.samples.sum / max 1 s.power.samples.length

theorem test_meets_PowerCapping :
    (let s := pw fun p => { p with samples := [951] }; capOf s < avgOf s ∧ ∃ c ∈ s.cells, 1200 < c.ceil) ∧
    (let s := { pw (fun p => { p with samples := [4000], ceil := 1200 }) with cells := m2.cells.map fun c => { c with ceil := 1200 } }
     capOf s < avgOf s ∧ (∀ c ∈ s.cells, c.ceil = 1200) ∧ s.power.ceil = 1200) ∧
    (let s := (pw fun p => { p with samples := [600, 600] }).setReg 0x408 700
     avgOf s + 100 ≤ capOf s ∧ s.power.throttled = [] ∧ (∀ e ∈ s.engines, e.ceil = 1800) ∧ ∀ d ∈ s.dies, d.ceil = 2200) ∧
    (let s := (pw fun p => { p with samples := [700] }).setReg 0x408 700; avgOf s ≤ capOf s ∧ capOf s < avgOf s + 100) := by
  and_intros <;> decide +kernel

theorem test_meets_ManagementCommands :
    (let s := pw fun p => { p with boot := 4 }
     s.power.boot = 4 ∧ (zeros 97).length = 97 ∧ s.power.keys[7]? = some none ∧ 7 < s.power.keys.length ∧ s.model = 2 ∧
      s.power.resetting = false ∧ s.power.partReset = 0 ∧ 1 < s.dieCount) ∧
    (let s := pw fun p => { p with boot := 3, keys := p.keys.set 0 (some (zeros 97)) }
     s.power.boot = 3 ∧ s.power.keys[0]? = some (some (zeros 97))) ∧
    (let s := { State.reset with regs := [(0x3400030, 1)] }; s.model ≠ 2 ∧ (s.reg 0x3400030).testBit 0 = true) ∧
    (bits (0#64).toNat 2 0 ∉ [1, 2, 3] ∧ bits (1#64).toNat 2 0 = 1 ∧ bits (2#64).toNat 2 0 = 2 ∧ bits (3#64).toNat 2 0 = 3) ∧
    ({ m2 with hif := { HostIf.fresh with configReady := true } } : State).hif.configReady = true ∧
    (let s := (pw fun p => { p with boot := 4, imageReady := true }).modPart 0 fun u => { u with defined := true }
     (s.part 0).defined = true ∧ (s.part 0).drained = false ∧ (s.part 0).resetting = false ∧ (s.part 0).committing = false ∧
      s.health.fatal = 0 ∧ s.power.resetting = false ∧ s.mirrored 0 = false ∧ 0 < s.parts.length ∧ s.power.imageReady = true ∧
      s.image.busy = false ∧ s.image.st ≠ 2 ∧ lengthOk (zeros 511).length = false) ∧
    (pw fun p => { p with boot := 5 }).power.boot = 5 := by
  and_intros <;> decide +kernel

theorem test_meets_ResetKinds :
    (let s := (pw fun p => { p with boot := 4 }).modPart 15 fun u => { u with defined := true }
     (s.power.boot = 4 ∧ s.power.resetting = false ∧ s.power.partReset = 0 ∧ s.health.fatal = 0 ∧
      (∀ e ∈ s.engines, ∀ l ∈ e.landing, l.dirty = false ∧ l.writing = false) ∧ s.hrv.st ≠ 4) ∧
      (s.part 15).defined = true ∧ (s.part 15).committing = false ∧ s.mirrored 15 = false ∧ s.batches = [] ∧ s.openReqs = [] ∧
      (∀ d ∈ s.dies, d.queue = []) ∧ (s.part 15).waits = [] ∧ (∀ x ∈ s.hif.slots, x.device = false) ∧ s.epochs = [] ∧
      (∀ c ∈ s.ces, c.active = []) ∧ (s.part 0).defined = false) ∧
    (let s := { pw (fun p => { p with boot := 4 }) with health := { Health.fresh 2 with fatal := 4 } }; s.power.boot = 4 ∧ s.health.fatal ≠ 0) ∧
    (let s := pw fun p => { p with boot := 4, resetting := true }; s.power.boot = 4 ∧ s.power.resetting = true ∧ s.health.fatal = 0) ∧
    (pw fun p => { p with shutting := true }).power.shutting = true ∧
    (let s := (pw fun p => { p with partReset := 1 }).modPart 0 fun u => { u with resetting := true }
     (s.part 0).resetting = true ∧ (s.part 0).committing = false ∧ s.power.partReset.toNat.testBit 0 = true ∧ s.hrv.st ≠ 4 ∧
      s.image.removing = [] ∧ s.image.committed = [] ∧ (s.svc 0).heldCmd = none ∧ (∀ x ∈ s.cmp, x.heldCmd = none) ∧ 0 < s.parts.length) := by
  and_intros <;> decide +kernel

/-! ## Registers, links, cartridges -/

/-- Of AbsentUnitRegisters: the ends of each range on a CN9612, which has neither ports nor cartridges. -/
theorem test_meets_AbsentUnitRegisters :
    portsOf m2.model = 0 ∧ m2.model = 2 ∧ m2.carts.bays = [] ∧ 0x1000000 + 0x400000 * m2.dieCount = 0x1800000 ∧
    0x3000000 + 0x40000 * m2.stackCount = 0x3100000 ∧ 0x40000 + 0x800 * m2.cells.length = 0x68000 := by
  and_intros <;> decide +kernel

theorem test_meets_RegisterReads :
    3 < m2.engines.length ∧ 3 < m2.stackCount ∧ 15 < State.reset.engines.length ∧ 15 < State.reset.stackCount ∧
    (∀ e ∈ m2.hif.mtimeLatch, e.1 ≠ 0) := by
  and_intros <;> decide +kernel

/-- Of LinksAndDrain. How many spare lanes a module has is a free value, so that of its two clauses about lanes every other
hypothesis is met. -/
theorem test_meets_LinksAndDrain :
    (m2.edgeExists 0x80 = true ∧ 7 < ucieModules 0x80 ∧ (0x80, 7) ∉ m2.health.ucieLost ∧ m2.edgeExists 0xA0 = true ∧ 0 < ucieModules 0xA0 ∧
      (∀ x ∈ m2.health.retries, x.1 ≠ 0x80) ∧ ∀ x ∈ m2.health.laneUsed, x.1 ≠ (0x80, 7)) ∧
    (let s := { m2 with health := { m2.health with laneUsed := [((0xA0, 0), 3)] } }
     s.health.laneUsed.find? (fun x => x.1 == (0xA0, 0)) = some ((0xA0, 0), 3) ∧
      ∀ j < ucieModules 0xA0, j ≠ 0 → (0xA0, j) ∈ s.health.ucieLost) ∧
    (m2.posOf 0 = some 0 ∧ (m2.cell 0).st = 0 ∧ (m2.cell 0).job = none ∧ (m2.cell 0).susp = none) ∧
    (let s := runs 0 id; s.posOf 0 = some 0 ∧ (s.cell 0).st < 4 ∧ (s.cell 0).job.isSome = true) ∧
    (let s := runs 0 fun c => { c with st := 4 }; s.posOf 0 = some 0 ∧ (s.cell 0).st = 4) ∧
    (15 < m2.parts.length ∧ m2.batches = [] ∧ m2.hrv.st ≠ 4 ∧ m2.health.draining = false) := by
  and_intros <;> decide +kernel

/-- A retry within a second of its edge's last report. -/
theorem test_meets_retry :
    let s := { m2 with health := { m2.health with retries := [(0xA0, 5, 0)] }, mtime := 999999983 }
    s.health.retries.find? (fun x => x.1 == 0xA0) = some (0xA0, 5, 0) ∧ s.now .steward < 0 + 1000000000 := by
  refine ⟨by decide +kernel, ?_⟩
  have : Config.mtimeSkew .steward % 17 < 17 := Nat.mod_lt _ (by decide)
  show 999999983 + Config.mtimeSkew .steward % 17 < 0 + 1000000000
  omega

/-- Bay 0 of a CN9624. -/
def bayIs (f : Bay → Bay) : State :=
  let s := State.resetOf 1
  { s with carts := { s.carts with bays := [f .fresh, .fresh] }, power := { s.power with memReady := true }, mtime := 100000000 }

def card : Bytes := [0x42414C53 + 2 ^ 32 + 2 ^ 40, 1, 2, 2 ^ 40, 2 ^ 50].flatMap (leBytes 8) ++ zeros 216

/-- Of CartridgeStates. The key of a cartridge (log entry 6) is a free value: of the clause about a genuine cartridge every other
hypothesis is met. -/
theorem test_meets_CartridgeStates :
    (let s := bayIs id
     0 < s.carts.bays.length ∧ s.health.incidents.length < 256 ∧ (s.bay 0).present = false ∧ s.power.memReady = true ∧ (s.bay 0).st = 0 ∧
      s.carts.busy = false) ∧
    (let s := bayIs fun x => { x with st := 1, present := true }
     ((s.bay 0).st = 1 ∧ (s.bay 0).settled = false ∧ (s.bay 0).present = true) ∧ (s.bay 0).since + 100000000 ≤ s.now .cartridge) ∧
    (let s := bayIs fun x => { x with st := 1, present := true, settled := true }
     (s.bay 0).st = 1 ∧ (s.bay 0).settled = true ∧ (s.bay 0).linkPerm = 0 ∧ (∀ e ∈ s.engines, e.landing = []) ∧
      (∀ e ∈ s.carts.written, e.1 ≠ (card.drop 8).take 16)) ∧
    (card.length = 256 ∧ bits (wordAt card 0) 31 0 = 0x42414C53 ∧ byteAt card 4 = 1 ∧ byteAt card 5 = 1 ∧ wordAt card 3 / 4096 ≤ 2 ^ 28 ∧
      10 * (0 * 512000) < 8 * wordAt card 4) ∧ (zeros 255).length ≠ 256 ∧
    (∀ n ∈ [2, 3, 4], ((bayIs fun x => { x with st := n }).bay 0).st = n) ∧
    (let s := bayIs fun x => { x with st := 2, endurance := 10 * 512000 }
     let w := fun (m : Smart) => max (((s.carts.written.find? fun e => e.1 == (s.bay 0).serial).map Prod.snd).getD 0)
       (max (s.bay 0).smartWritten (m.dataUnits * 512000))
     (s.bay 0).endurance ≤ w ⟨10, 0, false⟩ ∧ w ⟨9, 0, false⟩ < (s.bay 0).endurance ∧
      8 * (s.bay 0).endurance ≤ 10 * w ⟨9, 0, false⟩ ∧ 10 * w ⟨7, 0, false⟩ < 8 * (s.bay 0).endurance) ∧
    ((4#8).getLsbD 2 = true ∧ (8#8).getLsbD 3 = true ∧ (8#8).getLsbD 2 = false ∧ (1#8).getLsbD 0 = true ∧ (1#8).getLsbD 2 = false ∧
      (1#8).getLsbD 3 = false) := by
  and_intros <;> first | exact le_now (by decide +kernel) | decide +kernel

def cmdOf (kind : Nat) : Nvme := ⟨0, kind, 0, 0, (0, 0, 0), [], false⟩

theorem test_meets_CartridgeCommands :
    (m2.carts.bays = [] ∧ m2.carts.busy = false) ∧
    (let s := bayIs fun x => { x with st := 2, capacity := 2 ^ 20, endurance := 1 }
     let s := { s with hif := { s.hif with up := true } }
     (s.carts.bays ≠ [] ∧ s.carts.busy = false ∧ 0 < s.carts.bays.length ∧ s.carts.bays.length ≤ 2 ∧ (s.bay 0).st = 2 ∧ (s.bay 0).cmds = [] ∧
      (∀ e ∈ s.engines, e.landing = [])) ∧ 4096 * (s.reg 0x3800008 % 2 ^ 48 + 256) ≤ (s.bay 0).capacity ∧
      (s.bay 0).capacity < 4096 * (s.reg 0x3800008 % 2 ^ 48 + 257) ∧ s.hif.up = true ∧ 10 * s.bayWritten 0 < 8 * (s.bay 0).endurance ∧
      (s.host.read 64 (s.reg 0x3800010) 4096).marked = false ∧ ¬ ((s.bay 1).st = 2 ∨ (s.bay 1).st = 3 ∨ (s.bay 1).st = 4)) ∧
    (let s := bayIs fun x => { x with st := 3, capacity := 2 ^ 20 }
     let s := s.modBay 1 fun x => { x with st := 2, capacity := 2 ^ 20 }
     s.hif.up = false ∧ 1 < s.carts.bays.length ∧ (s.bay 0).st = 3 ∧ (s.bay 1).st = 2 ∧ 4096 * (0 + 1) ≤ (s.bay 1).capacity) ∧
    ((bayIs fun x => { x with st := 4 }).bay 0).st = 4 ∧
    (let s := { bayIs id with carts := { (bayIs id).carts with busy := true, op := 4 } }
     s.carts.bays ≠ [] ∧ s.carts.busy = true ∧ s.carts.op ≠ 2 ∧ s.carts.op ≠ 3 ∧ (s.bay 0).st ≠ 6) ∧
    (let s := bayIs fun x => { x with st := 6, cmds := [cmdOf 1] }
     0 < s.carts.bays.length ∧ (s.bay 0).st = 6 ∧ ∀ y ∈ (s.bay 0).cmds, y.kind ≠ 5) ∧
    (∀ k ∈ [0, 1, 2], ((bayIs fun x => { x with st := 2, cmds := [cmdOf k] }).bay 0).cmds[0]? = some (cmdOf k) ∧ (cmdOf k).kind = k) ∧
    (let s := { bayIs (fun x => { x with st := 2, cmds := [cmdOf 2] }) with carts := { (bayIs fun x => { x with st := 2, cmds := [cmdOf 2] }).carts with
        busy := true, op := 2, count := 8, progress := 7 } }
     s.carts.progress + 1 = s.carts.count ∧ ∀ k < s.carts.bays.length, (s.bay k).st ≠ 6) ∧
    (let s := { bayIs (fun x => { x with st := 6, cmds := [cmdOf 5] }) with carts := { (bayIs fun x => { x with st := 6, cmds := [cmdOf 5] }).carts with
        busy := true, op := 1 } }
     (s.bay 0).cmds = [cmdOf 5] ∧ (s.bay 0).st = 6 ∧ s.carts.busy = true ∧ s.carts.op = 1 ∧ s.carts.bay = 0 ∧
      ∀ k < s.carts.bays.length, k ≠ 0 → (s.bay k).st ≠ 6) := by
  and_intros <;> decide +kernel

/-- Of StartUpSteps, PowerCapping and ResetKinds: a stack that fails its training, engines below their ceiling, a warm reset that
waits for a page, requests while one runs, and a mirrored partition. -/
theorem test_meets_ResetKinds_more :
    (let s := pw fun p => { p with boot := 4, pwrGood := true }
     s.power.memReady = false ∧ s.power.resetting = false ∧ 3 < s.stackCount ∧ 3 < s.engines.length) ∧
    (let s := { (pw fun p => { p with samples := [600] }).setReg 0x408 700 with engines := m2.engines.map fun e => { e with ceil := 1775 } }
     avgOf s + 100 ≤ capOf s ∧ s.power.throttled = [] ∧ (∀ e ∈ s.engines, 1200 ≤ e.ceil ∧ e.ceil ≤ 1800) ∧ ∃ e ∈ s.engines, e.ceil < 1800) ∧
    (let s := { pw (fun p => { p with boot := 4 }) with engines := [{ Engine.fresh with landing := [page 0] }] }
     s.power.boot = 4 ∧ s.health.fatal = 0 ∧ ∃ e ∈ s.engines, ∃ l ∈ e.landing, l.writing = true) ∧
    (let s := { pw (fun p => { p with boot := 4, resetting := true }) with health := { Health.fresh 2 with fatal := 1 } }
     s.power.boot = 4 ∧ s.power.resetting = true ∧ s.health.fatal ≠ 0) ∧
    (let s := (pw fun p => { p with boot := 3, partReset := 1 }).modPart 0 fun u => { u with defined := true }
     1 ≤ s.power.boot ∧ s.power.boot ≤ 3 ∧ s.power.resetting = false ∧ (s.part 0).defined = true ∧ s.power.partReset ≠ 0) ∧
    (let s := ({ pw (fun p => { p with boot := 4 }) with hrv := { Horvi.fresh with st := 4, policy := true, mask := 1 } }).modPart 0 fun u => { u with defined := true }
     s.mirrored 0 = true ∧ s.hrv.st = 4 ∧ s.hrv.rank = 0 ∧ (s.part 0).defined = true ∧ (s.part 0).committing = false ∧ s.power.partReset = 0) := by
  and_intros <;> decide +kernel

/-- Of LinksAndDrain: cells under test and in a move, which a drain marks, and a whole module without batches. -/
theorem test_meets_drain_more :
    (∀ n ∈ [5, 8], (let s := runs 0 fun c => { c with st := n }; s.posOf 0 = some 0 ∧ (s.cell 0).st = n)) ∧
    (m2.engines.length = m2.stackCount ∧ m2.edgeExists 0xFF = false ∧ (runs 0 id).posOf 1 = none) ∧
    (let s := { m2 with batches := [bat id] }
     s.batches ≠ [] ∧ s.hrv.st ≠ 4) ∧
    (m2.hasIsland (.rowEngine 3) = true ∧ m2.hasIsland (.rowEngine 15) = false ∧ m2.shadowOf (engineBase 3 + 0x40) = some (.rowEngine 3)) := by
  and_intros <;> decide +kernel

/-- Of CartridgeCommands: completions of a MIGRATE, of a write-back and of a FILL that goes on. -/
theorem test_meets_CartridgeCommands_more :
    (let y := fun k => bayIs fun x => { x with st := 2, endurance := 2 ^ 50, cmds := [cmdOf k] }
     let s := fun k => { y k with carts := { (y k).carts with busy := true, op := 3, bay := 0, dest := 1, count := 8, progress := 7 } }
     let s1 := fun k => (s k).modBay 1 fun x => { x with st := 2, endurance := 2 ^ 50 }
     (∀ k ∈ [3, 4, 6, 7, 8], ((s1 k).bay 0).cmds[0]? = some (cmdOf k) ∧ (cmdOf k).kind = k) ∧
      (∀ k < 2, ((s1 3).bay k).st ≠ 6) ∧ 1 < (s1 3).carts.bays.length ∧ (s1 3).carts.dest = 1 ∧
      (((s1 3).bay 1).st = 2 ∧ 10 * (s1 3).bayWritten 1 < 8 * ((s1 3).bay 1).endurance) ∧
      (s1 4).carts.progress + 1 = (s1 4).carts.count ∧ ((s1 4).bay (s1 4).carts.bay).st ≠ 4 ∧ ((s1 4).bay 1).cmds = []) ∧
    (let s := bayIs fun x => { x with st := 3, endurance := 2 ^ 50, cmds := [cmdOf 2] }
     let s := { s with hif := { s.hif with up := true }, carts := { s.carts with busy := true, op := 2, count := 8, progress := 0 } }
     s.carts.progress + 1 < s.carts.count ∧ s.hif.up = true ∧ s.carts.bay = 0 ∧ s.bayWritten 0 + 4096 < (s.bay 0).endurance ∧
      (s.host.read 64 (s.reg 0x3800010 + 4096 * (s.carts.progress + 1)) 4096).marked = false) ∧
    (let s := bayIs fun x => { x with st := 2, present := true }
     let s := { s with carts := { s.carts with busy := true, op := 2 } }
     (s.bay 0).present = true ∧ s.carts.busy = true ∧ s.carts.op = 2 ∧ s.carts.bay = 0) ∧
    (let s := bayIs fun x => { x with st := 2, capacity := 2 ^ 20, endurance := 0 }
     (s.bay 0).endurance ≤ s.bayWritten 0) := by
  and_intros <;> decide +kernel

/-! ## The module as a whole -/

theorem canon_fresh (l : List Nat) : ∀ c ∈ l.map Cell.fresh, c.Canon := by
  intro c hc
  obtain ⟨n, -, rfl⟩ := List.mem_map.1 hc
  exact ⟨rfl, rfl, rfl, rfl⟩

/-- The invariant holds after reset, of each part. -/
theorem test_meets_Inv (m : Nat) (h : m ≤ 2) : (State.resetOf m).Inv := by
  obtain rfl | rfl | rfl : m = 0 ∨ m = 1 ∨ m = 2 := by omega
  all_goals exact ⟨by constructor <;> decide +kernel, rfl, rfl, canon_fresh _⟩

theorem test_meets_StepRunsTheFront :
    (State.reset.pending = [] ∧ State.reset.power.boot < 3) ∧ (pw fun p => { p with boot := 3 }).power.boot = 3 ∧
    ({ m2 with pending := [.inputOff] } : State).pending = [.inputOff] := by
  and_intros <;> decide +kernel

/-! ## One step each, against the spec's words -/

def after (o : Host.Outcome State Fault Refusal) (p : State → Bool) : Bool := match o with | .next t => p t | _ => false
/-- Scalars 1 and 2 hold a and b; a step of KIND k writes scalar 3 from them. -/
def abc (k : Nat) (mode : Nat) : StepWord := stp k (2 ^ 40 * 3 + 2 ^ 46 * 1 + 2 ^ 52 * 2 + 2 ^ 68 * mode)
def holds (a b : Word) (w : StepWord) : State :=
  runs w fun c => c.setCur { c.cur with scalars := (c.cur.scalars.set 1 a).set 2 b }
def sd3 (o : Host.Outcome State Fault Refusal) (v : Word) : Bool := after o fun t => (t.cell 0).cur.scalar 3 == v

/-- R69: the sum wraps modulo 2^64. -/
theorem test_sadd_wraps : sd3 (exec (.sadd 0 (abc 0x11 0)) (holds (2 ^ 64 - 1) 3 (abc 0x11 0))) 2 = true := by decide +kernel
/-- R69: SA minus SB. -/
theorem test_ssub_order : sd3 (exec (.ssub 0 (abc 0x12 0)) (holds 3 5 (abc 0x12 0))) (2 ^ 64 - 2) = true := by decide +kernel
/-- R69: a shift takes bits [5:0] of its amount, so 65 is 1. -/
theorem test_sshl_amount : sd3 (exec (.sshl 0 (abc 0x17 0)) (holds 3 65 (abc 0x17 0))) 6 = true := by decide +kernel
/-- R69: the right shift is logical. -/
theorem test_sshr_logical : sd3 (exec (.sshr 0 (abc 0x18 0)) (holds (2 ^ 63) 63 (abc 0x18 0))) 1 = true := by decide +kernel
/-- R69: MODE 2 of SCMP compares without sign, MODE 4 with it. -/
theorem test_scmp_sign :
    sd3 (exec (.scmp 0 (abc 0x19 2)) (holds (2 ^ 64 - 1) 0 (abc 0x19 2))) 0 = true ∧
    sd3 (exec (.scmp 0 (abc 0x19 4)) (holds (2 ^ 64 - 1) 0 (abc 0x19 4))) 1 = true := by
  and_intros <;> decide +kernel
/-- R60, R69: the FP32 sum of 1.0 and 2.0 is 3.0, and bits [63:32] of its operands are ignored. -/
theorem test_sfop_add : sd3 (exec (.sfop 0 (abc 0x1A 0)) (holds 0xFFFFFFFF3F800000 0x40000000 (abc 0x1A 0))) 0x40400000 = true := by
  decide +kernel

/-- On an empty queue a part that is off idles (log entry 2); one that runs counts a nanosecond of MTIME (R29). -/
theorem test_idle : step State.reset = .next State.reset ∧
    after (step (pw fun p => { p with boot := 4 })) (fun t => t.mtime == 1) = true := by
  refine ⟨rfl, ?_⟩
  decide +kernel

/-- R454: input on is the first step of start-up. -/
theorem test_input_on : after (step { m2 with pending := [.inputOn] }) (fun t => t.power.boot == 1 && t.pending == []) = true := by
  decide +kernel

/-- R462: GLB_RESET written with none of its commands does nothing. -/
theorem test_reset_nop : step { m2 with pending := [.glbResetNop 0] } = .next m2 := rfl

/-- The table gives no bits: no word of the table spells a command. -/
theorem test_no_words : decodeTableWord 32 0 = none ∧ (m2.withFetchWord 32 0).pending = [] := ⟨rfl, rfl⟩

/-- R2: dies and stacks of a CN9612 and a CN9640. -/
theorem test_reset_counts : m2.dieCount = 2 ∧ m2.stackCount = 4 ∧ State.reset.dieCount = 8 ∧ State.reset.stackCount = 16 := by
  and_intros <;> decide +kernel

/-! ## WellFormed refuses each ill-formed field of each command -/

theorem test_wf_refuses_0 : (([.registerWrite 17 0 1 0,
    .registerWrite 0 67108864 1 0,
    .registerWrite 0 0 3 0,
    .glbMtimeLowRead 17,
    .glbMtimeHighRead 17,
    .shadowSetCopy (.cell 320),
    .shadowSetCopy (.rowEngine 16),
    .shadowSetCopy (.dieFabric 8),
    .shadowSetCopy (.copyEngine 16),
    .linkRetry 161 0,
    .linkRetry 0 8,
    .laneRepair 161 0 0,
    .laneRepair 0 8 0,
    .islandClockSet (.cell 320) 0 0,
    .islandClockSet (.rowEngine 16) 0 0,
    .islandClockSet (.dieFabric 8) 0 0,
    .islandClockSet (.copyEngine 16) 0 0,
    .drainCommand (.cell 288),
    .drainCommand (.partition 16),
    .nop 288 0,
    .nop 0 1,
    .loop 288 1,
    .loop 0 2,
    .endloop 288 2,
    .endloop 0 3,
    .wait 288 3,
    .wait 0 4,
    .waitany 288 4,
    .waitany 0 5,
    .postc 288 5] : List Instr).all fun c => !c.wf) = true := by
  decide +kernel

theorem test_wf_refuses_1 : (([.postc 0 6,
    .postt 288 6,
    .postt 0 7,
    .ebind 288 7,
    .ebind 0 8,
    .layer 288 8,
    .layer 0 9,
    .sel 288 9,
    .sel 0 10,
    .tsel 288 10,
    .tsel 0 11,
    .rel 288 11,
    .rel 0 12,
    .acq 288 12,
    .acq 0 13,
    .fence 288 13,
    .fence 0 14,
    .mark 288 14,
    .mark 0 15,
    .endStep 288 15,
    .endStep 0 16,
    .smov 288 16,
    .smov 0 17,
    .sadd 288 17,
    .sadd 0 18,
    .ssub 288 18,
    .ssub 0 19,
    .smul 288 19,
    .smul 0 20,
    .sand 288 20] : List Instr).all fun c => !c.wf) = true := by
  decide +kernel

theorem test_wf_refuses_2 : (([.sand 0 21,
    .sor 288 21,
    .sor 0 22,
    .sxor 288 22,
    .sxor 0 23,
    .sshl 288 23,
    .sshl 0 24,
    .sshr 288 24,
    .sshr 0 25,
    .scmp 288 25,
    .scmp 0 26,
    .sfop 288 26,
    .sfop 0 27,
    .sld 288 27,
    .sld 0 28,
    .sst 288 28,
    .sst 0 29,
    .tld 288 32,
    .tld 0 33,
    .tst 288 33,
    .tst 0 34,
    .tlds 288 34,
    .tlds 0 35,
    .tsts 288 35,
    .tsts 0 36,
    .tmov 288 36,
    .tmov 0 37,
    .tzero 288 37,
    .tzero 0 38,
    .tfill 288 38] : List Instr).all fun c => !c.wf) = true := by
  decide +kernel

theorem test_wf_refuses_3 : (([.tfill 0 39,
    .ttrn 288 39,
    .ttrn 0 40,
    .trow 288 40,
    .trow 0 41,
    .tmask 288 41,
    .tmask 0 42,
    .mload 288 48,
    .mload 0 49,
    .mma 288 49 false,
    .mma 0 50 false,
    .mmat 288 50 false,
    .mmat 0 51 false,
    .mdl2 288 51 false,
    .mdl2 0 52 false,
    .mdnip 288 52 false,
    .mdnip 0 53 false,
    .mdl1 288 53 false,
    .mdl1 0 54 false,
    .mdham 288 54 false,
    .mdham 0 55 false,
    .mdmax 288 55 false,
    .mdmax 0 56 false,
    .mdmin 288 56 false,
    .mdmin 0 57 false,
    .mwait 288 57,
    .mwait 0 58,
    .tkinit 288 64,
    .tkinit 0 65,
    .tkmerge 288 65] : List Instr).all fun c => !c.wf) = true := by
  decide +kernel

theorem test_wf_refuses_4 : (([.tkmerge 0 66,
    .tkread 288 66,
    .tkread 0 67,
    .tkthr 288 67,
    .tkthr 0 68,
    .vadd 288 80,
    .vadd 0 81,
    .vsub 288 81,
    .vsub 0 82,
    .vmul 288 82,
    .vmul 0 83,
    .vmax 288 83,
    .vmax 0 84,
    .vmin 288 84,
    .vmin 0 85,
    .vfma 288 85,
    .vfma 0 86,
    .vand 288 86,
    .vand 0 87,
    .vor 288 87,
    .vor 0 88,
    .vxor 288 88,
    .vxor 0 89,
    .vcmp 288 89,
    .vcmp 0 90,
    .vselm 288 90,
    .vselm 0 91,
    .vabs 288 96,
    .vabs 0 97,
    .vneg 288 97] : List Instr).all fun c => !c.wf) = true := by
  decide +kernel

theorem test_wf_refuses_5 : (([.vneg 0 98,
    .vrelu 288 98,
    .vrelu 0 99,
    .vgelu 288 99,
    .vgelu 0 100,
    .vsilu 288 100,
    .vsilu 0 101,
    .vsigm 288 101,
    .vsigm 0 102,
    .vtanh 288 102,
    .vtanh 0 103,
    .vexp 288 103,
    .vexp 0 104,
    .vlog 288 104,
    .vlog 0 105,
    .vrsqrt 288 105,
    .vrsqrt 0 106,
    .vrcp 288 106,
    .vrcp 0 107,
    .vsqrt 288 107,
    .vsqrt 0 108,
    .vrsum 288 112,
    .vrsum 0 113,
    .vcsum 288 113,
    .vcsum 0 114,
    .vrmax 288 114,
    .vrmax 0 115,
    .vcmax 288 115,
    .vcmax 0 116,
    .vlnorm 288 116] : List Instr).all fun c => !c.wf) = true := by
  decide +kernel

theorem test_wf_refuses_6 : (([.vlnorm 0 117,
    .vrmsn 288 117,
    .vrmsn 0 118,
    .vsmax 288 118,
    .vsmax 0 119,
    .vbcast 288 119,
    .vbcast 0 120,
    .vcvt 288 120,
    .vcvt 0 121,
    .vqgrp 288 121,
    .vqgrp 0 122,
    .vdqgrp 288 122,
    .vdqgrp 0 123,
    .gath 288 128,
    .gath 0 129,
    .radd 288 129,
    .radd 0 130,
    .rwr 288 130,
    .rwr 0 131,
    .sstart 288 131,
    .sstart 0 132,
    .sstop 288 132,
    .sstop 0 133,
    .chfwd 288 133,
    .chfwd 0 134,
    .rstore 288 134,
    .rstore 0 135,
    .hld 288 144,
    .hld 0 145,
    .hst 288 145] : List Instr).all fun c => !c.wf) = true := by
  decide +kernel

theorem test_wf_refuses_7 : (([.hst 0 146,
    .tokenArrival 288 0,
    .creditReturn 288 0,
    .timeoutEdge 288,
    .jobEnded 288,
    .cellCntFreeze 320 false,
    .cellCntClear 320,
    .cellFaultValidClear 320,
    .frontEndRequest 8,
    .requestPart 16,
    .rowFetchDone 16 0 .none,
    .partDone 0 16,
    .reCntFreeze 16 false,
    .reCntClear 16,
    .reTagsRead 16,
    .reFaultValidClear 16,
    .stage 16 0,
    .stage 0 4096,
    .publish 16 0,
    .publish 0 4096,
    .waitSlotPublish 16,
    .publishDone 16,
    .abort 16 0,
    .abort 0 4096,
    .query 16 0,
    .query 0 4096,
    .bind 16 0,
    .bind 0 4096,
    .release 16,
    .publishSet 16] : List Instr).all fun c => !c.wf) = true := by
  decide +kernel

theorem test_wf_refuses_8 : (([.tblCmdNop 16 0,
    .tblCmdNop 0 16,
    .rowCacheSweepDone 4096 0,
    .sketchHalving 16,
    .countMessageSend 16 0,
    .countMessageSend 0 16,
    .countMessage 16,
    .replicaSetCreated 16,
    .replicaWrite 16,
    .replicaWriteAck 16,
    .replicaLagExpiry 16,
    .cacheSketchHalving 8,
    .coldPageArrival 16 0 [] false,
    .coldPageArrival 0 0 [] false,
    .coldDeadline 16,
    .coldWriteBackDone 16 0,
    .entryFetched 288 0,
    .entryFetched 0 16,
    .blockLanded 288 0 0,
    .blockLanded 0 16 0,
    .mcastCredit 288 0 0,
    .mcastCredit 0 16 0,
    .mcastCredit 0 0 64,
    .lagTimeExpiry 288 0 0,
    .lagTimeExpiry 0 16 0,
    .lagTimeExpiry 0 0 64,
    .skipMarker 288 0,
    .skipMarker 0 16,
    .chunkArrival 288 0,
    .chunkArrival 0 16] : List Instr).all fun c => !c.wf) = true := by
  decide +kernel

theorem test_wf_refuses_9 : (([.ringCredit 288 0 0,
    .ringCredit 0 16 0,
    .ringCredit 0 0 64,
    .stackRead 16 none 0 .none,
    .stackRead 0 (some 16) 0 .none,
    .stackWrite 16 none 0 [] false,
    .stackWrite 0 (some 16) 0 [] false,
    .drainMarker 16,
    .patrolScrub 16 0 .none,
    .softRepair 16 0 0,
    .stackFailed 1040,
    .memWcbRead 16,
    .build 16 0 0,
    .build 0 16 0,
    .build 0 0 4294967296,
    .histogramDone 16 0,
    .histogramDone 0 16,
    .load 16 0 0 0,
    .load 0 16 0 0,
    .load 0 0 8 0,
    .load 0 0 0 4294967296,
    .cmpRelease 16 0 0 0,
    .cmpRelease 0 16 0 0,
    .cmpRelease 0 0 8 0,
    .cmpRelease 0 0 0 4294967296,
    .cmpCmdNop 16 0 0,
    .cmpCmdNop 0 16 0,
    .cmpCmdNop 0 0 16,
    .queuedCountChange 16 0,
    .queuedCountChange 0 16] : List Instr).all fun c => !c.wf) = true := by
  decide +kernel

theorem test_wf_refuses_10 : (([.generationFree 16 0 0,
    .generationFree 0 16 0,
    .generationFree 0 0 8,
    .installWaitResume 16 0,
    .installWaitResume 0 16,
    .installDone 16 0,
    .installDone 0 16,
    .rangeAdd 16 0,
    .rangeAdd 0 4096,
    .rangeRemove 16 0,
    .rangeRemove 0 4096,
    .rangeReplace 16 0,
    .rangeReplace 0 4096,
    .rangeRead 16 0,
    .rangeRead 0 4096,
    .xltCmdNop 16 0,
    .xltCmdNop 0 16,
    .rangeInvalidation 16 .control,
    .rangeInvalidation 0 (.cell 288),
    .rangeInvalidation 0 (.frontEnd 8),
    .rangeInvalidation 0 (.rowEngine 16),
    .rangeInvalidation 0 (.copyEngine 16),
    .invalidationAck 16,
    .rangeFetch (.cell 288) 0 0,
    .rangeFetch (.frontEnd 8) 0 0,
    .rangeFetch (.rowEngine 16) 0 0,
    .rangeFetch (.copyEngine 16) 0 0,
    .rangeFetch .control 16 0,
    .rangeFetch .control 0 4096,
    .hostLineFill 16 0] : List Instr).all fun c => !c.wf) = true := by
  decide +kernel

theorem test_wf_refuses_11 : (([.imgCmdNop 16,
    .admission 16,
    .jobStart 288,
    .batchComplete 4294967296,
    .completionRecord 16,
    .preemptionRequest 288,
    .preempt 288,
    .sliceLimit 288,
    .beResume 288,
    .jigMove 288,
    .moveDone 288,
    .submissionRingCtlWrite 16 false 0,
    .cqCtlWrite 16 0,
    .partLcWaitMaxRead 16,
    .partFlush 17 0,
    .partFlush 0 16,
    .bar2Read 17 0 0,
    .bar2Write 17 0 [],
    .mbxSlotWrite 17 0 [],
    .mbxSlotWrite 0 65536 [],
    .mbxDoorbell 17 0 [],
    .mbxDoorbell 0 65536 [],
    .mbxSubmit 64,
    .mbxEcho 64,
    .mbxBadOp 64,
    .mailboxReply 64,
    .hostTransferDone 288 0,
    .hostTransferDone 0 256,
    .completionTimeout 288,
    .copy 16] : List Instr).all fun c => !c.wf) = true := by
  decide +kernel

theorem test_wf_refuses_12 : (([.ceNop 16,
    .ceComplete 16 0 0,
    .ceComplete 0 256 0,
    .ceRingCtlWrite 16 0,
    .ceResume 16,
    .ceAbort 16,
    .linkUp 6 1 false,
    .linkUp 0 3 false,
    .flrVf 16,
    .netWrite 8 ⟨0, 0, 0, 0, []⟩,
    .readReq 8 ⟨0, 0, 0, 0, []⟩,
    .readResp 8 ⟨0, 0, 0, 0, []⟩,
    .netUpdate 8 ⟨0, 0, 0, 0, []⟩,
    .netGather 8 ⟨0, 0, 0, 0, []⟩,
    .netSubmit 8 ⟨0, 0, 0, 0, []⟩,
    .netDone 8 ⟨0, 0, 0, 0, []⟩,
    .reduceUp 8 ⟨0, 0, 0, 0, []⟩,
    .reduceDown 8 ⟨0, 0, 0, 0, []⟩,
    .redo 8 ⟨0, 0, 0, 0, []⟩,
    .netAck 8 ⟨0, 0, 0, 0, []⟩,
    .netNak 8 ⟨0, 0, 0, 0, []⟩,
    .netBadFrame 8 .fcs,
    .arpRequest 8 0 0,
    .neighbourSolicitation 8 0 0,
    .pauseFrame 8,
    .pfcFrame 8 0 false,
    .pfcFrame 0 8 false,
    .otherFrame 8,
    .rtoExpiry 1024,
    .pureAck 1024] : List Instr).all fun c => !c.wf) = true := by
  decide +kernel

theorem test_wf_refuses_13 : (([.roundTimeout 64 0,
    .roundTimeout 0 4096,
    .portUp 8,
    .portDown 8,
    .portLaneSpare 8 0,
    .portLaneSpare 0 9,
    .sendRingTail 128,
    .sendWrite 128,
    .sendRead 128,
    .sendUpdate 128,
    .sendGather 128,
    .sendSubmit 128,
    .reduce 128,
    .sendNop 128,
    .peerReset 1024,
    .netSakWrite 1024 0 0,
    .netSakWrite 0 16 0,
    .redEnable 64 0,
    .heartbeat 2 ⟨0, 0, 0, 0, []⟩,
    .hrvResend 3,
    .hrvPureAck 3,
    .laneDown 2,
    .laneReturn 2,
    .hrvSakWrite 4 0 0,
    .hrvSakWrite 0 8 0,
    .faultReport ⟨0, ⟨1, 0, 0⟩, 0, none, 0, 0, 0, 0, 0, 0, false⟩,
    .faultReport ⟨0x22, ⟨1, 0, 0⟩, 0, none, 0, 0, 0, 0, 0, 0, false⟩,
    .faultReport ⟨1, ⟨16, 0, 0⟩, 0, none, 0, 0, 0, 0, 0, 0, false⟩,
    .faultReport ⟨1, ⟨1, 0, 0⟩, 256, none, 0, 0, 0, 0, 0, 0, false⟩,
    .faultReport ⟨1, ⟨1, 0, 0⟩, 0, some 16, 0, 0, 0, 0, 0, 0, false⟩] : List Instr).all fun c => !c.wf) = true := by
  decide +kernel

theorem test_wf_refuses_14 : (([.faultReport ⟨1, ⟨1, 0, 0⟩, 0, none, 0, 0, 4294967296, 0, 0, 0, false⟩,
    .faultReport ⟨1, ⟨1, 0, 0⟩, 0, none, 0, 0, 0, 4096, 0, 0, false⟩,
    .faultReport ⟨1, ⟨1, 0, 0⟩, 0, none, 0, 0, 0, 0, 256, 0, false⟩,
    .faultRingCtlWrite 3 0,
    .fatalEvent 5,
    .replayDecision 4294967296,
    .replay 4294967296,
    .jigDue 320,
    .jigDone 320 false false 0,
    .jigDone 0 false false 256,
    .reJigDone 16 false,
    .shadowCompare 288 0,
    .marginSample ⟨16, 0, 0⟩ 0 0,
    .marginSample ⟨1, 65536, 0⟩ 0 0,
    .marginSample ⟨1, 0, 256⟩ 0 0,
    .prsntAssert 4,
    .presenceSettled 4,
    .controllerReady 4 ⟨[], true, 0, 4, ⟨0, 0, false⟩⟩,
    .controllerReady 0 ⟨[], true, 0, 4, ⟨0, 0, false⟩⟩,
    .notReady 4,
    .smartPoll 4 ⟨0, 0, false⟩,
    .nvmeCompletion 4 0 false [],
    .cartRemoval 4,
    .eject 16,
    .ejectAbortTimeout 4,
    .fill 16 0,
    .fill 0 4294967296,
    .migrate 16 0 0 false,
    .migrate 0 16 0 false,
    .migrate 0 0 4294967296 false] : List Instr).all fun c => !c.wf) = true := by
  decide +kernel

theorem test_wf_refuses_15 : (([.adopt 16,
    .cartCmdNop 16,
    .inputVoltageLow 4096,
    .powerSample 0 4096,
    .thermalThrottle (.cell 320) false,
    .thermalThrottle (.rowEngine 16) false,
    .thermalThrottle (.dieFabric 8) false,
    .thermalThrottle (.copyEngine 16) false,
    .pluggableInserted 10 0,
    .memReady [16],
    .glbResetPartition 16,
    .glbResetNop 16,
    .partitionResetDone 16,
    .keySet false 16 (List.replicate 97 0),
    .keySet false 0 [],
    .keyRevoke false 16,
    .mtimeAdvance false 18446744073709551616,
    .larkRead false ⟨16, 0, 0⟩,
    .larkRead false ⟨1, 65536, 0⟩,
    .larkRead false ⟨1, 0, 256⟩,
    .getSensorReading 256,
    .pldmBase 256,
    .getMeasurements 256 [],
    .entdaa 128,
    .returnToService (.cell 288),
    .returnToService (.partition 16),
    .regulatorBucketRefill 16 0,
    .regulatorBucketRefill 0 16,
    .streamBucketRefill 288 0,
    .streamBucketRefill 0 3] : List Instr).all fun c => !c.wf) = true := by
  decide +kernel

theorem test_wf_refuses_16 : (([.horviLaneTrained 2,
    .inputVoltageRestored 4096,
    .repairPauseEnd 16,
    .setEndpointId false 256] : List Instr).all fun c => !c.wf) = true := by
  decide +kernel

end Sys2Proof.Tests
end

/-! SUPPORT and STATEMENTS. The module as a whole: every command completes and keeps the queue, the part and the invariant. -/
namespace Sys2Proof.Machine

/-! ## Every command completes and keeps the part (O3, O4) -/

/-- No arm of the dispatch ends in a fault or a refusal: each answers a next state by definition. -/
theorem exec_completes (c : Instr) (s : State) : ∃ t, exec c s = .next t := by
  cases c <;> exact ⟨_, rfl⟩

/-- Whatever a command answers keeps the queue, the part and the invariant: one case a command, from the law of its meaning. -/
theorem exec_keeps (c : Instr) (s : State) : KeepsO s (exec c s) := by
  cases c with
  | registerWrite => exact execRegisterWrite_keeps
  | glbMtimeLowRead => exact execGlbMtimeLowRead_keeps
  | glbMtimeHighRead => exact execGlbMtimeHighRead_keeps
  | shadowSetCopy => exact execShadowSetCopy_keeps
  | linkRetry => exact execLinkRetry_keeps
  | laneRepair => exact execLaneRepair_keeps
  | islandClockSet => exact execIslandClockSet_keeps
  | drainCommand => exact execDrainCommand_keeps
  | nop => exact execNop_keeps
  | loop => exact execLoop_keeps
  | endloop => exact execEndloop_keeps
  | wait => exact execWait_keeps
  | waitany => exact execWaitany_keeps
  | postc => exact execPostc_keeps
  | postt => exact execPostt_keeps
  | ebind => exact execEbind_keeps
  | layer => exact execLayer_keeps
  | sel => exact execSel_keeps
  | tsel => exact execTsel_keeps
  | rel => exact execRel_keeps
  | acq => exact execAcq_keeps
  | fence => exact execFence_keeps
  | mark => exact execMark_keeps
  | endStep => exact execEndStep_keeps
  | smov => exact execSmov_keeps
  | sadd => exact execSadd_keeps
  | ssub => exact execSsub_keeps
  | smul => exact execSmul_keeps
  | sand => exact execSand_keeps
  | sor => exact execSor_keeps
  | sxor => exact execSxor_keeps
  | sshl => exact execSshl_keeps
  | sshr => exact execSshr_keeps
  | scmp => exact execScmp_keeps
  | sfop => exact execSfop_keeps
  | sld => exact execSld_keeps
  | sst => exact execSst_keeps
  | tld => exact execTld_keeps
  | tst => exact execTst_keeps
  | tlds => exact execTlds_keeps
  | tsts => exact execTsts_keeps
  | tmov => exact execTmov_keeps
  | tzero => exact execTzero_keeps
  | tfill => exact execTfill_keeps
  | ttrn => exact execTtrn_keeps
  | trow => exact execTrow_keeps
  | tmask => exact execTmask_keeps
  | mload => exact execMload_keeps
  | mma => exact execMma_keeps
  | mmat => exact execMmat_keeps
  | mdl2 => exact execMdl2_keeps
  | mdnip => exact execMdnip_keeps
  | mdl1 => exact execMdl1_keeps
  | mdham => exact execMdham_keeps
  | mdmax => exact execMdmax_keeps
  | mdmin => exact execMdmin_keeps
  | mwait => exact execMwait_keeps
  | tkinit => exact execTkinit_keeps
  | tkmerge => exact execTkmerge_keeps
  | tkread => exact execTkread_keeps
  | tkthr => exact execTkthr_keeps
  | vadd => exact execVadd_keeps
  | vsub => exact execVsub_keeps
  | vmul => exact execVmul_keeps
  | vmax => exact execVmax_keeps
  | vmin => exact execVmin_keeps
  | vfma => exact execVfma_keeps
  | vand => exact execVand_keeps
  | vor => exact execVor_keeps
  | vxor => exact execVxor_keeps
  | vcmp => exact execVcmp_keeps
  | vselm => exact execVselm_keeps
  | vabs => exact execVabs_keeps
  | vneg => exact execVneg_keeps
  | vrelu => exact execVrelu_keeps
  | vgelu => exact execVgelu_keeps
  | vsilu => exact execVsilu_keeps
  | vsigm => exact execVsigm_keeps
  | vtanh => exact execVtanh_keeps
  | vexp => exact execVexp_keeps
  | vlog => exact execVlog_keeps
  | vrsqrt => exact execVrsqrt_keeps
  | vrcp => exact execVrcp_keeps
  | vsqrt => exact execVsqrt_keeps
  | vrsum => exact execVrsum_keeps
  | vcsum => exact execVcsum_keeps
  | vrmax => exact execVrmax_keeps
  | vcmax => exact execVcmax_keeps
  | vlnorm => exact execVlnorm_keeps
  | vrmsn => exact execVrmsn_keeps
  | vsmax => exact execVsmax_keeps
  | vbcast => exact execVbcast_keeps
  | vcvt => exact execVcvt_keeps
  | vqgrp => exact execVqgrp_keeps
  | vdqgrp => exact execVdqgrp_keeps
  | gath => exact execGath_keeps
  | radd => exact execRadd_keeps
  | rwr => exact execRwr_keeps
  | sstart => exact execSstart_keeps
  | sstop => exact execSstop_keeps
  | chfwd => exact execChfwd_keeps
  | rstore => exact execRstore_keeps
  | hld => exact execHld_keeps
  | hst => exact execHst_keeps
  | tokenArrival => exact execTokenArrival_keeps
  | creditReturn => exact execCreditReturn_keeps
  | timeoutEdge => exact execTimeoutEdge_keeps
  | jobEnded => exact execJobEnded_keeps
  | cellCntFreeze => exact execCellCntFreeze_keeps
  | cellCntClear => exact execCellCntClear_keeps
  | cellFaultValidClear => exact execCellFaultValidClear_keeps
  | frontEndRequest => exact execFrontEndRequest_keeps
  | requestPart => exact execRequestPart_keeps
  | rowFetchDone => exact execRowFetchDone_keeps
  | partDone => exact execPartDone_keeps
  | reCntFreeze => exact execReCntFreeze_keeps
  | reCntClear => exact execReCntClear_keeps
  | reTagsRead => exact execReTagsRead_keeps
  | reFaultValidClear => exact execReFaultValidClear_keeps
  | stage => exact execStage_keeps
  | publish => exact execPublish_keeps
  | waitSlotPublish => exact execWaitSlotPublish_keeps
  | publishDone => exact execPublishDone_keeps
  | abort => exact execAbort_keeps
  | query => exact execQuery_keeps
  | bind => exact execBind_keeps
  | release => exact execRelease_keeps
  | publishSet => exact execPublishSet_keeps
  | tblCmdNop => exact execTblCmdNop_keeps
  | rowCacheSweepDone => exact execRowCacheSweepDone_keeps
  | sketchHalving => exact execSketchHalving_keeps
  | countMessageSend => exact execCountMessageSend_keeps
  | countMessage => exact execCountMessage_keeps
  | replicaSetCreated => exact execReplicaSetCreated_keeps
  | replicaWrite => exact execReplicaWrite_keeps
  | replicaWriteAck => exact execReplicaWriteAck_keeps
  | replicaLagExpiry => exact execReplicaLagExpiry_keeps
  | cacheSketchHalving => exact execCacheSketchHalving_keeps
  | coldPageArrival => exact execColdPageArrival_keeps
  | coldDeadline => exact execColdDeadline_keeps
  | coldWriteBackDone => exact execColdWriteBackDone_keeps
  | entryFetched => exact execEntryFetched_keeps
  | blockLanded => exact execBlockLanded_keeps
  | mcastCredit => exact execMcastCredit_keeps
  | lagTimeExpiry => exact execLagTimeExpiry_keeps
  | skipMarker => exact execSkipMarker_keeps
  | chunkArrival => exact execChunkArrival_keeps
  | ringCredit => exact execRingCredit_keeps
  | stackRead => exact execStackRead_keeps
  | stackWrite => exact execStackWrite_keeps
  | drainMarker => exact execDrainMarker_keeps
  | patrolScrub => exact execPatrolScrub_keeps
  | softRepair => exact execSoftRepair_keeps
  | stackFailed => exact execStackFailed_keeps
  | memWcbRead => exact execMemWcbRead_keeps
  | build => exact execBuild_keeps
  | histogramDone => exact execHistogramDone_keeps
  | load => exact execLoad_keeps
  | cmpRelease => exact execCmpRelease_keeps
  | cmpCmdNop => exact execCmpCmdNop_keeps
  | queuedCountChange => exact execQueuedCountChange_keeps
  | generationFree => exact execGenerationFree_keeps
  | installWaitResume => exact execInstallWaitResume_keeps
  | installDone => exact execInstallDone_keeps
  | rangeAdd => exact execRangeAdd_keeps
  | rangeRemove => exact execRangeRemove_keeps
  | rangeReplace => exact execRangeReplace_keeps
  | rangeRead => exact execRangeRead_keeps
  | xltCmdNop _ op => exact execXltCmdNop_keeps (_op := op)
  | rangeInvalidation => exact execRangeInvalidation_keeps
  | invalidationAck => exact execInvalidationAck_keeps
  | rangeFetch => exact execRangeFetch_keeps
  | hostLineFill => exact execHostLineFill_keeps
  | accessHalving => exact execAccessHalving_keeps
  | xltHotPop => exact execXltHotPop_keeps
  | imgStage => exact execImgStage_keeps
  | stageDone => exact execStageDone_keeps
  | imgCommit => exact execImgCommit_keeps
  | epochBoundary => exact execEpochBoundary_keeps
  | commitLimit => exact execCommitLimit_keeps
  | applyDone => exact execApplyDone_keeps
  | imgDiscard => exact execImgDiscard_keeps
  | imgCmdNop op => exact execImgCmdNop_keeps (_op := op)
  | admission => exact execAdmission_keeps
  | jobStart => exact execJobStart_keeps
  | batchComplete => exact execBatchComplete_keeps
  | completionRecord => exact execCompletionRecord_keeps
  | preemptionRequest => exact execPreemptionRequest_keeps
  | preempt => exact execPreempt_keeps
  | sliceLimit => exact execSliceLimit_keeps
  | beResume => exact execBeResume_keeps
  | jigMove => exact execJigMove_keeps
  | moveDone => exact execMoveDone_keeps
  | submissionRingCtlWrite => exact execSubmissionRingCtlWrite_keeps
  | cqCtlWrite => exact execCqCtlWrite_keeps
  | partLcWaitMaxRead => exact execPartLcWaitMaxRead_keeps
  | partFlush => exact execPartFlush_keeps
  | bar2Read => exact execBar2Read_keeps
  | bar2Write => exact execBar2Write_keeps
  | mbxSlotWrite => exact execMbxSlotWrite_keeps
  | mbxDoorbell => exact execMbxDoorbell_keeps
  | mbxSubmit => exact execMbxSubmit_keeps
  | mbxEcho => exact execMbxEcho_keeps
  | mbxBadOp => exact execMbxBadOp_keeps
  | mailboxReply => exact execMailboxReply_keeps
  | hostTransferDone => exact execHostTransferDone_keeps
  | completionTimeout => exact execCompletionTimeout_keeps
  | copy => exact execCopy_keeps
  | ceNop => exact execCeNop_keeps
  | ceComplete => exact execCeComplete_keeps
  | ceRingCtlWrite => exact execCeRingCtlWrite_keeps
  | ceResume => exact execCeResume_keeps
  | ceAbort => exact execCeAbort_keeps
  | snoop => exact execSnoop_keeps
  | linkRecovery => exact execLinkRecovery_keeps
  | linkDown => exact execLinkDown_keeps
  | linkUp => exact execLinkUp_keeps
  | hotReset => exact execHotReset_keeps
  | perstNAssert => exact execPerstNAssert_keeps
  | flrPf => exact execFlrPf_keeps
  | flrVf => exact execFlrVf_keeps
  | netWrite => exact execNetWrite_keeps
  | readReq => exact execReadReq_keeps
  | readResp => exact execReadResp_keeps
  | netUpdate => exact execNetUpdate_keeps
  | netGather => exact execNetGather_keeps
  | netSubmit => exact execNetSubmit_keeps
  | netDone => exact execNetDone_keeps
  | reduceUp => exact execReduceUp_keeps
  | reduceDown => exact execReduceDown_keeps
  | redo => exact execRedo_keeps
  | netAck => exact execNetAck_keeps
  | netNak => exact execNetNak_keeps
  | netBadFrame => exact execNetBadFrame_keeps
  | arpRequest => exact execArpRequest_keeps
  | neighbourSolicitation => exact execNeighbourSolicitation_keeps
  | pauseFrame => exact execPauseFrame_keeps
  | pfcFrame => exact execPfcFrame_keeps
  | otherFrame => exact execOtherFrame_keeps
  | ptpSync => exact execPtpSync_keeps
  | ptpSyncLoss => exact execPtpSyncLoss_keeps
  | rtoExpiry => exact execRtoExpiry_keeps
  | pureAck => exact execPureAck_keeps
  | roundTimeout => exact execRoundTimeout_keeps
  | portUp => exact execPortUp_keeps
  | portDown => exact execPortDown_keeps
  | portLaneSpare => exact execPortLaneSpare_keeps
  | sendRingTail => exact execSendRingTail_keeps
  | sendWrite => exact execSendWrite_keeps
  | sendRead => exact execSendRead_keeps
  | sendUpdate => exact execSendUpdate_keeps
  | sendGather => exact execSendGather_keeps
  | sendSubmit => exact execSendSubmit_keeps
  | reduce => exact execReduce_keeps
  | sendNop => exact execSendNop_keeps
  | peerReset => exact execPeerReset_keeps
  | netSakWrite => exact execNetSakWrite_keeps
  | redEnable => exact execRedEnable_keeps
  | heartbeat => exact execHeartbeat_keeps
  | heartbeatSend => exact execHeartbeatSend_keeps
  | hello => exact execHello_keeps
  | helloSend => exact execHelloSend_keeps
  | journal => exact execJournal_keeps
  | journalDone => exact execJournalDone_keeps
  | hrvUpdate => exact execHrvUpdate_keeps
  | command => exact execCommand_keeps
  | commandDone => exact execCommandDone_keeps
  | window => exact execWindow_keeps
  | sync => exact execSync_keeps
  | syncComplete => exact execSyncComplete_keeps
  | hrvAck => exact execHrvAck_keeps
  | hrvNak => exact execHrvNak_keeps
  | goodbye => exact execGoodbye_keeps
  | hrvBadFrame => exact execHrvBadFrame_keeps
  | hrvResend => exact execHrvResend_keeps
  | hrvPureAck => exact execHrvPureAck_keeps
  | laneDown => exact execLaneDown_keeps
  | laneReturn => exact execLaneReturn_keeps
  | partnerLoss => exact execPartnerLoss_keeps
  | probeWindowExpiry => exact execProbeWindowExpiry_keeps
  | replayAdmission => exact execReplayAdmission_keeps
  | hrvLinkEn => exact execHrvLinkEn_keeps
  | hrvSakWrite => exact execHrvSakWrite_keeps
  | faultReport => exact execFaultReport_keeps
  | incidentClose => exact execIncidentClose_keeps
  | faultRingCtlWrite => exact execFaultRingCtlWrite_keeps
  | fatalEvent => exact execFatalEvent_keeps
  | stewardWdt => exact execStewardWdt_keeps
  | replayDecision => exact execReplayDecision_keeps
  | replay => exact execReplay_keeps
  | jigDue => exact execJigDue_keeps
  | jigDone => exact execJigDone_keeps
  | reJigDone => exact execReJigDone_keeps
  | netJigDone => exact execNetJigDone_keeps
  | shadowCompare => exact execShadowCompare_keeps
  | larkFlush => exact execLarkFlush_keeps
  | marginSample => exact execMarginSample_keeps
  | larkSelWrite => exact execLarkSelWrite_keeps
  | larkCopyDone => exact execLarkCopyDone_keeps
  | faultAlertClear => exact execFaultAlertClear_keeps
  | prsntAssert => exact execPrsntAssert_keeps
  | presenceSettled => exact execPresenceSettled_keeps
  | controllerReady => exact execControllerReady_keeps
  | notReady => exact execNotReady_keeps
  | smartPoll => exact execSmartPoll_keeps
  | nvmeCompletion => exact execNvmeCompletion_keeps
  | cartRemoval => exact execCartRemoval_keeps
  | eject => exact execEject_keeps
  | ejectAbortTimeout => exact execEjectAbortTimeout_keeps
  | fill => exact execFill_keeps
  | migrate => exact execMigrate_keeps
  | adopt => exact execAdopt_keeps
  | discardDirty => exact execDiscardDirty_keeps
  | cartCmdNop => exact execCartCmdNop_keeps
  | inputVoltageLow => exact execInputVoltageLow_keeps
  | powerFault => exact execPowerFault_keeps
  | inputOff => exact execInputOff_keeps
  | powerSample => exact execPowerSample_keeps
  | capStep => exact execCapStep_keeps
  | fastLimit => exact execFastLimit_keeps
  | fastLimitRelease => exact execFastLimitRelease_keeps
  | thermalThrottle => exact execThermalThrottle_keeps
  | thermal => exact execThermal_keeps
  | thermalTrip => exact execThermalTrip_keeps
  | pluggableInserted => exact execPluggableInserted_keeps
  | inputOn => exact execInputOn_keeps
  | standbyRailsUp => exact execStandbyRailsUp_keeps
  | firmwareRunning => exact execFirmwareRunning_keeps
  | dieSelfTestDone => exact execDieSelfTestDone_keeps
  | perstNRelease => exact execPerstNRelease_keeps
  | configReady => exact execConfigReady_keeps
  | memReady => exact execMemReady_keeps
  | imageReady => exact execImageReady_keeps
  | modResetNRelease => exact execModResetNRelease_keeps
  | glbResetWarm => exact execGlbResetWarm_keeps
  | glbResetPartition => exact execGlbResetPartition_keeps
  | glbResetCold => exact execGlbResetCold_keeps
  | glbResetNop op => exact execGlbResetNop_keeps (_op := op)
  | writeBackLimit => exact execWriteBackLimit_keeps
  | partitionResetDone => exact execPartitionResetDone_keeps
  | keySet => exact execKeySet_keeps
  | keyRevoke => exact execKeyRevoke_keeps
  | healthClear => exact execHealthClear_keeps
  | mtimeAdvance => exact execMtimeAdvance_keeps
  | oemReset => exact execOemReset_keeps
  | larkRead => exact execLarkRead_keeps
  | statusRead => exact execStatusRead_keeps
  | setPowerCap => exact execSetPowerCap_keeps
  | getSensorReading => exact execGetSensorReading_keeps
  | firmwareUpdate => exact execFirmwareUpdate_keeps
  | pldmBase => exact execPldmBase_keeps
  | getVersion => exact execGetVersion_keeps
  | getCapabilities => exact execGetCapabilities_keeps
  | negotiateAlgorithms => exact execNegotiateAlgorithms_keeps
  | getDigests => exact execGetDigests_keeps
  | getCertificate => exact execGetCertificate_keeps
  | challenge => exact execChallenge_keeps
  | getMeasurements => exact execGetMeasurements_keeps
  | entdaa => exact execEntdaa_keeps
  | returnToService => exact execReturnToService_keeps
  | regulatorBucketRefill => exact execRegulatorBucketRefill_keeps
  | streamBucketRefill => exact execStreamBucketRefill_keeps
  | horviLaneTrained => exact execHorviLaneTrained_keeps
  | inputVoltageRestored => exact execInputVoltageRestored_keeps
  | inletTemperatureRestored => exact execInletTemperatureRestored_keeps
  | repairPauseEnd => exact execRepairPauseEnd_keeps
  | setEndpointId => exact execSetEndpointId_keeps

/-- An idle nanosecond moves MTIME and the cap counter alone. -/
theorem tick_keeps (s : State) : Keeps s (tick s) := by
  have moved : Keeps s { s with mtime := s.mtime + 1 } := .of_core rfl
  unfold tick
  exact .ite (.ite moved (moved.trans State.modPower_keeps)) (.refl s)

/-- The invariant does not speak of the queue. -/
theorem State.Inv.withPending {s : State} (h : s.Inv) (l : List Instr) : ({ s with pending := l } : State).Inv :=
  ⟨⟨h.1.model, h.1.cells, h.1.dies, h.1.engines, h.1.bays, h.1.ports, h.1.parts, h.1.tsvc, h.1.xlt, h.1.ces⟩,
    ⟨h.2.mem, h.2.host, h.2.cells⟩⟩

/-- Settles O4: a step is a tick or one command with the queue's rest, and both keep the invariant. -/
theorem stepKeepsInvariant : Obligations.StepKeepsInvariant := by
  intro s t hs ht
  unfold step at ht
  cases hp : s.pending with
  | nil =>
    rw [hp] at ht
    cases ht
    exact (tick_keeps s).2.2 hs
  | cons c rest =>
    rw [hp] at ht
    exact (exec_keeps c _ t ht).2.2 (hs.withPending rest)

/-- Settles O3: a command completes, and its law says that the queue and the part stay. -/
theorem commandsComplete : Obligations.CommandsComplete := by
  intro c s
  obtain ⟨t, ht⟩ := exec_completes c s
  obtain ⟨hpending, hmodel, -⟩ := exec_keeps c s t ht
  exact ⟨t, ht, hpending, hmodel⟩

end Sys2Proof.Machine

namespace Sys2Proof.Machine

/-! ## Reset (O2) -/

theorem resetOf_inv {m : Nat} (h : m ≤ 2) : (State.resetOf m).Inv := by
  refine ⟨⟨h, ?_, ?_, ?_, ?_, ?_, ?_, ?_, ?_, ?_⟩, ⟨Store.wf_empty, Store.wf_empty, fun c hc => ?_⟩⟩
  case refine_10 =>
    obtain ⟨i, -, rfl⟩ := List.mem_map.1 hc
    exact canon_fresh i
  all_goals simp [State.resetOf, Carts.fresh, Net.fresh]

/-- A position beyond the last one reads as the fresh cell it would have been. -/
theorem resetOf_cell (m i : Nat) : (State.resetOf m).cell i = Cell.fresh i := by
  have h : (State.resetOf m).cells = (List.range (40 * diesOf m)).map Cell.fresh := rfl
  rw [State.cell, h]
  generalize 40 * diesOf m = n
  by_cases hi : i < n <;> simp [hi]

theorem resetOf_part (m p : Nat) : (State.resetOf m).part p = .fresh := by
  have h : (State.resetOf m).parts = List.replicate 16 .fresh := rfl
  rw [State.part, h, List.getD_eq_getElem?_getD, List.getElem?_getD_replicate_default_eq]

/-- Settles O2: the fields of `State.resetOf` read off one by one, units by the two lemmas above. -/
theorem resetState : Obligations.ResetState := by
  have inv : State.reset.Inv := resetOf_inv (by decide)
  refine ⟨inv, rfl, rfl, rfl, rfl, rfl, rfl, rfl, rfl, rfl, rfl, inv.1.cells, inv.1.engines, fun p => ?_, fun i => ?_,
    rfl, rfl, rfl, rfl, rfl, rfl, rfl, rfl⟩
  · rw [State.reset, resetOf_part]; exact ⟨rfl, rfl⟩
  · rw [State.reset, resetOf_cell]; exact ⟨rfl, rfl, rfl⟩
end Sys2Proof.Machine

namespace Sys2Proof.Machine

/-! ## Register blocks of absent units (O55) -/

/-- A write of the physical function changes nothing where a write of the register it starts in changes nothing. -/
theorem State.registerWrite_of_discarded {s : State} {off : Nat}
    (h : ∀ v w low, s.writeAt (off - off % 8) v w low = s) (size v : Nat) : s.registerWrite 0 off size v = s := by
  simp only [State.registerWrite, State.busOff, if_true, h, ite_self]

/-- Global registers other than GLB_RESET and IMG_CMD are only stored. -/
theorem State.writeGlb_stored {a : Nat} (h1 : a ≠ 0x18) (h2 : a ≠ 0x300) (s : State) (v w : Nat) (low : Bool) :
    s.writeGlb a v w low = s.store a v := by
  unfold State.writeGlb
  split
  · exact absurd rfl h1
  · exact absurd rfl h2
  · rfl

/-- A write of what stores nothing is discarded (R7, R13). -/
theorem State.store_unstored {s : State} {a : Nat} (h : cfgFields s.model a = []) (v : Nat) : s.store a v = s := if_pos h

/-- An offset of a block that belongs to an absent unit (R7): the network, Horvi and cartridge blocks, cells, row engines and
stream ports beyond those of the part. -/
def State.AbsentReg (s : State) (a : Nat) : Prop :=
  (0x3400000 ≤ a ∧ a < 0x3440000 ∧ portsOf s.model = 0) ∨ (0x3600000 ≤ a ∧ a < 0x3602000 ∧ s.model = 2) ∨
    (0x3800000 ≤ a ∧ a < 0x3802000 ∧ s.carts.bays = []) ∨ (0x1000000 + 0x400000 * s.dieCount ≤ a ∧ a < 0x3000000) ∨
    (0x3000000 + 0x40000 * s.stackCount ≤ a ∧ a < 0x3400000) ∨ (0x40000 + 0x800 * s.cells.length ≤ a ∧ a < 0xE0000)

theorem State.viewReg_absent {s : State} {a : Nat} (h : s.AbsentReg a) : s.viewReg a = 0 := by
  rcases h with ⟨h1, h2, ports⟩ | ⟨h1, h2, model⟩ | ⟨h1, h2, bays⟩ | ⟨h1, h2⟩ | ⟨h1, h2⟩ | ⟨h1, h2⟩
  case inr.inr.inl => simp (disch := omega) only [State.viewReg, if_pos, if_neg, bays, if_true]
  all_goals simp (disch := omega) only [State.viewReg, if_pos, if_neg]

/-- Below the host interface only the global registers of R298 and R462 hold stored fields, and only GLB_RESET and IMG_CMD start
anything: a write of any other register is discarded. -/
theorem State.writeAt_glb_readOnly {s : State} {a : Nat} (h : a < 0x100000)
    (ha : a ∉ [0x18, 0x300, 0x308, 0x310, 0x320, 0x408]) (v w : Nat) (low : Bool) : s.writeAt a v w low = s := by
  simp only [List.mem_cons, List.not_mem_nil, or_false, not_or] at ha
  obtain ⟨hreset, himg, haddr, hlen, hwait, hcap⟩ := ha
  have unstored : cfgFields s.model a = [] := by simp (disch := omega) only [cfgFields, if_neg]
  rw [State.writeAt, if_pos h, State.writeGlb_stored hreset himg, State.store_unstored unstored]

theorem State.writeAt_absent {s : State} {a : Nat} (h : s.AbsentReg a) (v w : Nat) (low : Bool) : s.writeAt a v w low = s := by
  rcases h with ⟨h1, h2, ports⟩ | ⟨h1, h2, model⟩ | ⟨h1, h2, bays⟩ | ⟨h1, h2⟩ | ⟨h1, h2⟩ | ⟨h1, h2⟩
  case inr.inr.inl => simp (disch := omega) only [State.writeAt, vfMbxBase, if_pos, if_neg, bays, if_true]
  case inr.inr.inr.inr.inr =>
    exact State.writeAt_glb_readOnly (by omega) (by simp only [List.mem_cons, List.not_mem_nil, or_false]; omega) v w low
  all_goals simp (disch := omega) only [State.writeAt, State.writeNet, State.writeHrv, vfMbxBase, if_pos, if_neg]

/-- Settles O55: a read and a write fall through every block that is there. -/
theorem absentUnitRegisters : Obligations.AbsentUnitRegisters := by
  intro s off a h
  have absent : s.AbsentReg (off - off % 8) := h
  refine ⟨State.viewReg_absent absent, fun size v => ?_⟩
  show Host.Outcome.next _ = _
  rw [State.registerWrite_of_discarded (State.writeAt_absent absent)]
end Sys2Proof.Machine

namespace Sys2Proof.Machine

/-! ## Stored registers and their fields (R12, R13) -/

/-- In a list whose entries are kept on both sides of key a, another key is found as before. -/
theorem find_around {α : Type} (l m : List (Nat × α)) {a b : Nat} (hb : b ≠ a) (hm : ∀ e ∈ m, e.1 = a) :
    (l.filter (fun e => e.1 < a) ++ m ++ l.filter (fun e => a < e.1)).find? (fun e => e.1 == b) = l.find? (fun e => e.1 == b) := by
  have hmid : m.find? (fun e => e.1 == b) = none := by
    rw [List.find?_eq_none]
    intro e he
    simp [hm e he, Ne.symm hb]
  induction l with
  | nil => simpa using hmid
  | cons e l ih => grind

theorem State.reg_setReg_ne (s : State) {a b : Nat} (v : Nat) (h : b ≠ a) : (s.setReg a v).reg b = s.reg b := by
  unfold State.reg State.setReg
  simp only
  rw [find_around _ _ h (by intro e he; split at he <;> simp_all)]

theorem State.reg_setReg_self (s : State) (a : Nat) {v : Nat} (h : v < 2 ^ 64) : (s.setReg a v).reg a = v := by
  have left : (s.regs.filter fun e => e.1 < a).find? (fun e => e.1 == a) = none := by simp; omega
  have right : (s.regs.filter fun e => a < e.1).find? (fun e => e.1 == a) = none := by simp; omega
  unfold State.reg State.setReg
  simp only [List.find?_append, left, right, Option.none_or, Option.or_none]
  split_ifs with reset
  · simp [reset]
  · simpa using h

/-- A clamped field takes the nearest value of its range (R12). -/
theorem rwc_clamp {lo width reset min_ max_ : Nat} (v : Nat) (h : min_ ≤ max_) (hset : min_ ≠ 4 ∨ reset ≠ 0) :
    (rwc lo width reset min_ max_).clamp v = max min_ (min max_ (v % 2 ^ width)) := by
  simp only [RegField.clamp, rwc, Nat.div_one, Nat.mod_one, Nat.mul_zero, Nat.not_lt_zero, if_false, Nat.one_mul]
  grind

/-- A plain field takes every value. -/
theorem rw_clamp (lo width reset v : Nat) : (rw lo width reset).clamp v = v % 2 ^ width := by
  have hmod : v % 2 ^ width < 2 ^ width := Nat.mod_lt _ (Nat.two_pow_pos _)
  have := rwc_clamp (lo := lo) (width := width) (reset := reset) v (Nat.zero_le (2 ^ width - 1)) (.inl (by decide))
  rw [show rw lo width reset = rwc lo width reset 0 (2 ^ width - 1) from rfl, this]
  omega

@[simp] theorem State.reg_countClamps (s : State) (a v b : Nat) : (s.countClamps a v).reg b = s.reg b := rfl

/-- A register with stored fields takes the value that they apply, and the clamps are counted. -/
theorem State.store_stored {s : State} {a : Nat} (h : cfgFields s.model a ≠ []) (v : Nat) :
    s.store a v = (s.setReg a (cfgApply s.model a v)).countClamps a v := if_neg h

/-- A write of all eight bytes of a register. -/
theorem State.registerWrite_whole (s : State) {a : Nat} (h : a % 8 = 0) (v : BitVec 64) :
    s.registerWrite 0 a 8 v.toNat = s.writeAt a (v.toNat + s.viewReg a / 2 ^ 64 * 2 ^ 64) v.toNat true := by
  have hv : v.toNat % 18446744073709551616 = v.toNat := Nat.mod_eq_of_lt v.isLt
  simp [State.registerWrite, State.busOff, h, Nat.mod_one, hv]

/-- A whole write of a register that is only stored: what the register showed beyond 64 bits is no part of any field. -/
theorem State.registerWrite_stored {s : State} {a : Nat} {v : BitVec 64} (h : a % 8 = 0)
    (hs : ∀ v w low, s.writeAt a v w low = s.store a v) (hf : cfgFields s.model a ≠ []) :
    ∃ k, s.registerWrite 0 a 8 v.toNat = (s.setReg a (cfgApply s.model a (v.toNat + k * 2 ^ 64))).countClamps a
      (v.toNat + k * 2 ^ 64) :=
  ⟨_, by rw [State.registerWrite_whole s h, hs, State.store_stored hf]⟩

/-! ## Register writes (O56) -/

theorem floorOf_le_tdpOf (m : Nat) : floorOf m ≤ tdpOf m := by
  unfold floorOf tdpOf
  split <;> decide

theorem tdpOf_lt (m : Nat) : tdpOf m < 2 ^ 64 := by
  unfold tdpOf
  split <;> decide

theorem cfgFields_powerCap (m : Nat) : cfgFields m 0x408 = [rwc 0 16 (tdpOf m) (floorOf m) (tdpOf m)] := rfl

theorem tdpOf_pos (m : Nat) : tdpOf m ≠ 0 := by
  unfold tdpOf
  split <;> decide

/-- MGT_POWER_CAP takes the nearest wattage between floor and sustained limit, and counts a clamp where that is another (R12, R462). -/
theorem State.registerWrite_powerCap (s : State) (v : BitVec 64) :
    let capped := max (floorOf s.model) (min (tdpOf s.model) (bits v.toNat 15 0))
    s.registerWrite 0 0x408 8 v.toNat = (s.setReg 0x408 capped).modHealth fun h => { h with
      cntClamps := h.cntClamps + (if capped = bits v.toNat 15 0 then 0 else 1) } := by
  intro capped
  obtain ⟨k, hk⟩ := State.registerWrite_stored (s := s) (a := 0x408) (v := v) rfl (fun v w low => by
    rw [State.writeAt, if_pos (by decide), State.writeGlb_stored (by decide) (by decide)]) (by simp [cfgFields_powerCap])
  have field : (v.toNat + k * 2 ^ 64) / 2 ^ 0 % 2 ^ 16 = bits v.toNat 15 0 := by
    simp only [bits, Nat.shiftRight_zero]; omega
  have clamped : (rwc 0 16 (tdpOf s.model) (floorOf s.model) (tdpOf s.model)).clamp ((v.toNat + k * 2 ^ 64) / 2 ^ 0) = capped := by
    rw [rwc_clamp _ (floorOf_le_tdpOf _) (.inr (tdpOf_pos _)), field]
  rw [hk]
  have value : cfgApply s.model 0x408 (v.toNat + k * 2 ^ 64) = capped := by
    simp only [cfgApply, cfgFields_powerCap, List.map_cons, List.map_nil, List.sum_cons, List.sum_nil]
    rw [show (rwc 0 16 (tdpOf s.model) (floorOf s.model) (tdpOf s.model)).lo = 0 from rfl, clamped]
    omega
  have count : clampsIn s.model 0x408 (v.toNat + k * 2 ^ 64) = if capped = bits v.toNat 15 0 then 0 else 1 := by
    simp only [clampsIn, cfgFields_powerCap, List.filter_cons, List.filter_nil]
    rw [show (rwc 0 16 (tdpOf s.model) (floorOf s.model) (tdpOf s.model)).lo = 0 from rfl, clamped,
      show (rwc 0 16 (tdpOf s.model) (floorOf s.model) (tdpOf s.model)).width = 16 from rfl, field]
    by_cases h : capped = bits v.toNat 15 0 <;> simp [h]
  rw [value, State.countClamps, show (s.setReg 0x408 capped).model = s.model from rfl, count]
  split_ifs <;> rfl

theorem diesOf_bounds (m : Nat) : 2 ≤ diesOf m ∧ diesOf m ≤ 8 := by
  unfold diesOf
  split <;> decide

theorem stacksOf_bounds (m : Nat) : 4 ≤ stacksOf m ∧ stacksOf m ≤ 16 := by
  unfold stacksOf
  split <;> decide

theorem cfgFields_jigSchedule (m : Nat) :
    cfgFields m 0x3C000B0 = [rwc 0 11 0x3C 5 1440, rwc 16 15 0x7D0 100 30000] := by
  have dieRange := diesOf_bounds m
  have stackRange := stacksOf_bounds m
  rw [cfgFields]
  simp (disch := omega) only [if_neg, if_pos]
  rfl

theorem cfgApply_jigSchedule (m x : Nat) : cfgApply m 0x3C000B0 x =
    max 5 (min 1440 (x % 2 ^ 11)) + max 100 (min 30000 (x / 2 ^ 16 % 2 ^ 15)) * 2 ^ 16 := by
  simp only [cfgApply, cfgFields_jigSchedule, List.map_cons, List.map_nil, List.sum_cons, List.sum_nil]
  rw [rwc_clamp _ (by decide) (.inl (by decide)), rwc_clamp _ (by decide) (.inl (by decide))]
  simp [rwc]

/-- The schedule register of the jig holds the nearest legal value of each of its two fields (R412). -/
theorem State.registerWrite_jigSchedule (s : State) (v : BitVec 64) :
    ∃ k, s.registerWrite 0 0x3C000B0 8 v.toNat = (s.setReg 0x3C000B0
      (max 5 (min 1440 (bits v.toNat 10 0)) + max 100 (min 30000 (bits v.toNat 30 16)) * 2 ^ 16)).countClamps 0x3C000B0
        (v.toNat + k * 2 ^ 64) := by
  have base : faultBase = 0x3C00000 := rfl
  obtain ⟨k, hk⟩ := State.registerWrite_stored (s := s) (a := 0x3C000B0) (v := v) rfl (fun v w low => by
    simp (disch := omega) only [State.writeAt, State.writeFault, vfMbxBase, if_neg, if_pos])
    (by simp [cfgFields_jigSchedule])
  refine ⟨k, ?_⟩
  have low : (v.toNat + k * 2 ^ 64) % 2 ^ 11 = bits v.toNat 10 0 := by simp only [bits, Nat.shiftRight_zero]; omega
  have high : (v.toNat + k * 2 ^ 64) / 2 ^ 16 % 2 ^ 15 = bits v.toNat 30 16 := by
    simp only [bits, Nat.shiftRight_eq_div_pow]; omega
  rw [hk, cfgApply_jigSchedule, low, high]

theorem cfgFields_xltArg (m : Nat) {p : Nat} (h : p < 16) : cfgFields m (0x400008 + 0x10000 * p) = [rw 0 64 0] := by
  simp (disch := omega) only [cfgFields, if_neg, if_pos]

theorem cfgApply_xltArg (m x : Nat) {p : Nat} (h : p < 16) : cfgApply m (0x400008 + 0x10000 * p) x = x % 2 ^ 64 := by
  simp only [cfgApply, cfgFields_xltArg _ h, List.map_cons, List.map_nil, List.sum_cons, List.sum_nil, rw_clamp]
  simp [rw]

/-- XLT_ARG takes the whole word (R267). -/
theorem State.registerWrite_xltArg (s : State) {p : Nat} (h : p < 16) (v : BitVec 64) :
    ∃ u, s.registerWrite 0 (0x400008 + 0x10000 * p) 8 v.toNat =
      (s.setReg (0x400008 + 0x10000 * p) v.toNat).countClamps (0x400008 + 0x10000 * p) u := by
  have base : faultBase = 0x3C00000 := rfl
  obtain ⟨k, hk⟩ := State.registerWrite_stored (s := s) (a := 0x400008 + 0x10000 * p) (v := v) (by omega) (fun v w low => by
    simp (disch := omega) only [State.writeAt, vfMbxBase, if_neg])
    (by simp [cfgFields_xltArg _ h])
  have whole : (v.toNat + k * 2 ^ 64) % 2 ^ 64 = v.toNat := by have := v.isLt; omega
  exact ⟨_, by rw [hk, cfgApply_xltArg _ _ h, whole]⟩

theorem State.viewReg_xltArg (s : State) {p : Nat} (h : p < 16) :
    s.viewReg (0x400008 + 0x10000 * p) = s.reg (0x400008 + 0x10000 * p) := by
  have hp : (0x400008 + 0x10000 * p - 0x400000) / 0x10000 = p := by omega
  have ho : (0x400008 + 0x10000 * p) % 0x10000 = 8 := by omega
  simp (disch := omega) only [State.viewReg, if_neg, if_pos]
  rw [hp, ho]
  simp (disch := omega) only [State.xltView, xltBase, if_neg]
  congr 1
  omega

/-- The function's BAR0 of a virtual function shows its partition's translation registers from 0x10000 on (R328). -/
theorem State.registerWrite_virtualXlt (s : State) {p : Nat} (h : p < 16) (size v : Nat) :
    s.registerWrite (p + 1) 0x10008 size v = s.registerWrite 0 (0x400008 + 0x10000 * p) size v := by
  have bus : s.busOff (p + 1) 0x10008 = s.busOff 0 (0x400008 + 0x10000 * p) := by
    rw [State.busOff, State.busOff, if_neg (by omega), if_pos rfl, Nat.add_sub_cancel, if_neg (by omega)]
    show some (xltBase p + 0x10008 % 0x10000) = _
    rw [xltBase]
    congr 1
    omega
  simp only [State.registerWrite, bus]

/-- The stored register of a cell is its watchdog limit (R80); a write of another one than CELL_CNT_CTL and CELL_FAULT is
discarded. -/
theorem State.writeAt_cell_readOnly {s : State} {a : Nat} (h : 0x1000000 ≤ a ∧ a < 0x1010000)
    (ha : a % 0x10000 ∉ [0x18, 0x20, 0x98]) (v w : Nat) (low : Bool) : s.writeAt a v w low = s := by
  simp only [List.mem_cons, List.not_mem_nil, or_false, not_or] at ha
  obtain ⟨hctl, hfault, hlimit⟩ := ha
  have dieRange : 2 ≤ s.dieCount := (diesOf_bounds s.model).1
  have unstored : cfgFields s.model a = [] := by
    have dieRange := diesOf_bounds s.model
    simp (disch := omega) only [cfgFields, cellCfg, if_pos, if_neg]
  simp (disch := omega) only [State.writeAt, vfMbxBase, if_pos, if_neg]
  unfold State.writeCell
  split
  · exact absurd ‹_› hctl
  · exact absurd ‹_› hfault
  · exact State.store_unstored unstored v

/-- The stored register of a row engine is its tag limit (R137). -/
theorem State.writeAt_engine_readOnly {s : State} {a : Nat} (h : 0x3000000 ≤ a ∧ a < 0x3040000)
    (ha : a % 0x40000 ∉ [0x18, 0x20, 0x30]) (v w : Nat) (low : Bool) : s.writeAt a v w low = s := by
  simp only [List.mem_cons, List.not_mem_nil, or_false, not_or] at ha
  obtain ⟨hctl, hlimit, hfault⟩ := ha
  have stackRange : 4 ≤ s.stackCount := (stacksOf_bounds s.model).1
  have unstored : cfgFields s.model a = [] := by
    have dieRange := diesOf_bounds s.model
    have stackRange := stacksOf_bounds s.model
    simp (disch := omega) only [cfgFields, engineCfg, if_pos, if_neg]
  simp (disch := omega) only [State.writeAt, vfMbxBase, if_pos, if_neg]
  unfold State.writeEngine
  split
  · exact absurd ‹_› hctl
  · exact absurd ‹_› hfault
  · exact State.store_unstored unstored v

theorem faultCfg_view {o : Nat} (h : 0x60 ≤ o ∧ o < 0x100) (ho : o ∉ [0x90, 0xA0, 0xA8, 0xB0]) : faultCfg o = [] := by
  simp only [List.mem_cons, List.not_mem_nil, or_false, not_or] at ho
  obtain ⟨hmask, hpolicy, hevents, hjig⟩ := ho
  have hlark : o ≠ 0x400 := by omega
  rw [faultCfg, if_neg (by omega), if_neg (by omega)]
  split
  case isTrue => omega
  case isFalse => rfl
  · exact hmask
  · exact hpolicy
  · exact hevents
  · exact hjig
  · exact hlark

/-- Views and counters of the fault block store nothing (R424). -/
theorem State.writeAt_fault_readOnly {s : State} {a : Nat} (h : 0x3C00060 ≤ a ∧ a < 0x3C00100)
    (ha : a ∉ [0x3C00088, 0x3C00090, 0x3C000A0, 0x3C000A8, 0x3C000B0]) (v w : Nat) (low : Bool) :
    s.writeAt a v w low = s := by
  simp only [List.mem_cons, List.not_mem_nil, or_false, not_or] at ha
  obtain ⟨halert, hmask, hpolicy, hevents, hjig⟩ := ha
  have base : faultBase = 0x3C00000 := rfl
  have unstored : cfgFields s.model a = [] := by
    have dieRange := diesOf_bounds s.model
    have stackRange := stacksOf_bounds s.model
    simp (disch := omega) only [cfgFields, if_pos, if_neg]
    exact faultCfg_view (by omega) (by simp only [List.mem_cons, List.not_mem_nil, or_false]; omega)
  simp (disch := omega) only [State.writeAt, State.writeFault, vfMbxBase, if_pos, if_neg]
  exact State.store_unstored unstored v

theorem State.writeAt_readOnly {s : State} {a : Nat} (h : a ∈ [0x10, 0x100, 0x108, 0x200, 0x318, 0x328, 0x400, 0x410, 0x440,
    0x448, 0x1000000, 0x1000008, 0x1000060, 0x3000000, 0x3000008, 0x3000040, 0x3C00080, 0x3C00098, 0x3C000C0]) (v w : Nat)
    (low : Bool) : s.writeAt a v w low = s := by
  by_cases hglb : a < 0x100000
  · exact State.writeAt_glb_readOnly hglb (by simp only [List.mem_cons, List.not_mem_nil, or_false] at h ⊢; omega) v w low
  by_cases hcell : a < 0x1010000
  · exact State.writeAt_cell_readOnly (by simp only [List.mem_cons, List.not_mem_nil, or_false] at h; omega)
      (by simp only [List.mem_cons, List.not_mem_nil, or_false] at h ⊢; omega) v w low
  by_cases hengine : a < 0x3040000
  · exact State.writeAt_engine_readOnly (by simp only [List.mem_cons, List.not_mem_nil, or_false] at h; omega)
      (by simp only [List.mem_cons, List.not_mem_nil, or_false] at h ⊢; omega) v w low
  · exact State.writeAt_fault_readOnly (by simp only [List.mem_cons, List.not_mem_nil, or_false] at h; omega)
      (by simp only [List.mem_cons, List.not_mem_nil, or_false] at h ⊢; omega) v w low

/-- FAULT_ALERT is cleared bit by bit (R424). -/
theorem State.registerWrite_alert (s : State) (v : BitVec 64) :
    s.registerWrite 0 0x3C00088 8 v.toNat = s.modHealth fun h => { h with alert := h.alert &&& ~~~ (v.truncate 7) } := by
  have base : faultBase = 0x3C00000 := rfl
  rw [State.registerWrite_whole s rfl]
  simp (disch := omega) only [State.writeAt, State.writeFault, vfMbxBase, if_neg, if_pos, State.alertClear,
    BitVec.ofNat_toNat]

/-- Settles O56: each clause is the law of one register, read through `reg_setReg_self` and `reg_setReg_ne`. -/
theorem registerWrites : Obligations.RegisterWrites := by
  refine ⟨fun s a v hv => ⟨s.reg_setReg_self a hv, fun b hb => s.reg_setReg_ne v hb⟩, fun s v => ?_⟩
  refine ⟨?_, ?_, fun p hp => ?_, fun p hp => ?_, fun a ha size => ?_, ?_⟩
  · refine ⟨_, congrArg Host.Outcome.next (s.registerWrite_powerCap v), ?_, fun b hb => ?_, rfl⟩
    · exact s.reg_setReg_self _ (by have := tdpOf_lt s.model; have := floorOf_le_tdpOf s.model; omega)
    · exact s.reg_setReg_ne _ hb
  · obtain ⟨k, hk⟩ := s.registerWrite_jigSchedule v
    refine ⟨_, congrArg Host.Outcome.next hk, ?_, ?_, fun b hb => ?_, rfl⟩
    · rw [State.reg_countClamps, State.reg_setReg_self _ _ (by omega)]
      generalize bits v.toNat 10 0 = x
      generalize bits v.toNat 30 16 = y
      rw [bits, Nat.shiftRight_eq_div_pow]
      omega
    · rw [State.reg_countClamps, State.reg_setReg_self _ _ (by omega)]
      generalize bits v.toNat 10 0 = x
      generalize bits v.toNat 30 16 = y
      rw [bits, Nat.shiftRight_eq_div_pow]
      omega
    · rw [State.reg_countClamps, State.reg_setReg_ne _ _ hb]
  · obtain ⟨u, hu⟩ := s.registerWrite_xltArg hp v
    refine ⟨_, congrArg Host.Outcome.next hu, ?_, rfl, rfl⟩
    rw [State.viewReg_xltArg _ hp, State.reg_countClamps, State.reg_setReg_self _ _ v.isLt]
  · exact congrArg Host.Outcome.next (s.registerWrite_virtualXlt hp 8 v.toNat)
  · have whole : a - a % 8 = a := by fin_cases ha <;> rfl
    refine congrArg Host.Outcome.next (State.registerWrite_of_discarded (fun v w low => ?_) size v.toNat)
    rw [whole]
    exact State.writeAt_readOnly ha v w low
  · exact congrArg Host.Outcome.next (s.registerWrite_alert v)
end Sys2Proof.Machine

namespace Sys2Proof.Machine

/-! ## Reads of GLB_MTIME (R31) -/

theorem leNat_leBytes_of_lt {n v : Nat} (h : v < 256 ^ n) : leNat (leBytes n v) = v := by
  rw [leNat_leBytes, Nat.mod_eq_of_lt h]

/-- The low word is answered, the high word latched for the function (R31). -/
theorem State.exec_glbMtimeLowRead (s : State) (f : Nat) :
    ∃ t, exec (.glbMtimeLowRead f) s = .next t ∧ t.hif.readData = leBytes 4 (s.now .host % 2 ^ 64) ∧
      t.hif.mtimeLatch = s.hif.mtimeLatch.filter (fun e => e.1 != f) ++ [(f, BitVec.ofNat 32 (s.now .host % 2 ^ 64 / 2 ^ 32))] ∧
      t = { s with hif := { s.hif with readData := t.hif.readData, readMarked := false, mtimeLatch := t.hif.mtimeLatch } } :=
  ⟨_, rfl, rfl, rfl, rfl⟩

/-- A latched high word is answered, and the latch of the function is gone (R31). -/
theorem State.exec_glbMtimeHighRead {s : State} {f : Nat} {e : Nat × BitVec 32}
    (h : s.hif.mtimeLatch.find? (fun e => e.1 == f) = some e) : ∃ t, exec (.glbMtimeHighRead f) s = .next t ∧
      leNat t.hif.readData = e.2.toNat ∧ ∀ x ∈ t.hif.mtimeLatch, x.1 ≠ f := by
  refine ⟨_, rfl, ?_, fun x hx => by simpa using (List.mem_filter.1 hx).2⟩
  simp only [State.modHif, h]
  exact leNat_leBytes_of_lt e.2.isLt

/-- Without a latch the current high word is answered (R31). -/
theorem State.exec_glbMtimeHighRead_unlatched {s : State} {f : Nat} (h : ∀ e ∈ s.hif.mtimeLatch, e.1 ≠ f) :
    ∃ t, exec (.glbMtimeHighRead f) s = .next t ∧ leNat t.hif.readData = s.now .host % 2 ^ 64 / 2 ^ 32 ∧ t.mtime = s.mtime := by
  have none : s.hif.mtimeLatch.find? (fun e => e.1 == f) = none := by simpa using h
  refine ⟨_, rfl, ?_, rfl⟩
  simp only [State.modHif, none]
  exact leNat_leBytes_of_lt (Nat.div_lt_of_lt_mul (Nat.mod_lt _ (by decide)))

theorem State.viewReg_mtime (s : State) : s.viewReg 0x200 = s.now .host % 2 ^ 64 := by
  simp (disch := decide) only [State.viewReg, State.glbView, if_neg, if_pos]

/-! ## Shadow sets (R36) -/

/-- The state whose registers a shadow copy of an island takes: its clock, its wait counter and its sensors brought up to date. -/
def State.sampled (s : State) (i : Island) : State :=
  let s := s.oscillate i
  let s := match i with | .cell p => s.modCell p (·.waited (s.now i)) | _ => s
  if i = .steward then s.senseTemps else s

/-- The shadow set that a copy puts in place (R36). -/
def State.shadowSet (s : State) (i : Island) : Shadow :=
  ⟨i, s.now i, ((s.shadowOffs i).map fun a => (a, BitVec.ofNat 64 (s.viewReg a))).filter fun x => x.2 != 0⟩

theorem State.shadowCopy_absent {s : State} {i : Island} (h : s.hasIsland i = false) : s.shadowCopy i = s := by
  simp [State.shadowCopy, h]

/-- A copy of an island that is there replaces its shadow set. -/
theorem State.shadowCopy_eq {s : State} {i : Island} (h : s.hasIsland i = true) : s.shadowCopy i =
    { s.sampled i with shadows := (s.sampled i).shadows.filter (fun x => x.island != i) ++ [(s.sampled i).shadowSet i] } := by
  simp only [State.shadowCopy, h, Bool.not_true, Bool.false_eq_true, if_false]
  cases i <;> rfl

theorem State.sampled_mem (s : State) (i : Island) : (s.sampled i).mem = s.mem := by cases i <;> rfl
theorem State.sampled_shadows (s : State) (i : Island) : (s.sampled i).shadows = s.shadows := by cases i <;> rfl
theorem State.sampled_now (s : State) (i : Island) : (s.sampled i).now i = s.now i := by cases i <;> rfl

section
variable (s : State) (l : List Shadow)
/-! What a register shows does not rest on the shadow sets. The proofs stand in parentheses so that simp rewrites by them as
equations: as definitional unfoldings they would have the kernel compare blocks at numerals of eight digits. -/
@[simp] theorem State.glbView_withShadows : ({ s with shadows := l } : State).glbView = s.glbView := (rfl)
@[simp] theorem State.hifView_withShadows : ({ s with shadows := l } : State).hifView = s.hifView := (rfl)
@[simp] theorem State.ceView_withShadows : ({ s with shadows := l } : State).ceView = s.ceView := (rfl)
@[simp] theorem State.xltView_withShadows : ({ s with shadows := l } : State).xltView = s.xltView := (rfl)
@[simp] theorem State.partView_withShadows : ({ s with shadows := l } : State).partView = s.partView := (rfl)
@[simp] theorem State.svcView_withShadows : ({ s with shadows := l } : State).svcView = s.svcView := (rfl)
@[simp] theorem State.cmpView_withShadows : ({ s with shadows := l } : State).cmpView = s.cmpView := (rfl)
@[simp] theorem State.netView_withShadows : ({ s with shadows := l } : State).netView = s.netView := (rfl)
@[simp] theorem State.hrvView_withShadows : ({ s with shadows := l } : State).hrvView = s.hrvView := (rfl)
@[simp] theorem State.cartView_withShadows : ({ s with shadows := l } : State).cartView = s.cartView := (rfl)
@[simp] theorem State.faultView_withShadows : ({ s with shadows := l } : State).faultView = s.faultView := (rfl)
@[simp] theorem State.cell_withShadows : ({ s with shadows := l } : State).cell = s.cell := (rfl)
@[simp] theorem State.engine_withShadows : ({ s with shadows := l } : State).engine = s.engine := (rfl)
@[simp] theorem State.reg_withShadows : ({ s with shadows := l } : State).reg = s.reg := (rfl)
@[simp] theorem State.dieCount_withShadows : ({ s with shadows := l } : State).dieCount = s.dieCount := (rfl)
@[simp] theorem State.stackCount_withShadows : ({ s with shadows := l } : State).stackCount = s.stackCount := (rfl)

/-- Registers show the state beside its shadow sets: block by block. -/
@[simp] theorem State.viewReg_withShadows (a : Nat) : ({ s with shadows := l } : State).viewReg a = s.viewReg a := by
  unfold State.viewReg
  repeat' with_reducible apply if_congr
  all_goals simp
end

theorem State.shadowOffs_withShadows (s : State) (l : List Shadow) (i : Island) :
    ({ s with shadows := l } : State).shadowOffs i = s.shadowOffs i := by cases i <;> rfl

/-- A register that reads from a shadow set is one of that set's. -/
theorem State.mem_shadowOffs {s : State} {a : Nat} {i : Island} (h : s.shadowOf a = some i) : a ∈ s.shadowOffs i := by
  have holds : ∀ j, (if (s.shadowOffs j).contains a then some j else none) = some i → a ∈ s.shadowOffs i := by
    intro j hj
    split at hj
    · cases hj; exact List.contains_iff_mem.1 ‹_›
    · cases hj
  unfold State.shadowOf at h
  split_ifs at h
  case neg =>
    obtain ⟨j, -, hj⟩ := List.exists_of_findSome?_eq_some h
    exact holds j hj
  all_goals exact holds _ (by simpa using h)

/-- What a shadow set holds for a register: its value at the copy. -/
theorem State.shadowSet_value (s : State) (i : Island) {a : Nat} (h : a ∈ s.shadowOffs i) :
    (((s.shadowSet i).regs.find? fun r => r.1 == a).map fun r => r.2.toNat).getD 0 = s.viewReg a % 2 ^ 64 := by
  have scan : ∀ l : List Nat, ((((l.map fun a => (a, BitVec.ofNat 64 (s.viewReg a))).filter fun x => x.2 != 0).find?
      fun r => r.1 == a).map fun r => r.2.toNat).getD 0 = if a ∈ l then s.viewReg a % 2 ^ 64 else 0 := by
    intro l
    induction l with
    | nil => rfl
    | cons b l ih =>
      rw [List.map_cons, List.filter_cons]
      by_cases hz : BitVec.ofNat 64 (s.viewReg b) = 0
      · have zero : s.viewReg b % 2 ^ 64 = 0 := congrArg BitVec.toNat hz
        rw [if_neg (by simp [hz]), ih]
        by_cases hb : b = a
        · subst hb; simp only [zero, ite_self]
        · simp [Ne.symm hb]
      · rw [if_pos (by simpa using hz), List.find?_cons]
        by_cases hb : b = a
        · simp [hb]
        · have miss : (b == a) = false := by simp [hb]
          simp only [miss, ih, List.mem_cons, Ne.symm hb, false_or]
  rw [State.shadowSet, scan, if_pos h]

theorem State.readReg_shadow {u : State} {a : Nat} {i : Island} {x : Shadow} (ho : u.shadowOf a = some i)
    (hx : u.shadows.find? (fun x => x.island == i) = some x) :
    u.readReg a = ((x.regs.find? fun r => r.1 == a).map fun r => r.2.toNat).getD 0 := by
  simp only [State.readReg, ho, Option.bind_some, hx]

/-- After a copy the island's shadow set is the last of the list and the only one of its island. -/
theorem State.shadowCopy_shadows {s : State} {i : Island} (h : s.hasIsland i = true) :
    (s.shadowCopy i).shadows = s.shadows.filter (fun x => x.island != i) ++ [(s.sampled i).shadowSet i] := by
  rw [State.shadowCopy_eq h, State.sampled_shadows]

theorem State.shadowCopy_getLast {s : State} {i : Island} (h : s.hasIsland i = true) :
    ∃ r, (s.shadowCopy i).shadows.getLast? = some ⟨i, s.now i, r⟩ :=
  ⟨((s.sampled i).shadowSet i).regs, by
    rw [State.shadowCopy_shadows h, List.getLast?_concat, State.shadowSet, State.sampled_now]⟩

theorem State.shadowCopy_keeps_others {s : State} {i : Island} (h : s.hasIsland i = true) {x : Shadow} (hx : x ∈ s.shadows)
    (hne : x.island ≠ i) : x ∈ (s.shadowCopy i).shadows := by
  rw [State.shadowCopy_shadows h]
  simp [hx, hne]

theorem State.shadowCopy_mem {s : State} {i : Island} (h : s.hasIsland i = true) : (s.shadowCopy i).mem = s.mem := by
  rw [State.shadowCopy_eq h]
  exact s.sampled_mem i

theorem State.shadowCopy_find {s : State} {i : Island} (h : s.hasIsland i = true) :
    (s.shadowCopy i).shadows.find? (fun x => x.island == i) = some ((s.sampled i).shadowSet i) := by
  have others : (s.shadows.filter fun x => x.island != i).find? (fun x => x.island == i) = none := by simp
  rw [State.shadowCopy_shadows h, List.find?_append, others]
  simp [State.shadowSet]

theorem State.shadowCopy_viewReg {s : State} {i : Island} (h : s.hasIsland i = true) (a : Nat) :
    (s.shadowCopy i).viewReg a = (s.sampled i).viewReg a := by
  rw [State.shadowCopy_eq h, State.viewReg_withShadows]

theorem State.shadowCopy_shadowOffs {s : State} {i : Island} (h : s.hasIsland i = true) :
    (s.shadowCopy i).shadowOffs i = (s.sampled i).shadowOffs i := by
  rw [State.shadowCopy_eq h, State.shadowOffs_withShadows]

/-- Until the next copy a read returns what the register showed at this one (R36). -/
theorem State.readReg_after_shadowCopy {s u : State} {i : Island} {a : Nat} (h : s.hasIsland i = true)
    (ha : a ∈ (s.sampled i).shadowOffs i) (hu : u.shadowOf a = some i) (hs : u.shadows = (s.shadowCopy i).shadows) :
    u.readReg a = (s.sampled i).viewReg a % 2 ^ 64 := by
  rw [State.readReg_shadow hu (hs ▸ State.shadowCopy_find h), State.shadowSet_value _ _ ha]

/-! ## The registers of a row engine (R135 to R138) -/

/-- A register of a row engine that its shadow set holds reads from it. -/
theorem State.shadowOf_engine {u : State} {k o : Nat} (hk : k < 16) (ho : o < 0x40000)
    (h : engineBase k + o ∈ u.shadowOffs (.rowEngine k)) : u.shadowOf (engineBase k + o) = some (.rowEngine k) := by
  have hq : (engineBase k + o - 0x3000000) / 0x40000 = k := by unfold engineBase; omega
  have lo : 0x3000000 ≤ engineBase k + o := by unfold engineBase; omega
  have hi : engineBase k + o < 0x3400000 := by unfold engineBase; omega
  simp (disch := omega) only [State.shadowOf, if_neg, if_pos]
  rw [hq, if_pos (List.contains_iff_mem.2 h)]

theorem mem_offs {lo n o : Nat} : o ∈ offs lo n ↔ ∃ j < n, o = lo + 8 * j := by simp [offs, eq_comm]

/-- The twelve counters of an engine stand in its shadow set (R135). -/
theorem State.counter_mem_shadowOffs (u : State) (k : Nat) {j : Nat} (hj : j < 12) :
    engineBase k + (0x40 + 8 * j) ∈ u.shadowOffs (.rowEngine k) := by
  have h : engineBase k + (0x40 + 8 * j) ∈ offs (engineBase k + 0x40) 12 := mem_offs.2 ⟨j, hj, by omega⟩
  simp [State.shadowOffs, h]

theorem State.tags_mem_shadowOffs (u : State) (k : Nat) : engineBase k + 0x28 ∈ u.shadowOffs (.rowEngine k) := by
  simp [State.shadowOffs]

/-- A register of the first half of a row engine's block shows the engine. -/
theorem State.viewReg_engine {s : State} {k o : Nat} (hk : k < s.stackCount) (ho : o < 0x20000) :
    s.viewReg (engineBase k + o) = (s.engine k).view k o (s.reg (engineBase k + o)) := by
  have range : s.stackCount ≤ 16 := (stacksOf_bounds s.model).2
  have hq : (engineBase k + o - 0x3000000) / 0x40000 = k := by unfold engineBase; omega
  have hr : (engineBase k + o) % 0x40000 = o := by unfold engineBase; omega
  have lo : 0x3000000 ≤ engineBase k + o := by unfold engineBase; omega
  have hi : engineBase k + o < 0x3400000 := by unfold engineBase; omega
  simp (disch := omega) only [State.viewReg, if_neg, if_pos, hq, hr]

theorem Engine.view_counter (e : Engine) (k stored : Nat) {j : Nat} (hj : j < 12) :
    e.view k (0x40 + 8 * j) stored = (e.cnt.list.getD j 0).toNat := by
  have index : (0x40 + 8 * j - 0x40) / 8 = j := by omega
  simp (disch := omega) only [Engine.view, if_neg, if_pos, index]

theorem State.sampled_stackCount (s : State) (i : Island) : (s.sampled i).stackCount = s.stackCount := by cases i <;> rfl

/-- Sampling a row engine moves its clock alone. -/
theorem State.sampled_engine (s : State) {k : Nat} (h : k < s.engines.length) :
    ∃ mhz, (s.sampled (.rowEngine k)).engine k = { s.engine k with mhz } :=
  ⟨_, State.engine_modEngine_self _ _ h⟩

/-- A counter of a row engine reads as it stood at the last copy (R36, R135). -/
theorem State.readReg_counter_after_shadowCopy {s u : State} {k j : Nat} (h : k < s.engines.length) (hk : k < s.stackCount)
    (hj : j < 12) (hs : u.shadows = (s.shadowCopy (.rowEngine k)).shadows) :
    u.readReg (engineBase k + (0x40 + 8 * j)) = ((s.engine k).cnt.list.getD j 0).toNat := by
  have range : s.stackCount ≤ 16 := (stacksOf_bounds s.model).2
  obtain ⟨mhz, engine⟩ := s.sampled_engine h
  rw [State.readReg_after_shadowCopy (i := .rowEngine k) (by simpa [State.hasIsland] using h)
    (State.counter_mem_shadowOffs _ k hj)
    (State.shadowOf_engine (by omega) (by omega) (State.counter_mem_shadowOffs u k hj)) hs,
    State.viewReg_engine (by rwa [State.sampled_stackCount]) (by omega), Engine.view_counter _ _ _ hj, engine]
  exact Nat.mod_eq_of_lt (BitVec.isLt _)

/-! ## The tag register (R12, R137) -/

theorem bits_div (v hi lo : Nat) : bits v hi lo = v / 2 ^ lo % 2 ^ (hi + 1 - lo) := by
  rw [bits, Nat.shiftRight_eq_div_pow]

/-- A shadow set after the high-water mark of a register has been cleared in it. -/
def Shadow.clearMark (a : Nat) (x : Shadow) : Shadow :=
  { x with regs := (x.regs.map fun r => if r.1 = a then (a, BitVec.ofNat 64 (r.2.toNat % 2 ^ 16)) else r).filter fun r => r.2 != 0 }

theorem State.readMark_eq (s : State) (a : Nat) : s.readMark a =
    { s with shadows := s.shadows.map (Shadow.clearMark a)
             hif := { s.hif with readData := leBytes 8 (s.readReg a), readMarked := false } } := rfl

/-- No bit from 16 up is left of a cleared mark. -/
theorem Shadow.clearMark_value (x : Shadow) (a : Nat) :
    (((x.clearMark a).regs.find? fun r => r.1 == a).map fun r => r.2.toNat).getD 0 < 2 ^ 16 := by
  cases h : (x.clearMark a).regs.find? fun r => r.1 == a with
  | none => simp
  | some r =>
    have key : r.1 = a := by simpa using List.find?_some h
    obtain ⟨r', -, rfl⟩ := List.mem_map.1 (List.mem_filter.1 (List.mem_of_find?_eq_some h)).1
    by_cases hr : r'.1 = a
    · simp only [hr, if_true, Option.map_some, Option.getD_some, BitVec.toNat_ofNat]
      omega
    · simp [hr] at key

/-- RE_TAGS is read: the answer, the cleared mark in the shadow sets, and the engine whose mark starts again. -/
theorem State.exec_reTagsRead {s : State} {k : Nat} : ∃ t, exec (.reTagsRead k) s = .next t ∧
    t = { s with
      engines := s.engines.modify k fun e => { e with tagsHigh := e.tags }
      shadows := s.shadows.map (Shadow.clearMark (engineBase k + 0x28))
      hif := { s.hif with readData := leBytes 8 (s.readReg (engineBase k + 0x28)), readMarked := false } } :=
  ⟨_, rfl, rfl⟩

/-- With a shadow set of the engine the mark of its tag register reads zero after a clear (R12). -/
theorem State.readReg_clearedTags {s t : State} {k : Nat} (hk : k < 16) (hs : ∃ x ∈ s.shadows, x.island = .rowEngine k)
    (ht : t.shadows = s.shadows.map (Shadow.clearMark (engineBase k + 0x28))) :
    bits (t.readReg (engineBase k + 0x28)) 29 16 = 0 := by
  obtain ⟨y, hy⟩ : ∃ y, s.shadows.find? (fun x => x.island == .rowEngine k) = some y := by
    obtain ⟨x, hx, hi⟩ := hs
    exact Option.isSome_iff_exists.1 (List.find?_isSome.2 ⟨x, hx, by simp [hi]⟩)
  have found : t.shadows.find? (fun x => x.island == .rowEngine k) = some (y.clearMark (engineBase k + 0x28)) := by
    rw [ht, List.find?_map, show (fun x : Shadow => x.island == .rowEngine k) ∘ Shadow.clearMark (engineBase k + 0x28) =
      fun x => x.island == .rowEngine k from rfl, hy, Option.map_some]
  have small := Shadow.clearMark_value y (engineBase k + 0x28)
  rw [State.readReg_shadow (State.shadowOf_engine hk (by omega) (State.tags_mem_shadowOffs t k)) found, bits_div,
    Nat.div_eq_of_lt small, Nat.zero_mod]

/-- Before the first copy the tag register reads live: tags held and their high-water mark (log entry 46). -/
theorem State.readReg_tags_unshadowed {s : State} {k : Nat} (hk : k < 16) (hstack : k < s.stackCount)
    (h : ∀ x ∈ s.shadows, x.island ≠ .rowEngine k) :
    s.readReg (engineBase k + 0x28) = rf 0 14 (s.engine k).tags + rf 16 14 (s.engine k).tagsHigh := by
  have none : s.shadows.find? (fun x => x.island == .rowEngine k) = none := by simpa using h
  rw [State.readReg, State.shadowOf_engine hk (by omega) (State.tags_mem_shadowOffs s k), Option.bind_some, none]
  show s.viewReg _ = _
  rw [State.viewReg_engine hstack (by omega)]
  simp [Engine.view]

theorem State.modEngine_eq_set (s : State) (k : Nat) (f : Engine → Engine) :
    s.engines.modify k f = s.engines.set k (f (s.engine k)) := modify_eq_set _ _ _ _

/-- Settles O57: the latch of GLB_MTIME, the shadow sets and the engine registers, each by the laws above. -/
theorem registerReads : Obligations.RegisterReads := by
  refine ⟨fun s u f => ⟨s.viewReg_mtime, ?_, State.exec_glbMtimeHighRead_unlatched⟩, fun s u k => ⟨?_, ?_, ?_⟩,
    fun s k hk => ⟨?_, ?_, ?_, ?_⟩⟩
  · obtain ⟨t, ht, hdata, hlatch, heq⟩ := s.exec_glbMtimeLowRead f
    have word : s.now .host % 2 ^ 64 / 2 ^ 32 < 2 ^ 32 := Nat.div_lt_of_lt_mul (Nat.mod_lt _ (by decide))
    refine ⟨t, ht, ?_, ?_, heq, fun hu => ?_, fun e he => ?_⟩
    · rw [hdata, leNat_leBytes, State.now]; norm_num
    · rw [hdata, leBytes_length]
    · have found : u.hif.mtimeLatch.find? (fun e => e.1 == f) = some (f, BitVec.ofNat 32 (s.now .host % 2 ^ 64 / 2 ^ 32)) := by
        have others : (s.hif.mtimeLatch.filter fun e => e.1 != f).find? (fun e => e.1 == f) = none := by simp
        rw [hu, hlatch, List.find?_append, others]
        simp
      obtain ⟨r, hr, high, gone⟩ := State.exec_glbMtimeHighRead found
      exact ⟨r, hr, high.trans (Nat.mod_eq_of_lt word), gone⟩
    · have new : e ≠ (f, BitVec.ofNat 32 (s.now .host % 2 ^ 64 / 2 ^ 32)) := fun h => he (congrArg Prod.fst h)
      simp only [hlatch, List.mem_append, List.mem_filter, List.mem_singleton, new, or_false, bne_iff_ne, ne_eq, he,
        not_false_eq_true, and_true]
  · intro i hi
    exact congrArg Host.Outcome.next (State.shadowCopy_absent hi)
  · intro i hi
    refine ⟨_, rfl, State.shadowCopy_mem hi, State.shadowCopy_getLast hi, fun x => State.shadowCopy_keeps_others hi,
      fun a ha hu hs => ?_⟩
    rw [State.readReg_after_shadowCopy hi (State.shadowCopy_shadowOffs hi ▸ State.mem_shadowOffs ha) hu hs,
      State.shadowCopy_viewReg hi]
  · intro hk hstack h16
    have hi : s.hasIsland (.rowEngine k) = true := by simpa [State.hasIsland] using hk
    obtain ⟨mhz, engine⟩ := s.sampled_engine hk
    have copied : (s.shadowCopy (.rowEngine k)).engine k = { s.engine k with mhz } := by
      rw [State.shadowCopy_eq hi, State.engine_withShadows, engine]
    refine ⟨_, rfl, State.shadowCopy_mem hi, ?_, State.shadowCopy_getLast hi, fun x => State.shadowCopy_keeps_others hi,
      by rw [copied], by rw [copied], fun hs => ?_⟩
    · rw [State.shadowCopy_eq hi]; rfl
    · exact ⟨State.readReg_counter_after_shadowCopy (j := 0) hk hstack (by decide) hs,
        State.readReg_counter_after_shadowCopy (j := 1) hk hstack (by decide) hs⟩
  · exact fun b => congrArg Host.Outcome.next (congrArg (fun l => { s with engines := l }) (s.modEngine_eq_set k _))
  · exact congrArg Host.Outcome.next (congrArg (fun l => { s with engines := l }) (s.modEngine_eq_set k _))
  · refine ⟨_, rfl, ?_⟩
    rw [State.engine_modEngine_self _ _ hk]
    refine ⟨rfl, rfl, rfl, rfl, rfl, fun r hr => ?_, rfl,
      congrArg (fun l => { s with engines := l }) (s.modEngine_eq_set k _)⟩
    obtain ⟨r', -, rfl⟩ := List.mem_map.1 hr
    exact ⟨rfl, rfl, rfl⟩
  · obtain ⟨t, ht, rfl⟩ := State.exec_reTagsRead (s := s) (k := k)
    refine ⟨_, ht, s.modEngine_eq_set k _, rfl, fun h16 hs => State.readReg_clearedTags h16 hs rfl,
      fun h16 hstack hs hlow hhigh => ?_, rfl, rfl⟩
    have value : leNat (leBytes 8 (s.readReg (engineBase k + 0x28))) = (s.engine k).tags + 65536 * (s.engine k).tagsHigh := by
      rw [State.readReg_tags_unshadowed h16 hstack hs, leNat_leBytes, rf, rf]
      omega
    simp only [value, bits_div]
    omega

end Sys2Proof.Machine

namespace Sys2Proof.Machine

/-! ## Words of a byte string (R10) -/

theorem leNat_lt (b : Bytes) : leNat b < 256 ^ b.length := by
  induction b with
  | nil => simp [leNat]
  | cons x l ih =>
    have := x.isLt
    rw [leNat, List.length_cons, Nat.pow_succ]
    omega

theorem wordAt_lt (b : Bytes) (i : Nat) : wordAt b i < 2 ^ 64 :=
  calc wordAt b i < 256 ^ ((b.drop (8 * i)).take 8).length := leNat_lt _
    _ ≤ 256 ^ 8 := Nat.pow_le_pow_right (by decide) (by simp)

/-- A word of a string of words. -/
theorem wordAt_ofWords (l : List Nat) (i : Nat) : wordAt (ofWords l) i = l.getD i 0 % 2 ^ 64 := by
  induction l generalizing i with
  | nil => simp [wordAt, ofWords, leNat]
  | cons v l ih =>
    have split : ofWords (v :: l) = leBytes 8 v ++ ofWords l := rfl
    cases i with
    | zero =>
      rw [wordAt, split, Nat.mul_zero, List.drop_zero, List.take_left' (leBytes_length 8 v), leNat_leBytes]
      rfl
    | succ i =>
      have skip : 8 * (i + 1) = (leBytes 8 v).length + 8 * i := by rw [leBytes_length]; omega
      rw [wordAt, split, skip, List.drop_length_add_append]
      exact ih i

/-! ## The record of a descriptor that is not admitted (R304, R309) -/

theorem refusal_tag (s : State) (p : Nat) (cls : Cls) (desc : Bytes) (dropped : Nat) {status : Nat} (h : status ≠ 6) :
    wordAt (s.refusal p cls desc status dropped) 0 = wordAt desc 1 := by
  unfold State.refusal completionRecord
  rw [wordAt_ofWords, if_neg h]
  exact Nat.mod_eq_of_lt (wordAt_lt desc 1)

/-- HANDLE 0xFFFF_FFFF and STATUS of such a record. -/
theorem refusal_status (s : State) {p : Nat} (cls : Cls) (desc : Bytes) (dropped : Nat) {status : Nat} (hp : p < 16)
    (hs : status < 256) : bits (wordAt (s.refusal p cls desc status dropped) 1) 47 40 = status ∧
      bits (wordAt (s.refusal p cls desc status dropped) 1) 31 0 = 0xFFFFFFFF := by
  unfold State.refusal completionRecord
  rw [wordAt_ofWords]
  simp only [bits_div, List.getD_cons_succ, List.getD_cons_zero, b2n, Bool.false_eq_true, if_false]
  cases cls <;> constructor <;> simp only <;> omega

/-! ## Fresh handles (R145) -/

/-- A live binding or batch has the handle. -/
def State.handleUsed (s : State) (h : Nat) : Bool :=
  s.bindings.any (fun b => b.handle == h) || s.batches.any fun b => b.handle == h

/-- The handles that a search for a free one tries, one more than can be in use. -/
def State.handleCands (s : State) : List Nat :=
  (List.range (s.bindings.length + s.batches.length + 1)).map fun i => (s.nextHandle + i) % 0xFFFFFFFF

theorem State.freshHandle_eq (s : State) : s.freshHandle.1 = (s.handleCands.find? fun h => !s.handleUsed h).getD 0 := rfl

theorem State.handleUsed_iff (s : State) (h : Nat) :
    s.handleUsed h = true ↔ h ∈ s.bindings.map Binding.handle ++ s.batches.map Batch.handle := by
  simp [State.handleUsed]

/-- More candidates than handles in use: some candidate is free. -/
theorem State.exists_free_handle {s : State} (h : s.bindings.length + s.batches.length < 2 ^ 31) :
    ∃ c ∈ s.handleCands, s.handleUsed c = false := by
  have nodup : s.handleCands.Nodup := by
    refine List.Nodup.map_on (fun i hi j hj e => ?_) List.nodup_range
    rw [List.mem_range] at hi hj
    omega
  by_contra hall
  have all : s.handleCands ⊆ s.bindings.map Binding.handle ++ s.batches.map Batch.handle := fun c hc =>
    (s.handleUsed_iff c).1 (by by_contra hf; exact hall ⟨c, hc, by simpa using hf⟩)
  have := (List.subperm_of_subset nodup all).length_le
  simp [State.handleCands] at this

/-- The handle given is no live one and never 0xFFFF_FFFF. -/
theorem State.freshHandle_fresh {s : State} (h : s.bindings.length + s.batches.length < 2 ^ 31) :
    s.freshHandle.1 < 0xFFFFFFFF ∧ (∀ x ∈ s.bindings, x.handle ≠ s.freshHandle.1) ∧
      ∀ x ∈ s.batches, x.handle ≠ s.freshHandle.1 := by
  obtain ⟨c, hc⟩ : ∃ c, s.handleCands.find? (fun h => !s.handleUsed h) = some c := by
    obtain ⟨c, hc, hfree⟩ := State.exists_free_handle h
    exact Option.isSome_iff_exists.1 (List.find?_isSome.2 ⟨c, hc, by simp [hfree]⟩)
  have unused : c ∉ s.bindings.map Binding.handle ++ s.batches.map Batch.handle := fun hm => by
    simpa [(s.handleUsed_iff c).2 hm] using List.find?_some hc
  rw [State.freshHandle_eq, hc, Option.getD_some]
  refine ⟨?_, fun x hx e => unused ?_, fun x hx e => unused ?_⟩
  · obtain ⟨i, -, rfl⟩ := List.mem_map.1 (List.mem_of_find?_eq_some hc)
    exact Nat.mod_lt _ (by decide)
  · exact e ▸ List.mem_append_left _ (List.mem_map_of_mem hx)
  · exact e ▸ List.mem_append_right _ (List.mem_map_of_mem hx)

/-! ## Jobs enter the start queues (R304) -/

/-- Logical cell g, where some position carries it, changed by f. -/
def State.modLogical (s : State) (g : Nat) (f : Cell → Cell) : State :=
  match s.posOf g with
  | none => s
  | some i => s.modCell i f

/-- A cell with a job of the batch behind its start queue. -/
def Cell.withJob (c : Cell) (s : State) (b : Batch) : Cell :=
  { c with startQ := c.startQ ++ [⟨b.handle, b.cls, bits (wordAt b.desc 0) 27 16,
    BitVec.ofNat 32 (bits (wordAt b.desc 0) 63 32), s.now .control,
    c.job.any (fun j => j.cls == .be) && !c.startQ.any fun j => j.cls == .lc⟩] }

theorem State.enqueue_eq (s : State) (b : Batch) :
    s.enqueue b false = b.running.foldl (fun t g => t.modLogical g fun c => c.withJob s b) s := rfl

section
variable (s : State) (g : Nat) (f : Cell → Cell)

theorem State.modLogical_frame : s.modLogical g f = { s with cells := (s.modLogical g f).cells } := by
  unfold State.modLogical
  split <;> rfl

theorem State.modLogical_of_posOf {i : Nat} (h : s.posOf g = some i) : s.modLogical g f = s.modCell i f := by
  rw [State.modLogical, h]

theorem State.modLogical_cell_ne {i : Nat} (h : s.posOf g ≠ some i) : (s.modLogical g f).cell i = s.cell i := by
  unfold State.modLogical
  split
  · rfl
  · exact State.cell_modCell_ne _ _ (fun e => h (e ▸ ‹_›))

theorem State.modLogical_posOf (hf : ∀ c, (f c).logical = c.logical) (h : Nat) :
    (s.modLogical g f).posOf h = s.posOf h := by
  have kept : ∀ l : List Cell, ∀ i, (l.modify i f).findIdx? (fun c => c.logical == some h) =
      l.findIdx? (fun c => c.logical == some h) := by
    intro l
    induction l with
    | nil => simp
    | cons c l ih => intro i; cases i <;> simp [List.findIdx?_cons, hf, ih]
  unfold State.modLogical
  split
  · rfl
  · exact kept _ _

/-- One position carries one logical cell. -/
theorem State.posOf_inj {h i : Nat} (hg : s.posOf g = some i) (hh : s.posOf h = some i) : g = h := by
  obtain ⟨_, e1, -⟩ := List.findIdx?_eq_some_iff_getElem.1 hg
  obtain ⟨_, e2, -⟩ := List.findIdx?_eq_some_iff_getElem.1 hh
  simp_all
end

/-- The same change of several logical cells reaches each of their positions once and no other. -/
theorem State.foldl_modLogical (f : Cell → Cell) (hf : ∀ c, (f c).logical = c.logical) (l : List Nat) (hl : l.Nodup) (s : State) :
    let t := l.foldl (fun t g => t.modLogical g f) s
    t = { s with cells := t.cells } ∧ (∀ g i, g ∈ l → s.posOf g = some i → t.cell i = f (s.cell i)) ∧
      ∀ i, (∀ g ∈ l, s.posOf g ≠ some i) → t.cell i = s.cell i := by
  induction l generalizing s with
  | nil => exact ⟨rfl, fun g i hg => by simp at hg, fun i _ => rfl⟩
  | cons g l ih =>
    obtain ⟨notMem, hl⟩ := List.nodup_cons.1 hl
    obtain ⟨frame, changed, kept⟩ := ih hl (s.modLogical g f)
    simp only [State.modLogical_posOf _ _ _ hf] at changed kept
    refine ⟨?_, fun h i hh hi => ?_, fun i hi => ?_⟩
    · rw [List.foldl_cons, frame, State.modLogical_frame]
    · rcases List.mem_cons.1 hh with rfl | hmem
      · have here : (s.modLogical h f).cell i = f (s.cell i) := by
          rw [State.modLogical_of_posOf _ _ _ hi, State.cell_modCell_self _ _ (s.posOf_lt hi)]
        rw [List.foldl_cons, kept i (fun g hg hgi => notMem (State.posOf_inj s h hi hgi ▸ hg)), here]
      · have elsewhere : s.posOf g ≠ some i := fun hg => notMem (State.posOf_inj s g hg hi ▸ hmem)
        rw [List.foldl_cons, changed h i hmem hi, State.modLogical_cell_ne _ _ _ elsewhere]
    · rw [List.foldl_cons, kept i fun h hh => hi h (List.mem_cons_of_mem g hh),
        State.modLogical_cell_ne _ _ _ (hi g List.mem_cons_self)]

/-! ## Admission from a ring (R303, R304, R323) -/

theorem State.fillLines_frame (s : State) (a n : Nat) : s.fillLines a n = { s with hif := (s.fillLines a n).hif } := by
  unfold State.fillLines
  split <;> rfl

theorem State.hostRead_up {s : State} (h : s.hif.up = true) (a n : Nat) :
    s.hostRead a n = (s.host.read 64 a n, { s with hif := (s.fillLines a n).hif }) := by
  rw [State.hostRead, if_pos h, ← State.fillLines_frame]

/-- HEAD of a submission ring moved on. -/
def Partition.passHead (be : Bool) (u : Partition) : Partition :=
  if be then { u with beHead := u.beHead + 1 } else { u with lcHead := u.lcHead + 1 }

/-- Where the descriptor at HEAD of a submission ring stands in host memory. -/
def State.ringAddr (s : State) (p : Nat) (be : Bool) : Nat :=
  128 * (s.reg (partBase p + if be then 0x20 else 0x10) / 128) +
    128 * ((s.ringHead p be).toNat % 2 ^ bits (s.ringCtl p be) 3 0)

/-- The descriptor at HEAD of a submission ring. -/
def State.ringDesc (s : State) (p : Nat) (be : Bool) : Data := s.host.read 64 (s.ringAddr p be) 128

/-- The state once that descriptor has been read and passed: the host-line cache and HEAD have changed. -/
def State.ringPassed (s : State) (p : Nat) (be : Bool) : State :=
  { s with hif := (s.fillLines (s.ringAddr p be) 128).hif, parts := s.parts.modify p (Partition.passHead be) }

theorem State.ringTake_eq {s : State} {p : Nat} {be : Bool} (h : s.ringReady p be = true) :
    s.ringTake p be = (s.ringDesc p be, s.ringPassed p be) := by
  have up : s.hif.up = true := by
    simp only [State.ringReady, Bool.and_eq_true] at h
    exact h.1.1
  simp only [State.ringTake]
  rw [State.hostRead_up up]
  rfl

/-- The class of a ring. -/
def ringCls (be : Bool) : Cls := if be then .be else .lc

section
variable {s : State} {p : Nat} {be : Bool} (hw : (s.part p).waits = [])
include hw

/-- With nothing waiting outside the rings the next submission of a class is the descriptor at HEAD of its ring. -/
theorem State.nextSub_ready (hr : s.ringReady p be = true) : s.nextSub p (ringCls be) = some none := by
  unfold State.nextSub
  rw [hw]
  cases be <;> exact if_pos hr

theorem State.nextSub_none (hr : s.ringReady p be = false) : s.nextSub p (ringCls be) = none := by
  have hr : ¬ s.ringReady p be = true := by simp [hr]
  unfold State.nextSub
  rw [hw]
  cases be <;> exact if_neg hr

theorem State.admission_idle (hlc : s.ringReady p false = false) (hbe : s.ringReady p true = false) : s.admission p = s := by
  have lc : s.nextSub p .lc = none := State.nextSub_none hw hlc
  have be : s.nextSub p .be = none := State.nextSub_none hw hbe
  unfold State.admission
  rw [lc, be]

/-- The LC ring comes before the BE ring (R303). -/
theorem State.admission_ring (hr : s.ringReady p be = true) (hfirst : be = true → s.ringReady p false = false) :
    s.admission p = s.admitClass p (ringCls be) none := by
  unfold State.admission
  cases be with
  | false =>
    have lc : s.nextSub p .lc = some none := State.nextSub_ready hw hr
    rw [lc]
    rfl
  | true =>
    have lc : s.nextSub p .lc = none := State.nextSub_none hw (hfirst rfl)
    have be : s.nextSub p .be = some none := State.nextSub_ready hw hr
    rw [lc, be]
    rfl
end

/-- Why a partition takes no descriptor at all: it is undefined, or drained (R303). -/
def State.closedStatus (s : State) (p : Nat) : Option Nat :=
  if !(s.part p).defined then some 7 else if (s.part p).drained ∨ s.power.suspectHold then some 4 else none

/-- A descriptor that has been read and passed completes at once in a closed partition, and is admitted in an open one. -/
def State.takeDesc (p : Nat) (cls : Cls) (path : Nat) (closed : Option Nat) (x : Data × State) : State :=
  match closed with
  | some st => x.2.refuseSub p path 0 0 cls (x.2.refusal p cls x.1.bytes (if x.1.marked then 6 else st) 0)
  | none => x.2.admitDesc p path 0 0 cls x.1

theorem State.admitClass_ring (s : State) (p : Nat) (be : Bool) : s.admitClass p (ringCls be) none =
    if (s.closedStatus p).isNone ∧ (!(s.part p).opened ∨ !s.room p (ringCls be)) then s
    else State.takeDesc p (ringCls be) (b2n be) (s.closedStatus p) (s.ringTake p be) := by
  cases be <;> rfl

section
variable {s : State} {p : Nat} {be : Bool}

/-- A closed admission or a full partition leaves the descriptor in its ring. -/
theorem State.admitClass_waits (hc : s.closedStatus p = none) (h : (s.part p).opened = false ∨ s.room p (ringCls be) = false) :
    s.admitClass p (ringCls be) none = s := by
  rw [State.admitClass_ring, if_pos ⟨by simp [hc], by simpa using h⟩]

variable (hr : s.ringReady p be = true)
include hr

/-- A closed partition refuses the descriptor at HEAD of its ring. -/
theorem State.admitClass_closed {status : Nat} (hc : s.closedStatus p = some status)
    (hm : (s.ringDesc p be).marked = false) : s.admitClass p (ringCls be) none =
      (s.ringPassed p be).cqPut p 0xFFFFFFFF
        ((s.ringPassed p be).refusal p (ringCls be) (s.ringDesc p be).bytes status 0) := by
  rw [State.admitClass_ring, if_neg (by simp [hc]), State.ringTake_eq hr, hc, State.takeDesc, hm]
  cases be <;> rfl

theorem State.admitClass_open (hc : s.closedStatus p = none) (ho : (s.part p).opened = true)
    (hroom : s.room p (ringCls be) = true) : s.admitClass p (ringCls be) none =
      (s.ringPassed p be).admitDesc p (b2n be) 0 0 (ringCls be) (s.ringDesc p be) := by
  rw [State.admitClass_ring, if_neg (by simp [ho, hroom]), State.ringTake_eq hr, hc]
  rfl
end

/-! ## A descriptor that is read (R301, R304) -/

theorem State.journalWrite_unmirrored {s : State} {b : Batch} (h : s.mirrored b.part = false) : s.journalWrite b = (b, s) := by
  rw [State.journalWrite, if_pos (by simp [h])]

section
variable {s : State} {p : Nat} {be : Bool} {d : Data}

/-- A poisoned descriptor completes with POISON (R304). -/
theorem State.admitDesc_marked (hm : d.marked = true) : s.admitDesc p (b2n be) 0 0 (ringCls be) d =
    s.cqPut p 0xFFFFFFFF (s.refusal p (ringCls be) d.bytes 6 0) := by
  unfold State.admitDesc
  rw [if_pos hm]
  cases be <;> rfl

/-- A descriptor that names no cell of the partition completes at once (R304). -/
theorem State.admitDesc_noCell (hm : d.marked = false) (ho : (descCells d.bytes).filter (s.owns p) = []) :
    s.admitDesc p (b2n be) 0 0 (ringCls be) d =
      s.cqPut p 0xFFFFFFFF (s.refusal p (ringCls be) d.bytes 5 (descCells d.bytes).length) := by
  unfold State.admitDesc
  rw [if_neg (by simp [hm])]
  simp only [ho, if_true]
  cases be <;> rfl

/-- The batch of an admitted descriptor. -/
def State.admittedBatch (s : State) (p path : Nat) (cls : Cls) (d : Bytes) : Batch :=
  let own := (descCells d).filter (s.owns p)
  { s.newBatch p cls d own ((descCells d).length - own.length) path 0 0 with handle := s.freshHandle.1 }

/-- The bindings of a new batch: the CURRENT epoch of every table of the partition's catalogue (R145). -/
def State.newBindings (s : State) (p h : Nat) : List Binding :=
  s.tables.filterMap fun e =>
    if e.part ≠ p then none else some ⟨h, 0, p, e.table, ((s.current e.table).map (·.no)).getD 0⟩

/-- An admission counted for its class (R321). -/
def Partition.countAdmit (cls : Cls) (u : Partition) : Partition :=
  match cls with
  | .lc => { u with cntAdmitLc := u.cntAdmitLc + 1 }
  | .be => { u with cntAdmitBe := u.cntAdmitBe + 1 }

/-- The state in which the jobs of an admitted batch enter their queues. -/
def State.admitted (s : State) (p path : Nat) (cls : Cls) (d : Bytes) : State :=
  { s with
    nextHandle := (s.freshHandle.1 + 1) % 0xFFFFFFFF
    bindings := s.bindings ++ s.newBindings p s.freshHandle.1
    parts := s.parts.modify p (Partition.countAdmit cls)
    batches := s.batches ++ [s.admittedBatch p path cls d] }

/-- A readable descriptor that names cells of an unmirrored partition is admitted (R304). -/
theorem State.admitDesc_admitted (hm : d.marked = false) (ho : (descCells d.bytes).filter (s.owns p) ≠ [])
    (hmir : s.mirrored p = false) : s.admitDesc p (b2n be) 0 0 (ringCls be) d =
      (s.admitted p (b2n be) (ringCls be) d.bytes).enqueue (s.admittedBatch p (b2n be) (ringCls be) d.bytes) false := by
  unfold State.admitDesc
  rw [if_neg (by simp [hm])]
  simp only
  rw [if_neg ho, State.journalWrite_unmirrored]
  · cases be <;> rfl
  · exact hmir
end

/-! ## What passing, refusing and admitting leave (O32) -/

/-- The descriptor at HEAD of a ring has been passed; memories and registers are as before. -/
def State.PassedRing (s t : State) (p : Nat) (be : Bool) : Prop :=
  t.ringHead p be = s.ringHead p be + 1 ∧ t.ringTail p be = s.ringTail p be ∧ t.host = s.host ∧ t.mem = s.mem ∧ t.regs = s.regs

theorem State.ringPassed_part {s : State} {p : Nat} (be : Bool) (hp : p < s.parts.length) :
    (s.ringPassed p be).part p = Partition.passHead be (s.part p) := State.part_modPart_self s (Partition.passHead be) hp

theorem State.cqPut_part {s : State} {p : Nat} (h : Nat) (r : Bytes) (hp : p < s.parts.length) :
    ∃ n, (s.cqPut p h r).part p = { s.part p with held := (s.part p).held ++ [(h, r)], cntCqWait := n } :=
  ⟨_, State.part_modPart_self s _ hp⟩

/-- A refusal: the ring has moved on, a record with its status waits for the completion ring, and nothing was admitted. -/
theorem State.refused_passed {s : State} {p : Nat} {be : Bool} (desc : Bytes) {status : Nat} (dropped : Nat) (hp : p < 16)
    (hparts : s.parts.length = 16) (hs : status < 256) :
    let r := (s.ringPassed p be).refusal p (ringCls be) desc status dropped
    let t := (s.ringPassed p be).cqPut p 0xFFFFFFFF r
    s.PassedRing t p be ∧ t.batches = s.batches ∧ t.cells = s.cells ∧ t.bindings = s.bindings ∧
      (t.part p).held = (s.part p).held ++ [(0xFFFFFFFF, r)] ∧ bits (wordAt r 1) 47 40 = status ∧
      bits (wordAt r 1) 31 0 = 0xFFFFFFFF ∧ (status ≠ 6 → wordAt r 0 = wordAt desc 1) := by
  intro r t
  obtain ⟨n, part⟩ := State.cqPut_part (s := s.ringPassed p be) (p := p) 0xFFFFFFFF r (by simp [State.ringPassed, hparts, hp])
  rw [State.ringPassed_part be (by omega)] at part
  obtain ⟨hstatus, hhandle⟩ := refusal_status (s.ringPassed p be) (ringCls be) desc dropped hp hs
  refine ⟨⟨?_, ?_, rfl, rfl, rfl⟩, rfl, rfl, rfl, ?_, hstatus, hhandle, refusal_tag _ _ _ _ _⟩
  · rw [State.ringHead, part]; cases be <;> rfl
  · rw [State.ringTail, part]; cases be <;> rfl
  · rw [part]; cases be <;> rfl

theorem clampDescriptor_word (d : Bytes) (cells : List Nat) {i : Nat} (hi : i < 2) :
    wordAt (clampDescriptor d cells) i = wordAt d i := by
  rw [clampDescriptor, wordAt_ofWords]
  have value : ∀ f : Nat → Nat, ((List.range 16).map f).getD i 0 = f i := fun f => by
    rw [List.getD_eq_getElem _ _ (by simp; omega)]
    simp
  rw [value, if_neg (by omega), if_neg (by omega)]
  exact Nat.mod_eq_of_lt (wordAt_lt d i)

theorem descCells_nodup (d : Bytes) : (descCells d).Nodup := List.nodup_range.filter _

theorem State.mem_newBindings {s : State} {p h : Nat} {x : Binding} : x ∈ s.newBindings p h ↔
    ∃ e ∈ s.tables, e.part = p ∧ x = ⟨h, 0, p, e.table, ((s.current e.table).map (·.no)).getD 0⟩ := by
  unfold State.newBindings
  rw [List.mem_filterMap]
  refine exists_congr fun e => and_congr_right fun _ => ?_
  by_cases he : e.part = p <;> simp [he, eq_comm]

/-- A job of the batch, as it enters the queue of a cell. -/
theorem Cell.withJob_eq (c : Cell) (s : State) (b : Batch) : ∃ j : Job, c.withJob s b = { c with startQ := c.startQ ++ [j] } ∧
    j.handle = b.handle ∧ j.cls = b.cls ∧ j.entry = bits (wordAt b.desc 0) 27 16 ∧
    j.param = BitVec.ofNat 32 (bits (wordAt b.desc 0) 63 32) :=
  ⟨_, rfl, rfl, rfl, rfl, rfl⟩

/-- The jobs of a batch enter the queues of its cells and nothing else changes. -/
theorem State.enqueue_cells (s : State) (b : Batch) (hb : b.running.Nodup) :
    let t := s.enqueue b false
    t = { s with cells := t.cells } ∧ (∀ g i, g ∈ b.running → s.posOf g = some i → t.cell i = (s.cell i).withJob s b) ∧
      ∀ i, (∀ g ∈ b.running, s.posOf g ≠ some i) → t.cell i = s.cell i := by
  rw [State.enqueue_eq]
  exact State.foldl_modLogical (fun c => c.withJob s b) (fun _ => rfl) b.running hb s

/-- An admitted descriptor: its batch, its handle, its bindings and its jobs. -/
theorem State.admitted_enqueued {s : State} {p : Nat} {be : Bool} (hp : p < 16) (hparts : s.parts.length = 16)
    (hcount : s.bindings.length + s.batches.length < 2 ^ 31) :
    let d := (s.ringDesc p be).bytes
    let own := (descCells d).filter (s.owns p)
    let b := (s.ringPassed p be).admittedBatch p (b2n be) (ringCls be) d
    let t := ((s.ringPassed p be).admitted p (b2n be) (ringCls be) d).enqueue b false
    s.PassedRing t p be ∧ t.batches = s.batches ++ [b] ∧
    (b.part = p ∧ b.cls = ringCls be ∧ b.running = own ∧ b.cells = own ∧ b.jobs = own.length ∧
      b.dropped = (descCells d).length - own.length ∧ b.status = 0 ∧ b.complete = false ∧
      b.admitAt = s.now .control ∧ b.path = b2n be ∧ wordAt b.desc 1 = wordAt d 1) ∧
    (b.handle < 0xFFFFFFFF ∧ (∀ x ∈ s.bindings, x.handle ≠ b.handle) ∧ ∀ x ∈ s.batches, x.handle ≠ b.handle) ∧
    (t.part p).cntAdmitLc = (s.part p).cntAdmitLc + (if be then 0 else 1) ∧
    (t.part p).cntAdmitBe = (s.part p).cntAdmitBe + (if be then 1 else 0) ∧
    (∀ x, x ∈ t.bindings ↔ x ∈ s.bindings ∨ ∃ e ∈ s.tables, e.part = p ∧
      x = ⟨b.handle, 0, p, e.table, ((s.current e.table).map (·.no)).getD 0⟩) ∧
    (∀ g i, g ∈ own → s.posOf g = some i → ∃ j : Job, t.cell i = { s.cell i with startQ := (s.cell i).startQ ++ [j] } ∧
      j.handle = b.handle ∧ j.cls = ringCls be ∧ j.entry = bits (wordAt d 0) 27 16 ∧
      j.param = BitVec.ofNat 32 (bits (wordAt d 0) 63 32)) ∧
    ∀ i, (∀ g ∈ own, s.posOf g ≠ some i) → t.cell i = s.cell i := by
  intro d own b t
  obtain ⟨frame, changed, kept⟩ := State.enqueue_cells ((s.ringPassed p be).admitted p (b2n be) (ringCls be) d) b
    ((descCells_nodup d).filter _)
  have part : t.part p = Partition.countAdmit (ringCls be) (Partition.passHead be (s.part p)) := by
    have counted := State.part_modPart_self (i := p) (s.ringPassed p be) (Partition.countAdmit (ringCls be))
      (by simp [State.ringPassed, hparts, hp])
    rw [State.ringPassed_part be (by omega)] at counted
    rw [← counted]
    show (State.enqueue _ _ _).part p = _
    rw [frame]
    rfl
  have entry : wordAt b.desc 0 = wordAt d 0 := clampDescriptor_word d own (by decide)
  refine ⟨⟨?_, ?_, ?_, ?_, ?_⟩, ?_, ⟨rfl, rfl, rfl, rfl, rfl, rfl, rfl, rfl, rfl, rfl, clampDescriptor_word d own (by decide)⟩,
    State.freshHandle_fresh (s := s.ringPassed p be) hcount, ?_, ?_, fun x => ?_, fun g i hg hi => ?_, fun i hi => kept i hi⟩
  · rw [State.ringHead, part]; cases be <;> rfl
  · rw [State.ringTail, part]; cases be <;> rfl
  · exact (congrArg State.host frame).trans rfl
  · exact (congrArg State.mem frame).trans rfl
  · exact (congrArg State.regs frame).trans rfl
  · exact (congrArg State.batches frame).trans rfl
  · rw [part]; cases be <;> simp [Partition.countAdmit, Partition.passHead, ringCls]
  · rw [part]; cases be <;> simp [Partition.countAdmit, Partition.passHead, ringCls]
  · have bindings : t.bindings = s.bindings ++ s.newBindings p b.handle :=
      (congrArg State.bindings frame).trans rfl
    rw [bindings, List.mem_append, State.mem_newBindings]
  · obtain ⟨j, hj, hhandle, hcls, hentry, hparam⟩ := Cell.withJob_eq (s.cell i)
      ((s.ringPassed p be).admitted p (b2n be) (ringCls be) d) b
    rw [entry] at hentry hparam
    exact ⟨j, (changed g i hg hi).trans hj, hhandle, hcls, hentry, hparam⟩

/-! ## Writes of the ring control registers (R322, R323) -/

theorem cfgFields_ring (m : Nat) {p o : Nat} (hp : p < 16) (ho : o ∈ [0x18, 0x28, 0x38]) :
    cfgFields m (partBase p + o) = ringFields := by
  simp only [List.mem_cons, List.not_mem_nil, or_false] at ho
  have rest : (partBase p + o) % 0x10000 = o := by unfold partBase; omega
  have lo : 0x800000 ≤ partBase p + o := by unfold partBase; omega
  have hi : partBase p + o < 0x900000 := by unfold partBase; omega
  simp (disch := omega) only [cfgFields, if_neg, if_pos, rest]
  rcases ho with rfl | rfl | rfl <;> rfl

/-- SIZE of a ring is clamped to 4 to 12 (R322). -/
theorem ringSize_clamp (v : Nat) : (rwc 0 4 4 4 12).clamp v = max 4 (min 12 (bits v 3 0)) := by
  rw [rwc_clamp v (by decide) (.inr (by decide)), bits, Nat.shiftRight_zero]

/-- The clamp of SIZE is counted where the ring takes the SIZE written and it was out of range (R12, R323). -/
theorem State.sizeClamp_eq (s : State) {p o : Nat} (hp : p < 16) (ho : o ∈ [0x18, 0x28, 0x38]) (v : Nat) :
    s.sizeClamp (partBase p + o) v =
      if (s.reg (partBase p + o)).testBit 4 = false ∧ (bits v 3 0 < 4 ∨ 12 < bits v 3 0)
      then { s with health := { s.health with cntClamps := s.health.cntClamps + 1 } } else s := by
  have sized : ((rwc 0 4 4 4 12).clamp (v / 2 ^ 0) != v / 2 ^ 0 % 2 ^ 4) = decide (bits v 3 0 < 4 ∨ 12 < bits v 3 0) := by
    rw [Nat.pow_zero, Nat.div_one, ringSize_clamp, bits, Nat.shiftRight_zero, Bool.eq_iff_iff, bne_iff_ne, decide_eq_true_iff]
    omega
  have plain : ((rw 4 1 0).clamp (v / 2 ^ 4) != v / 2 ^ 4 % 2 ^ 1) = false := by simp [rw_clamp]
  have count : clampsIn s.model (partBase p + o) v = if bits v 3 0 < 4 ∨ 12 < bits v 3 0 then 1 else 0 := by
    rw [clampsIn, cfgFields_ring _ hp ho, ringFields, List.filter_cons, List.filter_cons, List.filter_nil]
    change (if ((rwc 0 4 4 4 12).clamp (v / 2 ^ 0) != v / 2 ^ 0 % 2 ^ 4) = true then _ :: (if
      ((rw 4 1 0).clamp (v / 2 ^ 4) != v / 2 ^ 4 % 2 ^ 1) = true then _ else _) else if
      ((rw 4 1 0).clamp (v / 2 ^ 4) != v / 2 ^ 4 % 2 ^ 1) = true then _ else _ : List RegField).length = _
    rw [sized, plain]
    by_cases h : bits v 3 0 < 4 ∨ 12 < bits v 3 0 <;> simp [h]
  unfold State.sizeClamp State.countClamps
  rw [count]
  by_cases hon : (s.reg (partBase p + o)).testBit 4 = true
  · rw [if_pos hon, if_neg (by simp [hon])]
  · by_cases h : bits v 3 0 < 4 ∨ 12 < bits v 3 0
    · rw [if_neg hon, if_pos h, if_pos ⟨by simpa using hon, h⟩]
      rfl
    · rw [if_neg hon, if_neg h, if_neg fun hh => h hh.2]
      simp [State.modHealth]

/-- SIZE of a ring after a write: kept while ENABLE was set, else clamped (R322, R323). -/
def ringSizeAfter (old v : Nat) : Nat := if old.testBit 4 then bits old 3 0 else max 4 (min 12 (bits v 3 0))

/-- A submission ring takes a TAIL that leaves no more than 2^SIZE entries. -/
theorem ringCtlWrite_submission (old v : Nat) (head tail : BitVec 16) :
    ringCtlWrite old v head tail true = (ringSizeAfter old v + 16 * b2n (v.testBit 4), head,
      if (BitVec.ofNat 16 (bits v 63 48) - head).toNat ≤ 2 ^ ringSizeAfter old v then BitVec.ofNat 16 (bits v 63 48) else tail) := by
  unfold ringCtlWrite ringSizeAfter ctlOn
  rw [ringSize_clamp]
  simp only [if_true]
  split_ifs <;> rfl

/-- A completion ring takes a HEAD that leaves no more than 2^SIZE entries. -/
theorem ringCtlWrite_completion (old v : Nat) (head tail : BitVec 16) :
    ringCtlWrite old v head tail false = (ringSizeAfter old v + 16 * b2n (v.testBit 4),
      if (tail - BitVec.ofNat 16 (bits v 31 16)).toNat ≤ 2 ^ ringSizeAfter old v then BitVec.ofNat 16 (bits v 31 16) else head,
      tail) := by
  unfold ringCtlWrite ringSizeAfter ctlOn
  rw [ringSize_clamp]
  simp only [Bool.false_eq_true, if_false]
  split_ifs <;> rfl

theorem State.subCtlWrite_eq (s : State) {p : Nat} (hp : p < 16) (be : Bool) (v : Nat) :
    let a := partBase p + if be then 0x28 else 0x18
    let r := ringCtlWrite (s.ringCtl p be) v (s.ringHead p be) (s.ringTail p be) true
    s.subCtlWrite p be v = ((s.sizeClamp a v).setReg a r.1).modPart p fun u =>
      if be then { u with beTail := r.2.2 } else { u with lcTail := r.2.2 } :=
  if_neg (by omega)

theorem State.cqCtlWrite_eq (s : State) {p : Nat} (hp : p < 16) (v : Nat) :
    let a := partBase p + 0x38
    let r := ringCtlWrite (s.reg a) v (s.part p).cqHead (s.part p).cqTail false
    s.cqCtlWrite p v = ((s.sizeClamp a v).setReg a r.1).modPart p fun u => { u with cqHead := r.2.1 } :=
  if_neg (by omega)

/-- Settles O32. -/
theorem batchAdmission : Obligations.BatchAdmission := by
  intro s p be u cls size base d own passed refused counted hp hparts
  have refusedBy : ∀ {status dropped}, status < 256 → s.admission p = (s.ringPassed p be).cqPut p 0xFFFFFFFF
      ((s.ringPassed p be).refusal p (ringCls be) d.bytes status dropped) → refused status := by
    intro status dropped hs h
    exact ⟨_, _, congrArg Host.Outcome.next h, State.refused_passed d.bytes dropped hp hparts hs⟩
  refine ⟨fun hw => ⟨fun hlc hbe => congrArg Host.Outcome.next (State.admission_idle hw hlc hbe), fun hr hfirst => ?_⟩, ?_, ?_⟩
  · have ring := State.admission_ring hw hr hfirst
    refine ⟨fun hdef hm => ?_, fun hdef hdr hm => ?_, fun hdef hdr hsus hwait => ?_, fun hdef hdr hsus hopen hroom => ?_⟩
    · have closed : s.closedStatus p = some 7 := if_pos (by simpa using hdef)
      exact refusedBy (by decide) (ring.trans (State.admitClass_closed hr closed hm))
    · have closed : s.closedStatus p = some 4 := (if_neg (by simpa using hdef)).trans (if_pos (.inl hdr))
      exact refusedBy (by decide) (ring.trans (State.admitClass_closed hr closed hm))
    · have closed : s.closedStatus p = none := by simp [State.closedStatus, u, hdef, hdr, hsus]
      exact congrArg Host.Outcome.next (ring.trans (State.admitClass_waits closed hwait))
    · have closed : s.closedStatus p = none := by simp [State.closedStatus, u, hdef, hdr, hsus]
      have taken := ring.trans (State.admitClass_open hr closed hopen hroom)
      refine ⟨fun hm => ?_, fun hm hown => ?_, fun hm hown hmir hcount => ?_⟩
      · exact refusedBy (by decide) (taken.trans (State.admitDesc_marked hm))
      · exact refusedBy (by decide) (taken.trans (State.admitDesc_noCell hm hown))
      · exact ⟨_, _, congrArg Host.Outcome.next (taken.trans (State.admitDesc_admitted hm hown hmir)),
          State.admitted_enqueued hp hparts hcount⟩
  · intro val r old sz tail
    refine congrArg Host.Outcome.next ((s.subCtlWrite_eq hp be val.toNat).trans ?_)
    simp only [ringCtlWrite_submission]
    have place : (if be then 0x28 else 0x18) ∈ [0x18, 0x28, 0x38] := by cases be <;> decide
    rw [s.sizeClamp_eq hp place]
    rfl
  · intro val old sz head
    refine congrArg Host.Outcome.next ((s.cqCtlWrite_eq hp val.toNat).trans ?_)
    simp only [ringCtlWrite_completion]
    rw [s.sizeClamp_eq hp (by decide)]
    rfl

end Sys2Proof.Machine

namespace Sys2Proof.Machine

/-! ## Pieces of an access and reads of a store -/

/-- An access that stays within one unit is one piece. -/
theorem chunks_single {u a n : Nat} (hn : 0 < n) (h : a % u + n ≤ u) : chunks u a n = [(a, n)] := by
  have hu : 0 < u := by omega
  have ha := Nat.div_add_mod a u
  have last : (a + n - 1) / u = a / u := by
    rw [Nat.div_eq_iff hu]
    constructor <;> rw [Nat.mul_comm (a / u)] <;> omega
  have e1 : (a / u + 0) * u = u * (a / u) := by ring
  have e2 : (a / u + 0 + 1) * u = u * (a / u) + u := by ring
  simp only [chunks, if_neg (Nat.pos_iff_ne_zero.1 hn), last, Nat.add_sub_cancel_left, List.range_one, List.map_cons,
    List.map_nil, e1, e2]
  congr 2
  · omega
  · omega

/-- An access of whole units is cut into these. -/
theorem chunks_units {u : Nat} (hu : 0 < u) (k m : Nat) :
    chunks u (u * k) (u * m) = (List.range m).map fun i => (u * (k + i), u) := by
  cases m with
  | zero => simp [chunks]
  | succ m =>
    have last : (u * k + u * (m + 1) - 1) / u = k + m := by
      rw [Nat.div_eq_iff hu]
      constructor
      · have : (k + m) * u = u * k + u * m := by ring
        have : u * (m + 1) = u * m + u := by ring
        omega
      · have : u * (m + 1) = u * m + u := by ring
        have : (k + m) * u = u * k + u * m := by ring
        omega
    have count : (u * k + u * (m + 1) - 1) / u + 1 - u * k / u = m + 1 := by
      rw [last, Nat.mul_div_cancel_left k hu]; omega
    rw [chunks, if_neg (Nat.mul_ne_zero (by omega) (by omega)), count]
    apply List.map_congr_left
    intro i hi
    rw [List.mem_range] at hi
    have le : u * i ≤ u * m := Nat.mul_le_mul_left u (by omega)
    have e1 : (u * k / u + i) * u = u * (k + i) := by rw [Nat.mul_div_cancel_left k hu]; ring
    have e2 : (u * k / u + i + 1) * u = u * (k + i) + u := by rw [Nat.mul_div_cancel_left k hu]; ring
    have e3 : u * (k + i) = u * k + u * i := by ring
    have e4 : u * (m + 1) = u * m + u := by ring
    simp only [e1, e2]
    congr 1
    · omega
    · omega

theorem Store.read_drop (u : Nat) (st : Store) (a n k : Nat) : (st.read u a n).drop k = st.read u (a + k) (n - k) := by
  simp only [Store.read_eq]
  apply List.ext_getElem
  · simp
  · intro i h1 h2
    simp [Nat.add_assoc]

theorem Store.read_take (u : Nat) (st : Store) (a : Nat) {n m : Nat} (h : m ≤ n) : (st.read u a n).take m = st.read u a m := by
  simp only [Store.read_eq]
  apply List.ext_getElem
  · simpa using h
  · intro i h1 h2
    simp

theorem Store.read_append (u : Nat) (st : Store) (a m n : Nat) :
    st.read u a m ++ st.read u (a + m) n = st.read u a (m + n) := by
  rw [← Store.read_take u st a (Nat.le_add_right m n), ← Nat.add_sub_cancel_left (n := m) (m := n), ← Store.read_drop]
  simp [List.take_append_drop]

/-- The bytes of a granule share its mark. -/
theorem Store.read_granule_marked (st : Store) (g : Nat) : (st.read 64 (64 * g) 64).marked = st.isMarked g := by
  have unit : ∀ i < 64, (64 * g + i) / 64 = g := fun i hi => by omega
  rw [Store.read_eq, Data.marked, List.any_map, Bool.eq_iff_iff, List.any_eq_true]
  constructor
  · rintro ⟨i, hi, h⟩
    simpa [unit i (List.mem_range.1 hi)] using h
  · exact fun h => ⟨0, by simp, by simpa using h⟩

theorem Data.mark_marked (m : Bool) {b : Bytes} (hb : b ≠ []) : (Data.mark m b).marked = m := by
  obtain ⟨x, l, rfl⟩ := List.exists_cons_of_ne_nil hb
  cases m <;> simp [Data.marked, Data.mark]

/-- A granule written whole reads back as it was written, marks included (R44, R215). -/
theorem Store.read_write_granule (st : Store) (g : Nat) (m : Bool) {b : Bytes} (hb : b.length = 64) :
    (st.write 64 (64 * g) (Data.mark m b)).read 64 (64 * g) 64 = Data.mark m b := by
  have length : (Data.mark m b).length = 64 := by rw [Data.mark_length, hb]
  have nonempty : b ≠ [] := fun h => by simp [h] at hb
  have whole : st.markAfter 64 (64 * g) (Data.mark m b) g = m := by
    have lo : max (64 * g) (g * 64) - 64 * g = 0 := by omega
    have span : min (64 * g + 64) ((g + 1) * 64) - max (64 * g) (g * 64) = 64 := by omega
    simp only [Store.markAfter, length, lo, span, List.drop_zero, if_true]
    rw [List.take_of_length_le (by omega), Data.mark_marked m nonempty]
    cases m <;> rfl
  have marked : (st.write 64 (64 * g) (Data.mark m b)).isMarked g = m := by
    rw [Store.isMarked_write _ _ _ _ _ (by simpa [Data.mark] using nonempty), length, if_pos (by omega), whole]
  rw [Store.read_eq]
  apply List.ext_getElem
  · simp [length]
  · intro i h1 h2
    have hi : i < 64 := by simpa using h1
    have unit : (64 * g + i) / 64 = g := by omega
    simp only [List.getElem_map, List.getElem_range, unit, marked, Store.get_write, length, Data.mark_bytes]
    rw [if_pos (by omega), Nat.add_sub_cancel_left, List.getD_eq_getElem _ _ (by omega)]
    simp [Data.mark]

/-! ## Accesses of the physical function through BAR2 (R329) -/

/-- A piece of an access of the physical function reaches device memory where its frame is DEVICE or NEAR. -/
def State.bar2Target (s : State) (a : Nat) : Option (Nat × Nat × Option Nat) :=
  if a < s.devEnd ∧ ((s.frame (a / 2 ^ 30)).1 = 1 ∨ (s.frame (a / 2 ^ 30)).1 = 2) then some (1, a, s.ownerOf a) else none

theorem State.bar2Target_memory {s : State} {a : Nat} (hend : a < s.devEnd)
    (hk : (s.frame (a / 2 ^ 30)).1 = 1 ∨ (s.frame (a / 2 ^ 30)).1 = 2) : s.bar2Target a = some (1, a, s.ownerOf a) :=
  if_pos ⟨hend, hk⟩

/-- An access within one frame is one piece. -/
theorem State.bar2Pieces_single (s : State) {a n : Nat} (hn : 0 < n) (h : a % 2 ^ 30 + n ≤ 2 ^ 30) :
    s.bar2Pieces 0 a n = [⟨a, n, s.bar2Target a⟩] := by
  rw [State.bar2Pieces, if_pos rfl, chunks_single hn h]
  rfl

theorem State.devEnd_le (s : State) : s.devEnd ≤ 2 ^ 62 := by
  have range : s.stackCount ≤ 16 := (stacksOf_bounds s.model).2
  unfold State.devEnd
  omega

/-- A piece without a target is counted once and stores nothing (R329, R351). -/
theorem State.bar2Write_unmapped {s : State} {a : Nat} {data : Bytes} (poisoned : Bool) (hn : 0 < data.length)
    (h : a % 2 ^ 30 + data.length ≤ 2 ^ 30) (ht : s.bar2Target a = none) :
    s.bar2Write 0 a data poisoned = { s with hif := { s.hif with cntUnmapped := s.hif.cntUnmapped + 1 } } := by
  have pieces := s.bar2Pieces_single hn h
  rw [ht] at pieces
  have counted : s.bar2Count 0 a data.length = { s with hif := { s.hif with cntUnmapped := s.hif.cntUnmapped + 1 } } := by
    rw [State.bar2Count, pieces]
    rfl
  unfold State.bar2Write State.useFn
  rw [if_pos rfl, counted]
  exact (congrArg (List.foldl _ _) pieces).trans rfl

/-! ## What accesses of device memory leave -/

theorem State.charge_frame (s : State) (k : Nat) (p : Option Nat) (n : Nat) :
    s.charge k p n = { s with engines := (s.charge k p n).engines } := by cases p <;> rfl

/-- A granule written whole goes to memory; beside memory only the engine of its stack changes (R205). -/
theorem State.writeGranule_whole {s : State} {p : Option Nat} {a : Nat} {d : Data} (hd : d.length = 64)
    (hlive : (s.engine (s.stackOf a)).mem.dead (s.channelOf a) = false) :
    ∃ engines, s.writeGranule p a d = { s with engines, mem := s.mem.write 64 a d } := by
  refine ⟨(s.writeGranule p a d).engines, ?_⟩
  unfold State.writeGranule
  simp only [hlive, hd, if_true, Bool.false_eq_true, if_false]
  rw [State.charge_frame]
  rfl

theorem State.mirrorWrite_idle {s : State} (h : s.mirrors = false) (kind t n : Nat) : s.mirrorWrite kind t n = s := by
  rw [State.mirrorWrite, if_pos (by simp [h])]

/-- A granule written through BAR2 is stored whole, with the mark of a poisoned transfer (R215, R329). -/
theorem State.bar2Write_granule {s : State} {a : Nat} {data : Bytes} (poisoned : Bool) (ha : a % 64 = 0)
    (hd : data.length = 64) (hend : a < s.devEnd) (hk : (s.frame (a / 2 ^ 30)).1 = 1 ∨ (s.frame (a / 2 ^ 30)).1 = 2)
    (hlive : (s.engine (s.stackOf a)).mem.dead (s.channelOf a) = false) (hm : s.mirrors = false) :
    ∃ engines bufs, s.bar2Write 0 a data poisoned =
      { s with engines, mem := s.mem.write 64 a (Data.mark poisoned data), hif := { s.hif with bufs } } := by
  have pieces : s.bar2Pieces 0 a data.length = [⟨a, 64, some (1, a, s.ownerOf a)⟩] := by
    rw [s.bar2Pieces_single (by omega) (by omega), State.bar2Target_memory hend hk, hd]
  have counted : s.bar2Count 0 a data.length = s := by
    rw [State.bar2Count, pieces]
    rfl
  have bytes : (data.drop (a - a)).take 64 = data := by rw [Nat.sub_self, List.drop_zero, List.take_of_length_le (by omega)]
  have granule : (Data.mark poisoned data).length = 64 := by rw [Data.mark_length, hd]
  have written : s.devWrite (s.ownerOf a) a (Data.mark poisoned data) =
      s.writeGranule (s.ownerOf a) a (Data.mark poisoned data) := by
    have whole : ((Data.mark poisoned data).drop (a - a)).take 64 = Data.mark poisoned data := by
      rw [Nat.sub_self, List.drop_zero, List.take_of_length_le (by omega)]
    rw [State.devWrite, granule, chunks_single (by decide) (by omega)]
    exact congrArg (s.writeGranule (s.ownerOf a) a) whole
  obtain ⟨engines, stored⟩ := State.writeGranule_whole (p := s.ownerOf a) granule hlive
  refine ⟨engines, (s.setBuf 0 ((s.bar2Buf 0).map fun e => e.splice a data poisoned)).hif.bufs, ?_⟩
  unfold State.bar2Write State.useFn
  rw [if_pos rfl, counted]
  refine (congrArg (List.foldl _ _) pieces).trans ?_
  simp only [List.foldl_cons, List.foldl_nil, bytes, if_true]
  rw [written, stored, State.mirrorWrite_idle (by exact hm)]
  rfl

/-! ## Reads through BAR2 (R331) -/

/-- No stack holds a write back or has failed: reads find device memory as it stands. -/
def State.Quiet (s : State) : Prop := ∀ e ∈ s.engines, e.mem.wcb = [] ∧ e.mem.failed = false ∧ e.mem.lost = []

/-- What serving reads changes: the engines, which are quiet still, and the read buffers. -/
def State.Served (s t : State) : Prop :=
  t = { s with engines := t.engines, hif := { s.hif with bufs := t.hif.bufs } } ∧ t.Quiet

theorem State.Quiet.engine {s : State} (h : s.Quiet) (k : Nat) :
    (s.engine k).mem.wcb = [] ∧ (s.engine k).mem.failed = false ∧ (s.engine k).mem.lost = [] := by
  unfold State.engine
  by_cases hk : k < s.engines.length
  · rw [List.getD_eq_getElem _ _ hk]
    exact h _ (List.getElem_mem hk)
  · rw [List.getD_eq_default _ _ (by omega)]
    exact ⟨rfl, rfl, rfl⟩

theorem State.Served.refl {s : State} (h : s.Quiet) : s.Served s := ⟨rfl, h⟩

theorem State.Served.trans {s t u : State} (h : s.Served t) (k : t.Served u) : s.Served u :=
  ⟨by rw [k.1, h.1], k.2⟩

/-- A change of a stack's counters or regulators. -/
theorem State.Served.modEngine {s : State} (h : s.Quiet) (k : Nat) {f : Engine → Engine}
    (hf : ∀ e, (f e).mem.wcb = e.mem.wcb ∧ (f e).mem.failed = e.mem.failed ∧ (f e).mem.lost = e.mem.lost) :
    s.Served (s.modEngine k f) := by
  refine ⟨rfl, fun e he => ?_⟩
  obtain ⟨j, hj, rfl⟩ := List.getElem_of_mem he
  have old := h _ (List.getElem_mem (by simpa using hj : j < s.engines.length))
  simp only [State.modEngine, List.getElem_modify]
  split
  · simpa [hf] using old
  · exact old

theorem State.Served.charge {s : State} (h : s.Quiet) (k : Nat) (p : Option Nat) (n : Nat) :
    s.Served (s.charge k p n) := by
  cases p with
  | none => exact .refl h
  | some p => exact .modEngine h k fun e => ⟨rfl, rfl, rfl⟩

/-- A read of a granule of a quiet module returns what memory holds (R206). -/
theorem State.readGranule_quiet {s : State} (h : s.Quiet) (p : Option Nat) (a n : Nat) :
    (s.readGranule p a n).1 = s.mem.read 64 a n ∧ s.Served (s.readGranule p a n).2 := by
  obtain ⟨wcb, failed, lost⟩ := h.engine (s.stackOf a)
  have live : (s.engine (s.stackOf a)).mem.dead (s.channelOf a) = false := by simp [Stack.dead, failed, lost]
  have counted : s.Served (s.countStack (s.stackOf a) fun m => { m with cntRd := m.cntRd + 1 }) :=
    .modEngine h _ fun e => by split <;> exact ⟨rfl, rfl, rfl⟩
  have charged := counted.trans (.charge counted.2 (s.stackOf a) p 1)
  unfold State.readGranule State.drainGranule
  simp only [live, Bool.false_eq_true, if_false, wcb, List.find?_nil]
  exact ⟨congrArg (fun t => t.mem.read 64 a n) charged.1, charged⟩

/-- One more granule of a read. -/
def readNext (p : Option Nat) (r : Data × State) (c : Nat × Nat) : Data × State :=
  (r.1 ++ (r.2.readGranule p c.1 c.2).1, (r.2.readGranule p c.1 c.2).2)

theorem State.devRead_eq (s : State) (p : Option Nat) (a n : Nat) :
    s.devRead p a n = (chunks 64 a n).foldl (readNext p) ([], s) := rfl

/-- Granule by granule (R206, R241). -/
theorem State.devRead_quiet {s : State} (h : s.Quiet) (p : Option Nat) (a n : Nat) :
    (s.devRead p a n).1 = (chunks 64 a n).flatMap (fun c => s.mem.read 64 c.1 c.2) ∧ s.Served (s.devRead p a n).2 := by
  suffices ∀ (l : List (Nat × Nat)) (d : Data) (t : State), s.Served t →
      (l.foldl (readNext p) (d, t)).1 = d ++ l.flatMap (fun c => s.mem.read 64 c.1 c.2) ∧
        s.Served (l.foldl (readNext p) (d, t)).2 by
    rw [State.devRead_eq]
    simpa using this (chunks 64 a n) [] s (.refl h)
  intro l
  induction l with
  | nil => exact fun d t ht => ⟨by simp, ht⟩
  | cons c l ih =>
    intro d t ht
    obtain ⟨read, counted⟩ := State.readGranule_quiet ht.2 p c.1 c.2
    obtain ⟨data, counts⟩ := ih (d ++ (t.readGranule p c.1 c.2).1) _ (ht.trans counted)
    refine ⟨data.trans ?_, counts⟩
    rw [read, congrArg State.mem ht.1]
    simp

/-- One more piece of a fetch. -/
def bar2Next (r : Data × State) (c : Bar2Piece) : Data × State :=
  match c.tgt with
  | some (1, t, p) => (r.1 ++ (r.2.devRead p t c.n).1, (r.2.devRead p t c.n).2)
  | some (_, t, _) => (r.1 ++ (chunks scratchSize (t - 0x100000000000) c.n).flatMap fun x =>
      r.2.windowRead (x.1 / scratchSize) (x.1 % scratchSize) x.2, r.2)
  | none => (r.1 ++ Data.clean (zeros c.n), r.2)

theorem State.bar2Fetch_eq (s : State) (fn a n : Nat) :
    s.bar2Fetch fn a n = (s.bar2Pieces fn a n).foldl bar2Next ([], s) := rfl

theorem State.Served.bar2Next {s : State} {r : Data × State} (h : s.Served r.2) (c : Bar2Piece) :
    s.Served (bar2Next r c).2 := by
  unfold Machine.bar2Next
  split
  · exact h.trans (State.devRead_quiet h.2 _ _ _).2
  · exact h
  · exact h

theorem State.bar2Fetch_served {s : State} (h : s.Quiet) (fn a n : Nat) : s.Served (s.bar2Fetch fn a n).2 := by
  suffices ∀ (l : List Bar2Piece) (r : Data × State), s.Served r.2 → s.Served (l.foldl Machine.bar2Next r).2 by
    rw [State.bar2Fetch_eq]
    exact this _ _ (.refl h)
  intro l
  induction l with
  | nil => exact fun r hr => hr
  | cons c l ih => exact fun r hr => ih _ (hr.bar2Next c)

theorem State.Served.setBuf {s t : State} (h : s.Served t) (fn : Nat) (l : List RbEntry) : s.Served (t.setBuf fn l) :=
  h.trans ⟨rfl, h.2⟩

theorem State.bar2Buf_setBuf (s : State) (fn : Nat) (l : List RbEntry) : (s.setBuf fn l).bar2Buf fn = l := by
  have others : (s.hif.bufs.filter fun e => e.1 != fn).find? (fun e => e.1 == fn) = none := by
    rw [List.find?_eq_none]
    intro e he
    simpa using (List.mem_filter.1 he).2
  unfold State.bar2Buf
  simp only [State.setBuf, State.modHif, List.find?_append, others, Option.none_or]
  split
  next h => simp [h]
  next => simp

theorem State.bar2Fill_served {s : State} (h : s.Quiet) (fn b : Nat) : s.Served (s.bar2Fill fn b) :=
  (State.bar2Fetch_served h fn (256 * b) 256).setBuf _ _

/-- The bytes of a block with the marks that its entry keeps (R331). -/
def RbEntry.served (e : RbEntry) : Data := e.data.mapIdx fun i x => (x, e.marks.testBit (i / 64))

/-- Four marks kept as bits. -/
theorem testBit_marks (m : Nat → Bool) {j : Nat} (hj : j < 4) :
    (((List.range 4).map fun i => if m i then 2 ^ i else 0).sum).testBit j = m j := by
  have four : ∀ p q r t : Bool, ∀ j < 4, (((if p then 1 else 0) + ((if q then 2 else 0) + ((if r then 4 else 0) +
      ((if t then 8 else 0) + 0)))) : Nat).testBit j = [p, q, r, t].getD j false := by decide
  have := four (m 0) (m 1) (m 2) (m 3) j hj
  interval_cases j <;> simpa [List.range_succ] using this

/-- The POISON word of a block of device memory. -/
theorem poisonMask_block (st : Store) (b : Nat) :
    poisonMask (st.read 64 (256 * b) 256) = ((List.range 4).map fun i => if st.isMarked (4 * b + i) then 2 ^ i else 0).sum := by
  have cut : chunks 64 0 256 = (List.range 4).map fun i => (64 * (0 + i), 64) := chunks_units (by decide) 0 4
  rw [poisonMask, Store.read_length, cut, List.map_map]
  congr 1
  apply List.map_congr_left
  intro i hi
  rw [List.mem_range] at hi
  have granule : ((st.read 64 (256 * b) 256).drop (64 * i)).take 64 = st.read 64 (64 * (4 * b + i)) 64 := by
    rw [Store.read_drop, Store.read_take _ _ _ (by omega)]
    congr 1
    omega
  simp [granule, Store.read_granule_marked]

/-- An entry keeps a block of device memory, marks included (R331). -/
theorem served_block (st : Store) (b fill : Nat) :
    (⟨b, fill, (st.read 64 (256 * b) 256).bytes, poisonMask (st.read 64 (256 * b) 256)⟩ : RbEntry).served =
      st.read 64 (256 * b) 256 := by
  rw [RbEntry.served, poisonMask_block]
  simp only [Store.read_eq, Data.bytes]
  apply List.ext_getElem
  · simp
  · intro i h1 h2
    have hi : i < 256 := by simpa using h2
    have unit : (256 * b + i) / 64 = 4 * b + i / 64 := by omega
    simp [testBit_marks (fun j => st.isMarked (4 * b + j)) (show i / 64 < 4 by omega), unit]

/-- A fetch of a block in a DEVICE or NEAR frame of a quiet module (R331). -/
theorem State.bar2Fetch_block {s : State} (h : s.Quiet) {b : Nat} {p : Option Nat}
    (ht : s.bar2Target (256 * b) = some (1, 256 * b, p)) :
    (s.bar2Fetch 0 (256 * b) 256).1 = s.mem.read 64 (256 * b) 256 := by
  have cut : chunks 64 (256 * b) 256 = (List.range 4).map fun i => (64 * (4 * b + i), 64) := by
    rw [← chunks_units (by decide)]
    congr 1
    omega
  rw [State.bar2Fetch_eq, s.bar2Pieces_single (by decide) (by omega), ht]
  refine (State.devRead_quiet h p (256 * b) 256).1.trans ?_
  have join : ∀ k, ((List.range k).map fun i => (64 * (4 * b + i), 64)).flatMap (fun c => s.mem.read 64 c.1 c.2) =
      s.mem.read 64 (256 * b) (64 * k) := by
    intro k
    induction k with
    | zero => simp [Store.read_eq]
    | succ k ih =>
      have next : 64 * (4 * b + k) = 256 * b + 64 * k := by ring
      rw [List.range_succ, List.map_append, List.flatMap_append, ih, Nat.mul_succ, ← Store.read_append]
      simp [next]
  rw [cut, join]

/-- An entry that may still be served is found before any other of its block. -/
theorem State.bar2Block_hit {s : State} {b o n : Nat} {e : RbEntry} (h : (s.bar2Buf 0).find? (fun x => x.block == b) = some e)
    (hfill : s.now .host ≤ e.fill + 10000) :
    s.bar2Block 0 b o n =
      ((e.served.drop o).take n, s.setBuf 0 (e :: (s.bar2Buf 0).filter fun x => x.block != b)) := by
  have found : (s.bar2Buf 0).find? (fun x => x.block == b && s.now .host ≤ x.fill + 10000) = some e := by
    obtain ⟨block, before, after, split, others⟩ := List.find?_eq_some_iff_append.1 h
    refine List.find?_eq_some_iff_append.2 ⟨by simp [block, hfill], before, after, split, fun x hx => ?_⟩
    simp [Bool.eq_false_of_not_eq_true' (others x hx)]
  rw [State.bar2Block, found]
  rfl

/-- A block that no entry holds is fetched and served as it was read (R331). -/
theorem State.bar2Block_miss {s : State} (h : s.Quiet) {b o n : Nat} {p : Option Nat} (hn : o + n ≤ 256)
    (hmiss : ∀ x ∈ s.bar2Buf 0, x.block ≠ b) (ht : s.bar2Target (256 * b) = some (1, 256 * b, p)) :
    (s.bar2Block 0 b o n).1 = s.mem.read 64 (256 * b + o) n ∧ s.Served (s.bar2Block 0 b o n).2 := by
  have missing : (s.bar2Buf 0).find? (fun x => x.block == b && s.now .host ≤ x.fill + 10000) = none := by
    rw [List.find?_eq_none]
    intro x hx
    simp [hmiss x hx]
  have filled := State.bar2Fill_served h 0 b
  have held : ((s.bar2Fill 0 b).bar2Buf 0).head?.map RbEntry.served = some (s.mem.read 64 (256 * b) 256) := by
    refine (congrArg (fun l => (List.head? l).map RbEntry.served) (State.bar2Buf_setBuf _ 0 _)).trans ?_
    have block := served_block s.mem b ((s.bar2Fetch 0 (256 * b) 256).2.now .host)
    rw [← State.bar2Fetch_block h ht] at block ⊢
    exact congrArg some block
  obtain ⟨e, first, served⟩ := Option.map_eq_some_iff.1 held
  rw [State.bar2Block, missing]
  refine ⟨?_, filled.trans (State.bar2Fill_served filled.2 0 (b + 1))⟩
  simp only [first]
  refine (congrArg (fun d : Data => (d.drop o).take n) served).trans ?_
  rw [Store.read_drop, Store.read_take _ _ _ (by omega)]

/-- A read within one block of a DEVICE or NEAR frame (R329, R331). -/
theorem State.bar2Read_block {s : State} {a n : Nat} (hn : 0 < n) (h : a % 256 + n ≤ 256) (hend : a < s.devEnd)
    (hk : (s.frame (a / 2 ^ 30)).1 = 1 ∨ (s.frame (a / 2 ^ 30)).1 = 2) :
    s.bar2Read 0 a n = (s.bar2Block 0 (a / 256) (a % 256) n).2.modHif fun h =>
      { h with readData := (s.bar2Block 0 (a / 256) (a % 256) n).1.bytes
               readMarked := (s.bar2Block 0 (a / 256) (a % 256) n).1.marked } := by
  have counted : s.bar2Count 0 a n = s := by
    rw [State.bar2Count, s.bar2Pieces_single hn (by omega), State.bar2Target_memory hend hk]
    rfl
  unfold State.bar2Read State.useFn
  rw [if_pos rfl, counted, chunks_single hn h]
  rfl

theorem RbEntry.served_bytes (e : RbEntry) (o n : Nat) :
    Data.bytes ((e.served.drop o).take n) = (e.data.drop o).take n := by
  have bytes : e.served.map Prod.fst = e.data := by
    apply List.ext_getElem <;> simp [RbEntry.served]
  simp only [Data.bytes, List.map_take, List.map_drop, bytes]

/-! ## BAR2 accesses of the physical function, as the host makes them -/

/-- The operand of a write carries the address and, in bit 63, the EP bit (R215, R330). -/
theorem bar2_operand {a : Nat} (ha : a < 2 ^ 63) (m : Bool) :
    (a + 2 ^ 63 * b2n m) % 2 ^ 63 = a ∧ (a + 2 ^ 63 * b2n m).testBit 63 = m := by
  cases m
  · rw [b2n, if_neg Bool.false_ne_true, Nat.mul_zero, Nat.add_zero]
    exact ⟨Nat.mod_eq_of_lt ha, Nat.testBit_lt_two_pow ha⟩
  · refine ⟨by rw [b2n, if_pos rfl, Nat.mul_one, Nat.add_mod_right, Nat.mod_eq_of_lt ha], ?_⟩
    rw [b2n, if_pos rfl, Nat.mul_one, Nat.add_comm, Nat.testBit_two_pow_add_eq, Nat.testBit_lt_two_pow ha]
    rfl

theorem exec_bar2Write {a : Nat} (ha : a < 2 ^ 63) (data : Bytes) (m : Bool) (s : State) :
    exec (.bar2Write 0 (a + 2 ^ 63 * b2n m) data) s = .next (s.bar2Write 0 a data m) := by
  obtain ⟨address, mark⟩ := bar2_operand ha m
  have run : exec (.bar2Write 0 (a + 2 ^ 63 * b2n m) data) s =
      .next (s.bar2Write 0 ((a + 2 ^ 63 * b2n m) % 2 ^ 63) data ((a + 2 ^ 63 * b2n m).testBit 63)) := rfl
  rw [run, address, mark]

theorem bar2Write_granule (s : State) (a : Nat) (data : Bytes) (m : Bool) (ha : a % 64 = 0) (hd : data.length = 64)
    (hend : a < s.devEnd) (hk : (s.frame (a / 2 ^ 30)).1 = 1 ∨ (s.frame (a / 2 ^ 30)).1 = 2)
    (hlive : (s.engine (s.stackOf a)).mem.dead (s.channelOf a) = false) (hm : s.mirrors = false) :
    ∃ t, exec (.bar2Write 0 (a + 2 ^ 63 * b2n m) data) s = .next t ∧ t.mem.read 64 a 64 = Data.mark m data ∧
      (∀ x, x < a ∨ a + 64 ≤ x → t.mem.get x = s.mem.get x) ∧ t.cells = s.cells ∧ t.host = s.host ∧ t.regs = s.regs ∧
      t.hif.cntUnmapped = s.hif.cntUnmapped := by
  have range := s.devEnd_le
  obtain ⟨engines, bufs, run⟩ := State.bar2Write_granule m ha hd hend hk hlive hm
  refine ⟨_, (exec_bar2Write (by omega) data m s).trans (congrArg _ run), ?_, fun x hx => ?_, rfl, rfl, rfl, rfl⟩
  · have aligned : a = 64 * (a / 64) := by omega
    rw [aligned]
    exact Store.read_write_granule s.mem (a / 64) m hd
  · exact (Store.get_write 64 s.mem a (Data.mark m data) x).trans (if_neg (by rw [Data.mark_length]; omega))

theorem bar2Write_unmapped (s : State) (a : Nat) (data : Bytes) (hn : 0 < data.length) (ha : a < 2 ^ 63)
    (h : a % 2 ^ 30 + data.length ≤ 2 ^ 30)
    (hk : s.devEnd ≤ a ∨ ((s.frame (a / 2 ^ 30)).1 ≠ 1 ∧ (s.frame (a / 2 ^ 30)).1 ≠ 2)) :
    exec (.bar2Write 0 a data) s = .next { s with hif := { s.hif with cntUnmapped := s.hif.cntUnmapped + 1 } } := by
  have none : s.bar2Target a = none := if_neg (by omega)
  exact (exec_bar2Write ha data false s).trans (congrArg _ (State.bar2Write_unmapped false hn h none))

theorem bar2Read_hit (s : State) (a n : Nat) (e : RbEntry) (hn : 0 < n) (h : a % 256 + n ≤ 256) (hend : a < s.devEnd)
    (hk : (s.frame (a / 2 ^ 30)).1 = 1) (he : (s.bar2Buf 0).find? (fun x => x.block == a / 256) = some e)
    (hfill : s.now .host ≤ e.fill + 10000) :
    ∃ t, exec (.bar2Read 0 a n) s = .next t ∧ t.hif.readData = (e.data.drop (a % 256)).take n ∧ t.mem = s.mem ∧
      t.engines = s.engines ∧ t.cells = s.cells := by
  have run := State.bar2Read_block hn h hend (.inl hk)
  rw [State.bar2Block_hit he hfill] at run
  exact ⟨_, congrArg Host.Outcome.next run, e.served_bytes _ _, rfl, rfl, rfl⟩

theorem bar2Read_miss (s : State) (a n : Nat) (hn : 0 < n) (h : a % 256 + n ≤ 256) (hend : a < s.devEnd)
    (hk : (s.frame (a / 2 ^ 30)).1 = 1) (hmiss : ∀ x ∈ s.bar2Buf 0, x.block ≠ a / 256) (hq : s.Quiet) :
    ∃ t, exec (.bar2Read 0 a n) s = .next t ∧ t.hif.readData = (s.mem.read 64 a n).bytes ∧
      t.hif.readMarked = (s.mem.read 64 a n).marked ∧ t.mem = s.mem ∧ t.cells = s.cells ∧ t.host = s.host := by
  have run := State.bar2Read_block hn h hend (.inl hk)
  have target : s.bar2Target (256 * (a / 256)) = some (1, 256 * (a / 256), s.ownerOf (256 * (a / 256))) :=
    State.bar2Target_memory (by omega) (.inl (by rw [show 256 * (a / 256) / 2 ^ 30 = a / 2 ^ 30 by omega]; exact hk))
  obtain ⟨data, frame, -⟩ := State.bar2Block_miss (o := a % 256) hq h hmiss target
  rw [Nat.div_add_mod] at data
  rw [data] at run
  exact ⟨_, congrArg Host.Outcome.next run, rfl, rfl, (congrArg State.mem frame).trans rfl,
    (congrArg State.cells frame).trans rfl, (congrArg State.host frame).trans rfl⟩

/-! ## A store of the host to its own memory (R332) -/

/-- Only host memory and the lines held of it have changed. -/
def State.HostChanged (s t : State) : Prop := t = { s with host := t.host, hif := { s.hif with lineCache := t.hif.lineCache } }

theorem State.HostChanged.refl (s : State) : s.HostChanged s := rfl

theorem State.HostChanged.trans {s t u : State} (h : s.HostChanged t) (k : t.HostChanged u) : s.HostChanged u := by
  unfold State.HostChanged at h k ⊢
  rw [k, h]

theorem State.hostStore_changes (s : State) (a : Nat) (d : Data) : s.HostChanged (s.hostStore a d) := rfl

/-- The lines that a store touches leave the cache, no others. -/
theorem State.mem_lineCache_hostStore (s : State) (a : Nat) {d : Data} (hd : 0 < d.length) (e : RbEntry) :
    e ∈ (s.hostStore a d).hif.lineCache ↔
      e ∈ s.hif.lineCache ∧ (64 * e.block + 64 ≤ a ∨ a + d.length ≤ 64 * e.block) := by
  have touched : ((chunks 64 a d.length).any fun c => c.1 / 64 == e.block) = true ↔
      a / 64 ≤ e.block ∧ e.block ≤ (a + d.length - 1) / 64 := by
    simp only [List.any_eq_true, chunks, if_neg (Nat.pos_iff_ne_zero.1 hd), List.mem_map, List.mem_range, beq_iff_eq]
    constructor
    · rintro ⟨c, ⟨i, hi, rfl⟩, hc⟩
      dsimp only at hc
      omega
    · intro h
      refine ⟨_, ⟨e.block - a / 64, by omega, rfl⟩, ?_⟩
      dsimp only
      omega
  refine List.mem_filter.trans (and_congr_right fun _ => ?_)
  rw [Bool.not_eq_true', ← Bool.not_eq_true, touched]
  omega

theorem snoop_stores (s : State) (a : Nat) (data : Bytes) (hn : 0 < data.length) :
    ∃ t, exec (.snoop a data) s = .next t ∧ t = { s with host := t.host, hif := { s.hif with lineCache := t.hif.lineCache } } ∧
      (∀ k < data.length, t.host.get (a + k) = data.getD k 0) ∧
      (∀ x, x < a ∨ a + data.length ≤ x → t.host.get x = s.host.get x) ∧
      ∀ e, e ∈ t.hif.lineCache ↔ e ∈ s.hif.lineCache ∧ (64 * e.block + 64 ≤ a ∨ a + data.length ≤ 64 * e.block) := by
  have length : (Data.clean data).length = data.length := Data.mark_length false data
  refine ⟨s.hostStore a (Data.clean data), rfl, s.hostStore_changes _ _, fun k hk => ?_, fun x hx => ?_, fun e => ?_⟩
  · refine (Store.get_write 64 s.host a (Data.clean data) (a + k)).trans ?_
    rw [length, if_pos (by omega), Nat.add_sub_cancel_left]
    exact congrArg (fun b : Bytes => b.getD k 0) (Data.mark_bytes false data)
  · exact (Store.get_write 64 s.host a (Data.clean data) x).trans (if_neg (by rw [length]; omega))
  · have lines := s.mem_lineCache_hostStore a (d := Data.clean data) (by omega) e
    rwa [length] at lines

/-! ## The end of a host transfer (R334, R352) -/

/-- Store byte k of a transfer if it is one that reaches host memory. -/
def State.storeByte (m dst : Nat) (d : Data) (s : State) (k : Nat) : State :=
  if m.testBit k then s.hostStore (dst + k) ((d.drop k).take 1) else s

/-- The bytes that a transfer of position i moves before it ends with a status. -/
def State.moveTransfer (s : State) (i status : Nat) (o : AsyncOp) : State :=
  if o.kind = 0x90 then
    if status = 0 then (s.hostRead o.src o.len).2.scratchWrite i o.dst (s.hostRead o.src o.len).1
    else (s.drawBytes o.len).2.scratchWrite i o.dst (Data.clean (s.drawBytes o.len).1)
  else if status = 0 then s.hostStore o.dst o.data
  else (List.range o.len).foldl (State.storeByte (s.draw (2 ^ 4096)).1 o.dst o.data) (s.draw (2 ^ 4096)).2

theorem State.endTransfer_eq (s : State) (i status : Nat) (o : AsyncOp) :
    s.endTransfer i status o = ((s.moveTransfer i status o).closeAsync i o.id).complete ((s.cell i).logical.getD 0) o.q o.cls
      (.cell ((s.cell i).logical.getD 0)) status 0 := by
  unfold State.endTransfer State.moveTransfer
  split
  · split <;> rfl
  · split <;> rfl

/-- Moving a transfer's bytes leaves tokens, device memory, the timeouts counted and, but for the scratchpad of i, every cell. -/
structure State.Moved (s : State) (i : Nat) (u : State) : Prop where
  tokens : u.tokens = s.tokens
  mem : u.mem = s.mem
  timeouts : u.hif.cntCto = s.hif.cntCto
  size : u.cells.length = s.cells.length
  others : ∀ n, n ≠ i → u.cell n = s.cell n
  own : u.cell i = { s.cell i with scratch := (u.cell i).scratch }

theorem State.HostChanged.cells {s u : State} (h : s.HostChanged u) : u.cells = s.cells := (congrArg State.cells h).trans rfl

theorem State.HostChanged.cell {s u : State} (h : s.HostChanged u) (n : Nat) : u.cell n = s.cell n :=
  congrArg (fun l : List Cell => l.getD n (Cell.fresh n)) h.cells

theorem State.HostChanged.moved {s u : State} (h : s.HostChanged u) (i : Nat) : s.Moved i u :=
  ⟨(congrArg State.tokens h).trans rfl, (congrArg State.mem h).trans rfl, (congrArg (fun t : State => t.hif.cntCto) h).trans rfl,
    congrArg List.length h.cells, fun n _ => h.cell n, by rw [h.cell]⟩

theorem State.Moved.scratchWrite {s u : State} {i : Nat} (h : s.Moved i u) (hi : i < s.cells.length) (a : Nat) (d : Data) :
    s.Moved i (u.scratchWrite i a d) := by
  refine ⟨h.tokens, h.mem, h.timeouts, (List.length_modify ..).trans h.size, fun n hn => ?_, ?_⟩
  · exact (u.cell_modCell_ne _ hn.symm).trans (h.others n hn)
  · rw [State.scratchWrite, u.cell_modCell_self _ (h.size ▸ hi)]
    exact congrArg (fun c : Cell => { c with scratch := (u.cell i).scratch.write 64 a d }) h.own

theorem State.cell_scratchWrite (u : State) {i : Nat} (hi : i < u.cells.length) (a : Nat) (d : Data) :
    ((u.scratchWrite i a d).cell i).scratch = (u.cell i).scratch.write 64 a d :=
  congrArg Cell.scratch (u.cell_modCell_self _ hi)

theorem State.hostRead_changes (s : State) (a n : Nat) : s.HostChanged (s.hostRead a n).2 := by
  unfold State.hostRead State.fillLines
  split
  · split <;> rfl
  · rfl

theorem State.foldl_storeByte_changes (m dst : Nat) (d : Data) (l : List Nat) (s : State) :
    s.HostChanged (l.foldl (State.storeByte m dst d) s) := by
  induction l generalizing s with
  | nil => rfl
  | cons k l ih =>
    have first : s.HostChanged (s.storeByte m dst d k) := by
      unfold State.storeByte
      split
      · exact s.hostStore_changes _ _
      · rfl
    exact first.trans (ih _)

theorem State.storeByte_get (m dst : Nat) (d : Data) (s : State) (k x : Nat) :
    (s.storeByte m dst d k).host.get x = s.host.get x ∨
      x = dst + k ∧ (d[k]?).map Prod.fst = some ((s.storeByte m dst d k).host.get x) := by
  unfold State.storeByte
  split
  · by_cases here : x = dst + k ∧ k < d.length
    · obtain ⟨rfl, inside⟩ := here
      refine .inr ⟨rfl, ?_⟩
      have byte := Store.get_write 64 s.host (dst + k) ((d.drop k).take 1) (dst + k)
      rw [if_pos (by simp only [List.length_take, List.length_drop]; omega), Nat.sub_self] at byte
      refine Eq.trans ?_ (congrArg some byte).symm
      simp [Data.bytes, inside]
    · exact .inl ((Store.get_write 64 s.host (dst + k) ((d.drop k).take 1) x).trans
        (if_neg (by simp only [List.length_take, List.length_drop]; omega)))
  · exact .inl rfl

/-- Of a transfer that fails, every byte of host memory is as it was or the transfer's (R334). -/
theorem State.foldl_storeByte_get (m dst : Nat) (d : Data) (s : State) (n x : Nat) :
    ((List.range n).foldl (State.storeByte m dst d) s).host.get x = s.host.get x ∨
      ∃ k < n, x = dst + k ∧ (d[k]?).map Prod.fst = some (((List.range n).foldl (State.storeByte m dst d) s).host.get x) := by
  induction n with
  | zero => exact .inl rfl
  | succ n ih =>
    rw [List.range_succ, List.foldl_append, List.foldl_cons, List.foldl_nil]
    rcases State.storeByte_get m dst d ((List.range n).foldl (State.storeByte m dst d) s) n x with same | ⟨at_, byte⟩
    · rw [same]
      exact ih.imp_right fun ⟨k, hk, rest⟩ => ⟨k, by omega, rest⟩
    · exact .inr ⟨n, by omega, at_, byte⟩

theorem State.Moved.of_drawn {s u : State} {i : Nat} (k : Nat) (h : State.Moved { s with drawn := k } i u) : s.Moved i u :=
  ⟨h.tokens, h.mem, h.timeouts, h.size, h.others, h.own⟩

theorem State.moved_moveTransfer {s : State} {i : Nat} (hi : i < s.cells.length) (status : Nat) (o : AsyncOp) :
    s.Moved i (s.moveTransfer i status o) := by
  have drawn : s.Moved i (s.drawBytes o.len).2 := .of_drawn (s.drawn + o.len) ((State.HostChanged.refl (s.drawBytes o.len).2).moved i)
  unfold State.moveTransfer
  split
  · split
    · exact ((s.hostRead_changes o.src o.len).moved i).scratchWrite hi _ _
    · exact drawn.scratchWrite hi _ _
  · split
    · exact (s.hostStore_changes _ _).moved i
    · exact .of_drawn (s.drawn + 1) ((State.foldl_storeByte_changes _ _ _ _ (s.draw (2 ^ 4096)).2).moved i)

/-- How a transfer of cell g at position i has ended (R334): its completion token is sent, it is open no more, and the cell goes on
as it was. -/
def State.Ended (s : State) (g i : Nat) (o : AsyncOp) (status : Nat) (t : State) : Prop :=
  t.tokens = s.tokens ++ [(g, o.q, o.cls, ⟨BitVec.ofNat 32 (2 ^ 24 * status), .cell g, true, none, none⟩)] ∧
    (t.cell i).open_ = (s.cell i).open_.filter (fun x => x.id != o.id) ∧ (t.cell i).st = (s.cell i).st ∧
    (t.cell i).cur = (s.cell i).cur ∧ (∀ n, n ≠ i → t.cell n = s.cell n) ∧ t.mem = s.mem

theorem State.wake_free {s : State} {i : Nat} (h : (s.cell i).held = none) : s.wake i = s := by
  rw [State.wake, h]

section
variable {s : State} {g i : Nat} {o : AsyncOp}

theorem State.transferDone_of_status {status : Nat} (hpos : s.posOf g = some i) (ho : (s.cell i).transfer = some o)
    (hs : (status = 0 ∧ s.hif.up = true) ∨ status = 2 ∨ status = 3) :
    s.transferDone g status = (s.endTransfer i status o).wake i := by
  simp only [State.transferDone, hpos, ho]
  exact if_pos hs

theorem State.transferDone_ended {status : Nat} (hpos : s.posOf g = some i) (ho : (s.cell i).transfer = some o)
    (hheld : (s.cell i).held = none) (hs : (status = 0 ∧ s.hif.up = true) ∨ status = 2 ∨ status = 3) :
    s.Ended g i o status (s.transferDone g status) ∧
      (s.transferDone g status).host = (s.moveTransfer i status o).host ∧
      ((s.transferDone g status).cell i).scratch = ((s.moveTransfer i status o).cell i).scratch ∧
      (s.transferDone g status).hif.cntCto = s.hif.cntCto := by
  have hi := s.posOf_lt hpos
  have logical : (s.cell i).logical.getD 0 = g := by
    obtain ⟨h, carries, -⟩ := List.findIdx?_eq_some_iff_getElem.1 hpos
    rw [State.cell, List.getD_eq_getElem _ _ h, eq_of_beq carries]
    rfl
  have moved := State.moved_moveTransfer hi status o
  have closed : ((s.endTransfer i status o).cell i) =
      { (s.moveTransfer i status o).cell i with
        open_ := ((s.moveTransfer i status o).cell i).open_.filter fun x => x.id != o.id } := by
    rw [State.endTransfer_eq]
    exact (s.moveTransfer i status o).cell_modCell_self _ (moved.size ▸ hi)
  have idle : ((s.endTransfer i status o).cell i).held = none := by
    rw [closed, moved.own]
    exact hheld
  rw [State.transferDone_of_status hpos ho hs, State.wake_free idle]
  refine ⟨⟨?_, ?_, ?_, ?_, fun n hn => ?_, ?_⟩, ?_, ?_, ?_⟩
  · rw [State.endTransfer_eq, logical]
    refine (congrArg (· ++ _) moved.tokens).trans ?_
    rw [Nat.zero_mod, Nat.add_zero]
  · rw [closed, moved.own]
  · rw [closed, moved.own]
  · rw [closed, moved.own]
    rfl
  · rw [State.endTransfer_eq]
    exact ((s.moveTransfer i status o).cell_modCell_ne _ hn.symm).trans (moved.others n hn)
  · rw [State.endTransfer_eq]
    exact moved.mem
  · rw [State.endTransfer_eq]
    rfl
  · rw [closed]
  · rw [State.endTransfer_eq]
    exact moved.timeouts

theorem State.moveTransfer_load (hi : i < s.cells.length) (hup : s.hif.up = true) (hk : o.kind = 0x90) :
    (s.moveTransfer i 0 o).host = s.host ∧
      ((s.moveTransfer i 0 o).cell i).scratch = (s.cell i).scratch.write 64 o.dst (s.host.read 64 o.src o.len) := by
  have read := State.hostRead_up hup o.src o.len
  have changes := s.hostRead_changes o.src o.len
  rw [State.moveTransfer, if_pos hk, if_pos rfl]
  refine ⟨(congrArg (fun r : Data × State => r.2.host) read).trans rfl,
    (State.cell_scratchWrite _ (by rwa [changes.cells]) _ _).trans ?_⟩
  rw [changes.cell, congrArg Prod.fst read]

theorem State.moveTransfer_store (hk : o.kind = 0x91) :
    (s.moveTransfer i 0 o).host = s.host.write 64 o.dst o.data ∧
      ((s.moveTransfer i 0 o).cell i).scratch = (s.cell i).scratch := by
  rw [State.moveTransfer, if_neg (by omega), if_pos rfl]
  exact ⟨rfl, rfl⟩

theorem State.moveTransfer_load_failed (hi : i < s.cells.length) {status : Nat} (hs : status ≠ 0) (hk : o.kind = 0x90) :
    (s.moveTransfer i status o).host = s.host ∧ ∀ x, x < o.dst ∨ o.dst + o.len ≤ x →
      ((s.moveTransfer i status o).cell i).scratch.get x = (s.cell i).scratch.get x := by
  have length : (Data.clean (s.drawBytes o.len).1).length = o.len := by simp [Data.clean, State.drawBytes]
  rw [State.moveTransfer, if_pos hk, if_neg hs]
  refine ⟨rfl, fun x hx => ?_⟩
  rw [State.cell_scratchWrite (s.drawBytes o.len).2 hi, Store.get_write, if_neg (by rw [length]; omega)]
  rfl

theorem State.moveTransfer_store_failed {status : Nat} (hs : status ≠ 0) (hk : o.kind = 0x91) :
    ((s.moveTransfer i status o).cell i).scratch = (s.cell i).scratch ∧
      (∀ x, x < o.dst ∨ o.dst + o.len ≤ x → (s.moveTransfer i status o).host.get x = s.host.get x) ∧
      ∀ k < o.len, (s.moveTransfer i status o).host.get (o.dst + k) = s.host.get (o.dst + k) ∨
        (o.data[k]?).map Prod.fst = some ((s.moveTransfer i status o).host.get (o.dst + k)) := by
  have bytes := State.foldl_storeByte_get (s.draw (2 ^ 4096)).1 o.dst o.data (s.draw (2 ^ 4096)).2 o.len
  rw [State.moveTransfer, if_neg (by omega), if_neg hs]
  refine ⟨?_, fun x hx => ?_, fun k hk => ?_⟩
  · exact congrArg Cell.scratch ((State.foldl_storeByte_changes _ _ _ _ (s.draw (2 ^ 4096)).2).cell i)
  · rcases bytes x with same | ⟨k, hk, at_, -⟩
    · exact same
    · omega
  · rcases bytes (o.dst + k) with same | ⟨j, -, at_, byte⟩
    · exact .inl same
    · obtain rfl : k = j := by omega
      exact .inr byte
end

section
variable {s : State} {g i : Nat} {o : AsyncOp} (hpos : s.posOf g = some i) (ho : (s.cell i).transfer = some o)
  (hheld : (s.cell i).held = none)
include hpos ho hheld

/-- A transfer that ends well while the link is up has moved its data (R334). -/
theorem hostTransferDone_ok (hup : s.hif.up = true) :
    (o.kind = 0x90 → ∃ t, (exec (.hostTransferDone g 0) s = .next t ∧ s.Ended g i o 0 t) ∧ t.host = s.host ∧
      (t.cell i).scratch = (s.cell i).scratch.write 64 o.dst (s.host.read 64 o.src o.len)) ∧
    (o.kind = 0x91 → ∃ t, (exec (.hostTransferDone g 0) s = .next t ∧ s.Ended g i o 0 t) ∧
      t.host = s.host.write 64 o.dst o.data ∧ (t.cell i).scratch = (s.cell i).scratch) := by
  obtain ⟨ended, host, scratch, -⟩ := State.transferDone_ended hpos ho hheld (.inl ⟨rfl, hup⟩)
  constructor
  · intro hk
    obtain ⟨source, stored⟩ := State.moveTransfer_load (s.posOf_lt hpos) hup hk
    exact ⟨_, ⟨rfl, ended⟩, host.trans source, scratch.trans stored⟩
  · intro hk
    obtain ⟨stored, source⟩ := State.moveTransfer_store (s := s) (i := i) hk
    exact ⟨_, ⟨rfl, ended⟩, host.trans stored, scratch.trans source⟩

/-- A transfer that fails leaves free bytes at its destination alone, and of a store any part (R334). -/
theorem hostTransferDone_failed {status : Nat} (hs : status = 2 ∨ status = 3) :
    (o.kind = 0x90 → ∃ t, (exec (.hostTransferDone g status) s = .next t ∧ s.Ended g i o status t) ∧ t.host = s.host ∧
      ∀ x, x < o.dst ∨ o.dst + o.len ≤ x → (t.cell i).scratch.get x = (s.cell i).scratch.get x) ∧
    (o.kind = 0x91 → ∃ t, (exec (.hostTransferDone g status) s = .next t ∧ s.Ended g i o status t) ∧
      (t.cell i).scratch = (s.cell i).scratch ∧ (∀ x, x < o.dst ∨ o.dst + o.len ≤ x → t.host.get x = s.host.get x) ∧
      ∀ k < o.len, t.host.get (o.dst + k) = s.host.get (o.dst + k) ∨
        (o.data[k]?).map Prod.fst = some (t.host.get (o.dst + k))) := by
  obtain ⟨ended, host, scratch, -⟩ := State.transferDone_ended hpos ho hheld (.inr hs)
  constructor
  · intro hk
    obtain ⟨source, kept⟩ := State.moveTransfer_load_failed (s.posOf_lt hpos) (by omega : status ≠ 0) hk
    exact ⟨_, ⟨rfl, ended⟩, host.trans source, by rwa [scratch]⟩
  · intro hk
    obtain ⟨source, kept⟩ := State.moveTransfer_store_failed (s := s) (i := i) (by omega : status ≠ 0) hk
    exact ⟨_, ⟨rfl, ended⟩, scratch.trans source, by rwa [host]⟩

omit hheld in
/-- A status that a transfer cannot have ends nothing (R334). -/
theorem hostTransferDone_other {status : Nat} (hs : (status = 0 ∧ s.hif.up = false) ∨ status = 1 ∨ 4 ≤ status) :
    exec (.hostTransferDone g status) s = .next s := by
  refine congrArg Host.Outcome.next ?_
  simp only [State.transferDone, hpos, ho]
  refine if_neg ?_
  rintro (⟨ok, up⟩ | failed)
  · simp [ok, up] at hs
  · omega

/-- An unanswered transfer ends with HOST_ERROR once it is due, and is counted (R334, R352). -/
theorem completionTimeout_due :
    (s.now .host < o.since + 1000000 * bits (s.reg 0x100008) 6 0 → exec (.completionTimeout g) s = .next s) ∧
      (o.since + 1000000 * bits (s.reg 0x100008) 6 0 ≤ s.now .host → ∃ t,
        (exec (.completionTimeout g) s = .next t ∧ s.Ended g i o 3 t) ∧ t.hif.cntCto = s.hif.cntCto + 1) := by
  have run : exec (.completionTimeout g) s = .next (if s.now .host < o.since + 1000000 * bits (s.reg 0x100008) 6 0 then s
      else (s.modHif fun h => { h with cntCto := h.cntCto + 1 }).transferDone g 3) := by
    have waits : ((s.posOf g).bind fun i => (s.cell i).transfer) = some o := by rw [hpos]; exact ho
    refine congrArg Host.Outcome.next ?_
    simp only [waits]
  rw [run]
  constructor
  · exact fun early => by rw [if_pos early]
  · intro due
    obtain ⟨ended, -, -, counted⟩ := State.transferDone_ended (s := s.modHif fun h => { h with cntCto := h.cntCto + 1 })
      hpos ho hheld (.inr (.inr rfl))
    exact ⟨_, ⟨by rw [if_neg (Nat.not_lt.2 due)], ended⟩, counted⟩
end

/-- Settles O35: an access of the physical function is cut into one piece, whose frame says where it goes; a block of the read
buffer serves what a fetch of it read; and a transfer ends by its bytes, its completion and the cell's open list. -/
theorem hostAccesses : Obligations.HostAccesses := by
  unfold Obligations.HostAccesses
  intro s
  refine ⟨bar2Write_granule s, bar2Write_unmapped s, bar2Read_hit s, bar2Read_miss s, snoop_stores s, ?_⟩
  intro g i o hpos ho hheld ended
  exact ⟨fun hup => (hostTransferDone_ok hpos ho hheld hup).1, fun hup => (hostTransferDone_ok hpos ho hheld hup).2,
    fun _ hs => (hostTransferDone_failed hpos ho hheld hs).1, fun _ hs => (hostTransferDone_failed hpos ho hheld hs).2,
    fun _ hs => hostTransferDone_other hpos ho hs, completionTimeout_due hpos ho hheld⟩

end Sys2Proof.Machine

namespace Sys2Proof.Machine

/-! ## A step (O1) -/

/-- An idle nanosecond of a running steward (R29): MTIME counts it, and at the end of a millisecond the cap counter may move. -/
theorem tick_running {s : State} (run : s.power.boot = 3 ∨ s.power.boot = 4) :
    (tick s).mtime = s.mtime + 1 ∧
      tick s = { s with mtime := (tick s).mtime
                        power := { s.power with cntCap := (tick s).power.cntCap, capped := (tick s).power.capped } } ∧
      ((s.mtime + 1).toNat % 1000000 ≠ 0 → (tick s).power = s.power) := by
  have on : 3 ≤ s.power.boot ∧ s.power.boot ≤ 4 := by omega
  by_cases ends : (s.mtime + 1).toNat % 1000000 = 0
  · have e : tick s = State.modPower { s with mtime := s.mtime + 1 } _ := (if_pos on).trans (if_neg (not_not.2 ends))
    rw [e]
    exact ⟨rfl, rfl, fun amid => absurd ends amid⟩
  · have e : tick s = { s with mtime := s.mtime + 1 } := (if_pos on).trans (if_pos ends)
    rw [e]
    exact ⟨rfl, rfl, fun _ => rfl⟩

/-- Time stands while the steward does not run (R29, log entry 2). -/
theorem tick_stopped {s : State} (stopped : s.power.boot < 3 ∨ 4 < s.power.boot) : tick s = s :=
  if_neg (by omega)

theorem step_of_cons {s : State} {c : Instr} {rest : List Instr} (waits : s.pending = c :: rest) :
    step s = exec c { s with pending := rest } := by
  rw [step, waits]

theorem step_of_nil {s : State} (idle : s.pending = []) : step s = .next (tick s) := by
  rw [step, idle]

/-- Settles O1: a step runs the front of the queue, or ticks where nothing waits. -/
theorem stepRunsTheFront : Obligations.StepRunsTheFront := by
  unfold Obligations.StepRunsTheFront
  intro s
  refine ⟨fun c rest => step_of_cons, fun idle run => ⟨tick s, step_of_nil idle, tick_running run⟩, fun idle stopped => ?_,
    fun _ _ => ⟨rfl, rfl⟩⟩
  rw [step_of_nil idle, tick_stopped stopped]

end Sys2Proof.Machine

namespace Sys2Proof.Machine

/-! ## Steps of the scalar unit (O5) -/

theorem fld_lt (w : StepWord) (hi lo : Nat) : fld w hi lo < 2 ^ (hi + 1 - lo) := Nat.mod_lt _ (Nat.two_pow_pos _)

/-- The second operand of a scalar step as a word: IMM32 with FLAGS[0], else SB (R69). -/
def Ctx.second (x : Ctx) (w : StepWord) : Word :=
  if flagOf w 0 then BitVec.ofNat 64 (imm32Of w) else x.scalar (sbOf w)

theorem Ctx.second_toNat (x : Ctx) (w : StepWord) : (x.second w).toNat = x.sbImm w := by
  unfold Ctx.second Ctx.sbImm
  split
  · exact BitVec.toNat_ofNat .. ▸ Nat.mod_eq_of_lt ((fld_lt w 127 96).trans (by decide))
  · rfl

section
variable {s : State} {k g i p : Nat} {w : StepWord}

/-- A step whose meaning is one write of SD leaves that write and its issue (R60). -/
theorem State.Ready.writesSd (h : s.Ready k g w i p) (v : Cell → Nat) :
    s.issue k g w (fun i _ s => s.setSd i w (v (s.cell i))) =
      s.putCell i ((s.cell i).issued.withScalar (sdOf w) (BitVec.ofNat 64 (v (s.cell i).issued))) := by
  rw [h.issue, State.setSd_putCell _ _ _ h.lt, State.cell_putCell_self _ _ h.lt]

/-- A scalar step of two operands writes to SD the word that its function on numbers stands for (R60, R69). -/
theorem State.Ready.scalarOp (h : s.Ready k g w i p) {f : Nat → Nat → Nat} {op : Word → Word → Word}
    (same : ∀ a b : Word, BitVec.ofNat 64 (f a.toNat b.toNat) = op a b) :
    s.issue k g w (fun i _ s => s.scalarOp i w f) =
      s.putCell i ((s.cell i).issued.withScalar (sdOf w)
        (op ((s.cell i).cur.scalar (saOf w)) ((s.cell i).cur.second w))) := by
  refine (h.writesSd fun c => f (c.cur.sa w) (c.cur.sbImm w)).trans ?_
  rw [← same, Ctx.second_toNat, Cell.issued_cur]
  rfl
end

/-! ### The functions on numbers and on words (R60) -/

theorem ofNat_add_toNat (a b : Word) : BitVec.ofNat 64 (a.toNat + b.toNat) = a + b := rfl

theorem ofNat_sub_toNat (a b : Word) : BitVec.ofNat 64 (a.toNat + (2 ^ 64 - b.toNat)) = a - b := by
  rw [BitVec.sub_def, Nat.add_comm]

theorem ofNat_mul_toNat (a b : Word) : BitVec.ofNat 64 (a.toNat * b.toNat) = a * b := rfl

theorem ofNat_and_toNat (a b : Word) : BitVec.ofNat 64 (a.toNat &&& b.toNat) = a &&& b := by
  rw [← BitVec.toNat_and, BitVec.ofNat_toNat, BitVec.setWidth_eq]

theorem ofNat_or_toNat (a b : Word) : BitVec.ofNat 64 (a.toNat ||| b.toNat) = a ||| b := by
  rw [← BitVec.toNat_or, BitVec.ofNat_toNat, BitVec.setWidth_eq]

theorem ofNat_xor_toNat (a b : Word) : BitVec.ofNat 64 (a.toNat ^^^ b.toNat) = a ^^^ b := by
  rw [← BitVec.toNat_xor, BitVec.ofNat_toNat, BitVec.setWidth_eq]

theorem ofNat_mul_two_pow (a : Word) (n : Nat) : BitVec.ofNat 64 (a.toNat * 2 ^ n) = a <<< n := by
  rw [← Nat.shiftLeft_eq]
  rfl

theorem ofNat_div_two_pow (a : Word) (n : Nat) : BitVec.ofNat 64 (a.toNat / 2 ^ n) = a >>> n := by
  rw [← Nat.shiftRight_eq_div_pow, ← BitVec.toNat_ushiftRight, BitVec.ofNat_toNat, BitVec.setWidth_eq]

theorem toSigned_toNat (a : Word) : toSigned 64 a.toNat = a.toInt := by
  have lt := a.isLt
  simp only [toSigned, BitVec.toInt, Nat.mod_eq_of_lt lt]
  norm_num
  split <;> split <;> omega

/-! ### Comparisons (R69, R101) -/

/-- Only bits [31:0] of a word are read as FP32 (R101). -/
theorem decodeVal_fp32_mod (a : Nat) : decodeVal 0 (a % 2 ^ 32) = decodeVal 0 a := by
  have width : fmtBits 0 = 32 := rfl
  have notInt : fmtIsInt 0 = false := rfl
  simp only [decodeVal, notInt, Bool.false_eq_true, if_false, width, Nat.mod_mod]

/-- SCMP writes 1 where its condition holds, else 0. -/
theorem b2n_word {c : Bool} {q : Prop} (means : c = true ↔ q) :
    (q → BitVec.ofNat 64 (b2n c) = 1) ∧ (¬ q → BitVec.ofNat 64 (b2n c) = 0) := by
  constructor
  · intro hq
    rw [means.2 hq]
    rfl
  · intro hq
    rw [Bool.eq_false_iff.2 fun hc => hq (means.1 hc)]
    rfl

section
variable (a b : Word)

/-- The conditions of SCMP on whole words (R69). -/
theorem condBits_word :
    (condBits 0 64 a.toNat b.toNat = true ↔ a = b) ∧ (condBits 1 64 a.toNat b.toNat = true ↔ a ≠ b) ∧
      (condBits 2 64 a.toNat b.toNat = true ↔ a.toNat < b.toNat) ∧ (condBits 3 64 a.toNat b.toNat = true ↔ a.toNat ≤ b.toNat) ∧
      (condBits 4 64 a.toNat b.toNat = true ↔ a.toInt < b.toInt) ∧
      (condBits 5 64 a.toNat b.toNat = true ↔ a.toInt ≤ b.toInt) := by
  simp only [condBits, Nat.mod_eq_of_lt a.isLt, Nat.mod_eq_of_lt b.isLt, toSigned_toNat, decide_eq_true_eq, ne_eq,
    BitVec.toNat_inj, and_self]

/-- The conditions of SCMP on FP32 values (R101). -/
theorem condBits_fp32 :
    (condBits 6 64 a.toNat b.toNat = true ↔
      ∃ k, (decodeVal 0 (a.toNat % 2 ^ 32)).compare (decodeVal 0 (b.toNat % 2 ^ 32)) = some k ∧ k < 0) ∧
    (condBits 7 64 a.toNat b.toNat = true ↔
      ∃ k, (decodeVal 0 (a.toNat % 2 ^ 32)).compare (decodeVal 0 (b.toNat % 2 ^ 32)) = some k ∧ k ≤ 0) := by
  simp only [condBits, decodeVal_fp32_mod]
  cases (decodeVal 0 a.toNat).compare (decodeVal 0 b.toNat) <;> simp
end

/-! ### SFOP (R102) -/

/-- An FP32 result leaves bits [63:32] zero (R60). -/
theorem encodeVal_fp32_lt (v : Val) : encodeVal 0 v < 2 ^ 32 := by
  have sign : ∀ neg : Bool, (if neg then 2 ^ (fmtBits 0 - 1) else 0) ≤ 2 ^ 31 := by decide
  cases v with
  | nan => decide
  | inf neg => cases neg <;> decide
  | zero neg => cases neg <;> decide
  | num q =>
    have mag : ∀ m, (if fmtMax 0 < m then fmtInf 0 else m) ≤ 0x7F800000 := by
      intro m
      split
      · decide
      · exact (not_lt.1 ‹_›).trans (by decide)
    exact (Nat.add_le_add (sign _) (mag _)).trans_lt (by decide)

theorem ofNat_encodeVal_toNat (v : Val) : (BitVec.ofNat 64 (encodeVal 0 v)).toNat = encodeVal 0 v :=
  Nat.mod_eq_of_lt ((encodeVal_fp32_lt v).trans (by decide))

/-- An INT64 limited to its range is what its word reads as (R87, R102). -/
theorem toInt_ofNat_satInt (z : Int) : (BitVec.ofNat 64 (satInt 64 z % 2 ^ 64).toNat).toInt = satInt 64 z := by
  have low : -(2 ^ 63) ≤ satInt 64 z := le_max_left _ _
  have high : satInt 64 z < 2 ^ 63 := by unfold satInt; omega
  have word : BitVec.ofNat 64 (satInt 64 z % 2 ^ 64).toNat = BitVec.ofInt 64 (satInt 64 z) := by
    apply BitVec.eq_of_toNat_eq
    rw [BitVec.toNat_ofNat, BitVec.toNat_ofInt]
    omega
  rw [word]
  exact BitVec.toInt_ofInt_eq_self (by decide) low high

/-- What SFOP writes, by MODE, with x and y the FP32 values of its operands (R69, R102). -/
theorem scalarFp_word (a b : Word) (m : Nat) :
    let x := decodeVal 0 (a.toNat % 2 ^ 32)
    let y := decodeVal 0 (b.toNat % 2 ^ 32)
    let v := BitVec.ofNat 64 (scalarFp m a.toNat b.toNat)
    (m = 0 → v.toNat = encodeVal 0 (x.add y)) ∧ (m = 1 → v.toNat = encodeVal 0 (x.sub y)) ∧
      (m = 2 → v.toNat = encodeVal 0 (x.mul y)) ∧ (m = 3 → v.toNat = encodeVal 0 (Val.pick true x y)) ∧
      (m = 4 → v.toNat = encodeVal 0 (Val.pick false x y)) ∧ (m = 5 → v.toNat = encodeVal 0 (Val.ofInt a.toInt)) ∧
      (m = 6 → x = .nan → v = 0) ∧ (m = 6 → ∀ q, x = .num q → v.toInt = satInt 64 (roundInt q)) := by
  simp only [decodeVal_fp32_mod, scalarFp]
  refine ⟨?add, ?sub, ?mul, ?max, ?min, ?int, ?nan, ?num⟩ <;> rintro rfl
  case int => rw [← toSigned_toNat]; exact ofNat_encodeVal_toNat _
  case nan => intro nan; rw [nan]; rfl
  case num => intro q num; rw [num]; exact toInt_ofNat_satInt _
  all_goals exact ofNat_encodeVal_toNat _


/-! ## Loops (R61) -/

section
variable {s : State} {k g i p : Nat} {w : StepWord}

/-- The cell after a LOOP has cleared the SD that its FLAGS[1] names, the index of the first pass (R61). -/
def Cell.loopSd (c : Cell) (w : StepWord) : Cell := if flagOf w 1 then c.withScalar (sdOf w) 0 else c

/-- The passes that a LOOP asks for (R61). -/
def Ctx.passes (x : Ctx) (w : StepWord) : Nat := if flagOf w 0 then x.sa w % 2 ^ 32 else imm32Of w

theorem Cell.loopSd_cur (c : Cell) : (c.loopSd w).cur.step = c.cur.step ∧ (c.loopSd w).cur.loops = c.cur.loops ∧
    (c.loopSd w).cur.overLoops = c.cur.overLoops := by
  unfold Cell.loopSd
  split
  · rw [Cell.withScalar_cur]; exact ⟨rfl, rfl, rfl⟩
  · exact ⟨rfl, rfl, rfl⟩

section
variable {c : Cell} (hi : i < s.cells.length)
include hi

/-- What a LOOP leaves of a cell that has issued it (R61). -/
theorem State.loopOpen_putCell : (s.putCell i c).loopOpen i w = s.putCell i ((c.loopSd w).setCur <|
    if 4 ≤ loopDepth (c.img.steps.take (c.cur.step - 1)) then
      { (c.loopSd w).cur with overLoops := c.cur.overLoops + 1 }
    else if c.cur.passes w = 0 then
      { (c.loopSd w).cur with step := skipBody (c.img.steps.drop c.cur.step) c.cur.step 0 }
    else { (c.loopSd w).cur with loops := ⟨c.cur.step, c.cur.passes w, 0⟩ :: c.cur.loops }) := by
  have sd : (if flagOf w 1 then (s.putCell i c).setSd i w 0 else s.putCell i c) = s.putCell i (c.loopSd w) := by
    unfold Cell.loopSd
    split
    · exact State.setSd_putCell s i c hi w 0
    · rfl
  obtain ⟨step, loops, deeper⟩ := c.loopSd_cur (w := w)
  simp only [State.loopOpen, State.cell_putCell_self _ _ hi, sd, State.modCtx_putCell _ _ _ hi, step, loops, deeper,
    ← Ctx.passes.eq_1]
  split
  · rfl
  · split <;> rfl
end

theorem State.Ready.loop (h : s.Ready 0x01 g w i p) :
    exec (.loop g w) s = .next ((s.putCell i (s.cell i).issued).loopOpen i w) := by
  show Host.Outcome.next (s.issue 0x01 g w _) = _
  rw [h.issue]

/-- What an ENDLOOP leaves of a cell that has issued it (R61). -/
theorem State.Ready.endloop (h : s.Ready 0x02 g w i p) :
    exec (.endloop g w) s = .next ((s.putCell i (s.cell i).issued).loopClose i) := by
  show Host.Outcome.next (s.issue 0x02 g w _) = _
  rw [h.issue]

section
variable {c : Cell} (hi : i < s.cells.length)
include hi

theorem State.loopClose_deep (deep : 4 < loopDepth (c.img.steps.take (c.cur.step - 1))) :
    (s.putCell i c).loopClose i = s.putCell i (c.setCur { c.cur with overLoops := c.cur.overLoops - 1 }) := by
  simp only [State.loopClose, State.cell_putCell_self _ _ hi, if_pos deep, State.modCtx_putCell _ _ _ hi]

variable (shallow : ¬ 4 < loopDepth (c.img.steps.take (c.cur.step - 1)))
include shallow

theorem State.loopClose_none (none : c.cur.loops = []) : (s.putCell i c).loopClose i = s.putCell i c := by
  simp only [State.loopClose, State.cell_putCell_self _ _ hi, if_neg shallow, none]

theorem State.loopClose_last {f : LoopFrame} {l : List LoopFrame} (loops : c.cur.loops = f :: l) (last : f.left ≤ 1) :
    (s.putCell i c).loopClose i = s.putCell i (c.setCur { c.cur with loops := l }) := by
  simp only [State.loopClose, State.cell_putCell_self _ _ hi, if_neg shallow, loops, if_neg (Nat.not_lt.2 last),
    State.modCtx_putCell _ _ _ hi]

/-- Another pass begins; with FLAGS[1] of its LOOP, SD holds its index (R61). -/
theorem State.loopClose_again {f : LoopFrame} {l : List LoopFrame} (loops : c.cur.loops = f :: l) (more : 1 < f.left) :
    ∃ d : Cell, (s.putCell i c).loopClose i = s.putCell i d ∧ d.cur.step = f.start ∧
      d.cur.loops = ⟨f.start, f.left - 1, f.idx + 1⟩ :: l ∧ d.comp = c.comp ∧ d.scratch = c.scratch := by
  simp only [State.loopClose, State.cell_putCell_self _ _ hi, if_neg shallow, loops, if_pos more,
    State.modCtx_putCell _ _ _ hi]
  split
  · split
    · refine ⟨_, State.setSd_putCell _ _ _ hi _ _, ?_⟩
      simp [Ctx.setScalar]
    · exact ⟨_, rfl, by simp⟩
  · exact ⟨_, rfl, by simp⟩
end

/-- MARK writes the cell's copy of MTIME (R69). -/
theorem State.Ready.mark (h : s.Ready 0x0E g w i p) : exec (.mark g w) s =
    .next (s.putCell i ((s.cell i).issued.withScalar (sdOf w) (BitVec.ofNat 64 (s.now (.cell i))))) := by
  show Host.Outcome.next (s.issue 0x0E g w _) = _
  rw [h.issue, State.setSd_putCell _ _ _ h.lt]
  rfl

/-- SEL writes SA where SC is not 0, else SB (R69). -/
theorem State.Ready.sel (h : s.Ready 0x09 g w i p) : exec (.sel g w) s =
    .next (s.putCell i ((s.cell i).issued.withScalar (sdOf w)
      (if (s.cell i).cur.scalar (scOf w) ≠ 0 then (s.cell i).cur.scalar (saOf w) else (s.cell i).cur.scalar (sbOf w)))) := by
  have nonzero : ∀ v : Word, v.toNat ≠ 0 ↔ v ≠ 0 := fun v => by rw [ne_eq, ne_eq, ← BitVec.toNat_inj]; rfl
  refine (congrArg _ (h.writesSd fun c => if c.cur.sc w ≠ 0 then c.cur.sa w else c.cur.sb w)).trans ?_
  simp only [Cell.issued_cur, Ctx.sa, Ctx.sb, Ctx.sc, Ctx.scalar_step, nonzero]
  rw [← apply_ite BitVec.toNat, BitVec.ofNat_toNat, BitVec.setWidth_eq]

/-- ACQ by scope: CELL leaves the read buffer, DIE empties it, DEVICE and wider also stamp the view (R246). -/
theorem State.Ready.acq (h : s.Ready 0x0C g w i p) :
    (modeOf w = 0 → exec (.acq g w) s = .next (s.putCell i (s.cell i).issued)) ∧
    (modeOf w = 1 → exec (.acq g w) s = .next (s.putCell i { (s.cell i).issued with readBuf := [] })) ∧
    (2 ≤ modeOf w → exec (.acq g w) s = .next (s.putCell i ({ (s.cell i).issued with readBuf := [] }.setCur
      { (s.cell i).issued.cur with viewStamp := s.now (.cell i) + 16 }))) := by
  have run : exec (.acq g w) s = .next ((s.putCell i (s.cell i).issued).acquire i w) := by
    show Host.Outcome.next (s.issue 0x0C g w _) = _
    rw [h.issue]
  rw [run]
  simp only [State.acquire]
  refine ⟨fun cell => ?_, fun die => ?_, fun wide => ?_⟩
  · rw [cell]; rfl
  · rw [die]
    exact congrArg _ ((State.modCell_eq_putCell _ _).trans (by rw [State.cell_putCell_self _ _ h.lt, State.putCell_putCell]))
  · have die : 1 ≤ modeOf w := by omega
    simp only [if_pos wide, if_pos die, State.modCell_eq_putCell, State.cell_putCell_self _ _ h.lt,
      State.putCell_putCell, State.modCtx_putCell _ _ _ h.lt]
    rfl
end

/-- Settles O5: the scalar steps write one function of their operands to SD; LOOP and ENDLOOP by the depth they stand at and the
count; ACQ by its scope. -/
theorem scalarSteps : Obligations.ScalarSteps := by
  unfold Obligations.ScalarSteps
  refine ⟨fun s g i p w => ?_, fun s g i p w => ?_, fun s g i p w => ?_⟩
  · refine ⟨fun h => congrArg _ (h.writesSd fun _ => imm64Of w), fun h => congrArg _ (h.scalarOp ofNat_add_toNat),
      fun h => congrArg _ (h.scalarOp ofNat_sub_toNat), fun h => congrArg _ (h.scalarOp ofNat_mul_toNat),
      fun h => congrArg _ (h.scalarOp ofNat_and_toNat), fun h => congrArg _ (h.scalarOp ofNat_or_toNat),
      fun h => congrArg _ (h.scalarOp ofNat_xor_toNat),
      fun h => congrArg _ (h.scalarOp (op := fun a b => a <<< (b.toNat % 64)) fun a b => ofNat_mul_two_pow a _),
      fun h => congrArg _ (h.scalarOp (op := fun a b => a >>> (b.toNat % 64)) fun a b => ofNat_div_two_pow a _)⟩
  · intro c a b x y done one
    have ops : c.issued.cur.sa w = a.toNat ∧ c.issued.cur.sb w = b.toNat := by
      rw [Cell.issued_cur]; exact ⟨rfl, rfl⟩
    obtain ⟨opA, opB⟩ := ops
    refine ⟨fun h => ⟨_, congrArg _ (h.writesSd fun c => b2n (condBits (modeOf w) 64 (c.cur.sa w) (c.cur.sb w))), ?_⟩,
      fun h => h.sel,
      fun h => ⟨_, congrArg _ (h.writesSd fun c => scalarFp (modeOf w) (c.cur.sa w) (c.cur.sb w)), ?_⟩,
      fun h => ⟨s.now (.cell i), h.mark, Nat.le_add_right .., ?_⟩⟩
    · obtain ⟨eq, ne, ltu, leu, lts, les⟩ := condBits_word a b
      obtain ⟨flt, fle⟩ := condBits_fp32 a b
      rw [opA, opB]
      exact ⟨fun m => m ▸ b2n_word eq, fun m => m ▸ b2n_word ne, fun m => m ▸ b2n_word ltu, fun m => m ▸ b2n_word leu,
        fun m => m ▸ b2n_word lts, fun m => m ▸ b2n_word les, fun m => m ▸ b2n_word flt, fun m => m ▸ b2n_word fle⟩
    · rw [opA, opB]
      exact scalarFp_word a b (modeOf w)
    · exact Nat.add_le_add_left (Nat.le_of_lt_succ (Nat.mod_lt _ (by decide))) _
  · intro c x n deep d done
    have started : d = c.issued.loopSd w := rfl
    have passes : c.issued.cur.passes w = n := by rw [Cell.issued_cur]; rfl
    have depth : loopDepth (c.issued.img.steps.take (c.issued.cur.step - 1)) = deep := by
      rw [Cell.issued_cur, Cell.issued_img]; rfl
    have step : c.issued.cur.step = x.step + 1 := by rw [Cell.issued_cur]
    have loops : c.issued.cur.loops = x.loops := by rw [Cell.issued_cur]
    have deeper : c.issued.cur.overLoops = x.overLoops := by rw [Cell.issued_cur]
    have opened (h : s.Ready 0x01 g w i p) := h.loop.trans (congrArg _ (State.loopOpen_putCell h.lt))
    rw [depth, passes, step, loops, deeper, Cell.issued_img, ← started] at opened
    refine ⟨fun h => congrArg _ (h.issue _), fun h => congrArg _ (h.issue _), fun h => congrArg _ (h.issue _),
      fun h shallow some => ?_, fun h shallow none => ?_, fun h below => ?_, fun h below => ?_, fun h shallow none => ?_,
      fun h shallow f l open_ last => ?_, fun h shallow f l open_ more => ?_, ?_, ?_, ?_⟩
    · rw [opened h, if_neg (Nat.not_le.2 shallow), if_neg some]
    · rw [opened h, if_neg (Nat.not_le.2 shallow), if_pos none]
    · rw [opened h, if_pos below]
    · rw [h.endloop, State.loopClose_deep h.lt (depth ▸ below), deeper]
    · rw [h.endloop, State.loopClose_none h.lt (depth ▸ Nat.not_lt.2 shallow) (loops.trans none)]
    · rw [h.endloop, State.loopClose_last h.lt (depth ▸ Nat.not_lt.2 shallow) (loops.trans open_) last]
    · obtain ⟨e, run, hstep, hloops, hcomp, hscratch⟩ :=
        State.loopClose_again h.lt (depth ▸ Nat.not_lt.2 shallow) (loops.trans open_) more
      refine ⟨_, h.endloop.trans (congrArg _ run), ?_⟩
      rw [State.cell_putCell_self _ _ h.lt]
      exact ⟨hstep, hloops, hcomp.trans c.issued_comp, hscratch.trans c.issued_scratch, rfl⟩
    · exact fun h => h.acq.1
    · exact fun h => h.acq.2.1
    · exact fun h wide => ⟨s.now (.cell i) + 16, by rw [State.now]; omega, h.acq.2.2 wide⟩

end Sys2Proof.Machine

namespace Sys2Proof.Machine

/-! ## What filing a report leaves of the module's health (R402 to R406, R416 to R418) -/

/-- The suspect bit, the retries and the state of the die-to-die links. -/
def Health.links (h : Health) : Bool × List (Nat × Nat × Nat) × List ((Nat × Nat) × Nat) × List (Nat × Nat) :=
  (h.suspect, h.retries, h.laneUsed, h.ucieLost)

/-- From s to t, n reports have been filed; the module is no more suspect and its links are as they were. -/
structure State.Filed (n : Word) (s t : State) : Prop where
  links : t.health.links = s.health.links
  reports : t.health.cntReports = s.health.cntReports + n

theorem State.Filed.refl (s : State) : State.Filed 0 s s := ⟨rfl, (BitVec.add_zero _).symm⟩

section
variable {n : Word} {s t : State} (h : State.Filed n s t)
include h

theorem State.Filed.modHealth {f : Health → Health} (links : ∀ h, (f h).links = h.links := by exact fun _ => rfl)
    (reports : ∀ h, (f h).cntReports = h.cntReports := by exact fun _ => rfl) : State.Filed n s (t.modHealth f) :=
  ⟨(links _).trans h.1, (reports _).trans h.2⟩

theorem State.Filed.modRing (r : Nat) (f : FaultRing → FaultRing) : State.Filed n s (t.modRing r f) :=
  h.modHealth

theorem State.Filed.raise (v : Nat) : State.Filed n s (t.raise v) := ⟨h.1, h.2⟩

theorem State.Filed.hostWrite (a : Nat) (d : Data) : State.Filed n s (t.hostWrite a d) := by
  unfold State.hostWrite
  split
  · exact ⟨h.1, h.2⟩
  · exact h

theorem State.Filed.ringWrite (r : Nat) (rec : Bytes) : State.Filed n s (t.ringWrite r rec) := by
  unfold State.ringWrite
  dsimp only
  exact ((h.hostWrite _ _).modRing r _).modHealth.raise 18

theorem State.Filed.ringSummary (r : Nat) : State.Filed n s (t.ringSummary r) := by
  unfold State.ringSummary
  dsimp only
  split
  · exact h
  · exact ((h.ringWrite r _).modRing r _).modHealth

theorem State.Filed.putRecord (r kind : Nat) (mk : Nat → Bytes) : State.Filed n s (t.putRecord r kind mk).2 := by
  have summed := h.ringSummary r
  unfold State.putRecord
  dsimp only
  split
  · split
    · exact summed.modRing r _
    · exact (summed.ringWrite r _).modRing r _
  · split <;> exact summed.modRing r _

theorem State.Filed.writeIncident (i : Incident) (ref : Nat) : State.Filed n s (t.writeIncident i ref).2 := by
  have counted : State.Filed n s
      (t.modHealth fun h => if 1 < i.reporters then { h with cntIncidents := h.cntIncidents + 1 } else h) :=
    h.modHealth (fun h => by split <;> rfl) fun h => by split <;> rfl
  have put := counted.putRecord (ringOf i.rep.cls) i.rep.unit.kind (t.recordBytes i ref i.verdict)
  unfold State.writeIncident
  dsimp only
  split
  · exact put.modHealth
  · exact put

/-- A report is counted once (R403). -/
theorem State.Filed.fileReport (rep : Report) (sev action : Nat) :
    State.Filed (n + 1) s (t.fileReport rep sev action).2 := by
  have counted : State.Filed (n + 1) s (t.modHealth fun h => { h with cntReports := h.cntReports + 1 }) :=
    ⟨h.1, (congrArg (· + 1) h.2).trans (BitVec.add_assoc _ _ _)⟩
  unfold State.fileReport
  dsimp only
  split
  · dsimp only
    exact counted.modHealth
  · split
    · exact counted.writeIncident _ _
    · dsimp only
      exact counted.modHealth

theorem State.Filed.modLark (u : UnitId) (f : Lark → Lark) : State.Filed n s (t.modLark u f) := by
  unfold State.modLark
  split
  · exact h
  · exact h.modHealth

theorem State.Filed.larkRepair (u : UnitId) (action detail loc : Nat) :
    State.Filed n s (t.larkRepair u action detail loc) := by
  unfold State.larkRepair
  exact h.modLark u _

/-- An event of a link is counted; one that makes the link permanent is reported (R418). -/
theorem State.Filed.countEvent {u : UnitId} (link : u.kind = 4) (cls : Nat) :
    State.Filed n s (t.countEvent u cls) ∨ State.Filed (n + 1) s (t.countEvent u cls) := by
  have around (t : State) : t.repairAround u cls = t := by
    rw [State.repairAround, if_neg (by omega), if_neg (by omega), if_neg (by omega)]
  unfold State.countEvent State.permanent
  dsimp only
  split
  · exact .inl h
  · split
    · rw [around]
      exact .inr (((h.modLark u _).modLark u _).fileReport _ _ _)
    · exact .inl (h.modLark u _)

theorem State.Filed.countIncident {u : UnitId} (link : u.kind = 4) (cls : Nat) :
    State.Filed n s (t.countIncident u cls) ∨ State.Filed (n + 1) s (t.countIncident u cls) := by
  unfold State.countIncident
  dsimp only
  split
  · split
    · exact .inl h
    · have counted := (h.modHealth (f := fun h => { h with incidents := (modWhere h.incidents
        (fun n => n.rep.unit == u && n.rep.cls == cls) fun n => { n with counted := true }) })).countEvent link cls
      split
      · exact counted
      · exact counted.imp (·.modHealth) (·.modHealth)
  · exact h.countEvent link cls
end

/-- A report of a link is counted, and a second one where it makes the link permanent. -/
theorem State.report_filed (s : State) (rep : Report) (sev : Nat) (link : rep.unit.kind = 4) (cls : rep.cls = 0x0D ∨ rep.cls = 0x0E) :
    State.Filed 1 s (s.report rep sev) ∨ State.Filed 2 s (s.report rep sev) := by
  have noJig : isJigClass rep.cls = false := by rcases cls with h | h <;> rw [h] <;> rfl
  have health : isHealth rep.cls = true := by rcases cls with h | h <;> rw [h] <;> rfl
  have noStack : rep.cls ≠ 0x0A := by omega
  have run : s.report rep sev = (s.fileReport rep sev 0).2.countIncident rep.unit rep.cls := by
    simp only [State.report, noJig, health, noStack, Bool.false_eq_true, and_false, false_and, if_false, if_true]
  rw [run]
  exact ((State.Filed.refl s).fileReport rep sev 0).countIncident link rep.cls

/-! ## Retries and lanes of a die-to-die link (R23, R24, R402) -/

/-- The health of the module once a retry of edge e has been reported at a time. -/
def Health.retried (h : Health) (e now : Nat) : Health :=
  { h with retries := h.retries.filter (fun x => x.1 != e) ++ [(e, 0, now)] }

/-- n redundant lanes of UCIe module m of edge e are in use. -/
def Health.lanesTaken (h : Health) (e m n : Nat) : Health :=
  { h with laneUsed := h.laneUsed.filter (fun x => x.1 != (e, m)) ++ [((e, m), n)] }

/-- UCIe module m of edge e is out of service. -/
def Health.moduleLost (h : Health) (e m : Nat) : Health := { h with ucieLost := h.ucieLost ++ [(e, m)] }

/-- The report of n link-level retries (R402). -/
def retriesReport (e m n now : Nat) : Report := { stewardReport 0x0E ⟨4, e, m⟩ 0 n 0 now with selfReport := true }

/-- The report of a lane that failed (R402). -/
def laneFailure (e m lane now : Nat) : Report := stewardReport 0x0D ⟨4, e, m⟩ 0 lane 0 now

theorem Health.find_retried (h : Health) (e now : Nat) :
    (h.retried e now).retries.find? (fun x => x.1 == e) = some (e, 0, now) := by
  have others : (h.retries.filter fun x => x.1 != e).find? (fun x => x.1 == e) = none := by
    rw [List.find?_eq_none]
    intro x hx
    simpa using (List.mem_filter.1 hx).2
  rw [Health.retried, List.find?_append, others]
  simp

section
variable {s : State} {e m : Nat}

theorem State.ucieUp_iff :
    s.ucieUp e m = true ↔ s.edgeExists e = true ∧ m < ucieModules e ∧ (e, m) ∉ s.health.ucieLost := by
  simp [State.ucieUp, and_assoc]

theorem State.ucieUp_false (h : s.edgeExists e = false ∨ ucieModules e ≤ m ∨ (e, m) ∈ s.health.ucieLost) :
    s.ucieUp e m = false := by
  rw [Bool.eq_false_iff, ne_eq, State.ucieUp_iff]
  rintro ⟨edge, module, up⟩
  rcases h with h | h | h
  · simp [h] at edge
  · omega
  · exact up h

theorem State.linkRetry_down (down : s.ucieUp e m = false) : s.linkRetry e m = s := by
  rw [State.linkRetry, down]; rfl

theorem State.laneRepair_down (down : s.ucieUp e m = false) (lane : Nat) : s.laneRepair e m lane = s := by
  rw [State.laneRepair, down]; rfl

variable (up : s.ucieUp e m = true)
include up

/-- Within a second of the edge's last report a retry is only counted (R402). -/
theorem State.linkRetry_early {n t : Nat} (last : s.health.retries.find? (fun x => x.1 == e) = some (e, n, t))
    (early : s.now .steward < t + 1000000000) :
    s.linkRetry e m = { s with health := { s.health with
      retries := s.health.retries.filter (fun x => x.1 != e) ++ [(e, n + 1, t)] } } := by
  simp [State.linkRetry, up, last, early, State.modHealth]

/-- Else it is reported, and counting begins again (R402). -/
theorem State.linkRetry_due (due : (∀ x ∈ s.health.retries, x.1 ≠ e) ∨
      ∃ n t, s.health.retries.find? (fun x => x.1 == e) = some (e, n, t) ∧ t + 1000000000 ≤ s.now .steward) :
    ∃ n, s.linkRetry e m = (s.modHealth (·.retried e (s.now .steward))).report (retriesReport e m n (s.now .steward)) 1 := by
  rcases due with first | ⟨n, t, last, late⟩
  · have none : s.health.retries.find? (fun x => x.1 == e) = none := by simpa using first
    exact ⟨1, by simp [State.linkRetry, up, none, Health.retried, retriesReport]⟩
  · exact ⟨n + 1, by simp [State.linkRetry, up, last, late, Health.retried, retriesReport]⟩

/-- A redundant lane of the module takes over (R23). -/
theorem State.laneRepair_spare {l n : Nat} (used : (n = 0 ∧ ∀ x ∈ s.health.laneUsed, x.1 ≠ (e, m)) ∨
      s.health.laneUsed.find? (fun x => x.1 == (e, m)) = some ((e, m), n)) (spare : n < Config.laneSpares e m) :
    s.laneRepair e m l = ((s.modHealth (·.lanesTaken e m (n + 1))).larkRepair ⟨4, e, m⟩ 8 0 l).report
      (laneFailure e m l (s.now .steward)) 1 := by
  rcases used with ⟨rfl, first⟩ | last
  · have none : s.health.laneUsed.find? (fun x => x.1 == (e, m)) = none := List.find?_eq_none.2 (by simpa using first)
    simp [State.laneRepair, up, none, spare, Health.lanesTaken, laneFailure]
  · simp [State.laneRepair, up, last, spare, Health.lanesTaken, laneFailure]

/-- With no redundant lane left the module goes out of service (R24). -/
theorem State.laneRepair_lost {l n : Nat} (used : s.health.laneUsed.find? (fun x => x.1 == (e, m)) = some ((e, m), n))
    (none : Config.laneSpares e m ≤ n) :
    let t := ((s.modHealth (·.moduleLost e m)).modLark ⟨4, e, m⟩ fun l => { l with st := 3, dirty := false }).report
      (laneFailure e m l (s.now .steward)) 3
    s.laneRepair e m l = if (List.range (ucieModules e)).any (fun k => t.ucieUp e k) then t else t.makeSuspect 0x0D := by
  simp [State.laneRepair, up, used, Nat.not_lt.2 none, Health.moduleLost, laneFailure]
end


/-! ## Ending jobs, parts and epochs (R119, R136, R149, R391) -/

/-- From s to t work may have ended, but the module's health, its part and the states of its row engines are as they were,
no batch has come where there was none, and no partition has been opened. -/
structure State.SameUnits (s t : State) : Prop where
  health : t.health = s.health
  model : t.model = s.model
  engines : t.engines.map (·.st) = s.engines.map (·.st)
  batches : s.batches = [] → t.batches = []
  closed : ∀ p, (s.part p).opened = false → (t.part p).opened = false

theorem State.SameUnits.refl (s : State) : s.SameUnits s := ⟨rfl, rfl, rfl, id, fun _ => id⟩

theorem opened_getD_map (l : List Partition) {f : Partition → Partition} (q : Nat)
    (same : ∀ u, (f u).opened = u.opened := by exact fun _ => rfl) :
    ((l.map f).getD q .fresh).opened = (l.getD q .fresh).opened := by
  rw [List.getD_eq_getElem?_getD, List.getD_eq_getElem?_getD, List.getElem?_map]
  cases l[q]? with
  | none => rfl
  | some u => exact same u

section
variable {s t : State} (h : s.SameUnits t)
include h

/-- A change of anything else. -/
theorem State.SameUnits.other {u : State} (health : u.health = t.health := by exact rfl)
    (model : u.model = t.model := by exact rfl) (engines : u.engines = t.engines := by exact rfl)
    (batches : u.batches = t.batches := by exact rfl) (parts : u.parts = t.parts := by exact rfl) : s.SameUnits u :=
  ⟨health.trans h.health, model.trans h.model, engines ▸ h.engines, batches ▸ h.batches, by
    unfold State.part
    rw [parts]
    exact h.closed⟩

theorem State.SameUnits.foldl {α : Type} (l : List α) {f : State → α → State}
    (step : ∀ t a, s.SameUnits t → s.SameUnits (f t a)) : s.SameUnits (l.foldl f t) := by
  induction l generalizing t with
  | nil => exact h
  | cons a l ih => exact ih (step t a h)

theorem State.SameUnits.modEngine (k : Nat) {f : Engine → Engine} (same : ∀ e, (f e).st = e.st := by exact fun _ => rfl) :
    s.SameUnits (t.modEngine k f) := by
  refine ⟨h.health, h.model, Eq.trans ?_ h.engines, h.batches, h.closed⟩
  apply List.ext_getElem?
  intro j
  simp only [State.modEngine, List.getElem?_map, List.getElem?_modify]
  cases t.engines[j]? with
  | none => rfl
  | some e => by_cases here : k = j <;> simp [here, same]

theorem State.SameUnits.modBatch (n : Nat) (f : Batch → Batch) : s.SameUnits (t.modBatch n f) := by
  refine ⟨h.health, h.model, h.engines, fun none => ?_, h.closed⟩
  rw [State.modBatch, h.batches none]
  rfl

theorem State.SameUnits.sweepHeld (k : Nat) : s.SameUnits (t.sweepHeld k) := h.modEngine k

theorem State.SameUnits.freeEpoch (table n : Nat) : s.SameUnits (t.freeEpoch table n) := by
  unfold State.freeEpoch State.withdrawIf
  refine State.SameUnits.foldl ?_ _ fun _ k h => h.sweepHeld k
  refine ⟨h.health, h.model, Eq.trans ?_ h.engines, h.batches, h.closed⟩
  apply List.ext_getElem?
  intro j
  simp only [State.modEpoch, List.getElem?_map, List.getElem?_mapIdx]
  cases t.engines[j]? <;> rfl

theorem State.SameUnits.unqueue (p : Nat) (bs : List Block) : s.SameUnits (t.unqueue p bs) := by
  refine h.foldl bs fun t b h => h.foldl b.queued fun t g h => ?_
  unfold State.countChange
  split
  · exact h
  · exact h.other

theorem State.SameUnits.endJob (i status cause : Nat) : s.SameUnits (t.endJob i status cause) := by
  unfold State.endJob
  split
  · exact h
  · have unqueued := h.foldl (t.cell i).port.slots fun _ x h =>
      h.unqueue ((t.cell i).part.getD 0) (x.blocks.filter x.discarded)
    exact (State.SameUnits.other unqueued).modBatch _ _

theorem State.SameUnits.endSusp (i status : Nat) : s.SameUnits (t.endSusp i status) := by
  unfold State.endSusp
  split
  · exact h
  · exact (State.SameUnits.other h).modBatch _ _

theorem State.SameUnits.dropQueued (i status : Nat) (p : Job → Bool) : s.SameUnits (t.dropQueued i status p) :=
  (State.SameUnits.other h).foldl _ fun _ _ h => h.modBatch _ _

theorem State.SameUnits.endJobs (status : Nat) (p : Job → Bool) : s.SameUnits (t.endJobs status p) := by
  refine h.foldl _ fun t i h => State.SameUnits.dropQueued ?_ i status p
  have ran : s.SameUnits (if (t.cell i).job.any p then t.endJob i status 0 else t) := by
    split
    · exact h.endJob i status 0
    · exact h
  split
  · exact ran.endSusp i status
  · exact ran

theorem State.SameUnits.releaseIf (p : Binding → Bool) : s.SameUnits (t.releaseIf p) :=
  (State.SameUnits.other h).foldl _ fun _ e h => h.freeEpoch e.table e.no

theorem State.SameUnits.dropBatches (p : Batch → Bool) : s.SameUnits (t.dropBatches p) := by
  refine State.SameUnits.releaseIf ?_ _
  have ended := h.endJobs 4 fun j => ((t.batches.filter p).map (·.handle)).contains j.handle
  refine ⟨ended.health, ended.model, ended.engines, fun none => ?_, fun q was => ?_⟩
  · exact congrArg (List.filter fun b => !p b) (ended.batches none)
  · exact (opened_getD_map _ q).trans (ended.closed q was)

theorem State.SameUnits.hrvPump (stream : Nat) : s.SameUnits (t.hrvPump stream) := by
  unfold State.hrvPump
  dsimp only
  split
  · exact h
  · exact h.other

theorem State.SameUnits.hrvSend (type stream arg : Nat) (d : Data) : s.SameUnits (t.hrvSend type stream arg d) := by
  unfold State.hrvSend
  dsimp only
  split
  · exact (State.SameUnits.other h).hrvPump stream
  · exact h.other

theorem State.SameUnits.charge (k : Nat) (p : Option Nat) (n : Nat) : s.SameUnits (t.charge k p n) := by
  cases p with
  | none => exact h
  | some p => exact h.modEngine k

theorem State.SameUnits.drainGranule (k g : Nat) (f : Stack → Stack) : s.SameUnits (t.drainGranule k g f) := by
  unfold State.drainGranule
  split
  · exact h
  · refine State.SameUnits.charge (State.SameUnits.modEngine (State.SameUnits.modEngine ?_ k) k ?_) k _ 2
    · exact h.other
    · intro e
      split <;> rfl

theorem State.SameUnits.drainAll : s.SameUnits t.drainAll :=
  h.foldl _ fun _ k h => h.foldl _ fun _ g h => h.drainGranule k g _

theorem State.SameUnits.engineLost (k : Nat) : s.SameUnits (t.engineLost k) :=
  ((h.modEngine k).modEngine k).sweepHeld k

theorem State.SameUnits.engine_st (k : Nat) : (t.engine k).st = (s.engine k).st := by
  have states := congrArg (fun l : List Nat => l.getD k Engine.fresh.st) h.engines
  simpa only [List.getD_map, State.engine] using states

theorem State.SameUnits.engines_length : t.engines.length = s.engines.length := by
  simpa only [List.length_map] using congrArg List.length h.engines
end

/-! ## Partitions closed, engines and cells taken out (R33, R136, R303, R421) -/

/-- What a fold's step brings about for its item, and no step undoes, holds of every item of the list. -/
theorem foldl_reaches {P : Nat → State → Prop} {f : State → Nat → State} (reach : ∀ s p, P p (f s p))
    (keep : ∀ s p q, P p s → P p (f s q)) {l : List Nat} (s : State) {p : Nat} (hp : p ∈ l) : P p (l.foldl f s) := by
  have kept : ∀ (l : List Nat) (s : State), P p s → P p (l.foldl f s) := by
    intro l
    induction l with
    | nil => exact fun _ h => h
    | cons q l ih => exact fun s h => ih _ (keep s p q h)
  induction l generalizing s with
  | nil => exact absurd hp List.not_mem_nil
  | cons q l ih =>
    rcases List.mem_cons.1 hp with rfl | hp
    · exact kept l _ (reach s p)
    · exact ih _ hp

theorem foldl_keeps_eq {α β : Type} (view : State → β) {f : State → α → State} (same : ∀ s a, view (f s a) = view s)
    (l : List α) (s : State) : view (l.foldl f s) = view s := by
  induction l generalizing s with
  | nil => rfl
  | cons a l ih => exact (ih _).trans (same s a)

/-- Beyond the last partition there is none that is open or drained. -/
theorem State.part_beyond {s : State} {p : Nat} (beyond : ¬ p < s.parts.length) : s.part p = .fresh :=
  List.getD_eq_default _ _ (by omega)

theorem State.part_modPart (s : State) (p q : Nat) (f : Partition → Partition) :
    (s.modPart p f).part q = if p = q ∧ q < s.parts.length then f (s.part q) else s.part q := by
  by_cases same : p = q
  · subst same
    by_cases inside : p < s.parts.length
    · rw [if_pos ⟨rfl, inside⟩, s.part_modPart_self f inside]
    · rw [if_neg (by omega), State.part_beyond (by simpa using inside), State.part_beyond inside]
  · rw [if_neg (by omega), s.part_modPart_ne f same]

theorem State.closePart_opened (s : State) (p : Nat) : ((s.closePart p).part p).opened = false := by
  rw [State.closePart, State.part_modPart]
  split
  · rfl
  · rename_i out
    rw [State.part_beyond (by omega)]
    rfl

theorem State.closePart_keeps_closed (s : State) (p q : Nat) (was : (s.part p).opened = false) :
    ((s.closePart q).part p).opened = false := by
  rw [State.closePart, State.part_modPart]
  split
  · rfl
  · exact was

/-- A drain of the module closes every partition. -/
theorem State.closeParts_opened (s : State) {p : Nat} (hp : p < 16) :
    (((List.range 16).foldl State.closePart s).part p).opened = false :=
  foldl_reaches (P := fun p s => (s.part p).opened = false) State.closePart_opened State.closePart_keeps_closed s
    (List.mem_range.2 hp)

/-- What the module is once its partitions have been closed: partitions alone have changed. -/
structure State.Closed (s t : State) : Prop where
  cells : t.cells = s.cells
  engines : t.engines = s.engines
  batches : t.batches = s.batches
  health : t.health = s.health
  model : t.model = s.model
  closed : ∀ p < 16, (t.part p).opened = false

theorem State.closeParts (s : State) : s.Closed ((List.range 16).foldl State.closePart s) where
  cells := foldl_keeps_eq State.cells (f := State.closePart) (fun _ _ => rfl) _ s
  engines := foldl_keeps_eq State.engines (f := State.closePart) (fun _ _ => rfl) _ s
  batches := foldl_keeps_eq State.batches (f := State.closePart) (fun _ _ => rfl) _ s
  health := foldl_keeps_eq State.health (f := State.closePart) (fun _ _ => rfl) _ s
  model := foldl_keeps_eq State.model (f := State.closePart) (fun _ _ => rfl) _ s
  closed := fun _ hp => s.closeParts_opened hp

theorem State.drainCells_st (s : State) : ∀ c ∈ s.drainCells.cells, c.logical ≠ none → c.st = 4 := by
  intro c hc logical
  obtain ⟨d, -, rfl⟩ := List.mem_map.1 hc
  revert logical
  split
  · exact fun _ => rfl
  · rename_i free
    exact fun logical => absurd (by simpa using free) logical

section
variable (s : State) (k : Nat)

theorem State.engineOut_view {β : Type} (view : State → β)
    (same : ∀ s l, view { s with engines := l } = view s := by exact fun _ _ => rfl) :
    view (s.engineOut k) = view s := by
  unfold State.engineOut
  split
  · exact same s _
  · rfl

theorem State.engineOut_length : (s.engineOut k).engines.length = s.engines.length := by
  unfold State.engineOut
  split
  · exact ((State.SameUnits.refl _).engineLost k).engines_length.trans (List.length_modify ..)
  · rfl

theorem State.engineOut_self (hk : k < s.engines.length) : ((s.engineOut k).engine k).st ≠ 1 := by
  unfold State.engineOut
  split
  · rw [((State.SameUnits.refl _).engineLost k).engine_st, s.engine_modEngine_self _ hk]
    exact (by decide : (2 : Nat) ≠ 1)
  · assumption

theorem State.engineOut_keeps_out (j : Nat) (out : (s.engine j).st ≠ 1) : ((s.engineOut k).engine j).st ≠ 1 := by
  unfold State.engineOut
  split
  · rename_i active
    have other : k ≠ j := fun same => out (same ▸ active)
    rwa [((State.SameUnits.refl _).engineLost k).engine_st, s.engine_modEngine_ne _ other]
  · exact out
end

/-- A module that is drained whole has every row engine out of service (R136). -/
theorem State.enginesOut_st (s : State) {n : Nat} (size : s.engines.length = n) :
    ∀ e ∈ ((List.range n).foldl State.engineOut s).engines, e.st ≠ 1 := by
  intro e he
  obtain ⟨j, hj, rfl⟩ := List.getElem_of_mem he
  have out := foldl_reaches (P := fun j s => j < s.engines.length → (s.engine j).st ≠ 1) (f := State.engineOut)
    (fun s p hp => s.engineOut_self p (s.engineOut_length p ▸ hp))
    (fun s p q out hp => s.engineOut_keeps_out q p (out (s.engineOut_length q ▸ hp))) s
    (List.mem_range.2 (size ▸ (foldl_keeps_eq (fun t : State => t.engines.length) State.engineOut_length _ s ▸ hj))) hj
  rwa [State.engine, List.getD_eq_getElem _ _ hj] at out

/-- The end of a drain without a batch: the stacks drain, (R206, R421) -/
def State.stacksDrained (s : State) : State := if s.health.draining ∨ s.health.wholeDrain then s.drainAll else s

/-- the cells of a suspect module enter DRAINED (R421), -/
def State.cellsDrained (s : State) : State :=
  if s.health.draining then s.drainCells.modHealth fun h => { h with draining := false, drainedAll := true } else s

/-- and those of a module drained whole too, with its row engines (R33, R136). -/
def State.wholeDrained (s : State) : State :=
  if s.health.wholeDrain then
    ((List.range s.stackCount).foldl State.engineOut s.drainCells).modHealth fun h => { h with wholeDrain := false }
  else s

theorem State.finishDrain_eq (s : State) :
    s.finishDrain = if s.batches ≠ [] then s else s.stacksDrained.cellsDrained.wholeDrained := rfl

theorem State.stacksDrained_same (s : State) : s.SameUnits s.stacksDrained := by
  unfold State.stacksDrained
  split
  · exact (State.SameUnits.refl s).drainAll
  · exact .refl s

theorem State.cellsDrained_view {β : Type} (s : State) (view : State → β)
    (same : ∀ (s : State) l (d a : Bool), view { s with cells := l, health := { s.health with draining := d, drainedAll := a } } =
      view s := by exact fun _ _ _ _ => rfl) : view s.cellsDrained = view s := by
  unfold State.cellsDrained
  split
  · exact same s _ _ _
  · rfl

theorem State.wholeDrained_view {β : Type} (s : State) (view : State → β)
    (same : ∀ (s : State) l d k, view { s with cells := l, engines := k, health := { s.health with wholeDrain := d } } = view s
      := by exact fun _ _ _ _ => rfl) : view s.wholeDrained = view s := by
  unfold State.wholeDrained
  split
  · refine (foldl_keeps_eq (fun t : State => view (t.modHealth fun h => { h with wholeDrain := false })) (fun t k =>
      t.engineOut_view k (fun t => view (t.modHealth fun h => { h with wholeDrain := false })) fun t l => ?_) _ _).trans ?_
    · exact (same t t.cells false l).trans (same t t.cells false t.engines).symm
    · exact same s _ false s.engines
  · rfl

/-- The end of a drain opens nothing and leaves the links (R33, R421). -/
theorem State.finishDrain_keeps_closed (s : State) : s.finishDrain.health.links = s.health.links ∧
    ∀ p, (s.part p).opened = false → (s.finishDrain.part p).opened = false := by
  rw [State.finishDrain_eq]
  split
  · exact ⟨rfl, fun _ => id⟩
  · have same := s.stacksDrained_same
    constructor
    · rw [State.wholeDrained_view _ fun t => t.health.links, State.cellsDrained_view _ fun t => t.health.links, same.health]
    · intro p was
      rw [State.wholeDrained_view _ fun t => (t.part p).opened, State.cellsDrained_view _ fun t => (t.part p).opened]
      exact same.closed p was

/-- A module without batches that is drained whole has every cell and every row engine out of service (R33, R136). -/
theorem State.finishDrain_whole {s : State} (idle : s.batches = []) (whole : s.health.wholeDrain = true)
    (size : s.engines.length = s.stackCount) :
    (∀ c ∈ s.finishDrain.cells, c.logical ≠ none → c.st = 4) ∧ ∀ e ∈ s.finishDrain.engines, e.st ≠ 1 := by
  have same := s.stacksDrained_same
  rw [State.finishDrain_eq, if_neg (not_not.2 idle)]
  have still : s.stacksDrained.cellsDrained.health.wholeDrain = true := by
    rw [State.cellsDrained_view _ fun t => t.health.wholeDrain, same.health, whole]
  have count : s.stacksDrained.cellsDrained.engines.length = s.stacksDrained.cellsDrained.stackCount := by
    rw [State.cellsDrained_view _ fun t => t.engines.length, State.cellsDrained_view _ fun t => t.stackCount,
      same.engines_length, size, State.stackCount, State.stackCount, same.model]
  rw [State.wholeDrained, if_pos still]
  constructor
  · show ∀ c ∈ ((List.range _).foldl State.engineOut _).cells, _
    rw [foldl_keeps_eq (fun t : State => t.cells) (fun t k => t.engineOut_view k fun t => t.cells)]
    exact State.drainCells_st _
  · exact State.enginesOut_st _ count

/-- A module that becomes suspect closes every partition and keeps its links (R421). -/
theorem State.makeSuspect_closes (s : State) (cls : Nat) :
    (s.makeSuspect cls).health.suspect = true ∧ (s.makeSuspect cls).health.ucieLost = s.health.ucieLost ∧
      (s.health.suspect = false → ∀ p < 16, ((s.makeSuspect cls).part p).opened = false) := by
  unfold State.makeSuspect
  split
  · rename_i already
    exact ⟨already, rfl, fun healthy => absurd already (by simp [healthy])⟩
  · dsimp only
    generalize hu : State.steward _ _ _ _ _ _ _ = u
    have links : u.health.links = (true, s.health.links.2) := by
      rw [← hu]
      exact ((State.Filed.refl (s.modHealth fun h => { h with
        suspect := true, replace := true, cause := cls, draining := true })).fileReport _ 4 0).links
    generalize hv : (if u.hrv.st = 4 then State.dropBatches _ _ else _) = v
    have same : u.SameUnits v := by
      rw [← hv]
      split
      · exact ((State.SameUnits.refl u).hrvSend _ _ _ _).dropBatches _
      · exact .refl u
    have shut := v.closeParts
    generalize (List.range 16).foldl State.closePart v = w at shut
    obtain ⟨kept, closed⟩ := w.finishDrain_keeps_closed
    rw [shut.health, same.health, links] at kept
    exact ⟨congrArg Prod.fst kept, congrArg (fun l => l.2.2.2) kept, fun _ p hp => closed p (shut.closed p hp)⟩


/-! ## Die-to-die links (R23, R24, R402) -/

section
variable {s : State} {e m : Nat} (up : s.ucieUp e m = true)
include up

theorem linkRetry_reported (due : (∀ x ∈ s.health.retries, x.1 ≠ e) ∨
      ∃ n t, s.health.retries.find? (fun x => x.1 == e) = some (e, n, t) ∧ t + 1000000000 ≤ s.now .steward) :
    ∃ t, exec (.linkRetry e m) s = .next t ∧ t.health.retries.find? (fun x => x.1 == e) = some (e, 0, s.now .steward) ∧
      s.health.cntReports ≠ t.health.cntReports := by
  obtain ⟨n, run⟩ := State.linkRetry_due up due
  have filed := State.report_filed (s.modHealth (·.retried e (s.now .steward))) (retriesReport e m n (s.now .steward)) 1 rfl
    (.inr rfl)
  refine ⟨_, congrArg Host.Outcome.next run, ?_, fun same => ?_⟩
  · have retries := congrArg (fun l => l.2.1) (filed.elim (·.links) (·.links))
    exact (congrArg (List.find? fun x => x.1 == e) retries).trans (s.health.find_retried e _)
  · have counted := filed.imp (·.reports) (·.reports)
    rw [← same] at counted
    have moved : ∀ n : Word, n ≠ n + 1 ∧ n ≠ n + 2 := by
      intro n
      constructor <;> bv_omega
    exact counted.elim (moved _).1 (moved _).2

theorem laneRepair_redundant {l n : Nat} (used : (n = 0 ∧ ∀ x ∈ s.health.laneUsed, x.1 ≠ (e, m)) ∨
      s.health.laneUsed.find? (fun x => x.1 == (e, m)) = some ((e, m), n)) (spare : n < Config.laneSpares e m) :
    ∃ t, exec (.laneRepair e m l) s = .next t ∧ ((e, m), n + 1) ∈ t.health.laneUsed ∧
      t.health.ucieLost = s.health.ucieLost := by
  refine ⟨_, congrArg Host.Outcome.next (State.laneRepair_spare up used spare), ?_⟩
  generalize hu : State.report _ _ _ = u
  have links : u.health.links = (s.health.lanesTaken e m (n + 1)).links := by
    rw [← hu]
    refine Eq.trans ?_ ((State.Filed.refl (s.modHealth (·.lanesTaken e m (n + 1)))).larkRepair ⟨4, e, m⟩ 8 0 l).links
    exact (State.report_filed _ _ _ rfl (.inl rfl)).elim (·.links) (·.links)
  have taken : u.health.laneUsed = (s.health.lanesTaken e m (n + 1)).laneUsed := congrArg (fun l => l.2.2.1) links
  exact ⟨taken ▸ List.mem_append_right _ (List.mem_singleton.2 rfl), congrArg (fun l => l.2.2.2) links⟩

theorem laneRepair_out {l n : Nat} (used : s.health.laneUsed.find? (fun x => x.1 == (e, m)) = some ((e, m), n))
    (none : Config.laneSpares e m ≤ n) :
    ∃ t, exec (.laneRepair e m l) s = .next t ∧ (e, m) ∈ t.health.ucieLost ∧
      ((∀ j < ucieModules e, j ≠ m → (e, j) ∈ s.health.ucieLost) →
        t.health.suspect = true ∧ (s.health.suspect = false → ∀ q < 16, (t.part q).opened = false)) := by
  refine ⟨_, congrArg Host.Outcome.next (State.laneRepair_lost up used none), ?_⟩
  generalize hu : State.report _ _ _ = u
  have links : u.health.links = (s.health.moduleLost e m).links := by
    rw [← hu]
    refine Eq.trans ?_ ((State.Filed.refl (s.modHealth (·.moduleLost e m))).modLark ⟨4, e, m⟩ fun l => { l with st := 3, dirty := false }).links
    exact (State.report_filed _ _ _ rfl (.inl rfl)).elim (·.links) (·.links)
  have lost : u.health.ucieLost = s.health.ucieLost ++ [(e, m)] := congrArg (fun l => l.2.2.2) links
  have suspect : u.health.suspect = s.health.suspect := congrArg (fun l => l.1) links
  obtain ⟨becomes, keeps, closes⟩ := u.makeSuspect_closes 0x0D
  constructor
  · split
    · simp [lost]
    · simp [keeps, lost]
  · intro others
    have down : (List.range (ucieModules e)).any (fun k => u.ucieUp e k) = false := by
      rw [List.any_eq_false]
      intro j hj
      rw [Bool.not_eq_true]
      refine State.ucieUp_false (.inr (.inr ?_))
      by_cases here : j = m
      · simp [lost, here]
      · simp [lost, others j (List.mem_range.1 hj) here]
    rw [down]
    exact ⟨becomes, fun healthy => closes (suspect.trans healthy)⟩
end

/-! ## The drain switch (R33, R35) -/

section
variable {s : State} {g i : Nat} (hpos : s.posOf g = some i)
include hpos

theorem State.posOf_logical : (s.cell i).logical = some g := by
  obtain ⟨hi, carries, -⟩ := List.findIdx?_eq_some_iff_getElem.mp hpos
  rw [State.cell, List.getD_eq_getElem _ _ hi]
  exact eq_of_beq carries

/-- What a drain makes of a cell that is in service at a position (R33, R65, R317). -/
theorem drainCommand_cell : exec (.drainCommand (.cell g)) s = .next (s.putCell i
    (if (s.cell i).st = 4 then s.cell i
      else if (s.cell i).st = 0 ∧ (s.cell i).job.isNone ∧ (s.cell i).susp.isNone then { s.cell i with st := 4 }
      else { s.cell i with pend := { (s.cell i).pend with drain := true } })) := by
  have run : exec (.drainCommand (.cell g)) s = .next (s.drainCell i) := by
    show Host.Outcome.next (s.drain (.cell g)) = _
    rw [State.drain, hpos]
  have serves : ((s.cell i).st = 4 ∨ (s.cell i).logical.isNone = true) ↔ (s.cell i).st = 4 := by
    simp [State.posOf_logical hpos]
  rw [run, State.drainCell, State.modCell_eq_putCell]
  simp only [serves]

theorem returnToService_cell : exec (.returnToService (.cell g)) s = .next (s.putCell i (s.cell i).undrain) := by
  show Host.Outcome.next (s.undrain (.cell g)) = _
  rw [State.undrain, hpos]
  exact congrArg _ (s.modCell_eq_putCell _)
end

theorem State.putCell_cell (s : State) (i : Nat) : s.putCell i (s.cell i) = s := by
  have cells : s.cells.set i (s.cell i) = s.cells := by
    apply List.ext_getElem?
    intro j
    rw [List.getElem?_set]
    split
    · rename_i same
      subst same
      split
      · rename_i inside
        rw [State.cell, List.getD_eq_getElem _ _ inside, List.getElem?_eq_getElem inside]
      · rename_i beyond
        exact (List.getElem?_eq_none (not_lt.1 beyond)).symm
    · rfl
  rw [State.putCell, cells]

section
variable (s : State) (p q : Nat)

/-- A partition returns to service by two of its switches (R35). -/
theorem State.undrainPart_eq : s.undrainPart q = s.modPart q fun u =>
    { u with drained := false, opened := (s.modPart q fun u => { u with drained := false }).mayOpen q } := by
  simp only [State.undrainPart, State.reopen, State.modPart, List.modify_modify_eq]
  rfl

/-- Whether a partition may open does not rest on which are open (R303). -/
theorem State.reopen_mayOpen : (s.reopen q).mayOpen p = s.mayOpen p := by
  unfold State.reopen State.mayOpen
  rw [State.part_modPart]
  split
  · rfl
  · rfl

/-- A partition that reopens is open as far as its switches let it (R35, R303). -/
theorem State.reopen_opened (hq : q < s.parts.length) : ((s.reopen q).part q).opened = (s.reopen q).mayOpen q := by
  rw [State.reopen_mayOpen, State.reopen, s.part_modPart_self _ hq]

theorem State.undrainPart_opened (hq : q < s.parts.length) :
    ((s.undrainPart q).part q).opened = (s.undrainPart q).mayOpen q :=
  State.reopen_opened _ q ((List.length_modify ..).symm ▸ hq)

theorem State.undrainPart_drained : ((s.undrainPart p).part p).drained = false := by
  rw [State.undrainPart_eq, State.part_modPart]
  split
  · rfl
  · rename_i out
    rw [State.part_beyond (by omega)]
    rfl

theorem State.undrainPart_keeps_undrained (was : (s.part p).drained = false) :
    ((s.undrainPart q).part p).drained = false := by
  rw [State.undrainPart_eq, State.part_modPart]
  split
  · rfl
  · exact was

/-- The whole module returns: no cell and no row engine stays out of service, no partition drained (R35). -/
theorem returnToService_whole : ∃ t, exec (.returnToService .whole) s = .next t ∧ (∀ c ∈ t.cells, c.st ≠ 4) ∧
    (∀ e ∈ t.engines, e.st ≠ 2) ∧ ∀ p < 16, (t.part p).drained = false := by
  refine ⟨_, rfl, ?_, ?_, fun p hp => ?_⟩
  · have cells : (s.undrain .whole).cells = s.cells.map Cell.undrain :=
      foldl_keeps_eq (fun t : State => t.cells) (f := State.undrainPart) (fun _ _ => rfl) _ _
    intro c hc
    obtain ⟨d, -, rfl⟩ := List.mem_map.1 (cells ▸ hc)
    show (if d.st = 4 then 0 else d.st) ≠ 4
    split
    · decide
    · assumption
  · have engines : (s.undrain .whole).engines = s.engines.map fun e => if e.st = 2 then { e with st := 1 } else e :=
      foldl_keeps_eq (fun t : State => t.engines) (f := State.undrainPart) (fun _ _ => rfl) _ _
    intro e he
    obtain ⟨d, -, rfl⟩ := List.mem_map.1 (engines ▸ he)
    split
    · exact (by decide : (1 : Nat) ≠ 2)
    · assumption
  · exact foldl_reaches (P := fun p s => (s.part p).drained = false) State.undrainPart_drained
      State.undrainPart_keeps_undrained _ (List.mem_range.2 hp)
end

section
variable {s : State}

/-- The module drains while its batches run (R33, R35). -/
theorem drainCommand_whole_running (batches : s.batches ≠ []) (alone : s.hrv.st ≠ 4) :
    ∃ t, exec (.drainCommand .whole) s = .next t ∧ t.health.wholeDrain = true ∧
      t.cells = s.cells ∧ t.engines = s.engines ∧ t.batches = s.batches ∧ ∀ p < 16, (t.part p).opened = false := by
  have run : s.drain .whole =
      (((List.range 16).foldl State.closePart s).modHealth fun h => { h with wholeDrain := true }).finishDrain := by
    simp only [State.drain, if_neg alone]
  have shut := s.closeParts
  generalize (List.range 16).foldl State.closePart s = u at run shut
  have stays : u.batches ≠ [] := shut.batches ▸ batches
  rw [State.finishDrain_eq] at run
  exact ⟨_, congrArg Host.Outcome.next (run.trans (if_pos stays)), rfl, shut.cells, shut.engines, shut.batches, shut.closed⟩

/-- A module without batches is drained at once: cells and row engines are out of service (R33, R136). -/
theorem drainCommand_whole_idle (idle : s.batches = []) (size : s.engines.length = s.stackCount) :
    ∃ t, exec (.drainCommand .whole) s = .next t ∧ (∀ c ∈ t.cells, c.logical ≠ none → c.st = 4) ∧
      (∀ e ∈ t.engines, e.st ≠ 1) ∧ ∀ p < 16, (t.part p).opened = false := by
  obtain ⟨u, same, run⟩ : ∃ u, s.SameUnits u ∧ s.drain .whole =
      (((List.range 16).foldl State.closePart u).modHealth fun h => { h with wholeDrain := true }).finishDrain := by
    refine ⟨_, ?_, rfl⟩
    split
    · exact ((State.SameUnits.refl s).hrvSend _ _ _ _).dropBatches _
    · exact .refl s
  have shut := u.closeParts
  generalize (List.range 16).foldl State.closePart u = v at run shut
  have count : v.engines.length = v.stackCount := by
    rw [shut.engines, same.engines_length, size, State.stackCount, State.stackCount, shut.model, same.model]
  obtain ⟨cells, engines⟩ := State.finishDrain_whole (s := v.modHealth fun h => { h with wholeDrain := true })
    (shut.batches.trans (same.batches idle)) rfl count
  exact ⟨_, congrArg Host.Outcome.next run, cells, engines, fun p hp =>
    (State.finishDrain_keeps_closed _).2 p (shut.closed p hp)⟩
end

/-- Settles O58: retries and lanes by the laws of `Filed`; the drain switch cell by cell, partition by partition, and whole. -/
theorem linksAndDrain : Obligations.LinksAndDrain := by
  unfold Obligations.LinksAndDrain
  refine ⟨fun s e m => ⟨fun down => ?_, fun edge module up => ?_⟩, fun s g i q => ?_⟩
  · have out := State.ucieUp_false down
    exact ⟨congrArg Host.Outcome.next (State.linkRetry_down out),
      fun l => congrArg Host.Outcome.next (State.laneRepair_down out l)⟩
  · have up := State.ucieUp_iff.2 ⟨edge, module, up⟩
    exact ⟨fun n t0 last early => congrArg Host.Outcome.next (State.linkRetry_early up last early),
      linkRetry_reported up, fun l n => laneRepair_redundant up, fun l n => laneRepair_out up⟩
  · refine ⟨fun hpos st job susp => ?_, fun hpos st busy => ?_, fun hpos st => ?_, fun hpos => returnToService_cell hpos,
      fun hpos => ⟨?_, ?_⟩, fun hq => congrArg Host.Outcome.next (if_pos hq), fun hq => ?_, drainCommand_whole_running,
      drainCommand_whole_idle, returnToService_whole s⟩
    · rw [drainCommand_cell hpos, if_neg (by omega), if_pos (by simp [st, job, susp])]
    · have at_ : ¬((s.cell i).st = 0 ∧ (s.cell i).job.isNone = true ∧ (s.cell i).susp.isNone = true) := by
        rintro ⟨zero, noJob, noSusp⟩
        simp [zero, Option.isNone_iff_eq_none.1 noJob, Option.isNone_iff_eq_none.1 noSusp] at busy
      rw [drainCommand_cell hpos, if_neg st, if_neg at_]
    · rw [drainCommand_cell hpos, if_pos st, State.putCell_cell]
    · exact congrArg Host.Outcome.next (by rw [State.drain, hpos])
    · exact congrArg Host.Outcome.next (by rw [State.undrain, hpos])
    · exact ⟨_, rfl, s.undrainPart_drained q, s.undrainPart_opened q hq, rfl, fun r hr => by
        rw [State.undrain, State.undrainPart_eq, s.part_modPart_ne _ hr.symm]⟩

end Sys2Proof.Machine

namespace Sys2Proof.Machine

/-! ## The steward's endpoint (R450, R453, R455) -/

section
variable {s : State}

theorem State.endpoint_iff : s.endpoint = true ↔ s.power.boot = 3 ∨ s.power.boot = 4 := by
  simp [State.endpoint]

/-- An OEM command over PCIe before configuration-space readiness reaches nothing (R450). -/
theorem State.oem_unready (unready : s.hif.configReady = false) (only : Bool) (f : State → State) : s.oem false only f = s := by
  simp [State.oem, State.bound, unready]

/-- What a refused command leaves: one byte of answer that is not SUCCESS. -/
theorem State.declineCmd_answer (s : State) : ∃ r : Byte, r ≠ 0 ∧
    s.declineCmd = { s with drawn := s.drawn + 1, power := { s.power with answer := [r] } } := by
  refine ⟨BitVec.ofNat 8 ((s.draw 255).1 + 1), fun zero => ?_, rfl⟩
  have low : (s.draw 255).1 < 255 := Nat.mod_lt _ (by decide)
  have value := congrArg BitVec.toNat zero
  rw [BitVec.toNat_ofNat, Nat.mod_eq_of_lt (by omega)] at value
  exact absurd value (Nat.succ_ne_zero _)

theorem State.drawBytes_length (s : State) (n : Nat) : (s.drawBytes n).1.length = n := by
  simp [State.drawBytes]

variable (on : s.endpoint = true)
include on

theorem State.oem_i3c (only : Bool) (f : State → State) : s.oem true only f = f s := by
  simp [State.oem, State.bound, on]

section
variable (ready : s.hif.configReady = true)
include ready

theorem State.oem_pcie (f : State → State) : s.oem false false f = f s := by
  simp [State.oem, State.bound, on, ready]

theorem State.oem_pcie_eq_i3c (f : State → State) : s.oem false false f = s.oem true false f :=
  (State.oem_pcie on ready f).trans (State.oem_i3c on false f).symm

/-- A command marked I3C-only has no effect over PCIe (R453). -/
theorem State.oem_pcie_only (f : State → State) : s.oem false true f = s.respond [pldmUnsupported] := by
  simp [State.oem, State.bound, on, ready]
end

/-! ## Keys (R288, R453) -/

theorem keySet_empty {n : Nat} {key : Bytes} (length : key.length = 97) (empty : s.power.keys[n]? = some none) :
    exec (.keySet true n key) s =
      .next { s with power := { s.power with keys := s.power.keys.set n (some key), answer := [0] } } :=
  congrArg Host.Outcome.next ((State.oem_i3c on _ _).trans ((if_neg (not_not.2 length)).trans (if_neg (not_not.2 empty))))

theorem keySet_taken {n : Nat} {key : Bytes} (length : key.length = 97) (taken : s.power.keys[n]? ≠ some none) :
    ∃ t, exec (.keySet true n key) s = .next t ∧ t.power.keys = s.power.keys ∧ t.power.answer ≠ [0] ∧
      t.power.answer.length = 1 := by
  obtain ⟨r, refused, run⟩ := s.declineCmd_answer
  refine ⟨_, congrArg Host.Outcome.next
    ((State.oem_i3c on _ _).trans ((if_neg (not_not.2 length)).trans ((if_pos taken).trans run))), rfl, ?_, rfl⟩
  exact fun same => refused (List.head_eq_of_cons_eq same)

theorem keySet_length {n : Nat} {key : Bytes} (length : key.length ≠ 97) :
    exec (.keySet true n key) s = .next { s with power := { s.power with answer := [3] } } :=
  congrArg Host.Outcome.next ((State.oem_i3c on _ _).trans (if_pos length))

theorem keyRevoke_beyond {n : Nat} (beyond : s.power.keys.length ≤ n) :
    ∃ t, exec (.keyRevoke true n) s = .next t ∧ t.power.keys = s.power.keys ∧ t.power.answer ≠ [0] ∧
      t.power.answer.length = 1 := by
  obtain ⟨r, refused, run⟩ := s.declineCmd_answer
  refine ⟨_, congrArg Host.Outcome.next ((State.oem_i3c on _ _).trans ((if_pos beyond).trans run)), rfl, ?_, rfl⟩
  exact fun same => refused (List.head_eq_of_cons_eq same)

theorem keyRevoke_slot {n : Nat} (slot : n < s.power.keys.length) : exec (.keyRevoke true n) s =
    .next { s with power := { s.power with keys := s.power.keys.set n none, answer := [0] } } :=
  congrArg Host.Outcome.next ((State.oem_i3c on _ _).trans (if_neg (Nat.not_le.2 slot)))

/-! ## MTIME and resets (R30, R453) -/

theorem mtimeAdvance_taken {ns : Nat} (least : 1 ≤ ns) (most : ns ≤ 2 ^ 40)
    (free : s.model = 2 ∨ (s.reg 0x3400030).testBit 0 = false) : exec (.mtimeAdvance true ns) s =
      .next { s with mtime := s.mtime + BitVec.ofNat 64 ns, power := { s.power with answer := [0] } } := by
  have legal : ¬(ns = 0 ∨ 2 ^ 40 < ns ∨ s.model ≠ 2 ∧ (s.reg 0x3400030).testBit 0 = true) := by
    rintro (zero | large | ⟨ports, ptp⟩)
    · omega
    · omega
    · rcases free with none | off
      · exact ports none
      · simp [off] at ptp
  exact congrArg Host.Outcome.next ((State.oem_i3c on _ _).trans (if_neg legal))

theorem mtimeAdvance_refused {ns : Nat}
    (bad : ns = 0 ∨ 2 ^ 40 < ns ∨ s.model ≠ 2 ∧ (s.reg 0x3400030).testBit 0 = true) :
    ∃ t, exec (.mtimeAdvance true ns) s = .next t ∧ t.mtime = s.mtime ∧ t.power.answer ≠ [0] := by
  obtain ⟨r, refused, run⟩ := s.declineCmd_answer
  refine ⟨_, congrArg Host.Outcome.next ((State.oem_i3c on _ _).trans ((if_pos bad).trans run)), rfl, ?_⟩
  exact fun same => refused (List.head_eq_of_cons_eq same)

theorem oemReset_run (v : BitVec 64) : exec (.oemReset true v) s = .next ((s.respond [pldmOk]).glbReset v.toNat) :=
  congrArg Host.Outcome.next (State.oem_i3c on _ _)

theorem oemReset_other {v : BitVec 64} (none : bits v.toNat 2 0 ∉ [1, 2, 3]) :
    exec (.oemReset true v) s = .next (s.respond [pldmOk]) := by
  simp only [List.mem_cons, List.not_mem_nil, or_false, not_or] at none
  obtain ⟨warm, part, cold⟩ := none
  rw [oemReset_run on, State.glbReset]
  split
  · exact absurd ‹_› warm
  · exact absurd ‹_› part
  · exact absurd ‹_› cold
  · rfl

theorem oemReset_warm {v : BitVec 64} (warm : bits v.toNat 2 0 = 1) :
    exec (.oemReset true v) s = exec .glbResetWarm (s.respond [pldmOk]) := by
  rw [oemReset_run on, State.glbReset, warm]
  rfl

theorem oemReset_partition {v : BitVec 64} (part : bits v.toNat 2 0 = 2) :
    exec (.oemReset true v) s = exec (.glbResetPartition (bits v.toNat 7 4)) (s.respond [pldmOk]) := by
  rw [oemReset_run on, State.glbReset, part]
  rfl

/-- A cold reset begins start-up again where none of a higher rank runs (R456, R460). -/
theorem oemReset_cold {v : BitVec 64} (cold : bits v.toNat 2 0 = 3) (boot : s.power.boot = 4)
    (still : s.power.resetting = false) (noPart : s.power.partReset = 0) :
    ∃ t, exec (.oemReset true v) s = .next t ∧ t.power.boot = 1 ∧ t.power.lastReset = 1 ∧ t.mtime = 0 := by
  have idle : (s.respond [pldmOk]).power.running = 0 := by
    simp [State.respond, State.modPower, Power.running, still, boot, noPart]
  have started : (s.respond [pldmOk]).power.boot ≠ 0 := by
    simp [State.respond, State.modPower, boot]
  refine ⟨(s.respond [pldmOk]).cold 1 1, ?_, rfl, rfl, rfl⟩
  rw [oemReset_run on, State.glbReset, cold]
  show Host.Outcome.next (State.coldReset _) = _
  rw [State.coldReset, if_neg (by rw [idle]; decide), if_neg started]

/-! ## The suspect module is cleared (R422, R453) -/

/-- The module with SUSPECT, and on request REPLACE, cleared. -/
def State.healthCleared (s : State) (replace : Bool) : State :=
  (s.modHealth fun h => { h with suspect := false, cause := 0, replace := h.replace && !replace }).modPower fun p =>
    { p with suspectHold := false }

theorem healthClear_run (r : Bool) : exec (.healthClear true r) s =
    .next (((List.range 16).foldl State.reopen (s.healthCleared r)).respond [pldmOk]) :=
  congrArg Host.Outcome.next (State.oem_i3c on _ _)

omit on in
/-- After some partitions have been tried, each of them is open as far as its switches let it (R303). -/
theorem State.foldl_reopen_opened (u : State) {l : List Nat} {q : Nat} (tried : q ∈ l) (known : q < u.parts.length) :
    ((l.foldl State.reopen u).part q).opened = u.mayOpen q := by
  have size (t : State) (p : Nat) : (t.reopen p).parts.length = t.parts.length := List.length_modify ..
  have opened := foldl_reaches (f := State.reopen)
    (P := fun q t => q < t.parts.length → (t.part q).opened = t.mayOpen q)
    (fun t p inside => t.reopen_opened p (size t p ▸ inside))
    (fun t p r was inside => by
      by_cases same : r = p
      · subst same
        exact t.reopen_opened r (size t r ▸ inside)
      · rw [t.reopen_mayOpen, State.reopen, t.part_modPart_ne _ same]
        exact was (size t r ▸ inside)) u tried
  have length := foldl_keeps_eq (fun t : State => t.parts.length) (f := State.reopen) size l u
  have switches := foldl_keeps_eq (fun t : State => t.mayOpen q) (f := State.reopen) (fun t p => t.reopen_mayOpen q p) l u
  exact (opened (length ▸ known)).trans switches

theorem healthClear_spec (r : Bool) : ∃ t, exec (.healthClear true r) s = .next t ∧ t.health.suspect = false ∧
    t.health.cause = 0 ∧ t.health.replace = (s.health.replace && !r) ∧ t.power.suspectHold = false ∧ t.power.answer = [0] ∧
    (∀ q < 16, (s.part q).defined = true → (s.part q).drained = false → (s.part q).resetting = false →
      (s.part q).committing = false → s.health.fatal = 0 → s.power.resetting = false → s.mirrored q = false →
      q < s.parts.length → (t.part q).opened = true) ∧ t.cells = s.cells ∧ t.mem = s.mem ∧ t.mtime = s.mtime := by
  have run := healthClear_run on r
  have all (q : Nat) (hq : q < 16) : q ∈ List.range 16 := List.mem_range.2 hq
  generalize List.range 16 = l at run all
  have opened (q : Nat) (hq : q < 16) := (s.healthCleared r).foldl_reopen_opened (all q hq)
  have frame {β : Type} (view : State → β) (same : ∀ s p, view (State.reopen s p) = view s) :=
    foldl_keeps_eq view same l (s.healthCleared r)
  have health := frame State.health fun _ _ => rfl
  have power := frame State.power fun _ _ => rfl
  have cells := frame State.cells fun _ _ => rfl
  have mem := frame State.mem fun _ _ => rfl
  have mtime := frame State.mtime fun _ _ => rfl
  generalize l.foldl State.reopen (s.healthCleared r) = u at *
  refine ⟨_, run, congrArg Health.suspect health, congrArg Health.cause health, congrArg Health.replace health,
    congrArg Power.suspectHold power, rfl, ?_, cells, mem, mtime⟩
  intro q hq defined drained resetting committing fatal still alone known
  refine (opened q hq known).trans ?_
  have alone' : (s.healthCleared r).mirrored q = false := alone
  have switches : (s.healthCleared r).part q = s.part q := rfl
  have fatal' : (s.healthCleared r).health.fatal = 0 := fatal
  have still' : (s.healthCleared r).power.resetting = false := still
  have free : (s.healthCleared r).power.suspectHold = false := rfl
  simp [State.mayOpen, switches, defined, drained, resetting, committing, fatal', still', free, alone']

/-! ## Monitoring (R36, R445, R451) -/

/-- The cap that the management plane sets (R451). -/
def capFor (model w : Nat) : Nat := if w = 0 then tdpOf model else max (floorOf model) (min (tdpOf model) w)

theorem setPowerCap_run (w : Nat) : exec (.setPowerCap w) s =
    .next { s with power := { s.power with mgmtCap := capFor s.model w, answer := [0] } } :=
  congrArg Host.Outcome.next (if_neg (by simp [on]))

omit on in
theorem capFor_spec (model w : Nat) : (w = 0 → capFor model w = tdpOf model) ∧
    (0 < w → w < floorOf model → capFor model w = floorOf model) ∧
    (floorOf model ≤ w → w ≤ tdpOf model → capFor model w = w) ∧ (tdpOf model < w → capFor model w = tdpOf model) := by
  have order := floorOf_le_tdpOf model
  have positive : 0 < floorOf model := by
    unfold floorOf
    split <;> decide
  unfold capFor
  split <;> omega

/-- A sensor that is read answers its reading; one that is not there, its absence (R451). -/
theorem getSensorReading_run (d : Nat) : exec (.getSensorReading d) s = .next (match s.sensor d with
    | some (v, s) => s.respond (pldmOk :: leBytes 2 v)
    | none => s.respond [pldmNoSensor]) :=
  congrArg Host.Outcome.next (if_neg (by simp [on]))

theorem getSensorReading_some {d v : Nat} {t : State} (reads : s.sensor d = some (v, t)) :
    exec (.getSensorReading d) s = .next (t.respond (pldmOk :: leBytes 2 v)) := by
  rw [getSensorReading_run on, reads]

omit on in
/-- Sensors of dies and stacks are the numbers below 32, without a condition of their own (log entry 44). -/
theorem State.sensor_die {d : Nat} (other : d < 32 ∨ 36 ≤ d) : s.sensor d = if s.hasSensor d then
    some ((if s.power.temps = [] then s.senseTemps else s).power.temps.getD d 0,
      if s.power.temps = [] then s.senseTemps else s) else none := by
  rw [State.sensor, if_neg (by omega), if_neg (by omega), if_neg (by omega), if_neg (by omega)]

/-! ## Firmware and base commands (R298, R451, R455) -/

theorem firmwareUpdate_bank (d : Bytes) (normal : s.power.boot ≠ 5) : exec (.firmwareUpdate false d) s =
    .next { s with power := { s.power with
      firmware := s.power.firmware.set (1 - s.power.activeBank % 2) d, newFirmware := true, answer := [0] } } := by
  have run : exec (.firmwareUpdate false d) s = .next (s.firmware d) := congrArg Host.Outcome.next (if_pos (Or.inl on))
  rw [run, State.firmware]
  exact congrArg Host.Outcome.next (if_neg normal)

/-- An image of an illegal length is rejected (R291, R298). -/
theorem firmwareUpdate_length {d : Bytes} (ready : s.power.imageReady = true) (idle : s.image.busy = false)
    (unstaged : s.image.st ≠ 2) (length : lengthOk d.length = false) :
    ∃ t, exec (.firmwareUpdate true d) s = .next t ∧ t.power.answer = [0] ∧ t.image.result = 1 ∧ t.image.st = 0 ∧
      t.image.serial = s.image.serial ∧ t.mem = s.mem ∧ t.parts = s.parts := by
  have run : exec (.firmwareUpdate true d) s = .next (s.transferImage d) := congrArg Host.Outcome.next (if_pos on)
  have taken : s.transferImage d = ((s.respond [pldmOk]).modImage fun i => { i with lost := false, result := 0 }).stageReject [] 1 := by
    rw [State.transferImage, if_neg (by simp [ready, idle]), if_neg unstaged]
    dsimp only
    rw [State.imgCommand, if_neg (by simp [State.respond, State.modPower, idle]), if_pos (by simp [length])]
  rw [run, taken]
  exact ⟨_, rfl, rfl, rfl, rfl, rfl, rfl, rfl⟩

theorem pldmBase_run (c : Nat) : exec (.pldmBase c) s = .next (match c with
    | 1 => s.respond [pldmOk]
    | 2 => (s.drawBytes 1).2.respond (pldmOk :: (s.drawBytes 1).1)
    | 3 => (s.drawBytes 13).2.respond (pldmOk :: (s.drawBytes 13).1)
    | 4 => s.respond (pldmOk :: leBytes 8 (if s.power.boot = 5 then 0x21 else 0x8000000000000025))
    | 5 => (s.drawBytes 32).2.respond (pldmOk :: (s.drawBytes 32).1)
    | _ => s.respond [pldmUnsupported]) := by
  refine congrArg Host.Outcome.next ((if_neg (by simp [on])).trans ?_)
  rfl

/-- Answers whose content the spec leaves open have the length of their fields and begin with SUCCESS. -/
theorem pldmBase_open {c n : Nat} (open_ : (c, n) ∈ [(2, 2), (3, 14), (5, 33)]) :
    ∃ t, exec (.pldmBase c) s = .next t ∧ t.power.answer.length = n ∧ t.power.answer.head? = some 0 ∧
      t = { s with drawn := t.drawn, power := { s.power with answer := t.power.answer } } := by
  have answers (m : Nat) : ((s.drawBytes m).2.respond (pldmOk :: (s.drawBytes m).1)).power.answer.length = m + 1 :=
    congrArg (· + 1) (s.drawBytes_length m)
  have run := pldmBase_run on c
  simp only [List.mem_cons, Prod.mk.injEq, List.not_mem_nil, or_false] at open_
  rcases open_ with ⟨rfl, rfl⟩ | ⟨rfl, rfl⟩ | ⟨rfl, rfl⟩
  · exact ⟨_, run, answers 1, rfl, rfl⟩
  · exact ⟨_, run, answers 13, rfl, rfl⟩
  · exact ⟨_, run, answers 32, rfl, rfl⟩

theorem pldmBase_unsupported {c : Nat} (other : c = 0 ∨ 5 < c) :
    exec (.pldmBase c) s = .next (s.respond [pldmUnsupported]) := by
  rw [pldmBase_run on c]
  split
  iterate 5 omega
  rfl

theorem entdaa_run {a : Nat} (legal : a < 128) :
    exec (.entdaa a) s = .next { s with power := { s.power with i3cAddr := a } } := by
  refine congrArg Host.Outcome.next ((if_pos (Or.inl on)).trans ?_)
  rw [Nat.mod_eq_of_lt legal]
  rfl

theorem setEndpointId_i3c {e : Nat} (legal : e < 256) :
    exec (.setEndpointId false e) s = .next { s with power := { s.power with eidI3c := e } } := by
  refine congrArg Host.Outcome.next ((if_neg Bool.false_ne_true).trans ((if_pos (Or.inl on)).trans ?_))
  rw [Nat.mod_eq_of_lt legal]
  rfl

theorem setEndpointId_pcie {e : Nat} (legal : e < 256) (ready : s.hif.configReady = true) :
    exec (.setEndpointId true e) s = .next { s with power := { s.power with eidPcie := e } } := by
  refine congrArg Host.Outcome.next ((if_pos rfl).trans ((if_pos (by simp [State.bound, on, ready])).trans ?_))
  rw [Nat.mod_eq_of_lt legal]
  rfl
end

/-! ## Recovery (R455) -/

section
variable {s : State} (recovery : s.power.boot = 5)
include recovery

theorem State.endpoint_recovery : s.endpoint = false := by
  simp [State.endpoint, recovery]

/-- What a transfer leaves in recovery before it is checked. -/
theorem firmwareUpdate_recovery (d : Bytes) : exec (.firmwareUpdate false d) s = .next
    (if Config.firmwareVerifies d then { s with power := { s.power with
      boot := 2, activeBank := 1 - s.power.activeBank % 2, newFirmware := false, answer := [0],
      firmware := s.power.firmware.set (1 - s.power.activeBank % 2) d } }
    else { s with power := { s.power with
      firmware := s.power.firmware.set (1 - s.power.activeBank % 2) d, answer := [0] } }) := by
  have run : exec (.firmwareUpdate false d) s = .next (s.firmware d) := congrArg Host.Outcome.next (if_pos (Or.inr recovery))
  rw [run, State.firmware]
  exact congrArg Host.Outcome.next (if_pos recovery)

theorem pldmBase_types_recovery : exec (.pldmBase 4) s =
    .next { s with power := { s.power with answer := 0 :: leBytes 8 0x21 } } := by
  refine congrArg Host.Outcome.next ((if_neg (by simp [recovery])).trans ?_)
  show s.respond (pldmOk :: leBytes 8 (if s.power.boot = 5 then 0x21 else 0x8000000000000025)) = _
  rw [if_pos recovery]
  rfl
end

/-! ## SPDM (R289, R452) -/

section
variable {s : State}

/-- Every SPDM command is one that only a running steward answers (R450, R452). -/
theorem State.spdmAnswer_off (off : s.endpoint = false) (f : State → State) : s.spdmAnswer f = s := by
  rw [State.spdmAnswer, off]
  rfl

variable (on : s.endpoint = true)
include on

theorem State.spdmAnswer_on (f : State → State) : s.spdmAnswer f = f s := by
  rw [State.spdmAnswer, on]
  rfl

theorem getCapabilities_spec : ∃ t, exec .getCapabilities s = .next t ∧
    t = { s with drawn := t.drawn, power := { s.power with answer := t.power.answer } } ∧
    t.power.answer.length = 12 ∧ t.power.answer.take 2 = [0x13, 0x61] ∧ t.power.answer.drop 8 = leBytes 4 0x16 := by
  exact ⟨_, congrArg Host.Outcome.next (State.spdmAnswer_on on _), rfl, rfl, rfl, rfl⟩

theorem getCertificate_spec (off len : Nat) : ∃ t, exec (.getCertificate off len) s = .next t ∧
    t = s.respond ([0x13, 0x02, 0, 0] ++ leBytes 2 (min len (Config.certificate.length - off)) ++
      leBytes 2 (Config.certificate.length - off - min len (Config.certificate.length - off)) ++
      (Config.certificate.drop off).take len) := by
  refine ⟨_, congrArg Host.Outcome.next (State.spdmAnswer_on on _), ?_⟩
  have length : ((Config.certificate.drop off).take len).length = min len (Config.certificate.length - off) := by
    rw [List.length_take, List.length_drop]
  simp only [length]
  rfl

/-- A challenge is signed over the requester's nonce and the answer (R452). -/
theorem challenge_spec (nonce : Bytes) : ∃ t own body, exec (.challenge nonce) s = .next t ∧ own.length = 32 ∧
    body = [0x13, 0x03, 0, 1] ++ sha384 Config.certificate ++ own ∧
    t = { s with drawn := s.drawn + 32
                 power := { s.power with answer := body ++ Config.ecdsaSign (sha384 (nonce ++ body)) } } :=
  ⟨_, (s.drawBytes 32).1, _, congrArg Host.Outcome.next (State.spdmAnswer_on on _), s.drawBytes_length 32,
    rfl, rfl⟩

theorem getMeasurements_run (n : Nat) (nonce : Bytes) : exec (.getMeasurements n nonce) s = .next
    { s with
      drawn := s.drawn + 32
      power := { s.power with
        answer := [0x13, 0x60, 0, 0] ++ ([BitVec.ofNat 8 n] ++ s.measurement n ++ (s.drawBytes 32).1) ++
          Config.ecdsaSign (sha384 (nonce ++ ([0x13, 0x60, 0, 0] ++
            ([BitVec.ofNat 8 n] ++ s.measurement n ++ (s.drawBytes 32).1)))) } } :=
  congrArg Host.Outcome.next (State.spdmAnswer_on on _)

omit on in
/-- What each index of the measurement log holds (R289, R452). -/
theorem State.measurement_spec (s : State) (n : Nat) :
    (n = 1 → s.measurement n = Config.firmwareDigest) ∧ (n = 2 → s.measurement n = Config.firmwareVersion) ∧
    (n = 3 → s.measurement n = sha384 (s.power.keys.flatMap fun k => k.getD (zeros 97))) ∧
    (16 ≤ n → n ≤ 32 → s.measurement n = if s.image.measure.getD (n - 16) (zeros 48) = zeros 48
      then s.image.measure.getD (n - 16) (zeros 48)
      else s.image.measure.getD (n - 16) (zeros 48) ++ leBytes 8 (s.image.measureSerial.getD (n - 16) 0).toNat) ∧
    (n ∉ [1, 2, 3] → (n < 16 ∨ 32 < n) → s.measurement n = zeros 48) := by
  unfold State.measurement
  refine ⟨fun firmware => if_pos firmware, fun version => ?_, fun keys => ?_, fun low high => ?_, fun other out => ?_⟩
  · rw [if_neg (by omega), if_pos version]
  · rw [if_neg (by omega), if_neg (by omega), if_pos keys]
    rfl
  · rw [if_neg (by omega), if_neg (by omega), if_neg (by omega), if_pos ⟨low, high⟩]
    rfl
  · simp only [List.mem_cons, List.not_mem_nil, or_false, not_or] at other
    obtain ⟨one, two, three⟩ := other
    rw [if_neg one, if_neg two, if_neg three, if_neg (by omega)]
    rfl

theorem getMeasurements_spec (n : Nat) (nonce : Bytes) : ∃ t own body v, exec (.getMeasurements n nonce) s = .next t ∧
    own.length = 32 ∧ body = [0x13, 0x60, 0, 0] ++ [BitVec.ofNat 8 n] ++ v ++ own ∧
    t = { s with drawn := s.drawn + 32
                 power := { s.power with answer := body ++ Config.ecdsaSign (sha384 (nonce ++ body)) } } ∧
    (n = 1 → v = Config.firmwareDigest) ∧ (n = 2 → v = Config.firmwareVersion) ∧
    (n = 3 → v = sha384 (s.power.keys.flatMap fun k => k.getD (zeros 97))) ∧
    (16 ≤ n → n ≤ 32 → v = if s.image.measure.getD (n - 16) (zeros 48) = zeros 48
      then s.image.measure.getD (n - 16) (zeros 48)
      else s.image.measure.getD (n - 16) (zeros 48) ++ leBytes 8 (s.image.measureSerial.getD (n - 16) 0).toNat) ∧
    (n ∉ [1, 2, 3] → (n < 16 ∨ 32 < n) → v = zeros 48) :=
  ⟨_, (s.drawBytes 32).1, _, s.measurement n, getMeasurements_run on n nonce, s.drawBytes_length 32, rfl, rfl,
    s.measurement_spec n⟩
end

/-! ## The families of commands (O53) -/

section
variable {s : State}

/-- Only a running steward answers SPDM (R450, R452). -/
theorem spdm_off (off : s.endpoint = false) (o len : Nat) (nonce : Bytes) : ∀ c ∈ [Instr.getVersion, .getCapabilities,
    .negotiateAlgorithms, .getDigests, .getCertificate o len, .challenge nonce, .getMeasurements o nonce],
    exec c s = .next s := by
  simp only [List.mem_cons, List.not_mem_nil, or_false]
  rintro c (rfl | rfl | rfl | rfl | rfl | rfl | rfl)
  all_goals exact congrArg Host.Outcome.next (State.spdmAnswer_off off _)

theorem oem_pcie_unsupported (on : s.endpoint = true) (ready : s.hif.configReady = true) (n : Nat) (key : Bytes) (r : Bool)
    (v : BitVec 64) : ∀ c ∈ [Instr.keySet false n key, .keyRevoke false n, .healthClear false r, .mtimeAdvance false n,
      .oemReset false v], exec c s = .next (s.respond [pldmUnsupported]) := by
  simp only [List.mem_cons, List.not_mem_nil, or_false]
  rintro c (rfl | rfl | rfl | rfl | rfl)
  all_goals exact congrArg Host.Outcome.next (State.oem_pcie_only on ready _)

theorem oem_pcie_unready (unready : s.hif.configReady = false) (n : Nat) (key : Bytes) (r : Bool) (v : BitVec 64)
    (u : UnitId) : ∀ c ∈ [Instr.keySet false n key, .keyRevoke false n, .healthClear false r, .mtimeAdvance false n,
      .oemReset false v, .larkRead false u, .statusRead false, .setEndpointId true n], exec c s = .next s := by
  simp only [List.mem_cons, List.not_mem_nil, or_false]
  rintro c (rfl | rfl | rfl | rfl | rfl | rfl | rfl | rfl)
  case inr.inr.inr.inr.inr.inr.inr => exact congrArg Host.Outcome.next (by simp [State.bound, unready])
  all_goals exact congrArg Host.Outcome.next (State.oem_unready unready _ _)
end

/-- Settles O53: each command by the law of its family, over the endpoint as the boot phase leaves it. -/
theorem managementCommands : Obligations.ManagementCommands := by
  unfold Obligations.ManagementCommands
  refine ⟨fun s => ?_, fun s d recovery => ?_, fun s => ⟨fun b3 b4 c o len nonce => ?_, fun boot => ?_⟩⟩
  · intro p ok boot
    have on : s.endpoint = true := State.endpoint_iff.2 boot.symm
    have normal : s.power.boot ≠ 5 := by
      have boot : s.power.boot = 4 ∨ s.power.boot = 3 := boot
      omega
    refine ⟨fun n key => keySet_empty on, fun n key => keySet_taken on, fun n key => keySet_length on,
      fun n => keyRevoke_beyond on, fun n => keyRevoke_slot on, healthClear_spec on, fun ns => mtimeAdvance_taken on,
      fun ns => mtimeAdvance_refused on, fun v => oemReset_other on, fun v => oemReset_cold on, fun v => oemReset_warm on,
      fun v => oemReset_partition on, fun u => congrArg Host.Outcome.next (State.oem_i3c on _ _),
      congrArg Host.Outcome.next (State.oem_i3c on _ _), fun ready => oem_pcie_unsupported on ready,
      fun ready u => ⟨?_, ?_⟩, fun unready => oem_pcie_unready unready, fun w => ⟨_, setPowerCap_run on w, rfl, capFor_spec _ w⟩,
      getSensorReading_some on rfl, ?_, getSensorReading_some on rfl, fun d die there => ?_, fun d other absent => ?_,
      fun d => firmwareUpdate_bank on d normal, fun d => firmwareUpdate_length on, pldmBase_run on 1,
      fun c n => pldmBase_open on, fun c => pldmBase_unsupported on, ?_, fun a => entdaa_run on, fun e => setEndpointId_i3c on,
      fun e => setEndpointId_pcie on⟩
    · exact congrArg Host.Outcome.next (State.oem_pcie_eq_i3c on ready _)
    · exact congrArg Host.Outcome.next (State.oem_pcie_eq_i3c on ready _)
    · intro d hi lo listed
      simp only [List.mem_cons, Prod.mk.injEq, List.not_mem_nil, or_false] at listed
      rcases listed with ⟨rfl, rfl, rfl⟩ | ⟨rfl, rfl, rfl⟩
      · exact getSensorReading_some on rfl
      · exact getSensorReading_some on rfl
    · have reads := (State.sensor_die (s := s) (.inl die)).trans (if_pos there)
      constructor
      · intro copied
        rw [if_neg copied] at reads
        exact getSensorReading_some on reads
      · intro fresh
        rw [if_pos fresh] at reads
        exact ⟨_, getSensorReading_some on reads, by simp [State.respond, State.modPower, State.senseTemps, State.drawBytes], rfl, rfl⟩
    · have reads := (State.sensor_die (s := s) other).trans (if_neg (by simp [absent]))
      rw [getSensorReading_run on, reads]
      rfl
    · rw [pldmBase_run on 4]
      show Host.Outcome.next (s.respond (pldmOk :: leBytes 8 (if s.power.boot = 5 then 0x21 else 0x8000000000000025))) = _
      rw [if_neg normal]
      rfl
  · have off := State.endpoint_recovery recovery
    refine ⟨fun verifies => ?_, fun fails => ?_, pldmBase_types_recovery recovery,
      fun w => congrArg Host.Outcome.next (if_pos (by simp [off])), congrArg Host.Outcome.next (State.spdmAnswer_off off _),
      congrArg Host.Outcome.next (by simp [State.oem, State.bound, off])⟩
    · rw [firmwareUpdate_recovery recovery, if_pos verifies]
    · rw [firmwareUpdate_recovery recovery, if_neg (by simp [fails])]
      exact ⟨_, rfl, recovery⟩
  · have off : s.endpoint = false := by simp [State.endpoint, b3, b4]
    exact spdm_off off o len nonce c
  · have on : s.endpoint = true := State.endpoint_iff.2 boot
    have answers (f : State → State) := State.spdmAnswer_on on f
    exact ⟨⟨_, congrArg Host.Outcome.next (answers _), rfl⟩, getCapabilities_spec on,
      ⟨_, congrArg Host.Outcome.next (answers _), rfl⟩, ⟨_, congrArg Host.Outcome.next (answers _), rfl⟩,
      getCertificate_spec on, challenge_spec on, fun n nonce _ => getMeasurements_spec on n nonce⟩

end Sys2Proof.Machine

namespace Sys2Proof.Machine

/-! ## Steps that change the compute registers of their cell alone (R42, R44, R69) -/

/-- Compute registers that agree in all but the tile registers and what lands there. -/
def Compute.SameRest (c d : Compute) : Prop := d.stat = c.stat ∧ d.scales = c.scales ∧ d.topk = c.topk

section
variable {s : State} {k g i p : Nat} {w : StepWord}

/-- A step whose meaning is one change of the compute registers leaves that change and its issue. -/
theorem State.Ready.writesComp (h : s.Ready k g w i p) (f : Cell → Compute → Compute) :
    s.issue k g w (fun i _ s => s.modComp i (f (s.cell i))) =
      s.putCell i { (s.cell i).issued with comp := f (s.cell i).issued (s.cell i).comp } := by
  rw [h.issue, State.modComp_putCell _ _ _ h.lt, State.cell_putCell_self _ _ h.lt, Cell.issued_comp]

theorem State.modCell_putCell (hi : i < s.cells.length) (c : Cell) (f : Cell → Cell) :
    (s.putCell i c).modCell i f = s.putCell i (f c) := by
  rw [State.modCell_eq_putCell, State.cell_putCell_self _ _ hi, State.putCell_putCell]

theorem TilesBecome.intro {c : Instr} (hi : i < s.cells.length) {y : Compute} {f : Nat → Nat → Bytes × Bool}
    (run : exec c s = .next (s.putCell i { (s.cell i).issued with comp := y })) (rest : (s.cell i).comp.SameRest y)
    (rows : ∀ k r, r < 64 → y.rowOf k r = f k r) : TilesBecome c s i f := by
  obtain ⟨stat, scales, topk⟩ := rest
  refine ⟨_, run, ?_⟩
  rw [State.cell_putCell_self _ _ hi]
  exact ⟨rfl, stat, scales, topk, rows⟩

theorem Compute.rowOf_length (c : Compute) (t r : Nat) : (c.rowOf t r).1.length = 256 := c.row_length t r

theorem zeros_length (n : Nat) : (zeros n).length = n := List.length_replicate

/-! The operands of a step do not depend on its issue. -/

section
variable (c : Cell)
@[simp] theorem tdOf_issued : tdOf c.issued.cur w = tdOf c.cur w := by rw [Cell.issued_cur, tdOf_step]
@[simp] theorem taOf_issued : taOf c.issued.cur w = taOf c.cur w := by rw [Cell.issued_cur, taOf_step]
@[simp] theorem tbOf_issued : tbOf c.issued.cur w = tbOf c.cur w := by rw [Cell.issued_cur, tbOf_step]
@[simp] theorem tcOf_issued : tcOf c.issued.cur w = tcOf c.cur w := by rw [Cell.issued_cur, tcOf_step]
@[simp] theorem Ctx.sa_issued : c.issued.cur.sa w = c.cur.sa w := by rw [Cell.issued_cur]; rfl
@[simp] theorem Ctx.sb_issued : c.issued.cur.sb w = c.cur.sb w := by rw [Cell.issued_cur]; rfl
@[simp] theorem Ctx.sc_issued : c.issued.cur.sc w = c.cur.sc w := by rw [Cell.issued_cur]; rfl
@[simp] theorem Ctx.addrAt_issued (o : Nat) : c.issued.cur.addrAt w o = c.cur.addrAt w o := by rw [Cell.issued_cur]; rfl
end

/-- A row and its mark after a row has been written (R42, R44). -/
theorem Compute.rowOf_setRow (c : Compute) {t r t' r' : Nat} (x : Bytes × Bool) (len : x.1.length = 256) (hr : r < 64)
    (hr' : r' < 64) : (c.setRow t r x.2 x.1).rowOf t' r' = if t' = t ∧ r' = r then x else c.rowOf t' r' := by
  simp only [Compute.rowOf, Compute.row_setRow _ _ _ len hr hr', Compute.rowMarked_setRow _ _ _ len hr hr']
  split <;> rfl

/-- A step that writes every row of TD leaves each as its number says, and every other register as it was. -/
theorem State.Ready.setsRows (h : s.Ready k g w i p) {c : Instr} (f : Cell → Nat → Bytes × Bool)
    (run : exec c s = .next (s.issue k g w fun i _ s =>
      s.modComp i fun y => y.setRows (tdOf (s.cell i).cur w) (f (s.cell i))))
    (len : ∀ r, (f (s.cell i).issued r).1.length = 256) {f' : Nat → Nat → Bytes × Bool}
    (rows : ∀ k r, r < 64 → f' k r =
      if k = tdOf (s.cell i).cur w then f (s.cell i).issued r else (s.cell i).comp.rowOf k r) : TilesBecome c s i f' := by
  rw [h.writesComp fun c y => y.setRows (tdOf c.cur w) (f c)] at run
  refine .intro h.lt run (Compute.setRows_rest ..) fun k r hr => ?_
  rw [rows k r hr, Compute.rowOf_setRows _ _ _ len _ _ hr, tdOf_issued]
end

/-! ## Elements of a row (R42) -/

theorem rowElems_length (f n : Nat) (b : Bytes) : (rowElems f n b).length = n := by simp [rowElems]

theorem rowElems_getElem? (f b) {n e : Nat} (he : e < n) :
    (rowElems f n b)[e]? = some (leNat b / 2 ^ (fmtWidth f * e) % 2 ^ fmtWidth f) := by simp [rowElems, he]

/-- An element does not depend on how many are read. -/
theorem rowElems_getD (f : Nat) (b : Bytes) {n e : Nat} (he : e < n) :
    (rowElems f n b).getD e 0 = leNat b / 2 ^ (fmtWidth f * e) % 2 ^ fmtWidth f := by
  rw [List.getD_eq_getElem?_getD, rowElems_getElem? f b he, Option.getD_some]

theorem rowElems_getD_lt (f n : Nat) (b : Bytes) (e : Nat) : (rowElems f n b).getD e 0 < 2 ^ fmtWidth f := by
  by_cases he : e < n
  · rw [rowElems_getD f b he]
    exact Nat.mod_lt _ (Nat.two_pow_pos _)
  · rw [List.getD_eq_default _ _ (by rw [rowElems_length]; omega)]
    exact Nat.two_pow_pos _

theorem fmtWidth_mul_fmtCols (f : Nat) : fmtWidth f * fmtCols f ≤ 2048 := Nat.mul_div_le _ _

/-- The elements of a packed row: those packed, and 0 beyond them. -/
theorem rowElems_packRow_cols {f : Nat} {l : List Nat} (len : l.length ≤ fmtCols f) :
    rowElems f (fmtCols f) (packRow f l) = (List.range (fmtCols f)).map fun e => l.getD e 0 % 2 ^ fmtWidth f :=
  rowElems_packRow f _ l ((Nat.mul_le_mul_left _ len).trans (fmtWidth_mul_fmtCols f))

end Sys2Proof.Machine

namespace Sys2Proof.Machine

/-! ## Moves between tile registers (O7) -/

section
variable {s : State} {g i p : Nat} {w : StepWord}

theorem State.Ready.tmov (h : s.Ready 0x24 g w i p) : TilesBecome (.tmov g w) s i fun k r =>
    (s.cell i).comp.rowOf (if k = tdOf (s.cell i).cur w then taOf (s.cell i).cur w else k) r := by
  refine h.setsRows (fun c => c.comp.rowOf (taOf c.cur w)) rfl (fun r => Compute.rowOf_length ..) fun k r _ => ?_
  rw [Cell.issued_comp, taOf_issued]
  split <;> rfl

theorem State.Ready.tsel (h : s.Ready 0x0A g w i p) : TilesBecome (.tsel g w) s i fun k r =>
    (s.cell i).comp.rowOf (if k = tdOf (s.cell i).cur w then
      (if (s.cell i).cur.scalar (scOf w) ≠ 0 then taOf (s.cell i).cur w else tbOf (s.cell i).cur w) else k) r := by
  have selects : (s.cell i).cur.sc w ≠ 0 ↔ (s.cell i).cur.scalar (scOf w) ≠ 0 := by
    rw [ne_eq, ne_eq, ← BitVec.toNat_inj]
    rfl
  refine h.setsRows (fun c => c.comp.rowOf (if c.cur.sc w ≠ 0 then taOf c.cur w else tbOf c.cur w)) rfl
    (fun r => Compute.rowOf_length ..) fun k r _ => ?_
  simp only [Cell.issued_comp, taOf_issued, tbOf_issued, Ctx.sc_issued, selects]
  exact apply_ite (fun t => (s.cell i).comp.rowOf t r) ..

theorem State.Ready.tzero (h : s.Ready 0x25 g w i p) : TilesBecome (.tzero g w) s i fun k r =>
    if k = tdOf (s.cell i).cur w then (zeros 256, false) else (s.cell i).comp.rowOf k r :=
  h.setsRows (fun _ _ => (zeros 256, false)) rfl (fun _ => zeros_length 256) fun _ _ _ => rfl

/-- The element that TFILL broadcasts, by the format of FMTB (R90). -/
theorem fillElem_word (f : Nat) (a : Word) : fillElem f a.toNat =
    encodeVal f (if fmtIsInt f then .ofInt a.toInt else decodeVal 0 (a.toNat % 2 ^ 32)) := by
  rw [fillElem, toSigned_toNat, decodeVal_fp32_mod]

theorem State.Ready.tfill (h : s.Ready 0x26 g w i p) : ∃ row : Bytes, row.length = 256 ∧
    rowElems (fmtbOf w) (fmtCols (fmtbOf w)) row = List.replicate (fmtCols (fmtbOf w))
      (fillElem (fmtbOf w) ((s.cell i).cur.scalar (saOf w)).toNat % 2 ^ fmtWidth (fmtbOf w)) ∧
    TilesBecome (.tfill g w) s i fun k r =>
      if k = tdOf (s.cell i).cur w then (row, false) else (s.cell i).comp.rowOf k r := by
  refine ⟨packRow (fmtbOf w) (List.replicate (fmtCols (fmtbOf w)) (fillElem (fmtbOf w) ((s.cell i).cur.sa w))),
    packRow_length .., ?_, ?_⟩
  · rw [rowElems_packRow_cols (by simp)]
    refine List.eq_replicate_iff.2 ⟨by simp, fun x hx => ?_⟩
    obtain ⟨e, he, rfl⟩ := List.mem_map.1 hx
    rw [List.getD_replicate _ (List.mem_range.1 he)]
    rfl
  · refine h.setsRows (fun c _ => (packRow (fmtbOf w) (List.replicate (fmtCols (fmtbOf w))
      (fillElem (fmtbOf w) (c.cur.sa w))), false)) rfl (fun _ => packRow_length ..) fun k r _ => ?_
    rw [Ctx.sa_issued]

/-- Row r of the transpose of a register at width class 32 (R69). -/
def Compute.transposed (c : Compute) (t r : Nat) : Bytes :=
  packRow 0 (((List.range 64).map fun r => rowElems 0 64 (c.row t r)).map fun l => l.getD r 0)

theorem Compute.rowElems_transposed (c : Compute) (t : Nat) {r j : Nat} (hr : r < 64) (hj : j < 64) :
    (rowElems 0 64 (c.transposed t r))[j]? = (rowElems 0 64 (c.row t j))[r]? := by
  rw [rowElems_getElem? 0 _ hr, ← rowElems_getD 0 _ hr, Compute.transposed, rowElems_packRow 0 _ _ (by simp [fmtWidth])]
  simp only [List.map_map, List.getElem?_map, List.getElem?_range hj, Option.map_some, List.getD_eq_getElem?_getD,
    Function.comp_apply, Option.getD_some]
  rw [← List.getD_eq_getElem?_getD, Nat.mod_eq_of_lt (rowElems_getD_lt ..)]

theorem State.Ready.ttrn (h : s.Ready 0x27 g w i p) : TilesBecome (.ttrn g w) s i fun k r =>
    if k = tdOf (s.cell i).cur w then
      ((s.cell i).comp.transposed (taOf (s.cell i).cur w) r, (s.cell i).comp.anyMarked (taOf (s.cell i).cur w) 64)
    else (s.cell i).comp.rowOf k r := by
  refine h.setsRows (fun c r => (c.comp.transposed (taOf c.cur w) r, c.comp.anyMarked (taOf c.cur w) 64)) rfl
    (fun _ => packRow_length ..) fun k r _ => ?_
  rw [Cell.issued_comp, taOf_issued]

theorem State.Ready.trow (h : s.Ready 0x28 g w i p) : TilesBecome (.trow g w) s i fun k r =>
    if k = tdOf (s.cell i).cur w ∧ r = fld w 93 88 then (s.cell i).comp.rowOf (taOf (s.cell i).cur w) (fld w 85 80)
    else (s.cell i).comp.rowOf k r := by
  have run := congrArg (Host.Outcome.next (φ := Fault) (ρ := Refusal)) (h.writesComp fun c y => y.setRow (tdOf c.cur w)
    (fld w 93 88) (c.comp.rowOf (taOf c.cur w) (fld w 85 80)).2 (c.comp.rowOf (taOf c.cur w) (fld w 85 80)).1)
  refine .intro h.lt run ⟨rfl, rfl, rfl⟩ fun k r hr => ?_
  rw [Compute.rowOf_setRow _ _ (Compute.rowOf_length ..) (fld_lt w 93 88) hr, Cell.issued_comp, tdOf_issued,
    taOf_issued]

theorem State.Ready.tmask (h : s.Ready 0x29 g w i p) : TilesBecome (.tmask g w) s i fun k r =>
    if k = tdOf (s.cell i).cur w ∧ ((s.cell i).cur.scalar (saOf w)).getLsbD r = true then (zeros 256, false)
    else (s.cell i).comp.rowOf k r := by
  have run := congrArg (Host.Outcome.next (φ := Fault) (ρ := Refusal)) (h.writesComp fun c y =>
    ((List.range 64).filter fun r => (c.cur.sa w).testBit r).foldl
      (fun y r => y.setRow (tdOf c.cur w) r false (zeros 256)) y)
  refine .intro h.lt run (Compute.foldl_stat _ _ _ fun _ => (zeros 256, false)) fun k r hr => ?_
  rw [Compute.rowOf_foldl _ _ _ (fun _ => (zeros 256, false)) (fun r hr => List.mem_range.1 (List.mem_filter.1 hr).1)
    (fun _ => zeros_length 256) _ _ hr, tdOf_issued, Ctx.sa_issued]
  simp only [List.mem_filter, List.mem_range, hr, true_and]
  rfl
end

/-! ## MLOAD (R48, R50) -/

theorem Data.marked_mark {m : Bool} {b : Bytes} (some : b ≠ []) : (Data.mark m b).marked = m := by
  obtain ⟨x, l, rfl⟩ := List.exists_cons_of_ne_nil some
  cases m <;> simp [Data.marked, Data.mark]

section
variable {u : Nat} (pos : 0 < u) (st : Store) (r x : Nat) {d : Data} (len : d.length = u)
include pos len

/-- The mark of a unit after a whole unit has been written (R44). -/
theorem Store.isMarked_write_unit : (st.write u (u * r) d).isMarked x = if x = r then d.marked else st.isMarked x := by
  have first : u * r / u = r := Nat.mul_div_cancel_left r pos
  have last : (u * r + d.length - 1) / u = r := by
    rw [len, Nat.add_sub_assoc pos, Nat.mul_add_div pos, Nat.div_eq_of_lt (by omega), Nat.add_zero]
  rw [Store.isMarked_write _ _ _ _ _ (by rintro rfl; simp at len; omega), first, last]
  by_cases here : x = r
  · subst here
    have lo : max (u * x) (x * u) = u * x := by rw [Nat.mul_comm x u, max_self]
    have hi : min (u * x + u) ((x + 1) * u) = u * x + u := by rw [Nat.add_one_mul, Nat.mul_comm x u, min_self]
    simp only [le_refl, and_self, if_true, Store.markAfter, len, lo, hi, Nat.sub_self, List.drop_zero, Nat.add_sub_cancel_left,
      List.take_of_length_le (le_of_eq len)]
    cases d.marked <;> rfl
  · rw [if_neg here, if_neg (by omega)]
end

/-- Units written one after another, each named once. -/
theorem Store.writeUnits {u : Nat} (pos : 0 < u) (f : Nat → Bool × Bytes) (len : ∀ r, (f r).2.length = u) (n j : Nat)
    (hj : j < n) :
    let st := (List.range n).foldl (fun st r => st.write u (u * r) (Data.mark (f r).1 (f r).2)) Store.empty
    (st.read u (u * j) u).bytes = (f j).2 ∧ st.isMarked j = (f j).1 := by
  induction n with
  | zero => omega
  | succ n ih =>
    have size : (Data.mark (f n).1 (f n).2).length = u := (Data.mark_length ..).trans (len n)
    rw [List.range_succ, List.foldl_append]
    simp only [List.foldl_cons, List.foldl_nil, Store.isMarked_write_unit pos _ _ _ size]
    by_cases last : j = n
    · subst last
      refine ⟨?_, (if_pos rfl).trans (Data.marked_mark fun e => ?_)⟩
      · apply List.ext_getElem
        · simp [Data.bytes, len]
        · intro e h1 h2
          have he : e < u := by simpa [Data.bytes] using h1
          simp only [Store.read_eq, Data.bytes, List.map_map, List.getElem_map, List.getElem_range, Function.comp_apply]
          rw [Store.get_write, if_pos (by omega), Data.mark_bytes, Nat.add_sub_cancel_left, List.getD_eq_getElem _ _ h2]
      · have := len j
        rw [e] at this
        simp at this
        omega
    · have before : j + 1 ≤ n := by omega
      have below : u * j + u ≤ u * n := by rw [← Nat.mul_add_one]; exact Nat.mul_le_mul_left u before
      obtain ⟨bytes, mark⟩ := ih before
      refine ⟨bytes ▸ ?_, (if_neg last).trans mark⟩
      simp only [Store.read_eq, Data.bytes, List.map_map]
      refine List.map_congr_left fun e he => ?_
      rw [List.mem_range] at he
      simp only [Function.comp_apply]
      rw [Store.get_write, if_neg (by omega)]

theorem Cell.count_eq (c : Cell) (f : CellCnt → CellCnt) : c.count f = { c with cnt := (c.count f).cnt } := by
  unfold Cell.count
  split <;> rfl

theorem Cell.count_cnt (c : Cell) (f : CellCnt → CellCnt) (counts : c.freeze = false) : (c.count f).cnt = f c.cnt := by
  rw [Cell.count, counts]
  rfl

/-- The issue of a step counts the step and nothing else (R77). -/
theorem Cell.issued_cnt (c : Cell) : c.issued.cnt.arrayBusy = c.cnt.arrayBusy ∧ c.issued.cnt.mloadStall = c.cnt.mloadStall := by
  unfold Cell.issued Cell.count
  split <;> simp

section
variable {s : State} {g i p : Nat} {w : StepWord}

theorem State.Ready.mload (h : s.Ready 0x30 g w i p) : ∃ t, exec (.mload g w) s = .next t ∧
    (∀ j < 64, (t.cell i).comp.statRow j = (s.cell i).comp.row (taOf (s.cell i).cur w) j ∧
      (t.cell i).comp.stat.isMarked j = (s.cell i).comp.rowMarked (taOf (s.cell i).cur w) j ∧
      (t.cell i).comp.statScales j = ((s.cell i).comp.row (tbOf (s.cell i).cur w) j).take 16 ∧
      (t.cell i).comp.scales.isMarked j = (s.cell i).comp.rowMarked (tbOf (s.cell i).cur w) j) ∧
    (t.cell i).comp.tiles = (s.cell i).comp.tiles ∧ (t.cell i).comp.topk = (s.cell i).comp.topk ∧
    t = s.putCell i { (s.cell i).issued with comp := (t.cell i).comp, cnt := (t.cell i).cnt } ∧
    ((s.cell i).freeze = false → (t.cell i).cnt.mloadStall = (s.cell i).cnt.mloadStall + 64) := by
  have run : exec (.mload g w) s = .next ((s.putCell i (s.cell i).issued).arrayLoad i w) :=
    congrArg Host.Outcome.next (h.issue fun i _ s => s.arrayLoad i w)
  refine ⟨_, run, ?_⟩
  simp only [State.arrayLoad, State.cell_putCell_self _ _ h.lt, State.modComp_putCell _ _ _ h.lt,
    State.modCell_putCell h.lt, Cell.issued_comp, taOf_issued, tbOf_issued, Cell.count_comp]
  refine ⟨fun j hj => ?_, trivial, trivial, ?_, fun counts => ?_⟩
  · have stat := Store.writeUnits (u := 256) (by decide)
      (fun r => ((s.cell i).comp.rowMarked (taOf (s.cell i).cur w) r, (s.cell i).comp.row (taOf (s.cell i).cur w) r))
      (fun r => Compute.row_length ..) 64 j hj
    have scales := Store.writeUnits (u := 16) (by decide)
      (fun r => ((s.cell i).comp.rowMarked (tbOf (s.cell i).cur w) r,
        ((s.cell i).comp.row (tbOf (s.cell i).cur w) r).take 16))
      (fun r => by rw [List.length_take, Compute.row_length]; rfl) 64 j hj
    exact ⟨stat.1, stat.2, scales.1, scales.2⟩
  · rw [Cell.count_eq]
  · rw [Cell.count_cnt _ _ (by exact (Cell.issued_freeze _).trans counts)]
    exact congrArg (· + 64) (s.cell i).issued_cnt.2
end

/-- Settles O7: each move is one change of the compute registers, read row by row. -/
theorem tileMoves : Obligations.TileMoves := by
  unfold Obligations.TileMoves
  intro s g i p w c x td ta tb fb fill
  refine ⟨fun h => h.tmov, fun h => h.tsel, fun h => h.tzero, fun h => ?_, fun h => ⟨_, ?_, h.ttrn⟩, fun h => h.trow,
    fun h => h.tmask, fun h => h.mload⟩
  · obtain ⟨row, len, elems, becomes⟩ := h.tfill
    rw [fillElem_word] at elems
    exact ⟨row, len, elems, becomes⟩
  · exact fun r hr j hj => Compute.rowElems_transposed _ _ hr hj

end Sys2Proof.Machine

namespace Sys2Proof.Machine

/-! ## Step faults (R71, R72, R79) -/

/-- From s to t a fault has been told: the concentrator, the host, which it tells, and the batch of the job may have changed. -/
def State.Told (s t : State) : Prop :=
  ∃ health host hif batches, t = { s with health := health, host := host, hif := hif, batches := batches }

theorem State.Told.refl (s : State) : s.Told s := ⟨_, _, _, _, rfl⟩

theorem State.Told.ite {s t u : State} {c : Prop} [Decidable c] (h : s.Told t) (k : s.Told u) : s.Told (if c then t else u) := by
  split
  · exact h
  · exact k

section
variable {s t : State} (h : s.Told t)
include h

theorem State.Told.cell (i : Nat) : t.cell i = s.cell i := by
  obtain ⟨_, _, _, _, rfl⟩ := h
  rfl

theorem State.Told.mem : t.mem = s.mem := by
  obtain ⟨_, _, _, _, rfl⟩ := h
  rfl

theorem State.Told.tokens : t.tokens = s.tokens := by
  obtain ⟨_, _, _, _, rfl⟩ := h
  rfl

theorem State.Told.modHealth (f : Health → Health) : s.Told (t.modHealth f) := by
  obtain ⟨_, _, _, _, rfl⟩ := h
  exact ⟨_, _, _, _, rfl⟩

theorem State.Told.modBatch (n : Nat) (f : Batch → Batch) : s.Told (t.modBatch n f) := by
  obtain ⟨_, _, _, _, rfl⟩ := h
  exact ⟨_, _, _, _, rfl⟩

theorem State.Told.modHif (f : HostIf → HostIf) : s.Told (t.modHif f) := by
  obtain ⟨_, _, _, _, rfl⟩ := h
  exact ⟨_, _, _, _, rfl⟩

theorem State.Told.hostWrite (a : Nat) (d : Data) : s.Told (t.hostWrite a d) := by
  unfold State.hostWrite
  split
  · obtain ⟨_, _, _, _, rfl⟩ := h
    exact ⟨_, _, _, _, rfl⟩
  · exact h

theorem State.Told.modRing (r : Nat) (f : FaultRing → FaultRing) : s.Told (t.modRing r f) := h.modHealth _

theorem State.Told.ringWrite (r : Nat) (rec : Bytes) : s.Told (t.ringWrite r rec) := by
  unfold State.ringWrite
  exact (((h.hostWrite _ _).modRing r _).modHealth _).modHif _

theorem State.Told.ringSummary (r : Nat) : s.Told (t.ringSummary r) := by
  unfold State.ringSummary
  dsimp only
  split
  · exact h
  · exact ((h.ringWrite r _).modRing r _).modHealth _

theorem State.Told.putRecord (r kind : Nat) (mk : Nat → Bytes) : s.Told (t.putRecord r kind mk).2 := by
  have summed := h.ringSummary r
  unfold State.putRecord
  dsimp only
  split
  · split
    · exact summed.modRing r _
    · exact (summed.ringWrite r _).modRing r _
  · split <;> exact summed.modRing r _

theorem State.Told.writeIncident (n : Incident) (ref : Nat) : s.Told (t.writeIncident n ref).2 := by
  have put := (h.modHealth fun h => if 1 < n.reporters then { h with cntIncidents := h.cntIncidents + 1 } else h).putRecord
    (ringOf n.rep.cls) n.rep.unit.kind (t.recordBytes n ref n.verdict)
  unfold State.writeIncident
  dsimp only
  split
  · exact put.modHealth _
  · exact put

theorem State.Told.fileReport (rep : Report) (sev action : Nat) : s.Told (t.fileReport rep sev action).2 := by
  have counted := h.modHealth fun h => { h with cntReports := h.cntReports + 1 }
  unfold State.fileReport
  dsimp only
  split
  · dsimp only
    exact counted.modHealth _
  · split
    · exact counted.writeIncident _ _
    · dsimp only
      exact counted.modHealth _

theorem State.Told.modLark (u : UnitId) (f : Lark → Lark) : s.Told (t.modLark u f) := by
  unfold State.modLark
  split
  · exact h
  · exact h.modHealth _

theorem State.Told.jigNow (pos grace cls : Nat) : s.Told (t.jigNow pos grace cls) := by
  unfold State.jigNow
  exact h.modHealth _

section
variable {u : UnitId} (cell : u.kind = 1) (cls : Nat)
include cell

/-- A cell that becomes permanent is repaired around by a jig (R418, R420). -/
theorem State.Told.permanent : s.Told (t.permanent u cls) := by
  unfold State.permanent State.repairAround
  rw [if_pos cell]
  exact ((h.modLark u _).fileReport _ _ _).jigNow _ _ _

theorem State.Told.countEvent : s.Told (t.countEvent u cls) := by
  unfold State.countEvent
  dsimp only
  split
  · exact h
  · split
    · exact (h.modLark u _).permanent cell cls
    · exact h.modLark u _

theorem State.Told.countIncident : s.Told (t.countIncident u cls) := by
  unfold State.countIncident
  dsimp only
  split
  · split
    · exact h
    · have counted := (h.modHealth fun h => { h with incidents := (modWhere h.incidents
        (fun n => n.rep.unit == u && n.rep.cls == cls) fun n => { n with counted := true }) }).countEvent cell cls
      split
      · exact counted
      · exact counted.modHealth _
  · exact h.countEvent cell cls

theorem State.Told.startJig : s.Told (t.startJig u cls) ∨ cls = 0x10 := by
  by_cases net : cls = 0x10
  · exact .inr net
  · rw [State.startJig, if_neg net, if_pos cell]
    exact .inl (h.jigNow _ _ _)
end

/-- A report of a cell that is not of the network engine or a stack is told and changes nothing else (R403). -/
theorem State.Told.report {rep : Report} (sev : Nat) (cell : rep.unit.kind = 1) (net : rep.cls ≠ 0x10) (stack : rep.cls ≠ 0x0A) :
    s.Told (t.report rep sev) := by
  have filed := h.fileReport rep sev (if isJigClass rep.cls then 0x10 else 0)
  unfold State.report
  dsimp only
  rw [if_neg (fun both => stack both.1)]
  generalize t.fileReport rep sev _ = r at filed ⊢
  have jig := ((filed.startJig cell rep.cls).resolve_right net).modHealth fun h => { h with
    incidents := (modWhere h.incidents (fun n => n.rep.unit == rep.unit && n.rep.cls == rep.cls)
      fun n => { n with verdict := 1 }) }
  split
  · exact (State.Told.ite jig filed).countIncident cell _
  · exact State.Told.ite jig filed
end

/-- The cell after a fault of the step last issued (R72, R79). -/
def Cell.faulted (c : Cell) (cause addr mask info : Nat) : Cell :=
  { c with st := 3, held := none, fault := ⟨cause, true, c.cur.step - 1,
    (match c.img.steps[c.cur.step - 1]? with | some w => kindOf w | none => 0), addr, BitVec.ofNat 64 mask, info⟩ }

section
variable {s : State} {i : Nat} (hi : i < s.cells.length)
include hi

/-- A step fault changes its cell and is told (R71, R72). -/
theorem State.cellFault_told (c : Cell) (cause addr mask info : Nat) :
    (s.putCell i (c.faulted cause addr mask info)).Told ((s.putCell i c).cellFault i cause addr mask info none) := by
  have cls (n : Nat) : (if cause = 5 then 2 else 1) ≠ n + 3 := by split <;> omega
  simp only [State.cellFault, State.cell_putCell_self _ _ hi, State.modCell_putCell hi]
  refine State.Told.report ?_ 2 rfl (cls 13) (cls 7)
  split
  · exact (State.Told.refl _).modBatch _ _
  · exact .refl _
end

/-- An access that a translation refuses is counted for its partition (R260). -/
def State.refusedBy (s : State) (p : Nat) (w : StepWord) : State := if localOf w then s else s.countXltFault p

theorem State.refusedBy_frame (s : State) (p : Nat) (w : StepWord) : ∃ xlt, s.refusedBy p w = { s with xlt := xlt } := by
  unfold State.refusedBy
  split
  · exact ⟨_, rfl⟩
  · exact ⟨_, rfl⟩

/-- Compute registers that agree in all but the tile registers of a list. -/
def Compute.SameBut (c d : Compute) (ts : List Nat) : Prop :=
  c.SameRest d ∧ ∀ k r, r < 64 → k ∉ ts → d.rowOf k r = c.rowOf k r

theorem Compute.SameBut.refl (c : Compute) (ts : List Nat) : c.SameBut c ts := ⟨⟨rfl, rfl, rfl⟩, fun _ _ _ _ => rfl⟩

/-- Other bytes in register t under its old marks (R52, R118). -/
theorem Compute.rowOf_setTile (c : Compute) {t k r : Nat} {b : Bytes} (len : b.length = 16384) (hr : r < 64) (other : k ≠ t) :
    (c.setTile t b).rowOf k r = c.rowOf k r := by
  have size : (Data.clean b).length = 16384 := by simp [Data.clean, len]
  refine Prod.ext ?_ rfl
  show (c.setTile t b).row k r = c.row k r
  rw [Compute.row_eq, Compute.row_eq]
  refine List.map_congr_left fun e he => ?_
  rw [List.mem_range] at he
  show ((c.tiles.write 256 (16384 * t) (Data.clean b)).get _) = _
  rw [Store.get_write, size, if_neg]
  unfold rowAddr
  omega

theorem State.drawBytes_state (s : State) (n : Nat) : (s.drawBytes n).2 = { s with drawn := s.drawn + n } := rfl

theorem State.scramble_cons (s : State) (i t : Nat) (l : List Nat) : ∃ (b : Bytes) (n : Nat), b.length = 16384 ∧
    s.scramble i (t :: l) = (({ s with drawn := n } : State).modComp i fun y => y.setTile t b).scramble i l := by
  have start : rowAddr t 0 = 16384 * t := by unfold rowAddr; omega
  refine ⟨(s.drawBytes 16384).1, s.drawn + 16384, State.drawBytes_length .., ?_⟩
  rw [State.scramble, List.foldl_cons, start, ← State.drawBytes_state]
  generalize s.drawBytes 16384 = x
  rfl

/-- What a faulting arithmetic step leaves of the compute registers: free bytes in its destinations (R52, R72). -/
theorem State.scramble_putCell {s : State} {i : Nat} (hi : i < s.cells.length) (c : Cell) (ts : List Nat) :
    ∃ y n, (s.putCell i c).scramble i ts = ({ s with drawn := n } : State).putCell i { c with comp := y } ∧
      c.comp.SameBut y ts := by
  induction ts generalizing s c with
  | nil => exact ⟨_, _, rfl, .refl _ _⟩
  | cons t l ih =>
    obtain ⟨b, m, len, first⟩ := (s.putCell i c).scramble_cons i t l
    obtain ⟨y, n, run, ⟨stat, scales, topk⟩, rows⟩ := ih (s := { s with drawn := m }) hi { c with comp := c.comp.setTile t b }
    refine ⟨y, n, first.trans (Eq.trans ?_ run), ⟨stat, scales, topk⟩, fun k r hr out => ?_⟩
    · exact congrArg (State.scramble · i l) (State.modComp_putCell { s with drawn := m } i c hi _)
    · rw [rows k r hr (fun e => out (List.mem_cons_of_mem _ e))]
      exact Compute.rowOf_setTile _ len hr (fun e => out (e ▸ List.mem_cons_self))

end Sys2Proof.Machine

namespace Sys2Proof.Machine

/-! ## An arithmetic step that faults (R52, R71, R72) -/

/-- The command, of KIND k, faults with a cause: its cell is FAULTED with CAUSE, STEP and KIND recorded, and no register but the tile
registers ts has changed. -/
def ArithFault (c : Instr) (s : State) (i k cause : Nat) (ts : List Nat) : Prop :=
  ∃ t, exec c s = .next t ∧ (t.cell i).st = 3 ∧ (t.cell i).fault = ⟨cause, true, (s.cell i).cur.step, k, 0, 0, 0⟩ ∧
    (s.cell i).comp.SameBut (t.cell i).comp ts ∧ (t.cell i).scratch = (s.cell i).scratch ∧ t.mem = s.mem

section
variable {s : State} {k g i p : Nat} {w : StepWord} (h : s.Ready k g w i p)
include h

/-- The fault registers name the step just issued and its KIND (R79). -/
theorem State.Ready.faulted_fault {c : Cell} (img : c.img = (s.cell i).img) (step : c.cur.step = (s.cell i).cur.step + 1)
    (cause addr mask info : Nat) : (c.faulted cause addr mask info).fault =
      ⟨cause, true, (s.cell i).cur.step, k, addr, BitVec.ofNat 64 mask, info⟩ := by
  obtain ⟨-, -, -, -, word, kind⟩ := h
  simp only [Cell.faulted, img, step, Nat.add_sub_cancel, word, kind]

theorem State.Ready.arithFault {c : Instr} {n cause : Nat} {ts : List Nat} {d : Cell} (img : d.img = (s.cell i).img)
    (step : d.cur.step = (s.cell i).cur.step + 1) (comp : d.comp = (s.cell i).comp) (scratch : d.scratch = (s.cell i).scratch)
    (run : exec c s = .next (((({ s with drawn := n } : State).putCell i d).scramble i ts).cellFault i cause 0 0 0 none)) :
    ArithFault c s i k cause ts := by
  obtain ⟨y, m, junk, but⟩ := State.scramble_putCell (s := { s with drawn := n }) h.lt d ts
  have told := State.cellFault_told (s := { s with drawn := m }) h.lt { d with comp := y } cause 0 0 0
  rw [junk] at run
  refine ⟨_, run, ?_⟩
  rw [told.cell, told.mem, State.cell_putCell_self { s with drawn := m } _ h.lt]
  exact ⟨rfl, h.faulted_fault (c := { d with comp := y }) img step cause 0 0 0, comp ▸ but, scratch, rfl⟩
end

/-! ## Array steps (R47, R49, R51, R52) -/

/-- The outputs that an array step writes into row r of destination e.2, its e.1-th (R47, R49). -/
def ArrayOp.outputs (o : ArrayOp) (c : Compute) (fa fb ta tb r : Nat) (e : Nat × Nat) : List Nat :=
  let stat := if o.kind = 0x36 then [] else (List.range 64).map fun j =>
    o.scaled fb (if o.kind = 0x32 then arrayK fa fb else o.klen) (c.statRow j) (c.statScales j)
  if o.kind = 0x32 then o.rowOutT c fa ta tb e.2 r e.1 stat else o.rowOut c fa ta tb e.2 r stat

theorem ArrayOp.outputs_length (o : ArrayOp) (c : Compute) (fa fb ta tb r : Nat) (e : Nat × Nat) :
    (o.outputs c fa fb ta tb r e).length = 64 := by
  unfold ArrayOp.outputs ArrayOp.rowOutT ArrayOp.rowOut
  by_cases transposed : o.kind = 0x32
  · simp [transposed]
  · by_cases hamming : o.kind = 0x36 <;> simp [transposed, hamming]

section
variable {L : Nat × Nat → List Nat} {r t' r' : Nat} (hr : r < 64) (hr' : r' < 64)
include hr hr'

/-- Row r of some registers written, one after another: what is not named stays. -/
theorem Compute.rowOf_setRowIn_other (es : List (Nat × Nat)) (c : Compute) (other : ∀ e ∈ es, ¬ (t' = e.2 ∧ r' = r)) :
    (es.foldl (fun y e => y.setRow e.2 r false (packRow 0 (L e))) c).rowOf t' r' = c.rowOf t' r' := by
  induction es generalizing c with
  | nil => rfl
  | cons e es ih =>
    rw [List.foldl_cons, ih _ fun e he => other e (List.mem_cons_of_mem _ he),
      Compute.rowOf_setRow c (packRow 0 (L e), false) (packRow_length ..) hr hr', if_neg (other e List.mem_cons_self)]

omit hr' in
/-- A register that is named once reads what was written. -/
theorem Compute.rowOf_setRowIn (es : List (Nat × Nat)) (c : Compute) (once : (es.map Prod.snd).Nodup) {e : Nat × Nat}
    (he : e ∈ es) : (es.foldl (fun y e => y.setRow e.2 r false (packRow 0 (L e))) c).rowOf e.2 r = (packRow 0 (L e), false) := by
  induction es generalizing c with
  | nil => simp at he
  | cons a es ih =>
    rw [List.map_cons, List.nodup_cons] at once
    rw [List.foldl_cons]
    rcases List.mem_cons.1 he with rfl | he
    · rw [Compute.rowOf_setRowIn_other hr hr es _ fun a ha same => once.1 (List.mem_map.2 ⟨a, ha, same.1.symm⟩),
        Compute.rowOf_setRow c (packRow 0 (L e), false) (packRow_length ..) hr hr, if_pos ⟨rfl, rfl⟩]
    · exact ih _ once.2 he
end

theorem Compute.setRowIn_rest {L : Nat × Nat → List Nat} {r : Nat} (es : List (Nat × Nat)) (c : Compute) :
    c.SameRest (es.foldl (fun y e => y.setRow e.2 r false (packRow 0 (L e))) c) := by
  induction es generalizing c with
  | nil => exact ⟨rfl, rfl, rfl⟩
  | cons e es ih => exact ih _

section
variable (c : Compute) (o : ArrayOp) (fa fb ta tb : Nat) {rows : Nat} (outs : List Nat)

/-- The row loop of an array step. -/
theorem Compute.arrayRun_succ : c.arrayRun o fa fb ta tb (rows + 1) outs =
    (outs.mapIdx fun m t => (m, t)).foldl (fun y e => y.setRow e.2 rows false (packRow 0 (o.outputs c fa fb ta tb rows e)))
      (c.arrayRun o fa fb ta tb rows outs) := by
  simp only [Compute.arrayRun, List.range_succ, List.foldl_append, List.foldl_cons, List.foldl_nil]
  rfl

theorem Compute.arrayRun_rest : c.SameRest (c.arrayRun o fa fb ta tb rows outs) := by
  induction rows with
  | zero => exact ⟨rfl, rfl, rfl⟩
  | succ n ih =>
    obtain ⟨stat, scales, topk⟩ := ih
    rw [Compute.arrayRun_succ]
    obtain ⟨stat', scales', topk'⟩ := Compute.setRowIn_rest (L := o.outputs c fa fb ta tb n) (r := n)
      (outs.mapIdx fun m t => (m, t)) (c.arrayRun o fa fb ta tb n outs)
    exact ⟨stat'.trans stat, scales'.trans scales, topk'.trans topk⟩

/-- Rows beyond ROWS and registers that are no destination stay (R47). -/
theorem Compute.arrayRun_other (few : rows ≤ 64) {y r : Nat} (hr : r < 64) (other : y ∉ outs ∨ rows ≤ r) :
    (c.arrayRun o fa fb ta tb rows outs).rowOf y r = c.rowOf y r := by
  induction rows with
  | zero => rfl
  | succ n ih =>
    rw [Compute.arrayRun_succ, Compute.rowOf_setRowIn_other few hr, ih (by omega) (other.imp_right fun _ => by omega)]
    rintro e he ⟨rfl, rfl⟩
    obtain ⟨m, hm, rfl⟩ := List.mem_mapIdx.1 he
    rcases other with out | beyond
    · exact out (List.getElem_mem hm)
    · omega

/-- A destination row below ROWS holds its outputs, unmarked (R47, R49). -/
theorem Compute.arrayRun_row (few : rows ≤ 64) (once : outs.Nodup) {m y r : Nat} (dest : outs[m]? = some y) (hr : r < rows) :
    (c.arrayRun o fa fb ta tb rows outs).rowOf y r = (packRow 0 (o.outputs c fa fb ta tb r (m, y)), false) := by
  obtain ⟨hm, rfl⟩ := List.getElem?_eq_some_iff.1 dest
  induction rows with
  | zero => omega
  | succ n ih =>
    rw [Compute.arrayRun_succ]
    by_cases last : r = n
    · subst last
      refine Compute.rowOf_setRowIn (e := (m, outs[m])) few _ _ ?_ (List.mem_mapIdx.2 ⟨m, hm, rfl⟩)
      rwa [show (outs.mapIdx fun m t => (m, t)).map Prod.snd = outs from List.ext_getElem (by simp) (by simp)]
    · rw [Compute.rowOf_setRowIn_other few (by omega), ih (by omega) (by omega)]
      exact fun e _ same => last same.2
end

theorem rowsOf_le (w : StepWord) : rowsOf w ≤ 64 := by unfold rowsOf; omega

theorem fmtCols_le (f : Nat) : fmtCols f ≤ 2048 := Nat.div_le_self _ _

theorem tileOf_lt (x : Ctx) (w : StepWord) (lo sel : Nat) : tileOf x w lo sel < 32 := by
  have field : fld w (lo + 4) lo < 32 := by
    have := fld_lt w (lo + 4) lo
    rwa [show lo + 4 + 1 - lo = 5 by omega] at this
  unfold tileOf
  split
  · exact Nat.mod_lt _ (by decide)
  · exact field

/-- The destination registers of a step are distinct (R49). -/
theorem arrayDest_nodup (x : Ctx) (w : StepWord) (kind : Nat) : (arrayDest x w kind).Nodup := by
  have count : (if kind = 0x32 then arrayK (fmtaOf w) (fmtbOf w) / 64 else 1) ≤ 32 := by
    split
    · have : arrayK (fmtaOf w) (fmtbOf w) ≤ 2048 := (min_le_left _ _).trans (fmtCols_le _)
      omega
    · decide
  refine List.Nodup.map_on (fun a ha b hb same => ?_) List.nodup_range
  rw [List.mem_range] at ha hb
  omega

theorem arrayDest_single (x : Ctx) (w : StepWord) {kind : Nat} (plain : kind ≠ 0x32) : arrayDest x w kind = [tdOf x w] := by
  rw [arrayDest, if_neg plain]
  exact congrArg (fun t => [t]) (Nat.mod_eq_of_lt (tileOf_lt ..))

theorem arrayOp_step (x : Ctx) (n : Nat) (w : StepWord) (kind : Nat) : arrayOp { x with step := n } w kind = arrayOp x w kind := rfl
theorem arrayDest_step (x : Ctx) (n : Nat) (w : StepWord) (kind : Nat) : arrayDest { x with step := n } w kind = arrayDest x w kind := rfl
@[simp] theorem arrayOp_issued (c : Cell) (w : StepWord) (kind : Nat) : arrayOp c.issued.cur w kind = arrayOp c.cur w kind := by
  rw [Cell.issued_cur, arrayOp_step]
@[simp] theorem arrayDest_issued (c : Cell) (w : StepWord) (kind : Nat) :
    arrayDest c.issued.cur w kind = arrayDest c.cur w kind := by
  rw [Cell.issued_cur, arrayDest_step]

section
variable {s : State} {k g i p : Nat} {w : StepWord} (h : s.Ready k g w i p) {c : Instr}
include h

/-- A marked row faults with POISON_CONSUMED (R71), a failing residue check with ARRAY_RESIDUE (R52). -/
theorem State.Ready.arrayFaults {bad : Bool} (run : exec c s = .next (s.issue k g w fun i _ s => s.arrayStep i w k bad)) :
    let marked := (s.cell i).comp.arrayMarked (arrayOp (s.cell i).cur w k) (taOf (s.cell i).cur w) (tbOf (s.cell i).cur w)
      (rowsOf w) (arrayDest (s.cell i).cur w k)
    (marked = true → ArithFault c s i k 4 (arrayDest (s.cell i).cur w k)) ∧
    (marked = false → bad = true → ArithFault c s i k 5 (arrayDest (s.cell i).cur w k)) := by
  intro marked
  rw [h.issue] at run
  simp only [State.arrayStep, State.cell_putCell_self _ _ h.lt, Cell.issued_comp, arrayOp_issued, arrayDest_issued, taOf_issued,
    tbOf_issued] at run
  constructor
  · intro yes
    rw [if_pos yes] at run
    exact h.arithFault (n := s.drawn) (Cell.issued_img _) (by rw [Cell.issued_cur]) (Cell.issued_comp _) (Cell.issued_scratch _) run
  · rintro no rfl
    rw [if_neg (Bool.eq_false_iff.1 no), State.modCell_putCell h.lt] at run
    exact h.arithFault (n := s.drawn) (by simp) (by simp) (by simp) (by simp) run

/-- An array step on unmarked rows whose residue check passes writes its outputs and counts its cycles (R47, R49, R77). -/
theorem State.Ready.arrayDone (run : exec c s = .next (s.issue k g w fun i _ s => s.arrayStep i w k false))
    (unmarked : (s.cell i).comp.arrayMarked (arrayOp (s.cell i).cur w k) (taOf (s.cell i).cur w) (tbOf (s.cell i).cur w)
      (rowsOf w) (arrayDest (s.cell i).cur w k) = false) :
    ∃ t, exec c s = .next t ∧
      (t.cell i).comp = (s.cell i).comp.arrayRun (arrayOp (s.cell i).cur w k) (fmtaOf w) (fmtbOf w) (taOf (s.cell i).cur w)
        (tbOf (s.cell i).cur w) (rowsOf w) (arrayDest (s.cell i).cur w k) ∧
      ((s.cell i).freeze = false → (t.cell i).cnt.arrayBusy =
        (s.cell i).cnt.arrayBusy + BitVec.ofNat 64 (rowsOf w * arrayCycles (fmtaOf w) (fmtbOf w))) ∧
      t = s.putCell i { (s.cell i).issued with comp := (t.cell i).comp, cnt := (t.cell i).cnt, pend := (t.cell i).pend } := by
  have counted (counts : (s.cell i).freeze = false) : ((s.cell i).issued.count fun n =>
      { n with arrayBusy := n.arrayBusy + BitVec.ofNat 64 (rowsOf w * arrayCycles (fmtaOf w) (fmtbOf w)) }).cnt.arrayBusy =
      (s.cell i).cnt.arrayBusy + BitVec.ofNat 64 (rowsOf w * arrayCycles (fmtaOf w) (fmtbOf w)) := by
    rw [Cell.count_cnt _ _ ((Cell.issued_freeze _).trans counts)]
    exact congrArg (· + _) (s.cell i).issued_cnt.1
  refine ⟨_, run, ?_⟩
  rw [h.issue]
  simp only [State.arrayStep, State.cell_putCell_self _ _ h.lt, Cell.issued_comp, arrayOp_issued, arrayDest_issued, taOf_issued,
    tbOf_issued]
  rw [if_neg (Bool.eq_false_iff.1 unmarked), State.modCell_putCell h.lt, if_neg Bool.false_ne_true,
    State.modComp_putCell _ _ _ h.lt, Cell.count_eq]
  split
  · rw [State.modCell_putCell h.lt, State.cell_putCell_self _ _ h.lt]
    exact ⟨congrArg (Compute.arrayRun · _ _ _ _ _ _ _) (Cell.issued_comp _), counted, rfl⟩
  · rw [State.cell_putCell_self _ _ h.lt]
    exact ⟨congrArg (Compute.arrayRun · _ _ _ _ _ _ _) (Cell.issued_comp _), counted, rfl⟩
end

/-- Element j of a row that packs 64 outputs of 32 bits. -/
theorem elem_packRow {c : Cell} {y r : Nat} {l : List Nat} (row : c.comp.row y r = packRow 0 l) (len : l.length = 64) {j : Nat}
    (hj : j < 64) : c.elem 0 y r j = l.getD j 0 % 2 ^ 32 := by
  rw [Cell.elem, row, rowElems_packRow_cols (by rw [len]; decide), List.getD_eq_getElem?_getD,
    List.getElem?_map, List.getElem?_range (show j < fmtCols 0 from hj)]
  rfl

section
variable {s : State} {k g i p : Nat} {w : StepWord} (h : s.Ready k g w i p) {c : Instr}
  (run : exec c s = .next (s.issue k g w fun i _ s => s.arrayStep i w k false))
  (unmarked : (s.cell i).comp.arrayMarked (arrayOp (s.cell i).cur w k) (taOf (s.cell i).cur w) (tbOf (s.cell i).cur w)
    (rowsOf w) (arrayDest (s.cell i).cur w k) = false)
include h run unmarked

/-- The outputs, element by element, and what an array step leaves alone (R47, R49, R51). -/
theorem State.Ready.arrayWrites {f : Nat → Nat → List Nat}
    (outputs : ∀ r m y, (arrayDest (s.cell i).cur w k)[m]? = some y → f r m = (arrayOp (s.cell i).cur w k).outputs
      (s.cell i).comp (fmtaOf w) (fmtbOf w) (taOf (s.cell i).cur w) (tbOf (s.cell i).cur w) r (m, y)) :
    ∃ t, exec c s = .next t ∧
      (∀ m y, (arrayDest (s.cell i).cur w k)[m]? = some y → ∀ r < rowsOf w, ∀ j < 64,
        (t.cell i).elem 0 y r j = (f r m).getD j 0 % 2 ^ 32 ∧ (t.cell i).comp.rowMarked y r = false) ∧
      (∀ y r, r < 64 → y ∉ arrayDest (s.cell i).cur w k ∨ rowsOf w ≤ r →
        (t.cell i).comp.rowOf y r = (s.cell i).comp.rowOf y r) ∧
      (t.cell i).comp.stat = (s.cell i).comp.stat ∧ (t.cell i).comp.scales = (s.cell i).comp.scales ∧
      (t.cell i).comp.topk = (s.cell i).comp.topk ∧
      ((s.cell i).freeze = false → (t.cell i).cnt.arrayBusy =
        (s.cell i).cnt.arrayBusy + BitVec.ofNat 64 (rowsOf w * arrayCycles (fmtaOf w) (fmtbOf w))) ∧
      t = s.putCell i { (s.cell i).issued with comp := (t.cell i).comp, cnt := (t.cell i).cnt, pend := (t.cell i).pend } := by
  obtain ⟨t, next, comp, busy, frame⟩ := h.arrayDone run unmarked
  obtain ⟨stat, scales, topk⟩ := Compute.arrayRun_rest (s.cell i).comp (arrayOp (s.cell i).cur w k) (fmtaOf w) (fmtbOf w)
    (taOf (s.cell i).cur w) (tbOf (s.cell i).cur w) (rows := rowsOf w) (arrayDest (s.cell i).cur w k)
  refine ⟨t, next, fun m y dest r hr j hj => ?_, fun y r hr other => ?_, comp ▸ stat, comp ▸ scales, comp ▸ topk, busy, frame⟩
  · have row := Compute.arrayRun_row (s.cell i).comp (arrayOp (s.cell i).cur w k) (fmtaOf w) (fmtbOf w) (taOf (s.cell i).cur w)
      (tbOf (s.cell i).cur w) _ (rowsOf_le w) (arrayDest_nodup ..) dest hr
    rw [← comp] at row
    refine ⟨?_, congrArg Prod.snd row⟩
    rw [elem_packRow (congrArg Prod.fst row) (ArrayOp.outputs_length ..) hj, outputs r m y dest]
  · rw [comp, Compute.arrayRun_other _ _ _ _ _ _ _ (rowsOf_le w) hr other]
end

/-- The only destination of a step other than MMAT is TD. -/
theorem arrayDest_single_eq {x : Ctx} {w : StepWord} {kind m y : Nat} (plain : kind ≠ 0x32)
    (dest : (arrayDest x w kind)[m]? = some y) : y = tdOf x w := by
  rw [arrayDest_single x w plain] at dest
  simpa using List.mem_of_getElem? dest

theorem arrayDest_eq {x : Ctx} {w : StepWord} {kind m y : Nat} (dest : (arrayDest x w kind)[m]? = some y) :
    y = (tdOf x w + m) % 32 := by
  obtain ⟨hm, rfl⟩ := List.getElem?_eq_some_iff.1 dest
  simp [arrayDest]

/-- A distance step or MMA: the outputs along k against every stationary row (R47, R51). -/
theorem ArrayOp.outputs_alongK {x : Ctx} {w : StepWord} {k m y : Nat} (plain : k ≠ 0x32) (sum : k ≠ 0x36)
    (dest : (arrayDest x w k)[m]? = some y) (c : Compute) (fa fb ta tb r : Nat) :
    (arrayOp x w k).rowOut c fa ta tb (tdOf x w) r ((List.range 64).map fun j =>
      (arrayOp x w k).scaled fb (arrayOp x w k).klen (c.statRow j) (c.statScales j)) =
    (arrayOp x w k).outputs c fa fb ta tb r (m, y) := by
  rw [ArrayOp.outputs, arrayDest_single_eq plain dest, show (arrayOp x w k).kind = k from rfl]
  simp only [if_neg plain, if_neg sum]

/-- Settles O11: the row loop writes each destination row once, and both faults scramble the destinations alone. -/
theorem arraySteps : Obligations.ArraySteps := by
  unfold Obligations.ArraySteps
  refine ⟨fun s g i p w => ?_, fun s g i p w bad => ?_⟩
  · refine ⟨fun h un => h.arrayWrites rfl un fun r m y dest => ArrayOp.outputs_alongK (by decide) (by decide) dest ..,
      fun h un => h.arrayWrites rfl un fun r m y dest => ArrayOp.outputs_alongK (by decide) (by decide) dest ..,
      fun h un => h.arrayWrites rfl un fun r m y dest => ArrayOp.outputs_alongK (by decide) (by decide) dest ..,
      fun h un => h.arrayWrites rfl un fun r m y dest => ArrayOp.outputs_alongK (by decide) (by decide) dest ..,
      fun h un => h.arrayWrites rfl un fun r m y dest => ArrayOp.outputs_alongK (by decide) (by decide) dest ..,
      fun h un => h.arrayWrites rfl un fun r m y dest => ArrayOp.outputs_alongK (by decide) (by decide) dest ..,
      fun h un => h.arrayWrites rfl un fun r m y dest => ?_, fun h un => h.arrayWrites rfl un fun r m y dest => ?_⟩
    · rw [arrayDest_single_eq (by decide) dest]
      rfl
    · rw [arrayDest_eq dest]
      rfl
  · have both {mk : Bool → Instr} {k : Nat} (h : s.Ready k g w i p)
        (run : ∀ b, exec (mk b) s = .next (s.issue k g w fun i _ s => s.arrayStep i w k b)) :=
      And.intro (h.arrayFaults (run bad)).1 fun un => (h.arrayFaults (run true)).2 un rfl
    have told {c : Instr} {k cause : Nat} (f : ArithFault c s i k cause (arrayDest (s.cell i).cur w k)) :
        ∃ t, exec c s = .next t ∧ (t.cell i).st = 3 ∧
          (t.cell i).fault.cause = cause ∧ (t.cell i).fault.valid = true ∧ (t.cell i).fault.step = (s.cell i).cur.step ∧
          (t.cell i).fault.kind = k ∧ (t.cell i).comp.stat = (s.cell i).comp.stat ∧
          (t.cell i).comp.topk = (s.cell i).comp.topk ∧
          (∀ y r, r < 64 → y ∉ arrayDest (s.cell i).cur w k → (t.cell i).comp.rowOf y r = (s.cell i).comp.rowOf y r) ∧
          (t.cell i).scratch = (s.cell i).scratch ∧ t.mem = s.mem := by
      obtain ⟨t, next, st, fault, ⟨⟨stat, -, topk⟩, rows⟩, rest⟩ := f
      exact ⟨t, next, st, by rw [fault], by rw [fault], by rw [fault], by rw [fault], stat, topk, rows, rest⟩
    have all {mk : Bool → Instr} {k : Nat} (run : ∀ b, exec (mk b) s = .next (s.issue k g w fun i _ s => s.arrayStep i w k b))
        (h : s.Ready k g w i p) := And.imp (told ∘ ·) (told ∘ ·) (both h run)
    exact ⟨all fun _ => rfl, all fun _ => rfl, all fun _ => rfl, all fun _ => rfl, all fun _ => rfl, all fun _ => rfl,
      all fun _ => rfl, all fun _ => rfl⟩

end Sys2Proof.Machine

namespace Sys2Proof.Machine

/-! ## Integer products (R47, R95) -/

/-- A value that is the integer z, a zero of either sign being 0. -/
def Val.IsInt (v : Val) (z : Int) : Prop := v = .ofInt z ∨ (z = 0 ∧ v = .zero true)

theorem Val.ofInt_zero : Val.ofInt 0 = .zero false := rfl

theorem Val.ofInt_num {z : Int} (h : z ≠ 0) : Val.ofInt z = .num z := if_neg (Int.cast_ne_zero.2 h)

/-- An integer value is a zero of some sign or a number. -/
theorem Val.isInt_iff {v : Val} {z : Int} : v.IsInt z ↔ (z = 0 ∧ ∃ neg, v = .zero neg) ∨ (z ≠ 0 ∧ v = .num z) := by
  by_cases h : z = 0
  · subst h
    simp only [Val.IsInt, Val.ofInt_zero, true_and, ne_eq, not_true_eq_false, false_and, or_false]
    exact ⟨fun v => v.elim (⟨_, ·⟩) (⟨_, ·⟩), fun ⟨neg, v⟩ => by cases neg <;> simp [v]⟩
  · simp [Val.IsInt, Val.ofInt_num h, h]

theorem Val.isInt_ofInt (z : Int) : (Val.ofInt z).IsInt z := .inl rfl

/-- An exact zero becomes +0 (R88). -/
theorem Val.IsInt.plusZero {v : Val} {z : Int} (h : v.IsInt z) : v.plusZero = .ofInt z := by
  rcases Val.isInt_iff.1 h with ⟨rfl, neg, rfl⟩ | ⟨nonzero, rfl⟩
  · rfl
  · exact (Val.ofInt_num nonzero).symm

theorem Val.IsInt.add {v u : Val} {z y : Int} (hv : v.IsInt z) (hu : u.IsInt y) : (v.add u).IsInt (z + y) := by
  rw [Val.isInt_iff]
  rcases Val.isInt_iff.1 hv with ⟨rfl, neg, rfl⟩ | ⟨hz, rfl⟩ <;> rcases Val.isInt_iff.1 hu with ⟨rfl, neg', rfl⟩ | ⟨hy, rfl⟩
  · exact .inl ⟨rfl, _, rfl⟩
  · exact .inr ⟨by omega, by rw [Int.zero_add]; rfl⟩
  · exact .inr ⟨by omega, by rw [Int.add_zero]; rfl⟩
  · have sum : Val.add (.num z) (.num y) = .ofInt (z + y) := by rw [Val.ofInt, Int.cast_add]; rfl
    rw [sum]
    exact Val.isInt_iff.1 (Val.isInt_ofInt _)

theorem Val.IsInt.mul {v u : Val} {z y : Int} (hv : v.IsInt z) (hu : u.IsInt y) : (v.mul u).IsInt (z * y) := by
  rw [Val.isInt_iff]
  rcases Val.isInt_iff.1 hv with ⟨rfl, neg, rfl⟩ | ⟨hz, rfl⟩ <;> rcases Val.isInt_iff.1 hu with ⟨rfl, neg', rfl⟩ | ⟨hy, rfl⟩
  · exact .inl ⟨rfl, _, rfl⟩
  · exact .inl ⟨Int.zero_mul _, _, rfl⟩
  · exact .inl ⟨Int.mul_zero _, _, rfl⟩
  · exact .inr ⟨mul_ne_zero hz hy, by rw [Int.cast_mul]; rfl⟩

theorem exactSum_isInt {α : Type} {f : α → Val} {g : α → Int} (l : List α) (h : ∀ e ∈ l, (f e).IsInt (g e)) :
    (exactSum (l.map f)).IsInt (l.map g).sum := by
  have run (v : Val) (z : Int) (hv : v.IsInt z) : ((l.map f).foldl Val.add v).IsInt (z + (l.map g).sum) := by
    induction l generalizing v z with
    | nil => simpa using hv
    | cons a l ih =>
      rw [List.map_cons, List.foldl_cons, List.map_cons, List.sum_cons, ← Int.add_assoc]
      exact ih (fun e he => h e (List.mem_cons_of_mem _ he)) _ _ (hv.add (h a List.mem_cons_self))
  simpa [exactSum] using run (.zero false) 0 (Val.isInt_ofInt 0)

/-- The sums of successive blocks of n values. -/
theorem sum_blocks (l : List Int) (n m : Nat) :
    ((List.range m).map fun b => ((l.drop (n * b)).take n).sum).sum = (l.take (n * m)).sum := by
  induction m with
  | zero => simp
  | succ m ih =>
    rw [List.range_succ, List.map_append, List.sum_append, ih, Nat.mul_succ, List.take_add, List.sum_append]
    simp

/-- Rounding an integer leaves it (R86). -/
theorem roundInt_intCast (z : Int) : roundInt z = z := by
  have half (n : Nat) : (2 * n + 1) / 2 = n := by omega
  simp only [roundInt, Rat.num_intCast, Rat.den_intCast, Nat.mul_one, half, Int.cast_lt_zero]
  split <;> omega

/-- An integer stored as INT32 is limited to its range (R87). -/
theorem encodeVal_int32 (z : Int) : encodeVal 10 (.ofInt z) = (satInt 32 z % 2 ^ 32).toNat := by
  by_cases h : z = 0
  · subst h; rfl
  · rw [Val.ofInt_num h]
    simp only [encodeVal, show fmtIsInt 10 = true from rfl, if_true, show fmtWidth 10 = 32 from rfl, roundInt_intCast]

theorem toSigned_satInt (z : Int) : toSigned 32 ((satInt 32 z % 2 ^ 32).toNat % 2 ^ 32) = satInt 32 z := by
  have low : -(2 ^ 31) ≤ satInt 32 z := le_max_left _ _
  have high : satInt 32 z < 2 ^ 31 := by unfold satInt; omega
  generalize satInt 32 z = y at low high
  unfold toSigned
  dsimp only
  split <;> omega

section
variable {o : ArrayOp} (kind : o.kind = 0x31) (int : o.int = true)
include kind int

/-- A block of exact integer products (R92, R95). -/
theorem ArrayOp.block_int {α : Type} {f g : α → Int} (l : List α) :
    o.block (l.map fun k => (.ofInt (f k), .ofInt (g k))) = .ofInt (l.map fun k => f k * g k).sum := by
  have sum := exactSum_isInt (f := fun k => (Val.ofInt (f k)).mul (.ofInt (g k))) l fun k _ =>
    (Val.isInt_ofInt (f k)).mul (Val.isInt_ofInt (g k))
  simp only [ArrayOp.block, kind, ArrayOp.rnd, int, if_true, List.map_map, Function.comp_def]
  exact sum.plusZero

theorem ArrayOp.combine_int (z y : Int) : o.combine (.ofInt z) (.ofInt y) = .ofInt (z + y) := by
  simp only [ArrayOp.combine, kind, ArrayOp.rnd, int, if_true]
  exact ((Val.isInt_ofInt z).add (Val.isInt_ofInt y)).plusZero

theorem ArrayOp.foldl_combine_int (l : List Int) (z : Int) :
    (l.map Val.ofInt).foldl o.combine (.ofInt z) = .ofInt (z + l.sum) := by
  induction l generalizing z with
  | nil => simp
  | cons y l ih => rw [List.map_cons, List.foldl_cons, ArrayOp.combine_int kind int, ih, List.sum_cons, Int.add_assoc]

/-- One integer output without scale or accumulation: the sum of all products (R92, R95). -/
theorem ArrayOp.output_int (mode : o.mode = 0) (acc : o.acc = false) (group : 0 < o.group) {α : Type} {f g : α → Int} (l : List α)
    (prev : Nat) :
    o.output prev (l.map fun k => (.ofInt (f k), .ofInt (g k))) = encodeVal 10 (.ofInt (l.map fun k => f k * g k).sum) := by
  have block (b : Nat) : o.block (((l.map fun k => ((Val.ofInt (f k)), (Val.ofInt (g k)))).drop (o.group * b)).take o.group) =
      .ofInt (((l.map fun k => f k * g k).drop (o.group * b)).take o.group).sum := by
    rw [← List.map_drop, ← List.map_take, ArrayOp.block_int kind int, ← List.map_drop, ← List.map_take]
  have whole : l.length ≤ o.group * ((l.length + o.group - 1) / o.group) := by
    have := Nat.div_add_mod (l.length + o.group - 1) o.group
    have := Nat.mod_lt (l.length + o.group - 1) group
    omega
  have blocks := sum_blocks (l.map fun k => f k * g k) o.group ((l.length + o.group - 1) / o.group)
  rw [List.take_of_length_le (by rwa [List.length_map])] at blocks
  simp only [ArrayOp.output, int, if_true, mode, acc, List.length_map, block, Nat.zero_ne_one, if_false, Bool.false_eq_true]
  have values {S : Nat → Int} (l : List Nat) : l.map (fun b => Val.ofInt (S b)) = (l.map S).map Val.ofInt := by
    rw [List.map_map, Function.comp_def]
  rw [← blocks, values]
  cases (List.range ((l.length + o.group - 1) / o.group)).map fun b =>
      (((l.map fun k => f k * g k).drop (o.group * b)).take o.group).sum with
  | nil => rfl
  | cons z zs => rw [List.map_cons, List.sum_cons, ← ArrayOp.foldl_combine_int kind int]
end

/-- INT8 elements without group scales (R45, R92). -/
theorem ArrayOp.scaled_int8 {o : ArrayOp} (mode : o.mode = 0) {n : Nat} (few : n ≤ 256) (row scales : Bytes) :
    o.scaled 8 n row scales = (List.range n).map fun k => .ofInt (toSigned 8 ((rowElems 8 256 row).getD k 0)) := by
  simp only [ArrayOp.scaled, mode, if_neg (show ¬ 2 ≤ 0 by decide)]
  refine List.ext_getElem (by simp [rowElems_length]) fun k hk _ => ?_
  have few : k < n := by simpa [rowElems_length] using hk
  rw [List.getElem_map, List.getElem_map, List.getElem_range, rowElems_getD 8 row (by omega),
    show (rowElems 8 n row)[k]'(by rwa [rowElems_length]) = _ from Option.some.inj
      ((List.getElem?_eq_getElem _).symm.trans (rowElems_getElem? 8 row few))]
  rfl

/-- Settles O12: every product and every block sum is an integer, so the output is the exact sum, limited once. -/
theorem integerProductExact : Obligations.IntegerProductExact := by
  unfold Obligations.IntegerProductExact
  intro s g i p w r j t c h fa fb acc hr hj unmarked run
  have dest : arrayDest c.cur w 0x31 = [tdOf c.cur w] := arrayDest_single _ _ (by decide)
  obtain ⟨t', run', elems, -⟩ := h.arrayWrites (c := .mma g w false) rfl (by rw [dest]; exact unmarked)
    (f := fun r _ => (arrayOp c.cur w 0x31).rowOut c.comp (fmtaOf w) (taOf c.cur w) (tbOf c.cur w) (tdOf c.cur w) r
      ((List.range 64).map fun j => (arrayOp c.cur w 0x31).scaled (fmtbOf w) (arrayOp c.cur w 0x31).klen (c.comp.statRow j)
        (c.comp.statScales j))) fun r m y at_ => ArrayOp.outputs_alongK (by decide) (by decide) at_ ..
  obtain rfl : t = t' := by simpa using run.symm.trans run'
  rw [(elems 0 _ (by rw [dest]; rfl) r hr j hj).1]
  have op : arrayOp c.cur w 0x31 = ⟨0x31, true, 0, 32, max 1 (min 256 (imm32Of w)), false, (arrayOp c.cur w 0x31).tensor⟩ := by
    simp only [arrayOp, fa, fb, acc, scaleMode, show arrayInt 8 = true from rfl, true_or, or_true, if_true,
      show arrayK 8 8 = 256 by decide]
    rfl
  generalize arrayOp c.cur w 0x31 = o at op
  have kind : o.kind = 0x31 := by rw [op]
  have int : o.int = true := by rw [op]
  have mode : o.mode = 0 := by rw [op]
  have few : max 1 (min 256 (imm32Of w)) ≤ 256 := by omega
  have out : (o.rowOut c.comp 8 (taOf c.cur w) (tbOf c.cur w) (tdOf c.cur w) r ((List.range 64).map fun j =>
      o.scaled 8 o.klen (c.comp.statRow j) (c.comp.statScales j))).getD j 0 = encodeVal 10 (.ofInt
        (((List.range (max 1 (min 256 (imm32Of w)))).map fun k => toSigned 8 (c.elem 8 (taOf c.cur w) r k) *
          toSigned 8 ((rowElems 8 256 (c.comp.statRow j)).getD k 0)).sum)) := by
    rw [← ArrayOp.output_int kind int mode (by rw [op]) (by rw [op]; exact Nat.succ_pos 31) _
      ((rowElems 0 64 (c.comp.row (tdOf c.cur w) r)).getD j 0)]
    simp only [ArrayOp.rowOut, kind, if_neg (show ¬ 0x31 = 0x36 by decide), show o.klen = _ from congrArg ArrayOp.klen op,
      ArrayOp.scaled_int8 mode few]
    rw [List.getD_eq_getElem?_getD, List.getElem?_mapIdx, List.getElem?_map, List.getElem?_range hj]
    simp only [Option.map_some, Option.getD_some, List.zip_map']
    rfl
  rw [fa, fb, out, encodeVal_int32, toSigned_satInt]

end Sys2Proof.Machine

namespace Sys2Proof.Machine

/-! ## The frame of the vector steps (R56, R57, R71, R72) -/

/-- The command is a vector step with these reads, destinations and effect; n free values have been drawn before it acts. -/
def VecRun (c : Instr) (s : State) (i n : Nat) (reads : List (Nat × Nat)) (dests : List Nat) (f : Compute → Compute) : Prop :=
  exec c s = .next ((({ s with drawn := n } : State).putCell i (s.cell i).issued).vecStep i reads dests f)

theorem Compute.anyMarked_eq_true {c : Compute} {t n : Nat} : c.anyMarked t n = true ↔ ∃ r < n, c.rowMarked t r = true := by
  simp [Compute.anyMarked]

theorem Compute.anyMarked_eq_false {c : Compute} {t n : Nat} : c.anyMarked t n = false ↔ ∀ r < n, c.rowMarked t r = false := by
  simp [Compute.anyMarked]

section
variable {s : State} {k g i p n : Nat} {w : StepWord} (h : s.Ready k g w i p) {c : Instr} {reads : List (Nat × Nat)}
  {dests : List Nat} {f : Compute → Compute}
include h

/-- A marked row among those read (R71). -/
theorem VecRun.faults (run : VecRun c s i n reads dests f) {t r m : Nat} (read : (t, m) ∈ reads) (hr : r < m)
    (marked : (s.cell i).comp.rowMarked t r = true) : ArithFault c s i k 4 dests := by
  refine h.arithFault (n := n) (d := (s.cell i).issued) (Cell.issued_img _) (by rw [Cell.issued_cur]) (Cell.issued_comp _)
    (Cell.issued_scratch _) (run.trans (congrArg Host.Outcome.next ?_))
  have any : reads.any (fun e => (s.cell i).comp.anyMarked e.1 e.2) = true :=
    List.any_eq_true.2 ⟨_, read, Compute.anyMarked_eq_true.2 ⟨r, hr, marked⟩⟩
  rw [State.vecStep, State.cell_putCell_self { s with drawn := n } _ h.lt, Cell.issued_comp]
  exact if_pos any

/-- Unmarked rows: the effect on the compute registers, and nothing else. -/
theorem VecRun.done (run : VecRun c s i n reads dests f)
    (clean : ∀ e ∈ reads, ∀ r < e.2, (s.cell i).comp.rowMarked e.1 r = false) :
    exec c s = .next (({ s with drawn := n } : State).putCell i { (s.cell i).issued with comp := f (s.cell i).comp }) := by
  have none : reads.any (fun e => (s.cell i).comp.anyMarked e.1 e.2) = false :=
    List.any_eq_false.2 fun e he => Bool.eq_false_iff.1 (Compute.anyMarked_eq_false.2 (clean e he))
  rw [VecRun, State.vecStep, State.cell_putCell_self { s with drawn := n } _ h.lt, Cell.issued_comp,
    if_neg (Bool.eq_false_iff.1 none), State.modComp_putCell { s with drawn := n } _ _ h.lt, Cell.issued_comp] at run
  exact run

/-- A step that writes TD whole, element by element (R44, R57). -/
theorem VecRun.writes {td fb : Nat} {L : Compute → Nat → List Nat}
    (run : VecRun c s i s.drawn reads dests fun y => y.vecWrite td fb (L y))
    (clean : ∀ e ∈ reads, ∀ r < e.2, (s.cell i).comp.rowMarked e.1 r = false) {m : Nat} {f : Nat → Nat → Nat}
    (elems : ∀ r < 64, (L (s.cell i).comp r).length ≤ fmtCols fb ∧ ∀ e < fmtCols fb,
      (L (s.cell i).comp r).getD e 0 = if e < m then f r e else 0) : VectorWrites c s i td fb m f := by
  refine ⟨fun r => packRow fb (L (s.cell i).comp r), fun r hr => ⟨packRow_length .., ?_⟩, .intro h.lt (run.done h clean)
    (Compute.setRows_rest ..) fun t r hr => Compute.rowOf_setRows _ _ _ (fun _ => packRow_length ..) _ _ hr⟩
  rw [rowElems_packRow_cols (elems r hr).1]
  refine List.map_congr_left fun e he => ?_
  rw [(elems r hr).2 e (List.mem_range.1 he)]
  split
  · rfl
  · exact Nat.zero_mod _

/-- The same from rows of m results. -/
theorem VecRun.writesRange {td fb : Nat} {L : Compute → Nat → List Nat}
    (run : VecRun c s i s.drawn reads dests fun y => y.vecWrite td fb (L y))
    (clean : ∀ e ∈ reads, ∀ r < e.2, (s.cell i).comp.rowMarked e.1 r = false) {m : Nat} (fits : m ≤ fmtCols fb)
    {f : Nat → Nat → Nat} (elems : ∀ r < 64, L (s.cell i).comp r = (List.range m).map (f r)) : VectorWrites c s i td fb m f := by
  refine run.writes h clean fun r hr => ?_
  rw [elems r hr]
  refine ⟨by simpa using fits, fun e _ => ?_⟩
  by_cases he : e < m <;> simp [he, List.getD_eq_getElem?_getD]
end

theorem vecCols_le_left (fa fb : Nat) : vecCols fa fb ≤ fmtCols fa := min_le_left _ _
theorem vecCols_le_right (fa fb : Nat) : vecCols fa fb ≤ fmtCols fb := min_le_right _ _

/-- The first n elements of a row, and their values (R42). -/
theorem codes_eq (c : Cell) (f t r : Nat) {n : Nat} (few : n ≤ fmtCols f) :
    c.comp.codes f t n r = (List.range n).map (c.elem f t r) := by
  refine List.ext_getElem? fun e => ?_
  by_cases he : e < n
  · rw [Compute.codes, rowElems_getElem? f _ he, List.getElem?_map, List.getElem?_range he, Option.map_some, Cell.elem,
      rowElems_getD f _ (he.trans_le few)]
  · rw [List.getElem?_eq_none (by rw [Compute.codes, rowElems_length]; omega), List.getElem?_eq_none (by simpa using he)]

theorem vals_eq (c : Cell) (f t r : Nat) {n : Nat} (few : n ≤ fmtCols f) :
    c.comp.vals f t n r = (List.range n).map (c.val f t r) := by
  rw [Compute.vals, codes_eq c f t r few, List.map_map]
  rfl

section
variable {s : State} {g i p : Nat} {w : StepWord} {c : Instr} {k : Nat} (h : s.Ready k g w i p)
include h

theorem State.Ready.vec1 {op : Bool → Val → Val} (run : exec c s = .next (s.issue k g w fun i _ s => s.vec1 i w op)) :
    let x := (s.cell i).cur
    VecRun c s i s.drawn [(taOf x w, 64)] [tdOf x w] fun y => y.vecWrite (tdOf x w) (fmtbOf w) fun r =>
      (y.vals (fmtaOf w) (taOf x w) (vecCols (fmtaOf w) (fmtbOf w)) r).map fun a => encodeVal (fmtbOf w) (op (fmtIsInt (fmtaOf w)) a) := by
  rw [h.issue] at run
  simp only [State.vec1, State.cell_putCell_self _ _ h.lt, taOf_issued, tdOf_issued] at run
  exact run

theorem State.Ready.vec2 {op : Bool → Val → Val → Val} (run : exec c s = .next (s.issue k g w fun i _ s => s.vec2 i w op)) :
    let x := (s.cell i).cur
    VecRun c s i s.drawn [(taOf x w, 64), (tbOf x w, 64)] [tdOf x w] fun y => y.vecWrite (tdOf x w) (fmtbOf w) fun r =>
      List.zipWith (fun a b => encodeVal (fmtbOf w) (op (fmtIsInt (fmtaOf w)) a b))
        (y.vals (fmtaOf w) (taOf x w) (vecCols (fmtaOf w) (fmtbOf w)) r)
        (y.vals (fmtaOf w) (tbOf x w) (vecCols (fmtaOf w) (fmtbOf w)) r) := by
  rw [h.issue] at run
  simp only [State.vec2, State.cell_putCell_self _ _ h.lt, taOf_issued, tbOf_issued, tdOf_issued] at run
  exact run

theorem State.Ready.vec3 {op : Bool → Val → Val → Val → Val}
    (run : exec c s = .next (s.issue k g w fun i _ s => s.vec3 i w op)) :
    let x := (s.cell i).cur
    VecRun c s i s.drawn [(taOf x w, 64), (tbOf x w, 64), (tcOf x w, 64)] [tdOf x w] fun y =>
      y.vecWrite (tdOf x w) (fmtbOf w) fun r =>
        List.zipWith (fun a bc => encodeVal (fmtbOf w) (op (fmtIsInt (fmtaOf w)) a bc.1 bc.2))
          (y.vals (fmtaOf w) (taOf x w) (vecCols (fmtaOf w) (fmtbOf w)) r)
          ((y.vals (fmtaOf w) (tbOf x w) (vecCols (fmtaOf w) (fmtbOf w)) r).zip
            (y.vals (fmtaOf w) (tcOf x w) (vecCols (fmtaOf w) (fmtbOf w)) r)) := by
  rw [h.issue] at run
  simp only [State.vec3, State.cell_putCell_self _ _ h.lt, taOf_issued, tbOf_issued, tcOf_issued, tdOf_issued] at run
  exact run

theorem State.Ready.vecBits {op : Nat → Nat → Nat} (run : exec c s = .next (s.issue k g w fun i _ s => s.vecBits i w op)) :
    let x := (s.cell i).cur
    VecRun c s i s.drawn [(taOf x w, 64), (tbOf x w, 64)] [tdOf x w] fun y => y.vecWrite (tdOf x w) (fmtbOf w) fun r =>
      List.zipWith (fun a b => if fmtaOf w = fmtbOf w then op a b % 2 ^ fmtBits (fmtbOf w)
          else encodeVal (fmtbOf w) (decodeVal (fmtaOf w) (op a b)))
        (y.codes (fmtaOf w) (taOf x w) (vecCols (fmtaOf w) (fmtbOf w)) r)
        (y.codes (fmtaOf w) (tbOf x w) (vecCols (fmtaOf w) (fmtbOf w)) r) := by
  rw [h.issue] at run
  simp only [State.vecBits, State.cell_putCell_self _ _ h.lt, taOf_issued, tbOf_issued, tdOf_issued] at run
  exact run

theorem State.Ready.vecCompare (run : exec c s = .next (s.issue k g w fun i _ s => s.vecCompare i w)) :
    let x := (s.cell i).cur
    VecRun c s i s.drawn [(taOf x w, 64), (tbOf x w, 64)] [tdOf x w] fun y => y.vecWrite (tdOf x w) (fmtbOf w) fun r =>
      List.zipWith (fun a b => encodeVal (fmtbOf w)
          (.ofInt (b2n (condElem (if modeOf w < 8 then modeOf w else 0) (fmtaOf w) a b))))
        (y.codes (fmtaOf w) (taOf x w) (vecCols (fmtaOf w) (fmtbOf w)) r)
        (y.codes (fmtaOf w) (tbOf x w) (vecCols (fmtaOf w) (fmtbOf w)) r) := by
  rw [h.issue] at run
  simp only [State.vecCompare, State.cell_putCell_self _ _ h.lt, taOf_issued, tbOf_issued, tdOf_issued] at run
  exact run

theorem State.Ready.vecRowRed {red : List Val → Val} (run : exec c s = .next (s.issue k g w fun i _ s => s.vecRowRed i w red)) :
    let x := (s.cell i).cur
    VecRun c s i s.drawn [(taOf x w, 64)] [tdOf x w] fun y => y.vecWrite (tdOf x w) (fmtbOf w) fun r =>
      [encodeVal (fmtbOf w) (red (y.vals (fmtaOf w) (taOf x w) (fmtCols (fmtaOf w)) r))] := by
  rw [h.issue] at run
  simp only [State.vecRowRed, State.cell_putCell_self _ _ h.lt, taOf_issued, tdOf_issued] at run
  exact run

theorem State.Ready.vecColRed {red : List Val → Val} (run : exec c s = .next (s.issue k g w fun i _ s => s.vecColRed i w red)) :
    let x := (s.cell i).cur
    VecRun c s i s.drawn [(taOf x w, 64)] [tdOf x w] fun y => y.vecWrite (tdOf x w) (fmtbOf w) fun r =>
      if r = 0 then (List.range (vecCols (fmtaOf w) (fmtbOf w))).map fun e => encodeVal (fmtbOf w)
        (red (((List.range 64).map fun r => y.vals (fmtaOf w) (taOf x w) (vecCols (fmtaOf w) (fmtbOf w)) r).map
          fun l => l.getD e (.zero false))) else [] := by
  rw [h.issue] at run
  simp only [State.vecColRed, State.cell_putCell_self _ _ h.lt, taOf_issued, tdOf_issued] at run
  exact run

theorem State.Ready.vecRows {reads : List (Nat × Nat)} {f : Compute → List Val → List Val}
    (run : exec c s = .next ((s.putCell i (s.cell i).issued).vecRows i w reads f)) :
    let x := (s.cell i).cur
    VecRun c s i s.drawn ((taOf x w, 64) :: reads) [tdOf x w] fun y => y.vecWrite (tdOf x w) (fmtbOf w) fun r =>
      ((f y ((y.vals (fmtaOf w) (taOf x w) (fmtCols (fmtaOf w)) r).map (toFp (fmtaOf w)))).take
        (vecCols (fmtaOf w) (fmtbOf w))).map (encodeVal (fmtbOf w)) := by
  simp only [State.vecRows, State.cell_putCell_self _ _ h.lt, taOf_issued, tdOf_issued] at run
  exact run

theorem State.Ready.vecBcast (run : exec c s = .next (s.issue k g w fun i _ s => s.vecBcast i w)) :
    let x := (s.cell i).cur
    VecRun c s i s.drawn [(taOf x w, 64), (tbOf x w, if flagOf w 0 then 64 else 1)] [tdOf x w] fun y =>
      y.vecWrite (tdOf x w) (fmtbOf w) fun r =>
        List.zipWith (fun a b => encodeVal (fmtbOf w) (bcastOp (modeOf w) (fmtIsInt (fmtaOf w)) a b))
          (y.vals (fmtaOf w) (taOf x w) (vecCols (fmtaOf w) (fmtbOf w)) r)
          (if flagOf w 0 then List.replicate (vecCols (fmtaOf w) (fmtbOf w))
            ((y.vals (fmtaOf w) (tbOf x w) 1 r).headD (.zero false))
          else y.vals (fmtaOf w) (tbOf x w) (vecCols (fmtaOf w) (fmtbOf w)) 0) := by
  rw [h.issue] at run
  simp only [State.vecBcast, State.cell_putCell_self _ _ h.lt, taOf_issued, tbOf_issued, tdOf_issued] at run
  exact run
end

/-- VLNORM, VRMSN and VSMAX go along whole rows (R100). -/
theorem State.Ready.vlnorm_run {s : State} {g i p : Nat} {w : StepWord} (h : s.Ready 0x74 g w i p) :
    exec (.vlnorm g w) s = .next ((s.putCell i (s.cell i).issued).vecRows i w
      [(tbOf (s.cell i).cur w, 1), (tcOf (s.cell i).cur w, 1)] fun y => normRow (decodeVal 0 ((s.cell i).cur.sa w))
        (y.row0 (fmtaOf w) (tbOf (s.cell i).cur w)) (y.row0 (fmtaOf w) (tcOf (s.cell i).cur w))) := by
  show execVlnorm g w s = _
  rw [execVlnorm, h.issue]
  simp only [State.cell_putCell_self _ _ h.lt, tbOf_issued, tcOf_issued, Ctx.sa_issued]

theorem State.Ready.vrmsn_run {s : State} {g i p : Nat} {w : StepWord} (h : s.Ready 0x75 g w i p) :
    exec (.vrmsn g w) s = .next ((s.putCell i (s.cell i).issued).vecRows i w [(tbOf (s.cell i).cur w, 1)] fun y =>
      rmsRow (decodeVal 0 ((s.cell i).cur.sa w)) (y.row0 (fmtaOf w) (tbOf (s.cell i).cur w))) := by
  show execVrmsn g w s = _
  rw [execVrmsn, h.issue]
  simp only [State.cell_putCell_self _ _ h.lt, tbOf_issued, Ctx.sa_issued]

theorem State.Ready.vsmax_run {s : State} {g i p : Nat} {w : StepWord} (h : s.Ready 0x76 g w i p) :
    exec (.vsmax g w) s = .next ((s.putCell i (s.cell i).issued).vecRows i w [] fun _ => softmaxRow) := by
  show execVsmax g w s = _
  rw [execVsmax, h.issue]

/-! ## Conversions as vector steps (R57, R103 to R105) -/

/-- The columns that a conversion reads, and the first that it writes. -/
def segOf (w : StepWord) : Nat × Nat × Nat := segment (fmtaOf w) (fmtbOf w) (imm16Of w)

/-- VCVT on every row of TD. -/
def Compute.converted (x : Ctx) (w : StepWord) (y : Compute) : Compute :=
  (List.range 64).foldl (fun z r => z.putCols (tdOf x w) (fmtbOf w) r (segOf w).2.2
    (((y.codes (fmtaOf w) (taOf x w) (fmtCols (fmtaOf w)) r).drop (segOf w).1 |>.take (segOf w).2.1).map
      (convert (fmtaOf w) (fmtbOf w)))) y

/-- VQGRP on every row of TD with scale mode md. -/
def Compute.quantized (x : Ctx) (w : StepWord) (md : Nat) (y : Compute) : Compute :=
  (List.range 64).foldl (fun z r => z.quantRow y md (fmtaOf w) (fmtbOf w) (groupOf w) (tdOf x w) (taOf x w) (tbOf x w)
    (segOf w).1 (segOf w).2.1 (segOf w).2.2 r) y

/-- VDQGRP on every row of TD with scale mode md. -/
def Compute.dequantized (x : Ctx) (w : StepWord) (md : Nat) (y : Compute) : Compute :=
  (List.range 64).foldl (fun z r => z.putCols (tdOf x w) (fmtbOf w) r (segOf w).2.2
    ((((y.codes (fmtaOf w) (taOf x w) (fmtCols (fmtaOf w)) r).mapIdx fun k e => encodeVal (fmtbOf w)
      ((decodeVal (fmtaOf w) e).mul (if md = 3 then e4m3Scale (byteAt (y.row (tbOf x w) r) (k / groupOf w))
        else e8m0 (byteAt (y.row (tbOf x w) r) (k / groupOf w))))).drop (segOf w).1).take (segOf w).2.1)) y

/-- The scale mode of VQGRP and VDQGRP: E8M0 or FP8-E4M3, as MODE says where it says so (R50, R103). -/
def GroupMode (w : StepWord) (md : Nat) : Prop := (md = 2 ∨ md = 3) ∧ (modeOf w = 2 ∨ modeOf w = 3 → md = modeOf w)

theorem State.groupMode_putCell (s : State) (i : Nat) (c : Cell) (w : StepWord) : ∃ md n, GroupMode w md ∧
    (modeOf w = 2 ∨ modeOf w = 3 → n = s.drawn) ∧
    (s.putCell i c).groupMode w = (md, ({ s with drawn := n } : State).putCell i c) := by
  unfold State.groupMode
  split
  next named => exact ⟨modeOf w, s.drawn, ⟨named, fun _ => rfl⟩, fun _ => rfl, rfl⟩
  next other =>
    have two := Nat.mod_lt (Config.free s.drawn) (show 0 < 2 by decide)
    exact ⟨2 + Config.free s.drawn % 2, s.drawn + 1, ⟨by omega, fun h => absurd h other⟩, fun h => absurd h other, rfl⟩

section
variable {s : State} {g i p : Nat} {w : StepWord} {c : Instr} {k : Nat} (h : s.Ready k g w i p)
include h

theorem State.Ready.vecConvert (run : exec c s = .next (s.issue k g w fun i _ s => s.vecConvert i w)) :
    VecRun c s i s.drawn [(taOf (s.cell i).cur w, 64)] [tdOf (s.cell i).cur w] (Compute.converted (s.cell i).cur w) := by
  rw [h.issue] at run
  simp only [State.vecConvert, State.cell_putCell_self _ _ h.lt, taOf_issued, tdOf_issued] at run
  exact run

theorem State.Ready.vecQuant (run : exec c s = .next (s.issue k g w fun i _ s => s.vecQuant i w)) :
    if fmtbOf w = 0 ∨ fmtIsInt (fmtbOf w) then
      VecRun c s i s.drawn [(taOf (s.cell i).cur w, 64)] [tdOf (s.cell i).cur w] (Compute.converted (s.cell i).cur w)
    else ∃ md n, GroupMode w md ∧ VecRun c s i n [(taOf (s.cell i).cur w, 64)] [tdOf (s.cell i).cur w, tbOf (s.cell i).cur w]
      (Compute.quantized (s.cell i).cur w md) := by
  split
  next convert =>
    refine h.vecConvert (run.trans ?_)
    rw [h.issue, h.issue, State.vecQuant]
    exact congrArg Host.Outcome.next (if_pos convert)
  next group =>
    obtain ⟨md, n, mode, -, eq⟩ := s.groupMode_putCell i (s.cell i).issued w
    refine ⟨md, n, mode, ?_⟩
    rw [h.issue] at run
    simp only [State.vecQuant, if_neg group, State.cell_putCell_self _ _ h.lt, taOf_issued, tbOf_issued, tdOf_issued, eq] at run
    exact run

theorem State.Ready.vecDequant (run : exec c s = .next (s.issue k g w fun i _ s => s.vecDequant i w)) :
    ∃ md n, GroupMode w md ∧ (modeOf w = 2 ∨ modeOf w = 3 → n = s.drawn) ∧
      VecRun c s i n [(taOf (s.cell i).cur w, 64), (tbOf (s.cell i).cur w, 64)] [tdOf (s.cell i).cur w]
        (Compute.dequantized (s.cell i).cur w md) := by
  obtain ⟨md, n, mode, drawn, eq⟩ := s.groupMode_putCell i (s.cell i).issued w
  refine ⟨md, n, mode, drawn, ?_⟩
  rw [h.issue] at run
  simp only [State.vecDequant, State.cell_putCell_self _ _ h.lt, taOf_issued, tbOf_issued, tdOf_issued, eq] at run
  exact run
end

end Sys2Proof.Machine

namespace Sys2Proof.Machine

/-! ## Elementwise vector steps (O14) -/

theorem clean_one {c : Cell} {t : Nat} (ht : c.clean t) : ∀ e ∈ [(t, 64)], ∀ r < e.2, c.comp.rowMarked e.1 r = false := by
  simpa [Cell.clean] using ht

theorem clean_two {c : Cell} {t u : Nat} (ht : c.clean t) (hu : c.clean u) :
    ∀ e ∈ [(t, 64), (u, 64)], ∀ r < e.2, c.comp.rowMarked e.1 r = false := by
  simpa [Cell.clean] using And.intro ht hu

theorem clean_three {c : Cell} {t u v : Nat} (ht : c.clean t) (hu : c.clean u) (hv : c.clean v) :
    ∀ e ∈ [(t, 64), (u, 64), (v, 64)], ∀ r < e.2, c.comp.rowMarked e.1 r = false := by
  simpa [Cell.clean] using And.intro ht (And.intro hu hv)

section
variable {s : State} {g i p : Nat} {w : StepWord} {c : Instr} {k : Nat} (h : s.Ready k g w i p)
  (ta : (s.cell i).clean (taOf (s.cell i).cur w)) {f : Nat → Nat → Nat}
include h ta

theorem State.Ready.vec1Writes {op : Bool → Val → Val} (run : exec c s = .next (s.issue k g w fun i _ s => s.vec1 i w op))
    (elem : ∀ r e, f r e = encodeVal (fmtbOf w) (op (fmtIsInt (fmtaOf w)) ((s.cell i).val (fmtaOf w) (taOf (s.cell i).cur w) r e))) :
    VectorWrites c s i (tdOf (s.cell i).cur w) (fmtbOf w) (vecCols (fmtaOf w) (fmtbOf w)) f := by
  refine (h.vec1 run).writesRange h (clean_one ta) (vecCols_le_right ..) fun r _ => ?_
  rw [vals_eq _ _ _ _ (vecCols_le_left ..), List.map_map]
  exact List.map_congr_left fun e _ => (elem r e).symm

variable (tb : (s.cell i).clean (tbOf (s.cell i).cur w))
include tb

theorem State.Ready.vec2Writes {op : Bool → Val → Val → Val}
    (run : exec c s = .next (s.issue k g w fun i _ s => s.vec2 i w op))
    (elem : ∀ r e, f r e = encodeVal (fmtbOf w) (op (fmtIsInt (fmtaOf w)) ((s.cell i).val (fmtaOf w) (taOf (s.cell i).cur w) r e)
      ((s.cell i).val (fmtaOf w) (tbOf (s.cell i).cur w) r e))) :
    VectorWrites c s i (tdOf (s.cell i).cur w) (fmtbOf w) (vecCols (fmtaOf w) (fmtbOf w)) f := by
  refine (h.vec2 run).writesRange h (clean_two ta tb) (vecCols_le_right ..) fun r _ => ?_
  rw [vals_eq _ _ _ _ (vecCols_le_left ..), vals_eq _ _ _ _ (vecCols_le_left ..), List.zipWith_map, List.zipWith_self]
  exact List.map_congr_left fun e _ => (elem r e).symm

theorem State.Ready.vec3Writes (tc : (s.cell i).clean (tcOf (s.cell i).cur w)) {op : Bool → Val → Val → Val → Val}
    (run : exec c s = .next (s.issue k g w fun i _ s => s.vec3 i w op))
    (elem : ∀ r e, f r e = encodeVal (fmtbOf w) (op (fmtIsInt (fmtaOf w)) ((s.cell i).val (fmtaOf w) (taOf (s.cell i).cur w) r e)
      ((s.cell i).val (fmtaOf w) (tbOf (s.cell i).cur w) r e) ((s.cell i).val (fmtaOf w) (tcOf (s.cell i).cur w) r e))) :
    VectorWrites c s i (tdOf (s.cell i).cur w) (fmtbOf w) (vecCols (fmtaOf w) (fmtbOf w)) f := by
  refine (h.vec3 run).writesRange h (clean_three ta tb tc) (vecCols_le_right ..) fun r _ => ?_
  rw [vals_eq _ _ _ _ (vecCols_le_left ..), vals_eq _ _ _ _ (vecCols_le_left ..), vals_eq _ _ _ _ (vecCols_le_left ..),
    List.zip_map', List.zipWith_map, List.zipWith_self]
  exact List.map_congr_left fun e _ => (elem r e).symm

theorem State.Ready.vecBitsWrites {op : Nat → Nat → Nat} (run : exec c s = .next (s.issue k g w fun i _ s => s.vecBits i w op))
    (elem : ∀ r e, f r e =
      let v := op ((s.cell i).elem (fmtaOf w) (taOf (s.cell i).cur w) r e) ((s.cell i).elem (fmtaOf w) (tbOf (s.cell i).cur w) r e)
      if fmtaOf w = fmtbOf w then v % 2 ^ fmtBits (fmtbOf w) else encodeVal (fmtbOf w) (decodeVal (fmtaOf w) v)) :
    VectorWrites c s i (tdOf (s.cell i).cur w) (fmtbOf w) (vecCols (fmtaOf w) (fmtbOf w)) f := by
  refine (h.vecBits run).writesRange h (clean_two ta tb) (vecCols_le_right ..) fun r _ => ?_
  rw [codes_eq _ _ _ _ (vecCols_le_left ..), codes_eq _ _ _ _ (vecCols_le_left ..), List.zipWith_map, List.zipWith_self]
  exact List.map_congr_left fun e _ => (elem r e).symm

theorem State.Ready.vecCompareWrites (named : modeOf w < 8) (run : exec c s = .next (s.issue k g w fun i _ s => s.vecCompare i w))
    (elem : ∀ r e, f r e = encodeVal (fmtbOf w) (Val.ofInt (if condElem (modeOf w) (fmtaOf w)
      ((s.cell i).elem (fmtaOf w) (taOf (s.cell i).cur w) r e) ((s.cell i).elem (fmtaOf w) (tbOf (s.cell i).cur w) r e)
      then 1 else 0))) :
    VectorWrites c s i (tdOf (s.cell i).cur w) (fmtbOf w) (vecCols (fmtaOf w) (fmtbOf w)) f := by
  refine (h.vecCompare run).writesRange h (clean_two ta tb) (vecCols_le_right ..) fun r _ => ?_
  rw [codes_eq _ _ _ _ (vecCols_le_left ..), codes_eq _ _ _ _ (vecCols_le_left ..), List.zipWith_map, List.zipWith_self]
  refine List.map_congr_left fun e _ => ?_
  rw [elem r e, if_pos named]
  cases condElem (modeOf w) (fmtaOf w) ((s.cell i).elem (fmtaOf w) (taOf (s.cell i).cur w) r e)
    ((s.cell i).elem (fmtaOf w) (tbOf (s.cell i).cur w) r e) <;> rfl
end

/-- VSELM takes TB where TC is a zero of either sign. -/
theorem Val.nonzero_ite (v a b : Val) :
    (if v.nonzero then a else b) = if v = .zero true ∨ v = .zero false then b else a := by
  cases v with
  | zero neg => cases neg <;> rfl
  | _ => simp [Val.nonzero]

/-- The command is a vector step that reads the whole of TA and has no destination but TD and TB. -/
def ReadsTa (c : Instr) (s : State) (i : Nat) (w : StepWord) : Prop :=
  ∃ n reads dests f, VecRun c s i n ((taOf (s.cell i).cur w, 64) :: reads) dests f ∧
    ∀ t ∈ dests, t = tdOf (s.cell i).cur w ∨ t = tbOf (s.cell i).cur w

section
variable {s : State} {g i p : Nat} {w : StepWord} {c : Instr} {k : Nat}

theorem VecRun.readsTa {n : Nat} {reads : List (Nat × Nat)} {f : Compute → Compute}
    (run : VecRun c s i n ((taOf (s.cell i).cur w, 64) :: reads) [tdOf (s.cell i).cur w] f) : ReadsTa c s i w :=
  ⟨n, reads, _, f, run, fun _ ht => .inl (List.mem_singleton.1 ht)⟩

variable (h : s.Ready k g w i p)
include h

theorem State.Ready.vecQuant_readsTa (run : exec c s = .next (s.issue k g w fun i _ s => s.vecQuant i w)) : ReadsTa c s i w := by
  have quant := h.vecQuant run
  split at quant
  · exact quant.readsTa
  · obtain ⟨md, n, -, quant⟩ := quant
    exact ⟨n, [], _, _, quant, by simp⟩

theorem State.Ready.vecDequant_readsTa (run : exec c s = .next (s.issue k g w fun i _ s => s.vecDequant i w)) :
    ReadsTa c s i w := by
  obtain ⟨md, n, -, -, dequant⟩ := h.vecDequant run
  exact dequant.readsTa

/-- A marked row of TA faults with POISON_CONSUMED (R71, R72). -/
theorem ReadsTa.faults (run : ReadsTa c s i w) (marked : ∃ r < 64, (s.cell i).comp.rowMarked (taOf (s.cell i).cur w) r = true) :
    ∃ t, exec c s = .next t ∧ (t.cell i).st = 3 ∧
      (t.cell i).fault.valid = true ∧ (t.cell i).fault.cause = 4 ∧ (t.cell i).fault.kind = k ∧
      (∀ k r, r < 64 → k ≠ tdOf (s.cell i).cur w → k ≠ tbOf (s.cell i).cur w →
        (t.cell i).comp.rowOf k r = (s.cell i).comp.rowOf k r) ∧
      (t.cell i).scratch = (s.cell i).scratch ∧ t.mem = s.mem := by
  obtain ⟨r, hr, marked⟩ := marked
  obtain ⟨n, reads, dests, f, run, few⟩ := run
  obtain ⟨t, next, st, fault, ⟨-, rows⟩, rest⟩ := run.faults h List.mem_cons_self hr marked
  exact ⟨t, next, st, by rw [fault], by rw [fault], by rw [fault],
    fun k r hr td tb => rows k r hr fun mem => (few k mem).elim td tb, rest⟩
end

/-- Settles O14: each family of steps is one row of results per row of TD, and every one of them reads TA before it writes. -/
theorem vectorElementwise : Obligations.VectorElementwise := by
  unfold Obligations.VectorElementwise
  refine ⟨fun s g i p w => ⟨?_, ?_, ?_, ?_, ?_, ?_, ?_, ?_, ?_, ?_, ?_, ?_, ?_, ?_⟩, fun s g i p w => ?_⟩
  · exact fun h ta tb => h.vec2Writes ta tb rfl fun _ _ => rfl
  · exact fun h ta tb => h.vec2Writes ta tb rfl fun _ _ => rfl
  · exact fun h ta tb => h.vec2Writes ta tb rfl fun _ _ => rfl
  · exact fun h ta tb => h.vec2Writes ta tb rfl fun _ _ => rfl
  · exact fun h ta tb => h.vec2Writes ta tb rfl fun _ _ => rfl
  · exact fun tc h ta tb => h.vec3Writes ta tb tc rfl fun _ _ => rfl
  · exact fun same h ta tb => h.vecBitsWrites ta tb rfl fun _ _ => (if_pos same).symm
  · exact fun same h ta tb => h.vecBitsWrites ta tb rfl fun _ _ => (if_pos same).symm
  · exact fun same h ta tb => h.vecBitsWrites ta tb rfl fun _ _ => (if_pos same).symm
  · exact fun other h ta tb => h.vecBitsWrites ta tb rfl fun _ _ => (if_neg other).symm
  · exact fun other h ta tb => h.vecBitsWrites ta tb rfl fun _ _ => (if_neg other).symm
  · exact fun other h ta tb => h.vecBitsWrites ta tb rfl fun _ _ => (if_neg other).symm
  · exact fun named h ta tb => h.vecCompareWrites ta tb named rfl fun _ _ => rfl
  · exact fun tc h ta tb => h.vec3Writes ta tb tc rfl fun _ _ => congrArg (encodeVal _) (Val.nonzero_ite ..).symm
  · refine ⟨fun h ta => h.vec1Writes ta rfl fun _ _ => rfl, fun h ta => h.vec1Writes ta rfl fun _ _ => rfl,
      fun h ta => h.vec1Writes ta rfl fun _ _ => rfl, fun h ta => h.vec1Writes ta rfl fun _ _ => rfl,
      fun h ta => h.vec1Writes ta rfl fun _ _ => rfl, fun h ta => h.vec1Writes ta rfl fun _ _ => rfl,
      fun h ta => h.vec1Writes ta rfl fun _ _ => rfl, fun h ta => h.vec1Writes ta rfl fun _ _ => rfl,
      fun h ta => h.vec1Writes ta rfl fun _ _ => rfl, fun h ta => h.vec1Writes ta rfl fun _ _ => rfl,
      fun h ta => h.vec1Writes ta rfl fun _ _ => rfl, fun h ta => h.vec1Writes ta rfl fun _ _ => rfl, ?_⟩
    have binary {k : Nat} {c : Instr} {op : Bool → Val → Val → Val}
        (run : exec c s = .next (s.issue k g w fun i _ s => s.vec2 i w op)) (h : s.Ready k g w i p) :=
      ReadsTa.faults h (h.vec2 run).readsTa
    have unary {k : Nat} {c : Instr} {op : Bool → Val → Val}
        (run : exec c s = .next (s.issue k g w fun i _ s => s.vec1 i w op)) (h : s.Ready k g w i p) :=
      ReadsTa.faults h (h.vec1 run).readsTa
    simp only [List.forall_mem_cons]
    exact ⟨binary rfl, binary rfl, binary rfl, binary rfl, binary rfl, fun h => ReadsTa.faults h (h.vec3 rfl).readsTa,
      fun h => ReadsTa.faults h (h.vecBits rfl).readsTa, fun h => ReadsTa.faults h (h.vecBits rfl).readsTa,
      fun h => ReadsTa.faults h (h.vecBits rfl).readsTa, fun h => ReadsTa.faults h (h.vecCompare rfl).readsTa,
      fun h => ReadsTa.faults h (h.vec3 rfl).readsTa, unary rfl, unary rfl, unary rfl, unary rfl, unary rfl, unary rfl, unary rfl,
      unary rfl, unary rfl, unary rfl, unary rfl, unary rfl, fun h => ReadsTa.faults h (h.vecRowRed rfl).readsTa,
      fun h => ReadsTa.faults h (h.vecColRed rfl).readsTa, fun h => ReadsTa.faults h (h.vecRowRed rfl).readsTa,
      fun h => ReadsTa.faults h (h.vecColRed rfl).readsTa,
      fun h => ReadsTa.faults h (h.vecRows h.vlnorm_run).readsTa, fun h => ReadsTa.faults h (h.vecRows h.vrmsn_run).readsTa,
      fun h => ReadsTa.faults h (h.vecRows h.vsmax_run).readsTa, fun h => ReadsTa.faults h (h.vecBcast rfl).readsTa, fun h => ReadsTa.faults h (h.vecConvert rfl).readsTa,
      fun h => ReadsTa.faults h (h.vecQuant_readsTa rfl), fun h => ReadsTa.faults h (h.vecDequant_readsTa rfl), by simp⟩

end Sys2Proof.Machine

namespace Sys2Proof.Machine

/-! ## Reductions and whole rows (O15) -/

theorem fmtCols_pos (f : Nat) : 0 < fmtCols f := by
  have width : fmtWidth f ≤ 32 := by unfold fmtWidth; split <;> decide
  have pos : 0 < fmtWidth f := by unfold fmtWidth; split <;> decide
  exact Nat.div_pos (width.trans (by decide)) pos

/-- +0 is all zeros in every format (R81, R88). -/
theorem encodeVal_zero (f : Nat) : encodeVal f (.zero false) = 0 := by
  simp [encodeVal]

theorem Cell.row0_eq (c : Cell) (fa t : Nat) :
    c.comp.row0 fa t = (List.range (fmtCols fa)).map fun e => toFp fa (c.val fa t 0 e) := by
  rw [Compute.row0, vals_eq _ _ _ _ le_rfl, List.map_map]
  rfl

section
variable {s : State} {g i p : Nat} {w : StepWord} {c : Instr} {k : Nat} (h : s.Ready k g w i p)
  (ta : (s.cell i).clean (taOf (s.cell i).cur w)) {f : Nat → Nat → Nat}
include h ta

theorem State.Ready.vecRowRedWrites {red : List Val → Val}
    (run : exec c s = .next (s.issue k g w fun i _ s => s.vecRowRed i w red))
    (elem : ∀ r, f r 0 = encodeVal (fmtbOf w)
      (red ((List.range (fmtCols (fmtaOf w))).map ((s.cell i).val (fmtaOf w) (taOf (s.cell i).cur w) r)))) :
    VectorWrites c s i (tdOf (s.cell i).cur w) (fmtbOf w) 1 f := by
  refine (h.vecRowRed run).writesRange h (clean_one ta) (fmtCols_pos _) fun r _ => ?_
  rw [vals_eq _ _ _ _ le_rfl, ← elem r]
  rfl

theorem State.Ready.vecColRedWrites {red : List Val → Val}
    (run : exec c s = .next (s.issue k g w fun i _ s => s.vecColRed i w red))
    (elem : ∀ r e, f r e = if r = 0 then encodeVal (fmtbOf w)
      (red ((List.range 64).map fun r => (s.cell i).val (fmtaOf w) (taOf (s.cell i).cur w) r e)) else 0) :
    VectorWrites c s i (tdOf (s.cell i).cur w) (fmtbOf w) (vecCols (fmtaOf w) (fmtbOf w)) f := by
  refine (h.vecColRed run).writes h (clean_one ta) fun r _ => ?_
  by_cases first : r = 0
  · subst first
    refine ⟨by simpa using vecCols_le_right _ _, fun e _ => ?_⟩
    rw [if_pos rfl, elem, if_pos rfl, List.getD_eq_getElem?_getD]
    by_cases he : e < vecCols (fmtaOf w) (fmtbOf w)
    · rw [List.getElem?_map, List.getElem?_range he, Option.map_some, Option.getD_some, if_pos he, List.map_map]
      refine congrArg (fun l => encodeVal _ (red l)) (List.map_congr_left fun r _ => ?_)
      rw [Function.comp_apply, vals_eq _ _ _ _ (vecCols_le_left ..), List.getD_eq_getElem?_getD, List.getElem?_map,
        List.getElem?_range he]
      rfl
    · rw [List.getElem?_eq_none (by simpa using he), if_neg he]
      rfl
  · refine ⟨by simp [first], fun e _ => ?_⟩
    simp [first, elem]

theorem State.Ready.vecRowsWrites {reads : List (Nat × Nat)} {F : Compute → List Val → List Val} {G : List Val → List Val}
    (clean : ∀ e ∈ reads, ∀ r < e.2, (s.cell i).comp.rowMarked e.1 r = false)
    (run : exec c s = .next ((s.putCell i (s.cell i).issued).vecRows i w reads F)) (rows : F (s.cell i).comp = G)
    (elem : ∀ r e, f r e = encodeVal (fmtbOf w) ((G (((List.range (fmtCols (fmtaOf w))).map
      ((s.cell i).val (fmtaOf w) (taOf (s.cell i).cur w) r)).map (toFp (fmtaOf w)))).getD e (.zero false))) :
    VectorWrites c s i (tdOf (s.cell i).cur w) (fmtbOf w) (vecCols (fmtaOf w) (fmtbOf w)) f := by
  subst rows
  refine (h.vecRows run).writes h (List.forall_mem_cons.2 ⟨ta, clean⟩) fun r _ => ⟨?_, fun e _ => ?_⟩
  · rw [List.length_map, List.length_take]
    exact (min_le_left _ _).trans (vecCols_le_right _ _)
  · rw [elem, vals_eq _ _ _ _ le_rfl, ← encodeVal_zero (fmtbOf w), List.getD_map]
    by_cases he : e < vecCols (fmtaOf w) (fmtbOf w)
    · rw [if_pos he, List.getD_eq_getElem?_getD, List.getElem?_take_of_lt he, ← List.getD_eq_getElem?_getD]
    · rw [if_neg he, List.getD_eq_default _ _ (by rw [List.length_take]; omega)]

theorem State.Ready.vecBcastWrites
    (tb : ∀ r < 64, flagOf w 0 = true ∨ r = 0 → (s.cell i).comp.rowMarked (tbOf (s.cell i).cur w) r = false)
    (run : exec c s = .next (s.issue k g w fun i _ s => s.vecBcast i w))
    (elem : ∀ r e, f r e = encodeVal (fmtbOf w) (bcastOp (modeOf w) (fmtIsInt (fmtaOf w))
      ((s.cell i).val (fmtaOf w) (taOf (s.cell i).cur w) r e)
      ((s.cell i).val (fmtaOf w) (tbOf (s.cell i).cur w) (if flagOf w 0 then r else 0) (if flagOf w 0 then 0 else e)))) :
    VectorWrites c s i (tdOf (s.cell i).cur w) (fmtbOf w) (vecCols (fmtaOf w) (fmtbOf w)) f := by
  refine (h.vecBcast run).writesRange h (List.forall_mem_cons.2 ⟨ta, ?_⟩) (vecCols_le_right ..) fun r _ => ?_
  · simp only [List.mem_singleton, forall_eq]
    intro r hr
    cases byCol : flagOf w 0 with
    | false => exact tb r (by simp [byCol] at hr; omega) (.inr (by simpa [byCol] using hr))
    | true => exact tb r (by simpa [byCol] using hr) (.inl byCol)
  · rw [vals_eq _ _ _ _ (vecCols_le_left ..)]
    cases byCol : flagOf w 0 with
    | false =>
      rw [if_neg Bool.false_ne_true, vals_eq _ _ _ _ (vecCols_le_left ..), List.zipWith_map, List.zipWith_self]
      refine List.map_congr_left fun e _ => ?_
      rw [elem, byCol]
      rfl
    | true =>
      have const {v : Val} {n : Nat} : List.replicate n v = (List.range n).map fun _ => v := by simp
      rw [if_pos rfl, vals_eq _ _ _ _ (fmtCols_pos _), const, List.zipWith_map, List.zipWith_self]
      refine List.map_congr_left fun e _ => ?_
      rw [elem, byCol]
      rfl
end

/-! ## Segments of a row (R44, R57) -/

/-- A row with the codes l put from column at_, as `Compute.putCols` leaves it. -/
def putRow (fb at_ : Nat) (l : List Nat) (x : Bytes × Bool) : Bytes × Bool :=
  if fmtCols fb ≤ l.length then (packRow fb l, false)
  else (packRow fb ((rowElems fb (fmtCols fb) x.1).take at_ ++ l ++ (rowElems fb (fmtCols fb) x.1).drop (at_ + l.length)), x.2)

theorem putRow_length (fb at_ : Nat) (l : List Nat) (x : Bytes × Bool) : (putRow fb at_ l x).1.length = 256 := by
  unfold putRow
  split <;> exact packRow_length ..

theorem putRow_marked (fb at_ : Nat) (l : List Nat) (x : Bytes × Bool) :
    (putRow fb at_ l x).2 = if fmtCols fb ≤ l.length then false else x.2 := by
  unfold putRow
  split <;> rfl

/-- The codes put, and the old elements at every other column. -/
theorem rowElems_putRow {fb at_ : Nat} {l : List Nat} (fits : at_ + l.length ≤ fmtCols fb) (x : Bytes × Bool) :
    rowElems fb (fmtCols fb) (putRow fb at_ l x).1 = (List.range (fmtCols fb)).map fun e =>
      if at_ ≤ e ∧ e < at_ + l.length then l.getD (e - at_) 0 % 2 ^ fmtWidth fb
      else (rowElems fb (fmtCols fb) x.1).getD e 0 := by
  have old := rowElems_length fb (fmtCols fb) x.1
  unfold putRow
  split
  next whole =>
    rw [rowElems_packRow_cols (by omega)]
    refine List.map_congr_left fun e he => ?_
    rw [List.mem_range] at he
    rw [if_pos (by omega), show e - at_ = e by omega]
  next part =>
    rw [rowElems_packRow_cols (by simp only [List.length_append, List.length_take, List.length_drop, old]; omega)]
    refine List.map_congr_left fun e he => ?_
    rw [List.mem_range] at he
    have taken : ((rowElems fb (fmtCols fb) x.1).take at_).length = at_ := by rw [List.length_take, old]; omega
    have small : (rowElems fb (fmtCols fb) x.1).getD e 0 % 2 ^ fmtWidth fb = (rowElems fb (fmtCols fb) x.1).getD e 0 :=
      Nat.mod_eq_of_lt (rowElems_getD_lt ..)
    rw [List.getD_eq_getElem?_getD, List.append_assoc]
    rcases Nat.lt_or_ge e at_ with before | from_
    · rw [List.getElem?_append_left (by omega), List.getElem?_take_of_lt before, if_neg (by omega), ← List.getD_eq_getElem?_getD,
        small]
    · rw [List.getElem?_append_right (by omega), taken]
      by_cases inside : e < at_ + l.length
      · rw [List.getElem?_append_left (by omega), if_pos ⟨from_, inside⟩, ← List.getD_eq_getElem?_getD]
      · rw [List.getElem?_append_right (by omega), List.getElem?_drop, if_neg (by omega), ← List.getD_eq_getElem?_getD,
          show at_ + l.length + (e - at_ - l.length) = e by omega, small]

theorem Compute.putCols_eq (c : Compute) (td fb r at_ : Nat) (l : List Nat) :
    c.putCols td fb r at_ l = c.setRow td r (putRow fb at_ l (c.rowOf td r)).2 (putRow fb at_ l (c.rowOf td r)).1 := by
  unfold Compute.putCols putRow
  dsimp only
  split <;> rfl

theorem Compute.rowOf_putCols (c : Compute) {td fb r at_ : Nat} {l : List Nat} {t' r' : Nat} (hr : r < 64) (hr' : r' < 64) :
    (c.putCols td fb r at_ l).rowOf t' r' = if t' = td ∧ r' = r then putRow fb at_ l (c.rowOf td r) else c.rowOf t' r' := by
  rw [Compute.putCols_eq, Compute.rowOf_setRow _ _ (putRow_length ..) hr hr']

/-- A fold none of whose steps changes an observation does not change it. -/
theorem observe_foldl_keep {α β σ : Type} {F : σ → β → σ} {obs : σ → α} (l : List β) (keep : ∀ y, ∀ j ∈ l, obs (F y j) = obs y)
    (c : σ) : obs (l.foldl F c) = obs c := by
  induction l generalizing c with
  | nil => rfl
  | cons j l ih => exact (ih (fun y j hj => keep y j (List.mem_cons_of_mem _ hj)) _).trans (keep c j List.mem_cons_self)

/-- A fold whose step j changes the j-th of some observations and no other changes each once. -/
theorem observe_foldl_range {α σ : Type} {F : σ → Nat → σ} {obs : σ → Nat → α} {P : Nat → α → α} {N : Nat}
    (one : ∀ y j j', j < N → j' < N → obs (F y j) j' = if j' = j then P j (obs y j) else obs y j')
    (c : σ) {n : Nat} (few : n ≤ N) {j' : Nat} (hj' : j' < N) :
    obs ((List.range n).foldl F c) j' = if j' < n then P j' (obs c j') else obs c j' := by
  induction n generalizing j' with
  | zero => simp
  | succ n ih =>
    rw [List.range_succ, List.foldl_append, List.foldl_cons, List.foldl_nil, one _ _ _ (by omega) hj', ih (by omega) hj',
      ih (by omega) (by omega)]
    by_cases last : j' = n
    · subst last
      simp
    · rw [if_neg last]
      refine if_congr ?_ rfl rfl
      omega

theorem Compute.putCols_rest (c : Compute) (td fb at_ : Nat) (L : Nat → List Nat) (rows : List Nat) :
    c.SameRest (rows.foldl (fun z r => z.putCols td fb r at_ (L r)) c) := by
  induction rows generalizing c with
  | nil => exact ⟨rfl, rfl, rfl⟩
  | cons r rows ih =>
    obtain ⟨stat, scales, topk⟩ := ih (c.putCols td fb r at_ (L r))
    have one : c.SameRest (c.putCols td fb r at_ (L r)) := by
      rw [Compute.putCols_eq]
      exact ⟨rfl, rfl, rfl⟩
    exact ⟨stat.trans one.1, scales.trans one.2.1, topk.trans one.2.2⟩

/-- A step that puts a segment of every row of TD (R44, R57). -/
theorem VecRun.puts {s : State} {k g i p : Nat} {w : StepWord} (h : s.Ready k g w i p) {c : Instr} {reads : List (Nat × Nat)}
    {dests : List Nat} {td fb at_ n : Nat} {L : Compute → Nat → List Nat}
    (run : VecRun c s i s.drawn reads dests fun y => (List.range 64).foldl (fun z r => z.putCols td fb r at_ (L y r)) y)
    (clean : ∀ e ∈ reads, ∀ r < e.2, (s.cell i).comp.rowMarked e.1 r = false) (fits : at_ + n ≤ fmtCols fb) {f : Nat → Nat → Nat}
    (elems : ∀ r, L (s.cell i).comp r = (List.range n).map (f r)) : VectorPuts c s i td fb at_ n f := by
  have len (r : Nat) : (L (s.cell i).comp r).length = n := by rw [elems, List.length_map, List.length_range]
  refine ⟨fun r => (putRow fb at_ (L (s.cell i).comp r) ((s.cell i).comp.rowOf td r)).1, fun r hr => ⟨putRow_length .., ?_⟩,
    .intro h.lt (run.done h clean) (Compute.putCols_rest ..) fun t r hr => ?_⟩
  · rw [rowElems_putRow (by rwa [len]), len]
    refine List.map_congr_left fun e _ => ?_
    split
    next inside =>
      rw [elems, List.getD_eq_getElem?_getD, List.getElem?_map, List.getElem?_range (by omega)]
      rfl
    next => rfl
  · by_cases here : t = td
    · subst here
      have row := observe_foldl_range (obs := fun y r => y.rowOf t r) (P := fun r => putRow fb at_ (L (s.cell i).comp r))
        (F := fun z r => z.putCols t fb r at_ (L (s.cell i).comp r)) (N := 64)
        (fun y r r' hr hr' => by simp only [Compute.rowOf_putCols y hr hr', true_and]) (s.cell i).comp le_rfl hr
      rw [if_pos hr] at row
      rw [row, if_pos rfl]
      refine Prod.ext rfl ?_
      rw [putRow_marked, len]
      rfl
    · rw [if_neg here]
      refine observe_foldl_keep (obs := fun y : Compute => y.rowOf t r) _ (fun y r' hr' => ?_) _
      rw [Compute.rowOf_putCols y (List.mem_range.1 hr') hr, if_neg fun both => here both.1]

/-! ## The segment that a conversion reads and writes (R57) -/

theorem segOf_eq (w : StepWord) :
    let ks := fmtCols (fmtaOf w)
    let kd := fmtCols (fmtbOf w)
    segOf w = (if kd < ks then min (imm16Of w) (ks / kd - 1) * kd else 0, if kd < ks then kd else ks,
      if kd < ks then 0 else min (imm16Of w) (kd / ks - 1) * ks) := by
  dsimp only [segOf, segment]
  split <;> rfl

theorem segment_in {q m k seg : Nat} (hk : 0 < k) (le : k ≤ m) (hq : q = m / k) : min seg (q - 1) * k + k ≤ m := by
  have pos : 0 < m / k := Nat.div_pos le hk
  calc min seg (q - 1) * k + k = (min seg (q - 1) + 1) * k := by rw [Nat.add_mul, Nat.one_mul]
    _ ≤ m / k * k := Nat.mul_le_mul_right _ (by omega)
    _ ≤ m := Nat.div_mul_le_self m k

/-- The segment lies in the row read and in the row written. -/
theorem segOf_fits (w : StepWord) : (segOf w).1 + (segOf w).2.1 ≤ fmtCols (fmtaOf w) ∧
    (segOf w).2.2 + (segOf w).2.1 ≤ fmtCols (fmtbOf w) := by
  have pa := fmtCols_pos (fmtaOf w)
  have pb := fmtCols_pos (fmtbOf w)
  rw [segOf_eq]
  by_cases narrow : fmtCols (fmtbOf w) < fmtCols (fmtaOf w)
  · simp only [if_pos narrow]
    exact ⟨segment_in pb narrow.le rfl, by omega⟩
  · simp only [if_neg narrow]
    exact ⟨by omega, segment_in pa (not_lt.1 narrow) rfl⟩

/-- Columns lo to lo + n - 1 of a row. -/
theorem take_drop_range {α : Type} {f : Nat → α} {m lo n : Nat} (fits : lo + n ≤ m) :
    (((List.range m).map f).drop lo).take n = (List.range n).map fun e => f (lo + e) := by
  refine List.ext_getElem (by simp; omega) fun e h h' => ?_
  simp

section
variable {s : State} {g i p : Nat} {w : StepWord} {c : Instr} {k : Nat} (h : s.Ready k g w i p)
  (ta : (s.cell i).clean (taOf (s.cell i).cur w))
include h ta

/-- A step that is VCVT (R89, R104). -/
theorem VecRun.converts (run : VecRun c s i s.drawn [(taOf (s.cell i).cur w, 64)] [tdOf (s.cell i).cur w]
    (Compute.converted (s.cell i).cur w)) :
    VectorPuts c s i (tdOf (s.cell i).cur w) (fmtbOf w) (segOf w).2.2 (segOf w).2.1 fun r e =>
      convert (fmtaOf w) (fmtbOf w) ((s.cell i).elem (fmtaOf w) (taOf (s.cell i).cur w) r ((segOf w).1 + e)) := by
  refine VecRun.puts h (L := fun y r => ((y.codes (fmtaOf w) (taOf (s.cell i).cur w) (fmtCols (fmtaOf w)) r).drop (segOf w).1
    |>.take (segOf w).2.1).map (convert (fmtaOf w) (fmtbOf w))) run (clean_one ta) (segOf_fits w).2 fun r => ?_
  rw [codes_eq _ _ _ _ le_rfl, take_drop_range (segOf_fits w).1, List.map_map]
  rfl

/-- VDQGRP with a named scale format (R105). -/
theorem State.Ready.dequantPuts {md : Nat} (tb : (s.cell i).clean (tbOf (s.cell i).cur w))
    (run : exec c s = .next (s.issue k g w fun i _ s => s.vecDequant i w)) (named : modeOf w = md) (md23 : md = 2 ∨ md = 3)
    {f : Nat → Nat → Nat} (elem : ∀ r e, f r e =
      encodeVal (fmtbOf w) ((decodeVal (fmtaOf w) ((s.cell i).elem (fmtaOf w) (taOf (s.cell i).cur w) r ((segOf w).1 + e))).mul
        (if md = 3 then e4m3Scale (byteAt ((s.cell i).comp.row (tbOf (s.cell i).cur w) r) (((segOf w).1 + e) / groupOf w))
        else e8m0 (byteAt ((s.cell i).comp.row (tbOf (s.cell i).cur w) r) (((segOf w).1 + e) / groupOf w))))) :
    VectorPuts c s i (tdOf (s.cell i).cur w) (fmtbOf w) (segOf w).2.2 (segOf w).2.1 f := by
  obtain ⟨md', n, ⟨-, mode⟩, drawn, dequant⟩ := h.vecDequant run
  obtain rfl : md' = md := (mode (by rwa [named])).trans named
  obtain rfl : n = s.drawn := drawn (by rwa [named])
  refine VecRun.puts h dequant (clean_two ta tb) (segOf_fits w).2 fun r => ?_
  have row {F : Nat → Nat → Nat} {f : Nat → Nat} {n : Nat} : ((List.range n).map f).mapIdx F = (List.range n).map fun e => F e (f e) :=
    List.ext_getElem (by simp) fun e _ _ => by simp
  rw [codes_eq _ _ _ _ le_rfl, row, take_drop_range (segOf_fits w).1]
  exact List.map_congr_left fun e _ => (elem r e).symm
end

end Sys2Proof.Machine

namespace Sys2Proof.Machine

/-! ## Groups of VQGRP (R57, R103) -/

/-- The elements of a segment of n columns from column a, in group gi of g columns. -/
def groupMembers (V : Nat → Val) (g a n gi : Nat) : List Val :=
  ((List.range n).filter fun e => (a + e) / g = gi).map V

/-- How many groups a segment meets. -/
def groupCount (g a n : Nat) : Nat := (a + n - 1) / g + 1 - a / g

section
variable {g a n : Nat} (hg : 0 < g)
include hg

/-- A group is a run of columns. -/
theorem filter_group (gi : Nat) : (List.range n).filter (fun e => (a + e) / g = gi) =
    List.Ico (gi * g - a) (min n ((gi + 1) * g - a)) := by
  have run (e : Nat) : decide ((a + e) / g = gi) = (decide (gi * g - a ≤ e) && decide (e < (gi + 1) * g - a)) := by
    rw [← Bool.decide_and, decide_eq_decide, Nat.div_eq_iff hg, Nat.add_mul, Nat.one_mul]
    omega
  simp only [run]
  rw [← List.filter_filter, ← List.Ico.zero_bot, List.Ico.filter_lt, List.Ico.filter_le, Nat.zero_max]

theorem groupMembers_length (V : Nat → Val) (gi : Nat) :
    (groupMembers V g a n gi).length = min n ((gi + 1) * g - a) - (gi * g - a) := by
  rw [groupMembers, List.length_map, filter_group hg, List.Ico.length]

/-- The pieces that VQGRP takes are the groups (R103). -/
theorem chunks_groups (hn : 0 < n) (V : Nat → Val) :
    (chunks g a n).map (fun e => (e.1 / g, (((List.range n).map V).drop (e.1 - a)).take e.2)) =
      (List.range (groupCount g a n)).map fun j => (a / g + j, groupMembers V g a n (a / g + j)) := by
  rw [chunks, if_neg hn.ne', List.map_map]
  refine List.map_congr_left fun j hj => ?_
  have some : (a / g + j) * g < a + n := by
    have : a / g + j ≤ (a + n - 1) / g := by
      have := List.mem_range.1 hj
      omega
    have := (Nat.le_div_iff_mul_le hg).1 this
    omega
  have width : (a / g + j + 1) * g = (a / g + j) * g + g := by rw [Nat.add_mul _ 1, Nat.one_mul]
  have reach : a < (a / g + j) * g + g :=
    calc a < g * (a / g + 1) := Nat.lt_mul_div_succ a hg
      _ ≤ g * (a / g + j + 1) := Nat.mul_le_mul_left _ (by omega)
      _ = _ := by rw [Nat.mul_comm, width]
  simp only [Function.comp_apply]
  refine Prod.ext ?_ ?_
  · show max a ((a / g + j) * g) / g = a / g + j
    rw [Nat.div_eq_iff hg]
    generalize (a / g + j) * g = X at *
    omega
  · rw [take_drop_range (by omega), groupMembers, filter_group hg, List.Ico, List.range'_eq_map_range, List.map_map,
      show (a / g + j) * g - a = max a ((a / g + j) * g) - a by omega,
      show min n ((a / g + j + 1) * g - a) - (max a ((a / g + j) * g) - a) =
        min (a + n) ((a / g + j + 1) * g) - max a ((a / g + j) * g) by omega]
    rfl

/-- The groups of a segment one after another: column a + e is in its group at its place (R103). -/
theorem flatMap_groups {α : Type} {B : Nat → List α} {q : Nat} (hq : q = a / g)
    (len : ∀ j, (B j).length = min n ((q + j + 1) * g - a) - ((q + j) * g - a)) (m : Nat) :
    ((List.range m).flatMap B).length = min n ((q + m) * g - a) ∧
      ∀ e < min n ((q + m) * g - a), ((List.range m).flatMap B)[e]? = (B ((a + e) / g - q))[min e ((a + e) % g)]? := by
  induction m with
  | zero =>
    have := Nat.div_mul_le_self a g
    have zero : q * g - a = 0 := by
      rw [hq]
      omega
    simp [zero]
  | succ m ih =>
    obtain ⟨total, at_⟩ := ih
    have step : (q + m + 1) * g = (q + m) * g + g := by rw [Nat.add_mul _ 1, Nat.one_mul]
    rw [List.range_succ, List.flatMap_append, List.flatMap_singleton, List.length_append, total, len, ← Nat.add_assoc q m 1, step]
    refine ⟨by omega, fun e he => ?_⟩
    by_cases before : e < min n ((q + m) * g - a)
    · rw [List.getElem?_append_left (by rwa [total]), at_ e before]
    · have gi : (a + e) / g = q + m := by
        rw [Nat.div_eq_iff hg]
        omega
      have place : (a + e) % g = a + e - (q + m) * g := by
        rw [Nat.mod_eq_sub_div_mul, gi]
      rw [List.getElem?_append_right (by rw [total]; omega), total, gi, place, Nat.add_sub_cancel_left]
      exact congrArg ((B m)[·]?) (by omega)
end

theorem quantGroup_length (mode fb : Nat) (l : List Val) : (quantGroup mode fb l).2.length = l.length := by
  unfold quantGroup
  split
  · rfl
  · dsimp only
    split
    · rfl
    · split
      · split <;> simp
      · simp

/-! ## Scale bytes (R50, R103) -/

/-- One byte of a row, unmarked. -/
def Compute.setByte (c : Compute) (t r x b : Nat) : Compute :=
  { c with tiles := c.tiles.write 256 (rowAddr t r + x) [(BitVec.ofNat 8 b, false)] }

section
variable (c : Compute) {t r x : Nat} (b : Nat) (hx : x < 256) {t' r' : Nat} (hr : r < 64) (hr' : r' < 64)
include hx hr hr'

/-- Other rows keep their bytes and marks. -/
theorem Compute.rowOf_setByte (other : ¬ (t' = t ∧ r' = r)) : (c.setByte t r x b).rowOf t' r' = c.rowOf t' r' := by
  have unit : (rowAddr t r + x) / 256 = rowUnit t r := by unfold rowAddr rowUnit; omega
  have apart : rowUnit t' r' ≠ rowUnit t r := fun same => other (rowUnit_inj hr' hr same)
  refine Prod.ext ?_ ?_
  · show (c.setByte t r x b).row t' r' = c.row t' r'
    rw [Compute.row_eq, Compute.row_eq]
    refine List.map_congr_left fun y hy => ?_
    rw [List.mem_range] at hy
    rw [Compute.setByte, Store.get_write, if_neg]
    simp only [List.length_singleton]
    unfold rowAddr rowUnit at *
    omega
  · show (c.tiles.write 256 _ _).isMarked _ = c.tiles.isMarked _
    rw [Store.isMarked_write _ _ _ _ _ (List.cons_ne_nil _ _), List.length_singleton, Nat.add_sub_cancel, unit, if_neg]
    omega

theorem Compute.byteAt_setByte {y : Nat} (hy : y < 256) : byteAt ((c.setByte t r x b).row t' r') y =
    if t' = t ∧ r' = r ∧ y = x then b % 256 else byteAt (c.row t' r') y := by
  rw [Compute.row_eq, Compute.row_eq]
  simp only [byteAt, List.getD_eq_getElem?_getD, List.getElem?_map, List.getElem?_range hy, Option.map_some, Option.getD_some]
  rw [Compute.setByte, Store.get_write, List.length_singleton, apply_ite BitVec.toNat]
  refine if_ctx_congr ?_ (fun same => ?_) fun _ => rfl
  · unfold rowAddr
    omega
  · have here : rowAddr t' r' + y - (rowAddr t r + x) = 0 := by
      obtain ⟨rfl, rfl, rfl⟩ := same
      omega
    rw [here]
    exact BitVec.toNat_ofNat ..
end

/-! ## One row of VQGRP (R57, R103) -/

section
variable (c : Cell) (x : Ctx) (w : StepWord) (md r : Nat)

/-- The value of column e of the segment read. -/
def segVal (e : Nat) : Val := c.val (fmtaOf w) (taOf x w) r ((segOf w).1 + e)

/-- Group gi of the segment, quantised: its scale byte and its elements. -/
def segGroup (gi : Nat) : Nat × List Val :=
  quantGroup md (fmtbOf w) (groupMembers (segVal c x w r) (groupOf w) (segOf w).2.2 (segOf w).2.1 gi)

/-- The groups that the segment meets, counted from the first. -/
def segGroups : Nat := groupCount (groupOf w) (segOf w).2.2 (segOf w).2.1

/-- The codes of the whole segment. -/
def segCodes : List Nat := (List.range (segGroups w)).flatMap fun j =>
  (segGroup c x w md r ((segOf w).2.2 / groupOf w + j)).2.map (encodeVal (fmtbOf w))

theorem groupOf_ge : 32 ≤ groupOf w := by
  unfold groupOf
  split <;> decide

theorem segOf_pos : 0 < (segOf w).2.1 := by
  rw [segOf_eq]
  dsimp only
  split <;> exact fmtCols_pos _

/-- Every group has its scale byte in the row. -/
theorem segGroups_lt {j : Nat} (hj : j < segGroups w) : (segOf w).2.2 / groupOf w + j < 256 := by
  have last : (segOf w).2.2 / groupOf w + j ≤ ((segOf w).2.2 + (segOf w).2.1 - 1) / groupOf w := by
    unfold segGroups groupCount at hj
    omega
  have := (segOf_fits w).2
  have := fmtCols_le (fmtbOf w)
  have : ((segOf w).2.2 + (segOf w).2.1 - 1) / groupOf w ≤ 2048 / 32 := Nat.div_le_div (by omega) (groupOf_ge w) (by decide)
  omega

/-- VQGRP on a row: the codes, then the scale byte of each group. -/
theorem quantRow_eq (z : Compute) :
    z.quantRow c.comp md (fmtaOf w) (fmtbOf w) (groupOf w) (tdOf x w) (taOf x w) (tbOf x w) (segOf w).1 (segOf w).2.1
      (segOf w).2.2 r =
    (List.range (segGroups w)).foldl (fun y j => y.setByte (tbOf x w) r ((segOf w).2.2 / groupOf w + j)
      (segGroup c x w md r ((segOf w).2.2 / groupOf w + j)).1)
      (z.putCols (tdOf x w) (fmtbOf w) r (segOf w).2.2 (segCodes c x w md r)) := by
  have values : (((c.comp.codes (fmtaOf w) (taOf x w) (fmtCols (fmtaOf w)) r).drop (segOf w).1).take (segOf w).2.1).map
      (decodeVal (fmtaOf w)) = (List.range (segOf w).2.1).map (segVal c x w r) := by
    rw [codes_eq _ _ _ _ le_rfl, take_drop_range (segOf_fits w).1, List.map_map]
    rfl
  have pieces := congrArg (List.map fun e => (e.1, quantGroup md (fmtbOf w) e.2))
    (chunks_groups (a := (segOf w).2.2) (Nat.lt_of_lt_of_le (by decide) (groupOf_ge w)) (segOf_pos w) (segVal c x w r))
  rw [List.map_map, List.map_map] at pieces
  have groups : (chunks (groupOf w) (segOf w).2.2 (segOf w).2.1).map (fun e => (e.1 / groupOf w, quantGroup md (fmtbOf w)
      ((((List.range (segOf w).2.1).map (segVal c x w r)).drop (e.1 - (segOf w).2.2)).take e.2))) =
      (List.range (segGroups w)).map fun j =>
        ((segOf w).2.2 / groupOf w + j, segGroup c x w md r ((segOf w).2.2 / groupOf w + j)) := pieces
  unfold Compute.quantRow
  simp only [values, List.length_map, List.length_range, groups, List.foldl_map, List.flatMap_map]
  rfl
end

end Sys2Proof.Machine

namespace Sys2Proof.Machine

/-! ## All rows of VQGRP, and O15 -/

section
variable (c : Cell) (x : Ctx) (w : StepWord) (md r : Nat)

/-- The codes of a segment: as many as it has columns, each of its group. -/
theorem segCodes_spec : (segCodes c x w md r).length = (segOf w).2.1 ∧ ∀ e < (segOf w).2.1, (segCodes c x w md r).getD e 0 =
    encodeVal (fmtbOf w) ((segGroup c x w md r (((segOf w).2.2 + e) / groupOf w)).2.getD
      (min e (((segOf w).2.2 + e) % groupOf w)) .nan) := by
  have hg : 0 < groupOf w := Nat.lt_of_lt_of_le (by decide) (groupOf_ge w)
  have pos := segOf_pos w
  obtain ⟨total, at_⟩ := flatMap_groups (n := (segOf w).2.1) hg rfl
    (B := fun j => (segGroup c x w md r ((segOf w).2.2 / groupOf w + j)).2.map (encodeVal (fmtbOf w)))
    (fun j => by rw [List.length_map, segGroup, quantGroup_length, groupMembers_length hg]) (segGroups w)
  have last : (segOf w).2.2 / groupOf w + segGroups w = ((segOf w).2.2 + (segOf w).2.1 - 1) / groupOf w + 1 := by
    have := Nat.div_le_div_right (c := groupOf w) (show (segOf w).2.2 ≤ (segOf w).2.2 + (segOf w).2.1 - 1 by omega)
    unfold segGroups groupCount
    omega
  have all : min (segOf w).2.1 (((segOf w).2.2 / groupOf w + segGroups w) * groupOf w - (segOf w).2.2) = (segOf w).2.1 := by
    have := Nat.lt_mul_div_succ ((segOf w).2.2 + (segOf w).2.1 - 1) hg
    rw [last, Nat.mul_comm]
    omega
  rw [all] at total at_
  refine ⟨total, fun e he => ?_⟩
  have here := at_ e he
  have first : (segOf w).2.2 / groupOf w ≤ ((segOf w).2.2 + e) / groupOf w := Nat.div_le_div_right (by omega)
  rw [List.getElem?_eq_getElem (by rwa [total]), List.getElem?_map, Nat.add_sub_cancel' first] at here
  obtain ⟨v, value, code⟩ := Option.map_eq_some_iff.1 here.symm
  rw [List.getD_eq_getElem?_getD, List.getD_eq_getElem?_getD, segCodes, List.getElem?_eq_getElem (by rwa [total]), value, ← code]
  rfl

variable (y : Compute)

/-- A row of a register other than TB after VQGRP on row r. -/
theorem Compute.rowOf_quantRow {t' r' : Nat} (hr : r < 64) (hr' : r' < 64) (other : ¬ (t' = tbOf x w ∧ r' = r)) :
    (y.quantRow c.comp md (fmtaOf w) (fmtbOf w) (groupOf w) (tdOf x w) (taOf x w) (tbOf x w) (segOf w).1 (segOf w).2.1
      (segOf w).2.2 r).rowOf t' r' =
    if t' = tdOf x w ∧ r' = r then putRow (fmtbOf w) (segOf w).2.2 (segCodes c x w md r) (y.rowOf (tdOf x w) r)
    else y.rowOf t' r' := by
  rw [quantRow_eq, ← Compute.rowOf_putCols y hr hr']
  exact observe_foldl_keep (obs := fun y : Compute => y.rowOf t' r') _
    (fun y j hj => y.rowOf_setByte _ (segGroups_lt w (List.mem_range.1 hj)) hr hr' other) _

/-- The scale byte of a group after VQGRP on row r. -/
theorem Compute.byteAt_quantRow {j r' : Nat} (apart : tdOf x w ≠ tbOf x w) (hr : r < 64) (hr' : r' < 64) (hj : j < segGroups w) :
    byteAt ((y.quantRow c.comp md (fmtaOf w) (fmtbOf w) (groupOf w) (tdOf x w) (taOf x w) (tbOf x w) (segOf w).1 (segOf w).2.1
      (segOf w).2.2 r).row (tbOf x w) r') ((segOf w).2.2 / groupOf w + j) =
    if r' = r then (segGroup c x w md r ((segOf w).2.2 / groupOf w + j)).1 % 256
    else byteAt (y.row (tbOf x w) r') ((segOf w).2.2 / groupOf w + j) := by
  rw [quantRow_eq]
  have put : (y.putCols (tdOf x w) (fmtbOf w) r (segOf w).2.2 (segCodes c x w md r)).row (tbOf x w) r' = y.row (tbOf x w) r' := by
    have row := y.rowOf_putCols (fb := fmtbOf w) (at_ := (segOf w).2.2) (l := segCodes c x w md r) (td := tdOf x w)
      (t' := tbOf x w) hr hr'
    rw [if_neg fun both => apart both.1.symm] at row
    exact congrArg Prod.fst row
  have byte := observe_foldl_range (N := segGroups w)
    (F := fun y j => y.setByte (tbOf x w) r ((segOf w).2.2 / groupOf w + j)
      (segGroup c x w md r ((segOf w).2.2 / groupOf w + j)).1)
    (obs := fun y j => byteAt (y.row (tbOf x w) r') ((segOf w).2.2 / groupOf w + j))
    (P := fun j b => if r' = r then (segGroup c x w md r ((segOf w).2.2 / groupOf w + j)).1 % 256 else b)
    (fun y j j' hj hj' => by
      rw [Compute.byteAt_setByte _ _ (segGroups_lt w hj) hr hr' (segGroups_lt w hj')]
      by_cases same : j' = j
      · subst same; simp
      · simp [same])
    (y.putCols (tdOf x w) (fmtbOf w) r (segOf w).2.2 (segCodes c x w md r)) le_rfl hj
  rw [if_pos hj, put] at byte
  exact byte
end

section
variable (c : Cell) (w : StepWord) (md : Nat)

/-- Registers other than TD and TB keep their rows. -/
theorem Compute.quantized_other {k r : Nat} (hr : r < 64) (td : k ≠ tdOf c.cur w) (tb : k ≠ tbOf c.cur w) :
    (Compute.quantized c.cur w md c.comp).rowOf k r = c.comp.rowOf k r :=
  observe_foldl_keep (obs := fun y : Compute => y.rowOf k r) _ (fun y r' hr' => by
    rw [Compute.rowOf_quantRow c c.cur w md r' y (List.mem_range.1 hr') hr fun both => tb both.1,
      if_neg fun both => td both.1]) _

variable (apart : tdOf c.cur w ≠ tbOf c.cur w)
include apart

theorem Compute.quantized_td {r : Nat} (hr : r < 64) : (Compute.quantized c.cur w md c.comp).rowOf (tdOf c.cur w) r =
    putRow (fmtbOf w) (segOf w).2.2 (segCodes c c.cur w md r) (c.comp.rowOf (tdOf c.cur w) r) := by
  have row := observe_foldl_range (N := 64) (obs := fun y r => y.rowOf (tdOf c.cur w) r)
    (F := fun z r => z.quantRow c.comp md (fmtaOf w) (fmtbOf w) (groupOf w) (tdOf c.cur w) (taOf c.cur w) (tbOf c.cur w)
      (segOf w).1 (segOf w).2.1 (segOf w).2.2 r)
    (P := fun r => putRow (fmtbOf w) (segOf w).2.2 (segCodes c c.cur w md r))
    (fun y r r' hr hr' => by
      simp only [Compute.rowOf_quantRow c c.cur w md r y hr hr' fun both => apart both.1, true_and]) c.comp le_rfl hr
  rwa [if_pos hr] at row

theorem Compute.quantized_scale {r j : Nat} (hr : r < 64) (hj : j < segGroups w) :
    byteAt ((Compute.quantized c.cur w md c.comp).row (tbOf c.cur w) r) ((segOf w).2.2 / groupOf w + j) =
      (segGroup c c.cur w md r ((segOf w).2.2 / groupOf w + j)).1 % 256 := by
  have byte := observe_foldl_range (N := 64) (obs := fun y r => byteAt (y.row (tbOf c.cur w) r) ((segOf w).2.2 / groupOf w + j))
    (F := fun z r => z.quantRow c.comp md (fmtaOf w) (fmtbOf w) (groupOf w) (tdOf c.cur w) (taOf c.cur w) (tbOf c.cur w)
      (segOf w).1 (segOf w).2.1 (segOf w).2.2 r)
    (P := fun r _ => (segGroup c c.cur w md r ((segOf w).2.2 / groupOf w + j)).1 % 256)
    (fun y r r' hr hr' => Compute.byteAt_quantRow c c.cur w md r y apart hr hr' hj) c.comp le_rfl hr
  rwa [if_pos hr] at byte
end

/-- What a step that changes the compute registers alone leaves alone (R44). -/
theorem Compute.quantized_rest (c : Cell) (w : StepWord) (md : Nat) :
    (Compute.quantized c.cur w md c.comp).stat = c.comp.stat ∧ (Compute.quantized c.cur w md c.comp).topk = c.comp.topk := by
  have one {α : Type} (obs : Compute → α) (byte : ∀ y t r x b, obs (Compute.setByte y t r x b) = obs y)
      (row : ∀ y t r m b, obs (Compute.setRow y t r m b) = obs y) (y : Compute) (r : Nat) :
      obs (y.quantRow c.comp md (fmtaOf w) (fmtbOf w) (groupOf w) (tdOf c.cur w) (taOf c.cur w) (tbOf c.cur w) (segOf w).1
        (segOf w).2.1 (segOf w).2.2 r) = obs y := by
    rw [quantRow_eq, observe_foldl_keep (obs := obs) _ (fun y j _ => byte y _ _ _ _), Compute.putCols_eq, row]
  exact ⟨observe_foldl_keep (obs := Compute.stat) _ (fun y r _ => one _ (fun _ _ _ _ _ => rfl) (fun _ _ _ _ _ => rfl) y r) _,
    observe_foldl_keep (obs := Compute.topk) _ (fun y r _ => one _ (fun _ _ _ _ _ => rfl) (fun _ _ _ _ _ => rfl) y r) _⟩

/-- Elements of a row in which a segment has been put. -/
theorem elem_putRow {c d : Cell} {fb td r at_ : Nat} {l : List Nat} (row : d.comp.rowOf td r = putRow fb at_ l (c.comp.rowOf td r))
    (fits : at_ + l.length ≤ fmtCols fb) {e : Nat} (he : e < fmtCols fb) : d.elem fb td r e =
      if at_ ≤ e ∧ e < at_ + l.length then l.getD (e - at_) 0 % 2 ^ fmtWidth fb else c.elem fb td r e := by
  rw [Cell.elem, show d.comp.row td r = (putRow fb at_ l (c.comp.rowOf td r)).1 from congrArg Prod.fst row, rowElems_putRow fits, List.getD_eq_getElem?_getD, List.getElem?_map,
    List.getElem?_range he]
  rfl

/-- The command leaves the cell RUNNING and has changed no tile register but TD. -/
def ChangesTd (c : Instr) (s : State) (i td : Nat) : Prop :=
  ∃ t, exec c s = .next t ∧ (t.cell i).st = 1 ∧ ∀ k r, r < 64 → k ≠ td → (t.cell i).comp.rowOf k r = (s.cell i).comp.rowOf k r

section
variable {s : State} {g i p : Nat} {w : StepWord} {c : Instr} {k : Nat} (h : s.Ready k g w i p)
include h

theorem VecRun.changesTd {n : Nat} {reads : List (Nat × Nat)} {dests : List Nat} {f : Compute → Compute}
    (run : VecRun c s i n reads dests f) (clean : ∀ e ∈ reads, ∀ r < e.2, (s.cell i).comp.rowMarked e.1 r = false) {td : Nat}
    (rows : ∀ k r, r < 64 → k ≠ td → (f (s.cell i).comp).rowOf k r = (s.cell i).comp.rowOf k r) : ChangesTd c s i td := by
  refine ⟨_, run.done h clean, ?_⟩
  have ⟨_, _, st, _⟩ := h
  rw [State.cell_putCell_self { s with drawn := n } _ h.lt]
  exact ⟨(Cell.issued_st _).trans st, rows⟩

theorem State.Ready.quantChangesTd (ta : (s.cell i).clean (taOf (s.cell i).cur w))
    (run : exec c s = .next (s.issue k g w fun i _ s => s.vecQuant i w)) (same : tdOf (s.cell i).cur w = tbOf (s.cell i).cur w) :
    ChangesTd c s i (tdOf (s.cell i).cur w) := by
  have quant := h.vecQuant run
  split at quant
  · exact quant.changesTd h (clean_one ta) fun k r hr td => observe_foldl_keep (obs := fun y : Compute => y.rowOf k r) _
      (fun y r' hr' => by rw [Compute.rowOf_putCols y (List.mem_range.1 hr') hr, if_neg fun both => td both.1]) _
  · obtain ⟨md, n, -, quant⟩ := quant
    exact quant.changesTd h (clean_one ta) fun k r hr td => Compute.quantized_other _ _ _ hr td (same ▸ td)

theorem State.Ready.dequantChangesTd (ta : (s.cell i).clean (taOf (s.cell i).cur w))
    (tb : (s.cell i).clean (tbOf (s.cell i).cur w)) (run : exec c s = .next (s.issue k g w fun i _ s => s.vecDequant i w)) :
    ChangesTd c s i (tdOf (s.cell i).cur w) := by
  obtain ⟨md, n, -, -, dequant⟩ := h.vecDequant run
  exact dequant.changesTd h (clean_two ta tb) fun k r hr td => observe_foldl_keep (obs := fun y : Compute => y.rowOf k r) _
    (fun y r' hr' => by rw [Compute.rowOf_putCols y (List.mem_range.1 hr') hr, if_neg fun both => td both.1]) _

/-- VQGRP to a float format of less than 32 bits: elements and scale bytes (R57, R103, R104). -/
theorem State.Ready.quantizes (ta : (s.cell i).clean (taOf (s.cell i).cur w))
    (run : exec c s = .next (s.issue k g w fun i _ s => s.vecQuant i w)) (float : ¬ (fmtbOf w = 0 ∨ fmtIsInt (fmtbOf w) = true))
    (apart : tdOf (s.cell i).cur w ≠ tbOf (s.cell i).cur w) :
    let x := (s.cell i).cur
    ∃ t md, exec c s = .next t ∧ (md = 2 ∨ md = 3) ∧ (modeOf w = 2 ∨ modeOf w = 3 → md = modeOf w) ∧
      (∀ r < 64, ∀ e < (segOf w).2.1, (t.cell i).elem (fmtbOf w) (tdOf x w) r ((segOf w).2.2 + e) =
        encodeVal (fmtbOf w) ((segGroup (s.cell i) x w md r (((segOf w).2.2 + e) / groupOf w)).2.getD
          (min e (((segOf w).2.2 + e) % groupOf w)) .nan) % 2 ^ fmtWidth (fmtbOf w)) ∧
      (∀ r < 64, ∀ e < fmtCols (fmtbOf w), ¬ ((segOf w).2.2 ≤ e ∧ e < (segOf w).2.2 + (segOf w).2.1) →
        (t.cell i).elem (fmtbOf w) (tdOf x w) r e = (s.cell i).elem (fmtbOf w) (tdOf x w) r e) ∧
      (∀ r < 64, ∀ e < (segOf w).2.1, ((segOf w).2.2 + e) / groupOf w < 256 →
        byteAt ((t.cell i).comp.row (tbOf x w) r) (((segOf w).2.2 + e) / groupOf w) =
          (segGroup (s.cell i) x w md r (((segOf w).2.2 + e) / groupOf w)).1 % 256) ∧
      (∀ k r, r < 64 → k ≠ tdOf x w → k ≠ tbOf x w → (t.cell i).comp.rowOf k r = (s.cell i).comp.rowOf k r) ∧
      (t.cell i).comp.stat = (s.cell i).comp.stat ∧ (t.cell i).comp.topk = (s.cell i).comp.topk ∧ t.mem = s.mem := by
  intro x
  have quant := h.vecQuant run
  rw [if_neg float] at quant
  obtain ⟨md, n, ⟨md23, mode⟩, quant⟩ := quant
  obtain ⟨t, next, comp, mem⟩ : ∃ t, exec c s = .next t ∧ (t.cell i).comp = Compute.quantized x w md (s.cell i).comp ∧
      t.mem = s.mem := by
    refine ⟨_, quant.done h (clean_one ta), ?_, rfl⟩
    rw [State.cell_putCell_self { s with drawn := n } _ h.lt]
  have elem {r e : Nat} (hr : r < 64) (he : e < fmtCols (fmtbOf w)) := elem_putRow (c := s.cell i) (d := t.cell i)
    (comp ▸ Compute.quantized_td (s.cell i) w md apart hr)
    (by rw [(segCodes_spec (s.cell i) x w md r).1]; exact (segOf_fits w).2) he
  obtain ⟨stat, topk⟩ := Compute.quantized_rest (s.cell i) w md
  refine ⟨t, md, next, md23, mode, fun r hr e he => ?_, fun r hr e he out => ?_, fun r hr e he _ => ?_,
    fun k r hr td tb => ?_, comp ▸ stat, comp ▸ topk, mem⟩
  · have := (segOf_fits w).2
    rw [elem hr (by omega), (segCodes_spec (s.cell i) x w md r).1, if_pos (by omega), Nat.add_sub_cancel_left,
      (segCodes_spec (s.cell i) x w md r).2 e he]
  · rw [elem hr he, (segCodes_spec (s.cell i) x w md r).1, if_neg out]
  · have first : (segOf w).2.2 / groupOf w ≤ ((segOf w).2.2 + e) / groupOf w := Nat.div_le_div_right (by omega)
    have last : ((segOf w).2.2 + e) / groupOf w ≤ ((segOf w).2.2 + (segOf w).2.1 - 1) / groupOf w := Nat.div_le_div_right (by omega)
    have scale := Compute.quantized_scale (s.cell i) w md apart hr
      (j := ((segOf w).2.2 + e) / groupOf w - (segOf w).2.2 / groupOf w) (by unfold segGroups groupCount; omega)
    rw [Nat.add_sub_cancel' first] at scale
    exact comp ▸ scale
  · rw [comp]
    exact Compute.quantized_other _ _ _ hr td tb
end

/-- Settles O15: reductions and whole rows write TD as the elementwise steps do; conversions put one segment of every row, and
VQGRP puts its groups one after another. -/
theorem vectorRows : Obligations.VectorRows := by
  unfold Obligations.VectorRows
  refine ⟨fun s g i p w => ⟨?_, ?_, ?_, ?_, ?_, ?_, ?_, ?_⟩, ?_⟩
  · exact fun h ta => h.vecRowRedWrites ta rfl fun _ => rfl
  · exact fun h ta => h.vecRowRedWrites ta rfl fun _ => rfl
  · exact fun h ta => h.vecColRedWrites ta rfl fun _ _ => rfl
  · exact fun h ta => h.vecColRedWrites ta rfl fun _ _ => rfl
  · exact fun tb tc h ta => h.vecRowsWrites ta (by simpa using ⟨tb, tc⟩) h.vlnorm_run rfl fun r e => by
      rw [decodeVal_fp32_mod, Cell.row0_eq, Cell.row0_eq]
      rfl
  · exact fun tb h ta => h.vecRowsWrites ta (by simpa using tb) h.vrmsn_run rfl fun r e => by
      rw [decodeVal_fp32_mod, Cell.row0_eq]
      rfl
  · exact fun h ta => h.vecRowsWrites ta (by simp) h.vsmax_run rfl fun _ _ => rfl
  · exact fun tb h ta => h.vecBcastWrites ta tb rfl fun _ _ => rfl
  · intro s g i p w c x fa fb td tb ks kd lo n at_ code conv members scale
    obtain ⟨hlo, hn, hat⟩ : (segOf w).1 = lo ∧ (segOf w).2.1 = n ∧ (segOf w).2.2 = at_ := by
      rw [segOf_eq]
      exact ⟨rfl, rfl, rfl⟩
    clear_value lo n at_
    subst hlo hn hat
    refine ⟨fun h ta => (h.vecConvert rfl).converts h ta, fun h ta free => ?_, fun h ta zero int apart =>
      h.quantizes ta rfl (fun either => either.elim zero fun yes => Bool.false_ne_true (int.symm.trans yes)) apart,
      fun h ta same => h.quantChangesTd ta rfl same,
      fun h ta tb mode => h.dequantPuts (md := 2) ta tb rfl mode (.inl rfl) fun _ _ => rfl,
      fun h ta tb mode => h.dequantPuts (md := 3) ta tb rfl mode (.inr rfl) fun _ _ => rfl,
      fun h ta tb => h.dequantChangesTd ta tb rfl⟩
    have quant := h.vecQuant (c := .vqgrp g w) rfl
    rw [if_pos free] at quant
    exact quant.converts h ta

end Sys2Proof.Machine

namespace Sys2Proof.Machine

/-! ## Address words (R73) -/

theorem addr57_lt (n : Nat) : addr57 n < 2 ^ 57 := Nat.mod_lt _ (by decide)

section
variable (w : StepWord) (base off : Nat)

theorem addrWord_testBit : (addrWord w base off).testBit 63 = localOf w := by
  have small := addr57_lt ((base + off) % 2 ^ 64)
  rw [addrWord, Nat.testBit_eq_decide_div_mod_eq]
  cases localOf w
  · simp only [Bool.false_eq_true, if_false, Nat.add_zero, decide_eq_false_iff_not]
    omega
  · simp only [if_true, decide_eq_true_eq]
    omega

theorem addr57_addrWord : addr57 (addrWord w base off) = addr57 ((base + off) % 2 ^ 64) := by
  have small := addr57_lt ((base + off) % 2 ^ 64)
  unfold addrWord
  generalize addr57 ((base + off) % 2 ^ 64) = v at small
  unfold addr57
  split <;> omega

variable (p n : Nat) (s : State) {w base off n} (loc : localOf w = true)
include loc

/-- A LOCAL access within the scratchpad is mapped and may be written (R73, R242). -/
theorem State.wordUnmapped_local (fits : addr57 ((base + off) % 2 ^ 64) + n ≤ 0x400000) :
    s.wordUnmapped p (addrWord w base off) n = none := by
  rw [State.wordUnmapped, addrWord_testBit, loc, if_pos rfl, addr57_addrWord]
  exact if_pos fits

theorem State.wordRefused_local (fits : addr57 ((base + off) % 2 ^ 64) + n ≤ 0x400000) :
    s.wordRefused p (addrWord w base off) n = none := by
  rw [State.wordRefused, addrWord_testBit, loc, if_pos rfl, State.wordUnmapped_local _ _ loc fits]

theorem State.cellRead_local (i : Nat) : s.cellRead i p (addrWord w base off) n =
    ((s.cell i).scratch.read 64 (addr57 ((base + off) % 2 ^ 64)) n, s) := by
  rw [State.cellRead, State.wordRead, addrWord_testBit, loc, if_pos rfl, addr57_addrWord]
end

/-! ## Writes of the own scratchpad (R73, R242) -/

section
variable {s : State} {i : Nat} (hi : i < s.cells.length) (p : Nat)
include hi

theorem State.cellWrite_local (c : Cell) {word : Nat} (loc : word.testBit 63 = true) (d : Data) :
    (s.putCell i c).cellWrite i p word d =
      s.putCell i { c with scratch := c.scratch.write 64 (addr57 word) d, written := (c.written ++ []).dedup } := by
  simp only [State.cellWrite, State.wordWrite, State.scratchWrite, loc, if_true, State.modCell_putCell hi]

/-- Several writes, one after another. -/
theorem State.cellWrites_local {α : Type} (W : α → Nat) (D : α → Data) (l : List α) (c : Cell)
    (loc : ∀ e ∈ l, (W e).testBit 63 = true) : ∃ written,
      l.foldl (fun u e => u.cellWrite i p (W e) (D e)) (s.putCell i c) = s.putCell i { c with
        scratch := l.foldl (fun m e => m.write 64 (addr57 (W e)) (D e)) c.scratch, written := written } := by
  induction l generalizing c with
  | nil => exact ⟨_, rfl⟩
  | cons e l ih =>
    rw [List.foldl_cons, List.foldl_cons, State.cellWrite_local hi p c (loc e List.mem_cons_self)]
    exact ih _ fun e he => loc e (List.mem_cons_of_mem _ he)
end

section
variable {α : Type} (A : α → Nat) (D : α → Data) (m : Store)

/-- A byte that none of several writes meets. -/
theorem Store.get_writes_none (l : List α) {x : Nat} (out : ∀ e ∈ l, ¬ (A e ≤ x ∧ x < A e + (D e).length)) :
    (l.foldl (fun m e => m.write 64 (A e) (D e)) m).get x = m.get x :=
  observe_foldl_keep (obs := fun m : Store => m.get x) l
    (fun m e he => by rw [Store.get_write, if_neg (out e he)]) m

/-- A byte that the j-th of several writes meets, and no later one. -/
theorem Store.get_writes_last (l : List α) {j : Nat} (hj : j < l.length) {x : Nat} (here : A l[j] ≤ x ∧ x < A l[j] + (D l[j]).length)
    (later : ∀ j' (h : j' < l.length), j < j' → ¬ (A l[j'] ≤ x ∧ x < A l[j'] + (D l[j']).length)) :
    (l.foldl (fun m e => m.write 64 (A e) (D e)) m).get x = (D l[j]).bytes.getD (x - A l[j]) 0 := by
  have parts : l = l.take j ++ (l[j] :: l.drop (j + 1)) := by simp
  conv_lhs => rw [parts]
  rw [List.foldl_append, List.foldl_cons, Store.get_writes_none, Store.get_write, if_pos here]
  intro e he
  obtain ⟨k, hk, rfl⟩ := List.mem_iff_getElem.1 he
  rw [List.getElem_drop]
  rw [List.length_drop] at hk
  exact later _ (by omega) (by omega)
end

end Sys2Proof.Machine

namespace Sys2Proof.Machine

/-! ## Loads and stores of the own scratchpad (O8) -/

/-- Eight aligned bytes carry the mark of their granule (R215). -/
theorem Store.read_aligned_marked (st : Store) {a : Nat} (aligned : a % 8 = 0) : (st.read 64 a 8).marked = st.isMarked (a / 64) := by
  have unit : ∀ e ∈ List.range 8, st.isMarked ((a + e) / 64) = st.isMarked (a / 64) := fun e he => by
    rw [List.mem_range] at he
    exact congrArg _ (by omega)
  rw [Store.read_eq, Data.marked, List.any_map, Bool.eq_iff_iff, List.any_eq_true]
  constructor
  · rintro ⟨e, he, marked⟩
    exact (unit e he).symm.trans marked
  · exact fun marked => ⟨0, by decide, (unit 0 (by decide)).trans marked⟩

/-- Row r of a tile load from the own scratchpad: n bytes, zeros beyond them, and their mark (R215, R264). -/
def scratchRow (c : Cell) (w : StepWord) (n : Nat) (off : Nat → Nat) (r : Nat) : Bytes × Bool :=
  let d := c.scratch.read 64 (addr57 ((c.cur.sa w + (imm32Of w + off r)) % 2 ^ 64)) n
  (d.bytes ++ zeros (256 - n), d.marked)

theorem scratchRow_length (c : Cell) (w : StepWord) {n : Nat} (off : Nat → Nat) (r : Nat) (wide : n ≤ 256) :
    (scratchRow c w n off r).1.length = 256 := by
  simp only [scratchRow, Data.bytes, List.length_append, List.length_map, Store.read_length, zeros_length]
  omega

/-- One row of a tile load, as `State.tileLoad` does it. -/
def State.loadRow (s : State) (i p td n : Nat) (row : Nat → Nat) (r : Nat) : State :=
  let (d, s) := s.cellRead i p (row r) n
  s.modComp i fun c => c.setRow td r d.marked (d.bytes ++ zeros (256 - n))

section
variable {s : State} {k g i p : Nat} {w : StepWord} (h : s.Ready k g w i p) {c : Instr} (loc : localOf w = true)
include h loc

/-- SLD of an unmarked granule (R69, R73). -/
theorem State.Ready.sldLocal (run : exec c s = .next (s.issue k g w fun i p s => s.scalarLoad i p w)) :
    let a := addr57 (((s.cell i).cur.sa w + imm32Of w) % 2 ^ 64)
    a % 8 = 0 → a + 8 ≤ 0x400000 → (s.cell i).scratch.isMarked (a / 64) = false →
    exec c s = .next (s.putCell i ((s.cell i).issued.withScalar (sdOf w)
      (BitVec.ofNat 64 (leNat ((s.cell i).scratch.read 64 a 8).bytes)))) := by
  intro a aligned fits clean
  have marked : ((s.cell i).scratch.read 64 a 8).marked = false := (Store.read_aligned_marked _ aligned).trans clean
  have own : (s.putCell i (s.cell i).issued).ownScratch i p (addrWord w ((s.cell i).cur.sa w) (imm32Of w)) = true := by
    rw [State.ownScratch, addrWord_testBit, loc, Bool.true_or]
  rw [run, h.issue, State.scalarLoad]
  simp only [State.cell_putCell_self _ _ h.lt, Ctx.addrAt, Ctx.sa_issued, Nat.add_zero, addr57_addrWord,
    State.wordUnmapped_local p _ loc fits, own, State.cellRead_local p _ loc, Cell.issued_scratch]
  rw [if_neg (not_not.2 aligned), if_pos trivial, if_neg (Bool.eq_false_iff.1 marked), State.setSd_putCell _ _ _ h.lt]

/-- SST (R69, R73). -/
theorem State.Ready.sstLocal (run : exec c s = .next (s.issue k g w fun i p s => s.scalarStore i p w)) :
    let b := addr57 (((s.cell i).cur.sb w + imm32Of w) % 2 ^ 64)
    b % 8 = 0 → b + 8 ≤ 0x400000 → ∃ written, exec c s = .next (s.putCell i { (s.cell i).issued with
      scratch := (s.cell i).scratch.write 64 b (Data.clean (leBytes 8 ((s.cell i).cur.sa w))), written := written }) := by
  intro b aligned fits
  refine ⟨((s.cell i).issued.written ++ []).dedup, run.trans ?_⟩
  have word := (addrWord_testBit w ((s.cell i).cur.sb w) (imm32Of w)).trans loc
  rw [h.issue, State.scalarStore]
  simp only [State.cell_putCell_self _ _ h.lt, Ctx.sa_issued, Ctx.sb_issued, addr57_addrWord, State.wordRefused_local p _ loc fits,
    State.cellWrite_local h.lt p _ word, word, Cell.issued_scratch]
  rw [if_neg (not_not.2 aligned), if_pos trivial]

/-- TLD and TLDS: each row of TD takes the bytes and the mark of its own (R69, R264). -/
theorem State.Ready.loadsLocal {rows n : Nat} {off : Nat → Nat} (few : rows ≤ 64) (wide : n ≤ 256)
    (run : exec c s = .next ((s.putCell i (s.cell i).issued).tileLoad i p w rows n fun r => (s.cell i).cur.addrAt w (off r)))
    (fits : ∀ r < rows, let y := addr57 (((s.cell i).cur.sa w + (imm32Of w + off r)) % 2 ^ 64); y % 16 = 0 ∧ y + n ≤ 0x400000) :
    TilesBecome c s i fun k r => if k = tdOf (s.cell i).cur w ∧ r < rows then scratchRow (s.cell i) w n off r
      else (s.cell i).comp.rowOf k r := by
  have aligned : (List.range rows).find? (fun r => addr57 ((s.cell i).cur.addrAt w (off r)) % 16 != 0) = none := by
    simpa [List.find?_eq_none, Ctx.addrAt, addr57_addrWord] using fun r hr => (fits r hr).1
  have mapped : ((List.range rows).filterMap fun r => ((s.putCell i (s.cell i).issued).wordUnmapped p
      ((s.cell i).cur.addrAt w (off r)) n).map fun a => (r, a)) = [] := by
    rw [List.filterMap_eq_nil_iff]
    intro r hr
    rw [Ctx.addrAt, State.wordUnmapped_local p _ loc (fits r (List.mem_range.1 hr)).2]
    rfl
  have load (y : Compute) (r : Nat) : (s.putCell i { (s.cell i).issued with comp := y }).loadRow i p (tdOf (s.cell i).cur w) n
      (fun r => (s.cell i).cur.addrAt w (off r)) r = s.putCell i { (s.cell i).issued with
        comp := y.setRow (tdOf (s.cell i).cur w) r (scratchRow (s.cell i) w n off r).2 (scratchRow (s.cell i) w n off r).1 } := by
    simp only [State.loadRow, Ctx.addrAt, State.cellRead_local p _ loc, State.cell_putCell_self _ _ h.lt, Cell.issued_scratch,
      State.modComp_putCell _ _ _ h.lt]
    rfl
  have fold := List.foldl_hom (fun y => s.putCell i { (s.cell i).issued with comp := y }) 
    (g₁ := fun y r => y.setRow (tdOf (s.cell i).cur w) r (scratchRow (s.cell i) w n off r).2 (scratchRow (s.cell i) w n off r).1)
    (g₂ := fun u r => u.loadRow i p (tdOf (s.cell i).cur w) n (fun r => (s.cell i).cur.addrAt w (off r)) r)
    (l := List.range rows) (init := (s.cell i).issued.comp) fun y r => (load y r)
  have rowsOf (k r : Nat) (hr : r < 64) := Compute.rowOf_foldl (List.range rows) (s.cell i).comp (tdOf (s.cell i).cur w)
    (scratchRow (s.cell i) w n off) (fun r hr => (List.mem_range.1 hr).trans_le few)
    (fun r => scratchRow_length _ _ _ _ wide) k r hr
  simp only [List.mem_range] at rowsOf
  refine .intro h.lt (run.trans ?_) (Compute.foldl_stat ..) rowsOf
  rw [State.tileLoad]
  simp only [State.cell_putCell_self _ _ h.lt, tdOf_issued, aligned, mapped]
  rw [← Cell.issued_comp, ← fold]
  rfl

/-- TST and TSTS: each row of TA is written at its own address, in the order of the rows (R69, R265). -/
theorem State.Ready.storesLocal {rows n : Nat} {off : Nat → Nat}
    (run : exec c s = .next ((s.putCell i (s.cell i).issued).tileStore i p w rows n fun r => (s.cell i).cur.addrAt w (off r)))
    (fits : ∀ r < rows, let y := addr57 (((s.cell i).cur.sa w + (imm32Of w + off r)) % 2 ^ 64); y % 16 = 0 ∧ y + n ≤ 0x400000) :
    ∃ t, exec c s = .next t ∧ (t.cell i).scratch = (List.range rows).foldl (fun m r =>
        m.write 64 (addr57 (((s.cell i).cur.sa w + (imm32Of w + off r)) % 2 ^ 64)) (Data.mark
          ((s.cell i).comp.rowMarked (taOf (s.cell i).cur w) r) (((s.cell i).comp.row (taOf (s.cell i).cur w) r).take n)))
        (s.cell i).scratch ∧
      t = s.putCell i { (s.cell i).issued with scratch := (t.cell i).scratch, written := (t.cell i).written } := by
  have aligned : (List.range rows).find? (fun r => addr57 ((s.cell i).cur.addrAt w (off r)) % 16 != 0) = none := by
    simpa [List.find?_eq_none, Ctx.addrAt, addr57_addrWord] using fun r hr => (fits r hr).1
  have allowed : ((List.range rows).filterMap fun r => ((s.putCell i (s.cell i).issued).wordRefused p
      ((s.cell i).cur.addrAt w (off r)) n).map fun a => (r, a)) = [] := by
    rw [List.filterMap_eq_nil_iff]
    intro r hr
    rw [Ctx.addrAt, State.wordRefused_local p _ loc (fits r (List.mem_range.1 hr)).2]
    rfl
  obtain ⟨written, writes⟩ := State.cellWrites_local h.lt p (fun r => (s.cell i).cur.addrAt w (off r))
    (fun r => Data.mark ((s.cell i).comp.rowMarked (taOf (s.cell i).cur w) r)
      (((s.cell i).comp.row (taOf (s.cell i).cur w) r).take n)) (List.range rows) (s.cell i).issued
    fun r _ => (addrWord_testBit ..).trans loc
  simp only [Ctx.addrAt, addr57_addrWord, Cell.issued_scratch] at writes
  refine ⟨_, run.trans (congrArg Host.Outcome.next (Eq.trans ?_ writes)), ?_⟩
  rotate_left
  · rw [State.cell_putCell_self _ _ h.lt]
    exact ⟨rfl, rfl⟩
  rw [State.tileStore]
  simp only [State.cell_putCell_self _ _ h.lt, taOf_issued, aligned, allowed, Cell.issued_comp]
  rfl
end

section
variable {s : State} {g i p : Nat} {w : StepWord}

/-- The tile steps of memory name their rows by offsets from SA (R69). -/
theorem State.Ready.tld_run (h : s.Ready 0x20 g w i p) : exec (.tld g w) s =
    .next ((s.putCell i (s.cell i).issued).tileLoad i p w 64 256 fun r => (s.cell i).cur.addrAt w (256 * r)) := by
  show execTld g w s = _
  rw [execTld, h.issue]
  simp only [State.cell_putCell_self _ _ h.lt, Ctx.addrAt_issued]

theorem State.Ready.tst_run (h : s.Ready 0x21 g w i p) : exec (.tst g w) s =
    .next ((s.putCell i (s.cell i).issued).tileStore i p w 64 256 fun r => (s.cell i).cur.addrAt w (256 * r)) := by
  show execTst g w s = _
  rw [execTst, h.issue]
  simp only [State.cell_putCell_self _ _ h.lt, Ctx.addrAt_issued]

theorem State.Ready.tlds_run (h : s.Ready 0x22 g w i p) : exec (.tlds g w) s =
    .next ((s.putCell i (s.cell i).issued).tileLoad i p w (strideRows w) (strideBytes w) fun r =>
      (s.cell i).cur.addrAt w ((s.cell i).cur.sb w * r)) := by
  show execTlds g w s = _
  rw [execTlds, h.issue]
  simp only [State.cell_putCell_self _ _ h.lt, Ctx.addrAt_issued, Ctx.sb_issued]

theorem State.Ready.tsts_run (h : s.Ready 0x23 g w i p) : exec (.tsts g w) s =
    .next ((s.putCell i (s.cell i).issued).tileStore i p w (strideRows w) (strideBytes w) fun r =>
      (s.cell i).cur.addrAt w ((s.cell i).cur.sb w * r)) := by
  show execTsts g w s = _
  rw [execTsts, h.issue]
  simp only [State.cell_putCell_self _ _ h.lt, Ctx.addrAt_issued, Ctx.sb_issued]
end

theorem strideRows_le (w : StepWord) : strideRows w ≤ 64 := min_le_left _ _
theorem strideBytes_le (w : StepWord) : strideBytes w ≤ 256 := min_le_left _ _

theorem TilesBecome.congr {c : Instr} {s : State} {i : Nat} {f f' : Nat → Nat → Bytes × Bool} (h : TilesBecome c s i f)
    (same : ∀ k r, r < 64 → f k r = f' k r) : TilesBecome c s i f' := by
  obtain ⟨t, run, frame, stat, scales, topk, rows⟩ := h
  exact ⟨t, run, frame, stat, scales, topk, fun k r hr => (rows k r hr).trans (same k r hr)⟩

/-- Settles O8: a LOCAL access is a read or a write of the cell's own store, and the last of several writes stands. -/
theorem localMemorySteps : Obligations.LocalMemorySteps := by
  unfold Obligations.LocalMemorySteps
  intro s g i p w c x a b at_ n m
  have size (t r k : Nat) (hk : k ≤ 256) : (Data.mark (c.comp.rowMarked t r) ((c.comp.row t r).take k)).length = k := by
    rw [Data.mark_length, List.length_take, Compute.row_length, min_eq_left hk]
  refine ⟨fun h loc => h.sldLocal loc rfl, fun h loc aligned fits => ?_, fun h loc fits => ?_, fun h loc fits => ?_,
    fun h loc fits => ?_, fun h loc fits => ?_⟩
  · obtain ⟨written, run⟩ := h.sstLocal loc (c := .sst g w) rfl aligned fits
    refine ⟨_, run, ?_⟩
    rw [State.cell_putCell_self _ _ h.lt]
    refine ⟨fun y => ?_, rfl⟩
    rw [Store.get_write, show (Data.clean (leBytes 8 (x.sa w))).length = 8 by
      rw [show Data.clean (leBytes 8 (x.sa w)) = Data.mark false _ from rfl, Data.mark_length, leBytes_length]]
    rw [show (Data.clean (leBytes 8 (x.sa w))).bytes = leBytes 8 (x.sa w) from Data.mark_bytes false _]
    rfl
  · refine (h.loadsLocal loc le_rfl le_rfl h.tld_run fits).congr fun k r hr => ?_
    simp only [hr, and_true, scratchRow, Nat.sub_self, zeros, List.replicate_zero, List.append_nil]
    rfl
  · exact h.loadsLocal loc (strideRows_le w) (strideBytes_le w) h.tlds_run fits
  · obtain ⟨t, run, scratch, frame⟩ := h.storesLocal loc h.tst_run fun r hr => ⟨(fits r hr).1, (fits r hr).2.2⟩
    refine ⟨t, run, fun y => ?_, frame⟩
    rw [scratch]
    have start (r : Nat) (hr : r < 64) : addr57 ((x.sa w + (imm32Of w + 256 * r)) % 2 ^ 64) = a + 256 * r := (fits r hr).2.1
    by_cases inside : a ≤ y ∧ y < a + 16384
    · have hj : (y - a) / 256 < 64 := by omega
      refine (Store.get_writes_last _ _ _ (List.range 64) (j := (y - a) / 256) (by simpa using hj) ?_ fun j' h' later => ?_).trans ?_
      · rw [List.getElem_range, start _ hj, size _ _ _ le_rfl]
        omega
      · rw [List.length_range] at h'
        rw [List.getElem_range, start _ h', size _ _ _ le_rfl]
        omega
      · rw [List.getElem_range, start _ hj, if_pos inside, Data.mark_bytes, List.take_of_length_le (Compute.row_length ..).le,
          show y - (a + 256 * ((y - a) / 256)) = (y - a) % 256 by omega]
    · rw [if_neg inside]
      refine Store.get_writes_none _ _ _ (List.range 64) fun r hr => ?_
      rw [start r (List.mem_range.1 hr), size _ _ _ le_rfl]
      have := List.mem_range.1 hr
      omega
  · obtain ⟨t, run, scratch, frame⟩ := h.storesLocal loc h.tsts_run fits
    refine ⟨t, run, fun y out => ?_, fun r hr e he later => ?_, frame⟩ <;> rw [scratch]
    · refine Store.get_writes_none _ _ _ (List.range (strideRows w)) fun r hr => ?_
      rw [size _ _ _ (strideBytes_le w)]
      exact out r (List.mem_range.1 hr)
    · refine (Store.get_writes_last _ _ _ (List.range (strideRows w)) (j := r) (by rw [List.length_range]; exact hr) ?_ fun j' h' after => ?_).trans ?_
      · rw [List.getElem_range, size _ _ _ (strideBytes_le w)]
        exact ⟨Nat.le_add_right _ _, Nat.add_lt_add_left he _⟩
      · rw [List.length_range] at h'
        rw [List.getElem_range, size _ _ _ (strideBytes_le w)]
        exact later j' h' after
      · rw [List.getElem_range, Data.mark_bytes]
        show (List.take m _).getD (at_ r + e - at_ r) 0 = _
        rw [Nat.add_sub_cancel_left, List.getD_eq_getElem?_getD, List.getElem?_take_of_lt he, ← List.getD_eq_getElem?_getD]

end Sys2Proof.Machine

namespace Sys2Proof.Machine

/-! ## Step faults that leave every register (R71, R72, R79) -/

/-- The command faults with this cause, address, mask and info; of the cell nothing else changes but that the step has been issued,
and no memory and no token does. -/
def StepFault (c : Instr) (s : State) (i cause addr mask info : Nat) : Prop :=
  ∃ t, exec c s = .next t ∧ t.cell i = (s.cell i).issued.faulted cause addr mask info ∧ t.mem = s.mem ∧ t.tokens = s.tokens

section
variable {s : State} {k g i p : Nat} {w : StepWord} (h : s.Ready k g w i p) {c : Instr} {cause addr mask info : Nat}
include h

theorem State.Ready.stepFault (run : exec c s = .next ((s.putCell i (s.cell i).issued).cellFault i cause addr mask info none)) :
    StepFault c s i cause addr mask info := by
  have told := State.cellFault_told h.lt (s.cell i).issued cause addr mask info
  refine ⟨_, run, ?_⟩
  rw [told.cell, told.mem, told.tokens, State.cell_putCell_self _ _ h.lt]
  exact ⟨rfl, rfl, rfl⟩

/-- A refused translation (R260, R267). -/
theorem State.Ready.xltFault (run : exec c s = .next ((s.putCell i (s.cell i).issued).xltFault i p cause addr mask w)) :
    StepFault c s i cause addr mask 0 := by
  obtain ⟨xlt, refused⟩ := (s.putCell i (s.cell i).issued).refusedBy_frame p w
  have told := State.cellFault_told (s := { s with xlt := xlt }) h.lt (s.cell i).issued cause addr mask 0
  have fault : (s.putCell i (s.cell i).issued).xltFault i p cause addr mask w =
      (({ s with xlt := xlt } : State).putCell i (s.cell i).issued).cellFault i cause addr mask 0 none :=
    congrArg (fun u : State => u.cellFault i cause addr mask 0 none) refused
  refine ⟨_, run, ?_⟩
  rw [fault, told.cell, told.mem, told.tokens, State.cell_putCell_self { s with xlt := xlt } _ h.lt]
  exact ⟨rfl, rfl, rfl⟩
end

/-- The least of a list is one of it and no greater than any. -/
theorem lowest_spec {l : List Nat} (some : l ≠ []) : lowest l ∈ l ∧ ∀ x ∈ l, lowest l ≤ x := by
  have run (l : List Nat) (a : Nat) : (l.foldl min a = a ∨ l.foldl min a ∈ l) ∧ l.foldl min a ≤ a ∧ ∀ x ∈ l, l.foldl min a ≤ x := by
    induction l generalizing a with
    | nil => simp
    | cons b l ih =>
      obtain ⟨mem, le, all⟩ := ih (min a b)
      rw [List.foldl_cons]
      refine ⟨?_, by omega, fun x hx => ?_⟩
      · rcases mem with eq | mem
        · rw [eq]
          rcases Nat.le_total a b with h | h
          · exact .inl (min_eq_left h)
          · exact .inr (by simp [min_eq_right h])
        · exact .inr (List.mem_cons_of_mem _ mem)
      · rcases List.mem_cons.1 hx with rfl | hx
        · omega
        · exact all x hx
  obtain ⟨a, l, rfl⟩ := List.exists_cons_of_ne_nil some
  obtain ⟨mem, -, all⟩ := run (a :: l) a
  refine ⟨mem.elim (fun eq => ?_) id, all⟩
  rw [show lowest (a :: l) = a from eq]
  exact List.mem_cons_self

/-! ## TKMERGE (R54) -/

/-- What an offered entry does to its row of the top-k state. -/
def TopK.enter (t : TopK) (f : Nat) (l : List (BitVec 32 × BitVec 32)) (e : Nat × Nat) : List (BitVec 32 × BitVec 32) :=
  if decodeVal f e.1 = .nan then l else (insertEntry t.keepMax f (BitVec.ofNat 32 e.1, BitVec.ofNat 32 e.2) l).take t.k

/-- Entries offered to one row, one after another. -/
theorem TopK.offers (t : TopK) (f r : Nat) (es : List (Nat × Nat)) (rows : List (List (BitVec 32 × BitVec 32))) :
    es.foldl (fun u e => u.offer f r e.1 e.2) { t with rows := rows } =
      { t with rows := rows.modify r fun l => es.foldl (t.enter f) l } := by
  induction es generalizing rows with
  | nil => exact congrArg (TopK.mk t.k t.keepMax) (List.modify_id r rows).symm
  | cons e es ih =>
    have one : ({ t with rows := rows } : TopK).offer f r e.1 e.2 = { t with rows := rows.modify r fun l => t.enter f l e } := by
      unfold TopK.offer TopK.enter
      split
      · exact congrArg (TopK.mk t.k t.keepMax) (List.modify_id r rows).symm
      · rfl
    rw [List.foldl_cons, one, ih, List.modify_modify_eq]
    rfl

/-- Entries offered to several rows, one row after another. -/
theorem TopK.offersTo (t : TopK) (f : Nat) (es : Nat → List (Nat × Nat)) (l : List Nat)
    (rows : List (List (BitVec 32 × BitVec 32))) :
    l.foldl (fun u r => (es r).foldl (fun u e => u.offer f r e.1 e.2) u) { t with rows := rows } =
      { t with rows := l.foldl (fun rows r => rows.modify r fun l => (es r).foldl (t.enter f) l) rows } := by
  induction l generalizing rows with
  | nil => rfl
  | cons r l ih => rw [List.foldl_cons, List.foldl_cons, TopK.offers, ih]

/-- Offers to each of the first n rows. -/
theorem TopK.offersRows (t : TopK) (f n : Nat) (es : Nat → List (Nat × Nat)) :
    let u := (List.range n).foldl (fun u r => (es r).foldl (fun u e => u.offer f r e.1 e.2) u) t
    u.k = t.k ∧ u.keepMax = t.keepMax ∧ ∀ r, u.rows.getD r [] =
      if r < n ∧ r < t.rows.length then (es r).foldl (t.enter f) (t.rows.getD r []) else t.rows.getD r [] := by
  have run := TopK.offersTo t f es (List.range n) t.rows
  intro u
  have k : u.k = _ := congrArg TopK.k run
  have keepMax : u.keepMax = _ := congrArg TopK.keepMax run
  have rows : u.rows = _ := congrArg TopK.rows run
  refine ⟨k, keepMax, fun r => ?_⟩
  rw [rows]
  have row := observe_foldl_range (N := r + n + 1) (obs := fun (rows : List (List (BitVec 32 × BitVec 32))) r => rows[r]?)
    (F := fun rows r => rows.modify r fun l => (es r).foldl (t.enter f) l)
    (P := fun r => Option.map fun l => (es r).foldl (t.enter f) l)
    (fun rows j j' _ _ => by
      rw [List.getElem?_modify]
      by_cases same : j' = j
      · rw [if_pos same, same]
        simp
      · rw [if_neg same]
        simp [Ne.symm same]) t.rows (n := n) (j' := r) (by omega) (by omega)
  simp only [List.getD_eq_getElem?_getD, row]
  by_cases first : r < n
  · by_cases here : r < t.rows.length
    · simp [first, here]
    · simp [first, here]
  · simp [first]

section
variable {s : State} {g i p : Nat} {w : StepWord}

/-- The columns that TKMERGE takes (R54). -/
def mergeCols (w : StepWord) : Nat := if fld w 93 88 = 0 then 64 else fld w 93 88

theorem mergeCols_le (w : StepWord) : mergeCols w ≤ 64 := by
  have := fld_lt w 93 88
  unfold mergeCols
  split <;> omega

/-- The scores and ids of a row. -/
theorem mergeEntries_eq (c : Cell) (x : Ctx) (w : StepWord) (r : Nat) :
    (rowElems 0 (mergeCols w) (c.comp.row (taOf x w) r)).zip
      (if flagOf w 5 then rowElems 0 (mergeCols w) (c.comp.row (tbOf x w) r)
        else (List.range (mergeCols w)).map fun e => (x.sb w % 2 ^ 32 + e) % 2 ^ 32) =
    (List.range (mergeCols w)).map fun e => (c.elem 0 (taOf x w) r e,
      if flagOf w 5 then c.elem 0 (tbOf x w) r e else ((x.scalar (sbOf w)).toNat + e) % 2 ^ 32) := by
  have elems (t : Nat) : rowElems 0 (mergeCols w) (c.comp.row t r) = (List.range (mergeCols w)).map (c.elem 0 t r) :=
    codes_eq c 0 t r (mergeCols_le w)
  rw [elems, elems]
  split
  · exact List.zip_map'
  · simp only [Nat.mod_add_mod]
    exact List.zip_map'

theorem State.Ready.tkmerge (h : s.Ready 0x41 g w i p)
    (ta : ∀ r < rowsOf w, (s.cell i).comp.rowMarked (taOf (s.cell i).cur w) r = false)
    (tb : flagOf w 5 = true → ∀ r < rowsOf w, (s.cell i).comp.rowMarked (tbOf (s.cell i).cur w) r = false) :
    exec (.tkmerge g w) s = .next (s.putCell i { (s.cell i).issued with comp := { (s.cell i).comp with
      topk := (List.range (rowsOf w)).foldl (fun u r => ((List.range (mergeCols w)).map fun e =>
        ((s.cell i).elem 0 (taOf (s.cell i).cur w) r e, if flagOf w 5 then (s.cell i).elem 0 (tbOf (s.cell i).cur w) r e
          else (((s.cell i).cur.scalar (sbOf w)).toNat + e) % 2 ^ 32)).foldl
            (fun u e => u.offer (scoreFmt (fmtaOf w)) r e.1 e.2) u) (s.cell i).comp.topk } }) := by
  have unmarked : ((s.cell i).comp.anyMarked (taOf (s.cell i).cur w) (rowsOf w) ||
      (flagOf w 5 && (s.cell i).comp.anyMarked (tbOf (s.cell i).cur w) (rowsOf w))) = false := by
    rw [Compute.anyMarked_eq_false.2 ta, Bool.false_or]
    cases from_ : flagOf w 5 with
    | false => rfl
    | true => exact Compute.anyMarked_eq_false.2 (tb from_)
  show execTkmerge g w s = _
  rw [execTkmerge, h.issue, State.topkMerge]
  simp only [State.cell_putCell_self _ _ h.lt, Cell.issued_comp, taOf_issued, tbOf_issued, Ctx.sb_issued]
  rw [if_neg (Bool.eq_false_iff.1 unmarked), State.modComp_putCell _ _ _ h.lt, Cell.issued_comp]
  simp only [← mergeEntries_eq]
  rfl

theorem State.Ready.tkmerge_faults (h : s.Ready 0x41 g w i p)
    (marked : ∃ r < rowsOf w, (s.cell i).comp.rowMarked (taOf (s.cell i).cur w) r = true ∨
      flagOf w 5 = true ∧ (s.cell i).comp.rowMarked (tbOf (s.cell i).cur w) r = true) :
    StepFault (.tkmerge g w) s i 4 0 0 0 := by
  obtain ⟨r, hr, marked⟩ := marked
  have any : ((s.cell i).comp.anyMarked (taOf (s.cell i).cur w) (rowsOf w) ||
      (flagOf w 5 && (s.cell i).comp.anyMarked (tbOf (s.cell i).cur w) (rowsOf w))) = true := by
    rcases marked with ta | ⟨from_, tb⟩
    · rw [Compute.anyMarked_eq_true.2 ⟨r, hr, ta⟩, Bool.true_or]
    · rw [from_, Compute.anyMarked_eq_true.2 ⟨r, hr, tb⟩, Bool.and_self, Bool.or_true]
  refine h.stepFault ?_
  show execTkmerge g w s = _
  rw [execTkmerge, h.issue, State.topkMerge]
  simp only [State.cell_putCell_self _ _ h.lt, Cell.issued_comp, taOf_issued, tbOf_issued]
  rw [if_pos any]

/-- The k-th entry of a row, or the fill score (R55). -/
theorem TopK.filled_last (t : TopK) (f r : Nat) : ((t.filled f r).getD (t.k - 1) (t.fill f, 0)).1 =
    (((t.rows.getD r [])[t.k - 1]?).map Prod.fst).getD (t.fill f) := by
  rw [TopK.filled, List.getD_eq_getElem?_getD]
  by_cases held : t.k - 1 < (t.rows.getD r []).length
  · rw [List.getElem?_append_left held, List.getElem?_eq_getElem held]
    rfl
  · rw [List.getElem?_append_right (not_lt.1 held), List.getElem?_eq_none (not_lt.1 held), List.getElem?_replicate]
    split <;> rfl

theorem State.Ready.tkthr (h : s.Ready 0x43 g w i p) : exec (.tkthr g w) s = .next (s.putCell i ((s.cell i).issued.withScalar (sdOf w)
    ((((((s.cell i).comp.topk.rows.getD (fld w 85 80) [])[(s.cell i).comp.topk.k - 1]?).map Prod.fst).getD
      ((s.cell i).comp.topk.fill (fmtaOf w))).setWidth 64))) := by
  show execTkthr g w s = _
  rw [execTkthr, h.issue]
  simp only [State.cell_putCell_self _ _ h.lt, Cell.issued_comp, State.setSd_putCell _ _ _ h.lt, TopK.filled_last,
    BitVec.ofNat_toNat]
end

/-! ## TKREAD (R55) -/

/-- The 128 extents that TKREAD writes: the scores of each row, then the ids of each. -/
def readExtents (x : Ctx) (w : StepWord) : List (Nat × Nat × Bool) :=
  (List.range 64).map (fun r => (x.addrAt w (1024 * r), r, false)) ++
    (List.range 64).map fun r => (x.addrAt w (65536 + 1024 * r), r, true)

theorem readExtents_length (x : Ctx) (w : StepWord) : (readExtents x w).length = 128 := by
  simp [readExtents]

/-- The extents lie 1024 bytes apart. -/
theorem readExtents_getElem? (x : Ctx) (w : StepWord) {j : Nat} (hj : j < 128) :
    (readExtents x w)[j]? = some (x.addrAt w (1024 * j), j % 64, decide (64 ≤ j)) := by
  unfold readExtents
  by_cases scores : j < 64
  · rw [List.getElem?_append_left (by simpa using scores), List.getElem?_map, List.getElem?_range scores, Nat.mod_eq_of_lt scores]
    simp [scores]
  · rw [List.getElem?_append_right (by simpa using scores), List.getElem?_map, List.length_map, List.length_range,
      List.getElem?_range (by omega), Option.map_some, show 65536 + 1024 * (j - 64) = 1024 * j by omega,
      show j % 64 = j - 64 by omega, decide_eq_true (not_lt.1 scores)]

theorem readExtents_getElem (x : Ctx) (w : StepWord) {j : Nat} (hj : j < (readExtents x w).length) :
    (readExtents x w)[j] = (x.addrAt w (1024 * j), j % 64, decide (64 ≤ j)) :=
  Option.some.inj ((List.getElem?_eq_getElem hj).symm.trans
    (readExtents_getElem? x w (by rwa [readExtents_length] at hj)))

section
variable {s : State} {g i p : Nat} {w : StepWord} (h : s.Ready 0x42 g w i p)
include h

theorem State.Ready.tkread_run : exec (.tkread g w) s = .next ((s.putCell i (s.cell i).issued).topkRead i p w) := by
  show execTkread g w s = _
  rw [execTkread, h.issue]

theorem State.Ready.tkread (aligned : addr57 ((s.cell i).cur.addrAt w 0) % 16 = 0)
    (allowed : ∀ e ∈ readExtents (s.cell i).cur w,
      (s.putCell i (s.cell i).issued).wordRefused p e.1 (4 * (s.cell i).comp.topk.k) = none) :
    exec (.tkread g w) s = .next ((readExtents (s.cell i).cur w).foldl (fun u e => u.cellWrite i p e.1 (Data.clean
      (((s.cell i).comp.topk.filled (fmtaOf w) e.2.1).flatMap fun q => leBytes 4 (if e.2.2 then q.2 else q.1).toNat)))
      (s.putCell i (s.cell i).issued)) := by
  have none_ : ((readExtents (s.cell i).cur w).filterMap fun e =>
      (s.putCell i (s.cell i).issued).wordRefused p e.1 (4 * (s.cell i).comp.topk.k)) = [] :=
    List.filterMap_eq_nil_iff.2 allowed
  rw [h.tkread_run, State.topkRead]
  simp only [State.cell_putCell_self _ _ h.lt, Cell.issued_comp, Ctx.addrAt_issued]
  rw [if_neg (not_not.2 aligned)]
  exact congrArg Host.Outcome.next (if_neg (not_not.2 none_))

theorem State.Ready.tkread_refused (aligned : addr57 ((s.cell i).cur.addrAt w 0) % 16 = 0) {bad : List Nat}
    (hbad : (readExtents (s.cell i).cur w).filterMap (fun e =>
      (s.putCell i (s.cell i).issued).wordRefused p e.1 (4 * (s.cell i).comp.topk.k)) = bad) (some : bad ≠ []) :
    StepFault (.tkread g w) s i (if (readExtents (s.cell i).cur w).any fun e =>
      ((s.putCell i (s.cell i).issued).wordUnmapped p e.1 (4 * (s.cell i).comp.topk.k)).isSome then 1 else 2) (lowest bad) 0 0 := by
  refine h.xltFault ?_
  rw [h.tkread_run, State.topkRead]
  simp only [State.cell_putCell_self _ _ h.lt, Cell.issued_comp, Ctx.addrAt_issued]
  rw [if_neg (not_not.2 aligned)]
  subst hbad
  exact congrArg Host.Outcome.next (if_pos some)

theorem State.Ready.tkread_align (unaligned : addr57 ((s.cell i).cur.addrAt w 0) % 16 ≠ 0) :
    StepFault (.tkread g w) s i 3 (addr57 ((s.cell i).cur.addrAt w 0)) 0 0 := by
  refine h.stepFault ?_
  rw [h.tkread_run, State.topkRead]
  simp only [State.cell_putCell_self _ _ h.lt, Ctx.addrAt_issued]
  rw [if_pos unaligned]
end

/-! ## What TKREAD leaves in the own scratchpad -/

/-- Blocks of equal length one after another. -/
theorem getElem?_flatMap_const {α β : Type} {f : α → List β} {n : Nat} (len : ∀ x, (f x).length = n) (l : List α) (e : Nat) {b : Nat}
    (hb : b < n) : (l.flatMap f)[n * e + b]? = l[e]?.bind fun x => (f x)[b]? := by
  induction l generalizing e with
  | nil => simp
  | cons x l ih =>
    rw [List.flatMap_cons]
    cases e with
    | zero => rw [Nat.mul_zero, Nat.zero_add, List.getElem?_append_left (by rwa [len])]; rfl
    | succ e =>
      rw [List.getElem?_append_right (by rw [len, Nat.mul_succ]; omega), len, Nat.mul_succ,
        show n * e + n + b - n = n * e + b by omega, ih]
      rfl

/-- Four bytes that hold a word read as it (R10). -/
theorem Store.leNat_read_word {m : Store} {A v : Nat} (hv : v < 2 ^ 32) (bytes : ∀ b < 4, m.get (A + b) = (leBytes 4 v).getD b 0) :
    leNat (m.read 64 A 4).bytes = v := by
  have read : (m.read 64 A 4).bytes = leBytes 4 v := by
    refine List.ext_getElem (by simp [Data.bytes, leBytes_length]) fun b hb hb' => ?_
    have word := bytes b (by rwa [leBytes_length] at hb')
    rw [List.getD_eq_getElem?_getD, List.getElem?_eq_getElem hb'] at word
    simpa [Store.read_eq, Data.bytes] using word
  rw [read, leNat_leBytes_of_lt hv]

end Sys2Proof.Machine

namespace Sys2Proof.Machine

/-! ## O13 -/

section
variable {s : State} {g i p : Nat} {w : StepWord} (h : s.Ready 0x42 g w i p)

/-- The bytes that TKREAD writes into an extent (R55). -/
def readBytes (c : Cell) (w : StepWord) (e : Nat × Nat × Bool) : Data :=
  Data.clean ((c.comp.topk.filled (fmtaOf w) e.2.1).flatMap fun q => leBytes 4 (if e.2.2 then q.2 else q.1).toNat)

/-- Byte b of entry e of an extent. -/
theorem readBytes_getD {c : Cell} {w : StepWord} {x : Nat × Nat × Bool} {e b : Nat} {q : BitVec 32 × BitVec 32} (hb : b < 4)
    (entry : (c.comp.topk.filled (fmtaOf w) x.2.1)[e]? = some q) : 4 * e + b < (readBytes c w x).length ∧
      (readBytes c w x).bytes.getD (4 * e + b) 0 = (leBytes 4 (if x.2.2 then q.2 else q.1).toNat).getD b 0 := by
  have byte := getElem?_flatMap_const (f := fun q : BitVec 32 × BitVec 32 => leBytes 4 (if x.2.2 then q.2 else q.1).toNat)
    (fun _ => leBytes_length ..) (c.comp.topk.filled (fmtaOf w) x.2.1) e hb
  rw [entry, Option.bind_some] at byte
  have bytes : (readBytes c w x).bytes = _ := Data.mark_bytes false _
  have length : (readBytes c w x).length = _ := Data.mark_length false _
  refine ⟨?_, by rw [bytes, List.getD_eq_getElem?_getD, byte, ← List.getD_eq_getElem?_getD]⟩
  rw [length]
  refine (List.getElem?_eq_some_iff.1 (byte.trans (List.getElem?_eq_getElem ?_))).1
  rwa [leBytes_length]

include h

/-- TKREAD with a LOCAL address leaves entry e of each extent at byte 4e of it (R55, R73). -/
theorem State.Ready.tkread_local (loc : localOf w = true)
    (aligned : addr57 (((s.cell i).cur.sa w + imm32Of w) % 2 ^ 64) % 16 = 0)
    (fits : addr57 (((s.cell i).cur.sa w + imm32Of w) % 2 ^ 64) + 131072 ≤ 0x400000)
    (low : (s.cell i).cur.sa w + imm32Of w + 131072 ≤ 2 ^ 57) (few : (s.cell i).comp.topk.k ≤ 256) :
    ∃ t, exec (.tkread g w) s = .next t ∧ (t.cell i).comp = (s.cell i).comp ∧ (t.cell i).cur = (s.cell i).issued.cur ∧
      ∀ j < 128, ∀ e < (s.cell i).comp.topk.k, ∀ q, ((s.cell i).comp.topk.filled (fmtaOf w) (j % 64))[e]? = some q →
        leNat ((t.cell i).scratch.read 64 (addr57 (((s.cell i).cur.sa w + imm32Of w) % 2 ^ 64) + 1024 * j + 4 * e) 4).bytes =
          (if 64 ≤ j then q.2 else q.1).toNat := by
  have place (j : Nat) (hj : j < 128) : addr57 (((s.cell i).cur.sa w + (imm32Of w + 1024 * j)) % 2 ^ 64) =
      addr57 (((s.cell i).cur.sa w + imm32Of w) % 2 ^ 64) + 1024 * j := by
    unfold addr57
    omega
  have word (j : Nat) (hj : j < 128) : addr57 ((s.cell i).cur.addrAt w (1024 * j)) =
      addr57 (((s.cell i).cur.sa w + imm32Of w) % 2 ^ 64) + 1024 * j := (addr57_addrWord ..).trans (place j hj)
  have extent {e : Nat × Nat × Bool} (he : e ∈ readExtents (s.cell i).cur w) : ∃ j < 128, e.1 = (s.cell i).cur.addrAt w (1024 * j) := by
    obtain ⟨j, hj, rfl⟩ := List.mem_iff_getElem.1 he
    exact ⟨j, by rwa [readExtents_length] at hj, by rw [readExtents_getElem]⟩
  have run := h.tkread (by rw [word 0 (by decide)]; simpa using aligned) fun e he => by
    obtain ⟨j, hj, eq⟩ := extent he
    rw [eq]
    exact State.wordRefused_local _ _ loc (by rw [place j hj]; omega)
  obtain ⟨written, writes⟩ := State.cellWrites_local h.lt p (fun e : Nat × Nat × Bool => e.1) (readBytes (s.cell i) w)
    (readExtents (s.cell i).cur w) (s.cell i).issued fun e he => by
      obtain ⟨j, hj, eq⟩ := extent he
      rw [eq]
      exact (addrWord_testBit ..).trans loc
  obtain ⟨t, run, comp, cur, scratch⟩ : ∃ t, exec (.tkread g w) s = .next t ∧ (t.cell i).comp = (s.cell i).comp ∧
      (t.cell i).cur = (s.cell i).issued.cur ∧ (t.cell i).scratch = (readExtents (s.cell i).cur w).foldl (fun m e =>
        m.write 64 (addr57 e.1) (readBytes (s.cell i) w e)) (s.cell i).issued.scratch := by
    refine ⟨_, run.trans (congrArg Host.Outcome.next writes), ?_⟩
    rw [State.cell_putCell_self _ _ h.lt]
    exact ⟨Cell.issued_comp _, rfl, rfl⟩
  refine ⟨t, run, comp, cur, fun j hj e he q entry => Store.leNat_read_word (BitVec.isLt _) fun b hb => ?_⟩
  rw [scratch]
  have len := readExtents_length (s.cell i).cur w
  have here := readExtents_getElem (s.cell i).cur w (j := j) (by omega)
  obtain ⟨inside, byte⟩ := readBytes_getD (x := (readExtents (s.cell i).cur w)[j]'(by omega)) hb (by rw [here]; exact entry)
  refine (Store.get_writes_last (fun e : Nat × Nat × Bool => addr57 e.1) (readBytes (s.cell i) w) _
    (readExtents (s.cell i).cur w) (j := j) (by omega) ?_ fun j' hj' later => ?_).trans ?_
  · rw [congrArg Prod.fst here, word j hj]
    omega
  · rw [readExtents_getElem, word j' (by omega)]
    omega
  · rw [congrArg Prod.fst here, word j hj, show addr57 (((s.cell i).cur.sa w + imm32Of w) % 2 ^ 64) + 1024 * j + 4 * e + b -
      (addr57 (((s.cell i).cur.sa w + imm32Of w) % 2 ^ 64) + 1024 * j) = 4 * e + b by omega, byte, here]
    simp
end

/-- What a fault leaves, as O13 says it. -/
theorem StepFault.left {c : Instr} {s : State} {i cause addr mask info : Nat} (f : StepFault c s i cause addr mask info) :
    ∃ t, (exec c s = .next t ∧ (t.cell i).st = 3 ∧ (t.cell i).fault.valid = true ∧ (t.cell i).fault.cause = cause ∧
      (t.cell i).comp = (s.cell i).comp ∧ (t.cell i).scratch = (s.cell i).scratch ∧ (t.cell i).cur = (s.cell i).issued.cur ∧
      t.mem = s.mem) ∧ (t.cell i).fault.addr = addr := by
  obtain ⟨t, run, cell, mem, -⟩ := f
  refine ⟨t, ⟨run, ?_⟩, ?_⟩ <;> rw [cell]
  · exact ⟨rfl, rfl, rfl, Cell.issued_comp _, Cell.issued_scratch _, rfl, mem⟩
  · rfl

/-- Settles O13: TKMERGE offers row by row, and TKREAD writes 128 extents that do not meet. -/
theorem topKSteps : Obligations.TopKSteps := by
  unfold Obligations.TopKSteps
  intro s g i p w c x k f cols id fill s1 a at_ exts bytes faulted
  have start : addr57 (x.addrAt w 0) = a := addr57_addrWord ..
  refine ⟨fun h => ?_, fun h ta tb => ?_, fun h marked => ?_, fun h => h.tkthr, fun h aligned allowed => ?_,
    fun h aligned refused => ?_, fun h unaligned => ?_, fun h loc aligned fits low few => ?_⟩
  · exact congrArg Host.Outcome.next (h.writesComp fun _ y => { y with
      topk := ⟨max 1 (min 256 (imm16Of w)), flagOf w 6, List.replicate 64 []⟩ })
  · refine ⟨_, h.tkmerge ta tb, ?_⟩
    rw [State.cell_putCell_self _ _ h.lt]
    obtain ⟨kept, polarity, rows⟩ := TopK.offersRows k (scoreFmt (fmtaOf w)) (rowsOf w) fun r =>
      (List.range (mergeCols w)).map fun e => (c.elem 0 (taOf x w) r e, id r e)
    exact ⟨kept, polarity, rows, rfl⟩
  · obtain ⟨t, left, -⟩ := (h.tkmerge_faults marked).left
    exact ⟨t, left⟩
  · exact h.tkread (start.symm ▸ aligned) allowed
  · obtain ⟨e, he, some⟩ := refused
    obtain ⟨v, hv⟩ := Option.ne_none_iff_exists'.1 some
    have member : v ∈ exts.filterMap fun e => s1.wordRefused p e.1 (4 * k.k) := List.mem_filterMap.2 ⟨e, he, hv⟩
    obtain ⟨mem, least⟩ := lowest_spec (List.ne_nil_of_mem member)
    obtain ⟨t, left, addr⟩ := (h.tkread_refused (start.symm ▸ aligned) rfl (List.ne_nil_of_mem member)).left
    refine ⟨t, left, ?_⟩
    rw [addr]
    exact ⟨List.mem_filterMap.1 mem, fun e he v hv => least v (List.mem_filterMap.2 ⟨e, he, hv⟩)⟩
  · obtain ⟨t, left, addr⟩ := (h.tkread_align (start.symm ▸ unaligned)).left
    exact ⟨t, left, addr.trans start⟩
  · obtain ⟨t, run, comp, cur, reads⟩ := h.tkread_local loc aligned fits low few
    refine ⟨t, run, comp, cur, fun r hr e he hk q entry => ⟨?_, ?_⟩⟩
    · have score := reads r (by omega) e hk q (by rwa [Nat.mod_eq_of_lt hr])
      rwa [if_neg (by omega)] at score
    · have id := reads (64 + r) (by omega) e hk q (by rwa [show (64 + r) % 64 = r by omega])
      rw [if_pos (by omega)] at id
      rwa [show a + 65536 + 1024 * r = a + 1024 * (64 + r) by omega]

end Sys2Proof.Machine

namespace Sys2Proof.Machine

/-! ## Popping tokens (R63, R64, R118) -/

section
variable {s : State} {i : Nat} (hi : i < s.cells.length)
include hi

/-- The output of a gather that lands changes the compute registers and may draw free values. -/
theorem State.landTile_putCell (c : Cell) (id : Nat) :
    ∃ y n, (s.putCell i c).landTile i id = ({ s with drawn := n } : State).putCell i { c with comp := y } := by
  unfold State.landTile
  rw [State.cell_putCell_self _ _ hi]
  split
  · exact ⟨c.comp, s.drawn, rfl⟩
  · rw [State.modComp_putCell _ _ _ hi]
    dsimp only
    split
    · exact ⟨_, s.drawn, State.modComp_putCell s _ _ hi _⟩
    · generalize 16384 = size
      exact ⟨_, s.drawn + size, State.modComp_putCell { s with drawn := s.drawn + size } _ _ hi _⟩

theorem State.landTiles_putCell (c : Cell) (ids : List Nat) : ∃ y n,
    ids.foldl (fun u id => u.landTile i id) (s.putCell i c) = ({ s with drawn := n } : State).putCell i { c with comp := y } := by
  induction ids generalizing s c with
  | nil => exact ⟨c.comp, s.drawn, rfl⟩
  | cons id ids ih =>
    obtain ⟨y, n, one⟩ := State.landTile_putCell hi c id
    rw [List.foldl_cons, one]
    exact ih (s := { s with drawn := n }) hi { c with comp := y }

/-- Popped tokens leave their queue, and may land the output of a gather. -/
theorem State.popTokens_lands (c : Cell) (q : Nat) (ts : List Token) : ∃ y n, (s.putCell i c).popTokens i q ts =
    ({ s with drawn := n } : State).putCell i { c.setCur (c.cur.modQueue q fun u =>
      { u with toks := u.toks.drop ts.length, popped := u.popped ++ ts.map (·.credit) }) with comp := y } := by
  rw [State.popTokens, State.modCtx_putCell _ _ _ hi]
  exact State.landTiles_putCell hi _ _

theorem State.resume_eq (c : Cell) : (s.putCell i c).resume i =
    s.putCell i { c.waited (s.now (.cell i)) with st := if c.st = 2 then 1 else c.st, held := none } := by
  rw [State.resume, State.modCell_putCell hi]
  rfl
end

/-- A wait that is counted changes the wait counter and the time since which it counts (R77). -/
theorem Cell.waited_frame (c : Cell) (now : Nat) :
    ∃ held n, c.waited now = { c with held := held, cnt := { c.cnt with wait := n } } := by
  unfold Cell.waited
  split
  · rw [Cell.count]
    split
    · split <;> exact ⟨_, _, rfl⟩
    · exact ⟨_, _, rfl⟩
  · exact ⟨_, _, rfl⟩

theorem Ctx.modQueue_congr {x : Ctx} {q : Nat} {f f' : Queue → Queue} (same : f (x.queue q) = f' (x.queue q)) :
    x.modQueue q f = x.modQueue q f' := by
  refine congrArg (fun l => ({ x with queues := l } : Ctx)) (List.ext_getElem? fun j => ?_)
  rw [List.getElem?_modify, List.getElem?_modify]
  by_cases here : q = j
  · subst here
    cases at_ : x.queues[q]? with
    | none => rfl
    | some u =>
      rw [Ctx.queue, List.getD_eq_getElem?_getD, at_] at same
      simpa using same
  · simp [here]

theorem Ctx.modQueue_id {x : Ctx} {q : Nat} {f : Queue → Queue} (same : f (x.queue q) = x.queue q) : x.modQueue q f = x :=
  (Ctx.modQueue_congr (f' := id) same).trans (congrArg (fun l => ({ x with queues := l } : Ctx)) (List.modify_id q x.queues))

end Sys2Proof.Machine

namespace Sys2Proof.Machine

/-! ## Arrivals (R62, R63, R256, R306) -/

/-- A cell that holds no step has nothing to go on with. -/
theorem State.wake_of_not_held {s : State} {i : Nat} (free : (s.cell i).held = none) : s.wake i = s := by
  rw [State.wake, free]

theorem State.sendCredit_eq (s : State) (cr : Option CreditRef) : s.sendCredit cr = { s with credits := s.credits ++ cr.toList } := by
  cases cr with
  | none => exact congrArg (fun l => ({ s with credits := l } : State)) (List.append_nil _).symm
  | some r => rfl

section
variable {s : State} {i q : Nat} {k : Cls} {v : Token}

/-- A token that meets an owed discard or enters its queue, by the class's context. -/
theorem State.tokenArrive_owed (owed : (((s.cell i).ctx k).queue q).owed ≠ 0) : s.tokenArrive i q k v =
    (((s.putCell i (((s.cell i).setCtx k (((s.cell i).ctx k).modQueue q fun u => { u with owed := u.owed - 1 })).count fun n =>
      { n with late := n.late + 1 })).sendCredit v.credit).wake i) := by
  simp only [State.tokenArrive, State.enterToken, if_pos owed, State.modCell_eq_putCell, Bool.false_eq_true, if_false]

theorem State.tokenArrive_owedAny {j : Nat} (owed : (((s.cell i).ctx k).queue q).owed = 0)
    (first : ((s.cell i).ctx k).owedAny.findIdx? (fun m => m.toNat.testBit q) = some j) : s.tokenArrive i q k v =
    (((s.putCell i (((s.cell i).setCtx k { (s.cell i).ctx k with owedAny := ((s.cell i).ctx k).owedAny.eraseIdx j }).count fun n =>
      { n with late := n.late + 1 })).sendCredit v.credit).wake i) := by
  simp only [State.tokenArrive, State.enterToken, if_neg (not_not.2 owed), first, State.modCell_eq_putCell, Bool.false_eq_true,
    if_false]

variable (owed : (((s.cell i).ctx k).queue q).owed = 0) (any : ∀ m ∈ ((s.cell i).ctx k).owedAny, m.toNat.testBit q = false)
include owed any

theorem State.enterToken_due : s.enterToken i q k v =
    if (((s.cell i).ctx k).queue q).depth ≤ (((s.cell i).ctx k).queue q).toks.length ∨ 64 ≤ (((s.cell i).ctx k).queue q).toks.length then
      if (s.cell i).job.isSome ∧ (s.cell i).cls = k then (true, s)
      else (false, s.putCell i ((s.cell i).setCtx k { (s.cell i).ctx k with heldOverflow := some q }))
    else (false, s.putCell i ((s.cell i).setCtx k (((s.cell i).ctx k).modQueue q fun u => { u with toks := u.toks ++ [v] }))) := by
  have none_ : ((s.cell i).ctx k).owedAny.findIdx? (fun m => m.toNat.testBit q) = none := List.findIdx?_eq_none_iff.2 any
  simp only [State.enterToken, if_neg (not_not.2 owed), none_, State.modCell_eq_putCell]

theorem State.tokenArrive_enters
    (room : ¬ min 64 (((s.cell i).ctx k).queue q).depth ≤ (((s.cell i).ctx k).queue q).toks.length) : s.tokenArrive i q k v =
    (s.putCell i ((s.cell i).setCtx k (((s.cell i).ctx k).modQueue q fun u => { u with toks := u.toks ++ [v] }))).wake i := by
  rw [State.tokenArrive, State.enterToken_due owed any, if_neg (by omega)]
  rfl

variable (full : min 64 (((s.cell i).ctx k).queue q).depth ≤ (((s.cell i).ctx k).queue q).toks.length)
include full

theorem State.tokenArrive_overflow (job : (s.cell i).job.isSome = true) (cls : (s.cell i).cls = k) :
    s.tokenArrive i q k v = s.cellFault i 6 0 0 q none := by
  rw [State.tokenArrive, State.enterToken_due owed any, if_pos (by omega), if_pos ⟨job, cls⟩]
  rfl

theorem State.tokenArrive_held (other : (s.cell i).job.isSome = false ∨ (s.cell i).cls ≠ k) : s.tokenArrive i q k v =
    (s.putCell i ((s.cell i).setCtx k { (s.cell i).ctx k with heldOverflow := some q })).wake i := by
  rw [State.tokenArrive, State.enterToken_due owed any, if_pos (by omega), if_neg]
  · rfl
  · rintro ⟨job, cls⟩
    exact other.elim (fun no => Bool.false_ne_true (no.symm.trans job)) fun ne => ne cls
end

/-- What TOKEN_ARRIVAL does with the token that may arrive. -/
theorem tokenArrival_eq {s : State} {g i n q : Nat} {k : Cls} {v : Token} (pos : s.posOf g = some i)
    (next : s.arriving g n = some (g, q, k, v)) :
    exec (.tokenArrival g n) s = .next (({ s with tokens := s.tokens.erase (g, q, k, v) } : State).tokenArrive i q k v) := by
  show Host.Outcome.next (s.tokenArrival g n) = _
  rw [State.tokenArrival, next, pos]

/-- A token discarded: its context and the counter of late tokens have changed, and its credit goes back (R256). -/
theorem tokenArrival_late {s : State} {g i n q : Nat} {k : Cls} {v : Token} (pos : s.posOf g = some i)
    (next : s.arriving g n = some (g, q, k, v)) (free : (s.cell i).held = none) {x : Ctx}
    (late : ({ s with tokens := s.tokens.erase (g, q, k, v) } : State).tokenArrive i q k v =
      ((({ s with tokens := s.tokens.erase (g, q, k, v) } : State).putCell i (((s.cell i).setCtx k x).count fun n =>
        { n with late := n.late + 1 })).sendCredit v.credit).wake i) :
    ∃ t, exec (.tokenArrival g n) s = .next t ∧ (t.cell i).ctx k = x ∧
      ((s.cell i).freeze = false → (t.cell i).cnt.late = (s.cell i).cnt.late + 1) ∧ t.tokens = s.tokens.erase (g, q, k, v) ∧
      t.credits = s.credits ++ v.credit.toList := by
  refine ⟨_, (tokenArrival_eq pos next).trans (congrArg Host.Outcome.next late), ?_⟩
  have cell := State.cell_putCell_self ({ s with tokens := s.tokens.erase (g, q, k, v) } : State)
    (((s.cell i).setCtx k x).count fun n => { n with late := n.late + 1 }) (s.posOf_lt pos)
  rw [State.sendCredit_eq, State.wake_of_not_held]
  · show ((State.cell (State.putCell _ i _) i).ctx k = x) ∧ _
    refine ⟨?_, fun counts => ?_, rfl, rfl⟩
    · rw [cell, Cell.count_ctx, Cell.setCtx_ctx]
    · show (State.cell (State.putCell _ i _) i).cnt.late = _
      rw [cell, Cell.count_cnt _ _ ((Cell.setCtx_freeze ..).trans counts), Cell.setCtx_cnt]
  · show (State.cell (State.putCell _ i _) i).held = none
    rw [cell, Cell.count_held, Cell.setCtx_held, free]

/-! ## Credits (R63) -/

/-- What CREDIT_RETURN does with the credit that it takes. -/
def State.creditTake (s : State) (cr : Option CreditRef) (pos : Option Nat) : State :=
  match cr, pos with
  | some (.counter g k cr), some i =>
    if (s.cell i).st = 8 then s else
    ({ s with credits := s.credits.erase (.counter g k cr) }.creditArrive g k cr).resumeStreams i
  | _, _ => s

theorem creditReturn_eq {s : State} {g n : Nat} {cr : Option CreditRef}
    (at_ : (s.credits.filter fun r => match r with | .counter g' _ _ => g' == g | _ => false)[n]? = cr) :
    exec (.creditReturn g n) s = .next (s.creditTake cr (s.posOf g)) := by
  subst at_
  rfl

/-! ## Timeouts (R64, R255, R256) -/

/-- The context that a timeout of the held step w leaves. -/
def Ctx.expired (x : Ctx) (w : StepWord) : Ctx :=
  let ts := if kindOf w = 4 then [] else (x.queue (qOf w)).toks
  let y := (x.modQueue (qOf w) fun u => { u with toks := u.toks.drop ts.length, popped := u.popped ++ ts.map (·.credit) }).setScalar
    (sdOf w) (BitVec.ofNat 64 (2 ^ 63 + ts.length))
  if kindOf w = 4 then { y with owedAny := y.owedAny ++ [BitVec.ofNat 16 (imm16Of w)] }
  else y.modQueue (qOf w) fun u => { u with owed := u.owed + (max 1 (min 64 (imm16Of w)) - ts.length) }

/-- A WAIT's tokens leave with it. -/
theorem Ctx.expired_wait (x : Ctx) {w : StepWord} (wait : kindOf w = 3) : x.expired w =
    (((x.modQueue (qOf w) fun u => { u with toks := [], popped := u.popped ++ u.toks.map Token.credit }).setScalar (sdOf w)
      (BitVec.ofNat 64 (2 ^ 63 + (x.queue (qOf w)).toks.length))).modQueue (qOf w) fun u =>
        { u with owed := u.owed + (max 1 (min 64 (imm16Of w)) - (x.queue (qOf w)).toks.length) }) := by
  have other : ¬ kindOf w = 4 := by omega
  simp only [Ctx.expired, if_neg other]
  rw [Ctx.modQueue_congr (f := fun u => { u with
    toks := u.toks.drop (x.queue (qOf w)).toks.length, popped := u.popped ++ (x.queue (qOf w)).toks.map (·.credit) })
    (f' := fun u => { u with toks := [], popped := u.popped ++ u.toks.map Token.credit })
    (by simp only [List.drop_length])]

/-- A WAITANY pops nothing. -/
theorem Ctx.expired_waitany (x : Ctx) {w : StepWord} (wait : kindOf w = 4) : x.expired w =
    { x.setScalar (sdOf w) (BitVec.ofNat 64 (2 ^ 63)) with owedAny := x.owedAny ++ [BitVec.ofNat 16 (imm16Of w)] } := by
  simp only [Ctx.expired, if_pos wait]
  rw [Ctx.modQueue_id (by simp)]
  rfl

theorem Cell.setCur_comp_cur (c : Cell) (x : Ctx) (y : Compute) : ({ c.setCur x with comp := y } : Cell).cur = x :=
  (show _ = (c.setCur x).cur from rfl).trans (Cell.setCur_cur ..)

theorem Cell.setCur_comp_setCur (c : Cell) (x z : Ctx) (y : Compute) :
    ({ c.setCur x with comp := y } : Cell).setCur z = { c.setCur z with comp := y } := by
  have cls : ({ c.setCur x with comp := y } : Cell).cls = c.cls := Cell.setCur_cls ..
  rw [Cell.setCur, cls, Cell.setCur, Cell.setCur]
  cases c.cls <;> rfl

/-- The cell after a timeout of the step w, with y in its compute registers, before it faults. -/
def Cell.expired (c : Cell) (w : StepWord) (y : Compute) (now : Nat) : Cell :=
  let e := ({ c.setCur (c.cur.expired w) with comp := y } : Cell).count fun k => { k with timeouts := k.timeouts + 1 }
  { e.waited now with st := if e.st = 2 then 1 else e.st, held := none }

section
variable (c : Cell) (w : StepWord) (y : Compute) (now : Nat)

theorem Cell.expired_frame : ∃ n, c.expired w y now =
    let e := ({ c.setCur (c.cur.expired w) with comp := y } : Cell).count fun k => { k with timeouts := k.timeouts + 1 }
    { e with st := if c.st = 2 then 1 else c.st, held := none, cnt := { e.cnt with wait := n } } := by
  obtain ⟨held, n, frame⟩ := Cell.waited_frame
    (({ c.setCur (c.cur.expired w) with comp := y } : Cell).count fun k => { k with timeouts := k.timeouts + 1 }) now
  refine ⟨n, ?_⟩
  simp only [Cell.expired, frame, Cell.count_st]
  rw [show ({ c.setCur (c.cur.expired w) with comp := y } : Cell).st = c.st from Cell.setCtx_st ..]

theorem Cell.expired_spec : (c.expired w y now).st = (if c.st = 2 then 1 else c.st) ∧ (c.expired w y now).held = none ∧
    (c.expired w y now).cur = c.cur.expired w ∧
    (c.freeze = false → (c.expired w y now).cnt.timeouts = c.cnt.timeouts + 1) ∧ (c.expired w y now).job = c.job ∧
    (c.expired w y now).scratch = c.scratch := by
  obtain ⟨n, frame⟩ := c.expired_frame w y now
  rw [frame]
  refine ⟨rfl, rfl, ?_, fun counts => ?_, ?_, ?_⟩
  · show (Cell.count _ _).cur = _
    rw [Cell.count_cur, Cell.setCur_comp_cur]
  · show (Cell.count _ _).cnt.timeouts = _
    have free : ({ c.setCur (c.cur.expired w) with comp := y } : Cell).freeze = false := (Cell.setCtx_freeze ..).trans counts
    rw [Cell.count_cnt _ _ free]
    exact congrArg (fun k : CellCnt => k.timeouts + 1) (Cell.setCtx_cnt ..)
  · exact (Cell.count_job ..).trans (Cell.setCtx_job ..)
  · exact (Cell.count_scratch ..).trans (Cell.setCtx_scratch ..)
end

/-- The state after a timeout of the step w: the cell expires, and faults for a popped status or with FLAGS[0]. -/
theorem State.declareTimeout_eq {s : State} {i : Nat} (hi : i < s.cells.length) (w : StepWord) : ∃ y n,
    let ts := if kindOf w = 4 then [] else ((s.cell i).cur.queue (qOf w)).toks
    let u := ({ s with drawn := n } : State).putCell i ((s.cell i).expired w y (s.now (.cell i)))
    s.declareTimeout i w = if ts.any (fun t => t.status != 0) then u.remoteStatus i ts
      else if flagOf w 0 then u.cellFault i 7 0 0 0 none else u := by
  obtain ⟨y, n, pop⟩ := State.popTokens_lands hi (s.cell i) (qOf w)
    (if kindOf w = 4 then [] else ((s.cell i).cur.queue (qOf w)).toks)
  rw [State.putCell_cell] at pop
  refine ⟨y, n, ?_⟩
  simp only [State.declareTimeout, pop, State.setSd_putCell { s with drawn := n } _ _ hi,
    State.modCtx_putCell { s with drawn := n } _ _ hi, State.modCell_putCell (s := { s with drawn := n }) hi,
    State.resume_eq (s := { s with drawn := n }) hi, Cell.withScalar, Cell.setCur_comp_cur, Cell.setCur_comp_setCur]
  rfl

/-- REMOTE_STATUS of a token that names no row engine (R66). -/
theorem State.remoteStatus_some (s : State) (i : Nat) {ts : List Token} (some : ∃ u ∈ ts, u.status ≠ 0)
    (own : ∀ u ∈ ts, u.status ≠ 0 → u.engine = none) : ∃ info, s.remoteStatus i ts = s.cellFault i 8 0 0 info none := by
  unfold State.remoteStatus
  cases found : ts.find? (fun t => t.status != 0) with
  | none =>
    obtain ⟨u, hu, nonzero⟩ := some
    exact absurd (List.find?_eq_none.1 found u hu) (by simpa using nonzero)
  | some u =>
    have nonzero : u.status ≠ 0 := by simpa using List.find?_some found
    rw [← own u (List.mem_of_find?_eq_some found) nonzero]
    exact ⟨_, rfl⟩

/-- TIMEOUT_EDGE ends the wait of the held step w; with a cause other than 0 the cell is FAULTED with it. -/
def TimeoutEnds (s : State) (g i : Nat) (w : StepWord) (cause : Nat) : Prop :=
  ∃ t, exec (.timeoutEdge g) s = .next t ∧ (t.cell i).st = (if cause = 0 then 1 else 3) ∧ (t.cell i).held = none ∧
    (t.cell i).cur = (s.cell i).cur.expired w ∧
    (cause ≠ 0 → (t.cell i).fault.valid = true ∧ (t.cell i).fault.cause = cause) ∧
    ((s.cell i).freeze = false → (t.cell i).cnt.timeouts = (s.cell i).cnt.timeouts + 1) ∧ (t.cell i).job = (s.cell i).job ∧
    (t.cell i).scratch = (s.cell i).scratch

section
variable {s : State} {g i : Nat} {h : Held} {dl : Nat} (pos : s.posOf g = some i) (waits : (s.cell i).st = 2)
  (held : (s.cell i).held = some h) (deadline : h.deadline = some dl)
include pos waits held deadline

theorem timeoutEdge_eq : exec (.timeoutEdge g) s =
    .next (if dl ≤ s.now (.cell i) then s.declareTimeout i h.w else s) := by
  show Host.Outcome.next (s.timeoutEdge g) = _
  rw [State.timeoutEdge, pos]
  simp only [held, deadline, waits, true_and]

/-- TIMEOUT_EDGE at or past the deadline: the cell expires, and faults for a popped status or with FLAGS[0] (R64, R255, R256). -/
theorem timeoutEdge_ends (due : dl ≤ s.now (.cell i)) {cause : Nat} {toks : List Token}
    (popped : (if kindOf h.w = 4 then [] else ((s.cell i).cur.queue (qOf h.w)).toks) = toks)
    (own : ∀ u ∈ toks, u.status ≠ 0 → u.engine = none)
    (why : cause = if toks.any (fun u => u.status != 0) then 8 else if flagOf h.w 0 then 7 else 0) :
    TimeoutEnds s g i h.w cause := by
  obtain ⟨y, n, declared⟩ := State.declareTimeout_eq (s.posOf_lt pos) h.w
  obtain ⟨st, free, cur, counted, job, scratch⟩ := (s.cell i).expired_spec h.w y (s.now (.cell i))
  rw [popped] at declared
  dsimp only at declared
  have run {t : State} (ends : s.declareTimeout i h.w = t) : exec (.timeoutEdge g) s = .next t :=
    (timeoutEdge_eq pos waits held deadline).trans (congrArg Host.Outcome.next ((if_pos due).trans ends))
  have hi := s.posOf_lt pos
  have fault {info : Nat} (nonzero : cause ≠ 0) (ends : s.declareTimeout i h.w = (({ s with drawn := n } : State).putCell i
      ((s.cell i).expired h.w y (s.now (.cell i)))).cellFault i cause 0 0 info none) :
      TimeoutEnds s g i h.w cause := by
    have told := State.cellFault_told (s := { s with drawn := n }) hi ((s.cell i).expired h.w y (s.now (.cell i))) cause 0 0 info
    have cell := (told.cell i).trans (State.cell_putCell_self { s with drawn := n } _ hi)
    refine ⟨_, run ends, ?_⟩
    rw [cell, if_neg nonzero]
    exact ⟨rfl, rfl, cur, fun _ => ⟨rfl, rfl⟩, counted, job, scratch⟩
  by_cases status : toks.any (fun u => u.status != 0) = true
  · rw [if_pos status] at declared why
    obtain ⟨u, hu, nonzero⟩ := List.any_eq_true.1 status
    obtain ⟨info, remote⟩ := State.remoteStatus_some (({ s with drawn := n } : State).putCell i
      ((s.cell i).expired h.w y (s.now (.cell i)))) i ⟨u, hu, by simpa using nonzero⟩ own
    exact fault (by omega) (declared.trans (remote.trans (by rw [why])))
  · rw [if_neg status] at declared why
    by_cases flag : flagOf h.w 0 = true
    · rw [if_pos flag] at declared why
      exact fault (by omega) (declared.trans (by rw [why]))
    · rw [if_neg flag] at declared why
      refine ⟨_, run declared, ?_⟩
      rw [State.cell_putCell_self { s with drawn := n } _ hi, if_pos why, st, if_pos waits]
      exact ⟨rfl, free, cur, fun nonzero => absurd why nonzero, counted, job, scratch⟩
end

/-! ## The end of a faulted job (R72, R308) -/

/-- A fold whose every step is within a reflexive and transitive relation is within it. -/
theorem foldl_within {α σ : Type} {R : σ → σ → Prop} (refl : ∀ s, R s s) (trans : ∀ {s t u}, R s t → R t u → R s u) {F : σ → α → σ}
    (step : ∀ s a, R s (F s a)) (l : List α) (s : σ) : R s (l.foldl F s) := by
  induction l generalizing s with
  | nil => exact refl s
  | cons a l ih => exact trans (step s a) (ih _)

/-- From s to t the compression contexts alone may have changed. -/
def State.CmpOnly (s t : State) : Prop := ∃ cmp, t = { s with cmp := cmp }

theorem State.CmpOnly.refl (s : State) : s.CmpOnly s := ⟨_, rfl⟩

theorem State.CmpOnly.trans {s t u : State} (h : s.CmpOnly t) (k : t.CmpOnly u) : s.CmpOnly u := by
  obtain ⟨_, rfl⟩ := h
  obtain ⟨_, rfl⟩ := k
  exact ⟨_, rfl⟩

theorem State.unqueue_cmpOnly (s : State) (p : Nat) (bs : List Block) : s.CmpOnly (s.unqueue p bs) :=
  foldl_within .refl .trans (fun s b => foldl_within .refl .trans (fun s g => by
    unfold State.countChange
    split
    · exact .refl s
    · exact ⟨_, rfl⟩) b.queued s) bs s

theorem State.unqueue_nil (s : State) (p : Nat) : s.unqueue p [] = s := rfl

/-- The running job ends: its cell is as `Cell.endJob` says, its batch hears of it, and blocks that do not land give back what they
count in QUEUED (R72, R232, R308). -/
theorem State.endJob_putCell {s : State} {i : Nat} (hi : i < s.cells.length) (c : Cell) {j : Job} (job : c.job = some j)
    (status cause : Nat) : ∃ cmp, (s.putCell i c).endJob i status cause = { s.putCell i (c.endJob j.cls) with
      batches := modWhere s.batches (fun b => b.handle == j.handle) (·.jobEnded (c.logical.getD 0x1FF) status cause)
      cmp := cmp } ∧ ((∀ x ∈ c.port.slots, x.blocks = []) → cmp = s.cmp) := by
  obtain ⟨cmp, fold⟩ := foldl_within State.CmpOnly.refl State.CmpOnly.trans
    (fun u (x : Slot) => State.unqueue_cmpOnly u (c.part.getD 0) (x.blocks.filter x.discarded)) c.port.slots (s.putCell i c)
  refine ⟨cmp, ?_, fun empty => ?_⟩
  · rw [State.endJob, State.cell_putCell_self _ _ hi]
    simp only [job]
    rw [fold]
    exact congrArg (fun u : State => u.modBatch j.handle (·.jobEnded (c.logical.getD 0x1FF) status cause))
      (State.modCell_putCell (s := { s with cmp := cmp }) hi c fun c => c.endJob j.cls)
  · have same : c.port.slots.foldl (fun u x => u.unqueue (c.part.getD 0) (x.blocks.filter x.discarded)) (s.putCell i c) =
        s.putCell i c := observe_foldl_keep (obs := id) _ (fun u x hx => by rw [empty x hx, List.filter_nil, State.unqueue_nil]) _
    exact congrArg State.cmp (fold.symm.trans same)

theorem Cell.endJob_scratch (c : Cell) (k : Cls) : (c.endJob k).scratch = c.scratch := Cell.setCtx_scratch ..
theorem Cell.endJob_fault (c : Cell) (k : Cls) : (c.endJob k).fault = c.fault := Cell.setCtx_fault ..

/-- JOB_ENDED of a faulted cell (R72, R308). -/
theorem jobEnded_faulted {s : State} {g i : Nat} (pos : s.posOf g = some i) {j : Job} (faulted : (s.cell i).st = 3)
    (job : (s.cell i).job = some j) : ∃ cmp,
    exec (.jobEnded g) s = .next { s.putCell i (({ s.cell i with st := 1 } : Cell).endJob j.cls) with
      batches := modWhere s.batches (fun b => b.handle == j.handle) (·.jobEnded g 1 (s.cell i).fault.cause), cmp := cmp } ∧
    ((∀ x ∈ (s.cell i).port.slots, x.blocks = []) → cmp = s.cmp) := by
  obtain ⟨cmp, ended, same⟩ := State.endJob_putCell (s.posOf_lt pos) { s.cell i with st := 1 } job 1 (s.cell i).fault.cause
  refine ⟨cmp, ?_, same⟩
  have logical : (s.cell i).logical.getD 0x1FF = g := by rw [State.posOf_logical pos]; rfl
  rw [logical] at ended
  show Host.Outcome.next (s.jobEndedAt g) = _
  rw [State.jobEndedAt, pos]
  dsimp only
  rw [if_neg (not_not.2 faulted), if_neg (by rw [job]; exact Bool.false_ne_true), State.modCell_eq_putCell]
  exact congrArg Host.Outcome.next ended

/-- Settles O18: each event is one case of its function, and what the cell waits for is tried again at its end. -/
theorem cellEvents : Obligations.CellEvents := by
  unfold Obligations.CellEvents
  intro s g i n c
  refine ⟨State.wake_of_not_held, ?_, fun k cr pos at_ present => ?_, ?_, fun j pos faulted job => ?_, fun pos other => ?_,
    fun pos faulted job => ?_, fun hi b => ?_, fun hi => ?_, fun hi => ?_⟩
  · intro q k v pos next x full s1
    refine ⟨fun owed any room => ?_, fun owed any overfull job cls => ?_, fun owed any overfull other => ?_, fun free owed => ?_,
      fun free owed j m at_ meets first => ?_⟩
    · exact (tokenArrival_eq pos next).trans (congrArg Host.Outcome.next (State.tokenArrive_enters (s := s1) owed any room))
    · have told := State.cellFault_told (s := s1) (s.posOf_lt pos) c 6 0 0 q
      rw [show s1.putCell i c = s1 from State.putCell_cell s1 i] at told
      refine ⟨_, (tokenArrival_eq pos next).trans
        (congrArg Host.Outcome.next (State.tokenArrive_overflow (s := s1) owed any overfull job cls)), ?_⟩
      rw [told.cell, told.tokens, State.cell_putCell_self s1 _ (s.posOf_lt pos)]
      exact ⟨rfl, rfl, rfl, rfl, by cases k <;> rfl, rfl⟩
    · exact (tokenArrival_eq pos next).trans
        (congrArg Host.Outcome.next (State.tokenArrive_held (s := s1) owed any overfull other))
    · exact tokenArrival_late pos next free (State.tokenArrive_owed (s := s1) owed)
    · refine tokenArrival_late pos next free (State.tokenArrive_owedAny (s := s1) owed ?_)
      obtain ⟨hj, rfl⟩ := List.getElem?_eq_some_iff.1 at_
      refine List.findIdx?_eq_some_iff_getElem.2 ⟨hj, meets, fun j' before => ?_⟩
      exact Bool.eq_false_iff.1 (first j' before _ (List.getElem?_eq_getElem (before.trans hj)))
  · rw [creditReturn_eq at_, pos]
    show Host.Outcome.next (if (s.cell i).st = 8 then s else _) = _
    rw [if_neg present]
    refine congrArg (fun u : State => Host.Outcome.next (u.resumeStreams i)) ?_
    rw [State.creditArrive, show ({ s with credits := s.credits.erase (.counter g k cr) } : State).posOf g = some i from pos]
    simp only [State.modCell_eq_putCell]
    rfl
  · intro h dl pos waits held deadline x q toks popped owes owesAny ended
    have ends {st cause : Nat} {y : Ctx} (e : TimeoutEnds s g i h.w cause) (state : st = if cause = 0 then 1 else 3)
        (cur : x.expired h.w = y) : ended st cause y := by
      obtain ⟨t, run, hst, free, left, fault, rest⟩ := e
      exact ⟨t, run, hst.trans state.symm, free, left.trans cur, fun three => fault fun zero => by simp [zero, three] at state, rest⟩
    have clear (clean : ∀ u ∈ toks, u.status = 0) : toks.any (fun u => u.status != 0) = false :=
      List.any_eq_false.2 fun u hu => by simp [clean u hu]
    have of_wait (wait : kindOf h.w = 3) : (if kindOf h.w = 4 then [] else (x.queue q).toks) = toks := if_neg (by omega)
    refine ⟨fun early => ?_, fun due => ⟨fun wait clean flag => ?_, fun wait clean flag => ?_, fun wait own bad flag => ?_,
      fun wait flag => ?_, fun wait flag => ?_⟩⟩
    · rw [timeoutEdge_eq pos waits held deadline, if_neg (by omega)]
    · exact ends (timeoutEdge_ends pos waits held deadline due (of_wait wait) (fun u hu bad => absurd (clean u hu) bad)
        (by rw [clear clean, flag]; rfl)) rfl (x.expired_wait wait)
    · exact ends (timeoutEdge_ends pos waits held deadline due (of_wait wait) (fun u hu bad => absurd (clean u hu) bad)
        (by rw [clear clean, flag]; rfl)) rfl (x.expired_wait wait)
    · refine ends (timeoutEdge_ends pos waits held deadline due (of_wait wait) (fun u hu _ => own u hu) ?_) rfl (x.expired_wait wait)
      obtain ⟨u, hu, nonzero⟩ := bad
      rw [List.any_eq_true.2 ⟨u, hu, by simpa using nonzero⟩]
      rfl
    · exact ends (timeoutEdge_ends pos waits held deadline due (if_pos wait) (by simp) (by rw [flag]; rfl)) rfl (x.expired_waitany wait)
    · exact ends (timeoutEdge_ends pos waits held deadline due (if_pos wait) (by simp) (by rw [flag]; rfl)) rfl (x.expired_waitany wait)
  · obtain ⟨cmp, run, same⟩ := jobEnded_faulted pos faulted job
    refine ⟨_, run, ?_⟩
    rw [show State.cell { s.putCell i _ with batches := _, cmp := cmp } i = _ from State.cell_putCell_self s _ (s.posOf_lt pos)]
    refine ⟨?_, rfl, rfl, Cell.endJob_scratch .., Cell.endJob_fault .., rfl, same⟩
    show (if 4 ≤ 1 then 1 else if c.pend.drain ∧ c.susp.isNone then 4 else 0) = _
    simp only [Option.isNone_iff_eq_none]
    rfl
  · show Host.Outcome.next (s.jobEndedAt g) = _
    rw [State.jobEndedAt, pos]
    exact congrArg Host.Outcome.next (if_pos other)
  · show Host.Outcome.next (s.jobEndedAt g) = _
    rw [State.jobEndedAt, pos]
    exact congrArg Host.Outcome.next ((if_neg (not_not.2 faulted)).trans
      ((if_pos (Option.isNone_iff_eq_none.2 job)).trans (State.modCell_eq_putCell ..)))
  · exact congrArg Host.Outcome.next (State.modCell_eq_putCell ..)
  · exact congrArg Host.Outcome.next (State.modCell_eq_putCell ..)
  · refine ⟨_, congrArg Host.Outcome.next (State.modCell_eq_putCell ..), ?_⟩
    rw [State.cell_putCell_self _ _ hi]
    refine ⟨rfl, rfl, rfl, rfl, rfl, fun x hx => ?_, rfl⟩
    obtain ⟨y, -, rfl⟩ := List.mem_map.1 hx
    exact ⟨rfl, rfl, rfl, rfl, rfl⟩

end Sys2Proof.Machine

namespace Sys2Proof.Machine

/-! ## Steps that pop tokens: WAIT, WAITANY and EBIND (R64, R66, R118, R307) -/

/-- The compute registers x become y where the tokens ts are popped: without the token of a gather they stay, and a single one lands
its output where no step has written the register meanwhile (R118). -/
def Compute.Lands (x : Compute) (ts : List Token) (y : Compute) : Prop :=
  ((∀ u ∈ ts, u.tile = none) → y = x) ∧
  ∀ v k d, ts = [v] → v.tile = some k → x.lands.find? (fun d => d.req == k) = some d → x.tile d.td = d.junk →
    y = { x with lands := x.lands.filter fun d => d.req != k }.land d

/-- The context with k tokens of queue q popped that were ts, and v in SD. -/
def Ctx.took (x : Ctx) (q : Nat) (ts : List Token) (w : StepWord) (v : Nat) : Ctx :=
  (x.modQueue q fun u => { u with toks := u.toks.drop ts.length, popped := u.popped ++ ts.map Token.credit }).setScalar (sdOf w)
    (BitVec.ofNat 64 v)

/-- The cell d is the cell c after it has popped the tokens ts of queue q and runs on, with v in SD. -/
structure Cell.Took (c : Cell) (q : Nat) (ts : List Token) (w : StepWord) (v : Nat) (d : Cell) : Prop where
  st : d.st = if c.st = 2 then 1 else c.st
  held : d.held = none
  cur : d.cur = c.cur.took q ts w v
  scratch : d.scratch = c.scratch
  job : d.job = c.job
  comp : c.comp.Lands ts d.comp

theorem Cell.eq_with_comp {c : Cell} {y : Compute} (same : c.comp = y) : c = { c with comp := y } := by
  subst same
  rfl

section
variable {s : State} {i : Nat} (hi : i < s.cells.length)
include hi

theorem State.landTile_untouched (c : Cell) {id : Nat} {d : TileLand} (found : c.comp.lands.find? (fun d => d.req == id) = some d)
    (junk : c.comp.tile d.td = d.junk) : (s.putCell i c).landTile i id =
      s.putCell i { c with comp := { c.comp with lands := c.comp.lands.filter fun d => d.req != id }.land d } := by
  rw [State.landTile, State.cell_putCell_self _ _ hi, found]
  dsimp only
  rw [State.modComp_putCell _ _ _ hi, State.cell_putCell_self _ _ hi]
  exact (if_pos junk).trans (State.modComp_putCell _ _ _ hi _)

/-- Popped tokens leave their queue, and land what they are to land. -/
theorem State.popTokens_took (c : Cell) (q : Nat) (ts : List Token) : ∃ y n, c.comp.Lands ts y ∧ (s.putCell i c).popTokens i q ts =
    ({ s with drawn := n } : State).putCell i { c.setCur (c.cur.modQueue q fun u =>
      { u with toks := u.toks.drop ts.length, popped := u.popped ++ ts.map (·.credit) }) with comp := y } := by
  by_cases plain : ∀ u ∈ ts, u.tile = none
  · refine ⟨c.comp, s.drawn, ⟨fun _ => rfl, fun v k d one tile => ?_⟩, ?_⟩
    · exact absurd (plain v (one ▸ List.mem_singleton_self v)) (by simp [tile])
    · rw [State.popTokens_putCell _ _ _ hi _ _ (List.filterMap_eq_nil_iff.2 plain)]
      exact congrArg (s.putCell i) (Cell.eq_with_comp (Cell.setCur_comp ..))
  by_cases lands : ∃ v k d, ts = [v] ∧ v.tile = some k ∧ c.comp.lands.find? (fun d => d.req == k) = some d ∧
      c.comp.tile d.td = d.junk
  · obtain ⟨v, k, d, rfl, tile, found, junk⟩ := lands
    refine ⟨({ c.comp with lands := c.comp.lands.filter fun d => d.req != k } : Compute).land d, s.drawn,
      ⟨fun none_ => absurd none_ plain, fun v' k' d' one tile' found' _ => ?_⟩, ?_⟩
    · obtain rfl : v = v' := by simpa using one
      obtain rfl : k = k' := Option.some.inj (tile.symm.trans tile')
      obtain rfl : d = d' := Option.some.inj (found.symm.trans found')
      rfl
    · rw [State.popTokens, State.modCtx_putCell _ _ _ hi]
      simp only [List.filterMap_cons, tile, List.filterMap_nil, List.foldl_cons, List.foldl_nil]
      rw [State.landTile_untouched hi _ (by rw [Cell.setCur_comp]; exact found) (by rw [Cell.setCur_comp]; exact junk),
        Cell.setCur_comp]
  · obtain ⟨y, n, pop⟩ := State.popTokens_lands hi c q ts
    refine ⟨y, n, ⟨fun none_ => absurd none_ plain, fun v k d one tile found junk => ?_⟩, pop⟩
    exact absurd ⟨v, k, d, one, tile, found, junk⟩ lands

/-- Tokens popped, SD written, and the cell runs on. -/
theorem State.took (c : Cell) (q : Nat) (ts : List Token) (w : StepWord) (v : Nat) : ∃ d n, c.Took q ts w v d ∧
    (((s.putCell i c).popTokens i q ts).setSd i w v).resume i = ({ s with drawn := n } : State).putCell i d := by
  obtain ⟨y, n, lands, pop⟩ := State.popTokens_took hi c q ts
  rw [pop, State.setSd_putCell { s with drawn := n } _ _ hi]
  obtain ⟨d, run, held, st, same⟩ := State.resume_putCell { s with drawn := n } i _ hi
  refine ⟨d, n, ?_, run⟩
  have st' : d.st = if c.st = 2 then 1 else c.st := by
    rw [st, Cell.withScalar_st]
    exact congrArg (fun n => if n = 2 then 1 else n) (Cell.setCur_st ..)
  rw [same]
  refine ⟨by rw [← st'], rfl, ?_, ?_, ?_, ?_⟩
  · show (Cell.withScalar _ _ _).cur = _
    rw [Cell.withScalar_cur, Cell.setCur_comp_cur]
    rfl
  · exact (Cell.withScalar_scratch ..).trans (Cell.setCur_scratch ..)
  · exact (Cell.withScalar_job ..).trans (Cell.setCur_job ..)
  · show c.comp.Lands ts (Cell.withScalar _ _ _).comp
    rw [Cell.withScalar_comp]
    exact lands
end

/-- The step popped the tokens ts, of which none names a row engine, and left the running context at y: without a status it is
complete, and a single token with one is a REMOTE_STATUS (R64, R66). -/
def StepPops (s : State) (i : Nat) (r : Host.Outcome State Fault Refusal) (ts : List Token) (y : Ctx) : Prop :=
  ∃ t, r = .next t ∧ (t.cell i).held = none ∧ (t.cell i).cur = y ∧ (t.cell i).scratch = (s.cell i).scratch ∧
    (t.cell i).job = (s.cell i).job ∧ (s.cell i).comp.Lands ts (t.cell i).comp ∧
    ((∀ u ∈ ts, u.status = 0) → (t.cell i).st = 1 ∧ t = { s.putCell i (t.cell i) with drawn := t.drawn }) ∧
    (∀ v, ts = [v] → v.status ≠ 0 → (t.cell i).st = 3 ∧ (t.cell i).fault.valid = true ∧ (t.cell i).fault.cause = 8 ∧
      (t.cell i).fault.info = 256 * v.status + v.value.toNat % 16 ∧ t.mem = s.mem ∧ t.tokens = s.tokens)

/-- REMOTE_STATUS, with the status and low bits of the token where it alone was popped (R66, R71). -/
theorem State.remoteStatus_fault (s : State) (i : Nat) {ts : List Token} (bad : ¬ ∀ u ∈ ts, u.status = 0)
    (own : ∀ u ∈ ts, u.engine = none) : ∃ info, s.remoteStatus i ts = s.cellFault i 8 0 0 info none ∧
      ∀ v, ts = [v] → info = 256 * v.status + v.value.toNat % 16 := by
  by_cases one : ∃ v, ts = [v]
  · obtain ⟨v, rfl⟩ := one
    have nonzero : (v.status != 0) = true := by simpa using bad
    refine ⟨256 * v.status + v.value.toNat % 16, ?_, fun u one => by rw [List.singleton_inj.1 one]⟩
    simp only [State.remoteStatus, List.find?_cons, nonzero, own v (List.mem_singleton_self v)]
  · obtain ⟨info, same⟩ := State.remoteStatus_some s i (ts := ts) (by simpa using bad) fun u hu _ => own u hu
    exact ⟨info, same, fun v is => absurd ⟨v, is⟩ one⟩

/-- The context of which the tokens are popped is the one that the issue has left. -/
theorem State.Ready.pops {s : State} {k g i p q : Nat} {w : StepWord} (h : s.Ready k g w i p) {r : Host.Outcome State Fault Refusal}
    {ts : List Token} {v : Nat} (own : ∀ u ∈ ts, u.engine = none)
    (run : r = .next ((((((s.putCell i (s.cell i).issued).popTokens i q ts).setSd i w v).resume i).remoteStatus i ts))) :
    StepPops s i r ts (({ (s.cell i).cur with step := (s.cell i).cur.step + 1 } : Ctx).took q ts w v) := by
  obtain ⟨d, n, took, done⟩ := State.took h.lt (s.cell i).issued q ts w v
  have cell := State.cell_putCell_self { s with drawn := n } d h.lt
  have runs : d.st = 1 := by rw [took.st, Cell.issued_st, h.2.2.1]; rfl
  have cur := took.cur
  have comp := took.comp
  rw [Cell.issued_cur] at cur
  rw [Cell.issued_comp] at comp
  have scratch := took.scratch.trans (Cell.issued_scratch _)
  have job := took.job.trans (Cell.issued_job _)
  rw [done] at run
  by_cases clean : ∀ u ∈ ts, u.status = 0
  · rw [State.remoteStatus_none _ _ _ clean] at run
    refine ⟨_, run, ?_⟩
    rw [cell]
    exact ⟨took.held, cur, scratch, job, comp, fun _ => ⟨runs, rfl⟩,
      fun v one bad => absurd (clean v (one ▸ List.mem_singleton_self v)) bad⟩
  · obtain ⟨info, fault, only⟩ := State.remoteStatus_fault (({ s with drawn := n } : State).putCell i d) i clean own
    have told := State.cellFault_told (s := { s with drawn := n }) h.lt d 8 0 0 info
    rw [← fault] at told
    refine ⟨_, run, ?_⟩
    rw [told.cell, told.mem, told.tokens, State.cell_putCell_self { s with drawn := n } _ h.lt]
    exact ⟨rfl, cur, scratch, job, comp, fun zero => absurd zero clean, fun v one _ => ⟨rfl, rfl, rfl, only v one, rfl, rfl⟩⟩

section
variable {s : State} {g i p : Nat} {w : StepWord}

/-- A step that waits holds the cell in WAITING (R64, R69). -/
theorem State.Ready.holds {k : Nat} (h : s.Ready k g w i p) (dl : Option Nat) :
    (s.putCell i (s.cell i).issued).orHold i w (false, s.putCell i (s.cell i).issued) dl =
      s.putCell i { (s.cell i).issued with st := 2, held := some ⟨w, s.now (.cell i), dl⟩ } := by
  rw [State.orHold, if_neg Bool.false_ne_true, State.hold_putCell _ _ _ h.lt]

theorem State.Ready.wait_pops (h : s.Ready 0x03 g w i p) {v : Token}
    (enough : max 1 (min 64 (imm16Of w)) ≤ ((s.cell i).cur.queue (qOf w)).toks.length)
    (last : (((s.cell i).cur.queue (qOf w)).toks.take (max 1 (min 64 (imm16Of w)))).getLast? = some v) : exec (.wait g w) s =
      .next ((((((s.putCell i (s.cell i).issued).popTokens i (qOf w)
        (((s.cell i).cur.queue (qOf w)).toks.take (max 1 (min 64 (imm16Of w))))).setSd i w v.value.toNat).resume i).remoteStatus i
        (((s.cell i).cur.queue (qOf w)).toks.take (max 1 (min 64 (imm16Of w)))))) := by
  show execWait g w s = _
  rw [execWait, h.issue, State.waitTry]
  simp only [State.cell_putCell_self _ _ h.lt, Cell.issued_cur, Ctx.queue_step, if_pos enough, last, State.orHold, if_true,
    Option.map_some, Option.getD_some]

theorem State.Ready.wait_holds (h : s.Ready 0x03 g w i p)
    (few : ((s.cell i).cur.queue (qOf w)).toks.length < max 1 (min 64 (imm16Of w))) : exec (.wait g w) s =
      .next (s.putCell i { (s.cell i).issued with st := 2, held := some ⟨w, s.now (.cell i), s.waitDeadline i w⟩ }) := by
  show execWait g w s = _
  rw [execWait, h.issue, State.waitTry]
  simp only [State.cell_putCell_self _ _ h.lt, Cell.issued_cur, Ctx.queue_step, if_neg (not_le.2 few)]
  exact congrArg Host.Outcome.next (h.holds _)

theorem State.Ready.waitany_pops (h : s.Ready 0x04 g w i p) {r : Nat} {v : Token} {l : List Token} (small : r < 16)
    (bit : (imm16Of w).testBit r = true) (toks : ((s.cell i).cur.queue r).toks = v :: l)
    (first : ∀ r' < r, (imm16Of w).testBit r' = true → ((s.cell i).cur.queue r').toks = []) : exec (.waitany g w) s =
      .next ((((((s.putCell i (s.cell i).issued).popTokens i r [v]).setSd i w (2 ^ 48 * r + v.value.toNat)).resume i).remoteStatus i
        [v])) := by
  have found : (List.range 16).find? (fun q => (imm16Of w).testBit q && !((s.cell i).cur.queue q).toks.isEmpty) = some r := by
    refine List.find?_range_eq_some.2 ⟨by simp [bit, toks], List.mem_range.2 small, fun r' before => ?_⟩
    cases masked : (imm16Of w).testBit r' with
    | false => rfl
    | true => simp [first r' before masked]
  show execWaitany g w s = _
  rw [execWaitany, h.issue, State.waitAnyTry]
  simp only [State.cell_putCell_self _ _ h.lt, Cell.issued_cur, Ctx.queue_step, found, toks, State.orHold, if_true,
    List.take_succ_cons, List.take_zero, List.head?_cons, Option.map_some, Option.getD_some]

theorem State.Ready.waitany_holds (h : s.Ready 0x04 g w i p)
    (empty : ∀ r < 16, (imm16Of w).testBit r = true → ((s.cell i).cur.queue r).toks = []) : exec (.waitany g w) s =
      .next (s.putCell i { (s.cell i).issued with st := 2, held := some ⟨w, s.now (.cell i), s.waitDeadline i w⟩ }) := by
  have found : (List.range 16).find? (fun q => (imm16Of w).testBit q && !((s.cell i).cur.queue q).toks.isEmpty) = none := by
    refine List.find?_eq_none.2 fun r small => ?_
    cases masked : (imm16Of w).testBit r with
    | false => simp
    | true => simp [empty r (List.mem_range.1 small) masked]
  show execWaitany g w s = _
  rw [execWaitany, h.issue, State.waitAnyTry]
  simp only [State.cell_putCell_self _ _ h.lt, Cell.issued_cur, Ctx.queue_step, found]
  exact congrArg Host.Outcome.next (h.holds _)

/-- PARAM above the handle, as EBIND writes them (R307). -/
theorem ofNat_param_handle (param value : BitVec 32) :
    BitVec.ofNat 64 (value.toNat + 2 ^ 32 * param.toNat) = (param ++ value : BitVec (32 + 32)) := by
  refine BitVec.eq_of_toNat_eq ?_
  rw [BitVec.toNat_append, ← Nat.shiftLeft_add_eq_or_of_lt value.isLt, Nat.shiftLeft_eq, BitVec.toNat_ofNat,
    Nat.mod_eq_of_lt (by omega)]
  omega

theorem State.Ready.ebind_pops (h : s.Ready 0x07 g w i p) {j : Job} {v : Token} {l : List Token} (job : (s.cell i).job = some j)
    (toks : ((s.cell i).cur.queue (qOf w)).toks = v :: l) : exec (.ebind g w) s =
      .next (((((s.putCell i (s.cell i).issued).popTokens i (qOf w) [v]).setSd i w
        (v.value.toNat + 2 ^ 32 * j.param.toNat)).resume i)) := by
  show execEbind g w s = _
  rw [execEbind, h.issue, State.ebindTry]
  simp only [State.cell_putCell_self _ _ h.lt, Cell.issued_cur, Ctx.queue_step, Cell.issued_job, job, toks, State.orHold, if_true]

theorem State.Ready.ebind_holds (h : s.Ready 0x07 g w i p) (toks : ((s.cell i).cur.queue (qOf w)).toks = []) : exec (.ebind g w) s =
      .next (s.putCell i { (s.cell i).issued with st := 2, held := some ⟨w, s.now (.cell i), none⟩ }) := by
  show execEbind g w s = _
  rw [execEbind, h.issue, State.ebindTry]
  simp only [State.cell_putCell_self _ _ h.lt, Cell.issued_cur, Ctx.queue_step, toks]
  exact congrArg Host.Outcome.next (h.holds _)
end

end Sys2Proof.Machine

namespace Sys2Proof.Machine

/-! ## POSTT, POSTC and REL (R63, R244) -/

section
variable {s : State} {g i p : Nat} {w : StepWord}

theorem State.Ready.postt_sends (h : s.Ready 0x06 g w i p) {d q' : Nat} (credit : (s.cell i).cur.credits.getD (qOf w) 0 ≠ 0)
    (bound : (s.cell i).img.binds.getD (qOf w) none = some (d, q')) :
    ∃ t, exec (.postt g w) s = .next t ∧ (t.cell i).st = 1 ∧ (t.cell i).job = (s.cell i).job ∧
      (t.cell i).cur = { (s.cell i).cur with
        step := (s.cell i).cur.step + 1
        credits := (s.cell i).cur.credits.set (qOf w) ((s.cell i).cur.credits.getD (qOf w) 0 - 1) } ∧
      t = { s.putCell i (t.cell i) with tokens := s.tokens ++ [(d, q', (s.cell i).cls,
        ⟨((s.cell i).cur.scalar (saOf w)).setWidth 32, .cell g, false, some (.counter g (s.cell i).cls (qOf w)), none⟩)] } := by
  let sent : State := { s with tokens := s.tokens ++ [(d, q', (s.cell i).cls,
    ⟨((s.cell i).cur.scalar (saOf w)).setWidth 32, .cell g, false, some (.counter g (s.cell i).cls (qOf w)), none⟩)] }
  obtain ⟨e, done, -, st, same⟩ := State.resume_putCell sent i ((s.cell i).issued.setCur { (s.cell i).cur with
    step := (s.cell i).cur.step + 1
    credits := (s.cell i).cur.credits.set (qOf w) ((s.cell i).cur.credits.getD (qOf w) 0 - 1) }) h.lt
  have run : exec (.postt g w) s = .next (sent.putCell i e) := by
    rw [← done]
    show execPostt g w s = _
    rw [execPostt, h.issue, State.posttTry]
    simp only [State.cell_putCell_self _ _ h.lt, Cell.issued_cur, Cell.issued_logical, Cell.issued_img, Cell.issued_cls,
      if_neg credit, bound, State.modCtx_putCell _ _ _ h.lt, State.posOf_logical h.1, State.orHold, if_true]
    rfl
  refine ⟨_, run, ?_⟩
  rw [State.cell_putCell_self sent _ h.lt, st, Cell.setCur_st, Cell.issued_st, h.2.2.1, same]
  refine ⟨rfl, ?_, ?_, rfl⟩
  · exact (Cell.setCur_job ..).trans (Cell.issued_job _)
  · exact Cell.setCur_cur ..

theorem State.Ready.postt_holds (h : s.Ready 0x06 g w i p) (none_ : (s.cell i).cur.credits.getD (qOf w) 0 = 0) :
    exec (.postt g w) s =
      .next (s.putCell i { (s.cell i).issued with st := 2, held := some ⟨w, s.now (.cell i), none⟩ }) := by
  show execPostt g w s = _
  rw [execPostt, h.issue, State.posttTry]
  simp only [State.cell_putCell_self _ _ h.lt, Cell.issued_cur, none_, if_true]
  exact congrArg Host.Outcome.next (h.holds _)

theorem State.Ready.postc (h : s.Ready 0x05 g w i p) : exec (.postc g w) s =
    .next { s.putCell i ((s.cell i).issued.setCur (({ (s.cell i).cur with step := (s.cell i).cur.step + 1 } : Ctx).modQueue (qOf w)
      fun u => { u with popped :=
        (returnCredits (max 1 (min 64 (imm16Of w))) ((s.cell i).cur.queue (qOf w)).popped).2 })) with
      credits := s.credits ++ (returnCredits (max 1 (min 64 (imm16Of w))) ((s.cell i).cur.queue (qOf w)).popped).1 } := by
  show execPostc g w s = _
  rw [execPostc, h.issue, State.postCredits]
  simp only [State.cell_putCell_self _ _ h.lt, Cell.issued_cur, Ctx.queue_step, State.modCtx_putCell _ _ _ h.lt]
  rfl

/-- A drain marker of cell g goes to a stack (R244). -/
def State.mark (s : State) (g k : Nat) : State := s.modStack k fun m => { m with markers := m.markers ++ [.cell g] }

/-- From s to t the row engines and their stacks alone may have changed. -/
def State.EnginesOnly (s t : State) : Prop := ∃ es, t = { s with engines := es }

theorem State.EnginesOnly.refl (s : State) : s.EnginesOnly s := ⟨_, rfl⟩

theorem State.EnginesOnly.trans {s t u : State} (h : s.EnginesOnly t) (k : t.EnginesOnly u) : s.EnginesOnly u := by
  obtain ⟨_, rfl⟩ := h
  obtain ⟨_, rfl⟩ := k
  exact ⟨_, rfl⟩

theorem State.mark_marks (s : State) (g k l : Nat) (has : k = l ∨ .cell g ∈ (s.engine l).mem.markers) (hl : l < s.engines.length) :
    .cell g ∈ ((s.mark g k).engine l).mem.markers := by
  by_cases same : k = l
  · subst same
    rw [State.mark, State.modStack, State.engine_modEngine_self _ _ hl]
    exact List.mem_append_right _ (List.mem_singleton_self _)
  · rw [State.mark, State.modStack, State.engine_modEngine_ne _ _ same]
    exact has.resolve_left same

/-- Every stack of a list has got its drain marker, and keeps it. -/
theorem State.marks_mark (s : State) (g : Nat) (ks : List Nat) {l : Nat} (has : l ∈ ks ∨ .cell g ∈ (s.engine l).mem.markers)
    (hl : l < s.engines.length) : .cell g ∈ ((ks.foldl (fun s k => s.mark g k) s).engine l).mem.markers := by
  induction ks generalizing s with
  | nil => exact has.resolve_left List.not_mem_nil
  | cons k ks ih =>
    refine ih (s.mark g k) ?_ (by rwa [State.mark, State.modStack, State.modEngine, List.length_modify])
    rcases has with here | already
    · rcases List.mem_cons.1 here with rfl | later
      · exact .inr (s.mark_marks g l l (.inl rfl) hl)
      · exact .inl later
    · exact .inr (s.mark_marks g k l (.inr already) hl)

/-- Drain markers to the stacks ks, and what they leave. -/
theorem State.marks_putCell (s : State) (i : Nat) (c : Cell) (g : Nat) (ks : List Nat) : ∃ es,
    ks.foldl (fun s k => s.mark g k) (s.putCell i c) = ({ s with engines := es } : State).putCell i c ∧
    ∀ l ∈ ks, l < s.engines.length → .cell g ∈ (({ s with engines := es } : State).engine l).mem.markers := by
  obtain ⟨es, same⟩ : (s.putCell i c).EnginesOnly (ks.foldl (fun s k => s.mark g k) (s.putCell i c)) :=
    foldl_within .refl .trans (fun s k => ⟨_, rfl⟩) _ _
  refine ⟨es, same, fun l hl small => ?_⟩
  have marks := State.marks_mark (s.putCell i c) g ks (.inl hl) small
  rw [same] at marks
  exact marks

theorem State.relStart_done {s : State} {i : Nat} (hi : i < s.cells.length) {c : Cell} {w : StepWord}
    (none_ : modeOf w ≤ 1 ∨ c.written = []) : (s.putCell i c).relStart i w = s.putCell i c := by
  rw [State.relStart, State.cell_putCell_self _ _ hi]
  exact if_pos none_

theorem State.relStart_marks {s : State} {i : Nat} (hi : i < s.cells.length) {c : Cell} {w : StepWord}
    (some_ : ¬ (modeOf w ≤ 1 ∨ c.written = [])) : ∃ es,
    (s.putCell i c).relStart i w = ({ s with engines := es } : State).putCell i { c with
      markers := c.written.length, written := [], st := 2, held := some ⟨w, s.now (.cell i), none⟩ } ∧
    ∀ l ∈ c.written, l < s.engines.length →
      .cell (c.logical.getD 0) ∈ (({ s with engines := es } : State).engine l).mem.markers := by
  obtain ⟨es, marked, marks⟩ := State.marks_putCell s i c (c.logical.getD 0) c.written
  refine ⟨es, ?_, marks⟩
  rw [State.relStart, State.cell_putCell_self _ _ hi]
  refine (if_neg some_).trans ((congrArg (fun u : State => (u.modCell i fun d =>
    { d with markers := d.written.length, written := [] }).hold i w none) marked).trans ?_)
  rw [State.modCell_putCell (s := { s with engines := es }) hi, State.hold_putCell { s with engines := es } _ _ hi]
  rfl

theorem State.Ready.rel {s : State} {g i p : Nat} {w : StepWord} (h : s.Ready 0x0B g w i p) :
    exec (.rel g w) s = .next ((s.putCell i (s.cell i).issued).relStart i w) := by
  show execRel g w s = _
  rw [execRel, h.issue]

theorem State.Ready.rel_marks (h : s.Ready 0x0B g w i p) (wide : 2 ≤ modeOf w) (some_ : (s.cell i).written ≠ []) :
    ∃ t, exec (.rel g w) s = .next t ∧ (t.cell i).st = 2 ∧ (t.cell i).markers = (s.cell i).written.length ∧
      (t.cell i).written = [] ∧
      (∀ k ∈ (s.cell i).written, k < s.engines.length → .cell g ∈ (t.engine k).mem.markers) ∧ t.mem = s.mem ∧
      t.tokens = s.tokens := by
  have some' : ¬ (modeOf w ≤ 1 ∨ (s.cell i).issued.written = []) := by
    rw [Cell.issued_written]
    rintro (narrow | none_)
    · omega
    · exact some_ none_
  obtain ⟨es, start, marks⟩ := State.relStart_marks h.lt some'
  rw [Cell.issued_written] at start marks
  rw [Cell.issued_logical, State.posOf_logical h.1] at marks
  refine ⟨_, h.rel.trans (congrArg Host.Outcome.next start), ?_⟩
  rw [State.cell_putCell_self { s with engines := es } _ h.lt]
  exact ⟨rfl, rfl, rfl, marks, rfl, rfl⟩
end

/-! ## END (R69, R308) -/

section
variable {s : State} {i : Nat} (hi : i < s.cells.length) {c : Cell} {j : Job} (job : c.job = some j)
include hi job

theorem State.endTry_holds (open_ : ∃ o ∈ c.open_, o.cls = j.cls) : (s.putCell i c).endTry i = (false, s.putCell i c) := by
  rw [State.endTry, State.cell_putCell_self _ _ hi, Cell.cls, job]
  exact if_pos (List.any_eq_true.2 (open_.imp fun o ⟨mem, cls⟩ => ⟨mem, beq_iff_eq.2 cls⟩))

theorem State.endTry_ends (quiet : ∀ o ∈ c.open_, o.cls ≠ j.cls) :
    (s.putCell i c).endTry i = (true, (s.putCell i c).endJob i 0 0) := by
  rw [State.endTry, State.cell_putCell_self _ _ hi, Cell.cls, job]
  exact if_neg (by simpa using quiet)
end

section
variable {s : State} {g i p : Nat} {w : StepWord} (h : s.Ready 0x0F g w i p) {j : Job} (job : (s.cell i).job = some j)
include h job

theorem State.Ready.end_holds (open_ : ∃ o ∈ (s.cell i).open_, o.cls = j.cls) : exec (.endStep g w) s =
    .next (s.putCell i { (s.cell i).issued with st := 2, held := some ⟨w, s.now (.cell i), none⟩ }) := by
  show execEndStep g w s = _
  rw [execEndStep, h.issue, State.endTry_holds h.lt ((Cell.issued_job _).trans job) (by rwa [Cell.issued_open_]), h.holds]

/-- END with nothing open ends the job. -/
theorem State.Ready.end_ends (quiet : ∀ o ∈ (s.cell i).open_, o.cls ≠ j.cls) : ∃ cmp,
    exec (.endStep g w) s = .next { s.putCell i ((s.cell i).issued.endJob j.cls) with
      batches := modWhere s.batches (fun b => b.handle == j.handle) (·.jobEnded g 0 0), cmp := cmp } ∧
    ((∀ x ∈ (s.cell i).port.slots, x.blocks = []) → cmp = s.cmp) := by
  obtain ⟨cmp, ended, same⟩ := State.endJob_putCell h.lt (s.cell i).issued ((Cell.issued_job _).trans job) 0 0
  rw [Cell.issued_port] at same
  rw [Cell.issued_logical, State.posOf_logical h.1] at ended
  refine ⟨cmp, ?_, same⟩
  show execEndStep g w s = _
  rw [execEndStep, h.issue, State.endTry_ends h.lt ((Cell.issued_job _).trans job) (by rwa [Cell.issued_open_]), State.orHold,
    if_pos rfl, ended]
  rfl
end

/-- The context of a job that has ended (R60, R256). -/
theorem Cell.endJob_ctx (c : Cell) (k : Cls) : (c.endJob k).ctx k = (c.ctx k).endJob := by cases k <;> rfl

theorem Cell.issued_ctx (c : Cell) {j : Job} (job : c.job = some j) :
    c.issued.ctx j.cls = { c.ctx j.cls with step := (c.ctx j.cls).step + 1 } := by
  have cls : c.cls = j.cls := by rw [Cell.cls, job]
  have cur := c.issued_cur
  rwa [Cell.cur, Cell.cur, Cell.issued_cls, cls] at cur

/-! ## LAYER (R65, R311, R314, R317, R415) -/

/-- The cell with a LAYER issued and its number recorded (R65). -/
def Cell.layered (c : Cell) (w : StepWord) : Cell := { c.issued with layer := imm16Of w }

section
variable (c : Cell) (w : StepWord)
theorem Cell.layered_st : (c.layered w).st = c.st := Cell.issued_st c
theorem Cell.layered_job : (c.layered w).job = c.job := Cell.issued_job c
theorem Cell.layered_susp : (c.layered w).susp = c.susp := Cell.issued_susp c
theorem Cell.layered_pend : (c.layered w).pend = c.pend := Cell.issued_pend c
theorem Cell.layered_logical : (c.layered w).logical = c.logical := Cell.issued_logical c
theorem Cell.layered_scratch : (c.layered w).scratch = c.scratch := Cell.issued_scratch c
theorem Cell.layered_comp : (c.layered w).comp = c.comp := Cell.issued_comp c
theorem Cell.layered_cur : (c.layered w).cur = { c.cur with step := c.cur.step + 1 } := Cell.issued_cur c
theorem Cell.layered_preemptDue : (c.layered w).preemptDue = c.preemptDue := by
  show c.issued.preemptDue = _
  rw [Cell.preemptDue, Cell.issued_pend, Cell.issued_cls, Cell.issued_job]
  rfl
end

section
variable {s : State} {i : Nat} (hi : i < s.cells.length)
include hi

/-- Which positions are SPARE does not change with a cell that keeps its state. -/
theorem State.spareOf_putCell {c : Cell} (st : c.st = (s.cell i).st) (d : Nat) : (s.putCell i c).spareOf d = s.spareOf d := by
  have length : (s.putCell i c).cells.length = s.cells.length := List.length_set
  rw [State.spareOf, State.spareOf, length]
  refine congrArg (fun t => ((List.range 40).map (40 * d + ·)).find? t) (funext fun n => ?_)
  by_cases same : i = n
  · subst same
    rw [State.cell_putCell_self _ _ hi, st]
  · rw [State.cell_putCell_ne _ _ same]

theorem State.moveDue_putCell {c : Cell} (st : c.st = (s.cell i).st) : (s.putCell i c).moveDue i = s.moveDue i := by
  rw [State.moveDue, State.spareOf_putCell hi st]
  rfl

/-- A slice begins: its start is recorded, and whether it is shadowed. -/
theorem State.sliceStart_putCell (c : Cell) : ∃ n hl sh, (s.putCell i c).sliceStart i =
    ({ s with drawn := n, health := hl } : State).putCell i { c with
      pend := { c.pend with sliceStart := s.now (.cell i), sliceOver := false, shadow := sh, shadowCrc := [] } } := by
  rw [State.sliceStart, State.cell_putCell_self _ _ hi, State.modCell_putCell hi]
  dsimp only
  split
  · exact ⟨s.drawn, s.health, false, rfl⟩
  · split
    · exact ⟨s.drawn, s.health, false, rfl⟩
    · rw [State.draw]
      dsimp only
      split
      · exact ⟨s.drawn + 1, s.health, false, rfl⟩
      · split
        · refine ⟨s.drawn + 1, { s.health with cntShadow := s.health.cntShadow + 1 }, true, ?_⟩
          show State.modHealth (State.modCell (State.putCell ({ s with drawn := s.drawn + 1 } : State) i _) i _) _ = _
          rw [State.modCell_putCell (s := { s with drawn := s.drawn + 1 }) hi]
          rfl
        · exact ⟨s.drawn + 1, _, false, rfl⟩

/-- LAYER with nothing to take: the next slice begins and the cell runs on. -/
theorem State.layerDone_putCell (c : Cell) : ∃ n hl sh k, (s.putCell i c).layerDone i =
    ({ s with drawn := n, health := hl } : State).putCell i { c with
      st := if c.st = 2 then 1 else c.st, held := none, cnt := k
      pend := { c.pend with sliceStart := s.now (.cell i), sliceOver := false, shadow := sh, shadowCrc := [] } } := by
  obtain ⟨n, hl, sh, slice⟩ := State.sliceStart_putCell hi c
  obtain ⟨d, run, -, st, same⟩ := State.resume_putCell { s with drawn := n, health := hl } i { c with
    pend := { c.pend with sliceStart := s.now (.cell i), sliceOver := false, shadow := sh, shadowCrc := [] } } hi
  refine ⟨n, hl, sh, d.cnt, ?_⟩
  rw [State.layerDone, slice, run, same, st]
end

theorem State.endSusp_none {s : State} {i status : Nat} (susp : (s.cell i).susp = none) : s.endSusp i status = s := by
  rw [State.endSusp, susp]

/-- What a LAYER of the cell c finds waiting for it, where a move is due or not (R311, R318, R415). -/
def Cell.layerWaits (c : Cell) (move : Bool) : Prop :=
  c.preemptDue = true ∨ move = true ∨ (c.pend.shadow = true ∧ c.pend.shadowCrc ≠ [])

theorem Cell.layered_waits (c : Cell) (w : StepWord) (move : Bool) : (c.layered w).layerWaits move ↔ c.layerWaits move := by
  rw [Cell.layerWaits, Cell.layered_preemptDue, Cell.layered_pend, Cell.layerWaits]

section
variable {s : State} {i : Nat} (hi : i < s.cells.length) {c : Cell} (w : StepWord)
include hi

theorem State.layerTake_free (st : c.st = (s.cell i).st) (undrained : c.pend.drain = false) (free : ¬ c.layerWaits (s.moveDue i)) :
    (s.putCell i c).layerTake i w = s.putCell i c := by
  rw [State.layerTake, State.cell_putCell_self _ _ hi, State.moveDue_putCell hi st]
  dsimp only
  rw [if_neg (by rw [undrained]; exact Bool.false_ne_true)]
  exact if_neg free

theorem State.layerTake_waits (st : c.st = (s.cell i).st) (undrained : c.pend.drain = false) (waits : c.layerWaits (s.moveDue i)) :
    (s.putCell i c).layerTake i w = s.putCell i { c with st := 2, held := some ⟨w, s.now (.cell i), none⟩ } := by
  rw [State.layerTake, State.cell_putCell_self _ _ hi, State.moveDue_putCell hi st]
  dsimp only
  rw [if_neg (by rw [undrained]; exact Bool.false_ne_true)]
  exact (if_pos waits).trans (State.hold_putCell _ _ _ hi _ _)

/-- A drain ends the running job, and the cell is DRAINED. -/
theorem State.layerTake_drains {j : Job} (job : c.job = some j) (drain : c.pend.drain = true) (susp : c.susp = none) : ∃ cmp,
    (s.putCell i c).layerTake i w = { s.putCell i { c.endJob j.cls with st := 4, pend := { (c.endJob j.cls).pend with drain := false } } with
      batches := modWhere s.batches (fun b => b.handle == j.handle) (·.jobEnded (c.logical.getD 0x1FF) 4 0), cmp := cmp } := by
  obtain ⟨cmp, ended, -⟩ := State.endJob_putCell hi c job 4 0
  refine ⟨cmp, ?_⟩
  have alone : (c.endJob j.cls).susp = none := (Cell.setCtx_susp ..).trans susp
  rw [State.layerTake, State.cell_putCell_self _ _ hi]
  dsimp only
  rw [if_pos drain, ended]
  refine (congrArg (fun u : State => u.modCell i fun c => { c with st := 4, pend := { c.pend with drain := false } })
    (State.endSusp_none (s := { s.putCell i (c.endJob j.cls) with
      batches := modWhere s.batches (fun b => b.handle == j.handle) (·.jobEnded (c.logical.getD 0x1FF) 4 0), cmp := cmp })
      ((congrArg Cell.susp (State.cell_putCell_self s _ hi)).trans alone))).trans ?_
  exact State.modCell_putCell (s := { s with
    batches := modWhere s.batches (fun b => b.handle == j.handle) (·.jobEnded (c.logical.getD 0x1FF) 4 0), cmp := cmp }) hi (c.endJob j.cls)
    fun c => { c with st := 4, pend := { c.pend with drain := false } }
end

section
variable {s : State} {g i p : Nat} {w : StepWord} (h : s.Ready 0x08 g w i p)
include h

/-- LAYER records its number, then takes what waits. -/
theorem State.Ready.layer {u : State} (takes : (s.putCell i ((s.cell i).layered w)).layerTake i w = u) : exec (.layer g w) s =
    .next (if (u.cell i).st = 1 ∧ (u.cell i).job.isSome then u.layerDone i else u) := by
  subst takes
  show execLayer g w s = _
  rw [execLayer, h.issue, State.layerIssue, State.modCell_putCell h.lt]
  rfl

theorem State.Ready.layer_completes (undrained : (s.cell i).pend.drain = false) (free : ¬ (s.cell i).layerWaits (s.moveDue i)) :
    ∃ t, exec (.layer g w) s = .next t ∧ (t.cell i).layer = imm16Of w ∧ (t.cell i).st = 1 ∧ (t.cell i).job = (s.cell i).job ∧
      (t.cell i).cur = { (s.cell i).cur with step := (s.cell i).cur.step + 1 } ∧ (t.cell i).comp = (s.cell i).comp ∧
      (t.cell i).scratch = (s.cell i).scratch ∧ (t.cell i).pend.sliceStart = s.now (.cell i) ∧
      (t.cell i).pend.sliceOver = false ∧ t.mem = s.mem ∧ t.tokens = s.tokens ∧ t.batches = s.batches := by
  have runs : ((s.cell i).layered w).st = 1 := (Cell.layered_st ..).trans h.2.2.1
  have job := Cell.layered_job (s.cell i) w
  have run := h.layer (State.layerTake_free h.lt w (Cell.layered_st ..) (by rw [Cell.layered_pend, undrained])
    (by rwa [Cell.layered_waits]))
  rw [State.cell_putCell_self _ _ h.lt, if_pos ⟨runs, job ▸ h.2.2.2.1⟩] at run
  obtain ⟨n, hl, sh, k, done⟩ := State.layerDone_putCell h.lt ((s.cell i).layered w)
  refine ⟨_, run, ?_⟩
  rw [done, State.cell_putCell_self { s with drawn := n, health := hl } _ h.lt]
  refine ⟨rfl, ?_, job, Cell.layered_cur (w := w) .., Cell.layered_comp (w := w) ..,
    Cell.layered_scratch (w := w) .., rfl, rfl, rfl, rfl, rfl⟩
  show (if ((s.cell i).layered w).st = 2 then 1 else ((s.cell i).layered w).st) = 1
  rw [runs]
  rfl

theorem State.Ready.layer_holds (undrained : (s.cell i).pend.drain = false) (waits : (s.cell i).layerWaits (s.moveDue i)) :
    exec (.layer g w) s =
      .next (s.putCell i { (s.cell i).layered w with st := 2, held := some ⟨w, s.now (.cell i), none⟩ }) := by
  rw [h.layer (State.layerTake_waits h.lt w (Cell.layered_st ..) (by rw [Cell.layered_pend, undrained])
    (by rwa [Cell.layered_waits])), State.cell_putCell_self _ _ h.lt]
  exact congrArg Host.Outcome.next (if_neg (by rintro ⟨two, -⟩; cases two))

theorem State.Ready.layer_drains {j : Job} (job : (s.cell i).job = some j) (drain : (s.cell i).pend.drain = true)
    (susp : (s.cell i).susp = none) : ∃ t, exec (.layer g w) s = .next t ∧ (t.cell i).layer = imm16Of w ∧ (t.cell i).st = 4 ∧
      (t.cell i).job = none ∧ (t.cell i).pend.drain = false ∧ (t.cell i).scratch = (s.cell i).scratch ∧
      t.batches = modWhere s.batches (fun b => b.handle == j.handle) (·.jobEnded g 4 0) := by
  obtain ⟨cmp, takes⟩ := State.layerTake_drains h.lt w ((Cell.layered_job (s.cell i) w).trans job)
    (by rw [Cell.layered_pend, drain]) ((Cell.layered_susp (s.cell i) w).trans susp)
  rw [Cell.layered_logical, State.posOf_logical h.1] at takes
  have run := h.layer takes
  rw [show State.cell { s.putCell i _ with batches := _, cmp := cmp } i = _ from State.cell_putCell_self s _ h.lt,
    if_neg (by rintro ⟨four, -⟩; cases four)] at run
  refine ⟨_, run, ?_⟩
  rw [show State.cell { s.putCell i _ with batches := _, cmp := cmp } i = _ from State.cell_putCell_self s _ h.lt]
  exact ⟨Cell.setCtx_layer .., rfl, rfl, rfl, (Cell.endJob_scratch ..).trans (Cell.layered_scratch (w := w) ..), rfl⟩
end


/-- What a step that popped leaves, said as the obligation says it. -/
theorem Ctx.took_eq {x : Ctx} {q n v : Nat} {ts : List Token} {w : StepWord} {value : Word} (length : ts.length = n)
    (same : BitVec.ofNat 64 v = value) : x.took q ts w v = (x.modQueue q fun u =>
      { u with toks := u.toks.drop n, popped := u.popped ++ ts.map Token.credit }).setScalar (sdOf w) value := by
  subst length same
  rfl

/-- Settles O6: a step either takes what it waits for, and runs on, or holds the cell. -/
theorem waitingAndJobSteps : Obligations.WaitingAndJobSteps := by
  unfold Obligations.WaitingAndJobSteps
  refine ⟨?_, ?_⟩
  · intro s g i p w c x q toks n pop ran held
    have taken {c' : Instr} {ts : List Token} {y : Ctx}
        (pops : (∀ u ∈ ts, u.engine = none) → StepPops s i (exec c' s) ts y) : ran c' ts y := by
      intro own
      obtain ⟨t, run, free, cur, scratch, job, ⟨plain, lands⟩, clean, bad⟩ := pops own
      exact ⟨t, run, free, cur, scratch, job, plain, lands, clean, bad⟩
    refine ⟨fun h short v enough last => ?_, fun h few => h.wait_holds few,
      fun h r v l small bit at_ first => ?_, fun h empty => h.waitany_holds empty, fun h j v l job at_ => ?_,
      fun h none_ => h.ebind_holds none_, fun h d q' credit bound => h.postt_sends credit bound, fun h none_ => h.postt_holds none_,
      fun h => h.postc, fun h none_ => ?_, fun h wide some_ => h.rel_marks wide some_⟩
    · have cur := Ctx.took_eq (x := { x with step := x.step + 1 }) (q := q) (ts := toks.take n) (w := w)
        (List.length_take_of_le enough) (BitVec.ofNat_toNat 64 v.value)
      exact taken fun own => cur ▸ h.pops own (h.wait_pops enough last)
    · have cur := Ctx.took_eq (x := { x with step := x.step + 1 }) (q := r) (ts := [v]) (n := 1) (w := w)
        (v := 2 ^ 48 * r + v.value.toNat) rfl rfl
      exact taken fun own => cur ▸ h.pops own (h.waitany_pops small bit at_ first)
    · obtain ⟨d, n, took, done⟩ := State.took h.lt (s.cell i).issued (qOf w) [v] w (v.value.toNat + 2 ^ 32 * j.param.toNat)
      refine ⟨_, (h.ebind_pops job at_).trans (congrArg Host.Outcome.next done), ?_⟩
      rw [State.cell_putCell_self { s with drawn := n } d h.lt, took.st, Cell.issued_st, h.2.2.1]
      refine ⟨rfl, rfl, took.held, ?_, took.scratch.trans (Cell.issued_scratch _), took.job.trans (Cell.issued_job _), fun plain => ?_⟩
      · rw [took.cur, Cell.issued_cur]
        exact Ctx.took_eq rfl (ofNat_param_handle j.param v.value)
      · exact (took.comp.1 (by simpa using plain)).trans (Cell.issued_comp _)
    · exact h.rel.trans (congrArg Host.Outcome.next (State.relStart_done h.lt (by rwa [Cell.issued_written])))
  · intro s g i p w j c
    refine ⟨fun h job quiet undrained => ?_, fun h job open_ => h.end_holds job open_, fun h undrained still settled unshadowed => ?_,
      fun h undrained preempt => ?_, fun h job drain susp => h.layer_drains job drain susp⟩
    · obtain ⟨cmp, run, same⟩ := h.end_ends job quiet
      refine ⟨_, run, ?_⟩
      rw [show State.cell { s.putCell i _ with batches := _, cmp := cmp } i = _ from State.cell_putCell_self s _ h.lt]
      rw [Cell.endJob_ctx, Cell.endJob_scratch, Cell.issued_scratch, Cell.issued_ctx _ job]
      refine ⟨?_, rfl, rfl, rfl, rfl, ?_, rfl, rfl, same⟩
      · show (if 4 ≤ (s.cell i).issued.st then _ else _) = 0
        rw [Cell.issued_st, h.2.2.1, Cell.issued_pend, undrained]
        rfl
      · exact List.map_map
    · refine h.layer_completes undrained ?_
      rintro (preempt | move | ⟨shadow, crc⟩)
      · exact Bool.false_ne_true (still.symm.trans preempt)
      · exact Bool.false_ne_true (settled.symm.trans move)
      · exact unshadowed.elim (fun off => Bool.false_ne_true (off.symm.trans shadow)) fun none_ => crc none_
    · refine ⟨_, h.layer_holds undrained (.inl preempt), ?_⟩
      rw [State.cell_putCell_self _ _ h.lt]
      exact ⟨rfl, rfl, Cell.layered_job (w := w) .., Cell.layered_comp (w := w) ..⟩

end Sys2Proof.Machine

namespace Sys2Proof.Machine

/-! ## GATH, RADD and RWR (R59, R66, R107, R118) -/

/-- The address word of SA. -/
theorem addrWord_scalar (x : Ctx) (w : StepWord) : addrWord w (x.sa w) 0 =
    addr57 (x.scalar (saOf w)).toNat + (if localOf w then 2 ^ 63 else 0) := by
  have word : (x.scalar (saOf w)).toNat < 2 ^ 64 := BitVec.isLt _
  rw [addrWord, Nat.add_zero, Ctx.sa, Nat.mod_eq_of_lt word]

theorem addr57_scalar (x : Ctx) (w : StepWord) : addr57 (addrWord w (x.sa w) 0) = addr57 (x.scalar (saOf w)).toNat := by
  have word : (x.scalar (saOf w)).toNat < 2 ^ 64 := BitVec.isLt _
  rw [addr57_addrWord, Nat.add_zero, Ctx.sa, Nat.mod_eq_of_lt word]

/-- The request that cell c, at logical position g, hands to a front end with a step of kind op (R59, R107). -/
def Cell.requestOf (c : Cell) (id g p op : Nat) (w : StepWord) : Request :=
  { id, g, cls := c.cls, q := qOf w, op, addr := addrWord w (c.cur.sa w) 0, part := p, reply := none, mirror := none
    view := c.cur.viewStamp, snap := c.scratch, words := [], idx := [], bags := [], rows := [], bad := 0 }

/-- The request r is queued at its die, and its step is open at the cell (R66). -/
def State.queued (s : State) (i op : Nat) (w : StepWord) (c : Cell) (r : Request) : State :=
  { s.putCell i { c with open_ := c.open_ ++ [⟨s.nextId, 0x7F + op, qOf w, c.cls, 0, 0, 0, [], 0⟩] } with
    dies := s.dies.modify (i / 40) fun d => { d with queue := d.queue ++ [r] }, nextId := s.nextId + 1 }

/-- A tile register that is to take the output of a request holds free bytes (R118). -/
def Compute.awaits (y : Compute) (id td : Nat) (junk : Bytes) : Compute :=
  { y.setTile td junk with lands := y.lands ++ [⟨id, td, y.tile td, junk, []⟩] }

theorem Compute.rowOf_awaits (y : Compute) {id td k r : Nat} {junk : Bytes} (len : junk.length = 16384) (hr : r < 64) (other : k ≠ td) :
    (y.awaits id td junk).rowOf k r = y.rowOf k r := Compute.rowOf_setTile y len hr other

section
variable {s : State} {i : Nat} (hi : i < s.cells.length)
include hi

theorem State.holdTile_putCell (c : Cell) (id td : Nat) : ∃ n junk, junk.length = 16384 ∧ (s.putCell i c).holdTile i id td =
    ({ s with drawn := n } : State).putCell i { c with comp := c.comp.awaits id td junk } := by
  refine ⟨s.drawn + 16384, (s.drawBytes 16384).1, State.drawBytes_length .., ?_⟩
  rw [State.holdTile]
  generalize 16384 = size
  exact State.modComp_putCell { s with drawn := s.drawn + size } i c hi fun y => y.awaits id td (s.drawBytes size).1

theorem State.request_putCell {g : Nat} (p op : Nat) (w : StepWord) {c : Cell} (logical : c.logical = some g) {s2 : State} {r : Request}
    (asks : c.requestOf s.nextId g p op w = r) (queued : s.queued i op w c r = s2) : (s.putCell i c).request i p op w =
      match s2.tileAsked (i / 40) r with | some td => s2.holdTile i s.nextId td | none => s2 := by
  have opens := State.openAsync_putCell { s with nextId := s.nextId + 1 } i c hi ⟨s.nextId, 0x7F + op, qOf w, c.cls, 0, 0, 0, [], 0⟩
  have same : State.modDie ((({ s with nextId := s.nextId + 1 } : State).putCell i c).openAsync i
      ⟨s.nextId, 0x7F + op, qOf w, c.cls, 0, 0, 0, [], 0⟩) (i / 40) (fun d => { d with queue := d.queue ++ [r] }) = s2 := by
    rw [opens, ← queued]
    rfl
  rw [State.request, State.cell_putCell_self _ _ hi, logical]
  subst asks
  exact congrArg (fun u : State => match u.tileAsked (i / 40) (c.requestOf s.nextId g p op w) with
    | some td => u.holdTile i s.nextId td | none => u) same
end

/-- GATH, RADD and RWR, as the obligation says them: the request is queued, and a register that its header names is held. -/
theorem State.Ready.asks {s : State} {k g i p : Nat} {w : StepWord} (h : s.Ready k g w i p) {c : Instr} {op : Nat}
    (run : exec c s = .next ((s.putCell i (s.cell i).issued).request i p op w)) {s2 : State} {r : Request}
    (asks : (s.cell i).issued.requestOf s.nextId g p op w = r) (queued : s.queued i op w (s.cell i).issued r = s2) :
    (s2.tileAsked (i / 40) r = none → exec c s = .next s2) ∧
    (∀ td, s2.tileAsked (i / 40) r = some td → ∃ t junk, exec c s = .next t ∧
      t = { s2.putCell i { s2.cell i with comp := (t.cell i).comp } with drawn := t.drawn } ∧
      (t.cell i).comp.lands = (s.cell i).comp.lands ++ [⟨s.nextId, td, (s.cell i).comp.tile td, junk, []⟩] ∧
      ∀ k r, r < 64 → k ≠ td → (t.cell i).comp.rowOf k r = (s.cell i).comp.rowOf k r) := by
  rw [State.request_putCell h.lt p op w ((Cell.issued_logical _).trans (State.posOf_logical h.1)) asks queued] at run
  refine ⟨fun none_ => ?_, fun td names => ?_⟩
  · rw [none_] at run
    exact run
  · rw [names] at run
    dsimp only at run
    have cell : s2.cell i = { (s.cell i).issued with
        open_ := (s.cell i).issued.open_ ++ [⟨s.nextId, 0x7F + op, qOf w, (s.cell i).issued.cls, 0, 0, 0, [], 0⟩] } := by
      rw [← queued]
      exact State.cell_putCell_self s _ h.lt
    have comp : (s2.cell i).comp = (s.cell i).comp := by
      rw [cell]
      exact Cell.issued_comp _
    have inside : i < s2.cells.length := by
      rw [← queued]
      exact (List.length_set (as := s.cells)).symm ▸ h.lt
    obtain ⟨n, junk, len, hold⟩ := State.holdTile_putCell inside (s2.cell i) s.nextId td
    rw [State.putCell_cell, comp] at hold
    rw [hold] at run
    refine ⟨_, junk, run, ?_⟩
    rw [State.cell_putCell_self ({ s2 with drawn := n } : State) _ inside]
    exact ⟨rfl, rfl, fun k r hr other => Compute.rowOf_awaits _ len hr other⟩

/-! ## HLD and HST (R59, R334) -/

/-- A transfer of cell c, opened by a step of kind `kind` (R334). -/
def Cell.transferOf (c : Cell) (id kind now : Nat) (w : StepWord) : AsyncOp :=
  ⟨id, kind, qOf w, c.cls, if kind = 0x90 then c.cur.sb w else addr57 (c.cur.sa w),
    if kind = 0x90 then addr57 (c.cur.sa w) else c.cur.sb w, hostLen w,
    if kind = 0x90 then [] else c.scratch.read 64 (addr57 (c.cur.sa w)) (hostLen w), now⟩

section
variable {s : State} {i g kind : Nat} (hi : i < s.cells.length) {c : Cell} (logical : c.logical = some g) (w : StepWord)
include hi logical

omit logical in
theorem State.hostStep_beyond (out : 0x400000 < addr57 (c.cur.sa w) + hostLen w) : (s.putCell i c).hostStep i kind w =
    (s.putCell i c).cellFault i 1 (max (addr57 (c.cur.sa w)) 0x400000) 0 0 none := by
  rw [State.hostStep, State.cell_putCell_self _ _ hi]
  exact if_pos out

variable (fits : addr57 (c.cur.sa w) + hostLen w ≤ 0x400000)
include fits

theorem State.hostStep_turned (out : s.inWindow g (c.cur.sb w) (hostLen w) = false) : (s.putCell i c).hostStep i kind w =
    { s.putCell i c with tokens := s.tokens ++ [(g, qOf w, c.cls, ⟨0x01000000, .cell g, true, none, none⟩)] } := by
  have out' : (!(s.putCell i c).inWindow g (c.cur.sb w) (hostLen w)) = true := congrArg not out
  rw [State.hostStep, State.cell_putCell_self _ _ hi, logical]
  exact (if_neg (not_lt.2 fits)).trans (if_pos out')

theorem State.hostStep_opens (inside : s.inWindow g (c.cur.sb w) (hostLen w) = true) : (s.putCell i c).hostStep i kind w =
    { s.putCell i { c with open_ := c.open_ ++ [c.transferOf s.nextId kind (s.now .host) w] } with nextId := s.nextId + 1 } := by
  have inside' : ¬ (!(s.putCell i c).inWindow (c.logical.getD 0) (c.cur.sb w) (hostLen w)) = true := by
    rw [logical, show (s.putCell i c).inWindow ((some g).getD 0) (c.cur.sb w) (hostLen w) = true from inside]
    exact Bool.false_ne_true
  rw [State.hostStep, State.cell_putCell_self _ _ hi]
  refine (if_neg (not_lt.2 fits)).trans ((if_neg inside').trans ?_)
  exact State.openAsync_putCell { s with nextId := s.nextId + 1 } i c hi (c.transferOf s.nextId kind (s.now .host) w)
end

end Sys2Proof.Machine

namespace Sys2Proof.Machine

/-! ## What reads and writes of memory leave (R206, R215, R260 to R263) -/

/-- How an access is cut depends on the ranges alone (R260). -/
theorem State.cut_congr {s t : State} (same : t.ranges = s.ranges) (p f v n : Nat) : t.cut p f v n = s.cut p f v n := by
  induction f generalizing v n with
  | zero => rfl
  | succ f ih => simp only [State.cut, State.rangeAt, State.nextRange, same, ih]

theorem State.pieces_congr {s t : State} (same : t.ranges = s.ranges) {p v n : Nat} : t.pieces p v n = s.pieces p v n := by
  rw [State.pieces, State.cut_congr same, same]
  rfl

theorem State.vstacks_congr {s t : State} (ranges : t.ranges = s.ranges) (image : t.image = s.image) (model : t.model = s.model)
    {p v n : Nat} : t.vstacks p v n = s.vstacks p v n := by
  have frame : t.frame = s.frame := by
    funext f
    rw [State.frame, State.frame, image]
  have alike : t.stacksOfWrite = s.stacksOfWrite := by
    funext pa m
    simp only [State.stacksOfWrite, State.stackOf, State.stackCount, frame, model]
  rw [State.vstacks, State.vstacks, State.pieces_congr ranges, alike]

/-- From s to t memory, scratchpads and what counts and caches accesses may have changed, and of a cell its scratchpad alone. -/
structure State.Stored (s t : State) : Prop where
  frame : ∃ mem engines cells xlt hot caches wrote hif, t = { s with
    mem := mem, engines := engines, cells := cells, xlt := xlt, hot := hot, caches := caches, wrote := wrote, hif := hif }
  cell : ∀ j, ∃ y, t.cell j = { s.cell j with scratch := y }
  length : t.cells.length = s.cells.length

/-- What changes no cell stores. -/
theorem State.Stored.of_frame {s t : State} (frame : ∃ mem engines xlt hot caches wrote hif, t = { s with
    mem := mem, engines := engines, xlt := xlt, hot := hot, caches := caches, wrote := wrote, hif := hif }) : s.Stored t := by
  obtain ⟨_, _, _, _, _, _, _, rfl⟩ := frame
  exact ⟨⟨_, _, _, _, _, _, _, _, rfl⟩, fun j => ⟨_, rfl⟩, rfl⟩

theorem State.Stored.refl (s : State) : s.Stored s := .of_frame ⟨_, _, _, _, _, _, _, rfl⟩

theorem State.Stored.trans {s t u : State} (h : s.Stored t) (k : t.Stored u) : s.Stored u := by
  refine ⟨?_, fun j => ?_, k.length.trans h.length⟩
  · obtain ⟨_, _, _, _, _, _, _, _, rfl⟩ := h.frame
    obtain ⟨_, _, _, _, _, _, _, _, rfl⟩ := k.frame
    exact ⟨_, _, _, _, _, _, _, _, rfl⟩
  · obtain ⟨y, first⟩ := h.cell j
    obtain ⟨z, second⟩ := k.cell j
    exact ⟨z, by rw [second, first]⟩

section
variable {s t : State} (h : s.Stored t)
include h

theorem State.Stored.tokens : t.tokens = s.tokens := by
  obtain ⟨_, _, _, _, _, _, _, _, rfl⟩ := h.frame
  rfl

/-- The stacks that a write reaches are the same. -/
theorem State.Stored.vstacks (p v n : Nat) : t.vstacks p v n = s.vstacks p v n := by
  obtain ⟨_, _, _, _, _, _, _, _, same⟩ := h.frame
  exact State.vstacks_congr (by rw [same]) (by rw [same]) (by rw [same])

theorem State.Stored.quiet {u : State} (frame : ∃ mem engines xlt hot caches wrote hif, u = { t with
    mem := mem, engines := engines, xlt := xlt, hot := hot, caches := caches, wrote := wrote, hif := hif }) : s.Stored u :=
  h.trans (.of_frame frame)

theorem State.Stored.foldl {α : Type} {F : State → α → State} (step : ∀ u a, State.Stored u (F u a)) (l : List α) :
    s.Stored (l.foldl F t) := h.trans (foldl_within .refl .trans step l t)

theorem State.Stored.ite {c : Prop} [Decidable c] {u : State} (k : s.Stored u) : s.Stored (if c then t else u) := by
  split
  · exact h
  · exact k

theorem State.Stored.scratchWrite (i off : Nat) (d : Data) : s.Stored (t.scratchWrite i off d) := by
  refine h.trans ⟨⟨_, _, _, _, _, _, _, _, rfl⟩, fun j => ?_, List.length_modify ..⟩
  by_cases same : i = j
  · subst same
    by_cases inside : i < t.cells.length
    · exact ⟨_, State.cell_modCell_self t _ inside⟩
    · refine ⟨(t.cell i).scratch, ?_⟩
      rw [State.scratchWrite, State.modCell, List.modify_eq_self (Nat.le_of_not_lt inside)]
  · exact ⟨_, State.cell_modCell_ne t _ same⟩

theorem State.Stored.windowWrite (g off : Nat) (d : Data) : s.Stored (t.windowWrite g off d) := by
  unfold State.windowWrite
  split
  · exact h.scratchWrite _ off d
  · exact h

theorem State.Stored.charge (k : Nat) (p : Option Nat) (n : Nat) : s.Stored (t.charge k p n) := by
  cases p with
  | none => exact h
  | some p => exact h.quiet ⟨_, _, _, _, _, _, _, rfl⟩

theorem State.Stored.modStack (k : Nat) (f : Stack → Stack) : s.Stored (t.modStack k f) := h.quiet ⟨_, _, _, _, _, _, _, rfl⟩
theorem State.Stored.countStack (k : Nat) (f : Stack → Stack) : s.Stored (t.countStack k f) := h.quiet ⟨_, _, _, _, _, _, _, rfl⟩
theorem State.Stored.setMem (m : Store) : s.Stored { t with mem := m } := h.quiet ⟨_, _, _, _, _, _, _, rfl⟩

theorem State.Stored.drainGranule (k g : Nat) (f : Stack → Stack) : s.Stored (t.drainGranule k g f) := by
  unfold State.drainGranule
  split
  · exact h
  · exact (((h.setMem _).modStack _ _).countStack _ _).charge _ _ _

theorem State.Stored.drainStack (k : Nat) : s.Stored (t.drainStack k) := h.foldl (fun u g => (State.Stored.refl u).drainGranule k g _) _

theorem State.Stored.readGranule (p : Option Nat) (pa n : Nat) : s.Stored (t.readGranule p pa n).2 := by
  unfold State.readGranule
  dsimp only
  split
  · exact h
  · exact ((h.drainGranule _ _ _).countStack _ _).charge _ _ _

theorem State.Stored.devRead (p : Option Nat) (pa n : Nat) : s.Stored (t.devRead p pa n).2 := by
  have parts := foldl_within (R := fun r q : Data × State => r.2.Stored q.2) (F := readNext p) (fun _ => .refl _) .trans
    (fun r c => (State.Stored.refl r.2).readGranule p c.1 c.2) (chunks 64 pa n) ([], t)
  rw [State.devRead_eq]
  exact h.trans parts

theorem State.Stored.useRange (a : Agent) (p i : Nat) : s.Stored (t.useRange a p i) := by
  unfold State.useRange
  dsimp only
  split
  · exact h.quiet ⟨_, _, _, _, _, _, _, rfl⟩
  · exact h.quiet ⟨_, _, _, _, _, _, _, rfl⟩

theorem State.Stored.countHost (p line : Nat) : s.Stored (t.countHost p line) := by
  unfold State.countHost
  dsimp only
  repeat' split
  all_goals exact h.quiet ⟨_, _, _, _, _, _, _, rfl⟩

theorem State.Stored.hostRead (a n : Nat) : s.Stored (t.hostRead a n).2 := by
  unfold State.hostRead State.fillLines
  split
  · split
    · exact h.quiet ⟨_, _, _, _, _, _, _, rfl⟩
    · exact h
  · exact h

theorem State.Stored.targetRead (r : Range) (a n : Nat) : s.Stored (t.targetRead r a n).2 := by
  unfold State.targetRead State.rangeHostRead
  split
  · exact h.devRead _ a n
  · exact h
  · dsimp only
    split
    · exact (h.foldl (fun u l => (State.Stored.refl u).countHost r.part l) _).hostRead a n
    · exact h.hostRead a n

theorem State.Stored.vread (a : Agent) (p v n : Nat) : s.Stored (t.vread a p v n).2 := by
  refine h.trans (foldl_within (R := fun r q : Data × State => r.2.Stored q.2) (fun _ => .refl _) .trans
    (fun r c => ?_) (t.pieces p v n) (([], t) : Data × State))
  obtain ⟨d, u⟩ := r
  dsimp only
  split
  · exact ((State.Stored.refl u).useRange a p _).targetRead _ _ _
  · exact .refl u

theorem State.Stored.wordRead (a : Agent) (i p w n : Nat) : s.Stored (t.wordRead a i p w n).2 := by
  unfold State.wordRead
  split
  · exact h
  · exact h.vread a p _ n

theorem State.Stored.writeGranule (p : Option Nat) (pa : Nat) (d : Data) : s.Stored (t.writeGranule p pa d) := by
  unfold State.writeGranule
  dsimp only
  refine h.ite (.ite ?_ ?_)
  · exact (((h.modStack _ _).countStack _ _).charge _ _ _).setMem _
  · split
    · exact .ite (((((h.countStack _ _).modStack _ _).countStack _ _).charge _ _ _).setMem _) ((h.countStack _ _).modStack _ _)
    · refine State.Stored.modStack (State.Stored.countStack ?_ _ _) _ _
      split
      · exact .ite (h.drainGranule _ _ _) h
      · exact h

theorem State.Stored.devWrite (p : Option Nat) (pa : Nat) (d : Data) : s.Stored (t.devWrite p pa d) := by
  refine h.foldl (fun u c => ?_) _
  obtain ⟨a, m⟩ := c
  exact (State.Stored.refl u).writeGranule p a _

theorem State.Stored.noteWrite (a : Agent) (ks : List Nat) : s.Stored (t.noteWrite a ks) := by
  unfold State.noteWrite
  split
  · exact h
  · exact h.quiet ⟨_, _, _, _, _, _, _, rfl⟩

theorem State.Stored.targetWrite (r : Range) (a : Nat) (d : Data) : s.Stored (t.targetWrite r a d) := by
  unfold State.targetWrite
  split
  · exact h.devWrite _ a d
  · exact h.foldl (fun u c => (State.Stored.refl u).windowWrite _ _ _) _
  · exact h

theorem State.Stored.vwrite (a : Agent) (p v : Nat) (d : Data) : s.Stored (t.vwrite a p v d) := by
  refine h.foldl (fun u c => ?_) _
  split
  · exact .ite ((((State.Stored.refl u).useRange a p _).noteWrite a _).targetWrite _ _ _) (.refl u)
  · exact .refl u
end

/-! ## Writes of memory do not look at a cell's port (R179, R206) -/

/-- A function that neither reads nor changes the cells. -/
def CellFree (f : State → State) : Prop := ∀ s cells, f { s with cells := cells } = { f s with cells := cells }

theorem CellFree.comp {f f' : State → State} (h : CellFree f) (k : CellFree f') : CellFree fun s => f' (f s) :=
  fun s cells => (congrArg f' (h s cells)).trans (k (f s) cells)

theorem CellFree.cells {f : State → State} (h : CellFree f) (s : State) : (f s).cells = s.cells := by
  have same := congrArg State.cells (h s s.cells)
  exact same

theorem CellFree.foldl {α : Type} {F : State → α → State} (step : ∀ a, CellFree fun s => F s a) (l : List α) :
    CellFree fun s => l.foldl F s := by
  induction l with
  | nil => exact fun _ _ => rfl
  | cons a l ih => exact (step a).comp ih

theorem CellFree.ite {c : Prop} [Decidable c] {f f' : State → State} (h : CellFree f) (k : CellFree f') :
    CellFree fun s => if c then f s else f' s := by
  split
  · exact h
  · exact k

/-- What is chosen by something other than the cells. -/
theorem CellFree.of_view {α : Type} (view : State → α) {f : α → State → State} (blind : ∀ s cells, view { s with cells := cells } = view s)
    (h : ∀ a, CellFree (f a)) : CellFree fun s => f (view s) s :=
  fun s cells => (congrArg (fun a => f a { s with cells := cells }) (blind s cells)).trans (h (view s) s cells)

theorem CellFree.charge (k : Nat) (p : Option Nat) (n : Nat) : CellFree fun s => s.charge k p n := by
  cases p <;> exact fun _ _ => rfl

theorem CellFree.countStack (k : Nat) (f : Stack → Stack) : CellFree fun s => s.countStack k f := fun _ _ => rfl
theorem CellFree.modStack (k : Nat) (f : Stack → Stack) : CellFree fun s => s.modStack k f := fun _ _ => rfl
theorem CellFree.modMem (f : Store → Store) : CellFree fun s => { s with mem := f s.mem } := fun _ _ => rfl

/-- An entry found at a stack goes to memory, and owner p pays (R206). -/
def State.drainEntry (k g : Nat) (f : Stack → Stack) (x : Option WcbEntry × Option Nat) (s : State) : State :=
  match x.1 with
  | none => s
  | some e =>
    let s := { s with mem := applyEntry s.mem e }
    let s := s.modStack k fun m => { m with wcb := m.wcb.filter (fun x => x.granule != g) }
    (s.countStack k fun m => f { m with
      cntRd := m.cntRd + 1, cntWr := m.cntWr + 1, cntUncorr := m.cntUncorr + BitVec.ofNat 64 (b2n e.marked) }).charge k x.2 2

theorem CellFree.drainGranule (k g : Nat) (f : Stack → Stack) : CellFree fun s => s.drainGranule k g f := by
  refine CellFree.of_view (fun s => ((s.engine k).mem.wcb.find? fun e => e.granule == g, s.ownerOf (64 * g)))
    (f := State.drainEntry k g f) (fun _ _ => rfl) fun x => ?_
  obtain ⟨e, p⟩ := x
  cases e with
  | none => exact fun _ _ => rfl
  | some e => exact (((CellFree.modMem (applyEntry · e)).comp (.modStack k _)).comp (.countStack k _)).comp (.charge k p 2)

/-- A write within a granule of stack k, which is dead or holds the entries `held` (R205). -/
def State.writeHeld (p : Option Nat) (pa : Nat) (d : Data) (x : Nat × Bool × List WcbEntry) (s : State) : State :=
  let k := x.1
  let g := pa / 64
  let held := x.2.2
  if x.2.1 then s else
  if d.length = 64 then
    let s := s.modStack k fun m => { m with wcb := m.wcb.filter (fun x => x.granule != g) }
    let s := (s.countStack k fun m => { m with cntWr := m.cntWr + 1 }).charge k p 1
    { s with mem := s.mem.write 64 pa d }
  else
    match held.find? (fun e => e.granule == g) with
    | some e =>
      let e := mergeEntry e (pa % 64) d
      let s := s.countStack k fun m => { m with cntMerge := m.cntMerge + 1 }
      if 64 ≤ e.bytes.length then
        let s := s.modStack k fun m => { m with wcb := m.wcb.filter (fun x => x.granule != g) }
        let s := (s.countStack k fun m => { m with
          cntWr := m.cntWr + 1, cntUncorr := m.cntUncorr + BitVec.ofNat 64 (b2n e.marked) }).charge k p 1
        { s with mem := applyEntry s.mem e }
      else s.modStack k fun m => { m with wcb := m.wcb.filter (fun x => x.granule != g) ++ [e] }
    | none =>
      let s := match held with
        | e :: _ => if 256 ≤ held.length
          then s.drainGranule k e.granule fun m => { m with cntEvict := m.cntEvict + 1 } else s
        | [] => s
      let s := s.countStack k fun m => { m with cntMerge := m.cntMerge + 1 }
      s.modStack k fun m =>
        let wcb := m.wcb ++ [mergeEntry ⟨g, [], false⟩ (pa % 64) d]
        { m with wcb, wcbHigh := max m.wcbHigh wcb.length }

theorem CellFree.id : CellFree fun s => s := fun _ _ => rfl

theorem CellFree.writeGranule (p : Option Nat) (pa : Nat) (d : Data) : CellFree fun s => s.writeGranule p pa d := by
  refine CellFree.of_view (fun s => (s.stackOf pa, (s.engine (s.stackOf pa)).mem.dead (s.channelOf pa),
    (s.engine (s.stackOf pa)).mem.wcb)) (f := State.writeHeld p pa d) (fun _ _ => rfl) fun x => ?_
  obtain ⟨k, dead, held⟩ := x
  unfold State.writeHeld
  refine .ite .id (.ite ?_ ?_)
  · exact (((CellFree.modStack k _).comp (.countStack k _)).comp (.charge k p 1)).comp (.modMem (·.write 64 pa d))
  · dsimp only
    split
    · refine CellFree.ite ?_ ((CellFree.countStack k _).comp (.modStack k _))
      exact ((((CellFree.countStack k _).comp (.modStack k _)).comp (.countStack k _)).comp (.charge k p 1)).comp
        (.modMem (applyEntry · _))
    · refine CellFree.comp (.comp ?_ (.countStack k _)) (.modStack k _)
      split
      · exact CellFree.ite (f := fun s => s.drainGranule k _ _) (.drainGranule k _ _) .id
      · exact .id

theorem CellFree.devWrite (p : Option Nat) (pa : Nat) (d : Data) : CellFree fun s => s.devWrite p pa d := by
  refine CellFree.foldl (fun c => ?_) _
  obtain ⟨a, m⟩ := c
  exact CellFree.writeGranule p a _

theorem CellFree.useRange (a : Agent) (p i : Nat) : CellFree fun s => s.useRange a p i := by
  intro s cells
  unfold State.useRange
  by_cases has : (s.cached a).contains (p, i) = true
  · simp only [show ({ s with cells := cells } : State).cached a = s.cached a from rfl, if_pos has]
    rfl
  · simp only [show ({ s with cells := cells } : State).cached a = s.cached a from rfl, if_neg has]
    rfl

theorem CellFree.noteWrite (a : Agent) (ks : List Nat) : CellFree fun s => s.noteWrite a ks := by
  cases a <;> exact fun _ _ => rfl

/-- A change of a cell that a write of memory does not notice: neither where the cell serves nor its scratchpad. -/
structure Cell.Unseen (F : Cell → Cell) : Prop where
  logical : ∀ c, (F c).logical = c.logical
  scratch : ∀ c, (F c).scratch = c.scratch
  past : ∀ c y, F { c with scratch := y } = { F c with scratch := y }

theorem Cell.Unseen.comp {F F' : Cell → Cell} (h : Cell.Unseen F) (k : Cell.Unseen F') : Cell.Unseen fun c => F' (F c) :=
  ⟨fun c => (k.logical _).trans (h.logical c), fun c => (k.scratch _).trans (h.scratch c),
    fun c y => (congrArg F' (h.past c y)).trans (k.past _ y)⟩

theorem modify_posOf {l : List Cell} {i : Nat} {F : Cell → Cell} (h : Cell.Unseen F) (g : Nat) :
    (l.modify i F).findIdx? (fun c => c.logical == some g) = l.findIdx? fun c => c.logical == some g := by
  induction l generalizing i with
  | nil => rw [List.modify_nil]
  | cons c l ih =>
    cases i with
    | zero => simp only [List.modify_zero_cons, List.findIdx?_cons, h.logical]
    | succ i => simp only [List.modify_succ_cons, List.findIdx?_cons, ih]

/-- The function runs alike before and after a change F of cell i. -/
def Commutes (i : Nat) (F : Cell → Cell) (f : State → State) : Prop := ∀ s : State, f (s.modCell i F) = (f s).modCell i F

section
variable {i : Nat} {F : Cell → Cell}

theorem CellFree.commutes {f : State → State} (h : CellFree f) : Commutes i F f := by
  intro s
  refine (h s _).trans ?_
  rw [State.modCell, h.cells]

theorem Commutes.comp {f f' : State → State} (h : Commutes i F f) (k : Commutes i F f') : Commutes i F fun s => f' (f s) :=
  fun s => (congrArg f' (h s)).trans (k _)

theorem Commutes.foldl {α : Type} {G : State → α → State} (step : ∀ a, Commutes i F fun s => G s a) (l : List α) :
    Commutes i F fun s => l.foldl G s := by
  induction l with
  | nil => exact fun _ => rfl
  | cons a l ih => exact (step a).comp ih

variable (h : Cell.Unseen F)
include h

theorem Commutes.scratchWrite (j off : Nat) (d : Data) : Commutes i F fun s => s.scratchWrite j off d := by
  intro s
  refine congrArg (fun l => ({ s with cells := l } : State)) ?_
  by_cases same : i = j
  · subst same
    refine (List.modify_modify_eq ..).trans (.trans ?_ (List.modify_modify_eq ..).symm)
    refine congrArg (s.cells.modify i) (funext fun c => ?_)
    exact (congrArg (fun y => ({ F c with scratch := Store.write 64 y off d } : Cell)) (h.scratch c)).trans (h.past c _).symm
  · exact List.modify_modify_ne _ _ s.cells same

theorem Commutes.windowWrite (g off : Nat) (d : Data) : Commutes i F fun s => s.windowWrite g off d := by
  intro s
  have pos : (s.modCell i F).posOf g = s.posOf g := modify_posOf h g
  dsimp only
  rw [State.windowWrite, State.windowWrite, pos]
  cases s.posOf g with
  | none => rfl
  | some j => exact Commutes.scratchWrite h j off d s

theorem Commutes.targetWrite (r : Range) (t : Nat) (d : Data) : Commutes i F fun s => s.targetWrite r t d := by
  unfold State.targetWrite
  split
  · exact (CellFree.devWrite _ t d).commutes
  · exact .foldl (fun c => .windowWrite h _ _ _) _
  · exact fun _ => rfl

theorem Commutes.vwrite (a : Agent) (p v : Nat) (d : Data) : Commutes i F fun s => s.vwrite a p v d := by
  intro s
  dsimp only
  rw [State.vwrite, State.vwrite, show (s.modCell i F).pieces p v d.length = s.pieces p v d.length from
    State.pieces_congr (s := s) (t := s.modCell i F) rfl]
  refine Commutes.foldl (fun c => ?_) (s.pieces p v d.length) s
  split
  next r _ =>
    split
    · have notes : CellFree fun s : State => (s.useRange a p r.idx).noteWrite a
          (if r.kind = 1 then s.stacksOfWrite (r.target c.va) c.len else []) :=
        CellFree.of_view (fun s => if r.kind = 1 then s.stacksOfWrite (r.target c.va) c.len else [])
          (f := fun ks s => (s.useRange a p r.idx).noteWrite a ks) (fun _ _ => rfl)
          fun ks => (CellFree.useRange a p r.idx).comp (.noteWrite a ks)
      exact notes.commutes.comp (.targetWrite h _ _ _)
    · exact fun _ => rfl
  · exact fun _ => rfl
end

end Sys2Proof.Machine

namespace Sys2Proof.Machine

/-! ## RSTORE (R179, R251) -/

/-- The cell once bytes of a class and kind have crossed its port (R179, R180). -/
def Cell.ported (k : Cls) (kind bytes marks : Nat) (c : Cell) : Cell :=
  let x := c.port.modBucket k kind fun b => b - burstCost * ((bytes + 63) / 64 : Nat)
  let v := BitVec.ofNat 64 bytes
  let m := BitVec.ofNat 64 marks
  { c with port := if c.freeze then x else match kind with
    | 0 => { x with cntRead := x.cntRead + v, cntPoison := x.cntPoison + m }
    | 1 => { x with cntWrite := x.cntWrite + v, cntPoison := x.cntPoison + m }
    | _ => { x with cntRemote := x.cntRemote + v, cntPoison := x.cntPoison + m } }

theorem Cell.ported_unseen (k : Cls) (kind bytes marks : Nat) : Cell.Unseen (Cell.ported k kind bytes marks) :=
  ⟨fun _ => rfl, fun _ => rfl, fun _ _ => rfl⟩

theorem State.portBytes_eq (s : State) (i : Nat) (k : Cls) (kind bytes marks : Nat) :
    s.portBytes i k kind bytes marks = s.modCell i (Cell.ported k kind bytes marks) := by
  refine congrArg (fun l => ({ s with cells := l } : State)) ((List.modify_modify_eq ..).trans ?_)
  refine congrArg (s.cells.modify i) (funext fun c => ?_)
  simp only [Function.comp_apply, Cell.ported]
  split <;> rfl

theorem State.vstacks_modCell (s : State) (i : Nat) (F : Cell → Cell) (p v n : Nat) :
    (s.modCell i F).vstacks p v n = s.vstacks p v n := State.vstacks_congr (s := s) (t := s.modCell i F) rfl rfl rfl

/-- A write does not notice such a change of a cell. -/
theorem State.vwrite_modCell {i : Nat} {F : Cell → Cell} (unseen : Cell.Unseen F) (s : State) (a : Agent) (p v : Nat) (d : Data) :
    (s.modCell i F).vwrite a p v d = (s.vwrite a p v d).modCell i F := Commutes.vwrite unseen a p v d s

/-- What a change of one cell does not change of it, it changes of no cell. -/
theorem State.cell_modCell_keep {α : Type} (obs : Cell → α) {F : Cell → Cell} (keep : ∀ c, obs (F c) = obs c) (s : State) (i j : Nat) :
    obs ((s.modCell i F).cell j) = obs (s.cell j) := by
  by_cases same : i = j
  · subst same
    by_cases inside : i < s.cells.length
    · rw [State.cell_modCell_self s F inside, keep]
    · rw [State.modCell, List.modify_eq_self (Nat.le_of_not_lt inside)]
  · rw [State.cell_modCell_ne s F same]

theorem wordPlus_small {a : Nat} (small : a < 2 ^ 57) : wordPlus a 0 = a ∧ a.testBit 63 = false ∧ addr57 a = a := by
  have bit : a.testBit 63 = false := Nat.testBit_lt_two_pow (lt_trans small (by decide))
  have same : addr57 a = a := Nat.mod_eq_of_lt small
  exact ⟨by rw [wordPlus, bit, same]; simp, bit, same⟩

/-- A piece written at a device virtual address: its stacks count as written by the cell. -/
theorem State.writePieces_one (s : State) (i p : Nat) {dst : Nat} (small : dst < 2 ^ 57) (d : Data) : s.writePieces i p dst [(0, d)] =
    (s.vwrite (.cell ((s.cell i).logical.getD 0)) p dst d).modCell i fun c =>
      { c with written := (c.written ++ s.vstacks p dst d.length).dedup } := by
  obtain ⟨here, bit, same⟩ := wordPlus_small small
  simp only [State.writePieces, List.foldl_cons, List.foldl_nil, here, bit, same, State.wordWrite, Bool.false_eq_true, if_false]

section
variable {s : State} {i g p : Nat} {w : StepWord} {c : Cell} {src dst : Nat} (hi : i < s.cells.length)
  (source : addrWord w (c.cur.sa w) 0 = src) (dest : addr57 (c.cur.sb w) = dst)
include hi source

theorem State.rstore_source (off : addr57 src % 16 ≠ 0) :
    (s.putCell i c).rstore i p w = (s.putCell i c).cellFault i 3 (addr57 src) 0 0 none := by
  subst source
  rw [State.rstore, State.cell_putCell_self _ _ hi]
  exact if_pos off

variable (aligned : addr57 src % 16 = 0)
include dest aligned

theorem State.rstore_dest (off : dst % 16 ≠ 0) :
    (s.putCell i c).rstore i p w = (s.putCell i c).cellFault i 3 dst 0 0 none := by
  subst source dest
  rw [State.rstore, State.cell_putCell_self _ _ hi]
  exact (if_neg (not_not.2 aligned)).trans (if_pos off)

/-- Where an aligned RSTORE is refused, by what refuses it. -/
def State.rstoreRefused (s : State) (i p : Nat) (w : StepWord) (unread unmapped readOnly : Option Nat)
    (moved : State) : State :=
  match unread, unmapped, readOnly with
  | some a, _, _ => s.xltFault i p 1 a 0 w
  | none, some a, _ => (s.countXltFault p).cellFault i 1 a 0 0 none
  | none, none, some a => (s.countXltFault p).cellFault i 2 a 0 0 none
  | none, none, none => moved

/-- An RSTORE that nothing refuses, of cell c at logical position g: s is the state as the step begins. -/
def State.rstoreMoved (s : State) (i p g : Nat) (w : StepWord) (c : Cell) (src dst : Nat) : State :=
  let kind := s.blockKind i i p false { parseEntry 0 [] with src, dst, len := rstoreLen w }
  let u := s.wordRead (.cell g) i p src (rstoreLen w)
  let s := if flagOf w 0 then c.rstored.foldl State.drainStack u.2 else u.2
  let s := (s.portBytes i c.cls kind (rstoreLen w) (markedGranules (addr57 src) u.1)).writePieces i p dst [(0, u.1)]
  let s := s.modCell i fun c => { c with rstored := (c.rstored ++ s.vstacks p dst (rstoreLen w)).dedup }
  s.complete g (qOf w) c.cls (.cell g) 0 0

theorem State.rstore_aligned (logical : c.logical = some g) (aligned' : dst % 16 = 0) {x y z : Option Nat}
    (unread : (s.putCell i c).wordUnmapped p src (rstoreLen w) = x) (unmapped : (s.putCell i c).unmapped p dst (rstoreLen w) = y)
    (readOnly : (s.putCell i c).readOnly p dst (rstoreLen w) = z) : (s.putCell i c).rstore i p w =
      (s.putCell i c).rstoreRefused i p w x y z ((s.putCell i c).rstoreMoved i p g w c src dst) := by
  have serves : c.logical.getD 0 = g := by rw [logical]; rfl
  subst source dest unread unmapped readOnly serves
  rw [State.rstore, State.cell_putCell_self _ _ hi]
  exact (if_neg (not_not.2 aligned)).trans (if_neg (not_not.2 aligned'))
end

/-- The state as an RSTORE of cell c at logical position g reads its source, after the release that a final one makes (R251). -/
def State.rstoreRead (s : State) (i p g : Nat) (w : StepWord) (c : Cell) (src : Nat) : Data × State :=
  let u := s.wordRead (.cell g) i p src (rstoreLen w)
  (u.1, if flagOf w 0 then c.rstored.foldl State.drainStack u.2 else u.2)

theorem State.rstoreRead_stored (s : State) (i p g : Nat) (w : StepWord) (c : Cell) (src : Nat) :
    s.Stored (s.rstoreRead i p g w c src).2 := by
  have read := (State.Stored.refl s).wordRead (.cell g) i p src (rstoreLen w)
  exact (read.foldl (fun u k => (State.Stored.refl u).drainStack k) c.rstored).ite read

/-- The stacks of an RSTORE's destination are noted at the job (R251), and its completion is posted. -/
def State.rstoreEnds (s : State) (i g : Nat) (w : StepWord) (k : Cls) (reached : List Nat) : State :=
  (s.modCell i fun c => { c with rstored := (c.rstored ++ reached).dedup }).complete g (qOf w) k (.cell g) 0 0

theorem State.rstoreEnds_cell {s : State} {i g : Nat} {w : StepWord} {k : Cls} {l : List Nat} (hi : i < s.cells.length) :
    (s.rstoreEnds i g w k l).cell i = { s.cell i with rstored := ((s.cell i).rstored ++ l).dedup } := State.cell_modCell_self s _ hi

theorem State.rstoreEnds_scratch (s : State) (i g : Nat) (w : StepWord) (k : Cls) (l : List Nat) (j : Nat) :
    ((s.rstoreEnds i g w k l).cell j).scratch = (s.cell j).scratch :=
  State.cell_modCell_keep (F := fun c => { c with rstored := (c.rstored ++ l).dedup }) Cell.scratch (fun _ => rfl) s i j

/-- What an RSTORE leaves beside memory: what crossed the port, the stacks written and the token of its completion. -/
theorem State.rstoreMoved_eq {s : State} {i p g : Nat} {w : StepWord} {c : Cell} {src dst : Nat} (small : dst < 2 ^ 57)
    (logical : (s.cell i).logical = some g) {r : Data × State} (read : s.rstoreRead i p g w c src = r) {P : Cell → Cell}
    (port : Cell.ported c.cls (s.blockKind i i p false { parseEntry 0 [] with src, dst, len := rstoreLen w }) (rstoreLen w)
      (markedGranules (addr57 src) r.1) = P) :
    ∃ ks, s.rstoreMoved i p g w c src dst = (((r.2.vwrite (.cell g) p dst r.1).modCell i P).modCell i fun c => { c with
      written := (c.written ++ ks).dedup }).rstoreEnds i g w c.cls (s.vstacks p dst (rstoreLen w)) := by
  have stored : s.Stored r.2 := read ▸ State.rstoreRead_stored s i p g w c src
  have unseen : Cell.Unseen P := port ▸ Cell.ported_unseen ..
  have serves : ((r.2.modCell i P).cell i).logical.getD 0 = g := by
    obtain ⟨y, cell⟩ := stored.cell i
    rw [State.cell_modCell_keep Cell.logical unseen.logical, cell]
    exact congrArg (fun l => Option.getD l 0) logical
  have wrote := State.writePieces_one (r.2.modCell i P) i p small r.1
  rw [serves, State.vwrite_modCell unseen] at wrote
  have reach : ((r.2.modCell i P).writePieces i p dst [(0, r.1)]).vstacks p dst (rstoreLen w) = s.vstacks p dst (rstoreLen w) := by
    rw [wrote, ← (stored.vwrite (.cell g) p dst r.1).vstacks, State.vstacks_modCell, State.vstacks_modCell]
  refine ⟨(r.2.modCell i P).vstacks p dst r.1.length, ?_⟩
  rw [← reach, ← wrote]
  subst read port
  rw [← State.portBytes_eq]
  rfl

section
variable {s : State} {i p g : Nat} {w : StepWord} {c : Cell} {src dst : Nat} (hi : i < s.cells.length) (small : dst < 2 ^ 57)
  (logical : c.logical = some g)
include hi small logical

/-- An RSTORE that nothing refuses, as the obligation says it (R179, R251). -/
theorem State.rstoreMoved_spec {r : Data × State} (read : (s.putCell i c).rstoreRead i p g w c src = r) {v : State}
    (written : r.2.vwrite (.cell g) p dst r.1 = v) {kind : Nat}
    (kinds : (s.putCell i c).blockKind i i p false { parseEntry 0 [] with src, dst, len := rstoreLen w } = kind) :
    ∃ t, (s.putCell i c).rstoreMoved i p g w c src dst = t ∧
    (t.cell i).st = c.st ∧ (t.cell i).cur = c.cur ∧ (t.cell i).comp = c.comp ∧ t.mem = v.mem ∧ t.engines = v.engines ∧
      (∀ j, (t.cell j).scratch = (v.cell j).scratch) ∧
      (t.cell i).port = (((s.putCell i c).portBytes i c.cls kind (rstoreLen w) (markedGranules (addr57 src) r.1)).cell i).port ∧
      (t.cell i).rstored = (c.rstored ++ (s.putCell i c).vstacks p dst (rstoreLen w)).dedup ∧
      t.tokens = s.tokens ++ [(g, qOf w, c.cls, ⟨0, .cell g, true, none, none⟩)] := by
  have own := State.cell_putCell_self s c hi
  generalize ports : Cell.ported c.cls kind (rstoreLen w) (markedGranules (addr57 src) r.1) = P
  have stored : (s.putCell i c).Stored v := written ▸
    (read ▸ State.rstoreRead_stored (s.putCell i c) i p g w c src : (s.putCell i c).Stored r.2).vwrite ..
  obtain ⟨ks, moved⟩ := State.rstoreMoved_eq small ((congrArg Cell.logical own).trans logical) read (kinds ▸ ports)
  rw [written] at moved
  have unseen : Cell.Unseen P := ports ▸ Cell.ported_unseen ..
  have frame (c : Cell) : P c = { c with port := (P c).port } := by rw [← ports]; rfl
  have length : i < v.cells.length := by
    rw [stored.length]
    exact (List.length_set (as := s.cells)).symm ▸ hi
  obtain ⟨y, scratched⟩ := stored.cell i
  rw [own] at scratched
  have length' : i < ((v.modCell i P).modCell i fun c => { c with written := (c.written ++ ks).dedup }).cells.length := by
    rw [State.modCell, State.modCell, List.length_modify, List.length_modify]
    exact length
  have cell := State.rstoreEnds_cell (g := g) (w := w) (k := c.cls) (l := (s.putCell i c).vstacks p dst (rstoreLen w)) length'
  rw [State.cell_modCell_self _ _ (by rw [State.modCell, List.length_modify]; exact length), State.cell_modCell_self v P length,
    scratched, unseen.past, frame c] at cell
  have crossed := State.cell_modCell_self (s.putCell i c) P (by rw [State.putCell, List.length_set]; exact hi)
  rw [own] at crossed
  refine ⟨_, moved, ?_⟩
  rw [cell, State.portBytes_eq, ports, crossed]
  refine ⟨rfl, rfl, rfl, rfl, rfl, fun j => ?_, rfl, rfl, ?_⟩
  · rw [State.rstoreEnds_scratch, State.cell_modCell_keep (F := fun c => { c with written := (c.written ++ ks).dedup }) Cell.scratch
      (fun _ => rfl), State.cell_modCell_keep Cell.scratch unseen.scratch]
  · exact congrArg (fun l : List (Nat × Nat × Cls × Token) => l ++ [(g, qOf w, c.cls, ⟨0, .cell g, true, none, none⟩)])
      stored.tokens
end

end Sys2Proof.Machine

namespace Sys2Proof.Machine

@[simp] theorem Cell.issued_rstored (c : Cell) : c.issued.rstored = c.rstored := by
  have own (x : Ctx) : (c.setCur x).rstored = c.rstored := by rw [Cell.setCur]; cases c.cls <;> rfl
  rw [Cell.issued, Cell.count]
  split <;> exact own _

section
variable {s : State} {k g i p : Nat} {w : StepWord} (h : s.Ready k g w i p) {c : Instr} {cause addr : Nat}
include h

/-- A refused destination is counted for its partition (R260). -/
theorem State.Ready.countedFault
    (run : exec c s = .next (((s.putCell i (s.cell i).issued).countXltFault p).cellFault i cause addr 0 0 none)) :
    StepFault c s i cause addr 0 0 := by
  have told := State.cellFault_told (s := s.countXltFault p) h.lt (s.cell i).issued cause addr 0 0
  have fault : ((s.putCell i (s.cell i).issued).countXltFault p).cellFault i cause addr 0 0 none =
      ((s.countXltFault p).putCell i (s.cell i).issued).cellFault i cause addr 0 0 none := rfl
  refine ⟨_, run, ?_⟩
  rw [fault, told.cell, told.mem, told.tokens, State.cell_putCell_self (s.countXltFault p) _ h.lt]
  exact ⟨rfl, rfl, rfl⟩
end

/-- A fault, as O16 says it. -/
theorem StepFault.recorded {c : Instr} {s : State} {i cause addr mask info : Nat} (f : StepFault c s i cause addr mask info) :
    ∃ t, exec c s = .next t ∧ (t.cell i).st = 3 ∧ (t.cell i).fault.cause = cause ∧ (t.cell i).fault.valid = true ∧
      (t.cell i).fault.addr = addr ∧ (t.cell i).comp = (s.cell i).comp ∧ (t.cell i).scratch = (s.cell i).scratch ∧
      t.mem = s.mem ∧ t.tokens = s.tokens := by
  obtain ⟨t, run, cell, mem, tokens⟩ := f
  refine ⟨t, run, ?_⟩
  rw [cell]
  exact ⟨rfl, rfl, rfl, rfl, Cell.issued_comp _, Cell.issued_scratch _, mem, tokens⟩

section
variable {s : State} {g i p : Nat} {w : StepWord} (h : s.Ready 0x86 g w i p) {src dst : Nat}
include h

theorem State.Ready.rstore : exec (.rstore g w) s = .next ((s.putCell i (s.cell i).issued).rstore i p w) := by
  show execRstore g w s = _
  rw [execRstore, h.issue]

variable (source : addrWord w ((s.cell i).cur.sa w) 0 = src) (dest : addr57 ((s.cell i).cur.sb w) = dst)
include source

theorem State.Ready.rstore_source (off : addr57 src % 16 ≠ 0) : StepFault (.rstore g w) s i 3 (addr57 src) 0 0 :=
  h.stepFault (h.rstore.trans (congrArg Host.Outcome.next (State.rstore_source h.lt (by rw [Ctx.sa_issued, source]) off)))

variable (aligned : addr57 src % 16 = 0)
include dest aligned

theorem State.Ready.rstore_dest (off : dst % 16 ≠ 0) : StepFault (.rstore g w) s i 3 dst 0 0 :=
  h.stepFault (h.rstore.trans (congrArg Host.Outcome.next (State.rstore_dest h.lt (by rw [Ctx.sa_issued, source])
    (by rw [Ctx.sb_issued, dest]) aligned off)))

/-- An aligned RSTORE is refused, or it moves its bytes. -/
theorem State.Ready.rstore_aligned (aligned' : dst % 16 = 0) {x y z : Option Nat}
    (unread : (s.putCell i (s.cell i).issued).wordUnmapped p src (rstoreLen w) = x)
    (unmapped : (s.putCell i (s.cell i).issued).unmapped p dst (rstoreLen w) = y)
    (readOnly : (s.putCell i (s.cell i).issued).readOnly p dst (rstoreLen w) = z) : exec (.rstore g w) s =
      .next ((s.putCell i (s.cell i).issued).rstoreRefused i p w x y z
        ((s.putCell i (s.cell i).issued).rstoreMoved i p g w (s.cell i).issued src dst)) :=
  h.rstore.trans (congrArg Host.Outcome.next (State.rstore_aligned h.lt (by rw [Ctx.sa_issued, source])
    (by rw [Ctx.sb_issued, dest]) aligned ((Cell.issued_logical _).trans (State.posOf_logical h.1)) aligned' unread unmapped readOnly))
end

/-- HLD and HST with an extent past the scratchpad (R334). -/
theorem State.Ready.hostStep_beyond {s : State} {k g i p kind : Nat} {w : StepWord} (h : s.Ready k g w i p) {c : Instr}
    (run : exec c s = .next ((s.putCell i (s.cell i).issued).hostStep i kind w))
    (out : 0x400000 < addr57 ((s.cell i).cur.sa w) + hostLen w) :
    StepFault c s i 1 (max (addr57 ((s.cell i).cur.sa w)) 0x400000) 0 0 := by
  refine h.stepFault (run.trans (congrArg Host.Outcome.next ?_))
  have beyond := State.hostStep_beyond (kind := kind) h.lt (c := (s.cell i).issued) w (by rwa [Ctx.sa_issued])
  rwa [Ctx.sa_issued] at beyond

/-- Settles O16: what each step hands on or moves, and where it faults. -/
theorem remoteSteps : Obligations.RemoteSteps := by
  unfold Obligations.RemoteSteps
  intro s g i p w c x s1 a b word dst faults asked n m opened turned
  have source : addrWord w (x.sa w) 0 = word := addrWord_scalar x w
  have small : addr57 word = addr57 a.toNat := source ▸ addr57_scalar x w
  have asks {k op : Nat} {c' : Instr} (h : s.Ready k g w i p)
      (run : exec c' s = .next ((s.putCell i (s.cell i).issued).request i p op w)) : asked c' op := by
    refine h.asks run ?_ ?_
    · simp only [Cell.requestOf, Cell.issued_cls, Cell.issued_scratch, Cell.issued_cur]
      exact congrArg (fun word => (⟨s.nextId, g, c.cls, qOf w, op, word, p, none, none, x.viewStamp, c.scratch, [], [], [], [], 0⟩ :
        Request)) source
    · rw [State.queued, Cell.issued_open_, Cell.issued_cls]
  have logical : s.posOf g = some i → c.issued.logical = some g := fun pos =>
    (Cell.issued_logical c).trans (State.posOf_logical pos)
  have turns {k kind : Nat} {c' : Instr} (h : s.Ready k g w i p) (fits : addr57 a.toNat + m ≤ 0x400000)
      (run : exec c' s = .next ((s.putCell i (s.cell i).issued).hostStep i kind w)) (out : s.inWindow g b.toNat m = false) :
      turned c' := by
    have turn := State.hostStep_turned (kind := kind) h.lt (logical h.1) w (by rwa [Ctx.sa_issued]) (by rwa [Ctx.sb_issued])
    rw [Cell.issued_cls] at turn
    exact run.trans (congrArg Host.Outcome.next turn)
  have opens {k kind : Nat} {c' : Instr} (h : s.Ready k g w i p) (fits : addr57 a.toNat + m ≤ 0x400000)
      (run : exec c' s = .next ((s.putCell i (s.cell i).issued).hostStep i kind w)) (inside : s.inWindow g b.toNat m = true) :
      exec c' s = .next { s.putCell i { c.issued with open_ := c.open_ ++ [c.transferOf s.nextId kind (s.now .host) w] } with
        nextId := s.nextId + 1 } := by
    have open_ := State.hostStep_opens (kind := kind) h.lt (logical h.1) w (by rwa [Ctx.sa_issued]) (by rwa [Ctx.sb_issued])
    have same : c.issued.transferOf s.nextId kind (s.now .host) w = c.transferOf s.nextId kind (s.now .host) w := by
      rw [Cell.transferOf, Ctx.sa_issued, Ctx.sb_issued, Cell.issued_cls, Cell.issued_scratch]
      rfl
    rw [same, Cell.issued_open_] at open_
    exact run.trans (congrArg Host.Outcome.next open_)
  have hld (h : s.Ready 0x90 g w i p) : exec (.hld g w) s = .next ((s.putCell i (s.cell i).issued).hostStep i 0x90 w) := by
    show execHld g w s = _
    rw [execHld, h.issue]
  have hst (h : s.Ready 0x91 g w i p) : exec (.hst g w) s = .next ((s.putCell i (s.cell i).issued).hostStep i 0x91 w) := by
    show execHst g w s = _
    rw [execHst, h.issue]
  refine ⟨fun h => asks h ?_, fun h => asks h ?_, fun h => asks h ?_, fun h a1 a2 m1 m2 m3 => ?_,
    fun h a1 _ => ?_, fun h a1 a2 => ?_,
    fun h a1 a2 m2 m3 v m1 => ?_, fun h a1 a2 m1 m3 v m2 => ?_, fun h a1 a2 m1 m2 v m3 => ?_,
    fun h fits => ⟨fun inside => ?_, fun out => ?_⟩, fun h fits => ⟨fun inside => ?_, fun out => ?_⟩, fun h out => ?_, fun h out => ?_⟩
  · show execGath g w s = _
    rw [execGath, h.issue]
  · show execRadd g w s = _
    rw [execRadd, h.issue]
  · show execRwr g w s = _
    rw [execRwr, h.issue]
  · intro kind u v
    have read : s1.rstoreRead i p g w c.issued word = (u.1, if flagOf w 0 then c.rstored.foldl State.drainStack u.2 else u.2) := by
      rw [State.rstoreRead, Cell.issued_rstored]
      rfl
    obtain ⟨t, moved, st, cur, comp, mem, engines, scratch, port, rstored, tokens⟩ :=
      State.rstoreMoved_spec h.lt (addr57_lt b.toNat) (logical h.1) read (v := v) rfl (kind := kind) rfl
    have run := h.rstore_aligned source rfl (small ▸ a1) a2 m1 m2 m3
    rw [Cell.issued_cls, small] at port
    rw [Cell.issued_rstored] at rstored
    rw [Cell.issued_cls] at tokens
    exact ⟨t, run.trans (congrArg Host.Outcome.next moved), st.trans ((Cell.issued_st c).trans h.2.2.1), cur,
      comp.trans (Cell.issued_comp c), mem, engines, scratch, port, rstored, tokens⟩
  · exact small ▸ (h.rstore_source source (small ▸ a1)).recorded
  · exact (h.rstore_dest source rfl (small ▸ a1) a2).recorded
  · exact (h.xltFault (h.rstore_aligned source rfl (small ▸ a1) a2 m1 m2 m3)).recorded
  · exact (h.countedFault (h.rstore_aligned source rfl (small ▸ a1) a2 m1 m2 m3)).recorded
  · exact (h.countedFault (h.rstore_aligned source rfl (small ▸ a1) a2 m1 m2 m3)).recorded
  · exact opens h fits (hld h) inside
  · exact turns h fits (hld h) out
  · exact opens h fits (hst h) inside
  · exact turns h fits (hst h) out
  · exact (h.hostStep_beyond (hld h) out).recorded
  · exact (h.hostStep_beyond (hst h) out).recorded

end Sys2Proof.Machine

namespace Sys2Proof.Machine

/-! ## A state with one row engine replaced -/

def State.putEngine (s : State) (k : Nat) (x : Engine) : State := { s with engines := s.engines.set k x }

/-- The counters of an engine after an event, unless FREEZE is set (R137). -/
def Engine.counted (x : Engine) (f : EngineCnt → EngineCnt) : Engine := if x.freeze then x else { x with cnt := f x.cnt }

section
variable {s : State} {k : Nat}

theorem State.modEngine_eq_putEngine (s : State) (k : Nat) (f : Engine → Engine) :
    s.modEngine k f = s.putEngine k (f (s.engine k)) :=
  congrArg (fun l => { s with engines := l }) (s.modEngine_eq_set k f)

theorem State.countEngine_eq_modEngine (s : State) (k : Nat) (f : EngineCnt → EngineCnt) :
    s.countEngine k f = s.modEngine k (·.counted f) := rfl

theorem State.engine_putEngine_self (hk : k < s.engines.length) (x : Engine) : (s.putEngine k x).engine k = x := by
  simp [State.putEngine, State.engine, List.getD_eq_getElem?_getD, hk]

@[simp] theorem State.putEngine_putEngine (x y : Engine) : (s.putEngine k x).putEngine k y = s.putEngine k y := by
  simp [State.putEngine]

theorem State.putEngine_engine (s : State) (k : Nat) : s.putEngine k (s.engine k) = s := by
  refine (s.modEngine_eq_putEngine k id).symm.trans ?_
  rw [State.modEngine, List.modify_id]

theorem State.modEngine_putEngine (hk : k < s.engines.length) (x : Engine) (f : Engine → Engine) :
    (s.putEngine k x).modEngine k f = s.putEngine k (f x) := by
  rw [State.modEngine_eq_putEngine, State.engine_putEngine_self hk, State.putEngine_putEngine]

theorem State.countEngine_putEngine (hk : k < s.engines.length) (x : Engine) (f : EngineCnt → EngineCnt) :
    (s.putEngine k x).countEngine k f = s.putEngine k (x.counted f) := State.modEngine_putEngine hk x _

end

section
variable (x : Engine) (f : EngineCnt → EngineCnt)

theorem Engine.counted_eq : ∃ c, x.counted f = { x with cnt := c } ∧ (x.freeze = false → c = f x.cnt) := by
  by_cases frozen : x.freeze = true
  · exact ⟨x.cnt, if_pos frozen, fun thaw => absurd frozen (by simp [thaw])⟩
  · exact ⟨f x.cnt, if_neg frozen, fun _ => rfl⟩
end

/-! ## The parts of an engine -/

theorem modWhere_singleton {α : Type} {a : α} {p : α → Bool} (f : α → α) (h : p a = true) : modWhere [a] p f = [f a] := by
  simp [modWhere, h]

section
variable {s : State} {k : Nat} (hk : k < s.engines.length) {x : Engine} {p : Part} (one : x.parts = [p])
include hk one

theorem State.heldPart_putEngine : (s.putEngine k x).heldPart k p.id = some p := by
  rw [State.heldPart, State.engine_putEngine_self hk, one]
  simp

theorem State.modHeld_putEngine (f : Part → Part) :
    (s.putEngine k x).modHeld k p.id f = s.putEngine k { x with parts := [f p] } := by
  rw [State.modHeld, State.modEngine_putEngine hk, one, modWhere_singleton f (by simp)]

/-- A part goes on while an access of it waits or an item is left (R107). -/
theorem State.partTry_waits (waits : p.items ≠ [] ∨ ∃ f ∈ x.fetches, f.part = p.id) : (s.putEngine k x).partTry k p.id = s.putEngine k x := by
  unfold State.partTry
  rw [State.heldPart_putEngine hk one]
  dsimp only
  rw [if_pos]
  rw [State.engine_putEngine_self hk]
  rcases waits with items | ⟨f, hf, same⟩
  · exact .inr (.inl items)
  · exact .inr (.inr (.inl (List.any_eq_true.2 ⟨f, hf, by simpa using same⟩)))

/-- A gather part with nothing left is done (R107). -/
theorem State.partTry_gather (open_ : p.done = false) (gather : p.op = 1) (items : p.items = [])
    (fetches : ∀ f ∈ x.fetches, f.part ≠ p.id) (misses : x.misses = []) : ∃ held,
    (s.putEngine k x).partTry k p.id = s.putEngine k { x with parts := [{ p with done := true }], held := held } := by
  unfold State.partTry
  rw [State.heldPart_putEngine hk one]
  dsimp only
  rw [if_neg, if_pos (.inl gather), State.modHeld_putEngine hk one, State.sweepHeld, State.modEngine_putEngine hk]
  · exact ⟨_, rfl⟩
  · rw [State.engine_putEngine_self hk, misses]
    simpa [open_, items] using fetches

end

/-! ## Taking a part and its items (R121, R128, R133) -/

section
variable {s : State} {k : Nat} (hk : k < s.engines.length) {p : Part}
include hk

theorem State.issueFetch_putEngine (x : Engine) (f : Fetch) : ∃ high,
    (s.putEngine k x).issueFetch k f = s.putEngine k { x with fetches := x.fetches ++ [f], tagsHigh := high } :=
  ⟨_, State.modEngine_putEngine hk x _⟩

/-- A part that carries no number to check enters an empty engine (R133). -/
theorem State.admitPart_single {x : Engine} (at_ : s.engine k = x) (input : x.input = [p]) (parts : x.parts = [])
    (unchecked : s.checked p = false) : s.admitPart k = s.putEngine k { x with input := [], parts := [p] } := by
  subst at_
  have first : (s.engine k).input.find? (fun p => !(s.checked p && (s.engine k).parts.any fun q =>
      !q.done && q.src == p.src && q.seq == p.seq && q.op != 1)) = some p := by
    simp [input, unchecked]
  have still (x : Engine) : (s.putEngine k x).checked p = false := unchecked
  unfold State.admitPart
  dsimp only
  rw [if_neg (by simp [parts]), first]
  simp [State.modEngine_eq_putEngine, State.engine_putEngine_self hk, still, input, parts]

/-- A turn of an engine that holds one part takes all its items (R133). -/
theorem State.takeTurn_single {x : Engine} (one : x.parts = [p]) (fetches : x.fetches = []) (open_ : p.done = false)
    (items : p.items ≠ []) (few : p.items.length ≤ 256) {y : Engine} {q : Part}
    (run : p.items.foldl (fun s it => if p.op = 1 then s.takeIndex k p.id it else s.takeRow k p.id it)
      (s.putEngine k { x with parts := [{ p with items := [] }] }) = s.putEngine k y) (left : y.parts = [q]) (same : q.id = p.id) :
    (s.putEngine k x).takeTurn k = (s.putEngine k y).partTry k q.id := by
  have ready : (((s.putEngine k x).engine k).parts.filter fun p => !p.done && !p.items.isEmpty).take 16 = [p] := by
    simp [State.engine_putEngine_self hk, one, open_, items]
  have tags : ((s.putEngine k x).engine k).tags = 0 := by simp [State.engine_putEngine_self hk, Engine.tags, fetches]
  unfold State.takeTurn
  rw [ready]
  dsimp only
  rw [tags, if_neg (by decide), State.modHeld_putEngine hk one, List.take_of_length_le (by simpa using few),
    List.drop_of_length_le (by simpa using few), run, State.modEngine_putEngine hk]
  have order : (y.parts.filter fun q => (([] : List Part).map (·.id)).contains q.id) ++ (y.parts.filter fun q => q.id == p.id)
      ++ y.parts.filter (fun q => !(([p] : List Part).map (·.id)).contains q.id) = y.parts := by
    simp [left, same]
  rw [order, same]

/-- One row of a resident update is taken (R128, R129). -/
theorem State.takeRow_resident {e : TableEntry} {ep : Epoch} (table : s.partTable p = some e) (epoch : s.epoch p.table p.epoch = some ep)
    (from_ : p.skipTo = 0) (current : ep.st = 2) {x : Engine} (one : x.parts = [p]) {it : Item} (inside : it.row < ep.rows)
    (resident : it.row < ep.res) : ∃ high, (s.putEngine k x).takeRow k p.id it = s.putEngine k { x with
      parts := [{ p with got := p.got ++ [(it.pos, it.row, 0)] }]
      fetches := x.fetches ++ [⟨p.id, 0, it.pos, it.row, p.table, p.epoch, true, 0, true⟩], tagsHigh := high } := by
  have fresh : Part.refuses { p with got := p.got ++ [(it.pos, it.row, 0)] } ep = false := by simp [Part.refuses, current]
  have warm : ep.isCold it.row = false := by simp [Epoch.isCold, resident]
  have table' (y : Engine) : (s.putEngine k y).partTable { p with got := p.got ++ [(it.pos, it.row, 0)] } = some e := table
  have epoch' (y : Engine) : (s.putEngine k y).epoch p.table p.epoch = some ep := epoch
  unfold State.takeRow
  rw [State.heldPart_putEngine hk one]
  dsimp only
  rw [if_neg (by omega), State.modHeld_putEngine hk one, table', epoch']
  dsimp only
  rw [fresh, warm, if_neg (by decide), if_neg (by omega), if_neg (by decide)]
  exact State.issueFetch_putEngine hk _ _

/-- The rows of a resident update are taken in list order (R128). -/
theorem State.takeRows_resident {e : TableEntry} {ep : Epoch} (table : s.partTable p = some e) (epoch : s.epoch p.table p.epoch = some ep)
    (from_ : p.skipTo = 0) (current : ep.st = 2) (l : List Item) (rows : ∀ it ∈ l, it.row < ep.rows ∧ it.row < ep.res)
    {x : Engine} {got : List (Nat × Nat × Nat)} (one : x.parts = [{ p with got := got }]) : ∃ high,
    l.foldl (fun s it => s.takeRow k p.id it) (s.putEngine k x) = s.putEngine k { x with
      parts := [{ p with got := got ++ l.map fun it => (it.pos, it.row, 0) }]
      fetches := x.fetches ++ l.map fun it => ⟨p.id, 0, it.pos, it.row, p.table, p.epoch, true, 0, true⟩, tagsHigh := high } := by
  induction l generalizing x got with
  | nil => exact ⟨x.tagsHigh, by simp [← one]⟩
  | cons it l ih =>
    obtain ⟨inside, resident⟩ := rows it List.mem_cons_self
    obtain ⟨_, first⟩ := State.takeRow_resident (p := { p with got := got }) hk table epoch from_ current one inside resident
    obtain ⟨high, rest⟩ := ih (fun it h => rows it (List.mem_cons_of_mem _ h)) (x := { x with
      parts := [{ p with got := got ++ [(it.pos, it.row, 0)] }]
      fetches := x.fetches ++ [⟨p.id, 0, it.pos, it.row, p.table, p.epoch, true, 0, true⟩], tagsHigh := _ }) rfl
    refine ⟨high, ?_⟩
    rw [List.foldl_cons, first]
    simpa using rest

/-- The home of a table without marquetry only counts an occurrence (R154, R155). -/
theorem State.countRow_home {e : TableEntry} {ep : Option Epoch} {row : Nat} (home : e.home ep row = k)
    (plain : ∀ y, s.anyTable e.table = some y → y.marq = false) (x : Engine) : ∃ sketch occ,
    (s.putEngine k x).countRow k e ep row = s.putEngine k { x with sketch := sketch, occ := occ } := by
  have still (y : Engine) : (s.putEngine k y).tryReplicate k e.table row = s.putEngine k y := by
    unfold State.tryReplicate
    split
    · rename_i table _
      rw [if_pos (.inl (by simpa using plain _ table))]
    · rfl
  unfold State.countRow
  dsimp only
  rw [if_pos home, State.modEngine_putEngine hk, still]
  exact ⟨_, _, rfl⟩

/-- The first index of a gather opens a slice and, being resident, is fetched (R121). -/
theorem State.takeIndex_first {e : TableEntry} {ep : Epoch} (table : s.partTable p = some e) (epoch : s.epoch p.table p.epoch = some ep)
    (plain : ∀ y, s.anyTable e.table = some y → y.marq = false) (slices : p.slices = 0) {it : Item}
    (inside : it.row < ep.rows) (resident : it.row < ep.res) (home : e.home (some ep) it.row = k) {x : Engine} (one : x.parts = [p]) :
    ∃ sketch occ high cnt window, (s.putEngine k x).takeIndex k p.id it = s.putEngine k { x with
        parts := [{ p with slices := 1, got := p.got ++ [(it.pos, it.row, 0)], window := window, distinct := [it.row], fetched := p.fetched + 1 }]
        fetches := x.fetches ++ [⟨p.id, 0, it.pos, it.row, p.table, p.epoch, false, p.deadline, true⟩]
        sketch := sketch, occ := occ, tagsHigh := high, cnt := cnt } ∧
      (x.freeze = false → cnt = { x.cnt with
        indices := x.cnt.indices + 1, slices := x.cnt.slices + 1, fetches := x.cnt.fetches + 1 }) := by
  have table' (y : Engine) : (s.putEngine k y).partTable p = some e := table
  have epoch' (y : Engine) : (s.putEngine k y).epoch p.table p.epoch = some ep := epoch
  have within : decide (ep.rows ≤ it.row) = false := by simpa using inside
  have warm : ep.isCold it.row = false := by simp [Epoch.isCold, resident]
  unfold State.takeIndex
  rw [State.heldPart_putEngine hk one]
  dsimp only
  rw [table']
  dsimp only
  rw [epoch']
  dsimp only
  simp only [within, warm, slices, beq_self_eq_true, Bool.true_or, Bool.not_true, Bool.false_eq_true, if_true, if_false,
    Nat.zero_add, Nat.sub_self, State.countEngine_putEngine hk]
  obtain ⟨c, first, counts⟩ := x.counted_eq fun c => { c with indices := c.indices + 1 }
  rw [first]
  obtain ⟨sketch, occ, seen⟩ := State.countRow_home hk home plain { x with cnt := c }
  rw [seen, State.modHeld_putEngine hk (by exact one), State.countEngine_putEngine hk]
  obtain ⟨d, second, counts'⟩ := Engine.counted_eq _ fun c : EngineCnt => { c with slices := c.slices + 1, fetches := c.fetches + 1 }
  rw [second]
  obtain ⟨high, issued⟩ := State.issueFetch_putEngine hk _ _
  refine ⟨sketch, occ, high, d, _, issued, fun thaw => ?_⟩
  rw [counts' thaw, counts thaw]

end

theorem execRequestPart_active {s : State} {k : Nat} (active : (s.engine k).st = 1) (runs : (s.engine k).paused = false) :
    exec (.requestPart k) s = .next ((s.admitPart k).takeTurn k) := by
  show execRequestPart k s = _
  rw [execRequestPart, if_neg (not_not.2 active), runs]
  rfl

/-- A table found in the catalogue has the number asked for. -/
theorem State.table_number {s : State} {p t : Nat} {e : TableEntry} (found : s.table p t = some e) : e.table = t := by
  have both := List.find?_some found
  simp only [Bool.and_eq_true, beq_iff_eq] at both
  exact both.1

section
variable {s : State} {k : Nat} {p : Part} {e : TableEntry} {ep : Epoch} (hk : k < s.engines.length)
  (table : s.partTable p = some e) (epoch : s.epoch p.table p.epoch = some ep) {x : Engine} (at_ : s.engine k = x) (active : x.st = 1)
  (runs : x.paused = false) (input : x.input = [p]) (parts : x.parts = [])
  (fetches : x.fetches = []) (open_ : p.done = false)
include hk table epoch at_ active runs input parts fetches open_

/-- A gather part with one resident index is taken and its row fetched (R121, R133). -/
theorem requestPart_gather {it : Item} (gather : p.op = 1) (items : p.items = [it]) (slices : p.slices = 0)
    (plain : ∀ y, s.anyTable p.table = some y → y.marq = false) (inside : it.row < ep.rows) (resident : it.row < ep.res)
    (home : e.home (some ep) it.row = k) : ∃ sketch occ high cnt window,
    exec (.requestPart k) s = .next (s.putEngine k { x with
      input := []
      parts := [{ p with items := [], slices := 1, got := p.got ++ [(it.pos, it.row, 0)], window := window, distinct := [it.row],
                         fetched := p.fetched + 1 }]
      fetches := [⟨p.id, 0, it.pos, it.row, p.table, p.epoch, false, p.deadline, true⟩]
      sketch := sketch, occ := occ, tagsHigh := high, cnt := cnt }) ∧
    (x.freeze = false → cnt = { x.cnt with
      indices := x.cnt.indices + 1, slices := x.cnt.slices + 1, fetches := x.cnt.fetches + 1 }) := by
  have unchecked : s.checked p = false := by simp [State.checked, gather]
  obtain ⟨sketch, occ, high, cnt, window, take, counts⟩ := State.takeIndex_first (p := { p with items := [] }) hk table epoch
    (by rwa [State.table_number table]) slices inside resident home
    (x := { x with input := [], parts := [{ p with items := [] }] }) rfl
  refine ⟨sketch, occ, high, cnt, window, ?_, counts⟩
  rw [execRequestPart_active (at_ ▸ active) (at_ ▸ runs), State.admitPart_single hk at_ input parts unchecked,
    State.takeTurn_single (x := { x with input := [], parts := [p] }) hk rfl fetches open_ (by simp [items]) (by simp [items])
      (Eq.trans (by rw [items, List.foldl_cons, List.foldl_nil, if_pos gather]) take) rfl rfl]
  refine congrArg Host.Outcome.next ((State.partTry_waits hk rfl (.inr ⟨_, List.mem_concat_self, rfl⟩)).trans ?_)
  rw [fetches]
  rfl

/-- An update part of at most 256 resident rows is taken in list order, and its rows are fetched (R121, R128, R133). -/
theorem requestPart_update (update : p.op ≠ 1) (unnumbered : p.src = 0) (got : p.got = []) (from_ : p.skipTo = 0)
    (some_ : p.items ≠ []) (few : p.items.length ≤ 256) (current : ep.st = 2)
    (rows : ∀ it ∈ p.items, it.row < ep.rows ∧ it.row < ep.res) : ∃ high,
    exec (.requestPart k) s = .next (s.putEngine k { x with
      input := []
      parts := [{ p with items := [], got := p.items.map fun it => (it.pos, it.row, 0) }]
      fetches := p.items.map fun it => ⟨p.id, 0, it.pos, it.row, p.table, p.epoch, true, 0, true⟩
      tagsHigh := high }) := by
  have unchecked : s.checked p = false := by simp [State.checked, unnumbered]
  obtain ⟨high, take⟩ := State.takeRows_resident (p := { p with items := [] }) hk table epoch from_ current p.items rows
    (x := { x with input := [], parts := [{ p with items := [] }] }) (got := []) (by rw [← got])
  refine ⟨high, ?_⟩
  rw [execRequestPart_active (at_ ▸ active) (at_ ▸ runs), State.admitPart_single hk at_ input parts unchecked,
    State.takeTurn_single (x := { x with input := [], parts := [p] }) hk rfl fetches open_ some_ few
      (Eq.trans (by simp only [if_neg update]) take) rfl rfl]
  obtain ⟨it, l, items⟩ := List.exists_cons_of_ne_nil some_
  refine congrArg Host.Outcome.next ((State.partTry_waits
    (p := { p with items := [], got := p.items.map fun it => (it.pos, it.row, 0) }) hk rfl (.inr ⟨⟨p.id, 0, it.pos, it.row, p.table, p.epoch, true, 0, true⟩, by simp [items], rfl⟩)).trans ?_)
  rw [fetches]
  rfl

end
end Sys2Proof.Machine

namespace Sys2Proof.Machine

/-! ## Parts that an engine ends (R119, R136, R138) -/

/-- A part once the engine that holds the list has ended all its parts with a status. -/
def Part.endedIn (l : List Part) (status : Nat) (p : Part) : Part :=
  if ((l.filter fun q => !q.done).map (·.id)).contains p.id then { p with done := true, status } else p

section
variable {l : List Part} {status : Nat} {p : Part}

theorem Part.endedIn_id : (p.endedIn l status).id = p.id := by
  unfold Part.endedIn
  split <;> rfl

theorem Part.endedIn_of_open (mem : p ∈ l) (open_ : p.done = false) : p.endedIn l status = { p with done := true, status } := by
  refine if_pos ?_
  simpa using ⟨p, ⟨mem, open_⟩, rfl⟩

theorem Part.endedIn_done (mem : p ∈ l) : (p.endedIn l status).done = true := by
  by_cases done : p.done = true
  · unfold Part.endedIn
    split
    · rfl
    · exact done
  · rw [Part.endedIn_of_open mem (by simpa using done)]

theorem Part.endedIn_of_done (distinct : (l.map (·.id)).Nodup) (mem : p ∈ l) (done : p.done = true) : p.endedIn l status = p := by
  refine if_neg ?_
  simp only [List.contains_eq_mem, List.mem_map, List.mem_filter, decide_eq_true_eq]
  rintro ⟨q, ⟨hq, open_⟩, same⟩
  have alike : q = p := List.inj_on_of_nodup_map distinct hq mem same
  simp [alike, done] at open_

end

/-- What an engine has taken, and its fault registers. -/
structure Engine.SameWork (x y : Engine) : Prop where
  parts : y.parts = x.parts
  input : y.input = x.input
  faultCause : y.faultCause = x.faultCause
  faultValid : y.faultValid = x.faultValid
  faultParts : y.faultParts = x.faultParts

theorem Engine.SameWork.refl (x : Engine) : x.SameWork x := ⟨rfl, rfl, rfl, rfl, rfl⟩

theorem Engine.SameWork.trans {x y z : Engine} (h : x.SameWork y) (k : y.SameWork z) : x.SameWork z :=
  ⟨k.parts.trans h.parts, k.input.trans h.input, k.faultCause.trans h.faultCause, k.faultValid.trans h.faultValid,
    k.faultParts.trans h.faultParts⟩

/-- From s to t every row engine has kept its parts and its fault registers. -/
structure State.SameWork (s t : State) : Prop where
  work : ∀ k, (s.engine k).SameWork (t.engine k)
  length : t.engines.length = s.engines.length

theorem State.SameWork.refl (s : State) : s.SameWork s := ⟨fun _ => .refl _, rfl⟩

section
variable {s t : State} (h : s.SameWork t)
include h

theorem State.SameWork.trans {u : State} (k : t.SameWork u) : s.SameWork u :=
  ⟨fun j => (h.work j).trans (k.work j), k.length.trans h.length⟩

/-- A change of anything but the engines. -/
theorem State.SameWork.other {u : State} (engines : u.engines = t.engines := by exact rfl) : s.SameWork u := by
  refine ⟨fun j => ?_, engines ▸ h.length⟩
  have same : u.engine j = t.engine j := congrArg (fun l : List Engine => l.getD j .fresh) engines
  rw [same]
  exact h.work j

theorem State.SameWork.foldl {α : Type} (l : List α) {f : State → α → State}
    (step : ∀ t a, s.SameWork t → s.SameWork (f t a)) : s.SameWork (l.foldl f t) := by
  induction l generalizing t with
  | nil => exact h
  | cons a l ih => exact ih (step t a h)

theorem State.SameWork.mapped (f : Nat → Engine → Engine) (same : ∀ k x, Engine.SameWork x (f k x)) :
    s.SameWork { t with engines := t.engines.mapIdx f } := by
  refine h.trans ⟨fun j => ?_, List.length_mapIdx⟩
  rw [State.engine, State.engine, List.getD_eq_getElem?_getD, List.getD_eq_getElem?_getD, List.getElem?_mapIdx]
  cases t.engines[j]? with
  | none => exact .refl _
  | some x => exact same j x

theorem State.SameWork.modEngine (k : Nat) {f : Engine → Engine} (same : ∀ x, Engine.SameWork x (f x)) : s.SameWork (t.modEngine k f) := by
  refine h.trans ⟨fun j => ?_, List.length_modify ..⟩
  rw [State.modEngine, State.engine, State.engine, getD_modify]
  split
  · rename_i here
    exact here.1 ▸ same _
  · exact .refl _

theorem State.SameWork.told {u : State} (k : t.Told u) : s.SameWork u := by
  obtain ⟨_, _, _, _, rfl⟩ := k
  exact h.other

theorem State.SameWork.sweepHeld (k : Nat) : s.SameWork (t.sweepHeld k) := h.modEngine k fun _ => ⟨rfl, rfl, rfl, rfl, rfl⟩

theorem State.SameWork.freeEpoch (table n : Nat) : s.SameWork (t.freeEpoch table n) := by
  have freed : s.SameWork (t.modEpoch table n fun e => { e with st := 0, sweep := true }) := h.other
  unfold State.freeEpoch State.withdrawIf
  refine State.SameWork.foldl ?_ _ fun _ k h => h.sweepHeld k
  exact State.SameWork.other (freed.mapped (fun h e => { e with replicas := e.replicas.filter fun r =>
    !(r.table == table && r.epoch == n) }) fun _ _ => ⟨rfl, rfl, rfl, rfl, rfl⟩)

theorem State.SameWork.freeUnheld : s.SameWork t.freeUnheld := h.foldl _ fun _ e h => h.freeEpoch e.table e.no

theorem State.SameWork.unqueue (p : Nat) (bs : List Block) : s.SameWork (t.unqueue p bs) := by
  refine h.foldl bs fun t b h => h.foldl b.queued fun t g h => ?_
  unfold State.countChange
  split
  · exact h
  · exact h.other

theorem State.SameWork.endJob (i status cause : Nat) : s.SameWork (t.endJob i status cause) := by
  unfold State.endJob
  split
  · exact h
  · exact State.SameWork.other (h.foldl (t.cell i).port.slots fun _ x h =>
      h.unqueue ((t.cell i).part.getD 0) (x.blocks.filter x.discarded))

theorem State.SameWork.endSusp (i status : Nat) : s.SameWork (t.endSusp i status) := by
  unfold State.endSusp
  split
  · exact h
  · exact h.other

theorem State.SameWork.dropQueued (i status : Nat) (p : Job → Bool) : s.SameWork (t.dropQueued i status p) :=
  State.SameWork.foldl h.other _ fun _ _ h => h.other

theorem State.SameWork.endJobs (status : Nat) (p : Job → Bool) : s.SameWork (t.endJobs status p) := by
  refine h.foldl _ fun t i h => State.SameWork.dropQueued ?_ i status p
  have ran : s.SameWork (if (t.cell i).job.any p then t.endJob i status 0 else t) := by
    split
    · exact h.endJob i status 0
    · exact h
  split
  · exact ran.endSusp i status
  · exact ran

theorem State.SameWork.dropBatches (p : Batch → Bool) : s.SameWork (t.dropBatches p) :=
  State.SameWork.freeUnheld (State.SameWork.other (h.endJobs 4 _))

theorem State.SameWork.hrvSend (type stream arg : Nat) (d : Data) : s.SameWork (t.hrvSend type stream arg d) := by
  unfold State.hrvSend State.hrvPump
  dsimp only
  split
  · split <;> exact h.other
  · exact h.other

theorem State.SameWork.charge (k : Nat) (p : Option Nat) (n : Nat) : s.SameWork (t.charge k p n) := by
  cases p with
  | none => exact h
  | some p => exact h.modEngine k fun _ => ⟨rfl, rfl, rfl, rfl, rfl⟩

theorem State.SameWork.countStack (k : Nat) (f : Stack → Stack) : s.SameWork (t.countStack k f) := by
  refine h.modEngine k fun x => ?_
  split
  · exact .refl _
  · exact ⟨rfl, rfl, rfl, rfl, rfl⟩

theorem State.SameWork.drainGranule (k g : Nat) (f : Stack → Stack) : s.SameWork (t.drainGranule k g f) := by
  unfold State.drainGranule
  split
  · exact h
  · refine State.SameWork.charge (State.SameWork.countStack (State.SameWork.modEngine ?_ k ?_) k _) k _ 2
    · exact h.other
    · exact fun _ => ⟨rfl, rfl, rfl, rfl, rfl⟩

theorem State.SameWork.drainAll : s.SameWork t.drainAll := h.foldl _ fun _ k h => h.foldl _ fun _ g h => h.drainGranule k g _

theorem State.SameWork.closeParts : s.SameWork ((List.range 16).foldl State.closePart t) := h.other t.closeParts.engines

end

/-! ## Engines that go out of service -/

/-- The parts of x have ended, and y holds them, with those of its input that have ended since. -/
structure Engine.Ended (x y : Engine) : Prop where
  done : ∀ q ∈ y.parts, q.done = true
  ids : (y.parts ++ y.input).map (·.id) = (x.parts ++ x.input).map (·.id)
  kept : ((x.parts ++ x.input).map (·.id)).Nodup → ∀ q ∈ x.parts, q ∈ y.parts
  faultCause : y.faultCause = x.faultCause
  faultValid : y.faultValid = x.faultValid
  faultParts : y.faultParts = x.faultParts

theorem Engine.Ended.refl {x : Engine} (done : ∀ q ∈ x.parts, q.done = true) : x.Ended x :=
  ⟨done, rfl, fun _ _ => id, rfl, rfl, rfl⟩

theorem Engine.Ended.after {x y z : Engine} (h : x.Ended y) (k : y.SameWork z) : x.Ended z where
  done := k.parts ▸ h.done
  ids := by rw [k.parts, k.input, h.ids]
  kept := k.parts ▸ h.kept
  faultCause := k.faultCause.trans h.faultCause
  faultValid := k.faultValid.trans h.faultValid
  faultParts := k.faultParts.trans h.faultParts

theorem State.putEngine_length (s : State) (k : Nat) (x : Engine) : (s.putEngine k x).engines.length = s.engines.length :=
  List.length_set

section
variable {s : State} {k : Nat} (hk : k < s.engines.length)
include hk

/-- All the parts of an engine end with a status; their fetches and waiters go. -/
theorem State.endParts_all {x : Engine} (at_ : s.engine k = x) (status : Nat) : ∃ fetches misses held,
    (s.endParts k status fun _ => true) = s.putEngine k { x with
      parts := x.parts.map (·.endedIn x.parts status), fetches := fetches, misses := misses, held := held } := by
  subst at_
  unfold State.endParts
  rw [State.sweepHeld, State.modEngine_eq_putEngine s, State.modEngine_putEngine hk]
  simp only [Bool.and_true]
  exact ⟨_, _, _, rfl⟩

/-- An engine out of service ends every part that it holds or that waits for it (R119, R136). -/
theorem State.engineLost_eq {x : Engine} (at_ : s.engine k = x) : ∃ fetches misses held, s.engineLost k = s.putEngine k { x with
    input := [], parts := (x.parts ++ x.input).map (·.endedIn (x.parts ++ x.input) 8), fetches := fetches, misses := misses
    held := held } := by
  subst at_
  have waits : (s.modEngine k fun e => { e with parts := e.parts ++ e.input, input := [] }).engine k =
    { s.engine k with parts := (s.engine k).parts ++ (s.engine k).input, input := [] } := State.engine_modEngine_self _ _ hk
  obtain ⟨fetches, misses, held, ended⟩ := State.endParts_all (by simpa using hk) waits 8
  refine ⟨fetches, misses, held, ?_⟩
  rw [State.engineLost, ended, State.modEngine_eq_putEngine, State.putEngine_putEngine]

omit hk in
theorem State.engineLost_engine_ne (s : State) {j : Nat} (other : j ≠ k) : (s.engineLost j).engine k = s.engine k := by
  unfold State.engineLost State.endParts State.sweepHeld
  rw [State.engine_modEngine_ne _ _ other, State.engine_modEngine_ne _ _ other, State.engine_modEngine_ne _ _ other]

section
variable {x : Engine} (h : x.Ended (s.engine k))
include h

/-- An engine that has ended its parts ends those of its input too, and leaves the others as they are. -/
theorem Engine.Ended.engineLost : x.Ended ((s.engineLost k).engine k) := by
  obtain ⟨fetches, misses, held, lost⟩ := State.engineLost_eq hk rfl
  rw [lost, State.engine_putEngine_self hk]
  refine ⟨?_, ?_, fun distinct q hq => ?_, h.faultCause, h.faultValid, h.faultParts⟩
  · simpa only [List.forall_mem_map] using fun q mem => Part.endedIn_done mem
  · simp only [List.append_nil, List.map_map, Function.comp_def, Part.endedIn_id]
    exact h.ids
  · have here := h.kept distinct q hq
    have mem : q ∈ (s.engine k).parts ++ (s.engine k).input := List.mem_append_left _ here
    exact List.mem_map.2 ⟨q, mem, Part.endedIn_of_done (h.ids ▸ distinct) mem (h.done q here)⟩

theorem Engine.Ended.engineOut (j : Nat) : x.Ended ((s.engineOut j).engine k) := by
  have off := h.after ((State.SameWork.modEngine (.refl s) j (f := fun e => { e with st := 2 }) fun _ => ⟨rfl, rfl, rfl, rfl, rfl⟩).work k)
  unfold State.engineOut
  split
  · by_cases same : j = k
    · subst same
      exact off.engineLost (by simpa using hk)
    · rwa [State.engineLost_engine_ne _ same]
  · exact h
end
end

section
variable {s : State} {k : Nat} (hk : k < s.engines.length) {x : Engine} (h : x.Ended (s.engine k))
include hk h

theorem Engine.Ended.enginesOut (l : List Nat) : x.Ended ((l.foldl State.engineOut s).engine k) := by
  induction l generalizing s with
  | nil => exact h
  | cons j l ih => exact ih (by rwa [State.engineOut_length]) (h.engineOut hk j)

theorem Engine.Ended.finishDrain : x.Ended (s.finishDrain.engine k) := by
  have drained : s.SameWork s.stacksDrained := by
    unfold State.stacksDrained
    split
    · exact (State.SameWork.refl s).drainAll
    · exact .refl s
  have cells : s.SameWork s.stacksDrained.cellsDrained := by
    unfold State.cellsDrained
    split
    · exact drained.other
    · exact drained
  rw [State.finishDrain_eq]
  split
  · exact h
  · unfold State.wholeDrained
    split
    · exact Engine.Ended.enginesOut (s := s.stacksDrained.cellsDrained.drainCells) (by exact cells.length ▸ hk) (h.after (cells.work k)) _
    · exact h.after (cells.work k)

/-- Whatever becomes of a module that turns suspect, the ended parts of an engine stay ended (R421). -/
theorem Engine.Ended.makeSuspect (cls : Nat) : x.Ended ((s.makeSuspect cls).engine k) := by
  unfold State.makeSuspect
  split
  · exact h
  · have filed : s.SameWork ((s.modHealth fun h => { h with suspect := true, replace := true, cause := cls, draining := true }).steward
        0x1E ⟨0, 0, 0⟩ cls 0 0 4) :=
      (State.SameWork.refl s).told (((State.Told.refl s).modHealth _).fileReport _ _ _)
    dsimp only
    generalize State.steward _ _ _ _ _ _ _ = t at filed ⊢
    have sent : s.SameWork (if t.hrv.st = 4 then t.hrvSend 0xB 2 1 [] else t) := by
      split
      · exact filed.hrvSend _ _ _ _
      · exact filed
    generalize ite (t.hrv.st = 4) (t.hrvSend 0xB 2 1 []) t = u at sent ⊢
    have dropped : s.SameWork (if t.hrv.st = 4 then u.dropBatches fun b => u.mirrored b.part else u) := by
      split
      · exact sent.dropBatches _
      · exact sent
    exact Engine.Ended.finishDrain (dropped.closeParts.length ▸ hk) (h.after (dropped.closeParts.work k))

end

/-! ## Reports of a row engine (R138, R403, R418) -/

theorem State.Told.steward {s t : State} (h : s.Told t) (cls : Nat) (u : UnitId) (sub info0 info1 sev : Nat) :
    s.Told (t.steward cls u sub info0 info1 sev) := h.fileReport _ _ _

theorem State.Told.larkRepair {s t : State} (h : s.Told t) (u : UnitId) (action detail loc : Nat) :
    s.Told (t.larkRepair u action detail loc) := by
  unfold State.larkRepair
  exact h.modLark u _

section
variable {s : State} {k : Nat} (hk : k < s.engines.length) {x : Engine} (h : x.Ended (s.engine k))
include hk h

theorem Engine.Ended.failStack : x.Ended ((s.failStack k).engine k) := by
  have failed : s.SameWork (s.modEngine k fun e => { e with st := 3, mem := { e.mem with failed := true } }) :=
    (State.SameWork.refl s).modEngine k fun _ => ⟨rfl, rfl, rfl, rfl, rfl⟩
  have lost := (h.after (failed.work k)).engineLost (failed.length ▸ hk)
  unfold State.failStack
  dsimp only
  generalize State.modEngine _ _ _ = t at failed lost ⊢
  have length : k < (t.engineLost k).engines.length := by
    obtain ⟨_, _, _, run⟩ := State.engineLost_eq (failed.length ▸ hk) (rfl : t.engine k = _)
    rw [run, State.putEngine_length, failed.length]
    exact hk
  generalize t.engineLost k = u at length lost ⊢
  have filed := (State.SameWork.refl u).told
    (((State.Told.refl u).modLark ⟨2, k, 0⟩ fun l => { l with st := 3, dirty := false }).steward 0x0A ⟨2, k, 0⟩ 0 0 0 4)
  exact Engine.Ended.makeSuspect (filed.length ▸ length) (lost.after (filed.work k)) 0x0A

/-- The repair around an engine makes it pause, or fails its stack (R418, R420). -/
theorem Engine.Ended.permanent (cls : Nat) : x.Ended ((s.permanent ⟨2, k, 0⟩ cls).engine k) := by
  have judged : s.SameWork (s.judge ⟨2, k, 0⟩ cls) :=
    (State.SameWork.refl s).told (((State.Told.refl s).modLark _ _).steward _ _ _ _ _ _)
  rw [State.permanent]
  generalize s.judge ⟨2, k, 0⟩ cls = t at judged ⊢
  rw [State.repairAround, if_neg (by simp), if_pos rfl]
  split
  · have repaired := judged.told ((State.Told.refl t).larkRepair ⟨2, k, 0⟩ 8 0 0)
    exact h.after ((repaired.modEngine k (f := fun e => { e with paused := true }) fun _ => ⟨rfl, rfl, rfl, rfl, rfl⟩).work k)
  · exact Engine.Ended.failStack (judged.length ▸ hk) (h.after (judged.work k))

theorem Engine.Ended.countEvent (cls : Nat) : x.Ended ((s.countEvent ⟨2, k, 0⟩ cls).engine k) := by
  have marked := (State.SameWork.refl s).told ((State.Told.refl s).modLark ⟨2, k, 0⟩ fun l => l.event cls (s.minutes ⟨2, k, 0⟩))
  unfold State.countEvent
  dsimp only
  split
  · exact h
  · split
    · exact Engine.Ended.permanent (marked.length ▸ hk) (h.after (marked.work k)) cls
    · exact h.after (marked.work k)

theorem Engine.Ended.countIncident (cls : Nat) : x.Ended ((s.countIncident ⟨2, k, 0⟩ cls).engine k) := by
  unfold State.countIncident
  dsimp only
  split
  · split
    · exact h
    · have counted := Engine.Ended.countEvent (s := s.modHealth fun h => { h with incidents := (modWhere h.incidents
        (fun n => n.rep.unit == ⟨2, k, 0⟩ && n.rep.cls == cls) fun n => { n with counted := true }) }) hk h cls
      split <;> exact counted
  · exact h.countEvent hk cls

/-- A report of a row engine, which starts its jig and may make it permanent, ends no more than parts (R403, R404, R418). -/
theorem Engine.Ended.report {rep : Report} (unit : rep.unit = ⟨2, k, 0⟩) (cls : rep.cls = 7) (sev : Nat) :
    x.Ended ((s.report rep sev).engine k) := by
  have filed := (State.SameWork.refl s).told ((State.Told.refl s).fileReport rep sev (if isJigClass rep.cls then 0x10 else 0))
  unfold State.report
  dsimp only
  generalize s.fileReport rep sev _ = r at filed ⊢
  have jig : s.SameWork (r.2.startJig rep.unit rep.cls) := by
    rw [unit, State.startJig, if_neg (by omega), if_neg (by simp), if_pos rfl]
    exact State.SameWork.other (filed.modEngine k (f := fun e => { e with jigDue := true }) fun _ => ⟨rfl, rfl, rfl, rfl, rfl⟩)
  have started : s.SameWork (if r.1 = true ∧ isJigClass rep.cls = true then
      (r.2.startJig rep.unit rep.cls).modHealth fun h => { h with
        incidents := modWhere h.incidents (fun n => n.rep.unit == rep.unit && n.rep.cls == rep.cls) fun n => { n with verdict := 1 } }
      else r.2) := by
    split
    · exact jig.other
    · exact filed
  rw [if_neg (fun both => by omega), if_pos (by rw [cls]; rfl), unit]
  rw [unit] at started
  exact Engine.Ended.countIncident (started.length ▸ hk) (h.after (started.work k)) rep.cls

end

/-- An engine once a fault of it has ended its parts (R138). -/
structure Engine.Faulted (x : Engine) (cause : Nat) (y : Engine) : Prop where
  parts : y.parts = x.parts.map (·.endedIn x.parts 9)
  input : y.input = x.input
  faultCause : y.faultCause = cause
  faultValid : y.faultValid = true
  faultParts : y.faultParts = (x.parts.filter fun q => !q.done).length

section
variable {s : State} {k : Nat} (hk : k < s.engines.length)
include hk

/-- A fault of the engine ends every part held, and what its report brings about leaves them ended (R138). -/
theorem State.engineFault_ended (cause : Nat) : ∃ y, (s.engine k).Faulted cause y ∧ y.Ended ((s.engineFault k cause).engine k) := by
  have marked : s.SameWork (((s.engine k).parts.filter fun p => !p.done).foldl (fun s p =>
      if s.checked p then s.setSrc k { s.srcState k p.src with mark := some (p.seq, max p.skipTo (s.prefixDone k p)) } else s) s) := by
    refine (State.SameWork.refl s).foldl _ fun t p h => ?_
    split
    · exact h.modEngine k fun _ => ⟨rfl, rfl, rfl, rfl, rfl⟩
    · exact h
  unfold State.engineFault
  dsimp only
  generalize List.foldl _ s _ = t at marked ⊢
  have hk' : k < t.engines.length := marked.length ▸ hk
  obtain ⟨fetches, misses, held, ended⟩ := State.endParts_all hk' rfl 9
  rw [ended, State.modEngine_putEngine hk']
  generalize hy : Engine.mk _ _ _ _ _ _ _ _ _ _ _ _ _ _ _ _ _ _ _ _ _ _ _ _ _ _ = y
  have work := marked.work k
  have faulted : (s.engine k).Faulted cause y := by
    subst hy
    exact ⟨by rw [work.parts], work.input, rfl, rfl, rfl⟩
  refine ⟨y, faulted, Engine.Ended.report (by rwa [State.putEngine_length]) ?_ rfl rfl 2⟩
  rw [State.engine_putEngine_self hk']
  refine .refl ?_
  rw [faulted.parts]
  simpa only [List.forall_mem_map] using fun q mem => Part.endedIn_done mem

end

end Sys2Proof.Machine

/-- The cause that RE_FAULT_STATUS shows of an internal error (R138). -/
def Sys2Proof.EngineErr.cause : EngineErr → Nat
  | .none => 0 | .poolResidue => 1 | .addResidue => 2 | .dedupUncorrectable => 3 | .tagUncorrectable => 4

namespace Sys2Proof.Machine

/-- A fetch that is first in its engine and changes nothing conflicts with no other (R128). -/
theorem State.fetchReady_first {s : State} {k : Nat} {f : Fetch} (reads : f.update = false) : s.fetchReady k 0 f = true := by
  simp [State.fetchReady, reads]

/-- An internal error that a fetch meets faults its engine (R138). -/
theorem rowFetchDone_error {s : State} {k : Nat} {f : Fetch} {fs : List Fetch} {err : EngineErr}
    (fetches : (s.engine k).fetches = f :: fs) (reads : f.update = false) (tag : f.tag = true ∨ (s.engine k).tags < 8192)
    (error : err ≠ .none) : exec (.rowFetchDone k 0 err) s = .next (s.engineFault k err.cause) := by
  have cause : err.cause ≠ 0 := by cases err <;> simp_all [EngineErr.cause]
  show execRowFetchDone k 0 err s = _
  have ready : ¬ ((!s.fetchReady k 0 f) = true ∨ (!f.tag) = true ∧ 8192 ≤ (s.engine k).tags) := by
    rw [State.fetchReady_first reads]
    rcases tag with tag | free
    · simp [tag]
    · simp [free]
  unfold execRowFetchDone State.fetchDone
  rw [fetches]
  exact congrArg Host.Outcome.next ((if_neg ready).trans (if_pos cause))

/-- An internal error ends the parts held that were open with ENGINE_FAULT, and the engine shows how many and why (R138). -/
theorem rowFetchDone_faults {s : State} {k : Nat} (hk : k < s.engines.length) {f : Fetch} {fs : List Fetch} {err : EngineErr}
    (fetches : (s.engine k).fetches = f :: fs) (reads : f.update = false) (tag : f.tag = true ∨ (s.engine k).tags < 8192)
    (error : err ≠ .none) : ∃ t, exec (.rowFetchDone k 0 err) s = .next t ∧ (∀ q ∈ (t.engine k).parts, q.done = true) ∧
      ((((s.engine k).parts ++ (s.engine k).input).map (·.id)).Nodup → ∀ q ∈ (s.engine k).parts, q.done = false →
        { q with done := true, status := 9 } ∈ (t.engine k).parts) ∧
      (t.engine k).faultValid = true ∧ (t.engine k).faultParts = ((s.engine k).parts.filter fun q => !q.done).length ∧
      (t.engine k).faultCause = err.cause := by
  obtain ⟨y, faulted, ended⟩ := State.engineFault_ended hk err.cause
  refine ⟨_, rowFetchDone_error fetches reads tag error, ended.done, fun distinct q mem open_ => ?_,
    ended.faultValid.trans faulted.faultValid, ended.faultParts.trans faulted.faultParts, ended.faultCause.trans faulted.faultCause⟩
  have distinct' : ((y.parts ++ y.input).map (·.id)).Nodup := by
    rw [faulted.parts, faulted.input]
    simpa [Part.endedIn_id, Function.comp_def] using distinct
  rw [← Part.endedIn_of_open mem open_]
  exact ended.kept distinct' _ (faulted.parts ▸ List.mem_map_of_mem mem)

/-- An engine that is not ACTIVE ends what it holds and what is sent to it with STACK_LOST (R119, R136). -/
theorem requestPart_lost {s : State} {k : Nat} (hk : k < s.engines.length) (out : (s.engine k).st ≠ 1) {l : List Part}
    (all : (s.engine k).parts ++ (s.engine k).input = l) : ∃ t, exec (.requestPart k) s = .next t ∧ (t.engine k).input = [] ∧
      (∀ q ∈ (t.engine k).parts, q.done = true) ∧ (t.engine k).parts.map (·.id) = l.map (·.id) ∧
      ((l.map (·.id)).Nodup → (t.engine k).parts = l.map fun q => if q.done then q else { q with done := true, status := 8 }) ∧
      t.mem = s.mem := by
  obtain ⟨fetches, misses, held, lost⟩ := State.engineLost_eq hk rfl
  refine ⟨_, congrArg Host.Outcome.next ((if_pos out).trans lost), ?_⟩
  rw [State.engine_putEngine_self hk, all]
  refine ⟨rfl, ?_, ?_, fun distinct => List.map_congr_left fun q mem => ?_, rfl⟩
  · simpa only [List.forall_mem_map] using fun q mem => Part.endedIn_done mem
  · simp only [List.map_map, Function.comp_def, Part.endedIn_id]
  · by_cases done : q.done = true
    · rw [Part.endedIn_of_done distinct mem done, if_pos done]
    · rw [Part.endedIn_of_open mem (by simpa using done), if_neg done]

end Sys2Proof.Machine

namespace Sys2Proof.Machine

/-! ## Pieces of an extent, one after the other -/

/-- The first piece of an extent ends at the next multiple of the unit, or with the extent. -/
theorem chunks_step {u n : Nat} (hu : 0 < u) (hn : 0 < n) (a : Nat) :
    chunks u a n = (a, min n (u - a % u)) :: chunks u (a + min n (u - a % u)) (n - min n (u - a % u)) := by
  have ha := Nat.div_add_mod a u
  have below := Nat.mod_lt a hu
  by_cases fits : n ≤ u - a % u
  · rw [Nat.min_eq_left fits, Nat.sub_self, chunks_single hn (by omega)]
    simp [chunks]
  · rw [Nat.min_eq_right (by omega)]
    have start : a + (u - a % u) = (a / u + 1) * u := by rw [Nat.add_mul, Nat.mul_comm]; omega
    have finish : a + (u - a % u) + (n - (u - a % u)) = a + n := by omega
    have more : a / u + 1 ≤ (a + n - 1) / u := (Nat.le_div_iff_mul_le hu).2 (by omega)
    have count : (a + n - 1) / u + 1 - a / u = (a + n - 1) / u + 1 - (a / u + 1) + 1 := by omega
    rw [chunks, chunks, if_neg (by omega), if_neg (by omega), finish, start, Nat.mul_div_cancel _ hu, count,
      List.range_succ_eq_map, List.map_cons, List.map_map]
    congr 1
    · rw [Nat.add_zero, ← start, Nat.max_eq_left (by rw [Nat.mul_comm]; omega), Nat.min_eq_right (by omega)]
      exact congrArg (Prod.mk a) (Nat.add_sub_cancel_left ..)
    · refine List.map_congr_left fun i _ => ?_
      have same : a / u + (i + 1) = a / u + 1 + i := by omega
      have above : (a / u + 1) * u ≤ (a / u + 1 + i) * u := Nat.mul_le_mul_right u (by omega)
      simp only [Function.comp_apply, Nat.succ_eq_add_one, same]
      rw [Nat.max_eq_right (by omega), Nat.max_eq_right above]

/-- A property of extents that holds of the empty one, and of one whose rest behind the first piece has it. -/
theorem chunks_induction {u : Nat} (hu : 0 < u) {P : Nat → Nat → List (Nat × Nat) → Prop} (nil : ∀ a, P a 0 [])
    (cons : ∀ a n m, 0 < m → m ≤ n → P (a + m) (n - m) (chunks u (a + m) (n - m)) → P a n ((a, m) :: chunks u (a + m) (n - m)))
    (a n : Nat) : P a n (chunks u a n) := by
  induction n using Nat.strong_induction_on generalizing a with
  | _ n ih =>
    by_cases none : n = 0
    · subst none
      exact nil a
    · have below := Nat.mod_lt a hu
      rw [chunks_step hu (by omega)]
      exact cons a n _ (by omega) (by omega) (ih _ (by omega) _)

/-- The pieces of a read, put together (R201). -/
theorem Store.read_chunks {u : Nat} (hu : 0 < u) (w : Nat) (st : Store) {o : Nat} (A a n : Nat) (ha : o ≤ a) :
    (chunks u a n).flatMap (fun c => st.read w (A + (c.1 - o)) c.2) = st.read w (A + (a - o)) n := by
  refine chunks_induction hu (P := fun a n l => o ≤ a → l.flatMap (fun c => st.read w (A + (c.1 - o)) c.2) = st.read w (A + (a - o)) n)
    (fun a _ => rfl) (fun a n m _ le ih ha => ?_) a n ha
  rw [List.flatMap_cons, ih (by omega), show A + (a + m - o) = A + (a - o) + m by omega, Store.read_append, Nat.add_sub_cancel' le]

/-- Unmarked data marks nothing. -/
theorem Store.isMarked_write_clean {u : Nat} {st : Store} {a x : Nat} {d : Data} (clean : ∀ c ∈ d, c.2 = false)
    (unmarked : st.isMarked x = false) : (st.write u a d).isMarked x = false := by
  by_cases empty : d = []
  · rw [empty]
    exact unmarked
  · have none (l : Data) (sub : ∀ c ∈ l, c ∈ d) : l.marked = false := by
      rw [Data.marked, List.any_eq_false]
      exact fun c hc => by simp [clean c (sub c hc)]
    rw [Store.isMarked_write _ _ _ _ _ empty]
    split
    · unfold Store.markAfter
      dsimp only
      rw [none _ fun c hc => List.mem_of_mem_drop (List.mem_of_mem_take hc), unmarked]
      simp
    · exact unmarked

/-- The pieces of data d for address A, cut from offset o on, written one after the other. -/
def Store.writePieces (A o : Nat) (d : Data) (m : Store) (l : List (Nat × Nat)) : Store :=
  l.foldl (fun (m : Store) c => m.write 64 (A + (c.1 - o)) ((d.drop (c.1 - o)).take c.2)) m

section
variable (A o : Nat) (d : Data)

/-- What the pieces of a write leave at an address: the byte written, or what was there. -/
theorem Store.get_writePieces {u : Nat} (hu : 0 < u) (x a n : Nat) (m : Store) (ha : o ≤ a) (size : a - o + n = d.length) :
    (m.writePieces A o d (chunks u a n)).get x =
      if A + (a - o) ≤ x ∧ x < A + d.length then d.bytes.getD (x - A) 0 else m.get x := by
  refine chunks_induction hu (P := fun a n l => ∀ m : Store, o ≤ a → a - o + n = d.length → (m.writePieces A o d l).get x =
      if A + (a - o) ≤ x ∧ x < A + d.length then d.bytes.getD (x - A) 0 else m.get x) (fun a m ha size => ?_)
    (fun a n k pos le ih m ha size => ?_) a n m ha size
  · rw [Store.writePieces, List.foldl_nil, if_neg (by omega)]
  · have piece : ((d.drop (a - o)).take k).length = k := by rw [List.length_take, List.length_drop]; omega
    refine (ih (m.write 64 (A + (a - o)) ((d.drop (a - o)).take k)) (by omega) (by omega)).trans ?_
    rw [Store.get_write, piece]
    by_cases later : A + (a + k - o) ≤ x ∧ x < A + d.length
    · rw [if_pos later, if_pos (by omega)]
    · rw [if_neg later]
      by_cases here : A + (a - o) ≤ x ∧ x < A + (a - o) + k
      · rw [if_pos here, if_pos (by omega)]
        have inside : x - (A + (a - o)) < k := by omega
        simp only [Data.bytes, List.map_take, List.map_drop, List.getD_eq_getElem?_getD, List.getElem?_take, inside, if_true,
          List.getElem?_drop]
        congr 2
        omega
      · rw [if_neg here, if_neg (by omega)]

theorem Store.isMarked_writePieces {x : Nat} (clean : ∀ c ∈ d, c.2 = false) (l : List (Nat × Nat)) {m : Store}
    (unmarked : m.isMarked x = false) : (m.writePieces A o d l).isMarked x = false := by
  induction l generalizing m with
  | nil => exact unmarked
  | cons c l ih =>
    exact ih (Store.isMarked_write_clean (fun c hc => clean c (List.mem_of_mem_drop (List.mem_of_mem_take hc))) unmarked)
end

/-! ## Areas of a stack (R127, R200, R201) -/

theorem Store.setMark_get (m : Store) (x : Nat) (b : Bool) (a : Nat) : (m.setMark x b).get a = m.get a := rfl

theorem Store.isMarked_setMark_false (m : Store) (x y : Nat) :
    (m.setMark x false).isMarked y = (m.isMarked y && decide (y ≠ x)) := by
  rw [Bool.eq_iff_iff]
  simp only [Store.setMark, Store.isMarked, Bool.false_eq_true, if_false, List.append_nil, List.contains_eq_mem, decide_eq_true_eq,
    List.mem_append, List.mem_filter, Bool.and_eq_true]
  constructor
  · rintro (⟨mem, lt⟩ | ⟨mem, lt⟩) <;> exact ⟨mem, by omega⟩
  · rintro ⟨mem, ne⟩
    rcases Nat.lt_or_gt_of_ne ne with lt | gt
    · exact .inl ⟨mem, lt⟩
    · exact .inr ⟨mem, gt⟩

/-- The marks of several units cleared, one by one. -/
theorem Store.unmarks (l : List (Nat × Nat)) (m : Store) :
    (∀ a, (l.foldl (fun (m : Store) u => m.setMark (u.1 / 64) false) m).get a = m.get a) ∧
    ∀ c ∈ l, (l.foldl (fun (m : Store) u => m.setMark (u.1 / 64) false) m).isMarked (c.1 / 64) = false := by
  have stays (l : List (Nat × Nat)) : ∀ m : Store, ∀ x, m.isMarked x = false →
      (l.foldl (fun (m : Store) u => m.setMark (u.1 / 64) false) m).isMarked x = false := by
    induction l with
    | nil => exact fun _ _ h => h
    | cons c l ih => exact fun m x h => ih _ x (by rw [Store.isMarked_setMark_false, h, Bool.false_and])
  induction l generalizing m with
  | nil => exact ⟨fun _ => rfl, by simp⟩
  | cons c l ih =>
    obtain ⟨bytes, marks⟩ := ih (m.setMark (c.1 / 64) false)
    refine ⟨bytes, fun e he => ?_⟩
    rcases List.mem_cons.1 he with rfl | he
    · exact stays l _ _ (by rw [Store.isMarked_setMark_false]; simp)
    · exact marks e he

/-- Every unit that an extent meets begins a piece of it. -/
theorem chunks_meets {u a n x : Nat} (hu : 0 < u) (inside : a ≤ x ∧ x < a + n) : ∃ c ∈ chunks u a n, c.1 / u = x / u := by
  have low : a / u ≤ x / u := Nat.div_le_div_right inside.1
  have high : x / u ≤ (a + n - 1) / u := Nat.div_le_div_right (by omega)
  rw [chunks, if_neg (by omega)]
  refine ⟨_, List.mem_map.2 ⟨x / u - a / u, List.mem_range.2 (by omega), rfl⟩, ?_⟩
  dsimp only
  rw [show a / u + (x / u - a / u) = x / u by omega]
  by_cases first : x / u = a / u
  · rw [first, Nat.max_eq_left (Nat.div_mul_le_self a u)]
  · have above : a < x / u * u := Nat.lt_of_not_le fun le => first (by
      have := (Nat.le_div_iff_mul_le hu).2 le
      omega)
    rw [Nat.max_eq_right above.le, Nat.mul_div_cancel _ hu]

section
variable {s : State} {k : Nat}

/-- From s to t the stack of row engine k has been counted and charged. -/
def State.Counted (s : State) (k : Nat) (t : State) : Prop :=
  ∃ m : Stack, m.failed = (s.engine k).mem.failed ∧ m.lost = (s.engine k).mem.lost ∧ t = s.putEngine k { s.engine k with mem := m }

variable (hk : k < s.engines.length)
include hk

omit hk in
theorem State.counted_modStack {f : Stack → Stack} (failed : ∀ m, (f m).failed = m.failed := by exact fun _ => rfl)
    (lost : ∀ m, (f m).lost = m.lost := by exact fun _ => rfl) :
    s.Counted k (s.modStack k f) := ⟨_, failed _, lost _, s.modEngine_eq_putEngine k _⟩

omit hk in
theorem State.counted_charge (p : Option Nat) (n : Nat) : s.Counted k (s.charge k p n) := by
  unfold State.charge
  cases p with
  | none => exact ⟨_, rfl, rfl, (s.putEngine_engine k).symm⟩
  | some p => exact State.counted_modStack

theorem State.Counted.trans {t u : State} (h : s.Counted k t) (h' : t.Counted k u) : s.Counted k u := by
  obtain ⟨m, failed, lost, rfl⟩ := h
  obtain ⟨m', failed', lost', rfl⟩ := h'
  simp only [State.engine_putEngine_self hk] at failed' lost'
  refine ⟨m', failed'.trans failed, lost'.trans lost, ?_⟩
  rw [State.engine_putEngine_self hk, State.putEngine_putEngine]

omit hk in
theorem State.counted_countStack {f : Stack → Stack} (failed : ∀ m, (f m).failed = m.failed := by exact fun _ => rfl)
    (lost : ∀ m, (f m).lost = m.lost := by exact fun _ => rfl) :
    s.Counted k (s.countStack k f) := by
  rw [State.countStack, State.modEngine_eq_putEngine]
  split
  · exact ⟨_, rfl, rfl, rfl⟩
  · exact ⟨_, failed _, lost _, rfl⟩

/-- Bursts counted by f are charged too. -/
theorem State.counted_charged {f : Stack → Stack} (failed : ∀ m, (f m).failed = m.failed := by exact fun _ => rfl)
    (lost : ∀ m, (f m).lost = m.lost := by exact fun _ => rfl) {p : Option Nat} {n : Nat} : s.Counted k ((s.countStack k f).charge k p n) :=
  (State.counted_countStack failed lost).trans hk (State.counted_charge p n)

/-- A read of an area counts and charges its bursts. -/
theorem State.areaRead_counted (kind p off n : Nat) : s.Counted k (s.areaRead kind p k off n).2 := by
  unfold State.areaRead
  split
  · exact ⟨_, rfl, rfl, (s.putEngine_engine k).symm⟩
  · exact State.counted_charged hk (p := some p) (n := _)

end

section
variable {s : State} {k kind p off n : Nat} (whole : (s.engine k).mem.failed = false) (lost : (s.engine k).mem.lost = [])
  (fits : off % s.share + n ≤ s.share)
include fits

/-- The bytes of an extent that stays within a share lie one behind the other (R197, R200). -/
theorem State.areaAddr_within {c : Nat} (inside : off ≤ c ∧ c < off + n) :
    s.areaAddr kind p k c = s.areaAddr kind p k off + (c - off) := by
  have pos : 0 < s.share := by omega
  have parts := Nat.div_add_mod off s.share
  have same : c / s.share = off / s.share := by
    rw [Nat.div_eq_iff pos]
    constructor <;> rw [Nat.mul_comm (off / s.share)] <;> omega
  have rest : c % s.share = off % s.share + (c - off) := by
    have parts' := Nat.div_add_mod c s.share
    rw [same] at parts'
    omega
  rw [State.areaAddr, State.areaAddr, same, rest, Nat.add_assoc _ (off % s.share)]

omit fits in
theorem chunks_inside {u a n : Nat} (hu : 0 < u) : ∀ c ∈ chunks u a n, a ≤ c.1 ∧ c.1 < a + n := by
  refine chunks_induction hu (P := fun a n l => ∀ c ∈ l, a ≤ c.1 ∧ c.1 < a + n) (by simp) (fun a n m pos le ih c hc => ?_) a n
  rcases List.mem_cons.1 hc with rfl | hc
  · exact ⟨le_refl _, by dsimp only; omega⟩
  · have := ih c hc
    omega

include whole lost

/-- A read of an area of a stack that has lost nothing (R201). -/
theorem State.areaRead_within : (s.areaRead kind p k off n).1 = s.mem.read 64 (s.areaAddr kind p k off) n := by
  rw [State.areaRead, whole, if_neg (by decide)]
  have linear : ∀ c ∈ chunks 256 off n, (if (s.engine k).mem.lost.contains (areaChannel c.1) then Data.mark true (zeros c.2)
      else s.mem.read 64 (s.areaAddr kind p k c.1) c.2) = s.mem.read 64 (s.areaAddr kind p k off + (c.1 - off)) c.2 := fun c hc => by
    rw [lost, if_neg (by simp), State.areaAddr_within fits (chunks_inside (by decide) c hc)]
  dsimp only
  rw [List.flatMap_congr linear, Store.read_chunks (by decide) 64 s.mem _ off n le_rfl, Nat.sub_self, Nat.add_zero]

/-- A write into an area of a stack that has lost nothing is written piece by piece, counted and charged (R201). -/
theorem State.areaWrite_within (hk : k < s.engines.length) {d : Data} (size : d.length = n) :
    ({ s with mem := s.mem.writePieces (s.areaAddr kind p k off) off d (chunks 256 off n) } : State).Counted k
      (s.areaWrite kind p k off d) := by
  have linear : (chunks 256 off d.length).foldl (fun (m : Store) c => if (s.engine k).mem.lost.contains (areaChannel c.1) then m else
      m.write 64 (s.areaAddr kind p k c.1) ((d.drop (c.1 - off)).take c.2)) s.mem =
      s.mem.writePieces (s.areaAddr kind p k off) off d (chunks 256 off n) := by
    rw [size]
    refine List.foldl_ext _ _ _ fun m c hc => ?_
    rw [lost, if_neg (by simp), State.areaAddr_within fits (chunks_inside (by decide) c hc)]
  rw [State.areaWrite, whole, if_neg (by decide)]
  dsimp only
  rw [linear]
  generalize Store.writePieces _ _ _ _ _ = m
  exact State.counted_charged (s := { s with mem := m }) hk (p := some p) (n := (chunks 64 off d.length).length)

end

section
variable {s : State} {k kind p off n : Nat} (fits : off % s.share + n ≤ s.share)
include fits

/-- A row written over another: it reads as written, without a mark, and nothing beside it has changed (R127). -/
structure Store.RowAt (m m' : Store) (a : Nat) (b : Bytes) : Prop where
  row : m'.read 64 a b.length = Data.clean b
  rest : ∀ x, x < a ∨ a + b.length ≤ x → m'.get x = m.get x

/-- The marks of an extent cleared, and its bytes written (R127). -/
theorem Store.rowAt_write {b : Bytes} (pos : 0 < n) (len : b.length = n) : s.mem.RowAt
    ((s.areaUnmark kind p k off n).mem.writePieces (s.areaAddr kind p k off) off (Data.clean b) (chunks 256 off n))
    (s.areaAddr kind p k off) b := by
  have size : (Data.clean b).length = n := by rw [Data.clean, List.length_map, len]
  have bytes : (Data.clean b).bytes = b := by simp [Data.clean, Data.bytes, Function.comp_def]
  have clean : ∀ c ∈ Data.clean b, c.2 = false := by simp [Data.clean]
  have unmark : (s.areaUnmark kind p k off n).mem =
      (chunks 64 (s.areaAddr kind p k off) n).foldl (fun m u => m.setMark (u.1 / 64) false) s.mem := by
    rw [State.areaUnmark, chunks_single pos fits]
    rfl
  obtain ⟨kept, unmarked⟩ := Store.unmarks (chunks 64 (s.areaAddr kind p k off) n) s.mem
  rw [unmark]
  generalize s.areaAddr kind p k off = A at kept unmarked ⊢
  generalize List.foldl _ s.mem _ = m at kept unmarked ⊢
  have get := fun x => Store.get_writePieces A off (Data.clean b) (u := 256) (by decide) x off n m le_rfl (by omega)
  refine ⟨List.ext_getElem (by simp [Data.clean]) fun i hi hi' => ?_, fun x out => ?_⟩
  · rw [Store.read_length] at hi
    obtain ⟨c, hc, unit⟩ := chunks_meets (u := 64) (by decide) (a := A) (n := n) (x := A + i) (by omega)
    have mark := Store.isMarked_writePieces A off (Data.clean b) clean (chunks 256 off n) (unit ▸ unmarked c hc)
    simp only [Store.read_eq, List.getElem_map, List.getElem_range, get, mark, size, bytes]
    rw [if_pos (by omega)]
    simp [Data.clean, hi]
  · rw [get, if_neg (by omega), kept]

end

end Sys2Proof.Machine

namespace Sys2Proof.Machine

/-! ## Row accesses that return (R127, R128, R131) -/

section
variable {s : State} {k : Nat} (hk : k < s.engines.length)
include hk

/-- A read of an area sees no more of its engine than the stack. -/
theorem State.areaRead_putEngine {y : Engine} (stack : y.mem = (s.engine k).mem) (kind p off n : Nat) :
    ((s.putEngine k y).areaRead kind p k off n).1 = (s.areaRead kind p k off n).1 := by
  unfold State.areaRead
  rw [State.engine_putEngine_self hk, stack]
  split <;> rfl

section
variable {x : Engine} (at_ : s.engine k = x) {p : Part} (one : x.parts = [p]) {f : Fetch} {fs : List Fetch} (fetches : x.fetches = f :: fs)
  (mine : f.part = p.id) (tag : f.tag = true ∨ x.tags < 8192) {e : TableEntry} {ep : Epoch} (table : s.partTable p = some e)
  (epoch : s.epoch f.table f.epoch = some ep)
include at_ one fetches mine tag table epoch

/-- The access that is first in its engine returns, and no error meets it (R128, R131). -/
theorem rowFetchDone_first (ready : s.fetchReady k 0 f = true) : ∃ high, exec (.rowFetchDone k 0 .none) s =
    .next (((s.putEngine k { x with fetches := fs, tagsHigh := high }).runFetch k e ep p f).partTry k p.id) := by
  subst at_
  have may : ¬ ((!s.fetchReady k 0 f) = true ∨ (!f.tag) = true ∧ 8192 ≤ (s.engine k).tags) := by
    rw [ready]
    rcases tag with tag | free
    · simp [tag]
    · simp [free]
  refine ⟨if f.tag then (s.engine k).tagsHigh else max (s.engine k).tagsHigh ((s.engine k).tags + 1), ?_⟩
  show execRowFetchDone k 0 .none s = _
  unfold execRowFetchDone State.fetchDone
  rw [fetches]
  dsimp only [List.getElem?_cons_zero]
  rw [if_neg may, if_neg (by simp), State.modEngine_eq_putEngine, fetches, mine, State.heldPart_putEngine hk (by exact one)]
  dsimp only [List.eraseIdx_cons_zero]
  have table' (y : Engine) : (s.putEngine k y).partTable p = some e := table
  have epoch' (y : Engine) : (s.putEngine k y).epoch f.table f.epoch = some ep := epoch
  rw [table', epoch']

end

/-- A row that reaches its gather part is kept there, and counted if it is poisoned (R122, R125). -/
theorem State.giveRow_putEngine {x : Engine} {p : Part} (one : x.parts = [p]) (v : RowVal) : ∃ cnt,
    (s.putEngine k x).giveRow k p.id v = s.putEngine k { x with parts := [{ p with rows := p.rows ++ [v] }], cnt := cnt } := by
  unfold State.giveRow
  dsimp only
  rw [State.modHeld_putEngine hk one]
  split
  · obtain ⟨cnt, counted, -⟩ := Engine.counted_eq { x with parts := [{ p with rows := p.rows ++ [v] }] }
      fun c => { c with poison := c.poison + 1 }
    exact ⟨cnt, (State.countEngine_putEngine hk _ _).trans (congrArg (s.putEngine k) counted)⟩
  · exact ⟨x.cnt, rfl⟩

/-- An update row is applied (R127, R128). -/
theorem State.updated_putEngine {x : Engine} {p : Part} (one : x.parts = [p]) (write : p.op = 3) (pos : Nat) : ∃ cnt,
    (s.putEngine k x).updated k p pos true = s.putEngine k { x with parts := [{ p with applied := p.applied ++ [pos] }], cnt := cnt } ∧
    (x.freeze = false → cnt = { x.cnt with writes := x.cnt.writes + 1 }) := by
  have counted : (fun c : EngineCnt => if p.op = 2 then { c with adds := c.adds + 1 } else { c with writes := c.writes + 1 }) =
      fun c => { c with writes := c.writes + 1 } := funext fun c => if_neg (by omega)
  unfold State.updated
  rw [if_pos rfl, counted, State.modHeld_putEngine hk one, State.countEngine_putEngine hk]
  obtain ⟨cnt, counted, counts⟩ := Engine.counted_eq { x with parts := [{ p with applied := p.applied ++ [pos] }] }
    fun c => { c with writes := c.writes + 1 }
  exact ⟨cnt, congrArg (s.putEngine k) counted, counts⟩

/-- A gathered row that is resident at its home is read there (R108, R122). -/
theorem State.runFetch_gather {x : Engine} {p : Part} (one : x.parts = [p]) (stack : x.mem = (s.engine k).mem) (unshared : x.held = [])
    {f : Fetch} (reads : f.update = false) {e : TableEntry} {ep : Epoch} (resident : f.row < ep.res) (home : e.home (some ep) f.row = k) :
    let v := (s.areaRead 3 e.part k (e.rowOff ep f.row) e.len).1
    ∃ cnt mem, (s.putEngine k x).runFetch k e ep p f = s.putEngine k { x with
      parts := [{ p with rows := p.rows ++ [⟨f.slice, f.row, v.bytes, v.marked, 0⟩] }], cnt := cnt, mem := mem } := by
  intro v
  have warm : ep.isCold f.row = false := by simp [Epoch.isCold, resident]
  obtain ⟨mem, -, -, read⟩ := State.areaRead_counted (s := s.putEngine k x) (by rwa [State.putEngine_length]) 3 e.part
    (off := e.rowOff ep f.row) (n := e.len)
  rw [State.engine_putEngine_self hk, State.putEngine_putEngine] at read
  have gather : (s.putEngine k x).gatherRow k e ep f = (v, s.putEngine k { x with mem := mem }) := by
    have none : ((s.putEngine k x).engine k).held.find?
        (fun r => r.table == f.table && r.epoch == f.epoch && r.row == f.row) = none := by
      rw [State.engine_putEngine_self hk, unshared]
      rfl
    unfold State.gatherRow
    dsimp only
    rw [none, home]
    exact Prod.ext (State.areaRead_putEngine hk stack ..) read
  rw [State.runFetch, reads, warm]
  simp only [Bool.not_false, if_true, Bool.false_eq_true, if_false, gather]
  obtain ⟨cnt, given⟩ := State.giveRow_putEngine hk (x := { x with mem := mem }) one ⟨f.slice, f.row, v.bytes, v.marked, 0⟩
  exact ⟨cnt, mem, given⟩

/-- The marks of a row are cleared and it is written whole into the area of a stack that has lost nothing (R127). -/
theorem State.putRow_putEngine {x : Engine} (whole : x.mem.failed = false) (lost : x.mem.lost = []) {kind p off : Nat} {b : Bytes}
    (pos : 0 < b.length) (fits : off % s.share + b.length ≤ s.share) : ∃ M mem,
    ((s.putEngine k x).areaUnmark kind p k off b.length).areaWrite kind p k off (Data.clean b) =
      ({ s with mem := M } : State).putEngine k { x with mem := mem } ∧
    mem.failed = false ∧ mem.lost = [] ∧ s.mem.RowAt M (s.areaAddr kind p k off) b := by
  have row := Store.rowAt_write (s := s) (kind := kind) (p := p) (k := k) fits pos rfl
  have unmark : (s.putEngine k x).areaUnmark kind p k off b.length =
    ({ s with mem := (s.areaUnmark kind p k off b.length).mem } : State).putEngine k x := rfl
  rw [unmark]
  generalize (s.areaUnmark kind p k off b.length).mem = U at row ⊢
  have self := State.engine_putEngine_self (s := s) hk x
  obtain ⟨mem, failed, gone, written⟩ := State.areaWrite_within (s := ({ s with mem := U } : State).putEngine k x) (kind := kind) (p := p)
    ((congrArg (fun y : Engine => y.mem.failed) self).trans whole) ((congrArg (fun y : Engine => y.mem.lost) self).trans lost) fits
    (by rwa [State.putEngine_length]) (d := Data.clean b) (by simp [Data.clean])
  exact ⟨_, mem, written.trans ((congrArg (fun y : Engine => (({ s with mem := _ } : State).putEngine k x).putEngine k
    { y with mem := mem }) self).trans (State.putEngine_putEngine ..)), (failed.trans (congrArg (fun y : Engine => y.mem.failed) self)).trans whole,
    (gone.trans (congrArg (fun y : Engine => y.mem.lost) self)).trans lost, row⟩

/-- A write of a resident row without replicas is applied (R127). -/
theorem State.runFetch_write {x : Engine} {p : Part} (one : x.parts = [p]) (unshared : x.replicas = [])
    (whole : x.mem.failed = false) (lost : x.mem.lost = []) (write : p.op = 3) {f : Fetch} (updates : f.update = true)
    {e : TableEntry} {ep : Epoch} (current : ep.st = 2) (resident : f.row < ep.res)
    (fits : e.rowOff ep f.row % s.share + e.len ≤ s.share) (entry : (p.entryAt f.pos).length = e.len) :
    ∃ cnt mem M, (s.putEngine k x).runFetch k e ep p f = ({ s with mem := M } : State).putEngine k { x with
        parts := [{ p with applied := p.applied ++ [f.pos] }], cnt := cnt, mem := mem } ∧
      (x.freeze = false → cnt = { x.cnt with writes := x.cnt.writes + 1 }) ∧ mem.failed = false ∧ mem.lost = [] ∧
      s.mem.RowAt M (s.areaAddr 3 e.part k (e.rowOff ep f.row)) (p.entryAt f.pos) := by
  have warm : ep.isCold f.row = false := by simp [Epoch.isCold, resident]
  have fresh : p.refuses ep = false := by simp [Part.refuses, current]
  have pos : 0 < (p.entryAt f.pos).length := by rw [entry, TableEntry.len]; omega
  obtain ⟨mem, failed, gone, read⟩ := State.areaRead_counted (s := s.putEngine k x) (by rwa [State.putEngine_length]) 3 e.part
    (off := e.rowOff ep f.row) (n := e.len)
  rw [State.engine_putEngine_self hk] at failed gone
  rw [State.engine_putEngine_self hk, State.putEngine_putEngine] at read
  have apply (d : Data) : Machine.applyUpdate e p d (p.entryAt f.pos) = some (Data.clean (p.entryAt f.pos)) := by
    rw [Machine.applyUpdate, if_pos write, entry, Nat.sub_self, ← entry, List.take_length]
    simp [zeros]
  obtain ⟨M, mem', put, failed', gone', row⟩ := State.putRow_putEngine hk (x := { x with mem := mem }) (failed.trans whole)
    (gone.trans lost) (kind := 3) (p := e.part) pos (entry ▸ fits)
  obtain ⟨cnt, applied, counts⟩ := State.updated_putEngine (s := { s with mem := M }) hk (x := { x with mem := mem' }) one write f.pos
  refine ⟨cnt, mem', M, ?_, counts, failed', gone', row⟩
  rw [State.runFetch, updates, fresh, warm]
  dsimp only
  rw [read, apply]
  simp only [Bool.not_true, Bool.false_eq_true, if_false]
  rw [if_pos write, ← entry, put, applied]
  unfold State.propagate
  rw [State.engine_putEngine_self (s := { s with mem := M }) hk, unshared]
  rfl

end

end Sys2Proof.Machine

namespace Sys2Proof.Machine

/-- Of the accesses of a part that wait, the first in list order may change its row (R128). -/
theorem State.fetchReady_least {s : State} {k : Nat} {f : Fetch} (misses : (s.engine k).misses = [])
    (least : ∀ g ∈ (s.engine k).fetches, g.part = f.part → f.pos ≤ g.pos) : s.fetchReady k 0 f = true := by
  have none : ((s.engine k).fetches ++ (s.engine k).misses.flatMap (·.waiters)).any
      (fun g => g.part == f.part && decide (g.pos < f.pos)) = false := by
    rw [misses, List.flatMap_nil, List.append_nil, List.any_eq_false]
    intro g hg earlier
    simp only [Bool.and_eq_true, beq_iff_eq, decide_eq_true_eq] at earlier
    exact absurd (least g hg earlier.1) (by omega)
  simp [State.fetchReady, none]

section
variable {s : State} {k : Nat} (hk : k < s.engines.length) {x : Engine} (at_ : s.engine k = x) {p : Part} (one : x.parts = [p])
  {f : Fetch} {fs : List Fetch} (fetches : x.fetches = f :: fs) (mine : f.part = p.id) (misses : x.misses = [])
  (tag : f.tag = true ∨ x.tags < 8192) {e : TableEntry} {ep : Epoch} (table : s.partTable p = some e)
  (epoch : s.epoch f.table f.epoch = some ep) (resident : f.row < ep.res)
include hk at_ one fetches mine misses tag table epoch resident

/-- A row that is read enters its gather part as it lies at its home, and ends the part if it was the last (R107, R122). -/
theorem rowFetchDone_gather (open_ : p.done = false) (gather : p.op = 1) (reads : f.update = false) (unshared : x.held = [])
    (home : e.home (some ep) f.row = k) : ∃ high cnt mem held,
    exec (.rowFetchDone k 0 .none) s = .next (s.putEngine k { x with
      parts := [{ p with
        rows := p.rows ++ [⟨f.slice, f.row, (s.areaRead 3 e.part k (e.rowOff ep f.row) e.len).1.bytes,
          (s.areaRead 3 e.part k (e.rowOff ep f.row) e.len).1.marked, 0⟩]
        done := decide (p.items = [] ∧ ∀ g ∈ fs, g.part ≠ p.id) }]
      fetches := fs, held := held, tagsHigh := high, cnt := cnt, mem := mem }) := by
  obtain ⟨high, returned⟩ := rowFetchDone_first hk at_ one fetches mine tag table epoch (State.fetchReady_first reads)
  obtain ⟨cnt, mem, run⟩ := State.runFetch_gather (x := { x with fetches := fs, tagsHigh := high }) hk one (by rw [at_]) unshared reads
    resident home
  rw [returned, run]
  generalize (s.areaRead 3 e.part k (e.rowOff ep f.row) e.len).1 = v
  by_cases last : p.items = [] ∧ ∀ g ∈ fs, g.part ≠ p.id
  · obtain ⟨held, ended⟩ := State.partTry_gather
      (p := { p with rows := p.rows ++ [⟨f.slice, f.row, v.bytes, v.marked, 0⟩] })
      (x := { x with parts := [{ p with rows := p.rows ++ [⟨f.slice, f.row, v.bytes, v.marked, 0⟩] }], fetches := fs,
                     tagsHigh := high, cnt := cnt, mem := mem }) hk rfl open_ gather last.1 last.2 misses
    refine ⟨high, cnt, mem, held, congrArg Host.Outcome.next (ended.trans ?_)⟩
    rw [decide_eq_true last]
  · refine ⟨high, cnt, mem, x.held, congrArg Host.Outcome.next ((State.partTry_waits
      (p := { p with rows := p.rows ++ [⟨f.slice, f.row, v.bytes, v.marked, 0⟩] }) hk rfl ?_).trans ?_)⟩
    · simp only [not_and_or, not_forall, not_not, exists_prop] at last
      exact last
    · rw [decide_eq_false last, ← open_]

/-- A row of a write part is written whole where no replica of it is held elsewhere (R127). -/
theorem rowFetchDone_write (write : p.op = 3) (updates : f.update = true) (least : ∀ g ∈ fs, g.part = p.id → f.pos ≤ g.pos)
    (current : ep.st = 2) (unshared : x.replicas = []) (whole : x.mem.failed = false) (lost : x.mem.lost = [])
    (fits : e.rowOff ep f.row % s.share + e.len ≤ s.share) (more : p.items ≠ []) (entry : (p.entryAt f.pos).length = e.len) :
    ∃ high cnt mem M, exec (.rowFetchDone k 0 .none) s = .next (({ s with mem := M } : State).putEngine k { x with
        parts := [{ p with applied := p.applied ++ [f.pos] }], fetches := fs, tagsHigh := high, cnt := cnt, mem := mem }) ∧
      (x.freeze = false → cnt = { x.cnt with writes := x.cnt.writes + 1 }) ∧ mem.failed = false ∧ mem.lost = [] ∧
      s.mem.RowAt M (s.areaAddr 3 e.part k (e.rowOff ep f.row)) (p.entryAt f.pos) := by
  have ready : s.fetchReady k 0 f = true := by
    refine State.fetchReady_least (by rw [at_, misses]) fun g hg same => ?_
    rw [at_, fetches] at hg
    rcases List.mem_cons.1 hg with rfl | hg
    · exact le_refl _
    · exact least g hg (same.trans mine)
  obtain ⟨high, returned⟩ := rowFetchDone_first hk at_ one fetches mine tag table epoch ready
  obtain ⟨cnt, mem, M, run, counts, failed, gone, row⟩ := State.runFetch_write (x := { x with fetches := fs, tagsHigh := high }) hk one
    unshared whole lost write updates current resident fits entry
  refine ⟨high, cnt, mem, M, ?_, counts, failed, gone, row⟩
  rw [returned, run]
  exact congrArg Host.Outcome.next (State.partTry_waits (s := { s with mem := M }) (p := { p with applied := p.applied ++ [f.pos] })
    hk rfl (.inl more))

end

/-- A row written reads as written (R127). -/
theorem State.areaRead_written {s : State} {k : Nat} (hk : k < s.engines.length) {x : Engine} (whole : x.mem.failed = false)
    (lost : x.mem.lost = []) {kind p off : Nat} {b : Bytes} (fits : off % s.share + b.length ≤ s.share) {M : Store}
    (row : s.mem.RowAt M (s.areaAddr kind p k off) b) :
    ((({ s with mem := M } : State).putEngine k x).areaRead kind p k off b.length).1 = Data.clean b := by
  have self := State.engine_putEngine_self (s := { s with mem := M }) hk x
  refine (State.areaRead_within (s := ({ s with mem := M } : State).putEngine k x) ?_ ?_ fits).trans row.row
  · rw [self, whole]
  · rw [self, lost]

/-! ## Requests that end (R107, R119) -/

/-- A step closed is not open (R66). -/
theorem State.cell_closeAsync {s : State} {i : Nat} (hi : i < s.cells.length) (id : Nat) :
    (s.closeAsync i id).cell i = { s.cell i with open_ := (s.cell i).open_.filter fun o => o.id != id } :=
  (congrArg (State.cell · i) (State.modCell_eq_putCell ..)).trans (State.cell_putCell_self (h := hi) ..)

/-- A request of a cell that holds no step is answered with a token, and its step is no longer open (R107). -/
theorem State.answer_cell {s : State} {r : Request} {i : Nat} (here : r.mirror = none) (local_ : r.reply = none)
    (at_ : s.posOf r.g = some i) (free : (s.cell i).held = none) (d status low : Nat) (rec : Bytes) :
    s.answer d r status low rec = (s.sendToken r.g r.q r.cls ⟨BitVec.ofNat 32 (2 ^ 24 * status + min low 0xFFFFFF), .frontEnd d, true, none,
      if r.destTile then some r.id else none⟩).closeAsync i r.id := by
  have pos (v : Token) : (s.sendToken r.g r.q r.cls v).posOf r.g = some i := at_
  unfold State.answer
  rw [here, local_]
  dsimp only
  rw [pos]
  exact State.wake_of_not_held ((congrArg Cell.held (State.cell_closeAsync (State.posOf_lt (h := at_) ..) r.id)).trans free)

/-- A request answered has no step open (R66, R107). -/
theorem State.closeAsync_closes {s : State} {i : Nat} (hi : i < s.cells.length) (id : Nat) :
    ∀ a ∈ ((s.closeAsync i id).cell i).open_, a.id ≠ id := by
  rw [State.cell_closeAsync hi]
  simp

/-- Replica rows swept change engines only (R157). -/
theorem State.sweepsHeld_eq (l : List Nat) (s : State) : ∃ engines, l.foldl State.sweepHeld s = { s with engines } := by
  induction l generalizing s with
  | nil => exact ⟨s.engines, rfl⟩
  | cons k l ih => exact ih (s.sweepHeld k)

/-- An epoch freed changes the catalogue, the engines and the replica writes that wait, and nothing else (R149). -/
theorem State.freeEpoch_eq (s : State) (table n : Nat) : ∃ epochs engines replWrites,
    s.freeEpoch table n = { s with epochs, engines, replWrites } :=
  (State.sweepsHeld_eq _ _).elim fun engines swept => ⟨_, engines, _, swept⟩

/-- Epochs freed change nothing else either (R143). -/
theorem State.freeUnheld_eq (s : State) : ∃ epochs engines replWrites, s.freeUnheld = { s with epochs, engines, replWrites } := by
  unfold State.freeUnheld
  generalize List.filter _ s.epochs = l
  induction l generalizing s with
  | nil => exact ⟨s.epochs, s.engines, s.replWrites, rfl⟩
  | cons e l ih =>
    obtain ⟨epochs, engines, replWrites, freed⟩ := s.freeEpoch_eq e.table e.no
    rw [List.foldl_cons, freed]
    exact ih _

/-- A finished part leaves its engine for its request (R107). -/
theorem State.partDone_first {s : State} {k : Nat} {p : Part} {ps : List Part} (parts : (s.engine k).parts = p :: ps)
    (done : p.done = true) (others : ∀ q ∈ ps, q.id ≠ p.id) {o : OpenReq} (only : s.openReqs = [o]) (mine : o.r.id = p.req)
    (first : o.parts = []) : s.partDone p.req k =
    (({ s with openReqs := [{ o with parts := [(k, p)], waiting := o.waiting.erase k }] } : State).putEngine k
      { s.engine k with parts := ps }).finishReq p.req := by
  have left : (p :: ps).filter (fun q => q.id != p.id) = ps := by
    rw [List.filter_cons_of_neg (by simp), List.filter_eq_self]
    simpa using others
  unfold State.partDone
  rw [parts, List.find?_cons_of_pos (by simp [done])]
  dsimp only
  rw [State.modEngine_eq_putEngine, parts, left]
  have opened : modWhere s.openReqs (fun o => o.r.id == p.req) (fun o =>
      { o with parts := (o.parts ++ [(k, p)]).mergeSort fun a b => a.1 ≤ b.1, waiting := o.waiting.erase k }) =
      [{ o with parts := [(k, p)], waiting := o.waiting.erase k }] := by
    rw [only, modWhere_singleton _ (by simp [mine]), first, List.nil_append, List.mergeSort_singleton]
  exact congrArg (fun l => State.finishReq (({ s with openReqs := l } : State).putEngine k { s.engine k with parts := ps }) p.req) opened

/-- A request that waits for an engine goes on (R107). -/
theorem State.finishReq_waits {s : State} {o : OpenReq} {l : List OpenReq} (last : s.openReqs = l ++ [o])
    (others : ∀ x ∈ l, x.r.id ≠ o.r.id) (waits : o.waiting ≠ []) : s.finishReq o.r.id = s := by
  have found : s.openReqs.find? (fun x => x.r.id == o.r.id) = some o := by
    rw [last, List.find?_append, List.find?_eq_none.2 (by simpa using others)]
    simp
  unfold State.finishReq
  rw [found]
  exact if_pos (.inl waits)

/-- A request without a place for its record is closed with its token (R119, R120). -/
theorem State.closeReq_silent {s : State} {o : OpenReq} (silent : o.r.stat = 0) (status low : Nat) (rec : Bytes) :
    s.closeReq o status low rec =
      (({ s with openReqs := s.openReqs.filter fun x => x.r.id != o.r.id } : State).answer o.die o.r status low rec).freeUnheld := by
  have quiet (t : State) : t.putSummary o.die o.r rec = t := if_pos (.inl silent)
  rw [State.closeReq]
  dsimp only
  rw [quiet]

/-- An update that waits for nothing and that no partner mirrors is closed with its counts (R119, R384). -/
theorem State.finishReq_update {s : State} {o : OpenReq} (only : s.openReqs = [o]) (waiting : o.waiting = []) (open_ : o.result = none)
    (update : o.r.op ≠ 1) (unmirrored : o.psns = []) : ∃ rec, s.finishReq o.r.id = s.closeReq o o.worst.1
      (if o.worst.1 = 0 then (o.parts.map fun p => p.2.applied.length).sum else o.worst.2) rec := by
  have finish : s.finishReq o.r.id = s.finishUpdate o := by
    simp only [State.finishReq, only, List.find?_cons_of_pos, beq_self_eq_true]
    exact (if_neg (by simp [waiting, open_])).trans (if_neg update)
  exact ⟨_, finish.trans (if_pos unmirrored)⟩

/-- An update whose engines have all ended well posts a token with the number of rows applied (R119). -/
theorem State.finishReq_posts {s : State} {o : OpenReq} (only : s.openReqs = [o]) (waiting : o.waiting = []) (open_ : o.result = none)
    (update : o.r.op ≠ 1) (unmirrored : o.psns = []) (good : o.worst = (0, 15)) (silent : o.r.stat = 0) (here : o.r.mirror = none)
    (local_ : o.r.reply = none) {i : Nat} (at_ : s.posOf o.r.g = some i) (free : (s.cell i).held = none) {n : Nat}
    (applied : (o.parts.map fun p => p.2.applied.length).sum = n) (few : n < 2 ^ 24) :
    ∃ t, s.finishReq o.r.id = t ∧ s.SameWork t ∧ t.openReqs = [] ∧ t.mem = s.mem ∧
      t.tokens = s.tokens ++ [(o.r.g, o.r.q, o.r.cls, ⟨BitVec.ofNat 32 n, .frontEnd o.die, true, none, none⟩)] ∧
      ∀ a ∈ (t.cell i).open_, a.id ≠ o.r.id := by
  have untiled : o.r.destTile = false := by simp [Request.destTile, update]
  obtain ⟨rec, closed⟩ := State.finishReq_update only waiting open_ update unmirrored
  have answered := State.answer_cell (s := { s with openReqs := [] }) here local_ at_ free o.die 0 n rec
  rw [untiled, Nat.mul_zero, Nat.zero_add, Nat.min_eq_left (by omega)] at answered
  rw [good, if_pos rfl, applied, State.closeReq_silent silent, only, List.filter_cons_of_neg (by simp), List.filter_nil, answered] at closed
  generalize posted : State.closeAsync _ i o.r.id = u at closed
  obtain ⟨epochs, engines, replWrites, freed⟩ := u.freeUnheld_eq
  have work : s.SameWork u.freeUnheld := .freeUnheld (posted ▸ .other (.refl s))
  rw [freed] at closed work
  subst posted
  exact ⟨_, closed, work, rfl, rfl, rfl, State.closeAsync_closes (State.posOf_lt (h := at_) ..) o.r.id⟩

section
variable {s : State} {k : Nat} (hk : k < s.engines.length) {p : Part} {ps : List Part} (parts : (s.engine k).parts = p :: ps)
  (done : p.done = true) (others : ∀ q ∈ ps, q.id ≠ p.id) {o : OpenReq} (only : s.openReqs = [o]) (mine : o.r.id = p.req)
  (first : o.parts = [])
include parts done others only mine first

/-- A part that is not the last of its request waits there for the others (R107). -/
theorem partDone_waits {j : Nat} (waiting : o.waiting = [k, j]) : exec (.partDone p.req k) s =
    .next (({ s with openReqs := [{ o with parts := [(k, p)], waiting := [j] }] } : State).putEngine k { s.engine k with parts := ps }) := by
  refine congrArg Host.Outcome.next ((State.partDone_first parts done others only mine first).trans ?_)
  rw [waiting, List.erase_cons_head, ← mine]
  exact State.finishReq_waits (o := { o with parts := [(k, p)], waiting := [j] }) (l := []) rfl (by simp) (by simp)

include hk in
/-- The last part of an update answers it with the number of rows applied (R107, R119). -/
theorem partDone_last {i : Nat} (waiting : o.waiting = [k]) (open_ : o.result = none) (update : o.r.op ≠ 1)
    (unmirrored : o.psns = []) (good : p.status = 0) (local_ : o.r.reply = none) (here : o.r.mirror = none) (silent : o.r.stat = 0)
    (at_ : s.posOf o.r.g = some i) (free : (s.cell i).held = none) (few : p.applied.length < 2 ^ 24) :
    ∃ t, exec (.partDone p.req k) s = .next t ∧ t.openReqs = [] ∧ (t.engine k).parts = ps ∧ t.mem = s.mem ∧
      t.tokens = s.tokens ++ [(o.r.g, o.r.q, o.r.cls, ⟨BitVec.ofNat 32 p.applied.length, .frontEnd o.die, true, none, none⟩)] ∧
      ∀ a ∈ (t.cell i).open_, a.id ≠ o.r.id := by
  obtain ⟨t, finished, work, posted⟩ := State.finishReq_posts (o := { o with parts := [(k, p)], waiting := o.waiting.erase k })
    (s := ({ s with openReqs := [{ o with parts := [(k, p)], waiting := o.waiting.erase k }] } : State).putEngine k
      { s.engine k with parts := ps }) rfl (by simp [waiting]) open_ update unmirrored (by simp [OpenReq.worst, good]) silent here local_
    at_ free (n := p.applied.length) (by simp) few
  obtain ⟨requests, mem, tokens, closed⟩ := posted
  have parts' := (work.work k).parts.trans (congrArg Engine.parts (State.engine_putEngine_self hk _))
  exact ⟨t, congrArg Host.Outcome.next ((State.partDone_first parts done others only mine first).trans (mine ▸ finished)), requests,
    parts', mem, tokens, closed⟩

end

end Sys2Proof.Machine

namespace Sys2Proof.Machine

/-! ## Row engines, step by step -/

/-- Settles O21: parts are taken, fetched, written, faulted, lost and returned as the lemmas above say, step by step. -/
theorem rowEngineSteps : Obligations.RowEngineSteps := by
  unfold Obligations.RowEngineSteps
  dsimp only
  refine ⟨fun s k p e ep hk table epoch => ⟨?_, ?_, ?_, ?_, ?_, ?_⟩, fun s k p ps o hk parts done others only mine open_ => ⟨?_, ?_⟩⟩
  case refine_1 =>
    intro it active runs input parts fetches misses gather pOpen items slices got distinct fetched inside resident _ plain home
    obtain ⟨sketch, occ, high, cnt, window, run, counts⟩ := requestPart_gather hk table epoch rfl active runs input parts fetches pOpen
      gather items slices plain inside resident home
    refine ⟨_, run, ?_⟩
    rw [State.engine_putEngine_self hk]
    exact ⟨rfl, rfl, by simp [got, fetched, pOpen], counts, rfl, rfl⟩
  case refine_2 =>
    intro active runs input parts fetches misses write unnumbered pOpen got from_ some_ few current rows
    obtain ⟨high, run⟩ := requestPart_update hk table epoch rfl active runs input parts fetches pOpen (by omega) unnumbered got from_ some_
      few current rows
    refine ⟨_, run, ?_⟩
    rw [State.engine_putEngine_self hk]
    exact ⟨rfl, by simp [pOpen], rfl, rfl⟩
  case refine_3 => exact fun out => requestPart_lost hk out rfl
  case refine_4 =>
    intro f fs parts fetches mine sameTable sameEpoch pOpen gather reads unshared misses resident tag home
    obtain ⟨high, cnt, mem, held, run⟩ := rowFetchDone_gather hk rfl parts fetches mine misses tag table
      (by rw [sameTable, sameEpoch, epoch]) resident pOpen gather reads unshared home
    refine ⟨_, run, ?_⟩
    rw [State.engine_putEngine_self hk]
    exact ⟨rfl, ⟨_, rfl, rfl, rfl, decide_eq_true_iff⟩, rfl⟩
  case refine_5 =>
    intro f fs parts fetches mine sameTable sameEpoch pOpen updates write misses tag least current resident unshared whole lost fits
      _ more entry
    obtain ⟨high, cnt, mem, M, run, counts, whole', lost', row⟩ := rowFetchDone_write hk rfl parts fetches mine misses tag table
      (by rw [sameTable, sameEpoch, epoch]) resident write updates least current unshared whole lost fits more entry
    have read := State.areaRead_written hk (x := { s.engine k with
      parts := [{ p with applied := p.applied ++ [f.pos] }], fetches := fs, tagsHigh := high, cnt := cnt, mem := mem }) whole' lost'
      (entry ▸ fits) row
    have self := State.engine_putEngine_self (s := { s with mem := M }) hk { s.engine k with
      parts := [{ p with applied := p.applied ++ [f.pos] }], fetches := fs, tagsHigh := high, cnt := cnt, mem := mem }
    rw [entry] at read
    refine ⟨_, run, read, entry ▸ row.rest, congrArg Engine.fetches self, congrArg Engine.parts self, fun thaw =>
      (congrArg Engine.cnt self).trans (counts thaw), rfl⟩
  case refine_6 =>
    intro err f fs fetches reads tag error
    obtain ⟨t, run, done, kept, valid, parts, cause⟩ := rowFetchDone_faults hk fetches reads tag error
    exact ⟨t, run, done, kept, valid, parts, by rw [cause]; cases err <;> rfl⟩
  case refine_7 =>
    intro j _ waiting first
    refine ⟨_, partDone_waits parts done others only mine first waiting, ?_, rfl, rfl, rfl⟩
    exact congrArg Engine.parts (State.engine_putEngine_self hk _)
  case refine_8 =>
    intro i waiting first write unmirrored good local_ here silent at_ free few
    obtain ⟨t, run, requests, kept, mem, tokens, closed⟩ := partDone_last hk parts done others only mine first waiting open_ (by omega)
      unmirrored good local_ here silent at_ free few
    exact ⟨t, run, requests, kept, mem, tokens, closed⟩

end Sys2Proof.Machine

namespace Sys2Proof.Machine

/-! ## Checks of a request whose lists lie in the scratchpad (R115) -/

section
variable {s : State} {d : Nat} {r : Request} {w n : Nat} (scratch : w.testBit 63 = true)
include scratch

/-- A request reads its own scratchpad as the step saw it (R59, R112). -/
theorem State.reqRead_scratch : s.reqRead d r w n = (r.snap.read 64 (addr57 w) n, s) := if_pos scratch

/-- An extent that stays within the scratchpad is mapped (R115). -/
theorem State.wordUnmapped_scratch {p : Nat} (fits : addr57 w + n ≤ 0x400000) : s.wordUnmapped p w n = none :=
  (if_pos scratch).trans (if_pos fits)

end

/-- An address word for the scratchpad, moved on, is one still (R112, R114). -/
theorem wordPlusN_scratch {w off : Nat} (scratch : w.testBit 63 = true) (small : off < 2 ^ 62) :
    Request.extents.wordPlusN w off = 2 ^ 63 + (addr57 w + off) ∧ (Request.extents.wordPlusN w off).testBit 63 = true := by
  have moved : Request.extents.wordPlusN w off = 2 ^ 63 + (addr57 w + off) := congrArg (· + (addr57 w + off)) (if_pos scratch)
  have below : addr57 w < 2 ^ 57 := Nat.mod_lt _ (by decide)
  refine ⟨moved, ?_⟩
  rw [moved, Nat.testBit_two_pow_add_eq, Nat.testBit_lt_two_pow (by omega)]
  rfl

/-- The rows of a write, read one by one from the scratchpad (R114, R115). -/
theorem State.readRows_scratch {s : State} {d : Nat} {r : Request} (scratch : r.dataAddr.testBit 63 = true) {n u : Nat}
    (few : n ≤ 4096) : (List.range n).foldl (fun x k =>
      (x.1 ++ [(x.2.reqRead d r (Request.extents.wordPlusN r.dataAddr (k * r.stride)) u).1],
        (x.2.reqRead d r (Request.extents.wordPlusN r.dataAddr (k * r.stride)) u).2)) (([], s) : List Data × State) =
    ((List.range n).map fun pos => r.snap.read 64 (addr57 (2 ^ 63 + (addr57 r.dataAddr + pos * r.stride))) u, s) := by
  induction n with
  | zero => rfl
  | succ n ih =>
    have wide : r.stride < 2 ^ 32 := Nat.mod_lt _ (by decide)
    have small : n * r.stride < 2 ^ 62 := by
      have := Nat.mul_le_mul (Nat.le_of_succ_le few) wide.le
      omega
    obtain ⟨moved, local_⟩ := wordPlusN_scratch scratch small
    rw [List.range_succ, List.foldl_append, ih (by omega), List.map_append]
    simp only [List.foldl_cons, List.foldl_nil, State.reqRead_scratch local_, List.map_cons, List.map_nil]
    rw [moved]

section
variable {s : State} {d : Nat} {r : Request} {ep : Epoch}

/-- A request of any batch binds the current epoch of its table while none is being published (R116). -/
theorem State.bindEpoch_current (own : r.mirror = none) (any : r.anyEpoch = true)
    (settled : (s.svc r.part).publishing.find? (fun x => x.1 == r.table) = none) (current : s.current r.table = some ep) :
    s.bindEpoch d r = (ep.no, s) := by
  unfold State.bindEpoch
  rw [own, any, settled, current]
  rfl

variable {e : TableEntry} (mine : r.carried = false) (op : bits (r.w 0) 7 0 = r.op) (plain : r.pooled = false) (untiled : r.destTile = false)
  (some_ : 0 < r.nidx) (few : r.nidx ≤ if r.op = 1 then 2 ^ 24 else 4096)
  (aligned : r.stride % 16 = 0) (wide : r.unit e ≤ r.stride) (table : s.table r.part r.table = some e) (any : r.anyEpoch = true)
  (bound : s.bindEpoch d r = (ep.no, s)) (scratch : r.idxAddr.testBit 63 = true) (fits : addr57 r.idxAddr + 4 * r.nidx ≤ 0x400000)
  (clean : (r.snap.read 64 (addr57 r.idxAddr) (4 * r.nidx)).marked = false)
include mine op plain untiled some_ few aligned wide table any bound scratch fits clean

/-- A legal request that pools nothing, whose lists lie in the scratchpad unmarked, passes every check (R115). -/
theorem State.checkRequest_legal {q : Request}
    (lists : q = { r with idx := leList 4 r.nidx (r.snap.read 64 (addr57 r.idxAddr) (4 * r.nidx)).bytes })
    (legal : if r.op = 1 then r.mode ≤ 3 ∧ (r.fmt ≤ 4 ∨ (r.fmt = 15 ∧ 2 ≤ r.mode)) else
      r.mode = 0 ∧ (r.op = 3 ∨ r.fmt = 0 ∨ r.fmt = 1 ∨ r.fmt = 10)) (noAdd : r.op ≠ 2)
    (mapped : ∀ x ∈ q.extents e (if q.op = 1 then s.outRows d q e (s.epoch q.table ep.no) else 0), s.wordUnmapped q.part x.1 x.2.1 = none ∧
        (x.2.2 = true → s.wordRefused q.part x.1 x.2.1 = none)) {rows : List Data}
    (read : (if q.op = 1 then ([], s) else (List.range q.nidx).foldl (fun x k =>
      (x.1 ++ [(x.2.reqRead d q (Request.extents.wordPlusN q.dataAddr (k * q.stride)) (q.unit e)).1],
        (x.2.reqRead d q (Request.extents.wordPlusN q.dataAddr (k * q.stride)) (q.unit e)).2)) (([], s) : List Data × State)) = (rows, s))
    (unmarked : rows.any Data.marked = false) :
    s.checkRequest d r = (0, { q with bags := leList 2 q.nbags [], rows := rows.map Data.bytes }, ep.no, s) := by
  have sized : ¬ (r.nidx = 0 ∨ (if r.op = 1 then 2 ^ 24 else 4096) < r.nidx ∨ ((r.pooled = true) ∧ r.nbags = 0) ∨ r.stride % 16 ≠ 0 ∨
      (s.table r.part r.table).any (fun e => decide (r.stride < r.unit e)) = true) := by
    rw [plain, table]
    simp only [Bool.false_eq_true, false_and, false_or, aligned, Option.any_some, decide_eq_true_eq]
    omega
  have bound' : s.bindEpoch d q = (ep.no, s) := lists ▸ bound
  obtain ⟨mine', plain', untiled', any', noAdd'⟩ : q.carried = false ∧ q.pooled = false ∧ q.destTile = false ∧ q.anyEpoch = true ∧
      q.op ≠ 2 := by
    rw [lists]
    exact ⟨mine, plain, untiled, any, noAdd⟩
  have unmapped : ((q.extents e (if q.op = 1 then s.outRows d q e (s.epoch q.table ep.no) else 0)).any fun x =>
      (s.wordUnmapped q.part x.1 x.2.1).isSome) = false := by
    rw [List.any_eq_false]
    exact fun x hx => by simp [(mapped x hx).1]
  have refused : ((q.extents e (if q.op = 1 then s.outRows d q e (s.epoch q.table ep.no) else 0)).any fun x =>
      x.2.2 && (s.wordRefused q.part x.1 x.2.1).isSome) = false := by
    rw [List.any_eq_false]
    intro x hx
    by_cases written : x.2.2 = true
    · simp [(mapped x hx).2 written]
    · simp [written]
  refine (if_neg ?_).trans ((if_neg sized).trans ?_)
  · simp only [op, legal, mine, decide_true, Bool.not_true]
    simp
  simp only [mine, State.wordUnmapped_scratch scratch fits, State.reqRead_scratch scratch, Bool.false_or, Option.isNone_none, Bool.not_true,
    Bool.false_eq_true, or_self, if_false, ← lists, bound', table, untiled', any', noAdd', mine', plain', false_and, and_false, unmapped,
    refused, clean, read, unmarked]
  exact (if_neg (by simp [Data.marked])).trans (if_neg fun h => absurd (plain'.symm.trans h.1) (by decide))

end

/-! ## Routing (R107, R109, R116) -/

/-- Where no replica set exists, the home serves every row (R108). -/
theorem State.serving_home {s : State} (none : ∀ x ∈ s.engines, x.replicas = []) (d : Nat) (e : TableEntry) (ep : Option Epoch) (row : Nat) :
    s.serving d e ep row = e.home ep row := by
  have unshared (k : Nat) : (s.engine k).replicas = [] := by
    by_cases hk : k < s.engines.length
    · exact none _ (by simp [State.engine, List.getD_eq_getElem?_getD, hk])
    · rw [State.engine, List.getD_eq_default _ _ (by omega)]
      rfl
  unfold State.serving
  cases ep with
  | none => rfl
  | some x =>
    dsimp only
    rw [unshared]
    rfl

/-- A request without a tile register, of which the cell holds none, leaves the tile registers alone (R118). -/
theorem State.fixTile_none {s : State} {r : Request} (untiled : r.destTile = false)
    (none : ∀ l ∈ (s.cell (s.reqPos r)).comp.lands, l.req ≠ r.id) : s.fixTile r = s := by
  have free : (s.cell (s.reqPos r)).comp.lands.find? (fun l => l.req == r.id) = Option.none := by
    rw [List.find?_eq_none]
    exact fun l hl => by simpa using none l hl
  unfold State.fixTile
  dsimp only
  rw [free, untiled]
  split <;> rfl

/-- The index positions that each home serves, in list order (R107). -/
theorem homeItems (idx : List Nat) (home : Nat → Nat) (k : Nat) :
    ((idx.mapIdx fun pos row => (home row, (⟨pos, row⟩ : Item))).filter fun x => x.1 == k).map Prod.snd =
      (idx.mapIdx fun pos row => (⟨pos, row⟩ : Item)).filter fun x => home x.row == k := by
  have paired : (idx.mapIdx fun pos row => (home row, (⟨pos, row⟩ : Item))) =
      (idx.mapIdx fun pos row => (⟨pos, row⟩ : Item)).map fun x => (home x.row, x) :=
    List.ext_getElem (by simp) fun i _ _ => by simp
  rw [paired, List.filter_map, List.map_map]
  exact List.map_id _

/-- The homes of a request's rows, each once (R107). -/
theorem mem_homes (idx : List Nat) (home : Nat → Nat) (k : Nat) :
    k ∈ ((idx.mapIdx fun pos row => (home row, (⟨pos, row⟩ : Item))).map Prod.fst).dedup.mergeSort (· ≤ ·) ↔ ∃ row ∈ idx, home row = k := by
  have firsts : (idx.mapIdx fun pos row => (home row, (⟨pos, row⟩ : Item))).map Prod.fst = idx.map home :=
    List.ext_getElem (by simp) fun i _ _ => by simp
  rw [firsts, List.mem_mergeSort, List.mem_dedup, List.mem_map]

theorem State.engine_putEngine_ne {s : State} {k j : Nat} (x : Engine) (other : k ≠ j) : (s.putEngine j x).engine k = s.engine k := by
  simp [State.putEngine, State.engine, List.getD_eq_getElem?_getD, Ne.symm other]

/-- One part is sent to each engine of a list (R107). -/
theorem State.sendParts (new : Nat → Nat → Part) (l : List Nat) (distinct : l.Nodup) (s : State) : ∃ engines nextId,
    l.foldl (fun s k => s.newId.2.modEngine k fun x => { x with input := x.input ++ [new s.newId.1 k] }) s =
      { s with engines, nextId } ∧ ∀ k, (k ∉ l → engines.getD k .fresh = s.engine k) ∧
        (k ∈ l → k < s.engines.length → ∃ id, engines.getD k .fresh =
          { s.engine k with input := (s.engine k).input ++ [new id k] }) := by
  induction l generalizing s with
  | nil => exact ⟨s.engines, s.nextId, rfl, fun k => ⟨fun _ => rfl, by simp⟩⟩
  | cons j l ih =>
    obtain ⟨here, rest⟩ := List.nodup_cons.1 distinct
    obtain ⟨engines, nextId, sent, each⟩ := ih rest (s.newId.2.modEngine j fun x => { x with input := x.input ++ [new s.newId.1 j] })
    rw [State.modEngine_eq_putEngine] at sent each
    refine ⟨engines, nextId, (congrArg (List.foldl _ · l) (State.modEngine_eq_putEngine ..)).trans sent, fun k => ?_⟩
    obtain ⟨others, mine⟩ := each k
    by_cases same : k = j
    · subst same
      exact ⟨fun out => absurd List.mem_cons_self out, fun _ hk =>
        ⟨s.newId.1, (others here).trans (State.engine_putEngine_self hk _)⟩⟩
    · rw [State.engine_putEngine_ne _ same, State.putEngine_length] at mine
      rw [State.engine_putEngine_ne _ same] at others
      exact ⟨fun out => others fun mem => out (List.mem_cons_of_mem _ mem), fun mem => mine ((List.mem_cons.1 mem).resolve_left same)⟩

end Sys2Proof.Machine

namespace Sys2Proof.Machine

/-- The part of a request that an engine is sent (R107). -/
def Request.sent (r : Request) (epoch deadline id : Nat) (items : List Item) : Part :=
  { id, req := r.id, part := r.part, table := r.table, epoch, op := r.op, fmt := r.fmt, src := r.src, seq := r.seq, anyEpoch := r.anyEpoch
    deadline, items, got := [], slices := 0, window := 0, distinct := [], rows := [], entries := items.map fun x => r.rows.getD x.pos []
    next := 0, skipTo := 0, applied := [], seqSkip := false, stale := 0, range := 0, poisoned := 0, fetched := 0, done := false, status := 0 }

/-- A checked request has been split by the homes of its rows: o is open, and each engine has its part (R107). -/
structure State.Routed (s : State) (d : Nat) (r : Request) (epoch : Nat) (home : Nat → Nat) (o : OpenReq) (t : State) : Prop where
  state : ∃ engines nextId, t = { s with openReqs := s.openReqs ++ [o], engines, nextId }
  request : o.r = r
  die : o.die = d
  bound : o.epoch = epoch
  parts : o.parts = []
  result : o.result = none
  served : o.waiting = o.served
  distinct : o.waiting.Nodup
  homes : ∀ k, k ∈ o.waiting ↔ ∃ row ∈ r.idx, home row = k
  others : ∀ k, (∀ row ∈ r.idx, home row ≠ k) → t.engine k = s.engine k
  mine : ∀ k ∈ o.waiting, k < s.engines.length → ∃ deadline id, t.engine k = { s.engine k with
    input := (s.engine k).input ++ [r.sent epoch deadline id
      ((r.idx.mapIdx fun pos row => (⟨pos, row⟩ : Item)).filter fun x => home x.row == k)] }

/-- A request that asks the row cache for nothing is split by home (R107, R109). -/
theorem State.route_homes {s : State} {d : Nat} {r : Request} {e : TableEntry} {epoch : Nat} {home : Nat → Nat}
    (uncached : r.op ≠ 1 ∨ e.cache = false) (untiled : s.fixTile r = s)
    (serve : ∀ row, (if r.op = 1 then s.serving d e (s.epoch r.table epoch) row else e.home (s.epoch r.table epoch) row) = home row) :
    ∃ o, s.Routed d r epoch home o (s.route d r e epoch) := by
  have missed : s.lookupAll d r e epoch = ([], s) := if_pos (uncached.imp_right fun off => by simp [off])
  unfold State.route
  dsimp only
  rw [missed]
  dsimp only
  simp only [untiled, serve, homeItems, List.any_nil, Bool.not_false, List.filter_true]
  have distinct : (((r.idx.mapIdx fun pos row => (home row, (⟨pos, row⟩ : Item))).map Prod.fst).dedup.mergeSort (· ≤ ·)).Nodup :=
    (List.mergeSort_perm ..).nodup_iff.2 (List.nodup_dedup _)
  have homes := mem_homes r.idx home
  generalize List.mergeSort _ _ = l at distinct homes ⊢
  obtain ⟨engines, nextId, sent, each⟩ := State.sendParts (fun id k => r.sent epoch (s.coldDue d r e) id
    ((r.idx.mapIdx fun pos row => (⟨pos, row⟩ : Item)).filter fun x => home x.row == k)) l distinct { s with openReqs := _ }
  generalize routed : List.foldl _ _ l = t
  have state := routed.symm.trans sent
  have engine (k : Nat) : t.engine k = engines.getD k .fresh := by rw [state]; rfl
  refine ⟨_, ⟨engines, nextId, state⟩, rfl, rfl, rfl, rfl, rfl, rfl, distinct, homes, fun k out => ?_, fun k mem hk => ?_⟩
  · exact (engine k).trans ((each k).1 fun mem => ((homes k).1 mem).elim fun row both => out row both.1 both.2)
  · obtain ⟨id, mine⟩ := (each k).2 mem hk
    exact ⟨_, id, (engine k).trans mine⟩

/-! ## The front end of a die (R107, R115) -/

section
variable {s : State} {d : Nat} {r : Request} {l : List Request} (queue : (s.die d).queue = r :: l) (own : r.carried = false)
include queue own

/-- A request whose header lies in the scratchpad unmarked, and that passes its checks, is routed (R107, R115). -/
theorem State.frontEnd_routes (aligned : addr57 r.addr % 64 = 0) (scratch : r.addr.testBit 63 = true)
    (fits : addr57 r.addr + 64 ≤ 0x400000) (clean : (r.snap.read 64 (addr57 r.addr) 64).marked = false) {t : State} {q : Request}
    {epoch : Nat} (checked : (s.modDie d fun x => { x with queue := l }).checkRequest d
      { r with words := leList 8 8 (r.snap.read 64 (addr57 r.addr) 64).bytes } = (0, q, epoch, t)) {e : TableEntry}
    (table : t.table q.part q.table = some e) : s.frontEnd d = (t.route d q e epoch).finishReq q.id := by
  unfold State.frontEnd
  rw [queue]
  dsimp only
  rw [own, if_neg (by decide), if_neg (not_not.2 aligned), State.wordUnmapped_scratch scratch fits, if_neg (by simp),
    State.reqRead_scratch scratch]
  dsimp only
  rw [clean, if_neg (by decide), checked]
  dsimp only
  rw [if_neg (by simp), table]

/-- A request whose header is not aligned is answered with BAD_REQUEST (R115, R119). -/
theorem State.frontEnd_misaligned (misaligned : addr57 r.addr % 64 ≠ 0) :
    s.frontEnd d = (s.modDie d fun x => { x with queue := l }).refuse d r 2 false false := by
  unfold State.frontEnd
  rw [queue]
  dsimp only
  rw [own, if_neg (by decide), if_pos misaligned]

end

end Sys2Proof.Machine

namespace Sys2Proof.Machine

@[simp] theorem leList_length (size n : Nat) (b : Bytes) : (leList size n b).length = n := by simp [leList]

/-- A request whose lists have been read from the scratchpad as the step saw it (R59, R113, R114). -/
structure Request.Listed (r : Request) (e : TableEntry) (q : Request) : Prop where
  lists : ∃ bags rows, q = { r with
    idx := leList 4 r.nidx (r.snap.read 64 (addr57 r.idxAddr) (4 * r.nidx)).bytes, bags := bags, rows := rows }
  rows : r.op = 3 → q.rows = (List.range r.nidx).map fun pos =>
    (r.snap.read 64 (addr57 (2 ^ 63 + (addr57 r.dataAddr + pos * r.stride))) e.len).bytes

section
variable {s : State} {d : Nat} {r : Request} {e : TableEntry} {ep : Epoch}

/-- A gather of rows one by one writes a row for each of its positions (R117). -/
theorem State.outRows_each (plain : r.pooled = false) (mode : r.mode = 2) (ep : Option Epoch) : s.outRows d r e ep = r.nidx := by
  rw [State.outRows, plain, if_neg (by decide), if_pos mode]

/-- A legal gather of rows one by one, or a legal write of whole rows, whose lists lie in the scratchpad unmarked, passes its checks,
with its lists read (R113 to R115). -/
theorem State.checkRequest_plain (own : r.carried = false) (op : bits (r.w 0) 7 0 = r.op)
    (kind : (r.op = 1 ∧ r.mode = 2 ∧ r.fmt ≤ 4 ∧ r.destTile = false) ∨ (r.op = 3 ∧ r.mode = 0 ∧ r.dataAddr.testBit 63 = true ∧
      ∀ pos < r.nidx, (r.snap.read 64 (addr57 (2 ^ 63 + (addr57 r.dataAddr + pos * r.stride))) e.len).marked = false))
    (some_ : 0 < r.nidx) (few : r.nidx ≤ if r.op = 1 then 2 ^ 24 else 4096) (aligned : r.stride % 16 = 0) (wide : r.unit e ≤ r.stride)
    (table : s.table r.part r.table = some e) (any : r.anyEpoch = true) (bound : s.bindEpoch d r = (ep.no, s))
    (scratch : r.idxAddr.testBit 63 = true) (fits : addr57 r.idxAddr + 4 * r.nidx ≤ 0x400000)
    (clean : (r.snap.read 64 (addr57 r.idxAddr) (4 * r.nidx)).marked = false)
    (mapped : ∀ x ∈ r.extents e (if r.op = 1 then r.nidx else 0), s.wordUnmapped r.part x.1 x.2.1 = none ∧
        (x.2.2 = true → s.wordRefused r.part x.1 x.2.1 = none)) : ∃ q, r.Listed e q ∧ s.checkRequest d r = (0, q, ep.no, s) := by
  rcases kind with ⟨gather, mode, fmt, untiled⟩ | ⟨write, mode, data, unmarked⟩
  · have plain : r.pooled = false := by simp [Request.pooled, gather, mode]
    refine ⟨_, ⟨⟨_, [], rfl⟩, fun write => absurd gather (by omega)⟩, State.checkRequest_legal own op plain untiled some_ few aligned wide
      table any bound scratch fits clean rfl ?_ (by omega) (rows := []) ?_ ?_ rfl⟩
    · rw [if_pos gather]
      exact ⟨by omega, .inl fmt⟩
    · rw [if_pos gather] at mapped ⊢
      rw [State.outRows_each (r := { r with idx := leList 4 r.nidx (r.snap.read 64 (addr57 r.idxAddr) (4 * r.nidx)).bytes }) plain mode]
      exact mapped
    · exact if_pos gather
  · have add : r.op ≠ 1 := by omega
    have plain : r.pooled = false := by simp [Request.pooled, add]
    have unit : r.unit e = e.len := if_pos (.inl write)
    have untiled : r.destTile = false := by simp [Request.destTile, add]
    rw [if_neg add] at few
    refine ⟨_, ⟨⟨_, _, rfl⟩, fun _ => ?_⟩, State.checkRequest_legal own op plain untiled some_ (by rwa [if_neg add]) aligned wide table any
      bound scratch fits clean rfl ?_ (by omega) ?_ ((if_neg add).trans (State.readRows_scratch data few)) ?_⟩
    · rw [List.map_map, ← unit]
      rfl
    · rw [if_neg add]
      exact ⟨mode, .inl write⟩
    · rw [if_neg add] at mapped ⊢
      exact mapped
    · rw [List.any_eq_false]
      rintro x hx
      obtain ⟨pos, hpos, rfl⟩ := List.mem_map.1 hx
      show ¬ (r.snap.read 64 _ (r.unit e)).marked = true
      rw [unit]
      simpa using unmarked pos (List.mem_range.1 hpos)

end

/-- Two states with the same ranges map the same addresses, and refuse the same writes (R260). -/
theorem State.wordUnmapped_congr {s t : State} (same : t.ranges = s.ranges) (p w n : Nat) :
    t.wordUnmapped p w n = s.wordUnmapped p w n ∧ t.wordRefused p w n = s.wordRefused p w n := by
  have pieces : t.pieces p (addr57 w) n = s.pieces p (addr57 w) n := State.pieces_congr same
  have unmapped : t.wordUnmapped p w n = s.wordUnmapped p w n := by
    simp only [State.wordUnmapped, State.unmapped, pieces]
  exact ⟨unmapped, by simp only [State.wordRefused, State.refused, unmapped, pieces]⟩

section
variable {s : State} {d : Nat} {r : Request} {e : TableEntry} {ep : Epoch} (op : bits (r.w 0) 7 0 = r.op)
    (kind : (r.op = 1 ∧ r.mode = 2 ∧ r.fmt ≤ 4 ∧ r.destTile = false ∧ e.cache = false ∧ (∀ x ∈ s.engines, x.replicas = [])) ∨
      (r.op = 3 ∧ r.mode = 0 ∧ r.dataAddr.testBit 63 = true ∧
        ∀ pos < r.nidx, (r.snap.read 64 (addr57 (2 ^ 63 + (addr57 r.dataAddr + pos * r.stride))) e.len).marked = false))
    (some_ : 0 < r.nidx) (few : r.nidx ≤ if r.op = 1 then 2 ^ 24 else 4096) (aligned : r.stride % 16 = 0) (wide : r.unit e ≤ r.stride)
    (table : s.table r.part r.table = some e) (any : r.batch = 0xFFFFFFFF)
    (settled : (s.svc r.part).publishing.find? (fun x => x.1 == r.table) = none) (current : s.current r.table = some ep)
    (epoch : s.epoch r.table ep.no = some ep)
    (lists : r.idxAddr.testBit 63 = true) (listsFit : addr57 r.idxAddr + 4 * r.nidx ≤ 0x400000)
    (listsClean : (r.snap.read 64 (addr57 r.idxAddr) (4 * r.nidx)).marked = false)
    (lands : ∀ l ∈ (s.cell (s.reqPos r)).comp.lands, l.req ≠ r.id)
    (mapped : ∀ x ∈ r.extents e (if r.op = 1 then r.nidx else 0), s.wordUnmapped r.part x.1 x.2.1 = none ∧
        (x.2.2 = true → s.wordRefused r.part x.1 x.2.1 = none))
include op kind some_ few aligned wide table any settled current epoch lists listsFit listsClean lands mapped

/-- A legal request is split by home once it has been checked (R107, R115). -/
theorem State.checked_routed (sent : r.mirror = none) (local_ : r.reply = none) : ∃ q o, r.Listed e q ∧
    s.checkRequest d r = (0, q, ep.no, s) ∧ s.Routed d q ep.no (e.home (some ep)) o (s.route d q e ep.no) := by
  have own : r.carried = false := by simp [Request.carried, sent, local_]
  have any' : r.anyEpoch = true := by simp [Request.anyEpoch, any]
  have bound : s.bindEpoch d r = (ep.no, s) := State.bindEpoch_current sent any' settled current
  obtain ⟨q, listed, checked⟩ := State.checkRequest_plain own op (kind.imp_left fun gather => ⟨gather.1, gather.2.1, gather.2.2.1,
    gather.2.2.2.1⟩) some_ few aligned wide table any' bound lists listsFit listsClean mapped
  obtain ⟨bags, rows, same⟩ := listed.lists
  have words : q.words = r.words ∧ q.op = r.op := by rw [same]; exact ⟨rfl, rfl⟩
  have tile : s.fixTile q = s := by
    refine State.fixTile_none ?_ ?_
    · rcases kind with ⟨-, -, -, untiled, -⟩ | ⟨write, -⟩
      · rw [same]; exact untiled
      · simp [Request.destTile, words, write]
    · rw [same]; exact lands
  have uncached : q.op ≠ 1 ∨ e.cache = false := by
    rcases kind with ⟨-, -, -, -, uncached, -⟩ | ⟨write, -⟩
    · exact .inr uncached
    · exact .inl (by omega)
  have serve (row : Nat) : (if q.op = 1 then s.serving d e (s.epoch q.table ep.no) row else e.home (s.epoch q.table ep.no) row) =
      e.home (some ep) row := by
    have known : s.epoch q.table ep.no = some ep := by rw [same]; exact epoch
    rw [known]
    rcases kind with ⟨gather, -, -, -, -, unshared⟩ | ⟨write, -⟩
    · rw [if_pos (by omega), State.serving_home unshared]
    · rw [if_neg (by omega)]
  obtain ⟨o, routed⟩ := State.route_homes uncached tile serve
  exact ⟨q, o, listed, checked, routed⟩

/-- The front end takes a legal request whose header and lists lie in the scratchpad unmarked, and splits it by home (R107, R115). -/
theorem State.frontEnd_routed {u : State} {a : Request} {l : List Request} (queue : (u.die d).queue = a :: l) (sent : a.mirror = none)
    (local_ : a.reply = none) (placed : addr57 a.addr % 64 = 0) (scratch : a.addr.testBit 63 = true)
    (fits : addr57 a.addr + 64 ≤ 0x400000) (clean : (a.snap.read 64 (addr57 a.addr) 64).marked = false)
    (taken : s = u.modDie d fun x => { x with queue := l })
    (header : r = { a with words := leList 8 8 (a.snap.read 64 (addr57 a.addr) 64).bytes }) (new : ∀ o ∈ s.openReqs, o.r.id ≠ r.id) :
    ∃ q o, r.Listed e q ∧ s.Routed d q ep.no (e.home (some ep)) o (u.frontEnd d) := by
  obtain ⟨q, o, listed, checked, routed⟩ := State.checked_routed op kind some_ few aligned wide table any settled current epoch lists
    listsFit listsClean lands mapped (d := d) (by rw [header]; exact sent) (by rw [header]; exact local_)
  obtain ⟨bags, rows, same⟩ := listed.lists
  have known : s.table q.part q.table = some e := by rw [same]; exact table
  have run := State.frontEnd_routes queue (by simp [Request.carried, sent, local_]) placed scratch fits clean (t := s) (q := q)
    (epoch := ep.no) (by rw [← taken, ← header]; exact checked) known
  obtain ⟨engines, nextId, state⟩ := routed.state
  have waits : o.waiting ≠ [] := by
    have rows' : 0 < q.idx.length := by rw [same]; simpa using some_
    obtain ⟨row, mem⟩ := List.exists_mem_of_length_pos rows'
    exact List.ne_nil_of_mem ((routed.homes _).2 ⟨row, mem, rfl⟩)
  have open_ : (s.route d q e ep.no).openReqs = s.openReqs ++ [o] := by rw [state]
  have still := State.finishReq_waits open_ (fun x hx => by rw [routed.request, same]; exact new x hx) waits
  rw [routed.request] at still
  rw [still] at run
  exact ⟨q, o, listed, run ▸ routed⟩

end

end Sys2Proof.Machine

namespace Sys2Proof.Machine

/-- A request whose header is not aligned is answered with BAD_REQUEST and nothing else (R115, R119). -/
theorem State.frontEnd_refused {s : State} {d : Nat} {r : Request} {l : List Request} (queue : (s.die d).queue = r :: l)
    (sent : r.mirror = none) (local_ : r.reply = none) (misaligned : addr57 r.addr % 64 ≠ 0) {i : Nat} (at_ : s.posOf r.g = some i)
    (free : (s.cell i).held = none) : s.frontEnd d = ((s.modDie d fun x => { x with queue := l }).sendToken r.g r.q r.cls
      ⟨0x02000000, .frontEnd d, true, none, if r.destTile then some r.id else none⟩).closeAsync i r.id :=
  (State.frontEnd_misaligned queue (by simp [Request.carried, sent, local_]) misaligned).trans
    (State.answer_cell (s := s.modDie d fun x => { x with queue := l }) sent local_ at_ free d 2 0 _)

/-- The die that takes its oldest request (R107). -/
theorem State.queue_modDie {s : State} {d : Nat} (hd : d < s.dies.length) (l : List Request) :
    ((s.modDie d fun x => { x with queue := l }).die d).queue = l := by
  simp [State.modDie, State.die, List.getD_eq_getElem?_getD, hd]

/-- The items of a part are positions of its request's list (R107). -/
theorem pos_lt_of_mem_items {idx : List Nat} {f : Item → Bool} {x : Item}
    (mem : x ∈ (idx.mapIdx fun pos row => (⟨pos, row⟩ : Item)).filter f) : x.pos < idx.length := by
  obtain ⟨i, hi, rfl⟩ := List.mem_mapIdx.1 (List.mem_of_mem_filter mem)
  exact hi

theorem Request.Listed.names {r q : Request} {e : TableEntry} (listed : r.Listed e q) :
    q.id = r.id ∧ q.part = r.part ∧ q.op = r.op ∧ q.table = r.table := by
  obtain ⟨bags, rows, rfl⟩ := listed.lists
  exact ⟨rfl, rfl, rfl, rfl⟩

/-- The entries of a write part are the rows that lie at its positions (R114). -/
theorem Request.Listed.entries {r q : Request} {e : TableEntry} (listed : r.Listed e q) (write : r.op = 3) (items : List Item)
    (within : ∀ x ∈ items, x.pos < r.nidx) : items.map (fun x => q.rows.getD x.pos []) =
    items.map fun x => (r.snap.read 64 (addr57 (2 ^ 63 + (addr57 r.dataAddr + x.pos * r.stride))) e.len).bytes := by
  refine List.map_congr_left fun x mem => ?_
  rw [listed.rows write]
  simp [List.getD_eq_getElem?_getD, within x mem]

/-- Settles O20: checks and routing by `State.frontEnd_routed`, a header that is not aligned by `State.frontEnd_refused`. -/
theorem requestRouting : Obligations.RequestRouting := by
  unfold Obligations.RequestRouting
  dsimp only
  intro s d r l e ep hd queue sent local_
  refine ⟨?_, ?_⟩
  · intro placed scratch new fits clean op kind some_ few aligned wide table any settled current epoch lists listsFit listsClean lands mapped
    have ranges (p w n : Nat) := State.wordUnmapped_congr (s := s) (t := s.modDie d fun x => { x with queue := l }) rfl p w n
    obtain ⟨q, o, listed, routed⟩ := State.frontEnd_routed (s := s.modDie d fun x => { x with queue := l })
      (r := { r with words := leList 8 8 (r.snap.read 64 (addr57 r.addr) 64).bytes }) op kind some_ few aligned wide table any settled
      current epoch lists listsFit listsClean lands (fun x hx => by rw [(ranges ..).1, (ranges ..).2]; exact mapped x hx) queue sent local_
      placed scratch fits clean rfl rfl new
    generalize header : ({ r with words := leList 8 8 (r.snap.read 64 (addr57 r.addr) 64).bytes } : Request) = a at listed ⊢
    generalize taken : (s.modDie d fun x => { x with queue := l }) = u at routed
    obtain ⟨bags, rows, same⟩ := listed.lists
    obtain ⟨engines, nextId, state⟩ := routed.state
    have idx : q.idx = leList 4 a.nidx (r.snap.read 64 (addr57 a.idxAddr) (4 * a.nidx)).bytes := by rw [same, ← header]
    obtain ⟨sameId', samePart', sameOp', snap⟩ : a.id = r.id ∧ a.part = r.part ∧ a.op = r.op ∧ a.snap = r.snap := by
      rw [← header]
      exact ⟨rfl, rfl, rfl, rfl⟩
    have engine (k : Nat) : u.engine k = s.engine k := by rw [← taken]; rfl
    rw [← idx]
    refine ⟨s.frontEnd d, o, rfl, by rw [state, ← taken]; rfl, by rw [routed.request, same, ← header], by rw [routed.request], routed.die,
      routed.bound, routed.parts, routed.result, routed.served, routed.distinct, routed.homes, ?_, by rw [state, ← taken]; rfl,
      by rw [state, ← taken]; rfl, by rw [state, ← taken]; rfl, fun k out => (routed.others k out).trans (engine k), fun k mem hk => ?_⟩
    · rw [state, ← taken]
      exact State.queue_modDie hd l
    · obtain ⟨deadline, id, sent⟩ := routed.mine k mem (by rwa [← taken])
      rw [engine] at sent
      obtain ⟨sameId, samePart, sameOp, sameTable⟩ := listed.names
      have length : q.idx.length = a.nidx := by rw [idx, leList_length]
      refine ⟨_, sent, sameId.trans sameId', samePart.trans samePart', sameTable, rfl, sameOp.trans sameOp', rfl, rfl, rfl, fun write => ?_⟩
      have entries := listed.entries (sameOp'.trans write) ((q.idx.mapIdx fun pos row => (⟨pos, row⟩ : Item)).filter fun x =>
        e.home (some ep) x.row == k) fun x mem => (pos_lt_of_mem_items mem).trans_eq length
      rw [snap] at entries
      exact entries
  · intro i misaligned at_ free
    refine ⟨_, congrArg Host.Outcome.next (State.frontEnd_refused queue sent local_ misaligned at_ free), State.queue_modDie hd l, rfl, rfl, rfl,
      rfl, State.closeAsync_closes (State.posOf_lt (h := at_) ..) r.id⟩

end Sys2Proof.Machine
